-- ==== Sys2Proof/Word.lean ====
section
/-! DEFINITION. The word types of the RY-4384 their plainest arithmetic (R8: bit 0 is least significant), and the instruction forms. -/
namespace Sys2Proof

/-- A 64-bit scalar register, address or doubleword (R149). -/
abbrev Word := BitVec 64
/-- One byte of memory. -/
abbrev Byte := BitVec 8
/-- A 32-bit instruction word (R128). -/
abbrev Instr32 := BitVec 32

/-- `a div b` rounded up, for positive `b`. -/
def ceilDiv (a b : Nat) : Nat := (a + b - 1) / b

/-- The four instruction forms of R128, by LEN. -/
inductive Form where
  | base | ext | lit | extLit
  deriving DecidableEq, Repr

end Sys2Proof
end

