-- ==== Sys2Proof/Config.lean ====
section
/-! DEFINITION. What the spec leaves open: free values without a body (R10, log 7) and functions that outside standards define (log 15). -/
namespace Sys2Proof.Config

/-- The undefined bits of R10: draw `n` (a counter of the state), item `k` within the draw. Log 7. -/
opaque freeBits : Nat → Nat → BitVec 64

/-- The free choice between two outcomes that the ordering rules leave open (R112): draw `n`, item `k`. Log 7. -/
opaque freeChoice : Nat → Nat → Bool

/-- The same choice in lockstep mode: the slot plan fixes it by the hart and the cy since TSTART `n`, so that it is the same on every
run (R127, log 7). -/
opaque planOrder : Nat → Nat → Bool

/-- How many cys after the first in which it could issue a wait of a lockstep hart has its scheduled cy: the slot plan fixes it by the
hart and the cy since TSTART (R39, R309, log 9). -/
opaque planWait : Nat → Nat

/-- The scheduled completion of barrier `k` of lockstep gang `g` in cys from TSTART, as the slot plan gives it (R310, log 9). -/
opaque planBarrier : Nat → Nat → Nat

/-- How many cys after the first in which it could begin a follow-on sweep of a lockstep gang has its slot: the slot plan fixes it by the
core and the cy since TSTART (R241, log 9). -/
opaque planSweep : Nat → Nat

/-- The HSS signature of R334 over a report, made with the one-time index given. Log 15. -/
opaque hssSign : Nat → List Byte → List Byte

end Sys2Proof.Config
end

