-- ==== Sys2Proof/Syntax.lean ====
section
/-! DEFINITION. The syntax of the RY-4384: operand classes (R134), the fields of every form (R130, R131), and one
constructor per row of spec/opcode_table.json. A row without an encoding is a device event; its constructor takes what
identifies the event. -/
namespace Sys2Proof

/-- The three override fields of E2 when OVR = 1 (R131). -/
structure Ovr where
  a : BitVec 10
  b : BitVec 10
  d : BitVec 10
  deriving DecidableEq, Repr

/-- The fields that every instruction's words carry beside its operands (R130, R131), with the immediate of R133
(extended by R135, not scaled). A base form holds the values R132 gives: PRED 0, Z 0, RMO 7, no override, MIN and rows 0. -/
structure Ctl where
  form : Form
  sc : BitVec 4
  rp : Bool
  pred : BitVec 4
  z : Bool
  rmo : BitVec 3
  ovr : Option Ovr
  minor : BitVec 7
  rowa : BitVec 8
  rowb : BitVec 8
  imm : Word
  deriving DecidableEq, Repr

/-- The controls of a plain base form (R132). -/
def Ctl.plain : Ctl := ⟨.base, 0, false, 0, false, 7, none, 0, 0, 0, 0⟩

structure X3 where
  fn : BitVec 3
  xb : BitVec 5
  xa : BitVec 5
  xd : BitVec 5
  deriving DecidableEq, Repr
structure AT where
  fn : BitVec 2
  sz : BitVec 1
  xb : BitVec 5
  xa : BitVec 5
  xd : BitVec 5
  deriving DecidableEq, Repr
/-- The class immediate of XI, XL, BR, J and VI stands in `Ctl.imm`; the class holds the registers. -/
structure XI where
  xa : BitVec 5
  xd : BitVec 5
  deriving DecidableEq, Repr
structure XL where
  xd : BitVec 5
  deriving DecidableEq, Repr
structure BR where
  xb : BitVec 5
  xa : BitVec 5
  deriving DecidableEq, Repr
structure J where
  deriving DecidableEq, Repr
structure C where
  csr : BitVec 12
  rsv : BitVec 1
  xd : BitVec 5
  deriving DecidableEq, Repr
structure F where
  sp : BitVec 1
  kd : BitVec 4
  sco : BitVec 3
  xb : BitVec 5
  xa : BitVec 5
  deriving DecidableEq, Repr
structure V3 where
  vb : BitVec 6
  va : BitVec 6
  vd : BitVec 6
  deriving DecidableEq, Repr
structure VF where
  fn : BitVec 6
  va : BitVec 6
  vd : BitVec 6
  deriving DecidableEq, Repr
structure VI where
  va : BitVec 6
  vd : BitVec 6
  deriving DecidableEq, Repr
structure VX where
  rsv : BitVec 2
  xb : BitVec 5
  xa : BitVec 5
  vd : BitVec 6
  deriving DecidableEq, Repr
structure VVX where
  rsv : BitVec 1
  xb : BitVec 5
  va : BitVec 6
  vd : BitVec 6
  deriving DecidableEq, Repr
structure P3 where
  fn : BitVec 6
  pb : BitVec 4
  pa : BitVec 4
  pd : BitVec 4
  deriving DecidableEq, Repr
structure S3 where
  fn : BitVec 6
  sb : BitVec 4
  sa : BitVec 4
  sd : BitVec 4
  deriving DecidableEq, Repr
structure SX where
  rsv : BitVec 4
  xb : BitVec 5
  xa : BitVec 5
  sd : BitVec 4
  deriving DecidableEq, Repr
structure SV where
  rsv : BitVec 8
  v : BitVec 6
  sd : BitVec 4
  deriving DecidableEq, Repr
structure PL where
  nw : BitVec 18
  deriving DecidableEq, Repr

/-- One constructor per row of spec/opcode_table.json. -/
inductive Instr where
  /-- ADD (R154): Writes the sum of two scalar registers modulo 2^64 to XD. -/
  | add (c : Ctl) (o : X3)
  /-- SUB (R154): Writes the difference of two scalar registers modulo 2^64 to XD. -/
  | sub (c : Ctl) (o : X3)
  /-- AND (R154): Writes the bitwise AND of two scalar registers to XD. -/
  | and (c : Ctl) (o : X3)
  /-- OR (R154): Writes the bitwise OR of two scalar registers to XD. -/
  | or (c : Ctl) (o : X3)
  /-- XOR (R154): Writes the bitwise XOR of two scalar registers to XD. -/
  | xor (c : Ctl) (o : X3)
  /-- ANDN (R154): Writes X[XA] AND NOT X[XB] to XD. -/
  | andn (c : Ctl) (o : X3)
  /-- MIN (R154): Writes the signed minimum of two scalar registers to XD. -/
  | min (c : Ctl) (o : X3)
  /-- MAX (R154): Writes the signed maximum of two scalar registers to XD. -/
  | max (c : Ctl) (o : X3)
  /-- MINU (R154): Writes the unsigned minimum of two scalar registers to XD. -/
  | minu (c : Ctl) (o : X3)
  /-- MAXU (R154): Writes the unsigned maximum of two scalar registers to XD. -/
  | maxu (c : Ctl) (o : X3)
  /-- SLT (R154): Writes 1 to XD if X[XA] is less than X[XB] signed, else 0. -/
  | slt (c : Ctl) (o : X3)
  /-- SLTU (R154): Writes 1 to XD if X[XA] is less than X[XB] unsigned, else 0. -/
  | sltu (c : Ctl) (o : X3)
  /-- SLL (R154): Shifts X[XA] left by X[XB][5:0] into XD. -/
  | sll (c : Ctl) (o : X3)
  /-- SRL (R154): Shifts X[XA] right logically by X[XB][5:0] into XD. -/
  | srl (c : Ctl) (o : X3)
  /-- SRA (R154): Shifts X[XA] right arithmetically by X[XB][5:0] into XD. -/
  | sra (c : Ctl) (o : X3)
  /-- SEL (R154): Writes X[XA] to XD if X[XD] is nonzero, else X[XB]. -/
  | sel (c : Ctl) (o : X3)
  /-- MUL (R156): Writes the low 64 bits of the product to XD. -/
  | mul (c : Ctl) (o : X3)
  /-- MULH (R156): Writes the high 64 bits of the signed product to XD. -/
  | mulh (c : Ctl) (o : X3)
  /-- MULHU (R156): Writes the high 64 bits of the unsigned product to XD. -/
  | mulhu (c : Ctl) (o : X3)
  /-- DIV (R156): Writes the signed quotient truncated toward zero, with defined results for zero and overflow. -/
  | div (c : Ctl) (o : X3)
  /-- DIVU (R156): Writes the unsigned quotient, or all ones on division by zero. -/
  | divu (c : Ctl) (o : X3)
  /-- REM (R156): Writes the signed remainder, with defined results for zero and overflow. -/
  | rem (c : Ctl) (o : X3)
  /-- REMU (R156): Writes the unsigned remainder, or the dividend on division by zero. -/
  | remu (c : Ctl) (o : X3)
  /-- CLZ (R157): Writes the count of leading zero bits of X[XA] to XD. -/
  | clz (c : Ctl) (o : X3)
  /-- CTZ (R157): Writes the count of trailing zero bits of X[XA] to XD. -/
  | ctz (c : Ctl) (o : X3)
  /-- POPC (R157): Writes the count of one bits of X[XA] to XD. -/
  | popc (c : Ctl) (o : X3)
  /-- EXT (R157): Extracts a bit field of X[XA] described by X[XB] into XD, signed or unsigned. -/
  | ext (c : Ctl) (o : X3)
  /-- INS (R157): Inserts X[XA] into a bit field of X[XD] described by X[XB]. -/
  | ins (c : Ctl) (o : X3)
  /-- ADDI (R155): Adds a sign-extended immediate to X[XA] into XD. -/
  | addi (c : Ctl) (o : XI)
  /-- ANDI (R155): ANDs X[XA] with a sign-extended immediate into XD. -/
  | andi (c : Ctl) (o : XI)
  /-- ORI (R155): ORs X[XA] with a sign-extended immediate into XD. -/
  | ori (c : Ctl) (o : XI)
  /-- XORI (R155): XORs X[XA] with a sign-extended immediate into XD. -/
  | xori (c : Ctl) (o : XI)
  /-- SLLI (R155): Shifts X[XA] left by an immediate amount into XD. -/
  | slli (c : Ctl) (o : XI)
  /-- SRLI (R155): Shifts X[XA] right logically by an immediate amount into XD. -/
  | srli (c : Ctl) (o : XI)
  /-- SRAI (R155): Shifts X[XA] right arithmetically by an immediate amount into XD. -/
  | srai (c : Ctl) (o : XI)
  /-- SLTI (R155): Writes 1 to XD if X[XA] is less than the signed immediate, else 0. -/
  | slti (c : Ctl) (o : XI)
  /-- LI (R155): Writes a sign-extended immediate, IMM32 or literal to XD. -/
  | li (c : Ctl) (o : XL)
  /-- LA (R155): Writes PC plus four times the immediate to XD. -/
  | la (c : Ctl) (o : XL)
  /-- LD (R158): Loads 8 bytes from a local window into XD. -/
  | ld (c : Ctl) (o : XI)
  /-- LDU (R158): Loads 8 bytes from a local window into XD and writes the address back to XA. -/
  | ldu (c : Ctl) (o : XI)
  /-- ST (R158): Stores 8 bytes of X[XD] to a local window. -/
  | st (c : Ctl) (o : XI)
  /-- LDQ (R158): Loads 16 bytes from a local window into an even register pair. -/
  | ldq (c : Ctl) (o : XI)
  /-- STQ (R158): Stores an even register pair as 16 bytes to a local window. -/
  | stq (c : Ctl) (o : XI)
  /-- BTX (R255): Alias of STQ to a BTE aperture that starts a copy, closes a strip interval and releases. -/
  | btx (c : Ctl) (o : XI)
  /-- BEQ (R159): Branches when X[XA] equals X[XB]. -/
  | beq (c : Ctl) (o : BR)
  /-- BNE (R159): Branches when X[XA] differs from X[XB]. -/
  | bne (c : Ctl) (o : BR)
  /-- BLT (R159): Branches when X[XA] is signed less than X[XB]. -/
  | blt (c : Ctl) (o : BR)
  /-- BGE (R159): Branches when X[XA] is signed greater than or equal to X[XB]. -/
  | bge (c : Ctl) (o : BR)
  /-- BLTU (R159): Branches when X[XA] is unsigned less than X[XB]. -/
  | bltu (c : Ctl) (o : BR)
  /-- BGEU (R159): Branches when X[XA] is unsigned greater than or equal to X[XB]. -/
  | bgeu (c : Ctl) (o : BR)
  /-- JMP (R160): Jumps to PC plus four times OFF18. -/
  | jmp (c : Ctl) (o : J)
  /-- JAL (R160): Writes the return address to XD and jumps PC-relative. -/
  | jal (c : Ctl) (o : XL)
  /-- JALR (R160): Writes the return address to XD and jumps to X[XA] plus offset, trapping on a misaligned target. -/
  | jalr (c : Ctl) (o : XI)
  /-- LOOP (R161): Decrements X[XD] and branches while it is nonzero. -/
  | loop (c : Ctl) (o : XL)
  /-- WAITC (R162): Delays the next issue until GCYC passes TSTART plus X[XD] plus the immediate. -/
  | waitc (c : Ctl) (o : XL)
  /-- NOP (R163): Has no effect. -/
  | nop (c : Ctl) (o : X3)
  /-- EXIT (R163): Waits for landings, copies, flushes and system-scope performance, records the exit value and ends the hart. -/
  | exit (c : Ctl) (o : X3)
  /-- YIELD (R164): Holds the scalar unit for 1 cy and lets a pending pre-emption stop the hart after it. -/
  | yield (c : Ctl) (o : X3)
  /-- TRAP (R167): Raises a precise software trap of class 0x01 code 0x00 with EADDR from the immediate. -/
  | trap (c : Ctl) (o : XL)
  /-- BRK (R167): Halts the hart for the debugger under halt-on-break, or raises a software trap of code 0x01. -/
  | brk (c : Ctl) (o : X3)
  /-- RTE (R167): Waits for landings and returns from a handler to EPC at step ESTEP, restoring IE. -/
  | rte (c : Ctl) (o : X3)
  /-- CSRR (R168): Reads a CSR into XD. -/
  | csrr (c : Ctl) (o : C)
  /-- CSRW (R168): Writes X[XD] to a CSR, with the side effects of the owning rule. -/
  | csrw (c : Ctl) (o : C)
  /-- CSRS (R168): Sets the CSR bits that X[XD] holds. -/
  | csrs (c : Ctl) (o : C)
  /-- CSRC (R168): Clears the CSR bits that X[XD] holds. -/
  | csrc (c : Ctl) (o : C)
  /-- POOL (R140): A POOL header reached by execution raises a pool trap. -/
  | pool (c : Ctl) (o : PL)
  /-- SETVL (R171): Waits for landings and grants FOLD, RLEN, ROWS, TILES and VL, gating rows, spilling on a fold change and resetting generators. -/
  | setvl (c : Ctl) (o : X3)
  /-- SETVT (R172): Writes VTYPE from X[XA] and recomputes ILL. -/
  | setvt (c : Ctl) (o : X3)
  /-- VDECL (R173): Replaces a register's declaration, discards its planes and assigns its backing slot. -/
  | vdecl (c : Ctl) (o : VX)
  /-- VQRY (R175): Returns register, slot or tile-slot bookkeeping into XB. -/
  | vqry (c : Ctl) (o : VX)
  /-- VADD (R178): Adds two integer vectors elementwise, wrapping into D. -/
  | vadd (c : Ctl) (o : V3)
  /-- VSUB (R178): Subtracts two integer vectors elementwise, wrapping into D. -/
  | vsub (c : Ctl) (o : V3)
  /-- VADDS (R178): Adds two integer vectors with saturation, setting SAT. -/
  | vadds (c : Ctl) (o : V3)
  /-- VSUBS (R178): Subtracts two integer vectors with saturation, setting SAT. -/
  | vsubs (c : Ctl) (o : V3)
  /-- VMUL (R178): Multiplies two integer vectors elementwise, wrapping into D. -/
  | vmul (c : Ctl) (o : V3)
  /-- VMULH (R178): Writes the high part of the elementwise product. -/
  | vmulh (c : Ctl) (o : V3)
  /-- VMAC (R178): Adds the elementwise product to D. -/
  | vmac (c : Ctl) (o : V3)
  /-- VMIN (R178): Writes the elementwise minimum of values. -/
  | vmin (c : Ctl) (o : V3)
  /-- VMAX (R178): Writes the elementwise maximum of values. -/
  | vmax (c : Ctl) (o : V3)
  /-- VAND (R178): Writes the elementwise bitwise AND. -/
  | vand (c : Ctl) (o : V3)
  /-- VOR (R178): Writes the elementwise bitwise OR. -/
  | vor (c : Ctl) (o : V3)
  /-- VXOR (R178): Writes the elementwise bitwise XOR. -/
  | vxor (c : Ctl) (o : V3)
  /-- VANDN (R178): Writes the elementwise A AND NOT B. -/
  | vandn (c : Ctl) (o : V3)
  /-- VNEG (R179): Writes the elementwise negation. -/
  | vneg (c : Ctl) (o : VF)
  /-- VABS (R179): Writes the elementwise absolute value. -/
  | vabs (c : Ctl) (o : VF)
  /-- VNOT (R179): Writes the elementwise bitwise complement. -/
  | vnot (c : Ctl) (o : VF)
  /-- VMOV (R179): Copies A into D, reduced to D. -/
  | vmov (c : Ctl) (o : VF)
  /-- VCLZ (R179): Writes the leading-zero count of each element. -/
  | vclz (c : Ctl) (o : VF)
  /-- VPOPC (R179): Writes the one-bit count of each element. -/
  | vpopc (c : Ctl) (o : VF)
  /-- VWIDE (R179): Writes A reduced to the declared width of VD into all its planes. -/
  | vwide (c : Ctl) (o : VF)
  /-- VSHL (R180): Shifts each element left by an immediate. -/
  | vshl (c : Ctl) (o : VI)
  /-- VSHR (R180): Shifts each element's pattern right logically by an immediate. -/
  | vshr (c : Ctl) (o : VI)
  /-- VSRA (R180): Shifts each element right arithmetically by an immediate. -/
  | vsra (c : Ctl) (o : VI)
  /-- VSHV (R180): Shifts each element by the clamped amount of B. -/
  | vshv (c : Ctl) (o : V3)
  /-- VBOOL (R181): Applies a three-input truth table bitwise to A, B and D. -/
  | vbool (c : Ctl) (o : V3)
  /-- VCMP (R182): Compares A with B and writes a predicate. -/
  | vcmp (c : Ctl) (o : V3)
  /-- VSEL (R183): Selects A or B per element under a predicate. -/
  | vsel (c : Ctl) (o : V3)
  /-- VSPLAT (R183): Writes X[XA] plus an immediate to every element. -/
  | vsplat (c : Ctl) (o : VX)
  /-- VIOTA (R183): Writes X[XA] plus the element index to every element. -/
  | viota (c : Ctl) (o : VX)
  /-- VLUT (R184): Looks up each element's entry in a per-lane table. -/
  | vlut (c : Ctl) (o : V3)
  /-- PAND (R185): Writes the AND of two predicates. -/
  | pand (c : Ctl) (o : P3)
  /-- POR (R185): Writes the OR of two predicates. -/
  | por (c : Ctl) (o : P3)
  /-- PXOR (R185): Writes the XOR of two predicates. -/
  | pxor (c : Ctl) (o : P3)
  /-- PNOT (R185): Writes the complement of a predicate. -/
  | pnot (c : Ctl) (o : P3)
  /-- PANDN (R185): Writes PA AND NOT PB. -/
  | pandn (c : Ctl) (o : P3)
  /-- PCNT (R185): Counts the set elements of a predicate into a scalar register. -/
  | pcnt (c : Ctl) (o : P3)
  /-- PFIRST (R185): Keeps only the first set element of a predicate. -/
  | pfirst (c : Ctl) (o : P3)
  /-- PSET (R185): Sets a predicate to a fixed pattern code. -/
  | pset (c : Ctl) (o : P3)
  /-- PMOV (R185): Copies a predicate. -/
  | pmov (c : Ctl) (o : P3)
  /-- VRED_ADD (R186): Reduces active elements by exact sum into element 0. -/
  | vredAdd (c : Ctl) (o : VF)
  /-- VRED_MIN (R186): Reduces active elements by signed minimum into element 0. -/
  | vredMin (c : Ctl) (o : VF)
  /-- VRED_MAX (R186): Reduces active elements by signed maximum into element 0. -/
  | vredMax (c : Ctl) (o : VF)
  /-- VRED_MINU (R186): Reduces active elements by unsigned minimum into element 0. -/
  | vredMinu (c : Ctl) (o : VF)
  /-- VRED_MAXU (R186): Reduces active elements by unsigned maximum into element 0. -/
  | vredMaxu (c : Ctl) (o : VF)
  /-- VRED_AND (R186): Reduces active elements by bitwise AND into element 0. -/
  | vredAnd (c : Ctl) (o : VF)
  /-- VRED_OR (R186): Reduces active elements by bitwise OR into element 0. -/
  | vredOr (c : Ctl) (o : VF)
  /-- VRED_XOR (R186): Reduces active elements by bitwise XOR into element 0. -/
  | vredXor (c : Ctl) (o : VF)
  /-- VSCAN_ADD (R187): Writes exact prefix sums of active elements. -/
  | vscanAdd (c : Ctl) (o : VF)
  /-- VSCAN_MIN (R187): Writes prefix signed minima of active elements. -/
  | vscanMin (c : Ctl) (o : VF)
  /-- VSCAN_MAX (R187): Writes prefix signed maxima of active elements. -/
  | vscanMax (c : Ctl) (o : VF)
  /-- VSCAN_MINU (R187): Writes prefix unsigned minima of active elements. -/
  | vscanMinu (c : Ctl) (o : VF)
  /-- VSCAN_MAXU (R187): Writes prefix unsigned maxima of active elements. -/
  | vscanMaxu (c : Ctl) (o : VF)
  /-- VSCAN_AND (R187): Writes prefix bitwise ANDs of active elements. -/
  | vscanAnd (c : Ctl) (o : VF)
  /-- VSCAN_OR (R187): Writes prefix bitwise ORs of active elements. -/
  | vscanOr (c : Ctl) (o : VF)
  /-- VSCAN_XOR (R187): Writes prefix bitwise XORs of active elements. -/
  | vscanXor (c : Ctl) (o : VF)
  /-- VDOT (R188): Forms the bit-plane dot product of A and B in the dot register, skipping all-zero planes, into element 0. -/
  | vdot (c : Ctl) (o : V3)
  /-- VPERM (R190): Permutes elements within each row by the indices of B. -/
  | vperm (c : Ctl) (o : V3)
  /-- VSLIDE (R190): Slides elements within each row by X[XB]. -/
  | vslide (c : Ctl) (o : VVX)
  /-- VXCH (R191): Exchanges a plane group between tiles t and t XOR k. -/
  | vxch (c : Ctl) (o : V3)
  /-- VBCAST (R190): Broadcasts one element of each tile to the whole tile. -/
  | vbcast (c : Ctl) (o : VVX)
  /-- VFADD (R201): Adds floats elementwise with one rounding. -/
  | vfadd (c : Ctl) (o : V3)
  /-- VFSUB (R201): Subtracts floats elementwise with one rounding. -/
  | vfsub (c : Ctl) (o : V3)
  /-- VFMUL (R201): Multiplies floats elementwise with one rounding. -/
  | vfmul (c : Ctl) (o : V3)
  /-- VFMA (R201): Forms a·b + d with one rounding. -/
  | vfma (c : Ctl) (o : V3)
  /-- VFMS (R201): Forms a·b − d with one rounding. -/
  | vfms (c : Ctl) (o : V3)
  /-- VFNMA (R201): Forms d − a·b with one rounding. -/
  | vfnma (c : Ctl) (o : V3)
  /-- VFDIV (R201): Divides floats elementwise with one rounding. -/
  | vfdiv (c : Ctl) (o : V3)
  /-- VFSQRT (R208): Writes the rounded square root of each element. -/
  | vfsqrt (c : Ctl) (o : VF)
  /-- VFCLASS (R208): Writes a one-hot class mask of each element. -/
  | vfclass (c : Ctl) (o : VF)
  /-- VFCVT (R209): Converts between float formats with one rounding. -/
  | vfcvt (c : Ctl) (o : VF)
  /-- VFTOI (R210): Converts floats to integers, clamping with NV. -/
  | vftoi (c : Ctl) (o : VF)
  /-- VITOF (R211): Converts integers to floats with one rounding. -/
  | vitof (c : Ctl) (o : VF)
  /-- VFRED (R212): Reduces active float elements by add, min or max in tree order into element 0. -/
  | vfred (c : Ctl) (o : VF)
  /-- VMXQ (R213): Quantises A into MX blocks, writing element codes and scale codes. -/
  | vmxq (c : Ctl) (o : VF)
  /-- VMXD (R214): Dequantises MX elements by their block scales. -/
  | vmxd (c : Ctl) (o : VF)
  /-- VHAD (R215): Applies an unnormalised Hadamard transform to blocks of 16 or 32 elements. -/
  | vhad (c : Ctl) (o : VF)
  /-- VFMIN (R204): Writes minimumNumber of A and B. -/
  | vfmin (c : Ctl) (o : V3)
  /-- VFMAX (R204): Writes maximumNumber of A and B. -/
  | vfmax (c : Ctl) (o : V3)
  /-- VFCMP (R205): Compares floats and writes a predicate. -/
  | vfcmp (c : Ctl) (o : V3)
  /-- VFSGN (R206): Injects a sign bit into A's pattern. -/
  | vfsgn (c : Ctl) (o : V3)
  /-- VLDZ (R218): Expands a compressed stream into a register, setting VL, X[XB] and RESUME. -/
  | vldz (c : Ctl) (o : VX)
  /-- VSTZ (R217): Counts and writes a register as a compressed stream, or traps on overrun. -/
  | vstz (c : Ctl) (o : VX)
  /-- MCFG (R224): Writes MCFG and returns the old value after earlier matrix work ends. -/
  | mcfg (c : Ctl) (o : X3)
  /-- MZERO (R233): Zeroes every accumulator cell and clears CF, NA and NB. -/
  | mzero (c : Ctl) (o : V3)
  /-- MOP (R227): Adds the outer product of K terms of A and B into the accumulator. -/
  | mop (c : Ctl) (o : V3)
  /-- MOPS (R231): Adds a 2:4 structured-sparse product into the accumulator after checking metadata. -/
  | mops (c : Ctl) (o : V3)
  /-- MOPG (R232): Adds a product with B generated from seed records into the accumulator. -/
  | mopg (c : Ctl) (o : V3)
  /-- MDRAIN (R234): Drains accumulator rows to a register in int, rq or flt mode. -/
  | mdrain (c : Ctl) (o : V3)
  /-- MSCALE (R230): Loads one drain or exponent table from a register row. -/
  | mscale (c : Ctl) (o : VX)
  /-- MSAVE (R238): Saves the accumulator and CF into an image slot of a register. -/
  | msave (c : Ctl) (o : VX)
  /-- MREST (R238): Restores the accumulator and CF from an image slot. -/
  | mrest (c : Ctl) (o : VX)
  /-- MBURST (R239): Ramps the array up if needed and opens a hold. -/
  | mburst (c : Ctl) (o : XL)
  /-- MWAIT (R240): Waits for matrix work and optionally sweeps, then returns whether any CF is set. -/
  | mwait (c : Ctl) (o : X3)
  /-- SEXP (R249): Writes 64 generator bits of each element's seed. -/
  | sexp (c : Ctl) (o : V3)
  /-- SFIT (R250): Fits four coefficients to sixteen targets per element and writes record and error. -/
  | sfit (c : Ctl) (o : V3)
  /-- SARGMIN (R251): Finds the candidate element with least error and writes it to a scalar. -/
  | sargmin (c : Ctl) (o : VX)
  /-- VGEN (R252): Expands seed records into weights in register rows. -/
  | vgen (c : Ctl) (o : VX)
  /-- TLD (R194): Loads elements from word layout into a register. -/
  | tld (c : Ctl) (o : VX)
  /-- TST (R194): Stores active elements of a register into word layout. -/
  | tst (c : Ctl) (o : VX)
  /-- TLDX (R194): Loads elements from strided word layout into a register. -/
  | tldx (c : Ctl) (o : VX)
  /-- TSTX (R194): Stores active elements into strided word layout. -/
  | tstx (c : Ctl) (o : VX)
  /-- TWAIT (R197): Waits for selected landed bits and acquires. -/
  | twait (c : Ctl) (o : VX)
  /-- TCLR (R198): Clears the landed state of a buffer or register. -/
  | tclr (c : Ctl) (o : VX)
  /-- TQRY (R198): Returns 64 bits of landed state without acquiring. -/
  | tqry (c : Ctl) (o : VX)
  /-- BINPUT (R276): Appends an index–value pair to the hart's cart of a bin set. -/
  | binput (c : Ctl) (o : X3)
  /-- BINFLUSH (R277): Waits until earlier BINPUTs are written and advances cart counts. -/
  | binflush (c : Ctl) (o : X3)
  /-- KVAPP (R287): Appends one tagged token to a coach, opening a carriage when needed. -/
  | kvapp (c : Ctl) (o : X3)
  /-- RETSPAN (R288): Retires every owned carriage of a tag, optionally closing positions and releasing the prefix. -/
  | retspan (c : Ctl) (o : X3)
  /-- KVPIN (R289): Raises a carriage's PIN. -/
  | kvpin (c : Ctl) (o : X3)
  /-- KVUNPIN (R289): Lowers a carriage's PIN and frees it if due. -/
  | kvunpin (c : Ctl) (o : X3)
  /-- KVQRY_DESC (R292): Returns dword 0x20 of a coach descriptor. -/
  | kvqryDesc (c : Ctl) (o : X3)
  /-- KVQRY_POS (R292): Returns the live carriage holding a position. -/
  | kvqryPos (c : Ctl) (o : X3)
  /-- KVQRY_HDR (R292): Returns one header dword of a carriage. -/
  | kvqryHdr (c : Ctl) (o : X3)
  /-- KVQRY_COUNT (R292): Returns the owned and prefix carriage counts of a coach. -/
  | kvqryCount (c : Ctl) (o : X3)
  /-- SLD (R298): Loads pairs into a sparse register, checking them. -/
  | sld (c : Ctl) (o : SX)
  /-- SST (R298): Stores a sparse register's pairs and returns its length word. -/
  | sst (c : Ctl) (o : SX)
  /-- SADD (R297): Writes the union sum of two sparse registers. -/
  | sadd (c : Ctl) (o : S3)
  /-- SSUB (R297): Writes the union difference of two sparse registers. -/
  | ssub (c : Ctl) (o : S3)
  /-- SMUL (R297): Writes the intersection product of two sparse registers. -/
  | smul (c : Ctl) (o : S3)
  /-- SMAX (R297): Writes the union maximum of two sparse registers. -/
  | smax (c : Ctl) (o : S3)
  /-- SSCALE (R297): Scales a sparse register by a scalar. -/
  | sscale (c : Ctl) (o : S3)
  /-- SDOT (R299): Writes the exact dot product over the intersection of two sparse registers. -/
  | sdot (c : Ctl) (o : SX)
  /-- SXPAND (R300): Expands a sparse register into vector elements. -/
  | sxpand (c : Ctl) (o : SV)
  /-- SPACK (R300): Packs nonzero vector elements into a sparse register. -/
  | spack (c : Ctl) (o : SV)
  /-- SHACC (R301): Accumulates sparse pairs into a hash table by atomic probes. -/
  | shacc (c : Ctl) (o : SX)
  /-- SLEN (R298): Returns a sparse register's length word. -/
  | slen (c : Ctl) (o : SX)
  /-- AMO_ADD (R302): Atomically adds to a scratchpad word and returns the old value. -/
  | amoAdd (c : Ctl) (o : AT)
  /-- AMO_AND (R302): Atomically ANDs a scratchpad word and returns the old value. -/
  | amoAnd (c : Ctl) (o : AT)
  /-- AMO_OR (R302): Atomically ORs a scratchpad word and returns the old value. -/
  | amoOr (c : Ctl) (o : AT)
  /-- AMO_XOR (R302): Atomically XORs a scratchpad word and returns the old value. -/
  | amoXor (c : Ctl) (o : AT)
  /-- AMO_MIN (R302): Atomically applies signed minimum and returns the old value. -/
  | amoMin (c : Ctl) (o : AT)
  /-- AMO_MAX (R302): Atomically applies signed maximum and returns the old value. -/
  | amoMax (c : Ctl) (o : AT)
  /-- AMO_MINU (R302): Atomically applies unsigned minimum and returns the old value. -/
  | amoMinu (c : Ctl) (o : AT)
  /-- AMO_MAXU (R302): Atomically applies unsigned maximum and returns the old value. -/
  | amoMaxu (c : Ctl) (o : AT)
  /-- AMOCAS (R302): Atomically compares and swaps and returns the old value. -/
  | amocas (c : Ctl) (o : AT)
  /-- AMO_SWAP (R302): Atomically swaps and returns the old value. -/
  | amoSwap (c : Ctl) (o : AT)
  /-- AMOF_FP32 (R304): Atomically adds an FP32 value with RNE and returns the old value. -/
  | amofFp32 (c : Ctl) (o : AT)
  /-- AMOF_FP64 (R304): Atomically adds an FP64 value with RNE and returns the old value. -/
  | amofFp64 (c : Ctl) (o : AT)
  /-- AMOF_BF16 (R304): Atomically adds two BF16 values with RNE and returns the old value. -/
  | amofBf16 (c : Ctl) (o : AT)
  /-- AMOX (R306): Adds an FP32 value exactly into an exact-sum cell. -/
  | amox (c : Ctl) (o : AT)
  /-- AMOXR_FP32 (R307): Reads an exact-sum cell rounded to FP32, optionally zeroing it. -/
  | amoxrFp32 (c : Ctl) (o : AT)
  /-- AMOXR_FP64 (R307): Reads an exact-sum cell rounded to FP64, optionally zeroing it. -/
  | amoxrFp64 (c : Ctl) (o : AT)
  /-- FENCER (R308): Orders the hart's accesses over a range at a scope for the selected kinds. -/
  | fencer (c : Ctl) (o : F)
  /-- FENCE (R308): Orders the hart's accesses over all addresses at a scope for the selected kinds. -/
  | fence (c : Ctl) (o : F)
  /-- WAITM (R309): Waits for a condition on a scratchpad word and acquires. -/
  | waitm (c : Ctl) (o : X3)
  /-- GBAR (R310): Arrives at the gang's next barrier. -/
  | gbar (c : Ctl) (o : X3)
  /-- ETRIG (R311): Marks the hart's early trigger once earlier accesses are performed. -/
  | etrig (c : Ctl) (o : X3)
  /-- GLAUNCH (R312): Sends a launch request to the scheduler root and returns its code. -/
  | glaunch (c : Ctl) (o : X3)
  /-- GQRY (R312): Queries a gang's state word or a hart's exit value at the root. -/
  | gqry (c : Ctl) (o : X3)
  /-- TRAP_ENTRY (R166): A precise trap lets earlier instructions land, writes the exception registers and enters the handler. -/
  | trapEntry (cls code : BitVec 8) (eaddr : Word)
  /-- ASYNC_INTERRUPT (R355): A pending mailbox interrupt is taken at a restart point in place of its instruction. -/
  | asyncInterrupt
  /-- SWAP (R50): Before an instruction issues, the swap unit evicts, spills, compacts and fills registers. -/
  | swap (regs : List (BitVec 6))
  /-- RESULT_LANDING (R41): A destination element or scalar result of an issued instruction lands in its window. -/
  | resultLanding (n : Nat)
  /-- LOAD_DATA_RETURN (R151): Data of a scalar load or atomic returns and frees a held scalar unit. -/
  | loadDataReturn
  /-- ROW_DROWSY (R45): A lane row untouched for 4,096 cy goes drowsy. -/
  | rowDrowsy (core row : Nat)
  /-- ARRAY_RAMP_UP_END (R239): The 32 cy ramp-up filler ends and the array goes WARM or HELD. -/
  | arrayRampUpEnd (core : Nat)
  /-- ARRAY_RAMP_DOWN (R239): With no next occupancy and no hold, 32 cy of ramp-down filler start. -/
  | arrayRampDown (core : Nat)
  /-- ARRAY_RAMP_DOWN_END (R239): The ramp-down filler ends and the array becomes COLD. -/
  | arrayRampDownEnd (core : Nat)
  /-- BURST_HOLD_END (R239): An MBURST hold expires h cy after its ramp-up. -/
  | burstHoldEnd (core : Nat)
  /-- APERTURE_QUEUE_ACCEPT (R258): A stalled aperture store enters the channel queue when an entry frees. -/
  | apertureQueueAccept (gang hart : Nat)
  /-- COPY_START (R258): A queued copy starts at its start cy once ordering allows. -/
  | copyStart (chan : Nat)
  /-- TRANSLATION_WALK (R97): A translation unit walks the page table for a chunk that misses the TLB. -/
  | translationWalk (asid va : Nat)
  /-- CHUNK_LAND (R259): A copy chunk lands, marking buffers or row bits and, for the last chunk, the report. -/
  | chunkLand (chan k : Nat)
  /-- CHUNK_RETRY (R384): Parked chunks are retried after a driver command or every 2^20 cy. -/
  | chunkRetry (chan k : Nat)
  /-- FOLLOW_ON_SWEEP (R241): After a PLANES copy lands in a tile, the engine runs its follow-on operation. -/
  | followOnSweep (core : Nat)
  /-- SWEEP_DONE (R241): A sweep's last accumulator write lands and the matrix-done bit is set. -/
  | sweepDone (core : Nat)
  /-- KVWALK_CARRIAGE_START (R271): A walk starts its next carriage once the lead and buffer conditions hold. -/
  | kvwalkCarriageStart (chan : Nat)
  /-- BIN_PAIR_WRITE (R276): The binning engine writes one pending pair to its cart. -/
  | binPairWrite (die : Nat)
  /-- COACH_OP_APPLY (R123): The coach unit applies one arriving coach operation in order. -/
  | coachOpApply (die : Nat)
  /-- COACH_OP_COMPLETE (R286): The coach unit reports completion and X[XD] lands, freeing the scalar unit. -/
  | coachOpComplete (gang hart : Nat)
  /-- REPLICA_APPLY (R126): A die applies or discards a propagated write to a replicated page. -/
  | replicaApply (n : Nat)
  /-- WAIT_COMPLETE (R39): An elastic wait completes when its condition holds. -/
  | waitComplete (gang hart : Nat)
  /-- WAITM_REREAD (R309): An elastic WAITM rereads its word after a write to its line. -/
  | waitmReread (gang hart : Nat)
  /-- FENCE_RELEASE (R308): Issue resumes for accesses a fence held once earlier ones are performed. -/
  | fenceRelease (gang hart : Nat)
  /-- BINFLUSH_COMPLETE (R277): Earlier BINPUTs are performed and cart COUNTs advance. -/
  | binflushComplete (gang hart : Nat)
  /-- BARRIER_COMPLETE (R310): A barrier completes at every hart B cy after the last arrival. -/
  | barrierComplete (gang : Nat)
  /-- TIMING_TRAP (R372): A lockstep wait or landing misses its cy and the gang holds. -/
  | timingTrap (gang hart : Nat)
  /-- TIMING_CONDITION_MET (R372): The failed condition holds and D is computed, rebasing TSTART. -/
  | timingConditionMet (gang hart : Nat)
  /-- TIMING_RESTART (R372): The trapping hart reissues RPC at tR + D with restored copies and the gang resumes. -/
  | timingRestart (gang hart : Nat)
  /-- WAIT_RELEASE (R388): A mailbox record releases a waiting hart with IE = 1 to RPC. -/
  | waitRelease (gang hart : Nat)
  /-- ICACHE_FILL (R141): An elastic instruction-cache miss fills its line. -/
  | icacheFill (va : Word)
  /-- ICACHE_PARITY_REFILL (R418): An instruction-cache parity error refills and reissues the word. -/
  | icacheParityRefill (va : Word)
  /-- LAUNCH_ARRIVAL (R314): A launch reaches the root, is checked, numbered and queued or refused. -/
  | launchArrival (n : Nat)
  /-- GQRY_ARRIVAL (R312): A query reaches the root and reads the gang state or exit value. -/
  | gqryArrival (n : Nat)
  /-- PLACEMENT_PASS (R317): The root places queued gangs by priority and sequence, or pre-empts. -/
  | placementPass (part : Nat)
  /-- PREEMPTION_STOP (R322): Victim harts stop at step boundaries and the scheduler saves their state. -/
  | preemptionStop (gang : Nat)
  /-- PROLOGUE (R320): A placed gang's clusters are zeroed or restored, loaded and TSTART chosen. -/
  | prologue (gang : Nat)
  /-- GANG_START (R320): At TSTART every hart issues at ENTRY or its resumption point. -/
  | gangStart (gang : Nat)
  /-- GANG_RETIRE (R316): A draining gang's writes are performed and its clusters released. -/
  | gangRetire (gang : Nat)
  /-- GANG_FAULT_END (R352): A faulted gang's harts stop, copies stop or are discarded and clusters are released. -/
  | gangFaultEnd (gang : Nat)
  /-- FAULT_RECORD_DELIVERY (R354): A fault record is written to the first accepting receiver and WR advanced. -/
  | faultRecordDelivery (n : Nat)
  /-- HOST_LAUNCH (R328): A write of LID launches LVA as GLAUNCH would and sets LRES. -/
  | hostLaunch (vf : Nat) (lid : Word)
  /-- LOCK (R329): The translation command locks a page's translation in the TLB. -/
  | lock (vf : Nat) (cmd arg : Word)
  /-- UNLOCK (R329): The translation command unlocks a page's translation. -/
  | unlock (vf : Nat) (cmd arg : Word)
  /-- PAGE_INVALIDATE (R99): Writes back and drops a page's lines and TLB entries after walks end. -/
  | pageInvalidate (vf : Nat) (cmd arg : Word)
  /-- MIGRATE (R102): Starts a page migration to a new frame. -/
  | migrate (vf : Nat) (cmd arg : Word)
  /-- MIGRATION_CHUNK_COPY (R102): The unit copies one 512-byte chunk of a migrating page and advances m. -/
  | migrationChunkCopy (n : Nat)
  /-- DIEMAP_WRITE (R330): A write of DIEMAP reassigns dies to partitions or is refused. -/
  | diemapWrite (v : Word)
  /-- DIE_ASSIGNMENT_DONE (R326): A die assignment change completes and DIESTAT returns to 0. -/
  | dieAssignmentDone
  /-- SHARE_WRITE (R327): A write of SHARE sets host-link shares or is ignored if they exceed 16. -/
  | shareWrite (v : Word)
  /-- LOGCLR_VCOUNT (R356): LOGCLR bit 0 resets the violation count. -/
  | logclrVcount (part : Nat)
  /-- LOGCLR_FCOUNT (R356): LOGCLR bit 1 resets the host fault log count. -/
  | logclrFcount (part : Nat)
  /-- REGISTER_WRITE (R328): A write to a register with no behaviour of its own stores its value. -/
  | registerWrite (pf : Bool) (vf off : Nat) (v : Word)
  /-- BAR2_READ (R328): A host read of BAR2 reaches HBM through translation of the home die. -/
  | bar2Read (vf off len : Nat)
  /-- BAR2_WRITE (R328): A host write of BAR2 reaches HBM through translation of the home die. -/
  | bar2Write (vf off : Nat) (bytes : List Byte)
  /-- TB_CONFIG_WRITE (R91): A store to a tile-buffer configuration word clears its landed state. -/
  | tbConfigWrite (cluster tb : Nat) (v : Word)
  /-- TB_LANDED_CLEAR (R91): A W1C write clears LANDED bits of a tile buffer. -/
  | tbLandedClear (cluster tb dw : Nat) (v : Word)
  /-- HALT (R421): Stops every hart of the gang at its next step boundary and sets halt-on-break. -/
  | halt (gang : Nat)
  /-- RUN (R421): Resumes every hart, rebasing TSTART in lockstep. -/
  | run (gang : Nat)
  /-- STEP (R421): Lets one halted hart issue one instruction or reach its next step boundary. -/
  | step (gang hart : Nat)
  /-- QUIESCE (R422): Stops every started copy of a halted gang at a chunk boundary. -/
  | quiesce (gang : Nat)
  /-- READV (R421): Reads one element of a vector register into DBGD1. -/
  | readv (gang hart v e : Nat)
  /-- READX (R421): Reads a scalar register or CSR into DBGD1. -/
  | readx (gang hart arg csr : Nat)
  /-- WRITEX (R421): Writes DBGD1 to a scalar register or RW CSR. -/
  | writex (gang hart arg csr : Nat) (v : Word)
  /-- UNFENCE (R420): Self-tests a fenced row and clears it from the failed-row table. -/
  | unfence (core row : Nat)
  /-- INJECT (R424): Arms one injected error at the next write of a unit. -/
  | inject (space addr kind : Nat)
  /-- MONITOR_CONFIG_WRITE (R336): A write of monitor register 0 sets capture and clears its fields. -/
  | monitorConfigWrite (unit : Nat) (v : Word)
  /-- MONITOR_SAMPLE (R336): A monitor unit takes a sample per event or every 1,024 cy. -/
  | monitorSample (unit v : Nat)
  /-- ALARM_CLEAR (R425): A W1C write clears ALM. -/
  | alarmClear (unit : Nat)
  /-- FIRMWARE_BOOT (R333): The boot ROM checks the HSS signature and measures each stage. -/
  | firmwareBoot (image key sig : List Byte)
  /-- ATTESTATION_REPORT (R334): The controller advances the counter and signs a report. -/
  | attestationReport (nonce : BitVec 256)
  /-- THERMAL_STALL (R335): Over 95 °C or 1,900 W, elastic issue on the die is stalled. -/
  | thermalStall (die reading : Nat)
  /-- DIE_STOP_TEMPERATURE (R361): At 110 °C the die leaves service and its gangs fault. -/
  | dieStopTemperature (die reading : Nat)
  /-- UCIE_EDGE_LOSS (R361): Loss of an edge stops the dies beyond it and their gangs fault. -/
  | ucieEdgeLoss (edge : Nat)
  /-- CORRECTED_WRITEBACK (R361): The corrected word is written back in the next free write cy. -/
  | correctedWriteback (space addr : Nat)
  /-- TRANSFER_RETRY (R361): A CRC error on a flit, PCIe replay or HBM write repeats the transfer. -/
  | transferRetry (chan k delay : Nat)
  /-- UNCORRECTED_ERROR (R361): An uncorrectable error marks poison and writes a class 0x12 record. -/
  | uncorrectedError (space addr : Nat)
  /-- THERMAL_STALL_END (R335): When the die's temperature or the module's power reading falls back below its limit, the controller stops inserting stall cycles into elastic issue on that die. -/
  | thermalStallEnd (die : Nat)
  /-- MAILBOX_WINDOW_WRITE (R331): A host BAR0 write into the mailbox window stores into the last 64 KiB of the lowest die's scratchpad, in endpoint arrival order, and can satisfy a conductor's WAITM. -/
  | mailboxWindowWrite (vf off : Nat) (v : Word)
  deriving DecidableEq, Repr

end Sys2Proof
end

