-- ==== Sys2Proof/Machine/Fields.lean ====
section
/-! DEFINITION. The encoding tables of the spec (R128 to R139): each row's major and minor, the fields an instruction
names, its immediate, its words, and the static tests of R363 (codes 0x04, 0x05, 0x06, 0x08). -/
namespace Sys2Proof

def Form.isExt : Form → Bool
  | .ext | .extLit => true
  | _ => false
def Form.hasLit : Form → Bool
  | .lit | .extLit => true
  | _ => false
/-- The number of words of a form (R128). -/
def Form.words : Form → Nat
  | .base => 1 | .ext => 3 | .lit => 3 | .extLit => 5
def Form.len : Form → BitVec 2
  | .base => 0 | .ext => 1 | .lit => 2 | .extLit => 3

/-- The byte count of R128. -/
def Ctl.bytes (c : Ctl) : Nat := 4 * c.form.words

end Sys2Proof

namespace Sys2Proof.Machine

/-- Where a row's minor code lies (R137, R138); `cc` is VCMP's condition in MIN (R182). -/
inductive Minor where
  | none | fn3 (n : Nat) | fn2 (n : Nat) | fn6 (n : Nat) | min (n : Nat) | cc
  deriving DecidableEq, Repr

structure Key where
  maj : Nat
  minor : Minor
  deriving DecidableEq, Repr

/-- Where an instruction's immediate comes from in the base form, and what its IMM32 holds (R133 to R136).
`sub m` is IMM32 read as sub-fields; `m` marks the bits that some sub-field names. -/
inductive ImmKind where
  | none | i6 | i8 | sh8 | i13 | off8 | off18 | i32 | sub (mask : BitVec 32)
  deriving DecidableEq, Repr

/-- OPS of class X3, the class immediate left zero (R134). -/
def x3Bits (o : X3) : BitVec 18 := o.fn ++ o.xb ++ o.xa ++ o.xd
def x3OfBits (v : BitVec 18) : X3 := ⟨v.extractLsb' 15 3, v.extractLsb' 10 5, v.extractLsb' 5 5, v.extractLsb' 0 5⟩
/-- OPS of class AT, the class immediate left zero (R134). -/
def atBits (o : AT) : BitVec 18 := o.fn ++ o.sz ++ o.xb ++ o.xa ++ o.xd
def atOfBits (v : BitVec 18) : AT := ⟨v.extractLsb' 16 2, v.extractLsb' 15 1, v.extractLsb' 10 5, v.extractLsb' 5 5, v.extractLsb' 0 5⟩
/-- OPS of class XI, the class immediate left zero (R134). -/
def xiBits (o : XI) : BitVec 18 := 0#8 ++ o.xa ++ o.xd
def xiOfBits (v : BitVec 18) : XI := ⟨v.extractLsb' 5 5, v.extractLsb' 0 5⟩
/-- OPS of class XL, the class immediate left zero (R134). -/
def xlBits (o : XL) : BitVec 18 := 0#13 ++ o.xd
def xlOfBits (v : BitVec 18) : XL := ⟨v.extractLsb' 0 5⟩
/-- OPS of class BR, the class immediate left zero (R134). -/
def brBits (o : BR) : BitVec 18 := 0#8 ++ o.xb ++ o.xa
def brOfBits (v : BitVec 18) : BR := ⟨v.extractLsb' 5 5, v.extractLsb' 0 5⟩
/-- OPS of class J, the class immediate left zero (R134). -/
def jBits (_o : J) : BitVec 18 := 0
def jOfBits (_v : BitVec 18) : J := ⟨⟩
/-- OPS of class C, the class immediate left zero (R134). -/
def cBits (o : C) : BitVec 18 := o.csr ++ o.rsv ++ o.xd
def cOfBits (v : BitVec 18) : C := ⟨v.extractLsb' 6 12, v.extractLsb' 5 1, v.extractLsb' 0 5⟩
/-- OPS of class F, the class immediate left zero (R134). -/
def fBits (o : F) : BitVec 18 := o.sp ++ o.kd ++ o.sco ++ o.xb ++ o.xa
def fOfBits (v : BitVec 18) : F := ⟨v.extractLsb' 17 1, v.extractLsb' 13 4, v.extractLsb' 10 3, v.extractLsb' 5 5, v.extractLsb' 0 5⟩
/-- OPS of class V3, the class immediate left zero (R134). -/
def v3Bits (o : V3) : BitVec 18 := o.vb ++ o.va ++ o.vd
def v3OfBits (v : BitVec 18) : V3 := ⟨v.extractLsb' 12 6, v.extractLsb' 6 6, v.extractLsb' 0 6⟩
/-- OPS of class VF, the class immediate left zero (R134). -/
def vfBits (o : VF) : BitVec 18 := o.fn ++ o.va ++ o.vd
def vfOfBits (v : BitVec 18) : VF := ⟨v.extractLsb' 12 6, v.extractLsb' 6 6, v.extractLsb' 0 6⟩
/-- OPS of class VI, the class immediate left zero (R134). -/
def viBits (o : VI) : BitVec 18 := 0#6 ++ o.va ++ o.vd
def viOfBits (v : BitVec 18) : VI := ⟨v.extractLsb' 6 6, v.extractLsb' 0 6⟩
/-- OPS of class VX, the class immediate left zero (R134). -/
def vxBits (o : VX) : BitVec 18 := o.rsv ++ o.xb ++ o.xa ++ o.vd
def vxOfBits (v : BitVec 18) : VX := ⟨v.extractLsb' 16 2, v.extractLsb' 11 5, v.extractLsb' 6 5, v.extractLsb' 0 6⟩
/-- OPS of class VVX, the class immediate left zero (R134). -/
def vvxBits (o : VVX) : BitVec 18 := o.rsv ++ o.xb ++ o.va ++ o.vd
def vvxOfBits (v : BitVec 18) : VVX := ⟨v.extractLsb' 17 1, v.extractLsb' 12 5, v.extractLsb' 6 6, v.extractLsb' 0 6⟩
/-- OPS of class P3, the class immediate left zero (R134). -/
def p3Bits (o : P3) : BitVec 18 := o.fn ++ o.pb ++ o.pa ++ o.pd
def p3OfBits (v : BitVec 18) : P3 := ⟨v.extractLsb' 12 6, v.extractLsb' 8 4, v.extractLsb' 4 4, v.extractLsb' 0 4⟩
/-- OPS of class S3, the class immediate left zero (R134). -/
def s3Bits (o : S3) : BitVec 18 := o.fn ++ o.sb ++ o.sa ++ o.sd
def s3OfBits (v : BitVec 18) : S3 := ⟨v.extractLsb' 12 6, v.extractLsb' 8 4, v.extractLsb' 4 4, v.extractLsb' 0 4⟩
/-- OPS of class SX, the class immediate left zero (R134). -/
def sxBits (o : SX) : BitVec 18 := o.rsv ++ o.xb ++ o.xa ++ o.sd
def sxOfBits (v : BitVec 18) : SX := ⟨v.extractLsb' 14 4, v.extractLsb' 9 5, v.extractLsb' 4 5, v.extractLsb' 0 4⟩
/-- OPS of class SV, the class immediate left zero (R134). -/
def svBits (o : SV) : BitVec 18 := o.rsv ++ o.v ++ o.sd
def svOfBits (v : BitVec 18) : SV := ⟨v.extractLsb' 10 8, v.extractLsb' 4 6, v.extractLsb' 0 4⟩
/-- OPS of class PL, the class immediate left zero (R134). -/
def plBits (o : PL) : BitVec 18 := o.nw
def plOfBits (v : BitVec 18) : PL := ⟨v.extractLsb' 0 18⟩

/-- An instruction row's key, controls and OPS; an event row has none. -/
def parts : Instr → Option (Key × Ctl × BitVec 18)
  | .add c o => some (⟨0x00, .fn3 0⟩, c, x3Bits o)
  | .sub c o => some (⟨0x00, .fn3 1⟩, c, x3Bits o)
  | .and c o => some (⟨0x00, .fn3 2⟩, c, x3Bits o)
  | .or c o => some (⟨0x00, .fn3 3⟩, c, x3Bits o)
  | .xor c o => some (⟨0x00, .fn3 4⟩, c, x3Bits o)
  | .andn c o => some (⟨0x00, .fn3 5⟩, c, x3Bits o)
  | .min c o => some (⟨0x00, .fn3 6⟩, c, x3Bits o)
  | .max c o => some (⟨0x00, .fn3 7⟩, c, x3Bits o)
  | .minu c o => some (⟨0x01, .fn3 0⟩, c, x3Bits o)
  | .maxu c o => some (⟨0x01, .fn3 1⟩, c, x3Bits o)
  | .slt c o => some (⟨0x01, .fn3 2⟩, c, x3Bits o)
  | .sltu c o => some (⟨0x01, .fn3 3⟩, c, x3Bits o)
  | .sll c o => some (⟨0x01, .fn3 4⟩, c, x3Bits o)
  | .srl c o => some (⟨0x01, .fn3 5⟩, c, x3Bits o)
  | .sra c o => some (⟨0x01, .fn3 6⟩, c, x3Bits o)
  | .sel c o => some (⟨0x01, .fn3 7⟩, c, x3Bits o)
  | .mul c o => some (⟨0x02, .fn3 0⟩, c, x3Bits o)
  | .mulh c o => some (⟨0x02, .fn3 1⟩, c, x3Bits o)
  | .mulhu c o => some (⟨0x02, .fn3 2⟩, c, x3Bits o)
  | .div c o => some (⟨0x02, .fn3 3⟩, c, x3Bits o)
  | .divu c o => some (⟨0x02, .fn3 4⟩, c, x3Bits o)
  | .rem c o => some (⟨0x02, .fn3 5⟩, c, x3Bits o)
  | .remu c o => some (⟨0x02, .fn3 6⟩, c, x3Bits o)
  | .clz c o => some (⟨0x03, .fn3 0⟩, c, x3Bits o)
  | .ctz c o => some (⟨0x03, .fn3 1⟩, c, x3Bits o)
  | .popc c o => some (⟨0x03, .fn3 2⟩, c, x3Bits o)
  | .ext c o => some (⟨0x03, .fn3 3⟩, c, x3Bits o)
  | .ins c o => some (⟨0x03, .fn3 4⟩, c, x3Bits o)
  | .addi c o => some (⟨0x04, .none⟩, c, xiBits o)
  | .andi c o => some (⟨0x05, .none⟩, c, xiBits o)
  | .ori c o => some (⟨0x06, .none⟩, c, xiBits o)
  | .xori c o => some (⟨0x07, .none⟩, c, xiBits o)
  | .slli c o => some (⟨0x08, .none⟩, c, xiBits o)
  | .srli c o => some (⟨0x09, .none⟩, c, xiBits o)
  | .srai c o => some (⟨0x0a, .none⟩, c, xiBits o)
  | .slti c o => some (⟨0x0b, .none⟩, c, xiBits o)
  | .li c o => some (⟨0x0c, .none⟩, c, xlBits o)
  | .la c o => some (⟨0x0d, .none⟩, c, xlBits o)
  | .ld c o => some (⟨0x0e, .none⟩, c, xiBits o)
  | .ldu c o => some (⟨0x0f, .none⟩, c, xiBits o)
  | .st c o => some (⟨0x10, .none⟩, c, xiBits o)
  | .ldq c o => some (⟨0x11, .none⟩, c, xiBits o)
  | .stq c o => some (⟨0x12, .none⟩, c, xiBits o)
  | .btx c o => some (⟨0x12, .none⟩, c, xiBits o)
  | .beq c o => some (⟨0x13, .none⟩, c, brBits o)
  | .bne c o => some (⟨0x14, .none⟩, c, brBits o)
  | .blt c o => some (⟨0x15, .none⟩, c, brBits o)
  | .bge c o => some (⟨0x16, .none⟩, c, brBits o)
  | .bltu c o => some (⟨0x17, .none⟩, c, brBits o)
  | .bgeu c o => some (⟨0x18, .none⟩, c, brBits o)
  | .jmp c o => some (⟨0x19, .none⟩, c, jBits o)
  | .jal c o => some (⟨0x1a, .none⟩, c, xlBits o)
  | .jalr c o => some (⟨0x1b, .none⟩, c, xiBits o)
  | .loop c o => some (⟨0x1c, .none⟩, c, xlBits o)
  | .waitc c o => some (⟨0x1d, .none⟩, c, xlBits o)
  | .nop c o => some (⟨0x1e, .fn3 0⟩, c, x3Bits o)
  | .exit c o => some (⟨0x1e, .fn3 1⟩, c, x3Bits o)
  | .yield c o => some (⟨0x7d, .fn3 2⟩, c, x3Bits o)
  | .trap c o => some (⟨0x7c, .none⟩, c, xlBits o)
  | .brk c o => some (⟨0x7d, .fn3 1⟩, c, x3Bits o)
  | .rte c o => some (⟨0x7d, .fn3 0⟩, c, x3Bits o)
  | .csrr c o => some (⟨0x78, .none⟩, c, cBits o)
  | .csrw c o => some (⟨0x79, .none⟩, c, cBits o)
  | .csrs c o => some (⟨0x7a, .none⟩, c, cBits o)
  | .csrc c o => some (⟨0x7b, .none⟩, c, cBits o)
  | .pool c o => some (⟨0x7f, .none⟩, c, plBits o)
  | .setvl c o => some (⟨0x20, .none⟩, c, x3Bits o)
  | .setvt c o => some (⟨0x21, .none⟩, c, x3Bits o)
  | .vdecl c o => some (⟨0x22, .none⟩, c, vxBits o)
  | .vqry c o => some (⟨0x23, .none⟩, c, vxBits o)
  | .vadd c o => some (⟨0x24, .none⟩, c, v3Bits o)
  | .vsub c o => some (⟨0x25, .none⟩, c, v3Bits o)
  | .vadds c o => some (⟨0x26, .none⟩, c, v3Bits o)
  | .vsubs c o => some (⟨0x27, .none⟩, c, v3Bits o)
  | .vmul c o => some (⟨0x28, .none⟩, c, v3Bits o)
  | .vmulh c o => some (⟨0x29, .none⟩, c, v3Bits o)
  | .vmac c o => some (⟨0x2a, .none⟩, c, v3Bits o)
  | .vmin c o => some (⟨0x2c, .none⟩, c, v3Bits o)
  | .vmax c o => some (⟨0x2d, .none⟩, c, v3Bits o)
  | .vand c o => some (⟨0x2e, .none⟩, c, v3Bits o)
  | .vor c o => some (⟨0x2f, .none⟩, c, v3Bits o)
  | .vxor c o => some (⟨0x30, .none⟩, c, v3Bits o)
  | .vandn c o => some (⟨0x31, .none⟩, c, v3Bits o)
  | .vneg c o => some (⟨0x2b, .fn6 0⟩, c, vfBits o)
  | .vabs c o => some (⟨0x2b, .fn6 1⟩, c, vfBits o)
  | .vnot c o => some (⟨0x2b, .fn6 2⟩, c, vfBits o)
  | .vmov c o => some (⟨0x2b, .fn6 3⟩, c, vfBits o)
  | .vclz c o => some (⟨0x2b, .fn6 4⟩, c, vfBits o)
  | .vpopc c o => some (⟨0x2b, .fn6 5⟩, c, vfBits o)
  | .vwide c o => some (⟨0x2b, .fn6 6⟩, c, vfBits o)
  | .vshl c o => some (⟨0x33, .none⟩, c, viBits o)
  | .vshr c o => some (⟨0x34, .none⟩, c, viBits o)
  | .vsra c o => some (⟨0x35, .none⟩, c, viBits o)
  | .vshv c o => some (⟨0x36, .none⟩, c, v3Bits o)
  | .vbool c o => some (⟨0x32, .none⟩, c, v3Bits o)
  | .vcmp c o => some (⟨0x37, .cc⟩, c, v3Bits o)
  | .vsel c o => some (⟨0x38, .none⟩, c, v3Bits o)
  | .vsplat c o => some (⟨0x39, .none⟩, c, vxBits o)
  | .viota c o => some (⟨0x3a, .none⟩, c, vxBits o)
  | .vlut c o => some (⟨0x3b, .none⟩, c, v3Bits o)
  | .pand c o => some (⟨0x3c, .fn6 0⟩, c, p3Bits o)
  | .por c o => some (⟨0x3c, .fn6 1⟩, c, p3Bits o)
  | .pxor c o => some (⟨0x3c, .fn6 2⟩, c, p3Bits o)
  | .pnot c o => some (⟨0x3c, .fn6 3⟩, c, p3Bits o)
  | .pandn c o => some (⟨0x3c, .fn6 4⟩, c, p3Bits o)
  | .pcnt c o => some (⟨0x3c, .fn6 5⟩, c, p3Bits o)
  | .pfirst c o => some (⟨0x3c, .fn6 6⟩, c, p3Bits o)
  | .pset c o => some (⟨0x3c, .fn6 7⟩, c, p3Bits o)
  | .pmov c o => some (⟨0x3c, .fn6 8⟩, c, p3Bits o)
  | .vredAdd c o => some (⟨0x3d, .fn6 0⟩, c, vfBits o)
  | .vredMin c o => some (⟨0x3d, .fn6 1⟩, c, vfBits o)
  | .vredMax c o => some (⟨0x3d, .fn6 2⟩, c, vfBits o)
  | .vredMinu c o => some (⟨0x3d, .fn6 3⟩, c, vfBits o)
  | .vredMaxu c o => some (⟨0x3d, .fn6 4⟩, c, vfBits o)
  | .vredAnd c o => some (⟨0x3d, .fn6 5⟩, c, vfBits o)
  | .vredOr c o => some (⟨0x3d, .fn6 6⟩, c, vfBits o)
  | .vredXor c o => some (⟨0x3d, .fn6 7⟩, c, vfBits o)
  | .vscanAdd c o => some (⟨0x3e, .fn6 0⟩, c, vfBits o)
  | .vscanMin c o => some (⟨0x3e, .fn6 1⟩, c, vfBits o)
  | .vscanMax c o => some (⟨0x3e, .fn6 2⟩, c, vfBits o)
  | .vscanMinu c o => some (⟨0x3e, .fn6 3⟩, c, vfBits o)
  | .vscanMaxu c o => some (⟨0x3e, .fn6 4⟩, c, vfBits o)
  | .vscanAnd c o => some (⟨0x3e, .fn6 5⟩, c, vfBits o)
  | .vscanOr c o => some (⟨0x3e, .fn6 6⟩, c, vfBits o)
  | .vscanXor c o => some (⟨0x3e, .fn6 7⟩, c, vfBits o)
  | .vdot c o => some (⟨0x3f, .none⟩, c, v3Bits o)
  | .vperm c o => some (⟨0x40, .none⟩, c, v3Bits o)
  | .vslide c o => some (⟨0x41, .none⟩, c, vvxBits o)
  | .vxch c o => some (⟨0x42, .none⟩, c, v3Bits o)
  | .vbcast c o => some (⟨0x43, .none⟩, c, vvxBits o)
  | .vfadd c o => some (⟨0x44, .none⟩, c, v3Bits o)
  | .vfsub c o => some (⟨0x45, .none⟩, c, v3Bits o)
  | .vfmul c o => some (⟨0x46, .none⟩, c, v3Bits o)
  | .vfma c o => some (⟨0x47, .none⟩, c, v3Bits o)
  | .vfms c o => some (⟨0x48, .none⟩, c, v3Bits o)
  | .vfnma c o => some (⟨0x49, .none⟩, c, v3Bits o)
  | .vfdiv c o => some (⟨0x4a, .none⟩, c, v3Bits o)
  | .vfsqrt c o => some (⟨0x4b, .fn6 0⟩, c, vfBits o)
  | .vfclass c o => some (⟨0x4b, .fn6 1⟩, c, vfBits o)
  | .vfcvt c o => some (⟨0x4b, .fn6 2⟩, c, vfBits o)
  | .vftoi c o => some (⟨0x4b, .fn6 3⟩, c, vfBits o)
  | .vitof c o => some (⟨0x4b, .fn6 4⟩, c, vfBits o)
  | .vfred c o => some (⟨0x4b, .fn6 5⟩, c, vfBits o)
  | .vmxq c o => some (⟨0x4b, .fn6 6⟩, c, vfBits o)
  | .vmxd c o => some (⟨0x4b, .fn6 7⟩, c, vfBits o)
  | .vhad c o => some (⟨0x4b, .fn6 8⟩, c, vfBits o)
  | .vfmin c o => some (⟨0x4c, .min 0⟩, c, v3Bits o)
  | .vfmax c o => some (⟨0x4c, .min 1⟩, c, v3Bits o)
  | .vfcmp c o => some (⟨0x4c, .min 2⟩, c, v3Bits o)
  | .vfsgn c o => some (⟨0x4c, .min 3⟩, c, v3Bits o)
  | .vldz c o => some (⟨0x4d, .none⟩, c, vxBits o)
  | .vstz c o => some (⟨0x4e, .none⟩, c, vxBits o)
  | .mcfg c o => some (⟨0x50, .none⟩, c, x3Bits o)
  | .mzero c o => some (⟨0x51, .none⟩, c, v3Bits o)
  | .mop c o => some (⟨0x52, .none⟩, c, v3Bits o)
  | .mops c o => some (⟨0x53, .none⟩, c, v3Bits o)
  | .mopg c o => some (⟨0x54, .none⟩, c, v3Bits o)
  | .mdrain c o => some (⟨0x55, .none⟩, c, v3Bits o)
  | .mscale c o => some (⟨0x56, .none⟩, c, vxBits o)
  | .msave c o => some (⟨0x57, .none⟩, c, vxBits o)
  | .mrest c o => some (⟨0x58, .none⟩, c, vxBits o)
  | .mburst c o => some (⟨0x59, .none⟩, c, xlBits o)
  | .mwait c o => some (⟨0x5a, .none⟩, c, x3Bits o)
  | .sexp c o => some (⟨0x5b, .none⟩, c, v3Bits o)
  | .sfit c o => some (⟨0x5c, .none⟩, c, v3Bits o)
  | .sargmin c o => some (⟨0x5d, .none⟩, c, vxBits o)
  | .vgen c o => some (⟨0x5e, .none⟩, c, vxBits o)
  | .tld c o => some (⟨0x60, .min 0⟩, c, vxBits o)
  | .tst c o => some (⟨0x60, .min 1⟩, c, vxBits o)
  | .tldx c o => some (⟨0x60, .min 2⟩, c, vxBits o)
  | .tstx c o => some (⟨0x60, .min 3⟩, c, vxBits o)
  | .twait c o => some (⟨0x60, .min 4⟩, c, vxBits o)
  | .tclr c o => some (⟨0x60, .min 5⟩, c, vxBits o)
  | .tqry c o => some (⟨0x60, .min 6⟩, c, vxBits o)
  | .binput c o => some (⟨0x61, .none⟩, c, x3Bits o)
  | .binflush c o => some (⟨0x62, .none⟩, c, x3Bits o)
  | .kvapp c o => some (⟨0x63, .none⟩, c, x3Bits o)
  | .retspan c o => some (⟨0x64, .none⟩, c, x3Bits o)
  | .kvpin c o => some (⟨0x65, .none⟩, c, x3Bits o)
  | .kvunpin c o => some (⟨0x66, .none⟩, c, x3Bits o)
  | .kvqryDesc c o => some (⟨0x67, .fn3 0⟩, c, x3Bits o)
  | .kvqryPos c o => some (⟨0x67, .fn3 1⟩, c, x3Bits o)
  | .kvqryHdr c o => some (⟨0x67, .fn3 2⟩, c, x3Bits o)
  | .kvqryCount c o => some (⟨0x67, .fn3 3⟩, c, x3Bits o)
  | .sld c o => some (⟨0x68, .none⟩, c, sxBits o)
  | .sst c o => some (⟨0x69, .none⟩, c, sxBits o)
  | .sadd c o => some (⟨0x6a, .fn6 0⟩, c, s3Bits o)
  | .ssub c o => some (⟨0x6a, .fn6 1⟩, c, s3Bits o)
  | .smul c o => some (⟨0x6a, .fn6 2⟩, c, s3Bits o)
  | .smax c o => some (⟨0x6a, .fn6 3⟩, c, s3Bits o)
  | .sscale c o => some (⟨0x6a, .fn6 4⟩, c, s3Bits o)
  | .sdot c o => some (⟨0x6b, .none⟩, c, sxBits o)
  | .sxpand c o => some (⟨0x6c, .none⟩, c, svBits o)
  | .spack c o => some (⟨0x6d, .none⟩, c, svBits o)
  | .shacc c o => some (⟨0x6e, .none⟩, c, sxBits o)
  | .slen c o => some (⟨0x6f, .none⟩, c, sxBits o)
  | .amoAdd c o => some (⟨0x70, .fn2 0⟩, c, atBits o)
  | .amoAnd c o => some (⟨0x70, .fn2 1⟩, c, atBits o)
  | .amoOr c o => some (⟨0x70, .fn2 2⟩, c, atBits o)
  | .amoXor c o => some (⟨0x70, .fn2 3⟩, c, atBits o)
  | .amoMin c o => some (⟨0x71, .fn2 0⟩, c, atBits o)
  | .amoMax c o => some (⟨0x71, .fn2 1⟩, c, atBits o)
  | .amoMinu c o => some (⟨0x71, .fn2 2⟩, c, atBits o)
  | .amoMaxu c o => some (⟨0x71, .fn2 3⟩, c, atBits o)
  | .amocas c o => some (⟨0x72, .fn2 0⟩, c, atBits o)
  | .amoSwap c o => some (⟨0x72, .fn2 1⟩, c, atBits o)
  | .amofFp32 c o => some (⟨0x73, .fn2 0⟩, c, atBits o)
  | .amofFp64 c o => some (⟨0x73, .fn2 1⟩, c, atBits o)
  | .amofBf16 c o => some (⟨0x73, .fn2 2⟩, c, atBits o)
  | .amox c o => some (⟨0x74, .fn2 0⟩, c, atBits o)
  | .amoxrFp32 c o => some (⟨0x74, .fn2 1⟩, c, atBits o)
  | .amoxrFp64 c o => some (⟨0x74, .fn2 2⟩, c, atBits o)
  | .fencer c o => some (⟨0x75, .none⟩, c, fBits o)
  | .fence c o => some (⟨0x76, .none⟩, c, fBits o)
  | .waitm c o => some (⟨0x77, .fn3 0⟩, c, x3Bits o)
  | .gbar c o => some (⟨0x77, .fn3 1⟩, c, x3Bits o)
  | .etrig c o => some (⟨0x77, .fn3 2⟩, c, x3Bits o)
  | .glaunch c o => some (⟨0x77, .fn3 3⟩, c, x3Bits o)
  | .gqry c o => some (⟨0x77, .fn3 4⟩, c, x3Bits o)
  | .trapEntry .. => none
  | .asyncInterrupt .. => none
  | .swap .. => none
  | .resultLanding .. => none
  | .loadDataReturn .. => none
  | .rowDrowsy .. => none
  | .arrayRampUpEnd .. => none
  | .arrayRampDown .. => none
  | .arrayRampDownEnd .. => none
  | .burstHoldEnd .. => none
  | .apertureQueueAccept .. => none
  | .copyStart .. => none
  | .translationWalk .. => none
  | .chunkLand .. => none
  | .chunkRetry .. => none
  | .followOnSweep .. => none
  | .sweepDone .. => none
  | .kvwalkCarriageStart .. => none
  | .binPairWrite .. => none
  | .coachOpApply .. => none
  | .coachOpComplete .. => none
  | .replicaApply .. => none
  | .waitComplete .. => none
  | .waitmReread .. => none
  | .fenceRelease .. => none
  | .binflushComplete .. => none
  | .barrierComplete .. => none
  | .timingTrap .. => none
  | .timingConditionMet .. => none
  | .timingRestart .. => none
  | .waitRelease .. => none
  | .icacheFill .. => none
  | .icacheParityRefill .. => none
  | .launchArrival .. => none
  | .gqryArrival .. => none
  | .placementPass .. => none
  | .preemptionStop .. => none
  | .prologue .. => none
  | .gangStart .. => none
  | .gangRetire .. => none
  | .gangFaultEnd .. => none
  | .faultRecordDelivery .. => none
  | .hostLaunch .. => none
  | .lock .. => none
  | .unlock .. => none
  | .pageInvalidate .. => none
  | .migrate .. => none
  | .migrationChunkCopy .. => none
  | .diemapWrite .. => none
  | .dieAssignmentDone .. => none
  | .shareWrite .. => none
  | .logclrVcount .. => none
  | .logclrFcount .. => none
  | .registerWrite .. => none
  | .bar2Read .. => none
  | .bar2Write .. => none
  | .tbConfigWrite .. => none
  | .tbLandedClear .. => none
  | .halt .. => none
  | .run .. => none
  | .step .. => none
  | .quiesce .. => none
  | .readv .. => none
  | .readx .. => none
  | .writex .. => none
  | .unfence .. => none
  | .inject .. => none
  | .monitorConfigWrite .. => none
  | .monitorSample .. => none
  | .alarmClear .. => none
  | .firmwareBoot .. => none
  | .attestationReport .. => none
  | .thermalStall .. => none
  | .dieStopTemperature .. => none
  | .ucieEdgeLoss .. => none
  | .correctedWriteback .. => none
  | .transferRetry .. => none
  | .uncorrectedError .. => none
  | .thermalStallEnd .. => none
  | .mailboxWindowWrite .. => none

/-- Which fields of E1 and E2 an instruction's description gives a meaning (R132), and its immediate. -/
structure Uses where
  pred : Bool
  z : Bool
  rounds : Bool
  ovr : Bool
  rowa : Bool
  rowb : Bool
  imm : ImmKind
  deriving DecidableEq, Repr

/-- What the extension words of an instruction hold (R132). DEDUCED (log 22): TST and TSTX do not use Z, since R194 leaves the other
containers unchanged whatever Z is, though R177 lets Z govern its chapter. DESIGN CHOICE (log 71): MD under BUF = 1 and n under BUF = 0,
which R196 gives no meaning and does not call reserved, may hold anything in TWAIT and TQRY. -/
def uses : Instr → Uses
  | .addi .. | .andi .. | .ori .. | .xori .. | .slti .. | .ld ..
  | .ldu .. | .st .. | .ldq .. | .stq .. | .btx .. | .jalr .. =>
    ⟨false, false, false, false, false, false, .i8⟩
  | .slli .. | .srli .. | .srai .. =>
    ⟨false, false, false, false, false, false, .sh8⟩
  | .li .. | .la .. | .jal .. | .loop .. | .waitc .. | .trap ..
  | .mburst .. =>
    ⟨false, false, false, false, false, false, .i13⟩
  | .beq .. | .bne .. | .blt .. | .bge .. | .bltu .. | .bgeu .. =>
    ⟨false, false, false, false, false, false, .off8⟩
  | .jmp .. =>
    ⟨false, false, false, false, false, false, .off18⟩
  | .vadd .. | .vsub .. | .vadds .. | .vsubs .. | .vmul .. | .vmulh ..
  | .vmac .. | .vmin .. | .vmax .. | .vand .. | .vor .. | .vxor ..
  | .vandn .. | .vneg .. | .vabs .. | .vnot .. | .vmov .. | .vclz ..
  | .vpopc .. | .vwide .. | .vshv .. | .vcmp .. | .viota .. | .vlut ..
  | .vscanAdd .. | .vscanMin .. | .vscanMax .. | .vscanMinu .. | .vscanMaxu .. | .vscanAnd ..
  | .vscanOr .. | .vscanXor .. | .vperm .. | .vslide .. | .vbcast .. | .vfclass ..
  | .sfit .. =>
    ⟨true, true, false, true, false, false, .none⟩
  | .vshl .. | .vshr .. | .vsra .. =>
    ⟨true, true, false, true, false, false, .i6⟩
  | .vbool .. =>
    ⟨true, true, false, true, false, false, .sub 0xff⟩
  | .vsel .. | .vredAdd .. | .vredMin .. | .vredMax .. | .vredMinu .. | .vredMaxu ..
  | .vredAnd .. | .vredOr .. | .vredXor .. =>
    ⟨true, false, false, true, false, false, .none⟩
  | .vsplat .. | .tld .. | .tldx .. =>
    ⟨true, true, false, true, false, false, .i32⟩
  | .vdot .. =>
    ⟨true, false, false, true, false, false, .sub 1⟩
  | .vxch .. =>
    ⟨true, true, false, true, false, false, .sub 0x07ff01ff⟩
  | .vfadd .. | .vfsub .. | .vfmul .. | .vfma .. | .vfms .. | .vfnma ..
  | .vfdiv .. | .vfsqrt .. | .vftoi .. | .sxpand .. =>
    ⟨true, true, true, true, false, false, .none⟩
  | .vfcvt .. | .vitof .. | .vhad .. =>
    ⟨true, true, true, true, false, false, .sub 1⟩
  | .vfred .. =>
    ⟨true, false, true, true, false, false, .sub 3⟩
  | .vmxq .. | .vmxd .. =>
    ⟨true, true, true, true, false, false, .sub 0x3f⟩
  | .vfmin .. | .vfmax .. =>
    ⟨true, true, true, true, false, false, .sub 0xf⟩
  | .vfcmp .. | .vfsgn .. =>
    ⟨true, true, false, true, false, false, .sub 0xf⟩
  | .vldz .. =>
    ⟨false, false, false, true, false, false, .i32⟩
  | .vstz .. | .tst .. | .tstx .. =>
    ⟨true, false, false, true, false, false, .i32⟩
  | .mop .. =>
    ⟨true, false, false, true, true, true, .sub 0x000f00ff⟩
  | .mops .. =>
    ⟨true, false, false, true, true, true, .sub 0xffff⟩
  | .mopg .. =>
    ⟨true, false, false, true, true, true, .sub 0xff⟩
  | .mdrain .. =>
    ⟨true, true, true, true, true, false, .sub 0x001bffff⟩
  | .mscale .. =>
    ⟨true, false, false, true, true, false, .none⟩
  | .sexp .. =>
    ⟨true, true, false, false, false, false, .none⟩
  | .sargmin .. =>
    ⟨true, false, false, false, false, false, .none⟩
  | .vgen .. =>
    ⟨true, true, false, true, true, false, .i32⟩
  | .twait .. | .tqry .. =>
    ⟨false, false, false, false, false, false, .sub 0xc000003f⟩
  | .tclr .. =>
    ⟨false, false, false, false, false, false, .sub 0x8000003f⟩
  | .spack .. =>
    ⟨true, false, true, true, false, false, .none⟩
  | _ => ⟨false, false, false, false, false, false, .none⟩

/-- Class fields that the description does not name hold zero, and sub-operation codes are assigned (R134, R363 code 0x04). DEDUCED
(log 22): KVQRY 0 and 3 accept any XB, which R286 names as the argument, though R292 gives them none. -/
def rsvOk : Instr → Bool
  | .clz _ o => o.xb == 0
  | .ctz _ o => o.xb == 0
  | .popc _ o => o.xb == 0
  | .nop _ o => o.xb == 0 && o.xa == 0 && o.xd == 0
  | .exit _ o => o.xb == 0 && o.xd == 0
  | .yield _ o => o.xb == 0 && o.xa == 0 && o.xd == 0
  | .trap _ o => o.xd == 0
  | .brk _ o => o.xb == 0 && o.xa == 0 && o.xd == 0
  | .rte _ o => o.xb == 0 && o.xa == 0 && o.xd == 0
  | .csrr _ o => o.rsv == 0
  | .csrw _ o => o.rsv == 0
  | .csrs _ o => o.rsv == 0
  | .csrc _ o => o.rsv == 0
  | .pool c o => c.form == .base && !c.rp && c.sc == 0 && o.nw != 0
  | .setvl _ o => o.fn == 0 && o.xb == 0
  | .setvt _ o => o.fn == 0 && o.xb == 0
  | .vdecl _ o => o.rsv == 0 && o.xb == 0
  | .vqry _ o => o.rsv == 0
  | .vcmp _ o => o.vd.toNat < 16
  | .vsplat _ o => o.rsv == 0 && o.xb == 0
  | .viota _ o => o.rsv == 0 && o.xb == 0
  | .pnot _ o => o.pb == 0
  | .pcnt _ o => o.pb == 0
  | .pfirst _ o => o.pb == 0
  | .pset _ o => o.pb == 0
  | .pmov _ o => o.pb == 0
  | .vslide _ o => o.rsv == 0
  | .vxch _ o => o.vb == 0
  | .vbcast _ o => o.rsv == 0
  | .vfred c _ => c.imm.toNat < 3
  | .vfmin c _ => c.imm == 0
  | .vfmax c _ => c.imm == 0
  | .vfcmp c o => o.vd.toNat < 16 && c.imm.toNat < 8
  | .vfsgn c _ => c.imm.toNat < 3
  | .vldz _ o => o.rsv == 0
  | .vstz _ o => o.rsv == 0
  | .mcfg _ o => o.fn == 0 && o.xb == 0
  | .mzero _ o => o.vb == 0 && o.va == 0 && o.vd == 0
  | .mop _ o => o.vd == 0
  | .mopg _ o => o.vd == 0
  | .mdrain c o => c.imm.extractLsb' 16 2 != 3 && (c.imm.extractLsb' 16 2 == 2 || (o.va == 0 && o.vb == 0)) &&
      (c.imm.extractLsb' 16 2 != 0 || c.rmo == 0 || c.rmo == 7)
  | .mscale _ o => o.rsv == 0 && o.xb == 0
  | .msave _ o => o.rsv == 0 && o.xb == 0
  | .mrest _ o => o.rsv == 0 && o.xb == 0
  | .mburst _ o => o.xd == 0
  | .mwait _ o => o.fn == 0 && o.xb == 0
  | .sexp _ o => o.vb == 0
  | .sargmin _ o => o.rsv == 0
  | .vgen _ o => o.rsv == 0
  | .tld _ o => o.rsv == 0 && o.xb == 0
  | .tst _ o => o.rsv == 0 && o.xb == 0
  | .tldx _ o => o.rsv == 0
  | .tstx _ o => o.rsv == 0
  | .twait c o => o.rsv == 0 && (!c.imm.getLsbD 31 || o.vd == 0)
  | .tclr c o => o.rsv == 0 && o.xa == 0 && o.xb == 0 && (!c.imm.getLsbD 31 || o.vd == 0)
  | .tqry c o => o.rsv == 0 && (!c.imm.getLsbD 31 || o.vd == 0)
  | .binput _ o => o.fn == 0
  | .binflush _ o => o.fn == 0 && o.xb == 0 && o.xa == 0
  | .kvapp _ o => o.fn == 0
  | .retspan _ o => o.fn.toNat < 4
  | .kvpin _ o => o.fn == 0 && o.xb == 0
  | .kvunpin _ o => o.fn == 0 && o.xb == 0
  | .sld _ o => o.rsv == 0
  | .sst _ o => o.rsv == 0
  | .sdot _ o => o.rsv == 0 && o.xa.toNat < 16
  | .sxpand _ o => o.rsv == 0
  | .spack _ o => o.rsv == 0
  | .shacc _ o => o.rsv == 0
  | .slen _ o => o.rsv == 0 && o.xa == 0
  | .amofFp32 _ o => o.sz == 0
  | .amofFp64 _ o => o.sz == 0
  | .amofBf16 _ o => o.sz == 0
  | .amox _ o => o.sz == 0 && o.xd == 0
  | .amoxrFp32 _ o => o.sz == 0
  | .amoxrFp64 _ o => o.sz == 0
  | .fence _ o => o.xa == 0 && o.xb == 0 && o.sp == 0
  | .gbar _ o => o.xb == 0 && o.xa == 0 && o.xd == 0
  | .etrig _ o => o.xb == 0 && o.xa == 0 && o.xd == 0
  | _ => true

/-- The register fields of R363 code 0x05 name no forbidden register. -/
def regOk : Instr → Bool
  | .ldq _ o | .stq _ o | .btx _ o => !o.xd.getLsbD 0
  | .loop _ o => o.xd != 0
  | .vcmp _ o | .vfcmp _ o => o.vd.toNat % 16 != 0
  | .pand _ o | .por _ o | .pxor _ o | .pnot _ o | .pandn _ o | .pfirst _ o | .pset _ o | .pmov _ o => o.pd != 0
  | _ => true

/-- The CSR numbers that R169 assigns. -/
def csrAssigned (n : Nat) : Bool :=
  n < 8 || n == 0x10 || n == 0x11 || (0x20 ≤ n && n < 0x25) || (0x30 ≤ n && n < 0x34) || (0x40 ≤ n && n < 0x46) ||
  (0x100 ≤ n && n < 0x200)

/-- The CSRs marked RO by R169, and for the monitor units by R336 and R425. -/
def csrReadOnly (n : Nat) : Bool :=
  n < 5 || n == 6 || n == 0x20 || (0x22 ≤ n && n < 0x25) || (0x30 ≤ n && n < 0x34) ||
  (0x100 ≤ n && n < 0x200 && !(n % 16 == 0 || n % 16 == 5 || n % 16 == 6 || n % 16 == 7))

/-- R363 code 0x06. -/
def csrOk : Instr → Bool
  | .csrr _ o => csrAssigned o.csr.toNat
  | .csrw _ o | .csrs _ o | .csrc _ o => csrAssigned o.csr.toNat && !csrReadOnly o.csr.toNat
  | _ => true

/-- R363 code 0x08 as far as the words alone decide it; MSCALE's selector is tested at issue. -/
def rangeOk : Instr → Bool
  | .pset _ o => o.pa.toNat < 6
  | .fencer _ o | .fence _ o => o.sco.toNat < 5
  | _ => true

/-- The width of the class immediate and its place in OPS, for a kind that has one (R134). -/
def ImmKind.field : ImmKind → Option (Nat × Nat)
  | .i6 => some (6, 12) | .i8 => some (8, 10) | .sh8 => some (8, 10) | .i13 => some (13, 5)
  | .off8 => some (8, 10) | .off18 => some (18, 0) | _ => Option.none

/-- The class immediate as R135 extends it: IMM6 by zeros, a shift amount as its bits, the others by sign. -/
def ImmKind.ofField (k : ImmKind) (v : Nat) : Word :=
  match k with
  | .i6 => BitVec.ofNat 64 v
  | .sh8 => BitVec.ofNat 64 v
  | .i8 | .off8 => (BitVec.ofNat 8 v).signExtend 64
  | .i13 => (BitVec.ofNat 13 v).signExtend 64
  | .off18 => (BitVec.ofNat 18 v).signExtend 64
  | _ => 0

/-- IMM32 as the instruction reads it (R135): sub-fields and shift amounts as bits, everything else by sign. -/
def ImmKind.ofImm32 (k : ImmKind) (v : BitVec 32) : Word :=
  match k with
  | .none => 0
  | .i6 | .sh8 | .sub _ => v.setWidth 64
  | _ => v.signExtend 64

/-- The immediate that the words can carry in this form (R133), and no bit beyond the named ones set. -/
def immOk (k : ImmKind) (c : Ctl) : Bool :=
  (match c.form with
   | .base =>
     match k.field with
     | some (w, _) => k.ofField (c.imm.toNat % 2 ^ w) == c.imm
     | none => c.imm == 0
   | .ext => if c.ovr.isSome then c.imm == 0 else k.ofImm32 (c.imm.setWidth 32) == c.imm
   | _ => k != .none) &&
  (match k with
   | .i6 | .sh8 => c.imm.toNat < 64
   | .sub m => c.imm &&& ~~~(m.setWidth 64) == 0
   | _ => true)

/-- The fields of E1 and E2 hold what R132 allows. -/
def ctlOk (u : Uses) (key : Key) (c : Ctl) : Bool :=
  immOk u.imm c &&
  (if c.form.isExt then
     (u.pred || c.pred == 0) && (u.z || !c.z) && (u.ovr || c.ovr.isNone) && (u.rowa || c.rowa == 0) &&
     (u.rowb || c.rowb == 0) && (if u.rounds then c.rmo != 6 else c.rmo == 0 || c.rmo == 7)
   else
     c.pred == 0 && !c.z && c.ovr.isNone && c.rmo == 7 && c.rowa == 0 && c.rowb == 0) &&
  (match key.minor with
   | .min n => c.minor.toNat == n
   | .cc => c.minor.toNat < 6
   | _ => c.minor == 0)

/-- The majors that exist only in the extended form (R137). -/
def extOnly (maj : Nat) : Bool :=
  [0x32, 0x37, 0x42, 0x4c, 0x52, 0x53, 0x54, 0x55, 0x5e, 0x60].contains maj

/-- FN holds the row's minor. -/
def fnOk (key : Key) (ops : BitVec 18) : Bool :=
  match key.minor with
  | .fn3 n => ops.toNat / 2 ^ 15 == n
  | .fn2 n => ops.toNat / 2 ^ 16 == n
  | .fn6 n => ops.toNat / 2 ^ 12 == n
  | _ => true

/-- The static tests of R363 after the major and minor are known: the code of the first that fails. -/
def illegalCode (i : Instr) : Option Nat :=
  match parts i with
  | none => none
  | some (key, c, ops) =>
    if extOnly key.maj && !c.form.isExt then some 2
    else if !fnOk key ops then some 3
    else if !(ctlOk (uses i) key c && rsvOk i) then some 4
    else if !regOk i then some 5
    else if !csrOk i then some 6
    else if !rangeOk i then some 8
    else none

/-- E1 (R131). -/
def e1Word (c : Ctl) : Instr32 :=
  c.rowb ++ c.rowa ++ c.minor ++ c.rmo ++ BitVec.ofBool c.ovr.isSome ++ BitVec.ofBool c.z ++ c.pred

/-- E2 (R131, R133). -/
def e2Word (c : Ctl) : Instr32 :=
  match c.ovr with
  | some v => 0#2 ++ v.d ++ v.b ++ v.a
  | none => if c.form.hasLit then 0 else c.imm.setWidth 32

/-- The first word (R130), the class immediate in its field in the base form. -/
def word0 (k : ImmKind) (key : Key) (c : Ctl) (ops : BitVec 18) : Instr32 :=
  let imm : BitVec 18 :=
    match c.form, k.field with
    | .base, some (w, sh) => BitVec.ofNat 18 ((c.imm.toNat % 2 ^ w) * 2 ^ sh)
    | _, _ => 0
  (ops ||| imm) ++ BitVec.ofNat 7 key.maj ++ c.sc ++ BitVec.ofBool c.rp ++ c.form.len

/-- The words of an instruction, in address order (R128). An event has none. -/
def encodeWords (i : Instr) : List Instr32 :=
  match parts i with
  | none => []
  | some (key, c, ops) =>
    let w := word0 (uses i).imm key c ops
    let lit := [c.imm.setWidth 32, (c.imm >>> 32).setWidth 32]
    match c.form with
    | .base => [w]
    | .ext => [w, e1Word c, e2Word c]
    | .lit => w :: lit
    | .extLit => w :: e1Word c :: e2Word c :: lit

/-- What EADDR holds for an illegal word (R363): the first word below, E1 or 0 above. -/
def illegalEaddr (i : Instr) : Word :=
  match encodeWords i, parts i with
  | w :: e :: _, some (_, c, _) => if c.form.isExt then e ++ w else 0#32 ++ w
  | [w], _ => 0#32 ++ w
  | _, _ => 0


end Sys2Proof.Machine
end

