-- ==== Sys2Proof/WellFormed.lean ====
section
/-! DEFINITION. Which instructions the encodings of the spec admit (R128 to R139, R363). -/
namespace Sys2Proof

/-- An instruction row is well formed when no static test of R363 fails; an event row has no encoding and always is. -/
def Instr.wellFormed (i : Instr) : Bool := (Machine.illegalCode i).isNone

/-- The row has an encoding (R137); the others are the device's events. -/
def Instr.encodable (i : Instr) : Bool := (Machine.parts i).isSome

end Sys2Proof
end

