-- ==== Sys2Proof/Decode.lean ====
section
/-! DEFINITION. Decoding (R128 to R140, R363), total on any words, and the encoder beside it. -/
namespace Sys2Proof
open Machine

/-- A row of the opcode map (R137, R138). -/
structure OpRow where
  key : Key
  build : Ctl → BitVec 18 → Instr

def opRows0p0 : List OpRow := [
  ⟨⟨0x00, .fn3 0⟩, fun c v => .add c (x3OfBits v)⟩,
  ⟨⟨0x00, .fn3 1⟩, fun c v => .sub c (x3OfBits v)⟩,
  ⟨⟨0x00, .fn3 2⟩, fun c v => .and c (x3OfBits v)⟩,
  ⟨⟨0x00, .fn3 3⟩, fun c v => .or c (x3OfBits v)⟩,
  ⟨⟨0x00, .fn3 4⟩, fun c v => .xor c (x3OfBits v)⟩,
  ⟨⟨0x00, .fn3 5⟩, fun c v => .andn c (x3OfBits v)⟩,
  ⟨⟨0x00, .fn3 6⟩, fun c v => .min c (x3OfBits v)⟩,
  ⟨⟨0x00, .fn3 7⟩, fun c v => .max c (x3OfBits v)⟩,
  ⟨⟨0x01, .fn3 0⟩, fun c v => .minu c (x3OfBits v)⟩,
  ⟨⟨0x01, .fn3 1⟩, fun c v => .maxu c (x3OfBits v)⟩,
  ⟨⟨0x01, .fn3 2⟩, fun c v => .slt c (x3OfBits v)⟩,
  ⟨⟨0x01, .fn3 3⟩, fun c v => .sltu c (x3OfBits v)⟩]
def opRows0p1 : List OpRow := [
  ⟨⟨0x01, .fn3 4⟩, fun c v => .sll c (x3OfBits v)⟩,
  ⟨⟨0x01, .fn3 5⟩, fun c v => .srl c (x3OfBits v)⟩,
  ⟨⟨0x01, .fn3 6⟩, fun c v => .sra c (x3OfBits v)⟩,
  ⟨⟨0x01, .fn3 7⟩, fun c v => .sel c (x3OfBits v)⟩,
  ⟨⟨0x02, .fn3 0⟩, fun c v => .mul c (x3OfBits v)⟩,
  ⟨⟨0x02, .fn3 1⟩, fun c v => .mulh c (x3OfBits v)⟩,
  ⟨⟨0x02, .fn3 2⟩, fun c v => .mulhu c (x3OfBits v)⟩,
  ⟨⟨0x02, .fn3 3⟩, fun c v => .div c (x3OfBits v)⟩,
  ⟨⟨0x02, .fn3 4⟩, fun c v => .divu c (x3OfBits v)⟩,
  ⟨⟨0x02, .fn3 5⟩, fun c v => .rem c (x3OfBits v)⟩,
  ⟨⟨0x02, .fn3 6⟩, fun c v => .remu c (x3OfBits v)⟩,
  ⟨⟨0x03, .fn3 0⟩, fun c v => .clz c (x3OfBits v)⟩]
def opRows0p2 : List OpRow := [
  ⟨⟨0x03, .fn3 1⟩, fun c v => .ctz c (x3OfBits v)⟩,
  ⟨⟨0x03, .fn3 2⟩, fun c v => .popc c (x3OfBits v)⟩,
  ⟨⟨0x03, .fn3 3⟩, fun c v => .ext c (x3OfBits v)⟩,
  ⟨⟨0x03, .fn3 4⟩, fun c v => .ins c (x3OfBits v)⟩,
  ⟨⟨0x04, .none⟩, fun c v => .addi c (xiOfBits v)⟩,
  ⟨⟨0x05, .none⟩, fun c v => .andi c (xiOfBits v)⟩,
  ⟨⟨0x06, .none⟩, fun c v => .ori c (xiOfBits v)⟩,
  ⟨⟨0x07, .none⟩, fun c v => .xori c (xiOfBits v)⟩]
def opRows1p0 : List OpRow := [
  ⟨⟨0x08, .none⟩, fun c v => .slli c (xiOfBits v)⟩,
  ⟨⟨0x09, .none⟩, fun c v => .srli c (xiOfBits v)⟩,
  ⟨⟨0x0a, .none⟩, fun c v => .srai c (xiOfBits v)⟩,
  ⟨⟨0x0b, .none⟩, fun c v => .slti c (xiOfBits v)⟩,
  ⟨⟨0x0c, .none⟩, fun c v => .li c (xlOfBits v)⟩,
  ⟨⟨0x0d, .none⟩, fun c v => .la c (xlOfBits v)⟩,
  ⟨⟨0x0e, .none⟩, fun c v => .ld c (xiOfBits v)⟩,
  ⟨⟨0x0f, .none⟩, fun c v => .ldu c (xiOfBits v)⟩]
def opRows2p0 : List OpRow := [
  ⟨⟨0x10, .none⟩, fun c v => .st c (xiOfBits v)⟩,
  ⟨⟨0x11, .none⟩, fun c v => .ldq c (xiOfBits v)⟩,
  ⟨⟨0x12, .none⟩, fun c v => .stq c (xiOfBits v)⟩,
  ⟨⟨0x13, .none⟩, fun c v => .beq c (brOfBits v)⟩,
  ⟨⟨0x14, .none⟩, fun c v => .bne c (brOfBits v)⟩,
  ⟨⟨0x15, .none⟩, fun c v => .blt c (brOfBits v)⟩,
  ⟨⟨0x16, .none⟩, fun c v => .bge c (brOfBits v)⟩,
  ⟨⟨0x17, .none⟩, fun c v => .bltu c (brOfBits v)⟩]
def opRows3p0 : List OpRow := [
  ⟨⟨0x18, .none⟩, fun c v => .bgeu c (brOfBits v)⟩,
  ⟨⟨0x19, .none⟩, fun c v => .jmp c (jOfBits v)⟩,
  ⟨⟨0x1a, .none⟩, fun c v => .jal c (xlOfBits v)⟩,
  ⟨⟨0x1b, .none⟩, fun c v => .jalr c (xiOfBits v)⟩,
  ⟨⟨0x1c, .none⟩, fun c v => .loop c (xlOfBits v)⟩,
  ⟨⟨0x1d, .none⟩, fun c v => .waitc c (xlOfBits v)⟩,
  ⟨⟨0x1e, .fn3 0⟩, fun c v => .nop c (x3OfBits v)⟩,
  ⟨⟨0x1e, .fn3 1⟩, fun c v => .exit c (x3OfBits v)⟩]
def opRows4p0 : List OpRow := [
  ⟨⟨0x20, .none⟩, fun c v => .setvl c (x3OfBits v)⟩,
  ⟨⟨0x21, .none⟩, fun c v => .setvt c (x3OfBits v)⟩,
  ⟨⟨0x22, .none⟩, fun c v => .vdecl c (vxOfBits v)⟩,
  ⟨⟨0x23, .none⟩, fun c v => .vqry c (vxOfBits v)⟩,
  ⟨⟨0x24, .none⟩, fun c v => .vadd c (v3OfBits v)⟩,
  ⟨⟨0x25, .none⟩, fun c v => .vsub c (v3OfBits v)⟩,
  ⟨⟨0x26, .none⟩, fun c v => .vadds c (v3OfBits v)⟩,
  ⟨⟨0x27, .none⟩, fun c v => .vsubs c (v3OfBits v)⟩]
def opRows5p0 : List OpRow := [
  ⟨⟨0x28, .none⟩, fun c v => .vmul c (v3OfBits v)⟩,
  ⟨⟨0x29, .none⟩, fun c v => .vmulh c (v3OfBits v)⟩,
  ⟨⟨0x2a, .none⟩, fun c v => .vmac c (v3OfBits v)⟩,
  ⟨⟨0x2b, .fn6 0⟩, fun c v => .vneg c (vfOfBits v)⟩,
  ⟨⟨0x2b, .fn6 1⟩, fun c v => .vabs c (vfOfBits v)⟩,
  ⟨⟨0x2b, .fn6 2⟩, fun c v => .vnot c (vfOfBits v)⟩,
  ⟨⟨0x2b, .fn6 3⟩, fun c v => .vmov c (vfOfBits v)⟩,
  ⟨⟨0x2b, .fn6 4⟩, fun c v => .vclz c (vfOfBits v)⟩,
  ⟨⟨0x2b, .fn6 5⟩, fun c v => .vpopc c (vfOfBits v)⟩,
  ⟨⟨0x2b, .fn6 6⟩, fun c v => .vwide c (vfOfBits v)⟩,
  ⟨⟨0x2c, .none⟩, fun c v => .vmin c (v3OfBits v)⟩,
  ⟨⟨0x2d, .none⟩, fun c v => .vmax c (v3OfBits v)⟩]
def opRows5p1 : List OpRow := [
  ⟨⟨0x2e, .none⟩, fun c v => .vand c (v3OfBits v)⟩,
  ⟨⟨0x2f, .none⟩, fun c v => .vor c (v3OfBits v)⟩]
def opRows6p0 : List OpRow := [
  ⟨⟨0x30, .none⟩, fun c v => .vxor c (v3OfBits v)⟩,
  ⟨⟨0x31, .none⟩, fun c v => .vandn c (v3OfBits v)⟩,
  ⟨⟨0x32, .none⟩, fun c v => .vbool c (v3OfBits v)⟩,
  ⟨⟨0x33, .none⟩, fun c v => .vshl c (viOfBits v)⟩,
  ⟨⟨0x34, .none⟩, fun c v => .vshr c (viOfBits v)⟩,
  ⟨⟨0x35, .none⟩, fun c v => .vsra c (viOfBits v)⟩,
  ⟨⟨0x36, .none⟩, fun c v => .vshv c (v3OfBits v)⟩,
  ⟨⟨0x37, .cc⟩, fun c v => .vcmp c (v3OfBits v)⟩]
def opRows7p0 : List OpRow := [
  ⟨⟨0x38, .none⟩, fun c v => .vsel c (v3OfBits v)⟩,
  ⟨⟨0x39, .none⟩, fun c v => .vsplat c (vxOfBits v)⟩,
  ⟨⟨0x3a, .none⟩, fun c v => .viota c (vxOfBits v)⟩,
  ⟨⟨0x3b, .none⟩, fun c v => .vlut c (v3OfBits v)⟩,
  ⟨⟨0x3c, .fn6 0⟩, fun c v => .pand c (p3OfBits v)⟩,
  ⟨⟨0x3c, .fn6 1⟩, fun c v => .por c (p3OfBits v)⟩,
  ⟨⟨0x3c, .fn6 2⟩, fun c v => .pxor c (p3OfBits v)⟩,
  ⟨⟨0x3c, .fn6 3⟩, fun c v => .pnot c (p3OfBits v)⟩,
  ⟨⟨0x3c, .fn6 4⟩, fun c v => .pandn c (p3OfBits v)⟩,
  ⟨⟨0x3c, .fn6 5⟩, fun c v => .pcnt c (p3OfBits v)⟩,
  ⟨⟨0x3c, .fn6 6⟩, fun c v => .pfirst c (p3OfBits v)⟩,
  ⟨⟨0x3c, .fn6 7⟩, fun c v => .pset c (p3OfBits v)⟩]
def opRows7p1 : List OpRow := [
  ⟨⟨0x3c, .fn6 8⟩, fun c v => .pmov c (p3OfBits v)⟩,
  ⟨⟨0x3d, .fn6 0⟩, fun c v => .vredAdd c (vfOfBits v)⟩,
  ⟨⟨0x3d, .fn6 1⟩, fun c v => .vredMin c (vfOfBits v)⟩,
  ⟨⟨0x3d, .fn6 2⟩, fun c v => .vredMax c (vfOfBits v)⟩,
  ⟨⟨0x3d, .fn6 3⟩, fun c v => .vredMinu c (vfOfBits v)⟩,
  ⟨⟨0x3d, .fn6 4⟩, fun c v => .vredMaxu c (vfOfBits v)⟩,
  ⟨⟨0x3d, .fn6 5⟩, fun c v => .vredAnd c (vfOfBits v)⟩,
  ⟨⟨0x3d, .fn6 6⟩, fun c v => .vredOr c (vfOfBits v)⟩,
  ⟨⟨0x3d, .fn6 7⟩, fun c v => .vredXor c (vfOfBits v)⟩,
  ⟨⟨0x3e, .fn6 0⟩, fun c v => .vscanAdd c (vfOfBits v)⟩,
  ⟨⟨0x3e, .fn6 1⟩, fun c v => .vscanMin c (vfOfBits v)⟩,
  ⟨⟨0x3e, .fn6 2⟩, fun c v => .vscanMax c (vfOfBits v)⟩]
def opRows7p2 : List OpRow := [
  ⟨⟨0x3e, .fn6 3⟩, fun c v => .vscanMinu c (vfOfBits v)⟩,
  ⟨⟨0x3e, .fn6 4⟩, fun c v => .vscanMaxu c (vfOfBits v)⟩,
  ⟨⟨0x3e, .fn6 5⟩, fun c v => .vscanAnd c (vfOfBits v)⟩,
  ⟨⟨0x3e, .fn6 6⟩, fun c v => .vscanOr c (vfOfBits v)⟩,
  ⟨⟨0x3e, .fn6 7⟩, fun c v => .vscanXor c (vfOfBits v)⟩,
  ⟨⟨0x3f, .none⟩, fun c v => .vdot c (v3OfBits v)⟩]
def opRows8p0 : List OpRow := [
  ⟨⟨0x40, .none⟩, fun c v => .vperm c (v3OfBits v)⟩,
  ⟨⟨0x41, .none⟩, fun c v => .vslide c (vvxOfBits v)⟩,
  ⟨⟨0x42, .none⟩, fun c v => .vxch c (v3OfBits v)⟩,
  ⟨⟨0x43, .none⟩, fun c v => .vbcast c (vvxOfBits v)⟩,
  ⟨⟨0x44, .none⟩, fun c v => .vfadd c (v3OfBits v)⟩,
  ⟨⟨0x45, .none⟩, fun c v => .vfsub c (v3OfBits v)⟩,
  ⟨⟨0x46, .none⟩, fun c v => .vfmul c (v3OfBits v)⟩,
  ⟨⟨0x47, .none⟩, fun c v => .vfma c (v3OfBits v)⟩]
def opRows9p0 : List OpRow := [
  ⟨⟨0x48, .none⟩, fun c v => .vfms c (v3OfBits v)⟩,
  ⟨⟨0x49, .none⟩, fun c v => .vfnma c (v3OfBits v)⟩,
  ⟨⟨0x4a, .none⟩, fun c v => .vfdiv c (v3OfBits v)⟩,
  ⟨⟨0x4b, .fn6 0⟩, fun c v => .vfsqrt c (vfOfBits v)⟩,
  ⟨⟨0x4b, .fn6 1⟩, fun c v => .vfclass c (vfOfBits v)⟩,
  ⟨⟨0x4b, .fn6 2⟩, fun c v => .vfcvt c (vfOfBits v)⟩,
  ⟨⟨0x4b, .fn6 3⟩, fun c v => .vftoi c (vfOfBits v)⟩,
  ⟨⟨0x4b, .fn6 4⟩, fun c v => .vitof c (vfOfBits v)⟩,
  ⟨⟨0x4b, .fn6 5⟩, fun c v => .vfred c (vfOfBits v)⟩,
  ⟨⟨0x4b, .fn6 6⟩, fun c v => .vmxq c (vfOfBits v)⟩,
  ⟨⟨0x4b, .fn6 7⟩, fun c v => .vmxd c (vfOfBits v)⟩,
  ⟨⟨0x4b, .fn6 8⟩, fun c v => .vhad c (vfOfBits v)⟩]
def opRows9p1 : List OpRow := [
  ⟨⟨0x4c, .min 0⟩, fun c v => .vfmin c (v3OfBits v)⟩,
  ⟨⟨0x4c, .min 1⟩, fun c v => .vfmax c (v3OfBits v)⟩,
  ⟨⟨0x4c, .min 2⟩, fun c v => .vfcmp c (v3OfBits v)⟩,
  ⟨⟨0x4c, .min 3⟩, fun c v => .vfsgn c (v3OfBits v)⟩,
  ⟨⟨0x4d, .none⟩, fun c v => .vldz c (vxOfBits v)⟩,
  ⟨⟨0x4e, .none⟩, fun c v => .vstz c (vxOfBits v)⟩]
def opRowsap0 : List OpRow := [
  ⟨⟨0x50, .none⟩, fun c v => .mcfg c (x3OfBits v)⟩,
  ⟨⟨0x51, .none⟩, fun c v => .mzero c (v3OfBits v)⟩,
  ⟨⟨0x52, .none⟩, fun c v => .mop c (v3OfBits v)⟩,
  ⟨⟨0x53, .none⟩, fun c v => .mops c (v3OfBits v)⟩,
  ⟨⟨0x54, .none⟩, fun c v => .mopg c (v3OfBits v)⟩,
  ⟨⟨0x55, .none⟩, fun c v => .mdrain c (v3OfBits v)⟩,
  ⟨⟨0x56, .none⟩, fun c v => .mscale c (vxOfBits v)⟩,
  ⟨⟨0x57, .none⟩, fun c v => .msave c (vxOfBits v)⟩]
def opRowsbp0 : List OpRow := [
  ⟨⟨0x58, .none⟩, fun c v => .mrest c (vxOfBits v)⟩,
  ⟨⟨0x59, .none⟩, fun c v => .mburst c (xlOfBits v)⟩,
  ⟨⟨0x5a, .none⟩, fun c v => .mwait c (x3OfBits v)⟩,
  ⟨⟨0x5b, .none⟩, fun c v => .sexp c (v3OfBits v)⟩,
  ⟨⟨0x5c, .none⟩, fun c v => .sfit c (v3OfBits v)⟩,
  ⟨⟨0x5d, .none⟩, fun c v => .sargmin c (vxOfBits v)⟩,
  ⟨⟨0x5e, .none⟩, fun c v => .vgen c (vxOfBits v)⟩]
def opRowscp0 : List OpRow := [
  ⟨⟨0x60, .min 0⟩, fun c v => .tld c (vxOfBits v)⟩,
  ⟨⟨0x60, .min 1⟩, fun c v => .tst c (vxOfBits v)⟩,
  ⟨⟨0x60, .min 2⟩, fun c v => .tldx c (vxOfBits v)⟩,
  ⟨⟨0x60, .min 3⟩, fun c v => .tstx c (vxOfBits v)⟩,
  ⟨⟨0x60, .min 4⟩, fun c v => .twait c (vxOfBits v)⟩,
  ⟨⟨0x60, .min 5⟩, fun c v => .tclr c (vxOfBits v)⟩,
  ⟨⟨0x60, .min 6⟩, fun c v => .tqry c (vxOfBits v)⟩,
  ⟨⟨0x61, .none⟩, fun c v => .binput c (x3OfBits v)⟩,
  ⟨⟨0x62, .none⟩, fun c v => .binflush c (x3OfBits v)⟩,
  ⟨⟨0x63, .none⟩, fun c v => .kvapp c (x3OfBits v)⟩,
  ⟨⟨0x64, .none⟩, fun c v => .retspan c (x3OfBits v)⟩,
  ⟨⟨0x65, .none⟩, fun c v => .kvpin c (x3OfBits v)⟩]
def opRowscp1 : List OpRow := [
  ⟨⟨0x66, .none⟩, fun c v => .kvunpin c (x3OfBits v)⟩,
  ⟨⟨0x67, .fn3 0⟩, fun c v => .kvqryDesc c (x3OfBits v)⟩,
  ⟨⟨0x67, .fn3 1⟩, fun c v => .kvqryPos c (x3OfBits v)⟩,
  ⟨⟨0x67, .fn3 2⟩, fun c v => .kvqryHdr c (x3OfBits v)⟩,
  ⟨⟨0x67, .fn3 3⟩, fun c v => .kvqryCount c (x3OfBits v)⟩]
def opRowsdp0 : List OpRow := [
  ⟨⟨0x68, .none⟩, fun c v => .sld c (sxOfBits v)⟩,
  ⟨⟨0x69, .none⟩, fun c v => .sst c (sxOfBits v)⟩,
  ⟨⟨0x6a, .fn6 0⟩, fun c v => .sadd c (s3OfBits v)⟩,
  ⟨⟨0x6a, .fn6 1⟩, fun c v => .ssub c (s3OfBits v)⟩,
  ⟨⟨0x6a, .fn6 2⟩, fun c v => .smul c (s3OfBits v)⟩,
  ⟨⟨0x6a, .fn6 3⟩, fun c v => .smax c (s3OfBits v)⟩,
  ⟨⟨0x6a, .fn6 4⟩, fun c v => .sscale c (s3OfBits v)⟩,
  ⟨⟨0x6b, .none⟩, fun c v => .sdot c (sxOfBits v)⟩,
  ⟨⟨0x6c, .none⟩, fun c v => .sxpand c (svOfBits v)⟩,
  ⟨⟨0x6d, .none⟩, fun c v => .spack c (svOfBits v)⟩,
  ⟨⟨0x6e, .none⟩, fun c v => .shacc c (sxOfBits v)⟩,
  ⟨⟨0x6f, .none⟩, fun c v => .slen c (sxOfBits v)⟩]
def opRowsep0 : List OpRow := [
  ⟨⟨0x70, .fn2 0⟩, fun c v => .amoAdd c (atOfBits v)⟩,
  ⟨⟨0x70, .fn2 1⟩, fun c v => .amoAnd c (atOfBits v)⟩,
  ⟨⟨0x70, .fn2 2⟩, fun c v => .amoOr c (atOfBits v)⟩,
  ⟨⟨0x70, .fn2 3⟩, fun c v => .amoXor c (atOfBits v)⟩,
  ⟨⟨0x71, .fn2 0⟩, fun c v => .amoMin c (atOfBits v)⟩,
  ⟨⟨0x71, .fn2 1⟩, fun c v => .amoMax c (atOfBits v)⟩,
  ⟨⟨0x71, .fn2 2⟩, fun c v => .amoMinu c (atOfBits v)⟩,
  ⟨⟨0x71, .fn2 3⟩, fun c v => .amoMaxu c (atOfBits v)⟩,
  ⟨⟨0x72, .fn2 0⟩, fun c v => .amocas c (atOfBits v)⟩,
  ⟨⟨0x72, .fn2 1⟩, fun c v => .amoSwap c (atOfBits v)⟩,
  ⟨⟨0x73, .fn2 0⟩, fun c v => .amofFp32 c (atOfBits v)⟩,
  ⟨⟨0x73, .fn2 1⟩, fun c v => .amofFp64 c (atOfBits v)⟩]
def opRowsep1 : List OpRow := [
  ⟨⟨0x73, .fn2 2⟩, fun c v => .amofBf16 c (atOfBits v)⟩,
  ⟨⟨0x74, .fn2 0⟩, fun c v => .amox c (atOfBits v)⟩,
  ⟨⟨0x74, .fn2 1⟩, fun c v => .amoxrFp32 c (atOfBits v)⟩,
  ⟨⟨0x74, .fn2 2⟩, fun c v => .amoxrFp64 c (atOfBits v)⟩,
  ⟨⟨0x75, .none⟩, fun c v => .fencer c (fOfBits v)⟩,
  ⟨⟨0x76, .none⟩, fun c v => .fence c (fOfBits v)⟩,
  ⟨⟨0x77, .fn3 0⟩, fun c v => .waitm c (x3OfBits v)⟩,
  ⟨⟨0x77, .fn3 1⟩, fun c v => .gbar c (x3OfBits v)⟩,
  ⟨⟨0x77, .fn3 2⟩, fun c v => .etrig c (x3OfBits v)⟩,
  ⟨⟨0x77, .fn3 3⟩, fun c v => .glaunch c (x3OfBits v)⟩,
  ⟨⟨0x77, .fn3 4⟩, fun c v => .gqry c (x3OfBits v)⟩]
def opRowsfp0 : List OpRow := [
  ⟨⟨0x78, .none⟩, fun c v => .csrr c (cOfBits v)⟩,
  ⟨⟨0x79, .none⟩, fun c v => .csrw c (cOfBits v)⟩,
  ⟨⟨0x7a, .none⟩, fun c v => .csrs c (cOfBits v)⟩,
  ⟨⟨0x7b, .none⟩, fun c v => .csrc c (cOfBits v)⟩,
  ⟨⟨0x7c, .none⟩, fun c v => .trap c (xlOfBits v)⟩,
  ⟨⟨0x7d, .fn3 0⟩, fun c v => .rte c (x3OfBits v)⟩,
  ⟨⟨0x7d, .fn3 1⟩, fun c v => .brk c (x3OfBits v)⟩,
  ⟨⟨0x7d, .fn3 2⟩, fun c v => .yield c (x3OfBits v)⟩,
  ⟨⟨0x7f, .none⟩, fun c v => .pool c (plOfBits v)⟩]
/-- The opcode map. BTX is STQ's word (R255, log 12). -/
def opRows : List OpRow :=
  opRows0p0 ++ opRows0p1 ++ opRows0p2 ++ opRows1p0 ++ opRows2p0 ++ opRows3p0 ++ opRows4p0 ++ opRows5p0 ++
  opRows5p1 ++ opRows6p0 ++ opRows7p0 ++ opRows7p1 ++ opRows7p2 ++ opRows8p0 ++ opRows9p0 ++ opRows9p1 ++
  opRowsap0 ++ opRowsbp0 ++ opRowscp0 ++ opRowscp1 ++ opRowsdp0 ++ opRowsep0 ++ opRowsep1 ++ opRowsfp0

/-- What decoding answers: an instruction, an illegal word with its code of R363, or that more words are needed. -/
inductive Decoded where
  | ok (i : Instr)
  | illegal (code : Nat)
  | short (words : Nat)
  deriving DecidableEq, Repr

def formOf (w : Instr32) : Form :=
  match (w.extractLsb' 0 2).toNat with
  | 0 => .base | 1 => .ext | 2 => .lit | _ => .extLit

def majOf (w : Instr32) : Nat := (w.extractLsb' 7 7).toNat
def opsOf (w : Instr32) : BitVec 18 := w.extractLsb' 14 18

/-- Whether a row's minor code is the one in the words. -/
def minorMatches (ops : BitVec 18) (e1 : Instr32) : Minor → Bool
  | .none => true
  | .fn3 n => ops.toNat / 2 ^ 15 == n
  | .fn2 n => ops.toNat / 2 ^ 16 == n
  | .fn6 n => ops.toNat / 2 ^ 12 == n
  | .min n => (e1.extractLsb' 9 7).toNat == n
  | .cc => (e1.extractLsb' 9 7).toNat < 6

/-- The controls that the words hold (R131 to R133), for an instruction whose immediate is of kind `k`. -/
def ctlOf (k : ImmKind) (w : Instr32) (e1 e2 : Instr32) (lit : Word) : Ctl :=
  let form := formOf w
  let ext := form.isExt
  let ovr : Option Ovr :=
    if ext && e1.getLsbD 5 then some ⟨e2.extractLsb' 0 10, e2.extractLsb' 10 10, e2.extractLsb' 20 10⟩ else none
  { form, sc := w.extractLsb' 3 4, rp := w.getLsbD 2
    pred := if ext then e1.extractLsb' 0 4 else 0
    z := ext && e1.getLsbD 4
    rmo := if ext then e1.extractLsb' 6 3 else 7
    ovr
    minor := if ext then e1.extractLsb' 9 7 else 0
    rowa := if ext then e1.extractLsb' 16 8 else 0
    rowb := if ext then e1.extractLsb' 24 8 else 0
    imm :=
      if form.hasLit then lit
      else if ext then (if ovr.isSome then 0 else k.ofImm32 e2)
      else match k.field with
        | some (wd, sh) => k.ofField ((opsOf w).toNat / 2 ^ sh % 2 ^ wd)
        | none => 0 }

/-- The row that the words select: R363 codes 0x01 to 0x03 in their order. -/
def selectRow (w e1 : Instr32) : Except Nat OpRow :=
  let rows := opRows.filter (fun r => r.key.maj == majOf w)
  if rows.isEmpty then .error 1
  else if extOnly (majOf w) && !(formOf w).isExt then .error 2
  else match rows.find? (fun r => minorMatches (opsOf w) e1 r.key.minor) with
    | some r => .ok r
    | none => .error 3

/-- Decodes the instruction that starts with the first word. Bits that the instruction does not hold must be those its
encoding has (R139, R363 code 0x04); then the static tests run in the order of R363. -/
def decodeWords (ws : List Instr32) : Decoded :=
  match ws with
  | [] => .short 1
  | w :: rest =>
    let form := formOf w
    let n := form.words
    if ws.length < n then .short n
    else
      let e1 := if form.isExt then rest.getD 0 0 else 0
      let e2 := if form.isExt then rest.getD 1 0 else 0
      let lo := rest.getD (if form.isExt then 2 else 0) 0
      let hi := rest.getD (if form.isExt then 3 else 1) 0
      match selectRow w e1 with
      | .error k => .illegal k
      | .ok r =>
        let k := (uses (r.build Ctl.plain (opsOf w))).imm
        let i := r.build (ctlOf k w e1 e2 (hi ++ lo)) (opsOf w)
        if encodeWords i != ws.take n then .illegal 4
        else match illegalCode i with
          | some c => .illegal c
          | none => .ok i

/-- The words of an instruction (R128). -/
def encode (i : Instr) : List Instr32 := encodeWords i

/-- The five words that a bit pattern `w` gives, its bit 0 the least significant bit of the first word. -/
def tableWords (w : Nat) : List Instr32 :=
  [0, 1, 2, 3, 4].map (fun k => BitVec.ofNat 32 (w / 2 ^ (32 * k)))

/-- The instruction the decoder reads from the `nbits` low bits of `w`, zeros above them. -/
def decodeTableWord (nbits w : Nat) : Option Instr :=
  match decodeWords (tableWords (w % 2 ^ nbits)) with
  | .ok i => some i
  | _ => none

end Sys2Proof
end

