-- ==== Sys2Proof/Machine/Cost.lean ====
section
/-! DEFINITION. What an instruction costs and touches (R16, R37 to R43): places, units, and the account of one instruction. -/
namespace Sys2Proof.Machine

/-- What a hazard rule or an exposed window speaks of (R42, R370); `table` is a drain table by its selector (R230), 7 and 8 the marks
NA and NB. -/
inductive Loc where
  | v (n : Nat) | p (n : Nat) | x (n : Nat) | acc (row : Nat) | flags | table (sel : Nat)
  deriving DecidableEq, Repr

/-- The units of R40 by name. -/
inductive UnitName where
  | scalar | vector | matrix | word | transform | drain | tile
  deriving DecidableEq, Repr

/-- A unit held for `len` cy, from `off` cy after the occupancy's start. -/
structure UnitUse where
  unit : UnitName
  off : Nat
  len : Nat
  deriving DecidableEq, Repr

/-- What must be over before an instruction issues, beside the units. -/
inductive Before where
  | lanes           -- the lane instructions have landed (R171)
  | tileMoves       -- the tile moves are performed (R287)
  | matrixDone      -- matrix and drain occupancies have ended (R224)
  | matrixLanded    -- and landed (R240)
  | landed          -- every earlier instruction has landed (R163, R167)
  | performed       -- every earlier access is performed (R163, R311)
  | reg (n : Nat)   -- reads of V`n` are over and writes to it have landed (R173)
  deriving DecidableEq, Repr

/-- What an instruction costs and touches. `occ` is O of R41 for its lane results, which land by issue + `skew` + O + 4; `lands`
are scalar results with their L (R150); `rows` and `moreRows` are the rows of each granted tile it touches and `port` those whose write port it
holds (R16); `perform` is when its memory accesses, which read `pieces` and write `stored`, are performed; `drainRow` gives the first accumulator row of a drain
and the cy between its rows (R237); `extra` is the delay of a taken branch (R153). `cells` are the elements that it writes of its vector or
predicate destination, and the low bits of each, none for all; `rowCells` those that come from one accumulator row each; `late` is how
many cys after the occupancy's start it begins to read vector registers. -/
structure Cost where
  units : List UnitUse := [⟨.scalar, 0, 1⟩]
  skew : Nat := 0
  occ : Nat := 0
  reads : List Loc := []
  writes : List Loc := []
  lands : List (BitVec 5 × Nat) := []
  rows : Nat × Nat := (0, 0)
  moreRows : List (Nat × Nat) := []
  port : Nat × Nat := (0, 0)
  before : List Before := []
  access : Bool × Bool := (false, false)
  perform : Nat := 0
  pieces : List (Nat × Nat) := []
  stored : List (Nat × Nat) := []
  drainRow : Option (Nat × Nat) := none
  merge : Nat := 0
  array : Bool := false
  extra : Nat := 0
  cells : Option (Nat × Nat) := none
  rowCells : List (Loc × Nat) := []
  late : Nat := 0
  deriving DecidableEq, Repr

/-- A unit's use once `n` steps are over. -/
def UnitUse.rest (u : UnitUse) (n : Nat) : UnitUse := ⟨u.unit, u.off - n, u.off + u.len - max n u.off⟩

/-- What is left of an instruction's cost once `n` of its steps are complete (R46). -/
def Cost.rest (k : Cost) (n : Nat) : Cost :=
  { k with
    units := (k.units.map (fun u => u.rest n)).filter (fun u => u.unit != .scalar && u.len != 0), occ := k.occ - n
    lands := k.lands.map (fun x => (x.1, x.2 - n)), perform := k.perform - n, before := [], extra := 0 }

end Sys2Proof.Machine
end

