-- ==== Sys2Proof/Machine/Event.lean ====
section
/-! DEFINITION. The events of the device, one constructor per row of spec/opcode_table.json without an encoding, as the
calendar and the agenda of State hold them. -/
namespace Sys2Proof.Machine

inductive Event where
  | trapEntry (cls code : BitVec 8) (eaddr : Word)
  | asyncInterrupt
  | swap (regs : List (BitVec 6))
  | resultLanding (n : Nat)
  | loadDataReturn
  | rowDrowsy (core row : Nat)
  | arrayRampUpEnd (core : Nat)
  | arrayRampDown (core : Nat)
  | arrayRampDownEnd (core : Nat)
  | burstHoldEnd (core : Nat)
  | apertureQueueAccept (gang hart : Nat)
  | copyStart (chan : Nat)
  | translationWalk (asid va : Nat)
  | chunkLand (chan k : Nat)
  | chunkRetry (chan k : Nat)
  | followOnSweep (core : Nat)
  | sweepDone (core : Nat)
  | kvwalkCarriageStart (chan : Nat)
  | binPairWrite (die : Nat)
  | coachOpApply (die : Nat)
  | coachOpComplete (gang hart : Nat)
  | replicaApply (n : Nat)
  | waitComplete (gang hart : Nat)
  | waitmReread (gang hart : Nat)
  | fenceRelease (gang hart : Nat)
  | binflushComplete (gang hart : Nat)
  | barrierComplete (gang : Nat)
  | timingTrap (gang hart : Nat)
  | timingConditionMet (gang hart : Nat)
  | timingRestart (gang hart : Nat)
  | waitRelease (gang hart : Nat)
  | icacheFill (va : Word)
  | icacheParityRefill (va : Word)
  | launchArrival (n : Nat)
  | gqryArrival (n : Nat)
  | placementPass (part : Nat)
  | preemptionStop (gang : Nat)
  | prologue (gang : Nat)
  | gangStart (gang : Nat)
  | gangRetire (gang : Nat)
  | gangFaultEnd (gang : Nat)
  | faultRecordDelivery (n : Nat)
  | hostLaunch (vf : Nat) (lid : Word)
  | lock (vf : Nat) (cmd arg : Word)
  | unlock (vf : Nat) (cmd arg : Word)
  | pageInvalidate (vf : Nat) (cmd arg : Word)
  | migrate (vf : Nat) (cmd arg : Word)
  | migrationChunkCopy (n : Nat)
  | diemapWrite (v : Word)
  | dieAssignmentDone
  | shareWrite (v : Word)
  | logclrVcount (part : Nat)
  | logclrFcount (part : Nat)
  | registerWrite (pf : Bool) (vf off : Nat) (v : Word)
  | bar2Read (vf off len : Nat)
  | bar2Write (vf off : Nat) (bytes : List Byte)
  | tbConfigWrite (cluster tb : Nat) (v : Word)
  | tbLandedClear (cluster tb dw : Nat) (v : Word)
  | halt (gang : Nat)
  | run (gang : Nat)
  | step (gang hart : Nat)
  | quiesce (gang : Nat)
  | readv (gang hart v e : Nat)
  | readx (gang hart arg csr : Nat)
  | writex (gang hart arg csr : Nat) (v : Word)
  | unfence (core row : Nat)
  | inject (space addr kind : Nat)
  | monitorConfigWrite (unit : Nat) (v : Word)
  | monitorSample (unit v : Nat)
  | alarmClear (unit : Nat)
  | firmwareBoot (image key sig : List Byte)
  | attestationReport (nonce : BitVec 256)
  | thermalStall (die reading : Nat)
  | dieStopTemperature (die reading : Nat)
  | ucieEdgeLoss (edge : Nat)
  | correctedWriteback (space addr : Nat)
  | transferRetry (chan k delay : Nat)
  | uncorrectedError (space addr : Nat)
  | thermalStallEnd (die : Nat)
  | mailboxWindowWrite (vf off : Nat) (v : Word)
  deriving DecidableEq, Repr

end Sys2Proof.Machine
end

