-- ==== Sys2Proof/Machine/State.lean ====
section
/-! DEFINITION. The state of the RY-4384 as plain data: every register, memory, queue and engine position the spec names,
the outcomes' reasons, and the state right after reset. A field marked MODEL is the model's own bookkeeping, not the spec's. -/
namespace Sys2Proof.Machine

/-- Sparse data by key: keys strictly rising, no entry that equals what an unlisted key reads as (see Store.lean). -/
abbrev Sparse (α : Type) := List (Nat × α)

/-- Why a step stops: never. Every fault of the spec is taken by the machine (R166, R352, R353, R357). -/
inductive Fault where
  deriving DecidableEq, Repr

/-- Why an instruction has no meaning. -/
inductive Refusal where
  /-- Raised by `exec` for a row the model does not execute yet: safe. -/
  | notModelled (mnemonic : String)
  deriving DecidableEq, Repr

/-- One exposed window, or one reading span, of an issued instruction (R41 to R43); `upto` is the last cy. `cells` says which elements of a
vector register or predicate it writes, as a set of bits, and how many low bits of each; none: all of it. `src` names the one accumulator
row that the part comes from (R237). -/
structure Window where
  loc : Loc
  pc : Word
  at_ : Nat              -- its issue cy
  upto : Nat
  cells : Option (Nat × Nat) := none
  src : Option Loc := none
  deriving DecidableEq, Repr

/-- The seven units of R40: the first cy in which each can begin an occupancy. -/
structure Units where
  scalar : Nat
  vector : Nat
  matrix : Nat
  word : Nat
  transform : Nat
  drain : Nat
  tile : Nat
  deriving DecidableEq, Repr

/-- A hold on the write port of rows `lo` to `lo + n - 1` of the granted tiles, from cy `since` to cy `upto`, by an instruction that uses the
named units (R16). -/
structure PortHold where
  units : List UnitName
  lo : Nat
  n : Nat
  since : Nat
  upto : Nat
  deriving DecidableEq, Repr

/-- The grant under which a register's records were written (R84), and whether a fill re-places them by element index (R52,
R420). `fenced` lists the rows then left out, as tile·256 + row. -/
structure SpillGrant where
  fold : Nat
  rlen : Nat
  rows : Nat
  tiles : Nat
  vl : Nat
  byIndex : Bool
  fenced : List Nat
  deriving DecidableEq, Repr

/-- One of V0 to V63 (R81, R50, R83, R84). -/
structure VReg where
  kind : BitVec 2        -- 0 undeclared, 1 vector register, 2 per-lane table
  wm : BitVec 6          -- width - 1
  entm : BitVec 6        -- entries - 1
  init : Bool            -- INIT
  fresh : Bool           -- never filled since its declaration and INIT = 0: the first fill writes zeros
  slot : Nat             -- backing slot: byte offset from the hart's backing area
  first : Option Nat     -- first plane while resident
  lastRef : Nat          -- place in the order of references (0: never)
  spilled : Option SpillGrant   -- the last spill; its RLEN is the decoding RLEN
  slotSize : Nat         -- size of the slot it holds (R174)
  deriving DecidableEq, Repr

/-- The CSRs of a hart (R169), the monitors apart; TMODE, TSTART, GCYC, HARTID, GANGID and FAULTMB live elsewhere. -/
structure Csrs where
  vl : Nat
  rlen : Nat
  rows : Nat
  tiles : Nat
  fold : Nat
  vtype : Word
  resume : Word
  fcsr : Word
  mcfg : Word
  tchk : Bool
  rpc : Word
  status : Word
  tvec : Word
  epc : Word
  ecause : Word
  estep : Word
  eaddr : Word
  deriving DecidableEq, Repr

/-- What the device copies when a restart point issues (R373, R71). -/
structure Restart where
  x : Vector Word 32
  csr : Csrs
  gens : Sparse (BitVec 32)
  cy : Nat
  deriving DecidableEq, Repr

/-- What a hart does now (R315, R352, R375, R421, R372). -/
inductive Run where
  | idle | running | exited
  | stopped      -- after an unhandled trap or the gang's end in the faulted state
  | halted       -- by a debug command
  | stepping     -- issues one instruction, then halts (STEP of R421)
  | saved        -- stopped for a pre-emption
  | held         -- step 2 of R372: waits for the failed condition of its restart
  deriving DecidableEq, Repr

/-- What a waiting hart waits for. -/
inductive WaitFor where
  | twait | waitm | mwait | gbar | coach | launch | query | binflush | exit | binput | aperture | kvapp | tclr
  deriving DecidableEq, Repr

/-- A waiting instruction: it has issued, or holds before its issue, and PC has not moved past it. -/
structure Wait where
  on : WaitFor
  instr : Instr
  since : Nat
  reply : Option Word
  deriving DecidableEq, Repr

/-- One write of a hart in its current strip interval (R112): an aligned 8-byte word by its global address divided by 8, whether
a tile move made it, the bits it wrote and their values, and the value of the word beneath it. The writes of one word stand in its
write order (R107), the first lowest. -/
structure StripWrite where
  word : Nat
  tile : Bool
  at_ : Nat              -- the issue cy of the instruction
  mask : Word
  val : Word
  old : Word
  seen : Bool            -- it is ordered before every later read
  fixed : Bool           -- it is ordered before every later write
  glued : Bool           -- nothing may come between it and the write beneath it: an atomic read that one (R303)
  deriving DecidableEq, Repr

/-- Where a part of a word that was read went: `width` bits from `bit` on to element `elem` of a vector register, or the whole
word to a scalar register. -/
structure ReadPart where
  dst : Loc
  elem : Nat
  bit : Nat
  width : Nat
  sgn : Bool
  row : Option Nat       -- of a seed record in the 32 bits from `bit` on: the weight of this row of it (R247)
  deriving DecidableEq, Repr

/-- The stream that a VLDZ has walked in the current strip interval (R112, R218): where it lies, DESCD, X[XB] and C, the first element
that it could write, the words as it read them by global address divided by 8, and its elements' patterns before it. -/
structure Streamed where
  at_ : Nat              -- the issue cy
  vd : Nat
  xb : Nat
  fmt : Nat
  width : Nat
  sgn : Bool
  src : Nat
  budget : Nat
  cap : Nat
  first : Nat
  words : Sparse Word
  before : List (Nat × Nat)
  deriving DecidableEq, Repr

/-- A read of a word in the current strip interval (R112): `pos` counts the writes of the word that it saw. Its destination may
still be landing up to cy `upto` (rule 5). -/
structure StripRead where
  tile : Bool
  word : Nat
  pos : Nat
  upto : Nat
  stream : Option Nat    -- the issue cy of the VLDZ that decodes the word
  seen : Bool            -- it is ordered before every later read
  fixed : Bool           -- it is ordered before every later write
  parts : List ReadPart
  deriving DecidableEq, Repr

/-- An access of a hart to the scratchpads: the bytes, as (global address, length), and the cy by which it is performed. -/
structure MemAccess where
  read : Bool
  write : Bool
  pieces : List (Nat × Nat)
  stored : List (Nat × Nat)
  at_ : Nat
  upto : Nat
  deriving DecidableEq, Repr

/-- A fence that has not released (R308): kinds RR, RW, WR, WW in bits 0 to 3, and the accesses that came before it. -/
structure FenceHold where
  scope : Nat
  kinds : BitVec 4
  virt : Option Bool     -- none: both spaces
  base : Nat
  len : Option Nat       -- none: unbounded
  early : List MemAccess
  deriving DecidableEq, Repr

/-- An issued instruction, with what its stop at a step boundary needs (R46, R72, R375): its cost, the pc after it, FCSR, VL, RESUME and
the scalar registers as they stood before it, its flags, the steps completed, and the cys from the stop to the next issue. -/
structure Issued where
  instr : Instr
  pc : Word
  next : Word
  cy : Nat
  cost : Cost
  fcsr : Word
  vl : Nat
  resume : Word
  x : Vector Word 32
  flags : BitVec 6
  steps : Nat
  rest : Nat
  deriving DecidableEq, Repr

/-- An asynchronous interrupt due at a restart point (R355). -/
structure Irq where
  cls : BitVec 8
  code : BitVec 8
  eaddr : Word
  deriving DecidableEq, Repr

/-- A bin set as the engine read it (R276), none when it is malformed or unreadable (R413), and the pairs appended per cart
since the last flush. -/
structure BinSet where
  va : Nat
  fields : Option (List Nat)     -- CARTS, NREG, NH, SHIFT, CAP, IBASE
  appended : Sparse Nat          -- by cart VA
  bad : List Nat                 -- carts whose fault has been reported (R413)
  deriving DecidableEq, Repr

/-- A hart (R30, R106): registers, control registers, register file, waits, and the timing of its issue. -/
structure Hart where
  gang : Nat                     -- its gang's `id`, 0 for none
  idx : Nat                      -- hart index in the gang
  core : Nat                     -- package core number of the first tile slot
  slots : Nat                    -- tile slots
  run : Run
  pc : Word
  x : Vector Word 32
  csr : Csrs
  stepAt : Nat                   -- STEP at which the next instruction resumes (R167)
  dot : Word
  regs : Vector VReg 64
  slotEnd : Nat                  -- end of the backing slots in use (R174)
  refs : Nat                     -- count of references made (R50)
  landed : Sparse (BitVec 257)   -- key 512 v + tile: row bits 0 to 255, matrix-done bit 256 (R87)
  landedAt : Sparse Nat          -- key 257 times that of `landed` plus the bit: the cy a bit was set in a tile of another die (R197)
  gens : Sparse (BitVec 32)      -- stochastic-rounding generators moved from their initial state, by element (R70)
  restart : Restart
  wait : Option Wait
  exit : Option Word
  triggered : Bool
  arrived : Nat                  -- barriers this hart has arrived at (R310)
  irqs : List Irq
  flagsDue : List (Nat × BitVec 6)   -- flags that may not have landed: the last cy of their window, and the flags (R72)
  strip : List StripWrite
  stripReads : List StripRead
  streams : List Streamed
  fences : List FenceHold
  binSets : List BinSet
  lateX : Sparse Nat             -- per scalar register: the last cy in which the write that holds it may land (R152)
  last : Option Issued           -- the instruction issued last, while it may be stopped part-way (R46)
  part : Option Issued           -- the instruction at the pc, stopped at a step boundary (R46)
  issued : Bool                  -- MODEL: the last exec moved past its instruction
  issueCy : Nat                  -- issue cy of the instruction in progress
  next : Nat                     -- least cy of the next issue
  units : Units
  lastLand : Nat                 -- last landing of the instructions in flight; 0 before the first
  laneLand : Nat                 -- the same of its vector, matrix, word-unit, transform, drain and tile-move instructions (R171)
  accessEnd : Nat                -- cy by which its memory accesses so far are performed (R163, R308, R310)
  accesses : List MemAccess      -- those of them that may not be performed yet
  ports : List PortHold
  exposed : List Window
  reading : List Window
  hot : List Loc                 -- MODEL: locations that lie in an exposed window for the instruction in progress
  hotCells : List (Loc × Option (Nat × Nat))   -- MODEL: which elements and low bits of them those windows cover; none: all
  raised : BitVec 6              -- MODEL: the flags that the instruction in progress has raised
  work : Nat                     -- MODEL: what the occupancy of the instruction in progress counts in its data
  swapCy : Nat                   -- MODEL: cost of the swaps of the instruction in progress (R86)
  swapPaid : Bool                -- MODEL: the swaps that the instruction at the pc needs have had their time
  timed : Bool                   -- MODEL: the wait at the pc stands at its scheduled cy (R39)
  queued : Option Nat            -- MODEL: the cy in which it reached the merge unit for which it waits (R296)
  deriving DecidableEq, Repr

/-- The states of a gang (R316). -/
inductive GangState where
  | queued | waiting | placed | running | preempted | draining | retired | faulted
  deriving DecidableEq, Repr

/-- The slot-plan header of R320. -/
structure Plan where
  period : Nat
  stver : Nat
  pbase : Nat
  cls : Word
  nent : Nat
  deriving DecidableEq, Repr

/-- What the root reads of a launch block on acceptance (R313). -/
structure Launch where
  img : Word
  entry : Nat
  imgLen : Nat
  saveTb : Bool
  bfill : Bool
  prio : Nat
  tchk : Bool
  lockstep : Bool
  foldh : Nat
  tph : Nat
  nhart : Nat
  preds : List (Nat × Nat)       -- kind, gang ID
  mbox : Word
  tvec : Word
  back : Word
  bsize : Nat
  save : Word
  ssize : Nat
  sbase : Nat
  scount : Nat
  scap : Nat
  asid : Nat
  regmap : List (BitVec 32)
  xinit : List Word
  tbs : List Word
  templates : List (Nat × List Word)
  plan : Option Plan
  deriving DecidableEq, Repr

/-- A lockstep gang held by timing traps (R372). -/
structure Hold where
  c0 : Nat
  trapped : List Nat             -- hart indices
  met : Sparse Nat               -- hart index: c1, once its condition holds
  shift : Nat                    -- largest D so far
  deriving DecidableEq, Repr

/-- The states of an array (R239). -/
inductive RampState where
  | cold | up | warm | held | down
  deriving DecidableEq, Repr

/-- The ramp of one array: state, when the filler in progress ends, when the hold closes, and whether an MBURST waits for the
end of ramp-down (its length). -/
structure Ramp where
  st : RampState
  upto : Nat
  holdTo : Nat
  queued : Option Nat
  deriving DecidableEq, Repr

/-- A tile-buffer descriptor (R91): configuration word without LTAG, MIX and CHK; LTAG; MIX; CHK; LANDED. -/
structure TileBuf where
  cfg : Word
  ltag : BitVec 16
  mix : Bool
  chk : Bool
  landed : BitVec 1024
  deriving DecidableEq, Repr

/-- The state of a chunk of a started copy. -/
inductive ChunkSt where
  | waiting | parked (code : Nat) (page : Nat) | landed | abandoned
  deriving DecidableEq, Repr

/-- A chunk of a copy (R259). `blk` is the destination block (address in the destination space div 512), or the global row of a
PLANES copy; `iss` and `due` are its issue and landing cy, `slot` the landing cy that it was first given, and `late` says that in lockstep mode it
misses that slot (R6). A chunk of a walk also holds its carriage, the source it reads, and the header bytes it carries. -/
structure Chunk where
  blk : Nat
  st : ChunkSt
  iss : Nat
  due : Nat
  slot : Nat
  late : Bool
  car : Nat
  src : Option Nat
  len : Nat
  data : List Byte
  deriving DecidableEq, Repr

/-- A chunk that has landed in a tile buffer: the cy, the cluster, the buffer, the index and the tag (R198). -/
structure BufLanding where
  cyc : Nat
  cluster : Nat
  buf : Nat
  index : Nat
  tag : BitVec 16
  deriving DecidableEq, Repr

/-- A walk in progress (R271, R290): the next carriage and its VA, the coaches met, the carriages consumed, and whether its header
read is parked. -/
structure Walk where
  j : Nat
  va : Nat
  coaches : List Nat
  used : List Nat
  parked : Bool
  ended : Bool
  deriving DecidableEq, Repr

/-- A copy as the aperture store captured it (R256), with its progress. -/
structure Copy where
  id : Nat
  chan : Nat                     -- package channel number 64 cluster + 16 BTE + channel
  gang : Nat
  hart : Nat
  part : Nat
  asid : Nat
  pc : Word
  tmpl : List Word
  sreq : Nat
  tag : BitVec 16
  off : Nat
  tidx : Nat
  disp : Word
  issueCy : Nat
  csr : Csrs                     -- the captured grant
  core : Nat
  started : Bool
  frozen : Bool                  -- stopped at a chunk boundary (R352, R422)
  chunks : List Chunk
  indices : List Nat             -- GATHER indices, read at the start
  limit : Option Nat             -- elements a FOF strip delivers once it has stopped (R266)
  pos : Nat                      -- REPLAY: the place of the next pair
  units : Nat                    -- units delivered
  walk : Option Walk
  reported : List (Nat × Nat)    -- (code, page) already reported
  errorResp : Bool               -- its one violation entry of R386 is written
  lag : Nat                      -- cys by which a lockstep copy started after its start cy (R258)
  lost : Bool                    -- a chunk is abandoned, or the walk ended early: no report (R385)
  deriving DecidableEq, Repr

/-- A monitor unit (R336, R425). -/
structure MonUnit where
  cfg : Word
  min : Word
  max : Word
  count : Word
  sum : Word
  binLo : Word
  binW : Word
  hist : Vector (BitVec 16) 32
  alarm : Word
  deriving DecidableEq, Repr

/-- The state a pre-emption saves (R322, R323), keys relative to the first held core, cluster or BTE, rows counted among the
unfenced rows of their core. -/
structure Saved where
  planes : Sparse (BitVec 1024)
  acc : Sparse (BitVec 41)
  tables : Sparse Word
  poisonLane : Sparse Bool
  poisonAcc : Sparse Bool
  ramps : Sparse Ramp
  scratch : Sparse Byte
  poisonWord : Sparse Bool
  templates : Sparse Word
  bufs : Sparse TileBuf
  cvtab : Sparse (BitVec 16)
  monitors : Sparse MonUnit
  copies : List Copy
  base : Nat
  stopCy : Nat                   -- the cy of the stop
  deriving DecidableEq, Repr

/-- A gang. `id` is 2^32·partition + gang ID, since IDs are unique in a partition only (R312); a record shows its low 32 bits. -/
structure Gang where
  id : Nat
  part : Nat
  st : GangState
  seq : Nat
  launch : Launch
  launchPc : Word
  base : Nat                     -- first package core while placed
  clusters : Nat                 -- clusters held
  tstart : Nat
  endNo : Nat                    -- its place among the ended gangs of its partition, from 1; 0 while it lives (R315)
  exited : Nat                   -- of an ended gang: how many of its harts had exited
  exits : Sparse Word            -- exit values of ended harts of an ended or running gang
  fired : Bool
  metDeps : List Bool            -- which of its dependences have been met so far (R319)
  ending : Bool                  -- an uncorrected fault has ended it; GANG_FAULT_END completes the end
  endCy : Nat                    -- the cy in which that fault was raised (R352)
  haltPending : Bool
  haltOnBreak : Bool
  quiesced : Bool
  haltCy : Nat
  resumeCy : Nat                 -- cy of its latest resumption after a pre-emption (R45)
  dirty : List (Nat × Nat)       -- ranges of the image that copies have written while it ran, as (VA, length) (R141)
  preempt : Bool                 -- chosen as a victim, not yet stopped
  claim : Option Nat             -- block it claims while victims drain (R321)
  hold : Option Hold
  saved : Option Saved
  harts : List Hart              -- MODEL: its harts while the gang is pre-empted
  deriving DecidableEq, Repr

/-- One partition with its virtual function (R326 to R330). -/
structure Part where
  lva : Word
  lres : Word
  rpt : Word
  hasid : Word
  hwbase : Word
  region : Sparse Word           -- 256 entries of R94
  xcmd : Word
  xarg : Word
  xrun : Option (Word × Word)    -- the translation command under way with its argument (R329)
  log : Sparse Word              -- BAR0 0x4000 to 0x4fff by dword (R356)
  msix : Sparse Word             -- MSI-X table by dword, each control with its mask bit inverted, since reset masks it (log 60)
  condgang : Nat
  endCount : Nat                 -- gangs of the partition that have ended (R315)
  seq : Nat                      -- next launch sequence
  passDue : Bool                 -- a gang has become queued or clusters have been released since the last placement pass (R317)
  deriving DecidableEq, Repr

/-- A follow-on sweep handed to a matrix engine (R241, R268). -/
structure Sweep where
  core : Nat
  copy : Nat
  gang : Nat
  hart : Nat
  tile : Nat
  vreg : Nat
  cmd : Word
  running : Bool
  ready : Nat            -- the cy of the hand-over; of a running sweep, the last in which it may still land
  slot : Nat             -- the first cy in which it may begin
  csr : Csrs
  part : Nat
  chan : Nat
  tag : BitVec 16
  tidx : Nat
  pc : Word
  deriving DecidableEq, Repr

/-- A pair in the binning engine (R276). -/
structure BinPair where
  die : Nat
  gang : Nat
  hart : Nat
  pc : Word
  set : Nat
  idx : Nat
  value : Word
  slot : Option Nat              -- VA of its cart while its write is parked
  due : Nat                      -- the first cy in which the engine may take it
  deriving DecidableEq, Repr

/-- A coach operation on its way (R123, R286). -/
structure CoachOp where
  die : Nat
  gang : Nat
  hart : Nat
  pc : Word
  instr : Instr
  a : Word
  b : Word
  due : Nat                      -- cy in which it reaches the coach unit
  deriving DecidableEq, Repr

/-- A launch or a query on its way to the root (R312, R314). -/
structure Request where
  n : Nat
  query : Bool
  part : Nat
  asid : Nat
  host : Bool
  gang : Nat
  hart : Nat
  core : Nat
  pc : Word
  a : Word
  b : Word
  due : Nat
  deriving DecidableEq, Repr

/-- A fault record or notice (R349) before delivery; `n` names it, `live` is receiver 1 of R354 judged at detection. -/
structure Record where
  n : Nat
  async : Bool
  agent : Nat
  pkg : Nat                      -- package number of the agent, for the order of R354
  nest : Bool
  noh : Bool
  fin : Bool                     -- END
  cls : BitVec 8
  code : BitVec 8
  gang : Nat
  hart : Nat
  pc : Word
  step : Nat
  addr : Word
  tag : Nat
  tidx : Nat
  chan : Nat
  cyc : Nat
  synd : Word
  part : Nat
  live : Bool
  mbox : Option (Word × Nat)     -- the gang's mailbox and ASID when `live`
  deriving DecidableEq, Repr

/-- A migration in progress (R102). -/
structure Migration where
  n : Nat
  part : Nat
  asid : Nat
  va : Nat
  leafAt : Nat                   -- physical address of the leaf entry
  oldPa : Nat
  newPa : Nat
  m : Nat
  chunks : Nat
  locked : Bool
  deriving DecidableEq, Repr

/-- A store to a PROP = 0 page on its way to another die (R126), with its stamp. -/
structure Replica where
  n : Nat
  die : Nat
  pa : Nat
  bytes : List Byte
  stamp : Nat × Nat × Nat × Nat
  gang : Nat                     -- of the hart that issued the write, 0 for none
  hart : Nat
  deriving DecidableEq, Repr

/-- A monitor unit as it stood before its first update in a cy (R336). -/
structure MonBefore where
  cyc : Nat
  key : Nat
  unit : MonUnit
  deriving DecidableEq, Repr

/-- An armed error injection (R424). -/
structure Armed where
  space : Nat
  addr : Nat
  kind : Nat
  deriving DecidableEq, Repr

/-- Who moves next, when the agenda says so (log 4): an event, a hart after an elastic stall, or the data of a hart's loads coming
`more` cy late (R151). MODEL. -/
inductive Pick where
  | event (e : Event)
  | late (gang idx more : Nat)
  | hart (gang idx stall : Nat)
  deriving DecidableEq, Repr

/-- The memory-side caches and translation buffers (R19, R95, R97): per HBM line of 512 bytes the tags of R95 under which it is
mapped, two or more when it is mapped twice (R96); per set of a die the tags of the lines present; per unit the pages whose
translations are present; and the walks under way with the cy in which each ends. -/
structure Caches where
  tags : Sparse (List Nat)
  sets : Sparse (List Nat)            -- key die·2^16 + set
  tlb : Sparse (List Nat)             -- by unit
  walks : List (Nat × Nat × Nat)      -- unit, first cy after it, tag of the page; the longest first
  deriving DecidableEq, Repr

def Caches.empty : Caches := ⟨[], [], [], []⟩

/-- The whole device. Memory is one byte list (Memory.lean names the regions). -/
structure State where
  cyc : Nat                      -- GCYC (R24)
  free : Nat                     -- MODEL: draws taken from the free values
  agenda : List Pick             -- MODEL
  calendar : List (Nat × Event)  -- MODEL: the device's own coming events with their cy
  fresh : Nat                    -- MODEL: the next identifier of a copy, record, request or replica
  h : Hart                       -- the hart that issues
  others : List Hart
  gangs : List Gang
  parts : Vector Part 4
  mem : Sparse Byte
  planes : Sparse (BitVec 1024)  -- key core 2^16 + row 2^8 + plane (R49)
  acc : Sparse (BitVec 41)       -- key core 2^16 + i 2^8 + j: CF 2^40 + ACC (R221)
  tables : Sparse Word           -- key core 2^12 + selector 2^8 + index: R230; 7 and 8 hold NA and NB
  templates : Sparse Word        -- key cluster 2^11 + dword (R262)
  bufs : Sparse TileBuf          -- key cluster 2^6 + n (R91)
  bufLandings : List BufLanding  -- those of the latest cy in which one landed (R198)
  cvtab : Sparse (BitVec 16)     -- key bte 2^8 + entry, held as entry XOR index so that the launch table is empty (R273)
  icache : Sparse (BitVec 33)    -- key core 2^62 + word address: valid bit and word (R141)
  lastServed : Sparse (Nat × Nat)   -- BTE: the channel served last and the cy (R261)
  copies : List Copy             -- every queued and running copy, in issue order
  sweeps : List Sweep
  ramps : Sparse Ramp            -- per core (R239)
  engines : Sparse Nat           -- per core: first cy in which the array is free of follow-on sweeps (R241)
  bins : List BinPair
  binFree : Sparse Nat           -- per die, the first cy in which its binning engine writes again (R276)
  coachOps : List CoachOp
  requests : List Request
  records : List Record
  migrations : List Migration
  replicas : List Replica
  stamps : Sparse (Nat × Nat × Nat × Nat)   -- per byte of a PROP = 0 page (R126)
  writers : Sparse Nat           -- per 8-byte scratchpad word: one more than core·2 + (1 for a tile move) of its latest writer, 0 for none
  caches : Caches
  locked : Sparse Word           -- locked leaf entries, see Translate.lean (R99)
  dieMap : Word
  dieStat : Word
  dieChange : Option Word        -- the assignment under way (R326)
  shareReg : Word
  hostLink : Sparse Nat          -- key 2 partition + direction: first cy in which its share of the host link takes a chunk (R327)
  stver : Nat
  pfMsix : Sparse Word
  dbgCmd : Word
  dbgData : Vector Word 8
  dbgGang : Word
  monitors : Sparse MonUnit      -- key core 16 + u; 2^16 + k 16 + u for cluster and die units
  monBefore : List MonBefore     -- the units updated in the latest cy in which one was, as they stood before (R336)
  poisonLane : Sparse Bool       -- key core 2^20 + row 2^12 + plane 2^4 + codeword (R419)
  poisonWord : Sparse Bool       -- global byte address div 8
  poisonAcc : Sparse Bool        -- core 2^8 + row
  poisonHbm : Sparse Bool        -- physical address div 64
  corrections : Sparse (List Nat)   -- per row or bank: the cys of its corrections within 2^30 cy of the latest (R361)
  failedRows : Sparse Bool       -- key core 2^8 + row (R420)
  fencedRows : Sparse Bool       -- the failed rows that the grants in force leave out, same key (R32, R361)
  merge : Sparse Nat             -- cluster: first cy in which its merge unit is free (R296)
  armed : List Armed
  drowsy : Sparse Bool           -- key core 2^8 + row (R45)
  touched : Sparse Nat           -- key core 2^8 + row: last access
  diesOut : List Nat             -- stopped dies (R361)
  stalled : List Nat             -- dies that stall by their own temperature (R335)
  powerStalled : List Nat        -- dies that stall by the module's power (R335)
  fuseKey : BitVec 256           -- hash of the public key (R333)
  bootOk : Bool                  -- a verified image runs; false: recovery
  bootFailed : Bool              -- an image failed its check: the module stays in recovery and reports it (R333)
  measures : Vector (BitVec 256) 8
  attCount : Nat                 -- the monotonic counter of R334
  msgs : List (Nat × Nat × Bool) -- MSI-X messages: function (4 for the PF), vector, whether it is sent or pending while masked
  hostData : List (List Byte)    -- data returned to BAR2 reads and attestation requests
  deriving DecidableEq, Repr

def VReg.undeclared : VReg := ⟨0, 0, 0, false, false, 0, none, 0, none, 0⟩

/-- The CSRs at launch, before the launch block fills them (R165, R169; FCSR.SEED 1 by R68). -/
def Csrs.init : Csrs :=
  { vl := 0, rlen := 0, rows := 0, tiles := 0, fold := 1, vtype := 0, resume := 0, fcsr := 0x0000000100000000, mcfg := 0
    tchk := false, rpc := 0, status := 0, tvec := 0, epc := 0, ecause := 0, estep := 0, eaddr := 0 }

/-- No hart: gang 0, everything zero (log 2). -/
def Hart.none : Hart :=
  { gang := 0, idx := 0, core := 0, slots := 0, run := .idle, pc := 0, x := Vector.replicate 32 0, csr := Csrs.init
    stepAt := 0, dot := 0, regs := Vector.replicate 64 VReg.undeclared, slotEnd := 0, refs := 0, landed := [], landedAt := [], gens := []
    restart := ⟨Vector.replicate 32 0, Csrs.init, [], 0⟩, wait := Option.none, exit := Option.none, triggered := false
    arrived := 0, irqs := [], flagsDue := [], strip := [], stripReads := [], streams := [], fences := [], binSets := [], lateX := [], last := Option.none, part := Option.none, issued := false
    issueCy := 0, next := 0, units := ⟨0, 0, 0, 0, 0, 0, 0⟩, lastLand := 0, laneLand := 0, accessEnd := 0, accesses := [], ports := []
    exposed := [], reading := [], hot := [], hotCells := [], raised := 0, work := 0, swapCy := 0, swapPaid := false, timed := false, queued := Option.none }

def Part.init : Part :=
  { lva := 0, lres := 0, rpt := 0, hasid := 0, hwbase := 0, region := [], xcmd := 0, xarg := 0, xrun := Option.none, log := [], msix := []
    condgang := 0, endCount := 0, seq := 0, passDue := false }

/-- The machine right after reset: no die assigned, no gang, all storage unlisted. -/
def State.reset : State :=
  { cyc := 0, free := 0, agenda := [], calendar := [], fresh := 0, h := Hart.none, others := [], gangs := []
    parts := Vector.replicate 4 Part.init, mem := [], planes := [], acc := [], tables := [], templates := [], bufs := [], bufLandings := [], binFree := []
    cvtab := [], icache := [], lastServed := [], copies := [], sweeps := [], ramps := [], engines := [], bins := [], coachOps := []
    requests := [], records := [], migrations := [], replicas := [], stamps := [], writers := [], caches := Caches.empty, locked := [], dieMap := 0, dieStat := 0
    dieChange := Option.none, shareReg := 0, hostLink := [], stver := 0, pfMsix := [], dbgCmd := 0, dbgData := Vector.replicate 8 0
    dbgGang := 0, monitors := [], monBefore := [], poisonLane := [], poisonWord := [], poisonAcc := [], poisonHbm := [], corrections := []
    failedRows := [], fencedRows := [], merge := [], armed := [], drowsy := [], touched := [], diesOut := [], stalled := [], powerStalled := [], fuseKey := 0
    bootOk := false, bootFailed := false, measures := Vector.replicate 8 0, attCount := 0, msgs := [], hostData := [] }

/-- The outcome of one step. -/
abbrev Out := Host.Outcome State Fault Refusal

end Sys2Proof.Machine
end

