-- ==== Sys2Proof/Machine/Store.lean ====
section
/-! DEFINITION. Sparse storage in one canonical form: reading, writing, clearing, and the form itself. -/
namespace Sys2Proof.Machine

variable {α : Type}

/-- What key `k` holds; `d` where nothing is listed. -/
def sget (d : α) : Sparse α → Nat → α
  | [], _ => d
  | (k', v) :: r, k => if k' = k then v else sget d r k

/-- Lists `v` at `k`, in the place its key has. -/
def sput : Sparse α → Nat → α → Sparse α
  | [], k, v => [(k, v)]
  | (k', v') :: r, k, v =>
    if k < k' then (k, v) :: (k', v') :: r else if k = k' then (k, v) :: r else (k', v') :: sput r k v

/-- Removes every entry whose key `p` accepts. -/
def sdrop (m : Sparse α) (p : Nat → Bool) : Sparse α := m.filter (fun e => !p e.1)

/-- Writes `v` at `k`; the default removes the entry. -/
def sset [DecidableEq α] (d : α) (m : Sparse α) (k : Nat) (v : α) : Sparse α :=
  if v = d then sdrop m (fun j => j == k) else sput m k v

/-- Keys strictly rising, every one above `lo`, no entry equal to the default. -/
def sortedAbove [DecidableEq α] (d : α) : Nat → Sparse α → Bool
  | _, [] => true
  | lo, (k, v) :: r => decide (lo < k) && !decide (v = d) && sortedAbove d k r

/-- The canonical form. -/
def canonical [DecidableEq α] (d : α) : Sparse α → Bool
  | [] => true
  | (k, v) :: r => !decide (v = d) && sortedAbove d k r

/-- The canonical form of memory: unlisted bytes read 0 (log 1). -/
def Memory.wf (m : Sparse Byte) : Bool := canonical 0 m

/-- The entries from key `lo` up to `lo + n`, their keys counted from `lo`. -/
def sslice (m : Sparse α) (lo n : Nat) : Sparse α :=
  (m.filter (fun e => decide (lo ≤ e.1) && decide (e.1 < lo + n))).map (fun e => (e.1 - lo, e.2))

/-- Replaces the entries from `lo` up to `lo + n` by `new`, whose keys count from `lo`. -/
def ssplice (m : Sparse α) (lo n : Nat) (new : Sparse α) : Sparse α :=
  m.filter (fun e => decide (e.1 < lo)) ++ (new.filter (fun e => decide (e.1 < n))).map (fun e => (e.1 + lo, e.2)) ++
    m.filter (fun e => decide (lo + n ≤ e.1))

/-- `n` bytes from address `a`, the lowest first (R8). -/
def bytesAt (m : Sparse Byte) (a n : Nat) : List Byte := (List.range n).map (fun i => sget 0 m (a + i))

/-- The little-endian value of a byte list. -/
def leNat : List Byte → Nat
  | [] => 0
  | b :: r => b.toNat + 256 * leNat r

/-- The low `n` bytes of `v`, the lowest first. -/
def toBytes (n v : Nat) : List Byte := (List.range n).map (fun i => BitVec.ofNat 8 (v / 256 ^ i))

/-- Stores bytes from `a` upward. -/
def putBytes (m : Sparse Byte) (a : Nat) : List Byte → Sparse Byte
  | [] => m
  | b :: r => putBytes (sset 0 m a b) (a + 1) r

end Sys2Proof.Machine
end

