-- ==== Sys2Proof/Machine/Ops.lean ====
section
/-! DEFINITION. The named operations that every meaning shares: geometry, scalar registers, control of the pc, fault records
and logs, taking a trap or an interrupt, and the return. -/
namespace Sys2Proof.Machine

/-! Geometry (R13). -/

def dieOfCore (core : Nat) : Nat := core / 96
def clusterOfCore (core : Nat) : Nat := core / 8
def dieOfCluster (cl : Nat) : Nat := cl / 12
/-- Die hops between two dies of the chain (R23). -/
def dieHops (a b : Nat) : Nat := (a - b) + (b - a)

/-- The partition of a die, none while it is unassigned, moving or stopped (R326, R330, R361). -/
def partOfDie (s : State) (d : Nat) : Option Nat :=
  let nib := s.dieMap.toNat / 16 ^ d % 16
  let moving := match s.dieChange with
    | some m => m.toNat / 16 ^ d % 16 != nib
    | none => false
  if d < 4 && nib / 8 == 1 && !moving && !s.diesOut.contains d then some (nib % 4) else none

/-! The hart in hand and its gang. -/

def modH (s : State) (f : Hart → Hart) : State := { s with h := f s.h }

def modCsr (s : State) (f : Csrs → Csrs) : State := modH s (fun h => { h with csr := f h.csr })

def findGang (s : State) (id : Nat) : Option Gang := s.gangs.find? (fun g => g.id == id && g.st != .retired && g.st != .faulted)

/-- A gang that no launch made: the values of a hart without a gang. -/
def Launch.none : Launch :=
  { img := 0, entry := 0, imgLen := 0, saveTb := false, bfill := false, prio := 0, tchk := false, lockstep := false
    foldh := 1, tph := 0, nhart := 0, preds := [], mbox := 0, tvec := 0, back := 0, bsize := 0, save := 0, ssize := 0
    sbase := 0, scount := 0, scap := 0, asid := 0, regmap := [], xinit := [], tbs := [], templates := [], plan := Option.none }

def Gang.none : Gang :=
  { id := 0, part := 0, st := .retired, seq := 0, launch := Launch.none, launchPc := 0, base := 0, clusters := 0, tstart := 0
    endNo := 0, exited := 0, exits := [], fired := false, metDeps := [], ending := false, endCy := 0, haltPending := false, haltOnBreak := false, quiesced := false, haltCy := 0, resumeCy := 0, dirty := []
    preempt := false, claim := Option.none, hold := Option.none, saved := Option.none, harts := [] }

def gangOf (s : State) (id : Nat) : Gang := (findGang s id).getD Gang.none

/-- The gang of the hart in hand. -/
def myGang (s : State) : Gang := gangOf s s.h.gang

/-- Applies `f` to the live gang `id`. -/
def modGang (s : State) (id : Nat) (f : Gang → Gang) : State :=
  { s with gangs := s.gangs.map (fun g => if g.id == id && g.st != .retired && g.st != .faulted then f g else g) }

/-- TMODE of the hart in hand (R44). -/
def lockstep (s : State) : Bool := (myGang s).launch.lockstep

/-- Every hart of the device: the one in hand first. -/
def allHarts (s : State) : List Hart := s.h :: s.others

def isHart (g k : Nat) (h : Hart) : Bool := h.gang == g && h.idx == k

def findHart (s : State) (g k : Nat) : Option Hart := (allHarts s).find? (isHart g k)

/-- Applies `f` to every hart that `p` accepts. -/
def modHarts (s : State) (p : Hart → Bool) (f : Hart → Hart) : State :=
  { s with h := if p s.h then f s.h else s.h, others := s.others.map (fun h => if p h then f h else h) }

/-- Brings a hart into hand; the one in hand joins the others. -/
def takeHart (s : State) (g k : Nat) : State :=
  if isHart g k s.h then s
  else match s.others.find? (isHart g k) with
    | some h => { s with h := h, others := s.h :: s.others.filter (fun x => !isHart g k x) }
    | none => s

/-! Scalar registers (R149). A register in an exposed window reads as a free value (R41, R150, log 7). -/

def rx (s : State) (r : BitVec 5) : Word :=
  if r = 0 then 0
  else if s.h.hot.contains (.x r.toNat) then Config.freeBits s.free r.toNat
  else s.h.x[r.toNat]

def setX (s : State) (r : BitVec 5) (v : Word) : State :=
  if r = 0 then s else modH s (fun h => { h with x := h.x.set r.toNat v r.isLt })

/-! The pc. -/

/-- Goes on to `pc`. -/
def goTo (pc : Word) (s : State) : State := modH s (fun h => { h with pc := pc, issued := true })

/-- The address after the instruction (R128). -/
def nextPc (c : Ctl) (s : State) : Word := s.h.pc + BitVec.ofNat 64 c.bytes

/-- Goes on past the instruction. -/
def retire (c : Ctl) (s : State) : State := goTo (nextPc c s) s

/-- Adds an event of the device to its calendar. -/
def schedule (s : State) (cy : Nat) (e : Event) : State := { s with calendar := s.calendar ++ [(cy, e)] }

/-! Logs and messages (R355 to R357, R360). -/

def modPart (s : State) (p : Nat) (f : Part → Part) : State :=
  if h : p < 4 then { s with parts := s.parts.set p (f s.parts[p]) h } else s

def partAt (s : State) (p : Nat) : Part := if h : p < 4 then s.parts[p] else Part.init

/-- The MSI-X table of a function: VF0 to VF3, or the PF as 4. -/
def msixTable (s : State) (fn : Nat) : Sparse Word := if fn < 4 then (partAt s fn).msix else s.pfMsix

/-- The mask bit of a vector's control, which PCI Express sets at reset (R325, log 60). -/
def msiMasked (m : Sparse Word) (vec : Nat) : Bool := !(sget 0 m (2 * vec + 1)).getLsbD 32

/-- A message as State.msgs holds it: sent, or pending while its vector is masked. -/
def message (s : State) (fn vec : Nat) : Nat × Nat × Bool := (fn, vec, !msiMasked (msixTable s fn) vec)

/-- Vector `vec` of a function: its message goes, or its pending bit is set (R325). -/
def sendMsi (s : State) (fn vec : Nat) : State := { s with msgs := s.msgs ++ [message s fn vec] }

/-- The pending-bit array of a function. -/
def msiPending (s : State) (fn : Nat) : Word :=
  (List.range 64).foldl (fun v k => if s.msgs.contains (fn, k, false) then v ||| BitVec.ofNat 64 (2 ^ k) else v) 0

/-- Pending messages of a function whose vectors are no longer masked go, one for each vector (R325). -/
def unmaskMsi (s : State) (fn : Nat) : State :=
  let goes := fun (e : Nat × Nat × Bool) => e.1 == fn && !e.2.2 && !msiMasked (msixTable s fn) e.2.1
  { s with msgs := s.msgs.filter (fun e => !goes e) ++ ((s.msgs.filter goes).eraseDups.map (fun e => (e.1, e.2.1, true))) }

def putDwords (m : Sparse Word) (k : Nat) : List Word → Sparse Word
  | [] => m
  | v :: r => putDwords (sset 0 m k v) (k + 1) r

/-- Appends a violation entry (R357) to the log of partition `p` and sends vector 1. -/
def logViolation (s : State) (p kind agent addr hart gang : Nat) : State :=
  let log := (partAt s p).log
  let n := (sget 0 log 0).toNat
  let d0 := BitVec.ofNat 64 (kind % 256 * 2 ^ 56 + agent % 256 * 2 ^ 48 + addr % 2 ^ 48)
  let d1 := BitVec.ofNat 64 (hart % 65536 * 2 ^ 32 + gang % 2 ^ 32)
  let log := putDwords log (8 + 2 * (n % 124)) [d0, d1]
  sendMsi (modPart s p (fun q => { q with log := sset 0 log 0 (BitVec.ofNat 64 (n + 1)) })) p 1

/-- The dwords of a fault record or notice (R349). -/
def Record.dwords (r : Record) (esc : Bool) : List Word :=
  [BitVec.ofNat 64 (2 ^ 63 + (if r.async then 2 ^ 62 else 0) + (if esc then 2 ^ 61 else 0) + r.agent % 256 * 2 ^ 48 +
      (if r.nest then 2 ^ 18 else 0) + (if r.noh then 2 ^ 17 else 0) + (if r.fin then 2 ^ 16 else 0) +
      r.cls.toNat * 256 + r.code.toNat),
   BitVec.ofNat 64 (r.gang % 2 ^ 32 * 2 ^ 32 + r.hart % 65536), r.pc, BitVec.ofNat 64 (r.step % 2 ^ 32), r.addr,
   BitVec.ofNat 64 (r.tag % 65536 * 2 ^ 32 + r.tidx % 256 * 2 ^ 16 + r.chan % 4096), BitVec.ofNat 64 r.cyc, r.synd]

/-- Appends a record or notice to the host fault log of partition `p` and sends vector 0 (R356). -/
def logHost (s : State) (p : Nat) (d : List Word) : State :=
  let log := (partAt s p).log
  let n := (sget 0 log 0x100).toNat
  let log := putDwords log (0x108 + 8 * (n % 31)) d
  sendMsi (modPart s p (fun q => { q with log := sset 0 log 0x100 (BitVec.ofNat 64 (n + 1)) })) p 0

/-- A record with nothing filled in, concerning no gang. -/
def Record.blank (s : State) : Record :=
  { n := s.fresh, async := true, agent := 1, pkg := 0, nest := false, noh := false, fin := false, cls := 0, code := 0
    gang := 0, hart := 0xffff, pc := 0, step := 0, addr := 0, tag := 0, tidx := 0, chan := 0xfff, cyc := s.cyc, synd := 0
    part := 0, live := false, mbox := none }

/-- Receiver 1 of R354 as it stands at detection. -/
def Record.about (r : Record) (g : Gang) : Record :=
  { r with gang := g.id, part := g.part
           live := g.st == .placed || g.st == .running || g.st == .preempted || g.st == .draining
           mbox := some (g.launch.mbox, g.launch.asid) }

/-- The fault that ends a gang was raised before this cy: the gang has stopped (R352). -/
def Gang.stopped (g : Gang) (cy : Nat) : Bool := g.ending && decide (g.endCy < cy)

/-- Queues a record; it is delivered within 2,000 cy (R354). A gang that has stopped writes no further record (R352). -/
def addRecord (s : State) (r : Record) : State :=
  if (gangOf s r.gang).stopped s.cyc && r.gang != 0 && !r.fin then s
  else schedule { s with records := s.records ++ [{ r with n := s.fresh }], fresh := s.fresh + 1 } (s.cyc + 2000)
    (.faultRecordDelivery s.fresh)

/-- A notice of R360 goes straight to the host fault log. -/
def notice (s : State) (code : BitVec 8) (agent : Nat) (g : Gang) (hart : Nat) (synd : Word) : State :=
  logHost s g.part (Record.dwords { (Record.blank s).about g with cls := 0x20, code, agent, hart, synd } false)

/-- A write reaches a unit with an armed error: the error strikes and the entry is disarmed (R424). `key` is the unit's key in
the table of its space. -/
def strike (s : State) (space key : Nat) : State :=
  if s.armed.isEmpty then s
  else match s.armed.find? (fun a => a.space == space && a.addr == key) with
    | none => s
    | some a =>
      let s := { s with armed := s.armed.filter (fun x => !(x.space == space && x.addr == key)) }
      schedule s s.cyc (if a.kind == 1 then .correctedWriteback space key else .uncorrectedError space key)

/-- Notes what the occupancy of the instruction in progress counts. -/
def setWork (s : State) (n : Nat) : State := modH s (fun h => { h with work := n })

/-! The stop of a hart at a step boundary (R46, R375). -/

/-- An instruction that the device may stop part-way: of the vector unit, the array or another lane unit, and of more than one step. -/
def Issued.stepped (q : Issued) : Bool :=
  q.cost.occ != 0 && q.cost.units.any (fun u => u.unit != .scalar) &&
  (match q.instr with | .stq _ _ | .btx _ _ | .shacc _ _ => false | _ => true)

/-- The steps that it has completed by cy `c`. -/
def Issued.stepsAt (q : Issued) (c : Nat) : Nat := min q.cost.occ (c - (q.cy + 2 + q.cost.skew))

/-- Whether it has a step to come in cy `c`. -/
def Issued.going (q : Issued) (c : Nat) : Bool := decide (c < q.cy + 2 + q.cost.skew + q.cost.occ)

/-- A window that stays open while its instruction is stopped. -/
def Window.kept (w : Window) : Bool := decide (2 ^ 64 ≤ w.upto)

/-- An instruction goes back to its pc: what it wrote stays in an open window, its flags are taken back, and STEP counts its completed
steps (R46, R72). -/
def stopStep (c : Nat) (q : Issued) (h : Hart) : Hart :=
  let k := q.stepsAt c
  { h with
    pc := q.pc
    stepAt := q.steps + k
    next := c
    last := none
    part := some { q with cost := q.cost.rest k, steps := q.steps + k, rest := h.next - c }
    flagsDue := h.flagsDue.filter (fun w => w.1 != q.cy + q.cost.skew + q.cost.occ + 4)
    exposed := h.exposed.map (fun w => if w.at_ == q.cy then { w with upto := 2 ^ 64 } else w)
    csr := { h.csr with fcsr := h.csr.fcsr &&& ~~~(q.flags.setWidth 64 &&& ~~~q.fcsr) } }

/-- A stream load goes back to its pc with VL and X[XB] as they stood, RESUME at `n`, the element up to which it has landed (R219). -/
def stopStream (c n : Nat) (q : Issued) (h : Hart) : Hart :=
  { h with
    pc := q.pc, next := c, last := none, x := q.x
    exposed := h.exposed.filter (fun w => w.at_ != q.cy)
    csr := { h.csr with vl := q.vl, resume := BitVec.ofNat 64 n } }

/-- A hart stops in cy `c`: the instruction that it issued last, where its steps are not over, stops part-way. How far a stream load has
come is open, so that it takes the free value `fr` within its bounds (log 8). -/
def stopHart (c fr : Nat) (h : Hart) : Hart :=
  match h.last with
  | none => h
  | some q =>
    if !q.going c || h.wait.isSome || h.part.isSome then h
    else match q.instr with
      | .vldz _ _ => stopStream c (q.resume.toNat + fr % (h.csr.vl - q.resume.toNat + 1)) q h
      | _ => stopStep c q h

/-! Timing traps (R372). -/

def gangHarts (s : State) (g : Nat) : List Hart := (allHarts s).filter (fun h => h.gang == g)

def waitsIn (h : Hart) (on : WaitFor) : Bool := h.wait.any (fun w => w.on == on)

/-- The gang holds still from here: hart `k` traps (R372 step 1), with the notice of R360. -/
def timingTrap (s : State) (g : Gang) (h : Hart) (c1 : Nat) : State :=
  let old := g.hold.getD ⟨s.cyc, [], [], 0⟩
  let hold : Hold := { old with trapped := old.trapped ++ [h.idx], met := sset 0 old.met h.idx c1 }
  let s := modGang s g.id (fun x => { x with hold := some hold })
  let s := modHarts s (isHart g.id h.idx) (fun x =>
    { x with run := .held, arrived := if waitsIn x .gbar then x.arrived - 1 else x.arrived })
  notice s 1 1 g h.idx h.csr.rpc

/-- A hart may take a timing trap in this cy: its lockstep gang runs, or began to hold in this cy without it. -/
def mayTrap (s : State) (g : Gang) (h : Hart) : Bool :=
  g.launch.lockstep && h.run == .running && g.hold.all (fun q => q.c0 == s.cyc && !q.trapped.contains h.idx)

/-! Traps (R166, R350, R352). -/

/-- The cause of a precise trap: what EPC, ECAUSE and EADDR receive, and what only a record shows. -/
structure Trap where
  cls : BitVec 8
  code : BitVec 8
  eaddr : Word
  epc : Word
  step : Nat := 0
  synd : Word := 0
  deriving DecidableEq, Repr

def statusIe (st : Word) : Bool := st.getLsbD 0
def statusPie (st : Word) : Bool := st.getLsbD 1
def statusTl (st : Word) : Bool := st.getLsbD 2

/-- STATUS from its three fields (R165). -/
def mkStatus (tl pie ie : Bool) : Word := BitVec.ofNat 64 ((if tl then 4 else 0) + (if pie then 2 else 0) + (if ie then 1 else 0))

/-- The registers that entering the handler writes (R166). DESIGN CHOICE (log 71): where the last landing came before the trap's own cy, the
8 cy to the handler's first instruction count from that cy, since the spec counts from a landing alone. -/
def enterHandler (async : Bool) (t : Trap) (h : Hart) : Hart :=
  { h with
    pc := h.csr.tvec
    issued := false
    stepAt := 0
    next := max h.lastLand h.issueCy + 8
    csr := { h.csr with
      epc := t.epc &&& ~~~3#64
      estep := 0
      ecause := (BitVec.ofBool async ++ 0#47 ++ t.cls ++ t.code : BitVec 64)
      eaddr := t.eaddr
      status := mkStatus true (statusIe h.csr.status) false } }

/-- The gang ends in the faulted state: what else its agents raise in this cy is still reported, and GANG_FAULT_END completes the end
in the next (R352). -/
def endGang (s : State) (g : Nat) : State :=
  if (gangOf s g).ending then s
  else schedule (modGang s g (fun x => { x with ending := true, endCy := s.cyc })) (s.cyc + 1) (.gangFaultEnd g)

/-- A precise trap that no handler takes: the hart stops, a record is queued and the gang ends (R352). -/
def trapUnhandled (s : State) (t : Trap) : State :=
  let tl := statusTl s.h.csr.status
  let r := { (Record.blank s).about (myGang s) with
    async := false, agent := 1, pkg := s.h.core, nest := tl, noh := s.h.csr.tvec == 0, fin := true, cls := t.cls
    code := t.code, hart := s.h.idx, pc := s.h.pc, step := t.step, addr := t.eaddr, synd := t.synd }
  modH (endGang (addRecord s r) s.h.gang) (fun h => { h with run := .stopped, issued := false })

/-- Takes a precise trap. -/
def takeTrap (s : State) (t : Trap) : State :=
  if statusTl s.h.csr.status || s.h.csr.tvec == 0 then trapUnhandled s t else modH s (enterHandler false t)

/-- A trap of the instruction at the pc, EPC its own address. -/
def Trap.here (s : State) (cls code : BitVec 8) (eaddr : Word) : Trap := { cls, code, eaddr, epc := s.h.pc }

def raise (s : State) (cls code : BitVec 8) (eaddr : Word) : Out := .next (takeTrap s (Trap.here s cls code eaddr))

/-- Runs `k` unless a check failed. -/
def checked (t : Option Trap) (s : State) (k : State) : Out := .next (match t with
  | some t => takeTrap s t
  | none => k)

/-- Takes an asynchronous interrupt in place of the restart point at the pc (R47, R355). -/
def takeInterrupt (s : State) (q : Irq) : State :=
  modH s (enterHandler true ⟨q.cls, q.code, q.eaddr, s.h.pc, 0, 0⟩)

/-- The cy in which the instruction at EPC may issue: 8 cy after the last landing, after the RTE's issue where that came later. -/
def returnCy (h : Hart) : Nat := (if h.issueCy ≤ h.lastLand + 1 then h.lastLand else h.issueCy) + 8

/-- The return of R167: PC, STEP, IE and TL. -/
def returnFromTrap (h : Hart) : Hart :=
  { h with
    pc := h.csr.epc
    issued := true
    stepAt := h.csr.estep.toNat % 2 ^ 32
    next := returnCy h
    csr := { h.csr with status := mkStatus false (statusPie h.csr.status) (statusPie h.csr.status) } }

/-- The records of a trap of VLDZ or SHACC hold RESUME in STEP (R349). -/
def resumeRecords (s : State) (o : Out) : Out :=
  match o with
  | .next t =>
    if t.fresh = s.fresh then .next t
    else .next { t with records := t.records.map (fun r => if s.fresh ≤ r.n then { r with step := t.h.csr.resume.toNat } else r) }
  | o => o

/-- Poison that would enter scalar state ends the gang, class 0x12 code 0x08 (R417). -/
def poisonEnd (s : State) (addr : Word) : State :=
  let r := { (Record.blank s).about (myGang s) with
    agent := 6, pkg := dieOfCore s.h.core, fin := true, cls := 0x12, code := 8, hart := s.h.idx, pc := s.h.pc, addr }
  modH (endGang (addRecord s r) s.h.gang) (fun h => { h with run := .stopped, issued := false })

end Sys2Proof.Machine
end

