-- ==== Sys2Proof/Machine/Operands.lean ====
section
/-! DEFINITION. Operands: descriptors and overrides (R54, R55, R131), the format checks of R368, elements, predicates and
per-lane tables in the planes (R34 to R36, R82), and the writes of results, with the spread of poison (R416). -/
namespace Sys2Proof.Machine

/-! Descriptors. -/

/-- A 16-bit operand descriptor (R54). -/
structure Desc where
  fmt : Nat
  w : Nat
  sgn : Bool
  mbz : Nat
  deriving DecidableEq, Repr

def Desc.ofNat (v : Nat) : Desc := ⟨v % 16, v / 16 % 64 + 1, v / 1024 % 2 == 1, v / 2048 % 32⟩

def Desc.toNat (d : Desc) : Nat := d.fmt + 16 * (d.w - 1) + (if d.sgn then 1024 else 0) + 2048 * d.mbz

/-- An override field: FMT and WM, SGN from FMT (R131). -/
def Desc.ofOvr (v : Nat) : Desc := ⟨v % 16, v / 16 % 64 + 1, v % 16 == 1, 0⟩

/-- The width of a format with one width (R56). -/
def fmtWidth : Nat → Nat
  | 2 => 64 | 3 => 32 | 4 => 16 | 5 => 16 | 6 => 8 | 7 => 8 | 8 => 8 | 9 => 6
  | 10 => 4 | 11 => 6 | 12 => 6 | 13 => 8 | 14 => 7 | _ => 0

/-- Not ill-formed (R55). -/
def Desc.wf (d : Desc) : Bool :=
  d.fmt != 15 && d.mbz == 0 &&
  (match d.fmt with
   | 0 => !d.sgn
   | 1 => d.sgn
   | n => !d.sgn && d.w == fmtWidth n)

/-- VTYPE as a write leaves it: the three descriptors, and ILL (R54). -/
def mkVtype (v : Word) : Word :=
  let low := v.toNat % 2 ^ 48
  let ok := (Desc.ofNat (low % 65536)).wf && (Desc.ofNat (low / 65536 % 65536)).wf && (Desc.ofNat (low / 2 ^ 32)).wf
  BitVec.ofNat 64 (low + (if ok then 0 else 2 ^ 63))

/-- The three operands of R54. -/
inductive Opnd where
  | a | b | d
  deriving DecidableEq, Repr

/-- The override of an operand, none where VTYPE stays in force (R131). -/
def ovrOf (c : Ctl) (o : Opnd) : Option Nat :=
  match c.ovr with
  | none => none
  | some v =>
    let f : BitVec 10 := match o with | .a => v.a | .b => v.b | .d => v.d
    if f = 0x3ff then none else some f.toNat

def vtypeField (s : State) : Opnd → Nat
  | .a => s.h.csr.vtype.toNat % 65536
  | .b => s.h.csr.vtype.toNat / 65536 % 65536
  | .d => s.h.csr.vtype.toNat / 2 ^ 32 % 65536

/-- The descriptor in force. -/
def descOf (c : Ctl) (s : State) (o : Opnd) : Desc :=
  match ovrOf c o with
  | some v => Desc.ofOvr v
  | none => Desc.ofNat (vtypeField s o)

/-- DESCD·2^32 + DESCB·2^16 + DESCA, as in force (R368). -/
def descsWord (c : Ctl) (s : State) : Word :=
  BitVec.ofNat 64 ((descOf c s .d).toNat * 2 ^ 32 + (descOf c s .b).toNat * 2 ^ 16 + (descOf c s .a).toNat)

/-! The grant and the register file. -/

def foldOf (s : State) : Nat := s.h.csr.fold
def dOf (s : State) (w : Nat) : Nat := ceilDiv w (foldOf s)

def vregAt (h : Hart) (n : Nat) : VReg := if p : n < 64 then h.regs[n] else VReg.undeclared
def setVreg (h : Hart) (n : Nat) (r : VReg) : Hart := if p : n < 64 then { h with regs := h.regs.set n r p } else h
def vreg (s : State) (n : Nat) : VReg := vregAt s.h n

def VReg.width (r : VReg) : Nat := r.wm.toNat + 1
def VReg.entries (r : VReg) : Nat := if r.kind == 2 then r.entm.toNat + 1 else 1
/-- Planes a register takes while resident (R49, R82). -/
def VReg.planes (r : VReg) (fold : Nat) : Nat := r.entries * ceilDiv r.width fold

/-- A register an instruction names: the width it is used at, whether a table is required, and how the instruction uses it. -/
structure Named where
  reg : Nat
  width : Option Nat := none
  table : Bool := false
  /-- Written under P0 with Z = 0 and not read: given planes without a fill (R50). -/
  fill : Bool := true
  deriving DecidableEq, Repr

def firstSome {α β : Type} (l : List α) (f : α → Option β) : Option β :=
  match l with
  | [] => none
  | a :: r => match f a with
    | some b => some b
    | none => firstSome r f

def trapIf (b : Bool) (t : Trap) : Option Trap := if b then some t else none

/-- Class 0x04 codes 0x01 to 0x05 (R368): `used` operands, whether their combination is accepted, and the named registers in
the order A, B, D, others. -/
def formatTrap (c : Ctl) (s : State) (used : List Opnd) (accept : Bool) (names : List Named) : Option Trap :=
  let bad (given : Bool) := used.any (fun o => (ovrOf c o).isSome == given && !(descOf c s o).wf)
  let fmtErr (code : BitVec 8) (n : Named) := Trap.here s 4 code (BitVec.ofNat 64 n.reg)
  (trapIf (bad false) (Trap.here s 4 1 s.h.csr.vtype)).orElse fun _ =>
  (trapIf (bad true) (Trap.here s 4 2 ((e2Word c).setWidth 64))).orElse fun _ =>
  (trapIf (!accept) (Trap.here s 4 3 (descsWord c s))).orElse fun _ =>
  (firstSome names fun n =>
    let r := vreg s n.reg
    trapIf (r.kind != 0 && (n.table != (r.kind == 2) || (n.width.getD 0) > r.width)) (fmtErr 4 n)).orElse fun _ =>
  firstSome names fun n => trapIf ((vreg s n.reg).kind == 0) (fmtErr 5 n)

/-! Rows and planes. -/

/-- The physical row of row `i` of a tile (R32): the `i`-th row that the grant in force does not leave out. -/
def physRow (s : State) (core i : Nat) : Nat :=
  if s.fencedRows.all (fun e => e.1 / 256 != core) then i
  else ((List.range 256).filter (fun r => !sget false s.fencedRows (core * 256 + r))).getD i 256

def planeKey (core row plane : Nat) : Nat := core * 65536 + row * 256 + plane
def planeAt (s : State) (core row plane : Nat) : BitVec 1024 := sget 0 s.planes (planeKey core row plane)

/-- Where an element lies (R34). -/
structure Spot where
  core : Nat
  row : Nat
  lane : Nat
  deriving DecidableEq, Repr

def spotOf (s : State) (e : Nat) : Spot :=
  let k := s.h.csr
  let per := k.rlen * k.rows
  let core := s.h.core + e / per
  ⟨core, physRow s core (e % per / k.rlen), k.fold * (e % k.rlen)⟩

/-- The `w`-bit pattern that begins at plane `p` in the lanes of a spot. -/
def bitsAt (s : State) (q : Spot) (p w : Nat) : Nat :=
  let f := foldOf s
  (List.range w).foldr (fun b acc => acc + (if (planeAt s q.core q.row (p + b / f)).getLsbD (q.lane + b % f) then 2 ^ b else 0)) 0

/-- The low bits of an element that an exposed window covers: `w` of them, so all, for a window of the whole location (R41). -/
def openBits (s : State) (l : Loc) (w e : Nat) : Nat :=
  let cs := s.h.hotCells.filter (fun x => x.1 == l)
  if cs.isEmpty then w
  else cs.foldl (fun m x => match x.2 with
    | none => w
    | some (mask, bits) => if mask.testBit e then max m (min w bits) else m) 0

/-- A `w`-bit pattern of a location in an exposed window: a free value in the bits that the window covers, `v` above them. -/
def hotBits (s : State) (l : Loc) (w e free v : Nat) : Nat :=
  let k := openBits s l w e
  free % 2 ^ k + v / 2 ^ k * 2 ^ k

/-- Element `e` of V`n` as its low `w` bits (R176), a free value in the bits that lie in an exposed window (R41). -/
def elemBits (s : State) (n w e : Nat) : Nat :=
  let v := match (vreg s n).first with
    | some p => bitsAt s (spotOf s e) p w
    | none => 0
  if s.h.hot.contains (.v n) then hotBits s (.v n) w e (Config.freeBits s.free (1000 + n * 2 ^ 40 + e)).toNat v else v

/-- Entry `j` of element `e` of the table V`n` at width `w` (R82). DEDUCED (log 71): where DESCA is narrower than the declared width, the
entries lie by DESCA's width, which R184 gives as the table's; R82 lays them out by the declared one. -/
def entryBits (s : State) (n w j e : Nat) : Nat :=
  if s.h.hot.contains (.v n) then (Config.freeBits s.free (1000 + n * 2 ^ 40 + e)).toNat % 2 ^ w
  else match (vreg s n).first with
    | some p => bitsAt s (spotOf s e) (p + j * dOf s w) w
    | none => 0

/-- Bit of predicate P`p` for element `e` (R35); P0 is all ones. -/
def predBit (s : State) (p e : Nat) : Bool :=
  if p == 0 then true
  else if s.h.hot.contains (.p p) && openBits s (.p p) 1 e != 0 then (Config.freeBits s.free (100 + p * 2 ^ 40 + e)).getLsbD 0
  else
    let q := spotOf s e
    (planeAt s q.core q.row (p - 1)).getLsbD q.lane

/-- An active element (R36). -/
def active (c : Ctl) (s : State) (e : Nat) : Bool := decide (e < s.h.csr.vl) && predBit s c.pred.toNat e

/-- The element indices below VL. -/
def elems (s : State) : List Nat := List.range s.h.csr.vl
def actives (c : Ctl) (s : State) : List Nat := (elems s).filter (fun e => predBit s c.pred.toNat e)

/-- The integer that a `w`-bit pattern stands for (R57). -/
def intVal (d : Desc) (v : Nat) : Int := if d.sgn && decide (2 ^ (d.w - 1) ≤ v) then (v : Int) - 2 ^ d.w else v

def elemInt (s : State) (d : Desc) (n e : Nat) : Int := intVal d (elemBits s n d.w e)

/-! Poison of codewords (R415, R416). -/

def codewordKey (q : Spot) (plane lane : Nat) : Nat := q.core * 2 ^ 20 + q.row * 2 ^ 12 + plane * 16 + lane / 64

/-- Some bit of the element's `d` planes from plane `p` lies in a poisoned codeword. -/
def spotPoisoned (s : State) (q : Spot) (p d : Nat) : Bool :=
  !s.poisonLane.isEmpty &&
  (List.range d).any (fun k => sget false s.poisonLane (codewordKey q (p + k) q.lane) ||
    sget false s.poisonLane (codewordKey q (p + k) (q.lane + foldOf s - 1)))

/-- Element `e` of V`n`, read at width `w`, touches poison. -/
def elemPoisoned (s : State) (n w e : Nat) : Bool :=
  match (vreg s n).first with
  | some p => spotPoisoned s (spotOf s e) p (dOf s w)
  | none => false

def predPoisoned (s : State) (p e : Nat) : Bool := p != 0 && spotPoisoned s (spotOf s e) (p - 1) 1

/-! Writing results. -/

/-- One result: the element, its bits over all the planes written, and whether it carries poison. -/
structure Item where
  elem : Nat
  bits : Nat
  poison : Bool := false
  deriving DecidableEq, Repr

/-- Splits ascending items at element `hi`. -/
def itemsBelow (hi : Nat) : List Item → List Item × List Item
  | [] => ([], [])
  | i :: r => if i.elem < hi then let (a, b) := itemsBelow hi r; (i :: a, b) else ([], i :: r)

/-- The codewords of one row after a write of `d` planes from plane `p`: poison where a poisoned result went, clear where all 64
lanes were replaced, else as before. -/
def rowMarks (f core row p d : Nat) (lanes : List (Nat × Nat × Bool)) (marks : Sparse Bool) : Sparse Bool :=
  (List.range 16).foldl (fun m cw =>
    let here := lanes.filter (fun l => l.1 / 64 == cw || (l.1 + f - 1) / 64 == cw)
    let bad := here.any (fun l => l.2.2)
    if bad || here.length * f == 64 then
      (List.range d).foldl (fun m k => sset false m (core * 2 ^ 20 + row * 2 ^ 12 + (p + k) * 16 + cw) bad) m
    else m) marks

def markRow (s : State) (core row p d : Nat) (lanes : List (Nat × Nat × Bool)) : State :=
  if s.poisonLane.isEmpty && lanes.all (fun l => !l.2.2) then s
  else { s with poisonLane := rowMarks (foldOf s) core row p d lanes s.poisonLane }

/-- The lanes that a write covers, `f` from each first lane. -/
def lanesMask (f : Nat) (lanes : List (Nat × Nat × Bool)) : Nat := lanes.foldl (fun m l => m + (2 ^ f - 1) * 2 ^ l.1) 0

/-- The bits that plane `k` of a write receives. -/
def lanesBits (f k : Nat) (lanes : List (Nat × Nat × Bool)) : Nat :=
  lanes.foldl (fun m l => m + (l.2.1 / 2 ^ (k * f) % 2 ^ f) * 2 ^ l.1) 0

/-- The planes after a write to lanes of one row. -/
def rowWritten (f core row p d : Nat) (lanes : List (Nat × Nat × Bool)) (m : Sparse (BitVec 1024)) : Sparse (BitVec 1024) :=
  (List.range d).foldl (fun m k =>
    sset 0 m (planeKey core row (p + k))
      ((sget 0 m (planeKey core row (p + k)) &&& ~~~BitVec.ofNat 1024 (lanesMask f lanes)) |||
        BitVec.ofNat 1024 (lanesBits f k lanes))) m

/-- Armed errors that a write to lanes of one row meets (R424). -/
def strikeRow (s : State) (core row p d : Nat) (lanes : List (Nat × Nat × Bool)) : State :=
  if s.armed.isEmpty then s
  else (List.range d).foldl (fun s k => lanes.foldl (fun s l =>
    strike s 0 (codewordKey ⟨core, row, l.1⟩ (p + k) l.1)) s) s

/-- Writes lanes of one row: (first lane, bits of the `d` planes, poison). -/
def writeRow (s : State) (core row p d : Nat) (lanes : List (Nat × Nat × Bool)) : State :=
  if lanes.isEmpty then s
  else strikeRow (markRow { s with planes := rowWritten (foldOf s) core row p d lanes s.planes } core row p d lanes)
    core row p d lanes

/-- Writes items, ascending by element, row by row, into `d` planes from plane `p`. -/
def writeRows (s : State) (p d : Nat) : List Nat → List Item → State
  | [], _ => s
  | r :: rest, items =>
    let k := s.h.csr
    let (now, later) := itemsBelow ((r + 1) * k.rlen) items
    let core := s.h.core + r / k.rows
    let s := writeRow s core (physRow s core (r % k.rows)) p d (now.map (fun i => (k.fold * (i.elem % k.rlen), i.bits, i.poison)))
    writeRows s p d rest later

def allRows (s : State) : List Nat := List.range (s.h.csr.rows * s.h.csr.tiles)

/-- The bits of a `w`-bit result with the fill of R34 up to `d` planes. -/
def fillBits (s : State) (w : Nat) (sgn : Bool) (v : Nat) : Nat :=
  let top := dOf s w * foldOf s
  if sgn && decide (2 ^ (w - 1) ≤ v) then v + (2 ^ top - 2 ^ w) else v

/-- Writes `w`-bit results into the low planes of V`n` (R176). -/
def writeElems (s : State) (n w : Nat) (sgn : Bool) (items : List Item) : State :=
  match (vreg s n).first with
  | some p => writeRows s p (dOf s w) (allRows s) (items.map (fun i => { i with bits := fillBits s w sgn i.bits }))
  | none => s

/-- Writes bits of predicate P`p` (R35). -/
def writePred (s : State) (p : Nat) (items : List Item) : State :=
  if p == 0 then s
  else writeRows s (p - 1) 1 (allRows s) (items.map (fun i => { i with bits := if i.bits % 2 == 1 then 2 ^ foldOf s - 1 else 0 }))

/-- The results of an element-wise instruction (R36): `f` for the active elements, zeros under Z for the others below VL. -/
def results (c : Ctl) (s : State) (f : Nat → Nat) (poison : Nat → Bool := fun _ => false) : List Item :=
  (elems s).filterMap (fun e =>
    if predBit s c.pred.toNat e then some ⟨e, f e, poison e || predPoisoned s c.pred.toNat e⟩
    else if c.z then some ⟨e, 0, false⟩ else none)

/-- The low `w` bits of an integer (R57). -/
def wrap (w : Nat) (v : Int) : Nat := (v % 2 ^ w).toNat

/-- The range of an integer descriptor (R57). -/
def intMin (d : Desc) : Int := if d.sgn then -(2 ^ (d.w - 1)) else 0
def intMax (d : Desc) : Int := if d.sgn then 2 ^ (d.w - 1) - 1 else 2 ^ d.w - 1
def clampInt (d : Desc) (v : Int) : Int := max (intMin d) (min (intMax d) v)

/-- Integer descriptors only (R176). -/
def intDesc (d : Desc) : Bool := d.fmt < 2

end Sys2Proof.Machine
end

