-- ==== Sys2Proof/Machine/Flags.lean ====
section
/-! DEFINITION. FCSR (R68, R72): the sticky flags, the rounding mode, and the stochastic-rounding generators (R70). -/
namespace Sys2Proof.Machine

/-- The flags of FCSR as one set: bit 5 SAT, 4 NV, 3 DZ, 2 OF, 1 UF, 0 NX (R68). -/
abbrev FlagSet := BitVec 6

def fSat : FlagSet := 0x20
def fNv : FlagSet := 0x10
def fDz : FlagSet := 0x08
def fOf : FlagSet := 0x04
def fUf : FlagSet := 0x02
def fNx : FlagSet := 0x01

/-- ORs flags into FCSR (R72). -/
def orFlags (s : State) (f : FlagSet) : State :=
  modH s (fun h => { h with raised := h.raised ||| f, csr := { h.csr with fcsr := h.csr.fcsr ||| f.setWidth 64 } })

/-- A written value of FCSR (R68): reserved bits stay zero, and RM stays where the value would place 6 or 7. -/
def mkFcsr (old v : Word) : Word :=
  let v := v &&& 0xffffffff0000073f
  if v.toNat / 256 % 8 < 6 then v else (v &&& ~~~0x700#64) ||| (old &&& 0x700)

/-- The rounding mode an instruction uses: its override, or FCSR.RM for 7 (R69). -/
def rmOf (c : Ctl) (s : State) : Nat := if c.rmo = 7 then s.h.csr.fcsr.toNat / 256 % 8 else c.rmo.toNat

/-- One step of the generator of R70: the output bit and the new state. -/
def lfsrStep (x : BitVec 32) : Bool × BitVec 32 :=
  let b := x.getLsbD 0
  (b, if b then (x >>> 1) ^^^ 0x80200003 else x >>> 1)

def lfsrRun : Nat → Nat → BitVec 32 → Nat → Nat × BitVec 32
  | 0, _, x, z => (z, x)
  | n + 1, j, x, z => let (b, y) := lfsrStep x; lfsrRun n (j + 1) y (z + if b then 2 ^ j else 0)

/-- One draw: the number Z and the next state (R70). -/
def lfsrDraw (x : BitVec 32) : Nat × BitVec 32 := lfsrRun 32 0 x 0

/-- The generator's state before any draw (R70). -/
def genSeed (seed : BitVec 32) (e : Nat) : BitVec 32 :=
  let x := seed ^^^ BitVec.ofNat 32 (e * 0x9e3779b9)
  if x = 0 then 1 else x

/-- The generator of element `e` as it stands. -/
def genState (h : Hart) (e : Nat) : BitVec 32 :=
  let x := sget 0 h.gens e
  if x = 0 then genSeed (h.csr.fcsr.extractLsb' 32 32) e else x

/-- The draw that element `e` makes in a rounding under SR. -/
def drawZ (s : State) (e : Nat) : Nat := (lfsrDraw (genState s.h e)).1

/-- Advances the generator of element `e` by `n` draws. -/
def advanceGen (h : Hart) (e : Nat) : Nat → Hart
  | 0 => h
  | n + 1 => advanceGen { h with gens := sset 0 h.gens e (lfsrDraw (genState h e)).2 } e n

def advanceGens (s : State) (es : List Nat) : State := modH s (fun h => es.foldl (fun h e => advanceGen h e 1) h)

/-- Every generator back to its initial state (R70). -/
def resetGens (s : State) : State := modH s (fun h => { h with gens := [] })

end Sys2Proof.Machine
end

