-- ==== Sys2Proof/Machine/Numbers.lean ====
section
/-! DEFINITION. Floating-point values, exact operations on them, and the one rounding into a format (R56, R59 to R65, R69 to
R73, R78). A finite value is ±m·2^e, plus a positive amount below 2^e when `sticky` is set; only a quotient or a root sets
it, with far more bits below m than any format or draw reads. -/
namespace Sys2Proof.Machine

inductive FVal where
  | nan (signalling : Bool)
  | inf (neg : Bool)
  | fin (neg : Bool) (m : Nat) (e : Int) (sticky : Bool)
  deriving DecidableEq, Repr

def FVal.zero : FVal := .fin false 0 0 false
def FVal.ofInt (v : Int) : FVal := .fin (decide (v < 0)) v.natAbs 0 false

/-- Fields of a sign/exponent/fraction format (R56). `top` is the fraction of the largest finite value. -/
structure Ieee where
  eb : Nat
  fb : Nat
  bias : Nat
  hasInf : Bool
  top : Nat
  deriving DecidableEq, Repr

def ieeeOf : Nat → Option Ieee
  | 2 => some ⟨11, 52, 1023, true, 2 ^ 52 - 1⟩
  | 3 => some ⟨8, 23, 127, true, 2 ^ 23 - 1⟩
  | 4 => some ⟨8, 7, 127, true, 127⟩
  | 5 => some ⟨5, 10, 15, true, 1023⟩
  | 6 => some ⟨4, 3, 7, false, 6⟩
  | 7 => some ⟨5, 2, 15, true, 3⟩
  | 10 => some ⟨2, 1, 1, false, 1⟩
  | 11 => some ⟨2, 3, 1, false, 7⟩
  | 12 => some ⟨3, 2, 3, false, 3⟩
  | _ => none

/-- Magnitude bits of TP8 and TP6 (R61). -/
def taperBits : Nat → Option Nat
  | 8 => some 7 | 9 => some 5 | _ => none

/-- The canonical NaN or no-value code (R56); 0 where a format has none. -/
def canonNan : Nat → Nat
  | 2 => 0x7ff8000000000000 | 3 => 0x7fc00000 | 4 => 0x7fc0 | 5 => 0x7e00 | 6 => 0x7f | 7 => 0x7e | 8 => 0x80 | 9 => 0x20
  | _ => 0

/-- Length of the run of bits equal to `b` from bit `i - 1` down. -/
def runLength (m : Nat) (b : Bool) : Nat → Nat
  | 0 => 0
  | i + 1 => if m.testBit i == b then runLength m b i + 1 else 0

/-- The magnitude that a nonzero field of `n` bits stands for: significand and exponent (R61). -/
def taperMag (n m : Nat) : Nat × Int :=
  let b := m.testBit (n - 1)
  let k := runLength m b n
  let q : Int := if b then (k : Int) - 1 else -(k : Int)
  let left := n - k - 1                       -- bits after the consumed one
  let e := if 0 < left then m / 2 ^ (left - 1) % 2 else 0
  let f := left - 1
  (2 ^ f + m % 2 ^ f, 2 * q + e - f)

/-- The value of a code under a format (R56, R59, R61, R64, R67). -/
def decodeFloat (fmt code : Nat) : FVal :=
  match taperBits fmt, ieeeOf fmt with
  | some n, _ =>
    let m := code % 2 ^ n
    let neg := code.testBit n
    if m = 0 then (if neg then .nan false else .zero)
    else let (a, e) := taperMag n m; .fin neg a e false
  | none, some p =>
    let f := code % 2 ^ p.fb
    let e := code / 2 ^ p.fb % 2 ^ p.eb
    let neg := code.testBit (p.eb + p.fb)
    if fmt = 6 ∧ e = 15 ∧ f = 7 then .nan false
    else if p.hasInf ∧ e = 2 ^ p.eb - 1 then
      (if f = 0 then .inf neg else .nan (!f.testBit (p.fb - 1)))
    else if e = 0 then .fin neg f (1 - (p.bias : Int) - p.fb) false
    else .fin neg (2 ^ p.fb + f) ((e : Int) - p.bias - p.fb) false
  | none, none =>
    if fmt = 13 then
      let v := intVal ⟨1, 8, true, 0⟩ (code % 256)
      .fin (decide (v < 0)) v.natAbs (-6) false
    else
      let v := intVal ⟨1, 7, true, 0⟩ (code % 128)
      .fin (decide (v < 0)) v.natAbs 0 false

/-! Exact operations (R201, R202). Each gives the value and the flags it sets by itself. -/

def FVal.neg : FVal → FVal
  | .nan q => .nan q
  | .inf n => .inf (!n)
  | .fin n m e t => .fin (!n) m e t

def FVal.isNan : FVal → Bool
  | .nan _ => true
  | _ => false

def FVal.isZero : FVal → Bool
  | .fin _ m _ t => m == 0 && !t
  | _ => false

def FVal.sign : FVal → Bool
  | .nan _ => false
  | .inf n => n
  | .fin n _ _ _ => n

/-- The signed integer a·2^(e - q). -/
def scaled (neg : Bool) (m : Nat) (e q : Int) : Int :=
  let v : Int := (m * 2 ^ (e - q).toNat : Nat)
  if neg then -v else v

/-- The exact sum. An exact zero from unlike signs is −0 under RDN, else +0 (R69). -/
def FVal.add (rm : Nat) (a b : FVal) : FVal × FlagSet :=
  match a, b with
  | .nan _, _ => (.nan false, 0)
  | _, .nan _ => (.nan false, 0)
  | .inf n, .inf k => if n == k then (.inf n, 0) else (.nan false, fNv)
  | .inf n, _ => (.inf n, 0)
  | _, .inf k => (.inf k, 0)
  | .fin n m e t, .fin k j f u =>
    let q := min e f
    let v := scaled n m e q + scaled k j f q
    if v = 0 then (.fin (if m == 0 && j == 0 && n == k then n else rm == 2) 0 0 false, 0)
    else (.fin (decide (v < 0)) v.natAbs q (t || u), 0)

def FVal.mul (a b : FVal) : FVal × FlagSet :=
  let n := a.sign != b.sign
  match a, b with
  | .nan _, _ => (.nan false, 0)
  | _, .nan _ => (.nan false, 0)
  | .inf _, y => if y.isZero then (.nan false, fNv) else (.inf n, 0)
  | x, .inf _ => if x.isZero then (.nan false, fNv) else (.inf n, 0)
  | .fin _ m e t, .fin _ j f u => (.fin n (m * j) (e + f) (t || u), 0)

/-- The quotient, to 200 bits below the dividend and a sticky bit. -/
def FVal.div (a b : FVal) : FVal × FlagSet :=
  let n := a.sign != b.sign
  match a, b with
  | .nan _, _ => (.nan false, 0)
  | _, .nan _ => (.nan false, 0)
  | .inf _, .inf _ => (.nan false, fNv)
  | .inf _, _ => (.inf n, 0)
  | .fin _ _ _ _, .inf _ => (.fin n 0 0 false, 0)
  | .fin _ m e _, .fin _ j f _ =>
    if j = 0 then (if m = 0 then (.nan false, fNv) else (.inf n, fDz))
    else (.fin n (m * 2 ^ 200 / j) (e - f - 200) (m * 2 ^ 200 % j != 0), 0)

/-- The integer square root of `n`, bit by bit from bit `k - 1`. -/
def isqrtFrom (n : Nat) : Nat → Nat → Nat
  | 0, r => r
  | k + 1, r => isqrtFrom n k (if (r + 2 ^ k) * (r + 2 ^ k) ≤ n then r + 2 ^ k else r)
def isqrt (n : Nat) : Nat := isqrtFrom n (Nat.log2 n / 2 + 1) 0

def FVal.sqrt (a : FVal) : FVal × FlagSet :=
  match a with
  | .nan _ => (.nan false, 0)
  | .inf n => if n then (.nan false, fNv) else (.inf false, 0)
  | .fin n m e t =>
    if m = 0 then (.fin n 0 0 false, 0)
    else if n then (.nan false, fNv)
    else
      let odd := e % 2 != 0
      let v := (if odd then 2 * m else m) * 2 ^ 256
      let r := isqrt v
      (.fin false r ((if odd then e - 1 else e) / 2 - 128) (t || r * r != v), 0)

/-- −1, 0 or 1 as a is below, equal to or above b; none when unordered (R205). -/
def FVal.cmp (a b : FVal) : Option Int :=
  match a, b with
  | .nan _, _ => none
  | _, .nan _ => none
  | .inf n, .inf k => some (if n == k then 0 else if n then -1 else 1)
  | .inf n, _ => some (if n then -1 else 1)
  | _, .inf k => some (if k then 1 else -1)
  | .fin n m e _, .fin k j f _ =>
    let q := min e f
    some (scaled n m e q - scaled k j f q).sign

/-- minimumNumber and maximumNumber (R204). -/
def FVal.pick (wantMax : Bool) (a b : FVal) : FVal :=
  match a.cmp b with
  | none => if a.isNan then (if b.isNan then .nan false else b) else a
  | some o =>
    if o = 0 then (if a.sign == wantMax then b else a)
    else if decide (0 < o) == wantMax then a else b

/-! Rounding. -/

/-- A magnitude cut at 2^q: the units, and what is left over a denominator. -/
structure Cut where
  n : Nat
  r : Nat
  den : Nat
  sticky : Bool

def cutAt (m : Nat) (e q : Int) (sticky : Bool) : Cut :=
  if q ≤ e then ⟨m * 2 ^ (e - q).toNat, 0, 1, sticky⟩
  else
    let d := 2 ^ (q - e).toNat
    ⟨m / d, m % d, d, sticky⟩

def Cut.inexact (c : Cut) : Bool := c.r != 0 || c.sticky

/-- Whether the magnitude goes to the upper of the two neighbours (R69, R70). -/
def roundsUp (rm : Nat) (neg even : Bool) (c : Cut) (z : Nat) : Bool :=
  c.inexact &&
  match rm with
  | 1 => false
  | 2 => neg
  | 3 => !neg
  | 5 => decide (z < c.r * 2 ^ 32 / c.den)
  | _ => decide (c.den < 2 * c.r) || (c.den == 2 * c.r && (c.sticky || rm == 4 || !even))

/-- The magnitude rounded to an integer number of 2^q. -/
def roundAt (rm : Nat) (neg : Bool) (m : Nat) (e q : Int) (sticky : Bool) (z : Nat) : Nat × Bool :=
  let c := cutAt m e q sticky
  (c.n + (if roundsUp rm neg (c.n % 2 == 0) c z then 1 else 0), c.inexact)

/-- floor(log2) of a nonzero magnitude m·2^e. -/
def logMag (m : Nat) (e : Int) : Int := (Nat.log2 m : Int) + e

/-- The largest exponent of a finite value. -/
def Ieee.emax (p : Ieee) : Int := (2 ^ p.eb : Nat) - (if p.hasInf then 2 else 1) - (p.bias : Int)

/-- The code of the largest finite magnitude, with a sign. -/
def Ieee.big (p : Ieee) (neg : Bool) : Nat :=
  (if neg then 2 ^ (p.eb + p.fb) else 0) + (p.emax + p.bias).toNat * 2 ^ p.fb + p.top
def Ieee.infinity (p : Ieee) (neg : Bool) : Nat := (if neg then 2 ^ (p.eb + p.fb) else 0) + (2 ^ p.eb - 1) * 2 ^ p.fb

/-- Overflow goes to the infinity, by the mode's direction; SR takes that of RNE (R69). -/
def overflowsUp (rm : Nat) (neg : Bool) : Bool := rm == 0 || rm == 4 || rm == 5 || (rm == 2 && neg) || (rm == 3 && !neg)

/-- Tiny after rounding to the format's precision with no bound on the exponent (R73). DESIGN CHOICE (log 71): under SR the spec does not
say which draw decides this rounding; it is the one draw `z` of the delivered rounding. -/
def tiny (p : Ieee) (rm : Nat) (neg : Bool) (m : Nat) (e : Int) (sticky : Bool) (z : Nat) : Bool :=
  let lg := logMag m e
  let emin := 1 - (p.bias : Int)
  decide (lg < emin) && !(decide (lg + 1 = emin) && (roundAt rm neg m e (lg - p.fb) sticky z).1 == 2 ^ (p.fb + 1))

/-- A finite value into a sign/exponent/fraction format. -/
def fitIeee (p : Ieee) (rm : Nat) (neg : Bool) (m : Nat) (e : Int) (sticky : Bool) (z : Nat) : Nat × FlagSet :=
  let sgn := if neg then 2 ^ (p.eb + p.fb) else 0
  if m = 0 then (sgn, 0)
  else
    let lg := logMag m e
    let q := max lg (1 - (p.bias : Int))
    let (n, inexact) := roundAt rm neg m e (q - p.fb) sticky z
    let (n, q) := if 2 ^ (p.fb + 1) ≤ n then (n / 2, q + 1) else (n, q)
    if p.emax < q ∨ (q = p.emax ∧ 2 ^ p.fb + p.top < n) then
      ((if p.hasInf && overflowsUp rm neg then p.infinity neg else p.big neg), fOf ||| fNx)
    else
      let fl := (if inexact then fNx else 0) ||| (if inexact && tiny p rm neg m e sticky z then fUf else 0)
      (if 2 ^ p.fb ≤ n then sgn + (q + p.bias).toNat * 2 ^ p.fb + (n - 2 ^ p.fb) else sgn + n, fl)

/-- Twice-scaled comparison of m·2^e (sticky) with a code's magnitude: the code is at or below it. -/
def taperLe (k : Nat × Int) (m : Nat) (e : Int) : Bool :=
  let q := min k.2 e
  decide (scaled false k.1 k.2 q ≤ scaled false m e q)

/-- The largest field whose magnitude does not exceed m·2^e; 0 when there is none (R63). -/
def taperBelow (n m : Nat) (e : Int) : Nat :=
  (List.range (2 ^ n)).foldl (fun best k => if k != 0 && taperLe (taperMag n k) m e then k else best) 0

/-- A finite value into TP8 or TP6 (R63). Magnitudes rise with the field. DEDUCED (log 71): in the binades at the ends of these formats
the bound of 3/4 that R80 gives for 'other' cannot hold under RUP, RDN and SR with R63 step 3, which this follows. -/
def fitTaper (n : Nat) (rm : Nat) (neg : Bool) (m : Nat) (e : Int) (sticky : Bool) (z : Nat) : Nat × FlagSet :=
  if m = 0 then (0, 0)
  else
    let top := 2 ^ n - 1
    let a := taperBelow n m e
    let va : Nat × Int := if a = 0 then (0, 0) else taperMag n a
    let q := min (min va.2 e) (if a = top then 0 else (taperMag n (a + 1)).2)
    let lo := (scaled false va.1 va.2 q).toNat
    let x := (scaled false m e q).toNat
    let sgn := if neg then 2 ^ n else 0
    if a = top then (sgn + top, if x = lo && !sticky then 0 else fOf ||| fNx)
    else
      let vb := taperMag n (a + 1)
      let hi := (scaled false vb.1 vb.2 q).toNat
      let c : Cut := ⟨a, x - lo, hi - lo, sticky⟩
      if !c.inexact then (sgn + a, 0)
      else
        let k := if roundsUp rm neg (a % 2 == 0) c z then a + 1 else a
        if k = 0 then (0, fUf ||| fNx) else (sgn + k, fNx)

/-- A finite value into an MXINT8 element (R65). -/
def fitMxint (rm : Nat) (neg : Bool) (m : Nat) (e : Int) (sticky : Bool) (z : Nat) : Nat × FlagSet :=
  let (n, inexact) := roundAt rm neg m e (-6) sticky z
  let beyond := decide (127 < n)
  let n := min n 127
  let fl := if beyond then fOf ||| fNx else (if inexact then fNx else 0) ||| (if inexact && n == 0 then fUf else 0)
  ((if neg then 256 - n else n) % 256, fl)

/-- fit(): one rounding of an exact value into a format, with draw `z` under SR (R60, R63, R65, R69, R73). A signalling NaN sets
NV. -/
def fitFloat (fmt rm z : Nat) (v : FVal) : Nat × FlagSet :=
  match v with
  | .nan sig => (canonNan fmt, if sig then fNv else 0)
  | .inf neg =>
    match ieeeOf fmt, taperBits fmt with
    | some p, _ => if p.hasInf then (p.infinity neg, 0) else (p.big neg, fOf ||| fNx)
    | none, some n => ((if neg then 2 ^ n else 0) + (2 ^ n - 1), fOf ||| fNx)
    | none, none => (if neg then 0x81 else 0x7f, fOf ||| fNx)
  | .fin neg m e sticky =>
    match ieeeOf fmt, taperBits fmt with
    | some p, _ => fitIeee p rm neg m e sticky z
    | none, some n => fitTaper n rm neg m e sticky z
    | none, none => fitMxint rm neg m e sticky z

/-- fit() under SATF: an infinity delivered into a format that has infinities becomes the largest finite value (R209). -/
def fitSat (fmt rm z : Nat) (v : FVal) : Nat × FlagSet :=
  let (code, fl) := fitFloat fmt rm z v
  match ieeeOf fmt, decodeFloat fmt code with
  | some p, .inf neg => (p.big neg, fl ||| fOf ||| fNx)
  | _, _ => (code, fl)

/-- A finite value to an integer in mode `rm` (R210, R235). -/
def roundInt (rm z : Nat) (neg : Bool) (m : Nat) (e : Int) (sticky : Bool) : Int × Bool :=
  let (n, inexact) := roundAt rm neg m e 0 sticky z
  (if neg then -(n : Int) else n, inexact)

/-- VFTOI's value (R210). -/
def toInteger (D : Desc) (rm z : Nat) (v : FVal) : Int × FlagSet :=
  match v with
  | .nan _ => (0, fNv)
  | .inf neg => (if neg then intMin D else intMax D, fNv)
  | .fin neg m e t =>
    let (n, inexact) := roundInt rm z neg m e t
    if clampInt D n = n then (n, if inexact then fNx else 0) else (clampInt D n, fNv)

/-- The internal value W of R78: a significand of 57 bits by RNE, the exponent unbounded. -/
def roundW (v : FVal) : FVal :=
  match v with
  | .fin neg m e t =>
    if m = 0 then v
    else
      let q := logMag m e - 56
      .fin neg (roundAt 0 neg m e q t 0).1 q false
  | _ => v

end Sys2Proof.Machine
end

