-- ==== Sys2Proof/Machine/Walk.lean ====
section
/-! DEFINITION. What words of a scratchpad decode to: the segments of a compressed stream (R216 to R218), read by a function from byte
offsets to words with their poison, and the weights of a seed record (R244 to R249). -/
namespace Sys2Proof.Machine

def popCount (n : Nat) (v : Nat) : Nat := (List.range n).foldl (fun k i => if v.testBit i then k + 1 else k) 0

/-- The signed value of a `w`-bit pattern. -/
def signedOf (w v : Nat) : Int := if 2 ^ (w - 1) ≤ v then (v : Int) - 2 ^ w else v

/-! Streams. -/

/-- A segment's bytes with `nval` of `nel` elements kept. -/
def segmentBytes (w nel nval : Nat) : Nat := 8 + 8 * ceilDiv nel 64 + 8 * ceilDiv (nval * w) 64

/-- `n` words from offset `off` on, as one number. -/
def streamBits (rd : Nat → Word × Bool) (off n : Nat) : Nat :=
  (List.range n).foldr (fun i acc => (rd (off + 8 * i)).1.toNat * 2 ^ (64 * i) + acc) 0

/-- How a walk of headers ends, with the elements expanded and the offset reached (R218). -/
inductive WalkEnd where
  | done (items : List Item) (n off : Nat)
  | malformed (items : List Item) (n off : Nat)

/-- A header whose fields differ from DESCD or are out of range (R218). -/
def headerBad (D : Desc) (h : Word) : Bool :=
  let v := h.toNat
  v / 2 ^ 48 != 0 || v / 2 ^ 21 % 8 != 0 || decide (1024 < v % 65536) || v / 2 ^ 16 % 16 != D.fmt ||
    (v / 2 ^ 20 % 2 == 1) != D.sgn || v / 2 ^ 24 % 256 + 1 != D.w

/-- The elements of one segment whose header lies at `off`, the first of them element `e`. -/
def expandSegment (rd : Nat → Word × Bool) (D : Desc) (off e nel nval : Nat) : List Item :=
  let mw := ceilDiv nel 64
  let mask := streamBits rd (off + 8) mw
  let at' := off + 8 + 8 * mw
  let vals := streamBits rd at' (ceilDiv (nval * D.w) 64)
  let top := (List.range (mw + 1)).any (fun i => (rd (off + 8 * i)).2)
  (List.range nel).map (fun k =>
    let j := popCount k mask
    let bad := mask.testBit k &&
      ((rd (at' + j * D.w / 64 * 8)).2 || (rd (at' + ((j + 1) * D.w - 1) / 64 * 8)).2)
    ⟨e + k, if mask.testBit k then vals / 2 ^ (j * D.w) % 2 ^ D.w else 0, top || bad⟩)

/-- The walk of R218 over at most `fuel` segments. DESIGN CHOICE (log 71): FMT, SGN, WM, NEL and the reserved bits of a header are tested
before the fit, and NVAL after it; the spec gives no order. -/
def walkStream (rd : Nat → Word × Bool) (D : Desc) (budget cap : Nat) : Nat → List Item → Nat → Nat → WalkEnd
  | 0, acc, e, off => .done acc e off
  | fuel + 1, acc, e, off =>
    if budget < off + 8 then .done acc e off
    else
      let h := (rd off).1
      let nel := h.toNat % 65536
      let nval := h.toNat / 2 ^ 32 % 65536
      if nel = 0 then .done acc e off
      else if headerBad D h then .malformed acc e off
      else
        let size := 8 + 8 * ceilDiv nel 64 + 8 * ceilDiv (nval * D.w) 64
        if budget < off + size ∨ cap < e + nel then .done acc e off
        else if popCount (64 * ceilDiv nel 64) (streamBits rd (off + 8) (ceilDiv nel 64)) ≠ nval then .malformed acc e off
        else walkStream rd D budget cap fuel (acc ++ expandSegment rd D off e nel nval) (e + nel) (off + size)

/-- The segments that a walk takes, as (tile of the first element, bytes), of tiles of `per` elements. -/
def walkSizes (per : Nat) (rd : Nat → Word × Bool) (D : Desc) : Nat → Nat → Nat → Nat → List (Nat × Nat)
  | 0, _, _, _ => []
  | fuel + 1, e, off, last =>
    let h := (rd off).1.toNat
    let size := segmentBytes D.w (h % 65536) (h / 2 ^ 32 % 65536)
    if last ≤ off ∨ h % 65536 = 0 then []
    else (e / per, size) :: walkSizes per rd D fuel (e + h % 65536) (off + size) last

/-! The generator (R246, R247). -/

def seedStep (x : BitVec 16) : Bool × BitVec 16 :=
  let b := x.getLsbD 0
  (b, if b then (x >>> 1) ^^^ 0xd008 else x >>> 1)

/-- The next `n` bits, b0 first, from bit position `j`. -/
def seedBitsFrom : Nat → Nat → BitVec 16 → Nat
  | 0, _, _ => 0
  | n + 1, j, x => let (b, y) := seedStep x; (if b then 2 ^ j else 0) + seedBitsFrom n (j + 1) y

/-- The 64 bits that a seed emits; 0 for seed 0 (R249). -/
def seedBits (seed : BitVec 16) : Nat := if seed = 0 then 0 else seedBitsFrom 64 0 seed

/-- Coefficient t_p of a record (R244). -/
def coefficient (rec p : Nat) : Int := signedOf 4 (rec / 2 ^ (16 + 4 * p) % 16)

/-- Weight of row `r` of a record (R247). -/
def recordWeight (rec r : Nat) : Int :=
  if rec % 65536 = 0 then 0
  else
    let bits := seedBits (BitVec.ofNat 16 rec)
    (List.range 4).foldl (fun w p => if bits.testBit (4 * r + p) then w - coefficient rec p else w + coefficient rec p) 0

end Sys2Proof.Machine
end

