-- ==== Sys2Proof/Machine/Memory.lean ====
section
/-! DEFINITION. The local windows (R88 to R92): places, scalar reads and writes, the strip interval's open orders (R112), the
tile-buffer descriptors and their tag check. One byte list holds all memory: HBM at its physical addresses, then the cluster
scratchpads, the die scratchpads, and host memory. -/
namespace Sys2Proof.Machine

def clusterBase (cl : Nat) : Nat := 2 ^ 40 + cl * 2 ^ 24
def dieBase (d : Nat) : Nat := 2 ^ 41 + d * 2 ^ 26
def hostBase : Nat := 2 ^ 64

/-- Where a local address leads (R88). -/
inductive Place where
  | mem (g : Nat)                    -- byte of a scratchpad, by its address in the byte list
  | template (off : Nat)
  | desc (off : Nat)
  | aperture (bte ch off : Nat)
  | bad (kind : Nat)                 -- error response, KIND of R357
  deriving DecidableEq, Repr

/-- The place of a local address, seen from package cluster `cl` by a hart of partition `part`. -/
def placeOf (s : State) (part cl a : Nat) : Place :=
  if a < 0x1000000 then .mem (clusterBase cl + a)
  else if 0x10000000 ≤ a ∧ a < 0x20000000 then
    let d := (a - 0x10000000) / 2 ^ 26
    if partOfDie s d = some part then .mem (dieBase d + a % 2 ^ 26) else .bad 2
  else if 0x20000000 ≤ a ∧ a < 0x20004000 then .template (a - 0x20000000)
  else if 0x20010000 ≤ a ∧ a < 0x20014000 then .desc (a - 0x20010000)
  else if 0x20020000 ≤ a ∧ a < 0x20020400 then .aperture (a / 256 % 4) (a / 16 % 16) (a % 16)
  else .bad 1

/-- The scratchpad window that a local address starts in (R88): first address and size; die windows one by one. -/
def windowOf (a : Nat) : Option (Nat × Nat) :=
  if a < 0x1000000 then some (0, 2 ^ 24)
  else if 0x10000000 ≤ a ∧ a < 0x20000000 then some (0x10000000 + (a - 0x10000000) / 2 ^ 26 * 2 ^ 26, 2 ^ 26)
  else none

def wordAt (s : State) (g : Nat) : Word := BitVec.ofNat 64 (leNat (bytesAt s.mem g 8))

/-- The home cluster of the hart in hand, and its place of a local address. -/
def homeCluster (s : State) : Nat := clusterOfCore s.h.core
def homePlace (s : State) (ea : Word) : Place := placeOf s (myGang s).part (homeCluster s) ea.toNat

/-! Tile-buffer descriptors (R91, R92). -/

def TileBuf.init : TileBuf := ⟨0, 0, false, false, 0⟩
def bufAt (s : State) (cl n : Nat) : TileBuf := sget TileBuf.init s.bufs (cl * 64 + n)
def setBuf (s : State) (cl n : Nat) (b : TileBuf) : State := { s with bufs := sset TileBuf.init s.bufs (cl * 64 + n) b }

def TileBuf.etag (b : TileBuf) : BitVec 16 := b.cfg.extractLsb' 48 16
def TileBuf.en (b : TileBuf) : Bool := b.cfg.getLsbD 31
def TileBuf.ainc (b : TileBuf) : Bool := b.cfg.getLsbD 30
def TileBuf.chunks (b : TileBuf) : Nat := b.cfg.toNat / 2 ^ 15 % 1024 + 1
def TileBuf.base (b : TileBuf) : Nat := b.cfg.toNat % 2 ^ 15

/-- A dword of a descriptor. -/
def TileBuf.dword (b : TileBuf) (k : Nat) : Word :=
  if k = 0 then
    b.cfg ||| (b.ltag.setWidth 64 <<< 32) ||| (if b.mix then 0x20000000 else 0) ||| (if b.chk then 0x10000000 else 0)
  else if k = 1 then BitVec.ofNat 64 (popCount 1024 b.landed.toNat)
  else if 16 ≤ k then b.landed.extractLsb' (64 * (k - 16)) 64
  else 0

/-- A store to the configuration word. -/
def TileBuf.configure (v : Word) : TileBuf :=
  let cfg := v &&& 0xffff0000c1ffffff
  let b : TileBuf := ⟨cfg, 0, false, false, 0⟩
  if b.en && decide (32768 < b.base + b.chunks) then { b with cfg := cfg &&& ~~~0x80000000#64 } else b

/-- A store to any dword of a descriptor. -/
def TileBuf.store (b : TileBuf) (k : Nat) (v : Word) : TileBuf :=
  if k = 0 then TileBuf.configure v
  else if 16 ≤ k then { b with landed := b.landed &&& ~~~(v.setWidth 1024 <<< (64 * (k - 16))) }
  else b

/-- TCLR of a buffer (R92, R198). -/
def TileBuf.clear (b : TileBuf) : TileBuf :=
  let etag := if b.ainc then b.etag + 1 else b.etag
  ⟨(etag.setWidth 64 <<< 48) ||| (b.cfg &&& 0x0000ffffffffffff), 0, false, false, 0⟩

/-- A chunk with tag `t` lands at index `k` (R92). -/
def TileBuf.land (b : TileBuf) (k : Nat) (t : Option (BitVec 16)) : TileBuf :=
  let first := b.landed == 0
  let b' := { b with landed := b.landed ||| BitVec.ofNat 1024 (2 ^ k) }
  match t with
  | none => b'
  | some t => if first then { b' with ltag := t } else if b.ltag == t then b' else { b' with mix := true }

/-- The buffer is checked by an access that touches scratchpad bytes `lo` to `hi - 1` (R92, R371). -/
def TileBuf.touchedBy (b : TileBuf) (lo hi : Nat) : Bool :=
  b.en && !b.chk && b.landed != 0 && decide (b.base * 512 < hi) && decide (lo < (b.base + b.chunks) * 512)

/-- Buffers of cluster `cl` whose check an access to scratchpad bytes `lo` to `hi - 1` makes. -/
def buffersTouched (s : State) (cl lo hi : Nat) : List Nat :=
  if s.bufs.isEmpty then [] else (List.range 64).filter (fun n => (bufAt s cl n).touchedBy lo hi)

/-- The check of touched buffers, as (cluster, number) in the order in which they are compared: a schedule fault, or CHK set in each
(R371). -/
def checkBuffers (s : State) (ns : List (Nat × Nat)) : Except Trap State :=
  match ns.find? (fun n => (bufAt s n.1 n.2).etag != (bufAt s n.1 n.2).ltag || (bufAt s n.1 n.2).mix) with
  | some n =>
    let b := bufAt s n.1 n.2
    .error { Trap.here s 6 (if b.etag != b.ltag then 1 else 2) (BitVec.ofNat 64 (b.base * 512)) with
             synd := b.ltag.setWidth 64 <<< 32 }
  | none => .ok (ns.foldl (fun s n => setBuf s n.1 n.2 { bufAt s n.1 n.2 with chk := true }) s)

/-- The check of an access to `lo` to `hi - 1` of one cluster. -/
def tagCheck (s : State) (cl lo hi : Nat) : Except Trap State := checkBuffers s ((buffersTouched s cl lo hi).map (fun n => (cl, n)))

/-! The strip interval (R112). -/

/-- Bits of `a` where the mask is set, of `b` elsewhere. -/
def blend (mask a b : Word) : Word := (a &&& mask) ||| (b &&& ~~~mask)

/-- A choice between the orders that R112 leaves open: free in elastic mode, the slot plan's in lockstep mode (R127). -/
def freeOrder (s : State) (k : Nat) : Bool :=
  if lockstep s then Config.planOrder ((s.h.issueCy - (myGang s).tstart) * 65536 + s.h.idx) k else Config.freeChoice s.free k

/-- The hart as State.writers names it. -/
def writerKey (h : Hart) : Nat := h.gang * 2 ^ 16 + h.idx + 1

/-- The hart's writes of a word in this strip interval, in their write order; none of them counts once another agent has written
the word, which puts its write above them. -/
def writesOf (s : State) (w : Nat) : List StripWrite :=
  let es := s.h.strip.filter (fun e => e.word == w)
  if sget 0 s.writers w = writerKey s.h then es else []

/-- The least place in the write order of a word that follows every write and read marked. -/
def leastPos (s : State) (w : Nat) (we : StripWrite → Bool) (re : StripRead → Bool) : Nat :=
  let writes := (writesOf s w).foldl (fun (p : Nat × Nat) e => (p.1 + 1, if we e then p.1 + 1 else p.2)) (0, 0)
  (s.h.stripReads.filter (fun r => r.word == w && re r)).foldl (fun m r => max m r.pos) writes.2

/-- The least place that a later read may take: accesses that are no tile move keep their program order (R111), fences theirs. -/
def readFloor (s : State) (tile : Bool) (w : Nat) : Nat :=
  leastPos s w (fun e => e.seen || (!tile && !e.tile)) (fun r => r.seen || (!tile && !r.tile))

/-- The least place that a later write may take. -/
def writeFloor (s : State) (tile : Bool) (w : Nat) : Nat :=
  leastPos s w (fun e => e.fixed || (!tile && !e.tile)) (fun r => r.fixed || (!tile && !r.tile))

/-- One of the places offered, the last of the order first. -/
def pickPos (s : State) (key : Nat) : List Nat → Nat → Nat
  | [], top => top
  | p :: r, top => if r.isEmpty || !freeOrder s (key + p) then p else pickPos s key r top

/-- The places from `lo` to the top of a word's write order that `ok` accepts, the top first. -/
def placesDown (lo top : Nat) (ok : Nat → Bool) : List Nat :=
  ((List.range (top + 1)).filter (fun p => decide (lo ≤ p) && ok p)).reverse

/-- The value that a word has above its first `p` writes. -/
def valueAt (s : State) (g p : Nat) : Word :=
  match (writesOf s (g / 8))[p]? with
  | some e => e.old
  | none => wordAt s g

/-- How many of the writes of a word a read sees: it is unordered with tile moves, and a tile move with everything (R112). -/
def readPos (s : State) (tile : Bool) (g : Nat) : Nat :=
  let top := (writesOf s (g / 8)).length
  pickPos s (g / 8 * 64) (placesDown (readFloor s tile (g / 8)) top (fun _ => true)) top

/-- The 8-byte word at `g` as the hart's tile move or scalar access reads it. -/
def stripWord (s : State) (tile : Bool) (g : Nat) : Word := valueAt s g (readPos s tile g)

/-- Performs the store of a whole 8-byte word: memory, its poison mark (R416), an armed error. No hart's strip interval has made it
(R107). -/
def putWord (s : State) (g : Nat) (v : Word) (poison : Bool := false) : State :=
  let marks := if s.poisonWord.isEmpty && !poison then s.poisonWord else sset false s.poisonWord (g / 8) poison
  let s := { s with mem := putBytes s.mem g (toBytes 8 v.toNat), poisonWord := marks, writers := sset 0 s.writers (g / 8) 0 }
  strike s 1 (g / 8)

/-- A later write to a location lands after cy `upto`. -/
def writtenAfter (s : State) (l : Loc) (upto : Nat) : Bool := s.h.exposed.any (fun w => w.loc == l && decide (upto < w.upto))

/-- Element `e` of V`n` as it stands in its planes. -/
def storedBits (s : State) (n w e : Nat) : Nat := match (vreg s n).first with | some p => bitsAt s (spotOf s e) p w | none => 0

/-- The words of a stream decoded anew: the elements that it expands, those that only the last walk expanded as they were before, VL and
X[XB]. Where the words together are malformed, the last walk stands (log 25). -/
def redecode (q : Streamed) (upto : Nat) (s : State) : State :=
  let rd := fun off => (sget 0 q.words ((q.src + off) / 8), sget false s.poisonWord ((q.src + off) / 8))
  let D : Desc := ⟨q.fmt, q.width, q.sgn, 0⟩
  match walkStream rd D q.budget q.cap (q.cap + 1) [] 0 0 with
  | .malformed _ _ _ => s
  | .done items n off =>
    let new := items.filter (fun i => decide (q.first ≤ i.elem))
    let more := (new.filter (fun i => !q.before.any (fun b => b.1 == i.elem))).map (fun i => (i.elem, storedBits s q.vd q.width i.elem))
    let back := (q.before.filter (fun b => !new.any (fun i => i.elem == b.1))).map (fun b => (⟨b.1, b.2, false⟩ : Item))
    let s := if writtenAfter s (.v q.vd) upto then s else writeElems s q.vd q.width q.sgn (back ++ new)
    let s := if writtenAfter s (.x q.xb) upto then s else setX s (BitVec.ofNat 5 q.xb) (BitVec.ofNat 64 off)
    modCsr (modH s (fun h => { h with streams := h.streams.map (fun x => if x.at_ = q.at_ then { q with before := q.before ++ more } else x) }))
      (fun k => { k with vl := n })

/-- Writes the bits that a read of an earlier place left in its destinations, unless a later write to them lands after it. -/
def reland (s : State) (r : StripRead) (v : Word) : State :=
  let s := match (s.h.streams.find? (fun q => r.stream == some q.at_)) with
    | some q => redecode { q with words := sset 0 q.words r.word v } r.upto s
    | none => s
  r.parts.foldl (fun s p =>
    if writtenAfter s p.dst r.upto then s
    else match p.dst with
      | .x n => setX s (BitVec.ofNat 5 n) v
      | .v n => writeElems s n p.width p.sgn [⟨p.elem, match p.row with
          | some k => wrap p.width (recordWeight (v.toNat / 2 ^ p.bit % 2 ^ 32) k)
          | none => v.toNat / 2 ^ p.bit % 2 ^ p.width, false⟩]
      | _ => s) s

/-- Moves the reads of a word past a write that now stands at place `q`, where they are unordered with it and still landing (R112,
rule 5): the newest first, none past a later access of the hart that it precedes. `cap` and `capAll` bound the reads that keep program
order and those that a fence orders before later reads. -/
def rebindReads (tile : Bool) (g q : Nat) : Nat → Nat → List StripRead → State → List StripRead × State
  | _, _, [], s => ([], s)
  | cap, capAll, r :: rest, s =>
    if r.word != g / 8 then
      let (rs, s) := rebindReads tile g q cap capAll rest s
      (r :: rs, s)
    else
      let pos := if q < r.pos then r.pos + 1 else r.pos
      let es := writesOf s (g / 8)
      let own := ((List.range es.length).find? (fun i => decide (pos ≤ i) && (es[i]?).any (fun e => !e.tile))).getD es.length
      let lim := min (if r.tile then es.length else min cap own) (if r.seen then capAll else es.length)
      let moves := (tile || r.tile) && !r.fixed && decide (s.h.issueCy ≤ r.upto) && decide (pos ≤ q) && decide (q < lim) &&
        freeOrder s (2 ^ 80 + g / 8 * 1024 + rest.length)
      let pos := if moves then q + 1 else pos
      let s := if moves then reland s r (valueAt s g pos) else s
      let (rs, s) := rebindReads tile g q (if r.tile then cap else pos) (if r.seen then capAll else min capAll pos) rest s
      ({ r with pos } :: rs, s)

/-- Puts a write at place `q` among the writes of its word. -/
def insertWrite (w : StripWrite) : Nat → List StripWrite → List StripWrite
  | _, [] => [w]
  | q, e :: r =>
    if e.word != w.word then e :: insertWrite w q r
    else match q with
      | 0 => w :: e :: r
      | q + 1 => e :: insertWrite w q r

/-- The values beneath the writes of a word from place `q` on, `v` beneath that one. -/
def restack (word : Nat) : Nat → Word → List StripWrite → List StripWrite
  | _, _, [] => []
  | q, v, e :: r =>
    if e.word != word then e :: restack word q v r
    else match q with
      | 0 => { e with old := v } :: restack word 0 (blend e.mask e.val v) r
      | q + 1 => e :: restack word q v r

/-- The hart's store to the bits `mask` of a word, at place `q` of its write order: the writes above it keep the bits they wrote.
A store of part of a poisoned word leaves it poisoned. -/
def storeAt (s : State) (tile glued : Bool) (g q : Nat) (mask v : Word) (poison : Bool) : State :=
  let w := g / 8
  let es := writesOf s w
  let beneath := valueAt s g q
  let final := (es.drop q).foldl (fun acc e => blend e.mask e.val acc) (blend mask v beneath)
  let kept := if es.isEmpty then s.h.strip.filter (fun e => e.word != w) else s.h.strip
  let strip := restack w (q + 1) (blend mask v beneath)
    (insertWrite ⟨w, tile, s.h.issueCy, mask, v, beneath, false, false, glued⟩ q kept)
  let s := putWord s g final (poison || (mask != 0xffffffffffffffff && sget false s.poisonWord w))
  let s := modH { s with writers := sset 0 s.writers w (writerKey s.h) } (fun h => { h with strip })
  let (rs, s) := rebindReads tile g q (es.length + 1) (es.length + 1) s.h.stripReads s
  modH s (fun h => { h with stripReads := rs })

/-- A place from `lo` on that comes between no atomic's read and write. -/
def freePlace (s : State) (g lo : Nat) : Nat :=
  let es := writesOf s (g / 8)
  pickPos s (2 ^ 90 + g / 8 * 64) (placesDown lo es.length (fun p => !(es[p]?).any (fun e => e.glued))) es.length

/-- A hart's store: it may stand behind an unordered write of the same strip interval (R112, rule 4). -/
def stripStore (s : State) (tile : Bool) (g : Nat) (mask v : Word) (poison : Bool := false) : State :=
  storeAt s tile false g (freePlace s g (writeFloor s tile (g / 8))) mask v poison

/-- The place of an atomic in the write order of its word: its read and its write stand together (R303). -/
def atomPlace (s : State) (g : Nat) : Nat := freePlace s g (max (readFloor s false (g / 8)) (writeFloor s false (g / 8)))

/-- Reads at global addresses that later accesses of the hart that are no tile moves follow (R111, R295). A word that the strip interval has
not written needs no note. -/
def noteWords (s : State) (gs : List Nat) : State :=
  let ns := gs.filter (fun g => s.h.strip.any (fun e => e.word == g / 8))
  if ns.isEmpty then s
  else
    let notes : List StripRead := ns.map (fun g => ⟨false, g / 8, readPos s false g, 0, none, false, false, []⟩)
    modH s (fun h => { h with stripReads := notes ++ h.stripReads })

/-- A strip boundary (R112). -/
def closeStrip (s : State) : State :=
  modH { s with writers := s.writers.filter (fun e => e.2 != writerKey s.h) } (fun h => { h with strip := [], stripReads := [], streams := [] })

/-! Scalar accesses. -/

/-- What a scalar access comes to. -/
inductive Access where
  | ok (s : State) (vs : List Word)
  | trap (t : Trap)
  | poisoned (addr : Nat)

def violation (s : State) (kind addr : Nat) : State :=
  logViolation s (myGang s).part kind 1 addr s.h.idx s.h.gang

/-- The latency of a scalar read (R150, R357). -/
def loadLatency (s : State) (p : Place) : Nat :=
  match p with
  | .mem g =>
    if g < dieBase 0 then 12 else 52 + 120 * dieHops (dieOfCore s.h.core) ((g - dieBase 0) / 2 ^ 26)
  | .bad _ => 12
  | _ => 8

/-- Reads `n` dwords at aligned local address `ea` for a scalar load (R88, R90, R92, R417). -/
def scalarRead (s : State) (ea : Word) (n : Nat) : Access :=
  match homePlace s ea with
  | .bad k => .ok (violation s k ea.toNat) (List.replicate n 0)
  | .aperture _ _ _ => .ok s (List.replicate n 0)
  | .template off => .ok s ((List.range n).map (fun i => sget 0 s.templates (homeCluster s * 2048 + off / 8 + i)))
  | .desc off => .ok s ((List.range n).map (fun i => (bufAt s (homeCluster s) (off / 256)).dword (off / 8 % 32 + i)))
  | .mem g =>
    match tagCheck s (homeCluster s) ea.toNat (if ea.toNat < 0x1000000 then ea.toNat + 8 * n else 0) with
    | .error t => .trap t
    | .ok s =>
      match (List.range n).find? (fun i => sget false s.poisonWord (g / 8 + i)) with
      | some i => .poisoned (ea.toNat + 8 * i)
      | none => .ok s ((List.range n).map (fun i => stripWord s false (g + 8 * i)))

/-- Writes dwords at aligned local address `ea` for a scalar store; an aperture takes nothing here. -/
def scalarWrite (s : State) (ea : Word) (vs : List Word) : State :=
  match homePlace s ea with
  | .bad k => violation s k ea.toNat
  | .aperture _ _ _ => s
  | .template off => { s with templates := putDwords s.templates (homeCluster s * 2048 + off / 8) vs }
  | .desc off =>
    (List.range vs.length).foldl (fun s i =>
      setBuf s (homeCluster s) (off / 256) ((bufAt s (homeCluster s) (off / 256)).store (off / 8 % 32 + i) (vs.getD i 0))) s
  | .mem g => (List.range vs.length).foldl (fun s i => stripStore s false (g + 8 * i) 0xffffffffffffffff (vs.getD i 0)) s

/-- The strip entries of a load of `n` dwords at global address `g` into X`r` and on. -/
def loadNotes (s : State) (upto g n r : Nat) : List StripRead :=
  (List.range n).map (fun i =>
    ⟨false, (g + 8 * i) / 8, readPos s false (g + 8 * i), upto, none, false, false, [⟨Loc.x (r + i), 0, 0, 64, false, none⟩]⟩)

/-- Notes a load that may still be landing (R112, rule 5). -/
def noteLoad (s : State) (ea : Word) (n : Nat) (r : BitVec 5) : State :=
  match homePlace s ea with
  | .mem g =>
    let notes := loadNotes s (s.h.issueCy + loadLatency s (.mem g)) g n r.toNat
    modH s (fun h => { h with stripReads := notes ++ h.stripReads })
  | _ => s

end Sys2Proof.Machine
end

