-- ==== Sys2Proof/Machine/Translate.lean ====
section
/-! DEFINITION. HBM and virtual addresses (R93 to R105, R383, R391): region map, table walk, locked entries, migration and
replicated pages, and the reads and writes of the engines. -/
namespace Sys2Proof.Machine

def hbmBytes : Nat := 2 ^ 39

/-- A failed translation: the code of R383 and the syndrome. -/
structure XErr where
  code : Nat
  synd : Word
  deriving DecidableEq, Repr

/-- A translated address: the byte in HBM, its leaf entry with its level, the home die, and the address with its ASID. -/
structure Xlat where
  pa : Nat
  leaf : Word
  die : Nat
  level : Nat
  asid : Nat
  va : Nat
  deriving DecidableEq, Repr

def pteP (e : Word) : Bool := e.getLsbD 0
def pteLeaf (e : Word) : Bool := e.getLsbD 1
def pteW (e : Word) : Bool := e.getLsbD 56
def pteUsr (e : Word) : Bool := e.getLsbD 57
def pteG (e : Word) : Bool := e.getLsbD 58
def pteNs (e : Word) : Bool := e.getLsbD 59
def pteProp (e : Word) : Bool := e.getLsbD 60
def pteRepl (e : Word) : Bool := e.getLsbD 61
def pteMig (e : Word) : Bool := e.getLsbD 62
def ptePoison (e : Word) : Bool := e.getLsbD 63
/-- PA[47:11] as a byte address. -/
def pteAddr (e : Word) : Nat := e.toNat / 2 ^ 11 % 2 ^ 37 * 2 ^ 11
/-- A reserved bit is set (R98). -/
def pteRsv (e : Word) : Bool := e.toNat / 2 ^ 48 % 256 != 0 || e.toNat / 4 % 512 != 0

/-- The region-map entry that routes an address (R94): index and entry. -/
def regionOf (s : State) (part va : Nat) : Option (Nat × Word) :=
  let gib := va / 2 ^ 30 % 2 ^ 22
  let m := (partAt s part).region
  ((List.range 256).map (fun i => (i, sget 0 m i))).find? (fun e =>
    let b := e.2.toNat % 2 ^ 22
    let l := e.2.toNat / 2 ^ 22 % 2 ^ 22
    e.2.getLsbD 63 && decide (b ≤ gib) && decide (gib < b + (if l = 0 then 2 ^ 22 else l)))

/-- The home die of an address accessed from die `from_` (R94), or the region fault. -/
def homeDie (s : State) (part from_ va : Nat) : Except XErr (Nat × Nat × Bool) :=
  match regionOf s part va with
  | none => .error ⟨4, 0x100⟩
  | some (i, e) =>
    let loc := e.getLsbD 62
    let d := if loc then from_ else e.toNat / 2 ^ 60 % 4
    if partOfDie s d = some part then .ok (d, i, loc) else .error ⟨4, BitVec.ofNat 64 i⟩

/-- The dword of a table in HBM. -/
def tableWord (s : State) (pa : Nat) : Word := wordAt s pa

/-- A pointer to a table of `size` bytes is usable: aligned and inside HBM (R93, R97). -/
def tableOk (pa size : Nat) : Bool := pa % size == 0 && decide (pa + size ≤ hbmBytes)

/-- A frame is aligned: 64 KiB, or 16 MiB at level 1 (R98). -/
def frameOk (level : Nat) (e : Word) : Bool :=
  let pa := pteAddr e
  if level = 1 then pa % 2 ^ 24 == 0 && decide (pa < hbmBytes) else pa % 2 ^ 16 == 0 && decide (pa < hbmBytes)

/-- A table entry lies in a poisoned sector, so that the walk has no value to go on with (R361, R419). -/
def tablePoisoned (s : State) (pa : Nat) : Bool := s.poisonHbm.any (fun e => e.2 && e.1 == pa / 64)

/-- The walk of R97: the leaf, the physical address of its entry, and its level. Code 0x100 is a poisoned entry (log 72). -/
def walk (s : State) (part asid va : Nat) : Except XErr (Word × Nat × Nat) :=
  let a := (partAt s part).rpt.toNat % hbmBytes + 8 * asid
  let root := (tableWord s a).toNat
  let a0 := root + 8 * (va / 2 ^ 40 % 2 ^ 12)
  if tablePoisoned s a then .error ⟨0x100, 0⟩
  else if !tableOk root (2 ^ 15) then .error ⟨3, BitVec.ofNat 64 root⟩
  else
    let e0 := tableWord s a0
    if tablePoisoned s a0 then .error ⟨0x100, 0⟩
    else if !pteP e0 then .error ⟨1, e0⟩
    else if pteRsv e0 || pteLeaf e0 || !tableOk (pteAddr e0) (2 ^ 19) then .error ⟨3, e0⟩
    else
      let a1 := pteAddr e0 + 8 * (va / 2 ^ 24 % 2 ^ 16)
      let e1 := tableWord s a1
      if tablePoisoned s a1 then .error ⟨0x100, 0⟩
      else if !pteP e1 then .error ⟨1, e1⟩
      else if pteRsv e1 then .error ⟨3, e1⟩
      else if pteLeaf e1 then (if frameOk 1 e1 then .ok (e1, a1, 1) else .error ⟨3, e1⟩)
      else if !tableOk (pteAddr e1) (2 ^ 11) then .error ⟨3, e1⟩
      else
        let a2 := pteAddr e1 + 8 * (va / 2 ^ 16 % 2 ^ 8)
        let e2 := tableWord s a2
        if tablePoisoned s a2 then .error ⟨0x100, 0⟩
        else if !pteP e2 then .error ⟨1, e2⟩
        else if pteRsv e2 || !pteLeaf e2 || !frameOk 2 e2 then .error ⟨3, e2⟩
        else .ok (e2, a2, 2)

def pageSize (level : Nat) : Nat := if level = 1 then 2 ^ 24 else 2 ^ 16

/-- The key of a locked entry: partition, ASID, level, page. -/
def lockKey (part asid level va : Nat) : Nat :=
  ((part * 2 ^ 16 + asid) * 2 + (level - 1)) * 2 ^ 52 + va % 2 ^ 52 / pageSize level * pageSize level

/-- The leaf that translates an address, locked entries first (R99). -/
def leafOf (s : State) (part asid va : Nat) : Except XErr (Word × Nat) :=
  let l2 := sget 0 s.locked (lockKey part asid 2 va)
  let l1 := sget 0 s.locked (lockKey part asid 1 va)
  if l2 ≠ 0 then .ok (l2, 2) else if l1 ≠ 0 then .ok (l1, 1)
  else match walk s part asid va with
    | .ok (e, _, lv) => .ok (e, lv)
    | .error x => .error x

/-- The migration of the page that holds an address (R102). -/
def migrationOf (s : State) (part asid va : Nat) : Option Migration :=
  s.migrations.find? (fun m => m.part == part && m.asid == asid && decide (m.va ≤ va) && decide (va < m.va + 512 * m.chunks))

/-- The frame byte of an address: by the leaf, or for a page under migration by its chunk (R103); on a replicated page the copy
of die `d` (R101). -/
def frameByte (s : State) (part asid va : Nat) (leaf : Word) (level d : Nat) : Nat :=
  let size := pageSize level
  let off := va % size
  let base := match migrationOf s part asid va with
    | some m =>
      if pteRepl leaf && m.newPa / 2 ^ 37 % 4 != d then pteAddr leaf / size * size
      else if off / 512 < m.m then m.newPa else m.oldPa
    | none => pteAddr leaf / size * size
  let pa := base + off
  if pteRepl leaf then pa % 2 ^ 37 + d * 2 ^ 37 else pa

/-- Translates an access of a gang or of the host from die `from_` (R94, R97, R98, R101, R105). -/
def translate (s : State) (part asid from_ va : Nat) (write : Bool) : Except XErr Xlat :=
  match homeDie s part from_ va with
  | .error x => .error x
  | .ok (d, i, loc) =>
    match leafOf s part asid va with
    | .error x => .error x
    | .ok (leaf, lv) =>
      if pteRepl leaf != loc then .error ⟨4, BitVec.ofNat 64 i⟩
      else if !pteUsr leaf || (write && !pteW leaf) then .error ⟨2, leaf⟩
      else if ptePoison leaf then .error ⟨5, leaf⟩
      else .ok ⟨frameByte s part asid va leaf lv d, leaf, d, lv, asid, va⟩

/-- Armed errors that a write of HBM meets, sector by sector (R424). -/
def strikeHbm (pa n : Nat) (s : State) : State :=
  if s.armed.isEmpty then s else (List.range ((pa % 64 + n + 63) / 64)).foldl (fun s i => strike s 3 (pa / 64 + i)) s

/-- One step of a migration: the chunk at m goes to the new frame with its poison, its lines dropped, and m advances (R102,
R391). Writes on their way to the chunk and the stamps of its bytes follow it (R103, R126). -/
def copyMigrating (s : State) (m : Migration) : State :=
  let src := m.oldPa + 512 * m.m
  let dst := m.newPa + 512 * m.m
  let marks := (List.range 8).foldl (fun p k => sset false p (dst / 64 + k) (sget false p (src / 64 + k))) s.poisonHbm
  let tagsOf := sget [] s.caches.tags (src / 512)
  strikeHbm dst 512 { s with
    mem := putBytes s.mem dst (bytesAt s.mem src 512)
    poisonHbm := if s.poisonHbm.isEmpty then s.poisonHbm else marks
    caches := { s.caches with
      tags := sdrop s.caches.tags (fun k => k == src / 512 || k == dst / 512)
      sets := (s.caches.sets.map (fun e => (e.1, e.2.filter (fun t => !tagsOf.contains t)))).filter (fun e => !e.2.isEmpty) }
    replicas := s.replicas.map (fun r => if src ≤ r.pa ∧ r.pa < src + 512 then { r with pa := r.pa - src + dst } else r)
    stamps := (s.stamps.filter (fun e => decide (src ≤ e.1) && decide (e.1 < src + 512))).foldl
      (fun m e => sset (0, 0, 0, 0) (sset (0, 0, 0, 0) m e.1 (0, 0, 0, 0)) (e.1 - src + dst) e.2) s.stamps
    migrations := s.migrations.map (fun x => if x.n == m.n then { x with m := x.m + 1 } else x) }

/-- An access to the chunk being copied waits for its copy and then goes to the new frame (R103). -/
def settle (s : State) (part asid va : Nat) : State :=
  match migrationOf s part asid va with
  | some m => if (va - m.va) / 512 == m.m && decide (m.m < m.chunks) then copyMigrating s m else s
  | none => s

/-- Stores bytes of HBM; a write clears the poison of the sectors it reaches (R416). -/
def putHbm (s : State) (pa : Nat) (bs : List Byte) : State :=
  let marks := if s.poisonHbm.isEmpty then s.poisonHbm
    else s.poisonHbm.filter (fun e => !(decide (pa / 64 ≤ e.1) && decide (e.1 ≤ (pa + bs.length - 1) / 64)))
  strikeHbm pa bs.length { s with mem := putBytes s.mem pa bs, poisonHbm := marks }

/-- Whether some sector of the range is poisoned. -/
def hbmPoisoned (s : State) (pa n : Nat) : Bool :=
  s.poisonHbm.any (fun e => e.2 && decide (pa / 64 ≤ e.1) && decide (e.1 ≤ (pa + n - 1) / 64))

def replicaBefore (a b : Nat × Nat × Nat × Nat) : Bool :=
  decide (a.1 < b.1) || (a.1 == b.1 && (decide (a.2.1 < b.2.1) || (a.2.1 == b.2.1 &&
    (decide (a.2.2.1 < b.2.2.1) || (a.2.2.1 == b.2.2.1 && decide (a.2.2.2 < b.2.2.2))))))

/-- Applies a stamped write of a PROP = 0 page to one copy: every byte whose copy holds no later stamp (R126). -/
def applyStamped (s : State) (pa : Nat) (bs : List Byte) (st : Nat × Nat × Nat × Nat) : State :=
  (List.range bs.length).foldl (fun s i =>
    let old := sget (0, 0, 0, 0) s.stamps (pa + i)
    if replicaBefore st old then s
    else { putHbm s (pa + i) [bs.getD i 0] with stamps := sset (0, 0, 0, 0) s.stamps (pa + i) st }) s

/-! The memory-side caches and the translation buffers (R19, R95 to R97, R99, R100). -/

/-- The tag of a line (R95): VA and ASID, and the VA alone for a global page, with the level of the page; held one up. -/
def Xlat.tag (x : Xlat) (part : Nat) : Nat :=
  1 + ((x.va / 512 * 2 ^ 20 + part * 2 ^ 17 + (if pteG x.leaf then 2 ^ 16 else x.asid % 2 ^ 16)) * 2 + (x.level - 1))

/-- The entry of a page in a translation buffer: the tag of its first line. -/
def Xlat.pageTag (x : Xlat) (part : Nat) : Nat := { x with va := x.va / pageSize x.level * pageSize x.level }.tag part

/-- A tag is of a line of the page that holds `va`, whatever size that page had when the line was filled (R99). -/
def tagInPage (part asid va t : Nat) : Bool :=
  let k := (t - 1) / 2
  let size := pageSize ((t - 1) % 2 + 1)
  k / 2 ^ 17 % 8 == part && (k % 2 ^ 17 == asid % 2 ^ 16 || k % 2 ^ 17 == 2 ^ 16) && k / 2 ^ 20 * 512 / size == va / size

/-- The translation unit of a frame: each serves one of the two stacks of its die (R19, R93). -/
def unitOf (pa : Nat) : Nat := pa / 2 ^ 36

/-- VA[21:9] selects a set of the home die's cache (R95). -/
def Xlat.set (x : Xlat) : Nat := x.die * 2 ^ 16 + x.va / 512 % 2 ^ 13

def lineHere (s : State) (part : Nat) (x : Xlat) : Bool := (sget [] s.caches.sets x.set).contains (x.tag part)

/-- The driver has locked the translation (R99). -/
def pinned (s : State) (part asid va : Nat) : Bool :=
  sget 0 s.locked (lockKey part asid 2 va) != 0 || sget 0 s.locked (lockKey part asid 1 va) != 0

/-- Puts an entry into a list of at most `n`; a full list loses one that the pseudo-LRU replacement chooses, which the spec does not
fix further (R95, log 11). -/
def admitTag (s : State) (n key : Nat) (l : List Nat) (t : Nat) : List Nat :=
  if l.contains t then l
  else if l.length < n then l ++ [t]
  else l.set ((Config.freeBits s.free (2 ^ 400 + (t * 2 ^ 90 + s.cyc) * 2 ^ 22 + key)).toNat % n) t

/-- Brings the line of an access into the cache of its home die and, where the page is not pinned, its translation into the unit's
buffer: 16 ways and 16,384 entries (R19, R95, R97). -/
def noteLine (s : State) (part : Nat) (x : Xlat) : State :=
  let c := s.caches
  let old := sget [] c.tags (x.pa / 512)
  let here := lineHere s part x
  if here && old.contains (x.tag part) then s
  else
    let u := unitOf x.pa
    { s with caches := { c with
        tags := if old.contains (x.tag part) then c.tags else sset [] c.tags (x.pa / 512) (old ++ [x.tag part])
        sets := if here then c.sets else sset [] c.sets x.set (admitTag s 16 x.set (sget [] c.sets x.set) (x.tag part))
        tlb := if here || pinned s part x.asid x.va then c.tlb
          else sset [] c.tlb u (admitTag s 16384 (2 ^ 20 + u) (sget [] c.tlb u) (x.pageTag part)) } }

/-- A line that has been reached under two tags is mapped twice (R96). -/
def mappedTwice (s : State) (part : Nat) (x : Xlat) : Bool :=
  (sget [] s.caches.tags (x.pa / 512)).any (fun t => t != x.tag part)

/-- The bytes that an access reads at a translated address: a line mapped twice reads undefined bytes (R96). -/
def lineBytes (s : State) (part : Nat) (x : Xlat) (n : Nat) : List Byte :=
  if mappedTwice s part x then
    (List.range n).map (fun i => (Config.freeBits s.free (2 ^ 116 + x.pa + i)).setWidth 8)
  else bytesAt s.mem x.pa n

/-- A walk of `reads` tables on unit `u` for a page begins: at once, or when fewer than 16 are under way (R97). The cy it takes. -/
def startWalk (s : State) (u t reads : Nat) : State × Nat :=
  let ws := s.caches.walks.filter (fun w => decide (s.cyc < w.2.1))
  let first := match (ws.filter (fun w => w.1 == u))[15]? with | some w => w.2.1 | none => s.cyc
  let fin := first + 260 * reads
  let late := ws.filter (fun w => decide (fin < w.2.1))
  let rest := ws.filter (fun w => !decide (fin < w.2.1))
  ({ s with caches := { s.caches with walks := late ++ (u, fin, t) :: rest } }, fin - s.cyc)

/-- The level tables that a walk for an address reads (R97). -/
def walkReads (s : State) (part asid va : Nat) : Nat :=
  match walk s part asid va with
  | .ok (_, _, lv) => lv + 1
  | .error _ => 3

/-- An access of a chunk reaches the cache of the home die (R100): what its miss and its walk add, and the state that holds the line.
A walk takes place only on a miss, and never on a pinned page (R97, R99); one that fails reads three tables (log 11). -/
def fetchLine (s : State) (part asid from_ : Nat) (va : Nat) (write : Bool) : State × Nat × Nat :=
  match translate s part asid from_ va write with
  | .error _ =>
    if pinned s part asid va then (s, 0, 0)
    else
      let w := startWalk s (2 * from_) 0 3
      (w.1, 0, w.2)
  | .ok x =>
    if lineHere s part x then (noteLine s part x, 0, 0)
    else
      let u := unitOf x.pa
      let known := pinned s part asid va || (sget [] s.caches.tlb u).contains (x.pageTag part)
      let w := if known then (s, 0) else startWalk s u (x.pageTag part) (x.level + 1)
      (noteLine w.1 part x, 160, w.2)

/-- Drops the lines of a page and its translation, and what is known of their mapping (R99). -/
def dropPage (s : State) (part asid va : Nat) : State :=
  let keep := fun (l : List Nat) => l.filter (fun t => !tagInPage part asid va t)
  let clean := fun (m : Sparse (List Nat)) => (m.map (fun e => (e.1, keep e.2))).filter (fun e => !e.2.isEmpty)
  { s with caches := { s.caches with tags := clean s.caches.tags, sets := clean s.caches.sets, tlb := clean s.caches.tlb } }

/-- The first cy in which no walk for the page is under way (R99). -/
def walksOver (s : State) (part asid va : Nat) : Nat :=
  (s.caches.walks.filter (fun w => tagInPage part asid va w.2.2)).foldl (fun m w => max m w.2.1) s.cyc

/-- A store by issuer `issuer`, place `q` in its order, for hart `who`, from die `from_`: to one home, to every copy at once
(PROP = 1, R125), or to the issuing die's copy with the others to follow (PROP = 0, R126). Each die's copy lies where its frame is
(R101, R103). -/
def hbmStore (s : State) (part from_ issuer q : Nat) (x : Xlat) (bs : List Byte) (who : Nat × Nat := (0, 0)) : State :=
  if !pteRepl x.leaf then putHbm s x.pa bs
  else
    let dies := (List.range 4).filter (fun d => partOfDie s d == some part)
    let at' := fun d => frameByte s part x.asid x.va x.leaf x.level d
    let s := dies.foldl (fun s d => noteLine s part { x with die := d, pa := at' d }) s
    if pteProp x.leaf then dies.foldl (fun s d => putHbm s (at' d) bs) s
    else
      let st := (s.cyc, from_, issuer, q)
      let s := applyStamped { s with fresh := s.fresh + 1 } (at' from_) bs st
      (dies.filter (fun d => d != from_)).foldl (fun s d =>
        let s := { s with replicas := s.replicas ++ [⟨s.fresh, d, at' d, bs, st, who.1, who.2⟩], fresh := s.fresh + 1 }
        schedule s (s.cyc + 120 * dieHops from_ d) (.replicaApply (s.fresh - 1))) s

/-- Cuts a range at the 512-byte boundaries. -/
def pieces : Nat → Nat → Nat → List (Nat × Nat)
  | 0, _, _ => []
  | fuel + 1, a, n =>
    if n = 0 then []
    else
      let k := min n (512 - a % 512)
      (a, k) :: pieces fuel (a + k) (n - k)

def cut (a n : Nat) : List (Nat × Nat) := pieces (n / 512 + 2) a n

/-- A failed engine access: the address and the reason; code 0x100 is an uncorrectable sector. -/
structure AccessErr where
  va : Nat
  x : XErr
  deriving DecidableEq, Repr

/-- Reads bytes of the virtual space; only a `tolerant` read takes a poisoned sector as it stands. -/
def vaRead (s : State) (part asid from_ va n : Nat) (tolerant : Bool := false) : Except AccessErr (State × List Byte) :=
  (cut va n).foldl (fun acc p =>
    match acc with
    | .error e => .error e
    | .ok (s, bs) =>
      let s := settle s part asid p.1
      match translate s part asid from_ p.1 false with
      | .error x => .error ⟨p.1, x⟩
      | .ok x => if !tolerant && hbmPoisoned s x.pa p.2 then .error ⟨p.1, ⟨0x100, x.leaf⟩⟩
                 else .ok (noteLine s part x, bs ++ lineBytes s part x p.2)) (.ok (s, []))

/-- Writes bytes of the virtual space for hart `who`; a fault leaves the pieces before it written. The place of such a write in its
issuer's order is the count of identifiers given out (R126). -/
def vaWrite (s : State) (part asid from_ issuer va : Nat) (bs : List Byte) (who : Nat × Nat := (0, 0)) : State × Option AccessErr :=
  (cut va bs.length).foldl (fun acc p =>
    match acc with
    | (s, some e) => (s, some e)
    | (s, none) =>
      let s := settle s part asid p.1
      match translate s part asid from_ p.1 true with
      | .error x => (s, some ⟨p.1, x⟩)
      | .ok x => (hbmStore (noteLine s part x) part from_ issuer s.fresh x ((bs.drop (p.1 - va)).take p.2) who, none)) (s, none)

/-- A dword of the virtual space. -/
def vaDword (s : State) (part asid from_ va : Nat) : Except AccessErr Word :=
  match vaRead s part asid from_ va 8 with
  | .ok (_, bs) => .ok (BitVec.ofNat 64 (leNat bs))
  | .error e => .error e

/-- Dwords of the virtual space. -/
def vaDwords (s : State) (part asid from_ va n : Nat) : Except AccessErr (List Word) :=
  match vaRead s part asid from_ va (8 * n) with
  | .ok (_, bs) => .ok ((List.range n).map (fun i => BitVec.ofNat 64 (leNat ((bs.drop (8 * i)).take 8))))
  | .error e => .error e

end Sys2Proof.Machine
end

