-- ==== Sys2Proof/Machine/Swap.lean ====
section
/-! DEFINITION. Register residency (R49 to R52, R81 to R86, R369, R380, R382): the plane budget, spills, compaction, fills, and
the frame that every vector instruction runs in. -/
namespace Sys2Proof.Machine

/-! The backing area (R83). -/

def slotBytes (slots : Nat) (r : VReg) : Nat :=
  ceilDiv (256 * slots) 512 * 512 + 256 * slots * (r.entries * r.width) * 128

/-- VA of hart `h`'s backing area. -/
def backingVa (s : State) : Nat := (myGang s).launch.back.toNat + s.h.idx * (myGang s).launch.bsize
def dirVa (s : State) (r : VReg) (tile row : Nat) : Nat := backingVa s + r.slot + 256 * tile + row
def recordVa (s : State) (r : VReg) (tile row : Nat) : Nat :=
  backingVa s + r.slot + ceilDiv (256 * s.h.slots) 512 * 512 + (256 * tile + row) * (r.entries * r.width) * 128

def swapRead (s : State) (va n : Nat) (tolerant : Bool := false) : Except AccessErr (State × List Byte) :=
  let g := myGang s
  vaRead s g.part g.launch.asid (dieOfCore s.h.core) va n tolerant

/-- The translation of a virtual address as the swap unit reaches it. -/
def swapSpot (s : State) (va : Nat) : Except XErr Xlat :=
  translate s (myGang s).part (myGang s).launch.asid (dieOfCore s.h.core) va false

/-- The sector at a virtual address, or a table entry that its walk reads, is poisoned. -/
def swapPoisoned (s : State) (va : Nat) : Bool :=
  match swapSpot s va with
  | .ok x => sget false s.poisonHbm (x.pa / 64)
  | .error x => x.code == 0x100

/-- The record of a poisoned sector that a swap finds (R419 code 0x04). -/
def swapPoisonRecord (s : State) (va : Nat) : State :=
  addRecord s { (Record.blank s).about (myGang s) with
    agent := 6, pkg := dieOfCore s.h.core, cls := 0x12, code := 4, hart := s.h.idx, pc := s.h.pc, addr := BitVec.ofNat 64 va }

/-- A write of the swap unit. As the issuer of R126 it counts as 3,073: the rule names numbers for copies and BAR writes alone (log 69). -/
def swapWrite (s : State) (va : Nat) (bs : List Byte) : State × Option AccessErr :=
  let g := myGang s
  vaWrite s g.part g.launch.asid (dieOfCore s.h.core) 3073 va bs (s.h.gang, s.h.idx)

/-! Row records (R84). -/



/-- The raw record: each plane 128 bytes, lowest first. -/
def rawRecord (planes : List (BitVec 1024)) : List Byte := (planes.map (fun p => toBytes 128 p.toNat)).flatten

def pairNibbles : List Nat → List Byte
  | [] => []
  | [a] => [BitVec.ofNat 8 (a % 16)]
  | a :: b :: r => BitVec.ofNat 8 (a % 16 + 16 * (b % 16)) :: pairNibbles r

/-- Format and record of a row whose elements are `es` of width `w`; `zero` says that they and a table's further entries are all 0,
`raw` forces format 0x00, `table` allows 0x04 and 0x00. -/
def encodeRow (es : List Nat) (w : Nat) (zero table raw : Bool) (planes : List (BitVec 1024)) : Nat × List Byte :=
  let size := 128 * planes.length
  let base := es.getD (es.length / 2) 0
  let delta := fun v => signedOf w ((v + 2 ^ w - base) % 2 ^ w)
  let fits (lo hi : Int) := es.all (fun v => decide (lo ≤ delta v) && decide (delta v ≤ hi))
  if raw then (0, rawRecord planes)
  else if zero && decide (0 < size) then (4, [])
  else if table then (0, rawRecord planes)
  else if es.all (fun v => v == base) && decide (8 < size) then (3, toBytes 8 base)
  else if fits (-8) 7 && decide (8 + ceilDiv es.length 2 < size) then
    (2, toBytes 8 base ++ pairNibbles (es.map (fun v => (delta v % 16).toNat)))
  else if fits (-128) 127 && decide (8 + es.length < size) then
    (1, toBytes 8 base ++ es.map (fun v => BitVec.ofInt 8 (delta v)))
  else (0, rawRecord planes)

/-- Bytes of a record in memory, by its format byte. -/
def recordBytes (fmt rlen planes : Nat) : Nat :=
  match fmt with
  | 0 => 128 * planes | 1 => 8 + rlen | 2 => 8 + ceilDiv rlen 2 | 3 => 8 | _ => 0

/-- The elements that a compressed record holds. -/
def decodeRow (fmt rlen w : Nat) (bs : List Byte) : List Nat :=
  let base := leNat (bs.take 8) % 2 ^ w
  let at' := fun g => (bs.getD (8 + g) 0).toNat
  (List.range rlen).map (fun g =>
    let d : Int := match fmt with
      | 2 => signedOf 4 ((bs.getD (8 + g / 2) 0).toNat / (if g % 2 = 0 then 1 else 16) % 16)
      | 1 => signedOf 8 (at' g)
      | _ => 0
    if fmt = 4 then 0 else wrap w (base + d))

/-! Residency. -/

def isResident (r : VReg) : Bool := r.first.isSome

/-- A copy into the register is outstanding (R50, R87). -/
def copyInto (s : State) (n : Nat) : Bool :=
  s.copies.any (fun q => q.gang == s.h.gang && q.hart == s.h.idx && (q.tmpl.getD 0 0).toNat % 16 == 3 &&
    (q.tmpl.getD 3 0).toNat % 64 == n)

/-- Planes of the register region that some resident register holds. -/
def planeTaken (s : State) (p : Nat) : Bool :=
  (List.range 64).any (fun n =>
    let r := vreg s n
    match r.first with
    | some f => decide (f ≤ p) && decide (p < f + r.planes (foldOf s))
    | none => false)

def freePlanes (s : State) : Nat :=
  232 - (List.range 64).foldl (fun k n => if isResident (vreg s n) then k + (vreg s n).planes (foldOf s) else k) 0

/-- The lowest run of `len` free planes (R85). -/
def findRun (s : State) (len : Nat) : Option Nat :=
  (List.range 232).find? (fun i =>
    decide (i + len ≤ 232) && (List.range len).all (fun k => !planeTaken s (24 + i + k))) |>.map (24 + ·)

/-- The next register to evict (R50): least recently referenced, a tie to the higher number. -/
def victim (s : State) (keep : List Nat) (gone : List Nat) : Option Nat :=
  let cand := (List.range 64).filter (fun n =>
    isResident (vreg s n) && !keep.contains n && !gone.contains n && !copyInto s n)
  cand.foldl (fun best n => match best with
    | none => some n
    | some b => if (vreg s n).lastRef ≤ (vreg s b).lastRef then some n else some b) none

/-- The evictions that free `need` planes, in order; none when they cannot. -/
def planEvictions (s : State) (keep : List Nat) : Nat → Nat → List Nat → Nat → Option (List Nat)
  | 0, _, _, _ => none
  | fuel + 1, need, gone, free =>
    if need ≤ free then some gone.reverse
    else match victim s keep gone with
      | none => none
      | some n => planEvictions s keep fuel need (n :: gone) (free + (vreg s n).planes (foldOf s))

/-- The named registers, each once, ascending. -/
def namedRegs (names : List Named) : List Nat := (List.range 64).filter (fun n => names.any (fun x => x.reg == n))
def missing (s : State) (names : List Named) : List Nat := (namedRegs names).filter (fun n => !isResident (vreg s n))
def planesOf (s : State) (ns : List Nat) : Nat := ns.foldl (fun k n => k + (vreg s n).planes (foldOf s)) 0

/-- The plane-budget trap (R50, R369). -/
def budgetTrap (s : State) (names : List Named) : Option Trap :=
  let all := planesOf s (namedRegs names)
  let need := planesOf s (missing s names)
  if 232 < all then some (Trap.here s 7 1 (BitVec.ofNat 64 all))
  else if (planEvictions s (namedRegs names) 65 need [] (freePlanes s)).isNone
  then some (Trap.here s 7 2 (BitVec.ofNat 64 need))
  else none

def rowPlanes (s : State) (core row p d : Nat) : List (BitVec 1024) := (List.range d).map (fun k => planeAt s core row (p + k))

/-- Poison of the planes of one row. -/
def rowPoisoned (s : State) (core row p d : Nat) : Bool :=
  !s.poisonLane.isEmpty && (List.range d).any (fun k => (List.range 16).any (fun cw =>
    sget false s.poisonLane (core * 2 ^ 20 + row * 2 ^ 12 + (p + k) * 16 + cw)))

/-- The grant in force as a spill records it. -/
def grantNow (s : State) (byIndex : Bool) : SpillGrant :=
  let k := s.h.csr
  { fold := k.fold, rlen := k.rlen, rows := k.rows, tiles := k.tiles, vl := k.vl, byIndex
    fenced := (s.fencedRows.map (fun e => e.1)).filter (fun key =>
        decide (s.h.core * 256 ≤ key) && decide (key < (s.h.core + s.h.slots) * 256)) |>.map (· - s.h.core * 256) }

/-- Spills one row of a register: its record, its format byte, and the poison of the sectors (R84, R416). -/
def spillRow (s : State) (r : VReg) (p tile i : Nat) : State × Option AccessErr :=
  let k := s.h.csr
  let core := s.h.core + tile
  let row := physRow s core i
  let d := r.planes k.fold
  let planes := rowPlanes s core row p d
  let entry := fun j => (List.range k.rlen).map (fun g => bitsAt s ⟨core, row, k.fold * g⟩ (p + j * ceilDiv r.width k.fold) r.width)
  let es := entry 0
  let zero := (List.range r.entries).all (fun j => (entry j).all (fun v => v == 0))
  let bad := rowPoisoned s core row p d
  let (fmt, rec) := encodeRow es r.width zero (r.kind == 2) bad planes
  match swapWrite s (recordVa s r tile row) rec with
  | (s, some e) => (s, some e)
  | (s, none) =>
    let s := if bad then (List.range (2 * d)).foldl (fun s j =>
        let poisoned := (List.range 8).any (fun cw =>
          sget false s.poisonLane (core * 2 ^ 20 + row * 2 ^ 12 + (p + j / 2) * 16 + 8 * (j % 2) + cw))
        match swapSpot s (recordVa s r tile row + 64 * j) with
        | .ok x => if poisoned then { s with poisonHbm := sset false s.poisonHbm (x.pa / 64) true } else s
        | .error _ => s) s
      else s
    swapWrite s (dirVa s r tile row) [BitVec.ofNat 8 fmt]

/-- Every granted row of every granted tile, as (tile, row). -/
def grantedRows (s : State) : List (Nat × Nat) :=
  (allRows s).map (fun r => (r / s.h.csr.rows, r % s.h.csr.rows))

def swapTrap (s : State) (code : BitVec 8) (va : Nat) : Trap := Trap.here s 9 code (BitVec.ofNat 64 va)

/-- Runs a row operation over rows, stopping at the first fault. -/
def overRows (f : State → Nat → Nat → State × Option (BitVec 8 × Nat)) :
    State → List (Nat × Nat) → State × Option (BitVec 8 × Nat)
  | s, [] => (s, none)
  | s, (t, i) :: rest =>
    match f s t i with
    | (s, none) => overRows f s rest
    | (s, some e) => (s, some e)

/-- Spills register `n` and leaves it non-resident; a faulting spill leaves it resident (R382). -/
def spillReg (s : State) (n : Nat) (byIndex : Bool) : State × Option (BitVec 8 × Nat) :=
  let r := vreg s n
  match r.first with
  | none => (s, none)
  | some p =>
    match overRows (fun s t i => match spillRow s r p t i with
        | (s, none) => (s, none)
        | (s, some e) => (s, some (6, e.va))) s (grantedRows s) with
    | (s, some e) => (s, some e)
    | (s, none) =>
      (modH s (fun h => setVreg h n { r with first := none, fresh := false, spilled := some (grantNow s byIndex) }), none)

/-- Armed errors that a write of the `d` planes of a row from plane `p` on meets (R424). -/
def strikePlanes (core row p d : Nat) (s : State) : State :=
  if s.armed.isEmpty then s
  else (List.range (16 * d)).foldl (fun s i => strike s 0 (core * 2 ^ 20 + row * 2 ^ 12 + p * 16 + i)) s

/-- Moves the planes of a register down to plane `q`, row by row. -/
def movePlanes (s : State) (p q d : Nat) : State :=
  if p == q then s
  else (grantedRows s).foldl (fun s tr =>
    let core := s.h.core + tr.1
    let row := physRow s core tr.2
    strikePlanes core row q d ((List.range d).foldl (fun s k =>
      let v := planeAt s core row (p + k)
      let marks := fun pl => core * 2 ^ 20 + row * 2 ^ 12 + pl * 16
      let s := { s with planes := sset 0 (sset 0 s.planes (planeKey core row (p + k)) 0) (planeKey core row (q + k)) v }
      if s.poisonLane.isEmpty then s
      else { s with poisonLane := (List.range 16).foldl (fun m cw =>
              let b := sget false m (marks (p + k) + cw)
              sset false (sset false m (marks (p + k) + cw) false) (marks (q + k) + cw) b) s.poisonLane }) s)) s

/-- Compaction (R85): resident registers move down toward plane 24, in ascending order of first plane. -/
def compact (s : State) : State :=
  let res := ((List.range 232).map (· + 24)).filterMap (fun p => (List.range 64).find? (fun n => (vreg s n).first == some p))
  (res.foldl (fun (acc : State × Nat) n =>
    let (s, q) := acc
    let r := vreg s n
    let d := r.planes (foldOf s)
    match r.first with
    | some p => (modH (movePlanes s p q d) (fun h => setVreg h n { r with first := some q }), q + d)
    | none => (s, q)) (s, 24)).1

/-- Places registers in ascending order into runs of free planes; none when one finds no run. -/
def placeRegs : State → List Nat → Option State
  | s, [] => some s
  | s, n :: rest =>
    let r := vreg s n
    match findRun s (r.planes (foldOf s)) with
    | none => none
    | some p => placeRegs (modH s (fun h => setVreg h n { r with first := some p })) rest

/-- Clears a register's planes in one row, or sets them; codeword `cw` of plane `k` is poisoned where `bad k cw` says so (R416). -/
def setRow (s : State) (core row p : Nat) (planes : List (BitVec 1024)) (bad : Nat → Nat → Bool := fun _ _ => false) : State :=
  let d := planes.length
  let marks := (List.range (16 * d)).filter (fun i => bad (i / 16) (i % 16))
  let key := core * 2 ^ 20 + row * 2 ^ 12 + p * 16
  strikePlanes core row p d { s with
    planes := (List.range d).foldl (fun m k => sset 0 m (planeKey core row (p + k)) (planes.getD k 0)) s.planes
    poisonLane := marks.foldl (fun m i => sset false m (key + i) true)
      (sdrop s.poisonLane (fun k => decide (key ≤ k) && decide (k < key + 16 * d))) }

/-- Planes of one row from elements of width `w` at fold `f` (R34). -/
def planesOfElems (f w d : Nat) (es : List Nat) : List (BitVec 1024) :=
  (List.range d).map (fun k => BitVec.ofNat 1024
    ((List.range es.length).foldl (fun m g => m + (es.getD g 0 % 2 ^ w / 2 ^ (k * f) % 2 ^ f) * 2 ^ (f * g)) 0))

/-- The planes of a raw record. -/
def planesOfRaw (d : Nat) (bs : List Byte) : List (BitVec 1024) :=
  (List.range d).map (fun k => BitVec.ofNat 1024 (leNat ((bs.drop (128 * k)).take 128)))

/-- Poison that a record of format `fmt` gives codeword `cw` of plane `k`, by the marks of its sectors: a raw record holds half a
plane in each, another format what all its planes come from (R84, R416). -/
def recordPoison (fmt : Nat) (marks : List Bool) (k cw : Nat) : Bool :=
  if fmt = 0 then marks.getD (2 * k + cw / 8) false else marks.any id

/-- Reads the record of a row: format byte, bytes, and the poison of its sectors; the first poisoned one leaves its record. -/
def readRecord (s : State) (r : VReg) (tile row rlen d : Nat) :
    Except (BitVec 8 × Nat) (State × Nat × List Byte × List Bool) :=
  match swapRead s (dirVa s r tile row) 1 with
  | .error e => .error (6, e.va)
  | .ok (s, b) =>
    let fmt := (b.getD 0 0).toNat
    if 4 < fmt then .error (4, dirVa s r tile row)
    else match swapRead s (recordVa s r tile row) (recordBytes fmt rlen d) true with
      | .error e => .error (6, e.va)
      | .ok (s, bs) =>
        let vas := (List.range (ceilDiv bs.length 64)).map (fun j => recordVa s r tile row + 64 * j)
        let marks := vas.map (swapPoisoned s)
        .ok (match vas.find? (swapPoisoned s) with | some va => swapPoisonRecord s va | none => s, fmt, bs, marks)

/-- A fill that cannot go on at a virtual address; a poisoned sector there leaves its record. -/
def fillStop (s : State) (e : BitVec 8 × Nat) : State × Option (BitVec 8 × Nat) :=
  (if swapPoisoned s e.2 then swapPoisonRecord s e.2 else s, some e)

/-- Fills one row from the record of the same physical row (R84). -/
def fillRow (s : State) (r : VReg) (p tile i : Nat) : State × Option (BitVec 8 × Nat) :=
  let k := s.h.csr
  let core := s.h.core + tile
  let row := physRow s core i
  let d := r.planes k.fold
  let rlen := match r.spilled with | some g => g.rlen | none => k.rlen
  match readRecord s r tile row rlen d with
  | .error e => fillStop s e
  | .ok (s, fmt, bs, marks) =>
    let planes := if fmt = 0 then planesOfRaw d bs
      else if fmt = 4 then List.replicate d 0
      else planesOfElems k.fold r.width d (decodeRow fmt rlen r.width bs)
    (setRow s core row p planes (recordPoison fmt marks), none)

/-- The `i`-th row that `fenced` leaves in, of a tile. -/
def rowIn (fenced : List Nat) (tile i : Nat) : Nat :=
  ((List.range 256).filter (fun r => !fenced.contains (tile * 256 + r))).getD i 256

/-- All entry patterns of element `g` of a raw row (one entry for a vector register). -/
def rawElem (r : VReg) (fold : Nat) (planes : List (BitVec 1024)) (g : Nat) : List Nat :=
  (List.range r.entries).map (fun j => (List.range r.width).foldr (fun b acc =>
    acc + (if (planes.getD (j * ceilDiv r.width fold + b / fold) 0).getLsbD (fold * g + b % fold) then 2 ^ b else 0)) 0)

/-- Fills a register whose records were written under another fold, or before a row was fenced: element by element (R52). -/
def fillByIndex (s : State) (r : VReg) (p : Nat) (q : SpillGrant) : State × Option (BitVec 8 × Nat) :=
  let k := s.h.csr
  let dOld := r.planes q.fold
  let s := (grantedRows s).foldl (fun s tr =>
    setRow s (s.h.core + tr.1) (physRow s (s.h.core + tr.1) tr.2) p (List.replicate (r.planes k.fold) 0)) s
  let d := ceilDiv r.width k.fold
  overRows (fun s t i =>
    let row := rowIn q.fenced t i
    match readRecord s r t row q.rlen dOld with
    | .error e => fillStop s e
    | .ok (s, fmt, bs, marks) =>
      let es : List (List Nat) :=
        if fmt = 0 then (List.range q.rlen).map (rawElem r q.fold (planesOfRaw dOld bs))
        else (decodeRow fmt q.rlen r.width bs).map (fun v => List.replicate r.entries v)
      let base := (t * q.rows + i) * q.rlen
      ((List.range q.rlen).foldl (fun s g =>
        let e := base + g
        if e < q.vl ∧ e < k.rlen * k.rows * k.tiles then
          let sp := spotOf s e
          (List.range r.entries).foldl (fun s j =>
            let bad := (List.range (ceilDiv r.width q.fold)).any (fun k =>
              recordPoison fmt marks (j * ceilDiv r.width q.fold + k) (q.fold * g / 64))
            writeRow s sp.core sp.row (p + j * d) d [(sp.lane, (es.getD g []).getD j 0, bad)]) s
        else s) s, none)) s ((List.range (q.rows * q.tiles)).map (fun r => (r / q.rows, r % q.rows)))

/-- The spill whose records a fill places by index, not row by row (R52). -/
def VReg.placedByIndex (r : VReg) (fold : Nat) : Option SpillGrant :=
  match r.spilled with
  | some q => if q.byIndex || q.fold != fold then some q else none
  | none => none

/-- Fills register `n`, already given planes (R50, R81, R84); a faulting fill leaves it non-resident (R382). -/
def fillReg (s : State) (n : Nat) (bare : Bool) : State × Option (BitVec 8 × Nat) :=
  let r := vreg s n
  match r.first with
  | none => (s, none)
  | some p =>
    let zero := fun s : State => (grantedRows s).foldl (fun s tr =>
      setRow s (s.h.core + tr.1) (physRow s (s.h.core + tr.1) tr.2) p (List.replicate (r.planes (foldOf s)) 0)) s
    let (s, e) :=
      if bare || r.fresh then (zero s, none)
      else match r.placedByIndex (foldOf s) with
        | some q => fillByIndex s r p q
        | none => overRows (fun s t i => fillRow s r p t i) s (grantedRows s)
    match e with
    | some e => (modH s (fun h => setVreg h n { r with first := none }), some e)
    | none =>
      let q := if bare then none else r.spilled
      (modH s (fun h => setVreg h n { vregAt h n with
        fresh := false, spilled := some (q.getD (grantNow s false)) }), none)

def spillAll (s : State) (ns : List Nat) (byIndex : Bool) : State × Option (BitVec 8 × Nat) :=
  ns.foldl (fun acc n => match acc with
    | (s, none) => spillReg s n byIndex
    | bad => bad) (s, none)

/-- Planes that compaction moves: those of the registers whose place changes. -/
def planesMoved (s t : State) : Nat :=
  (List.range 64).foldl (fun k n =>
    if isResident (vreg s n) && (vreg s n).first != (vreg t n).first then k + (vreg s n).planes (foldOf s) else k) 0

/-- Bytes that one register moves in one tile: a directory byte and a record for each row that moves, those of the spill's grant where
the fill places them by index; for a first fill the directory alone (R81, R86). -/
def tileBytes (s : State) (r : VReg) (tile : Nat) : Nat :=
  let k := s.h.csr
  let rlen := match r.spilled with | some g => g.rlen | none => k.rlen
  let (rows, d) := match r.placedByIndex k.fold with
    | some q => ((List.range (if tile < q.tiles then q.rows else 0)).map (rowIn q.fenced tile), r.planes q.fold)
    | none => ((List.range k.rows).map (physRow s (s.h.core + tile)), r.planes k.fold)
  if r.fresh then k.rows
  else rows.foldl (fun m row =>
    match swapRead s (dirVa s r tile row) 1 with
    | .ok (_, b) => m + 1 + recordBytes (b.getD 0 0).toNat rlen d
    | .error _ => m + 1) 0

/-- The data term of a swap's cost (R86): by raw size in lockstep mode; in elastic mode by the bytes of the largest tile, whose
records stand in the register's backing slot. -/
def swapData (s : State) (n : Nat) : Nat :=
  if lockstep s then 4 * s.h.csr.rows * (vreg s n).planes (foldOf s)
  else
    let r := vreg s n
    let tiles := match r.placedByIndex (foldOf s) with | some q => max q.tiles s.h.csr.tiles | none => s.h.csr.tiles
    ceilDiv ((List.range tiles).foldl (fun m t => max m (tileBytes s r t)) 0) 32

/-- The cost of moving registers, each with a fixed part (R86). -/
def moveCost (s : State) (fixed : Nat) (ns : List Nat) : Nat := ns.foldl (fun k n => k + fixed + swapData s n) 0

/-- Adds the cost of a swap to what the instruction in progress waits for. -/
def addSwap (n : Nat) (s : State) : State := modH s (fun h => { h with swapCy := h.swapCy + n })

/-- Makes every named register resident (R50, R85, R86): spills, then compaction, then fills. A fault ends the swap where it
stands (R382). -/
def makeResident (s : State) (names : List Named) : Except (State × Trap) State :=
  let need := missing s names
  if need.isEmpty then .ok s
  else
    let plan := (planEvictions s (namedRegs names) 65 (planesOf s need) [] (freePlanes s)).getD []
    match spillAll s plan false with
    | (s, some e) => .error (s, swapTrap s e.1 e.2)
    | (s1, none) =>
      let tight := (placeRegs s1 need).isNone
      let s2 := if tight then compact s1 else s1
      let fills := need.filter (fun n => names.any (fun x => x.reg == n && x.fill))
      let s := addSwap (moveCost s1 40 plan + (if tight then planesMoved s1 s2 + 4 else 0) + moveCost s2 640 fills) s2
      match placeRegs s need with
      | none => .ok s
      | some placed =>
        -- each register takes its planes as it is filled, those without a fill once the fills are over (R382)
        let go := (fills ++ need.filter (fun n => !fills.contains n)).foldl (fun acc n => match acc with
          | (s, none) =>
            let s := modH s (fun h => setVreg h n { vregAt h n with first := (vreg placed n).first })
            fillReg s n (names.all (fun x => x.reg != n || !x.fill))
          | bad => bad) (s, (none : Option (BitVec 8 × Nat)))
        match go with
        | (s, some e) => .error (s, swapTrap s e.1 e.2)
        | (s, none) => .ok s

/-- Names the registers as referenced by an issued instruction (R50). -/
def touchRegs (s : State) (names : List Named) : State :=
  modH s (fun h =>
    let h := { h with refs := h.refs + 1 }
    (namedRegs names).foldl (fun h n => setVreg h n { vregAt h n with lastRef := h.refs }) h)

/-- SWAP: the swap unit makes the registers resident (R50). -/
def execSwap (regs : List (BitVec 6)) (s : State) : Out :=
  .next (match makeResident s (regs.map (fun r => { reg := r.toNat })) with
    | .ok s => s
    | .error (s, t) => takeTrap s t)

/-- The frame of an instruction that names vector registers: format (R368), plane budget (R369), the checks of step 7 of R347,
the swap, then the effect. `extra` is a class 0x04 check of codes 0x07 to 0x09. -/
def vecFrame (c : Ctl) (s : State) (used : List Opnd) (accept : Bool) (names : List Named) (extra early : Option Trap)
    (k : State → State) : Out :=
  let t := (formatTrap c s used accept names).orElse fun _ => extra.orElse fun _ =>
    (budgetTrap s names).orElse fun _ => early
  match t with
  | some t => .next (takeTrap s t)
  | none =>
    match makeResident s names with
    | .error (s, t) => .next (takeTrap s t)
    | .ok s => .next (k (touchRegs s names))

end Sys2Proof.Machine
end

