-- ==== Sys2Proof/Machine/VecInt.lean ====
section
/-! DEFINITION. Integer and logic instructions on vectors (R176 to R184). -/
namespace Sys2Proof.Machine

/-- A source register at the width of its descriptor. -/
def srcNamed (n : BitVec 6) (w : Nat) : Named := { reg := n.toNat, width := some w }
/-- A destination: given planes without a fill when it is written under P0 with Z = 0 (R50). -/
def dstNamed (c : Ctl) (n : BitVec 6) (w : Nat) : Named :=
  { reg := n.toNat, width := some w, fill := !(c.pred == 0 && !c.z) }

/-- Two sources and a destination: D.e = fit(f a b) (R178). -/
def vec3 (c : Ctl) (o : V3) (s : State) (f : Desc → Int → Int → Int) : Out :=
  let A := descOf c s .a
  let B := descOf c s .b
  let D := descOf c s .d
  vecFrame c s [.a, .b, .d] (intDesc A && intDesc B && intDesc D)
    [srcNamed o.va A.w, srcNamed o.vb B.w, dstNamed c o.vd D.w] none none (fun s =>
      retire c (writeElems s o.vd.toNat D.w D.sgn
        (results c s (fun e => wrap D.w (f D (elemInt s A o.va.toNat e) (elemInt s B o.vb.toNat e)))
          (fun e => elemPoisoned s o.va.toNat A.w e || elemPoisoned s o.vb.toNat B.w e))))

/-- As `vec3`, saturating, with FCSR.SAT (R57). -/
def vecSat (c : Ctl) (o : V3) (s : State) (f : Int → Int → Int) : Out :=
  let A := descOf c s .a
  let B := descOf c s .b
  let D := descOf c s .d
  vecFrame c s [.a, .b, .d] (intDesc A && intDesc B && intDesc D)
    [srcNamed o.va A.w, srcNamed o.vb B.w, dstNamed c o.vd D.w] none none (fun s =>
      let v := fun e => f (elemInt s A o.va.toNat e) (elemInt s B o.vb.toNat e)
      let bad := fun e => elemPoisoned s o.va.toNat A.w e || elemPoisoned s o.vb.toNat B.w e
      let hit := (actives c s).any (fun e => !bad e && clampInt D (v e) != v e)
      let s' := writeElems s o.vd.toNat D.w D.sgn (results c s (fun e => wrap D.w (clampInt D (v e))) bad)
      retire c (if hit then orFlags s' fSat else s'))

/-- A two's-complement operation on the infinite forms of operands of at most 64 bits (R178). -/
def bitwise (f : BitVec 66 → BitVec 66 → BitVec 66) (a b : Int) : Int := (f (BitVec.ofInt 66 a) (BitVec.ofInt 66 b)).toInt

def execVadd (c : Ctl) (o : V3) (s : State) : Out := vec3 c o s (fun _ a b => a + b)
def execVsub (c : Ctl) (o : V3) (s : State) : Out := vec3 c o s (fun _ a b => a - b)
def execVadds (c : Ctl) (o : V3) (s : State) : Out := vecSat c o s (fun a b => a + b)
def execVsubs (c : Ctl) (o : V3) (s : State) : Out := vecSat c o s (fun a b => a - b)
def execVmul (c : Ctl) (o : V3) (s : State) : Out := vec3 c o s (fun _ a b => a * b)
def execVmulh (c : Ctl) (o : V3) (s : State) : Out := vec3 c o s (fun D a b => a * b / 2 ^ D.w)
def execVmin (c : Ctl) (o : V3) (s : State) : Out := vec3 c o s (fun _ a b => min a b)
def execVmax (c : Ctl) (o : V3) (s : State) : Out := vec3 c o s (fun _ a b => max a b)
def execVand (c : Ctl) (o : V3) (s : State) : Out := vec3 c o s (fun _ a b => bitwise (fun x y => x &&& y) a b)
def execVor (c : Ctl) (o : V3) (s : State) : Out := vec3 c o s (fun _ a b => bitwise (fun x y => x ||| y) a b)
def execVxor (c : Ctl) (o : V3) (s : State) : Out := vec3 c o s (fun _ a b => bitwise (fun x y => x ^^^ y) a b)
def execVandn (c : Ctl) (o : V3) (s : State) : Out := vec3 c o s (fun _ a b => bitwise (fun x y => x &&& ~~~y) a b)
/-- VSHV: the amount clamped to −64 to 64 (R180). -/
def execVshv (c : Ctl) (o : V3) (s : State) : Out :=
  vec3 c o s (fun _ a b =>
    let n := max (-64) (min 64 b)
    if 0 ≤ n then a * 2 ^ n.toNat else a / 2 ^ (-n).toNat)

/-- A destination that is read as a source and written from A, B and the old D. -/
def vec3d (c : Ctl) (o : V3) (s : State) (f : Desc → Int → Int → Int → Int) : Out :=
  let A := descOf c s .a
  let B := descOf c s .b
  let D := descOf c s .d
  vecFrame c s [.a, .b, .d] (intDesc A && intDesc B && intDesc D)
    [srcNamed o.va A.w, srcNamed o.vb B.w, srcNamed o.vd D.w] none none (fun s =>
      retire c (writeElems s o.vd.toNat D.w D.sgn
        (results c s (fun e => wrap D.w (f D (elemInt s A o.va.toNat e) (elemInt s B o.vb.toNat e) (elemInt s D o.vd.toNat e)))
          (fun e => elemPoisoned s o.va.toNat A.w e || elemPoisoned s o.vb.toNat B.w e || elemPoisoned s o.vd.toNat D.w e))))

def execVmac (c : Ctl) (o : V3) (s : State) : Out := vec3d c o s (fun _ a b d => d + a * b)

/-- The three-input truth table on the low `w` bits (R181). -/
def truthTable (tt w : Nat) (a b d : Int) : Int :=
  (List.range w).foldr (fun k acc =>
    let bit := fun v : Int => if (wrap w v).testBit k then 1 else 0
    acc + (if tt.testBit (4 * bit d + 2 * bit b + bit a) then 2 ^ k else 0)) 0

def execVbool (c : Ctl) (o : V3) (s : State) : Out :=
  vec3d c o s (fun D a b d => truthTable (c.imm.toNat % 256) D.w a b d)

/-- One source and a destination, from the value and the pattern of A. -/
def vec1 (c : Ctl) (va vd : BitVec 6) (s : State) (f : Desc → Int → Nat → Int) : Out :=
  let A := descOf c s .a
  let D := descOf c s .d
  vecFrame c s [.a, .d] (intDesc A && intDesc D) [srcNamed va A.w, dstNamed c vd D.w] none none (fun s =>
    retire c (writeElems s vd.toNat D.w D.sgn
      (results c s (fun e => let p := elemBits s va.toNat A.w e; wrap D.w (f A (intVal A p) p))
        (fun e => elemPoisoned s va.toNat A.w e))))

def execVneg (c : Ctl) (o : VF) (s : State) : Out := vec1 c o.va o.vd s (fun _ a _ => -a)
def execVabs (c : Ctl) (o : VF) (s : State) : Out := vec1 c o.va o.vd s (fun _ a _ => (a.natAbs : Int))
def execVnot (c : Ctl) (o : VF) (s : State) : Out := vec1 c o.va o.vd s (fun _ a _ => -a - 1)
def execVmov (c : Ctl) (o : VF) (s : State) : Out := vec1 c o.va o.vd s (fun _ a _ => a)
/-- Leading zeros of a `w`-bit pattern. -/
def clzBits (w p : Nat) : Nat := if p = 0 then w else w - 1 - Nat.log2 p
def execVclz (c : Ctl) (o : VF) (s : State) : Out := vec1 c o.va o.vd s (fun A _ p => (clzBits A.w p : Int))
def execVpopc (c : Ctl) (o : VF) (s : State) : Out := vec1 c o.va o.vd s (fun A _ p => (popCount A.w p : Int))
def execVshl (c : Ctl) (o : VI) (s : State) : Out := vec1 c o.va o.vd s (fun _ a _ => a * 2 ^ (c.imm.toNat % 64))
def execVshr (c : Ctl) (o : VI) (s : State) : Out := vec1 c o.va o.vd s (fun _ _ p => (p : Int) / 2 ^ (c.imm.toNat % 64))
def execVsra (c : Ctl) (o : VI) (s : State) : Out := vec1 c o.va o.vd s (fun _ a _ => a / 2 ^ (c.imm.toNat % 64))

/-- VWIDE writes the declared width of VD with DESCD's signedness (R179). -/
def execVwide (c : Ctl) (o : VF) (s : State) : Out :=
  let A := descOf c s .a
  let D := descOf c s .d
  let w := (vreg s o.vd.toNat).width
  vecFrame c s [.a, .d] (intDesc A && intDesc D) [srcNamed o.va A.w, { dstNamed c o.vd D.w with width := none }] none none
    (fun s => retire c (writeElems s o.vd.toNat w D.sgn
      (results c s (fun e => wrap w (elemInt s A o.va.toNat e)) (fun e => elemPoisoned s o.va.toNat A.w e))))

/-- The condition of VCMP (R182). -/
def compareInt (cc : Nat) (a b : Int) : Bool :=
  match cc with
  | 0 => a == b | 1 => a != b | 2 => decide (a < b) | 3 => decide (a ≤ b) | 4 => decide (b < a) | _ => decide (b ≤ a)

def execVcmp (c : Ctl) (o : V3) (s : State) : Out :=
  let A := descOf c s .a
  let B := descOf c s .b
  vecFrame c s [.a, .b] (intDesc A && intDesc B) [srcNamed o.va A.w, srcNamed o.vb B.w] none none (fun s =>
    retire c (writePred s (o.vd.toNat % 16)
      (results c s (fun e => if compareInt c.minor.toNat (elemInt s A o.va.toNat e) (elemInt s B o.vb.toNat e) then 1 else 0)
        (fun e => elemPoisoned s o.va.toNat A.w e || elemPoisoned s o.vb.toNat B.w e))))

/-- VSEL writes every element below VL; PRED is its selector (R183). -/
def execVsel (c : Ctl) (o : V3) (s : State) : Out :=
  let A := descOf c s .a
  let B := descOf c s .b
  let D := descOf c s .d
  vecFrame c s [.a, .b, .d] (intDesc A && intDesc B && intDesc D)
    [srcNamed o.va A.w, srcNamed o.vb B.w, { reg := o.vd.toNat, width := some D.w, fill := false }] none none (fun s =>
      retire c (writeElems s o.vd.toNat D.w D.sgn ((elems s).map (fun e =>
        let p := predBit s c.pred.toNat e
        ⟨e, wrap D.w (if p then elemInt s A o.va.toNat e else elemInt s B o.vb.toNat e),
          (if p then elemPoisoned s o.va.toNat A.w e else elemPoisoned s o.vb.toNat B.w e) || predPoisoned s c.pred.toNat e⟩))))

/-- A destination written from the element index alone. -/
def vecIndex (c : Ctl) (vd : BitVec 6) (s : State) (f : Nat → Int) : Out :=
  let D := descOf c s .d
  vecFrame c s [.d] (intDesc D) [dstNamed c vd D.w] none none (fun s =>
    retire c (writeElems s vd.toNat D.w D.sgn (results c s (fun e => wrap D.w (f e)))))

def execVsplat (c : Ctl) (o : VX) (s : State) : Out :=
  vecIndex c o.vd s (fun _ => (rx s o.xa).toInt + c.imm.toInt)
def execViota (c : Ctl) (o : VX) (s : State) : Out :=
  vecIndex c o.vd s (fun e => (rx s o.xa).toInt + e)

/-- VLUT: entry i of the lane's table, 0 beyond it (R184). -/
def execVlut (c : Ctl) (o : V3) (s : State) : Out :=
  let A := descOf c s .a
  let B := descOf c s .b
  let D := descOf c s .d
  let n := (vreg s o.va.toNat).entries
  vecFrame c s [.a, .b, .d] (intDesc A && intDesc B && intDesc D)
    [{ srcNamed o.va A.w with table := true }, srcNamed o.vb B.w, dstNamed c o.vd D.w] none none (fun s =>
      retire c (writeElems s o.vd.toNat D.w D.sgn (results c s (fun e =>
          let i := elemBits s o.vb.toNat B.w e
          if i < n then wrap D.w (intVal A (entryBits s o.va.toNat A.w i e)) else 0)
        (fun e => elemPoisoned s o.vb.toNat B.w e ||
          (match (vreg s o.va.toNat).first with
           | some p => spotPoisoned s (spotOf s e) p (n * dOf s A.w)
           | none => false)))))

end Sys2Proof.Machine
end

