-- ==== Sys2Proof/Machine/CopyFields.lean ====
section
/-! DEFINITION. The fields of a copy's template (R257 to R273), the buffers of a walk, and the state of its carriages. -/
namespace Sys2Proof.Machine

def fieldOf (v hi lo : Nat) : Nat := v / 2 ^ lo % 2 ^ (hi - lo + 1)
def bitOf (v n : Nat) : Bool := v / 2 ^ n % 2 == 1
/-- A signed 32-bit field. -/
def stride32 (v : Nat) : Int := signedOf 32 (v % 2 ^ 32)
/-- Address arithmetic modulo 2^64 (R260). -/
def addr64 (a : Int) : Nat := (a % 2 ^ 64).toNat

/-- Dword `k` of a copy's template. -/
def Copy.dw (q : Copy) (k : Nat) : Nat := (q.tmpl.getD k 0).toNat
def Copy.kind (q : Copy) : Nat := fieldOf (q.dw 0) 3 0
def Copy.ssp (q : Copy) : Nat := fieldOf (q.dw 0) 5 4
def Copy.dsp (q : Copy) : Nat := fieldOf (q.dw 0) 7 6
def Copy.tb (q : Copy) : Nat := fieldOf (q.dw 0) 13 8
def Copy.tben (q : Copy) : Bool := bitOf (q.dw 0) 16
def Copy.ren (q : Copy) : Bool := bitOf (q.dw 0) 17
def Copy.esz (q : Copy) : Nat := 2 ^ fieldOf (q.dw 0) 19 18
def Copy.fof (q : Copy) : Bool := bitOf (q.dw 0) 20
def Copy.cvt (q : Copy) : Bool := bitOf (q.dw 0) 21
def Copy.ldcv (q : Copy) : Bool := bitOf (q.dw 0) 22
def Copy.follow (q : Copy) : Bool := bitOf (q.dw 0) 23
def Copy.dsel (q : Copy) : Bool := bitOf (q.dw 0) 24
def Copy.scl (q : Copy) : Nat := fieldOf (q.dw 0) 47 42
def Copy.dcl (q : Copy) : Nat := fieldOf (q.dw 0) 53 48
/-- Source and destination with DISP (R260). -/
def Copy.src (q : Copy) : Nat := if q.dsel || q.kind == 8 then q.dw 1 else addr64 (q.dw 1 + q.disp.toNat)
def Copy.dst (q : Copy) : Nat := if q.dsel then addr64 (q.dw 2 + q.disp.toNat) else q.dw 2
def Copy.vregNo (q : Copy) : Nat := fieldOf (q.dw 3) 5 0
def Copy.nrow (q : Copy) : Nat := fieldOf (q.dw 3) 47 32
def Copy.row0 (q : Copy) : Nat := fieldOf (q.dw 3) 31 16
def Copy.desc (q : Copy) : Desc := Desc.ofOvr (fieldOf (q.dw 3) 57 48)
/-- Destination bytes per source byte (R273). -/
def Copy.wide (q : Copy) : Nat := if q.cvt then 2 else 1

/-- Package cluster that issued the copy, and its die. -/
def Copy.cluster (q : Copy) : Nat := clusterOfCore q.core
def Copy.die (q : Copy) : Nat := dieOfCore q.core
/-- Package BTE number. -/
def Copy.bte (q : Copy) : Nat := q.chan / 16
/-- The cluster whose tile buffers the copy marks (R262). -/
def Copy.tbCluster (q : Copy) : Nat := if q.dsp = 3 then q.dcl else q.cluster

def Copy.ntb (q : Copy) : Nat := fieldOf (q.dw 3) 10 8 + 1
/-- The buffer of carriage `j` of a walk (R271). -/
def Copy.carBuf (q : Copy) (j : Nat) : Nat := (q.dw 3 + j % q.ntb) % 64
def Chunk.over (c : Chunk) : Bool := c.st == .landed || c.st == .abandoned

/-- Every chunk of carriage `j` has landed or is abandoned. -/
def carLanded (q : Copy) (j : Nat) : Bool := q.chunks.all (fun c => c.car != j || c.over)

end Sys2Proof.Machine
end

