-- ==== Sys2Proof/Machine/Scalar.lean ====
section
/-! DEFINITION. Scalar integer instructions (R154 to R157). -/
namespace Sys2Proof.Machine

/-- Writes the result to X`xd` and goes on. -/
def alu (c : Ctl) (xd : BitVec 5) (v : Word) (s : State) : Out := .next (retire c (setX s xd v))

def smin (a b : Word) : Word := if a.slt b then a else b
def smax (a b : Word) : Word := if a.slt b then b else a
def umin (a b : Word) : Word := if a.ult b then a else b
def umax (a b : Word) : Word := if a.ult b then b else a
def flag (b : Bool) : Word := if b then 1 else 0
/-- A shift amount: bits [5:0] (R154). -/
def amount (b : Word) : Nat := b.toNat % 64

def execAdd (c : Ctl) (o : X3) (s : State) : Out := alu c o.xd (rx s o.xa + rx s o.xb) s
def execSub (c : Ctl) (o : X3) (s : State) : Out := alu c o.xd (rx s o.xa - rx s o.xb) s
def execAnd (c : Ctl) (o : X3) (s : State) : Out := alu c o.xd (rx s o.xa &&& rx s o.xb) s
def execOr (c : Ctl) (o : X3) (s : State) : Out := alu c o.xd (rx s o.xa ||| rx s o.xb) s
def execXor (c : Ctl) (o : X3) (s : State) : Out := alu c o.xd (rx s o.xa ^^^ rx s o.xb) s
def execAndn (c : Ctl) (o : X3) (s : State) : Out := alu c o.xd (rx s o.xa &&& ~~~rx s o.xb) s
def execMin (c : Ctl) (o : X3) (s : State) : Out := alu c o.xd (smin (rx s o.xa) (rx s o.xb)) s
def execMax (c : Ctl) (o : X3) (s : State) : Out := alu c o.xd (smax (rx s o.xa) (rx s o.xb)) s
def execMinu (c : Ctl) (o : X3) (s : State) : Out := alu c o.xd (umin (rx s o.xa) (rx s o.xb)) s
def execMaxu (c : Ctl) (o : X3) (s : State) : Out := alu c o.xd (umax (rx s o.xa) (rx s o.xb)) s
def execSlt (c : Ctl) (o : X3) (s : State) : Out := alu c o.xd (flag ((rx s o.xa).slt (rx s o.xb))) s
def execSltu (c : Ctl) (o : X3) (s : State) : Out := alu c o.xd (flag ((rx s o.xa).ult (rx s o.xb))) s
def execSll (c : Ctl) (o : X3) (s : State) : Out := alu c o.xd (rx s o.xa <<< amount (rx s o.xb)) s
def execSrl (c : Ctl) (o : X3) (s : State) : Out := alu c o.xd (rx s o.xa >>> amount (rx s o.xb)) s
def execSra (c : Ctl) (o : X3) (s : State) : Out := alu c o.xd ((rx s o.xa).sshiftRight (amount (rx s o.xb))) s
/-- SEL reads X[XD] as its condition (R154). -/
def execSel (c : Ctl) (o : X3) (s : State) : Out := alu c o.xd (if rx s o.xd ≠ 0 then rx s o.xa else rx s o.xb) s

def execAddi (c : Ctl) (o : XI) (s : State) : Out := alu c o.xd (rx s o.xa + c.imm) s
def execAndi (c : Ctl) (o : XI) (s : State) : Out := alu c o.xd (rx s o.xa &&& c.imm) s
def execOri (c : Ctl) (o : XI) (s : State) : Out := alu c o.xd (rx s o.xa ||| c.imm) s
def execXori (c : Ctl) (o : XI) (s : State) : Out := alu c o.xd (rx s o.xa ^^^ c.imm) s
def execSlli (c : Ctl) (o : XI) (s : State) : Out := alu c o.xd (rx s o.xa <<< amount c.imm) s
def execSrli (c : Ctl) (o : XI) (s : State) : Out := alu c o.xd (rx s o.xa >>> amount c.imm) s
def execSrai (c : Ctl) (o : XI) (s : State) : Out := alu c o.xd ((rx s o.xa).sshiftRight (amount c.imm)) s
def execSlti (c : Ctl) (o : XI) (s : State) : Out := alu c o.xd (flag ((rx s o.xa).slt c.imm)) s
def execLi (c : Ctl) (o : XL) (s : State) : Out := alu c o.xd c.imm s
/-- LA: PC + 4 × immediate (R136, R155). -/
def execLa (c : Ctl) (o : XL) (s : State) : Out := alu c o.xd (s.h.pc + 4 * c.imm) s

/-- The signed quotient, rounded toward zero; −1 by zero (R156). -/
def sdivWord (a b : Word) : Word := if b = 0 then -1 else BitVec.ofInt 64 (Int.tdiv a.toInt b.toInt)
def sremWord (a b : Word) : Word := if b = 0 then a else BitVec.ofInt 64 (a.toInt - b.toInt * Int.tdiv a.toInt b.toInt)
def udivWord (a b : Word) : Word := if b = 0 then -1 else a / b
def uremWord (a b : Word) : Word := if b = 0 then a else a % b

def execMul (c : Ctl) (o : X3) (s : State) : Out := alu c o.xd (rx s o.xa * rx s o.xb) s
def execMulh (c : Ctl) (o : X3) (s : State) : Out :=
  alu c o.xd (BitVec.ofInt 64 ((rx s o.xa).toInt * (rx s o.xb).toInt / 2 ^ 64)) s
def execMulhu (c : Ctl) (o : X3) (s : State) : Out :=
  alu c o.xd (BitVec.ofNat 64 ((rx s o.xa).toNat * (rx s o.xb).toNat / 2 ^ 64)) s
def execDiv (c : Ctl) (o : X3) (s : State) : Out := alu c o.xd (sdivWord (rx s o.xa) (rx s o.xb)) s
def execDivu (c : Ctl) (o : X3) (s : State) : Out := alu c o.xd (udivWord (rx s o.xa) (rx s o.xb)) s
def execRem (c : Ctl) (o : X3) (s : State) : Out := alu c o.xd (sremWord (rx s o.xa) (rx s o.xb)) s
def execRemu (c : Ctl) (o : X3) (s : State) : Out := alu c o.xd (uremWord (rx s o.xa) (rx s o.xb)) s

/-- Leading and trailing zeros of a 64-bit value, 64 for zero (R157). -/
def clzWord (a : Word) : Nat := if a = 0 then 64 else 63 - Nat.log2 a.toNat
def ctzWord (a : Word) : Nat := ((List.range 64).find? (fun i => a.getLsbD i)).getD 64

/-- The field of EXT (R157). -/
def extField (a b : Word) : Word :=
  let lo := b.toNat % 64
  let w := min (b.toNat / 256 % 64 + 1) (64 - lo)
  let f := a.toNat / 2 ^ lo % 2 ^ w
  if b.getLsbD 16 && decide (2 ^ (w - 1) ≤ f) then BitVec.ofInt 64 ((f : Int) - 2 ^ w) else BitVec.ofNat 64 f

/-- INS (R157). -/
def insField (d a b : Word) : Word :=
  let lo := b.toNat % 64
  let w := b.toNat / 256 % 64 + 1
  let m : Word := BitVec.ofNat 64 ((2 ^ w - 1) * 2 ^ lo)
  (d &&& ~~~m) ||| ((a <<< lo) &&& m)

def execClz (c : Ctl) (o : X3) (s : State) : Out := alu c o.xd (BitVec.ofNat 64 (clzWord (rx s o.xa))) s
def execCtz (c : Ctl) (o : X3) (s : State) : Out := alu c o.xd (BitVec.ofNat 64 (ctzWord (rx s o.xa))) s
def execPopc (c : Ctl) (o : X3) (s : State) : Out := alu c o.xd (BitVec.ofNat 64 (popCount 64 (rx s o.xa).toNat)) s
def execExt (c : Ctl) (o : X3) (s : State) : Out := alu c o.xd (extField (rx s o.xa) (rx s o.xb)) s
def execIns (c : Ctl) (o : X3) (s : State) : Out := alu c o.xd (insField (rx s o.xd) (rx s o.xa) (rx s o.xb)) s

end Sys2Proof.Machine
end

