-- ==== Sys2Proof/Machine/LoadStore.lean ====
section
/-! DEFINITION. Scalar loads and stores (R158, R380, R381); STQ, which starts copies, stands in Transfer.lean. -/
namespace Sys2Proof.Machine

/-- The effective address: X[XA] plus the scaled offset (R136, R158). -/
def effAddr (s : State) (xa : BitVec 5) (imm : Word) (scale : Nat) : Word := rx s xa + imm * BitVec.ofNat 64 scale

def aligned (a : Word) (n : Nat) : Bool := a.toNat % n == 0

/-- Loads `n` dwords and hands state and values to `k`; a misaligned address traps before issue. -/
def loadThen (s : State) (ea : Word) (n : Nat) (k : State → List Word → State) : Out :=
  if !aligned ea (8 * n) then raise s 9 1 ea
  else match scalarRead s ea n with
    | .trap t => .next (takeTrap s t)
    | .poisoned a => .next (poisonEnd s (BitVec.ofNat 64 a))
    | .ok s vs => .next (k s vs)

def execLd (c : Ctl) (o : XI) (s : State) : Out :=
  let ea := effAddr s o.xa c.imm 8
  loadThen s ea 1 (fun s vs => retire c (noteLoad (setX s o.xd (vs.getD 0 0)) ea 1 o.xd))

/-- LDU also writes ea to X[XA]; the loaded data wins where XA = XD. -/
def execLdu (c : Ctl) (o : XI) (s : State) : Out :=
  let ea := effAddr s o.xa c.imm 8
  loadThen s ea 1 (fun s vs => retire c (noteLoad (setX (setX s o.xa ea) o.xd (vs.getD 0 0)) ea 1 o.xd))

def execLdq (c : Ctl) (o : XI) (s : State) : Out :=
  let ea := effAddr s o.xa c.imm 16
  loadThen s ea 2 (fun s vs =>
    retire c (noteLoad (setX (setX s o.xd (vs.getD 0 0)) (o.xd + 1) (vs.getD 1 0)) ea 2 o.xd))

def execSt (c : Ctl) (o : XI) (s : State) : Out :=
  let ea := effAddr s o.xa c.imm 8
  if !aligned ea 8 then raise s 9 1 ea
  else .next (retire c (scalarWrite s ea [rx s o.xd]))

end Sys2Proof.Machine
end

