-- ==== Sys2Proof/Machine/Monitors.lean ====
section
/-! DEFINITION. Monitor units and their alarms (R336, R425). A core's unit u has key 16 core + u; a cluster's and a die's,
2^16 + 16 b + u with b the package cluster number, or 48 + die. -/
namespace Sys2Proof.Machine

def MonUnit.init : MonUnit := ⟨0, 0xffffffffffffffff, 0, 0, 0, 0, 1, Vector.replicate 32 0, 0⟩

def monAt (s : State) (key : Nat) : MonUnit := sget MonUnit.init s.monitors key
def setMon (s : State) (key : Nat) (u : MonUnit) : State := { s with monitors := sset MonUnit.init s.monitors key u }

/-- A unit as a read finds it: in the cy of an update as it was before it (R336). -/
def monSeen (s : State) (key : Nat) : MonUnit :=
  match s.monBefore.find? (fun x => x.cyc == s.cyc && x.key == key) with
  | some x => x.unit
  | none => monAt s key

/-- Notes a unit as it stands before its first update in this cy. -/
def noteMon (s : State) (key : Nat) : State :=
  let now := s.monBefore.filter (fun x => x.cyc == s.cyc)
  { s with monBefore := if now.any (fun x => x.key == key) then now else now ++ [⟨s.cyc, key, monAt s key⟩] }

/-- Changes a unit by a write of a register; what was noted of it changes alike. -/
def changeMon (s : State) (key : Nat) (f : MonUnit → MonUnit) : State :=
  setMon { s with monBefore := s.monBefore.map (fun x => if x.key = key then { x with unit := f x.unit } else x) } key (f (monAt s key))

/-- Register `i` of a unit. -/
def MonUnit.read (u : MonUnit) (i : Nat) : Word :=
  match i with
  | 0 => u.cfg | 1 => u.min | 2 => u.max | 3 => u.count | 4 => u.sum | 5 => u.binLo | 6 => u.binW | 7 => u.alarm
  | n =>
    let b := fun k => (u.hist.toList.getD (4 * (n - 8) + k) 0).setWidth 64
    b 0 ||| (b 1 <<< 16) ||| (b 2 <<< 32) ||| (b 3 <<< 48)

/-- A write of register `i`: RO registers and bits ignore it; register 0 clears the capture; ALM is cleared by a written 1. -/
def MonUnit.write (u : MonUnit) (i : Nat) (v : Word) : MonUnit :=
  match i with
  | 0 => { MonUnit.init with cfg := v &&& 0xc000ffff, binLo := u.binLo, binW := u.binW, alarm := u.alarm }
  | 5 => { u with binLo := v }
  | 6 => { u with binW := v }
  | 7 => { u with alarm := (v &&& 0x4000ffffffffffff) ||| (u.alarm &&& ~~~v &&& 0x8000000000000000) }
  | _ => u

def MonUnit.en (u : MonUnit) : Bool := u.cfg.getLsbD 31
def MonUnit.event (u : MonUnit) : Nat := u.cfg.toNat % 65536

/-- A unit that samples every 1,024 cy (R336). -/
def MonUnit.periodic (u : MonUnit) : Bool := u.en && decide (4 ≤ u.event) && decide (u.event ≤ 6)

/-- The next sample of such a unit: in the next cy that 1,024 divides (log 60), of a quantity outside the model and so a free value. -/
def nextSample (s : State) (key : Nat) : State :=
  let mine := fun (e : Nat × Event) => match e.2 with | .monitorSample k _ => k == key | _ => false
  if !(monAt s key).periodic || s.calendar.any (fun e => decide (s.cyc < e.1) && mine e) then s
  else
    let v := (Config.freeBits s.free (2 ^ 119 + key)).toNat
    { schedule s ((s.cyc / 1024 + 1) * 1024) (.monitorSample key v) with free := s.free + 1 }

def writeMon (s : State) (key i : Nat) (v : Word) : State := nextSample (changeMon s key (fun u => u.write i v)) key

/-- The bin of a sample (R336). -/
def MonUnit.bin (u : MonUnit) (v : Nat) : Nat :=
  let lo := u.binLo.toNat
  if v ≤ lo then 0
  else if u.cfg.getLsbD 30 then Nat.min (Nat.log2 (v - lo) + 1) 31
  else Nat.min ((v - lo) / Nat.max u.binW.toNat 1) 31

/-- A sample taken while capture is on, and whether ALM goes from 0 to 1. -/
def MonUnit.sample (u : MonUnit) (v : Nat) : MonUnit × Bool :=
  if !u.en || !(decide (1 ≤ u.event) && decide (u.event ≤ 6)) then (u, false)
  else
    let w := BitVec.ofNat 64 v
    let b := u.bin v
    let old := u.hist.toList.getD b 0
    let beyond := u.alarm.getLsbD 62 && decide (u.alarm.toNat % 2 ^ 48 < v)
    let up := beyond && !u.alarm.getLsbD 63
    ({ u with
        min := if w.toNat < u.min.toNat then w else u.min
        max := if u.max.toNat < w.toNat then w else u.max
        count := u.count + 1
        sum := u.sum + w
        hist := u.hist.setIfInBounds b (if old = 0xffff then old else old + 1)
        alarm := if beyond then u.alarm ||| 0x8000000000000000 else u.alarm }, up)

/-- The die a unit belongs to. -/
def monDie (key : Nat) : Nat :=
  if key < 2 ^ 16 then dieOfCore (key / 16)
  else if (key - 2 ^ 16) / 16 < 48 then (key - 2 ^ 16) / 16 / 12 else (key - 2 ^ 16) / 16 - 48

/-- One sample into one unit, with the alarm's message (R425). -/
def sampleUnit (s : State) (key v : Nat) : State :=
  let (u, up) := (monAt s key).sample v
  let s := setMon (noteMon s key) key u
  if up then match partOfDie s (monDie key) with
    | some p => sendMsi s p 2
    | none => s
  else s

/-- An occurrence of event `ev` on core `core`: every unit of the core, its cluster and its die set to that event samples it. -/
def sampleEvent (s : State) (core ev v : Nat) : State :=
  if s.monitors.isEmpty then s
  else
    let blocks := [16 * core, 2 ^ 16 + 16 * clusterOfCore core, 2 ^ 16 + 16 * (48 + dieOfCore core)]
    blocks.foldl (fun s b => (List.range 16).foldl (fun s u =>
      if (monAt s (b + u)).event == ev then sampleUnit s (b + u) v else s) s) s

/-- MONITOR_CONFIG_WRITE: a write of register 0 (R336). -/
def execMonitorConfigWrite (unit : Nat) (v : Word) (s : State) : Out := .next (writeMon s unit 0 v)

/-- MONITOR_SAMPLE (R336, R425): a unit with one of the events 4 to 6 samples once in every cy that 1,024 divides. -/
def execMonitorSample (unit v : Nat) (s : State) : Out :=
  .next (if !(monAt s unit).periodic then sampleUnit s unit v
    else if s.cyc % 1024 != 0 || s.monBefore.any (fun x => x.cyc == s.cyc && x.key == unit) then s
    else nextSample (sampleUnit s unit v) unit)

/-- ALARM_CLEAR: a written 1 clears ALM (R425). -/
def execAlarmClear (unit : Nat) (s : State) : Out :=
  .next (changeMon s unit (fun u => { u with alarm := u.alarm &&& 0x7fffffffffffffff }))

end Sys2Proof.Machine
end

