-- ==== Sys2Proof/Machine/VecSetup.lean ====
section
/-! DEFINITION. The shape of the vector and the declarations: SETVL (R31 to R33, R52, R170, R171, R420), VDECL (R173, R174),
VQRY (R175). -/
namespace Sys2Proof.Machine

/-- Holds the hart in an instruction that cannot go on yet: nothing else changes and the pc stays. -/
def holdFor (s : State) (on : WaitFor) (i : Instr) : State :=
  modH s (fun h => { h with wait := some ⟨on, i, s.cyc, none⟩, issued := false })

/-- The largest of 1, 2, 4 and 8 that does not exceed the request; 1 for 0 (R31). -/
def grantFold (f : Nat) : Nat := if 8 ≤ f then 8 else if 4 ≤ f then 4 else if 2 ≤ f then 2 else 1

/-- Tile slots before the first slot on a die not attached to the partition (R31, step 3). -/
def attachedSlots (s : State) : Nat :=
  ((List.range s.h.slots).takeWhile (fun t => partOfDie s (dieOfCore (s.h.core + t)) == some (myGang s).part)).length

/-- Unfenced rows of a core (R27, R31). -/
def unfencedRows (s : State) (core : Nat) : Nat := 256 - (s.failedRows.filter (fun e => e.2 && e.1 / 256 == core)).length

/-- A grant of R31. -/
structure Grant where
  fold : Nat
  rlen : Nat
  rows : Nat
  tiles : Nat
  deriving DecidableEq, Repr

def Grant.vl (g : Grant) : Nat := g.rlen * g.rows * g.tiles

/-- The grant of SETVL (R31). DESIGN CHOICE (log 71): with no tile granted, the least count of unfenced rows over the granted tiles is
taken as 256. -/
def grantOf (s : State) (req : Word) : Grant :=
  let fold := grantFold (req.toNat / 2 ^ 48 % 16)
  let rlen := min (req.toNat % 65536) (1024 / fold)
  let tiles := min (req.toNat / 2 ^ 32 % 65536) (attachedSlots s)
  let least := (List.range tiles).foldl (fun m t => min m (unfencedRows s (s.h.core + t))) 256
  ⟨fold, rlen, min (req.toNat / 65536 % 65536) least, tiles⟩

/-- Some row of the hart's tiles has failed since the grant in force (R420). -/
def rowsStale (s : State) : Bool :=
  let mine := fun (m : Sparse Bool) => m.filter (fun e => decide (s.h.core ≤ e.1 / 256) && decide (e.1 / 256 < s.h.core + s.h.slots))
  mine s.failedRows != mine s.fencedRows

/-- Clears one row of the array: every plane and its poison (R32). -/
def clearRow (s : State) (core row : Nat) : State :=
  { s with
    planes := sdrop s.planes (fun k => k / 256 == core * 256 + row)
    poisonLane := sdrop s.poisonLane (fun k => k / 4096 == core * 256 + row) }

/-- The rows that leave the grant lose their contents (R32). -/
def gateRows (s : State) (g : Grant) : State :=
  (grantedRows s).foldl (fun s tr =>
    if tr.1 < g.tiles ∧ tr.2 < g.rows then s
    else clearRow s (s.h.core + tr.1) (physRow s (s.h.core + tr.1) tr.2)) s

/-- Takes the failed rows of the hart's cores out of the grants to come. -/
def adoptFences (s : State) : State :=
  let mine := fun (e : Nat × Bool) => decide (s.h.core ≤ e.1 / 256) && decide (e.1 / 256 < s.h.core + s.h.slots)
  let kept := s.fencedRows.filter (fun e => !mine e)
  { s with fencedRows := (s.failedRows.filter mine).foldl (fun m e => sset false m e.1 true) kept }

/-- SETVL after its waits (R171): spills, gating, the grant, generators, strip. -/
def setvlCore (c : Ctl) (o : X3) (s : State) : State :=
  let g := grantOf s (rx s o.xa)
  let spill := g.fold != s.h.csr.fold || rowsStale s
  let resident := (List.range 64).filter (fun n => isResident (vreg s n))
  match (if spill then spillAll s resident true else (s, none)) with
  | (s, some e) => takeTrap s (swapTrap s e.1 e.2)
  | (s, none) =>
    let cost := if spill then moveCost s 40 resident else 0
    let s := gateRows s g
    let s := if rowsStale s then adoptFences s else s
    let s := modCsr s (fun k => { k with fold := g.fold, rlen := g.rlen, rows := g.rows, tiles := g.tiles, vl := g.vl })
    retire c (setX (closeStrip (resetGens (addSwap cost s))) o.xd (BitVec.ofNat 64 g.vl))

/-- A copy into some register of the hart is outstanding (R87). -/
def anyCopyInto (s : State) : Bool := (List.range 64).any (copyInto s)

def execSetvl (c : Ctl) (o : X3) (s : State) : Out :=
  if (grantOf s (rx s o.xa)).fold != s.h.csr.fold && anyCopyInto s then .next (holdFor s .tclr (.setvl c o))
  else .next (setvlCore c o s)

/-- A register-map entry (R81). -/
def VReg.entry (r : VReg) : Nat :=
  r.entm.toNat * 2 ^ 16 + r.kind.toNat * 2 ^ 14 + (if r.init then 64 else 0) + r.wm.toNat

/-- The declaration of an entry, nothing resident and no slot. -/
def VReg.ofEntry (v : Nat) : VReg :=
  let init := v / 64 % 2 == 1
  { VReg.undeclared with kind := BitVec.ofNat 2 (v / 2 ^ 14), wm := BitVec.ofNat 6 v, entm := BitVec.ofNat 6 (v / 2 ^ 16)
                         init, fresh := !init }

/-- R368 code 0x06. -/
def entryBad (v : Nat) : Bool :=
  v / 2 ^ 22 != 0 || v / 2 ^ 7 % 2 ^ 7 != 0 || v / 2 ^ 14 % 4 == 3 || (v / 2 ^ 14 % 4 == 1 && v / 2 ^ 16 % 64 != 0)

/-- A table of more planes than the budget has, at any fold (R82). -/
def tableTooBig (r : VReg) : Bool := r.kind != 0 && decide (232 < r.entries * r.width)

def roundUp (a n : Nat) : Nat := ceilDiv a n * n

/-- VDECL's checks: R368 code 0x06, R369 code 0x03, R380 code 0x05. -/
def vdeclTrap (s : State) (n v : Nat) : Option Trap :=
  let r := VReg.ofEntry v
  let size := slotBytes s.h.slots r
  let fin := roundUp s.h.slotEnd 512 + size
  (trapIf (entryBad v) (Trap.here s 4 6 (BitVec.ofNat 64 v))).orElse fun _ =>
  (trapIf (tableTooBig r) (Trap.here s 7 3 (BitVec.ofNat 64 (r.entries * r.width)))).orElse
  fun _ => trapIf (r.kind != 0 && decide ((vreg s n).slotSize < size) && decide ((myGang s).launch.bsize < fin))
    (Trap.here s 9 5 (BitVec.ofNat 64 fin))

/-- The new declaration with its slot (R173, R174). -/
def declare (h : Hart) (n v : Nat) : Hart :=
  let old := vregAt h n
  let r := VReg.ofEntry v
  let size := slotBytes h.slots r
  if r.kind == 0 || decide (size ≤ old.slotSize) then
    setVreg h n { r with slot := old.slot, slotSize := old.slotSize, lastRef := old.lastRef }
  else
    let a := roundUp h.slotEnd 512
    { setVreg h n { r with slot := a, slotSize := size, lastRef := old.lastRef } with slotEnd := a + size }

def execVdecl (c : Ctl) (o : VX) (s : State) : Out :=
  let v := (rx s o.xa).toNat % 2 ^ 32
  match vdeclTrap s o.vd.toNat v with
  | some t => .next (takeTrap s t)
  | none =>
    if copyInto s o.vd.toNat then .next (holdFor s .tclr (.vdecl c o))
    else .next (retire c (modH s (fun h => declare h o.vd.toNat v)))

/-- The answer of VQRY (R175). DESIGN CHOICE: queries 0 and 1 of an undeclared VD answer with its bookkeeping and raise no trap, since
VQRY reads no operand of VD (log 14). -/
def vqryAnswer (s : State) (n : Nat) (q : Word) : Nat :=
  let r := vreg s n
  let slot := q.toNat / 65536 % 65536
  match q.toNat % 256 with
  | 0 => r.entry + (if isResident r then 2 ^ 32 else 0) + (if copyInto s n then 2 ^ 33 else 0) + r.first.getD 0 * 2 ^ 40
  | 1 => r.slot
  | 2 => if slot < s.h.slots then unfencedRows s (s.h.core + slot) else 0
  | 3 => attachedSlots s
  | _ => 0

def execVqry (c : Ctl) (o : VX) (s : State) : Out :=
  let s' := if (rx s o.xa).toNat % 256 < 2 then touchRegs s [{ reg := o.vd.toNat }] else s
  alu c o.xb (BitVec.ofNat 64 (vqryAnswer s o.vd.toNat (rx s o.xa))) s'

end Sys2Proof.Machine
end

