-- ==== Sys2Proof/Machine/TileMove.lean ====
section
/-! DEFINITION. Tile moves (R89, R193 to R195, R380, R397) and landed state: TWAIT, TCLR, TQRY (R92, R196 to R198, R394). -/
namespace Sys2Proof.Machine

/-- The span delay H of R37: the largest die-hop distance from the home die to a granted tile. -/
def Hart.span (h : Hart) : Nat :=
  (List.range h.csr.tiles).foldl (fun m t => max m (dieHops (dieOfCore h.core) (dieOfCore (h.core + t)))) 0

def spanOf (s : State) : Nat := s.h.span

/-- The container width (R193). -/
def container (w : Nat) : Nat :=
  if w ≤ 1 then 1 else if w ≤ 2 then 2 else if w ≤ 4 then 4 else if w ≤ 8 then 8 else if w ≤ 16 then 16 else if w ≤ 32 then 32
  else 64

/-- A tile move: its base, the signed stride of TLDX and TSTX, the container width. -/
structure Move where
  base : Word
  stride : Option Word
  cw : Nat

/-- Bit offset of an element's container from base·8 (R193). -/
def Move.pos (m : Move) (s : State) (e : Nat) : Int :=
  match m.stride with
  | none => ((e * m.cw : Nat) : Int)
  | some st => ((e / s.h.csr.rlen : Nat) : Int) * st.toInt * 8 + ((e % s.h.csr.rlen * m.cw : Nat) : Int)

/-- First byte and the byte after the last, as offsets from the base, of the containers of some elements. -/
def Move.extent (m : Move) (s : State) : List Nat → Int × Int
  | [] => (0, 0)
  | e :: es => es.foldl (fun acc k => (min acc.1 (m.pos s k / 8), max acc.2 ((m.pos s k + m.cw + 7) / 8)))
      (m.pos s e / 8, (m.pos s e + m.cw + 7) / 8)

/-- The address of a byte offset from the base. -/
def Move.addr (m : Move) (off : Int) : Word := m.base + BitVec.ofInt 64 off

/-- R380 codes 0x02 and 0x03. -/
def Move.trap (m : Move) (s : State) : Option Trap :=
  let ext := m.extent s (elems s)
  let lo := (m.addr ext.1).toNat
  (trapIf (!aligned m.base 8) (Trap.here s 9 2 m.base)).orElse fun _ =>
  (trapIf (!aligned (m.stride.getD 0) 8) (Trap.here s 9 2 (m.stride.getD 0))).orElse fun _ =>
  match windowOf lo with
  | some (b, n) =>
    trapIf (decide (0 < s.h.csr.vl) && decide (b + n < lo + (ext.2 - ext.1).toNat)) (Trap.here s 9 3 (BitVec.ofNat 64 (b + n)))
  | none => none

/-- The place of a byte in the windows of tile `t`'s core (R89). -/
def tilePlace (s : State) (t : Nat) (a : Word) : Place :=
  placeOf s (myGang s).part (clusterOfCore (s.h.core + t)) a.toNat

/-- A container of a scratchpad: the aligned word that holds it, and its bit offset there. -/
structure Slot where
  elem : Nat
  g : Nat
  bit : Nat
  deriving DecidableEq, Repr

/-- The containers of the elements `es`; none where the windows are not scratchpads (R88). -/
def Move.slots (m : Move) (s : State) (es : List Nat) : List Slot :=
  let per := s.h.csr.rlen * s.h.csr.rows
  es.filterMap (fun e =>
    let p := m.pos s e
    match tilePlace s (e / per) (m.addr (p / 64 * 8)) with
    | .mem g => some ⟨e, g, (p % 64).toNat⟩
    | _ => none)

/-- KIND of the error response that the range gets, none inside the scratchpads. -/
def Move.outside (m : Move) (s : State) : Option Nat :=
  match tilePlace s 0 (m.addr (m.extent s (elems s)).1) with
  | .mem _ => none
  | .bad k => some k
  | _ => some 1

/-- The buffers that the containers of the elements below VL touch in their tiles' own clusters, as (cluster, number), in ascending number;
equal numbers by cluster (R371, log 19). -/
def Move.buffers (m : Move) (s : State) : List (Nat × Nat) :=
  let per := s.h.csr.rlen * s.h.csr.rows
  if s.bufs.isEmpty ∨ 0x1000000 ≤ (m.addr (m.extent s (elems s)).1).toNat then []
  else
    let cls := ((List.range s.h.csr.tiles).map (fun t => clusterOfCore (s.h.core + t))).eraseDups
    (List.range 64).flatMap (fun n => (cls.filter (fun cl => (elems s).any (fun e =>
      let a := (m.addr (m.pos s e / 8)).toNat
      clusterOfCore (s.h.core + e / per) == cl && (bufAt s cl n).touchedBy a (a + (m.cw + 7) / 8)))).map (fun cl => (cl, n)))

/-- The tag check of the containers; CHK is set only when all buffers pass (R89, R371). -/
def Move.check (m : Move) (s : State) : Except Trap State := checkBuffers s (m.buffers s)

/-- L0 of a tile move (R195, R357). -/
def moveL0 (s : State) (a : Nat) : Nat :=
  if 0x10000000 ≤ a ∧ a < 0x20000000 ∧ partOfDie s ((a - 0x10000000) / 2 ^ 26) = some (myGang s).part then
    let d := (a - 0x10000000) / 2 ^ 26
    64 + 120 * (List.range s.h.csr.tiles).foldl (fun m t => max m (dieHops (dieOfCore (s.h.core + t)) d)) 0
  else 24

/-- L0 of a stream, a record block or a sparse expansion (R89, R195, R300, R357). -/
def homeL0 (s : State) : Nat :=
  if (List.range s.h.csr.tiles).all (fun t => clusterOfCore (s.h.core + t) == homeCluster s) then 24 else 64 + 120 * spanOf s

def streamL0 (s : State) (a : Nat) : Nat := if a < 0x1000000 then homeL0 s else moveL0 s a

/-- The occupancy of a tile move (R195). -/
def Move.occupancy (m : Move) (s : State) : Nat :=
  moveL0 s (m.addr (m.extent s (elems s)).1).toNat + ceilDiv (s.h.csr.rlen * s.h.csr.rows * m.cw) 2048

/-- The last cy in which a tile move issued now may still land (R37, R41). -/
def Move.upto (m : Move) (s : State) : Nat := s.h.issueCy + 48 * spanOf s + m.occupancy s + 4

/-- The scratchpad bytes that a tile move may reach, as (global address, length), one range for each granted row. -/
def Move.pieces (m : Move) (s : State) : List (Nat × Nat) :=
  let k := s.h.csr
  (List.range (k.rows * k.tiles)).filterMap (fun r =>
    let es := ((List.range k.rlen).map (fun g => r * k.rlen + g)).filter (fun e => decide (e < k.vl))
    let ext := m.extent s es
    match tilePlace s (r / k.rows) (m.addr ext.1) with
    | .mem g => if es.isEmpty then none else some (g, (ext.2 - ext.1).toNat)
    | _ => none)

/-- The low `w` bits of a container as the tile move reads it. -/
def readSlot (s : State) (w : Nat) (q : Slot) : Nat := (stripWord s true q.g).toNat / 2 ^ q.bit % 2 ^ w

/-- The reads of a tile move, one for each word, with the parts of it that go to elements (R108). -/
def wordReads (s : State) (upto : Nat) (parts : List (Nat × ReadPart)) : List StripRead :=
  (parts.map (fun p => p.1)).eraseDups.map (fun g =>
    ⟨true, g / 8, readPos s true g, upto, none, false, false, (parts.filter (fun p => p.1 == g)).map (fun p => p.2)⟩)

/-- Notes reads that may still be landing (R112, rule 5). -/
def noteReads (notes : List StripRead) (s : State) : State := modH s (fun h => { h with stripReads := notes ++ h.stripReads })

/-- TLD and TLDX: loads into the active elements under DESCD. -/
def loadTile (c : Ctl) (vd : Nat) (D : Desc) (m : Move) (s : State) : State :=
  match m.outside s with
  | some kind =>
    if s.h.csr.vl = 0 then retire c s
    else
      let s := violation s kind ((m.addr (m.extent s (elems s)).1).toNat)
      retire c (writeElems s vd D.w D.sgn (results c s (fun _ => 0)))
  | none =>
    match m.check s with
    | .error t => takeTrap s t
    | .ok s =>
      let slots := m.slots s (actives c s)
      let at' := fun e => slots.find? (fun q => q.elem == e)
      let s' := writeElems s vd D.w D.sgn (results c s
        (fun e => match at' e with
          | some q => readSlot s D.w q
          | none => 0)
        (fun e => match at' e with
          | some q => sget false s.poisonWord (q.g / 8)
          | none => false))
      let notes := wordReads s (m.upto s) (slots.map (fun q => (q.g, ⟨Loc.v vd, q.elem, q.bit, D.w, D.sgn, none⟩)))
      retire c (noteReads notes s')

/-- A gathered store to one word. -/
structure WordStore where
  mask : Word
  value : Word
  poison : Bool
  deriving DecidableEq, Repr

/-- Adds one container to the word it lies in; a later element replaces an earlier one (R194). -/
def gatherSlot (cw : Nat) (words : Sparse WordStore) (q : Slot) (bits : Nat) (bad : Bool) : Sparse WordStore :=
  let mask := BitVec.ofNat 64 ((2 ^ cw - 1) * 2 ^ q.bit)
  let v := BitVec.ofNat 64 (bits % 2 ^ cw * 2 ^ q.bit)
  let w := sget ⟨0, 0, false⟩ words q.g
  sput words q.g ⟨w.mask ||| mask, blend mask v w.value, w.poison || bad⟩

/-- The container bits of an element: sign or zeros above bit w − 1 (R193). -/
def containerBits (D : Desc) (cw v : Nat) : Nat := if D.sgn && v.testBit (D.w - 1) then v + (2 ^ cw - 2 ^ D.w) else v

/-- TST and TSTX: stores the active elements under DESCA. -/
def storeTile (c : Ctl) (vd : Nat) (A : Desc) (m : Move) (s : State) : State :=
  match m.outside s with
  | some kind =>
    retire c (if s.h.csr.vl = 0 then s else violation s kind ((m.addr (m.extent s (elems s)).1).toNat))
  | none =>
    match m.check s with
    | .error t => takeTrap s t
    | .ok s =>
      let words := (m.slots s (actives c s)).foldl (fun ws q =>
        gatherSlot m.cw ws q (containerBits A m.cw (elemBits s vd A.w q.elem))
          (elemPoisoned s vd A.w q.elem || predPoisoned s c.pred.toNat q.elem)) []
      retire c (words.foldl (fun s w => stripStore s true w.1 w.2.mask w.2.value w.2.poison) s)

def moveOf (c : Ctl) (o : VX) (s : State) (strided : Bool) (d : Desc) : Move :=
  ⟨rx s o.xa + c.imm, if strided then some (rx s o.xb) else none, container d.w⟩

def tileLoad (c : Ctl) (o : VX) (s : State) (strided : Bool) : Out :=
  let D := descOf c s .d
  let m := moveOf c o s strided D
  vecFrame c s [.d] (intDesc D) [dstNamed c o.vd D.w] none (m.trap s) (loadTile c o.vd.toNat D m)

def tileStore (c : Ctl) (o : VX) (s : State) (strided : Bool) : Out :=
  let A := descOf c s .a
  let m := moveOf c o s strided A
  vecFrame c s [.a] (intDesc A) [srcNamed o.vd A.w] none (m.trap s) (storeTile c o.vd.toNat A m)

def execTld (c : Ctl) (o : VX) (s : State) : Out := tileLoad c o s false
def execTst (c : Ctl) (o : VX) (s : State) : Out := tileStore c o s false
def execTldx (c : Ctl) (o : VX) (s : State) : Out := tileLoad c o s true
def execTstx (c : Ctl) (o : VX) (s : State) : Out := tileStore c o s true

/-! Landed state (R87, R91, R196). -/

/-- The landed bits of a tile of V`n`: row bits 0 to 255, matrix-done bit 256. -/
def landedOf (s : State) (n t : Nat) : BitVec 257 := sget 0 s.h.landed (512 * n + t)

/-- A selection of TWAIT, TCLR and TQRY. -/
structure Sel where
  buf : Bool
  md : Bool
  n : Nat
  vd : Nat
  deriving DecidableEq, Repr

def selOf (c : Ctl) (o : VX) : Sel := ⟨c.imm.getLsbD 31, c.imm.getLsbD 30, c.imm.toNat % 64, o.vd.toNat⟩

/-- The number of bits that a selection has; 0 for a disabled buffer in TWAIT's check. -/
def Sel.size (q : Sel) (s : State) : Nat :=
  if q.buf then (bufAt s (homeCluster s) q.n).chunks
  else if q.md then s.h.csr.tiles else s.h.csr.rows * s.h.csr.tiles

/-- Bit `x` of a selection; 0 beyond its range. -/
def Sel.bit (q : Sel) (s : State) (x : Nat) : Bool :=
  decide (x < q.size s) &&
  (if q.buf then (bufAt s (homeCluster s) q.n).landed.getLsbD x
   else if q.md then (landedOf s q.vd x).getLsbD 256
   else (landedOf s q.vd (x / s.h.csr.rows)).getLsbD (x % s.h.csr.rows))

/-- R380 code 0x07. -/
def twaitTrap (c : Ctl) (o : VX) (s : State) : Option Trap :=
  let q := selOf c o
  let x := rx s o.xa
  let n := rx s o.xb
  let off := q.buf && !(bufAt s (homeCluster s) q.n).en
  trapIf (off || (decide (n ≠ 0) && decide (q.size s < x.toNat + n.toNat))) (Trap.here s 9 7 (x + n - 1))

/-- Hops from a hart's home die to its tile `t`. -/
def tileHops (h : Hart) (t : Nat) : Nat := dieHops (dieOfCore h.core) (dieOfCore (h.core + t))

/-- How long after a landed bit of a tile is set the home core sees it: 48 H cy for a tile of another die (R197). -/
def seenDelay (h : Hart) (t : Nat) : Nat := if tileHops h t = 0 then 0 else 48 * h.span

/-- The home core sees bit `x` of a selection: one of a tile on another die 48 H cy after it is set (R37, R197). -/
def Sel.shown (q : Sel) (s : State) (x : Nat) : Bool :=
  let t := if q.md then x else x / s.h.csr.rows
  let bit := if q.md then 256 else x % s.h.csr.rows
  q.bit s x && (q.buf || decide (sget 0 s.h.landedAt (257 * (512 * q.vd + t) + bit) + seenDelay s.h t ≤ s.cyc))

/-- The condition of TWAIT (R197). -/
def twaitHolds (c : Ctl) (o : VX) (s : State) : Bool :=
  let q := selOf c o
  let lo := (rx s o.xa).toNat
  (List.range (rx s o.xb).toNat).all (fun i => q.shown s (lo + i))

/-- The words that the chunks of a selection landed in precede every later read of them (R116). -/
def Sel.acquire (q : Sel) (lo n : Nat) (s : State) : State :=
  let b := bufAt s (homeCluster s) q.n
  let first := clusterBase (homeCluster s) + 512 * (b.base + lo)
  if !q.buf then s
  else modH s (fun h => { h with strip := h.strip.map (fun e =>
    if decide (first ≤ 8 * e.word) && decide (8 * e.word < first + 512 * n) then { e with seen := true } else e) })

/-- A selection of V`n`'s landed state is a reference to V`n` (R50). -/
def Sel.touch (q : Sel) (s : State) : State := if q.buf then s else touchRegs s [{ reg := q.vd }]

/-- The register that a selection names, where it is declared (log 14). -/
def Sel.named (q : Sel) (s : State) : List Named := if q.buf || (vreg s q.vd).kind != 1 then [] else [{ reg := q.vd }]

/-- The frame of TWAIT, TCLR and TQRY: their named register is made resident, as every one that an instruction but VQRY names (R50). -/
def Sel.frame (q : Sel) (s : State) (early : Option Trap) (k : State → Out) : Out :=
  match (budgetTrap s (q.named s)).orElse fun _ => early with
  | some t => .next (takeTrap s t)
  | none => match makeResident s (q.named s) with
    | .error (s, t) => .next (takeTrap s t)
    | .ok s => k s

/-- TWAIT (R44, R197). -/
def execTwait (c : Ctl) (o : VX) (s : State) : Out :=
  (selOf c o).frame s (twaitTrap c o s) (fun s => .next (if twaitHolds c o s
      then retire c (sampleEvent ((selOf c o).touch ((selOf c o).acquire (rx s o.xa).toNat (rx s o.xb).toNat s)) s.h.core 1 0)
      else holdFor s .twait (.twait c o)))

/-- Clears the landed bits of V`n`. -/
def clearLanded (s : State) (n : Nat) : State :=
  modH s (fun h => { h with landed := sdrop h.landed (fun k => k / 512 == n)
                            landedAt := sdrop h.landedAt (fun k => k / 257 / 512 == n) })

/-- The cy in which a bit of tile `t` was set, noted where the home core sees it later (R197). -/
def seenLater (h : Hart) (t key cyc : Nat) (m : Sparse Nat) : Sparse Nat := if tileHops h t = 0 then m else sset 0 m key cyc

/-- A bit set now in tile `t` of a hart on another die is seen 48 H cy later: a wait for it may end then (R197). -/
def showLater (s : State) (gang hart t : Nat) : State :=
  match findHart s gang hart with
  | some h => if tileHops h t = 0 then s else schedule s (s.cyc + seenDelay h t) (.waitComplete gang hart)
  | none => s

/-- Notes a chunk that has landed in a buffer in this cy (R198). -/
def noteLanding (s : State) (cl n j : Nat) (tag : BitVec 16) : State :=
  { s with bufLandings := s.bufLandings.filter (fun l => l.cyc == s.cyc) ++ [⟨s.cyc, cl, n, j, tag⟩] }

/-- A cleared buffer with the chunks that landed in the cy of the clear, whose bits are set after it (R198). -/
def relandBuf (s : State) (cl n : Nat) (b : TileBuf) : TileBuf :=
  (s.bufLandings.filter (fun l => l.cyc == s.cyc && l.cluster == cl && l.buf == n)).foldl (fun b l => b.land l.index (some l.tag)) b

/-- The landed carriages of a buffer that TCLR clears are consumed (R271). -/
def consume (s : State) (cl n : Nat) : State :=
  { s with copies := s.copies.map (fun q =>
      if q.tbCluster != cl then q
      else { q with walk := q.walk.map (fun w =>
        { w with used := (w.used ++ (List.range w.j).filter (fun j => q.carBuf j == n && carLanded q j)).eraseDups }) }) }

/-- TCLR of buffer `n` of cluster `cl` (R92, R198): the bits of chunks that land in this cy stand, and what they belong to is not
consumed. -/
def clearBuf (s : State) (cl n : Nat) : State :=
  let b := relandBuf s cl n (bufAt s cl n).clear
  let s := setBuf s cl n b
  if b.landed = 0 then consume s cl n else s

def execTclr (c : Ctl) (o : VX) (s : State) : Out :=
  let q := selOf c o
  if q.buf then .next (retire c (clearBuf s (homeCluster s) q.n))
  else q.frame s none (fun s =>
    if copyInto s q.vd then .next (holdFor s .tclr (.tclr c o))
    else .next (retire c (clearLanded (q.touch s) q.vd)))

def execTqry (c : Ctl) (o : VX) (s : State) : Out :=
  let q := selOf c o
  let lo := (rx s o.xa).toNat
  q.frame s none (fun s =>
    alu c o.xb (BitVec.ofNat 64 ((List.range 64).foldl (fun v i => if q.bit s (lo + i) then v + 2 ^ i else v) 0)) (q.touch s))

/-! Drowsy rows (R45). -/

/-- A row that nothing has touched for more than 4,096 cy, nor its gang's start or resumption (R45). -/
def rowIdle (s : State) (core row since : Nat) : Bool :=
  decide (max (sget 0 s.touched (core * 256 + row)) since + 4096 < s.cyc)

/-- The start or latest resumption of the gang that holds a core. -/
def startOf (s : State) (core : Nat) : Nat :=
  match s.gangs.find? (fun g => g.clusters != 0 && decide (g.base ≤ core) && decide (core < g.base + 8 * g.clusters)) with
  | some g => max g.tstart g.resumeCy
  | none => 0

/-- A physical row, as core·256 + row, is drowsy for an access in cy `t` (R45). -/
def rowAsleep (s : State) (key t : Nat) : Bool :=
  sget false s.drowsy key || decide (max (sget 0 s.touched key) (startOf s (key / 256)) + 4096 < t)

/-- The rows are awake from cy `t`. -/
def touchRows (s : State) (rows : List Nat) (t : Nat) : State :=
  { s with touched := rows.foldl (fun m r => sset 0 m r t) s.touched, drowsy := sdrop s.drowsy (fun k => rows.contains k) }

end Sys2Proof.Machine
end

