-- ==== Sys2Proof/Machine/Stream.lean ====
section
/-! DEFINITION. Compressed streams: VSTZ and VLDZ (R89, R216 to R220, R371, R380, R405). -/
namespace Sys2Proof.Machine

/-- Formats 0 to 13 (R199). -/
def streamDesc (d : Desc) : Bool := decide (d.fmt ≤ 13)

/-- R380 codes 0x02 and 0x03, over the range of R371: base to base + X[XB] − 1. -/
def streamTrap (s : State) (base budget : Word) : Option Trap :=
  (trapIf (!aligned base 8) (Trap.here s 9 2 base)).orElse fun _ =>
  match windowOf base.toNat with
  | some (b, n) => trapIf (decide (b + n < base.toNat + budget.toNat)) (Trap.here s 9 3 (BitVec.ofNat 64 (b + n)))
  | none => none

/-- The tag check over the range of R371, against the home cluster's buffers. -/
def streamCheck (s : State) (base budget : Word) : Except Trap State :=
  if base.toNat < 0x1000000 ∧ budget ≠ 0 then tagCheck s (homeCluster s) base.toNat (base.toNat + budget.toNat) else .ok s

/-! VSTZ. -/

/-- One 8-byte word of a stream and its poison. -/
structure StreamWord where
  value : Word
  poison : Bool
  deriving DecidableEq, Repr

/-- `n` words of a big value, the lowest first. -/
def wordsOf (n v : Nat) : List Word := (List.range n).map (fun i => BitVec.ofNat 64 (v / 2 ^ (64 * i)))

/-- Packs `w`-bit patterns, the first lowest. -/
def packBits (w : Nat) : List Nat → Nat
  | [] => 0
  | v :: r => v + 2 ^ w * packBits w r

def headerOf (D : Desc) (nel nval : Nat) : Word :=
  BitVec.ofNat 64 (nval * 2 ^ 32 + (D.w - 1) * 2 ^ 24 + (if D.sgn then 2 ^ 20 else 0) + D.fmt * 2 ^ 16 + nel)

/-- A segment from the patterns of a row and their poison (R216). -/
def segmentOf (D : Desc) (vals : List (Nat × Bool)) : List StreamWord :=
  let nel := vals.length
  let nz := vals.filter (fun v => v.1 != 0)
  let mask := (List.range nel).foldl (fun m k => if (vals.getD k (0, false)).1 != 0 then m + 2 ^ k else m) 0
  let bad := vals.any (fun v => v.2)
  let vw := ceilDiv (nz.length * D.w) 64
  let valueBad := fun i => bad && (List.range nz.length).any (fun j =>
    (nz.getD j (0, false)).2 && decide (j * D.w < 64 * (i + 1)) && decide (64 * i < (j + 1) * D.w))
  let maskBad := fun i => (List.range nel).any (fun k => (vals.getD k (0, false)).2 && k / 64 == i)
  let ms := wordsOf (ceilDiv nel 64) mask
  let vs := wordsOf vw (packBits D.w (nz.map (fun v => v.1)))
  (⟨headerOf D nel nz.length, false⟩ : StreamWord) ::
    ((List.range ms.length).map (fun i => ⟨ms.getD i 0, maskBad i⟩) ++
     (List.range vs.length).map (fun i => ⟨vs.getD i 0, valueBad i⟩))

/-- The elements below VL of each global row that holds one (R217). -/
def rowElems (s : State) : List (List Nat) :=
  (allRows s).map (fun r => ((List.range s.h.csr.rlen).map (fun g => r * s.h.csr.rlen + g)).filter
    (fun e => decide (e < s.h.csr.vl))) |>.filter (fun l => !l.isEmpty)

/-- The stream that VSTZ forms, by segment: inactive elements count as zero. -/
def streamOf (c : Ctl) (s : State) (vd : Nat) (D : Desc) : List (List StreamWord) :=
  (rowElems s).map (fun es => segmentOf D (es.map (fun e =>
    if predBit s c.pred.toNat e then (elemBits s vd D.w e, elemPoisoned s vd D.w e || predPoisoned s c.pred.toNat e)
    else (0, false))))

/-- The most bytes that the segments of one granted tile hold, of (tile, bytes) pairs (R220). -/
def mostBytes (s : State) (sizes : List (Nat × Nat)) : Nat :=
  (List.range s.h.csr.tiles).foldl (fun m t =>
    max m (sizes.foldl (fun k x => if x.1 = t then k + x.2 else k) 0)) 0

/-- S′ of R220 in lockstep mode, for rows that hold `rows` elements each as (tile, elements). -/
def lockBytes (s : State) (w budget : Nat) (rows : List (Nat × Nat)) : Nat :=
  min budget (mostBytes s (rows.map (fun r => (r.1, segmentBytes w r.2 r.2))))

/-- S′ of R220 for VSTZ. -/
def vstzBytes (s : State) (D : Desc) (budget : Nat) (segs : List (List StreamWord)) : Nat :=
  let per := s.h.csr.rlen * s.h.csr.rows
  if lockstep s then lockBytes s D.w budget ((rowElems s).map (fun es => (es.headD 0 / per, es.length)))
  else mostBytes s ((List.zip (rowElems s) segs).map (fun x => (x.1.headD 0 / per, 8 * x.2.length)))

/-- Stores the words of a stream. -/
def putStream (s : State) (g : Nat) : List StreamWord → State
  | [] => s
  | w :: r => putStream (stripStore s true g 0xffffffffffffffff w.value w.poison) (g + 8) r

/-- VSTZ after its checks: X[XB] receives S; a stream that does not fit writes nothing and traps past the instruction. -/
def vstzCore (c : Ctl) (o : VX) (D : Desc) (base budget : Word) (s : State) : State :=
  match (if s.h.csr.vl = 0 then .ok s else streamCheck s base budget) with
  | .error t => takeTrap s t
  | .ok s =>
    let segs := streamOf c s o.vd.toNat D
    let s := setWork s (vstzBytes s D budget.toNat segs)
    let ws := segs.flatten
    let size := 8 * ws.length
    let s' := setX s o.xb (BitVec.ofNat 64 size)
    if budget.toNat < size then takeTrap s' { cls := 0x0a, code := 1, eaddr := base, epc := nextPc c s }
    else match homePlace s base with
      | .mem g => retire c (putStream s' g ws)
      | .bad k => retire c (if ws.isEmpty then s' else violation s' k base.toNat)
      | _ => retire c (if ws.isEmpty then s' else violation s' 1 base.toNat)

def execVstz (c : Ctl) (o : VX) (s : State) : Out :=
  let A := descOf c s .a
  let base := rx s o.xa + c.imm
  let budget := rx s o.xb
  vecFrame c s [.a] (streamDesc A) [srcNamed o.vd A.w] none (streamTrap s base budget) (vstzCore c o A base budget)

/-! VLDZ. -/

/-- The word at offset `off` of a stream, 0 where it lies in no scratchpad; and its poison. -/
def streamWord (s : State) (src : Option Nat) (off : Nat) : Word × Bool :=
  match src with
  | some g => (stripWord s true (g + off), sget false s.poisonWord ((g + off) / 8))
  | none => (0, false)

/-- S′ of R220 for VLDZ, whose walk ended at offset `off`. DESIGN CHOICE (log 71): in lockstep mode the raw size is that of one segment of
RLEN elements for each granted row, since the stream's own segments are data; in elastic mode a segment that spans tiles counts to the
tile of its first element. -/
def vldzBytes (s : State) (src : Option Nat) (D : Desc) (budget cap off : Nat) : Nat :=
  if lockstep s then lockBytes s D.w budget ((allRows s).map (fun r => (r / s.h.csr.rows, s.h.csr.rlen)))
  else mostBytes s (walkSizes (s.h.csr.rlen * s.h.csr.rows) (streamWord s src) D (cap + 1) 0 0 off)

/-- The words that a walk reads which ends at offset `off`: those of its segments, and the header there that it could read. -/
def wordsWalked (budget off : Nat) : Nat := if budget < off + 8 then off / 8 else off / 8 + 1

/-- Notes the reads of a VLDZ, and the stream with its words as it read them, so that a later store may yet be read in a word's stead
(R112). -/
def vldzNotes (s : State) (o : VX) (D : Desc) (src : Option Nat) (upto budget cap off : Nat) (items : List Item) : State :=
  match src with
  | none => s
  | some g =>
    let n := wordsWalked budget off
    let q : Streamed :=
      { at_ := s.h.issueCy, vd := o.vd.toNat, xb := o.xb.toNat, fmt := D.fmt, width := D.w, sgn := D.sgn, src := g, budget, cap
        first := s.h.csr.resume.toNat
        words := (List.range n).foldl (fun m i => sset 0 m ((g + 8 * i) / 8) (streamWord s src (8 * i)).1) []
        before := items.map (fun i => (i.elem, storedBits s o.vd.toNat D.w i.elem)) }
    let notes := (List.range n).map (fun i =>
      (⟨true, (g + 8 * i) / 8, readPos s true (g + 8 * i), upto, some s.h.issueCy, false, false, []⟩ : StripRead))
    modH (noteReads notes s) (fun h => { h with streams := q :: h.streams })

/-- The occupancy of a stream of `d` planes and S′ = `bytes` (R220), and its last possible landing. -/
def streamOcc (s : State) (base : Word) (d bytes : Nat) : Nat := streamL0 s base.toNat + d + 16 + ceilDiv bytes 64
def streamUpto (s : State) (base : Word) (d bytes : Nat) : Nat := s.h.issueCy + 48 * spanOf s + streamOcc s base d bytes + 4

/-- VLDZ after its checks (R218, R219, R368 code 0x0a). Issued while VL = 0 it expands nothing (R31, log 17). -/
def vldzCore (c : Ctl) (o : VX) (D : Desc) (base budget : Word) (s : State) : State :=
  if s.h.csr.vl = 0 then retire c (setX (modCsr s (fun k => { k with resume := 0 })) o.xb 0)
  else match streamCheck s base budget with
  | .error t => takeTrap s t
  | .ok s =>
    let src : Option Nat := match homePlace s base with | .mem g => some g | _ => none
    let s := match homePlace s base with
      | .mem _ => s
      | .bad k => if 8 ≤ budget.toNat then violation s k base.toNat else s
      | _ => if 8 ≤ budget.toNat then violation s 1 base.toNat else s
    let k := s.h.csr
    let cap := k.rlen * k.rows * k.tiles
    let r := k.resume.toNat
    let put := fun (s : State) (items : List Item) =>
      writeElems s o.vd.toNat D.w D.sgn (items.filter (fun i => decide (r ≤ i.elem)))
    match walkStream (streamWord s src) D budget.toNat cap (cap + 1) [] 0 0 with
    | .done items n off =>
      let bytes := vldzBytes s src D budget.toNat cap off
      let s := vldzNotes (setWork s bytes) o D src (streamUpto s base (dOf s D.w) bytes) budget.toNat cap off
        (items.filter (fun i => decide (r ≤ i.elem)))
      let s := modCsr (put s items) (fun k => { k with vl := n, resume := 0 })
      retire c (setX s o.xb (BitVec.ofNat 64 off))
    | .malformed items n off =>
      let s := setWork s (vldzBytes s src D budget.toNat cap off)
      let s := modCsr (put s items) (fun k => { k with resume := BitVec.ofNat 64 n })
      takeTrap s { Trap.here s 4 0x0a (base + BitVec.ofNat 64 off) with step := n }

/-- VLDZ. One that goes on from RESUME keeps the elements landed before its stop (R219). -/
def execVldz (c : Ctl) (o : VX) (s : State) : Out :=
  resumeRecords s <|
  let D := descOf c s .d
  let base := rx s o.xa + c.imm
  let budget := rx s o.xb
  let d := dstNamed c o.vd D.w
  vecFrame c s [.d] (streamDesc D) [{ d with fill := d.fill || s.h.csr.resume != 0 }] none (streamTrap s base budget) (vldzCore c o D base budget)

end Sys2Proof.Machine
end

