-- ==== Sys2Proof/Machine/Seeds.lean ====
section
/-! DEFINITION. Seeded weights (R244 to R253, R404, R409): the generator, SEXP, SFIT, SARGMIN and VGEN. -/
namespace Sys2Proof.Machine

/-! Checks of class 0x0a (R402). -/

def arithTrap (s : State) (b : Bool) (code : BitVec 8) (v : Nat) : Option Trap :=
  trapIf b (Trap.here s 0x0a code (BitVec.ofNat 64 v))

/-- Code 0x06: FOLD ≠ 1. -/
def foldTrap (s : State) : Option Trap := arithTrap s (s.h.csr.fold != 1) 6 (s.h.csr.fold * 65536 + s.h.csr.rlen)

/-- Code 0x07 over row ranges (start, count), in order (R403). -/
def rowsTrap (s : State) (ranges : List (Nat × Nat)) : Option Trap :=
  firstSome ranges (fun r => arithTrap s (decide (s.h.csr.rows < r.1 + r.2)) 7 (max r.1 s.h.csr.rows))

/-- Code 0x0b: a register declared narrower than needed (R404). -/
def narrowTrap (s : State) (needs : List (Nat × Nat)) : Option Trap :=
  firstSome needs (fun r => arithTrap s (decide ((vreg s r.1).width < r.2)) 0x0b r.1)

/-- Code 0x0b: a descriptor not accepted (R404). -/
def descTrap (c : Ctl) (s : State) (bad : Bool) : Option Trap := arithTrap s bad 0x0b (descsWord c s).toNat

/-! SEXP, SFIT, SARGMIN. -/

def execSexp (c : Ctl) (o : V3) (s : State) : Out :=
  vecFrame c s [] true [{ reg := o.va.toNat }, { dstNamed c o.vd 0 with width := none }] none
    ((foldTrap s).orElse fun _ => narrowTrap s [(o.va.toNat, 16), (o.vd.toNat, 64)])
    (fun s => retire c (writeElems s o.vd.toNat 64 false (results c s
      (fun e => seedBits (BitVec.ofNat 16 (elemBits s o.va.toNat 16 e))) (elemPoisoned s o.va.toNat 16))))

/-- A sum over 16, rounded to nearest, ties to even. -/
def rneSixteenth (v : Int) : Int :=
  let q := v / 16
  let r := v % 16
  if r < 8 ∨ (r = 8 ∧ q % 2 = 0) then q else q + 1

/-- The fit of R250: the new 64-bit pattern from the seed, U pattern, targets and target width. -/
def fitRecord (seed u b wt : Nat) : Nat :=
  let w := fun r => signedOf wt (b / 2 ^ (r * wt) % 2 ^ wt)
  let sgn := fun r p => if seed = 0 then (0 : Int) else if u.testBit (4 * r + p) then -1 else 1
  let t := fun p => max (-8) (min 7 (rneSixteenth ((List.range 16).foldl (fun a r => a + sgn r p * w r) 0)))
  let err := (List.range 16).foldl (fun a r =>
    let d := w r - (List.range 4).foldl (fun x p => x + sgn r p * t p) 0
    a + d * d) (0 : Int)
  seed + (List.range 4).foldl (fun a p => a + wrap 4 (t p) * 2 ^ (16 + 4 * p)) 0 + err.toNat * 2 ^ 32

def execSfit (c : Ctl) (o : V3) (s : State) : Out :=
  let B := descOf c s .b
  vecFrame c s [.b] true [{ reg := o.va.toNat }, srcNamed o.vb B.w, { reg := o.vd.toNat }] none
    ((foldTrap s).orElse fun _ =>
      (narrowTrap s [(o.va.toNat, 64), (o.vd.toNat, 64)]).orElse fun _ =>
      (descTrap c s (!(B.fmt == 1 && decide (2 ≤ B.w) && decide (B.w ≤ 6)))).orElse fun _ =>
      narrowTrap s [(o.vb.toNat, 16 * B.w)])
    (fun s => retire c (writeElems s o.vd.toNat 64 false (results c s
      (fun e => fitRecord (elemBits s o.vd.toNat 16 e) (elemBits s o.va.toNat 64 e) (elemBits s o.vb.toNat (16 * B.w) e) B.w)
      (fun e => elemPoisoned s o.va.toNat 64 e || elemPoisoned s o.vb.toNat (16 * B.w) e || elemPoisoned s o.vd.toNat 16 e))))

/-- The pattern with the least upper half, the first of them on a tie; 2^64 − 1 over none (R251). -/
def leastError (best : Option Nat) : List Nat → Nat
  | [] => best.getD (2 ^ 64 - 1)
  | v :: r => match best with
    | none => leastError (some v) r
    | some b => leastError (some (if v / 2 ^ 32 < b / 2 ^ 32 then v else b)) r

def execSargmin (c : Ctl) (o : VX) (s : State) : Out :=
  let f := (rx s o.xa).toNat % 2 ^ 32
  let m := (rx s o.xa).toNat / 2 ^ 32
  vecFrame c s [] true [{ reg := o.vd.toNat, width := some 64 }] none (foldTrap s) (fun s =>
    let cand := (actives c s).filter (fun e => decide (f ≤ e) && decide (e < f + m))
    if cand.any (fun e => elemPoisoned s o.vd.toNat 64 e || predPoisoned s c.pred.toNat e) then poisonEnd s 0
    else retire c (setX s o.xb (BitVec.ofNat 64 (leastError none (cand.map (elemBits s o.vd.toNat 64))))))

/-! VGEN. -/

/-- The bytes from the first record read to the last (R252). -/
def vgenBytes (s : State) (n nb : Nat) : Nat := 4 * ((nb - 1) * n + min n s.h.csr.rlen)

def vgenTrap (c : Ctl) (s : State) (D : Desc) (base x : Word) : Option Trap :=
  let n := x.toNat % 65536
  let nb := x.toNat / 65536 % 65536
  let len := if n = 0 ∨ nb = 0 then 0 else vgenBytes s n nb
  (trapIf (!aligned base 4) (Trap.here s 9 2 base)).orElse fun _ =>
  ((match windowOf base.toNat with
    | some (b, k) => trapIf (decide (b + k < base.toNat + len)) (Trap.here s 9 3 (BitVec.ofNat 64 (b + k)))
    | none => none)).orElse fun _ =>
  (foldTrap s).orElse fun _ =>
  (rowsTrap s [(c.rowa.toNat, 16 * nb)]).orElse fun _ =>
  (descTrap c s (!(D.fmt == 14 || (D.fmt == 1 && decide (7 ≤ D.w))))).orElse fun _ =>
  arithTrap s (n == 0 || nb == 0 || decide (16 < nb) || decide (2 ^ 32 ≤ x.toNat)) 0x0b x.toNat

/-- The record at a byte offset from the base, 0 outside the scratchpads; and its poison. -/
def recordAt (s : State) (src : Option Nat) (off : Nat) : Nat × Bool :=
  match src with
  | some g =>
    let a := g + off
    ((stripWord s true (a / 8 * 8)).toNat / 2 ^ (8 * (a % 8)) % 2 ^ 32, sget false s.poisonWord (a / 8))
  | none => (0, false)

/-- The items of VGEN in one tile: positions below min(N, RLEN) of rows ρ to ρ + 16·nb − 1. -/
def vgenItems (c : Ctl) (s : State) (src : Option Nat) (n nb w t : Nat) : List Item :=
  let k := s.h.csr
  let cols := List.range (min n k.rlen)
  ((List.range (16 * nb)).map (fun rr =>
    cols.filterMap (fun j =>
      let e := t * (k.rlen * k.rows) + (c.rowa.toNat + rr) * k.rlen + j
      if k.vl ≤ e then none
      else if predBit s c.pred.toNat e then
        let q := recordAt s src (4 * (rr / 16 * n + j))
        some ⟨e, wrap w (recordWeight q.1 (rr % 16)), q.2 || predPoisoned s c.pred.toNat e⟩
      else if c.z then some ⟨e, 0, false⟩ else none))).flatten

/-- The reads of a VGEN: each word with the elements whose record lies in it (R112). -/
def vgenNotes (c : Ctl) (s : State) (vd : Nat) (D : Desc) (src : Option Nat) (n upto : Nat) (items : List Item) : List StripRead :=
  match src with
  | none => []
  | some g =>
    let k := s.h.csr
    wordReads s upto ((items.filter (fun i => predBit s c.pred.toNat i.elem)).map (fun i =>
      let rr := i.elem / k.rlen % k.rows - c.rowa.toNat
      let a := g + 4 * (rr / 16 * n + i.elem % k.rlen)
      (a / 8 * 8, ⟨Loc.v vd, i.elem, 8 * (a % 8), D.w, D.sgn, some (rr % 16)⟩)))

/-- The occupancy of VGEN, and of its part that holds the vector unit (R252). -/
def vgenTail (s : State) (D : Desc) (nb : Nat) : Nat := 16 * nb * (4 + dOf s D.w) + 8
def vgenOcc (s : State) (D : Desc) (base : Word) (n nb : Nat) : Nat :=
  streamL0 s base.toNat + ceilDiv (4 * min n s.h.csr.rlen * nb) 256 + vgenTail s D nb

def vgenCore (c : Ctl) (o : VX) (D : Desc) (base x : Word) (s : State) : State :=
  let n := x.toNat % 65536
  let nb := x.toNat / 65536 % 65536
  if s.h.csr.vl = 0 then retire c s
  else match streamCheck s base (BitVec.ofNat 64 (vgenBytes s n nb)) with
    | .error t => takeTrap s t
    | .ok s =>
      let src : Option Nat := match homePlace s base with | .mem g => some g | _ => none
      let s := match homePlace s base with
        | .mem _ => s
        | .bad k => violation s k base.toNat
        | _ => violation s 1 base.toNat
      let items := ((List.range s.h.csr.tiles).map (vgenItems c s src n nb D.w)).flatten
      let notes := vgenNotes c s o.vd.toNat D src n (s.h.issueCy + 48 * spanOf s + vgenOcc s D base n nb + 4) items
      retire c (noteReads notes (writeElems s o.vd.toNat D.w D.sgn items))

/-- SEEDW is two's complement of 7 bits (R67). -/
def execVgen (c : Ctl) (o : VX) (s : State) : Out :=
  let D := descOf c s .d
  let base := rx s o.xa + c.imm
  let x := rx s o.xb
  vecFrame c s [.d] true [dstNamed c o.vd D.w] none (vgenTrap c s D base x)
    (vgenCore c o { D with sgn := true } base x)

end Sys2Proof.Machine
end

