-- ==== Sys2Proof/Machine/VecFloat.lean ====
section
/-! DEFINITION. Floating-point arithmetic, minimum, maximum, compare and sign on vectors (R199 to R208). -/
namespace Sys2Proof.Machine

def fpDesc (d : Desc) : Bool := decide (2 ≤ d.fmt) && decide (d.fmt ≤ 9)

/-- The value of element `e` of V`n` (R62). -/
def elemFloat (s : State) (d : Desc) (n e : Nat) : FVal := decodeFloat d.fmt (elemBits s n d.w e)

/-- One result of an active element: its bits, its flags, whether it read poison. -/
structure FItem where
  elem : Nat
  bits : Nat
  flags : FlagSet
  poison : Bool
  deriving DecidableEq, Repr

/-- What an element-wise float instruction computes: results of the active elements, zeros under Z for the others (R36). -/
def floatItems (c : Ctl) (s : State) (f : Nat → Nat × FlagSet) (bad : Nat → Bool) : List FItem :=
  (elems s).filterMap (fun e =>
    if predBit s c.pred.toNat e then
      let r := f e
      some ⟨e, r.1, r.2, bad e || predPoisoned s c.pred.toNat e⟩
    else if c.z then some ⟨e, 0, 0, false⟩ else none)

def FItem.item (i : FItem) : Item := ⟨i.elem, i.bits, i.poison⟩

/-- The flags of the unpoisoned elements (R416). -/
def flagsOf (l : List FItem) : FlagSet := l.foldl (fun a i => if i.poison then a else a ||| i.flags) 0

/-- Under SR each active element's generator has drawn once (R70). -/
def drawn (rm : Nat) (es : List Nat) (s : State) : State := if rm = 5 then advanceGens s es else s

/-- Writes the results of an element-wise float instruction, its flags and its draws. -/
def putFloats (c : Ctl) (n w : Nat) (sgn : Bool) (rm : Nat) (items : List FItem) (s : State) : State :=
  drawn rm (actives c s) (orFlags (writeElems s n w sgn (items.map FItem.item)) (flagsOf items))

/-- Arithmetic on A, B and, with `readD`, D: one exact operation, one rounding (R201). -/
def vecFloat (c : Ctl) (o : V3) (s : State) (readD : Bool) (f : Nat → FVal → FVal → FVal → FVal × FlagSet) : Out :=
  let A := descOf c s .a
  let B := descOf c s .b
  let D := descOf c s .d
  let dst := if readD then srcNamed o.vd D.w else dstNamed c o.vd D.w
  vecFrame c s [.a, .b, .d] (fpDesc A && fpDesc B && fpDesc D) [srcNamed o.va A.w, srcNamed o.vb B.w, dst] none none
    (fun s =>
      let rm := rmOf c s
      retire c (putFloats c o.vd.toNat D.w false rm (floatItems c s
        (fun e =>
          let r := f rm (elemFloat s A o.va.toNat e) (elemFloat s B o.vb.toNat e)
            (if readD then elemFloat s D o.vd.toNat e else .zero)
          let q := fitFloat D.fmt rm (drawZ s e) r.1
          (q.1, r.2 ||| q.2))
        (fun e => elemPoisoned s o.va.toNat A.w e || elemPoisoned s o.vb.toNat B.w e ||
          (readD && elemPoisoned s o.vd.toNat D.w e))) s))

/-- ±(a·b) ± c, exact; 0 × ∞ is invalid even beside a NaN (R202). -/
def fused (negProduct negAddend : Bool) (rm : Nat) (a b c : FVal) : FVal × FlagSet :=
  let p := a.mul b
  let q := (if negProduct then p.1.neg else p.1).add rm (if negAddend then c.neg else c)
  (q.1, p.2 ||| q.2)

def execVfadd (c : Ctl) (o : V3) (s : State) : Out := vecFloat c o s false (fun rm a b _ => a.add rm b)
def execVfsub (c : Ctl) (o : V3) (s : State) : Out := vecFloat c o s false (fun rm a b _ => a.add rm b.neg)
def execVfmul (c : Ctl) (o : V3) (s : State) : Out := vecFloat c o s false (fun _ a b _ => a.mul b)
def execVfdiv (c : Ctl) (o : V3) (s : State) : Out := vecFloat c o s false (fun _ a b _ => a.div b)
def execVfma (c : Ctl) (o : V3) (s : State) : Out := vecFloat c o s true (fused false false)
def execVfms (c : Ctl) (o : V3) (s : State) : Out := vecFloat c o s true (fused false true)
def execVfnma (c : Ctl) (o : V3) (s : State) : Out := vecFloat c o s true (fused true false)
def execVfmin (c : Ctl) (o : V3) (s : State) : Out := vecFloat c o s false (fun _ a b _ => (a.pick false b, 0))
def execVfmax (c : Ctl) (o : V3) (s : State) : Out := vecFloat c o s false (fun _ a b _ => (a.pick true b, 0))

/-- The conditions of VFCMP (R205). -/
def compareFloat (cc : Nat) (o : Option Int) : Bool :=
  match cc, o with
  | 0, some r => r == 0
  | 1, some r => r != 0
  | 1, none => true
  | 2, some r => decide (r < 0)
  | 3, some r => decide (r ≤ 0)
  | 4, some r => decide (0 < r)
  | 5, some r => decide (0 ≤ r)
  | 6, o => o.isNone
  | 7, o => o.isSome
  | _, _ => false

def execVfcmp (c : Ctl) (o : V3) (s : State) : Out :=
  let A := descOf c s .a
  let B := descOf c s .b
  let cc := c.imm.toNat % 16
  vecFrame c s [.a, .b] (fpDesc A && fpDesc B) [srcNamed o.va A.w, srcNamed o.vb B.w] none none (fun s =>
    let items := floatItems c s
      (fun e =>
        let r := (elemFloat s A o.va.toNat e).cmp (elemFloat s B o.vb.toNat e)
        (if compareFloat cc r then 1 else 0, if r.isNone && decide (2 ≤ cc) && decide (cc ≤ 5) then fNv else 0))
      (fun e => elemPoisoned s o.va.toNat A.w e || elemPoisoned s o.vb.toNat B.w e)
    retire c (orFlags (writePred s (o.vd.toNat % 16) (items.map FItem.item)) (flagsOf items)))

/-- The pattern of A with the sign bit that the sub-operation gives; TP code 0 and the no-value code pass (R206). -/
def signInject (fmt w sub a b wb : Nat) : Nat :=
  let low := a % 2 ^ (w - 1)
  let sa := a.testBit (w - 1)
  let sb := b.testBit (wb - 1)
  if (taperBits fmt).isSome ∧ low = 0 then a
  else
    let sign := match sub with | 0 => sb | 1 => !sb | _ => sa != sb
    low + (if sign then 2 ^ (w - 1) else 0)

def execVfsgn (c : Ctl) (o : V3) (s : State) : Out :=
  let A := descOf c s .a
  let B := descOf c s .b
  let D := descOf c s .d
  vecFrame c s [.a, .b, .d] (fpDesc A && fpDesc B && D.fmt == A.fmt)
    [srcNamed o.va A.w, srcNamed o.vb B.w, dstNamed c o.vd D.w] none none (fun s =>
      retire c (writeElems s o.vd.toNat D.w false (results c s
        (fun e => signInject A.fmt A.w (c.imm.toNat % 16) (elemBits s o.va.toNat A.w e) (elemBits s o.vb.toNat B.w e) B.w)
        (fun e => elemPoisoned s o.va.toNat A.w e || elemPoisoned s o.vb.toNat B.w e))))

/-- One source and a destination, with flags and, where `rounds`, draws. -/
def vecFun (c : Ctl) (o : VF) (s : State) (accept : Desc → Desc → Bool)
    (f : Desc → Desc → Nat → Nat → Nat → Nat × FlagSet) : Out :=
  let A := descOf c s .a
  let D := descOf c s .d
  vecFrame c s [.a, .d] (accept A D) [srcNamed o.va A.w, dstNamed c o.vd D.w] none none (fun s =>
    let rm := rmOf c s
    retire c (putFloats c o.vd.toNat D.w D.sgn rm (floatItems c s
      (fun e => f A D rm (drawZ s e) (elemBits s o.va.toNat A.w e))
      (fun e => elemPoisoned s o.va.toNat A.w e)) s))

def execVfsqrt (c : Ctl) (o : VF) (s : State) : Out :=
  vecFun c o s (fun A D => fpDesc A && fpDesc D) (fun A D rm z p =>
    let r := (decodeFloat A.fmt p).sqrt
    let q := fitFloat D.fmt rm z r.1
    (q.1, r.2 ||| q.2))

/-- The class mask of R208. -/
def classMask (fmt p : Nat) : Nat :=
  match decodeFloat fmt p with
  | .nan _ => 2 ^ 8
  | .inf n => if n then 1 else 2 ^ 7
  | .fin n m e _ =>
    if m = 0 then (if n then 2 ^ 3 else 2 ^ 4)
    else
      let sub := match ieeeOf fmt with
        | some q => decide (logMag m e < 1 - (q.bias : Int))
        | none => false
      if sub then (if n then 2 ^ 2 else 2 ^ 5) else if n then 2 else 2 ^ 6

/-- VFCLASS does not round (R132, R208). -/
def execVfclass (c : Ctl) (o : VF) (s : State) : Out :=
  let A := descOf c s .a
  let D := descOf c s .d
  vecFrame c s [.a, .d] (fpDesc A && intDesc D) [srcNamed o.va A.w, dstNamed c o.vd D.w] none none (fun s =>
    retire c (writeElems s o.vd.toNat D.w D.sgn (results c s
      (fun e => classMask A.fmt (elemBits s o.va.toNat A.w e) % 2 ^ D.w)
      (fun e => elemPoisoned s o.va.toNat A.w e))))

/-- VFCVT, with SATF in IMM32[0] (R209). -/
def execVfcvt (c : Ctl) (o : VF) (s : State) : Out :=
  vecFun c o s (fun A D => fpDesc A && fpDesc D) (fun A D rm z p =>
    (if c.imm.getLsbD 0 then fitSat else fitFloat) D.fmt rm z (decodeFloat A.fmt p))

def execVftoi (c : Ctl) (o : VF) (s : State) : Out :=
  vecFun c o s (fun A D => fpDesc A && intDesc D) (fun A D rm z p =>
    let r := toInteger D rm z (decodeFloat A.fmt p)
    (wrap D.w r.1, r.2))

/-- VITOF, with SATF in IMM32[0] (R211). -/
def execVitof (c : Ctl) (o : VF) (s : State) : Out :=
  vecFun c o s (fun A D => intDesc A && fpDesc D) (fun A D rm z p =>
    (if c.imm.getLsbD 0 then fitSat else fitFloat) D.fmt rm z (FVal.ofInt (intVal A p)))

end Sys2Proof.Machine
end

