-- ==== Sys2Proof/Machine/Matrix.lean ====
section
/-! DEFINITION. The matrix engine (R221 to R243, R402 to R408): outer products, drains, scales, saved images, ramps. -/
namespace Sys2Proof.Machine

/-! Accumulator and tables. -/

def cellKey (core i j : Nat) : Nat := core * 65536 + i * 256 + j

/-- The signed value and CF of a cell's 41 bits. -/
def cellVal (v : BitVec 41) : Int := (v.setWidth 40).toInt
def cellCf (v : BitVec 41) : Bool := v.getLsbD 40
def mkCell (cf : Bool) (v : Int) : BitVec 41 := BitVec.ofBool cf ++ BitVec.ofInt 40 v

/-- A cell as an instruction reads it: a free value while its row lies in an exposed window (R242). -/
def cellAt (s : State) (core i j : Nat) : BitVec 41 :=
  if s.h.hot.contains (.acc i) then (Config.freeBits s.free (2 ^ 60 + cellKey core i j)).setWidth 41
  else sget 0 s.acc (cellKey core i j)

/-- Entry of a table (R230): 0 MUL, 1 SHR, 2 CCOL, 3 CROW, 4 OZP, 5 GA, 6 GB, and the marks 7 NA and 8 NB. -/
def tableKey (core sel i : Nat) : Nat := core * 4096 + sel * 256 + i
/-- The reset value of a table's entries: MUL holds 1, and is kept as its distance from 1. -/
def tableReset (sel : Nat) : Int := if sel = 0 then 1 else 0
def tableInt (s : State) (core sel i : Nat) : Int :=
  if s.h.hot.contains (.table sel) then (Config.freeBits s.free (2 ^ 61 + tableKey core sel i)).toInt
  else (sget 0 s.tables (tableKey core sel i)).toInt + tableReset sel
def setTable (s : State) (core sel i : Nat) (v : Int) : State :=
  { s with tables := sset 0 s.tables (tableKey core sel i) (BitVec.ofInt 64 (v - tableReset sel)) }
def marked (s : State) (core sel i : Nat) : Bool :=
  if s.h.hot.contains (.table sel) then (Config.freeBits s.free (2 ^ 61 + tableKey core sel i)).getLsbD 0
  else sget 0 s.tables (tableKey core sel i) != 0
/-- Clears NA and NB of a tile. -/
def clearMarks (s : State) (core : Nat) : State :=
  { s with tables := sdrop s.tables (fun k => k / 4096 == core && decide (7 ≤ k / 256 % 16)) }

def mcfgMode (s : State) : Nat := s.h.csr.mcfg.toNat % 4
def mcfgSa (s : State) : Nat := s.h.csr.mcfg.toNat / 16 % 8 + 1
def mcfgSb (s : State) : Nat := s.h.csr.mcfg.toNat / 256 % 8 + 1

/-! K terms (R222). -/

/-- A cell after one K term of value `t`: mode 1 is SAT32. -/
def addTerm (mode : Nat) (cell : BitVec 41) (t : Int) : BitVec 41 :=
  let v := cellVal cell + t
  if mode = 1 then
    let w := max (-(2 ^ 31)) (min (2 ^ 31 - 1) v)
    mkCell (cellCf cell || w != v) w
  else mkCell (cellCf cell || decide (v < -(2 ^ 39)) || decide (2 ^ 39 ≤ v)) v

/-- One K term over a tile: the nonzero products (i, j, t), each cell at most once. Under SAT32 a listed cell that no product
reaches is tested too. -/
def applyTerm (mode core : Nat) (acc : Sparse (BitVec 41)) (ps : List (Nat × Nat × Int)) : Sparse (BitVec 41) :=
  let acc := if mode = 1 then
      acc.map (fun e => if e.1 / 65536 == core && !ps.any (fun p => cellKey core p.1 p.2.1 == e.1)
        then (e.1, addTerm mode e.2 0) else e)
    else acc
  ps.foldl (fun a p => let k := cellKey core p.1 p.2.1; sset 0 a k (addTerm mode (sget 0 a k) p.2.2)) acc

def outer (a b : List (Nat × Int)) : List (Nat × Nat × Int) :=
  (a.map (fun x => b.map (fun y => (x.1, y.1, x.2 * y.2)))).flatten

/-! Operands (R225, R226). -/

/-- One array operation: op 0 MOP, 1 MOPS, 2 MOPG, with the registers, rows and configuration it takes. -/
structure Job where
  op : Nat
  mode : Nat
  sa : Nat
  sb : Nat
  da : Desc
  db : Desc
  va : Nat
  vb : Nat
  vm : Nat
  ra : Nat
  rb : Nat
  rm : Nat
  k : Nat
  gset : Bool
  diag : Nat
  pred : Nat
  deriving DecidableEq, Repr

/-- The element at position `g` of row `row` of tile `t`. -/
def elemOf (s : State) (t row g : Nat) : Nat := t * (s.h.csr.rlen * s.h.csr.rows) + row * s.h.csr.rlen + g

/-- Whether that position feeds (R225). -/
def feeds (s : State) (pred t row g : Nat) : Bool :=
  decide (g < s.h.csr.rlen) && decide (elemOf s t row g < s.h.csr.vl) && predBit s pred (elemOf s t row g)

/-- The integer a pattern feeds in INT and SAT32 (R226). -/
def fedInt (d : Desc) (v : Nat) : Int :=
  let k : Int := match d.fmt with | 10 => 1 | 11 => 3 | 12 => 4 | 13 => 6 | _ => 0
  if d.fmt < 2 then intVal d v
  else match decodeFloat d.fmt v with
    | .fin neg m e _ => scaled neg m (e + k) 0
    | _ => 0

/-- Formats of INT and SAT32 (R226). -/
def arrayDesc (d : Desc) : Bool := (d.fmt < 2 && decide (d.w ≤ 16)) || (decide (10 ≤ d.fmt) && decide (d.fmt ≤ 13))

/-- Whether the operation accepts its descriptors and MODE (R226, R231, R232). -/
def Job.accepts (j : Job) : Bool :=
  if j.mode = 2 then j.op == 0 && decide (2 ≤ j.da.fmt) && decide (j.da.fmt ≤ 9) && decide (2 ≤ j.db.fmt) && decide (j.db.fmt ≤ 9)
  else if j.op = 2 then arrayDesc j.da && j.db.fmt == 14
  else arrayDesc j.da && arrayDesc j.db

/-- The nonzero values of positions `off` to `off` + 255 of a row. -/
def feedRow (s : State) (j : Job) (n w t row off : Nat) (f : Nat → Int) : List (Nat × Int) :=
  (List.range 256).filterMap (fun i =>
    if feeds s j.pred t row (off + i) then
      let v := f (elemBits s n w (elemOf s t row (off + i)))
      if v = 0 then none else some (i, v)
    else none)

def feedA (s : State) (j : Job) (t row off : Nat) : List (Nat × Int) := feedRow s j j.va j.da.w t row off (fedInt j.da)
def feedB (s : State) (j : Job) (t row off : Nat) : List (Nat × Int) := feedRow s j j.vb j.db.w t row off (fedInt j.db)

/-- Whether a feeding position of the row touches poison. -/
def rowFeedsPoison (s : State) (j : Job) (n w t row len : Nat) : List Nat :=
  if s.poisonLane.isEmpty then []
  else (List.range len).filter (fun i =>
    feeds s j.pred t row i && (elemPoisoned s n w (elemOf s t row i) || predPoisoned s j.pred (elemOf s t row i)))

/-! The structured-sparse metadata (R231). -/

/-- The 64-bit metadata element for group `q` and column `j`, as its lanes hold it; and its poison. -/
def metaSpot (s : State) (j : Job) (t q col : Nat) : Spot :=
  ⟨s.h.core + t, physRow s (s.h.core + t) (j.rm + q / 64), 16 * (q % 64) + col / 16⟩

def metaNibble (s : State) (j : Job) (t q col : Nat) : Nat :=
  if s.h.hot.contains (.v j.vm) then (Config.freeBits s.free (2 ^ 62 + (t * 1024 + q) * 256 + col)).toNat % 16
  else match (vreg s j.vm).first with
    | some p => bitsAt s (metaSpot s j t q col) p 64 / 2 ^ (4 * (col % 16)) % 16
    | none => 0

def metaOk (n : Nat) : Bool := decide (n % 4 < n / 4)

/-- The first (q, j) of a tile whose indices are out of order. -/
def metaFault (s : State) (j : Job) (t : Nat) : Option (Nat × Nat) :=
  firstSome (List.range (j.k / 4)) (fun q =>
    ((List.range 256).find? (fun col => !metaOk (metaNibble s j t q col))).map (fun col => (q, col)))

/-- The first poisoned codeword of the metadata of a tile, by its address in R419. -/
def metaPoison (s : State) (j : Job) (t : Nat) : Option Nat :=
  match (vreg s j.vm).first with
  | none => none
  | some p =>
    if s.poisonLane.isEmpty then none
    else firstSome (List.range (j.k / 4)) (fun q => firstSome (List.range 16) (fun b =>
      let x := metaSpot s j t q (16 * b)
      ((List.range 64).map (fun k => codewordKey x (p + k) x.lane)).find? (sget false s.poisonLane)))

/-! The K terms of one tile, in order. -/

def mopTerms (s : State) (j : Job) (t : Nat) : List (List (Nat × Nat × Int)) :=
  (List.range j.k).map (fun k => outer (feedA s j t (j.ra + k) 0) (feedB s j t (j.rb + k) 0))

/-- Two K terms per group: x0 with row B0, then x1 with row B1. -/
def mopsTerms (s : State) (j : Job) (t : Nat) : List (List (Nat × Nat × Int)) :=
  ((List.range (j.k / 4)).map (fun q => [0, 1].map (fun h =>
    let as := (List.range 4).map (fun x => feedA s j t (j.ra + q) (256 * x))
    ((feedB s j t (j.rb + q) (256 * h)).map (fun b =>
      let nib := metaNibble s j t q b.1
      let x := if h = 0 then nib % 4 else nib / 4
      (as.getD x []).map (fun a => (a.1, b.1, a.2 * b.2)))).flatten))).flatten

/-- B generated from the seed records of each K block (R232, R248). -/
def mopgTerms (s : State) (j : Job) (t : Nat) : List (List (Nat × Nat × Int)) :=
  (List.range j.k).map (fun k =>
    outer (feedA s j t (j.ra + k) 0)
      (feedRow s j j.vb 32 t (j.rb + k / 16) 0 (fun rec => recordWeight rec (k % 16))))

/-! Sliced operands (R76, R229). -/

def feedFloat (s : State) (j : Job) (n t row : Nat) (d : Desc) (i : Nat) : FVal :=
  if feeds s j.pred t row i then decodeFloat d.fmt (elemBits s n d.w (elemOf s t row i)) else .zero

/-- The group exponent of R76. -/
def groupExp (xs : List FVal) : Int := (maxLogOf xs).getD 0
where
  /-- The largest floor(log2 |x|) over the finite nonzero values. -/
  maxLogOf : List FVal → Option Int
    | [] => none
    | .fin _ m e _ :: r =>
      if m = 0 then maxLogOf r
      else some (match maxLogOf r with | some x => max (logMag m e) x | none => logMag m e)
    | _ :: r => maxLogOf r

/-- The element integer, and whether it was held below 2^N (R76, R229). -/
def elementInt (sl : Nat) (g : Int) (v : FVal) : Int × Bool :=
  match v with
  | .fin neg m e _ =>
    let x := (cutAt m (e + (8 * sl : Nat) - 1 - g) 0 false).n
    let y := min x (2 ^ (8 * sl) - 1)
    (if neg then -(y : Int) else y, y != x)
  | _ => (0, false)

/-- Slice `m` of an element integer. -/
def sliceOf (sl m : Nat) (x : Int) : Int :=
  let v : Int := (x.natAbs / 2 ^ (8 * (sl - 1 - m)) % 256 : Nat)
  if x < 0 then -v else v

def isSpecial : FVal → Bool
  | .fin _ _ _ _ => false
  | _ => true

/-- The slice pairs of a diagonal, in ascending m (R76, R229). -/
def diagPairs (sa sb d : Nat) : List (Nat × Nat) :=
  (List.range sa).filterMap (fun m => if m ≤ d ∧ d - m < sb ∧ d < max sa sb then some (m, d - m) else none)

/-- Sets one exponent table from the operands of all K terms (GSET). -/
def setExps (s : State) (j : Job) (t sel n row0 : Nat) (d : Desc) : State :=
  (List.range 256).foldl (fun q i =>
    setTable q (s.h.core + t) sel i (groupExp ((List.range j.k).map (fun k => feedFloat s j n t (row0 + k) d i)))) s

/-- Marks the lines whose feed held a NaN or an infinity. -/
def setMarks (s : State) (j : Job) (t sel n row0 : Nat) (d : Desc) : State :=
  (List.range 256).foldl (fun q i =>
    if (List.range j.k).any (fun k => isSpecial (feedFloat s j n t (row0 + k) d i))
    then { q with tables := sset 0 q.tables (tableKey (s.h.core + t) sel i) 1 } else q) s

/-- The element integers of one operand row. -/
def slicedRow (s : State) (j : Job) (t n row sl sel : Nat) (d : Desc) : List (Nat × Int × Bool) :=
  (List.range 256).filterMap (fun i =>
    let (x, beyond) := elementInt sl (tableInt s (s.h.core + t) sel i) (feedFloat s j n t row d i)
    if x = 0 then none else some (i, x, beyond))

/-- One SLICED MOP in one tile; the flag is FCSR.OF. -/
def slicedTile (s : State) (j : Job) (t : Nat) : State × FlagSet :=
  let s := if j.gset then setExps (setExps (clearMarks s (s.h.core + t)) j t 5 j.va j.ra j.da) j t 6 j.vb j.rb j.db else s
  let s := setMarks (setMarks s j t 7 j.va j.ra j.da) j t 8 j.vb j.rb j.db
  (List.range j.k).foldl (fun (acc : State × FlagSet) k =>
    let a := slicedRow s j t j.va (j.ra + k) j.sa 5 j.da
    let b := slicedRow s j t j.vb (j.rb + k) j.sb 6 j.db
    let beyond := a.any (fun x => x.2.2) || b.any (fun x => x.2.2)
    let acc2 := (diagPairs j.sa j.sb j.diag).foldl (fun m p =>
      applyTerm 2 (s.h.core + t) m (outer
        ((a.map (fun x => (x.1, sliceOf j.sa p.1 x.2.1))).filter (fun x => x.2 != 0))
        ((b.map (fun x => (x.1, sliceOf j.sb p.2 x.2.1))).filter (fun x => x.2 != 0)))) acc.1.acc
    ({ acc.1 with acc := acc2 }, if beyond then acc.2 ||| fOf else acc.2)) (s, 0)

/-! One operation. -/

/-- A write of accumulator rows lets armed errors strike (R424). -/
def strikeAcc (core i0 n : Nat) (s : State) : State :=
  if s.armed.isEmpty then s else (List.range n).foldl (fun s i => strike s 2 (core * 256 + i0 + i)) s

def markAcc (s : State) (core : Nat) (rows : List Nat) : State :=
  if rows.isEmpty then s
  else { s with poisonAcc := rows.foldl (fun m i => sset false m (core * 256 + i) true) s.poisonAcc }

/-- The accumulator rows that poisoned operands reach (R416): a row of A its own, anything of B or the metadata all. -/
def poisonedRows (s : State) (j : Job) (t : Nat) : List Nat :=
  if s.poisonLane.isEmpty then []
  else
    let na := if j.op = 1 then j.k / 4 else j.k
    let nb := if j.op = 1 then j.k / 4 else if j.op = 2 then j.k / 16 else j.k
    let wide := if j.op = 1 then 1024 else 256
    let b := (List.range nb).any (fun k => !(rowFeedsPoison s j j.vb (if j.op = 2 then 32 else j.db.w) t (j.rb + k)
      (if j.op = 1 then 512 else 256)).isEmpty)
    if b || (j.op == 1 && (metaPoison s j t).isSome) then List.range 256
    else ((List.range na).map (fun k => (rowFeedsPoison s j j.va j.da.w t (j.ra + k) wide).map (· % 256))).flatten

/-- The record of a poisoned metadata codeword that MOPS or a follow-on sweep reads (R419 code 0x05). -/
def metaRecord (s : State) (j : Job) (t : Nat) (pc : Word) : State :=
  match (if j.op = 1 then metaPoison s j t else none) with
  | none => s
  | some a => addRecord s { (Record.blank s).about (myGang s) with
      agent := 6, pkg := dieOfCore (s.h.core + t), cls := 0x12, code := 5, hart := s.h.idx, pc, addr := BitVec.ofNat 64 a }

/-- Runs an array operation in one tile, of the instruction or copy at `pc`. -/
def runJob (s : State) (j : Job) (t : Nat) (pc : Word) : State × FlagSet :=
  let s := metaRecord s j t pc
  let bad := poisonedRows s j t
  let core := s.h.core + t
  let (s, fl) : State × FlagSet :=
    if j.mode = 2 then slicedTile s j t
    else
      let terms := match j.op with
        | 0 => mopTerms s j t
        | 1 => mopsTerms s j t
        | _ => mopgTerms s j t
      ({ s with acc := terms.foldl (applyTerm j.mode core) s.acc }, 0)
  (strikeAcc core 0 256 (markAcc s core bad), fl)

/-- The row ranges of R403, in the order A, B, metadata. -/
def Job.rows (j : Job) : List (Nat × Nat) :=
  match j.op with
  | 0 => [(j.ra, j.k), (j.rb, j.k)]
  | 1 => [(j.ra, j.k / 4), (j.rb, j.k / 4), (j.rm, ceilDiv j.k 256)]
  | _ => [(j.ra, j.k), (j.rb, j.k / 16)]

/-- The checks of class 0x0a before issue (R402). -/
def jobTrap (c : Ctl) (s : State) (j : Job) : Option Trap :=
  (foldTrap s).orElse fun _ =>
  (rowsTrap s j.rows).orElse fun _ =>
  (arithTrap s (!j.accepts) 8 (descsWord c s).toNat).orElse fun _ =>
  (arithTrap s (j.mode == 2 && decide (max j.sa j.sb ≤ j.diag)) 9 j.diag).orElse fun _ =>
  (arithTrap s (j.op == 2 && j.k % 16 != 0) 0x0a j.k).orElse fun _ =>
  arithTrap s (j.op == 1 && decide ((vreg s j.vm).width < 64)) 0x0b j.vm

/-- The common form of MOP, MOPS and MOPG: metadata of every tile is checked before any cell changes. -/
def arrayOp (c : Ctl) (s : State) (j : Job) : Out :=
  let names := [srcNamed (BitVec.ofNat 6 j.va) j.da.w,
      { reg := j.vb, width := some (if j.op = 2 then max 32 j.db.w else j.db.w) }] ++
    (if j.op = 1 then [{ reg := j.vm }] else [])
  vecFrame c s [.a, .b] true names none (jobTrap c s j) (fun s =>
    let tiles := List.range s.h.csr.tiles
    match (if j.op = 1 then firstSome tiles (fun t => (metaFault s j t).map (fun q => (t, q))) else none) with
    | some (t, q) => takeTrap s (Trap.here s 0x0a 5 (BitVec.ofNat 64 (t * 2 ^ 32 + q.1 * 65536 + q.2)))
    | none =>
      let r := tiles.foldl (fun (acc : State × FlagSet) t =>
        let q := runJob acc.1 j t s.h.pc
        (q.1, acc.2 ||| q.2)) (s, 0)
      retire c (orFlags r.1 r.2))

/-- The job that an instruction describes. -/
def jobOf (c : Ctl) (o : V3) (s : State) (op : Nat) : Job :=
  let km := c.imm.toNat % 256 + 1
  { op, mode := mcfgMode s, sa := mcfgSa s, sb := mcfgSb s, da := descOf c s .a, db := descOf c s .b
    va := o.va.toNat, vb := o.vb.toNat, vm := o.vd.toNat, ra := c.rowa.toNat, rb := c.rowb.toNat
    rm := c.imm.toNat / 256 % 256, k := if op = 1 then 4 * km else km
    gset := c.imm.getLsbD 19, diag := c.imm.toNat / 65536 % 8, pred := c.pred.toNat }

/-- GSET and DIAG are reserved outside SLICED (R227, R408). -/
def execMop (c : Ctl) (o : V3) (s : State) : Out :=
  if mcfgMode s ≠ 2 ∧ c.imm.toNat / 65536 % 16 ≠ 0 then raise s 2 4 (illegalEaddr (.mop c o))
  else arrayOp c s (jobOf c o s 0)
def execMops (c : Ctl) (o : V3) (s : State) : Out := arrayOp c s (jobOf c o s 1)
def execMopg (c : Ctl) (o : V3) (s : State) : Out := arrayOp c s (jobOf c o s 2)

def tileCores (s : State) : List Nat := (List.range s.h.csr.tiles).map (· + s.h.core)

/-- Clears the cells, CF, marks and poison of a tile (R233). -/
def zeroAcc (s : State) (core : Nat) : State :=
  strikeAcc core 0 256 (clearMarks { s with
    acc := sdrop s.acc (fun k => k / 65536 == core), poisonAcc := sdrop s.poisonAcc (fun k => k / 256 == core) } core)

/-- MZERO is a matrix instruction: FOLD ≠ 1 traps (R225, R402). -/
def execMzero (c : Ctl) (_o : V3) (s : State) : Out :=
  match foldTrap s with
  | some t => .next (takeTrap s t)
  | none => .next (retire c ((tileCores s).foldl zeroAcc s))

/-! Drains (R234 to R237). -/

/-- A drain: mode 0 .int, 1 .rq, 2 .flt. -/
structure Drain where
  mode : Nat
  i0 : Nat
  n : Nat
  row : Nat
  addp : Bool
  clr : Bool
  sliced : Bool
  rm : Nat
  dd : Desc
  ua : Int
  ub : Int
  va : Nat
  vb : Nat
  deriving DecidableEq, Repr

/-- The drain exponent of R226. -/
def drainExp (fmt : Nat) : Int := match fmt with | 10 => -1 | 11 => -3 | 12 => -4 | 13 => -6 | _ => 0

/-- A value v·2^e. -/
def FVal.ofScaled (v e : Int) : FVal := .fin (decide (v < 0)) v.natAbs e false

/-- Cell (i, j) of image slot `k` of V`n`, as its lanes hold it; rows beyond the grant read zero (R238, R408). -/
def imageCell (s : State) (n t k i j : Nat) : Int :=
  let row := 64 * k + i / 4
  if s.h.hot.contains (.v n) then (BitVec.setWidth 40 (Config.freeBits s.free (2 ^ 63 + ((t * 4 + k) * 256 + i) * 256 + j))).toInt
  else match (vreg s n).first with
    | some p =>
      if row < s.h.csr.rows then
        signedOf 40 (bitsAt s ⟨s.h.core + t, physRow s (s.h.core + t) row, 256 * (i % 4) + j⟩ p 40)
      else 0
    | none => 0

/-- The exact V of a .flt drain, or the NaN with its flag (R76, R77, R236). -/
def drainExact (s : State) (q : Drain) (t i j : Nat) : Except FlagSet FVal :=
  let core := s.h.core + t
  let acc := cellVal (cellAt s core i j)
  let ga := tableInt s core 5 i
  let gb := tableInt s core 6 j
  let mul := tableInt s core 0 j
  let shr := tableInt s core 1 j
  if q.sliced then
    if marked s core 7 i || marked s core 8 j then .error fNv
    else
      let sa := mcfgSa s
      let sb := mcfgSb s
      let top := max sa sb
      let sum := (List.range top).foldl (fun x d =>
        let cd := if d + 1 = top then acc
          else if d < 4 then imageCell s q.va t d i j else imageCell s q.vb t (d - 4) i j
        x + cd * 2 ^ (8 * (sa + sb - 2 - d))) 0
      .ok (FVal.ofScaled (sum * mul) (ga + gb - (8 * (sa + sb) : Nat) + 2 - shr))
  else if ga = -32768 ∨ gb = -32768 then .error 0
  else .ok (FVal.ofScaled ((acc - tableInt s core 2 j - tableInt s core 3 i) * mul) (ga + gb + q.ua + q.ub - shr))

/-- The result of one cell: its bits, its flags, and whether it rounded in mode rm. -/
def drainCell (s : State) (q : Drain) (t i j e vd : Nat) : Nat × FlagSet × Bool :=
  let core := s.h.core + t
  let prior := elemBits s vd q.dd.w e
  let sat := fun v : Int => let w := clampInt q.dd v; (wrap q.dd.w w, (if w = v then 0 else fSat : FlagSet))
  let p : Int := if q.addp then intVal q.dd prior else 0
  let v := cellVal (cellAt s core i j) - tableInt s core 2 j - tableInt s core 3 i
  if q.mode = 0 then let r := sat (v + p); (r.1, r.2, false)
  else if q.mode = 1 then
    let x := v * tableInt s core 0 j
    let y := (roundInt q.rm (drawZ s e) (decide (x < 0)) x.natAbs (-(tableInt s core 1 j)) false).1
    let r := sat (y + tableInt s core 4 j + p)
    (r.1, r.2, true)
  else match drainExact s q t i j with
    | .error fl => (canonNan q.dd.fmt, fl, false)
    | .ok w =>
      let sum := if q.addp then (decodeFloat q.dd.fmt prior).add q.rm (roundW w) else (roundW w, 0)
      let r := fitFloat q.dd.fmt q.rm (drawZ s e) sum.1
      (r.1, sum.2 ||| r.2, true)

/-- The destination elements of one tile, as (tile, i, j, element). -/
def drainPlaces (s : State) (q : Drain) (t : Nat) : List (Nat × Nat × Nat × Nat) :=
  ((List.range q.n).map (fun k => (List.range (min 256 s.h.csr.rlen)).map (fun j =>
    (t, q.i0 + k, j, elemOf s t (q.row + k) j)))).flatten |>.filter (fun x => decide (x.2.2.2 < s.h.csr.vl))

/-- Whether key `k` of ACC is a drained cell of the granted tiles. -/
def drained (s : State) (q : Drain) (k : Nat) : Bool :=
  decide (s.h.core ≤ k / 65536) && decide (k / 65536 < s.h.core + s.h.csr.tiles) &&
    decide (q.i0 ≤ k / 256 % 256) && decide (k / 256 % 256 < q.i0 + q.n)

def accPoisoned (s : State) (core i : Nat) : Bool := sget false s.poisonAcc (core * 256 + i)

/-- The drain's effect. -/
def drainCore (c : Ctl) (q : Drain) (vd : Nat) (s : State) : State :=
  let places := ((List.range s.h.csr.tiles).map (drainPlaces s q)).flatten
  let cells := places.filterMap (fun x =>
    let (t, i, j, e) := x
    if predBit s c.pred.toNat e then
      let r := drainCell s q t i j e vd
      some (FItem.mk e r.1 r.2.1 (accPoisoned s (s.h.core + t) i || predPoisoned s c.pred.toNat e ||
        (q.addp && elemPoisoned s vd q.dd.w e)), r.2.2)
    else if c.z then some (FItem.mk e 0 0 false, false) else none)
  let items := cells.map (fun x => x.1)
  let hot := fun i => s.h.hot.contains (.acc i)
  let cf := s.acc.any (fun e => drained s q e.1 && cellCf e.2 && !accPoisoned s (e.1 / 65536) (e.1 / 256 % 256) &&
      !hot (e.1 / 256 % 256)) ||
    ((List.range q.n).any (fun k => hot (q.i0 + k)) && (Config.freeBits s.free (2 ^ 60 - 1)).getLsbD 0)
  let es := (cells.filter (fun x => x.2)).map (fun x => x.1.elem)
  let s := drawn q.rm es (orFlags (writeElems s vd q.dd.w q.dd.sgn (items.map FItem.item))
    (flagsOf items ||| if cf then fSat else 0))
  let s := if q.clr then
      (List.range s.h.csr.tiles).foldl (fun s t => strikeAcc (s.h.core + t) q.i0 q.n s)
        { s with acc := sdrop s.acc (drained s q), poisonAcc := sdrop s.poisonAcc (fun k => drained s q (k * 256)) }
    else s
  retire c s

def drainTrap (c : Ctl) (s : State) (q : Drain) : Option Trap :=
  (foldTrap s).orElse fun _ =>
  (arithTrap s (decide (256 < q.i0 + q.n)) 7 256).orElse fun _ =>
  (rowsTrap s [(q.row, q.n)]).orElse fun _ =>
  arithTrap s (if q.mode = 2 then !fpDesc q.dd else !intDesc q.dd) 8 (descsWord c s).toNat

/-- MDRAIN. Outside SLICED a .flt drain takes its exponents from DESCA and DESCB; in SLICED it names an image register for each
group of diagonals it reads (R234, R236); outside it VA and VB are named by nothing and so reserved (R134). -/
def execMdrain (c : Ctl) (o : V3) (s : State) : Out :=
  let mode := c.imm.toNat / 65536 % 4
  let sliced := mode == 2 && mcfgMode s == 2
  let top := max (mcfgSa s) (mcfgSb s)
  let D := descOf c s .d
  let addp := c.imm.getLsbD 19
  if mode == 2 && !sliced && (o.va != 0 || o.vb != 0) then raise s 2 4 (illegalEaddr (.mdrain c o)) else
  let q : Drain :=
    { mode, i0 := c.imm.toNat % 256, n := c.imm.toNat / 256 % 256 + 1, row := c.rowa.toNat, addp, clr := c.imm.getLsbD 20
      sliced, rm := rmOf c s, dd := D, ua := drainExp (descOf c s .a).fmt, ub := drainExp (descOf c s .b).fmt
      va := o.va.toNat, vb := o.vb.toNat }
  let images := (if sliced && decide (1 < top) then [srcNamed o.va 41] else []) ++
    (if sliced && decide (5 < top) then [srcNamed o.vb 41] else [])
  vecFrame c s (if mode == 2 && !sliced then [.a, .b, .d] else [.d]) true
    (images ++ [if addp then srcNamed o.vd D.w else dstNamed c o.vd D.w]) none (drainTrap c s q) (drainCore c q o.vd.toNat)

/-! MSCALE (R230). -/

/-- The entry range of a selector. -/
def tableRange (sel : Nat) : Int × Int :=
  match sel with
  | 0 | 4 => (-(2 ^ 31), 2 ^ 31 - 1)
  | 1 => (0, 63)
  | 2 | 3 => (-(2 ^ 39), 2 ^ 39 - 1)
  | 5 | 6 => (-(2 ^ 15), 2 ^ 15 - 1)
  | _ => (0, 255)

/-- The table that a selector loads. -/
def tableOf (sel : Nat) : Nat := if sel = 7 then 5 else if sel = 8 then 6 else sel

/-- One loaded entry and whether it clamped. -/
def scaleEntry (sel : Nat) (v : Int) : Int × Bool :=
  let r := tableRange sel
  let w := max r.1 (min r.2 v)
  (if 7 ≤ sel then (if w = 255 then -32768 else w - 127) else w, w != v)

def scaleTile (c : Ctl) (sel vd : Nat) (D : Desc) (acc : State × FlagSet) (t : Nat) : State × FlagSet :=
  (List.range 256).foldl (fun (acc : State × FlagSet) j =>
    let s := acc.1
    if feeds s c.pred.toNat t c.rowa.toNat j then
      let e := elemOf s t c.rowa.toNat j
      let r := scaleEntry sel (elemInt s D vd e)
      (setTable s (s.h.core + t) (tableOf sel) j r.1, if r.2 && !elemPoisoned s vd D.w e then acc.2 ||| fSat else acc.2)
    else (setTable s (s.h.core + t) (tableOf sel) j (tableReset sel), acc.2)) acc

def execMscale (c : Ctl) (o : VX) (s : State) : Out :=
  let sel := (rx s o.xa).toNat % 16
  let D := descOf c s .d
  if 9 ≤ sel then raise s 2 8 (illegalEaddr (.mscale c o))
  else vecFrame c s [.d] (intDesc D) [srcNamed o.vd D.w] none
    ((foldTrap s).orElse fun _ => rowsTrap s [(c.rowa.toNat, 1)])
    (fun s =>
      let r := (List.range s.h.csr.tiles).foldl (scaleTile c sel o.vd.toNat D) (s, 0)
      retire c (orFlags r.1 r.2))

/-! MSAVE and MREST (R238). -/

def imageTrap (s : State) (vd k : Nat) : Option Trap :=
  let g := s.h.csr
  (arithTrap s (g.fold != 1 || g.rlen != 1024 || decide (g.rows < 64 * k + 64)) 6 (g.fold * 65536 + g.rlen)).orElse fun _ =>
  narrowTrap s [(vd, 41)]

def saveTile (vd k : Nat) (s : State) (t : Nat) : State :=
  match (vreg s vd).first with
  | none => s
  | some p =>
    let core := s.h.core + t
    (List.range 64).foldl (fun q r =>
      writeRow q core (physRow s core (64 * k + r)) p 41 ((List.range 1024).map (fun l =>
        (l, (cellAt s core (4 * r + l / 256) (l % 256)).toNat, accPoisoned s core (4 * r + l / 256))))) s

def restTile (vd k : Nat) (s : State) (t : Nat) : State :=
  match (vreg s vd).first with
  | none => s
  | some p =>
    let core := s.h.core + t
    let spot := fun r l => (⟨core, physRow s core (64 * k + r), l⟩ : Spot)
    let cells : Sparse (BitVec 41) := ((List.range 65536).map (fun x =>
      (x, BitVec.ofNat 41 (if s.h.hot.contains (.v vd) then (Config.freeBits s.free (2 ^ 64 + x)).toNat
        else bitsAt s (spot (x / 1024) (x % 1024)) p 41)))).filter (fun e => e.2 != 0)
    let bad := (List.range 256).filter (fun i => (List.range 256).any (fun j =>
      spotPoisoned s (spot (i / 4) (256 * (i % 4) + j)) p 41))
    let s := clearMarks { s with acc := ssplice s.acc (core * 65536) 65536 cells } core
    strikeAcc core 0 256 (markAcc { s with poisonAcc := sdrop s.poisonAcc (fun x => x / 256 == core) } core bad)

def execMsave (c : Ctl) (o : VX) (s : State) : Out :=
  let k := (rx s o.xa).toNat % 4
  vecFrame c s [] true [{ reg := o.vd.toNat, fill := false }] none (imageTrap s o.vd.toNat k)
    (fun s => retire c ((List.range s.h.csr.tiles).foldl (saveTile o.vd.toNat k) s))

def execMrest (c : Ctl) (o : VX) (s : State) : Out :=
  let k := (rx s o.xa).toNat % 4
  vecFrame c s [] true [{ reg := o.vd.toNat }] none (imageTrap s o.vd.toNat k)
    (fun s => retire c ((List.range s.h.csr.tiles).foldl (restTile o.vd.toNat k) s))

/-! Ramps and bursts (R239). -/

def Ramp.init : Ramp := ⟨.cold, 0, 0, none⟩
def rampAt (s : State) (core : Nat) : Ramp := sget Ramp.init s.ramps core
def setRamp (s : State) (core : Nat) (r : Ramp) : State := { s with ramps := sset Ramp.init s.ramps core r }

/-- Ramp-up filler of an MBURST from cy `t`, then a hold of `h` cy. -/
def rampUp (s : State) (core t h : Nat) : State :=
  schedule (schedule (setRamp s core ⟨.up, t + 31, t + 31 + h, none⟩) (t + 32) (.arrayRampUpEnd core)) (t + 32 + h) (.burstHoldEnd core)

/-- The hold that an MBURST asks of one array at cy `t`. DESIGN CHOICE (log 71): during another MBURST's ramp-up, which R239 does not name,
the hold counts from the end of that ramp-up. -/
def burst (h t : Nat) (s : State) (core : Nat) : State :=
  let r := rampAt s core
  match r.st with
  | .cold => rampUp s core t h
  | .down => setRamp s core { r with queued := some (max h (r.queued.getD 0)) }
  | .up => schedule (setRamp s core { r with holdTo := max r.holdTo (r.upto + h) }) (r.upto + h + 1) (.burstHoldEnd core)
  | _ => schedule (setRamp s core { r with st := .held, holdTo := max r.holdTo (t + h) }) (t + h + 1) (.burstHoldEnd core)

def execMburst (c : Ctl) (_o : XL) (s : State) : Out :=
  let h := if c.imm.toInt < 0 then 0 else c.imm.toNat
  .next (retire c ((tileCores s).foldl (burst h (s.h.issueCy + 2)) s))

/-- Ramp-down filler begins now. -/
def rampDown (s : State) (core : Nat) : State :=
  schedule (setRamp s core ⟨.down, s.cyc + 31, 0, none⟩) (s.cyc + 32) (.arrayRampDownEnd core)

/-- ARRAY_RAMP_UP_END: the array is held. -/
def execArrayRampUpEnd (core : Nat) (s : State) : Out :=
  let r := rampAt s core
  .next (if r.st == .up then setRamp s core { r with st := .held } else s)

/-- ARRAY_RAMP_DOWN_END: cold, or the queued MBURST's ramp-up. -/
def execArrayRampDownEnd (core : Nat) (s : State) : Out :=
  let r := rampAt s core
  .next (if r.st == .down then
      match r.queued with
      | some h => rampUp s core s.cyc h
      | none => setRamp s core Ramp.init
    else s)

/-- BURST_HOLD_END: a hold that closes with no occupancy leads to ramp-down. -/
def execBurstHoldEnd (core : Nat) (s : State) : Out :=
  let r := rampAt s core
  .next (if (r.st == .held || r.st == .warm) && decide (r.holdTo < s.cyc) && decide (r.upto < s.cyc) then rampDown s core else s)

/-! MWAIT (R240). -/

/-- A follow-on sweep runs in a granted tile. -/
def sweepRunning (s : State) : Bool := s.sweeps.any (fun w => w.running && (tileCores s).contains w.core)

/-- 1 where some CF of a granted tile is set; open where only tiles in which a follow-on sweep runs could have one, whose rows are in its
exposed window (R41, R240). -/
def anyCf (s : State) : Word :=
  let cf := fun (core : Nat) => s.acc.any (fun e => e.1 / 65536 == core && cellCf e.2)
  let sure := (tileCores s).filter (fun core => s.sweeps.all (fun w => !(w.running && w.core == core)))
  if sure.any cf then 1
  else if sweepRunning s then flag (Config.freeChoice s.free (2 ^ 119))
  else flag ((tileCores s).any cf)

def execMwait (c : Ctl) (o : X3) (s : State) : Out :=
  if (rx s o.xa).getLsbD 0 && sweepRunning s then .next (holdFor s .mwait (.mwait c o))
  else if s.poisonAcc.any (fun e => e.2 && (tileCores s).contains (e.1 / 256)) then .next (poisonEnd s 0)
  else alu c o.xd (anyCf s) s

/-! Occupancy of the array (R228, R229, R231, R232, R239). -/

/-- Digits of an operand (R226). -/
def digits (d : Desc) : Nat := match d.fmt with
  | 10 => 1 | 12 => 3 | 11 => 2 | 13 => 2 | 14 => 2 | _ => ceilDiv d.w 4

/-- O of an array operation, without ramp filler. -/
def Job.occupancy (j : Job) : Nat :=
  let na := digits j.da
  let nb := digits j.db
  let f := if j.ra = j.rb then ceilDiv (na + nb) 2 else ceilDiv na 2 + ceilDiv nb 2
  if j.mode = 2 then 4 + 4 * (diagPairs j.sa j.sb j.diag).length * j.k + if j.gset then 2 * j.k + 4 else 0
  else match j.op with
    | 0 => 4 + j.k * max (na * nb) f
    | 1 => 8 + 8 * ceilDiv j.k 256 + j.k / 4 * max (2 * na * nb) f
    | _ => 4 + 2 * na * j.k

/-- For an array instruction that would begin in cy `t`: the first cy in which it may, past a ramp in progress, and its own ramp-up
filler (R239). -/
def Ramp.ahead (r : Ramp) (t : Nat) : Nat × Nat :=
  let free := fun (busy : Nat) =>    -- nothing holds the array after cy `busy`
    if t ≤ busy + 1 then (t, 0) else if t ≤ busy + 32 then (busy + 33, 32) else (t, 32)
  match r.st with
  | .cold => (t, 32)
  | .down => match r.queued with
    | none => (max t (r.upto + 1), 32)
    | some h => if t ≤ r.upto + 1 then (r.upto + 1, 32) else if t ≤ r.upto + 32 then (r.upto + 33, 0) else free (r.upto + 32 + h)
  | .up => if t ≤ r.upto then (r.upto + 1, 0) else free (max r.upto r.holdTo)
  | _ => free (max r.upto r.holdTo)

def rampFiller (s : State) (core t : Nat) : Nat := ((rampAt s core).ahead t).2

/-- An array occupancy of `n` cy, filler included, begins in cy `t` (R239). An MBURST that waits for the end of a ramp-down shares the
ramp-up, and its hold counts from there. -/
def arrayOccupy (s : State) (core t n : Nat) : State :=
  let r := rampAt s core
  let s := schedule s (t + n) (.arrayRampDown core)
  match (if r.st == .down then r.queued else none) with
  | none => setRamp s core ⟨.warm, t + n - 1, r.holdTo, none⟩
  | some h =>
    schedule (setRamp s core ⟨.warm, t + n - 1, r.upto + 32 + h, none⟩) (r.upto + 33 + h) (.burstHoldEnd core)

end Sys2Proof.Machine
end

