-- ==== Sys2Proof/Machine/Disturb.lean ====
section
/-! DEFINITION. What a write leaves when it may land before an earlier instruction has finished its reads (R16, R42, R242): the
results of that instruction are free values, since which of its reads see the new value is not architected (R41, log 68). -/
namespace Sys2Proof.Machine

/-- A free pattern for element `e` of a disturbed destination `n`. -/
def freePattern (s : State) (n e : Nat) : Nat := (Config.freeBits s.free (2 ^ 110 + n * 2 ^ 80 + e)).toNat

/-- Row `i` of the accumulators of the granted tiles becomes free. -/
def freeAccRow (s : State) (i : Nat) : State :=
  { s with acc := (tileCores s).foldl (fun m core => (List.range 256).foldl (fun m j =>
      sset 0 m (cellKey core i j) ((Config.freeBits s.free (2 ^ 111 + cellKey core i j)).setWidth 41)) m) s.acc }

/-- Table `sel` of the granted tiles becomes free. -/
def freeTable (s : State) (sel : Nat) : State :=
  { s with tables := (tileCores s).foldl (fun m core => (List.range 256).foldl (fun m j =>
      sset 0 m (tableKey core sel j) (Config.freeBits s.free (2 ^ 112 + tableKey core sel j))) m) s.tables }

/-- The flags that were to land by cy `upto` may or may not be raised, and others may be. -/
def freeFlags (s : State) (upto : Nat) : State :=
  let due := s.h.flagsDue.foldl (fun f w => if w.1 = upto then f ||| w.2 else f) (0 : BitVec 6)
  modCsr s (fun k => { k with fcsr :=
    (k.fcsr &&& ~~~due.setWidth 64) ||| ((Config.freeBits s.free (2 ^ 113)).setWidth 6).setWidth 64 })

/-- Element `e` of V`n` with its `bits` low bits free. -/
def freeLow (s : State) (n bits e : Nat) : Item :=
  let w := (vreg s n).width
  let v := match (vreg s n).first with | some p => bitsAt s (spotOf s e) p w | none => 0
  let k := min bits w
  ⟨e, freePattern s n e % 2 ^ k + v / 2 ^ k * 2 ^ k, false⟩

/-- The elements below VL that a window covers. -/
def Window.elems (w : Window) (s : State) : List Nat :=
  match w.cells with
  | none => Machine.elems s
  | some (mask, _) => (Machine.elems s).filter (fun e => mask.testBit e)

/-- What the disturbed instruction wrote of a destination takes free values. -/
def freeLoc (s : State) (w : Window) : State :=
  match w.loc with
  | .v n => writeElems s n (vreg s n).width false ((w.elems s).map (freeLow s n (match w.cells with | some (_, b) => b | none => 1024)))
  | .p n => writePred s n ((w.elems s).map (fun e => ⟨e, freePattern s (64 + n) e, false⟩))
  | .x n => setX s (BitVec.ofNat 5 n) (Config.freeBits s.free (2 ^ 114 + n))
  | .acc i => freeAccRow s i
  | .flags => freeFlags s w.upto
  | .table sel => freeTable s sel

/-- The bits that a disturbed tile move stored to word `w` become free, those of other stores stay. -/
def freeWord (s : State) (at_ w : Nat) : State :=
  match writesOf s w with
  | [] => s
  | e0 :: _ =>
    let strip := s.h.strip.map (fun e =>
      if e.word == w && e.at_ == at_ then { e with val := Config.freeBits s.free (2 ^ 115 + w) } else e)
    let strip := restack w 0 e0.old strip
    let s := modH s (fun h => { h with strip })
    let t := putWord s (8 * w) (((s.h.strip.filter (fun e => e.word == w)).getLast?.map (fun e => blend e.mask e.val e.old)).getD e0.old)
      (sget false s.poisonWord w)
    { t with writers := s.writers }

/-- All that the instruction issued in cy `at_` wrote becomes free, but what it took from an accumulator row that is none of `hit`. -/
def disturb (hit : List Loc) (s : State) (at_ : Nat) : State :=
  let s1 := (s.h.exposed.filter (fun w => w.at_ == at_ && w.src.all (fun l => hit.contains l))).foldl freeLoc s
  ((s.h.strip.filter (fun e => e.tile && e.at_ == at_)).map (fun e => e.word)).eraseDups.foldl (fun t w => freeWord t at_ w) s1

/-- The reading spans in `locs` that are not over when a write lands in cy `first` or later. -/
def openReads (h : Hart) (locs : List Loc) (first : Nat) : List Window :=
  h.reading.filter (fun w => locs.contains w.loc && decide (first < w.upto))

/-- The issue cys of the instructions that may still read a location in `locs` when a write to it lands in cy `first` or later. -/
def readersOf (h : Hart) (locs : List Loc) (first : Nat) : List Nat := ((openReads h locs first).map (fun w => w.at_)).eraseDups

/-- What an earlier instruction still reads of `locs`: accumulator rows one by one, another location as any row's source. -/
def readHits (h : Hart) (locs : List Loc) (first at_ : Nat) : List Loc :=
  let ls := ((openReads h locs first).filter (fun w => w.at_ == at_)).map (fun w => w.loc)
  if ls.all (fun l => match l with | .acc _ => true | _ => false) then ls else accRows
where
  accRows : List Loc := (List.range 256).map Loc.acc

/-- A write to `locs` that may land from cy `first` on disturbs the earlier instructions that still read them. -/
def disturbReaders (s : State) (old : Hart) (locs : List Loc) (first : Nat) : State :=
  match readersOf old locs first with
  | [] => s
  | ts => { ts.foldl (fun s t => disturb (readHits old locs first t) s t) s with free := s.free + 1 }

end Sys2Proof.Machine
end

