-- ==== Sys2Proof/Machine/Copies.lean ====
section
/-! DEFINITION. Copies: template fields (R262 to R271), the checks of R411 and R412, the runs of bytes a copy moves, and its
accesses to the four spaces. -/
namespace Sys2Proof.Machine

/-- The start cy of R258. -/
def startCy (tstart : Nat) (q : Copy) : Nat :=
  let c := q.issueCy + 4
  c + ((tstart + q.off + 2 ^ 24 - c % 2 ^ 24) % 2 ^ 24)

/-! The checks at the start (R411, R412). -/

/-- The spaces each kind allows (R262). -/
def spacesOk (q : Copy) : Bool :=
  let plain := fun n => n == 0 || n == 1 || n == 3
  match q.kind with
  | 0 => plain q.ssp && (plain q.dsp || q.ldcv)
  | 1 => plain q.ssp && plain q.dsp
  | 2 | 4 | 5 => plain q.ssp && (q.dsp == 0 || q.dsp == 3)
  | 3 => plain q.ssp
  | 6 => (q.ssp == 2) != (q.dsp == 2)
  | 7 => q.ssp == 1 && (q.dsp == 0 || q.dsp == 3)
  | _ => q.ssp == 1 && q.dsp == 0

/-- Code 0x11. -/
def comboBad (q : Copy) : Bool :=
  let scratch := q.dsp == 3 || (q.dsp == 0 && decide (q.dst < 0x1000000))
  !spacesOk q || (q.tben && (!scratch || q.kind == 3 || q.ldcv)) || (q.ren && q.follow) || (q.follow && q.kind != 3) ||
    (q.ldcv && q.kind != 0) || (q.fof && q.kind != 2) || (q.cvt && (q.kind == 7 || q.kind == 8 || q.ldcv)) ||
    (q.dsel && (q.kind == 7 || q.kind == 8))

/-- The reserved bits of each dword of an entry (R262 to R271, R278). -/
def reservedBits (q : Copy) : List Nat :=
  let all := 2 ^ 64 - 1
  let tail := if q.ren then all - (2 ^ 48 - 1) else if q.follow then all - (2 ^ 57 - 1) else all
  let kinds : List Nat := match q.kind with
    | 0 => [all - (2 ^ 32 - 1), all, all, all]
    | 1 | 6 => [0, 0, 0, 0]
    | 2 => [2 ^ 16 - 1, 0, 0, 0]
    | 3 => [0xfc0000000000ffc0, all - (2 ^ 32 - 1), all, all]
    | 4 => [0, 0xffff000000000000, 0, all - (2 ^ 32 - 1)]
    | 5 => [all - (2 ^ 16 - 1), 0xffff000000000000, all - (2 ^ 32 - 1), all]
    | 7 => [0xfffffffffffff8c0, 0xfffc000000000000, all - (2 ^ 32 - 1), all]
    | _ => [all - (2 ^ 37 - 1), all, all, all]
  [0xffc003fffe00c000, 0, 0] ++ kinds ++ [tail]

/-- Code 0x12: the byte offset of the first reserved bit set. -/
def reservedAt (q : Copy) : Option Nat :=
  firstSome (List.range 8) (fun k =>
    let bad := BitVec.ofNat 64 (q.dw k) &&& BitVec.ofNat 64 ((reservedBits q).getD k 0)
    if bad = 0 then none else some (8 * k + ctzWord bad / 8))

/-- Code 0x13: the offset of the first field out of range. `r` is the declaration of VREG. -/
def rangeAt (q : Copy) (r : VReg) : Option Nat :=
  let planes := !q.desc.wf || (q.cvt && decide (16 < q.desc.w)) || q.nrow == 0 ||
    decide (q.csr.rows * q.csr.tiles < q.row0 + q.nrow) || r.kind != 1 || decide (r.width < q.desc.w)
  if (q.ldcv && q.dw 3 != 511) || (q.kind == 3 && planes) || (q.kind == 7 && fieldOf (q.dw 3) 10 8 == 0) ||
      (q.kind == 8 && decide (5 ≤ fieldOf (q.dw 3) 34 32)) then some 0x18
  else if (q.kind == 3 && q.dw 4 % 8 != 0) || (q.kind == 5 && q.dw 4 % 4 != 0) then some 0x20
  else if q.ren && q.dw 7 % 8 != 0 then some 0x38
  else none

/-- The operation of a follow-on command (R268). -/
def commandJob (v : Nat) : Job :=
  let op := v % 4
  let km := fieldOf v 9 2 + 1
  { op, mode := fieldOf v 56 56, sa := 1, sb := 1, da := Desc.ofOvr (fieldOf v 45 36), db := Desc.ofOvr (fieldOf v 55 46)
    va := fieldOf v 15 10, vb := fieldOf v 21 16, vm := fieldOf v 27 22, ra := 0, rb := 0, rm := fieldOf v 35 28
    k := if op = 1 then 4 * km else km, gset := false, diag := 0, pred := 0 }

def followJob (q : Copy) : Job := commandJob (q.dw 7)

/-- The operation of a sweep. -/
def Sweep.job (w : Sweep) : Job := commandJob w.cmd.toNat

/-- Code 0x14 (R412); a MOPG of a K that is no multiple of 16 cannot run either (R232). -/
def followBad (q : Copy) : Bool :=
  let j := followJob q
  j.op == 3 || !j.da.wf || !j.db.wf || !j.accepts || q.csr.fold != 1 || (j.op == 2 && j.k % 16 != 0) ||
    j.rows.any (fun r => decide (q.csr.rows < r.1 + r.2))

/-- Code and syndrome of a template that breaks a rule (R411), in ascending code. -/
def templateFault (q : Copy) (r : VReg) : Option (Nat × Nat) :=
  if 8 < q.kind then some (0x10, 0)
  else if comboBad q then some (0x11, 0)
  else match reservedAt q with
    | some n => some (0x12, n)
    | none => match rangeAt q r with
      | some n => some (0x13, n)
      | none => if q.kind == 3 && q.follow && followBad q then some (0x14, 0x38) else none

/-! Records (R349, R383). -/

def modCopy (s : State) (id : Nat) (f : Copy → Copy) : State :=
  { s with copies := s.copies.map (fun q => if q.id == id then f q else q) }

def findCopy (s : State) (id : Nat) : Option Copy := s.copies.find? (fun q => q.id == id)

/-- A record about a copy. -/
def copyRecord (s : State) (q : Copy) (agent cls code : Nat) (addr : Nat) (synd : Word) : State :=
  addRecord s { (Record.blank s).about (gangOf s q.gang) with
    agent, pkg := if agent = 6 then q.die else q.chan, cls := BitVec.ofNat 8 cls, code := BitVec.ofNat 8 code, hart := q.hart
    pc := q.pc, addr := BitVec.ofNat 64 addr, tag := q.tag.toNat, tidx := q.tidx, chan := q.chan, synd }

/-! Places. -/

/-- Where a byte of a space lies. -/
inductive Spot4 where
  | mem (g : Nat)
  | virt (va : Nat)
  | err (kind : Nat)
  deriving DecidableEq, Repr

/-- The place of an address of a space (R262, R386). `cl` is DCL or SCL. -/
def spaceSpot (s : State) (q : Copy) (space cl a : Nat) : Spot4 :=
  match space with
  | 1 => .virt a
  | 2 => .mem (hostBase + a)
  | 3 =>
    if 48 ≤ cl ∨ 2 ^ 24 ≤ a then .err 1
    else if partOfDie s (dieOfCluster cl) = some q.part then .mem (clusterBase cl + a) else .err 2
  | _ => match placeOf s q.part q.cluster a with
    | .mem g => .mem g
    | .bad k => .err k
    | _ => .err 1

/-- The die a place lies on; the issuing one for what is nowhere. -/
def spotDie (s : State) (q : Copy) : Spot4 → Nat
  | .virt va => match homeDie s q.part q.die va with
    | .ok (d, _, _) => d
    | .error _ => q.die
  | .mem g =>
    if dieBase 0 ≤ g ∧ g < hostBase then (g - dieBase 0) / 2 ^ 26
    else if clusterBase 0 ≤ g ∧ g < dieBase 0 then dieOfCluster ((g - clusterBase 0) / 2 ^ 24) else q.die
  | .err _ => q.die

/-- A range of a space, cut at 512-byte boundaries, wrapping at 2^64. -/
def spaceCut (a n : Nat) : List (Nat × Nat) := (cut a n).map (fun p => (p.1 % 2 ^ 64, p.2))

/-- One violation entry per copy (R386). -/
def copyViolation (s : State) (q : Copy) (kind a : Nat) : State :=
  if (findCopy s q.id).any (fun c => c.errorResp) then s
  else modCopy (logViolation s q.part kind 2 a q.hart q.gang) q.id (fun c => { c with errorResp := true })

/-- What keeps a read of the range from being made: a translation failure or poison (R383, R416). -/
def readFault (s : State) (q : Copy) (space cl a n : Nat) : Option AccessErr :=
  firstSome (spaceCut a n) (fun p =>
    match spaceSpot s q space cl p.1 with
    | .virt va => match translate s q.part q.asid q.die va false with
      | .error x => some ⟨va, x⟩
      | .ok x => if hbmPoisoned s x.pa p.2 then some ⟨va, ⟨0x100, 0⟩⟩ else none
    | .mem g =>
      if !s.poisonWord.isEmpty && (List.range ((g % 8 + p.2 + 7) / 8)).any (fun i => sget false s.poisonWord (g / 8 + i))
      then some ⟨p.1, ⟨0x100, 0⟩⟩ else none
    | .err _ => none)

def writeFault (s : State) (q : Copy) (space cl a n : Nat) : Option AccessErr :=
  firstSome (spaceCut a n) (fun p =>
    match spaceSpot s q space cl p.1 with
    | .virt va => match translate s q.part q.asid q.die va true with
      | .error x => some ⟨va, x⟩
      | .ok _ => none
    | _ => none)

/-- Reads bytes that `readFault` has let pass; an error response reads zero. -/
def spaceRead (s : State) (q : Copy) (space cl a n : Nat) : State × List Byte :=
  (spaceCut a n).foldl (fun acc p =>
    match spaceSpot acc.1 q space cl p.1 with
    | .virt va =>
      let s := settle acc.1 q.part q.asid va
      match translate s q.part q.asid q.die va false with
      | .ok x => (noteLine s q.part x, acc.2 ++ lineBytes s q.part x p.2)
      | .error _ => (s, acc.2 ++ List.replicate p.2 0)
    | .mem g => (acc.1, acc.2 ++ bytesAt acc.1.mem g p.2)
    | .err k => (copyViolation acc.1 q k p.1, acc.2 ++ List.replicate p.2 0)) (s, [])

/-- Stores bytes of a scratchpad or of host memory: a word wholly written loses its poison (R416). -/
def putScratch (s : State) (g : Nat) (bs : List Byte) : State :=
  let whole := fun w => decide (g ≤ 8 * w) && decide (8 * w + 8 ≤ g + bs.length)
  let s := { s with
    mem := putBytes s.mem g bs, poisonWord := sdrop s.poisonWord whole
    writers := s.writers.filter (fun e => !(decide (g / 8 ≤ e.1) && decide (8 * e.1 < g + bs.length))) }
  if s.armed.isEmpty then s
  else (List.range ((g % 8 + bs.length + 7) / 8)).foldl (fun s i => strike s 1 (g / 8 + i)) s

/-- A copy writes to the image of gangs that run, through a global page under any ASID: what they fetch from there is undefined (R96,
R141). -/
def noteImage (s : State) (q : Copy) (va n : Nat) : State :=
  let glob := match translate s q.part q.asid q.die va true with | .ok x => pteG x.leaf | .error _ => false
  let hit := fun (g : Gang) => g.st == .running && g.part == q.part && (glob || g.launch.asid == q.asid) &&
    decide (va < g.launch.img.toNat + g.launch.imgLen) && decide (g.launch.img.toNat < va + n)
  if s.gangs.any hit then { s with gangs := s.gangs.map (fun g => if hit g then { g with dirty := (va, n) :: g.dirty } else g) } else s

/-- Writes bytes that `writeFault` has let pass; an error response writes nothing. `iter` is the place of the first byte in the
copy's iteration order: after the copy's own place in issue order it makes the last part of the stamp (R126). -/
def spaceWrite (s : State) (q : Copy) (space cl a : Nat) (bs : List Byte) (iter : Nat := 0) : State :=
  (spaceCut a bs.length).foldl (fun acc p =>
    let s := acc.1
    let now := acc.2.take p.2
    let s := match spaceSpot s q space cl p.1 with
      | .virt va =>
        let s := settle s q.part q.asid va
        match translate s q.part q.asid q.die va true with
        | .ok x =>
          noteImage (hbmStore (noteLine s q.part x) q.part q.die q.chan (q.id * 2 ^ 96 + iter + (bs.length - acc.2.length)) x now
            (q.gang, q.hart)) q va p.2
        | .error _ => s
      | .mem g => putScratch s g now
      | .err k => copyViolation s q k p.1
    (s, acc.2.drop p.2)) (s, bs) |>.1

/-! Conversion (R273). -/

def cvtEntry (s : State) (bte : Nat) (b : Byte) : BitVec 16 :=
  sget 0 s.cvtab (bte * 256 + b.toNat) ^^^ b.setWidth 16

def convertBytes (s : State) (bte : Nat) (bs : List Byte) : List Byte :=
  (bs.map (fun b => toBytes 2 (cvtEntry s bte b).toNat)).flatten

/-! Runs. -/

/-- Destination bytes in a row with their source, none for the zeros of padding: `len` bytes in all, `lim` of them written. -/
structure ByteRun where
  dst : Nat
  src : Option Nat
  len : Nat
  lim : Nat
  deriving DecidableEq, Repr

def N0of (q : Copy) : Nat :=
  match q.kind with
  | 0 => q.dw 3 % 2 ^ 32 + 1
  | 2 => (if q.sreq = 0 then q.csr.vl else min q.sreq q.csr.vl) * q.esz
  | _ => q.dw 3 % 2 ^ 16 + 1

/-- Start offsets of the rows of a dimension map, i1 fastest (R264): destination and source. -/
def rowStarts (q : Copy) : List (Nat × Nat) :=
  if q.kind = 0 then [(q.dst, q.src)]
  else
    let n := fun lo => fieldOf (q.dw 3) (lo + 15) lo + 1
    let off := fun (k i : Nat) (hi : Bool) => (i : Int) * stride32 (if hi then q.dw k / 2 ^ 32 else q.dw k)
    (List.range (n 48)).flatMap (fun i3 => (List.range (n 32)).flatMap (fun i2 => (List.range (n 16)).map (fun i1 =>
      (addr64 (q.dst + off 4 i1 true + off 5 i2 true + off 6 i3 true),
       addr64 (q.src + off 4 i1 false + off 5 i2 false + off 6 i3 false)))))

/-- The rows of LINEAR, STRIDED, HOST and STRIP; `limit` in elements of ESZ (R266). -/
def dimRuns (q : Copy) : List ByteRun :=
  let n := N0of q
  let lim := match q.limit with
    | some e => min n (e * q.esz)
    | none => n
  (rowStarts q).map (fun r => ⟨r.1, some r.2, n * q.wide, lim * q.wide⟩)

/-- Patches of an IM2COL copy (R269). -/
def patchCount (q : Copy) : Nat :=
  if q.sreq = 0 then (fieldOf (q.dw 4) 47 32 + 1) * (fieldOf (q.dw 4) 31 16 + 1) - q.dw 6 % 2 ^ 32 else q.sreq

/-- The source of pixel row `kh`, column `kw` of patch `p`: all C channels, or padding. -/
def pixelSrc (q : Copy) (p kh kw : Nat) : Option Nat :=
  let d := q.dw 3
  let e := q.dw 4
  let sh := fieldOf d 59 56 + 1
  let sw := fieldOf d 63 60 + 1
  let ow := fieldOf e 31 16 + 1
  let ih : Int := (p / ow * sh + kh * (fieldOf e 3 0 + 1) : Nat) - (fieldOf e 11 8 : Nat)
  let iw : Int := (p % ow * sw + kw * (fieldOf e 7 4 + 1) : Nat) - (fieldOf e 15 12 : Nat)
  let c := fieldOf d 15 0 + 1
  if 0 ≤ ih ∧ ih < (fieldOf d 47 32 + 1 : Nat) ∧ 0 ≤ iw ∧ iw < (fieldOf d 31 16 + 1 : Nat)
  then some (addr64 (q.src + ih * stride32 (q.dw 5) + iw * (c * q.esz : Nat)))
  else none

def patchRuns (q : Copy) : List ByteRun :=
  let d := q.dw 3
  let kh := fieldOf d 51 48 + 1
  let kw := fieldOf d 55 52 + 1
  let n := (fieldOf d 15 0 + 1) * q.esz * q.wide
  (List.range (patchCount q)).flatMap (fun (i : Nat) => (List.range kh).flatMap (fun y => (List.range kw).map (fun x =>
    ⟨addr64 ((q.dst : Int) + (i : Int) * stride32 (q.dw 5 / 2 ^ 32) + ((y * kw + x) * n : Nat)),
     pixelSrc q (q.dw 6 % 2 ^ 32 + i) y x, n, n⟩)))

/-- Records of a GATHER (R270). -/
def gatherCount (q : Copy) : Nat := if q.sreq = 0 then q.csr.vl else q.sreq

def gatherRuns (q : Copy) : List ByteRun :=
  let n := q.dw 3 % 2 ^ 16 + 1
  let step := q.dw 5 % 2 ^ 32
  (List.range q.indices.length).map (fun m =>
    ⟨addr64 (q.dst + (m * (n * q.wide) : Nat)), some (addr64 (q.src + (q.indices.getD m 0 * step : Nat))), n * q.wide, n * q.wide⟩)

/-- Every run of a copy into memory, in iteration order. -/
def runsOf (q : Copy) : List ByteRun :=
  match q.kind with
  | 0 | 1 | 2 | 6 => dimRuns q
  | 4 => patchRuns q
  | 5 => gatherRuns q
  | _ => []

/-- The destination blocks of a run. -/
def ByteRun.blocks (r : ByteRun) : List Nat :=
  if r.len = 0 then [] else (List.range ((r.dst % 512 + r.len + 511) / 512)).map (fun i => (r.dst / 512 + i) % 2 ^ 55)

/-- The part of a run that lies in a block and is written: offset within the run, and length. -/
def ByteRun.within (r : ByteRun) (blk : Nat) : Option (Nat × Nat) :=
  let lo := if blk = r.dst / 512 then 0 else (blk * 512 + 2 ^ 64 - r.dst) % 2 ^ 64
  let hi := min r.lim (if blk = r.dst / 512 then 512 - r.dst % 512 else lo + 512)
  if lo < hi then some (lo, hi - lo) else none

/-- The first occurrence of each value. -/
def distinct : List Nat → List Nat → List Nat
  | _, [] => []
  | seen, a :: r => if seen.contains a then distinct seen r else a :: distinct (a :: seen) r

/-- Insertion into an ascending list. -/
def insertUp (a : Nat) : List Nat → List Nat
  | [] => [a]
  | b :: r => if a ≤ b then a :: b :: r else b :: insertUp a r

/-- The blocks of a copy, ascending for HOST (R124), else in the order the copy reaches them. -/
def blocksOf (q : Copy) : List Nat :=
  let bs := distinct [] ((runsOf q).flatMap ByteRun.blocks)
  if q.kind = 6 then bs.foldr insertUp [] else bs

/-- A piece of a chunk: destination address, source address and length in source bytes when there is one, the converted bytes to
drop in front, the destination length, and its place in the copy's iteration order: its run and the offset there. -/
structure Piece where
  dst : Nat
  src : Option (Nat × Nat)
  skip : Nat
  len : Nat
  run : Nat
  off : Nat
  deriving DecidableEq, Repr

/-- The pieces of the runs `rs`, of which the first is run `i`, in a block. -/
def piecesOf (wide blk : Nat) : Nat → List ByteRun → List Piece
  | _, [] => []
  | i, r :: rs =>
    match r.within blk with
    | none => piecesOf wide blk (i + 1) rs
    | some (lo, n) =>
      ⟨(r.dst + lo) % 2 ^ 64, r.src.map (fun a => ((a + lo / wide) % 2 ^ 64, (lo + n - 1) / wide - lo / wide + 1)), lo % wide, n,
        i, lo⟩ :: piecesOf wide blk (i + 1) rs

def piecesIn (q : Copy) (blk : Nat) : List Piece := piecesOf q.wide blk 0 (runsOf q)

/-- Bytes of one row of a PLANES copy as the source holds them (R267, R273). -/
def planesRowBytes (q : Copy) : Nat := ceilDiv (q.csr.rlen * (if q.cvt then 8 else container q.desc.w)) 8

def planesRowSrc (q : Copy) (r : Nat) : Nat := addr64 (q.src + ((r - q.row0 : Nat) : Int) * stride32 (q.dw 4))

/-! Chunks. -/

def Chunk.new (blk : Nat) : Chunk := ⟨blk, .waiting, 2 ^ 64, 2 ^ 64, 2 ^ 64, false, 0, none, 0, []⟩

/-- The chunks of a copy at its start. -/
def chunksOf (q : Copy) : List Chunk :=
  if q.ldcv then [Chunk.new 0]
  else if q.kind = 3 then (List.range q.nrow).map (fun i => Chunk.new (q.row0 + i))
  else (blocksOf q).map Chunk.new

/-- Units of the report word (R263). -/
def unitsOf (q : Copy) : Nat :=
  match q.kind with
  | 2 => let n := N0of q / q.esz; match q.limit with | some e => min n e | none => n
  | 3 => (if q.cvt then 2 * q.csr.rlen else planesRowBytes q) * q.nrow
  | 4 => patchCount q
  | 5 => gatherCount q
  | _ => ((runsOf q).map (fun r => r.len)).sum

/-- Element 0 of the first row of a fault-only-first strip is always read, and its fault raised (R266). -/
def elementZeroFault (s : State) (q : Copy) (c : Chunk) : Option AccessErr :=
  match rowStarts q with
  | r :: _ => if q.fof && N0of q != 0 && c.blk == r.1 / 512 then readFault s q q.ssp q.scl r.2 q.esz else none
  | [] => none

/-- What keeps a chunk from being moved. -/
def chunkFault (s : State) (q : Copy) (c : Chunk) : Option AccessErr :=
  if q.ldcv then readFault s q q.ssp q.scl q.src 512
  else if q.kind = 3 then readFault s q q.ssp q.scl (planesRowSrc q c.blk) (planesRowBytes q)
  else if q.kind = 7 then
    match c.src with
    | some a => readFault s q 1 0 a c.len
    | none => none
  else (elementZeroFault s q c).orElse fun _ => firstSome (piecesIn q c.blk) (fun p =>
    (match p.src with
     | some (a, n) => readFault s q q.ssp q.scl a n
     | none => none).orElse fun _ => writeFault s q q.dsp q.dcl p.dst p.len)

/-- The tile-buffer bit a chunk sets: cluster, buffer, index, tag; an index outside the buffer is code 0x06. -/
def chunkMark (s : State) (q : Copy) (c : Chunk) : Option (Nat × Nat × Nat × BitVec 16) :=
  if q.kind = 7 then
    some (q.tbCluster, q.carBuf c.car, c.blk, q.tag + BitVec.ofNat 16 (c.car / q.ntb))
  else if q.tben then
    let b := bufAt s q.tbCluster q.tb
    some (q.tbCluster, q.tb, if b.base ≤ c.blk then c.blk - b.base else 1024, q.tag)
  else none

/-- A chunk of a copy that names a buffer and lies outside it (R383 code 0x06). -/
def chunkOutside (s : State) (q : Copy) (c : Chunk) : Bool :=
  match chunkMark s q c with
  | some (cl, n, k, _) => decide ((bufAt s cl n).chunks ≤ k)
  | none => false

/-- The virtual addresses at which a chunk's accesses begin, each with whether it is a write. -/
def chunkVas (q : Copy) (c : Chunk) : List (Nat × Bool) :=
  if q.ldcv then (if q.ssp = 1 then [(q.src, false)] else [])
  else if q.kind = 3 then (if q.ssp = 1 then (spaceCut (planesRowSrc q c.blk) (planesRowBytes q)).map (fun p => (p.1, false)) else [])
  else if q.kind = 7 then (match c.src with | some a => (spaceCut a c.len).map (fun p => (p.1, false)) | none => [])
  else (piecesIn q c.blk).flatMap (fun p =>
    (match p.src with
     | some (a, n) => if q.ssp = 1 then (spaceCut a n).map (fun x => (x.1, false)) else []
     | none => []) ++ (if q.dsp = 1 then (spaceCut p.dst p.len).map (fun x => (x.1, true)) else []))

/-- A chunk reaches the caches: what its longest miss and its longest walk add to its cy (R100, log 11). The 640 cy of lockstep mode
cover a miss. -/
def fetchLines (s : State) (q : Copy) (lock : Bool) (c : Chunk) : State × Nat :=
  let r := (chunkVas q c).foldl (fun (a : State × Nat × Nat) v =>
    let f := fetchLine a.1 q.part q.asid q.die v.1 v.2
    (f.1, max a.2.1 f.2.1, max a.2.2 f.2.2)) (s, 0, 0)
  (r.1, (if lock then 0 else r.2.1) + r.2.2)

/-- The source addresses that a chunk reads: of each part that lies in another 512-byte block (R357). -/
def chunkSources (q : Copy) (c : Chunk) : List Nat :=
  if q.kind = 3 then (spaceCut (planesRowSrc q c.blk) (planesRowBytes q)).map (fun x => x.1)
  else match c.src with
    | some a => [a]
    | none =>
      let parts := (piecesIn q c.blk).flatMap (fun p => match p.src with
        | some (a, n) => (spaceCut a n).map (fun x => x.1)
        | none => [])
      if parts.isEmpty then [q.src] else parts

/-- The place that a chunk writes. -/
def chunkDest (s : State) (q : Copy) (c : Chunk) : Spot4 :=
  if q.kind = 3 then .mem (clusterBase (clusterOfCore (q.core + c.blk / max 1 q.csr.rows)))
  else if q.kind == 7 || q.ldcv then .mem (clusterBase q.cluster)
  else spaceSpot s q q.dsp q.dcl (c.blk * 512)

/-- Cy from issue to landing of the part of a chunk that goes from one place to another: the hops to both, from an error response those to
the destination only (R100, R261, R340, R357, R386; unloaded, log 6). -/
def partLatency (s : State) (q : Copy) (lock : Bool) (src dest : Spot4) : Nat :=
  let hops := fun p => dieHops q.die (spotDie s q p)
  match src, dest with
  | .err _, _ | _, .err _ => 24 + 120 * hops dest
  | .virt va, _ => if lock then 640 else 124 + 120 * (hops (.virt va) + hops dest)
  | .mem g, _ =>
    if hostBase ≤ g then 640 else (if dieBase 0 ≤ g then 64 else 24) + 120 * (hops (.mem g) + hops dest)

/-- Cy from issue to landing of a chunk: those of its slowest part. -/
def chunkLatency (s : State) (q : Copy) (lock : Bool) (c : Chunk) : Nat :=
  (chunkSources q c).foldl (fun m a =>
    max m (partLatency s q lock (spaceSpot s q (if q.kind = 7 then 1 else q.ssp) q.scl a) (chunkDest s q c))) 0

end Sys2Proof.Machine
end

