-- ==== Sys2Proof/Machine/Transfer.lean ====
section
/-! DEFINITION. The block-transfer engines at work (R254 to R273, R383 to R387, R411, R412): the aperture store, the start of a
copy, its chunks, walks and follow-on sweeps. -/
namespace Sys2Proof.Machine

/-- Runs `f` with hart `k` of gang `g` in hand, then brings back the one that was. -/
def withHart (s : State) (g k : Nat) (f : State → State) : State :=
  match findHart s g k with
  | none => s
  | some _ => takeHart (f (takeHart s g k)) s.h.gang s.h.idx

/-! Chunk cycles of a BTE (R261). -/

/-- A started copy whose chunks may go. -/
def Copy.goes (q : Copy) : Bool := q.started && !q.frozen

/-- A chunk that still needs its chunk cycle: in lockstep mode one that has no slot yet, in elastic mode one not issued yet. -/
def Chunk.open_ (c : Chunk) (lock : Bool) (now : Nat) : Bool :=
  c.st == .waiting && (if lock then c.iss == 2 ^ 64 else decide (now ≤ c.iss))

/-- Per channel of a BTE, the chunks that need a cycle, as (copy, index). -/
def openChunks (s : State) (bte : Nat) (lock : Bool) : List (List (Nat × Nat)) :=
  (List.range 16).map (fun ch =>
    match s.copies.find? (fun q => q.chan == bte * 16 + ch && q.goes) with
    | none => []
    | some q => (List.range q.chunks.length).filterMap (fun k =>
      match q.chunks[k]? with
      | some c => if c.open_ lock s.cyc then some (q.id, k) else none
      | none => none))

/-- Channel and cy of the last chunk cycle taken: in lockstep mode every slot assigned counts. -/
def lastCycle (s : State) (bte : Nat) (lock : Bool) : Nat × Nat :=
  s.copies.foldl (fun b q =>
    if q.bte == bte then
      q.chunks.foldl (fun b c =>
        if (if lock then c.iss != 2 ^ 64 else decide (c.iss < s.cyc)) && decide (b.2 ≤ c.iss) then (q.chan % 16, c.iss) else b) b
    else b) (sget (15, 0) s.lastServed bte)

/-- Serves the channels round-robin, one chunk every 4 cy from `t`, after the channel `last`. -/
def serve : Nat → Nat → Nat → List (List (Nat × Nat)) → List (Nat × Nat × Nat)
  | 0, _, _, _ => []
  | fuel + 1, t, last, qs =>
    match (List.range 16).find? (fun i => !(qs.getD ((last + 1 + i) % 16) []).isEmpty) with
    | none => []
    | some i =>
      let ch := (last + 1 + i) % 16
      match qs.getD ch [] with
      | [] => []
      | (id, k) :: r => (id, k, t) :: serve fuel (t + 4) ch (qs.set ch r)

def setChunk (s : State) (id k : Nat) (f : Chunk → Chunk) : State :=
  modCopy s id (fun q => { q with chunks := q.chunks.modify k f })

def isLand (chan k : Nat) (e : Nat × Event) : Bool := e.2 == .chunkLand chan k

def copyLock (s : State) (q : Copy) : Bool := (gangOf s q.gang).launch.lockstep

/-- Chunk `k` of a lockstep copy misses its slot: a late landing (R6, R44); of a HOST copy with its notice (R358, R360). -/
def missSlot (s : State) (q : Copy) (k : Nat) : State :=
  match q.chunks[k]? with
  | some c =>
    if !copyLock s q || c.late || c.slot == 2 ^ 64 then s
    else
      let s := if q.kind = 6 then notice s 6 6 (gangOf s q.gang) q.hart 0 else s
      setChunk s q.id k (fun c => { c with late := true })
  | none => s

/-- Chunk `k` lands in cy `t`. -/
def landAt (s : State) (q : Copy) (k t : Nat) : State :=
  schedule { setChunk s q.id k (fun c => { c with due := t }) with
    calendar := s.calendar.filter (fun e => !isLand q.chan k e) } t (.chunkLand q.chan k)

/-- Chunk `k` lands in cy `t` instead of in its slot. -/
def postpone (s : State) (q : Copy) (k t : Nat) : State := landAt (missSlot s q k) q k t

/-- Chunk `k` lands `d` cy later with its slot, as the timetable has it (R45, R358). -/
def moveSlot (s : State) (q : Copy) (k d : Nat) : State :=
  landAt (setChunk s q.id k (fun c => { c with slot := c.slot + d })) q k (s.cyc + d)

/-- Gives one chunk its cycle and sets its landing; the slots of a copy that started late stay where its start cy put them (R258). -/
def planChunk (lock : Bool) (s : State) (p : Nat × Nat × Nat) : State :=
  match findCopy s p.1 with
  | none => s
  | some q =>
    match q.chunks[p.2.1]? with
    | none => s
    | some c =>
      let slot := p.2.2 + chunkLatency s q lock c
      let f := if c.iss != 2 ^ 64 && c.due != 2 ^ 64 then (s, c.due - c.iss - (slot - p.2.2)) else fetchLines s q lock c
      let more := f.2
      let s := setChunk f.1 q.id p.2.1 (fun c => { c with iss := p.2.2, slot := if c.slot = 2 ^ 64 then slot - q.lag else c.slot })
      let s := landAt s q p.2.1 (slot + more)
      match findCopy s q.id with
      | some q => if c.slot != 2 ^ 64 || more != 0 || q.lag != 0 then missSlot s q p.2.1 else s
      | none => s

/-- Assigns chunk cycles on a BTE. -/
def planBte (s : State) (bte : Nat) (lock : Bool) : State :=
  let qs := openChunks s bte lock
  let last := lastCycle s bte lock
  let t := if last.2 = 0 then s.cyc else max s.cyc (last.2 + 4)
  let s := (serve (qs.map List.length).sum t last.1 qs).foldl (planChunk lock) s
  { s with free := s.free + 1 }

/-! The end of a copy. -/

/-- Writes of a channel's copies are still on their way to other dies (R120, R126). -/
def channelPending (s : State) (chan : Nat) : Bool := s.replicas.any (fun r => r.stamp.2.2.1 == chan)

/-- Writes of a hart's copies and swaps are still on their way to other dies. -/
def hartPending (s : State) (gang hart : Nat) : Bool := s.replicas.any (fun r => r.gang == gang && r.hart == hart)

/-- A swap that the hart of a copy made before it is still on its way to other dies (R119). -/
def ownPending (s : State) (q : Copy) : Bool :=
  s.replicas.any (fun r => r.gang == q.gang && r.hart == q.hart && decide (3072 ≤ r.stamp.2.2.1) && decide (r.n < q.id))

/-- Writes that the first access of a copy follows are still on their way (R119, R120). -/
def startPending (s : State) (q : Copy) : Bool := channelPending s q.chan || ownPending s q

/-- The next copy of a channel starts at its start cy, or now (R120, R258). -/
def startNext (s : State) (chan : Nat) : State :=
  match s.copies.find? (fun q => q.chan == chan) with
  | none => s
  | some q => if q.started then s else schedule s (max s.cyc (startCy (gangOf s q.gang).tstart q)) (.copyStart chan)

/-- Releases the channel; a replay that waited for this one may start (R414). -/
def endCopy (s : State) (q : Copy) : State :=
  let last := lastCycle s q.bte (copyLock s q)
  let s := { s with copies := s.copies.filter (fun x => x.id != q.id), lastServed := sset (15, 0) s.lastServed q.bte last }
  let s := startNext s q.chan
  if q.kind = 8 then
    (s.copies.filter (fun x => x.kind == 8 && !x.started)).foldl (fun s x => startNext s x.chan) s
  else s

def Copy.over (q : Copy) : Bool :=
  q.chunks.all Chunk.over && (match q.walk with | some w => w.ended | none => true)

/-- The report word (R263). -/
def reportWord (q : Copy) : Nat := 2 ^ 63 + q.tag.toNat * 2 ^ 32 + q.units % 2 ^ 32

def writeReport (s : State) (q : Copy) : State :=
  if q.ren && !q.lost then spaceWrite s q 0 0 (q.dw 7 % 2 ^ 48) (toBytes 8 (reportWord q)) (2 ^ 95) else s

/-- Ends the copy once nothing is outstanding. -/
def closeIfOver (s : State) (id : Nat) : State :=
  match findCopy s id with
  | some q => if q.over then endCopy s q else s
  | none => s

/-! A chunk that cannot go (R383 to R385, R416). -/

/-- The page of a failure, one record each. -/
def faultPage (s : State) (q : Copy) (va : Nat) : Nat :=
  match leafOf s q.part q.asid va with
  | .ok (_, 1) => 2 ^ 60 + va / 2 ^ 24
  | _ => va / 2 ^ 16

/-- Writes the record of a failure unless the copy has reported this code and page. -/
def reportFault (s : State) (q : Copy) (code va : Nat) (synd : Word) : State :=
  let page := faultPage s q va
  match findCopy s q.id with
  | none => s
  | some q =>
    if q.reported.contains (code, page) then s
    else
      let s := modCopy s q.id (fun c => { c with reported := (code, page) :: c.reported })
      if code = 0x100 then copyRecord s q 6 0x12 4 va synd else copyRecord s q 2 0x10 code va synd

/-- HOST chunks to host memory post in ascending order: whether an earlier one is still to post (R124, R264). -/
def hostWaits (q : Copy) (k : Nat) : Bool :=
  q.kind == 6 && q.dsp == 2 && (q.chunks.take k).any (fun c => !c.over)

/-- The first chunk still to post goes, if it has only waited for those before it. -/
def hostNext (s : State) (id : Nat) : State :=
  match findCopy s id with
  | some q =>
    if q.kind == 6 && q.dsp == 2 then
      match (List.range q.chunks.length).find? (fun k => (q.chunks[k]?).any (fun c => !c.over)) with
      | some k => match q.chunks[k]? with
        | some c => if c.st == .waiting && decide (c.due ≤ s.cyc) then landAt s q k s.cyc else s
        | none => s
      | none => s
    else s
  | none => s

/-- Parks or abandons chunk `k`. -/
def failChunk (s : State) (q : Copy) (k : Nat) (code va : Nat) (synd : Word) : State :=
  let s := reportFault s q code va synd
  if code ≤ 3 then
    schedule (setChunk s q.id k (fun c => { c with st := .parked code (va / 65536) })) (s.cyc + 2 ^ 20) (.chunkRetry q.chan k)
  else
    let s := modCopy (setChunk s q.id k (fun c => { c with st := .abandoned })) q.id (fun c => { c with lost := true })
    closeIfOver (hostNext s q.id) q.id

/-! A chunk that lands. -/

/-- The hart, tile and row that a PLANES chunk lands in. -/
def planesSpot (q : Copy) (r : Nat) : Nat × Nat := (r / max 1 q.csr.rows, r % max 1 q.csr.rows)

/-- The write port of row `i` of tile `t` as a landing holds it: apart from the rows that instructions hold in every granted tile. -/
def landPort (t i : Nat) : Nat := 256 * (t + 1) + i

/-- The cy in which a row may take a landing: past the landing of another copy there (R261) and the hold on its write port by an
instruction (R16). -/
def rowReady (s : State) (q : Copy) (r : Nat) : Nat :=
  let (t, i) := planesSpot q r
  match findHart s q.gang q.hart with
  | none => s.cyc
  | some h =>
    if h.csr.tiles ≤ t ∨ h.csr.rows ≤ i then s.cyc
    else
      h.ports.foldl (fun m p =>
        if decide (p.since ≤ s.cyc) && decide (s.cyc ≤ p.upto) &&
          ((decide (p.lo ≤ i) && decide (i < p.lo + p.n)) || p.lo == landPort t i) then max m (p.upto + 1)
        else m) s.cyc

/-- The row of a landing is drowsy. -/
def rowDrowsy (s : State) (q : Copy) (r : Nat) : Bool :=
  let (t, i) := planesSpot q r
  match findHart s q.gang q.hart with
  | none => false
  | some h =>
    let key := (q.core + t) * 256 + physRow s (q.core + t) i
    decide (t < h.csr.tiles) && decide (i < h.csr.rows) &&
      (sget false s.drowsy key || rowIdle s (q.core + t) (key % 256) (startOf s (q.core + t)))

/-- A landing wakes a drowsy row. -/
def wakeRow (s : State) (q : Copy) (r : Nat) : State :=
  let (t, i) := planesSpot q r
  let key := (q.core + t) * 256 + physRow s (q.core + t) i
  { s with touched := sset 0 s.touched key (max (sget 0 s.touched key) (s.cyc + 40)), drowsy := sset false s.drowsy key false }

/-- The accumulators of the sweeps on `cores` that may still read one of the locations when a write to it lands in cy `first` or later are
free (R42, R241, R242). -/
def disturbSweeps (cores : List Nat) (locs : List Loc) (first : Nat) (s : State) : State :=
  let reads := fun (w : Sweep) => [Loc.v w.job.va, Loc.v w.job.vb, Loc.v w.job.vm]
  let hit := s.sweeps.filter (fun w => w.running && cores.contains w.core && decide (first + 3 < w.ready) &&
    (reads w).any (fun l => locs.contains l))
  hit.foldl (fun s w => (List.range 256).foldl (fun s i =>
    { s with acc := (List.range 256).foldl (fun m c =>
        sset 0 m (cellKey w.core i c) ((Config.freeBits s.free (2 ^ 111 + cellKey w.core i c)).setWidth 41)) s.acc }) s) s

/-- Writes one global row of a PLANES copy under the captured grant (R267). An instruction that still reads the register may have read
the new value (R16, R42), and an earlier write to it that has not landed may land after it (R41). -/
def landRow (s : State) (q : Copy) (r : Nat) (bs : List Byte) : State :=
  let g := q.csr
  let (t, i) := planesSpot q r
  let cw := if q.cvt then 16 else container q.desc.w
  let v := leNat bs
  withHart s q.gang q.hart (fun s =>
    let s := match (vreg s q.vregNo).first with
      | none => s
      | some p =>
        if t < s.h.csr.tiles ∧ i < s.h.csr.rows then
          let s := disturbReaders s s.h [.v q.vregNo] s.cyc
          let core := q.core + t
          let s := disturbSweeps [core] [.v q.vregNo] s.cyc s
          let s := modH s (fun h => { h with ports := h.ports ++ [⟨[], landPort t i, 1, s.cyc, s.cyc⟩] })
          let key := core * 256 + physRow s core i
          let s := { s with touched := sset 0 s.touched key s.cyc, drowsy := sset false s.drowsy key false }
          let open_ := fun e => s.h.exposed.any (fun w => w.loc == .v q.vregNo && decide (s.cyc ≤ w.upto) &&
            w.cells.all (fun c => c.1.testBit (r * g.rlen + e)))
          let bits := fun e => if open_ e then freePattern s q.vregNo (r * 1024 + e) % 2 ^ q.desc.w else v / 2 ^ (cw * e) % 2 ^ q.desc.w
          let s := writeRow s core (physRow s core i) p (ceilDiv q.desc.w g.fold) ((List.range g.rlen).map (fun e =>
            (g.fold * e, fillBits s q.desc.w q.desc.sgn (bits e), false)))
          if (List.range g.rlen).any open_ then { s with free := s.free + 1 } else s
        else s
    modH s (fun h =>
      let key := 512 * q.vregNo + t
      let bit := sget 0 h.landed key ||| BitVec.ofNat 257 (2 ^ i)
      { h with landed := sset 0 h.landed key bit, landedAt := seenLater h t (257 * key + i) s.cyc h.landedAt }))
  |> fun s => showLater s q.gang q.hart t

/-- Moves the bytes of one piece. -/
def movePiece (q : Copy) (s : State) (p : Piece) : State :=
  match p.src with
  | none => spaceWrite s q q.dsp q.dcl p.dst (List.replicate p.len 0) (p.run * 2 ^ 40 + p.off)
  | some (a, n) =>
    let (s, bs) := spaceRead s q q.ssp q.scl a n
    let bs := if q.cvt then ((convertBytes s q.bte bs).drop p.skip).take p.len else bs
    spaceWrite s q q.dsp q.dcl p.dst bs (p.run * 2 ^ 40 + p.off)

/-- Performs the writes of a chunk. -/
def moveChunk (s : State) (q : Copy) (c : Chunk) : State :=
  if q.ldcv then
    let (s, bs) := spaceRead s q q.ssp q.scl q.src 512
    { s with cvtab := (List.range 256).foldl (fun m i =>
        sset 0 m (q.bte * 256 + i) (BitVec.ofNat 16 (leNat ((bs.drop (2 * i)).take 2)) ^^^ BitVec.ofNat 16 i)) s.cvtab }
  else if q.kind = 3 then
    let (s, bs) := spaceRead s q q.ssp q.scl (planesRowSrc q c.blk) (planesRowBytes q)
    landRow s q c.blk (if q.cvt then convertBytes s q.bte bs else bs)
  else if q.kind = 7 then
    match chunkMark s q c with
    | none => s
    | some (cl, n, k, _) =>
      let (s, bs) := match c.src with
        | some a => let (s, bs) := spaceRead s q 1 0 a c.len; (s, bs.take (c.len - c.data.length) ++ c.data)
        | none => (s, c.data)
      if bs.isEmpty then s else putScratch s (clusterBase cl + ((bufAt s cl n).base + k) * 512) bs
  else (piecesIn q c.blk).foldl (movePiece q) s

/-- The first cy in which a sweep handed over now may begin: the next, so that an instruction of the hart that arrives in this cy goes first
(R241; when it begins otherwise is the model's choice, log 6), in lockstep mode its slot. -/
def sweepSlot (s : State) (q : Copy) (core : Nat) : Nat :=
  s.cyc + 1 + if copyLock s q then Config.planSweep ((s.cyc - (gangOf s q.gang).tstart) * 4096 + core) else 0

/-- Hands the follow-on command to the core of each tile that the copy wrote, once its last chunk has landed (R121, R241, R268). -/
def handSweeps (s : State) (q : Copy) : State :=
  if q.follow && !q.lost && q.chunks.all (fun c => c.st == .landed) then
    (q.chunks.map (fun c => c.blk / q.csr.rows)).eraseDups.foldl (fun s t =>
      let core := q.core + t
      let w : Sweep := { core, copy := q.id, gang := q.gang, hart := q.hart, tile := t, vreg := q.vregNo
                         cmd := q.tmpl.getD 7 0, running := false, ready := s.cyc, slot := sweepSlot s q core, csr := q.csr
                         part := q.part, chan := q.chan, tag := q.tag, tidx := q.tidx, pc := q.pc }
      schedule { s with sweeps := s.sweeps ++ [w] } w.slot (.followOnSweep core)) s
  else s

/-- A landing that has missed its slot is a timing trap: of a hart whose wait has found it unmet, which has begun a hold, and where none has,
of the hart of the copy in the cy of the landing (R44, R340, R372). DEDUCED (log 73): the examples after R279 and R340 let the wait trap. -/
def lateTrap (s : State) (q : Copy) : State :=
  let g := gangOf s q.gang
  match findHart s q.gang q.hart with
  | some h => if mayTrap s g h && g.hold.isNone then timingTrap s g h s.cyc else s
  | none => s

/-- A chunk lands: its writes, the report before the last landed bit, the landed bit, and what follows from it (R259, R263). -/
def landChunk (s : State) (q : Copy) (k : Nat) (c : Chunk) : State :=
  let s := moveChunk s q c
  let s := setChunk s q.id k (fun c => { c with st := .landed })
  let s := sampleEvent s q.core 2 (s.cyc - c.iss)
  let s := if c.late then lateTrap s q else s
  match findCopy s q.id with
  | none => s
  | some q =>
    let s := if q.over then writeReport s q else s
    let s := match chunkMark s q c with
      | some (cl, n, j, tag) => noteLanding (setBuf s cl n ((bufAt s cl n).land j (some tag))) cl n j tag
      | none => s
    let s := if q.kind = 3 then handSweeps s q else s
    closeIfOver (hostNext s q.id) q.id

/-- The running copy of a channel. -/
def runningOn (s : State) (chan : Nat) : Option Copy := s.copies.find? (fun q => q.chan == chan && q.started)

/-- A source chunk that a fault-only-first strip stops before: a page that faults or is NS (R266, R389). -/
def fofStops (s : State) (q : Copy) (a : Nat) : Bool :=
  match translate s q.part q.asid q.die a false with
  | .error _ => (migrationOf s q.part q.asid a).isNone
  | .ok x => pteNs x.leaf

/-- The elements before a source chunk of a fault-only-first strip that it must not read: the strip stops there (R266). -/
def fofCut (s : State) (q : Copy) (c : Chunk) : Option Nat :=
  if !q.fof || q.ssp != 1 then none
  else firstSome (piecesIn q c.blk) (fun p => match p.src with
    | some (a, n) => firstSome (spaceCut a n) (fun x =>
        let off := p.off / q.wide + (x.1 + 2 ^ 64 - a) % 2 ^ 64
        if !(p.run == 0 && decide (off < q.esz + x.1 % 512)) && fofStops s q x.1 then some ((off - x.1 % 512) / q.esz) else none)
    | none => none)

/-- The strip delivers no element from `n` on. -/
def cutStrip (s : State) (q : Copy) (n : Nat) : State :=
  let q' := { q with limit := some (match q.limit with | some m => min m n | none => n) }
  modCopy s q.id (fun _ => { q' with units := unitsOf q' })

/-- Some access of a chunk goes to the chunk that a migration copies: it waits for that copy to end (R103). -/
def onMigration (s : State) (q : Copy) (c : Chunk) : Bool :=
  !s.migrations.isEmpty && (chunkVas q c).any (fun v => match migrationOf s q.part q.asid v.1 with
    | some m => (v.1 - m.va) / 512 == m.m && decide (m.m < m.chunks)
    | none => false)

/-- The partition and the direction in which a HOST copy uses the host link. -/
def linkKey (q : Copy) : Nat := 2 * q.part + (if q.dsp = 2 then 1 else 0)

/-- Cys for which a chunk takes its partition's share of the host link: 11.6 bytes a cy for each sixteenth (R327). -/
def linkTime (share : Nat) (q : Copy) (c : Chunk) : Nat := ceilDiv (10 * ((piecesIn q c.blk).map (fun p => p.len)).sum) (116 * share)

/-- A HOST chunk of an elastic copy lands in its partition's share of the link. Without a share any HOST chunk waits (R327); with one, those
of a lockstep copy have their slots there (log 9). -/
def linkLand (s : State) (q : Copy) (k : Nat) (c : Chunk) : State :=
  let share := s.shareReg.toNat / 256 ^ q.part % 32
  let free := sget 0 s.hostLink (linkKey q)
  if share = 0 then s
  else if s.cyc < free then landAt s q k free
  else landChunk { s with hostLink := sset 0 s.hostLink (linkKey q) (s.cyc + linkTime share q c) } q k c

/-- HOST chunks that wait for the link try again. -/
def relandHost (s : State) : State :=
  (s.copies.filter (fun q => q.kind == 6 && q.goes)).foldl (fun s q =>
    (List.range q.chunks.length).foldl (fun s k =>
      match q.chunks[k]? with
      | some c => if c.st == .waiting && decide (c.due ≤ s.cyc) then landAt s q k s.cyc else s
      | none => s) s) s

/-- A chunk that no fault keeps back lands, unless it waits for a migration, for the write port of its row, or for the HOST chunks
before it; in lockstep mode it is then late (R6, R16, R45, R103, R124). -/
def arrive (s : State) (q : Copy) (k : Nat) (c : Chunk) : State :=
  if onMigration s q c then
    postpone (if copyLock s q && !c.late then notice s 4 6 (gangOf s q.gang) q.hart 0 else s) q k (s.cyc + 1)
  else if hostWaits q k then missSlot s q k
  else if q.kind = 3 && rowDrowsy s q c.blk then moveSlot (wakeRow s q c.blk) q k 40
  else if q.kind = 3 && decide (s.cyc < rowReady s q c.blk) then postpone s q k (rowReady s q c.blk)
  else if q.kind == 6 && (!copyLock s q || s.shareReg.toNat / 256 ^ q.part % 32 == 0) then linkLand (missSlot s q k) q k c
  else landChunk s q k c

/-- The local address of a chunk that goes into a buffer (R383). -/
def chunkAddr (s : State) (q : Copy) (c : Chunk) : Nat :=
  match chunkMark s q c with
  | some (cl, n, k, _) => ((bufAt s cl n).base + k) * 512
  | none => c.blk * 512

/-- CHUNK_LAND: a chunk in flight lands, or is parked or abandoned. In lockstep mode none lands before its cy (R44). -/
def execChunkLand (chan k : Nat) (s : State) : Out :=
  .next (match runningOn s chan with
    | none => s
    | some q =>
      match q.chunks[k]? with
      | none => s
      | some c =>
        if c.st != .waiting || (q.frozen && decide (s.cyc ≤ c.iss)) || decide (c.iss = 2 ^ 64) ||
          (copyLock s q && decide (s.cyc < c.due)) then s
        else if chunkOutside s q c then
          let a := chunkAddr s q c
          failChunk s q k 6 a (BitVec.ofNat 64 a)
        else
          let s := match fofCut s q c with | some n => cutStrip s q n | none => s
          let q := (findCopy s q.id).getD q
          match chunkFault s q c with
          | some e => failChunk (missSlot s q k) q k e.x.code e.va e.x.synd
          | none => arrive s q k c)

/-- An access finds neither its line nor its translation present: its chunk waits for a walk (R97, R100). -/
def walkDue (s : State) (q : Copy) (v : Nat × Bool) : Bool :=
  match translate s q.part q.asid q.die v.1 v.2 with
  | .error _ => false
  | .ok x => !lineHere s q.part x && !pinned s q.part q.asid v.1 &&
    !(sget [] s.caches.tlb (unitOf x.pa)).contains (x.pageTag q.part)

/-- TRANSLATION_WALK: the walk for a page finds which waiting chunks of the ASID it fails, a fault-only-first strip stopping before such a
chunk, and delays those whose line and translation are gone again by its level-table reads, in lockstep mode past their slots (R97, R100,
R266, R383). -/
def execTranslationWalk (asid va : Nat) (s : State) : Out :=
  .next ((s.copies.filter (fun q => q.asid == asid && q.goes)).foldl (fun s q =>
    (List.range q.chunks.length).foldl (fun s k =>
      match q.chunks[k]? with
      | none => s
      | some c =>
        if c.st != .waiting then s
        else match chunkFault s q c with
          | some e =>
            if e.va / 65536 == va / 65536 && (decide (e.x.code ≤ 5) || e.x.code == 0x100) then
              match fofCut s q c with
              | some n => cutStrip s q n
              | none => failChunk (missSlot s q k) q k e.x.code e.va e.x.synd
            else s
          | none =>
            if c.due != 2 ^ 64 && (chunkVas q c).any (fun v => v.1 / 65536 == va / 65536 && walkDue s q v)
            then postpone s q k (c.due + 260 * walkReads s q.part asid va) else s) s) s)

/-- A parked chunk is issued anew (R384). -/
def retryChunk (s : State) (q : Copy) (k : Nat) : State :=
  match q.chunks[k]? with
  | some c =>
    match c.st with
    | .parked _ _ =>
      planBte (setChunk s q.id k (fun c => { c with st := .waiting, iss := 2 ^ 64, due := 2 ^ 64 })) q.bte (copyLock s q)
    | _ => s
  | none => s

/-- A driver command for the ASID retries every parked chunk, walk and cart write (R384). -/
def retryParked (s : State) (part asid : Nat) : State :=
  (s.copies.filter (fun q => q.part == part && q.asid == asid && q.goes)).foldl (fun s q =>
    let s := if q.walk.any (fun w => w.parked) then schedule s s.cyc (.kvwalkCarriageStart q.chan) else s
    let s := if q.kind = 8 then schedule s s.cyc (.chunkRetry q.chan 0) else s
    (List.range q.chunks.length).foldl (fun s k =>
      match q.chunks[k]? with
      | some c => match c.st with
        | .parked _ _ => schedule s s.cyc (.chunkRetry q.chan k)
        | _ => s
      | none => s) s)
    ((List.range 4).foldl (fun s d =>
        if s.bins.any (fun p => p.die == d && p.slot.isSome) then schedule s s.cyc (.binPairWrite d) else s)
      { s with bins := s.bins.map (fun p => if p.slot.isSome && (gangOf s p.gang).part == part && (gangOf s p.gang).launch.asid == asid
                                            then { p with due := s.cyc } else p) })

/-- TRANSFER_RETRY: a repeated transfer, on the host link too, delays a chunk: in lockstep mode a late landing, with notice 0x05 (R6,
R361). -/
def execTransferRetry (chan k delay : Nat) (s : State) : Out :=
  .next (match runningOn s chan with
    | none => s
    | some q =>
      match q.chunks[k]? with
      | none => s
      | some c =>
        if c.st != .waiting || decide (c.due = 2 ^ 64) then s
        else
          let s := if delay = 0 then s else postpone s q k (c.due + delay)
          if copyLock s q then notice s 5 6 (gangOf s q.gang) q.hart 0 else s)

/-! The aperture store (R254, R256, R258, R87). -/

/-- The copies that an aperture store waits for: 4 queued behind the running one; for a register, any copy into it. -/
def apertureFull (s : State) (q : Copy) : Bool :=
  decide (5 ≤ (s.copies.filter (fun x => x.chan == q.chan)).length) || (q.kind == 3 && copyInto s q.vregNo)

/-- The copy that a store of the two dwords to BTE `bte`, channel `ch` captures. -/
def captureCopy (s : State) (bte ch : Nat) (d0 d1 : Word) : Copy :=
  let v := d0.toNat
  let cl := homeCluster s
  { id := s.fresh, chan := 64 * cl + 16 * bte + ch, gang := s.h.gang, hart := s.h.idx, part := (myGang s).part
    asid := (myGang s).launch.asid, pc := s.h.pc
    tmpl := (List.range 8).map (fun k => sget 0 s.templates (cl * 2048 + v % 256 * 8 + k)), sreq := v / 2 ^ 48
    tag := BitVec.ofNat 16 (v / 2 ^ 32), off := v / 256 % 2 ^ 24, tidx := v % 256, disp := d1, issueCy := s.h.issueCy
    csr := s.h.csr, core := s.h.core, started := false, frozen := false, chunks := [], indices := [], limit := none, pos := 0
    units := 0, walk := none, reported := [], errorResp := false, lag := 0, lost := false }

/-- Makes the register of a PLANES copy resident and clears its landed state. -/
def prepareRegister (s : State) (q : Copy) : Except (State × Trap) State :=
  let names : List Named := [{ reg := q.vregNo }]
  if q.kind != 3 then .ok s
  else if (vreg s q.vregNo).kind != 1 then .ok (clearLanded s q.vregNo)
  else match budgetTrap s names with
    | some t => .error (s, t)
    | none => match makeResident s names with
      | .error e => .error e
      | .ok s => .ok (clearLanded (touchRegs s names) q.vregNo)

/-- The store is a strip boundary (R112); the copy joins its channel. -/
def apertureStore (c : Ctl) (s : State) (q : Copy) : State :=
  match prepareRegister s q with
  | .error (s, t) => takeTrap s t
  | .ok s =>
    let q := { q with id := s.fresh }
    let s := { s with copies := s.copies ++ [q], fresh := s.fresh + 1 }
    retire c (closeStrip (startNext s q.chan))

/-- STQ: 16 bytes to a window, or the start of a copy (R158, R254). -/
def storePair (c : Ctl) (o : XI) (i : Instr) (s : State) : Out :=
  let ea := effAddr s o.xa c.imm 16
  let d0 := rx s o.xd
  let d1 := rx s (o.xd + 1)
  if !aligned ea 16 then raise s 9 1 ea
  else match homePlace s ea with
    | .aperture bte ch _ =>
      let q := captureCopy s bte ch d0 d1
      .next (if apertureFull s q then holdFor s .aperture i else apertureStore c s q)
    | _ => .next (retire c (scalarWrite s ea [d0, d1]))

def execStq (c : Ctl) (o : XI) (s : State) : Out := storePair c o (.stq c o) s
/-- BTX is STQ under another name (R255, log 12). -/
def execBtx (c : Ctl) (o : XI) (s : State) : Out := storePair c o (.btx c o) s

/-! The start (R258, R411). -/

/-- Some other replay of the same bin set and region runs (R414). -/
def replayRegion (q : Copy) : Nat := (q.dw 3 + q.disp.toNat) % 2 ^ 32
def replayBusy (s : State) (q : Copy) : Bool :=
  q.kind == 8 && s.copies.any (fun x => x.kind == 8 && x.started && x.part == q.part && x.asid == q.asid && x.src == q.src &&
    replayRegion x == replayRegion q && x.id != q.id)

/-- The elements a fault-only-first strip delivers as its pages stand at the start, none when it does not stop. The chunks of element 0
of the first row do not stop it (R266). -/
def fofLimit (s : State) (q : Copy) : Option Nat :=
  let n := N0of q
  if !q.fof || q.ssp != 1 || n == 0 then none
  else
    let rows := (rowStarts q).map Prod.snd
    firstSome (List.range rows.length) (fun i =>
      let a := rows.getD i 0
      firstSome (spaceCut a n) (fun p =>
        let off := (p.1 + 2 ^ 64 - a) % 2 ^ 64
        if !(i == 0 && decide (off < q.esz)) && fofStops s q p.1 then some (off / q.esz) else none))

/-- The indices of a GATHER as the copy reads them (R270). -/
def readIndices (s : State) (q : Copy) : State × Option (List Nat) :=
  let a := q.dw 4 % 2 ^ 48
  match readFault s q 0 0 a (4 * gatherCount q) with
  | some e => (reportFault s q e.x.code e.va e.x.synd, none)
  | none =>
    let (s, bs) := spaceRead s q 0 0 a (4 * gatherCount q)
    (s, some ((List.range (gatherCount q)).map (fun i => leNat ((bs.drop (4 * i)).take 4))))

/-- Starts the chunks of a copy whose template has passed. -/
def beginCopy (s : State) (q : Copy) : State :=
  let q := { q with started := true, limit := fofLimit s q, lag := s.cyc - startCy (gangOf s q.gang).tstart q }
  let s := modCopy s q.id (fun _ => q)
  let (s, idx) := if q.kind = 5 then readIndices s q else (s, some [])
  match idx with
  | none => endCopy s q
  | some idx =>
    let q := { (findCopy s q.id).getD q with indices := idx }
    let q := { q with chunks := chunksOf q, units := unitsOf q }
    let s := modCopy s q.id (fun _ => q)
    if q.chunks.isEmpty then endCopy (writeReport s q) q else planBte s q.bte (copyLock s q)

/-- Begins a walk at its first carriage (R271). -/
def beginWalk (s : State) (q : Copy) : State :=
  let q := { q with started := true, walk := some ⟨0, q.src, [], [], false, false⟩ }
  schedule (modCopy s q.id (fun _ => q)) s.cyc (.kvwalkCarriageStart q.chan)

/-! Follow-on sweeps (R241, R412). -/

/-- The engine of a core is free from this cy on: of the matrix instructions of the hart that holds it, and of earlier sweeps. -/
def engineFree (s : State) (g k core : Nat) : Nat :=
  max (sget 0 s.engines core) (match findHart s g k with | some h => h.units.matrix | none => 0)

/-- A sweep reads registers that are not resident as undefined bits (R10, log 7). -/
def absentRegs (s : State) (ns : List Nat) : List Loc := (ns.filter (fun n => !isResident (vreg s n))).map Loc.v

/-- What the hart in hand has in exposed windows for a reader that begins in cy `t`. -/
def hotFrom (s : State) (t : Nat) : List Loc := (s.h.exposed.filter (fun w => decide (t ≤ w.upto))).map (fun w => w.loc)

/-- Applies the sweep under the captured grant, with the metadata check first. What lies in an exposed window of the hart reads as
undefined (R41). -/
def sweepCore (w : Sweep) (j : Job) (s : State) : State × Option (Nat × Nat) :=
  let mine := s.h
  let regs := [j.va, j.vb] ++ if j.op = 1 then [j.vm] else []
  let hot := absentRegs s regs ++ hotFrom s s.cyc
  let s1 := modH s (fun h => { h with csr := { w.csr with mcfg := BitVec.ofNat 64 j.mode }, hot })
  match (if j.op = 1 then metaFault s1 j w.tile else none) with
  | some f => (s, some f)
  | none =>
    let r := (runJob s1 j w.tile w.pc).1
    ({ modH r (fun _ => mine) with free := if hot.isEmpty then r.free else r.free + 1 }, none)

/-- The copy that a sweep's records speak of. -/
def Sweep.copyOf (w : Sweep) (s : State) : Copy :=
  { captureCopy s 0 0 0 0 with
    tmpl := [0, 0, 0, 0, 0, 0, 0, w.cmd], gang := w.gang, hart := w.hart, part := w.part, chan := w.chan, tag := w.tag
    tidx := w.tidx, pc := w.pc, core := w.core, csr := w.csr }

/-- The sweep that the engine of a core takes next. -/
def nextSweep (s : State) (core : Nat) : Option Sweep := s.sweeps.find? (fun w => w.core == core && !w.running)

/-- The first cy in which a sweep may begin: in its slot or later, the engine free, past a ramp in progress. -/
def sweepStart (s : State) (w : Sweep) : Nat :=
  ((rampAt s w.core).ahead (max (max s.cyc w.slot) (engineFree s w.gang w.hart w.core))).1

/-- The physical rows that a sweep reads. -/
def sweepRows (s : State) (w : Sweep) : List Nat :=
  ((followJob (w.copyOf s)).rows.flatMap (fun r => (List.range r.2).map (r.1 + ·))).map (fun i => w.core * 256 + physRow s w.core i)

/-- A sweep begins in this cy. -/
def sweepBegins (s : State) (core : Nat) : Bool :=
  (nextSweep s core).any (fun w => decide (sweepStart s w ≤ s.cyc) && (sweepRows s w).all (fun r => !rowAsleep s r s.cyc))

/-- ARRAY_RAMP_DOWN: an occupancy has ended, none follows, and no hold is open. -/
def execArrayRampDown (core : Nat) (s : State) : Out :=
  let r := rampAt s core
  .next (if (r.st == .warm || r.st == .held) && decide (r.upto < s.cyc) && decide (r.holdTo < s.cyc) && !sweepBegins s core
    then rampDown s core else s)

/-- A sweep that begins after its slot is a late landing (R241). -/
def sweepLate (w : Sweep) (s : State) : State :=
  let q := w.copyOf s
  if copyLock s q && decide (w.slot < s.cyc) then lateTrap s q else s

/-- FOLLOW_ON_SWEEP: the engine takes the first waiting sweep of its queue once it is free, its rows awake (R45). Illegal metadata
leaves a record and drops the sweep (R412). -/
def execFollowOnSweep (core : Nat) (s : State) : Out :=
  .next (match nextSweep s core with
    | none => s
    | some w =>
      let free := sweepStart s w
      if s.cyc < free then schedule s free (.followOnSweep core)
      else if !sweepBegins s core then
        schedule { touchRows s (sweepRows s w) (s.cyc + 40) with
            sweeps := s.sweeps.map (fun x => if x.core == core && x.copy == w.copy then { x with slot := s.cyc + 40 } else x) }
          (s.cyc + 40) (.followOnSweep core)
      else
        let q := w.copyOf s
        let j := followJob q
        let mine := fun (x : Sweep) => x.core == core && x.copy == w.copy
        match (match findHart s w.gang w.hart with
          | none => (s, none)
          | some _ =>
            let r := sweepCore w j (takeHart s w.gang w.hart)
            (takeHart r.1 s.h.gang s.h.idx, r.2)) with
        | (_, some (g, col)) =>
          let s := copyRecord { s with sweeps := s.sweeps.filter (fun x => !mine x) } q 2 0x10 0x14 (0x20000000 + 64 * w.tidx)
            (BitVec.ofNat 64 (w.tile * 2 ^ 32 + g * 65536 + col))
          schedule (schedule s s.cyc (.followOnSweep core)) s.cyc (.arrayRampDown core)
        | (s, none) =>
          let n := rampFiller s core s.cyc + j.occupancy
          let s := touchRows s (sweepRows s w) (s.cyc + n)
          let s := { s with sweeps := s.sweeps.map (fun x => if mine x then { x with running := true, ready := s.cyc + n + 3 } else x)
                            engines := sset 0 s.engines core (s.cyc + n) }
          let s := schedule s (s.cyc + n) (.followOnSweep core)
          sweepLate w (schedule (arrayOccupy s core s.cyc n) (s.cyc + n + 3) (.sweepDone core)))

/-- SWEEP_DONE: the matrix-done bit of the landed register in the tile. -/
def execSweepDone (core : Nat) (s : State) : Out :=
  .next (match s.sweeps.find? (fun w => w.core == core && w.running) with
    | none => s
    | some w =>
      let s := { s with sweeps := s.sweeps.filter (fun x => !(x.core == core && x.copy == w.copy)) }
      modHarts s (isHart w.gang w.hart) (fun h =>
        let key := 512 * w.vreg + w.tile
        { h with landed := sset 0 h.landed key (sget 0 h.landed key ||| BitVec.ofNat 257 (2 ^ 256))
                 landedAt := seenLater h w.tile (257 * key + 256) s.cyc h.landedAt })
      |> fun s => showLater s w.gang w.hart w.tile)

end Sys2Proof.Machine
end

