-- ==== Sys2Proof/Machine/Coach.lean ====
section
/-! DEFINITION. Coaches (R280 to R292, R395): the coach unit's operations, the instructions that send them, and the walks of
KVWALK copies (R271, R290). -/
namespace Sys2Proof.Machine

/-- Who reads and writes: partition, ASID, and the die it stands on. -/
structure Who where
  part : Nat
  asid : Nat
  die : Nat
  deriving DecidableEq, Repr

/-- A refusal of R395: code, address, syndrome. -/
structure CoachErr where
  code : Nat
  va : Nat
  synd : Nat
  deriving DecidableEq, Repr

/-- A range that an operation reads, writes, or both. -/
structure Span where
  va : Nat
  len : Nat
  read : Bool
  write : Bool
  deriving DecidableEq, Repr

/-- The fault of one piece of a span, taken as a write or as a read; only a read finds poison (R416). -/
def pieceFault (s : State) (w : Who) (write : Bool) (p : Nat × Nat) : Option CoachErr :=
  match translate s w.part w.asid w.die p.1 write with
  | .error x => some ⟨1, p.1, if x.code = 0x100 then 5 else x.code⟩
  | .ok x => if hbmPoisoned s x.pa p.2 && !write then some ⟨1, p.1, 5⟩ else none

/-- Code 0x01: a translation, region or poison fault (R395, R416). -/
def spanFault (s : State) (w : Who) (a : Span) : Option CoachErr :=
  firstSome (spaceCut a.va a.len) (fun p =>
    (if a.read then pieceFault s w false p else none).orElse fun _ => if a.write then pieceFault s w true p else none)

/-- Code 0x02: a replicated page. -/
def spanReplicated (s : State) (w : Who) (a : Span) : Option CoachErr :=
  match translate s w.part w.asid w.die a.va false with
  | .ok x => if pteRepl x.leaf then some ⟨2, a.va, 0⟩ else none
  | .error _ => none

/-- Codes 0x01 and 0x02 over all accesses of an operation. -/
def spansBad (s : State) (w : Who) (as : List Span) : Option CoachErr :=
  (firstSome as (spanFault s w)).orElse fun _ => firstSome as (spanReplicated s w)

/-- A dword at a VA; 0 where it cannot be read. -/
def vget (s : State) (w : Who) (va : Nat) : Nat :=
  match vaDword s w.part w.asid w.die (va % 2 ^ 64) with
  | .ok v => v.toNat
  | .error _ => 0

/-- Bytes written at a VA, by the die's coach or binning unit. DESIGN CHOICE (log 69): as an issuer of R126 it counts as 3,074, since the
rule names numbers for copies and BAR writes alone. -/
def vputBytes (s : State) (w : Who) (va : Nat) (bs : List Byte) : State :=
  (spaceCut va bs.length).foldl (fun acc p =>
    ((vaWrite acc.1 w.part w.asid w.die 3074 p.1 (acc.2.take p.2)).1, acc.2.drop p.2)) (s, bs) |>.1

def vput (s : State) (w : Who) (va v : Nat) : State := vputBytes s w va (toBytes 8 v)

/-- Replaces bits [hi:lo] of a dword. -/
def vputField (s : State) (w : Who) (va hi lo x : Nat) : State :=
  let v := vget s w va
  vput s w va (v - fieldOf v hi lo * 2 ^ lo + x % 2 ^ (hi - lo + 1) * 2 ^ lo)

def vgetField (s : State) (w : Who) (va hi lo : Nat) : Nat := fieldOf (vget s w va) hi lo

/-! Carriage headers (R280). -/

def carSucc (s : State) (w : Who) (k : Nat) : Nat := vget s w k
def carBase (s : State) (w : Who) (k : Nat) : Nat := vgetField s w (k + 8) 63 32
def carNtok (s : State) (w : Who) (k : Nat) : Nat := vgetField s w (k + 8) 15 8
def carTag (s : State) (w : Who) (k : Nat) : Nat := vgetField s w (k + 8) 3 0
def carRef (s : State) (w : Who) (k : Nat) : Nat := vgetField s w (k + 16) 63 48
def carPin (s : State) (w : Who) (k : Nat) : Nat := vgetField s w (k + 16) 47 32
def carSealed (s : State) (w : Who) (k : Nat) : Bool := bitOf (vget s w (k + 16)) 0
def carRetired (s : State) (w : Who) (k : Nat) : Bool := bitOf (vget s w (k + 16)) 1
def carPool (s : State) (w : Who) (k : Nat) : Nat := vget s w (k + 48)

/-- The shape of a carriage (R280, R281). -/
structure Shape where
  lc : Nat
  hc : Nat
  hd : Nat
  z : Nat
  lstr : Nat
  hstr : Nat
  voff : Nat
  size : Nat
  ok : Bool
  deriving DecidableEq, Repr

/-- The shape of a SHAPE dword, a STRIDES dword, VOFF and SZM, with its validity (R281). -/
def shapeOf (shape strides voff szm : Nat) : Shape :=
  let d := Desc.ofOvr (shape % 1024)
  let cw := container d.w
  let lc := fieldOf shape 47 40 + 1
  let hc := fieldOf shape 39 32 + 1
  let hd := fieldOf shape 25 16 + 1
  let z := cw / 8
  let lstr := fieldOf strides 63 32
  let hstr := fieldOf strides 31 0
  { lc, hc, hd, z, lstr, hstr, voff, size := szm + 1
    ok := d.wf && (cw == 8 || cw == 16 || cw == 32) && hstr % 512 == 0 && lstr % 512 == 0 && voff % 512 == 0 &&
      decide (64 * hd * z ≤ hstr) && decide (hc * hstr ≤ lstr) && decide (lc * lstr ≤ voff) &&
      decide (512 + voff + lc * lstr ≤ (szm + 1) * 65536) }

def carShape (s : State) (w : Who) (k : Nat) : Shape :=
  shapeOf (vget s w (k + 24)) (vget s w (k + 32)) (vgetField s w (k + 40) 31 0) (vgetField s w (k + 16) 31 24)

/-- Offset of the K of a token slot (R281). -/
def Shape.kOff (h : Shape) (l head slot : Nat) : Nat := 512 + l * h.lstr + head * h.hstr + slot * h.hd * h.z

/-- A block of 64 bytes, a descriptor or a header, that an operation reads and writes, or only reads. -/
def header (k : Nat) : Span := ⟨k, 64, true, true⟩
def readBlock (k : Nat) : Span := ⟨k, 64, true, false⟩

/-! Pools (R283, R285). -/

/-- Pushes a carriage onto the pool it returns to. -/
def freeCarriage (s : State) (w : Who) (k : Nat) : State :=
  let pool := carPool s w k
  let s := vput s w k (vget s w pool)
  let v := vget s w (k + 16)
  let s := vput s w (k + 16) (v % 2 ^ 32 / 4 * 4 + 2 + v % 2)
  let s := vput s w pool k
  vputField s w (pool + 8) 31 0 (vgetField s w (pool + 8) 31 0 + 1)

/-- Frees a carriage when REF and PIN are both 0. -/
def freeIfDue (s : State) (w : Who) (k : Nat) : State :=
  if carRef s w k = 0 ∧ carPin s w k = 0 then freeCarriage s w k else s

/-- The pool access that freeing would make. -/
def poolSpans (s : State) (w : Who) (k : Nat) : List Span := [header (carPool s w k)]

/-- What an operation comes to: the state, X[XD], and the cy it adds; or a refusal with the cy it adds. -/
abbrev CoachRes := Except (CoachErr × Nat) (State × Nat × Nat)

/-! KVAPP (R287). -/

/-- The LOCAL bytes of a record, as an engine access of the hart. -/
def recordRead (s : State) (op : CoachOp) (part cl a n : Nat) : State × List Byte :=
  match placeOf s part cl a with
  | .mem g => (s, bytesAt s.mem g n)
  | .bad k => (logViolation s part k 4 a op.hart op.gang, List.replicate n 0)
  | _ => (logViolation s part 1 4 a op.hart op.gang, List.replicate n 0)

def recordBad (s : State) (part cl a n : Nat) : Bool :=
  match placeOf s part cl a with
  | .mem g => !s.poisonWord.isEmpty && (List.range (ceilDiv n 8)).any (fun i => sget false s.poisonWord (g / 8 + i))
  | _ => false

/-- Every (layer, head) of a shape, heads fastest. -/
def Shape.cells (h : Shape) : List (Nat × Nat) :=
  (List.range h.lc).flatMap (fun l => (List.range h.hc).map (fun x => (l, x)))

/-- The token's bytes: VA, offset in the record, length. -/
def tokenParts (h : Shape) (k slot : Nat) : List (Nat × Nat × Nat) :=
  let n := h.hd * h.z
  h.cells.flatMap (fun c =>
    [(k + h.kOff c.1 c.2 slot, (c.1 * h.hc + c.2) * n, n),
     (k + h.kOff c.1 c.2 slot + h.voff, (h.lc * h.hc + c.1 * h.hc + c.2) * n, n)])

def kvapp (s : State) (w : Who) (op : CoachOp) (cl : Nat) : CoachRes :=
  let c := op.a.toNat
  let tag := fieldOf op.b.toNat 51 48
  let rec_ := op.b.toNat % 2 ^ 48
  let d := fun k => vget s w (c + 8 * k)
  let t := d 2
  let new := t == 0 || carSealed s w t || carTag s w t != tag || carNtok s w t == 64
  let pool := d 3
  let n := vget s w pool
  let h := if new then shapeOf (d 5) (d 6) (d 7 % 2 ^ 24) (fieldOf (d 7) 31 24) else carShape s w t
  let k := if new then n else t
  let slot := if new then 0 else carNtok s w t
  let len := 2 * h.lc * h.hc * h.hd * h.z
  let outside := match windowOf rec_ with
    | some (b, m) => decide (b + m < rec_ + len)
    | none => true
  let body := if h.ok && k != 0 then (tokenParts h k slot).map (fun p => (⟨p.1, p.2.2, false, true⟩ : Span)) else []
  let spans := [header c] ++ (if t = 0 then [] else [header t]) ++
    (if new then [header pool] ++ (if n = 0 then [] else [header n]) else []) ++ body
  if op.b.toNat / 2 ^ 52 ≠ 0 then .error (⟨0x0b, c, 0⟩, 0)
  else match firstSome spans (spanFault s w) with
  | some e => .error (e, 0)
  | none =>
    if !outside && recordBad s w.part cl rec_ len then .error (⟨1, rec_, 5⟩, 0)
    else match firstSome spans (spanReplicated s w) with
    | some e => .error (e, 0)
    | none =>
      if rec_ % 8 ≠ 0 ∨ outside then .error (⟨3, rec_, 0⟩, 0)
      else if !h.ok then .error (⟨4, if new then c else t, 0⟩, 0)
      else if new && n == 0 then .error (⟨6, pool, 0⟩, 0)
      else
        let (s, bs) := recordRead s op w.part cl rec_ len
        let pos := fieldOf (d 4) 63 32
        let s := if new then
            let s := vput s w pool (carSucc s w n)
            let s := vputField s w (pool + 8) 31 0 (vgetField s w (pool + 8) 31 0 + 2 ^ 32 - 1)
            let s := vputBytes s w n ([0, pos * 2 ^ 32 + fieldOf (d 4) 31 16 * 2 ^ 16 + tag,
              2 ^ 48 + fieldOf (d 7) 31 24 * 2 ^ 24, d 5, d 6, d 7 % 2 ^ 24, pool, 0].flatMap (toBytes 8))
            let s := if t = 0 then vput s w (c + 8) n else vput (vputField s w (t + 16) 0 0 1) w t n
            vput s w (c + 16) n
          else s
        let s := (tokenParts h k slot).foldl (fun s p => vputBytes s w p.1 ((bs.drop p.2.1).take p.2.2)) s
        let s := vputField s w (k + 8) 15 8 (slot + 1)
        let s := vputField s w (c + 32) 63 32 (pos + 1)
        .ok (s, pos, (if new then 400 else 0) + 4 * ceilDiv len 512)

/-! RETSPAN (R288). -/

/-- The carriages that a walk of a chain from `k` visits, up to the first that `stop` holds of, and the fault that cuts it: one of
code 0x01 at a header it cannot read, or code 0x05 past 65,536 carriages. -/
def visitFrom (s : State) (w : Who) (c : Nat) (stop : Nat → Bool) : Nat → Nat → List Nat × Option CoachErr
  | 0, _ => ([], some ⟨5, c, 0⟩)
  | fuel + 1, k =>
    if k = 0 then ([], none)
    else match spanFault s w (readBlock k) with
      | some e => ([k], some e)
      | none =>
        if stop k then ([k], none)
        else match visitFrom s w c stop fuel (carSucc s w k) with
          | (ks, e) => (k :: ks, e)

def visit (s : State) (w : Who) (c k : Nat) (stop : Nat → Bool := fun _ => false) : List Nat × Option CoachErr :=
  visitFrom s w c stop 65537 k

/-- The first refusal, in the order of R395, of an operation that walked `walks` and makes the accesses `spans`. -/
def walksBad (s : State) (w : Who) (walks : List (List Nat × Option CoachErr)) (spans : List Span) : Option CoachErr :=
  let cut := walks.filterMap Prod.snd
  ((((cut.find? (fun e => e.code == 1)).orElse fun _ => firstSome spans (spanFault s w)).orElse fun _ =>
    firstSome (spans ++ walks.flatMap (fun p => p.1.map readBlock)) (spanReplicated s w))).orElse fun _ => cut.head?

/-- One owned carriage of RETSPAN: the state, its predecessor, and the tokens removed so far. -/
def retireOne (w : Who) (c tag : Nat) (close : Bool) (acc : State × Nat × Nat) (k : Nat) : State × Nat × Nat :=
  let (s, prev, gone) := acc
  if carTag s w k = tag then
    let s := if prev = 0 then vput s w (c + 8) (carSucc s w k) else vput s w prev (carSucc s w k)
    let s := if vget s w (c + 16) = k then vput s w (c + 16) prev else s
    let s := vputField s w (k + 16) 1 1 1
    let s := vputField s w (k + 16) 63 48 (carRef s w k - 1)
    let n := carNtok s w k
    (freeIfDue s w k, prev, gone + n)
  else
    (if close then vputField s w (k + 8) 63 32 (carBase s w k + 2 ^ 32 - gone) else s, k, gone)

def dropRef (w : Who) (s : State) (k : Nat) : State :=
  freeIfDue (vputField s w (k + 16) 63 48 (carRef s w k - 1)) w k

/-- The headers that RETSPAN writes (R288): those it retires, the predecessors it links anew, the carriages whose positions close up,
the tail it seals, the prefix it drops; and the descriptor where a field of it changes. -/
def retSpans (s : State) (w : Who) (c tag : Nat) (close : Bool) (own pre : List Nat) : List Span :=
  let hit := fun k => carTag s w k == tag
  let tail := vget s w (c + 16)
  let kept := own.filter (fun k => !hit k)
  let linked := (own.zip (own.drop 1)).filterMap (fun p => if !hit p.1 && hit p.2 then some p.1 else none)
  let due := (own.filter hit ++ pre).filter (fun k => carRef s w k == 1 && carPin s w k == 0)
  let desc := close || !pre.isEmpty || (own.head?).any hit || (own.contains tail && hit tail)
  let sealed := if own.any hit then (if hit tail then kept.getLast?.toList else [tail]) else []
  (if desc then [header c] else [readBlock c]) ++
    (own.filter hit ++ (if close then kept else linked) ++ sealed ++ pre).eraseDups.map header ++ due.flatMap (poolSpans s w)

def retspan (s : State) (w : Who) (op : CoachOp) (close pfx : Bool) : CoachRes :=
  let c := op.a.toNat
  let tag := op.b.toNat % 16
  if op.b.toNat / 16 ≠ 0 then .error (⟨0x0b, c, 0⟩, 0)
  else match spanFault s w (readBlock c) with
  | some e => .error (e, 0)
  | none =>
    let prefix_ := if pfx then vget s w c else 0
    let owned := visit s w c (vget s w (c + 8))
    let before := visit s w c prefix_
    let own := owned.1
    let pre := before.1
    let spans := match owned.2, before.2 with
      | none, none => retSpans s w c tag close own pre
      | _, _ => [readBlock c]
    match walksBad s w [owned, before] spans with
    | some e => .error (e, 64 * own.length)
    | none =>
      let lowered := own.filter (fun k => carTag s w k == tag) ++ pre
      match lowered.find? (fun k => decide (carRef s w k < lowered.count k)) with
      | some k => .error (⟨0x0a, k, 0⟩, 64 * own.length)
      | none =>
        let (s, _, gone) := own.foldl (retireOne w c tag close) (s, 0, 0)
        let tail := vget s w (c + 16)
        let s := if 0 < gone ∧ tail ≠ 0 then vputField s w (tail + 16) 0 0 1 else s
        let s := if close then vputField s w (c + 32) 63 32 (vgetField s w (c + 32) 63 32 + 2 ^ 32 - gone) else s
        let s := if prefix_ ≠ 0 then vput (pre.foldl (dropRef w) s) w c 0 else s
        .ok (s, gone, 64 * own.length)

/-! KVPIN, KVUNPIN (R289) and KVQRY (R292). -/

def kvpin (s : State) (w : Who) (op : CoachOp) : CoachRes :=
  let k := op.a.toNat
  match spansBad s w [header k] with
  | some e => .error (e, 0)
  | none =>
    let p := carPin s w k
    if carRef s w k = 0 ∧ p = 0 ∧ carRetired s w k then .error (⟨7, k, 0⟩, 0)
    else if p = 65535 then .error (⟨8, k, 0⟩, 0)
    else .ok (vputField s w (k + 16) 47 32 (p + 1), p + 1, 0)

def kvunpin (s : State) (w : Who) (op : CoachOp) : CoachRes :=
  let k := op.a.toNat
  let frees := carRef s w k == 0 && carPin s w k == 1
  match spansBad s w (header k :: if frees then poolSpans s w k else []) with
  | some e => .error (e, 0)
  | none =>
    let p := carPin s w k
    if p = 0 then .error (⟨9, k, 0⟩, 0)
    else .ok (freeIfDue (vputField s w (k + 16) 47 32 (p - 1)) w k, p - 1, 0)

/-- KVQRY 1 and 3 visit the prefix chain, then the owned one, up to the carriage that `stop` holds of (R292); they write nothing. -/
def visitBoth (s : State) (w : Who) (c : Nat) (stop : Nat → Bool) : Except (CoachErr × Nat) (List Nat × List Nat) :=
  match spanFault s w (readBlock c) with
  | some e => .error (e, 0)
  | none =>
    let p := visit s w c (vget s w c) stop
    let o := if p.1.any stop then ([], none) else visit s w c (vget s w (c + 8)) stop
    match walksBad s w [p, o] [readBlock c] with
    | some e => .error (e, 64 * (p.1.length + o.1.length))
    | none => .ok (p.1, o.1)

def kvqry (s : State) (w : Who) (op : CoachOp) (query : Nat) : CoachRes :=
  let a := op.a.toNat
  match query with
  | 1 =>
    let x := op.b.toNat
    let holds := fun k => decide (carBase s w k ≤ x) && decide (x < carBase s w k + carNtok s w k)
    match visitBoth s w a holds with
    | .error e => .error e
    | .ok (p, o) => .ok (s, ((p ++ o).find? holds).getD 0, 64 * (p.length + o.length))
  | 3 =>
    match visitBoth s w a (fun _ => false) with
    | .error e => .error e
    | .ok (p, o) => .ok (s, p.length * 2 ^ 32 + o.length, 64 * (p.length + o.length))
  | _ =>
    let va := if query = 0 then a + 32 else a + 8 * (op.b.toNat % 8)
    match spansBad s w [⟨va, 8, true, false⟩] with
    | some e => .error (e, 0)
    | none => .ok (s, vget s w va, 0)

/-! The coach unit (R123, R286, R395). -/

/-- The home cluster of the hart that sent an operation. -/
def opCluster (s : State) (op : CoachOp) : Nat :=
  match findHart s op.gang op.hart with
  | some h => clusterOfCore h.core
  | none => 0

def opDie (s : State) (op : CoachOp) : Nat := dieOfCluster (opCluster s op)

/-- What an operation does. DESIGN CHOICE (log 71): a coach, pool or carriage VA that is not aligned as R280, R282 and R283 ask is used
as it stands, since no code of R395 names it. -/
def coachEffect (s : State) (w : Who) (op : CoachOp) : CoachRes :=
  match op.instr with
  | .kvapp _ _ => kvapp s w op (opCluster s op)
  | .retspan _ o => retspan s w op (o.fn.getLsbD 0) (o.fn.getLsbD 1)
  | .kvpin _ _ => kvpin s w op
  | .kvunpin _ _ => kvunpin s w op
  | .kvqryDesc _ _ => kvqry s w op 0
  | .kvqryPos _ _ => kvqry s w op 1
  | .kvqryHdr _ _ => kvqry s w op 2
  | .kvqryCount _ _ => kvqry s w op 3
  | _ => .ok (s, 0, 0)

/-- A RETSPAN waits for the copies whose walks have met its coach, those of a pre-empted gang included, until they end with their last
chunk (R288, R291). -/
def opBlocked (s : State) (op : CoachOp) : Bool :=
  match op.instr with
  | .retspan _ _ =>
    let g := gangOf s op.gang
    let id := vgetField s ⟨g.part, g.launch.asid, op.die⟩ (op.a.toNat + 32) 31 16
    let stopped := s.gangs.flatMap (fun g => (g.saved.map (fun v => v.copies)).getD [])
    (s.copies ++ stopped).any (fun q => q.part == g.part && (match q.walk with
      | some w => w.coaches.contains id
      | none => false))
  | _ => false

/-- Puts an operation behind those that reached their unit no later. -/
def insertOp (ops : List CoachOp) (op : CoachOp) : List CoachOp :=
  ops.takeWhile (fun x => decide (x.due ≤ op.due)) ++ op :: ops.dropWhile (fun x => decide (x.due ≤ op.due))

/-- The operations that have reached a coach unit, in the order in which they did (R123). -/
def arrivedOps (s : State) (die : Nat) : List CoachOp :=
  (s.coachOps.filter (fun op => op.die == die && decide (op.due ≤ s.cyc))).foldl insertOp []

/-- The operation a coach unit applies next: the first to have reached it that neither waits nor follows one on its coach. -/
def nextOp (s : State) (die : Nat) : Option CoachOp :=
  ((arrivedOps s die).foldl (fun (acc : List Word × Option CoachOp) op =>
    if acc.2.isSome then acc
    else if !acc.1.contains op.a && !opBlocked s op then (acc.1, some op)
    else (op.a :: acc.1, none)) ([], none)).2

def sameOp (a b : CoachOp) : Bool := a.gang == b.gang && a.hart == b.hart

/-- Cy from the coach unit back to the hart, and from the hart to it. -/
def coachHop (s : State) (op : CoachOp) : Nat := 80 + 120 * dieHops (opDie s op) op.die

/-- The hart's answer is on its way. -/
def coachReply (s : State) (op : CoachOp) (v extra : Nat) : State :=
  let s := modHarts s (isHart op.gang op.hart) (fun h =>
    { h with wait := h.wait.map (fun x => { x with reply := some (BitVec.ofNat 64 v) }) })
  schedule s (s.cyc + extra + coachHop s op) (.coachOpComplete op.gang op.hart)

/-- COACH_OP_APPLY. -/
def execCoachOpApply (die : Nat) (s : State) : Out :=
  .next (match nextOp s die with
    | none => s
    | some op =>
      let g := gangOf s op.gang
      let s0 := { s with coachOps := s.coachOps.filter (fun x => !sameOp x op) }
      match coachEffect s0 ⟨g.part, g.launch.asid, op.die⟩ op with
      | .ok (s1, v, extra) => coachReply s1 op v extra
      | .error (e, extra) =>
        let r := { (Record.blank s0).about g with
          agent := 4, pkg := op.die, cls := 0x11, code := BitVec.ofNat 8 e.code, hart := op.hart, pc := op.pc
          addr := BitVec.ofNat 64 e.va, synd := BitVec.ofNat 64 e.synd }
        coachReply (addRecord s0 r) op (2 ^ 64 - 1) extra)

/-- Ends the wait of the hart in hand: X`xd` receives the reply and the instruction completes. -/
def finishWait (c : Ctl) (xd : BitVec 5) (s : State) : State :=
  match s.h.wait with
  | some w => match w.reply with
    | some v => retire c (setX (modH s (fun h => { h with wait := none })) xd v)
    | none => s
  | none => s

/-- COACH_OP_COMPLETE: X[XD] lands and the scalar unit is free. -/
def execCoachOpComplete (gang hart : Nat) (s : State) : Out :=
  .next (withHart s gang hart (fun s =>
    match s.h.wait with
    | some w => match w.instr with
      | .kvapp c o | .retspan c o | .kvpin c o | .kvunpin c o | .kvqryDesc c o | .kvqryPos c o | .kvqryHdr c o
      | .kvqryCount c o => finishWait c o.xd s
      | _ => s
    | none => s))

/-- Sends an operation to the coach unit of the home die of X[XA] (R282, R286). DESIGN CHOICE (log 71): one whose address no region maps,
which R282 gives no die, goes to the hart's own. -/
def sendCoach (s : State) (o : X3) (i : Instr) : State :=
  let a := rx s o.xa
  let mine := dieOfCore s.h.core
  let die := match homeDie s (myGang s).part mine a.toNat with
    | .ok (d, _, _) => d
    | .error _ => mine
  let due := s.h.issueCy + 80 + 120 * dieHops mine die
  let op : CoachOp := ⟨die, s.h.gang, s.h.idx, s.h.pc, i, a, rx s o.xb, due⟩
  holdFor (schedule { s with coachOps := s.coachOps ++ [op] } due (.coachOpApply die)) .coach i

def execKvapp (c : Ctl) (o : X3) (s : State) : Out := .next (sendCoach s o (.kvapp c o))
def execRetspan (c : Ctl) (o : X3) (s : State) : Out := .next (sendCoach s o (.retspan c o))
def execKvpin (c : Ctl) (o : X3) (s : State) : Out := .next (sendCoach s o (.kvpin c o))
def execKvunpin (c : Ctl) (o : X3) (s : State) : Out := .next (sendCoach s o (.kvunpin c o))
def execKvqryDesc (c : Ctl) (o : X3) (s : State) : Out := .next (sendCoach s o (.kvqryDesc c o))
def execKvqryPos (c : Ctl) (o : X3) (s : State) : Out := .next (sendCoach s o (.kvqryPos c o))
def execKvqryHdr (c : Ctl) (o : X3) (s : State) : Out := .next (sendCoach s o (.kvqryHdr c o))
def execKvqryCount (c : Ctl) (o : X3) (s : State) : Out := .next (sendCoach s o (.kvqryCount c o))

/-! Walks (R271, R290). -/

def Copy.who (q : Copy) : Who := ⟨q.part, q.asid, q.die⟩
/-- The conditions under which the walk starts its next carriage. -/
def walkMay (s : State) (q : Copy) : Bool :=
  match q.walk with
  | none => false
  | some w =>
    let low := ((List.range w.j).find? (fun j => !w.used.contains j)).getD w.j
    q.goes && !w.ended && !w.parked && decide (w.j ≤ low + 4) && (bufAt s q.tbCluster (q.carBuf w.j)).landed == 0

def setWalk (s : State) (id : Nat) (f : Walk → Walk) : State := modCopy s id (fun q => { q with walk := q.walk.map f })

/-- Ends a walk; `bad` where no report is written. -/
def endWalk (s : State) (q : Copy) (bad : Bool) : State :=
  let s := setWalk s q.id (fun w => { w with ended := true })
  let s := modCopy s q.id (fun c => { c with lost := c.lost || bad, units := (c.walk.map (fun w => w.j)).getD 0 })
  match findCopy s q.id with
  | some q => if q.over then endCopy (writeReport s q) q else s
  | none => s

/-- The chunks of a carriage: the header, then the selected heads of K and of V, at 64·HD·z bytes a head (R290). They show the carriage
as it stands now (R123): the header, and the bytes of slots that a later KVAPP may write, are kept with the chunk. -/
def carriageChunks (s : State) (q : Copy) (h : Shape) (j va ntok : Nat) (hdr : List Byte) : List Chunk :=
  let sel := q.dw 4
  let layer := fieldOf sel 15 0
  let first := fieldOf sel 31 16
  let c := fieldOf sel 47 32
  let parts := fieldOf sel 49 48
  let full := 64 * h.hd * h.z
  let kb := ceilDiv full 512
  let filled := ntok * h.hd * h.z
  let mk : Nat → Option Nat → Nat → List Byte → Chunk := fun b src len data => { Chunk.new b with car := j, src, len, data }
  let part := fun (p off i b : Nat) =>
    let a := (va + off + h.kOff layer (first + i) 0 + 512 * b) % 2 ^ 64
    let len := min 512 (full - 512 * b)
    let keep := min len (filled - 512 * b)
    let data := match vaRead s q.part q.asid q.die ((a + keep) % 2 ^ 64) (len - keep) with
      | .ok (_, bs) => bs
      | .error _ => []
    mk (1 + (p * c + i) * kb + b) (if b * 512 < filled then some a else none) len (if b * 512 < filled then data else [])
  let body := fun (bit p off : Nat) =>
    if parts / bit % 2 = 0 then []
    else (List.range c).flatMap (fun i => (List.range kb).map (part p off i))
  mk 0 none 512 (hdr ++ List.replicate 448 0) :: body 1 0 0 ++ body 2 (if parts = 3 then 1 else 0) h.voff

/-- Code 0x15: the offset of the selection or buffer field that does not suit the carriage. DESIGN CHOICE (log 71): a selection of neither K
nor V, whose fate no rule names, is one of them. -/
def carriageBad (s : State) (q : Copy) (h : Shape) (j : Nat) : Option Nat :=
  let sel := q.dw 4
  let c := fieldOf sel 47 32
  let parts := fieldOf sel 49 48
  let p := if parts = 3 then 1 else 0
  let kb := ceilDiv (64 * h.hd * h.z) 512
  if !h.ok || parts == 0 || decide (h.lc ≤ fieldOf sel 15 0) || decide (h.hc < fieldOf sel 31 16 + c) then some 0x20
  else if (bufAt s q.tbCluster (q.carBuf j)).chunks < 1 + (1 + p) * c * kb then some 0x18
  else none

/-- The walk reads the header of its next carriage and starts its chunks. -/
def startCarriage (s : State) (q : Copy) (w : Walk) : State :=
  let limit := q.dw 5 % 2 ^ 32
  if w.va = 0 ∨ (limit ≠ 0 ∧ limit ≤ w.j) then endWalk s q false
  else match readFault s q 1 0 w.va 64 with
  | some e =>
    let s := reportFault s q e.x.code e.va e.x.synd
    if e.x.code ≤ 3 then
      schedule (setWalk s q.id (fun w => { w with parked := true })) (s.cyc + 2 ^ 20) (.kvwalkCarriageStart q.chan)
    else endWalk s q true
  | none =>
    let (s, hdr) := spaceRead s q 1 0 w.va 64
    let h := carShape s q.who w.va
    match carriageBad s q h w.j with
    | some off => endWalk (copyRecord s q 2 0x10 0x15 (0x20000000 + 64 * q.tidx) (BitVec.ofNat 64 off)) q true
    | none =>
      let id := vgetField s q.who (w.va + 8) 31 16
      let more := carriageChunks s q h w.j w.va (carNtok s q.who w.va) hdr
      let s := modCopy s q.id (fun c => { c with chunks := c.chunks ++ more })
      let s := setWalk s q.id (fun w =>
        { w with j := w.j + 1, va := leNat (hdr.take 8), coaches := id :: w.coaches, parked := false })
      let s := planBte s q.bte (copyLock s q)
      if leNat (hdr.take 8) = 0 ∨ limit = w.j + 1 then
        match findCopy s q.id with
        | some q => endWalk s q false
        | none => s
      else s

/-- KVWALK_CARRIAGE_START; a parked header read is tried again. -/
def execKvwalkCarriageStart (chan : Nat) (s : State) : Out :=
  .next (match runningOn s chan with
    | none => s
    | some q =>
      let q : Copy := { q with walk := q.walk.map (fun (w : Walk) => { w with parked := false }) }
      match q.walk with
      | none => s
      | some w => if walkMay s q then startCarriage s q w else s)

end Sys2Proof.Machine
end

