-- ==== Sys2Proof/Machine/Binning.lean ====
section
/-! DEFINITION. Binning, carts and replay (R274 to R279, R413, R414), and the start of a copy of any kind (R258, R411). -/
namespace Sys2Proof.Machine

/-! Bin sets and carts. -/

/-- The fields of a well-formed bin set: CARTS, NREG, NH, SHIFT, CAP, IBASE (R274, R413 code 0x14). -/
def binFields (d : List Nat) : Option (List Nat) :=
  let w := fun k => d.getD k 0
  let nh := fieldOf (w 1) 31 16
  if w 0 % 65536 ≠ 0 ∨ fieldOf (w 1) 15 6 ≠ 0 ∨ w 2 / 2 ^ 32 ≠ 0 ∨ w 2 % 2 ^ 32 = 0 ∨ nh = 0 ∨ (d.drop 4).any (fun v => v != 0) then none
  else some [w 0, w 1 / 2 ^ 32, nh, w 1 % 64, w 2 % 2 ^ 32, w 3]

/-- Reads a bin set; none where it is malformed, replicated or unreadable. -/
def readBinSet (s : State) (w : Who) (va : Nat) : Option (List Nat) :=
  if (spansBad s w [readBlock va]).isSome then none
  else binFields ((List.range 8).map (fun k => vget s w (va + 8 * k)))

/-- Bytes from one cart to the next: 64 + 16·CAP, rounded up to 512. -/
def cartStride (cap : Nat) : Nat := ceilDiv (64 + 16 * cap) 512 * 512

/-- VA of cart (g, h). -/
def cartVa (f : List Nat) (g h : Nat) : Nat := (f.getD 0 0 + (g * f.getD 2 0 + h) * cartStride (f.getD 4 0)) % 2 ^ 64

def hartWho (s : State) (h : Hart) : Who := let g := gangOf s h.gang; ⟨g.part, g.launch.asid, dieOfCore h.core⟩

/-- A refused pair's record (R413). -/
def binRecord (s : State) (p : BinPair) (code : Nat) : State :=
  addRecord s { (Record.blank s).about (gangOf s p.gang) with
    agent := 3, pkg := p.die, cls := 0x11, code := BitVec.ofNat 8 code, hart := p.hart, pc := p.pc
    addr := BitVec.ofNat 64 p.set, synd := BitVec.ofNat 64 p.idx }

/-- The set as the hart reads it until its next BINFLUSH (R276), and the sets with it. -/
def binSetOf (s : State) (h : Hart) (va : Nat) : BinSet :=
  match h.binSets.find? (fun b => b.va == va) with
  | some b => b
  | none => ⟨va, readBinSet s (hartWho s h) va, [], []⟩

def putBinSet (s : State) (g k : Nat) (b : BinSet) : State :=
  modHarts s (isHart g k) (fun h => { h with binSets := b :: h.binSets.filter (fun x => x.va != b.va) })

/-- What becomes of a pair: dropped with a code, or the VA of its place in its cart, and the cart. -/
def binPlace (s : State) (h : Hart) (b : BinSet) (p : BinPair) : Except Nat (Nat × Nat) :=
  match b.fields with
  | none => .error 0x14
  | some f =>
    let ib := f.getD 5 0
    let g := (p.idx - ib) / 2 ^ f.getD 3 0
    let cart := cartVa f g p.hart
    let n := vgetField s (hartWho s h) cart 31 0 + sget 0 b.appended cart
    if p.idx < ib ∨ f.getD 1 0 ≤ g then .error 0x10
    else if f.getD 2 0 ≤ p.hart then .error 0x11
    else if f.getD 4 0 ≤ n then .error 0x12
    else .ok ((cart + 64 + 16 * n) % 2 ^ 64, cart)

/-- The failure of an access to a cart: 1 parks it, 2 refuses it. -/
def cartFault (s : State) (w : Who) (a : Span) : Nat :=
  match spanFault s w a with
  | some e => if e.synd ≤ 3 then 1 else 2
  | none => if (spanReplicated s w a).isSome then 2 else 0

/-- Writes index and value (R275). -/
def storePairAt (s : State) (w : Who) (va : Nat) (p : BinPair) : State :=
  vputBytes s w va (toBytes 8 p.idx ++ toBytes 8 p.value.toNat)

/-- Takes a pair from the engine. -/
def samePair (a b : BinPair) : Bool := a == b
def dropPair (s : State) (p : BinPair) : State := { s with bins := s.bins.erase p }

/-- The engine writes the pair `p`, drops it with its record, or parks it (R413, R384). -/
def appendPair (s : State) (p : BinPair) : State :=
  match findHart s p.gang p.hart with
  | none => dropPair s p
  | some h =>
    let w := hartWho s h
    let b := binSetOf s h p.set
    let s := putBinSet s p.gang p.hart b
    match binPlace s h b p with
    | .error code => binRecord (dropPair s p) p code
    | .ok (va, cart) =>
      match cartFault s w (header cart), cartFault s w ⟨va, 16, false, true⟩ with
      | 2, _ | _, 2 =>
        let s := if b.bad.contains cart then s else binRecord (putBinSet s p.gang p.hart { b with bad := cart :: b.bad }) p 0x13
        dropPair s p
      | 0, 0 =>
        let s := putBinSet s p.gang p.hart { b with appended := sset 0 b.appended cart (sget 0 b.appended cart + 1) }
        storePairAt (dropPair s p) w va p
      | _, _ =>
        let t := s.cyc + 2 ^ 20
        schedule { s with bins := s.bins.map (fun x => if samePair x p then { x with slot := some cart, due := t } else x) }
          t (.binPairWrite p.die)

/-- A pair follows a parked one of its hart to the same cart. -/
def pairWaits (s : State) (p : BinPair) : Bool :=
  let ahead := (s.bins.takeWhile (fun x => !samePair x p)).filter (fun x => x.gang == p.gang && x.hart == p.hart && x.slot.isSome)
  !ahead.isEmpty && (match findHart s p.gang p.hart with
    | some h => match binPlace s h (binSetOf s h p.set) p with
      | .ok (_, cart) => ahead.any (fun x => x.slot == some cart)
      | .error _ => false
    | none => false)

/-- The oldest pair that the engine of a die may take. -/
def duePair (s : State) (die : Nat) : Option BinPair :=
  s.bins.find? (fun p => p.die == die && decide (p.due ≤ s.cyc) && !pairWaits s p)

/-- BIN_PAIR_WRITE: the engine of a die takes its oldest pair, at most one in a cy (R276). -/
def execBinPairWrite (die : Nat) (s : State) : Out :=
  .next (match duePair s die with
    | none => s
    | some p =>
      let free := sget 0 s.binFree die
      if s.cyc < free then schedule s free (.binPairWrite die)
      else
        let s := appendPair { s with binFree := sset 0 s.binFree die (s.cyc + 1) } p
        if (duePair s die).isSome then schedule s (s.cyc + 1) (.binPairWrite die) else s)

def pending (s : State) (g k : Nat) : List BinPair := s.bins.filter (fun p => p.gang == g && p.hart == k)

def execBinput (c : Ctl) (o : X3) (s : State) : Out :=
  if 64 ≤ (pending s s.h.gang s.h.idx).length then .next (holdFor s .binput (.binput c o))
  else
    let die := dieOfCore s.h.core
    let p : BinPair := ⟨die, s.h.gang, s.h.idx, s.h.pc, (rx s o.xd).toNat, (rx s o.xa).toNat, rx s o.xb, none, s.h.issueCy⟩
    .next (retire c (schedule { s with bins := s.bins ++ [p] } s.h.issueCy (.binPairWrite die)))

/-! BINFLUSH (R277). -/

/-- The carts that received pairs since the last flush, with their sets. -/
def touchedCarts (h : Hart) : List (Nat × Nat) := h.binSets.flatMap (fun b => b.appended)

/-- Every pair of the hart is written and no header write would park. -/
def drained_ (s : State) (h : Hart) : Bool :=
  (pending s h.gang h.idx).isEmpty && (touchedCarts h).all (fun e => cartFault s (hartWho s h) (header e.1) != 1)

/-- Advances the COUNT of every cart; the number of pairs flushed. -/
def flushCarts (s : State) (h : Hart) : State × Nat :=
  let w := hartWho s h
  let r := (touchedCarts h).foldl (fun (acc : State × Nat) e =>
    if cartFault acc.1 w (header e.1) = 0 then
      (vputField acc.1 w e.1 31 0 (vgetField acc.1 w e.1 31 0 + e.2), acc.2 + e.2)
    else
      (binRecord acc.1 ⟨w.die, h.gang, h.idx, h.pc, e.1, 0, 0, none, 0⟩ 0x13, acc.2)) (s, 0)
  (modHarts r.1 (isHart h.gang h.idx) (fun h => { h with binSets := [] }), r.2)

/-- The flush of the hart in hand, with its count to X`xd`. -/
def binflush (c : Ctl) (xd : BitVec 5) (s : State) : State :=
  let (s, n) := flushCarts s s.h
  retire c (setX (modH s (fun h => { h with wait := none })) xd (BitVec.ofNat 64 n))

def execBinflush (c : Ctl) (o : X3) (s : State) : Out :=
  .next (if drained_ s s.h then binflush c o.xd s else holdFor s .binflush (.binflush c o))

/-- BINFLUSH_COMPLETE. -/
def execBinflushComplete (gang hart : Nat) (s : State) : Out :=
  .next (withHart s gang hart (fun s =>
    match s.h.wait with
    | some w => match w.instr with
      | .binflush c o => if drained_ s s.h then binflush c o.xd s else s
      | _ => s
    | none => s))

/-! Exact-sum cells (R305, R306). -/

/-- The cell after FP32 pattern `x` is added: SUM in bits 319 to 0, then NAN, PINF, NINF. -/
def cellAdd (cell x : Nat) : Nat :=
  let sum := cell % 2 ^ 320
  let rest := cell / 2 ^ 320
  let set := fun b => if rest.testBit b then cell else cell + 2 ^ (320 + b)
  match decodeFloat 3 (x % 2 ^ 32) with
  | .nan _ => set 0
  | .inf neg => set (if neg then 2 else 1)
  | .fin neg m e _ =>
    let v := scaled neg m (e + 149) 0
    ((((sum : Int) + v) % 2 ^ 320).toNat) + rest * 2 ^ 320

/-! REPLAY (R278, R279, R414). -/

/-- One application to an element of the die scratchpad. -/
def replayApply (s : State) (q : Copy) (a : Nat) (v : Nat) : State :=
  let op := fieldOf (q.dw 3) 34 32
  let n := if op = 1 then 48 else if bitOf (q.dw 3) 35 then 8 else 4
  match placeOf s q.part q.cluster a with
  | .mem g =>
    if g < dieBase 0 then copyViolation s q 1 a
    else if !s.poisonWord.isEmpty && (List.range ((g % 8 + n + 7) / 8)).any (fun i => sget false s.poisonWord (g / 8 + i)) then s
    else
      let old := leNat (bytesAt s.mem g n)
      let w := 8 * n
      let x := v % 2 ^ w
      let less := fun (i j : Nat) => decide (signedOf w i < signedOf w j)
      let new := match op with
        | 0 => (old + x) % 2 ^ w
        | 1 => cellAdd old v
        | 2 => if less x old then x else old
        | 3 => if less old x then x else old
        | _ => old ||| x
      putScratch s g (toBytes n new)
  | .bad k => copyViolation s q k a
  | _ => copyViolation s q 1 a

/-- The record of a replay (R414), once for each key. -/
def replayRecord (s : State) (q : Copy) (code key va : Nat) : State :=
  if (findCopy s q.id).any (fun c => c.reported.contains (0x1100 + code, key)) then s
  else copyRecord (modCopy s q.id (fun c => { c with reported := (0x1100 + code, key) :: c.reported })) q 2 0x11 code va 0

/-- The pairs of a replay in order, as (cart, pair number). `heads` lists HEAD and COUNT of every cart. -/
def replayPairs (f heads : List Nat) (g : Nat) : List (Nat × Nat) :=
  (List.range (heads.length / 2)).flatMap (fun h =>
    let hd := heads.getD (2 * h) 0
    (List.range (heads.getD (2 * h + 1) 0 - hd)).map (fun i => (cartVa f g h, hd + i)))

/-- Applies one pair; true when its read is parked. -/
def replayPair (f : List Nat) (q : Copy) (acc : State × Bool) (p : Nat × Nat) : State × Bool :=
  if acc.2 then acc
  else
    let s := acc.1
    let va := (p.1 + 64 + 16 * p.2) % 2 ^ 64
    let step := fun s => modCopy s q.id (fun c => { c with pos := c.pos + 1 })
    match readFault s q 1 0 va 16 with
    | some e =>
      if e.x.code ≤ 3 then
        (schedule (reportFault s q e.x.code e.va e.x.synd) (s.cyc + 2 ^ 20) (.chunkRetry q.chan 0), true)
      else (step (replayRecord s q 0x13 (va / 512) p.1), false)
    | none =>
      let i := vget s q.who va
      let v := vget s q.who (va + 8)
      let ib := f.getD 5 0
      let g := replayRegion q
      if i < ib ∨ (i - ib) / 2 ^ f.getD 3 0 ≠ g then (step (replayRecord s q 0x16 0 p.1), false)
      else
        let n := if fieldOf (q.dw 3) 34 32 = 1 then 48 else if bitOf (q.dw 3) 35 then 8 else 4
        let s := replayApply s q ((q.dst + ((i - ib) - g * 2 ^ f.getD 3 0) * n) % 2 ^ 64) v
        (modCopy (step s) q.id (fun c => { c with units := c.units + 1 }), false)

/-- CLR: every HEAD takes the COUNT that was read (R279). -/
def replayClear (f : List Nat) (q : Copy) (s : State) : State :=
  if bitOf (q.dw 3) 36 then
    (List.range (q.indices.length / 2)).foldl (fun s h =>
      let a := cartVa f (replayRegion q) h + 8
      noteImage (vputField s q.who a 31 0 (q.indices.getD (2 * h + 1) 0)) q a 8) s
  else s

/-- Goes on with a replay from its place. -/
def continueReplay (s : State) (q : Copy) : State :=
  match readBinSet s q.who q.src with
  | none => endCopy (replayRecord s q 0x14 0 q.src) q
  | some f =>
    let r := ((replayPairs f q.indices (replayRegion q)).drop q.pos).foldl (replayPair f q) (s, false)
    if r.2 then r.1
    else match findCopy r.1 q.id with
      | some q => endCopy (writeReport (replayClear f q r.1) q) q
      | none => r.1

/-- The check of every cart header (R414): HEAD and COUNT of each, or the code and the cart's VA. -/
def replayHeads (s : State) (q : Copy) (f : List Nat) : Except (Nat × Nat) (List Nat) :=
  (List.range (f.getD 2 0)).foldl (fun acc h =>
    match acc with
    | .error e => .error e
    | .ok l =>
      let va := cartVa f (replayRegion q) h
      if (spansBad s q.who [readBlock va]).isSome then .error (0x13, va)
      else
        let n := vgetField s q.who va 31 0
        let hd := vgetField s q.who (va + 8) 31 0
        if n < hd ∨ f.getD 4 0 < n then .error (0x15, va) else .ok (l ++ [hd, n])) (.ok [])

def beginReplay (s : State) (q : Copy) : State :=
  let q := { q with started := true }
  let s := modCopy s q.id (fun _ => q)
  match spanFault s q.who (readBlock q.src) with
  | some _ => endCopy (replayRecord s q 0x13 0 q.src) q
  | none =>
    match readBinSet s q.who q.src with
    | none => endCopy (replayRecord s q 0x14 0 q.src) q
    | some f => match replayHeads s q f with
      | .error (code, va) => endCopy (replayRecord s q code 0 va) q
      | .ok heads =>
        let q := { q with indices := heads }
        continueReplay (modCopy s q.id (fun _ => q)) q

/-! COPY_START and CHUNK_RETRY. -/

/-- A copy that has not started goes into the buffer or the register on which a held hart waits: its channel owes the landing, and
the copy starts and issues it during the hold (R372 step 2). -/
def copyNeeded (q : Copy) (h : Hart) : Bool :=
  match h.wait with
  | some x => match x.instr with
    | .twait ct o =>
      let sel := selOf ct o
      if sel.buf then q.tben && q.tbCluster == clusterOfCore h.core && q.tb == sel.n
      else q.kind == 3 && q.gang == h.gang && q.hart == h.idx && q.vregNo == sel.vd
    | _ => false
  | none => false

/-- A gang whose copies may start: running or draining, not quiesced, and not held by a timing trap that does not need the copy. -/
def copiesMayStart (s : State) (g : Gang) (q : Copy) : Bool :=
  (g.st == .running || g.st == .draining) && !g.quiesced && !g.ending &&
    (g.hold.all (fun o => decide (s.cyc ≤ o.c0)) || (gangHarts s g.id).any (fun h => h.run == .held && copyNeeded q h))

/-- A copy that a pre-emption saved with parked chunks: some of it is done. -/
def Copy.partly (q : Copy) : Bool := !q.chunks.isEmpty || q.walk.isSome || !q.indices.isEmpty

/-- Reissues what is left of such a copy (R387). -/
def reissue (s : State) (q : Copy) : State :=
  let q := { q with started := true, walk := q.walk.map (fun w => { w with parked := false }) }
  let s := modCopy s q.id (fun _ => q)
  if q.kind = 8 then continueReplay s q else planBte s q.bte (copyLock s q)

/-- COPY_START: the first copy of the channel, at its start cy or later (R120, R258); a bad template ends it (R411). -/
def execCopyStart (chan : Nat) (s : State) : Out :=
  .next (match s.copies.find? (fun q => q.chan == chan) with
    | none => s
    | some q =>
      let g := gangOf s q.gang
      if q.started || !copiesMayStart s g q || decide (s.cyc < startCy g.tstart q) || replayBusy s q || startPending s q then s
      else if q.partly then reissue s q
      else
        let r := match findHart s q.gang q.hart with
          | some h => vregAt h q.vregNo
          | none => VReg.undeclared
        match templateFault q r with
        | some (code, off) =>
          endCopy (copyRecord s q 2 0x10 code (0x20000000 + 64 * q.tidx) (BitVec.ofNat 64 off)) q
        | none => if q.kind = 7 then beginWalk s q else if q.kind = 8 then beginReplay s q else beginCopy s q)

/-- CHUNK_RETRY: a parked chunk, or the parked pair of a replay, is tried again (R384, R414). -/
def execChunkRetry (chan k : Nat) (s : State) : Out :=
  .next (match runningOn s chan with
    | some q => if q.kind = 8 then continueReplay s q else retryChunk s q k
    | none => s)

/-- APERTURE_QUEUE_ACCEPT: the held aperture store of a hart is made once there is room (R258, R87). -/
def execApertureQueueAccept (gang hart : Nat) (s : State) : Out :=
  .next (withHart s gang hart (fun s =>
    match s.h.wait with
    | some w =>
      let s' := modH s (fun h => { h with wait := none })
      let go := fun c (o : XI) =>
        match homePlace s (effAddr s o.xa c.imm 16) with
        | .aperture bte ch _ =>
          let q := captureCopy s bte ch (rx s o.xd) (rx s (o.xd + 1))
          if apertureFull s q then s else apertureStore c s' q
        | _ => s
      match w.instr with
      | .stq c o | .btx c o => go c o
      | _ => s
    | none => s))

end Sys2Proof.Machine
end

