-- ==== Sys2Proof/Machine/Sparse.lean ====
section
/-! DEFINITION. Sparse registers and the merge unit (R293 to R301, R380, R400, R406, R417). -/
namespace Sys2Proof.Machine

/-! The sparse area. -/

/-- Local address of the length word of S`m`, and of its pair `k` (R293). -/
def lenAddr (s : State) (m : Nat) : Nat := (myGang s).launch.sbase + 8 * m
def scap (s : State) : Nat := (myGang s).launch.scap
def pairAddr (s : State) (m k : Nat) : Nat := (myGang s).launch.sbase + 512 + 8 * m * scap s + 8 * k

/-- The 8-byte word of the home cluster's scratchpad at a local address, as a scalar access reads it (R295). -/
def homeWord (s : State) (a : Nat) : Word := stripWord s false (clusterBase (homeCluster s) + a)
def homePoisoned (s : State) (a : Nat) : Bool := sget false s.poisonWord ((clusterBase (homeCluster s) + a) / 8)
def putHome (s : State) (a : Nat) (v : Word) (poison : Bool := false) : State :=
  stripStore s false (clusterBase (homeCluster s) + a) 0xffffffffffffffff v poison

/-- A pair: coordinate, value pattern. -/
structure SPair where
  crd : Nat
  val : Nat
  deriving DecidableEq, Repr

def SPair.ofWord (w : Word) : SPair := ⟨w.toNat % 2 ^ 32, w.toNat / 2 ^ 32⟩
def SPair.word (p : SPair) : Word := BitVec.ofNat 64 (p.val % 2 ^ 32 * 2 ^ 32 + p.crd % 2 ^ 32)

/-- A sparse register as read: its value type and its pairs. -/
structure SVec where
  vt : Nat
  pairs : List SPair
  deriving DecidableEq, Repr

def SVec.lenWord (v : SVec) : Word := BitVec.ofNat 64 (v.vt * 2 ^ 62 + v.pairs.length)

/-- What the check of a source comes to (R294, R417). -/
inductive SRead where
  | ok (v : SVec)
  | bad (a : Nat)
  | poisoned (a : Nat)

/-- The first word that is poisoned or whose coordinate does not ascend, of words at rising addresses 8 apart. -/
def firstBad (a : Nat) (last : Option Nat) : List (Word × Bool) → Option (Nat × Bool)
  | [] => none
  | (w, p) :: r =>
    let crd := w.toNat % 2 ^ 32
    if p then some (a, true)
    else if last.any (fun l => decide (crd ≤ l)) then some (a, false)
    else firstBad (a + 8) (some crd) r

/-- Reads and checks S`m`. -/
def readSparse (s : State) (m : Nat) : SRead :=
  let lw := (homeWord s (lenAddr s m)).toNat
  let len := lw % 2 ^ 15
  if homePoisoned s (lenAddr s m) then .poisoned (lenAddr s m)
  else if lw / 2 ^ 62 = 3 ∨ scap s < len then .bad (lenAddr s m)
  else
    let ws := (List.range len).map (fun k => (homeWord s (pairAddr s m k), homePoisoned s (pairAddr s m k)))
    match firstBad (pairAddr s m 0) none ws with
    | some (a, true) => .poisoned a
    | some (a, false) => .bad a
    | none => .ok ⟨lw / 2 ^ 62, ws.map (fun w => SPair.ofWord w.1)⟩

/-- The reads of the sources in the strip interval (R295). -/
def noteSources (s : State) (ms : List Nat) : State :=
  noteWords s (ms.flatMap (fun m =>
    let n := (homeWord s (lenAddr s m)).toNat % 2 ^ 15
    (lenAddr s m :: (List.range n).map (pairAddr s m)).map (fun a => clusterBase (homeCluster s) + a)))

/-- Value type of S`m` as its length word has it. -/
def vtOf (s : State) (m : Nat) : Nat := (homeWord s (lenAddr s m)).toNat / 2 ^ 62

/-- Writes pairs and the length word of S`m`. -/
def putPairs (s : State) (m k : Nat) : List (SPair × Bool) → State
  | [] => s
  | (p, bad) :: r => putPairs (putHome s (pairAddr s m k) p.word bad) m (k + 1) r

def writeSparse (s : State) (m : Nat) (v : SVec) (bad : Nat → Bool := fun _ => false) : State :=
  putHome (putPairs s m 0 (v.pairs.map (fun p => (p, bad p.crd)))) (lenAddr s m) v.lenWord

/-- R380 code 0x08: the first register number, in the order named, at or above SCOUNT. -/
def sparseNumbers (s : State) (ms : List Nat) : Option Trap :=
  firstSome ms (fun m => trapIf (decide ((myGang s).launch.scount ≤ m)) (Trap.here s 9 8 (BitVec.ofNat 64 m)))

/-- Reads the sources in order and hands them on; an ill-formed one traps, a poisoned one ends the gang. -/
def withSources (s : State) : List Nat → (List SVec → State) → State
  | [], k => k []
  | m :: r, k =>
    match readSparse s m with
    | .poisoned a => poisonEnd s (BitVec.ofNat 64 a)
    | .bad a => takeTrap s (Trap.here s 9 9 (BitVec.ofNat 64 a))
    | .ok v => withSources s r (fun vs => k (v :: vs))

/-- R380 code 0x0a, else the write, of `n` pairs read, and `k`. -/
def putResult (s : State) (m : Nat) (v : SVec) (n : Nat) (k : State → State) : State :=
  if scap s < v.pairs.length then takeTrap s (Trap.here s 9 0x0a (BitVec.ofNat 64 v.pairs.length))
  else k (writeSparse (setWork s n) m v)

/-! Value arithmetic (R295). -/

/-- FCSR.RM, SR as RNE (R295); RMO has no effect on value arithmetic (R132). -/
def sparseRm (s : State) : Nat :=
  let rm := s.h.csr.fcsr.toNat / 256 % 8
  if rm = 5 then 0 else rm

/-- One operation on two 32-bit patterns: `f` on integers modulo 2^32, `g` on floats. -/
def valOp (vt rm : Nat) (f : Nat → Nat → Nat) (g : FVal → FVal → FVal × FlagSet) (a b : Nat) : Nat × FlagSet :=
  if vt = 2 then
    let r := g (decodeFloat 3 a) (decodeFloat 3 b)
    let q := fitFloat 3 rm 0 r.1
    (q.1, r.2 ||| q.2)
  else (f a b % 2 ^ 32, 0)

/-- The integer that a value stands for. -/
def valInt (vt v : Nat) : Int := if vt = 0 then (BitVec.ofNat 32 v).toInt else (v % 2 ^ 32 : Nat)

def addVal (vt rm a b : Nat) : Nat × FlagSet := valOp vt rm (fun x y => x + y) (fun x y => x.add rm y) a b
def subVal (vt rm a b : Nat) : Nat × FlagSet := valOp vt rm (fun x y => x + 2 ^ 32 - y) (fun x y => x.add rm y.neg) a b
def mulVal (vt rm a b : Nat) : Nat × FlagSet := valOp vt rm (fun x y => x * y) (fun x y => x.mul y) a b
def maxVal (vt rm a b : Nat) : Nat × FlagSet :=
  valOp vt rm (fun x y => if valInt vt x < valInt vt y then y else x) (fun x y => (x.pick true y, 0)) a b
/-- −b where only B has the coordinate. -/
def negVal (vt rm b : Nat) : Nat × FlagSet := valOp vt rm (fun x _ => 2 ^ 32 - x) (fun x _ => (x.neg, 0)) b b

/-- Adds a result, where there is one, at the head. -/
def atHead (crd : Nat) (v : Option (Nat × FlagSet)) (rest : List (SPair × FlagSet)) : List (SPair × FlagSet) :=
  match v with
  | some v => (⟨crd, v.1⟩, v.2) :: rest
  | none => rest

/-- The coordinates and values of a merge, ascending: `both` where both have the coordinate, `left` and `right` where one has.
The fuel is the number of pairs. -/
def merge (both : Nat → Nat → Option (Nat × FlagSet)) (left right : Nat → Option (Nat × FlagSet)) :
    Nat → List SPair → List SPair → List (SPair × FlagSet)
  | 0, _, _ => []
  | _ + 1, [], [] => []
  | n + 1, [], b :: bs => atHead b.crd (right b.val) (merge both left right n [] bs)
  | n + 1, a :: as, [] => atHead a.crd (left a.val) (merge both left right n as [])
  | n + 1, a :: as, b :: bs =>
    if a.crd = b.crd then atHead a.crd (both a.val b.val) (merge both left right n as bs)
    else if a.crd < b.crd then atHead a.crd (left a.val) (merge both left right n as (b :: bs))
    else atHead b.crd (right b.val) (merge both left right n (a :: as) bs)

def flagsOr (l : List (SPair × FlagSet)) : FlagSet := l.foldl (fun f p => f ||| p.2) 0

/-- SADD, SSUB, SMUL, SMAX: checks in the order of R347, then the merge. -/
def mergeOp (c : Ctl) (o : S3) (s : State) (both : Nat → Nat → Nat → Nat → Option (Nat × FlagSet))
    (left : Nat → Option (Nat × FlagSet)) (right : Nat → Nat → Nat → Option (Nat × FlagSet)) : Out :=
  let a := o.sa.toNat
  let b := o.sb.toNat
  let s := noteSources s [a, b]
  match (trapIf (vtOf s a != vtOf s b) (Trap.here s 4 3 (descsWord c s))).orElse
      (fun _ => sparseNumbers s [a, b, o.sd.toNat]) with
  | some t => .next (takeTrap s t)
  | none => .next (withSources s [a, b] (fun vs =>
      let va := vs.getD 0 ⟨0, []⟩
      let vb := vs.getD 1 ⟨0, []⟩
      let rm := sparseRm s
      let r := merge (both va.vt rm) left (right va.vt rm) (va.pairs.length + vb.pairs.length) va.pairs vb.pairs
      putResult s o.sd.toNat ⟨va.vt, r.map Prod.fst⟩ (va.pairs.length + vb.pairs.length) (fun s => retire c (orFlags s (flagsOr r)))))

def execSadd (c : Ctl) (o : S3) (s : State) : Out :=
  mergeOp c o s (fun vt rm a b => some (addVal vt rm a b)) (fun a => some (a, 0)) (fun _ _ b => some (b, 0))
def execSsub (c : Ctl) (o : S3) (s : State) : Out :=
  mergeOp c o s (fun vt rm a b => some (subVal vt rm a b)) (fun a => some (a, 0)) (fun vt rm b => some (negVal vt rm b))
def execSmul (c : Ctl) (o : S3) (s : State) : Out :=
  mergeOp c o s (fun vt rm a b => some (mulVal vt rm a b)) (fun _ => none) (fun _ _ _ => none)
def execSmax (c : Ctl) (o : S3) (s : State) : Out :=
  mergeOp c o s (fun vt rm a b => some (maxVal vt rm a b)) (fun a => some (a, 0)) (fun _ _ b => some (b, 0))

/-- SSCALE: the SB field names X0 to X15 (R297). -/
def execSscale (c : Ctl) (o : S3) (s : State) : Out :=
  let x := (rx s (o.sb.setWidth 5)).toNat % 2 ^ 32
  let s := noteSources s [o.sa.toNat]
  match sparseNumbers s [o.sa.toNat, o.sd.toNat] with
  | some t => .next (takeTrap s t)
  | none => .next (withSources s [o.sa.toNat] (fun vs =>
      let v := vs.getD 0 ⟨0, []⟩
      let r := v.pairs.map (fun p => let q := mulVal v.vt (sparseRm s) p.val x; ((⟨p.crd, q.1⟩ : SPair), q.2))
      putResult s o.sd.toNat ⟨v.vt, r.map Prod.fst⟩ v.pairs.length (fun s => retire c (orFlags s (flagsOr r)))))

/-! Loads, stores, lengths (R298, R400). -/

/-- The 8-byte words of a local range as a scalar load reads them: one violation entry where a word has no storage. -/
def localWords (s : State) (ea n : Nat) : Except Trap (State × List (Word × Bool)) :=
  if n = 0 then .ok (s, [])
  else match tagCheck s (homeCluster s) ea (if ea < 0x1000000 then ea + 8 * n else 0) with
  | .error t => .error t
  | .ok s =>
    let ps := (List.range n).map (fun k => (ea + 8 * k, placeOf s (myGang s).part (homeCluster s) (ea + 8 * k)))
    let bad := ps.findSome? (fun p => match p.2 with | .bad k => some (p.1, k) | _ => none)
    let s' := match bad with | some (a, k) => violation s k a | none => s
    let s' := noteWords s' (ps.filterMap (fun p => match p.2 with | .mem g => some g | _ => none))
    .ok (s', ps.map (fun p => match p.2 with
      | .mem g => (stripWord s false g, sget false s.poisonWord (g / 8))
      | .template off => (sget 0 s.templates (homeCluster s * 2048 + off / 8), false)
      | .desc off => ((bufAt s (homeCluster s) (off / 256)).dword (off / 8 % 32), false)
      | _ => (0, false)))

/-- SLD: the pairs are checked as they arrive, and SD changes only when all pass; where one does not, no landed state changes (R381). -/
def execSld (c : Ctl) (o : SX) (s : State) : Out :=
  let ea := rx s o.xa
  let b := (rx s o.xb).toNat
  let n := b % 2 ^ 15
  let vt := b / 2 ^ 16 % 4
  if !aligned ea 8 then raise s 9 1 ea
  else match sparseNumbers s [o.sd.toNat] with
  | some t => .next (takeTrap s t)
  | none =>
    if vt = 3 then raise s 9 9 (BitVec.ofNat 64 (lenAddr s o.sd.toNat))
    else if scap s < n then raise s 9 0x0a (BitVec.ofNat 64 n)
    else match localWords s ea.toNat n with
    | .error t => .next (takeTrap s t)
    | .ok (t, ws) => .next (match firstBad ea.toNat none ws with
      | some (a, true) => poisonEnd t (BitVec.ofNat 64 a)
      | some (a, false) => takeTrap { t with bufs := s.bufs } (Trap.here s 9 9 (BitVec.ofNat 64 a))
      | none => retire c (writeSparse t o.sd.toNat ⟨vt, ws.map (fun w => SPair.ofWord w.1)⟩))

/-- Stores words at a local range as scalar stores do; one violation entry where a word has no storage. -/
def storeWords (s : State) (ea : Nat) (ws : List Word) : State :=
  ((List.range ws.length).foldl (fun (acc : State × Bool) k =>
    let a := ea + 8 * k
    match placeOf acc.1 (myGang acc.1).part (homeCluster acc.1) a with
    | .bad kind => (if acc.2 then acc.1 else violation acc.1 kind a, true)
    | _ => (scalarWrite acc.1 (BitVec.ofNat 64 a) [ws.getD k 0], acc.2)) (s, false)).1

/-- SST. -/
def execSst (c : Ctl) (o : SX) (s : State) : Out :=
  let ea := rx s o.xa
  let m := o.sd.toNat
  let s := noteSources s [m]
  if !aligned ea 8 then raise s 9 1 ea
  else match sparseNumbers s [m] with
  | some t => .next (takeTrap s t)
  | none => .next (withSources s [m] (fun vs =>
      let w := homeWord s (lenAddr s m)
      retire c (setX (storeWords (setWork s (w.toNat % 2 ^ 15)) ea.toNat ((vs.getD 0 ⟨0, []⟩).pairs.map SPair.word)) o.xb w)))

/-- SLEN checks its source as every sparse instruction does (R294) and delivers the length word. -/
def execSlen (c : Ctl) (o : SX) (s : State) : Out :=
  let m := o.sd.toNat
  let s := noteSources s [m]
  match sparseNumbers s [m] with
  | some t => .next (takeTrap s t)
  | none => .next (withSources s [m] (fun _ => retire c (setX s o.xb (homeWord s (lenAddr s m)))))

/-! SDOT (R299). -/

/-- The value pairs of the intersection. -/
def matching (a b : List SPair) : List (Nat × Nat) :=
  a.filterMap (fun p => (b.find? (fun q => q.crd == p.crd)).map (fun q => (p.val, q.val)))

/-- The exact sum of the products by the special rules of R307, as FP64. -/
def dotFloat (ps : List (Nat × Nat)) : Nat × FlagSet :=
  let xs := ps.map (fun p => (decodeFloat 3 p.1).mul (decodeFloat 3 p.2))
  let nan := xs.any (fun x => x.1.isNan)
  let pinf := xs.any (fun x => x.1 == .inf false)
  let ninf := xs.any (fun x => x.1 == .inf true)
  if nan || (pinf && ninf) then (canonNan 2, fNv)
  else if pinf || ninf then fitFloat 2 0 0 (.inf ninf)
  else
    let sum := xs.foldl (fun t x => match x.1 with | .fin n m e _ => t + scaled n m (e + 298) 0 | _ => t) (0 : Int)
    fitFloat 2 0 0 (.fin (decide (sum < 0)) sum.natAbs (-298) false)

def execSdot (c : Ctl) (o : SX) (s : State) : Out :=
  let a := o.sd.toNat
  let b := o.xa.toNat % 16
  let s := noteSources s [a, b]
  match (trapIf (vtOf s a != vtOf s b) (Trap.here s 4 3 (descsWord c s))).orElse (fun _ => sparseNumbers s [a, b]) with
  | some t => .next (takeTrap s t)
  | none => .next (withSources s [a, b] (fun vs =>
      let va := vs.getD 0 ⟨0, []⟩
      let ps := matching va.pairs (vs.getD 1 ⟨0, []⟩).pairs
      let s := setWork s (va.pairs.length + (vs.getD 1 ⟨0, []⟩).pairs.length)
      if va.vt = 2 then
        let r := dotFloat ps
        retire c (orFlags (setX s o.xb (BitVec.ofNat 64 r.1)) r.2)
      else
        retire c (setX s o.xb (BitVec.ofInt 64 ((ps.map (fun p => valInt va.vt p.1 * valInt va.vt p.2)).sum)))))

/-! SXPAND and SPACK (R300). -/

/-- fit() of a float into `w` integer bits: rounded, then wrapped (R142). The spec states no result for a NaN or an infinity: it is the
free pattern `free`, and NV is set (DESIGN CHOICE, log 70). -/
def fitInt (w rm z free : Nat) (v : FVal) : Nat × FlagSet :=
  match v with
  | .fin neg m e t => let r := roundInt rm z neg m e t; (wrap w r.1, if r.2 then fNx else 0)
  | _ => (free % 2 ^ w, fNv)

/-- The free pattern of element `e` where fit() has no stated result (log 70). -/
def freeFit (s : State) (e : Nat) : Nat := (Config.freeBits s.free (2 ^ 118 + e)).toNat

/-- A value of type VT fitted to a descriptor: integers wrap, floats round once (R57, R142, R211). -/
def fitTo (D : Desc) (rm z free vt v : Nat) : Nat × FlagSet :=
  if intDesc D then
    if vt = 2 then fitInt D.w rm z free (decodeFloat 3 v) else (wrap D.w (valInt vt v), 0)
  else fitFloat D.fmt rm z (if vt = 2 then decodeFloat 3 v else FVal.ofInt (valInt vt v))

/-- An element's pattern under DESCA fitted to a value type. -/
def fitFrom (A : Desc) (rm z free vt p : Nat) : Nat × FlagSet :=
  if intDesc A then
    if vt = 2 then fitFloat 3 rm z (FVal.ofInt (intVal A p)) else (wrap 32 (intVal A p), 0)
  else if vt = 2 then fitFloat 3 rm z (decodeFloat A.fmt p)
  else fitInt 32 rm z free (decodeFloat A.fmt p)

def sparseDesc (d : Desc) : Bool := decide (d.fmt ≤ 9)

/-- Some fit of the instruction rounds, so that SR draws (R70). -/
def fitRounds (d : Desc) (vt : Nat) : Bool := !(intDesc d && vt != 2)

def execSxpand (c : Ctl) (o : SV) (s : State) : Out :=
  let D := descOf c s .d
  let m := o.sd.toNat
  vecFrame c s [.d] (sparseDesc D) [dstNamed c o.v D.w] none (sparseNumbers s [m]) (fun s =>
    let s := noteSources s [m]
    withSources s [m] (fun vs =>
      let v := vs.getD 0 ⟨0, []⟩
      let rm := rmOf c s
      let items := floatItems c s
        (fun e => match v.pairs.find? (fun p => p.crd == e) with
          | some p => fitTo D rm (drawZ s e) (freeFit s e) v.vt p.val
          | none => (0, 0))
        (fun _ => false)
      let hit := (actives c s).filter (fun e => v.pairs.any (fun p => p.crd == e))
      let s' := orFlags (writeElems s o.v.toNat D.w D.sgn (items.map FItem.item)) (flagsOf items)
      retire c (setWork (if fitRounds D v.vt then drawn rm hit s' else s') v.pairs.length)))

def execSpack (c : Ctl) (o : SV) (s : State) : Out :=
  let A := descOf c s .a
  let m := o.sd.toNat
  vecFrame c s [.a] (sparseDesc A) [srcNamed o.v A.w] none (sparseNumbers s [m]) (fun s =>
    let s := noteSources s [m]
    withSources s [m] (fun vs =>
      let vt := (vs.getD 0 ⟨0, []⟩).vt
      let rm := rmOf c s
      let es := (actives c s).filter (fun e => elemBits s o.v.toNat A.w e != 0)
      let r := es.map (fun e =>
        let q := fitFrom A rm (drawZ s e) (freeFit s e) vt (elemBits s o.v.toNat A.w e)
        ((⟨e, q.1⟩ : SPair), q.2))
      let bad := fun e => elemPoisoned s o.v.toNat A.w e || predPoisoned s c.pred.toNat e
      if scap s < r.length then takeTrap s (Trap.here s 9 0x0a (BitVec.ofNat 64 r.length))
      else
        let s' := orFlags (writeSparse s m ⟨vt, r.map Prod.fst⟩ bad) (flagsOr (r.filter (fun p => !bad p.1.crd)))
        retire c (setWork (if fitRounds A vt then drawn rm es s' else s') r.length)))

/-! SHACC (R301, R406, R407). -/

/-- R301's hash of a coordinate. -/
def hashSlot (lcap crd : Nat) : Nat := crd * 0x9e3779b9 % 2 ^ 32 / 2 ^ (32 - lcap)

/-- How the probes of one key end. -/
inductive Probe where
  | add (off : Nat) (w : Word)
  | new (off : Nat)
  | full
  | poisoned (off : Nat)

/-- The word of a table at byte offset `off`, and whether it is poisoned: each probe is an atomic at its own local address (R301),
which reads 0 where a table that is not in one scratchpad has no storage (R302; log 70). -/
def slotWord (s : State) (ea : Word) (off : Nat) : Word × Bool :=
  match homePlace s (ea + BitVec.ofNat 64 off) with
  | .mem g => (valueAt s g (atomPlace s g), sget false s.poisonWord (g / 8))
  | _ => (0, false)

/-- The write of the atomic whose read `slotWord` gives: the two stand together (R303). -/
def putSlot (s : State) (ea : Word) (off : Nat) (v : Word) : State :=
  match homePlace s (ea + BitVec.ofNat 64 off) with
  | .mem g => storeAt s false true g (atomPlace s g) 0xffffffffffffffff v false
  | .bad k => violation s k (ea.toNat + off)
  | _ => violation s 1 (ea.toNat + off)

/-- Probes `n` slots from `slot` on. -/
def probe (s : State) (ea : Word) (lcap crd : Nat) : Nat → Nat → Probe
  | 0, _ => .full
  | n + 1, slot =>
    let off := 64 + 8 * (slot % 2 ^ lcap)
    let w := slotWord s ea off
    let key := w.1.toNat % 2 ^ 32
    if w.2 then .poisoned off
    else if key = crd then .add off w.1
    else if key = 0xffffffff then .new off
    else probe s ea lcap crd n (slot + 1)

/-- Notes the probes that ended at byte offset `off` of the table. -/
def countProbes (s : State) (lcap crd off : Nat) : State :=
  setWork s (s.h.work + ((off - 64) / 8 + 2 ^ lcap - hashSlot lcap crd) % 2 ^ lcap + 1)

/-- Applies pairs from index `k` on to the table at local address `ea`. -/
def accumulate (rm vt plim lcap : Nat) (ea : Word) (done : State → FlagSet → State) : List SPair → Nat → FlagSet → State → State
  | [], _, f, s => done s f
  | p :: r, k, f, s =>
    let stop := fun (s : State) (code : BitVec 8) =>
      takeTrap (modCsr (orFlags s f) (fun q => { q with resume := BitVec.ofNat 64 k })) { Trap.here s 0x0a code ea with step := k }
    if p.crd = 0xffffffff then stop s 4
    else match probe s ea lcap p.crd plim (hashSlot lcap p.crd) with
    | .poisoned off => poisonEnd s (ea + BitVec.ofNat 64 off)
    | .full => stop (putSlot (setWork s (s.h.work + plim)) ea 0 ((slotWord s ea 0).1 ||| 0x20)) 2
    | .new off =>
      let s := putSlot (countProbes s lcap p.crd off) ea off p.word
      let s := putSlot s ea 0 ((slotWord s ea 0).1 + 0x100000000)
      accumulate rm vt plim lcap ea done r (k + 1) f s
    | .add off w =>
      let q := addVal vt rm (w.toNat / 2 ^ 32) p.val
      accumulate rm vt plim lcap ea done r (k + 1) (f ||| q.2) (putSlot (countProbes s lcap p.crd off) ea off (SPair.word ⟨p.crd, q.1⟩))

/-- R403 code 0x03: the header is out of range. -/
def headerOut (h : List Word) (vt : Nat) : Bool :=
  let w := (h.getD 0 0).toNat
  w / 2 ^ 8 % 2 ^ 8 == 0 || decide (w % 32 < 4) || decide (20 < w % 32) || w / 2 ^ 16 % 2 ^ 16 != 0 ||
    w / 2 ^ 6 % 4 != vt || (h.drop 1).any (fun x => x != 0)

def execShacc (c : Ctl) (o : SX) (s : State) : Out :=
  resumeRecords s <|
  let ea := rx s o.xa
  let m := o.sd.toNat
  let s := noteSources s [m]
  if !aligned ea 64 then raise s 9 0x0c ea
  else match sparseNumbers s [m] with
  | some t => .next (takeTrap s t)
  | none => .next (withSources s [m] (fun vs =>
      let v := vs.getD 0 ⟨0, []⟩
      match localWords s ea.toNat 8 with
      | .error t => takeTrap s t
      | .ok (s, hs) =>
        match (List.range 8).find? (fun i => (hs.getD i (0, false)).2) with
        | some i => poisonEnd s (ea + BitVec.ofNat 64 (8 * i))
        | none =>
          if headerOut (hs.map Prod.fst) v.vt then takeTrap s (Trap.here s 0x0a 3 ea)
          else
            let w := ((hs.getD 0 (0, false)).1).toNat
            let plim := if lockstep s then 8 else w / 2 ^ 8 % 2 ^ 8
            let k := s.h.csr.resume.toNat
            accumulate (sparseRm s) v.vt plim (w % 32) ea
              (fun s f =>
                let s := modCsr (orFlags s f) (fun q => { q with resume := 0 })
                retire c (setX s o.xb ((slotWord s ea 0).1 >>> 32)))
              (v.pairs.drop k) k 0 s))

end Sys2Proof.Machine
end

