-- ==== Sys2Proof/Machine/Atomics.lean ====
section
/-! DEFINITION. Scratchpad atomics and exact-sum cells (R302 to R307, R401, R416, R417). -/
namespace Sys2Proof.Machine

/-- Bytes of memory from `g` on as an atomic reads them. -/
def atomBytes (s : State) (g n : Nat) : Nat :=
  let first := g / 8 * 8
  let words := (g + n - 1) / 8 - g / 8 + 1
  let v := (List.range words).foldr (fun i acc =>
    (valueAt s (first + 8 * i) (atomPlace s (first + 8 * i))).toNat + 2 ^ 64 * acc) 0
  v / 2 ^ (8 * (g - first)) % 2 ^ (8 * n)

/-- The write of an atomic: `n` bytes at `g`, inside a word or as whole words, each above what its read saw. -/
def atomStore (s : State) (g n v : Nat) : State :=
  if n < 8 then
    let sh := 8 * (g % 8)
    storeAt s false true (g / 8 * 8) (atomPlace s (g / 8 * 8)) (BitVec.ofNat 64 ((2 ^ (8 * n) - 1) * 2 ^ sh))
      (BitVec.ofNat 64 (v * 2 ^ sh)) false
  else (List.range (n / 8)).foldl (fun s i =>
    storeAt s false true (g + 8 * i) (atomPlace s (g + 8 * i)) 0xffffffffffffffff (BitVec.ofNat 64 (v / 2 ^ (64 * i))) false) s

/-- One application at the bank (R303): `f` gives the new bytes, the answer and the flags from the old bytes. -/
def application (c : Ctl) (s : State) (ea : Word) (size align : Nat) (xd : BitVec 5) (f : Nat → Nat × Word × FlagSet) : Out :=
  if !aligned ea align then raise s 9 1 ea
  else .next (match homePlace s ea with
    | .mem g =>
      match (List.range (ceilDiv size 8)).find? (fun i => sget false s.poisonWord (g / 8 + i)) with
      | some i => poisonEnd (setX s xd 0) (BitVec.ofNat 64 (ea.toNat / 8 * 8 + 8 * i))
      | none =>
        let r := f (atomBytes s g size)
        retire c (orFlags (setX (atomStore s g size r.1) xd r.2.1) r.2.2)
    | .bad k => retire c (setX (violation s k ea.toNat) xd 0)
    | _ => retire c (setX (violation s 1 ea.toNat) xd 0))

/-- The size that SZ selects (R302). -/
def szBytes (o : AT) : Nat := if o.sz = 1 then 8 else 4

/-- An integer atomic: `f` on old and operand, both of `w` bits; `sx` sign-extends the old value returned. -/
def amo (c : Ctl) (o : AT) (s : State) (sx : Bool) (f : (w : Nat) → Nat → Nat → Nat) : Out :=
  let n := szBytes o
  let w := 8 * n
  application c s (rx s o.xa) n n o.xd (fun old =>
    (f w old ((rx s o.xb).toNat % 2 ^ w) % 2 ^ w,
     if sx && n == 4 then (BitVec.ofNat 32 old).signExtend 64 else BitVec.ofNat 64 old, 0))

/-- The signed value of a `w`-bit pattern. -/
def signedPattern (w v : Nat) : Int := if v.testBit (w - 1) then (v : Int) - 2 ^ w else v

def execAmoAdd (c : Ctl) (o : AT) (s : State) : Out := amo c o s true (fun _ a b => a + b)
def execAmoAnd (c : Ctl) (o : AT) (s : State) : Out := amo c o s false (fun _ a b => a &&& b)
def execAmoOr (c : Ctl) (o : AT) (s : State) : Out := amo c o s false (fun _ a b => a ||| b)
def execAmoXor (c : Ctl) (o : AT) (s : State) : Out := amo c o s false (fun _ a b => a ^^^ b)
def execAmoMin (c : Ctl) (o : AT) (s : State) : Out :=
  amo c o s true (fun w a b => if signedPattern w b < signedPattern w a then b else a)
def execAmoMax (c : Ctl) (o : AT) (s : State) : Out :=
  amo c o s true (fun w a b => if signedPattern w a < signedPattern w b then b else a)
def execAmoMinu (c : Ctl) (o : AT) (s : State) : Out := amo c o s false (fun _ a b => min a b)
def execAmoMaxu (c : Ctl) (o : AT) (s : State) : Out := amo c o s false (fun _ a b => max a b)
def execAmoSwap (c : Ctl) (o : AT) (s : State) : Out := amo c o s true (fun _ _ b => b)
/-- AMOCAS compares with X[XD] (R302). -/
def execAmocas (c : Ctl) (o : AT) (s : State) : Out :=
  amo c o s true (fun w a b => if a = (rx s o.xd).toNat % 2 ^ w then b else a)

/-- old + b by RNE in a format (R304). -/
def amofSum (fmt a b : Nat) : Nat × FlagSet :=
  let r := (decodeFloat fmt a).add 0 (decodeFloat fmt b)
  let q := fitFloat fmt 0 0 r.1
  (q.1, r.2 ||| q.2)

def amof (c : Ctl) (o : AT) (s : State) (fmt n : Nat) : Out :=
  application c s (rx s o.xa) n n o.xd (fun old =>
    let q := amofSum fmt old ((rx s o.xb).toNat % 2 ^ (8 * n))
    (q.1, BitVec.ofNat 64 old, q.2))

def execAmofFp32 (c : Ctl) (o : AT) (s : State) : Out := amof c o s 3 4
def execAmofFp64 (c : Ctl) (o : AT) (s : State) : Out := amof c o s 2 8
/-- Two BF16 sums (R304). -/
def execAmofBf16 (c : Ctl) (o : AT) (s : State) : Out :=
  application c s (rx s o.xa) 4 4 o.xd (fun old =>
    let b := (rx s o.xb).toNat
    let lo := amofSum 4 (old % 2 ^ 16) (b % 2 ^ 16)
    let hi := amofSum 4 (old / 2 ^ 16) (b / 2 ^ 16 % 2 ^ 16)
    (lo.1 + hi.1 * 2 ^ 16, BitVec.ofNat 64 old, lo.2 ||| hi.2))

/-- AMOX (R305, R306); XD is reserved. -/
def execAmox (c : Ctl) (o : AT) (s : State) : Out :=
  application c s (rx s o.xa) 48 64 0 (fun cell => (cellAdd cell (rx s o.xb).toNat, 0, 0))

/-- The result of AMOXR (R307). -/
def cellRead (fmt cell : Nat) : Nat × FlagSet :=
  let mark := fun b => cell.testBit (320 + b)
  if mark 0 || (mark 1 && mark 2) then (canonNan fmt, fNv)
  else if mark 1 || mark 2 then fitFloat fmt 0 0 (.inf (mark 2))
  else
    let v := signedPattern 320 (cell % 2 ^ 320)
    fitFloat fmt 0 0 (.fin (decide (v < 0)) v.natAbs (-149) false)

def amoxr (c : Ctl) (o : AT) (s : State) (fmt : Nat) : Out :=
  application c s (rx s o.xa) 48 64 o.xd (fun cell =>
    let q := cellRead fmt cell
    (if (rx s o.xb).getLsbD 0 then 0 else cell, BitVec.ofNat 64 q.1, q.2))

def execAmoxrFp32 (c : Ctl) (o : AT) (s : State) : Out := amoxr c o s 3
def execAmoxrFp64 (c : Ctl) (o : AT) (s : State) : Out := amoxr c o s 2

end Sys2Proof.Machine
end

