-- ==== Sys2Proof/Machine/Control.lean ====
section
/-! DEFINITION. Branches, jumps, loops and WAITC (R159 to R162), NOP and YIELD (R163, R164), traps and the return (R165 to
R167), CSR instructions (R168, R169), SETVT (R172), POOL (R364), and the trap and interrupt events. -/
namespace Sys2Proof.Machine

/-- The target of a branch: PC + 4 × offset (R136). -/
def target (c : Ctl) (s : State) : Word := s.h.pc + 4 * c.imm

def branch (c : Ctl) (cond : Bool) (s : State) : Out := .next (goTo (if cond then target c s else nextPc c s) s)

def execBeq (c : Ctl) (o : BR) (s : State) : Out := branch c (rx s o.xa == rx s o.xb) s
def execBne (c : Ctl) (o : BR) (s : State) : Out := branch c (rx s o.xa != rx s o.xb) s
def execBlt (c : Ctl) (o : BR) (s : State) : Out := branch c ((rx s o.xa).slt (rx s o.xb)) s
def execBge (c : Ctl) (o : BR) (s : State) : Out := branch c (!(rx s o.xa).slt (rx s o.xb)) s
def execBltu (c : Ctl) (o : BR) (s : State) : Out := branch c ((rx s o.xa).ult (rx s o.xb)) s
def execBgeu (c : Ctl) (o : BR) (s : State) : Out := branch c (!(rx s o.xa).ult (rx s o.xb)) s

def execJmp (c : Ctl) (_o : J) (s : State) : Out := branch c true s
def execJal (c : Ctl) (o : XL) (s : State) : Out := .next (goTo (target c s) (setX s o.xd (nextPc c s)))

/-- JALR: a target with bits [1:0] nonzero traps before issue (R160, R366). -/
def execJalr (c : Ctl) (o : XI) (s : State) : Out :=
  let tgt := rx s o.xa + c.imm
  if !aligned tgt 4 then raise s 8 1 tgt
  else .next (goTo tgt (setX s o.xd (nextPc c s)))

def execLoop (c : Ctl) (o : XL) (s : State) : Out :=
  let v := rx s o.xd - 1
  .next (goTo (if v ≠ 0 then target c s else nextPc c s) (setX s o.xd v))

/-- WAITC: the next issue is no earlier than T + 1; X[XD] counts as a signed number (R162, log 56). -/
def execWaitc (c : Ctl) (o : XL) (s : State) : Out :=
  let t := ((myGang s).tstart : Int) + (rx s o.xd).toInt + c.imm.toInt
  .next (retire c (modH s (fun h => { h with next := max h.next (t + 1).toNat })))

def execNop (c : Ctl) (_o : X3) (s : State) : Out := .next (retire c s)
/-- YIELD has no effect on state; the step stops the hart after it when a pre-emption is pending (R164). -/
def execYield (c : Ctl) (_o : X3) (s : State) : Out := .next (retire c s)

/-- TRAP: EPC lies after it, EADDR is the immediate (R167). -/
def execTrap (c : Ctl) (_o : XL) (s : State) : Out :=
  .next (takeTrap s { cls := 1, code := 0, eaddr := c.imm, epc := nextPc c s })

/-- BRK halts the hart under halt-on-break, else traps (R167). DESIGN CHOICE (log 71): EADDR receives 0, since R165 and R167 give it a
value for a faulting address and for TRAP alone. -/
def execBrk (_c : Ctl) (_o : X3) (s : State) : Out :=
  if (myGang s).haltOnBreak then .next (modH s (fun h => { h with run := .halted }))
  else raise s 1 1 0

/-- RTE with TL = 0 is an illegal instruction (R363 code 0x07). -/
def execRte (c : Ctl) (o : X3) (s : State) : Out :=
  if !statusTl s.h.csr.status then raise s 2 7 (illegalEaddr (.rte c o))
  else .next (modH s returnFromTrap)

/-- A POOL header reached by execution (R364). -/
def execPool (_c : Ctl) (o : PL) (s : State) : Out := raise s 3 1 (s.h.pc + 4 + 4 * o.nw.setWidth 64)

/-! CSRs. -/

/-- MCFG as a write leaves it (R223). -/
def mkMcfg (old v : Word) : Word :=
  let v := v &&& 0x773
  if v.toNat % 4 = 3 then (v &&& ~~~3#64) ||| (old &&& 3) else v

/-- The value of a CSR in the issue cy (R168, R169). -/
def csrRead (s : State) (n : Nat) : Word :=
  let k := s.h.csr
  let g := myGang s
  if n = 0 then BitVec.ofNat 64 k.vl else if n = 1 then BitVec.ofNat 64 k.rlen else if n = 2 then BitVec.ofNat 64 k.rows
  else if n = 3 then BitVec.ofNat 64 k.tiles else if n = 4 then BitVec.ofNat 64 k.fold else if n = 5 then k.vtype
  else if n = 7 then k.resume
  else if n = 0x10 then
    (if s.h.hot.contains .flags then (k.fcsr &&& ~~~0x3f#64) ||| (Config.freeBits s.free 64 &&& 0x3f) else k.fcsr)
  else if n = 0x11 then k.mcfg else if n = 0x20 then flag g.launch.lockstep else if n = 0x21 then flag k.tchk
  else if n = 0x22 then BitVec.ofNat 64 g.tstart else if n = 0x23 then BitVec.ofNat 64 s.cyc else if n = 0x24 then k.rpc
  else if n = 0x30 then BitVec.ofNat 64 s.h.idx else if n = 0x31 then BitVec.ofNat 64 (s.h.gang % 2 ^ 32)
  else if n = 0x32 then BitVec.ofNat 64 (s.h.core + 65536 * s.h.slots) else if n = 0x33 then g.launch.mbox
  else if n = 0x40 then k.status else if n = 0x41 then k.tvec else if n = 0x42 then k.epc else if n = 0x43 then k.ecause
  else if n = 0x44 then k.estep else if n = 0x45 then k.eaddr
  else if 0x100 ≤ n ∧ n < 0x200 then (monSeen s (16 * s.h.core + (n - 0x100) / 16)).read (n % 16)
  else 0

/-- The CSRs with `v` written to number `n` (R9, R54, R68, R165, R223). -/
def Csrs.write (k : Csrs) (n : Nat) (v : Word) : Csrs :=
  if n = 5 then { k with vtype := mkVtype v } else if n = 7 then { k with resume := v }
  else if n = 0x10 then { k with fcsr := mkFcsr k.fcsr v } else if n = 0x11 then { k with mcfg := mkMcfg k.mcfg v }
  else if n = 0x21 then { k with tchk := v.getLsbD 0 } else if n = 0x40 then { k with status := v &&& 7 }
  else if n = 0x41 then { k with tvec := v &&& ~~~3#64 } else if n = 0x42 then { k with epc := v &&& ~~~3#64 }
  else if n = 0x43 then { k with ecause := v &&& 0x800000000000ffff }
  else if n = 0x44 then { k with estep := v &&& 0xffffffff } else if n = 0x45 then { k with eaddr := v }
  else k

/-- The flags of earlier instructions that may land after a write of FCSR made now, each of which may have landed before it (R72). -/
def flagsAfter (s : State) : FlagSet :=
  s.h.flagsDue.foldl (fun f w => if s.cyc ≤ w.1 then f ||| w.2 else f) 0 &&& (Config.freeBits s.free (2 ^ 66)).setWidth 6

/-- FCSR after a write: flags that land with it or later are ORed into the written value (R72). -/
def landFlags (n : Nat) (s : State) : State :=
  if n = 0x10 then modCsr s (fun k => { k with fcsr := k.fcsr ||| (flagsAfter s).setWidth 64 }) else s

/-- Writes a CSR; `seed`: the write counts as a write of FCSR.SEED (R70). -/
def csrWrite (s : State) (n : Nat) (v : Word) (seed : Bool) : State :=
  if 0x100 ≤ n ∧ n < 0x200 then
    let key := 16 * s.h.core + (n - 0x100) / 16
    writeMon s key (n % 16) v
  else
    let s := landFlags n (modCsr s (fun k => k.write n v))
    if n = 0x10 ∧ seed then resetGens s else s

/-- A restart point that reads RPC reads its own PC, which its issue writes there (R47). -/
def execCsrr (c : Ctl) (o : C) (s : State) : Out :=
  alu c o.xd (if c.rp && o.csr == 0x24 then s.h.pc else csrRead s o.csr.toNat) s
def execCsrw (c : Ctl) (o : C) (s : State) : Out := .next (retire c (csrWrite s o.csr.toNat (rx s o.xd) true))
def execCsrs (c : Ctl) (o : C) (s : State) : Out :=
  .next (retire c (csrWrite s o.csr.toNat (csrRead s o.csr.toNat ||| rx s o.xd) ((rx s o.xd).toNat / 2 ^ 32 != 0)))
def execCsrc (c : Ctl) (o : C) (s : State) : Out :=
  .next (retire c (csrWrite s o.csr.toNat (csrRead s o.csr.toNat &&& ~~~rx s o.xd) ((rx s o.xd).toNat / 2 ^ 32 != 0)))

/-- SETVT writes VTYPE[47:0] and returns the new VTYPE (R172). -/
def execSetvt (c : Ctl) (o : X3) (s : State) : Out :=
  let v := mkVtype (rx s o.xa)
  alu c o.xd v (modCsr s (fun k => { k with vtype := v }))

/-- MCFG writes X[XA] to MCFG and returns the old value (R224). -/
def execMcfg (c : Ctl) (o : X3) (s : State) : Out :=
  alu c o.xd s.h.csr.mcfg (modCsr s (fun k => { k with mcfg := mkMcfg k.mcfg (rx s o.xa) }))

/-! Events. -/

/-- The classes of precise traps (R346). -/
def preciseClass (cls : BitVec 8) : Bool := decide (1 ≤ cls.toNat) && decide (cls.toNat ≤ 10)

/-- TRAP_ENTRY: the hart in hand takes a precise trap at its pc (R166, R350, R352). A class that is not of a precise trap is never
produced (R346). -/
def execTrapEntry (cls code : BitVec 8) (eaddr : Word) (s : State) : Out :=
  if preciseClass cls then raise s cls code eaddr else .next s

/-- ASYNC_INTERRUPT: taken at a restart point while IE = 1 and TL = 0 (R47, R351, R355). -/
def execAsyncInterrupt (s : State) : Out :=
  match s.h.irqs with
  | q :: rest =>
    if statusIe s.h.csr.status && !statusTl s.h.csr.status
    then .next (takeInterrupt (modH s (fun h => { h with irqs := rest })) q)
    else .next s
  | [] => .next s

end Sys2Proof.Machine
end

