-- ==== Sys2Proof/Machine/Convert.lean ====
section
/-! DEFINITION. Floating-point reduction (R74, R212), microscaling (R64, R65, R213, R214, R410) and Hadamard blocks (R215). -/
namespace Sys2Proof.Machine

/-! VFRED. -/

/-- An entry of the reduction tree: the element of its generator, and its code in D's format. -/
structure Entry where
  elem : Nat
  code : Nat
  deriving DecidableEq, Repr

/-- fit() with the draw that one rounding on element `e` takes under SR; flags gather. -/
def fitDraw (fmt rm e : Nat) (v : FVal) (acc : Hart × FlagSet) : Nat × (Hart × FlagSet) :=
  let r := fitFloat fmt rm (lfsrDraw (genState acc.1 e)).1 v
  (r.1, (if rm = 5 then advanceGen acc.1 e 1 else acc.1), acc.2 ||| r.2)

/-- One combining step (R212): op 0 add, 1 minimum, 2 maximum. -/
def combine (fmt rm op : Nat) (l r : Entry) (acc : Hart × FlagSet) : Entry × (Hart × FlagSet) :=
  let a := decodeFloat fmt l.code
  let b := decodeFloat fmt r.code
  let v := if op = 0 then a.add rm b else (a.pick (op == 2) b, 0)
  let q := fitDraw fmt rm l.elem v.1 (acc.1, acc.2 ||| v.2)
  (⟨l.elem, q.1⟩, q.2)

/-- One level of the tree: entries 2i and 2i + 1 combine; an entry without a partner passes up (R74). -/
def treeLevel (fmt rm op : Nat) : List (Option Entry) → Hart × FlagSet → List (Option Entry) × (Hart × FlagSet)
  | [], acc => ([], acc)
  | [x], acc => ([x], acc)
  | x :: y :: rest, acc =>
    let (z, acc) : Option Entry × (Hart × FlagSet) := match x, y with
      | some a, some b => let q := combine fmt rm op a b acc; (some q.1, q.2)
      | some a, none => (some a, acc)
      | none, y => (y, acc)
    let (rest, acc) := treeLevel fmt rm op rest acc
    (z :: rest, acc)

def treeLevels (fmt rm op : Nat) : Nat → List (Option Entry) → Hart × FlagSet → List (Option Entry) × (Hart × FlagSet)
  | 0, l, acc => (l, acc)
  | n + 1, l, acc =>
    if l.length ≤ 1 then (l, acc)
    else let (l, acc) := treeLevel fmt rm op l acc; treeLevels fmt rm op n l acc

/-- The level-0 entries of one tile: each active element enters by fit() (R212). -/
def enterAll (c : Ctl) (s : State) (A : Desc) (fmt rm va : Nat) : List Nat → Hart × FlagSet →
    List (Option Entry) × (Hart × FlagSet)
  | [], acc => ([], acc)
  | e :: rest, acc =>
    let (x, acc) : Option Entry × (Hart × FlagSet) :=
      if active c s e then
        let q := fitDraw fmt rm e (elemFloat s A va e) acc
        (some ⟨e, q.1⟩, q.2)
      else (none, acc)
    let (rest, acc) := enterAll c s A fmt rm va rest acc
    (x :: rest, acc)

/-- The tiles left to right (R74). -/
def reduceTiles (c : Ctl) (s : State) (A : Desc) (fmt rm op va : Nat) :
    List Nat → Option Entry → Hart × FlagSet → Option Entry × (Hart × FlagSet)
  | [], best, acc => (best, acc)
  | t :: rest, best, acc =>
    let per := s.h.csr.rlen * s.h.csr.rows
    let es := ((List.range per).map (fun i => t * per + i)).filter (fun e => decide (e < s.h.csr.vl))
    let (l, acc) := enterAll c s A fmt rm va es acc
    let (l, acc) := treeLevels fmt rm op 20 l acc
    match l.getD 0 none, best with
    | none, b => reduceTiles c s A fmt rm op va rest b acc
    | some x, none => reduceTiles c s A fmt rm op va rest (some x) acc
    | some x, some b =>
      let q := combine fmt rm op b x acc
      reduceTiles c s A fmt rm op va rest (some q.1) q.2

/-- The result over no element (R212). -/
def redIdentity (fmt op : Nat) : Nat :=
  if op = 0 then 0 else (fitFloat fmt 0 0 (.inf (op == 2))).1

def execVfred (c : Ctl) (o : VF) (s : State) : Out :=
  let A := descOf c s .a
  let D := descOf c s .d
  let op := c.imm.toNat % 4
  vecFrame c s [.a, .d] (fpDesc A && fpDesc D) [srcNamed o.va A.w, dstNamed c o.vd D.w] none none (fun s =>
    if (actives c s).any (fun e => elemPoisoned s o.va.toNat A.w e || predPoisoned s c.pred.toNat e) then poisonEnd s 0
    else
      let (r, (h, fl)) := reduceTiles c s A D.fmt (rmOf c s) op o.va.toNat (List.range s.h.csr.tiles) none (s.h, 0)
      let code := match r with
        | some x => x.code
        | none => redIdentity D.fmt op
      let s := orFlags (modH s (fun x => { x with gens := h.gens })) fl
      retire c (if s.h.csr.vl = 0 then s else writeElems s o.vd.toNat D.w false [⟨0, code, false⟩]))

/-! Microscaling. -/

def mxDesc (d : Desc) : Bool := decide (10 ≤ d.fmt) && decide (d.fmt ≤ 13)

/-- The scale register VS of VMXQ and VMXD, and the conflict of R368 code 0x07. -/
def scaleReg (c : Ctl) : Nat := c.imm.toNat % 64
def scaleTrap (c : Ctl) (o : VF) (s : State) : Option Trap :=
  let vs := scaleReg c
  trapIf (vs == o.vd.toNat || vs == o.va.toNat || decide ((vreg s vs).width < 8)) (Trap.here s 4 7 (BitVec.ofNat 64 vs))

/-- Emax of R65. -/
def mxEmax : Nat → Int
  | 12 => 4 | 13 => 0 | _ => 2

/-- The larger of two logarithms. -/
def maxLog : List FVal → Option Int
  | [] => none
  | .fin _ m e _ :: r => if m = 0 then maxLog r else match maxLog r with
    | some x => some (max (logMag m e) x)
    | none => some (logMag m e)
  | _ :: r => maxLog r

/-- Whether R65 case 1 holds. -/
def mxBad (xs : List FVal) : Bool := xs.any (fun x => match x with | .fin _ _ _ _ => false | _ => true)

/-- The shared exponent of a block under case 3, none under cases 1 and 2 (R65). -/
def sharedExp (fmt : Nat) (xs : List FVal) : Option Int :=
  if mxBad xs then none
  else match maxLog xs with
    | some l => some (max (-127) (min 127 (l - mxEmax fmt)))
    | none => none

def FVal.scale (k : Int) : FVal → FVal
  | .fin n m e t => .fin n m (e + k) t
  | v => v

/-- One block: its scale code, its element items, its flags, and the elements that drew (R65, R410). -/
def quantise (c : Ctl) (s : State) (A : Desc) (fmt rm va b : Nat) : Nat × List FItem × FlagSet × List Nat :=
  let es := (List.range 32).map (fun i => 32 * b + i) |>.filter (fun e => decide (e < s.h.csr.vl))
  let act := es.filter (fun e => predBit s c.pred.toNat e)
  let xs := act.map (elemFloat s A va)
  let bad := act.any (fun e => elemPoisoned s va A.w e || predPoisoned s c.pred.toNat e)
  let sh := sharedExp fmt xs
  let item := fun e =>
    if predBit s c.pred.toNat e then match sh with
      | some k => let r := fitFloat fmt rm (drawZ s e) ((elemFloat s A va e).scale (-k)); some (FItem.mk e r.1 r.2 bad)
      | none => some (FItem.mk e 0 0 bad)
    else if c.z then some (FItem.mk e 0 0 false) else none
  let items := es.filterMap item
  let code : Nat := match sh with
    | some k => (k + 127).toNat
    | none => if mxBad xs then 0xff else 0
  (code, items, (if mxBad xs && !bad then fNv else 0) ||| flagsOf items, if sh.isSome then act else [])

def execVmxq (c : Ctl) (o : VF) (s : State) : Out :=
  let A := descOf c s .a
  let D := descOf c s .d
  vecFrame c s [.a, .d] (fpDesc A && mxDesc D)
    [srcNamed o.va A.w, dstNamed c o.vd D.w, { reg := scaleReg c, fill := !(c.pred == 0 && !c.z) }] (scaleTrap c o s) none
    (fun s =>
      let rm := rmOf c s
      let blocks := (List.range (ceilDiv s.h.csr.vl 32)).map (fun b => quantise c s A D.fmt rm o.va.toNat b)
      let items := (blocks.map (fun b => b.2.1)).flatten
      let scales := (List.range blocks.length).map (fun b =>
        let q := blocks.getD b (0, [], 0, [])
        (⟨b, q.1, q.2.1.any (fun i => i.poison)⟩ : Item))
      let fl := blocks.foldl (fun a b => a ||| b.2.2.1) (0 : FlagSet)
      let es := (blocks.map (fun b => b.2.2.2)).flatten
      let s' := writeElems (writeElems s o.vd.toNat D.w D.sgn (items.map FItem.item)) (scaleReg c) 8 false scales
      retire c (drawn rm es (orFlags s' fl)))

def execVmxd (c : Ctl) (o : VF) (s : State) : Out :=
  let A := descOf c s .a
  let D := descOf c s .d
  let vs := scaleReg c
  vecFrame c s [.a, .d] (mxDesc A && fpDesc D) [srcNamed o.va A.w, dstNamed c o.vd D.w, { reg := vs }] (scaleTrap c o s) none
    (fun s =>
      let rm := rmOf c s
      let scale := fun e => elemBits s vs 8 (e / 32)
      let items := floatItems c s
        (fun e =>
          if scale e = 0xff then (canonNan D.fmt, 0)
          else fitFloat D.fmt rm (drawZ s e) ((elemFloat s A o.va.toNat e).scale ((scale e : Int) - 127)))
        (fun e => elemPoisoned s o.va.toNat A.w e || elemPoisoned s vs 8 (e / 32))
      let s' := orFlags (writeElems s o.vd.toNat D.w false (items.map FItem.item)) (flagsOf items)
      retire c (drawn rm ((actives c s).filter (fun e => scale e != 0xff)) s'))

/-! Hadamard blocks. -/

/-- The sign of term (i, j). -/
def hadNeg (i j : Nat) : Bool := popCount 5 (i &&& j) % 2 == 1

/-- The exact sum of signed floats, left to right. -/
def sumFloats (rm : Nat) : List FVal → FVal × FlagSet
  | [] => (.zero, 0)
  | v :: vs => vs.foldl (fun acc x => let r := acc.1.add rm x; (r.1, acc.2 ||| r.2)) (v, 0)

/-- The sum of a block's row: a NaN input gives NaN alone; opposite infinities give NaN and NV (R215). DESIGN CHOICE (log 71):
where both are present, NaN alone, since the rule states each case by itself. -/
def hadFloat (rm : Nat) (xs : List FVal) : FVal × FlagSet :=
  if xs.any FVal.isNan then (.nan false, 0) else sumFloats rm xs

def execVhad (c : Ctl) (o : VF) (s : State) : Out :=
  let A := descOf c s .a
  let D := descOf c s .d
  let n := if c.imm.getLsbD 0 then 32 else 16
  vecFrame c s [.a, .d] ((fpDesc A && fpDesc D) || (intDesc A && intDesc D)) [srcNamed o.va A.w, dstNamed c o.vd D.w]
    (trapIf (s.h.csr.rlen % n != 0) (Trap.here s 4 8 (BitVec.ofNat 64 (s.h.csr.fold * 65536 + s.h.csr.rlen)))) none
    (fun s =>
      let rm := rmOf c s
      let block := fun e => (List.range n).map (fun j => (j, e / n * n + j))
      let bad := fun e => (block e).any (fun p => active c s p.2 && elemPoisoned s o.va.toNat A.w p.2)
      if intDesc A then
        retire c (writeElems s o.vd.toNat D.w D.sgn (results c s (fun e =>
          wrap D.w ((block e).foldl (fun t p =>
            if active c s p.2 then
              let x := elemInt s A o.va.toNat p.2
              if hadNeg (e % n) p.1 then t - x else t + x
            else t) 0)) bad))
      else
        retire c (putFloats c o.vd.toNat D.w false rm (floatItems c s (fun e =>
          let xs := (block e).map (fun p =>
            let x := if active c s p.2 then elemFloat s A o.va.toNat p.2 else .zero
            if hadNeg (e % n) p.1 then x.neg else x)
          let r := hadFloat rm xs
          let q := fitFloat D.fmt rm (drawZ s e) r.1
          (q.1, r.2 ||| q.2)) bad) s))

end Sys2Proof.Machine
end

