-- ==== Sys2Proof/Machine/Sync.lean ====
section
/-! DEFINITION. Fences, WAITM, barriers and triggers (R114 to R118, R308 to R311), landings (R41, R151), drowsy rows (R45) and the
spread of a replicated write (R126). -/
namespace Sys2Proof.Machine

/-! Fences (R109, R114, R308). -/

/-- The local address of a byte of a scratchpad: a cluster scratchpad's is the same in the windows of each cluster (R89). -/
def localOf (g : Nat) : Nat := if g < dieBase 0 then g % 2 ^ 24 else 0x10000000 + (g - dieBase 0)

/-- A scope covers a byte of a scratchpad for a hart on home core `core` (R109). -/
def scopeCovers (core scope g : Nat) : Bool :=
  let cl := (g - clusterBase 0) / 2 ^ 24
  match scope with
  | 1 => decide (g < dieBase 0) && cl == clusterOfCore core
  | 2 => if g < dieBase 0 then dieOfCluster cl == dieOfCore core else (g - dieBase 0) / 2 ^ 26 == dieOfCore core
  | _ => true

/-- `n` bytes at `g` touch the fence's range, in its space (R114). -/
def FenceHold.inRange (f : FenceHold) (g n : Nat) : Bool :=
  let a := localOf g
  f.virt != some true &&
  (match f.len with
   | none => true
   | some k => k != 0 && decide (a < min (f.base + k) (2 ^ 64)) && decide (f.base < a + n))

/-- The fence orders pairs of accesses to the 8-byte word `w` (R114). -/
def FenceHold.touches (f : FenceHold) (core w : Nat) : Bool := scopeCovers core f.scope (8 * w) && f.inRange (8 * w) 8

def FenceHold.rr (f : FenceHold) : Bool := f.kinds.getLsbD 0
def FenceHold.rw (f : FenceHold) : Bool := f.kinds.getLsbD 1
def FenceHold.wr (f : FenceHold) : Bool := f.kinds.getLsbD 2
def FenceHold.ww (f : FenceHold) : Bool := f.kinds.getLsbD 3

/-- An access before the fence is ordered ahead of one after it: the kinds, the scope over both, and one of them in the range
(R114). -/
def FenceHold.orders (f : FenceHold) (core : Nat) (x y : MemAccess) : Bool :=
  let pair := fun (ps qs : List (Nat × Nat)) => ps.any (fun p => scopeCovers core f.scope p.1 && qs.any (fun q =>
    scopeCovers core f.scope q.1 && (f.inRange p.1 p.2 || f.inRange q.1 q.2)))
  (f.rr && pair x.pieces y.pieces) || (f.rw && pair x.pieces y.stored) || (f.wr && pair x.stored y.pieces) ||
  (f.ww && pair x.stored y.stored)

/-- The cy by which every earlier access that the fence orders before `y` is performed. -/
def FenceHold.holdsTo (f : FenceHold) (core : Nat) (y : MemAccess) : Nat :=
  f.early.foldl (fun m x => if f.orders core x y then max m x.upto else m) 0

/-- The fence in the hart's strip interval: its earlier writes precede later reads (WR) and writes (WW), its earlier reads
precede later reads (RR) and writes (RW). -/
def applyFence (f : FenceHold) (h : Hart) : Hart :=
  { h with
    strip := h.strip.map (fun e =>
      if f.touches h.core e.word then { e with seen := e.seen || f.wr, fixed := e.fixed || f.ww } else e)
    stripReads := h.stripReads.map (fun r =>
      if f.touches h.core r.word then { r with seen := r.seen || f.rr, fixed := r.fixed || f.rw } else r) }

def fence (c : Ctl) (f : FenceHold) (s : State) : Out :=
  .next (retire c (modH s (fun h => { applyFence f h with
    fences := h.fences ++ [{ f with early := h.accesses.filter (fun x => decide (h.issueCy < x.upto)) }] })))

def execFencer (c : Ctl) (o : F) (s : State) : Out :=
  fence c ⟨o.sco.toNat, o.kd, some (o.sp == 1), (rx s o.xa).toNat, some (rx s o.xb).toNat, []⟩ s

def execFence (c : Ctl) (o : F) (s : State) : Out := fence c ⟨o.sco.toNat, o.kd, none, 0, none, []⟩ s

/-- FENCE_RELEASE: the accesses a fence held may issue (R308). -/
def execFenceRelease (gang hart : Nat) (s : State) : Out :=
  .next (modHarts s (isHart gang hart) (fun h =>
    { h with fences := h.fences.filter (fun f => f.early.any (fun x => decide (s.cyc < x.upto))) }))

/-! WAITM (R309, R401). -/

/-- The conditions of R309. -/
def waitmTest (code : Nat) (m x : Word) : Bool :=
  match code with
  | 0 => m == x
  | 1 => m != x
  | 2 => x.sle m
  | 3 => x.ule m
  | 4 => (m &&& x) != 0
  | _ => (m &&& x) == x

/-- One read of WAITM's word: the state (with its violation entry), the value, and its poison. -/
def waitmRead (s : State) (ea : Word) : State × Word × Bool :=
  match homePlace s ea with
  | .mem g => (s, stripWord s false g, sget false s.poisonWord (g / 8))
  | .bad k => (violation s k ea.toNat, 0, false)
  | _ => (violation s 1 ea.toNat, 0, false)

/-- The read that satisfied WAITM's condition, ordered before every later access (R117). -/
def waitmNote (s : State) (ea : Word) : State :=
  match homePlace s ea with
  | .mem g => modH s (fun h => { h with stripReads := ⟨false, g / 8, readPos s false g, 0, none, true, true, []⟩ :: h.stripReads })
  | _ => s

def execWaitm (c : Ctl) (o : X3) (s : State) : Out :=
  let a := rx s o.xa
  let code := a.toNat % 8
  if 5 < code then raise s 9 0x0b a
  else
    let (s', m, bad) := waitmRead s (a &&& ~~~7#64)
    if bad then .next (poisonEnd s (a &&& ~~~7#64))
    else if waitmTest code m (rx s o.xb) then .next (retire c (setX (waitmNote s' (a &&& ~~~7#64)) o.xd m))
    else .next (holdFor s' .waitm (.waitm c o))

/-! Barriers (R310). -/

/-- B of R310, by the cores that the gang's harts hold. -/
def barrierTime (g : Gang) : Nat :=
  let last := g.base + g.launch.nhart * g.launch.tph - 1
  if clusterOfCore g.base = clusterOfCore last then 24
  else if dieOfCore g.base = dieOfCore last then 160
  else 160 + 120 * dieHops 0 (dieOfCore last)

/-- Once every hart waits in its GBAR or has exited, the barrier completes B cy after the last arrival, which the performance of
earlier accesses may delay. -/
def barrierCheck (s : State) (g : Nat) : State :=
  let hs := gangHarts s g
  if hs.any (fun h => waitsIn h .gbar) && hs.all (fun h => waitsIn h .gbar || h.exit.isSome) then
    let last := hs.foldl (fun m h => if waitsIn h .gbar then max m h.accessEnd else m) s.cyc
    schedule s (last + barrierTime (gangOf s g)) (.barrierComplete g)
  else s

/-- The cy by which the last hart must arrive at the barrier that a hart of a lockstep gang waits in: its scheduled completion, which
the slot plan gives, less B (R310). -/
def barrierSlot (g : Gang) (h : Hart) : Nat := g.tstart + Config.planBarrier g.id h.arrived - barrierTime g

/-- Every hart of the gang waits in GBAR or has exited. -/
def allArrived (s : State) (g : Nat) : Bool := (gangHarts s g).all (fun h => waitsIn h .gbar || h.exit.isSome)

/-- In lockstep mode a hart that waits in GBAR takes a timing trap where the last arrival does not come in time (R310). -/
def barrierWatch (s : State) : State :=
  if lockstep s && !allArrived s s.h.gang
  then schedule s (max s.cyc (barrierSlot (myGang s) s.h)) (.timingTrap s.h.gang s.h.idx) else s

def execGbar (c : Ctl) (o : X3) (s : State) : Out :=
  .next (barrierWatch (barrierCheck (modH (holdFor s .gbar (.gbar c o)) (fun h => { h with arrived := h.arrived + 1 })) s.h.gang))

/-- The byte count and stall count of a waiting GBAR. -/
def gbarNext (h : Hart) (cyc : Nat) : Hart :=
  match h.wait with
  | some w => match w.instr with
    | .gbar c _ =>
      { h with wait := none, pc := h.pc + BitVec.ofNat 64 c.bytes, issued := true, strip := [], stripReads := [], streams := []
               next := max h.next (cyc + 1 + c.sc.toNat) }
    | _ => h
  | none => h

/-- BARRIER_COMPLETE: every waiting hart goes on, its accesses before the barrier ordered before those after it (R118). -/
def execBarrierComplete (gang : Nat) (s : State) : Out :=
  let hs := gangHarts s gang
  if hs.all (fun h => waitsIn h .gbar || h.exit.isSome) then
    let s := hs.foldl (fun s h => match h.wait with
      | some w => sampleEvent s h.core 3 (s.cyc - w.since)
      | none => s) s
    .next (modHarts s (fun h => h.gang == gang && waitsIn h .gbar) (fun h => gbarNext h s.cyc))
  else .next s

/-! Triggers (R311, R318). -/

/-- The gang's early trigger fires once every hart has triggered or exited; dependants are then looked at. -/
def checkFired (s : State) (g : Nat) : State :=
  let gg := gangOf s g
  if !gg.fired && (gangHarts s g).all (fun h => h.triggered || h.exit.isSome) then
    schedule (modGang s g (fun x => { x with fired := true })) s.cyc (.placementPass gg.part)
  else s

def execEtrig (c : Ctl) (_o : X3) (s : State) : Out :=
  .next (checkFired (retire c (modH s (fun h => { h with triggered := true }))) s.h.gang)

/-! Landings and drowsy rows. -/

/-- Windows whose last cy has passed. -/
def landWindows (cyc : Nat) (h : Hart) : Hart :=
  { h with exposed := h.exposed.filter (fun w => decide (cyc ≤ w.upto))
           reading := h.reading.filter (fun w => decide (cyc ≤ w.upto)) }

/-- RESULT_LANDING: the results of hart in hand whose windows have passed have landed (R41). -/
def execResultLanding (_n : Nat) (s : State) : Out := .next (modH s (landWindows s.cyc))

/-- LOAD_DATA_RETURN: a late load lands, and the scalar unit it held is free (R151). -/
def execLoadDataReturn (s : State) : Out :=
  .next (modH s (fun h =>
    let h := landWindows s.cyc h
    if h.units.scalar ≤ s.cyc then { h with units := { h.units with scalar := s.cyc } } else h))

/-- ROW_DROWSY (R45). -/
def execRowDrowsy (core row : Nat) (s : State) : Out :=
  .next (if rowIdle s core row (startOf s core) then { s with drowsy := sset false s.drowsy (core * 256 + row) true } else s)

/-- REPLICA_APPLY: a die applies or discards a write that has reached it (R126). -/
def execReplicaApply (n : Nat) (s : State) : Out :=
  .next (match s.replicas.find? (fun r => r.n == n) with
    | some r => applyStamped { s with replicas := s.replicas.filter (fun x => x.n != n) } r.pa r.bytes r.stamp
    | none => s)

end Sys2Proof.Machine
end

