-- ==== Sys2Proof/Machine/Launch.lean ====
section
/-! DEFINITION. The launch block and the slot-plan header: reading and checking (R313, R320, R376). -/
namespace Sys2Proof.Machine

/-- The lowest die of a partition, from which the root and the host reach its virtual space (log 42). -/
def lowestDie (s : State) (part : Nat) : Nat := ((List.range 4).find? (fun d => partOfDie s d == some part)).getD 0

/-- The clusters of a partition, ascending. -/
def partClusters (s : State) (part : Nat) : List Nat :=
  (List.range 48).filter (fun c => partOfDie s (dieOfCluster c) == some part)

/-- Bits `hi` to `lo` of a dword of a block. -/
def blockField (d : List Word) (off hi lo : Nat) : Nat := (d.getD (off / 8) 0).toNat / 2 ^ lo % 2 ^ (hi - lo + 1)

/-- The templates that TMASK names, ascending. -/
def maskedTemplates (d : List Word) : List Nat :=
  (List.range 256).filter (fun n => (d.getD (0xc0 / 8 + n / 64) 0).getLsbD (n % 64))

/-- A register-map entry (R81). -/
def mapEntry (d : List Word) (n : Nat) : Nat := blockField d (0x100 + 8 * (n / 2)) (32 * (n % 2) + 31) (32 * (n % 2))

/-- A launch block as read. -/
def Launch.ofDwords (d : List Word) : Launch :=
  let f := blockField d
  { img := d.getD 0 0, entry := f 8 63 32, imgLen := f 8 31 0, saveTb := f 0x10 39 39 == 1, bfill := f 0x10 38 38 == 1
    prio := f 0x10 37 36, tchk := f 0x10 35 35 == 1, lockstep := f 0x10 34 34 == 1, foldh := 2 ^ f 0x10 33 32
    tph := f 0x10 31 16, nhart := f 0x10 15 0
    preds := (List.range 4).map (fun i => (f (0x18 + 8 * i) 33 32, f (0x18 + 8 * i) 31 0))
    mbox := d.getD 7 0, tvec := d.getD 8 0 &&& ~~~3#64, back := d.getD 9 0, bsize := f 0x50 47 0, save := d.getD 11 0
    ssize := f 0x60 47 0, sbase := f 0x68 23 0, scount := f 0x68 28 24, scap := f 0x68 46 32, asid := f 0x70 15 0
    regmap := (List.range 64).map (fun n => BitVec.ofNat 32 (mapEntry d n)), xinit := (d.drop 64).take 32
    tbs := (d.drop 96).take 64
    templates := (List.range (maskedTemplates d).length).map (fun i =>
      ((maskedTemplates d).getD i 0, (d.drop (160 + 8 * i)).take 8))
    plan := Option.none }

/-- A hart with the declarations of the register map and their backing slots (R81, R174). -/
def declareAll (h : Hart) (map : List (BitVec 32)) : Hart :=
  (List.range 64).foldl (fun h n => declare h n (map.getD n 0).toNat) h

/-- The byte offsets of the offending fields of a block, for gang ID `gid` of a partition with `cores` cores (R313). -/
def blockFaults (d : List Word) (gid cores : Nat) : List Nat :=
  let f := blockField d
  let l := Launch.ofDwords d
  let scap := f 0x68 46 32
  let at' := fun (bad : Bool) (off : Nat) => if bad then [off] else []
  let rsv := fun (off hi lo : Nat) => at' (f off hi lo != 0) (off + lo / 8)
  at' (f 0 8 0 != 0) 0 ++ at' (l.lockstep && decide (65536 < l.imgLen)) 8 ++
  at' (l.entry % 4 != 0 || decide (l.imgLen ≤ l.entry)) 0x0c ++
  at' (l.nhart == 0 || decide (384 < l.nhart) || decide (cores < l.nhart * l.tph)) 0x10 ++
  at' (l.tph == 0 || decide (384 < l.tph)) 0x12 ++ at' (l.bfill && l.lockstep) 0x14 ++ rsv 0x10 63 40 ++
  (List.range 4).flatMap (fun i => at' (f (0x18 + 8 * i) 31 0 == gid) (0x18 + 8 * i) ++ rsv (0x18 + 8 * i) 63 34) ++
  at' (f 0x38 5 0 != 0) 0x38 ++ at' (f 0x48 15 0 != 0) 0x48 ++
  at' (f 0x50 15 0 != 0 || decide (l.bsize < (declareAll { Hart.none with slots := l.tph } l.regmap).slotEnd)) 0x50 ++
  rsv 0x50 63 48 ++ at' (f 0x58 15 0 != 0) 0x58 ++ rsv 0x60 63 48 ++
  at' (l.sbase % 512 != 0 || (l.scount != 0 && decide (2 ^ 24 < l.sbase + 512 + 8 * l.scount * scap))) 0x68 ++
  at' (decide (16 < l.scount)) 0x6b ++ at' (f 0x68 31 29 != 0) 0x6b ++
  at' (l.scount != 0 && (scap % 16 != 0 || decide (scap < 16) || decide (16384 < scap))) 0x6c ++
  rsv 0x68 63 47 ++ rsv 0x70 63 16 ++ at' (l.lockstep && f 0x78 63 0 == 0) 0x78 ++
  (List.range 8).flatMap (fun i => at' (f (0x80 + 8 * i) 63 0 != 0) (0x80 + 8 * i)) ++
  (List.range 4).flatMap (fun i => at' (f (0xe0 + 8 * i) 63 0 != 0) (0xe0 + 8 * i)) ++
  (List.range 64).flatMap (fun n => at' (entryBad (mapEntry d n) || tableTooBig (VReg.ofEntry (mapEntry d n))) (0x100 + 4 * n)) ++
  (List.range 64).flatMap (fun n => at' (f (0x300 + 8 * n) 27 25 != 0) (0x300 + 8 * n + 3))

/-- The slot-plan header (R320) and the offsets of its offending fields. -/
def planOf (d : List Word) : Plan × List Nat :=
  let f := blockField d
  (⟨f 0 63 32, f 0 31 0, f 8 8 0, d.getD 2 0, f 0x18 31 0⟩,
   (if f 0 63 32 == 0 || f 0 63 32 % 64 != 0 then [4] else []) ++ (if f 8 63 9 != 0 then [9] else []) ++
   (if f 0x18 63 32 != 0 then [0x1c] else []))

/-- What the check of a launch comes to: the block, or a code of class 0x13 with its syndrome (R376). -/
inductive LaunchCheck where
  | ok (l : Launch)
  | fault (code synd : Nat) (l : Launch)

/-- Checks a launch at `va` in the space of `asid`. -/
def checkLaunch (s : State) (part asid va gid : Nat) : LaunchCheck :=
  let die := lowestDie s part
  if va % 64 ≠ 0 then .fault 1 0 Launch.none
  else match vaDwords s part asid die va 160 with
  | .error e => .fault 4 e.va Launch.none
  | .ok d0 =>
    match vaDwords s part asid die (va + 0x500) (8 * (maskedTemplates d0).length) with
    | .error e => .fault 4 e.va (Launch.ofDwords d0)
    | .ok d1 =>
      let l := Launch.ofDwords (d0 ++ d1)
      match (blockFaults d0 gid (8 * (partClusters s part).length)).min? with
      | some off => .fault 1 off l
      | none =>
        if !l.lockstep then .ok l
        else match vaDwords s part l.asid die (d0.getD 15 0).toNat 8 with
        | .error e => .fault 4 e.va l
        | .ok pd =>
          let (p, bad) := planOf pd
          if p.stver ≠ s.stver then .fault 2 s.stver l
          else if p.pbase % 8 ≠ 0 ∨ partOfDie s (dieOfCore p.pbase) ≠ some part then .fault 3 p.pbase l
          else match bad.min? with
            | some off => .fault 6 off l
            | none => .ok { l with plan := some p }

end Sys2Proof.Machine
end

