-- ==== Sys2Proof/Machine/Scheduler.lean ====
section
/-! DEFINITION. The gang scheduler (R312 to R323, R352, R362, R376, R388): requests, dependences, placement, prologue, start,
pre-emption, exit, retirement and the end of a faulted gang. -/
namespace Sys2Proof.Machine

/-! Gangs by identity. -/

def gangKey (part id : Nat) : Nat := part * 2 ^ 32 + id

def Gang.ended (g : Gang) : Bool := g.st == .retired || g.st == .faulted

/-- The gang of a key: the live one, else its ended record. -/
def anyGang (s : State) (key : Nat) : Option Gang :=
  match findGang s key with
  | some g => some g
  | none => s.gangs.find? (fun g => g.id == key)

/-- A gang of the partition has ended, the last of its count: a record stays readable until 64 later gangs have (R315). -/
def pruneEnded (s : State) (part : Nat) : State :=
  let last := (partAt s part).endCount
  { s with gangs := s.gangs.filter (fun g => !(g.part == part && g.ended && decide (g.endNo + 64 ≤ last))) }

/-- Counts the end of a gang of the partition. -/
def countEnd (s : State) (part : Nat) : State := modPart s part (fun p => { p with endCount := p.endCount + 1 })

/-- A gang becomes queued or clusters are released: a placement pass is due (R317). -/
def passNeeded (s : State) (part : Nat) : State := modPart s part (fun p => { p with passDue := true })

/-- The harts of a gang leave the device. -/
def dropHarts (s : State) (key : Nat) : State :=
  { s with h := if s.h.gang == key then Hart.none else s.h, others := s.others.filter (fun h => h.gang != key) }

/-- The gang ends in state `st`: its record goes to the end of the list, its clusters are free, its harts gone. -/
def endRecord (s : State) (g : Gang) (st : GangState) : State :=
  let hs := gangHarts s g.id ++ g.harts
  let exits := hs.foldl (fun m h => match h.exit with
    | some v => sset 0 m h.idx v
    | none => m) g.exits
  let s := countEnd s g.part
  let e := { g with st, clusters := 0, claim := none, hold := none, saved := none, preempt := false, exits, harts := []
                    exited := (hs.filter (fun h => h.exit.isSome)).length, endNo := (partAt s g.part).endCount }
  let gone := fun (x : Gang) => x.id == g.id && !x.ended
  let s := dropHarts { s with gangs := s.gangs.filter (fun x => !gone x) ++ [e] } g.id
  let s := if g.clusters = 0 then s else passNeeded s g.part
  schedule (pruneEnded s g.part) s.cyc (.placementPass g.part)

/-! What belongs to a gang: the events of the calendar that its end removes and its hold delays. -/

def ownedBy (s : State) (key : Nat) (e : Event) : Bool :=
  let chanOf := fun chan => s.copies.any (fun q => q.gang == key && q.chan == chan)
  match e with
  | .copyStart chan | .kvwalkCarriageStart chan => chanOf chan
  | .chunkLand chan _ | .chunkRetry chan _ => s.copies.any (fun q => q.gang == key && q.chan == chan && q.started)
  | .followOnSweep core | .sweepDone core => s.sweeps.any (fun w => w.core == core && w.gang == key)
  | .arrayRampUpEnd core | .arrayRampDown core | .arrayRampDownEnd core | .burstHoldEnd core =>
    s.gangs.any (fun g => g.id == key && g.clusters != 0 && decide (g.base ≤ core) && decide (core < g.base + 8 * g.clusters))
  | .coachOpComplete g _ | .waitComplete g _ | .timingRestart g _ | .timingTrap g _ | .barrierComplete g => g == key
  | _ => false

def dropEvents (s : State) (key : Nat) : State := { s with calendar := s.calendar.filter (fun e => !ownedBy s key e.2) }

/-! Dependences (R319). -/

/-- The gang that a dependence names is known to the root. -/
def depKnown (s : State) (part : Nat) (d : Nat × Nat) : Bool := (anyGang s (gangKey part d.2)).isSome

def depMet (s : State) (part : Nat) (d : Nat × Nat) : Bool :=
  d.1 == 0 || (match anyGang s (gangKey part d.2) with
    | none => false
    | some p => match d.1 with
      | 1 => p.st == .retired
      | 2 => p.fired || p.st == .retired
      | _ => p.ended)

/-- A dependence that can no longer be met. -/
def depDead (s : State) (part : Nat) (d : Nat × Nat) : Bool :=
  match anyGang s (gangKey part d.2) with
  | some p => (d.1 == 1 && p.st == .faulted) || (d.1 == 2 && p.st == .faulted && !p.fired)
  | none => false

/-- A launch record of class 0x13 (R376). -/
def launchRecord (s : State) (g : Gang) (code synd : Nat) (own : Bool) : Record :=
  { (Record.blank s).about g with
    agent := 5, fin := true, cls := 0x13, code := BitVec.ofNat 8 code, pc := g.launchPc, synd := BitVec.ofNat 64 synd, live := own }

/-- The dependences of a gang that are met now or have been before, in the order of its launch block. -/
def depsMet (s : State) (g : Gang) : List Bool :=
  (List.range g.launch.preds.length).map (fun i => g.metDeps.getD i false || depMet s g.part (g.launch.preds.getD i (0, 0)))

/-- A waiting gang is looked at once: faulted, queued, or still waiting. A dependence once met stays met (R319). -/
def settleGang (s : State) (g : Gang) : State :=
  let met := depsMet s g
  let open_ := (List.range met.length).filterMap (fun i => if met.getD i true then none else g.launch.preds[i]?)
  match open_.find? (depDead s g.part) with
  | some d => endRecord (addRecord s (launchRecord s g 5 d.2 true)) g .faulted
  | none =>
    if open_.isEmpty then passNeeded (modGang s g.id (fun x => { x with st := .queued, metDeps := met })) g.part
    else modGang s g.id (fun x => { x with metDeps := met })

/-- Looks at the waiting gangs until nothing changes. -/
def settleDeps : Nat → State → Nat → State
  | 0, s, _ => s
  | n + 1, s, part =>
    let s := (s.gangs.filter (fun g => g.part == part && g.st == .waiting)).foldl (fun s g => settleGang s g) s
    settleDeps n s part

/-! Acceptance (R312, R314, R315, R376). -/

def queueLength (s : State) (part prio : Nat) : Nat :=
  (s.gangs.filter (fun g => g.part == part && (g.st == .queued || g.st == .waiting) && g.launch.prio == prio)).length

/-- The gang of an accepted launch. -/
def Gang.accepted (part id seq : Nat) (l : Launch) (pc : Word) (st : GangState) : Gang :=
  { Gang.none with id := gangKey part id, part, st, seq, launch := l, launchPc := pc }

/-- A launch reaches the root: the result code and what follows from it. -/
def acceptLaunch (s : State) (part asid : Nat) (va op pc : Word) : State × Nat :=
  let id := op.toNat
  if 2 ^ 32 ≤ id ∨ id = 0 ∨ (findGang s (gangKey part id)).isSome then (s, 2)
  else
    let seq := (partAt s part).seq
    let add := fun (l : Launch) (st : GangState) =>
      let s := { s with gangs := s.gangs.filter (fun g => g.id != gangKey part id) ++ [Gang.accepted part id seq l pc st] }
      modPart s part (fun p => { p with seq := seq + 1 })
    match checkLaunch s part asid va.toNat id with
    | .fault code synd l =>
      let g := Gang.accepted part id seq l pc .faulted
      let s := countEnd (add l .faulted) part
      let no := (partAt s part).endCount
      let s := pruneEnded { s with gangs := s.gangs.map (fun x =>
        if x.id == gangKey part id && x.ended then { x with endNo := no } else x) } part
      (schedule (addRecord s (launchRecord s g code synd false)) s.cyc (.placementPass part), 0)
    | .ok l =>
      if 64 ≤ queueLength s part l.prio then (s, 1)
      else
        let known := l.preds.map (fun d => !depKnown s part d)
        let s := modGang (add l .waiting) (gangKey part id) (fun g => { g with metDeps := known })
        (schedule (settleDeps s.gangs.length s part) s.cyc (.placementPass part), 0)

/-- The GQRY code of a state (R312). -/
def GangState.code : GangState → Nat
  | .queued => 1 | .waiting => 2 | .placed => 3 | .running => 4 | .preempted => 5 | .draining => 6 | .retired => 7 | .faulted => 8

/-- The harts of a gang that have exited. -/
def exitCount (s : State) (g : Gang) : Nat :=
  if g.ended then g.exited
  else ((gangHarts s g.id ++ g.harts).filter (fun h => h.exit.isSome)).length

/-- The answer of a query (R312). -/
def queryAnswer (s : State) (part : Nat) (a b : Word) : Nat :=
  match anyGang s (gangKey part (a.toNat % 2 ^ 32)) with
  | none => 0
  | some g =>
    if b = -1 then g.st.code + (g.launch.nhart - exitCount s g) % 2 ^ 16 * 2 ^ 16
    else match (gangHarts s g.id ++ g.harts).find? (fun h => h.idx == b.toNat) with
      | some h => (h.exit.getD 0).toNat
      | none => if g.ended then (sget 0 g.exits b.toNat).toNat else 0

/-! GLAUNCH and GQRY. -/

/-- Sends a request to the root. -/
def request (s : State) (query : Bool) (o : X3) (i : Instr) : State :=
  let due := s.h.issueCy + 100 + 60 * dieOfCore s.h.core
  let r : Request :=
    { n := s.fresh, query, part := (myGang s).part, asid := (myGang s).launch.asid, host := false, gang := s.h.gang
      hart := s.h.idx, core := s.h.core, pc := s.h.pc, a := rx s o.xa, b := rx s o.xb, due }
  let s := { s with requests := s.requests ++ [r], fresh := s.fresh + 1 }
  holdFor (schedule s due (if query then .gqryArrival r.n else .launchArrival r.n)) (if query then .query else .launch) i

def execGlaunch (c : Ctl) (o : X3) (s : State) : Out := .next (request s false o (.glaunch c o))
def execGqry (c : Ctl) (o : X3) (s : State) : Out := .next (request s true o (.gqry c o))

/-- The root's answer goes back to the hart; X[XD] lands when the hart's wait completes. -/
def answer (s : State) (r : Request) (v : Nat) : State :=
  let s := modHarts s (isHart r.gang r.hart) (fun h =>
    { h with wait := h.wait.map (fun w => { w with reply := some (BitVec.ofNat 64 v) }) })
  schedule s (s.cyc + 100 + 60 * dieOfCore r.core) (.waitComplete r.gang r.hart)

/-- Of the launches that have arrived, the earliest, and of one cy the one from the lowest core (R314). -/
def firstLaunch (s : State) : Option Request :=
  (s.requests.filter (fun r => !r.query && decide (r.due ≤ s.cyc))).foldl (fun (b : Option Request) (r : Request) => match b with
    | some q => if r.due < q.due ∨ (r.due = q.due ∧ r.core < q.core) then some r else some q
    | none => some r) none

/-- LAUNCH_ARRIVAL. -/
def execLaunchArrival (_n : Nat) (s : State) : Out :=
  .next (match firstLaunch s with
    | none => s
    | some r =>
      let s := { s with requests := s.requests.filter (fun x => x.n != r.n) }
      let (s, v) := acceptLaunch s r.part r.asid r.a r.b r.pc
      answer s r v)

/-- GQRY_ARRIVAL. -/
def execGqryArrival (n : Nat) (s : State) : Out :=
  .next (match s.requests.find? (fun r => r.n == n && r.query) with
    | none => s
    | some r =>
      if s.cyc < r.due then s
      else answer { s with requests := s.requests.filter (fun x => x.n != n) } r (queryAnswer s r.part r.a r.b))

/-! Placement (R317, R321). -/

def clustersNeeded (g : Gang) : Nat := ceilDiv (g.launch.nhart * g.launch.tph) 8

/-- Whether a gang holds package cluster `c`. -/
def Gang.holds (g : Gang) (c : Nat) : Bool :=
  g.clusters != 0 && decide (g.base / 8 ≤ c) && decide (c < g.base / 8 + g.clusters)

/-- Whether a gang claims package cluster `c` (R321). -/
def Gang.claims (g : Gang) (c : Nat) : Bool :=
  match g.claim with
  | some b => decide (b ≤ c) && decide (c < b + clustersNeeded g)
  | .none => false

def planClass (g : Gang) : Word := match g.launch.plan with | some p => p.cls | none => 0

/-- The first clusters that `place` would accept, were the clusters of the gangs that `free` accepts free. -/
def blocksFor (s : State) (g : Gang) (free : Gang → Bool) : List Nat :=
  let n := clustersNeeded g
  let mine := partClusters s g.part
  let cands := match g.launch.lockstep, g.launch.plan with
    | true, some p => [p.pbase / 8]
    | _, _ => mine
  let others := s.gangs.filter (fun x => x.id != g.id && !x.ended)
  let classes := others.all (fun x => x.clusters == 0 || x.part != g.part || free x || !x.launch.lockstep ||
    (planClass x &&& planClass g) == 0)
  cands.filter (fun c => (!g.launch.lockstep || classes) && (List.range n).all (fun i =>
    mine.contains (c + i) && others.all (fun x => !(x.holds (c + i) && !free x) && !x.claims (c + i))))

/-- Places a gang on `n` clusters from `c`. -/
def placeGang (s : State) (g : Gang) (c : Nat) : State :=
  let s := modGang s g.id (fun x => { x with st := .placed, base := 8 * c, clusters := clustersNeeded x, claim := none })
  schedule s s.cyc (.prologue g.id)

/-- A key of R321: fewer victims, then lower highest priority, then a younger oldest victim, then a lower cluster. -/
def keyLess (a b : Nat × Nat × Nat × Nat) : Bool :=
  decide (a.1 < b.1) || (a.1 == b.1 && (decide (a.2.1 < b.2.1) || (a.2.1 == b.2.1 &&
    (decide (b.2.2.1 < a.2.2.1) || (a.2.2.1 == b.2.2.1 && decide (a.2.2.2 < b.2.2.2))))))

/-- The gangs that hold a cluster of a block and may be victims. -/
def victimsOf (s : State) (g : Gang) (c : Nat) : List Gang :=
  s.gangs.filter (fun x => x.part == g.part && x.st == .running && decide (x.launch.prio < g.launch.prio) &&
    (List.range (clustersNeeded g)).any (fun i => x.holds (c + i)))

def blockKey (s : State) (g : Gang) (c : Nat) : Nat × Nat × Nat × Nat :=
  let v := victimsOf s g c
  (v.length, v.foldl (fun m x => max m x.launch.prio) 0, v.foldl (fun m x => min m x.seq) (2 ^ 64), c)

/-- The block that R321 picks. -/
def pickBlock (s : State) (g : Gang) : Option Nat :=
  let may := fun (x : Gang) => x.part == g.part && x.st == .running && decide (x.launch.prio < g.launch.prio)
  (blocksFor s g may).foldl (fun b c => match b with
    | none => some c
    | some d => if keyLess (blockKey s g c) (blockKey s g d) then some c else some d) none

/-- The blocks of 512 bytes of cluster `c` that lie in enabled tile-buffer ranges. -/
def enabledBlocks (s : State) (c : Nat) : Nat :=
  let rs := (List.range 64).filterMap (fun t =>
    let b := sget TileBuf.init s.bufs (c * 64 + t)
    if b.en then some (b.base, b.base + b.chunks) else none)
  if rs.isEmpty then 0
  else ((List.range (2 ^ 15)).filter (fun k => rs.any (fun r => decide (r.1 ≤ k) && decide (k < r.2)))).length

/-- The bytes of the cluster scratchpads that a save writes: enabled tile-buffer ranges only with SAVETB (R322). -/
def saveScratchBytes (s : State) (g : Gang) : Nat :=
  (List.range g.clusters).foldl (fun n i =>
    n + 2 ^ 24 - (if g.launch.saveTb then 0 else 512 * enabledBlocks s (g.base / 8 + i))) 0

/-- The bytes that a save needs: those of the scratchpads, and for the other parts, whose layout is not given, a free value (log 10). -/
def saveBytes (s : State) (g : Gang) : Nat :=
  saveScratchBytes s g + (Config.freeBits s.free (2 ^ 70 + g.id)).toNat

/-- Every running hart of a gang stops at its step boundary (R46, R375). -/
def stopGang (s : State) (gang : Nat) : State :=
  modHarts s (fun h => h.gang == gang && h.run == .running)
    (fun h => stopHart s.cyc (Config.freeBits s.free (2 ^ 117 + 512 * s.cyc + h.idx)).toNat h)

/-- A victim: pre-empted, or ended where its save area is too small (R362). -/
def makeVictim (s : State) (v : Gang) : State :=
  if v.launch.ssize < saveBytes s v then
    let r := { (Record.blank s).about v with
      agent := 5, fin := true, cls := 0x14, code := 1, synd := BitVec.ofNat 64 (saveBytes s v) }
    endGang (addRecord s r) v.id
  else schedule (modGang (stopGang s v.id) v.id (fun x => { x with st := .preempted, preempt := true, haltCy := s.cyc })) s.cyc
    (.preemptionStop v.id)

/-- One gang of the pass, a claimed block tried by the same rule as any other (R317, R321): `stop` once this priority and those below are over, `lock` once an unplaced gang is lockstep. -/
def tryPlace (acc : State × Bool × Bool) (id : Nat) : State × Bool × Bool :=
  let (s, stop, lock) := acc
  match findGang s id with
  | none => acc
  | some g =>
    let unplaced := lock || g.launch.lockstep
    match g.claim with
    | some c =>
      if stop && !(g.launch.bfill && !lock) then (s, stop, unplaced)
      else if (blocksFor s g (fun _ => false)).contains c then (placeGang s g c, stop, lock)
      else if (List.range (clustersNeeded g)).all (fun i => (partClusters s g.part).contains (c + i)) then (s, stop, unplaced)
      else (modGang s g.id (fun x => { x with claim := none }), stop, unplaced)
    | none =>
      if stop && !(g.launch.bfill && !lock) then (s, stop, unplaced)
      else match blocksFor s g (fun _ => false) with
        | c :: _ => (placeGang s g c, stop, lock)
        | [] =>
          if stop then (s, stop, unplaced)
          else match pickBlock s g with
            | some c =>
              let vs := victimsOf s g c
              if vs.isEmpty then (s, true, unplaced)
              else (vs.foldl makeVictim (modGang s g.id (fun x => { x with claim := some c })), stop, unplaced)
            | none => (s, true, unplaced)

/-- The queued gangs of a partition, priority 3 first, then by launch sequence. -/
def queueOrder (s : State) (part : Nat) : List Nat :=
  let q := s.gangs.filter (fun g => g.part == part && g.st == .queued)
  [3, 2, 1, 0].flatMap (fun p =>
    ((q.filter (fun g => g.launch.prio == p)).mergeSort (fun a b => decide (a.seq ≤ b.seq))).map (fun g => g.id))

/-- PLACEMENT_PASS: the dependences are looked at, and a pass runs where a gang has become queued or clusters were released (R317,
R319). -/
def execPlacementPass (part : Nat) (s : State) : Out :=
  let s := settleDeps s.gangs.length s part
  .next (if (partAt s part).passDue then
      ((queueOrder s part).foldl tryPlace (modPart s part (fun p => { p with passDue := false }), false, false)).1
    else s)

/-! The prologue (R320, R323). -/

/-- Replaces the part of a table from key `lo` over `n` keys. -/
def refill {α : Type} (m : Sparse α) (lo n : Nat) (new : Sparse α) : Sparse α := ssplice m lo n new

/-- Armed errors that the prologue's writes of a gang's clusters meet (R424). -/
def strikeClusters (g : Gang) (s : State) : State :=
  let inCores := fun (k : Nat) => decide (g.base ≤ k) && decide (k < g.base + 8 * g.clusters)
  let hit := fun (a : Armed) =>
    match a.space with
    | 0 => inCores (a.addr / 2 ^ 20)
    | 1 => decide (clusterBase (g.base / 8) ≤ 8 * a.addr) && decide (8 * a.addr < clusterBase (g.base / 8 + g.clusters))
    | 2 => inCores (a.addr / 256)
    | _ => false
  (s.armed.filter hit).foldl (fun s a => strike s a.space a.addr) s

/-- Zeroes what a gang's clusters hold: lanes, accumulators, tables, scratchpads, templates, buffers, CVTAB, poison, and the cores'
monitor units, whose CSRs take their reset values (R169, R320). -/
def zeroClusters (s : State) (g : Gang) : State :=
  let b := g.base
  let n := 8 * g.clusters
  let c := b / 8
  strikeClusters g { s with
    planes := refill s.planes (b * 65536) (n * 65536) [], acc := refill s.acc (b * 65536) (n * 65536) []
    tables := refill s.tables (b * 4096) (n * 4096) [], ramps := refill s.ramps b n []
    poisonLane := refill s.poisonLane (b * 2 ^ 20) (n * 2 ^ 20) [], poisonAcc := refill s.poisonAcc (b * 256) (n * 256) []
    mem := refill s.mem (clusterBase c) (g.clusters * 2 ^ 24) []
    poisonWord := refill s.poisonWord (clusterBase c / 8) (g.clusters * 2 ^ 21) []
    templates := refill s.templates (c * 2048) (g.clusters * 2048) [], bufs := refill s.bufs (c * 64) (g.clusters * 64) []
    cvtab := refill s.cvtab (4 * c * 256) (4 * g.clusters * 256) [], icache := refill s.icache (b * 2 ^ 62) (n * 2 ^ 62) []
    monitors := refill s.monitors (16 * b) (16 * n) []
    drowsy := refill s.drowsy (b * 256) (n * 256) [], touched := refill s.touched (b * 256) (n * 256) [] }

/-- Writes the buffer configurations and the templates of the launch block in every held cluster. -/
def loadClusters (s : State) (g : Gang) : State :=
  (List.range g.clusters).foldl (fun s i =>
    let c := g.base / 8 + i
    let s := (List.range 64).foldl (fun s n => setBuf s c n (TileBuf.configure (g.launch.tbs.getD n 0))) s
    g.launch.templates.foldl (fun s t => { s with templates := putDwords s.templates (c * 2048 + 8 * t.1) t.2 }) s) s

/-- A hart at launch (R165, R169, R313). -/
def launchHart (g : Gang) (k : Nat) : Hart :=
  let l := g.launch
  let x : Vector Word 32 := Vector.ofFn (fun i => if i.val = 0 then 0 else l.xinit.getD i.val 0)
  let csr := { Csrs.init with fold := l.foldh, tchk := l.tchk, tvec := l.tvec, rpc := l.img + BitVec.ofNat 64 l.entry }
  let h := { Hart.none with gang := g.id, idx := k, core := g.base + k * l.tph, slots := l.tph
                            pc := l.img + BitVec.ofNat 64 l.entry, x, csr }
  declareAll h l.regmap

/-- Words of the image from word address `w` up to `last`, 128 at a time; an unreadable part stays unfilled (R366). -/
def imageWords (s : State) (part asid die : Nat) : Nat → Nat → Nat → Sparse (BitVec 33)
  | 0, _, _ => []
  | n + 1, w, last =>
    if last ≤ w then []
    else
      let k := min 128 (last - w)
      let rest := imageWords s part asid die n (w + k) last
      match vaRead s part asid die (4 * w) (4 * k) with
      | .error _ => rest
      | .ok (_, bs) => (List.range k).map (fun i =>
          (w + i, BitVec.ofNat 33 (2 ^ 32 + leNat ((bs.drop (4 * i)).take 4)))) ++ rest

/-- The instruction cache of a core makes room for a line: while its 64 KiB are full, one line goes, which one the spec leaves open
(R141, log 7). -/
def evictLine (s : State) (core : Nat) : State :=
  let ws := sslice s.icache (core * 2 ^ 62) (2 ^ 62)
  if ws.length + 16 ≤ 16384 then s
  else match ws[(Config.freeBits s.free (2 ^ 67)).toNat % ws.length]? with
    | some e => { s with icache := sdrop s.icache (fun k => k / 16 == (core * 2 ^ 62 + e.1) / 16), free := s.free + 1 }
    | none => s

/-- Fills a home core's instruction cache with words of the image. -/
def fillIcache (s : State) (core part asid w last : Nat) : State :=
  let new := imageWords s part asid (dieOfCore core) ((last - w) / 128 + 1) w last
  { s with icache := refill s.icache (core * 2 ^ 62 + w) (last - w) (new.map (fun e => (e.1 - w, e.2))) }

def lockFill (s : State) (g : Gang) : State :=
  let w := g.launch.img.toNat / 4
  (List.range g.launch.nhart).foldl (fun s k =>
    fillIcache s (g.base + k * g.launch.tph) g.part g.launch.asid w (w + ceilDiv g.launch.imgLen 4)) s

/-- The period to which TSTART keeps (R320, R323). -/
def gangPeriod (g : Gang) : Nat := match g.launch.lockstep, g.launch.plan with | true, some p => p.period | _, _ => 64

/-- The first multiple of `m` after `c`. -/
def nextMultiple (m c : Nat) : Nat := (c / m + 1) * m

/-- The prologue of a fresh gang. -/
def freshPrologue (s : State) (g : Gang) : State :=
  let s := loadClusters (zeroClusters s g) g
  let t := nextMultiple (gangPeriod g) s.cyc
  let hs := (List.range g.launch.nhart).map (fun k =>
    let h := launchHart g k
    { h with next := t, restart := ⟨h.x, h.csr, [], t⟩ })
  let s := modGang { s with others := s.others ++ hs } g.id (fun x => { x with tstart := t })
  schedule (if g.launch.lockstep then lockFill s g else s) t (.gangStart g.id)

/-! Rebasing a timetable (R323, R372, R422). -/

def shiftUnits (d : Nat) (u : Units) : Units :=
  ⟨u.scalar + d, u.vector + d, u.matrix + d, u.word + d, u.transform + d, u.drain + d, u.tile + d⟩

/-- Every coming cy of a hart, `d` later. -/
def shiftHart (d : Nat) (h : Hart) : Hart :=
  let w := fun (x : Window) => { x with upto := x.upto + d }
  let a := fun (x : MemAccess) => { x with upto := x.upto + d }
  let later := fun (t : Nat) => if t = 0 then 0 else t + d
  { h with next := h.next + d, units := shiftUnits d h.units, lastLand := later h.lastLand, laneLand := later h.laneLand
           accessEnd := h.accessEnd + d, accesses := h.accesses.map a
           ports := h.ports.map (fun p => { p with since := p.since + d, upto := p.upto + d }), exposed := h.exposed.map w
           reading := h.reading.map w, flagsDue := h.flagsDue.map (fun x => (x.1 + d, x.2))
           stripReads := h.stripReads.map (fun r => { r with upto := r.upto + d })
           fences := h.fences.map (fun f => { f with early := f.early.map a })
           wait := h.wait.map (fun x => { x with since := x.since + d }) }

/-- The coming cys of an array's ramp, `d` later. -/
def shiftRamp (d : Nat) (r : Ramp) : Ramp := { r with upto := r.upto + d, holdTo := if r.holdTo = 0 then 0 else r.holdTo + d }

/-- Core `core` belongs to the clusters that a gang holds. -/
def Gang.ownsCore (g : Gang) (core : Nat) : Bool := decide (g.base ≤ core) && decide (core < g.base + 8 * g.clusters)

/-- Every coming event of a gang after `c0`, `d` later: the calendar, its copies' chunk cycles and starts, its arrays and sweeps, and
TSTART. -/
def shiftGang (s : State) (key c0 d : Nat) : State :=
  let cal := s.calendar.map (fun e => if ownedBy s key e.2 && decide (c0 < e.1) then (e.1 + d, e.2) else e)
  let late := fun (x : Nat) => if c0 < x ∧ x ≠ 2 ^ 64 then x + d else x
  let copies := s.copies.map (fun q =>
    if q.gang == key then
      { q with issueCy := if q.started then q.issueCy else q.issueCy + d
               chunks := q.chunks.map (fun c => { c with iss := late c.iss, due := late c.due, slot := late c.slot }) }
    else q)
  let g := gangOf s key
  let touched := s.touched.map (fun e => if g.ownsCore (e.1 / 256) then (e.1, e.2 + d) else e)
  let ramps := s.ramps.map (fun e => if g.ownsCore e.1 then (e.1, shiftRamp d e.2) else e)
  let engines := s.engines.map (fun e => if g.ownsCore e.1 then (e.1, e.2 + d) else e)
  let sweeps := s.sweeps.map (fun w => if w.gang == key then { w with ready := late w.ready, slot := late w.slot } else w)
  modGang { s with calendar := cal, copies, touched, ramps, engines, sweeps } key (fun g =>
    { g with tstart := g.tstart + d, resumeCy := g.resumeCy + d })

/-- The events that an array's ramp still has to come (R239, R243). -/
def rampEvents (s : State) (core : Nat) : State :=
  let r := rampAt s core
  let hold := fun (s : State) => if r.holdTo = 0 then s else schedule s (r.holdTo + 1) (.burstHoldEnd core)
  match r.st with
  | .cold => s
  | .up => hold (schedule s (r.upto + 1) (.arrayRampUpEnd core))
  | .down => schedule s (r.upto + 1) (.arrayRampDownEnd core)
  | .warm | .held => hold (schedule s (r.upto + 1) (.arrayRampDown core))

/-- Rows of a saved table go to the rows of their new core. -/
def placeRows {α : Type} (s : State) (base unit : Nat) (m : Sparse α) : Sparse α :=
  m.filterMap (fun e =>
    let core := base + e.1 / (256 * unit)
    let row := physRow s core (e.1 / unit % 256)
    if row < 256 then some (core * (256 * unit) + row * unit + e.1 % unit, e.2) else none)

/-- The place of a physical row among the unfenced rows of its core; none where it is fenced. -/
def rowRank (s : State) (core row : Nat) : Option Nat :=
  if sget false s.fencedRows (core * 256 + row) then none
  else some (row - ((List.range row).filter (fun r => sget false s.fencedRows (core * 256 + r))).length)

/-- Takes the rows of `n` cores from `base` into a table relative to them. -/
def takeRows {α : Type} (s : State) (base n unit : Nat) (m : Sparse α) : Sparse α :=
  (sslice m (base * (256 * unit)) (n * (256 * unit))).filterMap (fun e =>
    let core := e.1 / (256 * unit)
    (rowRank s (base + core) (e.1 / unit % 256)).map (fun r => (core * (256 * unit) + r * unit + e.1 % unit, e.2)))

/-- The byte ranges of the enabled buffers of cluster `i` of a saved state. -/
def savedRanges (m : Sparse TileBuf) : List (Nat × Nat) :=
  m.filterMap (fun e => if e.2.en then some (e.1 / 64 * 2 ^ 24 + e.2.base * 512, e.1 / 64 * 2 ^ 24 + (e.2.base + e.2.chunks) * 512)
    else none)

/-- Keys moved up or down, and the entries whose key is kept. -/
def keysUp {α : Type} (off : Nat) (m : Sparse α) : Sparse α := m.map (fun e => (e.1 + off, e.2))
def keysDown {α : Type} (off : Nat) (m : Sparse α) : Sparse α := m.map (fun e => (e.1 - off, e.2))
def keepKeys {α : Type} (p : Nat → Bool) (m : Sparse α) : Sparse α := m.filter (fun e => p e.1)

/-- Writes the saved state of a gang to its new clusters (R322, R323). -/
def restoreClusters (s : State) (g : Gang) (v : Saved) : State :=
  let b := g.base
  let n := 8 * g.clusters
  let c := b / 8
  let s := zeroClusters s g
  let inCores := fun (e : Nat × Bool) => decide (b ≤ e.1 / 256) && decide (e.1 / 256 < b + n)
  let s := { s with fencedRows := (s.failedRows.filter inCores).foldl (fun m (e : Nat × Bool) => sset false m e.1 true)
                      (s.fencedRows.filter (fun e => !inCores e)) }
  let omit_ : List (Nat × Nat) := savedRanges v.bufs
  let kept := fun (a : Nat) => g.launch.saveTb || omit_.all (fun r => !(decide (r.1 ≤ a) && decide (a < r.2)))
  let bufs : Sparse TileBuf := if g.launch.saveTb then v.bufs
    else v.bufs.map (fun e => (e.1, if e.2.en then { e.2 with landed := 0 } else e.2))
  { s with
    planes := refill s.planes (b * 65536) (n * 65536) (keysDown (b * 65536) (placeRows s b 256 v.planes))
    acc := refill s.acc (b * 65536) (n * 65536) v.acc
    tables := refill s.tables (b * 4096) (n * 4096) v.tables, ramps := refill s.ramps b n v.ramps
    poisonLane := refill s.poisonLane (b * 2 ^ 20) (n * 2 ^ 20)
      (keysDown (b * 2 ^ 20) (placeRows s b 4096 v.poisonLane))
    poisonAcc := refill s.poisonAcc (b * 256) (n * 256) v.poisonAcc
    mem := refill s.mem (clusterBase c) (g.clusters * 2 ^ 24) (keepKeys kept v.scratch)
    poisonWord := refill s.poisonWord (clusterBase c / 8) (g.clusters * 2 ^ 21) (keepKeys (fun k => kept (8 * k)) v.poisonWord)
    templates := refill s.templates (c * 2048) (g.clusters * 2048) v.templates
    bufs := refill s.bufs (c * 64) (g.clusters * 64) (bufs.filter (fun e => e.2 != TileBuf.init))
    cvtab := refill s.cvtab (4 * c * 256) (4 * g.clusters * 256) v.cvtab
    monitors := refill s.monitors (16 * b) (16 * n) v.monitors }

/-- D of R323: the least multiple of `m` that takes every `cs` past `c`. -/
def rebaseShift (m c : Nat) (cs : List Nat) : Nat := cs.foldl (fun d x => max d (ceilDiv (c + 1 - x) m * m)) 0

/-- The prologue of a pre-empted gang: its state restored on its clusters, its timetable rebased. -/
def resumePrologue (s : State) (g : Gang) (v : Saved) : State :=
  let s := restoreClusters s g v
  let cs := (g.harts.filter (fun h => h.exit.isNone)).map (fun h => max h.next v.stopCy)
  let d := rebaseShift (gangPeriod g) s.cyc cs
  let hs := g.harts.map (fun h =>
    { shiftHart d h with core := g.base + h.idx * g.launch.tph, next := max h.next v.stopCy + d })
  let copies := v.copies.map (fun (q : Copy) =>
    { q with chan := q.chan + 8 * g.base - 8 * v.base, core := q.core + g.base - v.base })
  let s := shiftGang { s with others := s.others ++ hs, copies := s.copies ++ copies } g.id (v.stopCy - 1) d
  let start := (cs.foldl min (2 ^ 64)) + d
  let s := modGang s g.id (fun x => { x with saved := none, harts := [], resumeCy := if cs.isEmpty then s.cyc + 1 else start })
  let s := (List.range (8 * g.clusters)).foldl (fun s i => rampEvents s (g.base + i)) s
  let s := if g.launch.lockstep then lockFill s g else s
  schedule s (if cs.isEmpty then s.cyc + 1 else start) (.gangStart g.id)

/-- PROLOGUE. -/
def execPrologue (gang : Nat) (s : State) : Out :=
  .next (match findGang s gang with
    | none => s
    | some g =>
      if g.st != .placed then s
      else match g.saved with
        | some v => resumePrologue s g v
        | none => freshPrologue s g)

/-- The channels on which a gang has copies. -/
def gangChannels (s : State) (key : Nat) : List Nat :=
  (s.copies.filter (fun q => q.gang == key)).foldl (fun l q => if l.contains q.chan then l else l ++ [q.chan]) []

/-- GANG_START: every hart issues from its pc (R44, R320, R323). -/
def execGangStart (gang : Nat) (s : State) : Out :=
  .next (match findGang s gang with
    | none => s
    | some g =>
      if g.st != .placed then s
      else
        let s := modGang s gang (fun x => { x with st := .running })
        let s := modHarts s (fun h => h.gang == gang && h.exit.isNone) (fun h => { h with run := .running })
        (gangChannels s gang).foldl startNext s)

/-! Pre-emption (R322). -/

/-- What a victim's stop waits for: started copies with chunks under way, sweeps, coach operations, unwritten pairs. -/
def preemptReady (s : State) (g : Gang) : Bool :=
  s.copies.all (fun q => q.gang != g.id || !q.started ||
    (q.chunks.all (fun c => c.st != .waiting) && q.walk.all (fun w => w.ended || w.parked))) &&
  s.sweeps.all (fun w => w.gang != g.id) && s.coachOps.all (fun o => o.gang != g.id) &&
  g.hold.isNone && (gangHarts s g.id).all (fun h => h.run != .held) && s.requests.all (fun r => r.gang != g.id) && (gangHarts s g.id).all (drained_ s) &&
  s.calendar.all (fun e => match e.2 with
    | .coachOpComplete k _ | .waitComplete k _ | .barrierComplete k => k != g.id
    | _ => true)

/-- Writes the resident registers of a hart to their slots (R84, R322). The prologue restores them as resident, so that the gang goes on as
it would have (R323). -/
def spillHart (s : State) (h : Hart) : State :=
  withHart s h.gang h.idx (fun s =>
    (List.range 64).foldl (fun s n => if isResident (vreg s n) then modH (spillReg s n false).1 (fun _ => s.h) else s) s)

/-- A copy as it is saved: one with parked chunks is unstarted again, its remaining chunks to be issued anew (R387). -/
def Copy.saved (q : Copy) : Copy :=
  { q with
    started := false
    chunks := q.chunks.map (fun c => match c.st with
      | .parked _ _ => { c with st := .waiting, iss := 2 ^ 64, due := 2 ^ 64 }
      | _ => c) }

/-- Saves a gang and releases its clusters; it is queued again with its launch sequence (R315, R322). -/
def saveGang (s : State) (g : Gang) : State :=
  let b := g.base
  let n := 8 * g.clusters
  let c := b / 8
  let s := (gangHarts s g.id).foldl spillHart s
  let s := (gangHarts s g.id).foldl (fun s h => (flushCarts s h).1) s
  let v : Saved :=
    { planes := takeRows s b n 256 s.planes, acc := sslice s.acc (b * 65536) (n * 65536)
      tables := sslice s.tables (b * 4096) (n * 4096), poisonLane := takeRows s b n 4096 s.poisonLane
      poisonAcc := sslice s.poisonAcc (b * 256) (n * 256), ramps := sslice s.ramps b n
      scratch := sslice s.mem (clusterBase c) (g.clusters * 2 ^ 24)
      poisonWord := sslice s.poisonWord (clusterBase c / 8) (g.clusters * 2 ^ 21)
      templates := sslice s.templates (c * 2048) (g.clusters * 2048), bufs := sslice s.bufs (c * 64) (g.clusters * 64)
      cvtab := sslice s.cvtab (4 * c * 256) (4 * g.clusters * 256), monitors := sslice s.monitors (16 * b) (16 * n)
      copies := (s.copies.filter (fun q => q.gang == g.id)).map Copy.saved, base := b, stopCy := g.haltCy }
  let hs := (gangHarts s g.id).map (fun h => { h with run := if h.exit.isSome then h.run else .saved })
  let s := dropHarts (dropEvents s g.id) g.id
  let s := { s with copies := s.copies.filter (fun q => q.gang != g.id) }
  let s := modGang s g.id (fun x => { x with st := .queued, clusters := 0, preempt := false, saved := some v, harts := hs })
  schedule (passNeeded (notice s 2 5 g 0xffff 0) g.part) s.cyc (.placementPass g.part)

/-- PREEMPTION_STOP: the harts have stopped at their step boundaries; once nothing is under way the gang is saved. -/
def execPreemptionStop (gang : Nat) (s : State) : Out :=
  .next (match findGang s gang with
    | none => s
    | some g => if g.st == .preempted && g.preempt && preemptReady s g then saveGang s g else s)

/-! EXIT and the end of a gang. -/

/-- Every copy of the hart is over and performed at package scope, and every pair of it can be flushed (R126, R163). -/
def exitReady (s : State) (h : Hart) : Bool :=
  s.copies.all (fun q => q.gang != h.gang || q.hart != h.idx) && !hartPending s h.gang h.idx && drained_ s h

/-- EXIT (R163, R316, R318). -/
def execExit (c : Ctl) (o : X3) (s : State) : Out :=
  let g := s.h.gang
  .next (if !exitReady s s.h then holdFor s .exit (.exit c o)
    else
      let v := rx s o.xa
      let s := (flushCarts s s.h).1
      let s := modH s (fun h => { h with exit := some v, run := .exited, wait := none, issued := true })
      let s := barrierCheck (checkFired s g) g
      if (gangHarts s g).all (fun h => h.exit.isSome)
      then schedule (modGang s g (fun x => { x with st := .draining })) (s.cyc + 1) (.gangRetire g)
      else s)

/-- GANG_RETIRE: once every write of the gang is performed the clusters are released (R126, R316). -/
def execGangRetire (gang : Nat) (s : State) : Out :=
  .next (match findGang s gang with
    | none => s
    | some g =>
      if g.st != .draining || g.ending then s
      else if s.replicas.any (fun r => r.gang == gang) then schedule s (s.cyc + 1) (.gangRetire gang)
      else endRecord s g .retired)

/-- GANG_FAULT_END (R352): the harts stop, copies and what is under way are dropped, the clusters released without a save. -/
def execGangFaultEnd (gang : Nat) (s : State) : Out :=
  .next (match findGang s gang with
    | none => s
    | some g =>
      if !g.ending then s
      else
        let chans := gangChannels s gang
        let s := dropEvents s gang
        let s := { s with
          copies := s.copies.filter (fun q => q.gang != gang), sweeps := s.sweeps.filter (fun w => w.gang != gang)
          bins := s.bins.filter (fun p => p.gang != gang), coachOps := s.coachOps.filter (fun o => o.gang != gang) }
        endRecord (chans.foldl startNext s) g .faulted)

end Sys2Proof.Machine
end

