-- ==== Sys2Proof/Machine/Waits.lean ====
section
/-! DEFINITION. The end of waits (R39, R309, R388), timing traps and the rebased timetable (R372 to R374), and the delivery of
fault records with their interrupts (R353 to R355). -/
namespace Sys2Proof.Machine

/-- The state an outcome leaves, `s` where it has none. -/
def after (s : State) (o : Out) : State := match o with | .next t => t | _ => s

/-- The waiting instruction of the hart in hand is tried again; nothing changes while it would wait on. -/
def resumeWait (s : State) : State :=
  match s.h.wait with
  | none => s
  | some w =>
    let s1 := modH s (fun h => { h with wait := none })
    let t := match w.instr with
      | .twait c o =>
        if twaitHolds c o s1 then
          retire c (sampleEvent ((selOf c o).touch ((selOf c o).acquire (rx s o.xa).toNat (rx s o.xb).toNat s1)) s.h.core 1 (s.cyc - w.since))
        else s
      | .waitm c o => after s (execWaitm c o s1)
      | .mwait c o => after s (execMwait c o s1)
      | .tclr c o => after s (execTclr c o s1)
      | .setvl c o => after s (execSetvl c o s1)
      | .vdecl c o => after s (execVdecl c o s1)
      | .binput c o => after s (execBinput c o s1)
      | .exit c o => after s (execExit c o s1)
      | .glaunch c o => finishWait c o.xd s
      | .gqry c o => finishWait c o.xd s
      | _ => s
    if t.h.wait.isSome then s else t

/-- Whether the wait of a hart would end now. -/
def waitMet (s : State) (h : Hart) : Bool := (resumeWait (takeHart s h.gang h.idx)).h.wait.isNone

/-- WAIT_COMPLETE (R39). -/
def execWaitComplete (gang hart : Nat) (s : State) : Out := .next (withHart s gang hart resumeWait)

/-- WAITM_REREAD (R309). -/
def execWaitmReread (gang hart : Nat) (s : State) : Out :=
  .next (withHart s gang hart (fun s => if waitsIn s.h .waitm then resumeWait s else s))

/-! Timing traps. -/

/-- TIMING_TRAP: a hart of a running lockstep gang waits in GBAR past the cy by which the last hart should have arrived, and one has not:
all that wait there trap (R310, log 37). -/
def execTimingTrap (gang hart : Nat) (s : State) : Out :=
  .next (match findGang s gang, findHart s gang hart with
    | some g, some h =>
      if mayTrap s g h && waitsIn h .gbar && decide (barrierSlot g h ≤ s.cyc) && !allArrived s gang then
        ((gangHarts s gang).filter (fun x => waitsIn x .gbar)).foldl (fun s x => timingTrap s (gangOf s gang) x 0) s
      else s
    | _, _ => s)

/-- The chunks whose landing a hart's failed wait needs go on during the hold (R372 step 2). -/
def chunkNeeded (s : State) (q : Copy) (c : Chunk) (h : Hart) : Bool :=
  match h.wait with
  | some w => match w.instr with
    | .twait ct o =>
      let sel := selOf ct o
      let lo := (rx (takeHart s h.gang h.idx) o.xa).toNat
      let n := (rx (takeHart s h.gang h.idx) o.xb).toNat
      if sel.buf then
        (match chunkMark s q c with
         | some (cl, b, k, _) => cl == clusterOfCore h.core && b == sel.n && decide (lo ≤ k) && decide (k < lo + n)
         | none => false)
      else q.kind == 3 && q.gang == h.gang && q.hart == h.idx && q.vregNo == sel.vd &&
        (if sel.md then q.follow else decide (lo ≤ c.blk) && decide (c.blk < lo + n))
    | .exit _ _ => q.gang == h.gang && q.hart == h.idx
    | _ => false
  | none => false

/-- The next carriage of a walk goes into a buffer on which a held hart waits. -/
def carriageNeeded (q : Copy) (h : Hart) : Bool :=
  match q.walk, h.wait with
  | some w, some x => match x.instr with
    | .twait ct o => (selOf ct o).buf && q.tbCluster == clusterOfCore h.core && (selOf ct o).n == q.carBuf w.j
    | _ => false
  | _, _ => false

/-- An event of the calendar that a hold keeps back. -/
def heldBack (s : State) (e : Event) : Bool :=
  s.gangs.any (fun g => g.hold.any (fun q => decide (q.c0 < s.cyc)) && ownedBy s g.id e &&
    !(match e with
      | .kvwalkCarriageStart chan => match runningOn s chan with
        | some q => (gangHarts s g.id).any (fun h => h.run == .held && carriageNeeded q h)
        | none => false
      | .chunkLand chan k | .chunkRetry chan k => match runningOn s chan with
        | some q => match q.chunks[k]? with
          | some c => (gangHarts s g.id).any (fun h => h.run == .held && chunkNeeded s q c h)
          | none => false
        | none => false
      | .copyStart chan => match s.copies.find? (fun q => q.chan == chan) with
        | some q => (gangHarts s g.id).any (fun h => h.run == .held && copyNeeded q h)
        | none => false
      | .sweepDone core | .followOnSweep core =>
        (gangHarts s g.id).any (fun h => h.run == .held && decide (h.core ≤ core) && decide (core < h.core + h.slots))
      | _ => false))

/-- The chunks that a held hart needs and that have not had their chunk cycle, as (BTE, copy, chunk). -/
def owedChunks (s : State) (h : Hart) : List (Nat × Nat × Nat) :=
  (s.copies.filter (fun q => q.gang == h.gang && q.goes)).flatMap (fun q =>
    (List.range q.chunks.length).filterMap (fun k => match q.chunks[k]? with
      | some c => if c.st == .waiting && decide (s.cyc < c.iss) && c.iss != 2 ^ 64 && chunkNeeded s q c h
                  then some (q.bte, q.id, k) else none
      | none => none))

/-- The first free chunk cycle of a BTE from the next cy on. -/
def freeCycle (s : State) (bte : Nat) : Nat :=
  s.copies.foldl (fun m q => if q.bte == bte then
    q.chunks.foldl (fun m c => if c.iss ≤ s.cyc then max m (c.iss + 4) else m) m else m) (s.cyc + 1)

/-- They go in the next chunk cycles that their BTEs have free, the gang's other chunks being held (R372 step 2). -/
def hasten (s : State) (h : Hart) : State :=
  ((owedChunks s h).foldl (fun (acc : State × Sparse Nat) p =>
    let (s, next) := acc
    let t := max (sget 0 next p.1) (freeCycle s p.1)
    match findCopy s p.2.1 with
    | none => acc
    | some q => match q.chunks[p.2.2]? with
      | none => acc
      | some c =>
        let s := setChunk s q.id p.2.2 (fun c => { c with iss := t })
        (landAt s q p.2.2 (t + (c.due - c.iss)), sset 0 next p.1 (t + 4))) (s, [])).1

/-- The held harts of a gang have the chunks that they need issued. -/
def hastenGang (s : State) (g : Nat) : State := ((gangHarts s g).filter (fun h => h.run == .held)).foldl hasten s

/-- D of one trapping hart (R372 step 3). -/
def holdShift (period c1 lastLand tR : Nat) : Nat := ceilDiv (max c1 lastLand + 8 - tR) period * period

/-- Every trapping hart's condition holds: TSTART and all coming events move by D, and each trapping hart restarts at tR + D. -/
def endHold (s : State) (g : Gang) (q : Hold) : State :=
  let ts := (gangHarts s g.id).filter (fun h => q.trapped.contains h.idx)
  let d := ts.foldl (fun d h => max d (holdShift (gangPeriod g) (sget 0 q.met h.idx) h.lastLand h.restart.cy)) 0
  let s := shiftGang (modGang s g.id (fun x => { x with hold := none })) g.id q.c0 d
  let s := modHarts s (fun h => h.gang == g.id) (fun h =>
    if q.trapped.contains h.idx then { h with wait := none, exposed := [], reading := [], next := h.restart.cy + d }
    else shiftHart d h)
  ts.foldl (fun s h => schedule s (h.restart.cy + d) (.timingRestart g.id h.idx)) s

/-- The hold may end: the condition of every trapped hart holds, and the cy in which the gang began to hold is over. -/
def Hold.over (q : Hold) (cyc : Nat) : Bool := decide (q.c0 < cyc) && q.trapped.all (fun j => sget 0 q.met j != 0)

/-- The hold of a gang with the conditions met so far; the gang goes on where all are. -/
def settleHold (s : State) (g : Gang) (q : Hold) : State :=
  let s := modGang s g.id (fun x => { x with hold := some q })
  if q.over s.cyc then endHold s g q else s

/-- Notes that the condition of hart `k` holds in this cy. -/
def conditionMet (s : State) (g : Gang) (q : Hold) (k : Nat) : State := settleHold s g { q with met := sset 0 q.met k s.cyc }

/-- The failed condition of a held hart holds: its wait would end, or it waits in nothing that can be tested, and its loads have landed
(R151). -/
def heldMet (s : State) (h : Hart) : Bool :=
  h.accesses.all (fun x => !x.read || decide (x.upto ≤ s.cyc)) && (h.wait.isNone || waitsIn h .gbar || waitMet s h)

/-- TIMING_CONDITION_MET. -/
def execTimingConditionMet (gang hart : Nat) (s : State) : Out :=
  .next (match findGang s gang, findHart s gang hart with
    | some g, some h => match g.hold with
      | some q =>
        if !q.trapped.contains hart then s
        else if sget 0 q.met hart == 0 && heldMet s h then conditionMet s g q hart
        else settleHold s g q
      | none => s
    | _, _ => s)

/-- The copies of R373 go back: X1 to X31, the RW CSRs, the generators; the grant and RPC stay. -/
def restoreCopies (h : Hart) : Hart :=
  let k := h.restart.csr
  { h with
    x := h.restart.x
    gens := h.restart.gens
    pc := h.csr.rpc
    wait := none
    part := none
    timed := false
    swapPaid := false
    lateX := []
    stepAt := 0
    csr := { k with vl := h.csr.vl, rlen := h.csr.rlen, rows := h.csr.rows, tiles := h.csr.tiles, fold := h.csr.fold
                    rpc := h.csr.rpc } }

/-- TIMING_RESTART: the hart issues RPC with the copies restored (R372 step 4, R373). -/
def execTimingRestart (gang hart : Nat) (s : State) : Out :=
  .next (match findGang s gang, findHart s gang hart with
    | some g, some h =>
      if g.hold.isNone && h.run == .held && decide (h.next ≤ s.cyc) then
        modHarts s (isHart gang hart) (fun h => { restoreCopies h with run := .running, next := s.cyc })
      else s
    | _, _ => s)

/-- WAIT_RELEASE (R388): the hart goes to RPC; a lockstep hart does so by the restart of R372. -/
def execWaitRelease (gang hart : Nat) (s : State) : Out :=
  .next (match findGang s gang, findHart s gang hart with
    | some g, some h =>
      let waits := waitsIn h .twait || waitsIn h .waitm || waitsIn h .mwait || waitsIn h .exit
      if h.irqs.isEmpty || !statusIe h.csr.status then s
      else if g.launch.lockstep then
        match g.hold with
        | some q => if h.run == .held && sget 0 q.met hart == 0 then conditionMet s g q hart else s
        | none =>
          if h.run == .running && waitsIn h .exit then
            timingTrap s g h s.cyc
          else s
      else if h.run == .running && waits then
        modHarts s (isHart gang hart) (fun h => { restoreCopies h with next := s.cyc })
      else s
    | _, _ => s)

/-! Delivery of records. -/

/-- The order of R354 within one cy. -/
def recordBefore (a b : Record) : Bool :=
  decide (a.agent < b.agent) || (a.agent == b.agent && (decide (a.pkg < b.pkg) || (a.pkg == b.pkg && decide (a.hart < b.hart))))

/-- The first of the records detected in the cy of record `n`; where that one went before its turn, of the oldest overdue one. -/
def firstRecord (s : State) (n : Nat) : Option Record :=
  match (s.records.find? (fun r => r.n == n)).orElse
      (fun _ => s.records.find? (fun r => decide (r.cyc + 2000 ≤ s.cyc))) with
  | none => none
  | some r0 => (s.records.filter (fun r => r.cyc == r0.cyc)).foldl (fun (b : Option Record) (r : Record) => match b with
    | some q => if recordBefore r q then some r else some q
    | none => some r) none

/-- The bytes of dwords. -/
def dwordBytes (d : List Word) : List Byte := d.flatMap (fun w => toBytes 8 w.toNat)

/-- Tries a mailbox: the state and the VA of the slot, or none where it refuses (R353). As the issuer of R126 such a write counts as 3,073
(log 69). -/
def mailboxWrite (s : State) (part asid : Nat) (mbox : Word) (d : List Word) : Option (State × Nat) :=
  let va := mbox.toNat
  let die := lowestDie s part
  if va = 0 then none
  else match vaDwords s part asid die va 3 with
  | .error _ => none
  | .ok hd =>
    let wr := hd.getD 0 0
    let cap := (hd.getD 1 0).toNat % 65536
    if cap ≤ (wr - hd.getD 2 0).toNat then none
    else
      let slot := (va + 0x40 + 64 * (wr.toNat % cap)) % 2 ^ 64
      match vaWrite s part asid die 3073 slot (dwordBytes d) with
      | (_, some _) => none
      | (s, none) => match vaWrite s part asid die 3073 va (dwordBytes [wr + 1]) with
        | (_, some _) => none
        | (s, none) => some (s, slot)

/-- The interrupt of R355 at every hart of the mailbox's gang that takes interrupts, or will after its RTE (R351); waiting
harts are released (R388). The harts of a pre-empted gang take it once they run again. -/
def mailboxInterrupt (s : State) (gang : Nat) (r : Record) (slot : Nat) : State :=
  let takes := fun (h : Hart) => h.gang == gang && h.exit.isNone && (statusIe h.csr.status || statusTl h.csr.status)
  let due := fun (h : Hart) => { h with irqs := h.irqs ++ [⟨r.cls, r.code, BitVec.ofNat 64 slot⟩] }
  let s := modHarts s takes due
  let s := modGang s gang (fun g => { g with harts := g.harts.map (fun h => if takes h then due h else h) })
  (gangHarts s gang).foldl (fun s h =>
    if statusIe h.csr.status && (h.run == .held || h.wait.isSome) then schedule s s.cyc (.waitRelease gang h.idx) else s) s

/-- The conductor of a partition, while it runs (R331). -/
def conductor (s : State) (part : Nat) : Option Gang :=
  let id := (partAt s part).condgang % 2 ^ 32
  if id = 0 then none
  else match findGang s (gangKey part id) with
    | some g => if g.st == .running then some g else none
    | none => none

/-- Receivers 2 and 3 of R354; `esc` once an earlier receiver has refused. -/
def deliverFrom2 (s : State) (r : Record) (esc : Bool) : State :=
  match conductor s r.part with
  | none => logHost s r.part (r.dwords esc)
  | some g => match mailboxWrite s g.part g.launch.asid g.launch.mbox (r.dwords esc) with
    | some (s, slot) => mailboxInterrupt s g.id r slot
    | none => logHost s r.part (r.dwords true)

/-- A record goes to its one receiver (R354). -/
def deliver (s : State) (r : Record) : State :=
  match r.live, r.mbox with
  | true, some (mbox, asid) => match mailboxWrite s r.part asid mbox (r.dwords false) with
    | some (s, slot) => mailboxInterrupt s r.gang r slot
    | none => deliverFrom2 s r true
  | _, _ => deliverFrom2 s r false

/-- FAULT_RECORD_DELIVERY. -/
def execFaultRecordDelivery (n : Nat) (s : State) : Out :=
  .next (match firstRecord s n with
    | none => s
    | some r => deliver { s with records := s.records.filter (fun x => x.n != r.n) } r)

end Sys2Proof.Machine
end

