-- ==== Sys2Proof/Machine/HostIf.lean ====
section
/-! DEFINITION. What the host and the driver do (R99, R102, R326 to R331, R356, R390): BAR windows, translation commands and
migration, die assignment, shares, log counts, the mailbox window, and stores to tile-buffer descriptors. -/
namespace Sys2Proof.Machine

/-- A virtual function answers once a verified image runs and its partition holds a die (R326, R333). -/
def vfOn (s : State) (vf : Nat) : Bool := s.bootOk && (List.range 4).any (fun d => partOfDie s d == some vf)

def hostAsid (s : State) (vf : Nat) : Nat := (partAt s vf).hasid.toNat % 2 ^ 16

/-! Launch (R314, R328). -/

/-- The launches of harts that have arrived go before a host launch of the same cy (R314). -/
def arriveFirst : Nat → State → State
  | 0, s => s
  | n + 1, s => match firstLaunch s with
    | none => s
    | some r => match execLaunchArrival r.n s with
      | .next t => arriveFirst n t
      | _ => s

def execHostLaunch (vf : Nat) (lid : Word) (s : State) : Out :=
  .next (if !vfOn s vf then s
    else
      let s := arriveFirst s.requests.length s
      let (s, v) := acceptLaunch s vf (hostAsid s vf) (partAt s vf).lva lid 0
      modPart s vf (fun p => { p with lres := BitVec.ofNat 64 v }))

/-! Translation commands (R329, R390). -/

/-- The page and the ASID of a command. -/
def cmdVa (cmd : Word) : Nat := cmd.toNat % 2 ^ 52 / 2 ^ 16 * 2 ^ 16
def cmdAsid (arg : Word) : Nat := arg.toNat % 2 ^ 16
/-- The new frame of a migrate. -/
def cmdFrame (arg : Word) : Nat := arg.toNat % 2 ^ 48 / 2 ^ 16 * 2 ^ 16

/-- The command is over: status 1 done or 2 refused; parked chunks of the ASID are tried again (R384). -/
def commandDone (s : State) (vf asid st : Nat) : State :=
  let s := modPart s vf (fun p => { p with xcmd := BitVec.ofNat 64 st, xrun := none })
  if st = 1 then retryParked s vf asid else s

/-- A disabled VF takes no command; nor does one whose last command still runs, unless this is its end (R326, R329). -/
def refusesCommand (s : State) (vf : Nat) (cmd arg : Word) : Bool :=
  !vfOn s vf || (match (partAt s vf).xrun with | some r => r != (cmd, arg) | none => false)

/-- The argument dword of a command stands at 0x3008 (R329). -/
def noteArg (s : State) (vf : Nat) (arg : Word) : State :=
  modPart s vf (fun p => { p with xarg := arg &&& 0x0000ffffffffffff })

/-- The locked entries that the translation unit of a leaf holds. DESIGN CHOICE (log 71): of a replicated page, which has a home unit on
every die, only the unit of the leaf's own frame counts. -/
def lockedIn (s : State) (leaf : Word) : Nat := (s.locked.filter (fun e => unitOf (pteAddr e.2) == unitOf (pteAddr leaf))).length

def lockPage (s : State) (vf : Nat) (cmd arg : Word) : State × Nat :=
  let va := cmdVa cmd
  let asid := cmdAsid arg
  match walk s vf asid va with
  | .error _ => (s, 1)
  | .ok (leaf, _, lv) =>
    let key := lockKey vf asid lv va
    if sget 0 s.locked key ≠ 0 then (s, 1)
    else if 4096 ≤ lockedIn s leaf then (s, 2)
    else ({ s with locked := sset 0 s.locked key leaf }, 1)

def unlockPage (s : State) (vf : Nat) (cmd arg : Word) : State :=
  let key := fun lv => lockKey vf (cmdAsid arg) lv (cmdVa cmd)
  { s with locked := sset 0 (sset 0 s.locked (key 1) 0) (key 2) 0 }

def execLock (vf : Nat) (cmd arg : Word) (s : State) : Out :=
  .next (if refusesCommand s vf cmd arg then s
    else let (s, st) := lockPage s vf cmd arg; commandDone (noteArg s vf arg) vf (cmdAsid arg) st)

def execUnlock (vf : Nat) (cmd arg : Word) (s : State) : Out :=
  .next (if refusesCommand s vf cmd arg then s else commandDone (noteArg (unlockPage s vf cmd arg) vf arg) vf (cmdAsid arg) 1)

/-- The leaf of an address has MIG = 1. -/
def migLeaf (s : State) (vf asid va : Nat) : Bool := match leafOf s vf asid va with | .ok (leaf, _) => pteMig leaf | .error _ => false

/-- A command starts and runs on until cy `t`, in which its event comes again. -/
def commandRuns (s : State) (vf : Nat) (cmd arg : Word) (t : Nat) (e : Event) : State :=
  schedule (modPart s vf (fun p => { p with xcmd := 0, xrun := some (cmd, arg) })) t e

/-- PAGE_INVALIDATE: the page's lines go from the caches and its translation from the buffers; once every walk that read the old entry is
over, the command is, and parked chunks of the ASID are tried again (R99, log 11). -/
def execPageInvalidate (vf : Nat) (cmd arg : Word) (s : State) : Out :=
  let va := cmdVa cmd
  let asid := cmdAsid arg
  .next (if refusesCommand s vf cmd arg then s
    else
      let s := noteArg s vf arg
      if pinned s vf asid va || (migrationOf s vf asid va).isSome || migLeaf s vf asid va then commandDone s vf asid 2
      else
        let s := dropPage s vf asid va
        let t := walksOver s vf asid va
        if s.cyc < t then commandRuns s vf cmd arg t (.pageInvalidate vf cmd arg) else commandDone s vf asid 1)

/-- MIGRATE: MIG is set in the leaf and the unit begins to copy (R102). -/
def execMigrate (vf : Nat) (cmd arg : Word) (s : State) : Out :=
  let va := cmdVa cmd
  let asid := cmdAsid arg
  let frame := cmdFrame arg
  .next (if refusesCommand s vf cmd arg then s
    else
    let s := noteArg s vf arg
    match walk s vf asid va with
    | .error _ => commandDone s vf asid 2
    | .ok (leaf, at', lv) =>
      let size := pageSize lv
      let base := pteAddr leaf / size * size
      let old := if pteRepl leaf then base % 2 ^ 37 + frame / 2 ^ 37 % 4 * 2 ^ 37 else base
      let running := (s.migrations.filter (fun m => unitOf m.oldPa == unitOf old)).length
      if pteMig leaf || decide (16 ≤ running) || decide (hbmBytes < frame + pageSize lv) then commandDone s vf asid 2
      else
        let m : Migration :=
          { n := s.fresh, part := vf, asid, va := va / size * size, leafAt := at', oldPa := old, newPa := frame, m := 0
            chunks := size / 512, locked := pinned s vf asid va }
        let s := putHbm s at' (toBytes 8 (leaf ||| 0x4000000000000000).toNat)
        let s := { s with migrations := s.migrations ++ [m], fresh := s.fresh + 1 }
        commandDone (schedule s (s.cyc + 1) (.migrationChunkCopy m.n)) vf asid 1)

/-- The leaf with a new frame, MIG clear. -/
def movedLeaf (leaf : Word) (frame : Nat) : Word :=
  (leaf &&& 0xbfff0000000007ff) ||| BitVec.ofNat 64 (frame % 2 ^ 48)

/-- The migration is over: the new frame stands in the leaf, and in the locked entry of a pinned page. -/
def endMigration (s : State) (m : Migration) : State :=
  let s := putHbm s m.leafAt (toBytes 8 (movedLeaf (tableWord s m.leafAt) m.newPa).toNat)
  let s := { s with migrations := s.migrations.filter (fun x => x.n != m.n) }
  let relock := fun (s : State) lv =>
    let key := lockKey m.part m.asid lv m.va
    let e := sget 0 s.locked key
    if e ≠ 0 then { s with locked := sset 0 s.locked key (movedLeaf e m.newPa) } else s
  retryParked (relock (relock s 1) 2) m.part m.asid

/-- A record of class 0x12 that concerns no gang, of the die that holds a physical address. -/
def hbmRecord (s : State) (part code pa : Nat) (synd : Word) : State :=
  addRecord s { Record.blank s with agent := 6, pkg := pa / 2 ^ 37 % 4, cls := 0x12, code := BitVec.ofNat 8 code, part
                                    addr := BitVec.ofNat 64 pa, synd }

/-- MIGRATION_CHUNK_COPY: one 512-byte chunk, its poison with it (R102, R391). -/
def execMigrationChunkCopy (n : Nat) (s : State) : Out :=
  .next (match s.migrations.find? (fun m => m.n == n) with
    | none => s
    | some m =>
      if m.chunks ≤ m.m then endMigration s m
      else
        let bad := hbmPoisoned s (m.oldPa + 512 * m.m) 512
        let s := if bad then hbmRecord s m.part 6 (m.newPa + 512 * m.m) 0 else s
        let s := copyMigrating s m
        if m.m + 1 = m.chunks then endMigration s { m with m := m.m + 1 } else schedule s (s.cyc + 1) (.migrationChunkCopy n))

/-! BAR2 (R328). -/

/-- A BAR access that translation refuses: a violation entry of KIND 3; poison also writes its record (R357, R389, R419). -/
def barFault (s : State) (vf off : Nat) (e : AccessErr) : State :=
  let s := if e.x.code = 0x100 then hbmRecord s vf 4 e.va 0 else s
  logViolation s vf 3 8 off 0xffff 0

def barVa (s : State) (vf off : Nat) : Nat := ((partAt s vf).hwbase.toNat + off) % 2 ^ 64

/-- The first cy in which no write of a VF to a PROP = 0 page is still on its way to another die. -/
def barWritesOver (s : State) (vf : Nat) : Nat :=
  (s.replicas.filter (fun r => r.stamp.2.2.1 == 3072 && r.hart == vf)).foldl (fun t r =>
    s.calendar.foldl (fun t e => if e.2 == .replicaApply r.n then max t e.1 else t) (max t (s.cyc + 1))) s.cyc

/-- A read of BAR2, after the writes of the VF before it (R124); one that faults completes as an unsupported request, with no data (R328).
The endpoint takes no request for more than 4 KiB (R325). -/
def execBar2Read (vf off len : Nat) (s : State) : Out :=
  .next (if !vfOn s vf || decide (2 ^ 36 < off + len) || decide (4096 < len) then s
    else if s.cyc < barWritesOver s vf then schedule s (barWritesOver s vf) (.bar2Read vf off len)
    else match vaRead s vf (hostAsid s vf) (lowestDie s vf) (barVa s vf off) len with
    | .ok (s, bs) => { s with hostData := s.hostData ++ [bs] }
    | .error e => let s := barFault s vf off e; { s with hostData := s.hostData ++ [[]] })

/-- A write of BAR2, performed at package scope after those before it (R124); it goes through whole or not at all. A payload has at most 512
bytes (R325). -/
def execBar2Write (vf off : Nat) (bytes : List Byte) (s : State) : Out :=
  let va := barVa s vf off
  let asid := hostAsid s vf
  let die := lowestDie s vf
  .next (if !vfOn s vf || decide (2 ^ 36 < off + bytes.length) || decide (512 < bytes.length) then s
    else if s.cyc < barWritesOver s vf then schedule s (barWritesOver s vf) (.bar2Write vf off bytes)
    else match (cut va bytes.length).findSome? (fun p => match translate s vf asid die p.1 true with
        | .error x => some (⟨p.1, x⟩ : AccessErr)
        | .ok _ => none) with
    | some e => barFault s vf off e
    | none => (vaWrite s vf asid die 3072 va bytes (0, vf)).1)

/-! Dies, shares and logs (R326, R327, R330, R356). -/

/-- DIESTAT takes a value; a change sends vector 0 of the PF. -/
def setDieStat (s : State) (v : Word) : State :=
  if s.dieStat = v then s else sendMsi { s with dieStat := v } 4 0

/-- The dies that a DIEMAP gives partition `p`, as a mask. -/
def diesOf (map : Word) (p : Nat) : Nat :=
  (List.range 4).foldl (fun m d =>
    let nib := map.toNat / 16 ^ d % 16
    if nib / 8 == 1 && nib % 4 == p then m + 2 ^ d else m) 0

/-- The shapes of R326, and no die. -/
def shapeOk (m : Nat) : Bool := [0, 1, 2, 4, 8, 3, 12, 15].contains m

def execDiemapWrite (v : Word) (s : State) : Out :=
  let v := v &&& 0xbbbb
  let ps := List.range 4
  let changed := ps.filter (fun p => diesOf v p != diesOf s.dieMap p)
  let busy := s.gangs.any (fun g => changed.contains g.part && !g.ended)
  .next (if !ps.all (fun p => shapeOk (diesOf v p)) || busy then setDieStat s 2
    else schedule (setDieStat { s with dieChange := some v } 1) (s.cyc + 1) .dieAssignmentDone)

def execDieAssignmentDone (s : State) : Out :=
  .next (match s.dieChange with
    | some v => setDieStat { s with dieMap := v, dieChange := none } 0
    | none => s)

def shareOf (v : Word) (p : Nat) : Nat := v.toNat / 256 ^ p % 32

def execShareWrite (v : Word) (s : State) : Out :=
  let sum := ((List.range 4).map (shareOf v)).sum
  .next (if 16 < sum then s else relandHost { s with shareReg := v &&& 0x1f1f1f1f })

def setLog (s : State) (part k : Nat) (v : Word) : State := modPart s part (fun p => { p with log := sset 0 p.log k v })

def execLogclrVcount (part : Nat) (s : State) : Out := .next (setLog s part 0 0)
def execLogclrFcount (part : Nat) (s : State) : Out := .next (setLog s part 0x100 0)

/-! The mailbox window (R331). -/

/-- The byte at an offset of the mailbox window of a partition. -/
def mailboxByte (s : State) (vf off : Nat) : Nat := dieBase (lowestDie s vf) + 0x03ff0000 + off

def execMailboxWindowWrite (vf off : Nat) (v : Word) (s : State) : Out :=
  .next (if vfOn s vf && decide (off < 0x10000) then putWord s (mailboxByte s vf (off / 8 * 8)) v else s)

/-! Tile-buffer descriptors (R91, R394). -/

def execTbConfigWrite (cluster tb : Nat) (v : Word) (s : State) : Out := .next (setBuf s cluster tb (TileBuf.configure v))

def execTbLandedClear (cluster tb dw : Nat) (v : Word) (s : State) : Out :=
  .next (setBuf s cluster tb ((bufAt s cluster tb).store (16 + dw % 16) v))

/-! BAR0 registers (R328, R330). -/

/-- The monitor unit and register at an offset of a VF's monitor window (R336). -/
def monitorAtOffset (s : State) (vf off : Nat) : Option (Nat × Nat) :=
  let k := off / 0x800
  let cls := partClusters s vf
  let dies := (List.range 4).filter (fun d => partOfDie s d == some vf)
  let unit := off / 0x80 % 16
  if k < cls.length then some (2 ^ 16 + 16 * cls.getD k 0 + unit, off / 8 % 16)
  else if k < cls.length + dies.length then some (2 ^ 16 + 16 * (48 + dies.getD (k - cls.length) 0) + unit, off / 8 % 16)
  else none

/-- A dword of a function's MSI-X table of `n` vectors, or of its pending bits (R325, log 60). -/
def msixRead (s : State) (fn n k : Nat) : Word :=
  if k < 2 * n then sget 0 (msixTable s fn) k ^^^ (if k % 2 = 1 then 0x100000000 else 0)
  else if k = 256 then msiPending s fn
  else 0

/-- The table after a write: of a control dword only the mask bit is held; the pending bits are read-only. -/
def msixWrite (m : Sparse Word) (n k : Nat) (v : Word) : Sparse Word :=
  if k < 2 * n then sset 0 m k (if k % 2 = 1 then (v &&& 0x1ffffffff) ^^^ 0x100000000 else v) else m

/-- The event that a write of a VF register starts, the translation command with the argument at 0x3008 (R328, R329, R331). -/
def vfEvent (s : State) (vf off : Nat) (v : Word) : Option Event :=
  let arg := (partAt s vf).xarg
  if off = 8 then some (.hostLaunch vf v)
  else if off = 0x3000 then (match v.toNat % 16 with
    | 1 => some (.lock vf v arg)
    | 2 => some (.unlock vf v arg)
    | 3 => some (.pageInvalidate vf v arg)
    | 4 => some (.migrate vf v arg)
    | _ => none)
  else if 0x10000 ≤ off ∧ off < 0x20000 then some (.mailboxWindowWrite vf (off - 0x10000) v)
  else none

/-- The event goes into the calendar; LRES reads 0xff and a translation command 0 until it is over (R328, R329). -/
def startVf (s : State) (vf off : Nat) (v : Word) (e : Event) : State :=
  if off = 8 then schedule (modPart s vf (fun p => { p with lres := 0xff })) s.cyc e
  else if off = 0x3000 then
    (if (partAt s vf).xrun.isSome then s else commandRuns s vf v (partAt s vf).xarg s.cyc e)
  else schedule s s.cyc e

/-- A VF register that only holds its value. -/
def vfWrite (s : State) (vf off : Nat) (v : Word) : State :=
  if off = 0 then modPart s vf (fun p => { p with lva := v })
  else if off = 0x1000 then modPart s vf (fun p => { p with rpt := v })
  else if off = 0x1008 then modPart s vf (fun p => { p with hasid := v &&& 0xffff })
  else if off = 0x1010 then modPart s vf (fun p => { p with hwbase := v &&& ~~~0xffff#64 })
  else if 0x2000 ≤ off ∧ off < 0x2800 then modPart s vf (fun p => { p with region := sset 0 p.region ((off - 0x2000) / 8) (v &&& 0xf0000fffffffffff) })
  else if off = 0x3000 then
    -- codes 0 and 5 to 15 are refused
    (if (partAt s vf).xrun.isNone then modPart s vf (fun p => { p with xcmd := 2 }) else s)
  else if off = 0x3008 then modPart s vf (fun p => { p with xarg := v &&& 0x0000ffffffffffff })
  else if 0x20000 ≤ off ∧ off < 0x40000 then
    match monitorAtOffset s vf (off - 0x20000) with
    | some (key, i) => writeMon s key i v
    | none => s
  else if 0x80000 ≤ off ∧ off < 0x81000 then unmaskMsi (modPart s vf (fun p => { p with msix := msixWrite p.msix 64 ((off - 0x80000) / 8) v })) vf
  else s

/-- A PF register that only holds its value. -/
def pfWrite (s : State) (off : Nat) (v : Word) : State :=
  if 0x120 ≤ off ∧ off < 0x140 then modPart s ((off - 0x120) / 8) (fun p => { p with condgang := v.toNat % 2 ^ 32 })
  else if h : 0x1008 ≤ off ∧ off < 0x1048 then
    { s with dbgData := s.dbgData.set ((off - 0x1008) / 8) v (by omega) }
  else if off = 0x1000 then
    -- an unlisted code is refused; the nine commands have events of their own
    (if v.toNat % 256 = 0 ∨ 9 < v.toNat % 256 then
      sendMsi { s with dbgCmd := (v &&& 0x00000000ffffffff) ||| 0x1000000000000000 } 4 1 else s)
  else if off = 0x1048 then { s with dbgGang := v &&& 0xffffffff }
  else if 0x80000 ≤ off ∧ off < 0x81000 then unmaskMsi { s with pfMsix := msixWrite s.pfMsix 8 ((off - 0x80000) / 8) v } 4
  else s

/-- The events that a write of a PF register starts (R330, R421). A debug command names the gang of DBGGANG that holds clusters. -/
def pfEvents (s : State) (off : Nat) (v : Word) : List Event :=
  let n := s.dbgGang.toNat % 2 ^ 32
  let g := match s.gangs.find? (fun g => !g.ended && g.id % 2 ^ 32 == n && g.clusters != 0) with | some g => g.id | none => n
  let hart := v.toNat / 65536 % 65536
  let arg := v.toNat / 256 % 256
  let d := s.dbgData
  if off = 0x100 then [.diemapWrite v]
  else if off = 0x110 then [.shareWrite v]
  else if 0x140 ≤ off ∧ off < 0x160 then
    (if v.getLsbD 0 then [.logclrVcount ((off - 0x140) / 8)] else []) ++ (if v.getLsbD 1 then [.logclrFcount ((off - 0x140) / 8)] else [])
  else if off = 0x1000 then (match v.toNat % 256 with
    | 1 => [.halt g]
    | 2 => [.run g]
    | 3 => [.step g hart]
    | 4 => [.quiesce g]
    | 5 => [.readv g hart arg d[0].toNat]
    | 6 => [.readx g hart arg d[0].toNat]
    | 7 => [.writex g hart arg d[0].toNat d[1]]
    | 8 => [.unfence (d[0].toNat / 256) (d[0].toNat % 256)]
    | 9 => [.inject (d[1].toNat / 2 ^ 62) (d[0].toNat % 2 ^ 48) (d[1].toNat % 4)]
    | _ => [])
  else []

/-- REGISTER_WRITE: a register that starts something puts its event into the calendar for this cy; one with no behaviour of its own stores
its value; other offsets ignore the write. -/
def execRegisterWrite (pf : Bool) (vf off : Nat) (v : Word) (s : State) : Out :=
  .next (if off % 8 != 0 then s
    else if pf then (pfEvents s off v).foldl (fun s e => schedule s s.cyc e) (pfWrite s off v)
    else if !vfOn s vf then s
    else match vfEvent s vf off v with
      | some e => startVf s vf off v e
      | none => vfWrite s vf off v)

/-- What a read of a VF's BAR0 returns; a disabled VF returns nothing, here 0 (R326). -/
def vfRead (s : State) (vf off : Nat) : Word :=
  let p := partAt s vf
  if !vfOn s vf then 0 else if off = 0 then p.lva else if off = 0x10 then p.lres else if off = 0x1000 then p.rpt else if off = 0x1008 then p.hasid
  else if off = 0x1010 then p.hwbase
  else if 0x2000 ≤ off ∧ off < 0x2800 then sget 0 p.region ((off - 0x2000) / 8)
  else if off = 0x3000 then p.xcmd else if off = 0x3008 then p.xarg
  else if 0x4000 ≤ off ∧ off < 0x5000 then sget 0 p.log ((off - 0x4000) / 8)
  else if 0x10000 ≤ off ∧ off < 0x20000 then wordAt s (mailboxByte s vf (off - 0x10000))
  else if 0x20000 ≤ off ∧ off < 0x40000 then
    match monitorAtOffset s vf (off - 0x20000) with
    | some (key, i) => (monSeen s key).read i
    | none => 0
  else if 0x80000 ≤ off ∧ off < 0x81000 then msixRead s vf 64 ((off - 0x80000) / 8)
  else 0

/-- What a read of the PF's BAR0 returns. -/
def pfRead (s : State) (off : Nat) : Word :=
  if off = 0 then BitVec.ofNat 64 (4 + 4 * 256 + s.stver % 2 ^ 32 * 65536) else if off = 0x100 then s.dieMap
  else if off = 0x108 then s.dieStat else if off = 0x110 then s.shareReg
  else if 0x120 ≤ off ∧ off < 0x140 then BitVec.ofNat 64 (partAt s ((off - 0x120) / 8)).condgang
  else if off = 0x1000 then s.dbgCmd
  else if h : 0x1008 ≤ off ∧ off < 0x1048 then s.dbgData[(off - 0x1008) / 8]'(by omega)
  else if off = 0x1048 then s.dbgGang
  else if 0x80000 ≤ off ∧ off < 0x81000 then msixRead s 4 8 ((off - 0x80000) / 8)
  else 0

end Sys2Proof.Machine
end

