-- ==== Sys2Proof/Machine/SoftErrors.lean ====
section
/-! DEFINITION. Errors of storage and links (R361, R415 to R420), instruction-cache fills (R141, R366, R418), and the stop of a die
(R335, R361). -/
namespace Sys2Proof.Machine

/-! Who is concerned. -/

/-- The hart that holds a core. -/
def hartOnCore (s : State) (core : Nat) : Option Hart :=
  (allHarts s).find? (fun h => h.gang != 0 && decide (h.core ≤ core) && decide (core < h.core + h.slots))

/-- The gang that holds a package cluster. -/
def gangOnCluster (s : State) (cl : Nat) : Option Gang := s.gangs.find? (fun g => !g.ended && g.holds cl)

/-- A record of class 0x12 (R419) about an address. DESIGN CHOICE (log 71): an error on a die that no partition holds goes to partition
0, since the spec names no receiver for it. -/
def softRecord (s : State) (code die addr : Nat) (synd : Word) : Record :=
  { Record.blank s with
    agent := 6, pkg := die, cls := 0x12, code := BitVec.ofNat 8 code, addr := BitVec.ofNat 64 addr, synd
    part := (partOfDie s die).getD 0 }

/-- The same, concerning what holds a core. -/
def coreRecord (s : State) (code core addr : Nat) (synd : Word) : State :=
  let r := softRecord s code (dieOfCore core) addr synd
  addRecord s (match hartOnCore s core with
    | some h => { r.about (gangOf s h.gang) with hart := h.idx }
    | none => match gangOnCluster s (clusterOfCore core) with
      | some g => r.about g
      | none => r)

/-! Rows (R361 rung 4, R420). -/

/-- Marks a row failed: it stays until UNFENCE, and no grant made after this includes it. -/
def failRow (s : State) (row : Nat) : State :=
  if sget false s.failedRows row then s
  else coreRecord { s with failedRows := sset false s.failedRows row true } 7 (row / 256) (row * 4096) 0

/-- The corrections within 2^30 cy after one more. -/
def nextTimes (c : List Nat) (cyc : Nat) : List Nat := c.filter (fun t => decide (cyc ≤ t + 2 ^ 30)) ++ [cyc]

/-- CORRECTED_WRITEBACK: the corrected word goes back, and the count of the row or bank is raised; the 16th of a lane row within
2^30 cy fails it. -/
def execCorrectedWriteback (space addr : Nat) (s : State) : Out :=
  let unit := if space = 0 then addr / 4096 else addr
  let key := space * 2 ^ 64 + unit
  let n := nextTimes (sget [] s.corrections key) s.cyc
  let s := { s with corrections := sset [] s.corrections key n }
  .next (if space = 0 ∧ 16 ≤ n.length then failRow s unit else s)

/-- UNCORRECTED_ERROR: poison and its record (R361 rung 3, R419). Spaces 0 to 3 are those of R424; 4 is a table word and 5 a
scalar register or CSR of the hart on core `addr`. The syndrome is a free value. -/
def execUncorrectedError (space addr : Nat) (s : State) : Out :=
  let synd := Config.freeBits s.free (2 ^ 72 + addr)
  let s := { s with free := s.free + 1 }
  .next (match space with
    | 0 => failRow (coreRecord { s with poisonLane := sset false s.poisonLane addr true } 1 (addr / 2 ^ 20) addr synd) (addr / 4096)
    | 1 =>
      let s := { s with poisonWord := sset false s.poisonWord addr true }
      let g := 8 * addr
      if g < dieBase 0 then
        let core := 8 * ((g - clusterBase 0) / 2 ^ 24)
        let r := softRecord s 2 (dieOfCore core) (localOf g) synd
        addRecord s (match gangOnCluster s (clusterOfCore core) with | some q => r.about q | none => r)
      else addRecord s (softRecord s 2 ((g - dieBase 0) / 2 ^ 26) (localOf g) synd)
    | 2 => coreRecord { s with poisonAcc := sset false s.poisonAcc addr true } 3 (addr / 256) (addr * 4096) synd
    | 3 =>
      let s := { s with poisonHbm := sset false s.poisonHbm addr true }
      addRecord s (softRecord s 4 (addr / 2 ^ 31 % 4) (64 * addr) synd)
    | 4 => coreRecord s 2 (addr / 4096) addr synd
    | _ => match hartOnCore s addr with
      | some h => withHart s h.gang h.idx (fun s => poisonEnd s 0)
      | none => s)

/-! The instruction cache. -/

def icacheAt (s : State) (core : Nat) (va : Word) : Option (BitVec 32) :=
  let e := sget 0 s.icache (core * 2 ^ 62 + va.toNat / 4)
  if e.getLsbD 32 then some (e.setWidth 32) else none

/-- The home core's cache takes the words from word address `w` up to `last`. -/
def fillWords (s : State) (w last : Nat) : State :=
  fillIcache s s.h.core (myGang s).part (myGang s).launch.asid w last

/-- An unreadable word traps at its fetch (R366). -/
def fetchTrap (s : State) (va : Word) : State := takeTrap s (Trap.here s 8 3 va)

/-- ICACHE_FILL: the hart in hand misses in elastic mode and takes the 64-byte line (R141). -/
def execIcacheFill (va : Word) (s : State) : Out :=
  let w := va.toNat / 64 * 16
  let s := fillWords (evictLine s s.h.core) w (w + 16)
  .next (if (icacheAt s s.h.core va).isSome then s else fetchTrap s va)

/-- ICACHE_PARITY_REFILL: the word is refilled and issued anew; in lockstep mode it comes late (R418). -/
def execIcacheParityRefill (va : Word) (s : State) : Out :=
  let w := va.toNat / 4
  let s := fillWords s w (w + 1)
  .next (if (icacheAt s s.h.core va).isNone then fetchTrap s va
    else if lockstep s then
      timingTrap (notice s 5 6 (myGang s) s.h.idx 0) (myGang s) s.h s.cyc
    else s)

/-! Heat and the stop of dies. -/

/-- THERMAL_STALL: a die's junction above 95 °C (in 0.1 °C), or with index 4 the module above 1,900 W (R335). -/
def execThermalStall (die reading : Nat) (s : State) : Out :=
  .next (if die < 4 then (if 950 < reading ∧ die ∉ s.stalled then { s with stalled := s.stalled ++ [die] } else s)
    else if 1900 < reading then { s with powerStalled := List.range 4 } else s)

/-- THERMAL_STALL_END: that reading has fallen below its limit; what the other one stalls stays stalled. -/
def execThermalStallEnd (die : Nat) (s : State) : Out :=
  .next (if die < 4 then { s with stalled := s.stalled.filter (fun d => d != die) } else { s with powerStalled := [] })

/-- Whether a gang holds a core of one of the dies. -/
def Gang.onDies (g : Gang) (dies : List Nat) : Bool :=
  !g.ended && (List.range 48).any (fun c => g.holds c && dies.contains (dieOfCluster c))

/-- Dies leave service: every gang on them faults, and each stopped die has its own record (R361 rung 5), that of one no partition holds
going to partition 0 (DESIGN CHOICE, log 71). -/
def stopDies (s : State) (dies : List Nat) (code : BitVec 8) : State :=
  let dies := dies.filter (fun d => decide (d < 4) && !s.diesOut.contains d)
  let s := (s.gangs.filter (fun g => g.onDies dies)).foldl (fun s g =>
    endGang (addRecord s { (Record.blank s).about g with agent := 7, fin := true, cls := 0x16, code }) g.id) s
  let s := dies.foldl (fun s d => addRecord s { Record.blank s with
    agent := 7, cls := 0x16, code, addr := BitVec.ofNat 64 d, part := (partOfDie s d).getD 0 }) s
  { s with diesOut := s.diesOut ++ dies }

/-- DIE_STOP_TEMPERATURE: 110 °C. -/
def execDieStopTemperature (die reading : Nat) (s : State) : Out :=
  .next (if 1100 ≤ reading then stopDies s [die] 1 else s)

/-- UCIE_EDGE_LOSS: the edge between die `edge` and the next one; the dies beyond it stop. -/
def execUcieEdgeLoss (edge : Nat) (s : State) : Out :=
  .next (stopDies s ((List.range 4).filter (fun d => decide (edge < d))) 2)

end Sys2Proof.Machine
end

