-- ==== Sys2Proof/Machine/Debug.lean ====
section
/-! DEFINITION. The debug window (R420 to R424): halt, run, step, quiesce, reads and writes, row self-test and error injection.
A command names a gang by its key in the state. -/
namespace Sys2Proof.Machine

/-! The command register. -/

/-- DBGCMD as a command leaves it. -/
def dbgWord (busy refused : Bool) (op arg hart : Nat) : Word :=
  BitVec.ofNat 64 ((if busy then 2 ^ 63 else 0) + (if refused then 2 ^ 60 else 0) + hart % 65536 * 65536 + arg % 256 * 256 + op)

def dbgBusy (s : State) : Bool := s.dbgCmd.getLsbD 63

/-- The command's fields and DBGGANG stand in the window. -/
def dbgBegin (s : State) (op arg hart gang : Nat) : State :=
  { s with dbgCmd := dbgWord true false op arg hart, dbgGang := BitVec.ofNat 64 (gang % 2 ^ 32) }

/-- The command ends: STAT, and vector 1 of the PF (R330). -/
def dbgEnd (s : State) (refused : Bool) : State :=
  sendMsi { s with dbgCmd := (s.dbgCmd &&& 0x00000000ffffffff) ||| (if refused then 0x1000000000000000 else 0) } 4 1

/-- A gang that is placed: it holds clusters. -/
def placedGang (s : State) (gang : Nat) : Option Gang :=
  (findGang s gang).bind (fun g => if g.clusters != 0 then some g else none)

/-- Runs a command on a placed gang; one that is busy takes no other. -/
def dbgCommand (s : State) (op arg hart gang : Nat) (f : State → Gang → State) : State :=
  if dbgBusy s then s
  else
    let s := dbgBegin s op arg hart gang
    match placedGang s gang with
    | some g => f s g
    | none => dbgEnd s true

/-- Every hart that has not ended stands halted. -/
def gangHalted (s : State) (gang : Nat) : Bool :=
  let hs := (gangHarts s gang).filter (fun h => h.exit.isNone && h.run != .stopped)
  !hs.isEmpty && hs.all (fun h => h.run == .halted)

/-! HALT, RUN, STEP, QUIESCE. -/

/-- A halt may take effect: the gang runs and no hart of it is held. -/
def haltMay (s : State) (g : Gang) : Bool :=
  (g.st == .running || g.st == .draining) && g.hold.isNone && (gangHarts s g.id).all (fun h => h.run != .held)

/-- An event of the ramp of an array (R239). -/
def ofRamp (own : Nat → Bool) (e : Event) : Bool :=
  match e with
  | .arrayRampUpEnd core | .arrayRampDown core | .arrayRampDownEnd core | .burstHoldEnd core => own core
  | _ => false

/-- The ramps of a gang's arrays stand as the halt found them, but for those that a sweep has used since (R243). They go on `d` later. -/
def thawRamps (s : State) (g : Gang) (d : Nat) : State :=
  (s.ramps.filter (fun e => g.ownsCore e.1 && !s.calendar.any (fun x => ofRamp (fun c => c == e.1) x.2))).foldl
    (fun s e => rampEvents (setRamp s e.1 (shiftRamp d e.2)) e.1) s

/-- Every running hart stops at its step boundary and its arrays keep the state of their ramps, with the notice of R360. -/
def haltNow (s : State) (g : Gang) : State :=
  let s := { s with calendar := s.calendar.filter (fun e => !ofRamp g.ownsCore e.2) }
  let s := notice (stopGang s g.id) 3 7 g 0xffff 0
  let s := modHarts s (fun h => h.gang == g.id && h.run == .running) (fun h => { h with run := .halted, next := max h.next s.cyc })
  dbgEnd (modGang s g.id (fun x => { x with haltPending := false, haltOnBreak := true, haltCy := s.cyc })) false

/-- HALT; before the gang runs, and in a timing hold, it waits (R374, R421). The event comes again to complete it. -/
def execHalt (gang : Nat) (s : State) : Out :=
  let go := fun (s : State) (g : Gang) =>
    if haltMay s g then haltNow s g else modGang s gang (fun x => { x with haltPending := true })
  .next (match findGang s gang with
    | some g => if g.haltPending then (if haltMay s g then haltNow s g else s) else dbgCommand s 1 0 0 gang go
    | none => dbgCommand s 1 0 0 gang go)

/-- Held chunks of a copy: waiting, with a planned landing that the calendar no longer holds. -/
def heldChunks (s : State) (q : Copy) : List (Nat × Nat) :=
  (List.range q.chunks.length).filterMap (fun k => match q.chunks[k]? with
    | some c => if c.st == .waiting && c.due != 2 ^ 64 && s.calendar.all (fun e => !isLand q.chan k e) then some (k, c.due) else none
    | none => none)

/-- The held and queued copies of a gang go on: at once, or in lockstep mode at their planned cy plus `d`. -/
def releaseCopies (s : State) (g : Gang) (d : Nat) : State :=
  let s := if g.quiesced then
      (s.copies.filter (fun q => q.gang == g.id && q.frozen)).foldl (fun s q =>
        let held := heldChunks s q
        let s := modCopy s q.id (fun c => { c with frozen := false })
        if g.launch.lockstep then
          held.foldl (fun s p => schedule (setChunk s q.id p.1 (fun c => { c with iss := c.iss + d, due := c.due + d }))
            (p.2 + d) (.chunkLand q.chan p.1)) s
        else planBte s q.bte false) s
    else s
  (gangChannels s g.id).foldl startNext s

/-- TSTART and what the halt left to come move by `d` (R323, R422): the harts, and the starts of queued copies. -/
def rebaseHalted (s : State) (g : Gang) (d : Nat) : State :=
  let starts := fun (e : Nat × Event) => match e.2 with
    | .copyStart chan => s.copies.any (fun q => q.gang == g.id && q.chan == chan)
    | _ => false
  let s := { s with
    calendar := s.calendar.filter (fun e => !starts e)
    copies := s.copies.map (fun q => if q.gang == g.id && !q.started then { q with issueCy := q.issueCy + d } else q)
    engines := s.engines.map (fun e => if g.ownsCore e.1 then (e.1, e.2 + d) else e) }
  modGang (modHarts s (fun h => h.gang == g.id && h.exit.isNone) (shiftHart d)) g.id (fun x => { x with tstart := x.tstart + d })

/-- RUN. -/
def execRun (gang : Nat) (s : State) : Out :=
  .next (dbgCommand s 2 0 0 gang (fun s g =>
    let halted := (gangHarts s gang).filter (fun h => h.run == .halted)
    if halted.isEmpty then dbgEnd s true
    else
      let d := if g.launch.lockstep then rebaseShift (gangPeriod g) s.cyc (halted.map (fun h => h.next)) else 0
      let s := if g.launch.lockstep then rebaseHalted s g d else s
      let s := releaseCopies (thawRamps s g (if g.launch.lockstep then d else s.cyc - g.haltCy)) g d
      let s := modHarts s (fun h => h.gang == gang && h.run == .halted) (fun h => { h with run := .running, next := max h.next s.cyc })
      dbgEnd (modGang s gang (fun x => { x with haltOnBreak := false, quiesced := false })) false))

/-- STEP: the hart issues one instruction; the step of the machine halts it again and ends the command. -/
def execStep (gang hart : Nat) (s : State) : Out :=
  .next (dbgCommand s 3 0 hart gang (fun s _ =>
    match findHart s gang hart with
    | some h =>
      if gangHalted s gang && h.run == .halted then modHarts s (isHart gang hart) (fun h => { h with run := .stepping })
      else dbgEnd s true
    | none => dbgEnd s true))

/-- A stepping hart that has issued, trapped or begun to wait is halted again. -/
def endStepping (s : State) (gang hart : Nat) : State :=
  match findHart s gang hart with
  | some h =>
    if h.run == .stepping then dbgEnd (modHarts s (isHart gang hart) (fun h => { h with run := .halted })) false
    else dbgEnd s false
  | none => dbgEnd s false

/-- QUIESCE: chunks in flight land; what has not gone stays with its channel. -/
def execQuiesce (gang : Nat) (s : State) : Out :=
  .next (dbgCommand s 4 0 0 gang (fun s g =>
    if !gangHalted s gang then dbgEnd s true
    else
      let mine := s.copies.filter (fun q => q.gang == gang && q.started)
      let ahead := fun (chan k : Nat) => mine.any (fun q => q.chan == chan && (match q.chunks[k]? with
        | some c => c.st == .waiting && decide (s.cyc ≤ c.iss)
        | none => false))
      let s := { s with
        calendar := s.calendar.filter (fun e => match e.2 with
          | .chunkLand chan k => !ahead chan k
          | _ => true)
        copies := s.copies.map (fun q => if q.gang == gang && q.started then { q with frozen := true } else q) }
      dbgEnd (modGang s g.id (fun x => { x with quiesced := true })) false))

/-! Reads and writes (R423). -/

/-- What READV finds: the value, whether it lies in a poisoned codeword, whether in a fenced row. -/
structure Seen where
  v : Nat
  poison : Bool := false
  fenced : Bool := false

/-- Element `e` of a resident register. -/
def seeResident (s : State) (r : VReg) (p e : Nat) : Seen :=
  let k := s.h.csr
  if k.rlen * k.rows * k.tiles ≤ e then ⟨0, false, false⟩
  else
    let q := spotOf s e
    if sget false s.failedRows (q.core * 256 + q.row) then ⟨0, false, true⟩
    else ⟨bitsAt s q p r.width, spotPoisoned s q p (dOf s r.width), false⟩

/-- Element `e` of a register that is not resident: its record, decoded by R84; one never filled holds zeros, and one whose
record cannot be read a free value. -/
def seeSpilled (s : State) (n : Nat) (r : VReg) (e : Nat) : Seen :=
  let q := r.spilled.getD (grantNow s false)
  let per := q.rlen * q.rows
  let free : Seen := ⟨(Config.freeBits s.free (2 ^ 74 + n)).toNat % 2 ^ r.width, false, false⟩
  if r.kind = 0 then free
  else if r.fresh || decide (per * q.tiles ≤ e) then ⟨0, false, false⟩
  else
    let g := e % q.rlen
    match readRecord s r (e / per) (rowIn q.fenced (e / per) (e % per / q.rlen)) q.rlen (r.planes q.fold) with
    | .error _ => free
    | .ok (_, fmt, bs, marks) =>
      let bad := (List.range (ceilDiv r.width q.fold)).any (fun k => recordPoison fmt marks k (q.fold * g / 64))
      if fmt = 0 then ⟨(rawElem r q.fold (planesOfRaw (r.planes q.fold) bs) g).headD 0, bad, false⟩
      else ⟨(decodeRow fmt q.rlen r.width bs).getD g 0, bad, false⟩

/-- An instruction that stands part-way writes element `e` of V`n`: which of its planes it has written is open (R375, log 8). -/
def partWritten (h : Hart) (n e : Nat) : Bool :=
  h.exposed.any (fun w => w.kept && w.loc == .v n && w.cells.all (fun c => c.1.testBit e))

/-- DBGD1 and DBGD2 of READV. -/
def readvData (s : State) (n e : Nat) : Seen :=
  let s := modH s (fun h => { h with hot := [] })
  let r := vreg s n
  if partWritten s.h n e then ⟨(Config.freeBits s.free (2 ^ 120 + n * 2 ^ 60 + e)).toNat % 2 ^ r.width, false, false⟩
  else match r.first with
    | some p => seeResident s r p e
    | none => seeSpilled s n r e

def setDbg (s : State) (k : Nat) (v : Word) : State := { s with dbgData := s.dbgData.setIfInBounds k v }

/-- READV: element `e` of V`v`; drowsy rows neither wake nor count it as a touch. -/
def execReadv (gang hart v e : Nat) (s : State) : Out :=
  .next (dbgCommand s 5 v hart gang (fun s _ =>
    match findHart s gang hart with
    | none => dbgEnd s true
    | some _ =>
      if 64 ≤ v then dbgEnd s true
      else
        let x := readvData (takeHart s gang hart) v e
        let s := setDbg (setDbg (setDbg s 0 (BitVec.ofNat 64 e)) 1 (BitVec.ofNat 64 x.v)) 2
          (BitVec.ofNat 64 ((if x.poison then 1 else 0) + (if x.fenced then 2 else 0)))
        dbgEnd { s with free := s.free + 1 } false))

/-- READX: a scalar register, or with ARG 0xff the CSR numbered in DBGD0. -/
def execReadx (gang hart arg csr : Nat) (s : State) : Out :=
  .next (dbgCommand s 6 arg hart gang (fun s _ =>
    match findHart s gang hart with
    | none => dbgEnd s true
    | some h =>
      if arg = 0xff then
        dbgEnd (setDbg (setDbg s 0 (BitVec.ofNat 64 csr)) 1
          (csrRead (modH (takeHart s gang hart) (fun h => { h with hot := [] })) csr)) false
      else if p : arg < 32 then dbgEnd (setDbg s 1 (if arg = 0 then 0 else h.x[arg])) false
      else dbgEnd s true))

/-- WRITEX: a scalar register, or an RW CSR. -/
def execWritex (gang hart arg csr : Nat) (v : Word) (s : State) : Out :=
  .next (dbgCommand s 7 arg hart gang (fun s _ =>
    let s := setDbg (setDbg s 0 (BitVec.ofNat 64 csr)) 1 v
    if (findHart s gang hart).isNone then dbgEnd s true
    else if arg = 0xff then
      if csrReadOnly csr || !csrAssigned csr then dbgEnd s true
      else dbgEnd (withHart s gang hart (fun s => csrWrite s csr v true)) false
    else if arg < 32 then dbgEnd (withHart s gang hart (fun s => setX s (BitVec.ofNat 5 arg) v)) false
    else dbgEnd s true))

/-! Rows and injection. -/

/-- UNFENCE: a self-test of 2^20 cy, then the row leaves the failed-row table if no error was found: a free choice. The event comes
again at the end of the test. -/
def execUnfence (core row : Nat) (s : State) : Out :=
  let key := core * 256 + row
  .next (if !dbgBusy s then
      schedule (setDbg (dbgBegin s 8 0 0 s.dbgGang.toNat) 0 (BitVec.ofNat 64 key)) (s.cyc + 2 ^ 20) (.unfence core row)
    else if s.dbgCmd.toNat % 256 = 8 ∧ s.dbgData[0].toNat = key then
      let found := Config.freeChoice s.free (2 ^ 76 + key)
      let s := { s with free := s.free + 1 }
      dbgEnd (if found then s else { s with failedRows := sset false s.failedRows key false }) false
    else s)

/-- The key of an injection target: a lane codeword as R419 gives it, a local address of the hart that DBGCMD and DBGGANG name, an
accumulator row as R419 gives it, a physical address. -/
def injectKey (s : State) (space addr : Nat) : Option Nat :=
  match space with
  | 0 => some addr
  | 2 => some (addr / 4096)
  | 3 => some (addr / 64)
  | _ =>
    let id := s.dbgGang.toNat % 2 ^ 32
    match s.gangs.find? (fun g => !g.ended && g.id % 2 ^ 32 == id && g.clusters != 0) with
    | some g => match findHart s g.id (s.dbgCmd.toNat / 65536 % 65536) with
      | some h => match placeOf s g.part (clusterOfCore h.core) addr with
        | .mem b => some (b / 8)
        | _ => none
      | none => none
    | none => none

/-- INJECT: one error is armed; kinds 1 to 3. -/
def execInject (space addr kind : Nat) (s : State) : Out :=
  let hart := s.dbgCmd.toNat / 65536 % 65536
  .next (if dbgBusy s then s
    else
      let k := injectKey s space addr
      let s := dbgBegin s 9 0 hart s.dbgGang.toNat
      match k with
      | some key =>
        if 3 < space ∨ kind = 0 ∨ 3 < kind then dbgEnd s true
        else dbgEnd { s with armed := s.armed ++ [⟨space, key, kind⟩] } false
      | none => dbgEnd s true)

end Sys2Proof.Machine
end

