-- ==== Sys2Proof/Machine/Digest.lean ====
section
/-! DEFINITION. SHA-256, and the HSS signature check of R333 (RFC 8554: LMS_SHA256_M32_H20 over LMOTS_SHA256_N32_W4, two levels).
The spec names these standards and gives no text of them: the algorithms are theirs (PRESUMED, log 15). -/
namespace Sys2Proof.Machine

/-! SHA-256. -/

def shaK : List Nat :=
  [0x428a2f98, 0x71374491, 0xb5c0fbcf, 0xe9b5dba5, 0x3956c25b, 0x59f111f1, 0x923f82a4, 0xab1c5ed5] ++
  [0xd807aa98, 0x12835b01, 0x243185be, 0x550c7dc3, 0x72be5d74, 0x80deb1fe, 0x9bdc06a7, 0xc19bf174] ++
  [0xe49b69c1, 0xefbe4786, 0x0fc19dc6, 0x240ca1cc, 0x2de92c6f, 0x4a7484aa, 0x5cb0a9dc, 0x76f988da] ++
  [0x983e5152, 0xa831c66d, 0xb00327c8, 0xbf597fc7, 0xc6e00bf3, 0xd5a79147, 0x06ca6351, 0x14292967] ++
  [0x27b70a85, 0x2e1b2138, 0x4d2c6dfc, 0x53380d13, 0x650a7354, 0x766a0abb, 0x81c2c92e, 0x92722c85] ++
  [0xa2bfe8a1, 0xa81a664b, 0xc24b8b70, 0xc76c51a3, 0xd192e819, 0xd6990624, 0xf40e3585, 0x106aa070] ++
  [0x19a4c116, 0x1e376c08, 0x2748774c, 0x34b0bcb5, 0x391c0cb3, 0x4ed8aa4a, 0x5b9cca4f, 0x682e6ff3] ++
  [0x748f82ee, 0x78a5636f, 0x84c87814, 0x8cc70208, 0x90befffa, 0xa4506ceb, 0xbef9a3f7, 0xc67178f2]

def shaStart : List (BitVec 32) :=
  [0x6a09e667, 0xbb67ae85, 0x3c6ef372, 0xa54ff53a, 0x510e527f, 0x9b05688c, 0x1f83d9ab, 0x5be0cd19]

/-- The number that bytes stand for, the first the most significant. -/
def beNat (bs : List Byte) : Nat := bs.foldl (fun n b => n * 256 + b.toNat) 0

/-- The `n` bytes of a number, the most significant first. -/
def beBytes (n v : Nat) : List Byte := (List.range n).map (fun i => BitVec.ofNat 8 (v / 256 ^ (n - 1 - i)))

/-- The message padded to whole blocks of 64 bytes. -/
def shaPad (bs : List Byte) : List Byte :=
  bs ++ 0x80 :: List.replicate ((119 - bs.length % 64) % 64) 0 ++ beBytes 8 (8 * bs.length)

/-- The message schedule: 48 further words after the 16 of a block. -/
def shaExpand : Nat → List (BitVec 32) → List (BitVec 32)
  | 0, w => w
  | n + 1, w =>
    let x := fun k => w.getD (w.length - k) 0
    let a := x 15
    let b := x 2
    let s0 := a.rotateRight 7 ^^^ a.rotateRight 18 ^^^ (a >>> 3)
    let s1 := b.rotateRight 17 ^^^ b.rotateRight 19 ^^^ (b >>> 10)
    shaExpand n (w ++ [x 16 + s0 + x 7 + s1])

/-- One round on the eight working words. -/
def shaRound (v : List (BitVec 32)) (kw : Nat × BitVec 32) : List (BitVec 32) :=
  match v with
  | [a, b, c, d, e, f, g, h] =>
    let s1 := e.rotateRight 6 ^^^ e.rotateRight 11 ^^^ e.rotateRight 25
    let t1 := h + s1 + ((e &&& f) ^^^ (~~~e &&& g)) + BitVec.ofNat 32 kw.1 + kw.2
    let s0 := a.rotateRight 2 ^^^ a.rotateRight 13 ^^^ a.rotateRight 22
    [t1 + s0 + ((a &&& b) ^^^ (a &&& c) ^^^ (b &&& c)), a, b, c, d + t1, e, f, g]
  | _ => v

def shaBlock (h : List (BitVec 32)) (block : List Byte) : List (BitVec 32) :=
  let w := (List.range 16).map (fun i => BitVec.ofNat 32 (beNat ((block.drop (4 * i)).take 4)))
  List.zipWith (fun a b => a + b) h ((shaK.zip (shaExpand 48 w)).foldl shaRound h)

/-- SHA-256 of a message, as 32 bytes. -/
def sha256 (bs : List Byte) : List Byte :=
  let m := shaPad bs
  ((List.range (m.length / 64)).foldl (fun h i => shaBlock h ((m.drop (64 * i)).take 64)) shaStart).flatMap
    (fun x => beBytes 4 x.toNat)

/-! The one-time signature LMOTS_SHA256_N32_W4, of 67 chains of 15 steps. -/

/-- The 4-bit digits of bytes, the high one of each byte first. -/
def digits4 (bs : List Byte) : List Nat := bs.flatMap (fun b => [b.toNat / 16, b.toNat % 16])

/-- A chain taken from step `j` on, `n` steps. -/
def otsChain (pre : List Byte) : Nat → Nat → List Byte → List Byte
  | 0, _, x => x
  | n + 1, j, x => otsChain pre n (j + 1) (sha256 (pre ++ beBytes 1 j ++ x))

/-- The one-time public key that a signature of a message stands for, by the identifier `id` and the leaf `q`. -/
def otsKey (id : List Byte) (q : Nat) (sig msg : List Byte) : List Byte :=
  let pre := id ++ beBytes 4 q
  let h := sha256 (pre ++ [0x81, 0x81] ++ (sig.drop 4).take 32 ++ msg)
  let ds := digits4 h
  let sum := ds.foldl (fun k d => k + (15 - d)) 0
  let all := ds ++ (digits4 (beBytes 2 (sum * 16))).take 3
  sha256 (pre ++ [0x80, 0x80] ++ (List.range 67).flatMap (fun i =>
    let a := all.getD i 0
    otsChain (pre ++ beBytes 2 i) (15 - a) a ((sig.drop (36 + 32 * i)).take 32)))

/-! The tree signature LMS_SHA256_M32_H20 and its two levels. -/

/-- The root reached from node `node` with hash `x` over the path's hashes. -/
def treeRoot (id : List Byte) : Nat → List Byte → List (List Byte) → List Byte
  | _, x, [] => x
  | node, x, p :: ps =>
    let pair := if node % 2 = 1 then p ++ x else x ++ p
    treeRoot id (node / 2) (sha256 (id ++ beBytes 4 (node / 2) ++ [0x83, 0x83] ++ pair)) ps

/-- Whether a tree signature of 2,828 bytes over a message is good under a public key of 56 bytes. -/
def lmsAccepts (key sig msg : List Byte) : Bool :=
  let id := (key.drop 8).take 16
  let q := beNat (sig.take 4)
  let ots := (sig.drop 4).take 2180
  let leaf := sha256 (id ++ beBytes 4 (2 ^ 20 + q) ++ [0x82, 0x82] ++ otsKey id q ots msg)
  let path := (List.range 20).map (fun i => (sig.drop (2188 + 32 * i)).take 32)
  key.length == 56 && sig.length == 2828 && beNat (key.take 4) == 8 && beNat ((key.drop 4).take 4) == 3 && decide (q < 2 ^ 20) &&
    beNat (ots.take 4) == 3 && beNat ((sig.drop 2184).take 4) == 8 && treeRoot id (2 ^ 20 + q) leaf path == key.drop 24

/-- The two-level HSS check of R333: the first tree signs the key of the second, which signs the image. -/
def hssAccepts (image key sig : List Byte) : Bool :=
  let key1 := (sig.drop 2832).take 56
  key.length == 60 && beNat (key.take 4) == 2 && beNat (sig.take 4) == 1 && sig.length == 5716 &&
    lmsAccepts (key.drop 4) ((sig.drop 4).take 2828) key1 && lmsAccepts key1 (sig.drop 2888) image

end Sys2Proof.Machine
end

