-- ==== Sys2Proof/Machine/Firmware.lean ====
section
/-! DEFINITION. Boot and attestation (R333, R334). -/
namespace Sys2Proof.Machine

/-- The bytes of a register of 256 bits. -/
def bytes32 (v : BitVec 256) : List Byte := (List.range 32).map (fun i => v.extractLsb' (8 * i) 8)

/-- The SHA-256 hash of bytes, as a register of 256 bits holds it. -/
def digest (bs : List Byte) : BitVec 256 := BitVec.ofNat 256 ((sha256 bs).foldr (fun b n => n * 256 + b.toNat) 0)

/-- Extends a stage's hash into the first measurement register that is still zero, else the last (log 61). -/
def measure (m : Vector (BitVec 256) 8) (hash : BitVec 256) : Vector (BitVec 256) 8 :=
  let k := (m.toList.findIdx? (fun v => v == 0)).getD 7
  m.setIfInBounds k (digest (bytes32 (m.toList.getD k 0) ++ bytes32 hash))

/-- FIRMWARE_BOOT: the image runs only with a valid signature under the fused key; else the module stays in recovery, whatever comes
after, and reports the failure by State.bootFailed (R333, log 61). -/
def execFirmwareBoot (image key sig : List Byte) (s : State) : Out :=
  .next (if s.bootFailed then s
    else if digest key == s.fuseKey && hssAccepts image key sig
    then { s with bootOk := true, measures := measure s.measures (digest image) }
    else { s with bootOk := false, bootFailed := true })

/-- What a report says: the measurements, the nonce, the partition assignment, the counter. -/
def reportBytes (s : State) (nonce : BitVec 256) : List Byte :=
  s.measures.toList.flatMap bytes32 ++ bytes32 nonce ++ (List.range 8).map (fun i => s.dieMap.extractLsb' (8 * i) 8) ++
    (List.range 8).map (fun i => BitVec.ofNat 8 (s.attCount / 256 ^ i))

/-- ATTESTATION_REPORT: the counter advances before the index read is used; an exhausted counter refuses. -/
def execAttestationReport (nonce : BitVec 256) (s : State) : Out :=
  .next (if 2 ^ 40 ≤ s.attCount then s
    else
      let index := s.attCount
      let s := { s with attCount := index + 1 }
      let r := reportBytes s nonce
      { s with hostData := s.hostData ++ [r ++ Config.hssSign index r] })

end Sys2Proof.Machine
end

