-- ==== Sys2Proof/Machine/Permute.lean ====
section
/-! DEFINITION. Row permutes and exchange steps (R190, R191). -/
namespace Sys2Proof.Machine

/-- D.e = fit(value(A at `src e`)), 0 where there is none. -/
def permute (c : Ctl) (va vd : BitVec 6) (s : State) (used : List Opnd) (more : List Named) (src : State → Nat → Option Nat) :
    Out :=
  let A := descOf c s .a
  let D := descOf c s .d
  vecFrame c s used (used.all (fun x => intDesc (descOf c s x))) (srcNamed va A.w :: more ++ [dstNamed c vd D.w]) none none
    (fun s => retire c (writeElems s vd.toNat D.w D.sgn (results c s
      (fun e => match src s e with
        | some i => wrap D.w (elemInt s A va.toNat i)
        | none => 0)
      (fun e => more.any (fun n => elemPoisoned s n.reg (n.width.getD 1) e) ||
        (match src s e with
         | some i => elemPoisoned s va.toNat A.w i
         | none => false)))))

def execVperm (c : Ctl) (o : V3) (s : State) : Out :=
  let w := (descOf c s .b).w
  permute c o.va o.vd s [.a, .b, .d] [srcNamed o.vb w] (fun s e =>
    let g := e % s.h.csr.rlen
    let i := elemBits s o.vb.toNat w e
    if i < s.h.csr.rlen then some (e - g + i) else none)

def execVslide (c : Ctl) (o : VVX) (s : State) : Out :=
  let k := (rx s o.xb).toInt
  permute c o.va o.vd s [.a, .d] [] (fun s e =>
    let g : Int := (e % s.h.csr.rlen : Nat)
    if 0 ≤ g + k ∧ g + k < s.h.csr.rlen then some ((e : Int) + k).toNat else none)

def execVbcast (c : Ctl) (o : VVX) (s : State) : Out :=
  let i := (rx s o.xb).toNat
  permute c o.va o.vd s [.a, .d] [] (fun s e =>
    let per := s.h.csr.rlen * s.h.csr.rows
    if i < per then some (e / per * per + i) else none)

/-- The bits of planes `p` to `p + n - 1` at element `e` of V`va`, whose window makes them free (R41). -/
def exchanged (s : State) (va p n e : Nat) : Nat :=
  let v := bitsAt s (spotOf s e) p (n * foldOf s)
  if s.h.hot.contains (.v va) then
    let below := (p - (vreg s va).first.getD p) * foldOf s
    let k := openBits s (.v va) (below + n * foldOf s) e - below
    (Config.freeBits s.free (1000 + va * 2 ^ 40 + e)).toNat % 2 ^ k + v / 2 ^ k * 2 ^ k
  else v

/-- VXCH: planes j0 to j0 + n − 1 of tile t XOR k, lane for lane (R191). -/
def execVxch (c : Ctl) (o : V3) (s : State) : Out :=
  let A := descOf c s .a
  let D := descOf c s .d
  let k := c.imm.toNat % 512
  let j0 := c.imm.toNat / 65536 % 256
  let n := c.imm.toNat / 2 ^ 24 % 8 + 1
  vecFrame c s [.a, .d] true [srcNamed o.va A.w, dstNamed c o.vd D.w]
    (trapIf (decide (dOf s A.w < j0 + n) || decide (dOf s D.w < j0 + n)) (Trap.here s 4 9 (c.imm &&& 0xffffffff))) none
    (fun s =>
      let per := s.h.csr.rlen * s.h.csr.rows
      let other := fun e => e % per + (e / per ^^^ k) * per
      let inside := fun e => decide ((e / per ^^^ k) < s.h.csr.tiles)
      match (vreg s o.va.toNat).first, (vreg s o.vd.toNat).first with
      | some pa, some pd =>
        retire c (writeRows s (pd + j0) n (allRows s) (results c s
          (fun e => if inside e then exchanged s o.va.toNat (pa + j0) n (other e) else 0)
          (fun e => inside e && spotPoisoned s (spotOf s (other e)) (pa + j0) n)))
      | _, _ => retire c s)

end Sys2Proof.Machine
end

