-- ==== Sys2Proof/Machine/Pred.lean ====
section
/-! DEFINITION. The PRED group (R185). Every form acts on the elements below VL. -/
namespace Sys2Proof.Machine

/-- Writes PD.e = f e for every element below VL. -/
def predWrite (c : Ctl) (s : State) (pd : Nat) (srcs : List Nat) (f : Nat → Bool) : Out :=
  .next (retire c (writePred s pd ((elems s).map (fun e => ⟨e, if f e then 1 else 0, srcs.any (fun p => predPoisoned s p e)⟩))))

def pred2 (c : Ctl) (o : P3) (s : State) (f : Bool → Bool → Bool) : Out :=
  predWrite c s o.pd.toNat [o.pa.toNat, o.pb.toNat] (fun e => f (predBit s o.pa.toNat e) (predBit s o.pb.toNat e))

def execPand (c : Ctl) (o : P3) (s : State) : Out := pred2 c o s (fun a b => a && b)
def execPor (c : Ctl) (o : P3) (s : State) : Out := pred2 c o s (fun a b => a || b)
def execPxor (c : Ctl) (o : P3) (s : State) : Out := pred2 c o s (fun a b => a != b)
def execPandn (c : Ctl) (o : P3) (s : State) : Out := pred2 c o s (fun a b => a && !b)
def execPnot (c : Ctl) (o : P3) (s : State) : Out :=
  predWrite c s o.pd.toNat [o.pa.toNat] (fun e => !predBit s o.pa.toNat e)
def execPmov (c : Ctl) (o : P3) (s : State) : Out :=
  predWrite c s o.pd.toNat [o.pa.toNat] (fun e => predBit s o.pa.toNat e)

/-- PCNT counts into X0 to X15; a poisoned predicate ends the gang (R417). -/
def execPcnt (c : Ctl) (o : P3) (s : State) : Out :=
  if (elems s).any (predPoisoned s o.pa.toNat) then .next (poisonEnd s 0)
  else alu c (o.pd.setWidth 5) (BitVec.ofNat 64 ((elems s).filter (predBit s o.pa.toNat)).length) s

def execPfirst (c : Ctl) (o : P3) (s : State) : Out :=
  let first := (elems s).find? (predBit s o.pa.toNat)
  predWrite c s o.pd.toNat [o.pa.toNat] (fun e => first == some e)

/-- The codes of PSET. -/
def psetBit (vl code e : Nat) : Bool :=
  match code with
  | 0 => false | 1 => true | 2 => e % 2 == 0 | 3 => e % 2 == 1 | 4 => e == 0 | _ => e + 1 == vl

def execPset (c : Ctl) (o : P3) (s : State) : Out :=
  predWrite c s o.pd.toNat [] (psetBit s.h.csr.vl o.pa.toNat)

end Sys2Proof.Machine
end

