-- ==== Sys2Proof/Machine/Reduce.lean ====
section
/-! DEFINITION. Integer reductions and scans (R74, R186, R187) and the bit-plane dot product (R188, R189, R75). -/
namespace Sys2Proof.Machine

/-- An integer reduction: how it reads an element and combines two, and its value over no element. -/
structure Red where
  unsigned : Bool
  comb : Int → Int → Int
  empty : Desc → Int

def redAdd : Red := ⟨false, fun a b => a + b, fun _ => 0⟩
def redMin : Red := ⟨false, fun a b => min a b, intMax⟩
def redMax : Red := ⟨false, fun a b => max a b, intMin⟩
def redMinu : Red := ⟨true, fun a b => min a b, fun D => 2 ^ D.w - 1⟩
def redMaxu : Red := ⟨true, fun a b => max a b, fun _ => 0⟩
def redAnd : Red := ⟨false, bitwise (fun x y => x &&& y), fun _ => -1⟩
def redOr : Red := ⟨false, bitwise (fun x y => x ||| y), fun _ => 0⟩
def redXor : Red := ⟨false, bitwise (fun x y => x ^^^ y), fun _ => 0⟩

def Red.value (r : Red) (s : State) (A : Desc) (n e : Nat) : Int :=
  if r.unsigned then (elemBits s n A.w e : Int) else elemInt s A n e

/-- Combines values in index order; none over no value. -/
def Red.fold (r : Red) : List Int → Option Int
  | [] => none
  | v :: vs => some (vs.foldl r.comb v)

/-- VRED (R186): element 0 takes the result when VL > 0; a poisoned element would enter the word unit and ends the gang. -/
def vred (c : Ctl) (o : VF) (s : State) (r : Red) : Out :=
  let A := descOf c s .a
  let D := descOf c s .d
  vecFrame c s [.a, .d] (intDesc A && intDesc D) [srcNamed o.va A.w, dstNamed c o.vd D.w] none none (fun s =>
    if (actives c s).any (elemPoisoned s o.va.toNat A.w) then poisonEnd s 0
    else
      let v := (r.fold ((actives c s).map (r.value s A o.va.toNat))).getD (r.empty D)
      retire c (if s.h.csr.vl = 0 then s else writeElems s o.vd.toNat D.w D.sgn [⟨0, wrap D.w v, false⟩]))

def execVredAdd (c : Ctl) (o : VF) (s : State) : Out := vred c o s redAdd
def execVredMin (c : Ctl) (o : VF) (s : State) : Out := vred c o s redMin
def execVredMax (c : Ctl) (o : VF) (s : State) : Out := vred c o s redMax
def execVredMinu (c : Ctl) (o : VF) (s : State) : Out := vred c o s redMinu
def execVredMaxu (c : Ctl) (o : VF) (s : State) : Out := vred c o s redMaxu
def execVredAnd (c : Ctl) (o : VF) (s : State) : Out := vred c o s redAnd
def execVredOr (c : Ctl) (o : VF) (s : State) : Out := vred c o s redOr
def execVredXor (c : Ctl) (o : VF) (s : State) : Out := vred c o s redXor

/-- The running combination over the active elements, each paired with its prefix. -/
def Red.prefixes (r : Red) : Option Int → List (Nat × Int) → List (Nat × Int)
  | _, [] => []
  | acc, (e, v) :: rest =>
    let p := match acc with
      | none => v
      | some a => r.comb a v
    (e, p) :: r.prefixes (some p) rest

/-- Items of a scan: prefixes for the active elements, zeros under Z for the others. -/
def scanItems (c : Ctl) (w : Nat) : List Nat → List (Nat × Int) → List Item
  | [], _ => []
  | e :: es, [] => if c.z then ⟨e, 0, false⟩ :: scanItems c w es [] else scanItems c w es []
  | e :: es, (k, v) :: ps =>
    if e = k then ⟨e, wrap w v, false⟩ :: scanItems c w es ps
    else if c.z then ⟨e, 0, false⟩ :: scanItems c w es ((k, v) :: ps)
    else scanItems c w es ((k, v) :: ps)

/-- VSCAN (R187). A poisoned element enters the tail in the word unit and ends the gang (R417). -/
def vscan (c : Ctl) (o : VF) (s : State) (r : Red) : Out :=
  let A := descOf c s .a
  let D := descOf c s .d
  vecFrame c s [.a, .d] (intDesc A && intDesc D) [srcNamed o.va A.w, dstNamed c o.vd D.w] none none (fun s =>
    if (actives c s).any (elemPoisoned s o.va.toNat A.w) then poisonEnd s 0
    else
      let ps := r.prefixes none ((actives c s).map (fun e => (e, r.value s A o.va.toNat e)))
      retire c (writeElems s o.vd.toNat D.w D.sgn (scanItems c D.w (elems s) ps)))

def execVscanAdd (c : Ctl) (o : VF) (s : State) : Out := vscan c o s redAdd
def execVscanMin (c : Ctl) (o : VF) (s : State) : Out := vscan c o s redMin
def execVscanMax (c : Ctl) (o : VF) (s : State) : Out := vscan c o s redMax
def execVscanMinu (c : Ctl) (o : VF) (s : State) : Out := vscan c o s redMinu
def execVscanMaxu (c : Ctl) (o : VF) (s : State) : Out := vscan c o s redMaxu
def execVscanAnd (c : Ctl) (o : VF) (s : State) : Out := vscan c o s redAnd
def execVscanOr (c : Ctl) (o : VF) (s : State) : Out := vscan c o s redOr
def execVscanXor (c : Ctl) (o : VF) (s : State) : Out := vscan c o s redXor

/-- FOLD·2^16 + RLEN (R368, R402). -/
def grantWord (s : State) : Word := BitVec.ofNat 64 (s.h.csr.fold * 65536 + s.h.csr.rlen)

/-- The planes of V`n` that are not all zero over the active lanes (R189). -/
def livePlanes (c : Ctl) (s : State) (n w : Nat) : Nat :=
  popCount 64 ((actives c s).foldl (fun m e => m ||| elemBits s n w e) 0)

/-- The plane pairs that VDOT executes in elastic mode (R189). -/
def planePairs (c : Ctl) (s : State) (o : V3) (A B : Desc) : Nat :=
  livePlanes c s o.va.toNat A.w * livePlanes c s o.vb.toNat B.w

/-- VDOT (R188): needs FOLD = 1; KEEP starts from D.0. The dot register wraps at 64 bits (R75). -/
def execVdot (c : Ctl) (o : V3) (s : State) : Out :=
  let A := descOf c s .a
  let B := descOf c s .b
  let D := descOf c s .d
  let keep := c.imm.getLsbD 0
  let dst := if keep then srcNamed o.vd D.w else dstNamed c o.vd D.w
  vecFrame c s [.a, .b, .d] (intDesc A && intDesc B && intDesc D) [srcNamed o.va A.w, srcNamed o.vb B.w, dst]
    (trapIf (s.h.csr.fold != 1) (Trap.here s 4 8 (grantWord s))) none (fun s =>
      if (actives c s).any (fun e => elemPoisoned s o.va.toNat A.w e || elemPoisoned s o.vb.toNat B.w e) then poisonEnd s 0
      else
        let start : Int := if keep then elemInt s D o.vd.toNat 0 else 0
        let sum := (actives c s).foldl (fun t e => t + elemInt s A o.va.toNat e * elemInt s B o.vb.toNat e) start
        let dot := BitVec.ofInt 64 sum
        let s := modH (setWork s (planePairs c s o A B)) (fun h => { h with dot := dot })
        retire c (if s.h.csr.vl = 0 then s else writeElems s o.vd.toNat D.w D.sgn [⟨0, wrap D.w dot.toInt, false⟩]))

end Sys2Proof.Machine
end

