-- ==== Sys2Proof/Machine/Events.lean ====
section
/-! DEFINITION. The device's events: each calls the meaning of its row, as `exec` does. -/
namespace Sys2Proof.Machine

def execEvent (e : Event) (s : State) : Out :=
  match e with
  | .trapEntry cls code eaddr => execTrapEntry cls code eaddr s
  | .asyncInterrupt => execAsyncInterrupt s
  | .swap regs => execSwap regs s
  | .resultLanding n => execResultLanding n s
  | .loadDataReturn => execLoadDataReturn s
  | .rowDrowsy core row => execRowDrowsy core row s
  | .arrayRampUpEnd core => execArrayRampUpEnd core s
  | .arrayRampDown core => execArrayRampDown core s
  | .arrayRampDownEnd core => execArrayRampDownEnd core s
  | .burstHoldEnd core => execBurstHoldEnd core s
  | .apertureQueueAccept gang hart => execApertureQueueAccept gang hart s
  | .copyStart chan => execCopyStart chan s
  | .translationWalk asid va => execTranslationWalk asid va s
  | .chunkLand chan k => execChunkLand chan k s
  | .chunkRetry chan k => execChunkRetry chan k s
  | .followOnSweep core => execFollowOnSweep core s
  | .sweepDone core => execSweepDone core s
  | .kvwalkCarriageStart chan => execKvwalkCarriageStart chan s
  | .binPairWrite die => execBinPairWrite die s
  | .coachOpApply die => execCoachOpApply die s
  | .coachOpComplete gang hart => execCoachOpComplete gang hart s
  | .replicaApply n => execReplicaApply n s
  | .waitComplete gang hart => execWaitComplete gang hart s
  | .waitmReread gang hart => execWaitmReread gang hart s
  | .fenceRelease gang hart => execFenceRelease gang hart s
  | .binflushComplete gang hart => execBinflushComplete gang hart s
  | .barrierComplete gang => execBarrierComplete gang s
  | .timingTrap gang hart => execTimingTrap gang hart s
  | .timingConditionMet gang hart => execTimingConditionMet gang hart s
  | .timingRestart gang hart => execTimingRestart gang hart s
  | .waitRelease gang hart => execWaitRelease gang hart s
  | .icacheFill va => execIcacheFill va s
  | .icacheParityRefill va => execIcacheParityRefill va s
  | .launchArrival n => execLaunchArrival n s
  | .gqryArrival n => execGqryArrival n s
  | .placementPass part => execPlacementPass part s
  | .preemptionStop gang => execPreemptionStop gang s
  | .prologue gang => execPrologue gang s
  | .gangStart gang => execGangStart gang s
  | .gangRetire gang => execGangRetire gang s
  | .gangFaultEnd gang => execGangFaultEnd gang s
  | .faultRecordDelivery n => execFaultRecordDelivery n s
  | .hostLaunch vf lid => execHostLaunch vf lid s
  | .lock vf cmd arg => execLock vf cmd arg s
  | .unlock vf cmd arg => execUnlock vf cmd arg s
  | .pageInvalidate vf cmd arg => execPageInvalidate vf cmd arg s
  | .migrate vf cmd arg => execMigrate vf cmd arg s
  | .migrationChunkCopy n => execMigrationChunkCopy n s
  | .diemapWrite v => execDiemapWrite v s
  | .dieAssignmentDone => execDieAssignmentDone s
  | .shareWrite v => execShareWrite v s
  | .logclrVcount part => execLogclrVcount part s
  | .logclrFcount part => execLogclrFcount part s
  | .registerWrite pf vf off v => execRegisterWrite pf vf off v s
  | .bar2Read vf off len => execBar2Read vf off len s
  | .bar2Write vf off bytes => execBar2Write vf off bytes s
  | .tbConfigWrite cluster tb v => execTbConfigWrite cluster tb v s
  | .tbLandedClear cluster tb dw v => execTbLandedClear cluster tb dw v s
  | .halt gang => execHalt gang s
  | .run gang => execRun gang s
  | .step gang hart => execStep gang hart s
  | .quiesce gang => execQuiesce gang s
  | .readv gang hart v e => execReadv gang hart v e s
  | .readx gang hart arg csr => execReadx gang hart arg csr s
  | .writex gang hart arg csr v => execWritex gang hart arg csr v s
  | .unfence core row => execUnfence core row s
  | .inject space addr kind => execInject space addr kind s
  | .monitorConfigWrite unit v => execMonitorConfigWrite unit v s
  | .monitorSample unit v => execMonitorSample unit v s
  | .alarmClear unit => execAlarmClear unit s
  | .firmwareBoot image key sig => execFirmwareBoot image key sig s
  | .attestationReport nonce => execAttestationReport nonce s
  | .thermalStall die reading => execThermalStall die reading s
  | .dieStopTemperature die reading => execDieStopTemperature die reading s
  | .ucieEdgeLoss edge => execUcieEdgeLoss edge s
  | .correctedWriteback space addr => execCorrectedWriteback space addr s
  | .transferRetry chan k delay => execTransferRetry chan k delay s
  | .uncorrectedError space addr => execUncorrectedError space addr s
  | .thermalStallEnd die => execThermalStallEnd die s
  | .mailboxWindowWrite vf off v => execMailboxWindowWrite vf off v s

end Sys2Proof.Machine
end

