-- ==== Sys2Proof/Machine/Dispatch.lean ====
section
/-! DEFINITION. One arm per row of spec/opcode_table.json: each calls its meaning. -/
namespace Sys2Proof.Machine

def exec (i : Instr) (s : State) : Host.Outcome State Fault Refusal :=
  match i with
  | .add c o => Sys2Proof.Machine.execAdd c o s
  | .sub c o => Sys2Proof.Machine.execSub c o s
  | .and c o => Sys2Proof.Machine.execAnd c o s
  | .or c o => Sys2Proof.Machine.execOr c o s
  | .xor c o => Sys2Proof.Machine.execXor c o s
  | .andn c o => Sys2Proof.Machine.execAndn c o s
  | .min c o => Sys2Proof.Machine.execMin c o s
  | .max c o => Sys2Proof.Machine.execMax c o s
  | .minu c o => Sys2Proof.Machine.execMinu c o s
  | .maxu c o => Sys2Proof.Machine.execMaxu c o s
  | .slt c o => Sys2Proof.Machine.execSlt c o s
  | .sltu c o => Sys2Proof.Machine.execSltu c o s
  | .sll c o => Sys2Proof.Machine.execSll c o s
  | .srl c o => Sys2Proof.Machine.execSrl c o s
  | .sra c o => Sys2Proof.Machine.execSra c o s
  | .sel c o => Sys2Proof.Machine.execSel c o s
  | .mul c o => Sys2Proof.Machine.execMul c o s
  | .mulh c o => Sys2Proof.Machine.execMulh c o s
  | .mulhu c o => Sys2Proof.Machine.execMulhu c o s
  | .div c o => Sys2Proof.Machine.execDiv c o s
  | .divu c o => Sys2Proof.Machine.execDivu c o s
  | .rem c o => Sys2Proof.Machine.execRem c o s
  | .remu c o => Sys2Proof.Machine.execRemu c o s
  | .clz c o => Sys2Proof.Machine.execClz c o s
  | .ctz c o => Sys2Proof.Machine.execCtz c o s
  | .popc c o => Sys2Proof.Machine.execPopc c o s
  | .ext c o => Sys2Proof.Machine.execExt c o s
  | .ins c o => Sys2Proof.Machine.execIns c o s
  | .addi c o => Sys2Proof.Machine.execAddi c o s
  | .andi c o => Sys2Proof.Machine.execAndi c o s
  | .ori c o => Sys2Proof.Machine.execOri c o s
  | .xori c o => Sys2Proof.Machine.execXori c o s
  | .slli c o => Sys2Proof.Machine.execSlli c o s
  | .srli c o => Sys2Proof.Machine.execSrli c o s
  | .srai c o => Sys2Proof.Machine.execSrai c o s
  | .slti c o => Sys2Proof.Machine.execSlti c o s
  | .li c o => Sys2Proof.Machine.execLi c o s
  | .la c o => Sys2Proof.Machine.execLa c o s
  | .ld c o => Sys2Proof.Machine.execLd c o s
  | .ldu c o => Sys2Proof.Machine.execLdu c o s
  | .st c o => Sys2Proof.Machine.execSt c o s
  | .ldq c o => Sys2Proof.Machine.execLdq c o s
  | .stq c o => Sys2Proof.Machine.execStq c o s
  | .btx c o => Sys2Proof.Machine.execBtx c o s
  | .beq c o => Sys2Proof.Machine.execBeq c o s
  | .bne c o => Sys2Proof.Machine.execBne c o s
  | .blt c o => Sys2Proof.Machine.execBlt c o s
  | .bge c o => Sys2Proof.Machine.execBge c o s
  | .bltu c o => Sys2Proof.Machine.execBltu c o s
  | .bgeu c o => Sys2Proof.Machine.execBgeu c o s
  | .jmp c o => Sys2Proof.Machine.execJmp c o s
  | .jal c o => Sys2Proof.Machine.execJal c o s
  | .jalr c o => Sys2Proof.Machine.execJalr c o s
  | .loop c o => Sys2Proof.Machine.execLoop c o s
  | .waitc c o => Sys2Proof.Machine.execWaitc c o s
  | .nop c o => Sys2Proof.Machine.execNop c o s
  | .exit c o => Sys2Proof.Machine.execExit c o s
  | .yield c o => Sys2Proof.Machine.execYield c o s
  | .trap c o => Sys2Proof.Machine.execTrap c o s
  | .brk c o => Sys2Proof.Machine.execBrk c o s
  | .rte c o => Sys2Proof.Machine.execRte c o s
  | .csrr c o => Sys2Proof.Machine.execCsrr c o s
  | .csrw c o => Sys2Proof.Machine.execCsrw c o s
  | .csrs c o => Sys2Proof.Machine.execCsrs c o s
  | .csrc c o => Sys2Proof.Machine.execCsrc c o s
  | .pool c o => Sys2Proof.Machine.execPool c o s
  | .setvl c o => Sys2Proof.Machine.execSetvl c o s
  | .setvt c o => Sys2Proof.Machine.execSetvt c o s
  | .vdecl c o => Sys2Proof.Machine.execVdecl c o s
  | .vqry c o => Sys2Proof.Machine.execVqry c o s
  | .vadd c o => Sys2Proof.Machine.execVadd c o s
  | .vsub c o => Sys2Proof.Machine.execVsub c o s
  | .vadds c o => Sys2Proof.Machine.execVadds c o s
  | .vsubs c o => Sys2Proof.Machine.execVsubs c o s
  | .vmul c o => Sys2Proof.Machine.execVmul c o s
  | .vmulh c o => Sys2Proof.Machine.execVmulh c o s
  | .vmac c o => Sys2Proof.Machine.execVmac c o s
  | .vmin c o => Sys2Proof.Machine.execVmin c o s
  | .vmax c o => Sys2Proof.Machine.execVmax c o s
  | .vand c o => Sys2Proof.Machine.execVand c o s
  | .vor c o => Sys2Proof.Machine.execVor c o s
  | .vxor c o => Sys2Proof.Machine.execVxor c o s
  | .vandn c o => Sys2Proof.Machine.execVandn c o s
  | .vneg c o => Sys2Proof.Machine.execVneg c o s
  | .vabs c o => Sys2Proof.Machine.execVabs c o s
  | .vnot c o => Sys2Proof.Machine.execVnot c o s
  | .vmov c o => Sys2Proof.Machine.execVmov c o s
  | .vclz c o => Sys2Proof.Machine.execVclz c o s
  | .vpopc c o => Sys2Proof.Machine.execVpopc c o s
  | .vwide c o => Sys2Proof.Machine.execVwide c o s
  | .vshl c o => Sys2Proof.Machine.execVshl c o s
  | .vshr c o => Sys2Proof.Machine.execVshr c o s
  | .vsra c o => Sys2Proof.Machine.execVsra c o s
  | .vshv c o => Sys2Proof.Machine.execVshv c o s
  | .vbool c o => Sys2Proof.Machine.execVbool c o s
  | .vcmp c o => Sys2Proof.Machine.execVcmp c o s
  | .vsel c o => Sys2Proof.Machine.execVsel c o s
  | .vsplat c o => Sys2Proof.Machine.execVsplat c o s
  | .viota c o => Sys2Proof.Machine.execViota c o s
  | .vlut c o => Sys2Proof.Machine.execVlut c o s
  | .pand c o => Sys2Proof.Machine.execPand c o s
  | .por c o => Sys2Proof.Machine.execPor c o s
  | .pxor c o => Sys2Proof.Machine.execPxor c o s
  | .pnot c o => Sys2Proof.Machine.execPnot c o s
  | .pandn c o => Sys2Proof.Machine.execPandn c o s
  | .pcnt c o => Sys2Proof.Machine.execPcnt c o s
  | .pfirst c o => Sys2Proof.Machine.execPfirst c o s
  | .pset c o => Sys2Proof.Machine.execPset c o s
  | .pmov c o => Sys2Proof.Machine.execPmov c o s
  | .vredAdd c o => Sys2Proof.Machine.execVredAdd c o s
  | .vredMin c o => Sys2Proof.Machine.execVredMin c o s
  | .vredMax c o => Sys2Proof.Machine.execVredMax c o s
  | .vredMinu c o => Sys2Proof.Machine.execVredMinu c o s
  | .vredMaxu c o => Sys2Proof.Machine.execVredMaxu c o s
  | .vredAnd c o => Sys2Proof.Machine.execVredAnd c o s
  | .vredOr c o => Sys2Proof.Machine.execVredOr c o s
  | .vredXor c o => Sys2Proof.Machine.execVredXor c o s
  | .vscanAdd c o => Sys2Proof.Machine.execVscanAdd c o s
  | .vscanMin c o => Sys2Proof.Machine.execVscanMin c o s
  | .vscanMax c o => Sys2Proof.Machine.execVscanMax c o s
  | .vscanMinu c o => Sys2Proof.Machine.execVscanMinu c o s
  | .vscanMaxu c o => Sys2Proof.Machine.execVscanMaxu c o s
  | .vscanAnd c o => Sys2Proof.Machine.execVscanAnd c o s
  | .vscanOr c o => Sys2Proof.Machine.execVscanOr c o s
  | .vscanXor c o => Sys2Proof.Machine.execVscanXor c o s
  | .vdot c o => Sys2Proof.Machine.execVdot c o s
  | .vperm c o => Sys2Proof.Machine.execVperm c o s
  | .vslide c o => Sys2Proof.Machine.execVslide c o s
  | .vxch c o => Sys2Proof.Machine.execVxch c o s
  | .vbcast c o => Sys2Proof.Machine.execVbcast c o s
  | .vfadd c o => Sys2Proof.Machine.execVfadd c o s
  | .vfsub c o => Sys2Proof.Machine.execVfsub c o s
  | .vfmul c o => Sys2Proof.Machine.execVfmul c o s
  | .vfma c o => Sys2Proof.Machine.execVfma c o s
  | .vfms c o => Sys2Proof.Machine.execVfms c o s
  | .vfnma c o => Sys2Proof.Machine.execVfnma c o s
  | .vfdiv c o => Sys2Proof.Machine.execVfdiv c o s
  | .vfsqrt c o => Sys2Proof.Machine.execVfsqrt c o s
  | .vfclass c o => Sys2Proof.Machine.execVfclass c o s
  | .vfcvt c o => Sys2Proof.Machine.execVfcvt c o s
  | .vftoi c o => Sys2Proof.Machine.execVftoi c o s
  | .vitof c o => Sys2Proof.Machine.execVitof c o s
  | .vfred c o => Sys2Proof.Machine.execVfred c o s
  | .vmxq c o => Sys2Proof.Machine.execVmxq c o s
  | .vmxd c o => Sys2Proof.Machine.execVmxd c o s
  | .vhad c o => Sys2Proof.Machine.execVhad c o s
  | .vfmin c o => Sys2Proof.Machine.execVfmin c o s
  | .vfmax c o => Sys2Proof.Machine.execVfmax c o s
  | .vfcmp c o => Sys2Proof.Machine.execVfcmp c o s
  | .vfsgn c o => Sys2Proof.Machine.execVfsgn c o s
  | .vldz c o => Sys2Proof.Machine.execVldz c o s
  | .vstz c o => Sys2Proof.Machine.execVstz c o s
  | .mcfg c o => Sys2Proof.Machine.execMcfg c o s
  | .mzero c o => Sys2Proof.Machine.execMzero c o s
  | .mop c o => Sys2Proof.Machine.execMop c o s
  | .mops c o => Sys2Proof.Machine.execMops c o s
  | .mopg c o => Sys2Proof.Machine.execMopg c o s
  | .mdrain c o => Sys2Proof.Machine.execMdrain c o s
  | .mscale c o => Sys2Proof.Machine.execMscale c o s
  | .msave c o => Sys2Proof.Machine.execMsave c o s
  | .mrest c o => Sys2Proof.Machine.execMrest c o s
  | .mburst c o => Sys2Proof.Machine.execMburst c o s
  | .mwait c o => Sys2Proof.Machine.execMwait c o s
  | .sexp c o => Sys2Proof.Machine.execSexp c o s
  | .sfit c o => Sys2Proof.Machine.execSfit c o s
  | .sargmin c o => Sys2Proof.Machine.execSargmin c o s
  | .vgen c o => Sys2Proof.Machine.execVgen c o s
  | .tld c o => Sys2Proof.Machine.execTld c o s
  | .tst c o => Sys2Proof.Machine.execTst c o s
  | .tldx c o => Sys2Proof.Machine.execTldx c o s
  | .tstx c o => Sys2Proof.Machine.execTstx c o s
  | .twait c o => Sys2Proof.Machine.execTwait c o s
  | .tclr c o => Sys2Proof.Machine.execTclr c o s
  | .tqry c o => Sys2Proof.Machine.execTqry c o s
  | .binput c o => Sys2Proof.Machine.execBinput c o s
  | .binflush c o => Sys2Proof.Machine.execBinflush c o s
  | .kvapp c o => Sys2Proof.Machine.execKvapp c o s
  | .retspan c o => Sys2Proof.Machine.execRetspan c o s
  | .kvpin c o => Sys2Proof.Machine.execKvpin c o s
  | .kvunpin c o => Sys2Proof.Machine.execKvunpin c o s
  | .kvqryDesc c o => Sys2Proof.Machine.execKvqryDesc c o s
  | .kvqryPos c o => Sys2Proof.Machine.execKvqryPos c o s
  | .kvqryHdr c o => Sys2Proof.Machine.execKvqryHdr c o s
  | .kvqryCount c o => Sys2Proof.Machine.execKvqryCount c o s
  | .sld c o => Sys2Proof.Machine.execSld c o s
  | .sst c o => Sys2Proof.Machine.execSst c o s
  | .sadd c o => Sys2Proof.Machine.execSadd c o s
  | .ssub c o => Sys2Proof.Machine.execSsub c o s
  | .smul c o => Sys2Proof.Machine.execSmul c o s
  | .smax c o => Sys2Proof.Machine.execSmax c o s
  | .sscale c o => Sys2Proof.Machine.execSscale c o s
  | .sdot c o => Sys2Proof.Machine.execSdot c o s
  | .sxpand c o => Sys2Proof.Machine.execSxpand c o s
  | .spack c o => Sys2Proof.Machine.execSpack c o s
  | .shacc c o => Sys2Proof.Machine.execShacc c o s
  | .slen c o => Sys2Proof.Machine.execSlen c o s
  | .amoAdd c o => Sys2Proof.Machine.execAmoAdd c o s
  | .amoAnd c o => Sys2Proof.Machine.execAmoAnd c o s
  | .amoOr c o => Sys2Proof.Machine.execAmoOr c o s
  | .amoXor c o => Sys2Proof.Machine.execAmoXor c o s
  | .amoMin c o => Sys2Proof.Machine.execAmoMin c o s
  | .amoMax c o => Sys2Proof.Machine.execAmoMax c o s
  | .amoMinu c o => Sys2Proof.Machine.execAmoMinu c o s
  | .amoMaxu c o => Sys2Proof.Machine.execAmoMaxu c o s
  | .amocas c o => Sys2Proof.Machine.execAmocas c o s
  | .amoSwap c o => Sys2Proof.Machine.execAmoSwap c o s
  | .amofFp32 c o => Sys2Proof.Machine.execAmofFp32 c o s
  | .amofFp64 c o => Sys2Proof.Machine.execAmofFp64 c o s
  | .amofBf16 c o => Sys2Proof.Machine.execAmofBf16 c o s
  | .amox c o => Sys2Proof.Machine.execAmox c o s
  | .amoxrFp32 c o => Sys2Proof.Machine.execAmoxrFp32 c o s
  | .amoxrFp64 c o => Sys2Proof.Machine.execAmoxrFp64 c o s
  | .fencer c o => Sys2Proof.Machine.execFencer c o s
  | .fence c o => Sys2Proof.Machine.execFence c o s
  | .waitm c o => Sys2Proof.Machine.execWaitm c o s
  | .gbar c o => Sys2Proof.Machine.execGbar c o s
  | .etrig c o => Sys2Proof.Machine.execEtrig c o s
  | .glaunch c o => Sys2Proof.Machine.execGlaunch c o s
  | .gqry c o => Sys2Proof.Machine.execGqry c o s
  | .trapEntry cls code eaddr => Sys2Proof.Machine.execTrapEntry cls code eaddr s
  | .asyncInterrupt => Sys2Proof.Machine.execAsyncInterrupt s
  | .swap regs => Sys2Proof.Machine.execSwap regs s
  | .resultLanding n => Sys2Proof.Machine.execResultLanding n s
  | .loadDataReturn => Sys2Proof.Machine.execLoadDataReturn s
  | .rowDrowsy core row => Sys2Proof.Machine.execRowDrowsy core row s
  | .arrayRampUpEnd core => Sys2Proof.Machine.execArrayRampUpEnd core s
  | .arrayRampDown core => Sys2Proof.Machine.execArrayRampDown core s
  | .arrayRampDownEnd core => Sys2Proof.Machine.execArrayRampDownEnd core s
  | .burstHoldEnd core => Sys2Proof.Machine.execBurstHoldEnd core s
  | .apertureQueueAccept gang hart => Sys2Proof.Machine.execApertureQueueAccept gang hart s
  | .copyStart chan => Sys2Proof.Machine.execCopyStart chan s
  | .translationWalk asid va => Sys2Proof.Machine.execTranslationWalk asid va s
  | .chunkLand chan k => Sys2Proof.Machine.execChunkLand chan k s
  | .chunkRetry chan k => Sys2Proof.Machine.execChunkRetry chan k s
  | .followOnSweep core => Sys2Proof.Machine.execFollowOnSweep core s
  | .sweepDone core => Sys2Proof.Machine.execSweepDone core s
  | .kvwalkCarriageStart chan => Sys2Proof.Machine.execKvwalkCarriageStart chan s
  | .binPairWrite die => Sys2Proof.Machine.execBinPairWrite die s
  | .coachOpApply die => Sys2Proof.Machine.execCoachOpApply die s
  | .coachOpComplete gang hart => Sys2Proof.Machine.execCoachOpComplete gang hart s
  | .replicaApply n => Sys2Proof.Machine.execReplicaApply n s
  | .waitComplete gang hart => Sys2Proof.Machine.execWaitComplete gang hart s
  | .waitmReread gang hart => Sys2Proof.Machine.execWaitmReread gang hart s
  | .fenceRelease gang hart => Sys2Proof.Machine.execFenceRelease gang hart s
  | .binflushComplete gang hart => Sys2Proof.Machine.execBinflushComplete gang hart s
  | .barrierComplete gang => Sys2Proof.Machine.execBarrierComplete gang s
  | .timingTrap gang hart => Sys2Proof.Machine.execTimingTrap gang hart s
  | .timingConditionMet gang hart => Sys2Proof.Machine.execTimingConditionMet gang hart s
  | .timingRestart gang hart => Sys2Proof.Machine.execTimingRestart gang hart s
  | .waitRelease gang hart => Sys2Proof.Machine.execWaitRelease gang hart s
  | .icacheFill va => Sys2Proof.Machine.execIcacheFill va s
  | .icacheParityRefill va => Sys2Proof.Machine.execIcacheParityRefill va s
  | .launchArrival n => Sys2Proof.Machine.execLaunchArrival n s
  | .gqryArrival n => Sys2Proof.Machine.execGqryArrival n s
  | .placementPass part => Sys2Proof.Machine.execPlacementPass part s
  | .preemptionStop gang => Sys2Proof.Machine.execPreemptionStop gang s
  | .prologue gang => Sys2Proof.Machine.execPrologue gang s
  | .gangStart gang => Sys2Proof.Machine.execGangStart gang s
  | .gangRetire gang => Sys2Proof.Machine.execGangRetire gang s
  | .gangFaultEnd gang => Sys2Proof.Machine.execGangFaultEnd gang s
  | .faultRecordDelivery n => Sys2Proof.Machine.execFaultRecordDelivery n s
  | .hostLaunch vf lid => Sys2Proof.Machine.execHostLaunch vf lid s
  | .lock vf cmd arg => Sys2Proof.Machine.execLock vf cmd arg s
  | .unlock vf cmd arg => Sys2Proof.Machine.execUnlock vf cmd arg s
  | .pageInvalidate vf cmd arg => Sys2Proof.Machine.execPageInvalidate vf cmd arg s
  | .migrate vf cmd arg => Sys2Proof.Machine.execMigrate vf cmd arg s
  | .migrationChunkCopy n => Sys2Proof.Machine.execMigrationChunkCopy n s
  | .diemapWrite v => Sys2Proof.Machine.execDiemapWrite v s
  | .dieAssignmentDone => Sys2Proof.Machine.execDieAssignmentDone s
  | .shareWrite v => Sys2Proof.Machine.execShareWrite v s
  | .logclrVcount part => Sys2Proof.Machine.execLogclrVcount part s
  | .logclrFcount part => Sys2Proof.Machine.execLogclrFcount part s
  | .registerWrite pf vf off v => Sys2Proof.Machine.execRegisterWrite pf vf off v s
  | .bar2Read vf off len => Sys2Proof.Machine.execBar2Read vf off len s
  | .bar2Write vf off bytes => Sys2Proof.Machine.execBar2Write vf off bytes s
  | .tbConfigWrite cluster tb v => Sys2Proof.Machine.execTbConfigWrite cluster tb v s
  | .tbLandedClear cluster tb dw v => Sys2Proof.Machine.execTbLandedClear cluster tb dw v s
  | .halt gang => Sys2Proof.Machine.execHalt gang s
  | .run gang => Sys2Proof.Machine.execRun gang s
  | .step gang hart => Sys2Proof.Machine.execStep gang hart s
  | .quiesce gang => Sys2Proof.Machine.execQuiesce gang s
  | .readv gang hart v e => Sys2Proof.Machine.execReadv gang hart v e s
  | .readx gang hart arg csr => Sys2Proof.Machine.execReadx gang hart arg csr s
  | .writex gang hart arg csr v => Sys2Proof.Machine.execWritex gang hart arg csr v s
  | .unfence core row => Sys2Proof.Machine.execUnfence core row s
  | .inject space addr kind => Sys2Proof.Machine.execInject space addr kind s
  | .monitorConfigWrite unit v => Sys2Proof.Machine.execMonitorConfigWrite unit v s
  | .monitorSample unit v => Sys2Proof.Machine.execMonitorSample unit v s
  | .alarmClear unit => Sys2Proof.Machine.execAlarmClear unit s
  | .firmwareBoot image key sig => Sys2Proof.Machine.execFirmwareBoot image key sig s
  | .attestationReport nonce => Sys2Proof.Machine.execAttestationReport nonce s
  | .thermalStall die reading => Sys2Proof.Machine.execThermalStall die reading s
  | .dieStopTemperature die reading => Sys2Proof.Machine.execDieStopTemperature die reading s
  | .ucieEdgeLoss edge => Sys2Proof.Machine.execUcieEdgeLoss edge s
  | .correctedWriteback space addr => Sys2Proof.Machine.execCorrectedWriteback space addr s
  | .transferRetry chan k delay => Sys2Proof.Machine.execTransferRetry chan k delay s
  | .uncorrectedError space addr => Sys2Proof.Machine.execUncorrectedError space addr s
  | .thermalStallEnd die => Sys2Proof.Machine.execThermalStallEnd die s
  | .mailboxWindowWrite vf off v => Sys2Proof.Machine.execMailboxWindowWrite vf off v s

end Sys2Proof.Machine
end

