-- ==== Sys2Proof/Machine/Timing.lean ====
section
/-! DEFINITION. The laws of issue (R16, R37 to R43, R45, R150 to R153, R192): what an instruction holds, reads, writes and waits
for, and the first cy in which it may issue. Figures are those of the unloaded device (log 6). -/
namespace Sys2Proof.Machine

/-! Units. -/

def Units.get (u : Units) : UnitName → Nat
  | .scalar => u.scalar | .vector => u.vector | .matrix => u.matrix | .word => u.word
  | .transform => u.transform | .drain => u.drain | .tile => u.tile

def Units.set (u : Units) (n : UnitName) (t : Nat) : Units :=
  match n with
  | .scalar => { u with scalar := t }
  | .vector => { u with vector := t }
  | .matrix => { u with matrix := t }
  | .word => { u with word := t }
  | .transform => { u with transform := t }
  | .drain => { u with drain := t }
  | .tile => { u with tile := t }

def xLocs (rs : List (BitVec 5)) : List Loc := (rs.filter (fun r => r != 0)).map (fun r => .x r.toNat)
def vLocs (ns : List (BitVec 6)) : List Loc := ns.map (fun n => .v n.toNat)
def predLocs (c : Ctl) : List Loc := if c.pred = 0 then [] else [.p c.pred.toNat]
def tableLocs (ns : List Nat) : List Loc := ns.map Loc.table
def accLocs (lo n : Nat) : List Loc := (List.range n).map (fun i => .acc (lo + i))

/-- The broadcast delay of a spanning hart (R37). -/
def skewOf (s : State) : Nat := 48 * spanOf s

/-- A scalar instruction. -/
def scalarCost (reads : List (BitVec 5)) (lands : List (BitVec 5 × Nat)) (occ : Nat := 1) : Cost :=
  { units := [⟨.scalar, 0, occ⟩], reads := xLocs reads, lands }

/-- The elements that an element-wise instruction writes, as a set of bits (R36). -/
def writtenMask (c : Ctl) (s : State) : Nat :=
  if c.z || c.pred = 0 then 2 ^ s.h.csr.vl - 1 else (actives c s).foldl (fun m e => m + 2 ^ e) 0

/-- The low bits of an element that a result of the destination's descriptor fills. -/
def resultBits (c : Ctl) (s : State) : Nat := dOf s (descOf c s .d).w * foldOf s

/-- An instruction broadcast to the granted tiles that reads and writes lanes. -/
def laneCost (c : Ctl) (s : State) (units : List UnitUse) (occ : Nat) (reads writes : List Loc) : Cost :=
  { units, skew := skewOf s, occ, reads := predLocs c ++ reads, writes, rows := (0, s.h.csr.rows), port := (0, s.h.csr.rows) }

/-- The same, of the vector unit alone. -/
def vecCost (c : Ctl) (s : State) (occ : Nat) (reads writes : List Loc) : Cost :=
  { laneCost c s [⟨.vector, 0, occ⟩] occ reads writes with cells := some (writtenMask c s, resultBits c s) }

/-- The same, with a destination that it may write beyond the result's planes, or whose elements it moves between rows. -/
def wideCost (c : Ctl) (s : State) (occ : Nat) (reads writes : List Loc) : Cost :=
  { vecCost c s occ reads writes with cells := none }

/-! Scalar and control. -/

/-- L of a scalar load at an address (R150). -/
def loadCost (s : State) (ea : Word) : Nat := loadLatency s (homePlace s ea)

/-- L of a WAITM read (R309): outside the scratchpads an error response answers it (R357). -/
def waitmCost (s : State) (ea : Word) : Nat :=
  match homePlace s ea with
  | .mem _ => loadCost s ea
  | _ => 12

/-- The scratchpad bytes at a local address of the home cluster. -/
def piecesAt (s : State) (ea : Word) (n : Nat) : List (Nat × Nat) :=
  match homePlace s ea with
  | .mem g => [(g, n)]
  | _ => []

/-- L of an atomic (R303, R357): `own` from the own cluster scratchpad. -/
def atomicCost (s : State) (own : Nat) (ea : Word) : Nat :=
  match homePlace s ea with
  | .mem g => if g < dieBase 0 then own else own + 40 + 120 * dieHops (dieOfCore s.h.core) ((g - dieBase 0) / 2 ^ 26)
  | _ => own

def branchCost (o : BR) (taken : Bool) : Cost := { scalarCost [o.xa, o.xb] [] with extra := if taken then 2 else 0 }

def aluCost (o : X3) (l : Nat) (occ : Nat := 1) : Cost := scalarCost [o.xa, o.xb] [(o.xd, l)] occ

/-- The CSR forms: FCSR's flags are read, MCFG waits for the array (R168, R224). -/
def csrCost (o : C) (read write : Bool) : Cost :=
  { scalarCost (if write then [o.xd] else []) (if write then [] else [(o.xd, 1)]) with
    reads := (if write then xLocs [o.xd] else []) ++ (if o.csr = 0x10 && read then [.flags] else [])
    before := if o.csr = 0x11 && write then [.matrixDone] else [] }

def scalarInstr (i : Instr) (s : State) : Option Cost :=
  match i with
  | .add _ o | .sub _ o | .and _ o | .or _ o | .xor _ o | .andn _ o | .min _ o | .max _ o | .minu _ o | .maxu _ o
  | .slt _ o | .sltu _ o | .sll _ o | .srl _ o | .sra _ o | .ext _ o => some (aluCost o 1)
  | .sel _ o | .ins _ o => some (scalarCost [o.xa, o.xb, o.xd] [(o.xd, 1)])
  | .clz _ o | .ctz _ o | .popc _ o => some (scalarCost [o.xa] [(o.xd, 1)])
  | .mul _ o => some (aluCost o 4)
  | .mulh _ o | .mulhu _ o => some (aluCost o 5)
  | .div _ o | .divu _ o | .rem _ o | .remu _ o => some (aluCost o 36 34)
  | .addi _ o | .andi _ o | .ori _ o | .xori _ o | .slli _ o | .srli _ o | .srai _ o | .slti _ o =>
    some (scalarCost [o.xa] [(o.xd, 1)])
  | .li _ o | .la _ o => some (scalarCost [] [(o.xd, 1)])
  | .ld c o =>
    let l := loadCost s (effAddr s o.xa c.imm 8)
    some { scalarCost [o.xa] [(o.xd, l)] with
           access := (true, false), perform := l, pieces := piecesAt s (effAddr s o.xa c.imm 8) 8 }
  | .ldu c o =>
    let l := loadCost s (effAddr s o.xa c.imm 8)
    some { scalarCost [o.xa] (if o.xa = o.xd then [(o.xd, l)] else [(o.xa, 1), (o.xd, l)]) with
           access := (true, false), perform := l, pieces := piecesAt s (effAddr s o.xa c.imm 8) 8 }
  | .ldq c o =>
    let l := loadCost s (effAddr s o.xa c.imm 16)
    some { scalarCost [o.xa] [(o.xd, l), (o.xd + 1, l)] with
           access := (true, false), perform := l, pieces := piecesAt s (effAddr s o.xa c.imm 16) 16 }
  | .st c o => some { scalarCost [o.xa, o.xd] [] with
      access := (false, true), perform := loadCost s (effAddr s o.xa c.imm 8), stored := piecesAt s (effAddr s o.xa c.imm 8) 8 }
  | .stq c o | .btx c o => some { scalarCost [o.xa, o.xd, o.xd + 1] [] with
      access := (false, true), perform := loadCost s (effAddr s o.xa c.imm 16)
      stored := piecesAt s (effAddr s o.xa c.imm 16) 16, extra := s.h.swapCy
      units := ⟨.scalar, 0, 1⟩ :: (if s.h.swapCy = 0 then [] else [⟨.vector, 0, s.h.swapCy⟩])
      occ := s.h.swapCy, port := if s.h.swapCy = 0 then (0, 0) else (0, s.h.csr.rows) }
  | .beq _ o => some (branchCost o (rx s o.xa == rx s o.xb))
  | .bne _ o => some (branchCost o (rx s o.xa != rx s o.xb))
  | .blt _ o => some (branchCost o ((rx s o.xa).slt (rx s o.xb)))
  | .bge _ o => some (branchCost o (!(rx s o.xa).slt (rx s o.xb)))
  | .bltu _ o => some (branchCost o ((rx s o.xa).ult (rx s o.xb)))
  | .bgeu _ o => some (branchCost o (!(rx s o.xa).ult (rx s o.xb)))
  | .jmp _ _ => some { extra := 2 }
  | .jal _ o => some { scalarCost [] [(o.xd, 1)] with extra := 2 }
  | .jalr _ o => some { scalarCost [o.xa] [(o.xd, 1)] with extra := 2 }
  | .loop _ o => some (scalarCost [o.xd] [(o.xd, 1)])
  | .waitc _ o => some (scalarCost [o.xd] [])
  | .exit _ o => some { scalarCost [o.xa] [] with before := [.landed, .performed] }
  | .rte _ _ => some { before := [.landed] }
  | .csrr _ o => some (csrCost o true false)
  | .csrw _ o => some (csrCost o false true)
  | .csrs _ o | .csrc _ o => some (csrCost o true true)
  | .setvl _ o => some { scalarCost [o.xa] [(o.xd, 8 + s.h.swapCy)] with
      units := [⟨.scalar, 0, 4 + s.h.swapCy⟩, ⟨.vector, 0, 4 + s.h.swapCy⟩], before := [.lanes] }
  | .setvt _ o => some (scalarCost [o.xa] [(o.xd, 1)])
  | .mcfg _ o => some { scalarCost [o.xa] [(o.xd, 1)] with before := [.matrixDone] }
  | .vdecl _ o => some { scalarCost [o.xa] [] 2 with before := [.reg o.vd.toNat] }
  | .vqry _ o => some (scalarCost [o.xa] [(o.xb, 4)])
  | _ => none

/-! Integer vectors (R184 to R192). -/

def widthOf (c : Ctl) (s : State) (x : Opnd) : Nat := (descOf c s x).w
def planesAt (c : Ctl) (s : State) (x : Opnd) : Nat := dOf s (widthOf c s x)
def scaleDown (s : State) (n : Nat) : Nat := ceilDiv n (foldOf s)

/-- ceil(log2 n). -/
def clog2 (n : Nat) : Nat := if n ≤ 1 then 0 else Nat.log2 (n - 1) + 1

def linear3 (c : Ctl) (s : State) : Nat := max (planesAt c s .a) (max (planesAt c s .b) (planesAt c s .d)) + 1
def linear2 (c : Ctl) (s : State) : Nat := max (planesAt c s .a) (planesAt c s .d) + 1

/-- Word-unit instructions that hold both units throughout; element 0 lies in row 0. -/
def reduceCost (c : Ctl) (s : State) (occ : Nat) (va vd : BitVec 6) : Cost :=
  { laneCost c s [⟨.vector, 0, occ⟩, ⟨.word, 0, occ⟩] occ (vLocs [va]) (vLocs [vd]) with port := (0, 1), cells := some (1, resultBits c s) }

def redOcc (s : State) (first : Nat) : Nat := first + 12 + s.h.csr.tiles + skewOf s

def scanCost (c : Ctl) (s : State) (o : VF) : Cost :=
  let occ := (clog2 s.h.csr.rlen + 1) * (planesAt c s .d + 1) + ceilDiv (s.h.csr.rows * s.h.csr.tiles) 32 + 12 + 2 * skewOf s
  { laneCost c s [⟨.vector, 0, occ⟩, ⟨.word, 0, occ⟩] occ (vLocs [o.va]) (vLocs [o.vd]) with
    cells := some (writtenMask c s, resultBits c s) }

/-- The die hops between paired tiles of VXCH (R191). -/
def pairHops (s : State) (k : Nat) : Nat :=
  (List.range s.h.csr.tiles).foldl (fun m t =>
    if (t ^^^ k) < s.h.csr.tiles then max m (dieHops (dieOfCore (s.h.core + t)) (dieOfCore (s.h.core + (t ^^^ k)))) else m) 0

def predCost (s : State) (srcs : List (BitVec 4)) (pd : BitVec 4) : Cost :=
  laneCost Ctl.plain s [⟨.vector, 0, 2⟩] 2 ((srcs.filter (fun p => p != 0)).map (fun p => .p p.toNat)) [.p pd.toNat]

def vectorInstr (i : Instr) (s : State) : Option Cost :=
  match i with
  | .vadd c o | .vsub c o | .vmin c o | .vmax c o | .vand c o | .vor c o | .vxor c o | .vandn c o =>
    some (vecCost c s (linear3 c s) (vLocs [o.va, o.vb]) (vLocs [o.vd]))
  | .vsel c o =>
    some { vecCost c s (linear3 c s) (vLocs [o.va, o.vb]) (vLocs [o.vd]) with cells := some (2 ^ s.h.csr.vl - 1, resultBits c s) }
  | .vadds c o | .vsubs c o => some (vecCost c s (linear3 c s) (vLocs [o.va, o.vb]) (.flags :: vLocs [o.vd]))
  | .vbool c o => some (vecCost c s (linear3 c s) (vLocs [o.va, o.vb, o.vd]) (vLocs [o.vd]))
  | .vmul c o | .vmulh c o =>
    some (vecCost c s (scaleDown s (widthOf c s .a * widthOf c s .b) + planesAt c s .d) (vLocs [o.va, o.vb]) (vLocs [o.vd]))
  | .vmac c o =>
    some (vecCost c s (scaleDown s (widthOf c s .a * widthOf c s .b) + planesAt c s .d) (vLocs [o.va, o.vb, o.vd])
      (vLocs [o.vd]))
  | .vshv c o =>
    some (vecCost c s (min (widthOf c s .b) 7 * linear2 c s + 1) (vLocs [o.va, o.vb]) (vLocs [o.vd]))
  | .vcmp c o =>
    some (vecCost c s (max (planesAt c s .a) (max (planesAt c s .b) 1) + 1) (vLocs [o.va, o.vb]) [.p (o.vd.toNat % 16)])
  | .vneg c o | .vabs c o | .vnot c o | .vmov c o => some (vecCost c s (linear2 c s) (vLocs [o.va]) (vLocs [o.vd]))
  | .vshl c o | .vshr c o | .vsra c o => some (vecCost c s (linear2 c s) (vLocs [o.va]) (vLocs [o.vd]))
  | .vwide c o =>
    some (wideCost c s (max (planesAt c s .a) (dOf s (vreg s o.vd.toNat).width) + 1) (vLocs [o.va]) (vLocs [o.vd]))
  | .vclz c o | .vpopc c o =>
    some (vecCost c s (widthOf c s .a * (planesAt c s .d + 1) + 1) (vLocs [o.va]) (vLocs [o.vd]))
  | .vsplat c o | .viota c o => some (vecCost c s (planesAt c s .d + 1) (xLocs [o.xa]) (vLocs [o.vd]))
  | .vlut c o =>
    let e := (vreg s o.va.toNat).entries
    some (vecCost c s (e * (clog2 e + widthOf c s .a)) (vLocs [o.va, o.vb]) (vLocs [o.vd]))
  | .pand _ o | .por _ o | .pxor _ o | .pandn _ o => some (predCost s [o.pa, o.pb] o.pd)
  | .pnot _ o | .pfirst _ o | .pmov _ o => some (predCost s [o.pa] o.pd)
  | .pset _ o => some (predCost s [] o.pd)
  | .pcnt _ o =>
    let occ := 12 + skewOf s
    some { laneCost Ctl.plain s [⟨.vector, 0, occ⟩] occ (if o.pa = 0 then [] else [.p o.pa.toNat]) [] with
           lands := [(o.pd.setWidth 5, skewOf s + occ + 4)], port := (0, 0) }
  | .vredAdd c o | .vredAnd c o | .vredOr c o | .vredXor c o =>
    some (reduceCost c s (redOcc s (planesAt c s .a)) o.va o.vd)
  | .vredMin c o | .vredMax c o | .vredMinu c o | .vredMaxu c o =>
    some (reduceCost c s (redOcc s (widthOf c s .a)) o.va o.vd)
  | .vscanAdd c o | .vscanMin c o | .vscanMax c o | .vscanMinu c o | .vscanMaxu c o | .vscanAnd c o | .vscanOr c o
  | .vscanXor c o => some (scanCost c s o)
  | .vdot c o =>
    let p := if lockstep s then widthOf c s .a * widthOf c s .b else s.h.work
    let occ := 18 + p + skewOf s
    some { laneCost c s [⟨.vector, 0, 4 + p⟩, ⟨.word, 4 + p, 14⟩] occ
             (vLocs ([o.va, o.vb] ++ if c.imm.getLsbD 0 then [o.vd] else [])) (vLocs [o.vd]) with
           port := (0, 1), cells := some (1, resultBits c s) }
  | .vperm c o =>
    some (vecCost c s (planesAt c s .b + 2 * planesAt c s .a + 16) (vLocs [o.va, o.vb]) (vLocs [o.vd]))
  | .vslide c o => some (vecCost c s (planesAt c s .a + 4) (xLocs [o.xb] ++ vLocs [o.va]) (vLocs [o.vd]))
  | .vbcast c o => some (vecCost c s (2 * planesAt c s .a + 8) (xLocs [o.xb] ++ vLocs [o.va]) (vLocs [o.vd]))
  | .vxch c o =>
    let n := c.imm.toNat / 2 ^ 24 % 8 + 1
    some (wideCost c s (16 + n * ceilDiv s.h.csr.rows 4 + 120 * pairHops s (c.imm.toNat % 512)) (vLocs [o.va]) (vLocs [o.vd]))
  | _ => none

/-! Floating point, conversion, transform (R200, R211 to R215). -/

/-- The class of a format (R200). -/
def floatClass (fmt : Nat) : Nat :=
  if fmt = 2 then 64 else if fmt = 3 then 32 else if fmt = 6 ∨ fmt = 7 then 8 else 16

/-- The columns of R200 in the order add, multiply, FMA, divide and root, compare, sign and class. -/
def floatFigures (cls : Nat) : List Nat :=
  if cls = 64 then [640, 3072, 3328, 6912, 80, 66]
  else if cls = 32 then [224, 768, 832, 1728, 40, 34]
  else if cls = 16 then [96, 224, 256, 512, 24, 18]
  else [48, 80, 96, 160, 16, 10]

def floatOcc (c : Ctl) (s : State) (col : Nat) (used : List Opnd) : Nat :=
  scaleDown s ((floatFigures (used.foldl (fun m x => max m (floatClass (descOf c s x).fmt)) 0)).getD col 0)

def float3 (c : Ctl) (s : State) (o : V3) (col : Nat) (more : List (BitVec 6)) : Cost :=
  vecCost c s (floatOcc c s col [.a, .b, .d]) (vLocs ([o.va, o.vb] ++ more)) (.flags :: vLocs [o.vd])

def floatInstr (i : Instr) (s : State) : Option Cost :=
  match i with
  | .vfadd c o | .vfsub c o => some (float3 c s o 0 [])
  | .vfmul c o => some (float3 c s o 1 [])
  | .vfma c o | .vfms c o | .vfnma c o => some (float3 c s o 2 [o.vd])
  | .vfdiv c o => some (float3 c s o 3 [])
  | .vfmin c o | .vfmax c o => some (float3 c s o 4 [])
  | .vfsqrt c o => some (vecCost c s (floatOcc c s 3 [.a, .d]) (vLocs [o.va]) (.flags :: vLocs [o.vd]))
  | .vfcmp c o =>
    some (vecCost c s (floatOcc c s 4 [.a, .b]) (vLocs [o.va, o.vb]) [.flags, .p (o.vd.toNat % 16)])
  | .vfsgn c o => some (vecCost c s (floatOcc c s 5 [.a, .b, .d]) (vLocs [o.va, o.vb]) (vLocs [o.vd]))
  | .vfclass c o => some (vecCost c s (floatOcc c s 5 [.a]) (vLocs [o.va]) (vLocs [o.vd]))
  | .vfcvt c o | .vftoi c o =>
    some (vecCost c s (2 * (planesAt c s .a + planesAt c s .d) + 8) (vLocs [o.va]) (.flags :: vLocs [o.vd]))
  | .vitof c o =>
    some (vecCost c s (2 * (planesAt c s .a + planesAt c s .d) + widthOf c s .a + 8) (vLocs [o.va]) (.flags :: vLocs [o.vd]))
  | .vfred c o =>
    let q := floatOcc c s (if c.imm.toNat % 4 = 0 then 0 else 4) [.a, .d]
    let tail := 4 * (s.h.csr.tiles - 1) + 12
    let occ := clog2 (s.h.csr.rlen * s.h.csr.rows) * (q + 4) + tail + skewOf s
    some { laneCost c s [⟨.vector, 0, occ⟩, ⟨.word, occ - tail, tail⟩] occ (vLocs [o.va]) (.flags :: vLocs [o.vd]) with
           port := (0, 1), cells := some (1, resultBits c s) }
  | .vmxq c o =>
    let word := 16 + ceilDiv (s.h.csr.rlen * s.h.csr.rows) 1024
    let first := 2 * planesAt c s .a
    let occ := first + planesAt c s .d + word + skewOf s
    some (laneCost c s [⟨.vector, 0, occ⟩, ⟨.word, first, word⟩] occ (vLocs [o.va])
      ([.flags, .v (scaleReg c)] ++ vLocs [o.vd]))
  | .vmxd c o =>
    let word := scaleDown s 8 + 8 + skewOf s
    let occ := planesAt c s .a + 2 * planesAt c s .d + word
    some (laneCost c s [⟨.vector, 0, occ⟩, ⟨.word, planesAt c s .a, word⟩] occ (.v (scaleReg c) :: vLocs [o.va])
      (.flags :: vLocs [o.vd]))
  | .vhad c o =>
    let occ := (if c.imm.getLsbD 0 then 5 else 4) * (max (planesAt c s .a) (planesAt c s .d) + 4) + 8
    some (laneCost c s [⟨.vector, 0, occ⟩, ⟨.transform, 0, occ⟩] occ (vLocs [o.va]) (.flags :: vLocs [o.vd]))
  | _ => none

/-! The matrix engine and seeds (R228 to R240, R249 to R252). -/

/-- Ramp filler in front of an array occupancy that begins in cy `t`, the most of the granted tiles (R239). -/
def filler (s : State) (t : Nat) : Nat := (tileCores s).foldl (fun m core => max m (rampFiller s core t)) 0

def arrayCost (c : Ctl) (s : State) (j : Job) : Cost :=
  let occ := filler s (s.cyc + 2 + skewOf s) + j.occupancy
  { laneCost c s [⟨.matrix, 0, occ⟩] occ
      ([.v j.va, .v j.vb] ++ (if j.op = 1 then [.v j.vm] else []) ++ (if j.mode = 2 && !j.gset then tableLocs [5, 6] else []))
      (accLocs 0 256 ++ (if j.mode = 2 then .flags :: tableLocs (if j.gset then [5, 6, 7, 8] else [7, 8]) else [])) with
    port := (0, 0), array := true, rows := j.rows.getD 0 (0, 0), moreRows := j.rows.drop 1 }

/-- The tables that a drain reads (R235, R236). -/
def drainTables (mode : Nat) (sliced : Bool) : List Nat :=
  if mode = 0 then [2, 3] else if mode = 1 then [0, 1, 2, 3, 4] else if sliced then [0, 1, 5, 6, 7, 8] else [0, 1, 2, 3, 5, 6]

/-- The elements below VL of row `row` of every granted tile, at the positions that a drain fills, as a set of bits (R234). -/
def drainMask (s : State) (row : Nat) : Nat :=
  (List.range s.h.csr.tiles).foldl (fun m t =>
    let e := elemOf s t row 0
    m + (2 ^ (min (min 256 s.h.csr.rlen) (s.h.csr.vl - e)) - 1) * 2 ^ e) 0

/-- MDRAIN (R234, R237, R242). -/
def drainCost (c : Ctl) (s : State) (o : V3) : Cost :=
  let sliced := c.imm.toNat / 65536 % 4 == 2 && mcfgMode s == 2
  let top := max (mcfgSa s) (mcfgSb s)
  let i0 := c.imm.toNat % 256
  let n := c.imm.toNat / 256 % 256 + 1
  let occ := 4 + n * (if sliced then top else 1)
  { laneCost c s [⟨.drain, 0, occ⟩] occ
      (accLocs i0 n ++ tableLocs (drainTables (c.imm.toNat / 65536 % 4) sliced) ++ (if sliced && decide (1 < top) then vLocs [o.va] else []) ++
        (if sliced && decide (5 < top) then vLocs [o.vb] else []) ++ (if c.imm.getLsbD 19 then vLocs [o.vd] else []))
      ([.flags] ++ vLocs [o.vd] ++ (if c.imm.getLsbD 20 then accLocs i0 n else [])) with
    rows := (c.rowa.toNat, n), port := (c.rowa.toNat, n), drainRow := some (i0, if sliced then top else 1)
    cells := some (0, resultBits c s)
    rowCells := (List.range n).map (fun k => (Loc.acc (i0 + k), drainMask s (c.rowa.toNat + k))) }

def matrixInstr (i : Instr) (s : State) : Option Cost :=
  match i with
  | .mzero c _ => some { laneCost c s [⟨.matrix, 0, 8⟩] 8 [] (tableLocs [7, 8] ++ accLocs 0 256) with rows := (0, 0), port := (0, 0) }
  | .mop c o => some (arrayCost c s (jobOf c o s 0))
  | .mops c o => some (arrayCost c s (jobOf c o s 1))
  | .mopg c o => some (arrayCost c s (jobOf c o s 2))
  | .mdrain c o => some (drainCost c s o)
  | .mscale c o =>
    some { laneCost c s [⟨.vector, 0, 8⟩, ⟨.drain, 0, 8⟩] 8 (xLocs [o.xa] ++ vLocs [o.vd])
             [.table (tableOf ((rx s o.xa).toNat % 16)), .flags] with rows := (c.rowa.toNat, 1), port := (0, 0), late := 3 }
  | .msave c o =>
    let k := (rx s o.xa).toNat % 4
    some { laneCost c s [⟨.drain, 0, 264⟩, ⟨.matrix, 0, 264⟩] 264 (xLocs [o.xa] ++ accLocs 0 256) (vLocs [o.vd]) with
           rows := (64 * k, 64), port := (64 * k, 64) }
  | .mrest c o =>
    let k := (rx s o.xa).toNat % 4
    some { laneCost c s [⟨.drain, 0, 264⟩, ⟨.matrix, 0, 264⟩] 264 (xLocs [o.xa] ++ vLocs [o.vd])
             (tableLocs [7, 8] ++ accLocs 0 256) with
           rows := (64 * k, 64), port := (0, 0) }
  | .mwait _ o =>
    let k := scalarCost [o.xa] [(o.xd, 4 + skewOf s)]
    some { k with before := [.matrixLanded], reads := k.reads ++ if (rx s o.xa).getLsbD 0 then [] else accLocs 0 256 }
  | .sexp c o => some (wideCost c s 272 (vLocs [o.va]) (vLocs [o.vd]))
  | .sfit c o => some (wideCost c s (80 * widthOf c s .b + 640) (vLocs [o.va, o.vb, o.vd]) (vLocs [o.vd]))
  | .sargmin c o =>
    let occ := 44 + s.h.csr.tiles + skewOf s
    some { laneCost c s [⟨.vector, 0, occ⟩, ⟨.word, 0, occ⟩] occ (xLocs [o.xa] ++ vLocs [o.vd]) [] with
           port := (0, 0), lands := [(o.xb, skewOf s + occ + 4)] }
  | .vgen c o =>
    let n := (rx s o.xb).toNat % 65536
    let nb := (rx s o.xb).toNat / 65536 % 65536
    let tail := vgenTail s (descOf c s .d) nb
    let occ := vgenOcc s (descOf c s .d) (rx s o.xa + c.imm) n nb
    some { laneCost c s [⟨.tile, 0, occ⟩, ⟨.vector, occ - tail, tail⟩] occ (xLocs [o.xa, o.xb]) (vLocs [o.vd]) with
           rows := (c.rowa.toNat, 16 * nb), port := (c.rowa.toNat, 16 * nb), access := (true, false), perform := skewOf s + occ + 4
           pieces := piecesAt s (rx s o.xa + c.imm) (vgenBytes s n nb) }
  | _ => none

/-! Memory, streams, landed state (R195 to R198, R220, R303, R309). -/

def tileMoveCost (c : Ctl) (s : State) (o : VX) (strided store : Bool) : Cost :=
  let m := moveOf c o s strided (descOf c s (if store then .a else .d))
  let occ := m.occupancy s
  let x := xLocs (o.xa :: if strided then [o.xb] else [])
  { laneCost c s [⟨.tile, 0, occ⟩] occ (x ++ if store then vLocs [o.vd] else []) (if store then [] else vLocs [o.vd]) with
    port := if store then (0, 0) else (0, s.h.csr.rows), access := (!store, store), perform := skewOf s + occ + 4
    pieces := if store then [] else m.pieces s, stored := if store then m.pieces s else [], cells := some (writtenMask c s, resultBits c s) }

/-- VSTZ and VLDZ (R220). The bytes from the base to base + X[XB] − 1 count as the access (R371, log 66). -/
def streamCost (c : Ctl) (s : State) (o : VX) (store : Bool) : Cost :=
  let l0 := streamL0 s (rx s o.xa + c.imm).toNat
  let d := planesAt c s (if store then .a else .d)
  let occ := streamOcc s (rx s o.xa + c.imm) d s.h.work
  let range := piecesAt s (rx s o.xa + c.imm) (rx s o.xb).toNat
  { laneCost c s [⟨.transform, 0, occ⟩, ⟨.tile, 0, occ⟩, ⟨.vector, l0, d⟩] occ
      (xLocs [o.xa, o.xb] ++ if store then vLocs [o.vd] else []) (if store then [] else vLocs [o.vd]) with
    port := if store then (0, 0) else (0, s.h.csr.rows), access := (!store, store), perform := skewOf s + occ + 4
    pieces := if store then [] else range, stored := if store then range else [], lands := [(o.xb, 2 * skewOf s + occ + 4)] }

/-- The application of an atomic to `n` bytes: `reads` beside its address. -/
def amoCost (s : State) (o : AT) (n own : Nat) (reads : List (BitVec 5)) (result flags : Bool) : Cost :=
  let l := atomicCost s own (rx s o.xa)
  { scalarCost (o.xa :: reads) (if result then [(o.xd, l)] else []) with
    access := (true, true), perform := l, pieces := piecesAt s (rx s o.xa) n, stored := piecesAt s (rx s o.xa) n, writes := if flags then [.flags] else [], occ := if flags then l - 4 else 0 }

def memoryInstr (i : Instr) (s : State) : Option Cost :=
  match i with
  | .tld c o => some (tileMoveCost c s o false false)
  | .tst c o => some (tileMoveCost c s o false true)
  | .tldx c o => some (tileMoveCost c s o true false)
  | .tstx c o => some (tileMoveCost c s o true true)
  | .vldz c o => some (streamCost c s o false)
  | .vstz c o => some (streamCost c s o true)
  | .twait _ o => some (scalarCost [o.xa, o.xb] [])
  | .tclr _ _ => some (scalarCost [] [] 2)
  | .tqry _ o => some (scalarCost [o.xa] [(o.xb, 8 + skewOf s)])
  | .amoAdd _ o | .amoAnd _ o | .amoOr _ o | .amoXor _ o | .amoMin _ o | .amoMax _ o | .amoMinu _ o | .amoMaxu _ o
  | .amoSwap _ o => some (amoCost s o (szBytes o) 16 [o.xb] true false)
  | .amocas _ o => some (amoCost s o (szBytes o) 16 [o.xb, o.xd] true false)
  | .amofFp32 _ o | .amofBf16 _ o => some (amoCost s o 4 16 [o.xb] true true)
  | .amofFp64 _ o => some (amoCost s o 8 16 [o.xb] true true)
  | .amox _ o => some (amoCost s o 48 16 [o.xb] false false)
  | .amoxrFp32 _ o | .amoxrFp64 _ o => some (amoCost s o 48 20 [o.xb] true true)
  | .waitm _ o =>
    let l := waitmCost s (rx s o.xa &&& ~~~7#64)
    some { scalarCost [o.xa, o.xb] [(o.xd, l)] with
           access := (true, false), perform := l, pieces := piecesAt s (rx s o.xa &&& ~~~7#64) 8 }
  | .etrig _ _ => some { before := [.performed] }
  | .fencer _ o => some (scalarCost [o.xa, o.xb] [])
  | .binput _ o => some (scalarCost [o.xd, o.xa, o.xb] [])
  | .binflush _ o => some (scalarCost [] [(o.xd, 0)])
  | .kvapp _ o => some { scalarCost [o.xa, o.xb] [(o.xd, 0)] with before := [.tileMoves] }
  | .retspan _ o | .kvpin _ o | .kvunpin _ o | .kvqryDesc _ o | .kvqryPos _ o | .kvqryHdr _ o | .kvqryCount _ o
  | .glaunch _ o | .gqry _ o => some (scalarCost [o.xa, o.xb] [(o.xd, 0)])
  | _ => none

/-! Sparse registers (R296 to R301). -/

/-- A pair count: SCAP in lockstep mode (R296). -/
def pairs (s : State) (k n : Nat) : Nat := if lockstep s then k * scap s else n

/-- The bytes of the home cluster's sparse area that `n` pairs of a sparse register take, its length word with them (R293). -/
def areaPieces (s : State) (n : Nat) (m : BitVec 4) : List (Nat × Nat) :=
  let base := clusterBase (homeCluster s)
  [(base + lenAddr s m.toNat, 8), (base + pairAddr s m.toNat 0, 8 * n)]

/-- Those of a source. -/
def sourcePieces (s : State) (m : BitVec 4) : List (Nat × Nat) := areaPieces s ((homeWord s (lenAddr s m.toNat)).toNat % 2 ^ 15) m

/-- A merge-unit instruction: the sparse registers it reads and those it writes, of as many pairs as its trial counted. -/
def mergeCost (s : State) (sources into : List (BitVec 4)) (occ : Nat) (x : List (BitVec 5)) (lands : List (BitVec 5)) (flags : Bool) : Cost :=
  { scalarCost x (lands.map (fun r => (r, occ + 4))) with
    merge := occ, occ, access := (true, true), perform := occ + 4, pieces := sources.flatMap (sourcePieces s)
    stored := into.flatMap (areaPieces s s.h.work), writes := if flags then [.flags] else [] }

/-- SXPAND and SPACK also hold the tile-move port and the vector unit. -/
def expandCost (c : Ctl) (s : State) (o : SV) (occ : Nat) (reads writes : List Loc) : Cost :=
  { laneCost c s [⟨.scalar, 0, 1⟩, ⟨.tile, 0, occ⟩, ⟨.vector, 0, occ⟩] occ reads (.flags :: writes) with
    skew := 0, port := if writes.isEmpty then (0, 0) else (0, s.h.csr.rows)
    merge := occ, access := (true, writes.isEmpty), perform := occ + 4
    pieces := if writes.isEmpty then (areaPieces s 0 o.sd).take 1 else sourcePieces s o.sd
    stored := if writes.isEmpty then areaPieces s s.h.work o.sd else [] }

/-- The bytes of SHACC's table, its header with it (R301). -/
def tablePieces (s : State) (ea : Word) : List (Nat × Nat) :=
  match homePlace s ea with
  | .mem g => [(g, 64 + 8 * 2 ^ ((wordAt s g).toNat % 32))]
  | _ => []

def sparseInstr (i : Instr) (s : State) : Option Cost :=
  match i with
  | .sadd _ o | .ssub _ o | .smul _ o | .smax _ o =>
    some (mergeCost s [o.sa, o.sb] [o.sd] (16 + ceilDiv (pairs s 2 s.h.work) 16) [] [] true)
  | .sscale _ o => some (mergeCost s [o.sa] [o.sd] (16 + ceilDiv (pairs s 1 s.h.work) 16) [o.sb.setWidth 5] [] true)
  | .sld _ o =>
    let n := (rx s o.xb).toNat % 2 ^ 15
    some { mergeCost (setWork s n) [] [o.sd] (16 + ceilDiv (pairs s 1 n) 16) [o.xa, o.xb] [] false with
           pieces := piecesAt s (rx s o.xa) (8 * n) }
  | .sst _ o =>
    some { mergeCost s [o.sd] [] (16 + ceilDiv (pairs s 1 s.h.work) 16) [o.xa] [o.xb] false with
           stored := piecesAt s (rx s o.xa) (8 * s.h.work) }
  | .sdot _ o =>
    some { mergeCost s [o.sd, o.xa.setWidth 4] [] (24 + ceilDiv (pairs s 2 s.h.work) 16) [] [o.xb] true with access := (true, false) }
  | .shacc _ o =>
    let k := mergeCost s [o.sd] [] (16 + if lockstep s then 32 * scap s else 4 * s.h.work) [o.xa] [o.xb] true
    some { k with pieces := tablePieces s (rx s o.xa) ++ k.pieces, stored := tablePieces s (rx s o.xa) }
  | .slen _ o => some { scalarCost [] [(o.xb, 12)] with access := (true, false), perform := 12, pieces := sourcePieces s o.sd }
  | .sxpand c o =>
    some (expandCost c s o (homeL0 s + planesAt c s .d + 16 + ceilDiv (pairs s 1 s.h.work) 16) [] (vLocs [o.v]))
  | .spack c o =>
    some (expandCost c s o (homeL0 s + planesAt c s .a + 16 + ceilDiv s.h.csr.vl 64 + ceilDiv (pairs s 1 s.h.work) 16)
      (vLocs [o.v]) [])
  | _ => none

/-! Issued while VL = 0 (R31). -/

/-- The cost of a vector instruction over no element: its units for 1 cy, nothing read, written or reached but scalars, and a scalar
result that lands with O = 1. -/
def Cost.empty (k : Cost) : Cost :=
  { k with
    units := k.units.map (fun u => ⟨u.unit, 0, 1⟩), occ := 1, writes := []
    reads := k.reads.filter (fun l => match l with | .x _ => true | _ => false)
    lands := k.lands.map (fun x => (x.1, 2 * k.skew + 5)), rows := (0, 0), port := (0, 0), access := (false, false), perform := 0
    pieces := [], stored := [] }

/-- The vector instructions of R31: those of the vector unit, the streams and SARGMIN among them; tile moves and VGEN keep the
occupancy of their own formulas (log 17). -/
def vectorOnly (i : Instr) (s : State) : Bool :=
  (vectorInstr i s).isSome || (floatInstr i s).isSome ||
  (match i with
   | .sexp _ _ | .sfit _ _ | .sargmin _ _ | .vstz _ _ | .vldz _ _ => true
   | _ => false)

/-- The cost of an instruction as it stands, with the counts that its trial left in `work` and `swapCy`. -/
def costOf (i : Instr) (s : State) : Cost :=
  let k := (((((((scalarInstr i s).orElse fun _ => vectorInstr i s).orElse fun _ => floatInstr i s).orElse fun _ =>
    matrixInstr i s).orElse fun _ => memoryInstr i s).orElse fun _ => sparseInstr i s)).getD {}
  if s.h.csr.vl = 0 && vectorOnly i s then k.empty else k

/-! Exposed windows (R41, R42, R72). -/

/-- The cy of its occupancy in which an instruction reads a location: a drain each accumulator row in its own (R237), MSCALE its
register 3 cy after the start, which the results of R342 require (DEDUCED, log 71), all else from the start. -/
def Cost.readOff (k : Cost) (l : Loc) : Nat :=
  match l, k.drainRow with
  | .acc i, some (i0, c) => 4 + (i - i0) * c
  | .v _, _ => k.late
  | _, _ => 0

/-- Whether a window is open to an instruction that issues in cy `t`: a scalar register is read in the issue cy, flags by a CSRR,
lanes and accumulators from the occupancy's start. -/
def Window.open_ (w : Window) (k : Cost) (t : Nat) : Bool :=
  match w.loc with
  | .x _ => decide (t < w.upto)
  | .flags => decide (t ≤ w.upto)
  | l => decide (t + 2 + k.skew + k.readOff l ≤ w.upto)

/-- The windows of the follow-on sweeps that run in the granted tiles, of the instruction that started the copy (R242). -/
def sweepWindows (s : State) : List Window :=
  (s.sweeps.filter (fun w => w.running && (tileCores s).contains w.core)).flatMap (fun w =>
    (List.range 256).map (fun i => ⟨.acc i, w.pc, s.cyc, w.ready, none, none⟩))

/-- The hart in hand with those windows beside its own. -/
def besideSweeps (s : State) : Hart := { s.h with exposed := s.h.exposed ++ sweepWindows s }

/-- The exposed windows that an instruction of cost `k` meets when it issues in cy `t`; a table that it does not read is none of them
(R229). -/
def openTo (h : Hart) (k : Cost) (t : Nat) : List Window :=
  h.exposed.filter (fun w => w.open_ k t && (match w.loc with | .table _ => k.reads.contains w.loc | _ => true))

/-- Their locations. -/
def hotAt (h : Hart) (k : Cost) (t : Nat) : List Loc := (openTo h k t).map (fun w => w.loc)

/-- The elements and bits that they cover. -/
def hotCellsAt (h : Hart) (k : Cost) (t : Nat) : List (Loc × Option (Nat × Nat)) := (openTo h k t).map (fun w => (w.loc, w.cells))

/-- The windows of an instruction issued in cy `t`. -/
def Cost.windows (k : Cost) (t : Nat) (pc : Word) : List Window :=
  let land := t + k.skew + k.occ + 4
  k.writes.flatMap (fun l => match l with
    | .v _ | .p _ =>
      if k.rowCells.isEmpty then [⟨l, pc, t, land, k.cells, none⟩]
      else k.rowCells.map (fun r => ⟨l, pc, t, land, some (r.2, (k.cells.getD (0, 0)).2), some r.1⟩)
    | .acc _ => [⟨l, pc, t, land, none, if k.rowCells.isEmpty then none else some l⟩]
    | _ => [⟨l, pc, t, land, none, none⟩]) ++
    (k.lands.filter (fun x => x.1 != 0)).map (fun x => ⟨.x x.1.toNat, pc, t, t + x.2, none, none⟩)

/-- The last cy of its occupancy. -/
def Cost.lastCy (k : Cost) (t : Nat) : Nat :=
  k.units.foldl (fun m u => if u.unit = .scalar then m else max m (t + 1 + k.skew + u.off + u.len)) t

/-- Its reading spans: scalar sources are read in the issue cy, a row of a drain in its own cy, the rest up to the end of the
occupancy. -/
def Cost.spans (k : Cost) (t : Nat) (pc : Word) : List Window :=
  k.reads.map (fun l => ⟨l, pc, t, (match l with
    | .x _ => t
    | .acc _ => if k.drainRow.isSome then t + 2 + k.skew + k.readOff l else k.lastCy t
    | _ => k.lastCy t), none, none⟩)

/-! Hazards (R43, R370). -/

/-- The kind and number of a location in SYND. DESIGN CHOICE (log 71): a drain table has kind 4 and number 0, since R370 lists no kind for
it. -/
def Loc.synd : Loc → Nat
  | .v n => 2 ^ 56 + n | .p n => 2 * 2 ^ 56 + n | .x n => 3 * 2 ^ 56 + n | .acc n => 4 * 2 ^ 56 + n
  | .flags => 5 * 2 ^ 56 | .table _ => 4 * 2 ^ 56

/-- The first hazard of an instruction that would issue in cy `t`. Where several windows meet the same case, the oldest is named: the
spec says only 'the earlier instruction' (DESIGN CHOICE, log 67). -/
def hazard (h : Hart) (k : Cost) (t : Nat) : Option (Nat × Window) :=
  let writes := k.writes ++ xLocs (k.lands.map (fun x => x.1))
  let first := t + 1 + k.skew
  ((h.exposed.find? (fun w => k.reads.contains w.loc && w.open_ k t)).map (fun w => (1, w))).orElse fun _ =>
  ((h.exposed.find? (fun w => writes.contains w.loc && decide (first ≤ w.upto))).map (fun w => (2, w))).orElse fun _ =>
  (h.reading.find? (fun w => writes.contains w.loc && decide (first < w.upto))).map (fun w => (3, w))

/-- Instructions whose position is RESUME (R219, R301). -/
def resumable : Instr → Bool
  | .vldz _ _ | .shacc _ _ => true
  | _ => false

/-- The hazard trap (R349, R370). -/
def hazardTrap (i : Instr) (s : State) (q : Nat × Window) : Trap :=
  { Trap.here s 5 (BitVec.ofNat 8 q.1) q.2.pc with
    synd := BitVec.ofNat 64 q.2.loc.synd, step := if resumable i then s.h.csr.resume.toNat else 0 }

/-! The issue cy (R16, R39, R296, R308). -/

/-- `d` cy after the cy `t` of an earlier instruction; none was before where `t` is 0. -/
def cyAfter (t d : Nat) : Nat := if t = 0 then 0 else t + d

def Before.ready (h : Hart) : Before → Nat
  | .lanes => cyAfter h.laneLand 1
  | .tileMoves => cyAfter h.units.tile 2
  | .matrixDone => max h.units.matrix h.units.drain
  | .matrixLanded => cyAfter (max h.units.matrix h.units.drain) 3
  | .landed => max h.lastLand (cyAfter h.laneLand 1)
  | .performed => h.accessEnd
  | .reg n =>
    let upto := fun (m : Nat) (w : Window) => if w.loc = .v n then max m (w.upto + 1) else m
    h.reading.foldl upto (h.exposed.foldl upto 0)

/-- What an earlier instruction's hold on rows asks of one that shares no unit with it: to begin after it. -/
def PortHold.ready (p : PortHold) (k : Cost) : Nat :=
  if k.port.2 = 0 ∨ k.port.1 + k.port.2 ≤ p.lo ∨ p.lo + p.n ≤ k.port.1 ∨ k.units.any (fun u => p.units.contains u.unit) then 0
  else p.upto + 1 - (2 + k.skew)

/-- The accesses of an instruction issued in cy `t`. -/
def Cost.accessAt (k : Cost) (t : Nat) : MemAccess := ⟨k.access.1, k.access.2, k.pieces, k.stored, t, t + k.perform⟩

/-- An instruction that runs on the array waits for follow-on sweeps: those that run, those that arrived before it, and a ramp in
progress (R239, R241). DESIGN CHOICE (log 71): an instruction arrives in the cy in which it issues, so that a sweep handed over while it
waits goes first. -/
def arrayReady (s : State) (k : Cost) : Nat :=
  if k.units.all (fun u => u.unit != .matrix) then 0
  else (tileCores s).foldl (fun m core =>
    let engine := sget 0 s.engines core
    let queued := s.sweeps.any (fun w => w.core == core && !w.running && decide (w.ready < s.cyc))
    let begin_ := if k.array then ((rampAt s core).ahead (max engine (s.cyc + 2 + k.skew))).1 else engine
    max m (max (begin_ - (2 + k.skew)) (if queued then s.cyc + 1 else 0))) 0

/-- The first cy in which the hart in hand may issue an instruction of cost `k`, none of its own gates left. -/
def earliest (s : State) (k : Cost) : Nat :=
  let h := s.h
  let units := k.units.foldl (fun m u =>
    max m (h.units.get u.unit - (2 + u.off + if u.unit = .scalar then 0 else k.skew))) h.next
  let gates := k.before.foldl (fun m b => max m (b.ready h)) units
  let ports := h.ports.foldl (fun m p => max m (p.ready k)) gates
  let arrays := max ports (arrayReady s k)
  let merge := if k.merge = 0 then arrays else max arrays (sget 0 s.merge (homeCluster s) - 2)
  h.fences.foldl (fun m f => max m (f.holdsTo h.core (k.accessAt s.cyc))) merge

/-! Drowsy rows (R45). -/

/-- The physical rows that an instruction touches, as core·256 + row. -/
def touchedRows (s : State) (k : Cost) : List Nat :=
  (tileCores s).flatMap (fun core => (k.rows :: k.moreRows).flatMap (fun r =>
    (List.range r.2).map (fun i => core * 256 + physRow s core (r.1 + i))))

/-- Some row it touches is drowsy in the cy in which its occupancy would begin. -/
def wakes (s : State) (k : Cost) : Bool :=
  k.rows.2 != 0 && (touchedRows s k).any (fun r => rowAsleep s r (s.cyc + 2 + k.skew))

/-! The account of an issued instruction. -/

/-- What an instruction issued in cy `t` from `pc` leaves in its hart. -/
def chargeHart (k : Cost) (t : Nat) (pc : Word) (h : Hart) : Hart :=
  let units := k.units.foldl (fun (u : Units) x =>
    let skew := if x.unit = .scalar then 0 else k.skew
    u.set x.unit (max (u.get x.unit) (t + 2 + skew + x.off + x.len))) h.units
  let land := k.lands.foldl (fun m x => max m (t + x.2)) (if k.occ = 0 then t else t + k.skew + k.occ + 4)
  let lane := k.units.any (fun u => u.unit != .scalar) && k.occ != 0
  { h with
    units
    lastLand := max h.lastLand land
    laneLand := if lane then max h.laneLand (t + k.skew + k.occ + 4) else h.laneLand
    accessEnd := if k.access.1 || k.access.2 then max h.accessEnd (t + k.perform) else h.accessEnd
    ports := (h.ports.filter (fun p => decide (t < p.upto))) ++
      (if k.port.2 = 0 then [] else [⟨k.units.map (fun u => u.unit), k.port.1, k.port.2, t + 2 + k.skew, t + k.skew + k.occ + 4⟩])
    accesses := h.accesses.filter (fun x => decide (t < x.upto)) ++
      (if k.access.1 || k.access.2 then [k.accessAt t] else [])
    flagsDue := h.flagsDue.filter (fun w => decide (t ≤ w.1)) ++
      (if k.writes.contains .flags && h.raised != 0 then [(t + k.skew + k.occ + 4, h.raised)] else [])
    exposed := h.exposed.filter (fun w => decide (t ≤ w.upto)) ++ k.windows t pc
    reading := h.reading.filter (fun w => decide (t ≤ w.upto)) ++ k.spans t pc }

/-- A scalar register holds the result that lands last: where an earlier write to it may still land after the new one, which does is open
(R152). -/
def keepLate (k : Cost) (old : Hart) (s : State) : State :=
  k.lands.foldl (fun s x =>
    let r := x.1.toNat
    if x.1 = 0 then s
    else if decide (s.cyc + 1 < sget 0 old.lateX r) && freeOrder s (2 ^ 100 + r) then setX s x.1 old.x[r]
    else modH s (fun h => { h with lateX := sset 0 h.lateX r (s.cyc + x.2) })) s

/-- The same in the device: the hart, its merge unit, its arrays and the rows it touches. -/
def charge (s : State) (k : Cost) (t : Nat) (pc : Word) : State :=
  let s := modH s (chargeHart k t pc)
  let s := if k.merge = 0 then s
    else { s with merge := sset 0 s.merge (homeCluster s) (max (sget 0 s.merge (homeCluster s)) (t + 2 + k.merge)) }
  let s := if k.array then (tileCores s).foldl (fun s core => arrayOccupy s core (t + 2 + k.skew) k.occ) s else s
  if k.rows.2 = 0 then s else touchRows s (touchedRows s k) (t + 2 + k.skew + k.occ)

end Sys2Proof.Machine
end

