-- ==== Sys2Proof/Machine/Issue.lean ====
section
/-! DEFINITION. One attempt of a hart to issue (R39, R47, R347): the interrupt at a restart point, the fetch, the decoding, the
checks, the swap, the effect, and what follows for the next issue. -/
namespace Sys2Proof.Machine

/-! Fetch (R141, R366). -/

/-- Why a fetch does not deliver. -/
inductive FetchStop where
  | trap (t : Trap)
  | miss (va : Word)
  deriving DecidableEq, Repr

/-- The word at `va`, of the image of the hart in hand, from its instruction cache; undefined where a copy has overwritten it
(R141). -/
def fetchWord (s : State) (va : Word) : Except FetchStop Instr32 :=
  let g := (myGang s).launch
  if g.imgLen < (va - g.img).toNat + 4 then .error (.trap (Trap.here s 8 2 va))
  else if (myGang s).dirty.any (fun r => decide (r.1 < va.toNat + 4) && decide (va.toNat < r.1 + r.2)) then
    .ok ((Config.freeBits s.free (2 ^ 68 + va.toNat / 4)).setWidth 32)
  else match icacheAt s s.h.core va with
    | some w => .ok w
    | none => .error (if g.lockstep then .trap (Trap.here s 8 3 va) else .miss va)

/-- `n` words from `va` on. -/
def fetchWords (s : State) : Nat → Word → Except FetchStop (List Instr32)
  | 0, _ => .ok []
  | n + 1, va => match fetchWord s va with
    | .error e => .error e
    | .ok w => match fetchWords s n (va + 4) with
      | .error e => .error e
      | .ok ws => .ok (w :: ws)

/-- The words of the instruction at the pc. -/
def fetch (s : State) : Except FetchStop (List Instr32) :=
  match fetchWord s s.h.pc with
  | .error e => .error e
  | .ok w => fetchWords s (formOf w).words s.h.pc

/-- The illegal-instruction trap of words that decode to nothing (R363). -/
def illegalTrap (s : State) (ws : List Instr32) (code : Nat) : Trap :=
  let w := ws.getD 0 0
  Trap.here s 2 (BitVec.ofNat 8 code) ((if (formOf w).isExt then ws.getD 1 0 else 0) ++ w)

/-- The pc stands at a restart point: its word has RP = 1, or RPC names it (R47, R169). -/
def atRestartPoint (s : State) : Bool :=
  s.h.pc == s.h.csr.rpc || (match fetchWord s s.h.pc with | .ok w => w.getLsbD 2 | .error _ => false)

/-- An interrupt is taken in place of the instruction (R347 step 1). -/
def interruptDue (s : State) : Bool :=
  !s.h.irqs.isEmpty && statusIe s.h.csr.status && !statusTl s.h.csr.status && atRestartPoint s

/-! The controls of an instruction. -/

/-- The controls that its words carry; plain for an event. -/
def Instr.ctl (i : Instr) : Ctl := match parts i with | some (_, c, _) => c | none => Ctl.plain

/-- A wait whose instruction issues when it is met; the others have issued when they begin to wait. -/
def WaitFor.beforeIssue : WaitFor → Bool
  | .gbar | .coach | .launch | .query | .binflush | .aperture | .binput => false
  | _ => true

/-- A restart point issues: RPC, and the copies of R373 as they stood before it. -/
def markRestart (c : Ctl) (old : Hart) (cy : Nat) (h : Hart) : Hart :=
  if c.rp then { h with csr := { h.csr with rpc := old.pc }, restart := ⟨old.x, old.csr, old.gens, cy⟩ } else h

/-- A stall cycle of R335: elastic issue on a die that is too hot. -/
def heatStall (s : State) : Nat := if !lockstep s && (myGang s).onDies (s.stalled ++ s.powerStalled) then 1 else 0

/-- The bookkeeping of an attempt is cleared. -/
def clearAttempt (h : Hart) : Hart := { h with hot := [], hotCells := [], raised := 0, work := 0, swapCy := 0, queued := none }

/-- An instruction of a waiting lockstep hart that issues in the cy its timetable gives (R39, R240). -/
def plannedWait : Instr → Bool
  | .twait _ _ | .waitm _ _ | .mwait _ _ => true
  | _ => false

/-- The instruction `i`, issued in this cy by the hart `old`, has had its effect. -/
def settleIssue (i : Instr) (k : Cost) (old : Hart) (s : State) : State :=
  let c := Instr.ctl i
  let s := disturbReaders (keepLate k old s) old (k.writes ++ xLocs (k.lands.map (fun x => x.1))) (s.cyc + 1 + k.skew)
  let s := charge (disturbSweeps (tileCores s) k.writes (s.cyc + 1 + k.skew) s) k s.cyc old.pc
  let stall := heatStall s
  let q : Issued := ⟨i, old.pc, s.h.pc, s.cyc, k, old.csr.fcsr, old.csr.vl, old.csr.resume, old.x, s.h.raised, 0, 0⟩
  { modH s (fun h => clearAttempt { markRestart c old s.cyc h with
      next := max h.next (s.cyc + 1 + c.sc.toNat + k.extra + stall)
      stepAt := match i with | .rte _ _ => h.stepAt | _ => 0
      last := if q.stepped then some q else none
      swapPaid := false
      timed := false }) with free := s.free + 1 }

/-- The hart does not issue before cy `t`. -/
def delay (s : State) (t : Nat) : State := modH s (fun h => { clearAttempt h with next := t })

/-- The hart waits for the units that an instruction of cost `k` needs; for the merge unit, in the order of arrival (R296). -/
def awaitUnits (s : State) (k : Cost) : Option State :=
  let others := earliest s { k with merge := 0 }
  let all := earliest s k
  if s.cyc < others then some (delay s others)
  else if s.cyc < all then some (modH (delay s all) (fun h => { h with queued := some (s.h.queued.getD s.cyc) }))
  else none

/-- The cy by which a migration has copied the chunk that the trial of a swap met (R103). -/
def migrationWait (s t : State) : Option Nat :=
  if t.migrations = s.migrations then none
  else some (s.calendar.foldl (fun m e => match e.2 with
    | .migrationChunkCopy n => if (s.migrations.find? (fun x => x.n == n)) != (t.migrations.find? (fun x => x.n == n)) then max m e.1 else m
    | _ => m) s.cyc)

/-- A swap of the hart in hand that lands after its slot: a timing trap in lockstep mode, over once it has landed (R6, R44, R103). -/
def lateSwap (s : State) (fin : Nat) : State :=
  let g := myGang s
  if mayTrap s g s.h then
    timingTrap (notice (modH s (fun h => { h with accesses := h.accesses ++ [⟨true, false, [], [], s.cyc, fin⟩] })) 4 6 g s.h.idx 0) g s.h 0
  else s

/-- The swap that the trial `t` made starts once the vector unit and the write ports of the granted rows are free and every write to
an evicted register has landed; it takes those ports, and the instruction follows it (R16, R50, R51, R86). One that meets the chunk
that a migration copies waits for it (R103). -/
def paySwap (s t : State) : State :=
  let out := (List.range 64).filter (fun n => isResident (vreg s n) && !isResident (vreg t n))
  let landed := s.h.exposed.foldl (fun m w => match w.loc with
    | .v n => if out.contains n then max m (w.upto + 1) else m
    | _ => m) (max s.cyc s.h.units.vector)
  let start := s.h.ports.foldl (fun m p => if p.units.contains .vector then m else max m (p.upto + 1)) landed
  let wait := migrationWait s t
  let fin := max start (wait.getD 0) + t.h.swapCy
  let s := modH (delay s fin) (fun h => { h with
    swapPaid := true, units := { h.units with vector := fin }, ports := h.ports ++ [⟨[.vector], 0, s.h.csr.rows, start, fin + 2⟩] })
  if wait.isSome && lockstep s then lateSwap s fin else s

/-- Whether the swaps of an instruction come before its issue; those of SETVL and of the start of a copy are part of it (R171,
R87). -/
def swapsFirst : Instr → Bool
  | .setvl _ _ | .stq _ _ | .btx _ _ => false
  | _ => true

/-- Class and code of the trap, or of the gang's end, that the trial `t` of an instruction ran into. -/
def trialCause (t : State) : Nat × Nat :=
  if t.h.run == .stopped then
    match t.records.getLast? with
    | some r => (r.cls.toNat, r.code.toNat)
    | none => (0, 0)
  else (t.h.csr.ecause.toNat / 256 % 256, t.h.csr.ecause.toNat % 256)

/-- Causes that are found while the instruction runs, after it has issued (R347, R363, R371, R380, R402, R417); all others keep it
from issuing. -/
def foundRunning (q : Nat × Nat) : Bool :=
  q.1 == 1 || q.1 == 6 || q.1 == 0x12 || (q.1 == 4 && q.2 == 0x0a) || (q.1 == 9 && (q.2 == 9 || q.2 == 0x0a)) ||
  (q.1 == 0x0a && decide (q.2 ≤ 5))

/-- Causes found part-way, after some of the instruction's effect (R368, R405, R406). -/
def foundPartWay (q : Nat × Nat) : Bool := q == (4, 0x0a) || q == (0x0a, 1) || q == (0x0a, 2) || q == (0x0a, 4)

/-- What such an instruction has done lands in its time, and the handler follows the last landing (R166, R405). -/
def chargeTrap (k : Cost) (s t : State) : State :=
  if t.h.run == .stopped || !foundPartWay (trialCause t) then t
  else modH (charge t k s.cyc s.h.pc) (fun h => { h with next := max h.lastLand s.cyc + 8 })

/-- What an attempt's trial came to. -/
def settleTrial (i : Instr) (s t : State) : State :=
  let k := costOf i (modH s (fun h => { h with work := t.h.work, swapCy := t.h.swapCy }))
  let stays := !t.h.issued && t.h.wait.isNone
  let trapped := { modH (chargeTrap k s t) (fun h => { clearAttempt h with stepAt := 0, swapPaid := false, timed := false }) with free := t.free + 1 }
  if stays && !foundRunning (trialCause t) then trapped
  else if t.h.swapCy != 0 && !s.h.swapPaid && swapsFirst i then paySwap s t
  else if (awaitUnits s k).isSome then (awaitUnits s k).getD s
  else if wakes s k then delay (touchRows s (touchedRows s k) (s.cyc + 40)) (s.cyc + 40)
  else match (if s.h.csr.tchk then hazard (besideSweeps s) k s.cyc else none) with
    | some q => modH (takeTrap s (hazardTrap i s q)) clearAttempt
    | none =>
      if stays then trapped
      else match t.h.wait with
      | none => settleIssue i k s.h t
      | some w =>
        if lockstep s && (w.on == .twait || w.on == .waitm || w.on == .mwait)
        then hastenGang (modH (timingTrap t (myGang t) t.h 0) (fun h => { clearAttempt h with timed := false })) t.h.gang
        else modH t (fun h => clearAttempt (if w.on.beforeIssue then h else markRestart (Instr.ctl i) s.h s.cyc h))

/-- The decoded instruction is tried: first the units that it needs, then its effect. An instruction resumed at a step other than
0 reads its lane sources as free values (R46, log 8). -/
def issueInstr (i : Instr) (s : State) : Out :=
  let k := costOf i s
  if lockstep s && plannedWait i && !s.h.timed then
    .next (modH s (fun h => { clearAttempt h with
      timed := true, next := s.cyc + Config.planWait ((s.cyc - (myGang s).tstart) * 65536 + s.h.idx) }))
  else match awaitUnits s k with
  | some t => .next t
  | none =>
    let stepped := if s.h.stepAt = 0 then [] else k.reads.filter (fun l => match l with | .x _ => false | _ => true)
    let b := besideSweeps s
    let s := modH s (fun h => { h with
      hot := hotAt b k s.cyc ++ stepped, hotCells := hotCellsAt b k s.cyc ++ stepped.map (fun l => (l, none)) })
    match exec i s with
    | .next t => .next (settleTrial i s t)
    | other => other

/-- A miss stalls the hart until the line has arrived, for a time that the spec does not give and that may be 0, as the timetable of R337
has it (R141, R153, log 7). -/
def missStall (s : State) : State :=
  if s.h.run == .stopped then s
  else { modH s (fun h => { h with next := max h.next (s.cyc + (Config.freeBits s.free (2 ^ 69)).toNat) }) with free := s.free + 1 }

/-- The instruction that was stopped part-way goes on at its next step: the broadcast skew applies again, and what it wrote and its flags
land with its last step (R46, R72, R375). -/
def continueStep (q : Issued) (s : State) : State :=
  let t := s.cyc - 2
  let s := modH s (fun h => { h with
    pc := q.next, issued := true, part := none, stepAt := 0, raised := q.flags
    exposed := h.exposed.filter (fun w => !w.kept)
    last := some { q with cy := t, fcsr := h.csr.fcsr, rest := 0 }
    csr := { h.csr with fcsr := h.csr.fcsr ||| q.flags.setWidth 64 } })
  modH (charge s q.cost t q.pc) (fun h => clearAttempt { h with next := s.cyc + q.rest })

/-- One step of a stopped instruction, of a hart that a debugger steps (R421). -/
def oneStep (q : Issued) (s : State) : State :=
  modH s (fun h => { h with
    issued := true, next := s.cyc + 1, stepAt := q.steps + 1
    part := some { q with cost := q.cost.rest 1, steps := q.steps + 1, rest := q.rest - 1 } })

/-- A hart whose instruction was stopped part-way attempts to go on. -/
def resumeStep (q : Issued) (s : State) : State :=
  if s.h.run == .stepping && decide (1 < q.cost.occ) then oneStep q s
  else (awaitUnits s q.cost).getD (continueStep q s)

/-- One attempt of the hart in hand. -/
def attempt (s : State) : Out :=
  let queued := s.h.queued
  let s := modH s (fun h => { clearAttempt h with issueCy := s.cyc })
  if let some q := s.h.part then .next (resumeStep q s)
  else if interruptDue s then execAsyncInterrupt s
  else match fetch s with
    | .error (.trap t) => .next (takeTrap s t)
    | .error (.miss va) => match execIcacheFill va s with
      | .next t => .next (missStall t)
      | other => other
    | .ok ws => match decodeWords ws with
      | .ok i => issueInstr i (modH s (fun h => { h with queued }))
      | .illegal code => .next (takeTrap s (illegalTrap s ws code))
      | .short _ => .next s

/-- A stepping hart that has issued, trapped or begun to wait is halted again (R421). -/
def settleStep (s t : State) : State :=
  if s.h.run == .stepping && (t.h.pc != s.h.pc || t.h.wait.isSome || t.h.run != .stepping || t.h.issued)
  then endStepping t s.h.gang s.h.idx else t

/-- A hart of the device attempts to issue. -/
def issue (g k : Nat) (s : State) : Out :=
  let s := takeHart s g k
  match attempt (modH s (fun h => { h with issued := false })) with
  | .next t => .next (settleStep s t)
  | other => other

end Sys2Proof.Machine
end

