-- ==== Sys2Proof/Machine/Agenda.lean ====
section
/-! DEFINITION. Who moves next (log 4): the agenda where it names someone; else due events, conditions that now hold, harts that may
issue, and the passing of time. -/
namespace Sys2Proof.Machine

/-! Events. -/

/-- An instruction that the root or a coach unit answers: it holds the scalar unit from its issue to the answer. -/
def answered (w : Wait) : Bool := w.on == .coach || w.on == .launch || w.on == .query

/-- The first cy of the next issue after a wait that ends in cy `t` (R39, R286, R310, R312): an answer lands in its cy, and
the stall count of its instruction runs from the issue. -/
def afterWait (w : Wait) (t sc : Nat) : Nat := if answered w then max t (w.since + 1 + sc) else t + 1 + sc

/-- The end of a wait: the cost of its instruction falls due, and where the end is its issue, its restart point counts (R39). -/
def settleWait (s0 : State) (old : Hart) (s : State) : State :=
  match old.wait, findHart s old.gang old.idx with
  | some w, some h =>
    if h.wait.isNone && h.issued then
      withHart s old.gang old.idx (fun s =>
        let k := costOf w.instr (modH (takeHart s0 old.gang old.idx) (fun x => { x with work := h.work, swapCy := h.swapCy }))
        let k := if answered w then { k with units := [] } else k
        let c := Instr.ctl w.instr
        let s := charge (keepLate k old s) k s.cyc old.pc
        modH s (fun h => clearAttempt { (if w.on.beforeIssue then markRestart c old s.cyc h else h) with
          next := max h.next (afterWait w s.cyc c.sc.toNat + k.extra), stepAt := 0, last := none, swapPaid := false, timed := false }))
    else s
  | _, _ => s

/-- Runs an event, then settles the waits that it ended. -/
def runEvent (e : Event) (s : State) : Out :=
  match execEvent e s with
  | .next t =>
    let t := match e with
      | .copyStart _ => (t.gangs.filter (fun g => g.hold.isSome)).foldl (fun t g => hastenGang t g.id) t
      | _ => t
    .next (((allHarts s).filter (fun h => h.wait.isSome)).foldl (fun t h => settleWait s h t) t)
  | other => other

/-- Takes the first entry of the calendar for an event that is due by `cyc` away. -/
def eraseEvent (cyc : Nat) (e : Event) : List (Nat × Event) → List (Nat × Event)
  | [] => []
  | x :: r => if x.2 = e ∧ x.1 ≤ cyc then r else x :: eraseEvent cyc e r

/-- The delivery of a record of no lockstep gang may come before the last cy that R354 allows it. -/
def mayComeEarly (s : State) : Event → Bool
  | .faultRecordDelivery n => (s.records.find? (fun r => r.n == n)).any (fun r => decide (r.cyc < s.cyc) &&
      !(r.live && (gangOf s r.gang).launch.lockstep))
  | _ => false

/-- An event that the calendar holds for a later cy only, so that the agenda cannot bring it about now (R5, R126, R354). -/
def notYet (s : State) (e : Event) : Bool :=
  s.calendar.any (fun x => x.2 == e) && s.calendar.all (fun x => x.2 != e || decide (s.cyc < x.1)) && !mayComeEarly s e

/-- The calendar once an event of it happens: the entry that is due goes, else the one that came early. -/
def takeEvent (s : State) (e : Event) : List (Nat × Event) :=
  if s.calendar.any (fun x => x.2 == e && decide (x.1 ≤ s.cyc)) then eraseEvent s.cyc e s.calendar
  else eraseEvent (2 ^ 64) e s.calendar

/-- The event that is due: the earliest, of one cy the first entered, that no hold keeps back. -/
def dueEvent (s : State) : Option Event :=
  let due := s.calendar.filter (fun e => decide (e.1 ≤ s.cyc) && !heldBack s e.2)
  (due.foldl (fun (b : Option (Nat × Event)) e => match b with
    | some x => if e.1 < x.1 then some e else some x
    | none => some e) none).map (fun e => e.2)

/-! Conditions. -/

/-- A hart of a gang that runs, held by nothing. -/
def gangRuns (s : State) (h : Hart) : Bool :=
  match findGang s h.gang with
  | some g => g.st == .running && g.hold.all (fun q => decide (s.cyc ≤ q.c0)) && !g.stopped s.cyc
  | none => false

/-- The event that ends a hart's wait, if its condition holds. -/
def waitEvent (s : State) (h : Hart) : Option Event :=
  let ends := fun (e : Event) => match execEvent e s with
    | .next t => match findHart t h.gang h.idx with
      | some x => if x.wait.isNone then some e else none
      | none => none
    | _ => none
  if h.run != .running || !gangRuns s h then none
  else match h.wait with
    | none => none
    | some w => match w.on with
      | .launch | .query | .coach | .gbar => none
      | .waitm => ends (.waitmReread h.gang h.idx)
      | .aperture => ends (.apertureQueueAccept h.gang h.idx)
      | .binflush => ends (.binflushComplete h.gang h.idx)
      | _ => ends (.waitComplete h.gang h.idx)

/-- The condition of a held hart holds, or those of all trapped harts do and the hold may end (R372). -/
def holdEvent (s : State) (h : Hart) : Option Event :=
  match findGang s h.gang with
  | some g => match g.hold with
    | some q => if h.run == .held && q.trapped.contains h.idx && ((sget 0 q.met h.idx == 0 && heldMet s h) || q.over s.cyc)
                then some (.timingConditionMet h.gang h.idx) else none
    | none => none
  | none => none

/-- The cy in which a fence releases: all that it orders is performed (R308). -/
def FenceHold.end_ (f : FenceHold) : Nat := f.early.foldl (fun m x => max m x.upto) 0

/-- The fences of a hart release (R308). -/
def fenceEvent (s : State) (h : Hart) : Option Event :=
  if h.fences.any (fun f => decide (f.end_ ≤ s.cyc)) then some (.fenceRelease h.gang h.idx) else none

/-- A copy may start, or a walk its next carriage. -/
def copyEvent (s : State) (q : Copy) : Option Event :=
  let g := gangOf s q.gang
  let head := (s.copies.find? (fun x => x.chan == q.chan)).any (fun x => x.id == q.id)
  if !copiesMayStart s g q || !head then none
  else if !q.started then
    if s.cyc < startCy g.tstart q || replayBusy s q || startPending s q then none else some (.copyStart q.chan)
  else if walkMay s q then some (.kvwalkCarriageStart q.chan)
  else none

/-- A coach unit has an operation to apply. -/
def coachEvent (s : State) (die : Nat) : Option Event :=
  match nextOp s die with
  | some op => if (gangOf s op.gang).hold.isSome then none else some (.coachOpApply die)
  | none => none

/-- A gang's stop for a pre-emption or a debug halt may take effect. -/
def gangEvent (s : State) (g : Gang) : Option Event :=
  if g.st == .preempted && g.preempt && preemptReady s g then some (.preemptionStop g.id)
  else if g.haltPending && haltMay s g then some (.halt g.id)
  else none

/-- An event whose condition holds now. -/
def polledEvent (s : State) : Option Event :=
  (firstSome (allHarts s) (waitEvent s)).orElse fun _ =>
  (firstSome (allHarts s) (holdEvent s)).orElse fun _ =>
  (firstSome (allHarts s) (fenceEvent s)).orElse fun _ =>
  (firstSome s.copies (copyEvent s)).orElse fun _ =>
  (firstSome [0, 1, 2, 3] (coachEvent s)).orElse fun _ =>
  firstSome (s.gangs.filter (fun g => !g.ended)) (gangEvent s)

/-! Harts. -/

/-- A hart that would issue but for the cy. -/
def mayIssue (s : State) (h : Hart) : Bool :=
  ((h.run == .running && gangRuns s h) || h.run == .stepping) && h.wait.isNone

def ready (s : State) (h : Hart) : Bool := mayIssue s h && decide (h.next ≤ s.cyc)

/-- The order of two harts in a cy: those that wait for a merge unit by their arrival (R296), then by core. -/
def goesBefore (h x : Hart) : Bool :=
  let a := h.queued.getD (2 ^ 64)
  let b := x.queued.getD (2 ^ 64)
  decide (a < b) || (a == b && decide (h.core < x.core))

/-- Of the harts that may issue in this cy, the first by this order. -/
def nextHart (s : State) : Option Hart :=
  ((allHarts s).filter (ready s)).foldl (fun (b : Option Hart) h => match b with
    | some x => if goesBefore h x then some h else some x
    | none => some h) none

/-! Time. -/

/-- The next cy in which something can happen. -/
def nextCy (s : State) : Nat :=
  let times := (s.calendar.map (fun e => e.1)) ++ ((allHarts s).filter (mayIssue s)).map (fun h => h.next) ++
    ((allHarts s).flatMap (fun h => h.fences)).map FenceHold.end_
  let later := times.filter (fun t => decide (s.cyc < t))
  match later with
  | [] => s.cyc + 1
  | t :: r => r.foldl min t

/-! One step. -/

/-- The accesses of a hart whose data is still to come or to be accepted. -/
def underWay (h : Hart) (cyc : Nat) : List MemAccess := h.accesses.filter (fun a => decide (cyc ≤ a.upto))

/-- The window of a register that lands with such an access. -/
def loadWindow (h : Hart) (cyc : Nat) (w : Window) : Bool :=
  (match w.loc with | .x _ | .v _ => true | _ => false) && (underWay h cyc).any (fun a => a.read && a.at_ == w.at_ && a.upto == w.upto)

/-- A tile move is among them: into a register, or a store that holds the tile-move port. -/
def tileUnderWay (h : Hart) (cyc : Nat) : Bool :=
  h.exposed.any (fun w => (match w.loc with | .v _ => true | _ => false) && loadWindow h cyc w) ||
  (underWay h cyc).any (fun a => a.write && !a.read && a.upto == h.units.tile + 2)

/-- A scalar load is among them. -/
def loadUnderWay (h : Hart) (cyc : Nat) : Bool :=
  h.exposed.any (fun w => (match w.loc with | .x _ => true | _ => false) && loadWindow h cyc w)

/-- The accesses of a hart land `more` cy later, what they load with them. -/
def delayLoads (s : State) (h : Hart) (more : Nat) : State :=
  let ws := h.exposed.filter (loadWindow h s.cyc)
  let last := (underWay h s.cyc).foldl (fun m a => max m (a.upto + more)) 0
  modHarts s (isHart h.gang h.idx) (fun x => { x with
    exposed := x.exposed.map (fun w => if loadWindow h s.cyc w then { w with upto := w.upto + more } else w)
    accesses := x.accesses.map (fun a => if s.cyc ≤ a.upto then { a with upto := a.upto + more } else a)
    lateX := ws.foldl (fun m w => match w.loc with
      | .x r => if sget 0 m r = w.upto then sset 0 m r (w.upto + more) else m
      | _ => m) x.lateX
    laneLand := if tileUnderWay h s.cyc then max x.laneLand last else x.laneLand
    accessEnd := max x.accessEnd last
    lastLand := if ws.isEmpty then x.lastLand else max x.lastLand last })

/-- A hart has entered its handler and not issued there. -/
def inHandler (h : Hart) : Bool := statusTl h.csr.status && h.pc == h.csr.tvec

/-- The data of a hart's accesses comes `more` cy late: in elastic mode scalar loads hold the scalar unit until they land, tile moves the
tile-move port and the vector unit; in lockstep mode a correctable-error retry is the cause and the hart takes a timing trap (R151, R195,
R361). The handler of a trap still follows the last landing (R166). -/
def lateLoads (s : State) (h : Hart) (more : Nat) : State :=
  let late := underWay h s.cyc
  if late.isEmpty then s
  else if (gangOf s h.gang).launch.lockstep then
    if more != 0 && mayTrap s (gangOf s h.gang) h
    then timingTrap (delayLoads (notice s 5 6 (gangOf s h.gang) h.idx 0) h more) (gangOf s h.gang) h 0 else s
  else
    let last := late.foldl (fun m a => max m (a.upto + more)) 0
    let busy := fun (b : Bool) (t : Nat) => if b then max t (last + 2) else t
    modHarts (delayLoads s h more) (isHart h.gang h.idx) (fun x => { x with
      next := if inHandler x && (loadUnderWay h s.cyc || tileUnderWay h s.cyc) then max x.next (last + 8) else x.next
      units := { x.units with
        scalar := busy (loadUnderWay h s.cyc) x.units.scalar
        tile := busy (tileUnderWay h s.cyc) x.units.tile
        vector := busy (tileUnderWay h s.cyc) x.units.vector } })

/-- An attempt of a hart to issue comes to a precise trap with a handler. -/
def trapsNow (s : State) (h : Hart) : Bool :=
  match issue h.gang h.idx s with
  | .next t => !statusTl h.csr.status &&
      (findHart t h.gang h.idx).any (fun x => statusTl x.csr.status && !x.csr.ecause.getLsbD 63)
  | _ => false

/-- The harts that take a precise trap in this cy take it before a pre-emption or a halt that falls due in it (R348). -/
def trapBefore (s : State) (e : Event) : Option Hart :=
  match e with
  | .placementPass _ | .halt _ => (allHarts s).find? (fun h => ready s h && trapsNow s h)
  | _ => none

/-- The event happens, or the trap that comes before it. -/
def runDue (e : Event) (s t : State) : Out :=
  match trapBefore s e with
  | some h => issue h.gang h.idx s
  | none => runEvent e t

/-- The choice of the agenda: an event, a late load, or a hart that waits or issues. -/
def pick (p : Pick) (s : State) : Out :=
  match p with
  | .event e => if notYet s e || heldBack s e then .next s else runDue e s { s with calendar := takeEvent s e }
  | .late g k more => .next (match findHart s g k with
    | some h => lateLoads s h more
    | none => s)
  | .hart g k stall =>
    match findHart s g k with
    | none => .next s
    | some h =>
      if 0 < stall then
        if (gangOf s g).launch.lockstep then .next s
        else .next (modHarts s (isHart g k) (fun h => { h with next := max h.next s.cyc + stall }))
      else if ready s h then issue g k s
      else .next s

/-- Without an agenda: due events, then conditions, then harts, then time. -/
def proceed (s : State) : Out :=
  match dueEvent s with
  | some e => runDue e s { s with calendar := eraseEvent s.cyc e s.calendar }
  | none => match polledEvent s with
    | some e => runDue e s s
    | none => match nextHart s with
      | some h => issue h.gang h.idx s
      | none => .next { s with cyc := nextCy s }

/-! A program placed by hand (log 3). -/

/-- A gang of one hart on core 0 of partition 0, in elastic mode, its image at 0x10000. -/
def handGang : Gang :=
  { Gang.none with id := 1, st := .running, clusters := 1
                   launch := { Launch.none with img := 0x10000, imgLen := 20, nhart := 1, tph := 1 } }

def handHart : Hart :=
  { Hart.none with gang := 1, slots := 1, run := .running, pc := 0x10000, csr := { Csrs.init with rpc := 0x10000 } }

/-- A state with a hart in hand that may issue: the one there, else a hart of a gang placed by hand. -/
def withIssuer (s : State) : State :=
  if ready s s.h then s
  else
    { s with
      dieMap := (s.dieMap &&& ~~~0xf#64) ||| 8
      gangs := handGang :: s.gangs.filter (fun g => g.id != 1)
      h := { handHart with next := s.cyc }
      others := (s.h :: s.others).filter (fun h => h.gang != 1 && h.gang != 0) }

/-- The words `ws` stand in the instruction cache at the pc of the hart in hand, inside its gang's image, and the agenda names that
hart. -/
def placeWords (s : State) (ws : List Instr32) : State :=
  let w := s.h.pc.toNat / 4 + 2 ^ 62 * s.h.core
  let cache := (List.range ws.length).foldl (fun m k =>
    sset 0 m (w + k) (BitVec.ofNat 33 (2 ^ 32 + (ws.getD k 0).toNat))) s.icache
  modGang { s with icache := cache, agenda := .hart s.h.gang s.h.idx 0 :: s.agenda } s.h.gang (fun g =>
    let l := g.launch
    if (s.h.pc - l.img).toNat + 4 * ws.length ≤ l.imgLen then g
    else { g with launch := { l with img := s.h.pc, imgLen := 4 * ws.length } })

end Sys2Proof.Machine
end

