-- ==== Sys2Proof/Machine/Step.lean ====
section
/-! DEFINITION. One step of the device (R39, log 4), and the placing of an instruction where the next step fetches (log 3). -/
namespace Sys2Proof.Machine

/-- One event, one attempt of a hart to issue, or the passing of time. -/
def step (s : State) : Host.Outcome State Fault Refusal :=
  match s.agenda with
  | p :: rest => pick p { s with agenda := rest }
  | [] => proceed s

/-- The state with the instruction `w` of `nbits` bits where the next step fetches and runs it: a hart in hand that may issue, the
words in its instruction cache at its pc, zeros after them. -/
def State.withFetchWord (s : State) (nbits w : Nat) : State := placeWords (withIssuer s) (tableWords (w % 2 ^ nbits))

end Sys2Proof.Machine
end

