-- ==== Sys2Proof/Safety.lean ====
section
/-! DEFINITION. What a safe run is, and the words that claims use: what an instruction writes, what it needs, and what it leaves. -/
namespace Sys2Proof.Machine

/-- The step answers a next state. -/
def Out.isNext : Out → Bool
  | .next _ => true
  | _ => false

/-- The run of `n` steps from `s` ends in a next state. -/
def SafeRun (n : Nat) (s : State) : Prop := ∃ t, Host.Core.run Sys2Proof.core n s = .next t

/-! The hart in hand. -/

/-- The signed sum of an address and `4 * n`, modulo 2^64. -/
def pcPlus (pc : Word) (n : Int) : Word := BitVec.ofInt 64 ((pc.toNat : Int) + 4 * n)

/-- The address after the instruction (R128). -/
def pcAfter (c : Ctl) (s : State) : Word := pcPlus s.h.pc c.form.words

/-- The pc of `t` lies after the instruction, and nothing of the state differs but the hart in hand, of which only what `f` changes,
the pc and the issue mark. -/
def GoesOn (c : Ctl) (s t : State) (f : Hart → Hart) : Prop :=
  t = { s with h := { f s.h with pc := pcAfter c s, issued := true } }

/-- The registers X after a write of `v` to X`xd`: X0 takes no value. -/
def XWritten (xd : BitVec 5) (v : Word) (old new : Vector Word 32) : Prop :=
  ∀ n (h : n < 32), new[n] = if n = xd.toNat ∧ n ≠ 0 then v else old[n]

/-- The instruction completes: X`xd` takes `v`, the pc goes on, and nothing else changes. -/
def WritesX (i : Instr) (c : Ctl) (xd : BitVec 5) (v : Word) (s : State) : Prop :=
  ∃ t, exec i s = .next t ∧ GoesOn c s t (fun h => { h with x := t.h.x }) ∧ XWritten xd v s.h.x t.h.x

/-- The instruction completes: the pc goes to `pc`, X`xd` takes `v`, and nothing else changes. -/
def JumpsTo (i : Instr) (pc : Word) (xd : BitVec 5) (v : Word) (s : State) : Prop :=
  ∃ t, exec i s = .next t ∧ t = { s with h := { s.h with x := t.h.x, pc := pc, issued := true } } ∧ XWritten xd v s.h.x t.h.x

/-- The instruction completes and nothing but the pc, which goes on, changes. -/
def OnlyGoesOn (i : Instr) (c : Ctl) (s : State) : Prop :=
  exec i s = .next { s with h := { s.h with pc := pcAfter c s, issued := true } }

/-- The instruction does what the event TRAP_ENTRY does at its pc: it takes a precise trap, changing nothing first. -/
def Raises (i : Instr) (cls code : BitVec 8) (eaddr : Word) (s : State) : Prop := exec i s = exec (.trapEntry cls code eaddr) s

/-- The same, but that the reads of its sources may be noted among those of the strip interval (R295). -/
def RaisesNoted (i : Instr) (cls code : BitVec 8) (eaddr : Word) (s : State) : Prop :=
  ∃ u, u = { s with h := { s.h with stripReads := u.h.stripReads } } ∧ exec i s = exec (.trapEntry cls code eaddr) u

/-- A handler can be entered: TL = 0 and TVEC is not 0 (R350, R352). -/
def HandlerReady (s : State) : Prop := s.h.csr.status.getLsbD 2 = false ∧ s.h.csr.tvec ≠ 0

/-- The entry of R166: EPC, ESTEP, ECAUSE and EADDR are written, PIE takes IE, IE is 0, TL is 1, the pc is TVEC; the handler's first
instruction issues at least 8 cy after the last landing; nothing else changes. -/
def EntersHandler (async : Bool) (cls code : BitVec 8) (eaddr epc : Word) (s t : State) : Prop :=
  t = { s with h := { s.h with pc := s.h.csr.tvec, issued := false, stepAt := 0, next := t.h.next, csr := t.h.csr } } ∧
  t.h.csr = { s.h.csr with epc := t.h.csr.epc, ecause := t.h.csr.ecause, status := t.h.csr.status, estep := 0, eaddr := eaddr } ∧
  (∀ k, k < 64 → t.h.csr.epc.getLsbD k = (epc.getLsbD k && decide (2 ≤ k))) ∧
  t.h.csr.ecause.toNat = (if async then 2 ^ 63 else 0) + 2 ^ 8 * cls.toNat + code.toNat ∧
  t.h.csr.status.toNat = 4 + (if s.h.csr.status.getLsbD 0 then 2 else 0) ∧
  s.h.lastLand + 8 ≤ t.h.next

/-! Local memory. -/

/-- The byte of storage behind a local address: the own cluster's scratchpad, or a die's of the hart's partition; none elsewhere
(R88). -/
def scratchAddr (s : State) (a : Nat) : Option Nat :=
  if a < 2 ^ 24 then some (2 ^ 40 + s.h.core / 8 * 2 ^ 24 + a)
  else if 2 ^ 28 ≤ a ∧ a < 2 ^ 29 ∧ partOfDie s ((a - 2 ^ 28) / 2 ^ 26) = some (myGang s).part then some (2 ^ 41 + (a - 2 ^ 28))
  else none

/-- `v` is the little-endian dword at `g` (R8). -/
def IsDword (s : State) (g : Nat) (v : Word) : Prop := ∀ k, k < 64 → v.getLsbD k = (sget 0 s.mem (g + k / 8)).getLsbD (k % 8)

/-- No tile move has accessed memory in the strip interval; scalar accesses are ordered among themselves (R112). -/
def NoTileMoves (s : State) : Prop := (∀ e ∈ s.h.strip, e.tile = false) ∧ (∀ r ∈ s.h.stripReads, r.tile = false)

/-- Buffer `n` of cluster `cl` takes part in the check of an access to own-cluster bytes `lo` to `hi - 1` (R92, R371). -/
def checks (s : State) (cl lo hi n : Nat) : Bool :=
  let b := bufAt s cl n
  decide (n < 64) && b.en && !b.chk && b.landed != 0 && decide (b.base * 512 < hi) && decide (lo < (b.base + b.chunks) * 512)

/-- The buffer passes: ETAG = LTAG and MIX = 0. -/
def tagGood (s : State) (cl n : Nat) : Bool := (bufAt s cl n).etag == (bufAt s cl n).ltag && !(bufAt s cl n).mix

/-- The end of the bytes whose buffers an access at `ea` of `n` bytes checks; none outside the own cluster. -/
def checkEnd (ea n : Nat) : Nat := if ea < 2 ^ 24 then ea + n else 0

/-- A scalar load of `n` bytes at `ea` reads storage byte `g` on: aligned, in a scratchpad, ordered, unpoisoned, tags good. -/
def LoadReady (s : State) (ea : Word) (n g : Nat) : Prop :=
  ea.toNat % n = 0 ∧ scratchAddr s ea.toNat = some g ∧ NoTileMoves s ∧
  (∀ b, checks s (s.h.core / 8) ea.toNat (checkEnd ea.toNat n) b = true → tagGood s (s.h.core / 8) b = true) ∧
  ∀ k, k < n / 8 → sget false s.poisonWord (g / 8 + k) = false

/-- The load completes: the registers take `f`, the checked buffers get CHK, and nothing else changes. -/
def Loads (i : Instr) (c : Ctl) (s : State) (ea : Word) (n : Nat) (f : Nat → Option Word) : Prop :=
  ∃ t, exec i s = .next t ∧
    t = { s with bufs := t.bufs, h := { s.h with pc := pcAfter c s, issued := true, x := t.h.x, stripReads := t.h.stripReads } } ∧
    (∀ r (h : r < 32), t.h.x[r] = if r = 0 then s.h.x[r] else (f r).getD s.h.x[r]) ∧
    ∀ cl b, b < 64 → bufAt t cl b =
      if cl = s.h.core / 8 ∧ checks s cl ea.toNat (checkEnd ea.toNat n) b = true then { bufAt s cl b with chk := true } else bufAt s cl b

/-- Nothing but memory, poison marks, armed errors and what they set off, the pc and the open orders of the strip changes. -/
def StoreFrame (c : Ctl) (s t : State) : Prop :=
  t = { s with mem := t.mem, poisonWord := t.poisonWord, armed := t.armed, calendar := t.calendar, writers := t.writers
               h := { s.h with pc := pcAfter c s, issued := true, strip := t.h.strip, stripReads := t.h.stripReads } } ∧
  (s.armed = [] → t.armed = [] ∧ t.calendar = s.calendar)

/-- The store completes: `n` bytes from `g` on take `f`; every other byte stays. -/
def Stores (i : Instr) (c : Ctl) (s : State) (g n : Nat) (f : Nat → Byte) : Prop :=
  ∃ t, exec i s = .next t ∧ StoreFrame c s t ∧
    (∀ a, sget 0 t.mem a = if g ≤ a ∧ a < g + n then f (a - g) else sget 0 s.mem a) ∧
    ∀ k, sget false t.poisonWord k = if g / 8 ≤ k ∧ k < g / 8 + n / 8 then false else sget false s.poisonWord k

/-- Byte `k` of a dword. -/
def byteOf (v : Word) (k : Nat) : Byte := BitVec.ofNat 8 (v.toNat / 2 ^ (8 * k))

/-- The violation entry of R357 for an access of the hart in hand: one more in VCOUNT, its two dwords, vector 1. -/
def ViolationLogged (s t : State) (kind addr : Nat) : Prop :=
  let p := (myGang s).part
  let n := sget 0 (partAt s p).log 0
  let at' := 8 + 2 * (n.toNat % 124)
  t.msgs = s.msgs ++ [message s p 1] ∧
  (∀ q, q < 4 → partAt t q = if q = p then { partAt s q with log := (partAt t q).log } else partAt s q) ∧
  (p < 4 → ∀ k, sget 0 (partAt t p).log k =
    if k = 0 then n + 1
    else if k = at' then BitVec.ofNat 64 (kind * 2 ^ 56 + 2 ^ 48 + addr % 2 ^ 48)
    else if k = at' + 1 then BitVec.ofNat 64 (s.h.idx % 2 ^ 16 * 2 ^ 32 + s.h.gang % 2 ^ 32)
    else sget 0 (partAt s p).log k)

/-- KIND of the error response that a local address gets (R88, R357). -/
def badKind (s : State) (a : Nat) : Option Nat :=
  if 2 ^ 28 ≤ a ∧ a < 2 ^ 29 then (if partOfDie s ((a - 2 ^ 28) / 2 ^ 26) = some (myGang s).part then none else some 2)
  else if a < 2 ^ 24 ∨ (0x20000000 ≤ a ∧ a < 0x20004000) ∨ (0x20010000 ≤ a ∧ a < 0x20014000) ∨ (0x20020000 ≤ a ∧ a < 0x20020400)
  then none else some 1

/-- A gang's end by a fault of the hart in hand: the hart stops, the gang begins to end, and a record is queued whose agent, class,
code and address are given; nothing else changes. -/
def EndsGang (agent : Nat) (cls code : BitVec 8) (addr : Word) (s t : State) : Prop :=
  ∃ r, t.h = { s.h with run := .stopped, issued := false } ∧
    t.records = s.records ++ [r] ∧ r.cls = cls ∧ r.code = code ∧ r.fin = true ∧ r.agent = agent ∧
    r.pc = s.h.pc ∧ r.addr = addr ∧ r.hart = s.h.idx ∧ r.cyc = s.cyc ∧ r.gang = (myGang s).id ∧
    t = { s with h := t.h, records := t.records, fresh := s.fresh + 1, gangs := t.gangs, calendar := t.calendar } ∧
    ((findGang s s.h.gang).isSome = true → (gangOf t s.h.gang).ending = true)

/-! The vector. -/

/-- The granted rows of a tile are rows, and differ (R32). -/
def RowsDistinct (s : State) : Prop :=
  ∀ k, k < s.h.csr.tiles → ∀ i, i < s.h.csr.rows → physRow s (s.h.core + k) i < 256 ∧
    ∀ j, j < s.h.csr.rows → physRow s (s.h.core + k) i = physRow s (s.h.core + k) j → i = j

/-- A grant of R31 that holds elements. -/
def GrantSound (s : State) : Prop :=
  0 < s.h.csr.fold ∧ 0 < s.h.csr.rlen ∧ s.h.csr.fold * s.h.csr.rlen ≤ 1024 ∧ 0 < s.h.csr.rows ∧ RowsDistinct s

/-- The vector holds no element, or the grant is sound and VL does not exceed it. -/
def Granted (s : State) : Prop :=
  s.h.csr.vl = 0 ∨ (GrantSound s ∧ s.h.csr.vl ≤ s.h.csr.rows * s.h.csr.tiles * s.h.csr.rlen)

/-- The low `w` bits of element `e` of V`n` as they lie in the planes (R34, R176). -/
def elemAt (s : State) (n w e : Nat) : Nat :=
  match (vreg s n).first with
  | some p => bitsAt s (spotOf s e) p w
  | none => 0

/-- The bit of predicate P`p` for element `e` as it lies in the planes (R35). -/
def predAt (s : State) (p e : Nat) : Bool :=
  p == 0 || (planeAt s (spotOf s e).core (spotOf s e).row (p - 1)).getLsbD (spotOf s e).lane

/-- The vector registers of an instruction, each at a width, can be used as they stand: declared as vector registers at least as
wide (R368), resident in planes, and together within the budget (R369). -/
def Usable (s : State) (ops : List (BitVec 6 × Nat)) : Prop :=
  (∀ o ∈ ops, (vreg s o.1.toNat).kind = 1 ∧ o.2 ≤ (vreg s o.1.toNat).width ∧
    ∃ p, (vreg s o.1.toNat).first = some p ∧ p + dOf s o.2 ≤ 256) ∧
  planesOf s ((List.range 64).filter (fun n => ops.any (fun o => o.1.toNat == n))) ≤ 232

/-- The named registers count as referenced now (R50), the others stay. -/
def Referenced (ns : List Nat) (old new : Hart) : Prop :=
  new.refs = old.refs + 1 ∧
  ∀ n, n < 64 → vregAt new n = if n ∈ ns then { vregAt old n with lastRef := old.refs + 1 } else vregAt old n

/-- Nothing but planes and their poison, armed errors and what they set off, the order of references, the pc, and what `f` changes of
the hart differs. -/
def VecFrame (c : Ctl) (s t : State) (ns : List Nat) (f : Hart → Hart) : Prop :=
  t = { s with
    planes := t.planes, poisonLane := t.poisonLane, armed := t.armed, calendar := t.calendar
    h := { f s.h with pc := pcAfter c s, issued := true, refs := t.h.refs, regs := t.h.regs } } ∧
  Referenced ns s.h t.h ∧ (s.poisonLane = [] → t.poisonLane = []) ∧ (s.armed = [] → t.armed = [] ∧ t.calendar = s.calendar)

/-- A row of the grant. -/
def InGrant (s : State) (core row : Nat) : Prop :=
  ∃ k i, k < s.h.csr.tiles ∧ i < s.h.csr.rows ∧ core = s.h.core + k ∧ row = physRow s core i

/-- Planes outside [p, p + d) and rows outside the grant hold what they held (R36). -/
def PlanesKept (s t : State) (p d : Nat) : Prop :=
  ∀ core row pl, row < 256 → pl < 256 → (pl < p ∨ p + d ≤ pl ∨ ¬InGrant s core row) → planeAt t core row pl = planeAt s core row pl

/-- The elements of V`n` at width `w`: `f` where it gives a result, else what they were; every other plane is kept. -/
def ElemsWritten (s t : State) (n w : Nat) (f : Nat → Option Nat) : Prop :=
  ∃ p, (vreg s n).first = some p ∧ PlanesKept s t p (dOf s w) ∧
    ∀ e, e < s.h.csr.rows * s.h.csr.tiles * s.h.csr.rlen → elemAt t n w e = match f e with
      | some v => v % 2 ^ w
      | none => elemAt s n w e

/-- The same for a predicate; P0 takes nothing. -/
def PredWritten (s t : State) (p : Nat) (f : Nat → Option Bool) : Prop :=
  if p = 0 then t.planes = s.planes
  else PlanesKept s t (p - 1) 1 ∧
    ∀ e, e < s.h.csr.rows * s.h.csr.tiles * s.h.csr.rlen → predAt t p e = (f e).getD (predAt s p e)

/-- What R36 gives element `e`: `f` if it is active, zero under Z if it is not but lies below VL, else nothing. -/
def masked {α : Type} (c : Ctl) (s : State) (zero : α) (f : Nat → α) (e : Nat) : Option α :=
  if e < s.h.csr.vl then (if predBit s c.pred.toNat e then some (f e) else if c.z then some zero else none) else none

/-- The instruction completes: V`n` at width `w` takes `f` under the predicate, and nothing else changes. -/
def VecWrites (i : Instr) (c : Ctl) (s : State) (ops : List (BitVec 6 × Nat)) (n w : Nat) (f : Nat → Nat) : Prop :=
  ∃ t, exec i s = .next t ∧ VecFrame c s t (ops.map (fun o => o.1.toNat)) id ∧ ElemsWritten s t n w (masked c s 0 f)

/-- The operand is an integer descriptor in force, well formed (R55, R176). -/
def IntOp (c : Ctl) (s : State) (x : Opnd) : Prop := (descOf c s x).wf = true ∧ (descOf c s x).fmt < 2

/-- A floating-point format of the vector instructions, well formed (R199). -/
def FpOp (c : Ctl) (s : State) (x : Opnd) : Prop :=
  (descOf c s x).wf = true ∧ 2 ≤ (descOf c s x).fmt ∧ (descOf c s x).fmt ≤ 9

/-- The low `w` bits of an integer, two's complement. -/
def low (w : Nat) (v : Int) : Nat := (v % 2 ^ w).toNat

/-- Bit `k` of an integer in infinite two's complement. -/
def intBit (v : Int) (k : Nat) : Bool := v / 2 ^ k % 2 == 1

/-- What FCSR's flags become: those that were set and those of the active elements, stated without poison; nothing else of FCSR
changes (R72). -/
def FlagsGathered (c : Ctl) (s : State) (new : Word) (f : Nat → FlagSet) : Prop :=
  s.poisonLane = [] → ∀ k, k < 64 → new.getLsbD k = (s.h.csr.fcsr.getLsbD k || (decide (k < 6) &&
    (List.range s.h.csr.vl).any (fun e => predBit s c.pred.toNat e && (f e).getLsbD k)))

/-- Under SR every generator in `es` has drawn once, and under the other modes none (R70). -/
def GeneratorsDrawn (rm : Nat) (s t : State) (es : Nat → Bool) : Prop :=
  (rm ≠ 5 → t.h.gens = s.h.gens) ∧
  (rm = 5 → ∀ e, genState t.h e = if es e then (lfsrDraw (genState s.h e)).2 else genState s.h e)

/-- The instruction completes: an active element of V`n` takes the pattern of `r`, its flags gather in FCSR, its generator draws
under SR, and nothing else changes. -/
def FloatWrites (i : Instr) (c : Ctl) (s : State) (ops : List (BitVec 6 × Nat)) (n w rm : Nat) (r : Nat → Nat × FlagSet) : Prop :=
  ∃ t fl, exec i s = .next t ∧
    VecFrame c s t (ops.map (fun o => o.1.toNat)) (fun h => { h with csr := { h.csr with fcsr := fl }, gens := t.h.gens, raised := t.h.raised }) ∧
    ElemsWritten s t n w (masked c s 0 (fun e => (r e).1)) ∧ FlagsGathered c s fl (fun e => (r e).2) ∧
    GeneratorsDrawn rm s t (fun e => decide (e < s.h.csr.vl) && predBit s c.pred.toNat e)

/-- One rounding of an exact result, with the flags of the operation (R60, R201). -/
def rounded (fmt rm z : Nat) (x : FVal × FlagSet) : Nat × FlagSet :=
  ((fitFloat fmt rm z x.1).1, x.2 ||| (fitFloat fmt rm z x.1).2)

/-- The rational number ±m·2^e that a finite exact value without a sticky part stands for. -/
def FVal.IsRat (x : FVal) (q : Rat) : Prop :=
  ∃ n m e, x = .fin n m e false ∧ q = (if n then -1 else 1) * (m : Rat) * (2 : Rat) ^ e

/-- The magnitude of a rational number. -/
def magRat (q : Rat) : Rat := if q < 0 then -q else q

/-- The magnitude of a finite value, known up to its sticky part: q is m·2^e, or lies strictly between it and (m + 1)·2^e. -/
def FVal.Brackets (x : FVal) (q : Rat) : Prop :=
  ∃ n m e t, x = .fin n m e t ∧
    (if t then (m : Rat) * (2 : Rat) ^ e < magRat q ∧ magRat q < ((m + 1 : Nat) : Rat) * (2 : Rat) ^ e else magRat q = (m : Rat) * (2 : Rat) ^ e) ∧
    (q ≠ 0 → (n = true ↔ q < 0))

/-! Tile moves and streams. -/

/-- A bit of storage, the bits of a byte counted from its lowest (R8). -/
def memBit (s : State) (b : Nat) : Bool := (sget 0 s.mem (b / 8)).getLsbD (b % 8)

/-- Container widths: 1, 2, 4, 8, 16, 32, 64 (R193). -/
def IsContainer (w cw : Nat) : Prop := w ≤ cw ∧ ∃ k ≤ 6, cw = 2 ^ k ∧ ∀ j < k, 2 ^ j < w

/-- Bit offset of the container of element `e` from the base: packed, or row by row at a stride (R193, R194). -/
def containerOff (s : State) (stride : Option Word) (cw e : Nat) : Int :=
  match stride with
  | none => (e * cw : Nat)
  | some st => (e / s.h.csr.rlen : Nat) * st.toInt * 8 + (e % s.h.csr.rlen * cw : Nat)

/-- The containers of the elements below VL lie in one scratchpad window, aligned: the own cluster's of each tile (`d` none), or die
`d`'s of the hart's partition; `at' e` is the place of element `e` in storage, in bits (R88, R89, R193). -/
def TilePlaces (s : State) (base : Word) (stride : Option Word) (cw : Nat) (d : Option Nat) (at' : Nat → Nat) : Prop :=
  base.toNat % 8 = 0 ∧ (stride.getD 0).toNat % 8 = 0 ∧
  (∀ k, d = some k → k < 4 ∧ partOfDie s k = some (myGang s).part) ∧
  ∀ e, e < s.h.csr.vl →
    let a : Int := base.toNat * 8 + containerOff s stride cw e
    match d with
    | none => 0 ≤ a ∧ a + cw ≤ 2 ^ 24 * 8 ∧
      (at' e : Int) = (2 ^ 40 + (s.h.core + e / (s.h.csr.rlen * s.h.csr.rows)) / 8 * 2 ^ 24) * 8 + a
    | some k => (2 ^ 28 + k * 2 ^ 26) * 8 ≤ a ∧ a + cw ≤ (2 ^ 28 + (k + 1) * 2 ^ 26) * 8 ∧ (at' e : Int) = 2 ^ 41 * 8 + (a - 2 ^ 28 * 8)

/-- Every buffer whose tags would be checked passes (R92, R371). -/
def TagsGood (s : State) : Prop :=
  ∀ cl n, n < 64 → (bufAt s cl n).en = true → (bufAt s cl n).landed ≠ 0 → (bufAt s cl n).chk = true ∨ tagGood s cl n = true

/-- Buffers keep all but CHK, which may be set. -/
def OnlyChecked (s t : State) : Prop :=
  ∀ cl n, n < 64 → bufAt t cl n = { bufAt s cl n with chk := (bufAt s cl n).chk || (bufAt t cl n).chk }

/-- The segments of a stream before number `r` end at this offset, with `nel k` elements and `nval k` values of width `w` (R216). -/
def streamOff (w : Nat) (nel nval : Nat → Nat) : Nat → Nat
  | 0 => 0
  | r + 1 => streamOff w nel nval r + (8 + 8 * ceilDiv (nel r) 64 + 8 * ceilDiv (nval r * w) 64)

/-- Elements before segment `r`. -/
def streamElems (nel : Nat → Nat) : Nat → Nat
  | 0 => 0
  | r + 1 => streamElems nel r + nel r

/-- The segment at byte `g` of storage holds `nel` elements with the patterns `v`: header, mask, values, padding (R216). -/
def HoldsSegment (s : State) (D : Desc) (g nel : Nat) (v : Nat → Nat) : Prop :=
  let nz := (List.range nel).filter (fun k => v k != 0)
  let m := g + 8
  let p := m + 8 * ceilDiv nel 64
  (∃ h : Word, IsDword s g h ∧
    h.toNat = nz.length * 2 ^ 32 + (D.w - 1) * 2 ^ 24 + (if D.sgn then 2 ^ 20 else 0) + D.fmt * 2 ^ 16 + nel) ∧
  (∀ k, k < 64 * ceilDiv nel 64 → memBit s (8 * m + k) = (decide (k < nel) && v k != 0)) ∧
  (∀ j k, j < nz.length → k < D.w → memBit s (8 * p + j * D.w + k) = (v (nz.getD j 0)).testBit k) ∧
  ∀ k, nz.length * D.w ≤ k → k < 64 * ceilDiv (nz.length * D.w) 64 → memBit s (8 * p + k) = false

/-- The place of a stream in a scratchpad, whose budget stays inside the window (R380). -/
def StreamPlace (s : State) (base budget : Word) (g : Nat) : Prop :=
  base.toNat % 8 = 0 ∧ scratchAddr s base.toNat = some g ∧
  base.toNat + budget.toNat ≤ (if base.toNat < 2 ^ 24 then 2 ^ 24 else (base.toNat / 2 ^ 26 + 1) * 2 ^ 26)

/-! The matrix engine. -/

/-- A cell after the K terms `ts`, one by one (R222): INT and SLICED wrap at 40 bits, SAT32 (mode 1) clamps; CF remembers. -/
def Accumulates (mode : Nat) (old new : BitVec 41) (ts : List Int) : Prop :=
  ∃ (v : Nat → Int) (cf : Nat → Bool), v 0 = cellVal old ∧ cf 0 = cellCf old ∧
    cellVal new = v ts.length ∧ cellCf new = cf ts.length ∧
    ∀ k, k < ts.length →
      let x := v k + ts.getD k 0
      if mode = 1 then
        let y := if x < -2 ^ 31 then -2 ^ 31 else if 2 ^ 31 - 1 < x then 2 ^ 31 - 1 else x
        v (k + 1) = y ∧ cf (k + 1) = (cf k || decide (y ≠ x))
      else v (k + 1) = (x + 2 ^ 39) % 2 ^ 40 - 2 ^ 39 ∧ cf (k + 1) = (cf k || decide (x < -2 ^ 39 ∨ 2 ^ 39 ≤ x))

/-- The cells of the granted tiles accumulate the terms; every other cell stays. -/
def AccTerms (mode : Nat) (s t : State) (terms : Nat → Nat → Nat → List Int) : Prop :=
  (∀ τ i j, τ < s.h.csr.tiles → i < 256 → j < 256 →
    Accumulates mode (sget 0 s.acc (cellKey (s.h.core + τ) i j)) (sget 0 t.acc (cellKey (s.h.core + τ) i j)) (terms τ i j)) ∧
  ∀ k, (k / 2 ^ 16 < s.h.core ∨ s.h.core + s.h.csr.tiles ≤ k / 2 ^ 16) → sget 0 t.acc k = sget 0 s.acc k

/-- Nothing but the accumulator side of the matrix engines, armed errors and what they set off, FCSR's flags, the order of references
and the pc changes. -/
def MatrixFrame (c : Ctl) (s t : State) (ns : List Nat) : Prop :=
  t = { s with
    acc := t.acc, tables := t.tables, armed := t.armed, calendar := t.calendar
    h := { s.h with pc := pcAfter c s, issued := true, refs := t.h.refs, regs := t.h.regs, raised := t.h.raised
                    csr := { s.h.csr with fcsr := t.h.csr.fcsr } } } ∧
  Referenced ns s.h t.h ∧ (s.armed = [] → t.armed = [] ∧ t.calendar = s.calendar)

/-- What position `g` of row `row` of tile `τ` feeds from V`n` under `d`: zero where it is inactive (R225, R226). -/
def fed (c : Ctl) (s : State) (d : Desc) (n τ row g : Nat) : Int :=
  let e := τ * (s.h.csr.rlen * s.h.csr.rows) + row * s.h.csr.rlen + g
  if g < s.h.csr.rlen ∧ e < s.h.csr.vl ∧ predBit s c.pred.toNat e = true then fedInt d (elemBits s n d.w e) else 0

/-! Atomics and the sparse area. -/

/-- An aligned access of `n` bytes at `ea` finds storage byte `g` on, ordered and unpoisoned (R303, R401). -/
def AtomicReady (s : State) (ea : Word) (n align g : Nat) : Prop :=
  ea.toNat % align = 0 ∧ scratchAddr s ea.toNat = some g ∧ NoTileMoves s ∧
  ∀ k, g / 8 ≤ k → k ≤ (g + n - 1) / 8 → sget false s.poisonWord k = false

/-- The atomic completes: from the old little-endian value of `n` bytes at `g` come the new one, what X`xd` takes and the flags;
nothing else changes. -/
def AtomicRuns (i : Instr) (c : Ctl) (s : State) (g n : Nat) (xd : BitVec 5) (new : Nat → Nat) (ans : Nat → Word)
    (fl : Nat → FlagSet) : Prop :=
  let old := leNat (bytesAt s.mem g n)
  ∃ t, exec i s = .next t ∧
    t = { s with
      mem := t.mem, poisonWord := t.poisonWord, armed := t.armed, calendar := t.calendar, writers := t.writers
      h := { s.h with pc := pcAfter c s, issued := true, strip := t.h.strip, stripReads := t.h.stripReads, x := t.h.x
                      raised := s.h.raised ||| fl old
                      csr := { s.h.csr with fcsr := s.h.csr.fcsr ||| (fl old).setWidth 64 } } } ∧
    (s.armed = [] → t.armed = [] ∧ t.calendar = s.calendar) ∧ XWritten xd (ans old) s.h.x t.h.x ∧
    (∀ a, sget 0 t.mem a = if g ≤ a ∧ a < g + n then BitVec.ofNat 8 (new old / 2 ^ (8 * (a - g))) else sget 0 s.mem a) ∧
    ∀ k, sget false t.poisonWord k = sget false s.poisonWord k

/-- The sparse area of the hart in hand, as storage bytes (R293). -/
def sparseArea (s : State) : Nat := 2 ^ 40 + s.h.core / 8 * 2 ^ 24 + (myGang s).launch.sbase

/-- Byte of storage of pair `k` of S`m` (R293). -/
def pairPlace (s : State) (m k : Nat) : Nat := sparseArea s + 512 + 8 * (m * (myGang s).launch.scap + k)

/-- The dword of a pair (R294). -/
def pairWord (p : Nat × Nat) : Word := BitVec.ofNat 64 (p.2 * 2 ^ 32 + p.1)

/-- Pairs (coordinate, value) as a well-formed register holds them (R294). -/
def PairsSound (ps : List (Nat × Nat)) : Prop :=
  ps.Pairwise (fun p q => p.1 < q.1) ∧ ∀ p ∈ ps, p.1 < 2 ^ 32 ∧ p.2 < 2 ^ 32

/-- S`m` is well formed with this value type and these pairs (R294). -/
def SparseHolds (s : State) (m vt : Nat) (ps : List (Nat × Nat)) : Prop :=
  vt < 3 ∧ ps.length ≤ (myGang s).launch.scap ∧ PairsSound ps ∧
  (∃ w, IsDword s (sparseArea s + 8 * m) w ∧ w.toNat % 2 ^ 15 = ps.length ∧ w.toNat / 2 ^ 62 = vt) ∧
  ∀ k (h : k < ps.length), IsDword s (pairPlace s m k) (pairWord ps[k])

/-- The sparse area is as a launch leaves it (R293, R313), and reads of it are ordered and unpoisoned. -/
def SparseReady (s : State) : Prop :=
  NoTileMoves s ∧ s.poisonWord = [] ∧ (myGang s).launch.sbase % 512 = 0 ∧ (myGang s).launch.scap < 2 ^ 15 ∧
  (myGang s).launch.scount ≤ 16

/-- Buffers of the home cluster that `p` names have got CHK; every other buffer, and every other field, stays. -/
def OnlyThoseChecked (s t : State) (p : Nat → Bool) : Prop :=
  ∀ cl b, b < 64 → bufAt t cl b = if cl = s.h.core / 8 ∧ p b = true then { bufAt s cl b with chk := true } else bufAt s cl b

/-- S`m` takes these pairs, and no other byte changes. -/
def SparseWritten (s t : State) (m vt : Nat) (ps : List (Nat × Nat)) : Prop :=
  SparseHolds t m vt ps ∧ IsDword t (sparseArea s + 8 * m) (BitVec.ofNat 64 (vt * 2 ^ 62 + ps.length)) ∧ t.poisonWord = [] ∧
  ∀ a, (a < sparseArea s + 8 * m ∨ sparseArea s + 8 * m + 8 ≤ a) → (a < pairPlace s m 0 ∨ pairPlace s m ps.length ≤ a) →
    sget 0 t.mem a = sget 0 s.mem a

/-- The instruction completes: S`m` takes these pairs, FCSR these flags; nothing else changes. -/
def SparseWrites (i : Instr) (c : Ctl) (s : State) (m vt : Nat) (ps : List (Nat × Nat)) (fl : FlagSet) (p : Nat → Bool) : Prop :=
  ∃ t, exec i s = .next t ∧
    t = { s with
      mem := t.mem, armed := t.armed, calendar := t.calendar, bufs := t.bufs, writers := t.writers
      h := { s.h with pc := pcAfter c s, issued := true, strip := t.h.strip, stripReads := t.h.stripReads, work := t.h.work
                      raised := s.h.raised ||| fl
                      csr := { s.h.csr with fcsr := s.h.csr.fcsr ||| fl.setWidth 64 } } } ∧
    SparseWritten s t m vt ps ∧ OnlyThoseChecked s t p

/-- The range of `n` bytes from `ea` lies in one scratchpad window, whose byte for `ea` is storage byte `g`. -/
def InWindow (s : State) (ea n g : Nat) : Prop :=
  scratchAddr s ea = some g ∧ ea + n ≤ (if ea < 2 ^ 24 then 2 ^ 24 else (ea / 2 ^ 26 + 1) * 2 ^ 26)

/-! Virtual memory as the engines of a die reach it. -/

/-- The byte of HBM behind a virtual address, 0 where there is none. -/
def vpa (s : State) (w : Who) (a : Nat) : Nat :=
  match translate s w.part w.asid w.die a true with
  | .ok x => x.pa
  | .error _ => 0

/-- The byte at a virtual address. -/
def vbyte (s : State) (w : Who) (a : Nat) : Byte := sget 0 s.mem (vpa s w a)

/-- The little-endian number in `n` bytes from a virtual address. -/
def vnum (s : State) (w : Who) (a n : Nat) : Nat := leNat ((List.range n).map (fun k => vbyte s w (a + k)))

/-- The addresses in `R` are mapped for writing on pages that are not replicated, each line to a place of its own that has been
reached under no other tag (R96); no page migrates, no sector is poisoned, no error is armed; and what the bytes of `R` hold decides no
translation. -/
def PlainVa (s : State) (w : Who) (R : Nat → Prop) : Prop :=
  s.migrations = [] ∧ s.poisonHbm = [] ∧ s.armed = [] ∧
  (∀ a, R a → a < 2 ^ 64 ∧ ∃ x, translate s w.part w.asid w.die a true = .ok x ∧ pteRepl x.leaf = false ∧
    ∀ t ∈ sget [] s.caches.tags (x.pa / 512), t = x.tag w.part) ∧
  (∀ a b, R a → R b → vpa s w a = vpa s w b → a = b) ∧
  (∀ a b, R a → R b → vpa s w a / 512 = vpa s w b / 512 → a / 512 = b / 512) ∧
  ∀ t, t = { s with mem := t.mem, caches := t.caches } → (∀ p, (∀ a, R a → vpa s w a ≠ p) → sget 0 t.mem p = sget 0 s.mem p) →
    ∀ va wr, translate t w.part w.asid w.die va wr = translate s w.part w.asid w.die va wr

/-- The bytes at the virtual addresses of `R` become `f`; no other byte of memory changes. -/
def VaBecomes (s t : State) (w : Who) (R : Nat → Prop) (f : Nat → Byte) : Prop :=
  (∀ a, R a → sget 0 t.mem (vpa s w a) = f a) ∧ ∀ p, (∀ a, R a → vpa s w a ≠ p) → sget 0 t.mem p = sget 0 s.mem p

/-! Harts of the device. -/

/-- Nothing but harts changes: those that `p` names by `f`, every other stays. -/
def HartsChange (s t : State) (p : Hart → Prop) (f : Hart → Hart → Prop) : Prop :=
  t = { s with h := t.h, others := t.others } ∧ t.others.length = s.others.length ∧
  (∀ (j : Nat) (a b : Hart), (s.h :: s.others)[j]? = some a → (t.h :: t.others)[j]? = some b → (p a → f a b) ∧ (¬p a → b = a))

/-! Coaches. -/

/-- The 64 bytes from `a` on. -/
def line (a x : Nat) : Prop := a ≤ x ∧ x < a + 64

/-- The dwords of `R`, a set of whole aligned dwords, become `f`; no other byte of memory changes. -/
def DwordsBecome (s t : State) (w : Who) (R : Nat → Prop) (f : Nat → Nat) : Prop :=
  VaBecomes s t w R (fun a => byteOf (BitVec.ofNat 64 (f (a / 8 * 8))) (a % 8))

/-- Who a coach unit is when it applies an operation (R282, R284). -/
def coachWho (s : State) (op : CoachOp) : Who := ⟨(gangOf s op.gang).part, (gangOf s op.gang).launch.asid, op.die⟩

/-- The operation has arrived first at its unit, from the hart in hand, whose gang is not ending; no walk is under way or saved. -/
def CoachFirst (s : State) (op : CoachOp) : Prop :=
  (∃ rest, s.coachOps = op :: rest ∧ ∀ x ∈ rest, x.die = op.die → op.due ≤ x.due) ∧ op.due ≤ s.cyc ∧ op.gang = s.h.gang ∧
  op.hart = s.h.idx ∧ (gangOf s op.gang).ending = false ∧ (∀ q ∈ s.copies, q.walk = none) ∧
  ∀ g ∈ s.gangs, ∀ v, g.saved = some v → ∀ q ∈ v.copies, q.walk = none

/-- The operation leaves its unit, and the hart's wait holds the reply `v`, which arrives after `extra` cy and the way back; `also`
are the events entered before it. -/
def CoachReplies (s u t : State) (op : CoachOp) (extra v : Nat) (also : List (Nat × Event)) : Prop :=
  u.coachOps = s.coachOps.filter (fun x => !(x.gang == op.gang && x.hart == op.hart)) ∧
  u.calendar = s.calendar ++ also ++
    [(s.cyc + extra + 80 + 120 * ((s.h.core / 96 - op.die) + (op.die - s.h.core / 96)), .coachOpComplete op.gang op.hart)] ∧
  HartsChange u t (fun h => h.gang = op.gang ∧ h.idx = op.hart)
    (fun x y => y = { x with wait := x.wait.map (fun w => { w with reply := some (BitVec.ofNat 64 v) }) })

/-- The operation is applied: memory is as `P` says, and the hart gets `v`; nothing else changes. -/
def CoachApplies (s : State) (op : CoachOp) (extra v : Nat) (P : State → Prop) : Prop :=
  ∃ t u, exec (.coachOpApply op.die) s = .next t ∧ P t ∧
    u = { s with coachOps := u.coachOps, mem := u.mem, caches := u.caches, calendar := u.calendar } ∧ CoachReplies s u t op extra v []

/-- The operation is refused (R395): a record of class 0x11, and the hart gets 2^64 - 1; nothing else changes. -/
def CoachRefuses (s : State) (op : CoachOp) (extra : Nat) (code : BitVec 8) (va : Nat) : Prop :=
  ∃ t u r, exec (.coachOpApply op.die) s = .next t ∧
    u = { s with coachOps := u.coachOps, records := s.records ++ [r], fresh := s.fresh + 1, calendar := u.calendar } ∧
    r.agent = 4 ∧ r.cls = 0x11 ∧ r.code = code ∧ r.addr = BitVec.ofNat 64 va ∧ r.hart = op.hart ∧ r.pc = op.pc ∧ r.fin = false ∧
    CoachReplies s u t op extra (2 ^ 64 - 1) [(s.cyc + 2000, .faultRecordDelivery s.fresh)]

/-- The chain from `k` on visits these carriages (R280). -/
def ChainIs (s : State) (w : Who) : Nat → List Nat → Prop
  | k, [] => k = 0
  | k, x :: r => k = x ∧ k ≠ 0 ∧ ChainIs s w (vnum s w x 8) r

/-- The place of byte `i` of the K of (layer `l`, head `x`) in token slot `n` of carriage `k` (R281). -/
def tokenPlace (h : Shape) (k n l x i : Nat) : Nat := k + 512 + l * h.lstr + x * h.hstr + n * h.hd * h.z + i

/-- The bytes of a token slot, K and V. -/
def tokenBytes (h : Shape) (k n a : Nat) : Prop :=
  ∃ l x i, l < h.lc ∧ x < h.hc ∧ i < h.hd * h.z ∧ (a = tokenPlace h k n l x i ∨ a = tokenPlace h k n l x i + h.voff)

/-- The token in slot `n` of carriage `k` takes the record at storage byte `g` (R287). -/
def TokenTaken (s t : State) (w : Who) (h : Shape) (k n g : Nat) : Prop :=
  ∀ l x i, l < h.lc → x < h.hc → i < h.hd * h.z →
    sget 0 t.mem (vpa s w (tokenPlace h k n l x i)) = sget 0 s.mem (g + (l * h.hc + x) * (h.hd * h.z) + i) ∧
    sget 0 t.mem (vpa s w (tokenPlace h k n l x i + h.voff)) =
      sget 0 s.mem (g + (h.lc * h.hc + l * h.hc + x) * (h.hd * h.z) + i)

/-- A record of `n` bytes at a local address: aligned, in one scratchpad window from storage byte `g` on, unpoisoned (R287). -/
def RecordAt (s : State) (a n g : Nat) : Prop := a % 8 = 0 ∧ InWindow s a n g ∧ s.poisonWord = []

/-! The scheduler root and records. -/

/-- A gang that has not ended. -/
def Gang.live (g : Gang) : Prop := g.st ≠ .retired ∧ g.st ≠ .faulted

/-- The gang holds package cluster `c`, or claims it (R321). -/
def Gang.occupies (g : Gang) (c : Nat) : Prop :=
  (g.clusters ≠ 0 ∧ g.base / 8 ≤ c ∧ c < g.base / 8 + g.clusters) ∨
  ∃ b, g.claim = some b ∧ b ≤ c ∧ c < b + ceilDiv (g.launch.nhart * g.launch.tph) 8

/-- Clusters `c` on are in the gang's partition, and no other live gang holds or claims one that it needs (R317). -/
def BlockFree (s : State) (g : Gang) (c : Nat) : Prop :=
  (c < 48 ∧ partOfDie s (c / 12) = some g.part) ∧
  ∀ i, i < ceilDiv (g.launch.nhart * g.launch.tph) 8 → c + i < 48 ∧ partOfDie s ((c + i) / 12) = some g.part ∧
    ∀ x ∈ s.gangs, x.id ≠ g.id → x.live → ¬x.occupies (c + i)

/-- The live gangs with this identity change by `f`, the others stay. -/
def gangsWith (s : State) (id : Nat) (f : Gang → Gang) : List Gang :=
  s.gangs.map (fun g => if g.id == id && g.st != .retired && g.st != .faulted then f g else g)

/-- The root's answer `v` is on its way to the hart that asked (R312). -/
def RootAnswers (s u t : State) (r : Request) (v : Nat) (also : List (Nat × Event)) : Prop :=
  u.requests = s.requests.filter (fun x => x.n != r.n) ∧
  u.calendar = s.calendar ++ also ++ [(s.cyc + 100 + 60 * (r.core / 96), .waitComplete r.gang r.hart)] ∧
  HartsChange u t (fun h => h.gang = r.gang ∧ h.idx = r.hart)
    (fun x y => y = { x with wait := x.wait.map (fun w => { w with reply := some (BitVec.ofNat 64 v) }) })

/-- The ID of a request is 0, too wide, or that of a live gang of the partition (R312). -/
def IdRefused (s : State) (part : Nat) (id : Word) : Prop :=
  2 ^ 32 ≤ id.toNat ∨ id = 0 ∨ ∃ g ∈ s.gangs, g.id = part * 2 ^ 32 + id.toNat ∧ g.live

/-- The list of gangs when a launch has been taken as `g`, the launch sequence one further, and so the count of the gangs that have
ended where `g` has; a pass is due where it has become queued. -/
def GangTaken (s t : State) (part : Nat) (g : Gang) : Prop :=
  let ends := if g.st = .faulted then 1 else 0
  t.gangs = s.gangs.filter (fun x => x.id != g.id) ++ [g] ∧
  ∀ p, p < 4 → partAt t p = if p = part
    then { partAt s p with lres := (partAt t p).lres, seq := (partAt s p).seq + 1, endCount := (partAt s p).endCount + ends
                           passDue := (partAt s p).passDue || g.st == .queued }
    else partAt s p

/-- The gang has ended in state `st`: its record remains with the exit values and the count of the harts that had exited, as the last
of the partition's ended gangs; its clusters and harts are gone (R312, R315, R316). -/
def GangEnds (s t : State) (g : Gang) (st : GangState) : Prop :=
  let harts := (s.h :: s.others).filter (fun h => h.gang == g.id) ++ g.harts
  findGang t g.id = none ∧
  (∃ e, t.gangs.getLast? = some e ∧ e = { g with st := st, clusters := 0, claim := none, hold := none, saved := none, preempt := false
                                                 exits := e.exits, harts := [], exited := (harts.filter (fun h => h.exit.isSome)).length
                                                 endNo := e.endNo } ∧
    (g.part < 4 → e.endNo = (partAt s g.part).endCount + 1) ∧
    ∀ k v, (∀ h ∈ harts, h.idx = k → h.exit = some v) → (∃ h ∈ harts, h.idx = k) → sget 0 e.exits k = v) ∧
  (∀ p, p < 4 → partAt t p = if p = g.part then { partAt s p with
      endCount := (partAt s p).endCount + 1, passDue := (partAt s p).passDue || g.clusters != 0 } else partAt s p) ∧
  (g.id ≠ 0 → ∀ h ∈ t.h :: t.others, h.gang ≠ g.id) ∧
  (∀ h ∈ s.h :: s.others, h.gang ≠ g.id → h ∈ t.h :: t.others)

/-- The dwords of a record as R349 lays them out. -/
def recordDwords (r : Record) (esc : Bool) : List Word :=
  [BitVec.ofNat 64 (2 ^ 63 + (if r.async then 2 ^ 62 else 0) + (if esc then 2 ^ 61 else 0) + r.agent % 2 ^ 8 * 2 ^ 48 +
      (if r.nest then 2 ^ 18 else 0) + (if r.noh then 2 ^ 17 else 0) + (if r.fin then 2 ^ 16 else 0) + r.cls.toNat * 2 ^ 8 + r.code.toNat),
   BitVec.ofNat 64 (r.gang % 2 ^ 32 * 2 ^ 32 + r.hart % 2 ^ 16), r.pc, BitVec.ofNat 64 (r.step % 2 ^ 32), r.addr,
   BitVec.ofNat 64 (r.tag % 2 ^ 16 * 2 ^ 32 + r.tidx % 2 ^ 8 * 2 ^ 16 + r.chan % 2 ^ 12), BitVec.ofNat 64 r.cyc, r.synd]

/-- The host fault log of partition `p` takes these dwords in its next slot, FCOUNT rises, vector 0 is sent (R356). -/
def HostLogged (s t : State) (p : Nat) (ds : List Word) : Prop :=
  let n := sget 0 (partAt s p).log 0x100
  let slot := 0x108 + 8 * (n.toNat % 31)
  t.msgs = s.msgs ++ [message s p 0] ∧
  (∀ q, q < 4 → partAt t q = if q = p then { partAt s q with log := (partAt t q).log } else partAt s q) ∧
  (p < 4 → ∀ k, sget 0 (partAt t p).log k =
    if k = 0x100 then n + 1 else if slot ≤ k ∧ k < slot + 8 then ds.getD (k - slot) 0 else sget 0 (partAt s p).log k)

/-- The notice of R360 in the host fault log: ASYNC, class 0x20. -/
def Noticed (s t : State) (g : Gang) (code : BitVec 8) (agent hart : Nat) (synd : Word) : Prop :=
  ∃ r : Record, HostLogged s t g.part (recordDwords r false) ∧ r.async = true ∧ r.cls = 0x20 ∧ r.code = code ∧ r.agent = agent ∧
    r.gang = g.id ∧ r.hart = hart ∧ r.synd = synd ∧ r.cyc = s.cyc ∧ r.fin = false ∧ r.nest = false ∧ r.noh = false

/-! Copies. -/

/-- A LINEAR copy of `n` bytes from the gang's virtual space to the own cluster's scratchpad, without conversion or limit (R262,
R264). -/
def LinearCopy (q : Copy) (n : Nat) : Prop :=
  q.kind = 0 ∧ q.ssp = 1 ∧ q.dsp = 0 ∧ q.fof = false ∧ q.cvt = false ∧ q.ldcv = false ∧ q.follow = false ∧ q.limit = none ∧ q.walk = none ∧
  n = q.dw 3 % 2 ^ 32 + 1 ∧ q.dst + n ≤ 2 ^ 24 ∧ q.src + n ≤ 2 ^ 64 ∧ q.core < 384

/-- Copy `q` runs on its channel, and identifiers are its own. -/
def RunsOn (s : State) (q : Copy) : Prop :=
  s.copies.find? (fun x => x.chan == q.chan && x.started) = some q ∧ (s.copies.map (fun x => x.id)).Nodup ∧ q.frozen = false ∧
  (gangOf s q.gang).ending = false

/-- First byte of block `b` that the copy writes, counted from its start, and the end of those bytes. -/
def blockFrom (q : Copy) (b : Nat) : Nat := 512 * b - q.dst
def blockTo (q : Copy) (n b : Nat) : Nat := min n (512 * b + 512 - q.dst)

/-- Chunk `c` of a copy would miss the slot that the plan of its lockstep gang gave it (R6). -/
def MissesSlot (s : State) (q : Copy) (c : Chunk) : Prop :=
  (gangOf s q.gang).launch.lockstep = true ∧ c.late = false ∧ c.slot ≠ 2 ^ 64

/-- The copy's place in the list is taken by `q'`; the others stay. -/
def copiesWith (s : State) (q q' : Copy) : List Copy := s.copies.map (fun x => if x.id == q.id then q' else x)

end Sys2Proof.Machine
end

