-- ==== Sys2Proof/Certificates/Slice0/Obligations.lean ====
section
/-! DEFINITION. The statements for the provers. -/
open Sys2Proof Sys2Proof.Machine

/-- R154: the sixteen register-register operations, their results in the terms of the table, X0 included.
R155: the immediate operations, LI and LA.
R156: multiplication and division, by zero and with overflow included.
R157: counts of bits, and the bit fields, bit by bit. -/
def Obligations.ScalarArithmeticResults : Prop :=
 (∀ (c : Ctl) (o : X3) (s : State),
    let a := rx s o.xa
    let b := rx s o.xb
    let n := b.toNat % 64
    WritesX (.add c o) c o.xd (BitVec.ofNat 64 (a.toNat + b.toNat)) s ∧
    WritesX (.sub c o) c o.xd (BitVec.ofInt 64 ((a.toNat : Int) - b.toNat)) s ∧
    WritesX (.and c o) c o.xd (a &&& b) s ∧
    WritesX (.or c o) c o.xd (a ||| b) s ∧
    WritesX (.xor c o) c o.xd (a ^^^ b) s ∧
    WritesX (.andn c o) c o.xd (a &&& ~~~b) s ∧
    WritesX (.min c o) c o.xd (BitVec.ofInt 64 (min a.toInt b.toInt)) s ∧
    WritesX (.max c o) c o.xd (BitVec.ofInt 64 (max a.toInt b.toInt)) s ∧
    WritesX (.minu c o) c o.xd (BitVec.ofNat 64 (min a.toNat b.toNat)) s ∧
    WritesX (.maxu c o) c o.xd (BitVec.ofNat 64 (max a.toNat b.toNat)) s ∧
    WritesX (.slt c o) c o.xd (if a.toInt < b.toInt then 1 else 0) s ∧
    WritesX (.sltu c o) c o.xd (if a.toNat < b.toNat then 1 else 0) s ∧
    WritesX (.sll c o) c o.xd (BitVec.ofNat 64 (a.toNat * 2 ^ n)) s ∧
    WritesX (.srl c o) c o.xd (BitVec.ofNat 64 (a.toNat / 2 ^ n)) s ∧
    WritesX (.sra c o) c o.xd (BitVec.ofInt 64 (a.toInt / 2 ^ n)) s ∧
    WritesX (.sel c o) c o.xd (if rx s o.xd ≠ 0 then a else b) s) ∧
 (∀ (c : Ctl) (o : XI) (p : XL) (s : State),
    let a := rx s o.xa
    let n := c.imm.toNat % 64
    WritesX (.addi c o) c o.xd (BitVec.ofInt 64 (a.toInt + c.imm.toInt)) s ∧
    WritesX (.andi c o) c o.xd (a &&& c.imm) s ∧
    WritesX (.ori c o) c o.xd (a ||| c.imm) s ∧
    WritesX (.xori c o) c o.xd (a ^^^ c.imm) s ∧
    WritesX (.slti c o) c o.xd (if a.toInt < c.imm.toInt then 1 else 0) s ∧
    WritesX (.slli c o) c o.xd (BitVec.ofNat 64 (a.toNat * 2 ^ n)) s ∧
    WritesX (.srli c o) c o.xd (BitVec.ofNat 64 (a.toNat / 2 ^ n)) s ∧
    WritesX (.srai c o) c o.xd (BitVec.ofInt 64 (a.toInt / 2 ^ n)) s ∧
    WritesX (.li c p) c p.xd c.imm s ∧
    WritesX (.la c p) c p.xd (BitVec.ofInt 64 (s.h.pc.toNat + 4 * c.imm.toInt)) s) ∧
 (∀ (c : Ctl) (o : X3) (s : State),
    let a := rx s o.xa
    let b := rx s o.xb
    WritesX (.mul c o) c o.xd (BitVec.ofNat 64 (a.toNat * b.toNat)) s ∧
    WritesX (.mulh c o) c o.xd (BitVec.ofInt 64 (a.toInt * b.toInt / 2 ^ 64)) s ∧
    WritesX (.mulhu c o) c o.xd (BitVec.ofNat 64 (a.toNat * b.toNat / 2 ^ 64)) s ∧
    WritesX (.div c o) c o.xd
      (if b = 0 then BitVec.ofInt 64 (-1)
       else if a.toInt = -2 ^ 63 ∧ b.toInt = -1 then BitVec.ofInt 64 (-2 ^ 63) else BitVec.ofInt 64 (Int.tdiv a.toInt b.toInt)) s ∧
    WritesX (.divu c o) c o.xd (if b = 0 then BitVec.ofNat 64 (2 ^ 64 - 1) else BitVec.ofNat 64 (a.toNat / b.toNat)) s ∧
    WritesX (.rem c o) c o.xd
      (if b = 0 then a
       else if a.toInt = -2 ^ 63 ∧ b.toInt = -1 then 0
       else BitVec.ofInt 64 (a.toInt - b.toInt * Int.tdiv a.toInt b.toInt)) s ∧
    WritesX (.remu c o) c o.xd (if b = 0 then a else BitVec.ofNat 64 (a.toNat % b.toNat)) s) ∧
 (∀ (c : Ctl) (o : X3) (s : State),
    let a := rx s o.xa
    let b := rx s o.xb
    let d := rx s o.xd
    let lo := b.toNat % 64
    let w := b.toNat / 2 ^ 8 % 64 + 1
    (∃ n ≤ 64, (∀ k, 64 - n ≤ k → k < 64 → a.getLsbD k = false) ∧ (n < 64 → a.getLsbD (63 - n) = true) ∧
      WritesX (.clz c o) c o.xd (BitVec.ofNat 64 n) s) ∧
    (∃ n ≤ 64, (∀ k, k < n → a.getLsbD k = false) ∧ (n < 64 → a.getLsbD n = true) ∧
      WritesX (.ctz c o) c o.xd (BitVec.ofNat 64 n) s) ∧
    WritesX (.popc c o) c o.xd (BitVec.ofNat 64 ((List.range 64).countP (fun k => a.getLsbD k))) s ∧
    (∃ r : Word, (∀ k, k < 64 → r.getLsbD k =
        if k < min w (64 - lo) then a.getLsbD (lo + k) else (b.getLsbD 16 && a.getLsbD (lo + min w (64 - lo) - 1))) ∧
      WritesX (.ext c o) c o.xd r s) ∧
    (∃ r : Word, (∀ k, k < 64 → r.getLsbD k = if lo ≤ k ∧ k < lo + w then a.getLsbD (k - lo) else d.getLsbD k) ∧
      WritesX (.ins c o) c o.xd r s))

/-- R159 to R161: branches, JMP, JAL, JALR and LOOP; a misaligned JALR target traps and changes no register.
R162 to R164: NOP and YIELD change nothing; WAITC moves only the next issue, to T + 1 where that lies later. That X[XD] counts
as a signed number is the model's reading (log 56).
R163, R311, R316, R318: EXIT with no copy and no pair outstanding records X[XA], stops the hart, counts as its trigger, and with the
gang's last hart begins to drain the gang; with a copy outstanding, or a write of it on its way to another die (R126), it waits. ETRIG marks the hart, and fires the gang's trigger with
its last hart. -/
def Obligations.ScalarControlFlow : Prop :=
 (∀ (c : Ctl) (o : BR) (j : J) (p : XL) (q : XI) (s : State),
    let a := rx s o.xa
    let b := rx s o.xb
    let n := pcAfter c s
    let tgt := pcPlus s.h.pc c.imm.toInt
    let jr := BitVec.ofInt 64 ((rx s q.xa).toNat + c.imm.toInt)
    let v := BitVec.ofInt 64 ((rx s p.xd).toNat - 1)
    JumpsTo (.beq c o) (if a = b then tgt else n) 0 0 s ∧
    JumpsTo (.bne c o) (if a = b then n else tgt) 0 0 s ∧
    JumpsTo (.blt c o) (if a.toInt < b.toInt then tgt else n) 0 0 s ∧
    JumpsTo (.bge c o) (if a.toInt < b.toInt then n else tgt) 0 0 s ∧
    JumpsTo (.bltu c o) (if a.toNat < b.toNat then tgt else n) 0 0 s ∧
    JumpsTo (.bgeu c o) (if a.toNat < b.toNat then n else tgt) 0 0 s ∧
    JumpsTo (.jmp c j) tgt 0 0 s ∧
    JumpsTo (.jal c p) tgt p.xd n s ∧
    (jr.toNat % 4 = 0 → JumpsTo (.jalr c q) jr q.xd n s) ∧
    (jr.toNat % 4 ≠ 0 → Raises (.jalr c q) 8 1 jr s) ∧
    (p.xd ≠ 0 → JumpsTo (.loop c p) (if v = 0 then n else tgt) p.xd v s)) ∧
 (∀ (c : Ctl) (o : X3) (p : XL) (s : State),
    let t1 : Int := (myGang s).tstart + (rx s p.xd).toInt + c.imm.toInt + 1
    OnlyGoesOn (.nop c o) c s ∧ OnlyGoesOn (.yield c o) c s ∧
    ∃ t, exec (.waitc c p) s = .next t ∧ GoesOn c s t (fun h => { h with next := t.h.next }) ∧
      s.h.next ≤ t.h.next ∧ t1 ≤ t.h.next ∧ (t1 ≤ s.h.next → t.h.next = s.h.next) ∧ (s.h.next ≤ t1 → t.h.next = t1)) ∧
 (∀ (c : Ctl) (o : X3) (s : State), (∀ h ∈ s.others, isHart s.h.gang s.h.idx h = false) →
    let g := s.h.gang
    let mates := s.others.filter (fun h => h.gang == g)
    let awaited := (∃ q ∈ s.copies, q.gang = g ∧ q.hart = s.h.idx) ∨ ∃ r ∈ s.replicas, r.gang = g ∧ r.hart = s.h.idx
    (awaited → ∃ t w, exec (.exit c o) s = .next t ∧
      t = { s with h := { s.h with wait := some w, issued := false } } ∧ w.instr = .exit c o) ∧
    (¬awaited → (∀ p ∈ s.bins, ¬(p.gang = g ∧ p.hart = s.h.idx)) → s.h.binSets = [] →
      ∃ t, exec (.exit c o) s = .next t ∧
        t = { s with h := { s.h with exit := some (rx s o.xa), run := .exited, wait := none, issued := true }
                     gangs := t.gangs, calendar := t.calendar } ∧
        ((findGang s g).isSome = true →
          (gangOf t g).st = (if mates.all (fun h => h.exit.isSome) then .draining else (gangOf s g).st) ∧
          (gangOf t g).fired = ((gangOf s g).fired || mates.all (fun h => h.triggered || h.exit.isSome)) ∧
          (mates.all (fun h => h.exit.isSome) = true → (s.cyc + 1, .gangRetire g) ∈ t.calendar))) ∧
    (∃ t, exec (.etrig c o) s = .next t ∧
      t = { s with h := { s.h with triggered := true, pc := pcAfter c s, issued := true }, gangs := t.gangs, calendar := t.calendar } ∧
      ((findGang s g).isSome = true → (gangOf t g).fired = ((gangOf s g).fired || mates.all (fun h => h.triggered || h.exit.isSome))) ∧
      (mates.all (fun h => h.triggered || h.exit.isSome) = false → t.gangs = s.gangs ∧ t.calendar = s.calendar)))

/-- R166, R346, R352: TRAP_ENTRY completes in every state. With a handler a class of precise traps writes what R166 lists, and nothing else,
ESTEP 0 (R347); without one the hart stops and changes nothing else of itself. A class that is not of a precise trap is never produced.
R352: without a handler a precise trap stops the hart, the gang begins to end, and a fault record with the trap's class and code, END,
and NEST or NOH is queued.
R47, R355: ASYNC_INTERRUPT completes in every state. A pending interrupt is taken at a restart point exactly when IE = 1 and TL = 0,
with the record's class and code and the slot's address; else nothing changes. Where the pc equals RPC counts as a restart point
(log 51). -/
def Obligations.TrapAndInterruptEntry : Prop :=
 (∀ (cls code : BitVec 8) (eaddr : Word) (s : State),
    ∃ t, exec (.trapEntry cls code eaddr) s = .next t ∧
      (1 ≤ cls.toNat → cls.toNat ≤ 10 → HandlerReady s → EntersHandler false cls code eaddr s.h.pc s t) ∧
      (1 ≤ cls.toNat → cls.toNat ≤ 10 → ¬HandlerReady s → t.h = { s.h with run := .stopped, issued := false }) ∧
      (cls.toNat = 0 ∨ 10 < cls.toNat → t = s)) ∧
 (∀ (cls code : BitVec 8) (eaddr : Word) (s : State), 1 ≤ cls.toNat → cls.toNat ≤ 10 → ¬HandlerReady s →
    ∃ t r, exec (.trapEntry cls code eaddr) s = .next t ∧
      t.h = { s.h with run := .stopped, issued := false } ∧
      t.records = s.records ++ [r] ∧ r.cls = cls ∧ r.code = code ∧ r.fin = true ∧ r.async = false ∧ r.agent = 1 ∧
      r.nest = s.h.csr.status.getLsbD 2 ∧ r.noh = (s.h.csr.tvec == 0) ∧ r.pc = s.h.pc ∧ r.addr = eaddr ∧ r.hart = s.h.idx ∧
      r.cyc = s.cyc ∧
      t.others = s.others ∧ t.mem = s.mem ∧ t.planes = s.planes ∧ t.acc = s.acc ∧ t.copies = s.copies ∧
      ((findGang s s.h.gang).isSome = true → (gangOf t s.h.gang).ending = true)) ∧
 (∀ (s : State), ∃ t, exec .asyncInterrupt s = .next t ∧
    (∀ q rest, s.h.irqs = q :: rest → s.h.csr.status.getLsbD 0 = true → s.h.csr.status.getLsbD 2 = false →
      EntersHandler true q.cls q.code q.eaddr s.h.pc { s with h := { s.h with irqs := rest } } t) ∧
    (s.h.irqs = [] ∨ s.h.csr.status.getLsbD 0 = false ∨ s.h.csr.status.getLsbD 2 = true → t = s))

/-- R167, R364: TRAP, BRK and RTE, and a POOL header reached by execution. RTE waits nowhere in `exec`: what it waits for falls in the
choice of its issue cy. -/
def Obligations.TrapBreakReturnPool : Prop :=
  ∀ (c : Ctl) (o : X3) (p : XL) (q : PL) (s : State),
    (HandlerReady s → ∃ t, exec (.trap c p) s = .next t ∧ EntersHandler false 1 0 c.imm (pcAfter c s) s t) ∧
    ((myGang s).haltOnBreak = true → exec (.brk c o) s = .next { s with h := { s.h with run := .halted } }) ∧
    ((myGang s).haltOnBreak = false → Raises (.brk c o) 1 1 0 s) ∧
    (s.h.csr.status.getLsbD 2 = true → ∃ t, exec (.rte c o) s = .next t ∧
      t = { s with h := { s.h with pc := s.h.csr.epc, issued := true, stepAt := s.h.csr.estep.toNat % 2 ^ 32, next := t.h.next
                                   csr := { s.h.csr with status := t.h.csr.status } } } ∧
      t.h.csr.status.toNat = (if s.h.csr.status.getLsbD 1 then 3 else 0) ∧ s.h.lastLand + 8 ≤ t.h.next) ∧
    (s.h.csr.status.getLsbD 2 = false → ∃ e, Raises (.rte c o) 2 7 e s ∧ e.toNat % 2 ^ 32 = ((encode (.rte c o)).headD 0).toNat) ∧
    Raises (.pool c q) 3 1 (BitVec.ofNat 64 (s.h.pc.toNat + 4 + 4 * q.nw.toNat)) s

/-- R168, R169: what CSRR reads, CSR by CSR (the flags of FCSR outside the window of a flag update, R72; RPC outside a restart point,
R47); X0 takes nothing and nothing else changes.
R9, R54, R68, R70, R165, R168, R169, R223: what CSRW, CSRS and CSRC leave in a writable CSR: RW bits take the written value, the
set or the cleared bits, reserved bits stay zero; a reserved code of FCSR.RM or MCFG.MODE changes nothing of its field; a flag of FCSR
that is not written is set only where an earlier instruction's window, still open, raises it, and is ORed in then or not (R72); nothing
but that CSR, the pc and, for a write of FCSR.SEED, the generators changes. The monitor CSRs stand in another statement.
R172, R224: SETVT writes VTYPE[47:0] with ILL recomputed and returns the new VTYPE; MCFG writes MCFG and returns the old one. -/
def Obligations.CsrResults : Prop :=
 (∀ (c : Ctl) (o : C) (s : State) (v : Word),
    (o.csr.toNat, v) ∈ [(0x000, BitVec.ofNat 64 s.h.csr.vl), (0x001, BitVec.ofNat 64 s.h.csr.rlen),
      (0x002, BitVec.ofNat 64 s.h.csr.rows), (0x003, BitVec.ofNat 64 s.h.csr.tiles), (0x004, BitVec.ofNat 64 s.h.csr.fold),
      (0x005, s.h.csr.vtype), (0x006, 0), (0x007, s.h.csr.resume), (0x010, s.h.csr.fcsr), (0x011, s.h.csr.mcfg),
      (0x020, if (myGang s).launch.lockstep then 1 else 0), (0x021, if s.h.csr.tchk then 1 else 0),
      (0x022, BitVec.ofNat 64 (myGang s).tstart), (0x023, BitVec.ofNat 64 s.cyc), (0x024, s.h.csr.rpc),
      (0x030, BitVec.ofNat 64 s.h.idx), (0x031, BitVec.ofNat 64 (s.h.gang % 2 ^ 32)),
      (0x032, BitVec.ofNat 64 (s.h.core + 2 ^ 16 * s.h.slots)), (0x033, (myGang s).launch.mbox), (0x040, s.h.csr.status),
      (0x041, s.h.csr.tvec), (0x042, s.h.csr.epc), (0x043, s.h.csr.ecause), (0x044, s.h.csr.estep), (0x045, s.h.csr.eaddr)] →
    (o.csr = 0x010 → Loc.flags ∉ s.h.hot) → (o.csr = 0x024 → c.rp = false) →
    WritesX (.csrr c o) c o.xd v s) ∧
 (∀ (c : Ctl) (o : C) (s : State) (i : Instr) (v : Word) (seed : Bool),
    (i, v, seed) ∈ [(Instr.csrw c o, rx s o.xd, true),
      (.csrs c o, csrRead s o.csr.toNat ||| rx s o.xd, decide (2 ^ 32 ≤ (rx s o.xd).toNat)),
      (.csrc c o, csrRead s o.csr.toNat &&& ~~~rx s o.xd, decide (2 ^ 32 ≤ (rx s o.xd).toNat))] →
    o.csr.toNat ∈ [0x005, 0x007, 0x010, 0x011, 0x021, 0x040, 0x041, 0x042, 0x043, 0x044, 0x045] →
    ∃ t, exec i s = .next t ∧ GoesOn c s t (fun h => { h with csr := t.h.csr, gens := t.h.gens }) ∧
      t.h.gens = (if o.csr = 0x010 ∧ seed = true then [] else s.h.gens) ∧
      t.h.csr = { s.h.csr with
        vtype := t.h.csr.vtype, resume := t.h.csr.resume, fcsr := t.h.csr.fcsr, mcfg := t.h.csr.mcfg, tchk := t.h.csr.tchk
        status := t.h.csr.status, tvec := t.h.csr.tvec, epc := t.h.csr.epc, ecause := t.h.csr.ecause, estep := t.h.csr.estep
        eaddr := t.h.csr.eaddr } ∧
      (if o.csr = 0x005 then t.h.csr.vtype.toNat % 2 ^ 63 = v.toNat % 2 ^ 48 ∧
          (t.h.csr.vtype.getLsbD 63 = true ↔
            ∃ k ∈ [0, 1, 2], (Desc.ofNat (v.toNat / 2 ^ (16 * k) % 2 ^ 16)).wf = false)
        else t.h.csr.vtype = s.h.csr.vtype) ∧
      t.h.csr.resume = (if o.csr = 0x007 then v else s.h.csr.resume) ∧
      (if o.csr = 0x010 then ∀ k, k < 64 → t.h.csr.fcsr.getLsbD k =
          if 8 ≤ k ∧ k < 11 then (if v.toNat / 2 ^ 8 % 8 < 6 then v.getLsbD k else s.h.csr.fcsr.getLsbD k)
          else (v.getLsbD k && (decide (32 ≤ k) || decide (k < 6))) || (decide (k < 6) && t.h.csr.fcsr.getLsbD k)
        else t.h.csr.fcsr = s.h.csr.fcsr) ∧
      (∀ k, k < 6 → o.csr = 0x010 → t.h.csr.fcsr.getLsbD k = true →
        v.getLsbD k = true ∨ ∃ w ∈ s.h.flagsDue, s.cyc ≤ w.1 ∧ w.2.getLsbD k = true) ∧
      (if o.csr = 0x011 then ∀ k, k < 64 → t.h.csr.mcfg.getLsbD k =
          if k < 2 then (if v.toNat % 4 < 3 then v.getLsbD k else s.h.csr.mcfg.getLsbD k)
          else v.getLsbD k && decide (k < 11 ∧ 4 ≤ k ∧ k ≠ 7)
        else t.h.csr.mcfg = s.h.csr.mcfg) ∧
      t.h.csr.tchk = (if o.csr = 0x021 then v.getLsbD 0 else s.h.csr.tchk) ∧
      (if o.csr = 0x040 then t.h.csr.status.toNat = v.toNat % 8 else t.h.csr.status = s.h.csr.status) ∧
      (if o.csr = 0x041 then t.h.csr.tvec.toNat = v.toNat / 4 * 4 else t.h.csr.tvec = s.h.csr.tvec) ∧
      (if o.csr = 0x042 then t.h.csr.epc.toNat = v.toNat / 4 * 4 else t.h.csr.epc = s.h.csr.epc) ∧
      (if o.csr = 0x043 then t.h.csr.ecause.toNat = v.toNat / 2 ^ 63 * 2 ^ 63 + v.toNat % 2 ^ 16
        else t.h.csr.ecause = s.h.csr.ecause) ∧
      (if o.csr = 0x044 then t.h.csr.estep.toNat = v.toNat % 2 ^ 32 else t.h.csr.estep = s.h.csr.estep) ∧
      t.h.csr.eaddr = (if o.csr = 0x045 then v else s.h.csr.eaddr)) ∧
 (∀ (c : Ctl) (o : X3) (s : State),
    let v := rx s o.xa
    (∃ t w, exec (.setvt c o) s = .next t ∧ GoesOn c s t (fun h => { h with x := t.h.x, csr := { s.h.csr with vtype := w } }) ∧
      XWritten o.xd w s.h.x t.h.x ∧ w.toNat % 2 ^ 63 = v.toNat % 2 ^ 48 ∧
      (w.getLsbD 63 = true ↔ ∃ k ∈ [0, 1, 2], (Desc.ofNat (v.toNat / 2 ^ (16 * k) % 2 ^ 16)).wf = false)) ∧
    (∃ t w, exec (.mcfg c o) s = .next t ∧ GoesOn c s t (fun h => { h with x := t.h.x, csr := { s.h.csr with mcfg := w } }) ∧
      XWritten o.xd s.h.csr.mcfg s.h.x t.h.x ∧
      ∀ k, k < 64 → w.getLsbD k =
        if k < 2 then (if v.toNat % 4 < 3 then v.getLsbD k else s.h.csr.mcfg.getLsbD k)
        else v.getLsbD k && decide (k < 11 ∧ 4 ≤ k ∧ k ≠ 7)))

/-- R88, R90, R92, R158, R371: LD, LDU and LDQ from a scratchpad: the little-endian dwords, ea into X[XA] for LDU with the data
winning, CHK set in the checked buffers, and nothing else. Open orders of the strip follow log 5 and log 25.
R90, R158: ST, STQ and BTX to a scratchpad store the bytes of X[XD], and of X[XD + 1] behind them, little-endian; every other byte
stays. BTX is STQ (R255). -/
def Obligations.ScalarLoadsAndStores : Prop :=
 (∀ (c : Ctl) (o : XI) (s : State) (g : Nat),
    let e1 := BitVec.ofInt 64 ((rx s o.xa).toNat + 8 * c.imm.toInt)
    let e2 := BitVec.ofInt 64 ((rx s o.xa).toNat + 16 * c.imm.toInt)
    (LoadReady s e1 8 g → ∃ v, IsDword s g v ∧
      Loads (.ld c o) c s e1 8 (fun r => if r = o.xd.toNat then some v else none) ∧
      Loads (.ldu c o) c s e1 8 (fun r => if r = o.xd.toNat then some v else if r = o.xa.toNat then some e1 else none)) ∧
    (LoadReady s e2 16 g → ∃ v w, IsDword s g v ∧ IsDword s (g + 8) w ∧
      Loads (.ldq c o) c s e2 16
        (fun r => if r = (o.xd + 1).toNat then some w else if r = o.xd.toNat then some v else none))) ∧
 (∀ (c : Ctl) (o : XI) (s : State) (g : Nat), NoTileMoves s →
    let e1 := BitVec.ofInt 64 ((rx s o.xa).toNat + 8 * c.imm.toInt)
    let e2 := BitVec.ofInt 64 ((rx s o.xa).toNat + 16 * c.imm.toInt)
    let two := fun k => if k < 8 then byteOf (rx s o.xd) k else byteOf (rx s (o.xd + 1)) (k - 8)
    (e1.toNat % 8 = 0 → scratchAddr s e1.toNat = some g → Stores (.st c o) c s g 8 (byteOf (rx s o.xd))) ∧
    (e2.toNat % 16 = 0 → scratchAddr s e2.toNat = some g → Stores (.stq c o) c s g 16 two ∧ Stores (.btx c o) c s g 16 two))

/-- R371, R380, R417: where a scalar access traps or ends the gang: a misaligned address; the first buffer in order whose tags fail;
a poisoned word. Nothing is loaded or stored.
R88, R357: a scalar access to no window, or to a die scratchpad outside the partition: the load reads 0, the store changes
nothing, one violation entry is written, and the instruction completes.
R55, R131, R176, R199, R347, R367, R368, R369: where the three-operand instructions trap, in the order of the codes: an
ill-formed descriptor of VTYPE, an ill-formed override, a combination not accepted, an operand wider than its register or a table,
an undeclared register; and VLUT with a set of registers beyond 232 planes. Which of two faults comes first is read as log 23
says.
R88, R193, R357, R380: a tile move traps on a misaligned base or stride and on a range that leaves its window, and gets error
responses, with one violation entry, outside the scratchpads: a load then reads zeros, a store writes nothing. The range and the
one entry are the model's reading (log 19). -/
def Obligations.TrapsAndErrorResponses : Prop :=
 (∀ (c : Ctl) (o : XI) (s : State),
    let e1 := BitVec.ofInt 64 ((rx s o.xa).toNat + 8 * c.imm.toInt)
    let e2 := BitVec.ofInt 64 ((rx s o.xa).toNat + 16 * c.imm.toInt)
    (e1.toNat % 8 ≠ 0 → ∀ i ∈ [Instr.ld c o, .ldu c o, .st c o], Raises i 9 1 e1 s) ∧
    (e2.toNat % 16 ≠ 0 → ∀ i ∈ [Instr.ldq c o, .stq c o, .btx c o], Raises i 9 1 e2 s) ∧
    (∀ i ea n b, (i, ea, n) ∈ [(Instr.ld c o, e1, 8), (.ldu c o, e1, 8), (.ldq c o, e2, 16)] → ea.toNat % n = 0 → ea.toNat < 2 ^ 24 →
      HandlerReady s → checks s (s.h.core / 8) ea.toNat (ea.toNat + n) b = true → tagGood s (s.h.core / 8) b = false →
      (∀ k, k < b → checks s (s.h.core / 8) ea.toNat (ea.toNat + n) k = true → tagGood s (s.h.core / 8) k = true) →
      ∃ t, exec i s = .next t ∧ EntersHandler false 6 (if (bufAt s (s.h.core / 8) b).etag = (bufAt s (s.h.core / 8) b).ltag then 2 else 1)
        (BitVec.ofNat 64 ((bufAt s (s.h.core / 8) b).base * 512)) s.h.pc s t) ∧
    (∀ i ea n g, (i, ea, n) ∈ [(Instr.ld c o, e1, 8), (.ldu c o, e1, 8), (.ldq c o, e2, 16)] → ea.toNat % n = 0 →
      scratchAddr s ea.toNat = some g → (∀ b, checks s (s.h.core / 8) ea.toNat (checkEnd ea.toNat n) b = false) →
      sget false s.poisonWord (g / 8) = true → ∃ t, exec i s = .next t ∧ EndsGang 6 0x12 8 ea s t)) ∧
 (∀ (c : Ctl) (o : XI) (s : State) (kind : Nat),
    let e1 := BitVec.ofInt 64 ((rx s o.xa).toNat + 8 * c.imm.toInt)
    let e2 := BitVec.ofInt 64 ((rx s o.xa).toNat + 16 * c.imm.toInt)
    let answers (i : Instr) (ea : Word) (f : Nat → Option Word) := ∃ t, exec i s = .next t ∧
      t = { s with parts := t.parts, msgs := t.msgs, h := { s.h with pc := pcAfter c s, issued := true, x := t.h.x } } ∧
      (∀ r (h : r < 32), t.h.x[r] = if r = 0 then s.h.x[r] else (f r).getD s.h.x[r]) ∧ ViolationLogged s t kind ea.toNat
    (e1.toNat % 8 = 0 → badKind s e1.toNat = some kind →
      answers (.ld c o) e1 (fun r => if r = o.xd.toNat then some 0 else none) ∧
      answers (.ldu c o) e1 (fun r => if r = o.xd.toNat then some 0 else if r = o.xa.toNat then some e1 else none) ∧
      answers (.st c o) e1 (fun _ => none)) ∧
    (e2.toNat % 16 = 0 → badKind s e2.toNat = some kind →
      answers (.ldq c o) e2 (fun r => if r = o.xd.toNat ∨ r = (o.xd + 1).toNat then some 0 else none) ∧
      answers (.stq c o) e2 (fun _ => none) ∧ answers (.btx c o) e2 (fun _ => none))) ∧
 (∀ (c : Ctl) (o : V3) (s : State) (i : Instr) (float : Bool),
    (i, float) ∈ [(Instr.vadd c o, false), (.vsub c o, false), (.vadds c o, false), (.vsubs c o, false), (.vmul c o, false),
      (.vmulh c o, false), (.vmac c o, false), (.vmin c o, false), (.vmax c o, false), (.vand c o, false), (.vor c o, false),
      (.vxor c o, false), (.vandn c o, false), (.vshv c o, false), (.vbool c o, false), (.vsel c o, false), (.vfadd c o, true),
      (.vfsub c o, true), (.vfmul c o, true), (.vfma c o, true), (.vfms c o, true), (.vfnma c o, true), (.vfdiv c o, true),
      (.vfmin c o, true), (.vfmax c o, true)] →
    let all := [Opnd.a, .b, .d]
    let bad (given : Bool) := ∃ x ∈ all, (ovrOf c x).isSome = given ∧ (descOf c s x).wf = false
    let takes := ∀ x ∈ all, if float then 2 ≤ (descOf c s x).fmt ∧ (descOf c s x).fmt ≤ 9 else (descOf c s x).fmt < 2
    let regs := [(o.va, (descOf c s .a).w), (o.vb, (descOf c s .b).w), (o.vd, (descOf c s .d).w)]
    let misfit (r : BitVec 6 × Nat) := (vreg s r.1.toNat).kind ≠ 0 ∧ ((vreg s r.1.toNat).kind = 2 ∨ (vreg s r.1.toNat).width < r.2)
    let undeclared (r : BitVec 6 × Nat) := (vreg s r.1.toNat).kind = 0
    let planes := planesOf s ((List.range 64).filter (fun n => regs.any (fun r => r.1.toNat == n)))
    (bad false → Raises i 4 1 s.h.csr.vtype s) ∧
    (¬bad false → bad true → Raises i 4 2 ((e2Word c).setWidth 64) s) ∧
    (¬bad false → ¬bad true → ¬takes → Raises i 4 3 (BitVec.ofNat 64
      ((descOf c s .d).toNat * 2 ^ 32 + (descOf c s .b).toNat * 2 ^ 16 + (descOf c s .a).toNat)) s) ∧
    (¬bad false → ¬bad true → takes →
      (∀ pre r post, regs = pre ++ r :: post → (∀ q ∈ pre, ¬misfit q) → misfit r → Raises i 4 4 (BitVec.ofNat 64 r.1.toNat) s) ∧
      ((∀ q ∈ regs, ¬misfit q) →
        (∀ pre r post, regs = pre ++ r :: post → (∀ q ∈ pre, ¬undeclared q) → undeclared r →
          Raises i 4 5 (BitVec.ofNat 64 r.1.toNat) s))) ∧
    (IntOp c s .a → IntOp c s .b → IntOp c s .d → (vreg s o.va.toNat).kind = 2 → (descOf c s .a).w ≤ (vreg s o.va.toNat).width →
      (∀ r ∈ [(o.vb, (descOf c s .b).w), (o.vd, (descOf c s .d).w)], ¬misfit r ∧ ¬undeclared r) → 232 < planes →
      Raises (.vlut c o) 7 1 (BitVec.ofNat 64 planes) s)) ∧
 (∀ (c : Ctl) (o : VX) (s : State) (i : Instr) (load strided : Bool), Granted s →
    (i, load, strided) ∈ [(Instr.tld c o, true, false), (.tldx c o, true, true), (.tst c o, false, false), (.tstx c o, false, true)] →
    let x := if load then Opnd.d else .a
    let w := (descOf c s x).w
    let base := rx s o.xa + c.imm
    IntOp c s x → Usable s [(o.vd, w)] →
    (base.toNat % 8 ≠ 0 → Raises i 9 2 base s) ∧
    (base.toNat % 8 = 0 → strided = true → (rx s o.xb).toNat % 8 ≠ 0 → Raises i 9 2 (rx s o.xb) s) ∧
    (∀ cw b n, base.toNat % 8 = 0 → strided = false → IsContainer w cw → 0 < s.h.csr.vl →
      (b, n) ∈ [(0, 2 ^ 24), (2 ^ 28, 2 ^ 26), (2 ^ 28 + 2 ^ 26, 2 ^ 26), (2 ^ 28 + 2 * 2 ^ 26, 2 ^ 26), (2 ^ 28 + 3 * 2 ^ 26, 2 ^ 26)] →
      b ≤ base.toNat → base.toNat < b + n → (b + n) * 8 < base.toNat * 8 + s.h.csr.vl * cw → Raises i 9 3 (BitVec.ofNat 64 (b + n)) s) ∧
    (∀ kind, base.toNat % 8 = 0 → strided = false → 0 < s.h.csr.vl → badKind s base.toNat = some kind →
      (kind = 2 → ∀ cw, IsContainer w cw → (base.toNat * 8 + s.h.csr.vl * cw - 1) / 2 ^ 29 = base.toNat / 2 ^ 26) →
      ∃ t, exec i s = .next t ∧
        t = { s with parts := t.parts, msgs := t.msgs, planes := t.planes, poisonLane := t.poisonLane, armed := t.armed
                     calendar := t.calendar
                     h := { s.h with pc := pcAfter c s, issued := true, refs := t.h.refs, regs := t.h.regs } } ∧
        ViolationLogged s t kind base.toNat ∧ Referenced [o.vd.toNat] s.h t.h ∧
        (load = false → t.planes = s.planes) ∧ (load = true → ElemsWritten s t o.vd.toNat w (masked c s 0 (fun _ => 0)))))

/-- R88, R91, R256: the template window holds the dwords stored; a descriptor reads as its configuration, its count, and its LANDED
bits; a store of the configuration word clears what landed, and leaves EN at 0 where the range would end beyond the scratchpad; a 1
written to a LANDED bit clears it; a load from an aperture reads 0.
R87, R112, R254, R256, R258: an aligned STQ or BTX to an aperture whose channel has room, and APERTURE_QUEUE_ACCEPT of one that was
held, captures a copy of any kind but PLANES from the registers, the template entry and the hart, behind the others, and closes the
strip; on an idle channel its start is planned for the least cy from 4 cy after the issue on whose distance from TSTART is OFF modulo
2^24, no earlier than now; a full channel holds the hart. The calendar that plans the start is the model's (log 4). -/
def Obligations.RegisterWindowsAndApertures : Prop :=
 (∀ (c : Ctl) (o : XI) (s : State),
    let ea := BitVec.ofInt 64 ((rx s o.xa).toNat + 8 * c.imm.toInt)
    let cl := s.h.core / 8
    let w := rx s o.xd
    let key := cl * 2048 + (ea.toNat - 0x20000000) / 8
    let e2 := BitVec.ofInt 64 ((rx s o.xa).toNat + 16 * c.imm.toInt)
    let key2 := cl * 2048 + (e2.toNat - 0x20000000) / 8
    let n := (ea.toNat - 0x20010000) / 256
    let k := ea.toNat / 8 % 32
    let b := bufAt s cl n
    let loads (v : Word) := WritesX (.ld c o) c o.xd v s
    ea.toNat % 8 = 0 →
    (0x20000000 ≤ ea.toNat ∧ ea.toNat < 0x20004000 → loads (sget 0 s.templates key) ∧
      ∃ t, exec (.st c o) s = .next t ∧
        t = { s with templates := t.templates, h := { s.h with pc := pcAfter c s, issued := true } } ∧
        ∀ q, sget 0 t.templates q = if q = key then w else sget 0 s.templates q) ∧
    (∀ i ∈ [Instr.stq c o, .btx c o], e2.toNat % 16 = 0 → 0x20000000 ≤ e2.toNat → e2.toNat < 0x20004000 →
      ∃ t, exec i s = .next t ∧
        t = { s with templates := t.templates, h := { s.h with pc := pcAfter c s, issued := true } } ∧
        ∀ q, sget 0 t.templates q = if q = key2 then w else if q = key2 + 1 then rx s (o.xd + 1) else sget 0 s.templates q) ∧
    (0x20010000 ≤ ea.toNat ∧ ea.toNat < 0x20014000 →
      (∃ v, loads v ∧ ∀ j, j < 64 → v.getLsbD j =
        if k = 0 then (if j = 28 then b.chk || b.cfg.getLsbD j else if j = 29 then b.mix || b.cfg.getLsbD j
          else if 32 ≤ j ∧ j < 48 then b.ltag.getLsbD (j - 32) || b.cfg.getLsbD j else b.cfg.getLsbD j)
        else if k = 1 then (BitVec.ofNat 64 ((List.range 1024).countP (fun q => b.landed.getLsbD q))).getLsbD j
        else decide (16 ≤ k) && b.landed.getLsbD (64 * (k - 16) + j)) ∧
      ∃ t, exec (.st c o) s = .next t ∧ t = { s with bufs := t.bufs, h := { s.h with pc := pcAfter c s, issued := true } } ∧
        (∀ cl' m, m < 64 → (cl', m) ≠ (cl, n) → bufAt t cl' m = bufAt s cl' m) ∧
        (k = 0 → (bufAt t cl n).landed = 0 ∧ (bufAt t cl n).ltag = 0 ∧ (bufAt t cl n).mix = false ∧ (bufAt t cl n).chk = false ∧
          ∀ j, j < 64 → (bufAt t cl n).cfg.getLsbD j =
            if j = 31 then w.getLsbD 31 && decide (w.toNat % 2 ^ 15 + w.toNat / 2 ^ 15 % 2 ^ 10 + 1 ≤ 32768)
            else w.getLsbD j && (decide (j < 25) || decide (j = 30) || decide (48 ≤ j))) ∧
        (0 < k → k < 16 → bufAt t cl n = b) ∧
        (16 ≤ k → bufAt t cl n = { b with landed := (bufAt t cl n).landed } ∧
          ∀ j, j < 1024 → (bufAt t cl n).landed.getLsbD j = (b.landed.getLsbD j && !(decide (j / 64 = k - 16) && w.getLsbD (j % 64))))) ∧
    (0x20020000 ≤ ea.toNat ∧ ea.toNat < 0x20020400 → loads 0)) ∧
 (∀ (c : Ctl) (o : XI) (s : State) (i : Instr), i ∈ [Instr.stq c o, .btx c o] →
    let ea := BitVec.ofInt 64 ((rx s o.xa).toNat + 16 * c.imm.toInt)
    let d0 := (rx s o.xd).toNat
    let chan := 64 * (s.h.core / 8) + (ea.toNat - 0x20020000) / 16
    let line := (List.range 8).map (fun k => sget 0 s.templates (s.h.core / 8 * 2048 + d0 % 256 * 8 + k))
    let mine := s.copies.filter (fun q => q.chan == chan)
    ea.toNat % 16 = 0 → 0x20020000 ≤ ea.toNat → ea.toNat < 0x20020400 → (line.headD 0).toNat % 16 ≠ 3 →
    let starts (j : Instr) (x : State) (wait : Option Wait) := ∃ t q, exec j x = .next t ∧
      t = { s with copies := s.copies ++ [q], fresh := s.fresh + 1, calendar := t.calendar, writers := t.writers
                   h := { s.h with pc := pcAfter c s, issued := true, strip := [], stripReads := [], streams := [], wait := wait } } ∧
      q.chan = chan ∧ q.gang = s.h.gang ∧ q.hart = s.h.idx ∧ q.part = (myGang s).part ∧ q.asid = (myGang s).launch.asid ∧
      q.pc = s.h.pc ∧ q.tmpl = line ∧ q.sreq = d0 / 2 ^ 48 ∧ q.tag.toNat = d0 / 2 ^ 32 % 2 ^ 16 ∧ q.off = d0 / 2 ^ 8 % 2 ^ 24 ∧
      q.tidx = d0 % 2 ^ 8 ∧ q.disp = rx s (o.xd + 1) ∧ q.issueCy = s.h.issueCy ∧ q.csr = s.h.csr ∧ q.core = s.h.core ∧
      q.started = false ∧ q.chunks = [] ∧ q.id = s.fresh ∧
      (mine = [] → ∃ cy st, t.calendar = s.calendar ++ [(cy, .copyStart chan)] ∧ cy = max s.cyc st ∧ s.h.issueCy + 4 ≤ st ∧
        st < s.h.issueCy + 4 + 2 ^ 24 ∧ ((st : Int) - (myGang s).tstart) % 2 ^ 24 = d0 / 2 ^ 8 % 2 ^ 24)
    (mine.length < 5 → starts i s s.h.wait ∧
      ∀ w : Wait, w.instr = i → starts (.apertureQueueAccept s.h.gang s.h.idx) { s with h := { s.h with wait := some w } } none) ∧
    (5 ≤ mine.length → ∃ t w, exec i s = .next t ∧ t = { s with h := { s.h with wait := some w, issued := false } } ∧ w.instr = i))

/-- R34, R36, R57, R176, R178, R180: the two-source integer operations: an active element takes the low bits of the exact result, an
inactive one zero under Z, and every other element, plane and register stays.
R178, R181: the bitwise operations on infinite two's-complement forms, and VBOOL's truth table, bit by bit.
R57, R72, R178: VADDS and VSUBS clamp to the range of DESCD, and set FCSR.SAT where an active element clamps; no other flag and
no other CSR changes. Poisoned elements set no flag (log 24); the flag is stated without poison.
R36, R57, R179, R180, R183: the one-source operations, the shifts by an immediate, and the constants; VWIDE writes the declared
width of VD. -/
def Obligations.VectorElementwiseResults : Prop :=
 (∀ (c : Ctl) (o : V3) (s : State),
    let A := descOf c s .a
    let B := descOf c s .b
    let D := descOf c s .d
    let ops := [(o.va, A.w), (o.vb, B.w), (o.vd, D.w)]
    let a := elemInt s A o.va.toNat
    let b := elemInt s B o.vb.toNat
    let gives (i : Instr) (f : Nat → Int) := VecWrites i c s ops o.vd.toNat D.w (fun e => low D.w (f e))
    IntOp c s .a → IntOp c s .b → IntOp c s .d → Usable s ops → Granted s →
    gives (.vadd c o) (fun e => a e + b e) ∧
    gives (.vsub c o) (fun e => a e - b e) ∧
    gives (.vmul c o) (fun e => a e * b e) ∧
    gives (.vmulh c o) (fun e => a e * b e / 2 ^ D.w) ∧
    gives (.vmac c o) (fun e => elemInt s D o.vd.toNat e + a e * b e) ∧
    gives (.vmin c o) (fun e => min (a e) (b e)) ∧
    gives (.vmax c o) (fun e => max (a e) (b e)) ∧
    gives (.vshv c o) (fun e => if 0 ≤ b e then a e * 2 ^ (min 64 (b e)).toNat else a e / 2 ^ (min 64 (-b e)).toNat)) ∧
 (∀ (c : Ctl) (o : V3) (s : State),
    let A := descOf c s .a
    let B := descOf c s .b
    let D := descOf c s .d
    let ops := [(o.va, A.w), (o.vb, B.w), (o.vd, D.w)]
    let a := fun e => intBit (elemInt s A o.va.toNat e)
    let b := fun e => intBit (elemInt s B o.vb.toNat e)
    let d := fun e => intBit (elemInt s D o.vd.toNat e)
    let gives (i : Instr) (f : Nat → Nat → Bool) :=
      ∃ r : Nat → Nat, (∀ e k, k < D.w → (r e).testBit k = f e k) ∧ VecWrites i c s ops o.vd.toNat D.w r
    IntOp c s .a → IntOp c s .b → IntOp c s .d → Usable s ops → Granted s →
    gives (.vand c o) (fun e k => a e k && b e k) ∧
    gives (.vor c o) (fun e k => a e k || b e k) ∧
    gives (.vxor c o) (fun e k => a e k != b e k) ∧
    gives (.vandn c o) (fun e k => a e k && !b e k) ∧
    gives (.vbool c o) (fun e k =>
      c.imm.getLsbD (4 * (if d e k then 1 else 0) + 2 * (if b e k then 1 else 0) + (if a e k then 1 else 0)))) ∧
 (∀ (c : Ctl) (o : V3) (s : State),
    let A := descOf c s .a
    let B := descOf c s .b
    let D := descOf c s .d
    let ops := [(o.va, A.w), (o.vb, B.w), (o.vd, D.w)]
    let lo : Int := if D.sgn then -2 ^ (D.w - 1) else 0
    let hi : Int := if D.sgn then 2 ^ (D.w - 1) - 1 else 2 ^ D.w - 1
    let gives (i : Instr) (f : Nat → Int) := ∃ t fl, exec i s = .next t ∧
      VecFrame c s t (ops.map (fun x => x.1.toNat)) (fun h => { h with csr := { h.csr with fcsr := fl }, raised := t.h.raised }) ∧
      ElemsWritten s t o.vd.toNat D.w (masked c s 0 (fun e => low D.w (if f e < lo then lo else if hi < f e then hi else f e))) ∧
      (s.poisonLane = [] → ∀ k, k < 64 → fl.getLsbD k = (s.h.csr.fcsr.getLsbD k || (decide (k = 5) &&
        (List.range s.h.csr.vl).any (fun e => predBit s c.pred.toNat e && (decide (f e < lo) || decide (hi < f e))))))
    IntOp c s .a → IntOp c s .b → IntOp c s .d → Usable s ops → Granted s →
    gives (.vadds c o) (fun e => elemInt s A o.va.toNat e + elemInt s B o.vb.toNat e) ∧
    gives (.vsubs c o) (fun e => elemInt s A o.va.toNat e - elemInt s B o.vb.toNat e)) ∧
 (∀ (c : Ctl) (o : VF) (q : VI) (x : VX) (s : State), q.va = o.va → q.vd = o.vd → x.vd = o.vd →
    let A := descOf c s .a
    let D := descOf c s .d
    let ops := [(o.va, A.w), (o.vd, D.w)]
    let wide := (vreg s o.vd.toNat).width
    let a := elemInt s A o.va.toNat
    let p := elemBits s o.va.toNat A.w
    let n := c.imm.toNat % 64
    let gives (i : Instr) (f : Nat → Int) := VecWrites i c s ops o.vd.toNat D.w (fun e => low D.w (f e))
    IntOp c s .d → Granted s →
    (IntOp c s .a → Usable s ops →
      gives (.vneg c o) (fun e => -a e) ∧
      gives (.vabs c o) (fun e => if a e < 0 then -a e else a e) ∧
      gives (.vnot c o) (fun e => -a e - 1) ∧
      gives (.vmov c o) a ∧
      (∃ z : Nat → Nat, (∀ e, z e ≤ A.w ∧ (∀ k, A.w - z e ≤ k → k < A.w → (p e).testBit k = false) ∧
          (z e < A.w → (p e).testBit (A.w - 1 - z e) = true)) ∧ gives (.vclz c o) (fun e => z e)) ∧
      gives (.vpopc c o) (fun e => ((List.range A.w).countP (fun k => (p e).testBit k) : Nat)) ∧
      gives (.vshl c q) (fun e => a e * 2 ^ n) ∧
      gives (.vshr c q) (fun e => (p e / 2 ^ n : Nat)) ∧
      gives (.vsra c q) (fun e => a e / 2 ^ n)) ∧
    (IntOp c s .a → Usable s [(o.va, A.w), (o.vd, wide)] →
      VecWrites (.vwide c o) c s [(o.va, A.w), (o.vd, wide)] o.vd.toNat wide (fun e => low wide (a e))) ∧
    (Usable s [(o.vd, D.w)] →
      VecWrites (.vsplat c x) c s [(o.vd, D.w)] o.vd.toNat D.w (fun _ => low D.w ((rx s x.xa).toInt + c.imm.toInt)) ∧
      VecWrites (.viota c x) c s [(o.vd, D.w)] o.vd.toNat D.w (fun e => low D.w ((rx s x.xa).toInt + e))))

/-- R82, R183, R184: VSEL writes every element below VL, from A where the selector is 1, else from B; VLUT writes the table's entry, 0
for an index beyond it.
R35, R36, R182, R185: VCMP and the PRED group. P0 is never a destination of a decoded instruction (R182, R185). -/
def Obligations.SelectLookupAndPredicateResults : Prop :=
 (∀ (c : Ctl) (o : V3) (s : State),
    let A := descOf c s .a
    let B := descOf c s .b
    let D := descOf c s .d
    let ops := [(o.va, A.w), (o.vb, B.w), (o.vd, D.w)]
    let ns := ops.map (fun x => x.1.toNat)
    let table := vreg s o.va.toNat
    IntOp c s .a → IntOp c s .b → IntOp c s .d → Granted s →
    (Usable s ops → ∃ t, exec (.vsel c o) s = .next t ∧ VecFrame c s t ns id ∧
      ElemsWritten s t o.vd.toNat D.w (fun e => if e < s.h.csr.vl then some (low D.w (if predBit s c.pred.toNat e
        then elemInt s A o.va.toNat e else elemInt s B o.vb.toNat e)) else none)) ∧
    (∀ p, Usable s [(o.vb, B.w), (o.vd, D.w)] → table.kind = 2 → A.w ≤ table.width → table.first = some p →
      planesOf s ((List.range 64).filter (fun n => ns.any (fun m => m == n))) ≤ 232 → Loc.v o.va.toNat ∉ s.h.hot →
      VecWrites (.vlut c o) c s ops o.vd.toNat D.w (fun e =>
        let k := elemBits s o.vb.toNat B.w e
        if k < table.entm.toNat + 1
        then low D.w (intVal A (bitsAt s (spotOf s e) (p + k * ((A.w + s.h.csr.fold - 1) / s.h.csr.fold)) A.w)) else 0))) ∧
 (∀ (c : Ctl) (o : V3) (q : P3) (s : State), Granted s →
    let A := descOf c s .a
    let B := descOf c s .b
    let ops := [(o.va, A.w), (o.vb, B.w)]
    let a := elemInt s A o.va.toNat
    let b := elemInt s B o.vb.toNat
    let vl := s.h.csr.vl
    let pa := predBit s q.pa.toNat
    let pb := predBit s q.pb.toNat
    let cmp := fun e => match c.minor.toNat with
      | 0 => decide (a e = b e) | 1 => decide (a e ≠ b e) | 2 => decide (a e < b e) | 3 => decide (a e ≤ b e)
      | 4 => decide (a e > b e) | _ => decide (a e ≥ b e)
    let gives (i : Instr) (f : Nat → Bool) := ∃ t, exec i s = .next t ∧
      t = { s with planes := t.planes, poisonLane := t.poisonLane, armed := t.armed, calendar := t.calendar
                   h := { s.h with pc := pcAfter c s, issued := true } } ∧
      (s.poisonLane = [] → t.poisonLane = []) ∧ (s.armed = [] → t.armed = [] ∧ t.calendar = s.calendar) ∧
      PredWritten s t q.pd.toNat (fun e => if e < vl then some (f e) else none)
    (IntOp c s .a → IntOp c s .b → Usable s ops → ∃ t, exec (.vcmp c o) s = .next t ∧
      VecFrame c s t (ops.map (fun x => x.1.toNat)) id ∧ PredWritten s t (o.vd.toNat % 16) (masked c s false cmp)) ∧
    gives (.pand c q) (fun e => pa e && pb e) ∧
    gives (.por c q) (fun e => pa e || pb e) ∧
    gives (.pxor c q) (fun e => pa e != pb e) ∧
    gives (.pnot c q) (fun e => !pa e) ∧
    gives (.pandn c q) (fun e => pa e && !pb e) ∧
    gives (.pmov c q) pa ∧
    gives (.pfirst c q) (fun e => pa e && (List.range e).all (fun k => !pa k)) ∧
    (q.pa.toNat < 6 → gives (.pset c q) (fun e => match q.pa.toNat with
      | 0 => false | 1 => true | 2 => decide (e % 2 = 0) | 3 => decide (e % 2 = 1) | 4 => decide (e = 0)
      | _ => decide (e = vl - 1))) ∧
    (s.poisonLane = [] →
      WritesX (.pcnt c q) c (q.pd.setWidth 5) (BitVec.ofNat 64 ((List.range vl).countP (fun e => pa e))) s))

/-- R75, R186, R188: reductions write element 0 alone, with the combination of the active elements, and VDOT the low bits of the dot
register, which wraps at 64 bits; over no active element the result is the group's own value; with VL = 0 nothing is written.
R36, R74, R187: a scan gives each active element the combination of the active elements up to it, reduced to D; inactive elements
follow Z. -/
def Obligations.ReductionAndScanResults : Prop :=
 (∀ (c : Ctl) (o : VF) (q : V3) (s : State), s.poisonLane = [] → Granted s →
    let A := descOf c s .a
    let D := descOf c s .d
    let ops := [(o.va, A.w), (o.vd, D.w)]
    let ns := ops.map (fun x => x.1.toNat)
    let act := (List.range s.h.csr.vl).filter (fun e => predBit s c.pred.toNat e)
    let a := act.map (elemInt s A o.va.toNat)
    let u := act.map (fun e => (elemBits s o.va.toNat A.w e : Int))
    let top : Int := if D.sgn then 2 ^ (D.w - 1) - 1 else 2 ^ D.w - 1
    let bottom : Int := if D.sgn then -2 ^ (D.w - 1) else 0
    let writes (t : State) (n w : Nat) (r : Nat) :=
      ElemsWritten s t n w (fun e => if e = 0 ∧ 0 < s.h.csr.vl then some r else none)
    let gives (i : Instr) (v : Int) := ∃ t, exec i s = .next t ∧ VecFrame c s t ns id ∧ writes t o.vd.toNat D.w (low D.w v)
    let bits (i : Instr) (f : Nat → Bool) := ∃ r : Nat, (∀ k, k < D.w → r.testBit k = f k) ∧
      ∃ t, exec i s = .next t ∧ VecFrame c s t ns id ∧ writes t o.vd.toNat D.w r
    let least (l : List Int) (e : Int) (m : Int) := (l = [] ∧ m = e) ∨ (m ∈ l ∧ ∀ x ∈ l, m ≤ x)
    let greatest (l : List Int) (e : Int) (m : Int) := (l = [] ∧ m = e) ∨ (m ∈ l ∧ ∀ x ∈ l, x ≤ m)
    (IntOp c s .a → IntOp c s .d → Usable s ops →
      gives (.vredAdd c o) a.sum ∧
      (∃ m, least a top m ∧ gives (.vredMin c o) m) ∧
      (∃ m, greatest a bottom m ∧ gives (.vredMax c o) m) ∧
      (∃ m, least u (2 ^ D.w - 1) m ∧ gives (.vredMinu c o) m) ∧
      (∃ m, greatest u 0 m ∧ gives (.vredMaxu c o) m) ∧
      bits (.vredAnd c o) (fun k => a.all (fun x => intBit x k)) ∧
      bits (.vredOr c o) (fun k => a.any (fun x => intBit x k)) ∧
      bits (.vredXor c o) (fun k => a.countP (fun x => intBit x k) % 2 == 1)) ∧
    (let B := descOf c s .b
     let ops := [(q.va, A.w), (q.vb, B.w), (q.vd, D.w)]
     let start := if c.imm.getLsbD 0 then elemInt s D q.vd.toNat 0 else 0
     let dot := BitVec.ofInt 64 (start + (act.map (fun e => elemInt s A q.va.toNat e * elemInt s B q.vb.toNat e)).sum)
     s.h.csr.fold = 1 → IntOp c s .a → IntOp c s .b → IntOp c s .d → Usable s ops →
      ∃ t, exec (.vdot c q) s = .next t ∧
        VecFrame c s t (ops.map (fun x => x.1.toNat)) (fun h => { h with dot := dot, work := t.h.work }) ∧
        writes t q.vd.toNat D.w (low D.w dot.toInt))) ∧
 (∀ (c : Ctl) (o : VF) (s : State), s.poisonLane = [] → Granted s →
    let A := descOf c s .a
    let D := descOf c s .d
    let ops := [(o.va, A.w), (o.vd, D.w)]
    let upTo := fun e => (List.range (e + 1)).filter (fun k => predBit s c.pred.toNat k)
    let a := fun e => (upTo e).map (elemInt s A o.va.toNat)
    let u := fun e => (upTo e).map (fun k => (elemBits s o.va.toNat A.w k : Int))
    let gives (i : Instr) (f : Nat → Int) := VecWrites i c s ops o.vd.toNat D.w (fun e => low D.w (f e))
    let bits (i : Instr) (f : Nat → Nat → Bool) :=
      ∃ r : Nat → Nat, (∀ e k, k < D.w → (r e).testBit k = f e k) ∧ VecWrites i c s ops o.vd.toNat D.w r
    let least (l : Nat → List Int) (i : Instr) := ∃ m, (∀ e, l e ≠ [] → m e ∈ l e ∧ ∀ x ∈ l e, m e ≤ x) ∧ gives i m
    let greatest (l : Nat → List Int) (i : Instr) := ∃ m, (∀ e, l e ≠ [] → m e ∈ l e ∧ ∀ x ∈ l e, x ≤ m e) ∧ gives i m
    IntOp c s .a → IntOp c s .d → Usable s ops →
    gives (.vscanAdd c o) (fun e => (a e).sum) ∧
    least a (.vscanMin c o) ∧ greatest a (.vscanMax c o) ∧ least u (.vscanMinu c o) ∧ greatest u (.vscanMaxu c o) ∧
    bits (.vscanAnd c o) (fun e k => (a e).all (fun x => intBit x k)) ∧
    bits (.vscanOr c o) (fun e k => (a e).any (fun x => intBit x k)) ∧
    bits (.vscanXor c o) (fun e k => (a e).countP (fun x => intBit x k) % 2 == 1))

/-- R38, R190, R191: the row permutes read within the row or the tile and give 0 outside; VXCH moves planes between paired tiles, any
format, and leaves the other planes of VD. -/
def Obligations.PermuteResults : Prop :=
  ∀ (c : Ctl) (o : V3) (q : VVX) (s : State), q.va = o.va → q.vd = o.vd → Granted s →
    let A := descOf c s .a
    let B := descOf c s .b
    let D := descOf c s .d
    let l := s.h.csr.rlen
    let per := s.h.csr.rlen * s.h.csr.rows
    let a := fun e => low D.w (elemInt s A o.va.toNat e)
    let x := rx s q.xb
    let two := [(o.va, A.w), (o.vd, D.w)]
    (IntOp c s .a → IntOp c s .b → IntOp c s .d → Usable s [(o.va, A.w), (o.vb, B.w), (o.vd, D.w)] →
      VecWrites (.vperm c o) c s [(o.va, A.w), (o.vb, B.w), (o.vd, D.w)] o.vd.toNat D.w (fun e =>
        let i := elemBits s o.vb.toNat B.w e
        if i < l then a (e / l * l + i) else 0)) ∧
    (IntOp c s .a → IntOp c s .d → Usable s two →
      VecWrites (.vslide c q) c s two o.vd.toNat D.w (fun e =>
        let g : Int := ((e % l : Nat) : Int) + x.toInt
        if 0 ≤ g ∧ g < l then a ((e / l * l : Nat) + g).toNat else 0) ∧
      VecWrites (.vbcast c q) c s two o.vd.toNat D.w (fun e => if x.toNat < per then a (e / per * per + x.toNat) else 0)) ∧
    (A.wf = true → D.wf = true → Usable s two →
      let k := c.imm.toNat % 2 ^ 9
      let j0 := c.imm.toNat / 2 ^ 16 % 2 ^ 8
      let n := c.imm.toNat / 2 ^ 24 % 8 + 1
      j0 + n ≤ dOf s A.w → j0 + n ≤ dOf s D.w → ∀ pa pd, (vreg s o.va.toNat).first = some pa → (vreg s o.vd.toNat).first = some pd →
      Loc.v o.va.toNat ∉ s.h.hot →
      ∃ t, exec (.vxch c o) s = .next t ∧ VecFrame c s t [o.va.toNat, o.vd.toNat] id ∧ PlanesKept s t (pd + j0) n ∧
        ∀ e, e < s.h.csr.rows * s.h.csr.tiles * l → bitsAt t (spotOf s e) (pd + j0) (n * s.h.csr.fold) =
          (masked c s 0 (fun e => if (e / per ^^^ k) < s.h.csr.tiles
            then bitsAt s (spotOf s ((e / per ^^^ k) * per + e % per)) (pa + j0) (n * s.h.csr.fold) else 0) e).getD
            (bitsAt s (spotOf s e) (pd + j0) (n * s.h.csr.fold)))

/-- R69, R70, R72, R201, R202, R204: the arithmetic forms deliver one rounding of the exact result, in the format of D, the mode
of the override or of FCSR, with the element's draw under SR; flags gather over the active elements. When an element draws is the
model's reading (log 16).
R205, R206, R208: compares write the predicate and set NV where an ordered condition meets a NaN; VFCLASS sets the one bit of the
class, cut to D; VFSGN changes the sign bit alone, and leaves the zero and no-value codes of the tapered formats.
R72, R209, R210, R211: VFCVT and VITOF round once into D, to the largest finite magnitude with OF and NX where SATF is set and an
infinity would be delivered; VFTOI rounds to an integer, clamps with NV, and gives 0 with NV for a NaN. -/
def Obligations.FloatResults : Prop :=
 (∀ (c : Ctl) (o : V3) (q : VF) (s : State), q.va = o.va → q.vd = o.vd →
    let A := descOf c s .a
    let B := descOf c s .b
    let D := descOf c s .d
    let ops := [(o.va, A.w), (o.vb, B.w), (o.vd, D.w)]
    let rm := if c.rmo = 7 then s.h.csr.fcsr.toNat / 2 ^ 8 % 8 else c.rmo.toNat
    let a := elemFloat s A o.va.toNat
    let b := elemFloat s B o.vb.toNat
    let d := elemFloat s D o.vd.toNat
    let gives (i : Instr) (f : Nat → FVal × FlagSet) :=
      FloatWrites i c s ops o.vd.toNat D.w rm (fun e => rounded D.fmt rm (drawZ s e) (f e))
    FpOp c s .a → FpOp c s .d → Granted s →
    (FpOp c s .b → Usable s ops →
      gives (.vfadd c o) (fun e => (a e).add rm (b e)) ∧
      gives (.vfsub c o) (fun e => (a e).add rm (b e).neg) ∧
      gives (.vfmul c o) (fun e => (a e).mul (b e)) ∧
      gives (.vfdiv c o) (fun e => (a e).div (b e)) ∧
      gives (.vfma c o) (fun e => (((a e).mul (b e)).1.add rm (d e) |>.1,
        ((a e).mul (b e)).2 ||| (((a e).mul (b e)).1.add rm (d e)).2)) ∧
      gives (.vfms c o) (fun e => (((a e).mul (b e)).1.add rm (d e).neg |>.1,
        ((a e).mul (b e)).2 ||| (((a e).mul (b e)).1.add rm (d e).neg).2)) ∧
      gives (.vfnma c o) (fun e => (((a e).mul (b e)).1.neg.add rm (d e) |>.1,
        ((a e).mul (b e)).2 ||| (((a e).mul (b e)).1.neg.add rm (d e)).2)) ∧
      gives (.vfmin c o) (fun e => (FVal.pick false (a e) (b e), 0)) ∧
      gives (.vfmax c o) (fun e => (FVal.pick true (a e) (b e), 0))) ∧
    (Usable s [(o.va, A.w), (o.vd, D.w)] →
      FloatWrites (.vfsqrt c q) c s [(o.va, A.w), (o.vd, D.w)] o.vd.toNat D.w rm
        (fun e => rounded D.fmt rm (drawZ s e) (a e).sqrt))) ∧
 (∀ (c : Ctl) (o : V3) (q : VF) (s : State), q.va = o.va → q.vd = o.vd → FpOp c s .a → Granted s →
    let A := descOf c s .a
    let B := descOf c s .b
    let D := descOf c s .d
    let a := elemFloat s A o.va.toNat
    let b := elemFloat s B o.vb.toNat
    let p := elemBits s o.va.toNat A.w
    let cc := c.imm.toNat % 16
    let two := [(o.va, A.w), (o.vb, B.w)]
    (FpOp c s .b → Usable s two → cc < 8 → ∃ t fl, exec (.vfcmp c o) s = .next t ∧
      VecFrame c s t (two.map (fun x => x.1.toNat)) (fun h => { h with csr := { h.csr with fcsr := fl }, raised := t.h.raised }) ∧
      PredWritten s t (o.vd.toNat % 16) (masked c s false (fun e =>
        match (a e).cmp (b e) with
        | none => decide (cc = 1 ∨ cc = 6)
        | some r => decide ((cc = 0 ∧ r = 0) ∨ (cc = 1 ∧ r ≠ 0) ∨ (cc = 2 ∧ r < 0) ∨ (cc = 3 ∧ r ≤ 0) ∨ (cc = 4 ∧ 0 < r) ∨
            (cc = 5 ∧ 0 ≤ r) ∨ cc = 7))) ∧
      FlagsGathered c s fl (fun e => if (a e).cmp (b e) = none ∧ 2 ≤ cc ∧ cc ≤ 5 then 0x10 else 0)) ∧
    (IntOp c s .d → Usable s [(o.va, A.w), (o.vd, D.w)] →
      ∃ k : Nat → Nat, (∀ e, match a e with
          | .nan _ => k e = 8
          | .inf n => k e = if n then 0 else 7
          | .fin n m x _ => if m = 0 then k e = (if n then 3 else 4)
            else match ieeeOf A.fmt with
              | some q => if (Nat.log2 m : Int) + x < 1 - q.bias then k e = (if n then 2 else 5) else k e = (if n then 1 else 6)
              | none => k e = if n then 1 else 6) ∧
        VecWrites (.vfclass c q) c s [(o.va, A.w), (o.vd, D.w)] o.vd.toNat D.w (fun e => 2 ^ k e)) ∧
    (FpOp c s .b → D.wf = true → D.fmt = A.fmt → Usable s [(o.va, A.w), (o.vb, B.w), (o.vd, D.w)] → cc < 3 →
      ∃ r : Nat → Nat, (∀ e k, k < A.w → (r e).testBit k =
          if k + 1 = A.w ∧ ¬((A.fmt = 8 ∨ A.fmt = 9) ∧ p e % 2 ^ (A.w - 1) = 0) then
            (let sb := (elemBits s o.vb.toNat B.w e).testBit (B.w - 1)
             if cc = 0 then sb else if cc = 1 then !sb else (p e).testBit k != sb)
          else (p e).testBit k) ∧
        VecWrites (.vfsgn c o) c s [(o.va, A.w), (o.vb, B.w), (o.vd, D.w)] o.vd.toNat D.w r)) ∧
 (∀ (c : Ctl) (o : VF) (s : State), Granted s →
    let A := descOf c s .a
    let D := descOf c s .d
    let ops := [(o.va, A.w), (o.vd, D.w)]
    let rm := if c.rmo = 7 then s.h.csr.fcsr.toNat / 2 ^ 8 % 8 else c.rmo.toNat
    let lo : Int := if D.sgn then -2 ^ (D.w - 1) else 0
    let hi : Int := if D.sgn then 2 ^ (D.w - 1) - 1 else 2 ^ D.w - 1
    let sat (r : Nat × FlagSet) : Nat × FlagSet := match ieeeOf D.fmt, decodeFloat D.fmt r.1 with
      | some q, .inf n => (q.big n, r.2 ||| 0x05)
      | _, _ => r
    let fit (e : Nat) (x : FVal) := if c.imm.getLsbD 0 then sat (rounded D.fmt rm (drawZ s e) (x, 0))
      else rounded D.fmt rm (drawZ s e) (x, 0)
    Usable s ops →
    (FpOp c s .a → FpOp c s .d →
      FloatWrites (.vfcvt c o) c s ops o.vd.toNat D.w rm (fun e => fit e (elemFloat s A o.va.toNat e))) ∧
    (IntOp c s .a → FpOp c s .d →
      FloatWrites (.vitof c o) c s ops o.vd.toNat D.w rm (fun e => fit e (FVal.ofInt (elemInt s A o.va.toNat e)))) ∧
    (FpOp c s .a → IntOp c s .d →
      FloatWrites (.vftoi c o) c s ops o.vd.toNat D.w rm (fun e => match elemFloat s A o.va.toNat e with
        | .nan _ => (0, 0x10)
        | .inf n => (low D.w (if n then lo else hi), 0x10)
        | .fin n m x t =>
          let u := roundAt rm n m x 0 t (drawZ s e)
          let v : Int := if n then -u.1 else u.1
          if v < lo then (low D.w lo, 0x10) else if hi < v then (low D.w hi, 0x10) else (low D.w v, if u.2 then 0x01 else 0))))

/-- R201, R202: sums and products of finite values are exact, and quotients and roots are known to a bracket below every rounding
position, with the sign of the exact result; division of a nonzero value by zero gives an infinity and DZ.
R60, R63, R69: a value that a format holds rounds to itself, in every mode and with every draw, and sets no flag: its code comes
back, but for a zero of the tapered formats, which is code 0.
R69: under RNE a finite value that does not overflow rounds to a nearest value of the format: no finite code lies nearer. -/
def Obligations.RoundingIsNearestAndExact : Prop :=
 (∀ (a b : FVal) (p q : Rat) (rm : Nat), a.IsRat p → b.IsRat q →
    (∃ x, (a.add rm b) = (x, 0) ∧ x.IsRat (p + q)) ∧
    (∃ x, (a.mul b) = (x, 0) ∧ x.IsRat (p * q)) ∧
    (q ≠ 0 → ∃ x, (a.div b) = (x, 0) ∧ x.Brackets (p / q)) ∧
    (q = 0 → p ≠ 0 → ∃ n, a.div b = (.inf n, 0x08)) ∧
    (0 ≤ p → ∃ x, a.sqrt.1 = x ∧ a.sqrt.2 = 0 ∧ ∀ n m e t, x = .fin n m e t →
      (if t then ((m : Rat) * 2 ^ e) ^ 2 < p ∧ p < (((m + 1 : Nat) : Rat) * 2 ^ e) ^ 2 else ((m : Rat) * 2 ^ e) ^ 2 = p)) ∧
    (p < 0 → a.sqrt = (.nan false, 0x10)) ∧
    (a.cmp b = some (if p < q then -1 else if p = q then 0 else 1))) ∧
 (∀ (d : Desc) (rm z code : Nat), d.wf = true → 2 ≤ d.fmt → d.fmt ≤ 9 → code < 2 ^ d.w →
    ∀ n m e t, decodeFloat d.fmt code = .fin n m e t → fitFloat d.fmt rm z (decodeFloat d.fmt code) = (code, 0)) ∧
 (∀ (d : Desc) (z code : Nat) (x : FVal) (q r p : Rat), d.wf = true → 2 ≤ d.fmt → d.fmt ≤ 7 → code < 2 ^ d.w → x.IsRat q →
    (decodeFloat d.fmt (fitFloat d.fmt 0 z x).1).IsRat r → (decodeFloat d.fmt code).IsRat p → magRat (q - r) ≤ magRat (q - p))

/-- R64, R65, R213, R214, R215, R410: VMXQ gives each block its scale code and its elements the codes of x / 2^shared; VMXD scales back;
VHAD gives the signed sums of the block's active elements. VD and VS lie in different planes, as resident registers do.
R70, R74, R212: VFRED writes element 0 alone: the identity over no active element, one entry rounded into D over one, and over two
neighbours of one pair the step of the group on the rounded entries, rounded again. Without poison. -/
def Obligations.MicroscalingHadamardAndFred : Prop :=
 (∀ (c : Ctl) (o : VF) (s : State), Granted s →
    let A := descOf c s .a
    let D := descOf c s .d
    let vs : BitVec 6 := BitVec.ofNat 6 c.imm.toNat
    let n := if c.imm.getLsbD 0 then 32 else 16
    let rm := if c.rmo = 7 then s.h.csr.fcsr.toNat / 2 ^ 8 % 8 else c.rmo.toNat
    let on := fun e => decide (e < s.h.csr.vl) && predBit s c.pred.toNat e
    let a := elemFloat s A o.va.toNat
    let three := [(o.va, A.w), (o.vd, D.w), (vs, 8)]
    let ns := three.map (fun x => x.1.toNat)
    let frame (t : State) (fl : Word) :=
      VecFrame c s t ns (fun h => { h with csr := { h.csr with fcsr := fl }, gens := t.h.gens, raised := t.h.raised })
    let mx (d : Desc) := d.wf = true ∧ 10 ≤ d.fmt ∧ d.fmt ≤ 13
    let emax : Int := if D.fmt = 12 then 4 else if D.fmt = 13 then 0 else 2
    (FpOp c s .a → mx D → Usable s three → vs ≠ o.vd → vs ≠ o.va →
      (∀ p q, (vreg s o.vd.toNat).first = some p → (vreg s vs.toNat).first = some q → p + dOf s D.w ≤ q ∨ q + dOf s 8 ≤ p) →
      ∃ sh : Nat → Option Int, ∃ bad : Nat → Bool,
        (∀ b, let xs := ((List.range 32).map (fun j => 32 * b + j)).filter on |>.map a
          (bad b = true ↔ ∃ x ∈ xs, ∀ n m e t, x ≠ .fin n m e t) ∧
          (bad b = false → (∀ x ∈ xs, ∀ n m e t, x = .fin n m e t → m = 0) → sh b = none) ∧ (bad b = true → sh b = none) ∧
          (bad b = false → (∃ x ∈ xs, ∃ n m e t, x = .fin n m e t ∧ m ≠ 0) → ∃ l : Int,
            (∀ x ∈ xs, ∀ n m e t, x = .fin n m e t → m ≠ 0 → (Nat.log2 m : Int) + e ≤ l) ∧
            (∃ x ∈ xs, ∃ n m e t, x = .fin n m e t ∧ m ≠ 0 ∧ (Nat.log2 m : Int) + e = l) ∧
            sh b = some (max (-127) (min 127 (l - emax))))) ∧
        let r := fun e => match sh (e / 32) with
          | some k => fitFloat D.fmt rm (drawZ s e) ((a e).scale (-k))
          | none => (0, if bad (e / 32) then 0x10 else 0)
        ∃ t fl, exec (.vmxq c o) s = .next t ∧ frame t fl ∧ FlagsGathered c s fl (fun e => (r e).2) ∧
          GeneratorsDrawn rm s t (fun e => on e && (sh (e / 32)).isSome) ∧
          ∀ e, e < s.h.csr.rows * s.h.csr.tiles * s.h.csr.rlen →
            elemAt t o.vd.toNat D.w e = ((masked c s 0 (fun e => (r e).1 % 2 ^ D.w)) e).getD (elemAt s o.vd.toNat D.w e) ∧
            elemAt t vs.toNat 8 e = if e < (s.h.csr.vl + 31) / 32 then (match sh e with
              | some k => (k + 127).toNat
              | none => if bad e then 0xff else 0) else elemAt s vs.toNat 8 e) ∧
    (mx A → FpOp c s .d → Usable s three → vs ≠ o.vd → vs ≠ o.va →
      let sc := fun e => elemBits s vs.toNat 8 (e / 32)
      let r := fun e => if sc e = 0xff then (canonNan D.fmt, 0) else fitFloat D.fmt rm (drawZ s e) ((a e).scale ((sc e : Int) - 127))
      ∃ t fl, exec (.vmxd c o) s = .next t ∧ frame t fl ∧ ElemsWritten s t o.vd.toNat D.w (masked c s 0 (fun e => (r e).1)) ∧
        FlagsGathered c s fl (fun e => (r e).2) ∧ GeneratorsDrawn rm s t (fun e => on e && decide (sc e ≠ 0xff))) ∧
    (IntOp c s .a → IntOp c s .d → s.h.csr.rlen % n = 0 → Usable s [(o.va, A.w), (o.vd, D.w)] →
      VecWrites (.vhad c o) c s [(o.va, A.w), (o.vd, D.w)] o.vd.toNat D.w (fun e => low D.w
        ((List.range n).map (fun j => if on (e / n * n + j) then
          (if ((List.range 5).countP (fun k => (e % n).testBit k && j.testBit k)) % 2 = 1 then -1 else 1) *
            elemInt s A o.va.toNat (e / n * n + j) else 0)).sum)) ∧
    (FpOp c s .a → FpOp c s .d → s.h.csr.rlen % n = 0 → Usable s [(o.va, A.w), (o.vd, D.w)] →
      FloatWrites (.vhad c o) c s [(o.va, A.w), (o.vd, D.w)] o.vd.toNat D.w rm (fun e => rounded D.fmt rm (drawZ s e)
        (hadFloat rm ((List.range n).map (fun j =>
          let x := if on (e / n * n + j) then a (e / n * n + j) else .zero
          if ((List.range 5).countP (fun k => (e % n).testBit k && j.testBit k)) % 2 = 1 then x.neg else x)))))) ∧
 (∀ (c : Ctl) (o : VF) (s : State), s.poisonLane = [] → Granted s → FpOp c s .a → FpOp c s .d →
    let A := descOf c s .a
    let D := descOf c s .d
    let ops := [(o.va, A.w), (o.vd, D.w)]
    let rm := if c.rmo = 7 then s.h.csr.fcsr.toNat / 2 ^ 8 % 8 else c.rmo.toNat
    let op := c.imm.toNat % 4
    let act := (List.range s.h.csr.vl).filter (fun e => predBit s c.pred.toNat e)
    let entry := fun e => (fitFloat D.fmt rm (drawZ s e) (elemFloat s A o.va.toNat e)).1
    let first := fun e => fitFloat D.fmt rm (drawZ s e) (elemFloat s A o.va.toNat e)
    let writes (t : State) (r : Nat) :=
      ElemsWritten s t o.vd.toNat D.w (fun e => if e = 0 ∧ 0 < s.h.csr.vl then some r else none)
    Usable s ops → ∃ t fl r, exec (.vfred c o) s = .next t ∧
      VecFrame c s t (ops.map (fun x => x.1.toNat)) (fun h => { h with csr := { h.csr with fcsr := fl }, gens := t.h.gens, raised := t.h.raised }) ∧
      writes t r ∧ (rm ≠ 5 → t.h.gens = s.h.gens) ∧
      (∀ k, k < 64 → 6 ≤ k → fl.getLsbD k = s.h.csr.fcsr.getLsbD k) ∧
      (∀ k, k < 6 → s.h.csr.fcsr.getLsbD k = true → fl.getLsbD k = true) ∧
      (act = [] → fl = s.h.csr.fcsr ∧ r = if op = 0 then 0 else match ieeeOf D.fmt, taperBits D.fmt with
        | some p, _ => if p.hasInf then p.infinity (op == 2) else p.big (op == 2)
        | none, some n => (if op = 2 then 2 ^ n else 0) + (2 ^ n - 1)
        | none, none => if op = 2 then 0x81 else 0x7f) ∧
      (∀ e, act = [e] → r = entry e ∧ fl = s.h.csr.fcsr ||| (first e).2.setWidth 64) ∧
      (∀ e, act = [e, e + 1] → e % (s.h.csr.rlen * s.h.csr.rows) + 1 < s.h.csr.rlen * s.h.csr.rows →
        (e % (s.h.csr.rlen * s.h.csr.rows)) % 2 = 0 → rm ≠ 5 → op < 3 →
        let x := decodeFloat D.fmt (entry e)
        let y := decodeFloat D.fmt (entry (e + 1))
        let v := if op = 0 then x.add rm y else (FVal.pick (op == 2) x y, 0)
        let q := fitFloat D.fmt rm 0 v.1
        r = q.1 ∧ fl = s.h.csr.fcsr ||| ((first e).2 ||| (first (e + 1)).2 ||| v.2 ||| q.2).setWidth 64))

/-- R50, R81, R85: SWAP changes nothing where every register named is resident; one register that has never been filled and for which
there is room takes the lowest run of free planes, its bits zero in every granted row, and nothing else changes.
R31, R32, R33, R70, R171: SETVL grants by the five steps and returns VL; the rows that leave the grant are zero and every other plane
stays; generators and strip start anew; without a change of FOLD, or with nothing resident, nothing is spilled. A change of FOLD
waits for a copy into a register of the hart. -/
def Obligations.SwapAndSetvl : Prop :=
 (∀ (regs : List (BitVec 6)) (s : State),
    ((∀ r ∈ regs, (vreg s r.toNat).first ≠ none) → exec (.swap regs) s = .next s) ∧
    (∀ (n : BitVec 6) (p : Nat), n ∈ regs → GrantSound s →
      let r := vreg s n.toNat
      let d := r.planes s.h.csr.fold
      let taken := ((List.range 64).map (fun m => if (vreg s m).first.isSome then (vreg s m).planes s.h.csr.fold else 0)).sum
      r.first = none → (∀ m ∈ regs, m ≠ n → (vreg s m.toNat).first ≠ none) → r.fresh = true → d + taken ≤ 232 →
      24 ≤ p → p + d ≤ 256 → (∀ k, k < d → planeTaken s (p + k) = false) →
      (∀ q, 24 ≤ q → q < p → ∃ k, k < d ∧ planeTaken s (q + k) = true) →
      ∃ t, exec (.swap regs) s = .next t ∧
        t = { s with planes := t.planes, poisonLane := t.poisonLane, armed := t.armed, calendar := t.calendar
                     h := { s.h with regs := t.h.regs, swapCy := t.h.swapCy } } ∧
        (s.poisonLane = [] → s.armed = [] → t.poisonLane = []) ∧ (s.armed = [] → t.armed = [] ∧ t.calendar = s.calendar) ∧
        (∀ m, m < 64 → vregAt t.h m = if m = n.toNat then { r with first := some p, fresh := false, spilled := (vregAt t.h m).spilled }
          else vregAt s.h m) ∧
        PlanesKept s t p d ∧
        ∀ core row k, row < 256 → InGrant s core row → k < d → planeAt t core row (p + k) = 0)) ∧
 (∀ (c : Ctl) (o : X3) (s : State), RowsDistinct s →
    let q := (rx s o.xa).toNat
    let f := q / 2 ^ 48 % 16
    let fold := if 8 ≤ f then 8 else if 4 ≤ f then 4 else if 2 ≤ f then 2 else 1
    let on := fun k => partOfDie s ((s.h.core + k) / 96) = some (myGang s).part
    let copying := ∃ x ∈ s.copies, x.gang = s.h.gang ∧ x.hart = s.h.idx ∧ (x.tmpl.getD 0 0).toNat % 16 = 3
    (fold ≠ s.h.csr.fold → copying → ∃ t w, exec (.setvl c o) s = .next t ∧
      t = { s with h := { s.h with wait := some w, issued := false } } ∧ w.instr = .setvl c o) ∧
    ((fold = s.h.csr.fold ∨ (∀ n, n < 64 → (vreg s n).first = none)) → (fold = s.h.csr.fold ∨ ¬copying) → rowsStale s = false →
      ∃ t att g, exec (.setvl c o) s = .next t ∧
        t = { s with planes := t.planes, poisonLane := t.poisonLane, writers := t.writers
                     h := { s.h with pc := pcAfter c s, issued := true, x := t.h.x, csr := g, gens := [], strip := [], stripReads := []
                                     streams := [] } } ∧
        att ≤ s.h.slots ∧ (∀ k, k < att → on k) ∧ (att < s.h.slots → ¬on att) ∧
        g = { s.h.csr with fold := fold, rlen := min (q % 2 ^ 16) (1024 / fold), tiles := min (q / 2 ^ 32 % 2 ^ 16) att
                           rows := g.rows, vl := g.rlen * g.rows * g.tiles } ∧
        g.rows ≤ q / 2 ^ 16 % 2 ^ 16 ∧ (∀ k, k < g.tiles → g.rows ≤ unfencedRows s (s.h.core + k)) ∧
        (0 < g.tiles → g.rows < q / 2 ^ 16 % 2 ^ 16 → ∃ k, k < g.tiles ∧ g.rows = unfencedRows s (s.h.core + k)) ∧
        XWritten o.xd (BitVec.ofNat 64 g.vl) s.h.x t.h.x ∧
        ∀ core row pl, row < 256 → pl < 256 → planeAt t core row pl =
          if (List.range s.h.csr.tiles).any (fun k => decide (core = s.h.core + k) && (List.range s.h.csr.rows).any (fun i =>
            decide (row = physRow s core i) && !(decide (k < g.tiles) && decide (i < g.rows)))) then 0
          else planeAt s core row pl))

/-- R81, R82, R83, R173, R174, R175, R368, R369, R380: VDECL replaces a declaration, non-resident and never filled for INIT = 0, keeps a
slot that is large enough or takes a new one at the mark; it traps on a reserved bit, on more than 232 planes' worth, and on a slot
beyond BSIZE; VQRY answers its queries and changes only X[XB]; where it asks about VD it is a reference to VD (R50, log 14).
R37, R87, R91, R92, R116, R197, R198, R271, R380: TWAIT goes on once the home core sees every bit of its range set, 48·H cy after it is set
in a tile of another die, and orders the landed words of a buffer before later reads; it waits until then, and traps beyond the selection;
TCLR clears the selected state and applies AINC, the bits of chunks that land in its cy set after it, and consumes the landed carriages
of a buffer; TQRY reads 64 bits, zero beyond the range. A register selection is a reference to VD, stated where VD is resident, or no vector register (R50, log 14). The monitors may count
the wait (R336). -/
def Obligations.DeclarationsAndLandedState : Prop :=
 (∀ (c : Ctl) (o : VX) (s : State),
    let v := (rx s o.xa).toNat % 2 ^ 32
    let kind := v / 2 ^ 14 % 4
    let w := v % 64 + 1
    let n := if kind = 2 then v / 2 ^ 16 % 64 + 1 else 1
    let size := ceilDiv (256 * s.h.slots) 512 * 512 + 256 * s.h.slots * (n * w) * 128
    let mark := ceilDiv s.h.slotEnd 512 * 512
    let old := vreg s o.vd.toNat
    let bad := 2 ^ 22 ≤ v ∨ v / 2 ^ 7 % 2 ^ 7 ≠ 0 ∨ kind = 3 ∨ (kind = 1 ∧ v / 2 ^ 16 % 64 ≠ 0)
    let new := { VReg.undeclared with
      kind := BitVec.ofNat 2 kind, wm := BitVec.ofNat 6 v, entm := BitVec.ofNat 6 (v / 2 ^ 16), init := decide (v / 64 % 2 = 1)
      fresh := decide (v / 64 % 2 = 0), lastRef := old.lastRef }
    let keeps := kind = 0 ∨ size ≤ old.slotSize
    let q := (rx s o.xa).toNat
    (bad → Raises (.vdecl c o) 4 6 (BitVec.ofNat 64 v) s) ∧
    (¬bad → kind ≠ 0 → 232 < n * w → Raises (.vdecl c o) 7 3 (BitVec.ofNat 64 (n * w)) s) ∧
    (¬bad → n * w ≤ 232 → ¬keeps → (myGang s).launch.bsize < mark + size →
      Raises (.vdecl c o) 9 5 (BitVec.ofNat 64 (mark + size)) s) ∧
    (¬bad → (kind = 0 ∨ n * w ≤ 232) → (keeps ∨ mark + size ≤ (myGang s).launch.bsize) → copyInto s o.vd.toNat = false →
      ∃ t, exec (.vdecl c o) s = .next t ∧
        GoesOn c s t (fun h => { h with regs := t.h.regs, slotEnd := if keeps then h.slotEnd else mark + size }) ∧
        ∀ m, m < 64 → vregAt t.h m = if m ≠ o.vd.toNat then vregAt s.h m
          else if keeps then { new with slot := old.slot, slotSize := old.slotSize } else { new with slot := mark, slotSize := size }) ∧
    (∃ (r : Word) (t : State), exec (.vqry c o) s = .next t ∧
      GoesOn c s t (fun h => { h with x := t.h.x, refs := t.h.refs, regs := t.h.regs }) ∧ XWritten o.xb r s.h.x t.h.x ∧
      (q % 256 < 2 → Referenced [o.vd.toNat] s.h t.h) ∧ (2 ≤ q % 256 → t.h.refs = s.h.refs ∧ t.h.regs = s.h.regs) ∧
      (q % 256 = 0 → r.toNat = old.entm.toNat * 2 ^ 16 + old.kind.toNat * 2 ^ 14 + (if old.init then 64 else 0) + old.wm.toNat +
        (if old.first.isSome then 2 ^ 32 else 0) + (if copyInto s o.vd.toNat then 2 ^ 33 else 0) + old.first.getD 0 * 2 ^ 40 ∨
        255 < old.first.getD 0) ∧
      (q % 256 = 1 → r = BitVec.ofNat 64 old.slot) ∧
      (q % 256 = 2 → r = BitVec.ofNat 64 (if q / 2 ^ 16 % 2 ^ 16 < s.h.slots then unfencedRows s (s.h.core + q / 2 ^ 16 % 2 ^ 16) else 0)) ∧
      (q % 256 = 3 → ∃ n, r = BitVec.ofNat 64 n ∧ n ≤ s.h.slots ∧
        (∀ k, k < n → partOfDie s ((s.h.core + k) / 96) = some (myGang s).part) ∧
        (n < s.h.slots → partOfDie s ((s.h.core + n) / 96) ≠ some (myGang s).part)) ∧
      (4 ≤ q % 256 → r = 0))) ∧
 (∀ (c : Ctl) (o : VX) (s : State),
    let buf := c.imm.getLsbD 31
    let md := c.imm.getLsbD 30
    let n := c.imm.toNat % 64
    let cl := s.h.core / 8
    let b := bufAt s cl n
    let size := if buf then b.chunks else if md then s.h.csr.tiles else s.h.csr.rows * s.h.csr.tiles
    let bit := fun x => decide (x < size) && (if buf then b.landed.getLsbD x
      else if md then (landedOf s o.vd.toNat x).getLsbD 256
      else (landedOf s o.vd.toNat (x / s.h.csr.rows)).getLsbD (x % s.h.csr.rows))
    let lo := rx s o.xa
    let k := rx s o.xb
    let off := (buf = true ∧ b.en = false) ∨ (k ≠ 0 ∧ size < lo.toNat + k.toNat)
    let tile := fun x => if md then x else x / s.h.csr.rows
    let row := fun x => if md then 256 else x % s.h.csr.rows
    let hops := fun t => (s.h.core / 96 - (s.h.core + t) / 96) + ((s.h.core + t) / 96 - s.h.core / 96)
    let span := ((List.range s.h.csr.tiles).map hops).foldl max 0
    let holds := ∀ x, lo.toNat ≤ x → x < lo.toNat + k.toNat → bit x = true ∧
      (buf = true ∨ sget 0 s.h.landedAt (257 * (512 * o.vd.toNat + tile x) + row x) +
        (if hops (tile x) = 0 then 0 else 48 * span) ≤ s.cyc)
    let ready := buf = true ∨ (vreg s o.vd.toNat).kind ≠ 1 ∨
      ((vreg s o.vd.toNat).first ≠ none ∧ (vreg s o.vd.toNat).planes s.h.csr.fold ≤ 232)
    let named (t : State) := (buf = true → t.h.refs = s.h.refs ∧ t.h.regs = s.h.regs) ∧
      (buf = false → Referenced [o.vd.toNat] s.h t.h)
    let first := 2 ^ 40 + cl * 2 ^ 24 + 512 * (b.base + lo.toNat)
    let landsNow := fun j => s.bufLandings.any (fun l => l.cyc == s.cyc && l.cluster == cl && l.buf == n && l.index == j)
    let quiet := ∀ l ∈ s.bufLandings, ¬(l.cyc = s.cyc ∧ l.cluster = cl ∧ l.buf = n)
    (ready → off → Raises (.twait c o) 9 7 (lo + k - 1) s) ∧
    (ready → ¬off → holds → ∃ t, exec (.twait c o) s = .next t ∧
      t = { s with monitors := t.monitors, monBefore := t.monBefore, msgs := t.msgs
                   h := { s.h with pc := pcAfter c s, issued := true, strip := t.h.strip, refs := t.h.refs, regs := t.h.regs } } ∧
      (s.monitors = [] → t.monitors = [] ∧ t.monBefore = s.monBefore ∧ t.msgs = s.msgs) ∧ named t ∧
      t.h.strip = s.h.strip.map (fun e => { e with seen := e.seen ||
        (buf && decide (first ≤ 8 * e.word) && decide (8 * e.word < first + 512 * k.toNat)) })) ∧
    (ready → ¬off → ¬holds → ∃ t w, exec (.twait c o) s = .next t ∧ t = { s with h := { s.h with wait := some w, issued := false } } ∧
      w.instr = .twait c o) ∧
    (buf = true → ∃ t, exec (.tclr c o) s = .next t ∧
      t = { s with bufs := t.bufs, copies := t.copies, h := { s.h with pc := pcAfter c s, issued := true } } ∧
      (∀ cl' m, m < 64 → (cl', m) ≠ (cl, n) → bufAt t cl' m = bufAt s cl' m) ∧
      (∀ j, j < 1024 → (bufAt t cl n).landed.getLsbD j = landsNow j) ∧ (bufAt t cl n).chk = false ∧
      ((∃ j, j < 1024 ∧ landsNow j = true) → t.copies = s.copies) ∧
      (quiet → (bufAt t cl n).ltag = 0 ∧ (bufAt t cl n).mix = false ∧ t.copies.length = s.copies.length ∧
        ∀ (i : Nat) (p q : Copy), s.copies[i]? = some p → t.copies[i]? = some q →
          q = { p with walk := q.walk } ∧ (p.walk = none → q.walk = none) ∧
          ∀ w, p.walk = some w → ∃ u, q.walk = some { w with used := u } ∧
            ∀ x, x ∈ u ↔ x ∈ w.used ∨ (p.tbCluster = cl ∧ x < w.j ∧ p.carBuf x = n ∧ carLanded p x = true)) ∧
      (bufAt t cl n).etag = (if b.ainc then b.etag + 1 else b.etag) ∧
      ∀ j, j < 48 → (bufAt t cl n).cfg.getLsbD j = b.cfg.getLsbD j) ∧
    (buf = false → ready → copyInto s o.vd.toNat = false → ∃ t, exec (.tclr c o) s = .next t ∧
      GoesOn c s t (fun h => { h with landed := t.h.landed, landedAt := t.h.landedAt, refs := t.h.refs, regs := t.h.regs }) ∧
      Referenced [o.vd.toNat] s.h t.h ∧ ∀ m x, x < 512 → landedOf t m x = if m = o.vd.toNat then 0 else landedOf s m x) ∧
    (buf = false → ready → copyInto s o.vd.toNat = true → ∃ t w, exec (.tclr c o) s = .next t ∧
      t = { s with h := { s.h with wait := some w, issued := false } } ∧ w.instr = .tclr c o) ∧
    (ready → ∃ (v : Word) (t : State), (∀ j, j < 64 → v.getLsbD j = bit (lo.toNat + j)) ∧ exec (.tqry c o) s = .next t ∧
      GoesOn c s t (fun h => { h with x := t.h.x, refs := t.h.refs, regs := t.h.regs }) ∧ XWritten o.xb v s.h.x t.h.x ∧ named t))

/-- R89, R176, R193, R194: TLD and TLDX load each active element from the low bits of its container; everything else stays, but for CHK
of the buffers touched and the open orders of the strip. Stated for a strip without earlier writes.
R89, R193, R194: TST and TSTX store each active element into its container, sign bits or zeros above it; where containers meet the
last element stands; every other bit of memory stays. Stated for a strip without open accesses. -/
def Obligations.TileMoves : Prop :=
 (∀ (c : Ctl) (o : VX) (s : State) (i : Instr) (stride : Option Word),
    (i, stride) ∈ [(Instr.tld c o, none), (.tldx c o, some (rx s o.xb))] →
    let D := descOf c s .d
    ∀ (cw : Nat) (d : Option Nat) (at' : Nat → Nat), IntOp c s .d → Usable s [(o.vd, D.w)] → Granted s → IsContainer D.w cw →
      TilePlaces s (rx s o.xa + c.imm) stride cw d at' → TagsGood s → s.h.strip = [] →
      ∃ t r, exec i s = .next t ∧
        t = { s with planes := t.planes, poisonLane := t.poisonLane, armed := t.armed, calendar := t.calendar, bufs := t.bufs
                     h := { s.h with pc := pcAfter c s, issued := true, refs := t.h.refs, regs := t.h.regs, stripReads := t.h.stripReads } } ∧
        Referenced [o.vd.toNat] s.h t.h ∧ OnlyChecked s t ∧
        (∀ e k, e < s.h.csr.vl → k < D.w → (r e).testBit k = memBit s (at' e + k)) ∧
        ElemsWritten s t o.vd.toNat D.w (masked c s 0 r)) ∧
 (∀ (c : Ctl) (o : VX) (s : State) (i : Instr) (stride : Option Word),
    (i, stride) ∈ [(Instr.tst c o, none), (.tstx c o, some (rx s o.xb))] →
    let A := descOf c s .a
    ∀ (cw : Nat) (d : Option Nat) (at' : Nat → Nat), IntOp c s .a → Usable s [(o.vd, A.w)] → IsContainer A.w cw →
      TilePlaces s (rx s o.xa + c.imm) stride cw d at' → TagsGood s → s.h.strip = [] → s.h.stripReads = [] →
      let v := fun e => elemBits s o.vd.toNat A.w e
      let covers := fun e b => e < s.h.csr.vl ∧ predBit s c.pred.toNat e = true ∧ at' e ≤ b ∧ b < at' e + cw
      ∃ t, exec i s = .next t ∧
        t = { s with mem := t.mem, poisonWord := t.poisonWord, armed := t.armed, calendar := t.calendar, bufs := t.bufs
                     writers := t.writers
                     h := { s.h with pc := pcAfter c s, issued := true, refs := t.h.refs, regs := t.h.regs, strip := t.h.strip } } ∧
        Referenced [o.vd.toNat] s.h t.h ∧ OnlyChecked s t ∧
        ∀ b, ((∀ e, ¬covers e b) → memBit t b = memBit s b) ∧
          ∀ e, covers e b → (∀ k, covers k b → k ≤ e) →
            memBit t b = if b - at' e < A.w then (v e).testBit (b - at' e) else A.sgn && (v e).testBit (A.w - 1))

/-- R216, R217: VSTZ writes one segment for each row that holds an element, inactive elements as zeros, X[XB] takes the size, and no
byte beyond it changes; a stream larger than the budget writes no byte and traps behind the instruction, X[XB] holding the size.
R218, R219, R368: VLDZ expands the segments that memory holds from RESUME on, stops at an empty header, at the budget or at
the grant, and sets VL, X[XB] and RESUME; at a header that does not fit DESCD it traps with RESUME at that segment's first
element. With VL = 0 it expands nothing and leaves X[XB] and RESUME 0. The range and VL = 0 are read as logs 17 and 18 say. -/
def Obligations.StreamResults : Prop :=
 (∀ (c : Ctl) (o : VX) (s : State) (g : Nat), Granted s → 0 < s.h.csr.rlen →
    let A := descOf c s .a
    let base := rx s o.xa + c.imm
    let budget := rx s o.xb
    let v := fun e => if predBit s c.pred.toNat e then elemBits s o.vd.toNat A.w e else 0
    let nel := fun r => min s.h.csr.rlen (s.h.csr.vl - r * s.h.csr.rlen)
    let nval := fun r => ((List.range (nel r)).filter (fun k => v (r * s.h.csr.rlen + k) != 0)).length
    let rows := ceilDiv s.h.csr.vl s.h.csr.rlen
    let size := streamOff A.w nel nval rows
    A.wf = true → A.fmt ≤ 13 → Usable s [(o.vd, A.w)] → StreamPlace s base budget g → TagsGood s → s.h.strip = [] → s.h.stripReads = [] →
    (size ≤ budget.toNat → ∃ t, exec (.vstz c o) s = .next t ∧
      t = { s with mem := t.mem, poisonWord := t.poisonWord, armed := t.armed, calendar := t.calendar, bufs := t.bufs
                   writers := t.writers
                   h := { s.h with pc := pcAfter c s, issued := true, x := t.h.x, refs := t.h.refs, regs := t.h.regs
                                   strip := t.h.strip, stripReads := t.h.stripReads, work := t.h.work } } ∧
      Referenced [o.vd.toNat] s.h t.h ∧ OnlyChecked s t ∧ XWritten o.xb (BitVec.ofNat 64 size) s.h.x t.h.x ∧
      (∀ r, r < rows → HoldsSegment t A (g + streamOff A.w nel nval r) (nel r) (fun k => v (r * s.h.csr.rlen + k))) ∧
      ∀ a, a < g ∨ g + size ≤ a → sget 0 t.mem a = sget 0 s.mem a) ∧
    (budget.toNat < size → HandlerReady s → ∃ t u, exec (.vstz c o) s = .next t ∧
      u = { s with bufs := u.bufs, h := { s.h with x := u.h.x, refs := u.h.refs, regs := u.h.regs, work := u.h.work } } ∧
      Referenced [o.vd.toNat] s.h u.h ∧ OnlyChecked s u ∧ XWritten o.xb (BitVec.ofNat 64 size) s.h.x u.h.x ∧
      EntersHandler false 0x0a 1 base (pcAfter c s) u t)) ∧
 (∀ (c : Ctl) (o : VX) (s : State) (g n : Nat) (nel : Nat → Nat) (v : Nat → Nat → Nat), GrantSound s →
    let D := descOf c s .d
    let base := rx s o.xa + c.imm
    let budget := rx s o.xb
    let cap := s.h.csr.rows * s.h.csr.tiles * s.h.csr.rlen
    let nval := fun r => ((List.range (nel r)).filter (fun k => v r k != 0)).length
    let off := streamOff D.w nel nval
    let first := streamElems nel
    let value := fun e => ((List.range n).findSome? (fun r =>
      if first r ≤ e ∧ e < first (r + 1) then some (v r (e - first r)) else none))
    let put := fun e => if s.h.csr.resume.toNat ≤ e then value e else none
    D.wf = true → D.fmt ≤ 13 → Usable s [(o.vd, D.w)] → StreamPlace s base budget g → TagsGood s → s.h.strip = [] →
    (∀ r, r < n → 0 < nel r ∧ nel r ≤ 1024 ∧ (∀ k, v r k < 2 ^ D.w) ∧ HoldsSegment s D (g + off r) (nel r) (v r)) →
    off n ≤ budget.toNat → first n ≤ cap →
    let done := fun (t : State) (x : Vector Word 32) (vl : Nat) (resume : Word) =>
      { s with planes := t.planes, poisonLane := t.poisonLane, armed := t.armed, calendar := t.calendar, bufs := t.bufs
               h := { s.h with pc := t.h.pc, issued := t.h.issued, x := x, refs := t.h.refs, regs := t.h.regs, work := t.h.work
                               stripReads := t.h.stripReads, streams := t.h.streams
                               csr := { s.h.csr with vl := vl, resume := resume } } }
    (s.h.csr.vl = 0 → ∃ t, exec (.vldz c o) s = .next t ∧
      GoesOn c s t (fun h => { h with x := t.h.x, refs := t.h.refs, regs := t.h.regs, csr := { h.csr with resume := 0 } }) ∧
      Referenced [o.vd.toNat] s.h t.h ∧ XWritten o.xb 0 s.h.x t.h.x) ∧
    (∀ h : Word, s.h.csr.vl ≠ 0 → (budget.toNat < off n + 8 ∨ (IsDword s (g + off n) h ∧ h.toNat % 2 ^ 16 = 0) ∨
        ∃ m, 0 < m ∧ m ≤ 1024 ∧ cap < first n + m ∧ IsDword s (g + off n) h ∧ h.toNat / 2 ^ 48 = 0 ∧ h.toNat % 2 ^ 24 =
          (if D.sgn then 2 ^ 20 else 0) + D.fmt * 2 ^ 16 + m ∧ h.toNat / 2 ^ 24 % 2 ^ 8 = D.w - 1) →
      ∃ t, exec (.vldz c o) s = .next t ∧ t = done t t.h.x (first n) 0 ∧ t.h.pc = pcAfter c s ∧ t.h.issued = true ∧
        Referenced [o.vd.toNat] s.h t.h ∧ OnlyChecked s t ∧ XWritten o.xb (BitVec.ofNat 64 (off n)) s.h.x t.h.x ∧
        ElemsWritten s t o.vd.toNat D.w put) ∧
    (∀ h : Word, s.h.csr.vl ≠ 0 → off n + 8 ≤ budget.toNat → IsDword s (g + off n) h → h.toNat % 2 ^ 16 ≠ 0 →
        (1024 < h.toNat % 2 ^ 16 ∨ h.toNat / 2 ^ 16 % 2 ^ 4 ≠ D.fmt ∨ h.toNat / 2 ^ 21 % 2 ^ 3 ≠ 0 ∨ h.toNat / 2 ^ 48 ≠ 0 ∨
          h.toNat / 2 ^ 24 % 2 ^ 8 ≠ D.w - 1) → HandlerReady s →
      ∃ t u, exec (.vldz c o) s = .next t ∧ u = done u s.h.x s.h.csr.vl (BitVec.ofNat 64 (first n)) ∧ u.h.pc = s.h.pc ∧
        u.h.issued = s.h.issued ∧ Referenced [o.vd.toNat] s.h u.h ∧ OnlyChecked s u ∧ ElemsWritten s u o.vd.toNat D.w put ∧
        EntersHandler false 4 0x0a (base + BitVec.ofNat 64 (off n)) s.h.pc u t))

/-- R221, R222, R225, R226, R227, R231, R232: MOP, MOPS and MOPG in INT and SAT32: every cell of the granted tiles takes its K terms in
order, with the wrap or the clamp and CF of each; MOPS picks two of four A terms by its metadata; MOPG generates B from the seed
records; nothing else changes. Without poison.
R76, R228, R229, R402: MOP in SLICED mode: with GSET each line's exponent is the largest of its operands and the marks start
anew; lines that fed a NaN or an infinity are marked; every cell takes, for each K, the slice products of the diagonal; OF is set
where an element integer was held. Without poison. That each slice pair is tested is the model's reading (log 21). -/
def Obligations.MatrixProductResults : Prop :=
 (∀ (c : Ctl) (o : V3) (s : State), s.poisonLane = [] → GrantSound s → s.h.csr.fold = 1 →
    let A := descOf c s .a
    let B := descOf c s .b
    let mode := s.h.csr.mcfg.toNat % 4
    let km := c.imm.toNat % 2 ^ 8 + 1
    let ra := c.rowa.toNat
    let rb := c.rowb.toNat
    let rm := c.imm.toNat / 2 ^ 8 % 2 ^ 8
    let rows := s.h.csr.rows
    let a := fed c s A o.va.toNat
    let b := fed c s B o.vb.toNat
    let ok (d : Desc) := d.wf = true ∧ ((d.fmt < 2 ∧ d.w ≤ 16) ∨ (10 ≤ d.fmt ∧ d.fmt ≤ 13))
    let gives (i : Instr) (ns : List Nat) (terms : Nat → Nat → Nat → List Int) := ∃ t, exec i s = .next t ∧
      MatrixFrame c s t ns ∧ t.tables = s.tables ∧ t.h.csr = s.h.csr ∧ AccTerms mode s t terms
    mode < 2 → ok A →
    (ok B → Usable s [(o.va, A.w), (o.vb, B.w)] → c.imm.toNat / 2 ^ 16 % 2 ^ 4 = 0 → ra + km ≤ rows → rb + km ≤ rows →
      gives (.mop c o) [o.va.toNat, o.vb.toNat] (fun τ i j => (List.range km).map (fun k => a τ (ra + k) i * b τ (rb + k) j))) ∧
    (∀ p, ok B → Usable s [(o.va, A.w), (o.vb, B.w), (o.vd, 64)] → ra + km ≤ rows → rb + km ≤ rows → rm + (km + 63) / 64 ≤ rows →
      (vreg s o.vd.toNat).first = some p → Loc.v o.vd.toNat ∉ s.h.hot →
      let nib := fun τ q j =>
        bitsAt s ⟨s.h.core + τ, physRow s (s.h.core + τ) (rm + q / 64), 16 * (q % 64) + j / 16⟩ p 64 / 2 ^ (4 * (j % 16)) % 2 ^ 4
      ((∀ τ q j, τ < s.h.csr.tiles → q < km → j < 256 → nib τ q j % 4 < nib τ q j / 4) →
        gives (.mops c o) [o.va.toNat, o.vb.toNat, o.vd.toNat] (fun τ i j => (List.range km).flatMap (fun q =>
          [a τ (ra + q) (256 * (nib τ q j % 4) + i) * b τ (rb + q) j,
           a τ (ra + q) (256 * (nib τ q j / 4) + i) * b τ (rb + q) (256 + j)]))) ∧
      ((∃ τ q j, τ < s.h.csr.tiles ∧ q < km ∧ j < 256 ∧ nib τ q j / 4 ≤ nib τ q j % 4) → HandlerReady s →
        ∃ t u τ q j, exec (.mops c o) s = .next t ∧ τ < s.h.csr.tiles ∧ q < km ∧ j < 256 ∧ nib τ q j / 4 ≤ nib τ q j % 4 ∧
          u = { s with h := { s.h with refs := u.h.refs, regs := u.h.regs } } ∧
          Referenced [o.va.toNat, o.vb.toNat, o.vd.toNat] s.h u.h ∧
          EntersHandler false 0x0a 5 (BitVec.ofNat 64 (τ * 2 ^ 32 + q * 2 ^ 16 + j)) s.h.pc u t)) ∧
    (B.wf = true → B.fmt = 14 → Usable s [(o.va, A.w), (o.vb, 32)] → km % 16 = 0 → ra + km ≤ rows → rb + km / 16 ≤ rows →
      let rec' := fun τ row j =>
        let e := τ * (s.h.csr.rlen * rows) + row * s.h.csr.rlen + j
        if j < s.h.csr.rlen ∧ e < s.h.csr.vl ∧ predBit s c.pred.toNat e = true then elemBits s o.vb.toNat 32 e else 0
      gives (.mopg c o) [o.va.toNat, o.vb.toNat] (fun τ i j => (List.range km).map (fun k =>
        a τ (ra + k) i * recordWeight (rec' τ (rb + k / 16) j) (k % 16))))) ∧
 (∀ (c : Ctl) (o : V3) (s : State), s.poisonLane = [] → GrantSound s → s.h.csr.fold = 1 → s.h.csr.mcfg.toNat % 4 = 2 →
    let A := descOf c s .a
    let B := descOf c s .b
    let sa := s.h.csr.mcfg.toNat / 2 ^ 4 % 8 + 1
    let sb := s.h.csr.mcfg.toNat / 2 ^ 8 % 8 + 1
    let km := c.imm.toNat % 2 ^ 8 + 1
    let gset := c.imm.getLsbD 19
    let d := c.imm.toNat / 2 ^ 16 % 2 ^ 3
    let value := fun (D : Desc) (n τ row i : Nat) =>
      let e := τ * (s.h.csr.rlen * s.h.csr.rows) + row * s.h.csr.rlen + i
      if i < s.h.csr.rlen ∧ e < s.h.csr.vl ∧ predBit s c.pred.toNat e = true then decodeFloat D.fmt (elemBits s n D.w e) else .zero
    let a := fun τ k i => value A o.va.toNat τ (c.rowa.toNat + k) i
    let b := fun τ k j => value B o.vb.toNat τ (c.rowb.toNat + k) j
    let entry := fun (u : State) τ sel i => tableInt u (s.h.core + τ) sel i
    let mark := fun (u : State) τ sel i => marked u (s.h.core + τ) sel i
    let special := fun (x : Nat → FVal) => (List.range km).any (fun k => match x k with | .fin _ _ _ _ => false | _ => true)
    FpOp c s .a → FpOp c s .b → Usable s [(o.va, A.w), (o.vb, B.w)] → d < max sa sb →
    c.rowa.toNat + km ≤ s.h.csr.rows → c.rowb.toNat + km ≤ s.h.csr.rows → (∀ sel, Loc.table sel ∉ s.h.hot) →
    ∃ t, exec (.mop c o) s = .next t ∧ MatrixFrame c s t [o.va.toNat, o.vb.toNat] ∧
      (∀ τ i, τ < s.h.csr.tiles → i < 256 →
        entry t τ 5 i = (if gset then groupExp ((List.range km).map (fun k => a τ k i)) else entry s τ 5 i) ∧
        entry t τ 6 i = (if gset then groupExp ((List.range km).map (fun k => b τ k i)) else entry s τ 6 i) ∧
        mark t τ 7 i = (special (fun k => a τ k i) || (!gset && mark s τ 7 i)) ∧
        mark t τ 8 i = (special (fun k => b τ k i) || (!gset && mark s τ 8 i)) ∧
        ∀ sel, sel < 5 → entry t τ sel i = entry s τ sel i) ∧
      AccTerms 2 s t (fun τ i j => (List.range km).flatMap (fun k =>
        ((List.range sa).filter (fun m => decide (m ≤ d) && decide (d - m < sb))).map (fun m =>
          sliceOf sa m (elementInt sa (entry t τ 5 i) (a τ k i)).1 * sliceOf sb (d - m) (elementInt sb (entry t τ 6 j) (b τ k j)).1))) ∧
      t.h.csr.fcsr = s.h.csr.fcsr ||| (if (List.range s.h.csr.tiles).any (fun τ => (List.range km).any (fun k =>
        (List.range 256).any (fun i => (elementInt sa (entry t τ 5 i) (a τ k i)).2 || (elementInt sb (entry t τ 6 i) (b τ k i)).2)))
        then 0x04 else 0))

/-- R72, R76, R77, R78, R222, R226, R234, R235, R236: MDRAIN: the clamped integer, the requantised integer or the twice rounded float
of each drained cell goes to the elements of the tile rows from ROWA on; SAT takes clamps and the CF of every drained cell; CLR
zeroes exactly the drained cells; a .flt drain outside SLICED names no image, and traps where VA or VB is not 0 (log 22). Without
poison, and with nothing in an exposed window. -/
def Obligations.DrainResults : Prop :=
  ∀ (c : Ctl) (o : V3) (s : State), s.poisonLane = [] → s.poisonAcc = [] → s.h.hot = [] → canonical 0 s.acc = true →
    GrantSound s → Granted s → s.h.csr.fold = 1 →
    let D := descOf c s .d
    let mode := c.imm.toNat / 2 ^ 16 % 4
    let sliced := mode = 2 ∧ s.h.csr.mcfg.toNat % 4 = 2
    let sa := s.h.csr.mcfg.toNat / 2 ^ 4 % 8 + 1
    let sb := s.h.csr.mcfg.toNat / 2 ^ 8 % 8 + 1
    let i0 := c.imm.toNat % 2 ^ 8
    let n := c.imm.toNat / 2 ^ 8 % 2 ^ 8 + 1
    let addp := c.imm.getLsbD 19
    let clr := c.imm.getLsbD 20
    let rm := if c.rmo = 7 then s.h.csr.fcsr.toNat / 2 ^ 8 % 8 else c.rmo.toNat
    let l := s.h.csr.rlen
    let per := l * s.h.csr.rows
    let core := fun e => s.h.core + e / per
    let row := fun e => e % per / l
    let i := fun e => i0 + row e - c.rowa.toNat
    let j := fun e => e % l
    let drains := fun e => decide (c.rowa.toNat ≤ row e) && decide (row e < c.rowa.toNat + n) && decide (e % l < 256)
    let ent := fun sel e => tableInt s (core e) sel (if sel = 3 ∨ sel = 5 then i e else j e)
    let acc := fun e => cellVal (sget 0 s.acc (cellKey (core e) (i e) (j e)))
    let v := fun e => acc e - ent 2 e - ent 3 e
    let prior := fun e => elemBits s o.vd.toNat D.w e
    let p := fun e => if addp then intVal D (prior e) else 0
    let lo : Int := if D.sgn then -2 ^ (D.w - 1) else 0
    let hi : Int := if D.sgn then 2 ^ (D.w - 1) - 1 else 2 ^ D.w - 1
    let sat := fun (x : Int) => if x < lo then (low D.w lo, (0x20 : FlagSet)) else if hi < x then (low D.w hi, 0x20) else (low D.w x, 0)
    let u := fun (d : Desc) => match d.fmt with | 10 => (-1 : Int) | 11 => -3 | 12 => -4 | 13 => -6 | _ => 0
    let image := fun (m : BitVec 6) k e =>
      let r := 64 * k + i e / 4
      match (vreg s m.toNat).first with
      | some q => if r < s.h.csr.rows
        then (BitVec.ofNat 40 (bitsAt s ⟨core e, physRow s (core e) r, 256 * (i e % 4) + j e⟩ q 40)).toInt else 0
      | none => 0
    let diag := fun e d => if d + 1 = max sa sb then acc e else if d < 4 then image o.va d e else image o.vb (d - 4) e
    let num := fun e => if sliced
      then ((List.range (max sa sb)).map (fun d => diag e d * 2 ^ (8 * (sa + sb - 2 - d)))).sum * ent 0 e else v e * ent 0 e
    let exp := fun e => if sliced then ent 5 e + ent 6 e - (8 * (sa + sb) : Nat) + 2 - ent 1 e
      else ent 5 e + ent 6 e + u (descOf c s .a) + u (descOf c s .b) - ent 1 e
    let nan := fun e => if sliced then marked s (core e) 7 (i e) || marked s (core e) 8 (j e)
      else decide (ent 5 e = -32768) || decide (ent 6 e = -32768)
    let w := fun e => roundW (.fin (decide (num e < 0)) (num e).natAbs (exp e) false)
    let r := fun e => if mode = 0 then sat (v e + p e)
      else if mode = 1 then
        let x := v e * ent 0 e
        let y := roundAt rm (decide (x < 0)) x.natAbs (-(ent 1 e)) 0 false (drawZ s e)
        sat ((if x < 0 then -(y.1 : Int) else y.1) + ent 4 e + p e)
      else if nan e then (canonNan D.fmt, if sliced then (0x10 : FlagSet) else 0)
      else rounded D.fmt rm (drawZ s e) (if addp then (decodeFloat D.fmt (prior e)).add rm (w e) else (w e, 0))
    let on := fun e => decide (e < s.h.csr.vl) && predBit s c.pred.toNat e && drains e
    let names := (if sliced ∧ 1 < max sa sb then [(o.va, 41)] else []) ++ (if sliced ∧ 5 < max sa sb then [(o.vb, 41)] else []) ++
      [(o.vd, D.w)]
    (mode = 2 → ¬sliced → (o.va ≠ 0 ∨ o.vb ≠ 0) → ∃ e, Raises (.mdrain c o) 2 4 e s) ∧
    (mode < 3 → (mode = 2 → ¬sliced → o.va = 0 ∧ o.vb = 0) → (if mode = 2 then FpOp c s .d ∧ (¬sliced → (descOf c s .a).wf = true ∧ (descOf c s .b).wf = true) else IntOp c s .d) →
    Usable s names → i0 + n ≤ 256 → c.rowa.toNat + n ≤ s.h.csr.rows →
    ∃ t, exec (.mdrain c o) s = .next t ∧
      t = { s with planes := t.planes, acc := t.acc, armed := t.armed, calendar := t.calendar
                   h := { s.h with pc := pcAfter c s, issued := true, refs := t.h.refs, regs := t.h.regs, gens := t.h.gens
                                   raised := t.h.raised, csr := { s.h.csr with fcsr := t.h.csr.fcsr } } } ∧
      Referenced (names.map (fun x => x.1.toNat)) s.h t.h ∧
      ElemsWritten s t o.vd.toNat D.w (fun e => if drains e then masked c s 0 (fun e => (r e).1) e else none) ∧
      (∀ k, k < 64 → t.h.csr.fcsr.getLsbD k = (s.h.csr.fcsr.getLsbD k || (decide (k < 6) &&
        ((List.range s.h.csr.vl).any (fun e => on e && (r e).2.getLsbD k) ||
         decide (k = 5) && (List.range s.h.csr.tiles).any (fun τ => (List.range n).any (fun x => (List.range 256).any (fun y =>
          cellCf (sget 0 s.acc (cellKey (s.h.core + τ) (i0 + x) y))))))))) ∧
      GeneratorsDrawn rm s t (fun e => on e && (mode == 1 || (mode == 2 && !nan e))) ∧
      ∀ k, sget 0 t.acc k = if clr ∧ s.h.core ≤ k / 2 ^ 16 ∧ k / 2 ^ 16 < s.h.core + s.h.csr.tiles ∧ i0 ≤ k / 2 ^ 8 % 2 ^ 8 ∧
        k / 2 ^ 8 % 2 ^ 8 < i0 + n then 0 else sget 0 s.acc k)

/-- R222, R230, R233, R238, R240: MZERO clears cells, CF and marks; MSCALE loads one table, clamped, with SAT; MSAVE lays the
cells of the tile out in the slot's rows and MREST takes them back and clears the marks; MWAIT answers whether some CF is set, which beside
a running sweep only the tiles without one decide (R41), and waits for running sweeps where asked. Without poison, and with nothing in an exposed window. MZERO's need of FOLD = 1 is the
model's reading (log 20). -/
def Obligations.AccumulatorMoves : Prop :=
  ∀ (c : Ctl) (v : V3) (o : VX) (x : X3) (s : State), s.poisonLane = [] → s.poisonAcc = [] → s.h.hot = [] →
    canonical 0 s.acc = true → GrantSound s → s.h.csr.fold = 1 →
    let D := descOf c s .d
    let tile := fun k => decide (s.h.core ≤ k) && decide (k < s.h.core + s.h.csr.tiles)
    let sel := (rx s o.xa).toNat % 16
    let tbl := if sel = 7 then 5 else if sel = 8 then 6 else sel
    let reset : Int := if tbl = 0 then 1 else 0
    let lo : Int := match sel with | 0 | 4 => -2 ^ 31 | 1 => 0 | 2 | 3 => -2 ^ 39 | 5 | 6 => -2 ^ 15 | _ => 0
    let hi : Int := match sel with | 0 | 4 => 2 ^ 31 - 1 | 1 => 63 | 2 | 3 => 2 ^ 39 - 1 | 5 | 6 => 2 ^ 15 - 1 | _ => 255
    let ρ := c.rowa.toNat
    let elem := fun τ j => τ * (s.h.csr.rlen * s.h.csr.rows) + ρ * s.h.csr.rlen + j
    let feeds := fun τ j => decide (j < s.h.csr.rlen) && decide (elem τ j < s.h.csr.vl) && predBit s c.pred.toNat (elem τ j)
    let val := fun τ j => elemInt s D o.vd.toNat (elem τ j)
    let clamp := fun y : Int => if y < lo then lo else if hi < y then hi else y
    let k := (rx s o.xa).toNat % 4
    let running := ∃ w ∈ s.sweeps, w.running = true ∧ tile w.core = true
    let cellSpot := fun τ i j => (⟨s.h.core + τ, physRow s (s.h.core + τ) (64 * k + i / 4), 256 * (i % 4) + j⟩ : Spot)
    let marksCleared (t : State) := ∀ κ e i, e < 16 → i < 256 →
      sget 0 t.tables (tableKey κ e i) = if tile κ ∧ 7 ≤ e then 0 else sget 0 s.tables (tableKey κ e i)
    (∃ t, exec (.mzero c v) s = .next t ∧
      t = { s with acc := t.acc, tables := t.tables, armed := t.armed, calendar := t.calendar
                   h := { s.h with pc := pcAfter c s, issued := true } } ∧
      (∀ κ, sget 0 t.acc κ = if tile (κ / 2 ^ 16) then 0 else sget 0 s.acc κ) ∧ marksCleared t) ∧
    (9 ≤ sel → ∃ e, Raises (.mscale c o) 2 8 e s) ∧
    (sel < 9 → IntOp c s .d → Usable s [(o.vd, D.w)] → ρ < s.h.csr.rows → ∃ t, exec (.mscale c o) s = .next t ∧
      MatrixFrame c s t [o.vd.toNat] ∧ t.acc = s.acc ∧
      (∀ κ e i, e < 9 → i < 256 → tableInt t κ e i = if tile κ ∧ e = tbl then
        (if feeds (κ - s.h.core) i then
          (let y := clamp (val (κ - s.h.core) i); if 7 ≤ sel then (if y = 255 then (-32768 : Int) else y - 127) else y) else reset)
        else tableInt s κ e i) ∧
      t.h.csr.fcsr = s.h.csr.fcsr ||| (if (List.range s.h.csr.tiles).any (fun τ => (List.range 256).any (fun j =>
        feeds τ j && decide (clamp (val τ j) ≠ val τ j))) then 0x20 else 0)) ∧
    (s.h.csr.rlen = 1024 → 64 * k + 64 ≤ s.h.csr.rows → Usable s [(o.vd, 41)] → ∀ p, (vreg s o.vd.toNat).first = some p →
      (∃ t, exec (.msave c o) s = .next t ∧ VecFrame c s t [o.vd.toNat] id ∧
        (∀ τ i j, τ < s.h.csr.tiles → i < 256 → j < 256 →
          bitsAt t (cellSpot τ i j) p 41 = (sget 0 s.acc (cellKey (s.h.core + τ) i j)).toNat) ∧
        ∀ core row pl, row < 256 → pl < 256 → (pl < p ∨ p + 41 ≤ pl ∨
          ∀ τ r, τ < s.h.csr.tiles → 64 * k ≤ r → r < 64 * k + 64 → (core, row) ≠ (s.h.core + τ, physRow s (s.h.core + τ) r)) →
          planeAt t core row pl = planeAt s core row pl) ∧
      ∃ t, exec (.mrest c o) s = .next t ∧
        t = { s with acc := t.acc, tables := t.tables, armed := t.armed, calendar := t.calendar
                     h := { s.h with pc := pcAfter c s, issued := true, refs := t.h.refs, regs := t.h.regs } } ∧
        Referenced [o.vd.toNat] s.h t.h ∧ marksCleared t ∧
        (∀ τ i j, τ < s.h.csr.tiles → i < 256 → j < 256 →
          (sget 0 t.acc (cellKey (s.h.core + τ) i j)).toNat = bitsAt s (cellSpot τ i j) p 41) ∧
        ∀ κ, ¬tile (κ / 2 ^ 16) → sget 0 t.acc κ = sget 0 s.acc κ) ∧
    (¬running → WritesX (.mwait c x) c x.xd (if (List.range s.h.csr.tiles).any (fun τ =>
        (List.range 256).any (fun i => (List.range 256).any (fun j => cellCf (sget 0 s.acc (cellKey (s.h.core + τ) i j)))))
      then 1 else 0) s) ∧
    ((rx s x.xa).getLsbD 0 = false → running → ∃ v : Word, WritesX (.mwait c x) c x.xd v s ∧ (v = 0 ∨ v = 1) ∧
      ((∃ τ i j, τ < s.h.csr.tiles ∧ i < 256 ∧ j < 256 ∧ (∀ w ∈ s.sweeps, w.running = true → w.core ≠ s.h.core + τ) ∧
        cellCf (sget 0 s.acc (cellKey (s.h.core + τ) i j)) = true) → v = 1)) ∧
    ((rx s x.xa).getLsbD 0 = true → running → ∃ t w, exec (.mwait c x) s = .next t ∧
      t = { s with h := { s.h with wait := some w, issued := false } } ∧ w.instr = .mwait c x)

/-- R239: MBURST ramps a cold array up from its issue + 2, holds a warm or held one at once, is kept for the end of ramp-down, and holds
until the given cy after the ramp-up; arrays of other cores stay.
R239: the events of an array's ramp: the end of ramp-up leaves it held; an idle warm array, or a held one whose hold has closed,
and at which no waiting sweep begins in that cy, begins 32 cy of ramp-down, at the end of which it is cold, or an MBURST that waited begins its own ramp-up. -/
def Obligations.BurstHoldsAndRamps : Prop :=
 (∀ (c : Ctl) (o : XL) (s : State),
    let h := if c.imm.toInt < 0 then 0 else c.imm.toNat
    let at' := s.h.issueCy + 2
    ∃ t, exec (.mburst c o) s = .next t ∧
      t = { s with ramps := t.ramps, calendar := t.calendar, h := { s.h with pc := pcAfter c s, issued := true } } ∧
      ∀ κ, let r := rampAt s κ
        rampAt t κ = if s.h.core ≤ κ ∧ κ < s.h.core + s.h.csr.tiles then (match r.st with
          | .cold => ⟨.up, at' + 31, at' + 31 + h, none⟩
          | .up => { r with holdTo := max r.holdTo (r.upto + h) }
          | .down => { r with queued := some (max h (r.queued.getD 0)) }
          | _ => { r with st := .held, holdTo := max r.holdTo (at' + h) }) else r) ∧
 (∀ (s : State) (core : Nat),
    let r := rampAt s core
    let becomes (i : Instr) (x : Ramp) (ev : List (Nat × Event)) := ∃ t, exec i s = .next t ∧
      t = { s with ramps := t.ramps, calendar := s.calendar ++ ev } ∧ ∀ k, rampAt t k = if k = core then x else rampAt s k
    let idle := r.upto < s.cyc ∧ r.holdTo < s.cyc
    let down (i : Instr) := becomes i ⟨.down, s.cyc + 31, 0, none⟩ [(s.cyc + 32, .arrayRampDownEnd core)]
    (r.st = .up → becomes (.arrayRampUpEnd core) { r with st := .held } []) ∧
    (r.st ≠ .up → exec (.arrayRampUpEnd core) s = .next s) ∧
    (∀ p ∈ [(Instr.arrayRampDown core, !sweepBegins s core), (.burstHoldEnd core, true)],
      ((r.st = .held ∨ r.st = .warm) → idle → p.2 = true → down p.1) ∧
      (¬((r.st = .held ∨ r.st = .warm) ∧ idle ∧ p.2 = true) → exec p.1 s = .next s)) ∧
    (r.st = .down → r.queued = none → becomes (.arrayRampDownEnd core) ⟨.cold, 0, 0, none⟩ []) ∧
    (∀ h, r.st = .down → r.queued = some h → becomes (.arrayRampDownEnd core) ⟨.up, s.cyc + 31, s.cyc + 31 + h, none⟩
      [(s.cyc + 32, .arrayRampUpEnd core), (s.cyc + 32 + h, .burstHoldEnd core)]) ∧
    (r.st ≠ .down → exec (.arrayRampDownEnd core) s = .next s))

/-- R244, R246, R247, R249, R250, R251: SEXP expands a seed into its 64 generator bits; SFIT stores the four fitted coefficients and the
squared error beside the seed; SARGMIN returns the first element of least error among the active ones of its range, 2^64 − 1 over
none.
R67, R246, R247, R248, R252: VGEN reads the 4-byte records from the base and writes the generated weights of each block of 16 rows at
the positions below N, in every tile; everything else stays. Stated for a strip without earlier writes. -/
def Obligations.SeedAndWeightResults : Prop :=
 (∀ (c : Ctl) (o : V3) (x : VX) (s : State), s.h.csr.fold = 1 → Granted s →
    let B := descOf c s .b
    let bitsOf := fun (seed : Nat) (u : Nat → Bool) => seed ≠ 0 → ∃ g : Nat → Nat, g 0 = seed ∧ ∀ k, k < 64 →
      u k = decide (g k % 2 = 1) ∧ g (k + 1) = (if g k % 2 = 1 then (g k / 2) ^^^ 0xd008 else g k / 2)
    let f := (rx s x.xa).toNat % 2 ^ 32
    let m := (rx s x.xa).toNat / 2 ^ 32
    let cand := (List.range s.h.csr.vl).filter (fun e => predBit s c.pred.toNat e && decide (f ≤ e) && decide (e < f + m))
    let err := fun e => elemBits s x.vd.toNat 64 e / 2 ^ 32
    (Usable s [(o.va, 16), (o.vd, 64)] → ∃ r : Nat → Nat,
      (∀ e, r e < 2 ^ 64 ∧ bitsOf (elemBits s o.va.toNat 16 e) (r e).testBit ∧ (elemBits s o.va.toNat 16 e = 0 → r e = 0)) ∧
      VecWrites (.sexp c o) c s [(o.va, 16), (o.vd, 64)] o.vd.toNat 64 r) ∧
    (B.wf = true → B.fmt = 1 → 2 ≤ B.w → B.w ≤ 6 → Usable s [(o.va, 64), (o.vb, 16 * B.w), (o.vd, 64)] →
      let seed := elemBits s o.vd.toNat 16
      let w := fun e r => (BitVec.ofNat B.w (elemBits s o.vb.toNat (16 * B.w) e / 2 ^ (r * B.w))).toInt
      let sg := fun e r p => if seed e = 0 then (0 : Int) else if (elemBits s o.va.toNat 64 e).testBit (4 * r + p) then -1 else 1
      let sum16 := fun (g : Nat → Int) => ((List.range 16).map g).sum
      let dot := fun e p => sum16 (fun r => sg e r p * w e r)
      let near := fun (y q : Int) => -8 ≤ y - 16 * q ∧ y - 16 * q ≤ 8 ∧ (y - 16 * q = 8 ∨ y - 16 * q = -8 → q % 2 = 0)
      ∃ q t : Nat → Nat → Int, (∀ e p, near (dot e p) (q e p) ∧ t e p = max (-8) (min 7 (q e p))) ∧
        VecWrites (.sfit c o) c s [(o.va, 64), (o.vb, 16 * B.w), (o.vd, 64)] o.vd.toNat 64 (fun e =>
          seed e + ((List.range 4).map (fun p => low 4 (t e p) * 2 ^ (16 + 4 * p))).sum +
            (sum16 (fun r => (w e r - ((List.range 4).map (fun p => sg e r p * t e p)).sum) ^ 2)).toNat * 2 ^ 32)) ∧
    (s.poisonLane = [] → Usable s [(x.vd, 64)] → ∃ t v, exec (.sargmin c x) s = .next t ∧
      VecFrame c s t [x.vd.toNat] (fun h => { h with x := t.h.x }) ∧ t.planes = s.planes ∧ XWritten x.xb v s.h.x t.h.x ∧
      ((cand = [] ∧ v.toNat = 2 ^ 64 - 1) ∨ ∃ e ∈ cand, v.toNat = elemBits s x.vd.toNat 64 e ∧ (∀ k ∈ cand, err e ≤ err k) ∧
        ∀ k ∈ cand, k < e → err e < err k))) ∧
 (∀ (c : Ctl) (o : VX) (s : State) (g : Nat), GrantSound s → Granted s → 0 < s.h.csr.vl → s.h.csr.fold = 1 →
    let D := descOf c s .d
    let base := rx s o.xa + c.imm
    let n := (rx s o.xb).toNat % 2 ^ 16
    let nb := (rx s o.xb).toNat / 2 ^ 16
    let l := s.h.csr.rlen
    let per := l * s.h.csr.rows
    let len := 4 * ((nb - 1) * n + min n l)
    let ρ := c.rowa.toNat
    let row := fun e => e % per / l - ρ
    let gens := fun e => decide (ρ ≤ e % per / l) && decide (row e < 16 * nb) && decide (e % l < n)
    let place := fun e => g + 4 * (row e / 16 * n + e % l)
    let rec' := fun e => leNat ((List.range 4).map (fun k => sget 0 s.mem (place e + k)))
    (D.wf = true ∧ (D.fmt = 14 ∨ (D.fmt = 1 ∧ 7 ≤ D.w))) → Usable s [(o.vd, D.w)] → base.toNat % 4 = 0 →
    scratchAddr s base.toNat = some g →
    base.toNat + len ≤ (if base.toNat < 2 ^ 24 then 2 ^ 24 else (base.toNat / 2 ^ 26 + 1) * 2 ^ 26) →
    0 < n → 0 < nb → nb ≤ 16 → ρ + 16 * nb ≤ s.h.csr.rows → TagsGood s → s.h.strip = [] →
    ∃ t, exec (.vgen c o) s = .next t ∧
      t = { s with planes := t.planes, poisonLane := t.poisonLane, armed := t.armed, calendar := t.calendar, bufs := t.bufs
                   h := { s.h with pc := pcAfter c s, issued := true, refs := t.h.refs, regs := t.h.regs, stripReads := t.h.stripReads } } ∧
      Referenced [o.vd.toNat] s.h t.h ∧ OnlyChecked s t ∧
      ElemsWritten s t o.vd.toNat D.w (fun e => if gens e
        then masked c s 0 (fun e => low D.w (recordWeight (rec' e) (row e % 16))) e else none))

/-- R294, R295, R296, R297: SADD, SSUB, SMUL and SMAX give the union or intersection of the coordinates, ascending, with the value of
each; a result above SCAP traps. SSCALE scales every value.
R295, R299: SDOT writes the exact sum of the products over the common coordinates: wrapped to 64 bits, or rounded once to FP64, with
the rules of R307 for special values. -/
def Obligations.SparseArithmeticResults : Prop :=
 (∀ (c : Ctl) (o : S3) (s : State) (vt : Nat) (a b : List (Nat × Nat)), SparseReady s → SparseHolds s o.sa.toNat vt a →
    (∀ m ∈ [o.sa, o.sd], m.toNat < (myGang s).launch.scount) →
    let mode := s.h.csr.fcsr.toNat / 2 ^ 8 % 8
    let rm := if mode = 5 then 0 else mode
    let op := fun (f : FVal → FVal → FVal × FlagSet) (n : Nat → Nat → Nat) (x y : Nat) =>
      if vt = 2 then rounded 3 rm 0 (f (decodeFloat 3 x) (decodeFloat 3 y)) else (n x y % 2 ^ 32, (0 : FlagSet))
    let int := fun v : Nat => if vt = 0 then (BitVec.ofNat 32 v).toInt else (v : Int)
    let scap := (myGang s).launch.scap
    let flags (fl : FlagSet) (ps : List (Nat × Nat)) (val : Nat → Option (Nat × FlagSet)) :=
      ∀ k, k < 6 → fl.getLsbD k = ps.any (fun p => match val p.1 with | some v => v.2.getLsbD k | none => false)
    let gives (i : Instr) (union : Bool) (both : Nat → Nat → Nat × FlagSet) (right : Nat → Nat × FlagSet) :=
      let val := fun x : Nat => match a.lookup x, b.lookup x with
        | some u, some v => some (both u v)
        | some u, none => if union then some (u, (0 : FlagSet)) else none
        | none, some v => if union then some (right v) else none
        | none, none => none
      ∀ ps : List (Nat × Nat), ps.Pairwise (fun p q => p.1 < q.1) → (∀ p, p ∈ ps ↔ ∃ fl, val p.1 = some (p.2, fl)) →
        (ps.length ≤ scap → ∃ fl, SparseWrites i c s o.sd.toNat vt ps fl (fun _ => false) ∧ flags fl ps val) ∧
        (scap < ps.length → RaisesNoted i 9 0x0a (BitVec.ofNat 64 ps.length) s)
    (SparseHolds s o.sb.toNat vt b → o.sb.toNat < (myGang s).launch.scount →
      gives (.sadd c o) true (op (fun x y => x.add rm y) (fun x y => x + y)) (fun v => (v, 0)) ∧
      gives (.ssub c o) true (op (fun x y => x.add rm y.neg) (fun x y => x + (2 ^ 32 - y)))
        (fun v => op (fun x _ => (x.neg, 0)) (fun x _ => 2 ^ 32 - x) v v) ∧
      gives (.smul c o) false (op (fun x y => x.mul y) (fun x y => x * y)) (fun v => (v, 0)) ∧
      gives (.smax c o) true (op (fun x y => (x.pick true y, 0)) (fun x y => if int x < int y then y else x)) (fun v => (v, 0))) ∧
    (let val := fun x : Nat => (a.lookup x).map (fun u => op (fun x y => x.mul y) (fun x y => x * y) u
        ((rx s (o.sb.setWidth 5)).toNat % 2 ^ 32))
      ∀ ps : List (Nat × Nat), ps.Pairwise (fun p q => p.1 < q.1) → (∀ p, p ∈ ps ↔ ∃ fl, val p.1 = some (p.2, fl)) →
        ∃ fl, SparseWrites (.sscale c o) c s o.sd.toNat vt ps fl (fun _ => false) ∧ flags fl ps val)) ∧
 (∀ (c : Ctl) (o : SX) (s : State) (vt : Nat) (a b : List (Nat × Nat)), SparseReady s →
    SparseHolds s o.sd.toNat vt a → SparseHolds s (o.xa.toNat % 16) vt b → o.sd.toNat < (myGang s).launch.scount →
    o.xa.toNat % 16 < (myGang s).launch.scount →
    let common := a.filterMap (fun p => (b.lookup p.1).map (fun v => (p.2, v)))
    let int := fun v : Nat => if vt = 0 then (BitVec.ofNat 32 v).toInt else (v : Int)
    let prods := common.map (fun p => ((decodeFloat 3 p.1).mul (decodeFloat 3 p.2)).1)
    let inf := fun n => decide (FVal.inf n ∈ prods)
    ∃ (t : State) (v : Word) (fl : FlagSet), exec (.sdot c o) s = .next t ∧
      GoesOn c s t (fun h =>
        { h with x := t.h.x, work := t.h.work, stripReads := t.h.stripReads, raised := h.raised ||| fl
                 csr := { h.csr with fcsr := h.csr.fcsr ||| fl.setWidth 64 } }) ∧
      XWritten o.xb v s.h.x t.h.x ∧
      (vt ≠ 2 → fl = 0 ∧ v = BitVec.ofInt 64 (common.map (fun p => int p.1 * int p.2)).sum) ∧
      (vt = 2 → ∃ r : Nat × FlagSet, v = BitVec.ofNat 64 r.1 ∧ fl = r.2 ∧
        if prods.any FVal.isNan ∨ (inf true ∧ inf false) then r = (canonNan 2, fNv)
        else if inf true ∨ inf false then r = fitFloat 2 0 0 (.inf (inf true))
        else ∃ z : Int, r = fitFloat 2 0 0 (.fin (decide (z < 0)) z.natAbs (-298) false) ∧
          ∀ q : List Rat, q.length = prods.length → (∀ (k : Nat) (x : FVal) (y : Rat), prods[k]? = some x → q[k]? = some y → x.IsRat y) →
            (z : Rat) = q.sum * (2 : Rat) ^ 298))

/-- R294, R298: SLD takes the pairs at a local address into a register, SST stores them there, and SLEN reads the length word.
R347, R349, R380, R400: where a sparse instruction traps, changing no destination: different value types; a register number at or above
SCOUNT, the first in the order named; an ill-formed length word; a misaligned address; the record of an unhandled trap of SHACC holds
RESUME in STEP. The order of the checks is the model's reading (log 34).
R36, R295, R300: SXPAND writes the fitted value of each active element's pair, 0 where it has none; SPACK rebuilds the register
from the active elements that are not all zero. A NaN or an infinity has no stated value in an integer: it takes a free one (log 70).
Stated without poison. -/
def Obligations.SparseMovesAndFaults : Prop :=
 (∀ (c : Ctl) (o : SX) (s : State) (g vt : Nat) (ps : List (Nat × Nat)), SparseReady s →
    o.sd.toNat < (myGang s).launch.scount →
    let ea := rx s o.xa
    let n := ps.length
    let here := ea.toNat % 8 = 0 ∧ InWindow s ea.toNat (8 * n) g
    (here → vt < 3 → (rx s o.xb).toNat % 2 ^ 15 = n → (rx s o.xb).toNat / 2 ^ 16 % 4 = vt → n ≤ (myGang s).launch.scap →
      PairsSound ps → (∀ k p, ps[k]? = some p → IsDword s (g + 8 * k) (pairWord p)) →
      (∀ b, checks s (s.h.core / 8) ea.toNat (checkEnd ea.toNat (8 * n)) b = true → tagGood s (s.h.core / 8) b = true) →
      SparseWrites (.sld c o) c s o.sd.toNat vt ps 0
        (fun b => decide (0 < n) && checks s (s.h.core / 8) ea.toNat (checkEnd ea.toNat (8 * n)) b)) ∧
    (SparseHolds s o.sd.toNat vt ps → ∀ w, IsDword s (sparseArea s + 8 * o.sd.toNat) w →
      (∃ t, exec (.slen c o) s = .next t ∧ GoesOn c s t (fun h => { h with x := t.h.x, stripReads := t.h.stripReads }) ∧
        XWritten o.xb w s.h.x t.h.x) ∧
      (here → ∃ t, exec (.sst c o) s = .next t ∧
        t = { s with
          mem := t.mem, armed := t.armed, calendar := t.calendar, writers := t.writers
          h := { s.h with pc := pcAfter c s, issued := true, strip := t.h.strip, stripReads := t.h.stripReads, work := t.h.work, x := t.h.x } } ∧
        XWritten o.xb w s.h.x t.h.x ∧ (∀ k p, ps[k]? = some p → IsDword t (g + 8 * k) (pairWord p)) ∧
        ∀ a, (a < g ∨ g + 8 * n ≤ a) → sget 0 t.mem a = sget 0 s.mem a))) ∧
 (∀ (c : Ctl) (o : S3) (x : SX) (s : State),
    let l := (myGang s).launch
    let two := [Instr.sadd c o, .ssub c o, .smul c o, .smax c o]
    let ea := rx s x.xa
    let same := NoTileMoves s ∧ ∃ u v, IsDword s (sparseArea s + 8 * o.sa.toNat) u ∧ IsDword s (sparseArea s + 8 * o.sb.toNat) v ∧
      u.toNat / 2 ^ 62 = v.toNat / 2 ^ 62
    (l.scount ≤ o.sa.toNat → RaisesNoted (.sscale c o) 9 8 (BitVec.ofNat 64 o.sa.toNat) s) ∧
    (same → l.scount ≤ o.sa.toNat → ∀ i ∈ two, RaisesNoted i 9 8 (BitVec.ofNat 64 o.sa.toNat) s) ∧
    (same → o.sa.toNat < l.scount → l.scount ≤ o.sb.toNat → ∀ i ∈ two, RaisesNoted i 9 8 (BitVec.ofNat 64 o.sb.toNat) s) ∧
    (same → o.sa.toNat < l.scount → o.sb.toNat < l.scount → l.scount ≤ o.sd.toNat →
      ∀ i ∈ two, RaisesNoted i 9 8 (BitVec.ofNat 64 o.sd.toNat) s) ∧
    (∀ va vb a b, SparseReady s → va ≠ vb → SparseHolds s o.sa.toNat va a → SparseHolds s o.sb.toNat vb b →
      ∀ i ∈ two, RaisesNoted i 4 3 (descsWord c s) s) ∧
    (∀ w, SparseReady s → IsDword s (sparseArea s + 8 * x.sd.toNat) w → (w.toNat / 2 ^ 62 = 3 ∨ l.scap < w.toNat % 2 ^ 15) →
      x.sd.toNat < l.scount → ea.toNat % 64 = 0 →
      (∀ i ∈ [Instr.slen c x, .sst c x], RaisesNoted i 9 9 (BitVec.ofNat 64 (l.sbase + 8 * x.sd.toNat)) s) ∧
      (HandlerReady s → RaisesNoted (.shacc c x) 9 9 (BitVec.ofNat 64 (l.sbase + 8 * x.sd.toNat)) s)) ∧
    (ea.toNat % 8 ≠ 0 → Raises (.sld c x) 9 1 ea s ∧ RaisesNoted (.sst c x) 9 1 ea s) ∧
    (ea.toNat % 64 ≠ 0 → HandlerReady s → RaisesNoted (.shacc c x) 9 0x0c ea s) ∧
    (ea.toNat % 64 ≠ 0 → ¬HandlerReady s → ∃ t r, exec (.shacc c x) s = .next t ∧ t.records.getLast? = some r ∧ r.cls = 9 ∧
      r.code = 0x0c ∧ r.fin = true ∧ r.step = s.h.csr.resume.toNat)) ∧
 (∀ (c : Ctl) (o : SV) (s : State) (vt : Nat) (a : List (Nat × Nat)), SparseReady s → SparseHolds s o.sd.toNat vt a →
    o.sd.toNat < (myGang s).launch.scount → Granted s → s.poisonLane = [] →
    let D := descOf c s .d
    let A := descOf c s .a
    let rm := if c.rmo = 7 then s.h.csr.fcsr.toNat / 2 ^ 8 % 8 else c.rmo.toNat
    let on := fun e => decide (e < s.h.csr.vl) && predBit s c.pred.toNat e
    let rounds := fun d : Desc => decide (vt = 2) || decide (2 ≤ d.fmt)
    let fit := fun e => match a.lookup e with | some v => fitTo D rm (drawZ s e) (freeFit s e) vt v | none => (0, (0 : FlagSet))
    let bits := fun e => elemBits s o.v.toNat A.w e
    let full := (List.range s.h.csr.vl).filter (fun e => on e && bits e != 0)
    (D.wf = true → D.fmt ≤ 9 → Usable s [(o.v, D.w)] → ∃ (t : State) (fl : Word), exec (.sxpand c o) s = .next t ∧
      VecFrame c s t [o.v.toNat] (fun h => { h with work := t.h.work, gens := t.h.gens, raised := t.h.raised, stripReads := t.h.stripReads
                                                    csr := { h.csr with fcsr := fl } }) ∧
      ElemsWritten s t o.v.toNat D.w (masked c s 0 (fun e => (fit e).1)) ∧ FlagsGathered c s fl (fun e => (fit e).2) ∧
      GeneratorsDrawn rm s t (fun e => on e && (a.lookup e).isSome && rounds D)) ∧
    (A.wf = true → A.fmt ≤ 9 → Usable s [(o.v, A.w)] → full.length ≤ (myGang s).launch.scap → s.h.csr.vl ≤ 2 ^ 32 →
      ∃ t, exec (.spack c o) s = .next t ∧
      t = { s with
        mem := t.mem, armed := t.armed, calendar := t.calendar, writers := t.writers
        h := { s.h with pc := pcAfter c s, issued := true, strip := t.h.strip, stripReads := t.h.stripReads, work := t.h.work, gens := t.h.gens
                        refs := t.h.refs, regs := t.h.regs, raised := t.h.raised, csr := { s.h.csr with fcsr := t.h.csr.fcsr } } } ∧
      Referenced [o.v.toNat] s.h t.h ∧
      SparseWritten s t o.sd.toNat vt (full.map (fun e => (e, (fitFrom A rm (drawZ s e) (freeFit s e) vt (bits e)).1))) ∧
      (∀ k, k < 64 → t.h.csr.fcsr.getLsbD k = (s.h.csr.fcsr.getLsbD k || (decide (k < 6) &&
        full.any (fun e => (fitFrom A rm (drawZ s e) (freeFit s e) vt (bits e)).2.getLsbD k)))) ∧
      GeneratorsDrawn rm s t (fun e => on e && bits e != 0 && rounds A)))

/-- R301, R406: SHACC applies the pairs from RESUME on: each key meets its own slot or an empty one within the probe limit, the probes
before it having met other keys; COUNT counts the new keys and X[XB] takes it, and RESUME becomes 0. A first pair that finds neither
sets FULL, keeps RESUME and traps. The table lies in one scratchpad window. -/
def Obligations.HashAccumulation : Prop :=
  ∀ (c : Ctl) (o : SX) (s : State) (vt : Nat) (ps : List (Nat × Nat)) (base : Nat) (hd : Word) (σ : Nat → Nat), SparseReady s →
    SparseHolds s o.sd.toNat vt ps → o.sd.toNat < (myGang s).launch.scount →
    let ea := rx s o.xa
    let todo := ps.drop s.h.csr.resume.toNat
    let n := todo.length
    let lcap := hd.toNat % 2 ^ 5
    let plim := if lockstep s then 8 else hd.toNat / 2 ^ 8 % 2 ^ 8
    let crd := fun j => (todo.getD j (0, 0)).1
    let val := fun j => (todo.getD j (0, 0)).2
    let slot := fun j d => (crd j * 0x9e3779b9 % 2 ^ 32 / 2 ^ (32 - lcap) + d) % 2 ^ lcap
    let old := fun k => leNat (bytesAt s.mem (base + 64 + 8 * k) 8)
    let by' := fun j k => (List.range j).find? (fun i => σ i == k)
    let key := fun j k => match by' j k with | some i => crd i | none => old k % 2 ^ 32
    let mode := s.h.csr.fcsr.toNat / 2 ^ 8 % 8
    let rm := if mode = 5 then 0 else mode
    let sum := fun x y => if vt = 2 then rounded 3 rm 0 ((decodeFloat 3 x).add rm (decodeFloat 3 y)) else ((x + y) % 2 ^ 32, (0 : FlagSet))
    let had := fun j => decide (old (σ j) % 2 ^ 32 = crd j)
    let new := fun j => if had j then (sum (old (σ j) / 2 ^ 32) (val j)).1 else val j
    let fresh := (List.range n).countP (fun j => !had j)
    let frame (t : State) (h : Hart) :=
      t = { s with mem := t.mem, armed := t.armed, calendar := t.calendar, writers := t.writers, bufs := t.bufs, h := h }
    ea.toNat % 64 = 0 → InWindow s ea.toNat (64 + 8 * 2 ^ lcap) base → IsDword s base hd →
    (∀ k, 0 < k → k < 8 → IsDword s (base + 8 * k) 0) →
    (∀ b, checks s (s.h.core / 8) ea.toNat (checkEnd ea.toNat 64) b = true → tagGood s (s.h.core / 8) b = true) →
    0 < hd.toNat / 2 ^ 8 % 2 ^ 8 → 4 ≤ lcap → lcap ≤ 20 → hd.toNat / 2 ^ 16 % 2 ^ 16 = 0 → hd.toNat / 2 ^ 6 % 4 = vt →
    ((∀ j, j < n → crd j ≠ 0xffffffff ∧ ∃ d, d < plim ∧ σ j = slot j d ∧
        (∀ d', d' < d → key j (slot j d') ≠ crd j ∧ key j (slot j d') ≠ 0xffffffff) ∧
        (key j (σ j) = crd j ∨ key j (σ j) = 0xffffffff)) →
      ∃ (t : State) (v : Word), exec (.shacc c o) s = .next t ∧
        frame t { s.h with
          pc := pcAfter c s, issued := true, strip := t.h.strip, stripReads := t.h.stripReads, work := t.h.work, x := t.h.x
          raised := t.h.raised, csr := { s.h.csr with resume := 0, fcsr := t.h.csr.fcsr } } ∧
        OnlyThoseChecked s t (checks s (s.h.core / 8) ea.toNat (checkEnd ea.toNat 64)) ∧
        (∀ k, k < 64 → t.h.csr.fcsr.getLsbD k = (s.h.csr.fcsr.getLsbD k || (decide (k < 6) &&
          (List.range n).any (fun j => had j && (sum (old (σ j) / 2 ^ 32) (val j)).2.getLsbD k)))) ∧
        IsDword t base (hd + BitVec.ofNat 64 (2 ^ 32 * fresh)) ∧ XWritten o.xb v s.h.x t.h.x ∧
        v.toNat = (hd.toNat / 2 ^ 32 + fresh) % 2 ^ 32 ∧
        (∀ k, k < 2 ^ lcap → IsDword t (base + 64 + 8 * k) (match by' n k with
          | some j => pairWord (crd j, new j)
          | none => BitVec.ofNat 64 (old k))) ∧
        ∀ a, (a < base ∨ (base + 8 ≤ a ∧ a < base + 64) ∨ base + 64 + 8 * 2 ^ lcap ≤ a) → sget 0 t.mem a = sget 0 s.mem a) ∧
    (0 < n → crd 0 ≠ 0xffffffff → HandlerReady s →
      (∀ d, d < plim → old (slot 0 d) % 2 ^ 32 ≠ crd 0 ∧ old (slot 0 d) % 2 ^ 32 ≠ 0xffffffff) →
      ∃ (t u : State), exec (.shacc c o) s = .next t ∧
        frame u { s.h with strip := u.h.strip, stripReads := u.h.stripReads, work := u.h.work } ∧
        EntersHandler false 0x0a 2 ea s.h.pc u t ∧ IsDword u base (hd ||| 0x20) ∧
        ∀ a, (a < base ∨ base + 8 ≤ a) → sget 0 u.mem a = sget 0 s.mem a)

/-- R149, R302, R303, R304, R305, R306, R307: one application of each atomic to an aligned, unpoisoned place in a scratchpad: the new
bytes, what X[XD] takes, and the flags; nothing else changes.
R302, R357, R380, R401, R417: an atomic traps on a misaligned address; outside the scratchpads it changes nothing, writes one
violation entry and gives X[XD] 0; a poisoned word ends the gang. What AMOX does outside the scratchpads is log 35. -/
def Obligations.AtomicResultsAndFaults : Prop :=
 (∀ (c : Ctl) (o : AT) (s : State) (g : Nat),
    let ea := rx s o.xa
    let n := if o.sz = 1 then 8 else 4
    let b := (rx s o.xb).toNat % 2 ^ (8 * n)
    let sv := fun v : Nat => (BitVec.ofNat (8 * n) v).toInt
    let zx := fun v : Nat => BitVec.ofNat 64 v
    let sx := fun v : Nat => BitVec.ofInt 64 (sv v)
    let runs (i : Instr) (new : Nat → Nat) (ans : Nat → Word) := AtomicRuns i c s g n o.xd new ans (fun _ => 0)
    let sum := fun fmt x y => rounded fmt 0 0 ((decodeFloat fmt x).add 0 (decodeFloat fmt y))
    let x := (rx s o.xb).toNat
    let marked := fun cell k : Nat => (cell / 2 ^ 320).testBit k
    let read := fun fmt cell : Nat =>
      if marked cell 0 || (marked cell 1 && marked cell 2) then (canonNan fmt, fNv)
      else if marked cell 1 || marked cell 2 then rounded fmt 0 0 (.inf (marked cell 2), 0)
      else
        let v := (BitVec.ofNat 320 cell).toInt
        rounded fmt 0 0 (.fin (decide (v < 0)) v.natAbs (-149) false, 0)
    let left := fun cell : Nat => if (rx s o.xb).getLsbD 0 then 0 else cell
    (AtomicReady s ea n n g →
      runs (.amoAdd c o) (fun a => (a + b) % 2 ^ (8 * n)) sx ∧ runs (.amoAnd c o) (fun a => a &&& b) zx ∧
      runs (.amoOr c o) (fun a => a ||| b) zx ∧ runs (.amoXor c o) (fun a => a ^^^ b) zx ∧
      runs (.amoMin c o) (fun a => if sv b < sv a then b else a) sx ∧ runs (.amoMax c o) (fun a => if sv a < sv b then b else a) sx ∧
      runs (.amoMinu c o) (fun a => min a b) zx ∧ runs (.amoMaxu c o) (fun a => max a b) zx ∧ runs (.amoSwap c o) (fun _ => b) sx ∧
      runs (.amocas c o) (fun a => if a = (rx s o.xd).toNat % 2 ^ (8 * n) then b else a) sx) ∧
    (AtomicReady s ea 4 4 g →
      AtomicRuns (.amofFp32 c o) c s g 4 o.xd (fun a => (sum 3 a (x % 2 ^ 32)).1) zx (fun a => (sum 3 a (x % 2 ^ 32)).2) ∧
      AtomicRuns (.amofBf16 c o) c s g 4 o.xd
        (fun a => (sum 4 (a % 2 ^ 16) (x % 2 ^ 16)).1 + (sum 4 (a / 2 ^ 16) (x / 2 ^ 16 % 2 ^ 16)).1 * 2 ^ 16) zx
        (fun a => (sum 4 (a % 2 ^ 16) (x % 2 ^ 16)).2 ||| (sum 4 (a / 2 ^ 16) (x / 2 ^ 16 % 2 ^ 16)).2)) ∧
    (AtomicReady s ea 8 8 g →
      AtomicRuns (.amofFp64 c o) c s g 8 o.xd (fun a => (sum 2 a x).1) zx (fun a => (sum 2 a x).2)) ∧
    (AtomicReady s ea 48 64 g →
      (∃ new, AtomicRuns (.amox c o) c s g 48 0 new (fun _ => 0) (fun _ => 0) ∧ ∀ old, match decodeFloat 3 (x % 2 ^ 32) with
        | .nan _ => new old = old ||| 2 ^ 320
        | .inf neg => new old = old ||| (if neg then 2 ^ 322 else 2 ^ 321)
        | .fin neg m e t => ∃ v : Int, (∀ q, (FVal.fin neg m e t).IsRat q → (v : Rat) = q * (2 : Rat) ^ 149) ∧
            (new old : Int) = ((old % 2 ^ 320 : Nat) + v) % 2 ^ 320 + (old / 2 ^ 320 * 2 ^ 320 : Nat)) ∧
      AtomicRuns (.amoxrFp32 c o) c s g 48 o.xd left (fun v => zx (read 3 v).1) (fun v => (read 3 v).2) ∧
      AtomicRuns (.amoxrFp64 c o) c s g 48 o.xd left (fun v => zx (read 2 v).1) (fun v => (read 2 v).2))) ∧
 (∀ (c : Ctl) (o : AT) (s : State) (i : Instr) (n align : Nat) (xd : BitVec 5),
    let ea := rx s o.xa
    let w := if o.sz = 1 then 8 else 4
    (i, n, align, xd) ∈ [(Instr.amoAdd c o, w, w, o.xd), (.amoAnd c o, w, w, o.xd), (.amoOr c o, w, w, o.xd), (.amoXor c o, w, w, o.xd),
      (.amoMin c o, w, w, o.xd), (.amoMax c o, w, w, o.xd), (.amoMinu c o, w, w, o.xd), (.amoMaxu c o, w, w, o.xd),
      (.amoSwap c o, w, w, o.xd), (.amocas c o, w, w, o.xd), (.amofFp32 c o, 4, 4, o.xd), (.amofFp64 c o, 8, 8, o.xd),
      (.amofBf16 c o, 4, 4, o.xd), (.amox c o, 48, 64, 0), (.amoxrFp32 c o, 48, 64, o.xd), (.amoxrFp64 c o, 48, 64, o.xd)] →
    (ea.toNat % align ≠ 0 → Raises i 9 1 ea s) ∧
    (ea.toNat % align = 0 → scratchAddr s ea.toNat = none → ∃ t, exec i s = .next t ∧
      t = { s with parts := t.parts, msgs := t.msgs, h := { s.h with pc := pcAfter c s, issued := true, x := t.h.x } } ∧
      XWritten xd 0 s.h.x t.h.x ∧ ViolationLogged s t ((badKind s ea.toNat).getD 1) ea.toNat) ∧
    (∀ g, ea.toNat % align = 0 → scratchAddr s ea.toNat = some g → sget false s.poisonWord (g / 8) = true →
      ∃ t u, exec i s = .next t ∧ u = { s with h := { s.h with x := u.h.x } } ∧ XWritten xd 0 s.h.x u.h.x ∧
        EndsGang 6 0x12 8 (BitVec.ofNat 64 (ea.toNat / 8 * 8)) u t))

/-- R109, R112, R114, R308: FENCER and FENCE complete and order the hart's own accesses of the strip interval in the words that the
fence covers: with WR a read after it sees the last write, with RR it sees no less than the reads before it saw; with WW and RW a
write after it stands above the writes and the reads before it; other words keep their freedom. The scope takes in the home cluster
or the home die alone; FENCE covers both spaces without bounds. The fence holds the accesses that are not performed, and FENCE_RELEASE
ends the fences whose accesses all are. What a fence acts on is the model's choice (logs 5 and 36). -/
def Obligations.FenceResults : Prop :=
  ∀ (c : Ctl) (o : F) (s : State),
    let a := (rx s o.xa).toNat
    let e := min (a + (rx s o.xb).toNat) (2 ^ 64)
    let loc := fun w => if 8 * w < 2 ^ 41 then 8 * w % 2 ^ 24 else 2 ^ 28 + (8 * w - 2 ^ 41)
    let cluster := fun w => (8 * w - 2 ^ 40) / 2 ^ 24
    let inScope := fun w =>
      if o.sco.toNat = 1 then 8 * w < 2 ^ 41 ∧ cluster w = s.h.core / 8
      else if o.sco.toNat = 2 then (if 8 * w < 2 ^ 41 then cluster w / 12 else (8 * w - 2 ^ 41) / 2 ^ 26) = s.h.core / 96 else True
    (∀ i covers, (i, covers) ∈ [(Instr.fence c o, fun w => inScope w),
        (.fencer c o, fun w => inScope w ∧ o.sp = 0 ∧ rx s o.xb ≠ 0 ∧ loc w < e ∧ a < loc w + 8)] →
      ∃ (t : State) (f : FenceHold), exec i s = .next t ∧
        t = { s with h := { s.h with
          pc := pcAfter c s, issued := true, strip := t.h.strip, stripReads := t.h.stripReads, fences := s.h.fences ++ [f] } } ∧
        f.scope = o.sco.toNat ∧ f.kinds = o.kd ∧ f.early = s.h.accesses.filter (fun x => decide (s.h.issueCy < x.upto)) ∧
        t.h.strip.length = s.h.strip.length ∧ t.h.stripReads.length = s.h.stripReads.length ∧
        (∀ (k : Nat) (x y : StripWrite), s.h.strip[k]? = some x → t.h.strip[k]? = some y →
          (covers x.word → y = { x with seen := x.seen || o.kd.getLsbD 2, fixed := x.fixed || o.kd.getLsbD 3 }) ∧
          (¬covers x.word → y = x)) ∧
        (∀ (k : Nat) (x y : StripRead), s.h.stripReads[k]? = some x → t.h.stripReads[k]? = some y →
          (covers x.word → y = { x with seen := x.seen || o.kd.getLsbD 0, fixed := x.fixed || o.kd.getLsbD 1 }) ∧
          (¬covers x.word → y = x)) ∧
        ∀ w, covers w → ∀ tile,
          (o.kd.getLsbD 2 = true → stripWord t tile (8 * w) = wordAt t (8 * w)) ∧
          (o.kd.getLsbD 3 = true → (writesOf s w).length ≤ writeFloor t tile w) ∧
          ∀ r ∈ s.h.stripReads, r.word = w →
            (o.kd.getLsbD 0 = true → r.pos ≤ readFloor t tile w) ∧ (o.kd.getLsbD 1 = true → r.pos ≤ writeFloor t tile w)) ∧
    ∀ g k, ∃ t, exec (.fenceRelease g k) s = .next t ∧
      HartsChange s t (fun h => h.gang = g ∧ h.idx = k)
        (fun x y => y = { x with fences := x.fences.filter (fun f => f.early.any (fun b => decide (s.cyc < b.upto))) })

/-- R117, R309, R357, R380, R401: WAITM tests the word at its address, that a scratchpad holds or 0 elsewhere: it completes with the word,
its read then ordered before every later access of that word, or waits; a reserved condition traps. WAIT_COMPLETE and WAITM_REREAD complete a waiting WAITM whose condition now holds, and leave one
whose does not.
R118, R310: GBAR waits; the one that makes every hart of the gang wait in a GBAR or have exited sets the completion B cy after
the last arrival, with B by the span of the gang; an earlier one of a lockstep gang watches for the cy by which the last should arrive.
BARRIER_COMPLETE lets every waiting hart go on with its strip closed, and
changes nothing while a hart has not arrived. Log 37 says how a barrier meets a timing trap. -/
def Obligations.MemoryWaitsAndBarriers : Prop :=
 (∀ (c : Ctl) (o : X3) (s : State) (g : Nat) (m : Word), NoTileMoves s →
    let a := rx s o.xa
    let b := rx s o.xb
    let ea := a.toNat / 8 * 8
    let holds := match a.toNat % 8 with
      | 0 => m = b | 1 => m ≠ b | 2 => b.toInt ≤ m.toInt | 3 => b.toNat ≤ m.toNat | 4 => m &&& b ≠ 0 | _ => m &&& b = b
    let waits (t : State) := exec (.waitm c o) s = .next t ∧
      ∃ w, t.h = { s.h with wait := some w, issued := false } ∧ w.on = .waitm ∧ w.instr = .waitm c o ∧ w.since = s.cyc
    let acquires (t : State) := ∃ r, t.h.stripReads = r :: s.h.stripReads ∧ r.tile = false ∧ r.word = g / 8 ∧ r.seen = true ∧
      r.fixed = true ∧ r.pos = readPos s false g ∧ r.parts = []
    (5 < a.toNat % 8 → Raises (.waitm c o) 9 0x0b a s) ∧
    (a.toNat % 8 ≤ 5 → scratchAddr s ea = some g → IsDword s g m → sget false s.poisonWord (g / 8) = false →
      (holds → ∃ t, exec (.waitm c o) s = .next t ∧ GoesOn c s t (fun h => { h with x := t.h.x, stripReads := t.h.stripReads }) ∧
        XWritten o.xd m s.h.x t.h.x ∧ acquires t) ∧
      (¬holds → ∃ t, waits t ∧ t = { s with h := t.h }) ∧
      ∀ (w : Wait) (u : State), w.on = .waitm → w.instr = .waitm c o → u = { s with h := { s.h with wait := some w } } →
        ∀ i ∈ [Instr.waitComplete s.h.gang s.h.idx, .waitmReread s.h.gang s.h.idx],
          (holds → ∃ t, exec i u = .next t ∧
            GoesOn c u t (fun h => { h with x := t.h.x, wait := none, stripReads := t.h.stripReads }) ∧
            XWritten o.xd m s.h.x t.h.x ∧ acquires t) ∧
          (¬holds → exec i u = .next u)) ∧
    (a.toNat % 8 ≤ 5 → scratchAddr s ea = none → m = 0 →
      let frame (t : State) (h : Hart) := t = { s with parts := t.parts, msgs := t.msgs, h := h } ∧
        ViolationLogged s t ((badKind s ea).getD 1) ea
      (holds → ∃ t, exec (.waitm c o) s = .next t ∧ frame t { s.h with pc := pcAfter c s, issued := true, x := t.h.x } ∧
        XWritten o.xd 0 s.h.x t.h.x) ∧
      (¬holds → ∃ t, waits t ∧ frame t t.h))) ∧
 (∀ (c : Ctl) (o : X3) (s : State),
    let g := gangOf s s.h.gang
    let mine := s.others.filter (fun h => h.gang == s.h.gang)
    let inBar := fun h : Hart => h.wait.any (fun w => w.on == .gbar)
    let arrived := fun h : Hart => inBar h || h.exit.isSome
    let last := g.base + g.launch.nhart * g.launch.tph - 1
    let span := if g.base / 8 = last / 8 then 24 else if g.base / 96 = last / 96 then 160 else 160 + 120 * (last / 96)
    (∃ (t : State) (w : Wait), exec (.gbar c o) s = .next t ∧
      t = { s with calendar := t.calendar, h := { s.h with wait := some w, issued := false, arrived := s.h.arrived + 1 } } ∧
      w.on = .gbar ∧ w.instr = .gbar c o ∧ w.since = s.cyc ∧
      (mine.all arrived = false → g.launch.lockstep = false → t.calendar = s.calendar) ∧
      (mine.all arrived = false → g.launch.lockstep = true →
        ∃ T, s.cyc ≤ T ∧ t.calendar = s.calendar ++ [(T, .timingTrap s.h.gang s.h.idx)]) ∧
      (mine.all arrived = true → ∃ T, t.calendar = s.calendar ++ [(T + span, .barrierComplete s.h.gang)] ∧
        s.cyc ≤ T ∧ (∀ h ∈ s.h :: mine.filter inBar, h.accessEnd ≤ T) ∧ (T = s.cyc ∨ ∃ h ∈ s.h :: mine.filter inBar, T = h.accessEnd))) ∧
    ∀ k, let all := (s.h :: s.others).filter (fun h => h.gang == k)
      (all.all arrived = false → exec (.barrierComplete k) s = .next s) ∧
      (all.all arrived = true → ∃ t u, exec (.barrierComplete k) s = .next t ∧
        u = { s with monitors := u.monitors, monBefore := u.monBefore, msgs := u.msgs } ∧
        HartsChange u t (fun h => h.gang = k ∧ inBar h = true) (fun x y => ∀ w c' o', x.wait = some w → w.instr = .gbar c' o' →
          y = { x with wait := none, pc := pcPlus x.pc c'.form.words, issued := true, strip := [], stripReads := [], streams := []
                       next := max x.next (s.cyc + 1 + c'.sc.toNat) })))

/-- R41, R45, R126, R151: RESULT_LANDING closes the windows whose last cy is over, after which their locations read as they hold;
LOAD_DATA_RETURN also frees a scalar unit that is due; ROW_DROWSY takes a row that nothing has touched for more than 4,096 cy, and no
other; REPLICA_APPLY writes each byte whose copy holds no later stamp.
R141, R366, R418: ICACHE_FILL takes the 64 bytes around a missed word, and from a full cache drops one line, which one being free
(log 7); ICACHE_PARITY_REFILL takes the word; in lockstep mode the refill holds the gang with notice 0x05. Stated for plain pages. -/
def Obligations.LandingsAndCacheFills : Prop :=
 (∀ (s : State) (core row n : Nat),
    let late := fun w : Window => decide (s.cyc ≤ w.upto)
    let lands (h : Hart) := { h with exposed := h.exposed.filter late, reading := h.reading.filter late }
    let key := core * 256 + row
    let idle := max (sget 0 s.touched key) (startOf s core) + 4096 < s.cyc
    (∃ t, exec (.resultLanding n) s = .next t ∧ t = { s with h := lands s.h } ∧
      ∀ l k, (∀ w ∈ s.h.exposed, w.loc = l → w.upto < s.cyc) → l ∉ hotAt t.h k s.cyc) ∧
    (exec .loadDataReturn s = .next { s with h := { lands s.h with
      units := { s.h.units with scalar := if s.h.units.scalar ≤ s.cyc then s.cyc else s.h.units.scalar } } }) ∧
    (∃ t, exec (.rowDrowsy core row) s = .next t ∧ t = { s with drowsy := t.drowsy } ∧
      ∀ k, sget false t.drowsy k = if k = key ∧ idle then true else sget false s.drowsy k) ∧
    ∀ r, s.replicas.find? (fun r => r.n == n) = some r → s.armed = [] →
      let takes := fun p => decide (r.pa ≤ p) && decide (p < r.pa + r.bytes.length) && !replicaBefore r.stamp (sget (0, 0, 0, 0) s.stamps p)
      ∃ t, exec (.replicaApply n) s = .next t ∧
        t = { s with replicas := s.replicas.filter (fun x => x.n != n), mem := t.mem, stamps := t.stamps, poisonHbm := t.poisonHbm } ∧
        ∀ p, sget 0 t.mem p = (if takes p then r.bytes.getD (p - r.pa) 0 else sget 0 s.mem p) ∧
          sget (0, 0, 0, 0) t.stamps p = (if takes p then r.stamp else sget (0, 0, 0, 0) s.stamps p)) ∧
 (∀ (s : State) (va : Word),
    let g := myGang s
    let w : Who := ⟨g.part, g.launch.asid, s.h.core / 96⟩
    let key := fun a => s.h.core * 2 ^ 62 + a / 4
    let held := (s.icache.filter (fun e => e.1 / 2 ^ 62 == s.h.core)).length
    let filledFrom (old : Nat → BitVec 33) (t : State) (lo n : Nat) := ∀ k, sget 0 t.icache k =
      if key lo ≤ k ∧ k < key lo + n then BitVec.ofNat 33 (2 ^ 32 + vnum s w (lo + 4 * (k - key lo)) 4) else old k
    let filled := filledFrom (sget 0 s.icache)
    let lo := va.toNat / 64 * 64
    let wd := va.toNat / 4 * 4
    (PlainVa s w (fun a => lo ≤ a ∧ a < lo + 64) →
      (held ≤ 16368 → ∃ t, exec (.icacheFill va) s = .next t ∧ t = { s with icache := t.icache } ∧ filled t lo 16) ∧
      (16368 < held → ∃ t e, exec (.icacheFill va) s = .next t ∧ t = { s with icache := t.icache, free := s.free + 1 } ∧
        e ∈ s.icache ∧ e.1 / 2 ^ 62 = s.h.core ∧ filledFrom (fun k => if k / 16 = e.1 / 16 then 0 else sget 0 s.icache k) t lo 16)) ∧
    (PlainVa s w (fun a => wd ≤ a ∧ a < wd + 4) →
      (g.launch.lockstep = false → ∃ t, exec (.icacheParityRefill va) s = .next t ∧ t = { s with icache := t.icache } ∧ filled t wd 1) ∧
      (g.launch.lockstep = true → findGang s s.h.gang = some g → g.hold = none → ∃ t, exec (.icacheParityRefill va) s = .next t ∧
        filled t wd 1 ∧ t.h.run = .held ∧ t.h.pc = s.h.pc ∧ (gangOf t s.h.gang).hold.isSome = true ∧
        t.msgs = s.msgs ++ [message s g.part 0, message s g.part 0])))

/-- R168, R169, R336, R425: what a core reads of its monitor units, what a write leaves, and what a sample does to the unit that takes
it: extremes, count, sum, its bin, the alarm and the one message of the alarm's rise. A read in the cy of a sample finds what stood
before it. A unit set to one of the events 4 to 6 takes its next sample in a later cy, and one only in a cy that 1,024 divides (log 60). -/
def Obligations.MonitorResults : Prop :=
  ∀ (c : Ctl) (o : C) (s : State) (key v : Nat),
    let k := 16 * s.h.core + (o.csr.toNat - 0x100) / 16
    let r := o.csr.toNat % 16
    let u := monAt s k
    let sn := monSeen s k
    let bin := fun (m : MonUnit) j => m.hist.toList.getD j 0
    let only (t : State) (k : Nat) := ∀ j, j ≠ k → monAt t j = monAt s j
    let x := rx s o.xd
    let d := monAt s key
    let lo := d.binLo.toNat
    let follows (t : State) (k : Nat) :=
      ((monAt t k).periodic = false → t.calendar = s.calendar ∧ t.free = s.free) ∧
      ((monAt t k).periodic = true → ∃ cy w, s.cyc < cy ∧ (cy, Event.monitorSample k w) ∈ t.calendar)
    let taken := s.cyc % 1024 = 0 ∧ ∀ x ∈ s.monBefore, ¬(x.cyc = s.cyc ∧ x.key = key)
    let written (old new : MonUnit) (i : Nat) (w : Word) : Prop := match i with
      | 0 => new = { MonUnit.init with cfg := new.cfg, binLo := old.binLo, binW := old.binW, alarm := old.alarm } ∧
          ∀ j, j < 64 → new.cfg.getLsbD j = (w.getLsbD j && (decide (j < 16) || decide (j = 30) || decide (j = 31)))
      | 5 => new = { old with binLo := w }
      | 6 => new = { old with binW := w }
      | 7 => new = { old with alarm := new.alarm } ∧ ∀ j, j < 64 → new.alarm.getLsbD j =
          if j = 63 then old.alarm.getLsbD 63 && !w.getLsbD 63 else w.getLsbD j && (decide (j < 48) || decide (j = 62))
      | _ => new = old
    (∀ j, (∀ x ∈ s.monBefore, x.cyc ≠ s.cyc) → monSeen s j = monAt s j) ∧
    (0x100 ≤ o.csr.toNat → o.csr.toNat < 0x200 → ∃ q : Word, WritesX (.csrr c o) c o.xd q s ∧
      (match r with
        | 0 => q = sn.cfg | 1 => q = sn.min | 2 => q = sn.max | 3 => q = sn.count | 4 => q = sn.sum | 5 => q = sn.binLo | 6 => q = sn.binW
        | 7 => q = sn.alarm
        | _ => ∀ j, j < 64 → q.getLsbD j = (bin sn (4 * (r - 8) + j / 16)).getLsbD (j % 16))) ∧
    (0x100 ≤ o.csr.toNat → o.csr.toNat < 0x200 → ∀ i w, (i, w) ∈ [(Instr.csrw c o, x), (.csrs c o, sn.read r ||| x),
        (.csrc c o, sn.read r &&& ~~~x)] →
      ∃ t, exec i s = .next t ∧ t = { s with
          monitors := t.monitors, monBefore := t.monBefore, calendar := t.calendar, free := t.free
          h := { s.h with pc := pcAfter c s, issued := true } } ∧
        only t k ∧ written u (monAt t k) r w ∧ follows t k) ∧
    (∀ w : Word, ∃ t, exec (.monitorConfigWrite key w) s = .next t ∧
      t = { s with monitors := t.monitors, monBefore := t.monBefore, calendar := t.calendar, free := t.free } ∧ only t key ∧
      written d (monAt t key) 0 w ∧ follows t key) ∧
    (∃ t, exec (.alarmClear key) s = .next t ∧ t = { s with monitors := t.monitors, monBefore := t.monBefore } ∧ only t key ∧
      monAt t key = { d with alarm := (monAt t key).alarm } ∧
      ∀ j, j < 64 → (monAt t key).alarm.getLsbD j = (d.alarm.getLsbD j && decide (j ≠ 63))) ∧
    (d.periodic = true → ¬taken → exec (.monitorSample key v) s = .next s) ∧
    ((d.periodic = true → taken) → ∃ t, exec (.monitorSample key v) s = .next t ∧
      t = { s with monitors := t.monitors, monBefore := t.monBefore, msgs := t.msgs, calendar := t.calendar, free := t.free } ∧ follows t key ∧
      only t key ∧ (∀ j, monSeen t j = monSeen s j) ∧
      let e := monAt t key
      let rises := d.alarm.getLsbD 62 ∧ d.alarm.toNat % 2 ^ 48 < v ∧ d.alarm.getLsbD 63 = false
      ((d.cfg.getLsbD 31 = false ∨ d.cfg.toNat % 2 ^ 16 = 0 ∨ 6 < d.cfg.toNat % 2 ^ 16) → e = d ∧ t.msgs = s.msgs) ∧
      (d.cfg.getLsbD 31 = true → 0 < d.cfg.toNat % 2 ^ 16 → d.cfg.toNat % 2 ^ 16 ≤ 6 → v < 2 ^ 64 → ∃ b, b < 32 ∧
        (v ≤ lo → b = 0) ∧
        (lo < v → d.cfg.getLsbD 30 = false → b = min ((v - lo) / max 1 d.binW.toNat) 31) ∧
        (lo < v → d.cfg.getLsbD 30 = true → 0 < b ∧ 2 ^ (b - 1) ≤ v - lo ∧ (b < 31 → v - lo < 2 ^ b)) ∧
        e = { d with min := e.min, max := e.max, count := d.count + 1, sum := d.sum + BitVec.ofNat 64 v, hist := e.hist, alarm := e.alarm } ∧
        e.min.toNat = min d.min.toNat v ∧ e.max.toNat = max d.max.toNat v ∧
        (∀ j, j < 32 → (bin e j).toNat = if j = b then min ((bin d j).toNat + 1) 0xffff else (bin d j).toNat) ∧
        (∀ j, j < 64 → e.alarm.getLsbD j = (d.alarm.getLsbD j ||
          decide (j = 63 ∧ d.alarm.getLsbD 62 = true ∧ d.alarm.toNat % 2 ^ 48 < v))) ∧
        t.msgs = s.msgs ++ (match partOfDie s (monDie key) with | some p => if rises then [message s p 2] else [] | none => [])))

/-- R274, R275, R276: BINPUT hands its pair to the die's engine, or waits while 64 pairs of the hart are pending.
R274, R275, R276, R413: BIN_PAIR_WRITE takes the die's oldest pair, where it is of the hart in hand: with the bin set as the hart read
it, the pair goes behind the pairs flushed and appended in cart (g, HARTID); or it is dropped with a record of code 0x10, 0x11, 0x12
or 0x14; the engine takes no second pair in that cy. Stated for carts on plain pages and a hart without a parked pair. One record for each dropped pair is the model's reading (log 32).
R122, R277: BINFLUSH, and BINFLUSH_COMPLETE of a waiting one, raise the COUNT of every cart that received pairs by their
number, forget the bin sets and give X[XD] the number of pairs; while a pair is pending it waits. Stated for carts on plain pages.
The calendar is the model's (log 4). -/
def Obligations.BinningResults : Prop :=
 (∀ (c : Ctl) (o : X3) (s : State),
    let mine := s.bins.filter (fun p => p.gang == s.h.gang && p.hart == s.h.idx)
    let die := s.h.core / 96
    (mine.length < 64 → ∃ (t : State) (cy : Nat) (p : BinPair), exec (.binput c o) s = .next t ∧
      t = { s with bins := s.bins ++ [p], calendar := s.calendar ++ [(cy, .binPairWrite die)]
                   h := { s.h with pc := pcAfter c s, issued := true } } ∧
      p.die = die ∧ p.gang = s.h.gang ∧ p.hart = s.h.idx ∧ p.pc = s.h.pc ∧ p.set = (rx s o.xd).toNat ∧ p.idx = (rx s o.xa).toNat ∧
      p.value = rx s o.xb ∧ p.slot = none ∧ p.due = s.h.issueCy ∧ cy = s.h.issueCy) ∧
    (64 ≤ mine.length → ∃ t w, exec (.binput c o) s = .next t ∧ t = { s with h := { s.h with wait := some w, issued := false } } ∧
      w.on = .binput ∧ w.instr = .binput c o)) ∧
 (∀ (s : State) (die : Nat) (p : BinPair) (b : BinSet), s.bins.find? (fun p => p.die == die && decide (p.due ≤ s.cyc)) = some p →
    (∀ x ∈ s.bins, x.gang = p.gang → x.hart = p.hart → x.slot = none) →
    p.gang = s.h.gang → p.hart = s.h.idx → (∀ h ∈ s.others, isHart s.h.gang s.h.idx h = false) → s.h.binSets.find? (fun b => b.va == p.set) = some b →
    let w := hartWho s s.h
    let free := sget 0 s.binFree die
    let more (t : State) (before : List (Nat × Event)) := t.calendar = before ∨ t.calendar = before ++ [(s.cyc + 1, .binPairWrite die)]
    let done (t : State) (bs : List BinSet → Prop) := exec (.binPairWrite die) s = .next t ∧ bs t.h.binSets ∧
      t = { s with bins := s.bins.erase p, h := { s.h with binSets := t.h.binSets }, mem := t.mem, caches := t.caches
                   binFree := t.binFree, records := t.records, fresh := t.fresh, calendar := t.calendar } ∧
      ∀ d, sget 0 t.binFree d = if d = die then s.cyc + 1 else sget 0 s.binFree d
    let same := fun bs : List BinSet => bs.find? (fun b => b.va == p.set) = some b
    let refused (code : Nat) := ∃ t r, done t same ∧ t.records = s.records ++ [r] ∧ t.fresh = s.fresh + 1 ∧
      more t (s.calendar ++ [(s.cyc + 2000, .faultRecordDelivery s.fresh)]) ∧ t.mem = s.mem ∧ r.cls = 0x11 ∧ r.agent = 3 ∧
      r.code.toNat = code ∧ r.addr = BitVec.ofNat 64 p.set ∧ r.synd = BitVec.ofNat 64 p.idx ∧ r.hart = p.hart ∧ r.pc = p.pc
    (s.cyc < free → exec (.binPairWrite die) s = .next { s with calendar := s.calendar ++ [(free, .binPairWrite die)] }) ∧
    (free ≤ s.cyc → (gangOf s p.gang).ending = false →
    (b.fields = none → refused 0x14) ∧
    ∀ carts nreg nh shift cap ibase, b.fields = some [carts, nreg, nh, shift, cap, ibase] →
      let g := (p.idx - ibase) / 2 ^ shift
      let cart := (carts + (g * nh + p.hart) * ((64 + 16 * cap + 511) / 512 * 512)) % 2 ^ 64
      ((p.idx < ibase ∨ nreg ≤ g) → refused 0x10) ∧
      (ibase ≤ p.idx → g < nreg → nh ≤ p.hart → refused 0x11) ∧
      (ibase ≤ p.idx → g < nreg → p.hart < nh → cart + 64 + 16 * cap ≤ 2 ^ 64 → cart % 64 = 0 →
        let n := vnum s w cart 4 + sget 0 b.appended cart
        let at' := cart + 64 + 16 * n
        (cap ≤ n → PlainVa s w (fun a => cart ≤ a ∧ a < cart + 64) → refused 0x12) ∧
        (n < cap → PlainVa s w (fun a => cart ≤ a ∧ a < cart + 64 ∨ at' ≤ a ∧ a < at' + 16) → ∃ t, done t (fun bs =>
            ∃ x, bs.find? (fun b => b.va == p.set) = some x ∧ x.fields = b.fields ∧
              ∀ q, sget 0 x.appended q = if q = cart then sget 0 b.appended cart + 1 else sget 0 b.appended q) ∧
          t.records = s.records ∧ t.fresh = s.fresh ∧ more t s.calendar ∧ VaBecomes s t w (fun a => at' ≤ a ∧ a < at' + 16)
            (fun a => if a < at' + 8 then byteOf (BitVec.ofNat 64 p.idx) (a - at') else byteOf p.value (a - at' - 8)))))) ∧
 (∀ (c : Ctl) (o : X3) (s : State),
    let carts := s.h.binSets.flatMap (fun b => b.appended)
    let w := hartWho s s.h
    let header := fun a => ∃ e ∈ carts, e.1 ≤ a ∧ a < e.1 + 64
    let mine := s.bins.filter (fun p => p.gang == s.h.gang && p.hart == s.h.idx)
    let added := fun q => ((carts.filter (fun e => e.1 == q)).map (fun e => e.2)).sum
    let count := fun q => (vnum s w q 4 + added q) % 2 ^ 32
    let flushes (i : Instr) (u : State) := ∃ t, exec i u = .next t ∧
      t = { u with mem := t.mem, caches := t.caches
                   h := { u.h with pc := pcAfter c s, issued := true, wait := none, binSets := [], x := t.h.x } } ∧
      XWritten o.xd (BitVec.ofNat 64 (carts.map (fun e => e.2)).sum) s.h.x t.h.x ∧
      VaBecomes s t w header (fun a => if a % 64 < 4 then BitVec.ofNat 8 (count (a / 64 * 64) / 256 ^ (a % 64)) else vbyte s w a)
    (mine = [] → (∀ h ∈ s.others, ¬(h.gang = s.h.gang ∧ h.idx = s.h.idx)) → (∀ e ∈ carts, e.1 % 64 = 0) → PlainVa s w header →
      (s.h.wait = none → flushes (.binflush c o) s) ∧
      ∀ x, x.instr = .binflush c o → flushes (.binflushComplete s.h.gang s.h.idx) { s with h := { s.h with wait := some x } }) ∧
    (mine ≠ [] → ∃ t x, exec (.binflush c o) s = .next t ∧ t = { s with h := { s.h with wait := some x, issued := false } } ∧
      x.on = .binflush ∧ x.instr = .binflush c o))

/-- R282, R286: each coach instruction sends its operation, with X[XA] and X[XB] as read, to the coach unit of the address's home
die, and waits; COACH_OP_COMPLETE ends the wait with the reply in X[XD]. The time on the way is the model's reading (log 30).
R285, R289, R292, R395: KVPIN raises PIN, KVUNPIN lowers it and frees the carriage to its pool when REF and PIN are 0, each giving
PIN; refusals 0x07, 0x08 and 0x09 change nothing; KVQRY gives the descriptor's dword, a header dword, the carriage that holds a
position, or the counts of both chains. Stated for plain pages. -/
def Obligations.CoachPinsResults : Prop :=
 (∀ (c : Ctl) (o : X3) (s : State),
    let mine := s.h.core / 96
    ∀ i ∈ [Instr.kvapp c o, .retspan c o, .kvpin c o, .kvunpin c o, .kvqryDesc c o, .kvqryPos c o, .kvqryHdr c o, .kvqryCount c o],
      (∃ (t : State) (op : CoachOp) (w : Wait), exec i s = .next t ∧
        t = { s with coachOps := s.coachOps ++ [op], calendar := s.calendar ++ [(op.due, .coachOpApply op.die)]
                     h := { s.h with wait := some w, issued := false } } ∧
        op.gang = s.h.gang ∧ op.hart = s.h.idx ∧ op.pc = s.h.pc ∧ op.instr = i ∧ op.a = rx s o.xa ∧ op.b = rx s o.xb ∧
        op.due = s.h.issueCy + 80 + 120 * ((mine - op.die) + (op.die - mine)) ∧
        w.on = .coach ∧ w.instr = i ∧ w.since = s.cyc ∧ w.reply = none ∧
        ∀ d k l, homeDie s (myGang s).part mine (rx s o.xa).toNat = .ok (d, k, l) → op.die = d) ∧
      ∀ w v, s.h.wait = some w → w.instr = i → w.reply = some v →
        ∃ t, exec (.coachOpComplete s.h.gang s.h.idx) s = .next t ∧ GoesOn c s t (fun h => { h with x := t.h.x, wait := none }) ∧
          XWritten o.xd v s.h.x t.h.x) ∧
 (∀ (s : State) (op : CoachOp) (c : Ctl) (o : X3), CoachFirst s op → op.a.toNat % 64 = 0 →
    let w := coachWho s op
    let k := op.a.toNat
    let d := fun q => vnum s w q 8
    let m := d (k + 16)
    let pin := m / 2 ^ 32 % 2 ^ 16
    let ref := m / 2 ^ 48
    let pool := d (k + 48)
    let both := fun a => line k a ∨ line pool a
    (op.instr = .kvpin c o → PlainVa s w (line k) →
      (ref = 0 → pin = 0 → m.testBit 1 = true → CoachRefuses s op 0 7 k) ∧
      (pin = 65535 → CoachRefuses s op 0 8 k) ∧
      (ref ≠ 0 ∨ pin ≠ 0 ∨ m.testBit 1 = false → pin < 65535 → CoachApplies s op 0 (pin + 1) (fun t =>
        DwordsBecome s t w (line k) (fun q => if q = k + 16 then m + 2 ^ 32 else d q)))) ∧
    (op.instr = .kvunpin c o → PlainVa s w (line k) →
      (pin = 0 → CoachRefuses s op 0 9 k) ∧
      (0 < pin → ¬(ref = 0 ∧ pin = 1) → CoachApplies s op 0 (pin - 1) (fun t =>
        DwordsBecome s t w (line k) (fun q => if q = k + 16 then m - 2 ^ 32 else d q)))) ∧
    (op.instr = .kvunpin c o → PlainVa s w both → pin = 1 → ref = 0 → pool % 64 = 0 → pool ≠ k → CoachApplies s op 0 0 (fun t =>
      DwordsBecome s t w both (fun q =>
        if q = k then d pool
        else if q = k + 16 then m % 2 ^ 32 / 4 * 4 + 2 + m % 2
        else if q = pool then k
        else if q = pool + 8 then d q / 2 ^ 32 * 2 ^ 32 + (d q + 1) % 2 ^ 32
        else d q))) ∧
    (op.instr = .kvqryDesc c o → PlainVa s w (line k) → CoachApplies s op 0 (d (k + 32)) (fun t => t.mem = s.mem)) ∧
    (op.instr = .kvqryHdr c o → PlainVa s w (line k) →
      CoachApplies s op 0 (d (k + 8 * (op.b.toNat % 8))) (fun t => t.mem = s.mem)) ∧
    ∀ (p own : List Nat), ChainIs s w (d k) p → ChainIs s w (d (k + 8)) own → p.length ≤ 65536 → own.length ≤ 65536 →
      (∀ x ∈ p ++ own, x % 64 = 0) → PlainVa s w (fun a => line k a ∨ ∃ x ∈ p ++ own, line x a) →
      let holds := fun x => d (x + 8) / 2 ^ 32 ≤ op.b.toNat ∧ op.b.toNat < d (x + 8) / 2 ^ 32 + d (x + 8) / 2 ^ 8 % 2 ^ 8
      (op.instr = .kvqryCount c o →
        CoachApplies s op (64 * (p.length + own.length)) (p.length * 2 ^ 32 + own.length) (fun t => t.mem = s.mem)) ∧
      (op.instr = .kvqryPos c o →
        (∀ (j x : Nat), (p ++ own)[j]? = some x → holds x → (∀ i y, i < j → (p ++ own)[i]? = some y → ¬holds y) →
          CoachApplies s op (64 * (j + 1)) x (fun t => t.mem = s.mem)) ∧
        ((∀ x ∈ p ++ own, ¬holds x) → CoachApplies s op (64 * (p ++ own).length) 0 (fun t => t.mem = s.mem))))

/-- R280, R281, R283, R287, R395: KVAPP writes the token into the tail carriage, or takes a carriage from the pool, heads it and links
it where the tail takes none; NTOK and NEXTPOS rise and X[XD] gets the old NEXTPOS; codes 0x03, 0x04, 0x06 and 0x0b refuse it with
nothing changed. Stated for plain pages.
R285, R288, R395: RETSPAN unlinks every owned carriage of the tag, lowers its REF and marks it RETIRED, seals the tail that
remains, under CLOSE lowers the later positions and NEXTPOS, under PFX lowers the prefix's REFs and forgets it, and gives the
tokens removed; a REF of 0 refuses it with nothing changed. Stated for plain pages and carriages that stay referenced or pinned.
The time of a refused RETSPAN is log 31. -/
def Obligations.CoachAppendAndRetspan : Prop :=
 (∀ (s : State) (op : CoachOp) (c : Ctl) (o : X3) (g : Nat), CoachFirst s op → op.instr = .kvapp c o → op.a.toNat % 64 = 0 →
    let w := coachWho s op
    let k := op.a.toNat
    let b := op.b.toNat
    let d := fun q => vnum s w q 8
    let tag := b / 2 ^ 48 % 16
    let at' := b % 2 ^ 48
    let tail := d (k + 16)
    let pool := d (k + 24)
    let free := d pool
    let pos := d (k + 32) / 2 ^ 32
    let slot := d (tail + 8) / 2 ^ 8 % 2 ^ 8
    let takes := tail ≠ 0 ∧ (d (tail + 16)).testBit 0 = false ∧ d (tail + 8) % 16 = tag ∧ slot ≠ 64
    let len := fun h : Shape => 2 * h.lc * h.hc * h.hd * h.z
    let old := shapeOf (d (tail + 24)) (d (tail + 32)) (d (tail + 40) % 2 ^ 32) (d (tail + 16) / 2 ^ 24 % 2 ^ 8)
    let new := shapeOf (d (k + 40)) (d (k + 48)) (d (k + 56) % 2 ^ 24) (d (k + 56) / 2 ^ 24 % 2 ^ 8)
    let next := fun q => d q % 2 ^ 32 + (pos + 1) % 2 ^ 32 * 2 ^ 32
    let heads := fun a => line k a ∨ line pool a ∨ line free a ∨ (tail ≠ 0 ∧ line tail a)
    (2 ^ 52 ≤ b → CoachRefuses s op 0 0x0b k) ∧
    (b < 2 ^ 52 → takes → slot < 64 → tail % 64 = 0 → tail ≠ k → old.ok = true →
      let R := fun a => line k a ∨ line tail a ∨ tokenBytes old tail slot a
      (∀ a, tokenBytes old tail slot a → ¬line k a) → PlainVa s w R →
      (RecordAt s at' (len old) g → CoachApplies s op (4 * ceilDiv (len old) 512) pos (fun t =>
        TokenTaken s t w old tail slot g ∧
        (∀ q, line k q ∨ line tail q → q % 8 = 0 → ∀ j, j < 8 → sget 0 t.mem (vpa s w (q + j)) =
          byteOf (BitVec.ofNat 64 (if q = k + 32 then next q else if q = tail + 8 then d q + 2 ^ 8 else d q)) j) ∧
        ∀ p, (∀ a, R a → vpa s w a ≠ p) → sget 0 t.mem p = sget 0 s.mem p)) ∧
      (s.poisonWord = [] → at' % 8 ≠ 0 → CoachRefuses s op 0 3 at')) ∧
    (b < 2 ^ 52 → ¬takes → pool % 64 = 0 → tail % 64 = 0 → (k :: pool :: [tail]).Nodup →
      let R := fun a => heads a ∨ tokenBytes new free 0 a
      (free ≠ 0 → free % 64 = 0 → free ≠ k → free ≠ pool → free ≠ tail → new.ok = true →
        (∀ a, tokenBytes new free 0 a → ¬heads a) → PlainVa s w R → RecordAt s at' (len new) g →
        CoachApplies s op (400 + 4 * ceilDiv (len new) 512) pos (fun t =>
          TokenTaken s t w new free 0 g ∧
          (∀ q, heads q → q % 8 = 0 → ∀ j, j < 8 → sget 0 t.mem (vpa s w (q + j)) = byteOf (BitVec.ofNat 64 (
            if q = k + 8 then (if tail = 0 then free else d q)
            else if q = k + 16 then free
            else if q = k + 32 then next q
            else if q = pool then d free
            else if q = pool + 8 then d q / 2 ^ 32 * 2 ^ 32 + (d q + 2 ^ 32 - 1) % 2 ^ 32
            else if q = free then 0
            else if q = free + 8 then pos * 2 ^ 32 + d (k + 32) / 2 ^ 16 % 2 ^ 16 * 2 ^ 16 + 2 ^ 8 + tag
            else if q = free + 16 then 2 ^ 48 + d (k + 56) / 2 ^ 24 % 2 ^ 8 * 2 ^ 24
            else if q = free + 24 then d (k + 40)
            else if q = free + 32 then d (k + 48)
            else if q = free + 40 then d (k + 56) % 2 ^ 24
            else if q = free + 48 then pool
            else if q = free + 56 then 0
            else if q = tail ∧ tail ≠ 0 then free
            else if q = tail + 16 ∧ tail ≠ 0 then d q / 2 * 2 + 1
            else d q)) j) ∧
          ∀ p, (∀ a, R a → vpa s w a ≠ p) → sget 0 t.mem p = sget 0 s.mem p)) ∧
      (PlainVa s w (fun a => line k a ∨ line pool a ∨ (tail ≠ 0 ∧ line tail a)) → new.ok = true → free = 0 →
        RecordAt s at' (len new) g → CoachRefuses s op 0 6 pool) ∧
      (PlainVa s w heads → (free ≠ 0 → free % 64 = 0) → new.ok = false → RecordAt s at' (len new) g → CoachRefuses s op 0 4 k))) ∧
 (∀ (s : State) (op : CoachOp) (c : Ctl) (o : X3) (own pre : List Nat), CoachFirst s op → op.instr = .retspan c o →
    let w := coachWho s op
    let k := op.a.toNat
    let d := fun q => vnum s w q 8
    let tag := op.b.toNat
    let close := o.fn.getLsbD 0
    let pfx := o.fn.getLsbD 1
    let ref := fun x => d (x + 16) / 2 ^ 48
    let gone := fun x => d (x + 8) % 16 == tag
    let ntok := fun xs : List Nat => ((xs.filter gone).map (fun x => d (x + 8) / 2 ^ 8 % 2 ^ 8)).sum
    let stay := own.filter (fun x => !gone x)
    let hit := own.filter gone ++ pre
    let lines := fun a => ∃ x ∈ k :: own ++ pre, line x a
    let new := fun q =>
      if q = k then (if pfx then 0 else d q)
      else if q = k + 8 then stay.headD 0
      else if q = k + 16 then stay.getLastD 0
      else if q = k + 32 then (if close then (d q + 2 ^ 64 - ntok own * 2 ^ 32) % 2 ^ 64 else d q)
      else match own.find? (fun x => decide (x ≤ q) && decide (q < x + 64)) with
        | some x =>
          if gone x then (if q = x + 16 then (d q ||| 2) - 2 ^ 48 else d q)
          else if q = x then (stay.dropWhile (fun y => y != x)).tail.headD 0
          else if q = x + 8 ∧ close = true then (d q + 2 ^ 64 - ntok (own.takeWhile (fun y => y != x)) * 2 ^ 32) % 2 ^ 64
          else if q = x + 16 ∧ 0 < ntok own ∧ x = stay.getLastD 0 then d q ||| 1
          else d q
        | none => if q ∈ pre.map (fun x => x + 16) then d q - 2 ^ 48 else d q
    (16 ≤ tag → CoachRefuses s op 0 0x0b k) ∧
    (tag < 16 → ChainIs s w (d (k + 8)) own → ChainIs s w (if pfx then d k else 0) pre → own.length ≤ 65536 → pre.length ≤ 65536 →
      (k :: own ++ pre).Nodup → (∀ x ∈ k :: own ++ pre, x % 64 = 0) → d (k + 16) = own.getLastD 0 → PlainVa s w lines →
      (∀ x ∈ hit, ¬(ref x = 1 ∧ d (x + 16) / 2 ^ 32 % 2 ^ 16 = 0)) →
      ((∀ x ∈ hit, ref x ≠ 0) → CoachApplies s op (64 * own.length) (ntok own) (fun t => DwordsBecome s t w lines new)) ∧
      ∀ (j x : Nat), hit[j]? = some x → ref x = 0 → (∀ i y, i < j → hit[i]? = some y → ref y ≠ 0) →
        CoachRefuses s op (64 * own.length) 0x0a x))

/-- R312: GLAUNCH and GQRY send their request to the root and wait; its answer ends the wait with X[XD]. GQRY_ARRIVAL answers with the
state and the harts that have not exited, or an exit value.
R312, R314, R316, R376: LAUNCH_ARRIVAL answers 2 for a refused ID, 1 for a full queue, and else 0: a block that passes its
check is queued with the next launch sequence, a misaligned one is a faulted gang with a record of class 0x13 code 0x01.
HOST_LAUNCH does the same with LVA and LID, after the arrivals of its cy, and leaves the answer in LRES. The die at which the root's and the host's accesses
enter is the model's choice (log 42), and the record of a misaligned block its reading (log 38). -/
def Obligations.LaunchRequestsAndArrivals : Prop :=
 (∀ (c : Ctl) (o : X3) (s : State),
    (∀ i q, (i, q) ∈ [(Instr.glaunch c o, false), (.gqry c o, true)] →
      (∃ (t : State) (r : Request) (w : Wait), exec i s = .next t ∧
        t = { s with requests := s.requests ++ [r], fresh := s.fresh + 1
                     calendar := s.calendar ++ [(r.due, if q then .gqryArrival r.n else .launchArrival r.n)]
                     h := { s.h with wait := some w, issued := false } } ∧
        r.n = s.fresh ∧ r.query = q ∧ r.part = (myGang s).part ∧ r.asid = (myGang s).launch.asid ∧ r.gang = s.h.gang ∧
        r.hart = s.h.idx ∧ r.core = s.h.core ∧ r.pc = s.h.pc ∧ r.a = rx s o.xa ∧ r.b = rx s o.xb ∧
        r.due = s.h.issueCy + 100 + 60 * (s.h.core / 96) ∧ w.instr = i ∧ w.on = (if q then .query else .launch) ∧ w.reply = none) ∧
      ∀ w v, s.h.wait = some w → w.instr = i → w.reply = some v →
        ∃ t, exec (.waitComplete s.h.gang s.h.idx) s = .next t ∧ GoesOn c s t (fun h => { h with x := t.h.x, wait := none }) ∧
          XWritten o.xd v s.h.x t.h.x) ∧
    ∀ (r : Request) (n : Nat), s.requests.find? (fun x => x.n == n && x.query) = some r → r.due ≤ s.cyc →
      let key := r.part * 2 ^ 32 + r.a.toNat % 2 ^ 32
      let harts := fun g : Gang => (s.h :: s.others).filter (fun h => h.gang == g.id) ++ g.harts
      ∃ t u v, exec (.gqryArrival n) s = .next t ∧ RootAnswers s u t r v [] ∧
        u = { s with requests := u.requests, calendar := u.calendar } ∧
        ((∀ g ∈ s.gangs, g.id ≠ key) → v = 0) ∧
        ∀ g, s.gangs.filter (fun g => g.id == key) = [g] →
          (r.b = -1 → v % 2 ^ 16 = (match g.st with
              | .queued => 1 | .waiting => 2 | .placed => 3 | .running => 4 | .preempted => 5 | .draining => 6 | .retired => 7
              | .faulted => 8) ∧
            (g.live → v / 2 ^ 16 = (g.launch.nhart - ((harts g).filter (fun h => h.exit.isSome)).length) % 2 ^ 16) ∧
            (¬g.live → v / 2 ^ 16 = (g.launch.nhart - g.exited) % 2 ^ 16)) ∧
          (r.b ≠ -1 →
            (∀ h, (harts g).find? (fun h => h.idx == r.b.toNat) = some h → v = (h.exit.getD 0).toNat) ∧
            (¬g.live → harts g = [] → v = (sget 0 g.exits r.b.toNat).toNat))) ∧
 (∀ (s : State) (r : Request) (rest : List Request) (n : Nat), r.part < 4 →
    let only := s.requests = r :: rest ∧ r.query = false ∧ r.due ≤ s.cyc ∧ ∀ q ∈ rest, q.query = true ∨ s.cyc < q.due
    let key := r.part * 2 ^ 32 + r.b.toNat
    let full := fun prio => 64 ≤ (s.gangs.filter (fun g => g.part == r.part && (g.st == .queued || g.st == .waiting) &&
      g.launch.prio == prio)).length
    let pass := (s.cyc, Event.placementPass r.part)
    let at' (l : Launch) := l.preds.all (fun p => p.1 == 0) = true ∧ ∀ g ∈ s.gangs, g.part = r.part → g.st ≠ .waiting
    (only → IdRefused s r.part r.b → ∃ t u, exec (.launchArrival n) s = .next t ∧ RootAnswers s u t r 2 [] ∧
      u = { s with requests := u.requests, calendar := u.calendar }) ∧
    (only → ¬IdRefused s r.part r.b →
      let ended := (partAt s r.part).endCount
      (r.a.toNat % 64 ≠ 0 → (∀ g ∈ s.gangs, g.part = r.part → ¬g.live → ended + 1 < g.endNo + 64) →
        ∃ t u g q, exec (.launchArrival n) s = .next t ∧
        RootAnswers s u t r 0 [(s.cyc + 2000, .faultRecordDelivery s.fresh), pass] ∧ GangTaken s u r.part g ∧
        u = { s with requests := u.requests, calendar := u.calendar, gangs := u.gangs, parts := u.parts, fresh := s.fresh + 1
                     records := s.records ++ [q] } ∧
        g.id = key ∧ g.part = r.part ∧ g.st = .faulted ∧ g.endNo = ended + 1 ∧ q.cls = 0x13 ∧ q.code = 1 ∧ q.agent = 5 ∧ q.fin = true ∧ q.gang = key) ∧
      ∀ l, checkLaunch s r.part r.asid r.a.toNat r.b.toNat = .ok l →
        (full l.prio → ∃ t u, exec (.launchArrival n) s = .next t ∧ RootAnswers s u t r 1 [] ∧
          u = { s with requests := u.requests, calendar := u.calendar }) ∧
        (¬full l.prio → at' l → ∃ t u g, exec (.launchArrival n) s = .next t ∧ RootAnswers s u t r 0 [pass] ∧ GangTaken s u r.part g ∧
          u = { s with requests := u.requests, calendar := u.calendar, gangs := u.gangs, parts := u.parts } ∧
          g = { Gang.none with id := key, part := r.part, st := .queued, seq := (partAt s r.part).seq, launch := l, launchPc := r.pc
                               metDeps := l.preds.map (fun _ => true) })) ∧
    ∀ vf lid, vf < 4 →
      let on := s.bootOk = true ∧ ∃ d, d < 4 ∧ partOfDie s d = some vf
      let lres (t : State) (v : Word) := (partAt t vf).lres = v
      let asid := (partAt s vf).hasid.toNat % 2 ^ 16
      (¬on → exec (.hostLaunch vf lid) s = .next s) ∧
      (on → only → ∀ t, exec (.launchArrival n) s = .next t → exec (.hostLaunch vf lid) s = exec (.hostLaunch vf lid) t) ∧
      ((∀ q ∈ s.requests, q.query = true ∨ s.cyc < q.due) →
      (on → IdRefused s vf lid → ∃ t, exec (.hostLaunch vf lid) s = .next t ∧ t = { s with parts := t.parts } ∧ lres t 2 ∧
        ∀ p, p < 4 → partAt t p = { partAt s p with lres := (partAt t p).lres } ∧ (p ≠ vf → partAt t p = partAt s p)) ∧
      ∀ l, on → ¬IdRefused s vf lid → vf = r.part → checkLaunch s vf asid (partAt s vf).lva.toNat lid.toNat = .ok l → ¬full l.prio →
        at' l → ∃ t g, exec (.hostLaunch vf lid) s = .next t ∧ GangTaken s t vf g ∧ lres t 0 ∧
          t = { s with calendar := s.calendar ++ [pass], gangs := t.gangs, parts := t.parts } ∧
          g = { Gang.none with id := vf * 2 ^ 32 + lid.toNat, part := vf, st := .queued, seq := (partAt s vf).seq, launch := l
                               metDeps := l.preds.map (fun _ => true) }))

/-- R317, R320, R321: PLACEMENT_PASS places the only queued gang of a partition on the lowest free block, in lockstep mode at its
plan's core where the timetable classes allow it; where none is free and nothing may be pre-empted, the gang stays queued. A pass runs
only once a gang has become queued or clusters have been released.
R44, R81, R91, R165, R169, R313, R323: PROLOGUE zeroes what the gang's clusters hold, configures the tile buffers and
templates of its launch block, makes its harts, and sets TSTART to the next multiple of 64; GANG_START lets them issue. Stated for
an elastic gang that was not pre-empted. The length of the prologue is the model's choice (log 39). -/
def Obligations.PlacementAndPrologue : Prop :=
 (∀ (s : State) (g : Gang), findGang s g.id = some g → g.st = .queued → g.claim = none → g.launch.prio < 4 →
    0 < g.launch.nhart * g.launch.tph →
    s.gangs.filter (fun x => x.part == g.part && (x.st == .queued || x.st == .waiting)) = [g] →
    let passed (t : State) := ∀ p, p < 4 → partAt t p = if p = g.part then { partAt s p with passDue := false } else partAt s p
    let due := (partAt s g.part).passDue = true
    let places (c : Nat) := due → ∃ t, exec (.placementPass g.part) s = .next t ∧ passed t ∧ t = { s with
        parts := t.parts, calendar := s.calendar ++ [(s.cyc, .prologue g.id)],
        gangs := gangsWith s g.id (fun x => { x with
          st := .placed, base := 8 * c, clusters := ceilDiv (x.launch.nhart * x.launch.tph) 8, claim := none }) }
    let cls : Gang → Word := fun x => match x.launch.plan with | some p => p.cls | none => 0
    let apart := ∀ x ∈ s.gangs, x.id ≠ g.id → x.live → x.clusters ≠ 0 → x.part = g.part → x.launch.lockstep = true → cls x &&& cls g = 0
    let settled := ∀ x ∈ s.gangs, x.part = g.part → x.st = .running → g.launch.prio ≤ x.launch.prio
    let stays := due → ∃ t, exec (.placementPass g.part) s = .next t ∧ passed t ∧ t = { s with parts := t.parts }
    (¬due → exec (.placementPass g.part) s = .next s) ∧
    (g.launch.lockstep = false →
      (∀ c, BlockFree s g c → (∀ b, b < c → ¬BlockFree s g b) → places c) ∧
      ((∀ c, ¬BlockFree s g c) → settled → stays)) ∧
    ∀ p, g.launch.lockstep = true → g.launch.plan = some p →
      (BlockFree s g (p.pbase / 8) → apart → places (p.pbase / 8)) ∧
      (¬(BlockFree s g (p.pbase / 8) ∧ apart) → settled → stays)) ∧
 (∀ (s : State) (g : Gang), findGang s g.id = some g → g.st = .placed →
    let l := g.launch
    let b := g.base
    let c := b / 8
    let at' := l.img + BitVec.ofNat 64 l.entry
    let t0 := (s.cyc / 64 + 1) * 64
    (g.saved = none → l.lockstep = false → s.armed = [] → ∃ t, exec (.prologue g.id) s = .next t ∧
      t = { s with
        planes := t.planes, acc := t.acc, tables := t.tables, ramps := t.ramps, poisonLane := t.poisonLane, poisonAcc := t.poisonAcc
        mem := t.mem, poisonWord := t.poisonWord, templates := t.templates, bufs := t.bufs, cvtab := t.cvtab, icache := t.icache
        drowsy := t.drowsy, touched := t.touched, monitors := t.monitors, others := t.others
        calendar := s.calendar ++ [(t0, .gangStart g.id)]
        gangs := gangsWith s g.id (fun x => { x with tstart := t0 }) } ∧
      (∀ a, sget 0 t.mem a = if 2 ^ 40 + c * 2 ^ 24 ≤ a ∧ a < 2 ^ 40 + (c + g.clusters) * 2 ^ 24 then 0 else sget 0 s.mem a) ∧
      (∀ k, sget 0 t.planes k = if b * 2 ^ 16 ≤ k ∧ k < (b + 8 * g.clusters) * 2 ^ 16 then 0 else sget 0 s.planes k) ∧
      (∀ k, sget 0 t.acc k = if b * 2 ^ 16 ≤ k ∧ k < (b + 8 * g.clusters) * 2 ^ 16 then 0 else sget 0 s.acc k) ∧
      (∀ k, monAt t k = if 16 * b ≤ k ∧ k < 16 * (b + 8 * g.clusters) then MonUnit.init else monAt s k) ∧
      (∀ cl n, n < 64 → bufAt t cl n = if c ≤ cl ∧ cl < c + g.clusters then TileBuf.configure (l.tbs.getD n 0) else bufAt s cl n) ∧
      (l.templates = [] → ∀ k, sget 0 t.templates k =
        if c * 2 ^ 11 ≤ k ∧ k < (c + g.clusters) * 2 ^ 11 then 0 else sget 0 s.templates k) ∧
      ∃ hs, t.others = s.others ++ hs ∧ hs.length = l.nhart ∧ ∀ (k : Nat) (h : Hart), hs[k]? = some h →
        h.gang = g.id ∧ h.idx = k ∧ h.core = b + k * l.tph ∧ h.slots = l.tph ∧ h.run = .idle ∧ h.pc = at' ∧ h.next = t0 ∧
        (∀ i (p : i < 32), h.x[i] = if i = 0 then 0 else l.xinit.getD i 0) ∧
        h.csr = { Csrs.init with fold := l.foldh, tchk := l.tchk, tvec := l.tvec, rpc := at' } ∧
        ∀ n, n < 64 → (vregAt h n).kind.toNat = (l.regmap.getD n 0).toNat / 2 ^ 14 % 4 ∧ (vregAt h n).first = none) ∧
    ((∀ q ∈ s.copies, q.gang ≠ g.id) → ∃ t u, exec (.gangStart g.id) s = .next t ∧
      u = { s with gangs := gangsWith s g.id (fun x => { x with st := .running }) } ∧
      HartsChange u t (fun h => h.gang = g.id ∧ h.exit = none) (fun x y => y = { x with run := .running })))

/-- R126, R315, R316, R318, R322, R352: GANG_RETIRE, once no write of the gang travels, and GANG_FAULT_END end a gang: its record
stays, its clusters and harts are free, a faulted gang's copies, sweeps, pairs and coach operations are dropped. PREEMPTION_STOP saves a stopped gang and queues it again
with notice 0x02. What a save keeps is the model's choice (logs 10 and 40).
R349, R353, R354, R355, R356: FAULT_RECORD_DELIVERY gives the record to the gang's mailbox where that has room, and interrupts
the gang's harts; else, without a conductor, to the host fault log, with ESC where the mailbox refused. Stated for the only record
of its cy and a mailbox on plain pages. The mailbox is reached from the partition's lowest die by the model's choice (log 42). -/
def Obligations.GangEndsAndRecords : Prop :=
 (∀ (s : State) (g : Gang), findGang s g.id = some g →
    (g.st = .draining → g.ending = false →
      ((∀ r ∈ s.replicas, r.gang ≠ g.id) → ∃ t, exec (.gangRetire g.id) s = .next t ∧ GangEnds s t g .retired ∧
        t = { s with h := t.h, others := t.others, gangs := t.gangs, parts := t.parts
                     calendar := s.calendar ++ [(s.cyc, .placementPass g.part)] }) ∧
      ((∃ r ∈ s.replicas, r.gang = g.id) → exec (.gangRetire g.id) s = .next { s with
        calendar := s.calendar ++ [(s.cyc + 1, .gangRetire g.id)] })) ∧
    (g.ending = true → ∃ t, exec (.gangFaultEnd g.id) s = .next t ∧ GangEnds s t g .faulted ∧
      t = { s with h := t.h, others := t.others, gangs := t.gangs, parts := t.parts, calendar := t.calendar
                   copies := s.copies.filter (fun q => q.gang != g.id), sweeps := s.sweeps.filter (fun w => w.gang != g.id)
                   bins := s.bins.filter (fun p => p.gang != g.id), coachOps := s.coachOps.filter (fun o => o.gang != g.id) } ∧
      (s.cyc, .placementPass g.part) ∈ t.calendar) ∧
    (g.st = .preempted → g.preempt = true → preemptReady s g = true → ∃ t v, exec (.preemptionStop g.id) s = .next t ∧
      (∃ e ∈ t.gangs, e.id = g.id ∧ e.st = .queued ∧ e.clusters = 0 ∧ e.seq = g.seq ∧ e.saved = some v ∧ e.preempt = false) ∧
      (∃ u, Noticed s u g 2 5 0xffff 0 ∧ t.msgs = u.msgs ∧
        ∀ p, p < 4 → partAt t p = if p = g.part then { partAt u p with passDue := true } else partAt u p) ∧
      (∀ a, sget 0 v.scratch a = if a < g.clusters * 2 ^ 24 then sget 0 t.mem (2 ^ 40 + g.base / 8 * 2 ^ 24 + a) else 0) ∧
      (∀ k, sget 0 v.acc k = if k < 8 * g.clusters * 2 ^ 16 then sget 0 t.acc (g.base * 2 ^ 16 + k) else 0) ∧
      v.copies.length = (s.copies.filter (fun q => q.gang == g.id)).length ∧ v.stopCy = g.haltCy ∧
      t.copies = s.copies.filter (fun q => q.gang != g.id) ∧
      (s.cyc, .placementPass g.part) ∈ t.calendar)) ∧
 (∀ (s : State) (r : Record), s.records.filter (fun x => x.cyc == r.cyc) = [r] →
    let left := s.records.filter (fun x => x.n != r.n)
    let condgang := (partAt s r.part).condgang % 2 ^ 32
    let logged (esc : Bool) := ∃ t, exec (.faultRecordDelivery r.n) s = .next t ∧ HostLogged s t r.part (recordDwords r esc) ∧
      t = { s with records := left, parts := t.parts, msgs := t.msgs }
    s.records.find? (fun x => x.n == r.n) = some r →
    (condgang = 0 → (r.live = false ∨ r.mbox = none) → logged false) ∧
    ∀ mbox asid, r.live = true → r.mbox = some (mbox, asid) →
      let w : Who := ⟨r.part, asid, lowestDie s r.part⟩
      let a := mbox.toNat
      let d := fun q => vnum s w q 8
      let cap := d (a + 8) % 2 ^ 16
      let used := (d a + 2 ^ 64 - d (a + 16)) % 2 ^ 64
      let slot := a + 64 + 64 * (d a % cap)
      let takes := fun h : Hart => h.gang == r.gang && h.exit.isNone && (h.csr.status.getLsbD 0 || h.csr.status.getLsbD 2)
      let due := fun h : Hart => { h with irqs := h.irqs ++ [⟨r.cls, r.code, BitVec.ofNat 64 slot⟩] }
      (a = 0 → condgang = 0 → logged true) ∧
      (a % 64 = 0 → a ≠ 0 → PlainVa s w (line a) → cap ≤ used → condgang = 0 → logged true) ∧
      (a % 64 = 0 → a ≠ 0 → used < cap → PlainVa s w (fun x => line a x ∨ line slot x) →
        ∃ t u, exec (.faultRecordDelivery r.n) s = .next t ∧
          u = { s with records := left, mem := u.mem, caches := u.caches, calendar := u.calendar
                       gangs := gangsWith s r.gang (fun g => { g with harts := g.harts.map (fun h => if takes h then due h else h) }) } ∧
          DwordsBecome s u w (fun x => line a x ∨ line slot x) (fun q =>
            if q = a then (d a + 1) % 2 ^ 64
            else if slot ≤ q ∧ q < slot + 64 then ((recordDwords r false).getD ((q - slot) / 8) 0).toNat
            else d q) ∧
          HartsChange u t (fun h => takes h = true) (fun x y => y = due x) ∧
          ((∀ h ∈ s.h :: s.others, h.gang = r.gang → h.wait = none ∧ h.run ≠ .held) → u.calendar = s.calendar) ∧
          ∀ h ∈ s.h :: s.others, h.gang = r.gang → h.csr.status.getLsbD 0 = true → (h.run = .held ∨ h.wait ≠ none) →
            (s.cyc, .waitRelease r.gang h.idx) ∈ u.calendar))

/-- R310, R360, R372, R373, R374, R388: TIMING_TRAP, where a hart of a lockstep gang waits in GBAR up to the
cy by which the last had to arrive (log 37) and one has not, holds the gang and traps all that wait there, a notice each;
TIMING_CONDITION_MET notes a condition and, once the cy of the trap is over, moves TSTART by the least whole number of periods that lets the hart restart 8 cy after its condition and its
last landing; TIMING_RESTART issues RPC with the copies; WAIT_RELEASE sends a waiting elastic hart with an interrupt to RPC. The
calendar is the model's (log 4), and the copies in a hold follow log 41. -/
def Obligations.TimingTrapAndRestart : Prop :=
  ∀ (s : State) (g : Gang) (h : Hart) (k : Nat), findGang s g.id = some g → findHart s g.id k = some h →
    let is := fun x : Hart => x.gang = g.id ∧ x.idx = k
    let back := fun (x : Hart) => { x with
      x := x.restart.x, gens := x.restart.gens, pc := x.csr.rpc, wait := none, stepAt := 0, next := s.cyc
      part := none, timed := false, swapPaid := false, lateX := []
      csr := { x.restart.csr with vl := x.csr.vl, rlen := x.csr.rlen, rows := x.csr.rows, tiles := x.csr.tiles, fold := x.csr.fold
                                  rpc := x.csr.rpc } }
    let period := match g.launch.lockstep, g.launch.plan with | true, some p => p.period | _, _ => 64
    let atBarrier := fun x : Hart => x.gang = g.id ∧ x.wait.any (fun w => w.on == .gbar) = true
    let holds (u : State) (ks : List Nat) := u = { s with
      gangs := gangsWith s g.id (fun x => { x with hold := some ⟨s.cyc, ks, [], 0⟩ }), parts := u.parts, msgs := u.msgs }
    let missing := ∃ x ∈ s.h :: s.others, x.gang = g.id ∧ ¬atBarrier x ∧ x.exit = none
    (h.run = .running → g.hold = none → g.launch.lockstep = true → atBarrier h → barrierSlot g h ≤ s.cyc → missing →
      ((s.h :: s.others).map (fun x => (x.gang, x.idx))).Nodup → ∃ t u ks, exec (.timingTrap g.id k) s = .next t ∧
        holds u ks ∧ (∀ j, j ∈ ks ↔ ∃ x ∈ s.h :: s.others, atBarrier x ∧ x.idx = j) ∧ u.msgs.length = s.msgs.length + ks.length ∧
        HartsChange u t atBarrier (fun x y => y = { x with run := .held, arrived := x.arrived - 1 })) ∧
    ((g.launch.lockstep = false ∨ h.run ≠ .running ∨ ¬atBarrier h ∨ s.cyc < barrierSlot g h ∨ ¬missing) →
      exec (.timingTrap g.id k) s = .next s) ∧
    (∀ c0 sh, g.hold = some ⟨c0, [k], [], sh⟩ → h.wait = none → 0 < s.cyc → (∀ x ∈ h.accesses, x.read = true → x.upto ≤ s.cyc) →
      c0 = s.cyc → exec (.timingConditionMet g.id k) s = .next { s with
        gangs := gangsWith s g.id (fun x => { x with hold := some ⟨c0, [k], [(k, s.cyc)], sh⟩ }) }) ∧
    (∀ c0 sh, g.hold = some ⟨c0, [k], [], sh⟩ → h.wait = none → c0 < s.cyc → 0 < period →
      (∀ x ∈ h.accesses, x.read = true → x.upto ≤ s.cyc) →
      (s.h :: s.others).filter (isHart g.id k) = [h] →
      ∃ t D x, exec (.timingConditionMet g.id k) s = .next t ∧ findHart t g.id k = some x ∧
        D % period = 0 ∧ max s.cyc h.lastLand + 8 ≤ h.restart.cy + D ∧
        (∀ E, E % period = 0 → max s.cyc h.lastLand + 8 ≤ h.restart.cy + E → D ≤ E) ∧
        (gangOf t g.id).hold = none ∧ (gangOf t g.id).tstart = g.tstart + D ∧ (gangOf t g.id).st = g.st ∧
        x = { h with wait := none, exposed := [], reading := [], next := h.restart.cy + D } ∧
        (h.restart.cy + D, .timingRestart g.id k) ∈ t.calendar ∧
        t = { s with h := t.h, others := t.others, gangs := t.gangs, calendar := t.calendar, copies := t.copies, touched := t.touched
                     ramps := t.ramps, engines := t.engines, sweeps := t.sweeps }) ∧
    (g.hold = none → h.run = .held → h.next ≤ s.cyc → ∃ t, exec (.timingRestart g.id k) s = .next t ∧
      HartsChange s t is (fun x y => y = { back x with run := .running })) ∧
    (h.irqs ≠ [] → h.csr.status.getLsbD 0 = true → g.launch.lockstep = false → h.run = .running →
      (h.wait.any (fun w => w.on == .twait || w.on == .waitm || w.on == .mwait || w.on == .exit) = true →
        ∃ t, exec (.waitRelease g.id k) s = .next t ∧ HartsChange s t is (fun x y => y = back x)) ∧
      (h.wait = none → exec (.waitRelease g.id k) s = .next s)) ∧
    (h.irqs = [] → exec (.waitRelease g.id k) s = .next s)

/-- R361, R415, R416, R419, R420, R424: CORRECTED_WRITEBACK counts a row's or bank's corrections in a window of 2^30 cy and fails
a lane row at the 16th; UNCORRECTED_ERROR poisons the place, records class 0x12 with the code of its space and fails a lane row;
one in a scalar register ends the gang. How corrections are counted is the model's reading (log 46).
R335, R361: THERMAL_STALL marks a die above 95 °C, or with index 4 every die of a module above 1,900 W, and THERMAL_STALL_END
takes that mark away, the die's or the module's; a die at 110 °C, and the dies beyond a lost edge, leave service with their records, and every gang on them
ends; nothing else changes. Units, and the codes of the records, are the model's reading (log 47). -/
def Obligations.StorageThermalAndDieStops : Prop :=
 (∀ (s : State) (space addr : Nat),
    let unit := if space = 0 then addr / 4096 else addr
    let key := space * 2 ^ 64 + unit
    let times := (sget [] s.corrections key).filter (fun t => decide (s.cyc ≤ t + 2 ^ 30)) ++ [s.cyc]
    let fails := space = 0 ∧ 16 ≤ times.length ∧ sget false s.failedRows unit = false
    let quiet := ∀ g ∈ s.gangs, g.ending = false
    let codes (t : State) (cs : List (BitVec 8)) := (t.records.drop s.records.length).map (fun r => (r.cls, r.code, r.agent)) =
      cs.map (fun c => (0x12, c, 6)) ∧ t.records.take s.records.length = s.records
    (quiet → ∃ t, exec (.correctedWriteback space addr) s = .next t ∧
      t = { s with corrections := t.corrections, failedRows := t.failedRows, records := t.records, fresh := t.fresh
                   calendar := t.calendar } ∧
      (∀ k, sget [] t.corrections k = if k = key then times else sget [] s.corrections k) ∧
      (∀ k, sget false t.failedRows k = (sget false s.failedRows k || decide (fails ∧ k = unit))) ∧ codes t (if fails then [7] else [])) ∧
    (quiet → space < 4 → ∃ t, exec (.uncorrectedError space addr) s = .next t ∧
      t = { s with poisonLane := t.poisonLane, poisonWord := t.poisonWord, poisonAcc := t.poisonAcc, poisonHbm := t.poisonHbm
                   failedRows := t.failedRows, records := t.records, fresh := t.fresh, calendar := t.calendar, free := s.free + 1 } ∧
      (∀ k, sget false t.poisonLane k = (sget false s.poisonLane k || decide (space = 0 ∧ k = addr))) ∧
      (∀ k, sget false t.poisonWord k = (sget false s.poisonWord k || decide (space = 1 ∧ k = addr))) ∧
      (∀ k, sget false t.poisonAcc k = (sget false s.poisonAcc k || decide (space = 2 ∧ k = addr))) ∧
      (∀ k, sget false t.poisonHbm k = (sget false s.poisonHbm k || decide (space = 3 ∧ k = addr))) ∧
      (∀ k, sget false t.failedRows k = (sget false s.failedRows k || decide (space = 0 ∧ k = addr / 4096))) ∧
      codes t (if space = 0 then (if sget false s.failedRows (addr / 4096) then [1] else [1, 7]) else [BitVec.ofNat 8 (space + 1)])) ∧
    (s.h.gang ≠ 0 → s.h.core ≤ addr → addr < s.h.core + s.h.slots → ∃ t u, exec (.uncorrectedError 5 addr) s = .next t ∧
      u = { s with free := s.free + 1 } ∧ EndsGang 6 0x12 8 0 u t)) ∧
 (∀ (s : State) (die reading edge : Nat),
    let on := fun (g : Gang) (d : Nat) => g.live ∧ ∃ c, c < 48 ∧ c / 12 = d ∧ g.clusters ≠ 0 ∧ g.base / 8 ≤ c ∧ c < g.base / 8 + g.clusters
    let stops (i : Instr) (out : Nat → Prop) (code : BitVec 8) := ∃ t, exec i s = .next t ∧
      t = { s with gangs := t.gangs, records := t.records, fresh := t.fresh, calendar := t.calendar, diesOut := t.diesOut } ∧
      (∀ d, d ∈ t.diesOut ↔ d ∈ s.diesOut ∨ (d < 4 ∧ out d)) ∧
      (∀ g, findGang s g.id = some g → ((gangOf t g.id).ending = true ↔
        g.ending = true ∨ ∃ d, d < 4 ∧ out d ∧ d ∉ s.diesOut ∧ ∃ x ∈ s.gangs, x.id = g.id ∧ on x d)) ∧
      (∀ r ∈ t.records.drop s.records.length, r.cls = 0x16 ∧ r.code = code ∧ r.agent = 7) ∧
      t.records.take s.records.length = s.records ∧
      ∀ d, d < 4 → out d → d ∉ s.diesOut →
        ∃ r ∈ t.records.drop s.records.length, r.gang = 0 ∧ r.pkg = 0 ∧ r.addr = BitVec.ofNat 64 d ∧ ∀ p, partOfDie s d = some p → r.part = p
    (die < 4 → 950 < reading → ∃ t, exec (.thermalStall die reading) s = .next t ∧
      t = { s with stalled := t.stalled } ∧ ∀ d, d ∈ t.stalled ↔ d ∈ s.stalled ∨ d = die) ∧
    (4 ≤ die → 1900 < reading → exec (.thermalStall die reading) s = .next { s with powerStalled := [0, 1, 2, 3] }) ∧
    ((if die < 4 then reading ≤ 950 else reading ≤ 1900) → exec (.thermalStall die reading) s = .next s) ∧
    (die < 4 → ∃ t, exec (.thermalStallEnd die) s = .next t ∧ t = { s with stalled := t.stalled } ∧
      ∀ d, d ∈ t.stalled ↔ d ∈ s.stalled ∧ d ≠ die) ∧
    (4 ≤ die → exec (.thermalStallEnd die) s = .next { s with powerStalled := [] }) ∧
    (1100 ≤ reading → stops (.dieStopTemperature die reading) (fun d => d = die) 1) ∧
    (reading < 1100 → exec (.dieStopTemperature die reading) s = .next s) ∧
    stops (.ucieEdgeLoss edge) (fun d => edge < d) 2)

/-- R333, R334: FIRMWARE_BOOT runs an image only with a signature under the fused key and extends its measurement; otherwise the
module is in recovery and stays there. ATTESTATION_REPORT uses each counter value once and refuses an exhausted counter. That a report shows the
counter as advanced is the model's reading (log 62). Which register is extended, and how, is the model's choice (log 61).
R19, R96, R99, R102, R326, R329, R390: LOCK puts the leaf that the walk finds into the locked table, which stays at 4,096 entries for
the unit beside each stack; UNLOCK takes the page's entries out; PAGE_INVALIDATE drops the page's lines and translations, ends once the walks that read the old
entry are over, and is refused for a pinned page; MIGRATE sets MIG in the leaf, and each
MIGRATION_CHUNK_COPY moves 512 bytes to the new frame, after the last of which the leaf names that frame. Stated without parked
chunks and for a plain leaf. When a command ends, and the cy of each chunk, are the model's choice (log 43). -/
def Obligations.BootAndTranslationCommands : Prop :=
 (∀ (s : State) (image key sig : List Byte) (nonce : BitVec 256),
    let good := s.bootFailed = false ∧ digest key = s.fuseKey ∧ hssAccepts image key sig = true
    let bytes := fun (n : Nat) (v : Nat) => (List.range n).map (fun i => BitVec.ofNat 8 (v / 256 ^ i))
    let report := s.measures.toList.flatMap (fun m => bytes 32 m.toNat) ++ bytes 32 nonce.toNat ++ bytes 8 s.dieMap.toNat ++
      bytes 8 (s.attCount + 1)
    (good → ∃ t j, exec (.firmwareBoot image key sig) s = .next t ∧ t = { s with bootOk := true, measures := t.measures } ∧ j < 8 ∧
      (∀ k (h : k < 8), k ≠ j → t.measures[k] = s.measures[k]) ∧
      ∀ h : j < 8, t.measures[j] = digest (bytes 32 s.measures[j].toNat ++ bytes 32 (digest image).toNat) ∧
        (∀ k (p : k < 8), k < j → s.measures[k] ≠ 0) ∧ (s.measures[j] = 0 ∨ j = 7)) ∧
    (s.bootFailed = false → ¬good → exec (.firmwareBoot image key sig) s = .next { s with bootOk := false, bootFailed := true }) ∧
    (s.bootFailed = true → exec (.firmwareBoot image key sig) s = .next s) ∧
    (s.attCount < 2 ^ 40 → exec (.attestationReport nonce) s = .next
      { s with attCount := s.attCount + 1, hostData := s.hostData ++ [report ++ Config.hssSign s.attCount report] }) ∧
    (2 ^ 40 ≤ s.attCount → exec (.attestationReport nonce) s = .next s)) ∧
 (∀ (s : State) (vf : Nat) (cmd arg : Word), vf < 4 → s.copies = [] → s.bins = [] → s.armed = [] → s.poisonHbm = [] →
    let on := s.bootOk = true ∧ ∃ d, d < 4 ∧ partOfDie s d = some vf
    let free := (partAt s vf).xrun = none ∨ (partAt s vf).xrun = some (cmd, arg)
    let va := cmd.toNat % 2 ^ 52 / 2 ^ 16 * 2 ^ 16
    let asid := arg.toNat % 2 ^ 16
    let frame := arg.toNat % 2 ^ 48 / 2 ^ 16 * 2 ^ 16
    let key := fun lv => lockKey vf asid lv va
    let pinned := sget 0 s.locked (key 1) ≠ 0 ∨ sget 0 s.locked (key 2) ≠ 0
    let unit := fun e : Word => e.toNat / 2 ^ 36 % 2 ^ 12
    let entries := fun leaf => (s.locked.filter (fun e => unit e.2 == unit leaf)).length
    let mig := match leafOf s vf asid va with | .ok (leaf, _) => leaf.getLsbD 62 = true | .error _ => False
    let mine := fun tag : Nat =>
      let k := (tag - 1) / 2
      let size := if (tag - 1) % 2 = 0 then 2 ^ 24 else 2 ^ 16
      k / 2 ^ 17 % 8 == vf && (k % 2 ^ 17 == asid || k % 2 ^ 17 == 2 ^ 16) && k / 2 ^ 20 * 512 / size == va / size
    let now (t : State) (f : Part → Part) := ∀ p, p < 4 → partAt t p = if p = vf
      then f { partAt s p with xarg := arg &&& 0x0000ffffffffffff } else partAt s p
    let ends (i : Instr) (st : Word) (P : State → Prop) := ∃ t, exec i s = .next t ∧ P t ∧
      now t (fun p => { p with xcmd := st, xrun := none }) ∧
      t = { s with parts := t.parts, locked := t.locked, mem := t.mem, migrations := t.migrations, fresh := t.fresh
                   calendar := t.calendar, caches := t.caches }
    let kept := fun t : State => t.locked = s.locked ∧ t.mem = s.mem ∧ t.migrations = s.migrations ∧ t.fresh = s.fresh
    let same := fun t : State => kept t ∧ t.calendar = s.calendar ∧ t.caches = s.caches
    let dropped := fun t : State => kept t ∧ t.caches.walks = s.caches.walks ∧
      ∀ p ∈ [(s.caches.tags, t.caches.tags), (s.caches.sets, t.caches.sets), (s.caches.tlb, t.caches.tlb)],
        (p.1.map (fun e => e.1)).Nodup → ∀ k, sget [] p.2 k = (sget [] p.1 k).filter (fun x => !mine x)
    (∀ i ∈ [Instr.lock vf cmd arg, .unlock vf cmd arg, .pageInvalidate vf cmd arg, .migrate vf cmd arg],
      ¬(on ∧ free) → exec i s = .next s) ∧
    (on → free →
      (∀ leaf at' lv, walk s vf asid va = .ok (leaf, at', lv) →
        (sget 0 s.locked (key lv) = 0 → entries leaf < 4096 → ends (.lock vf cmd arg) 1 (fun t =>
          (∀ k, sget 0 t.locked k = if k = key lv then leaf else sget 0 s.locked k) ∧ t.mem = s.mem ∧
          t.migrations = s.migrations ∧ t.calendar = s.calendar ∧ t.fresh = s.fresh ∧ t.caches = s.caches)) ∧
        (sget 0 s.locked (key lv) = 0 → 4096 ≤ entries leaf → ends (.lock vf cmd arg) 2 same) ∧
        (sget 0 s.locked (key lv) ≠ 0 → ends (.lock vf cmd arg) 1 same) ∧
        (leaf.getLsbD 62 = true → ends (.migrate vf cmd arg) 2 same) ∧
        (leaf.getLsbD 62 = false → leaf.getLsbD 61 = false → lv = 2 → s.migrations = [] → frame + 2 ^ 16 ≤ 2 ^ 39 →
          ends (.migrate vf cmd arg) 1 (fun t => t.locked = s.locked ∧ t.fresh = s.fresh + 1 ∧ t.caches = s.caches ∧
            t.calendar = s.calendar ++ [(s.cyc + 1, .migrationChunkCopy s.fresh)] ∧
            t.migrations = [⟨s.fresh, vf, asid, va, at', leaf.toNat / 2 ^ 16 % 2 ^ 32 * 2 ^ 16, frame, 0, 128, decide pinned⟩] ∧
            IsDword t at' (leaf ||| 0x4000000000000000) ∧ ∀ a, (a < at' ∨ at' + 8 ≤ a) → sget 0 t.mem a = sget 0 s.mem a))) ∧
      ends (.unlock vf cmd arg) 1 (fun t =>
        (∀ k, sget 0 t.locked k = if k = key 1 ∨ k = key 2 then 0 else sget 0 s.locked k) ∧ t.mem = s.mem ∧
        t.migrations = s.migrations ∧ t.calendar = s.calendar ∧ t.fresh = s.fresh ∧ t.caches = s.caches) ∧
      (s.migrations = [] → (pinned ∨ mig → ends (.pageInvalidate vf cmd arg) 2 same) ∧
        (¬pinned → ¬mig →
          ((∀ w ∈ s.caches.walks, mine w.2.2 = true → w.2.1 ≤ s.cyc) → ends (.pageInvalidate vf cmd arg) 1 (fun t =>
            dropped t ∧ t.calendar = s.calendar)) ∧
          ∀ w ∈ s.caches.walks, mine w.2.2 = true → s.cyc < w.2.1 → ∃ t T, exec (.pageInvalidate vf cmd arg) s = .next t ∧
            t = { s with parts := t.parts, caches := t.caches, calendar := s.calendar ++ [(T, .pageInvalidate vf cmd arg)] } ∧
            w.2.1 ≤ T ∧ now t (fun p => { p with xcmd := 0, xrun := some (cmd, arg) }) ∧ dropped t))) ∧
    ∀ m : Migration, s.migrations = [m] → m.m + 1 < m.chunks →
      let src := m.oldPa + 512 * m.m
      let dst := m.newPa + 512 * m.m
      ∃ t, exec (.migrationChunkCopy m.n) s = .next t ∧
        t = { s with mem := t.mem, caches := t.caches, migrations := [{ m with m := m.m + 1 }], stamps := t.stamps
                     replicas := s.replicas.map (fun r => if src ≤ r.pa ∧ r.pa < src + 512 then { r with pa := r.pa - src + dst } else r)
                     calendar := s.calendar ++ [(s.cyc + 1, .migrationChunkCopy m.n)] } ∧
        (s.stamps = [] → t.stamps = []) ∧ t.caches.tlb = s.caches.tlb ∧ t.caches.walks = s.caches.walks ∧
        (∀ k, sget [] t.caches.tags k = if k = src / 512 ∨ k = dst / 512 then [] else sget [] s.caches.tags k) ∧
        ∀ a, sget 0 t.mem a = if dst ≤ a ∧ a < dst + 512 then sget 0 s.mem (src + (a - dst)) else sget 0 s.mem a)

/-- R91, R326, R327, R328, R330, R331, R356, R357, R389, R394: what the host's stores to DIEMAP, SHARE, the log counts, the plain
registers, the mailbox window and a tile buffer leave, and what BAR2 reads and writes. The cy in which an assignment ends is the
model's choice (log 44), and so is the die at which BAR2 enters (log 42). -/
def Obligations.HostRegistersAndWindows : Prop :=
  ∀ (s : State) (vf off n : Nat) (v : Word), vf < 4 →
    let on := s.bootOk = true ∧ ∃ d, d < 4 ∧ partOfDie s d = some vf
    let dies := fun (m : Word) p => (List.range 4).filter (fun d => m.toNat / 16 ^ d % 16 / 8 == 1 && m.toNat / 16 ^ d % 16 % 4 == p)
    let map := v &&& 0xbbbb
    let shape := fun ds : List Nat => ds = [] ∨ ds.length = 1 ∨ ds = [0, 1] ∨ ds = [2, 3] ∨ ds = [0, 1, 2, 3]
    let may := (∀ p, p < 4 → shape (dies map p)) ∧
      ∀ g ∈ s.gangs, g.part < 4 → g.live → dies map g.part = dies s.dieMap g.part
    let share := fun k => v.toNat / 256 ^ k % 32
    let status (t : State) (st : Word) := t.dieStat = st ∧ t.msgs = s.msgs ++ (if s.dieStat = st then [] else [message s 4 0])
    let part (i : Instr) (p : Nat) (f : Part → Part) := ∃ t, exec i s = .next t ∧ t = { s with parts := t.parts } ∧
      ∀ q, q < 4 → partAt t q = if q = p then f (partAt s q) else partAt s q
    let reg (off : Nat) (f : Part → Part) := part (.registerWrite false vf off v) vf f
    let w : Who := ⟨vf, (partAt s vf).hasid.toNat % 2 ^ 16, lowestDie s vf⟩
    let a := (partAt s vf).hwbase.toNat + off
    let win := dieBase (lowestDie s vf) + 0x03ff0000 + off / 8 * 8
    let logged := fun t : State => t.msgs = s.msgs ++ [message s vf 1] ∧ sget 0 (partAt t vf).log 0 = sget 0 (partAt s vf).log 0 + 1
    (may → ∃ t, exec (.diemapWrite v) s = .next t ∧ status t 1 ∧
      t = { s with dieChange := some map, dieStat := 1, msgs := t.msgs, calendar := s.calendar ++ [(s.cyc + 1, .dieAssignmentDone)] }) ∧
    (¬may → ∃ t, exec (.diemapWrite v) s = .next t ∧ status t 2 ∧ t = { s with dieStat := 2, msgs := t.msgs }) ∧
    (∀ m, s.dieChange = some m → ∃ t, exec .dieAssignmentDone s = .next t ∧ status t 0 ∧
      t = { s with dieMap := m, dieChange := none, dieStat := 0, msgs := t.msgs }) ∧
    (share 0 + share 1 + share 2 + share 3 ≤ 16 → ∃ t, exec (.shareWrite v) s = .next t ∧
      t = { s with shareReg := v &&& 0x1f1f1f1f, copies := t.copies, calendar := t.calendar } ∧
      ((∀ q ∈ s.copies, q.kind ≠ 6) → t.copies = s.copies ∧ t.calendar = s.calendar)) ∧
    (16 < share 0 + share 1 + share 2 + share 3 → exec (.shareWrite v) s = .next s) ∧
    (∀ i k, (i, k) ∈ [(Instr.logclrVcount vf, 0), (.logclrFcount vf, 0x100)] → ∃ t, exec i s = .next t ∧ t = { s with parts := t.parts } ∧
      ∀ q j, q < 4 → sget 0 (partAt t q).log j = (if q = vf ∧ j = k then 0 else sget 0 (partAt s q).log j) ∧
        partAt t q = { partAt s q with log := (partAt t q).log }) ∧
    (¬on → exec (.registerWrite false vf off v) s = .next s ∧ exec (.mailboxWindowWrite vf off v) s = .next s ∧
      exec (.bar2Read vf off n) s = .next s ∧ ∀ bs, exec (.bar2Write vf off bs) s = .next s) ∧
    (on → reg 0 (fun p => { p with lva := v }) ∧ reg 0x1000 (fun p => { p with rpt := v }) ∧
      reg 0x1008 (fun p => { p with hasid := v &&& 0xffff }) ∧ reg 0x1010 (fun p => { p with hwbase := v &&& ~~~0xffff#64 }) ∧
      reg 0x3008 (fun p => { p with xarg := v &&& 0x0000ffffffffffff }) ∧
      (∃ t, exec (.registerWrite false vf 8 v) s = .next t ∧
        t = { s with parts := t.parts, calendar := s.calendar ++ [(s.cyc, .hostLaunch vf v)] } ∧
        ∀ q, q < 4 → partAt t q = if q = vf then { partAt s q with lres := 0xff } else partAt s q) ∧
      (∀ k, k < 256 → ∃ t, exec (.registerWrite false vf (0x2000 + 8 * k) v) s = .next t ∧ t = { s with parts := t.parts } ∧
        ∀ q j, q < 4 → sget 0 (partAt t q).region j = (if q = vf ∧ j = k then v &&& 0xf0000fffffffffff else sget 0 (partAt s q).region j) ∧
          partAt t q = { partAt s q with region := (partAt t q).region }) ∧
      (off < 0x10000 → s.armed = [] → s.poisonWord = [] → ∃ t, exec (.mailboxWindowWrite vf off v) s = .next t ∧
        t = { s with mem := t.mem, writers := t.writers } ∧ IsDword t win v ∧ ∀ p, (p < win ∨ win + 8 ≤ p) → sget 0 t.mem p = sget 0 s.mem p) ∧
      (4096 < n → exec (.bar2Read vf off n) s = .next s) ∧
      (∀ bs : List Byte, 512 < bs.length → exec (.bar2Write vf off bs) s = .next s) ∧
      (s.replicas = [] → off + n ≤ 2 ^ 36 → a + n ≤ 2 ^ 64 → PlainVa s w (fun x => a ≤ x ∧ x < a + n) →
        (n ≤ 4096 → ∃ t, exec (.bar2Read vf off n) s = .next t ∧ t = { s with
          caches := t.caches, hostData := s.hostData ++ [(List.range n).map (fun k => vbyte s w (a + k))] }) ∧
        ∀ bs : List Byte, bs.length = n → n ≤ 512 → ∃ t, exec (.bar2Write vf off bs) s = .next t ∧
          t = { s with mem := t.mem, caches := t.caches } ∧
          VaBecomes s t w (fun x => a ≤ x ∧ x < a + n) (fun x => bs.getD (x - a) 0)) ∧
      (s.replicas = [] → off + 1 ≤ 2 ^ 36 → a < 2 ^ 64 → s.migrations = [] → ∀ x, translate s vf w.asid w.die a true = .error x →
        x.code ≤ 5 → ∀ b, ∃ t, exec (.bar2Write vf off [b]) s = .next t ∧ t = { s with parts := t.parts, msgs := t.msgs } ∧ logged t) ∧
      (s.replicas = [] → off + 1 ≤ 2 ^ 36 → a < 2 ^ 64 → s.migrations = [] → ∀ x, translate s vf w.asid w.die a false = .error x → x.code ≤ 5 →
        ∃ t, exec (.bar2Read vf off 1) s = .next t ∧
          t = { s with parts := t.parts, msgs := t.msgs, hostData := s.hostData ++ [[]] } ∧ logged t)) ∧
    (∀ k, k < 4 → part (.registerWrite true vf (0x120 + 8 * k) v) k (fun p => { p with condgang := v.toNat % 2 ^ 32 })) ∧
    (∀ k, k < 8 → ∃ t, exec (.registerWrite true vf (0x1008 + 8 * k) v) s = .next t ∧ t = { s with dbgData := t.dbgData } ∧
      ∀ j (h : j < 8), t.dbgData[j] = if j = k then v else s.dbgData[j]) ∧
    ∀ cl tb dw, tb < 64 →
      let b := bufAt s cl tb
      let only (t : State) := t = { s with bufs := t.bufs } ∧ ∀ c m, m < 64 → (c ≠ cl ∨ m ≠ tb) → bufAt t c m = bufAt s c m
      (∃ t, exec (.tbConfigWrite cl tb v) s = .next t ∧ only t ∧
        let x := bufAt t cl tb
        x.ltag = 0 ∧ x.mix = false ∧ x.chk = false ∧ x.landed = 0 ∧ ∀ j, j < 64 → x.cfg.getLsbD j = (v.getLsbD j &&
          (decide (j < 25) || decide (j = 30) || decide (48 ≤ j) ||
            decide (j = 31 ∧ v.toNat % 2 ^ 15 + (v.toNat / 2 ^ 15 % 1024 + 1) ≤ 32768)))) ∧
      (dw < 16 → ∃ t, exec (.tbLandedClear cl tb dw v) s = .next t ∧ only t ∧
        bufAt t cl tb = { b with landed := (bufAt t cl tb).landed } ∧
        ∀ j, j < 1024 → (bufAt t cl tb).landed.getLsbD j = (b.landed.getLsbD j && !(decide (j / 64 = dw) && v.getLsbD (j % 64))))

/-- R374, R421, R422: HALT, RUN, STEP and QUIESCE of a placed gang: what stops, resumes or issues once, the refusals, and DBGCMD
with its message; a halt writes its notice, and the arrays' ramps stand while it lasts. Stated for a gang without copies, RUN for an elastic one. Refusals that R421 leaves open follow log 45.
R361, R419, R420, R421, R423, R424: READV, READX and WRITEX of a placed gang's hart, UNFENCE of a failed row, and INJECT: what
the data dwords, the hart, the failed rows and the armed errors become. The outcome of the self-test is free, and INJECT's address
read as log 46 says; the other refusals are log 45. -/
def Obligations.DebugCommands : Prop :=
 (∀ (s : State) (gang hart : Nat), s.dbgCmd.getLsbD 63 = false → (∀ q ∈ s.copies, q.gang ≠ gang) →
    let cmd := fun (op hart : Nat) (top : Nat) => BitVec.ofNat 64 (top * 2 ^ 60 + hart % 2 ^ 16 * 2 ^ 16 + op)
    let finished (op hart : Nat) (refused : Bool) := { s with
      dbgCmd := cmd op hart (if refused then 1 else 0), dbgGang := BitVec.ofNat 64 (gang % 2 ^ 32), msgs := s.msgs ++ [message s 4 1] }
    let begun (op hart : Nat) := { s with dbgCmd := cmd op hart 8, dbgGang := BitVec.ofNat 64 (gang % 2 ^ 32) }
    let harts := (s.h :: s.others).filter (fun h => h.gang == gang)
    let left := harts.filter (fun h => h.exit.isNone && h.run != .stopped)
    let halted := left ≠ [] ∧ ∀ h ∈ left, h.run = .halted
    ((∀ g, findGang s gang = some g → g.clusters = 0 ∧ g.haltPending = false) →
      exec (.halt gang) s = .next (finished 1 0 true) ∧ exec (.run gang) s = .next (finished 2 0 true) ∧
      exec (.step gang hart) s = .next (finished 3 hart true) ∧ exec (.quiesce gang) s = .next (finished 4 0 true)) ∧
    ∀ g, findGang s gang = some g → g.clusters ≠ 0 →
      let may := (g.st = .running ∨ g.st = .draining) ∧ g.hold = none ∧ ∀ h ∈ harts, h.run ≠ .held
      (g.haltPending = false → may → ∃ t u n, exec (.halt gang) s = .next t ∧ Noticed s n g 3 7 0xffff 0 ∧
        u = { finished 1 0 false with
          gangs := gangsWith s g.id (fun x => { x with haltPending := false, haltOnBreak := true, haltCy := s.cyc })
          calendar := s.calendar.filter (fun e => !ofRamp g.ownsCore e.2), parts := n.parts, msgs := n.msgs ++ [message s 4 1] } ∧
        HartsChange u t (fun h => h.gang = gang ∧ h.run = .running) (fun x y => y.run = .halted ∧
          (x.last = none → y = { x with run := .halted, next := max x.next s.cyc }))) ∧
      (g.haltPending = false → ¬may → exec (.halt gang) s = .next { begun 1 0 with
        gangs := gangsWith s gang (fun x => { x with haltPending := true }) }) ∧
      (g.launch.lockstep = false → (∃ h ∈ harts, h.run = .halted) → ∃ t u, exec (.run gang) s = .next t ∧
        u = { finished 2 0 false with gangs := gangsWith s gang (fun x => { x with haltOnBreak := false, quiesced := false })
                                      ramps := u.ramps, calendar := u.calendar } ∧
        ((∀ e ∈ s.ramps, g.ownsCore e.1 = false) → u.ramps = s.ramps ∧ u.calendar = s.calendar) ∧
        HartsChange u t (fun h => h.gang = gang ∧ h.run = .halted) (fun x y => y = { x with run := .running, next := max x.next s.cyc })) ∧
      ((∀ h ∈ harts, h.run ≠ .halted) → exec (.run gang) s = .next (finished 2 0 true)) ∧
      (halted → (∃ h ∈ harts, h.idx = hart) → (∀ h ∈ harts, h.idx = hart → h ∈ left) → ∃ t, exec (.step gang hart) s = .next t ∧
        HartsChange (begun 3 hart) t (fun h => h.gang = gang ∧ h.idx = hart) (fun x y => y = { x with run := .stepping })) ∧
      (¬halted → exec (.step gang hart) s = .next (finished 3 hart true) ∧ exec (.quiesce gang) s = .next (finished 4 0 true)) ∧
      (halted → exec (.quiesce gang) s = .next { finished 4 0 false with
        gangs := gangsWith s gang (fun x => { x with quiesced := true }) })) ∧
 (∀ (s : State) (g : Gang) (v e : Nat) (w : Word), s.dbgCmd.getLsbD 63 = false → findGang s s.h.gang = some g → g.clusters ≠ 0 →
    let k := s.h.idx
    let cmd := fun (op arg hart top : Nat) => BitVec.ofNat 64 (top * 2 ^ 60 + hart % 2 ^ 16 * 2 ^ 16 + arg % 2 ^ 8 * 2 ^ 8 + op)
    let data (t : State) (n : Nat) : Word := t.dbgData.toList.getD n 0
    let finished (t : State) (op arg hart : Nat) (id : Nat) (refused : Bool) (d : Nat → Option Word) :=
      t.dbgCmd = cmd op arg hart (if refused then 1 else 0) ∧ t.dbgGang = BitVec.ofNat 64 (id % 2 ^ 32) ∧ t.msgs = s.msgs ++ [message s 4 1] ∧
      ∀ n, n < 8 → data t n = (d n).getD (data s n)
    let only (t : State) (h : Hart) := t = { s with dbgCmd := t.dbgCmd, dbgGang := t.dbgGang, msgs := t.msgs, dbgData := t.dbgData,
                                                     free := t.free, h := h, monitors := t.monitors, monBefore := t.monBefore }
    let kind := (w.toNat) % 4
    let inj := fun space addr => exec (.inject space addr kind) s
    let dhart := s.dbgCmd.toNat / 2 ^ 16 % 2 ^ 16
    (v < 64 → (∀ x ∈ s.h.exposed, x.kept = false) → (∃ p, (vreg s v).first = some p) → e < s.h.csr.rlen * s.h.csr.rows * s.h.csr.tiles → s.poisonLane = [] →
      let failed := sget false s.failedRows ((spotOf s e).core * 256 + (spotOf s e).row)
      ∃ t, exec (.readv s.h.gang k v e) s = .next t ∧ only t s.h ∧ t.monitors = s.monitors ∧
        finished t 5 v k s.h.gang false (fun n => match n with
          | 0 => some (BitVec.ofNat 64 e)
          | 1 => some (if failed then 0 else BitVec.ofNat 64 (elemAt s v ((vreg s v).wm.toNat + 1) e))
          | 2 => some (if failed then 2 else 0)
          | _ => none)) ∧
    (64 ≤ v → ∃ t, exec (.readv s.h.gang k v e) s = .next t ∧ only t s.h ∧ finished t 5 v k s.h.gang true (fun _ => none)) ∧
    (∀ h : v < 32, ∃ t, exec (.readx s.h.gang k v e) s = .next t ∧ only t s.h ∧ t.monitors = s.monitors ∧
      finished t 6 v k s.h.gang false (fun n => if n = 1 then some (if v = 0 then 0 else s.h.x[v]) else none)) ∧
    (∀ (o : C) (c : Ctl) (q : Word), o.csr.toNat = e → c.rp = false → s.h.hot = [] → WritesX (.csrr c o) c o.xd q s → o.xd ≠ 0 →
      ∃ t, exec (.readx s.h.gang k 0xff e) s = .next t ∧ only t s.h ∧
        finished t 6 0xff k s.h.gang false (fun n => match n with | 0 => some (BitVec.ofNat 64 e) | 1 => some q | _ => none)) ∧
    (v < 32 → ∃ t, exec (.writex s.h.gang k v e w) s = .next t ∧ only t { s.h with x := t.h.x } ∧
      XWritten (BitVec.ofNat 5 v) w s.h.x t.h.x ∧
      finished t 7 v k s.h.gang false (fun n => match n with | 0 => some (BitVec.ofNat 64 e) | 1 => some w | _ => none)) ∧
    (32 ≤ v → v < 0xff → ∀ i ∈ [Instr.readx s.h.gang k v e, .writex s.h.gang k v e w], ∃ t, exec i s = .next t ∧ only t s.h ∧
      t.dbgCmd.toNat / 2 ^ 60 = 1) ∧
    (∃ t u b, let at' := s.dbgGang.toNat % 2 ^ 32
      exec (.unfence v e) s = .next t ∧ t = { s with
        dbgCmd := cmd 8 0 0 8, dbgGang := BitVec.ofNat 64 at', dbgData := t.dbgData
        calendar := s.calendar ++ [(s.cyc + 2 ^ 20, .unfence v e)] } ∧ data t 0 = BitVec.ofNat 64 (v * 256 + e) ∧
      (v * 256 + e < 2 ^ 64 → exec (.unfence v e) t = .next u ∧
        u = { t with dbgCmd := cmd 8 0 0 0, msgs := s.msgs ++ [message s 4 1], free := s.free + 1, failedRows := u.failedRows } ∧
        ∀ j, sget false u.failedRows j = (sget false s.failedRows j && !(b && decide (j = v * 256 + e))))) ∧
    (∀ space key, (space, key) ∈ [(0, e), (2, e / 4096), (3, e / 64)] →
      (kind ≠ 0 → ∃ t, inj space e = .next t ∧ finished t 9 0 dhart s.dbgGang.toNat false (fun _ => none) ∧
        t = { s with dbgCmd := t.dbgCmd, dbgGang := t.dbgGang, msgs := t.msgs, armed := s.armed ++ [⟨space, key, kind⟩] }) ∧
      (kind = 0 → ∃ t, inj space e = .next t ∧ finished t 9 0 dhart s.dbgGang.toNat true (fun _ => none) ∧
        t = { s with dbgCmd := t.dbgCmd, dbgGang := t.dbgGang, msgs := t.msgs })) ∧
    (s.gangs = [g] → g.id % 2 ^ 32 = s.dbgGang.toNat % 2 ^ 32 → k = dhart → e < 2 ^ 24 → kind ≠ 0 →
      ∃ t, inj 1 e = .next t ∧ finished t 9 0 dhart s.dbgGang.toNat false (fun _ => none) ∧
        t = { s with dbgCmd := t.dbgCmd, dbgGang := t.dbgGang, msgs := t.msgs
                     armed := s.armed ++ [⟨1, (2 ^ 40 + s.h.core / 8 * 2 ^ 24 + e) / 8, kind⟩] }))

/-- R92, R259, R260, R263, R264: CHUNK_LAND of a LINEAR copy from virtual space into its cluster: the bytes of the chunk's block,
the report once no other chunk is outstanding, the tile buffer's LANDED bit and tags, and the end of the copy. That a chunk reads
and writes in one step is the model's reading (log 26).
R6, R44, R383, R384, R385: a chunk whose source does not translate is parked for codes 0x01 to 0x03, and retried by CHUNK_RETRY, or
is abandoned for codes 0x04 and 0x05, and for a poisoned table entry with record 0x12/0x04 (log 72); its copy writes one record per code and page; in lockstep mode it misses its slot;
TRANSLATION_WALK does the same ahead of the landing. The calendar is the model's (logs 4 and 48). -/
def Obligations.ChunksLandAndPark : Prop :=
 (∀ (s : State) (q : Copy) (k n : Nat) (c : Chunk), RunsOn s q → LinearCopy q n → q.chunks[k]? = some c → c.st = .waiting →
    c.iss ≠ 2 ^ 64 → ((gangOf s q.gang).launch.lockstep = true → c.due ≤ s.cyc) → q.dst / 512 ≤ c.blk →
    c.blk ≤ (q.dst + n - 1) / 512 →
    let w : Who := ⟨q.part, q.asid, q.core / 96⟩
    let base := 2 ^ 40 + q.core / 8 * 2 ^ 24
    let b := bufAt s (q.core / 8) q.tb
    let j := c.blk - b.base
    let first := b.landed = 0
    let last := ∀ (i : Nat) (x : Chunk), q.chunks[i]? = some x → i ≠ k → x.st = .landed ∨ x.st = .abandoned
    let at' := q.dw 7 % 2 ^ 48
    let word := 2 ^ 63 + q.tag.toNat * 2 ^ 32 + q.units % 2 ^ 32
    let reports := last ∧ q.ren = true ∧ q.lost = false
    let block := fun a => base + q.dst + blockFrom q c.blk ≤ a ∧ a < base + q.dst + blockTo q n c.blk
    PlainVa s w (fun a => q.src ≤ a ∧ a < q.src + n) → s.poisonWord = [] → at' % 8 = 0 → at' + 8 ≤ 2 ^ 24 →
    (q.tben = true → b.base ≤ c.blk ∧ j < b.chunks) → (c.late = true → (gangOf s q.gang).launch.lockstep = false) →
    ∃ t, exec (.chunkLand q.chan k) s = .next t ∧
      t = { s with mem := t.mem, caches := t.caches, writers := t.writers, bufs := t.bufs, bufLandings := t.bufLandings, copies := t.copies
                   monitors := t.monitors, monBefore := t.monBefore, msgs := t.msgs, calendar := t.calendar
                   lastServed := t.lastServed } ∧
      t.bufLandings = (if q.tben then s.bufLandings.filter (fun l => l.cyc == s.cyc) ++ [⟨s.cyc, q.core / 8, q.tb, j, q.tag⟩]
        else s.bufLandings) ∧
      (∀ a, reports → base + at' ≤ a → a < base + at' + 8 → sget 0 t.mem a = byteOf (BitVec.ofNat 64 word) (a - (base + at'))) ∧
      (∀ a, ¬(reports ∧ base + at' ≤ a ∧ a < base + at' + 8) → sget 0 t.mem a =
        if block a then vbyte s w (q.src + (a - (base + q.dst))) else sget 0 s.mem a) ∧
      (∀ cl m, m < 64 → bufAt t cl m = if q.tben = true ∧ cl = q.core / 8 ∧ m = q.tb then { b with
          landed := b.landed ||| BitVec.ofNat 1024 (2 ^ j)
          ltag := if first then q.tag else b.ltag
          mix := b.mix || (!decide first && decide (b.ltag ≠ q.tag)) } else bufAt s cl m) ∧
      (last → t.copies = s.copies.filter (fun x => x.id != q.id)) ∧
      (¬last → t.copies = copiesWith s q { q with chunks := q.chunks.set k { c with st := .landed } } ∧ t.calendar = s.calendar ∧
        t.lastServed = s.lastServed)) ∧
 (∀ (s : State) (q : Copy) (k n : Nat) (c : Chunk) (x : XErr), RunsOn s q → LinearCopy q n → q.chunks[k]? = some c →
    q.tben = false → q.started = true → q.dst / 512 ≤ c.blk → c.blk ≤ (q.dst + n - 1) / 512 →
    let a := q.src + blockFrom q c.blk
    let bte := q.chan / 16
    let lock := (gangOf s q.gang).launch.lockstep
    let others := ∀ (i : Nat) (y : Chunk), q.chunks[i]? = some y → i ≠ k → y.st = .landed
    let fails (i : Instr) := ∃ t r page, exec i s = .next t ∧
      t = { s with copies := t.copies, records := s.records ++ [r], fresh := s.fresh + 1, calendar := t.calendar
                   lastServed := t.lastServed } ∧
      (x.code ≤ 5 → r.cls = 0x10 ∧ r.code.toNat = x.code ∧ r.agent = 2) ∧ (5 < x.code → r.cls = 0x12 ∧ r.code = 4 ∧ r.agent = 6) ∧
      r.addr = BitVec.ofNat 64 a ∧ r.synd = x.synd ∧ r.hart = q.hart ∧
      r.pc = q.pc ∧ r.tag = q.tag.toNat ∧ r.tidx = q.tidx ∧ r.chan = q.chan ∧ r.fin = false ∧
      (x.code ≤ 3 → ∃ late, t.copies = copiesWith s q { q with
          chunks := q.chunks.set k { c with st := .parked x.code (a / 65536), late := late }, reported := [(x.code, page)] } ∧
        t.lastServed = s.lastServed ∧
        t.calendar = s.calendar ++ [(s.cyc + 2000, .faultRecordDelivery s.fresh), (s.cyc + 2 ^ 20, .chunkRetry q.chan k)] ∧
        (MissesSlot s q c → late = true) ∧ (¬MissesSlot s q c → late = c.late)) ∧
      (3 < x.code → others → t.copies = s.copies.filter (fun y => y.id != q.id))
    (c.st = .waiting → q.reported = [] → translate s q.part q.asid (q.core / 96) a false = .error x →
      (c.iss ≠ 2 ^ 64 → (lock = true → c.due ≤ s.cyc) → fails (.chunkLand q.chan k)) ∧
      (s.copies.filter (fun y => y.asid == q.asid) = [q] → others → fails (.translationWalk q.asid (BitVec.ofNat 64 a).toNat)) ∧
      (s.copies.filter (fun y => y.asid == q.asid) = [q] → others → ∀ va, va / 65536 ≠ a / 65536 →
        exec (.translationWalk q.asid va) s = .next s)) ∧
    ∀ code page, c.st = .parked code page → others → s.copies.filter (fun y => y.chan / 16 == bte) = [q] → s.cyc < 2 ^ 64 →
      lock = false → ∃ t iss due slot, exec (.chunkRetry q.chan k) s = .next t ∧
        t = { s with
          copies := copiesWith s q { q with chunks := q.chunks.set k { c with st := .waiting, iss := iss, due := due, slot := slot } }
          calendar := t.calendar, caches := t.caches, free := s.free + 1 } ∧
        s.cyc ≤ iss ∧ iss < due ∧ (due, .chunkLand q.chan k) ∈ t.calendar)

/-- R6, R44, R87, R100, R120, R254, R258, R259, R261, R361, R411: COPY_START of an elastic LINEAR copy, once no write of its channel
travels, gives every destination block a chunk, four cy apart, landing after the latency of its source, and later for a cache miss and
the tables of a walk, as the caches stand (log 11); a template of an unassigned kind ends it with code 0x10;
APERTURE_QUEUE_ACCEPT makes a held aperture store once there is room; TRANSFER_RETRY delays a landing, in lockstep mode with notice
0x05 and the slot missed, of a HOST copy with notice 0x06 too. The latencies are read as log 26 says. -/
def Obligations.CopiesStartAndRetry : Prop :=
  ∀ (s : State) (q : Copy) (n : Nat),
    let g := gangOf s q.gang
    let runs := (g.st = .running ∨ g.st = .draining) ∧ g.quiesced = false ∧ g.ending = false
    let may := runs ∧ g.hold = none
    let held := ∃ o, g.hold = some o ∧ o.c0 < s.cyc ∧ ∀ h ∈ s.h :: s.others, h.gang = g.id → h.wait = none
    let st := q.issueCy + 4 + (g.tstart + q.off + 2 ^ 24 - (q.issueCy + 4) % 2 ^ 24) % 2 ^ 24
    let travels := ∃ r ∈ s.replicas, r.stamp.2.2.1 = q.chan ∨
      (r.gang = q.gang ∧ r.hart = q.hart ∧ 3072 ≤ r.stamp.2.2.1 ∧ r.n < q.id)
    let head := s.copies.find? (fun x => x.chan == q.chan) = some q ∧ q.started = false ∧ q.chunks = [] ∧ q.indices = [] ∧
      (s.copies.map (fun x => x.id)).Nodup
    (head → s.cyc < st → exec (.copyStart q.chan) s = .next s) ∧
    (head → ¬runs ∨ held ∨ travels → exec (.copyStart q.chan) s = .next s) ∧
    (head → may → ¬travels → st ≤ s.cyc → q.walk = none → LinearCopy q n → q.tmpl.headD 0 = 0x10 → q.tmpl.drop 4 = [0, 0, 0, 0] →
      (q.tmpl.getD 3 0).toNat < 2 ^ 32 → g.launch.lockstep = false → s.cyc < 2 ^ 64 →
      s.copies.filter (fun x => x.chan / 16 == q.chan / 16) = [q] → (sget (15, 0) s.lastServed (q.chan / 16)).2 + 4 ≤ s.cyc →
      ∃ t q', exec (.copyStart q.chan) s = .next t ∧
        t = { s with copies := copiesWith s q q', calendar := t.calendar, caches := t.caches, free := s.free + 1 } ∧
        q' = { q with started := true, chunks := q'.chunks, units := n, lag := s.cyc - st } ∧
        q'.chunks.length = (q.dst + n - 1) / 512 - q.dst / 512 + 1 ∧
        ∀ (k : Nat) (c : Chunk), q'.chunks[k]? = some c → c.blk = q.dst / 512 + k ∧ c.st = .waiting ∧ c.iss = s.cyc + 4 * k ∧
          (c.due, .chunkLand q.chan k) ∈ t.calendar ∧ c.late = false ∧
          ∀ d, (∀ a, q.src + blockFrom q c.blk ≤ a → a < q.src + blockTo q n c.blk →
              ∃ i l, homeDie s q.part (q.core / 96) a = .ok (d, i, l)) →
            let unloaded := c.iss + 124 + 120 * ((q.core / 96 - d) + (d - q.core / 96))
            c.slot = unloaded - (s.cyc - st) ∧ ∃ misses walks, misses ≤ 1 ∧ c.due = unloaded + 160 * misses + walks ∧
              (s.caches.walks = [] → n ≤ 65536 → PlainVa s ⟨q.part, q.asid, q.core / 96⟩ (fun a => q.src ≤ a ∧ a < q.src + n) →
                ∃ tables, tables ≤ 3 ∧ walks = 260 * tables)) ∧
    (head → may → ¬travels → st ≤ s.cyc → q.walk = none → 8 < q.dw 0 % 16 → ∃ t r, exec (.copyStart q.chan) s = .next t ∧
      t = { s with copies := s.copies.filter (fun x => x.id != q.id), records := s.records ++ [r], fresh := s.fresh + 1
                   calendar := t.calendar, lastServed := t.lastServed } ∧
      r.cls = 0x10 ∧ r.code = 0x10 ∧ r.agent = 2 ∧ r.addr = BitVec.ofNat 64 (0x20000000 + 64 * q.tidx) ∧ r.synd = 0 ∧
      r.hart = q.hart ∧ r.pc = q.pc) ∧
    (∀ (c : Ctl) (o : XI) (w : Wait), w.instr ∈ [Instr.stq c o, .btx c o] →
      let u := { s with h := { s.h with wait := none } }
      let x := { s with h := { s.h with wait := some w } }
      let ea := BitVec.ofInt 64 ((rx s o.xa).toNat + 16 * c.imm.toInt)
      let chan := 64 * (s.h.core / 8) + (ea.toNat - 0x20020000) / 16
      ea.toNat % 16 = 0 → 0x20020000 ≤ ea.toNat → ea.toNat < 0x20020400 →
      (sget 0 s.templates (s.h.core / 8 * 2048 + (rx s o.xd).toNat % 256 * 8)).toNat % 16 ≠ 3 →
      ((s.copies.filter (fun q => q.chan == chan)).length < 5 →
        exec (.apertureQueueAccept s.h.gang s.h.idx) x = exec w.instr u) ∧
      (5 ≤ (s.copies.filter (fun q => q.chan == chan)).length →
        exec (.apertureQueueAccept s.h.gang s.h.idx) x = .next x)) ∧
    ∀ (k delay : Nat) (c : Chunk), RunsOn s q → q.chunks[k]? = some c → c.st = .waiting → c.due ≠ 2 ^ 64 →
      let due := c.due + delay
      ∃ t late, exec (.transferRetry q.chan k delay) s = .next t ∧
        t = { s with copies := copiesWith s q { q with chunks := q.chunks.set k { c with due := due, late := late } }
                     calendar := t.calendar, parts := t.parts, msgs := t.msgs } ∧
        (delay = 0 → late = c.late ∧ t.calendar = s.calendar) ∧
        (delay ≠ 0 → t.calendar = s.calendar.filter (fun e => !(e.2 == .chunkLand q.chan k)) ++ [(due, .chunkLand q.chan k)] ∧
          (MissesSlot s q c → late = true) ∧ (¬MissesSlot s q c → late = c.late)) ∧
        (g.launch.lockstep = true → ∃ u, Noticed u t g 5 6 q.hart 0 ∧
          (q.kind = 6 → delay ≠ 0 → MissesSlot s q c → Noticed s u g 6 6 q.hart 0) ∧
          (¬(q.kind = 6 ∧ delay ≠ 0 ∧ MissesSlot s q c) → u.parts = s.parts ∧ u.msgs = s.msgs)) ∧
        (g.launch.lockstep = false → t.parts = s.parts ∧ t.msgs = s.msgs)

/-- R87, R121, R197, R222, R226, R231, R241, R268, R271, R280, R290: SWEEP_DONE sets the matrix-done bit of its register in its tile, of
another die shown 48 cy for each of the largest hops later; FOLLOW_ON_SWEEP waits while the engine is busy, wakes drowsy rows for 40 cy, and else runs the first waiting sweep of the core, the operation
of the follow-on command over the rows from 0 on: each cell of its tile takes the K terms; a MOPS with illegal metadata leaves a record
and is dropped. KVWALK_CARRIAGE_START ends a walk at SUCC = 0 or its limit, and else reads the next header and starts its chunks.
Stated for plain pages, buffers that are free and registers that are resident, without poison. What a chunk of a walk holds is the
model's reading (log 29). -/
def Obligations.SweepsAndWalks : Prop :=
  ∀ (s : State) (core : Nat) (q : Copy) (v : Walk),
    let live := fun (h : Hart) (n t : Nat) => sget 0 h.landed (512 * n + t)
    (∀ x, s.sweeps.find? (fun x => x.core == core && x.running) = some x → ∃ t u, exec (.sweepDone core) s = .next t ∧
      let hops := fun h : Hart => (h.core / 96 - (h.core + x.tile) / 96) + ((h.core + x.tile) / 96 - h.core / 96)
      let bit := 257 * (512 * x.vreg + x.tile) + 256
      u = { s with sweeps := s.sweeps.filter (fun y => !(y.core == core && y.copy == x.copy)), calendar := u.calendar } ∧
      (∀ h, findHart s x.gang x.hart = some h → u.calendar = s.calendar ++
        if hops h = 0 then [] else [(s.cyc + 48 * h.span, .waitComplete x.gang x.hart)]) ∧
      HartsChange u t (fun h => h.gang = x.gang ∧ h.idx = x.hart) (fun a b =>
        b = { a with landed := b.landed, landedAt := b.landedAt } ∧
        (∀ i, sget 0 b.landed i = if i = 512 * x.vreg + x.tile then live a x.vreg x.tile ||| BitVec.ofNat 257 (2 ^ 256)
          else sget 0 a.landed i) ∧
        ∀ i, sget 0 b.landedAt i = if i = bit ∧ hops a ≠ 0 then s.cyc else sget 0 a.landedAt i)) ∧
    ((∀ x ∈ s.sweeps, x.running = false) → exec (.sweepDone core) s = .next s) ∧
    ((∀ x ∈ s.sweeps, x.core = core → x.running = true) → exec (.followOnSweep core) s = .next s) ∧
    (∀ x, s.sweeps.find? (fun x => x.core == core && !x.running) = some x → x.gang = s.h.gang → x.hart = s.h.idx →
      let free := ((rampAt s core).ahead (max (max s.cyc x.slot) (max (sget 0 s.engines core) s.h.units.matrix))).1
      let rows := sweepRows s x
      let awake := ∀ r ∈ rows, rowAsleep s r s.cyc = false
      let f := fun lo n => x.cmd.toNat / 2 ^ lo % 2 ^ n
      let op := f 0 2
      let A := Desc.ofOvr (f 36 10)
      let B := Desc.ofOvr (f 46 10)
      let va := f 10 6
      let vb := f 16 6
      let vm := f 22 6
      let km := f 2 8 + 1
      -- the hart as the sweep finds it: the captured grant, nothing in an exposed window
      let g := { s with h := { s.h with csr := x.csr, hot := [] } }
      let a := fun row i => fed Ctl.plain g A va x.tile row i
      let b := fun row j => fed Ctl.plain g B vb x.tile row j
      let mine := fun y : Sweep => y.core == core && y.copy == x.copy
      let resident := fun ns : List Nat => ∀ n ∈ ns, (vreg s n).first.isSome = true
      let runs (terms : Nat → Nat → List Int) := ∃ t n, exec (.followOnSweep core) s = .next t ∧ 0 < n ∧
        t = { s with acc := t.acc, ramps := t.ramps, engines := t.engines, calendar := t.calendar, touched := t.touched, drowsy := t.drowsy
                     sweeps := s.sweeps.map (fun y => if mine y then { y with running := true, ready := s.cyc + n + 3 } else y) } ∧
        (∀ k, sget 0 t.engines k = if k = core then s.cyc + n else sget 0 s.engines k) ∧
        (∀ k, k ≠ core → rampAt t k = rampAt s k) ∧ (rampAt t core).st = .warm ∧
        (s.cyc + n, .followOnSweep core) ∈ t.calendar ∧ (s.cyc + n, .arrayRampDown core) ∈ t.calendar ∧
        (s.cyc + n + 3, .sweepDone core) ∈ t.calendar ∧
        (∀ i j, i < 256 → j < 256 → Accumulates (f 56 1) (sget 0 s.acc (cellKey (s.h.core + x.tile) i j))
          (sget 0 t.acc (cellKey (s.h.core + x.tile) i j)) (terms i j)) ∧
        ∀ k, k / 2 ^ 16 ≠ s.h.core + x.tile → sget 0 t.acc k = sget 0 s.acc k
      (s.cyc < free → exec (.followOnSweep core) s = .next { s with calendar := s.calendar ++ [(free, .followOnSweep core)] }) ∧
      (free ≤ s.cyc → ¬awake → ∃ t, exec (.followOnSweep core) s = .next t ∧
        t = { s with touched := t.touched, drowsy := t.drowsy, calendar := s.calendar ++ [(s.cyc + 40, .followOnSweep core)]
                     sweeps := s.sweeps.map (fun y => if mine y then { y with slot := s.cyc + 40 } else y) } ∧
        ∀ r, sget 0 t.touched r = (if r ∈ rows then s.cyc + 40 else sget 0 s.touched r) ∧
          sget false t.drowsy r = (sget false s.drowsy r && decide (r ∉ rows))) ∧
      (free ≤ s.cyc → awake → ((gangOf s x.gang).launch.lockstep = true → s.cyc ≤ x.slot) →
        s.poisonLane = [] → s.armed = [] → (∀ w ∈ s.h.exposed, w.upto < s.cyc) → resident [va, vb] →
        (op = 0 → runs (fun i j => (List.range km).map (fun k => a k i * b k j))) ∧
        (op = 2 →
          let rec' := fun row j =>
            let e := x.tile * (x.csr.rlen * x.csr.rows) + row * x.csr.rlen + j
            if j < x.csr.rlen ∧ e < x.csr.vl then elemBits g vb 32 e else 0
          runs (fun i j => (List.range km).map (fun k => a k i * recordWeight (rec' (k / 16) j) (k % 16)))) ∧
        ∀ p, op = 1 → (vreg s vm).first = some p →
          let nib := fun k j =>
            bitsAt g ⟨s.h.core + x.tile, physRow g (s.h.core + x.tile) (f 28 8 + k / 64), 16 * (k % 64) + j / 16⟩ p 64 /
              2 ^ (4 * (j % 16)) % 2 ^ 4
          ((∀ k j, k < km → j < 256 → nib k j % 4 < nib k j / 4) →
            runs (fun i j => (List.range km).flatMap (fun k =>
              [a k (256 * (nib k j % 4) + i) * b k j, a k (256 * (nib k j / 4) + i) * b k (256 + j)]))) ∧
          ((∃ k j, k < km ∧ j < 256 ∧ nib k j / 4 ≤ nib k j % 4) → (gangOf s x.gang).ending = false →
            ∃ t z k j, exec (.followOnSweep core) s = .next t ∧ k < km ∧ j < 256 ∧ nib k j / 4 ≤ nib k j % 4 ∧
              t = { s with sweeps := s.sweeps.filter (fun y => !mine y), records := s.records ++ [z], fresh := s.fresh + 1
                           calendar := s.calendar ++ [(s.cyc + 2000, .faultRecordDelivery s.fresh), (s.cyc, .followOnSweep core),
                             (s.cyc, .arrayRampDown core)] } ∧
              z.cls = 0x10 ∧ z.code = 0x14 ∧ z.agent = 2 ∧ z.addr = BitVec.ofNat 64 (0x20000000 + 64 * x.tidx) ∧
              z.synd = BitVec.ofNat 64 (x.tile * 2 ^ 32 + k * 2 ^ 16 + j) ∧ z.hart = x.hart ∧ z.pc = x.pc))) ∧
    (RunsOn s q → q.kind = 7 → q.walk = some v → v.ended = false → q.started = true → q.dsp = 0 → (∀ y ∈ s.copies, y.kind ≠ 6) →
      let w : Who := ⟨q.part, q.asid, q.core / 96⟩
      let limit := q.dw 5 % 2 ^ 32
      let cl := q.core / 8
      let ntb := q.dw 3 / 2 ^ 8 % 8 + 1
      let buf := bufAt s cl ((q.dw 3 + v.j % ntb) % 64)
      let d := fun i => vnum s w (v.va + i) 8
      let sh := carShape s w v.va
      let sel := q.dw 4
      let heads := sel / 2 ^ 32 % 2 ^ 16
      let parts := sel / 2 ^ 48 % 4
      let kb := ceilDiv (64 * sh.hd * sh.z) 512
      let need := 1 + (if parts = 3 then 2 else 1) * heads * kb
      -- all but four carriages before have been consumed, and the next one's buffer is free
      buf.landed = 0 → (∀ c ∈ q.chunks, c.st = .landed) → (∀ i, i < v.j → i ∈ v.used ∨ v.j ≤ i + 4) →
      (v.va = 0 ∨ (limit ≠ 0 ∧ limit ≤ v.j) → q.ren = false → ∃ t, exec (.kvwalkCarriageStart q.chan) s = .next t ∧
        t.copies = s.copies.filter (fun x => x.id != q.id) ∧ t.mem = s.mem ∧ t.records = s.records) ∧
      (v.va ≠ 0 → v.va % 64 = 0 → (limit = 0 ∨ v.j + 1 < limit) → d 0 ≠ 0 → PlainVa s w (line v.va) → sh.ok = true → parts ≠ 0 →
        sel % 2 ^ 16 < sh.lc → sel / 2 ^ 16 % 2 ^ 16 + heads ≤ sh.hc → need ≤ buf.chunks →
        ∃ t q', exec (.kvwalkCarriageStart q.chan) s = .next t ∧
          t = { s with copies := t.copies, calendar := t.calendar, caches := t.caches, free := s.free + 1 } ∧
          (t.copies.find? (fun x => x.id == q.id)) = some q' ∧
          q'.walk = some ⟨v.j + 1, d 0, (d 8 / 2 ^ 16 % 2 ^ 16) :: v.coaches, v.used, false, false⟩ ∧
          q'.chunks.length = q.chunks.length + need ∧
          ∀ (i : Nat) (c : Chunk), q'.chunks[q.chunks.length + i]? = some c → c.blk < need ∧ c.car = v.j ∧ c.st = .waiting ∧
            (i = 0 → c.blk = 0 ∧ c.src = none ∧ c.data.take 64 = (List.range 64).map (fun k => vbyte s w (v.va + k)))))

/-- R39, R47, R131, R141, R153, R296, R347, R363, R366: a ready hart that the agenda names runs, in one step, the instruction that the
words at its pc in its instruction cache decode to, as exec does: earlier than its units allow it is put off, at the merge unit with the
cy of its arrival; else exec's next state stands with what issuing adds, which is timing only where no earlier instruction is still
reading or landing; the wait of a lockstep hart issues in the cy that its plan gives (log 9); words outside the image, uncached or illegal trap or are filled, with a stall. The agenda is the model's (log 4),
what issuing adds follows log 6, and what writes that land late leave free log 68. -/
def Obligations.StepRunsDecodedInstruction : Prop :=
  ∀ (s : State) (rest : List Pick) (w : Instr32) (ws : List Instr32),
    s.agenda = .hart s.h.gang s.h.idx 0 :: rest → ready s s.h = true → s.h.run = .running → s.h.irqs = [] → s.h.part = none →
    let at' := fun k : Nat => s.h.pc + BitVec.ofNat 64 (4 * k)
    let l := (myGang s).launch
    let inside := fun k : Nat => (at' k - l.img).toNat + 4 ≤ l.imgLen
    let clean := fun k : Nat => ∀ r ∈ (myGang s).dirty, r.1 + r.2 ≤ (at' k).toNat ∨ (at' k).toNat + 4 ≤ r.1
    let cached := fun k : Nat => sget 0 s.icache (s.h.core * 2 ^ 62 + (at' k).toNat / 4)
    let s1 := { s with agenda := rest, h := { s.h with hot := [], hotCells := [], raised := 0, work := 0, swapCy := 0, queued := none
                                                       issueCy := s.cyc, issued := false } }
    let sq := { s1 with h := { s1.h with queued := s.h.queued } }
    (¬inside 0 → step s = exec (.trapEntry 8 2 s.h.pc) s1) ∧
    (inside 0 → clean 0 → (cached 0).getLsbD 32 = false →
      (l.lockstep = true → step s = exec (.trapEntry 8 3 s.h.pc) s1) ∧
      (l.lockstep = false → ∀ t, exec (.icacheFill s.h.pc) s1 = .next t → ∃ n, s.cyc ≤ n ∧ step s = .next (
        if t.h.run = .stopped then t else { t with free := t.free + 1, h := { t.h with next := n } }))) ∧
    ((∀ (k : Nat) (v : Instr32), ws[k]? = some v → inside k ∧ clean k ∧ cached k = BitVec.ofNat 33 (2 ^ 32 + v.toNat)) →
      ws.head? = some w → ws.length = (formOf w).words →
      (∀ code, decodeWords ws = .illegal code →
        step s = exec (.trapEntry 2 (BitVec.ofNat 8 code) ((if (formOf w).isExt then ws.getD 1 0 else 0) ++ w)) s1) ∧
      ∀ i, decodeWords ws = .ok i →
        let c := costOf i sq
        let others := earliest sq { c with merge := 0 }
        let all := earliest sq c
        let lane := fun l : Loc => match l with | .x _ => false | _ => true
        let stepped := if s.h.stepAt = 0 then [] else c.reads.filter lane
        let s2 := { sq with h := { sq.h with
          hot := hotAt (besideSweeps sq) c s.cyc ++ stepped
          hotCells := hotCellsAt (besideSweeps sq) c s.cyc ++ stepped.map (fun l => (l, none)) } }
        let planned := l.lockstep = true ∧ plannedWait i = true ∧ s.h.timed = false
        (planned → ∃ n, s.cyc ≤ n ∧ step s = .next { s1 with h := { s1.h with timed := true, next := n } }) ∧
        (¬planned →
        (s.cyc < others → step s = .next { s1 with h := { s1.h with next := others } }) ∧
        (others ≤ s.cyc → s.cyc < all → step s = .next { s1 with h := { s1.h with
          next := all, queued := some (s.h.queued.getD s.cyc) } }) ∧
        (others ≤ s.cyc → all ≤ s.cyc → ∀ t, exec i s2 = .next t → step s = .next (settleTrial i s2 t) ∧
          (t.h.issued = true → t.h.wait = none → t.h.swapCy = 0 → s.h.csr.tchk = false →
            let d := costOf i { s2 with h := { s2.h with work := t.h.work, swapCy := 0 } }
            earliest s2 { d with merge := 0 } ≤ s.cyc → earliest s2 d ≤ s.cyc → wakes s2 d = false →
            (∀ w ∈ s.h.exposed, w.upto ≤ s.cyc + 1) → (∀ w ∈ s.h.reading, w.upto ≤ s.cyc + 1) → (∀ w ∈ s.sweeps, w.running = false) →
            (∀ w ∈ t.sweeps, w.running = false) → s.h.lateX = [] → ∃ u, settleTrial i s2 t = u ∧
              u = { t with free := t.free + 1, merge := u.merge, ramps := u.ramps, calendar := u.calendar, touched := u.touched
                           drowsy := u.drowsy
                           h := { t.h with units := u.h.units, lastLand := u.h.lastLand, laneLand := u.h.laneLand, hot := [], raised := 0
                                           work := 0, accessEnd := u.h.accessEnd, accesses := u.h.accesses, ports := u.h.ports
                                           flagsDue := u.h.flagsDue, exposed := u.h.exposed, swapCy := 0, queued := none
                                           hotCells := [], last := u.h.last, lateX := u.h.lateX, timed := false
                                           reading := u.h.reading, next := u.h.next, stepAt := u.h.stepAt, swapPaid := false
                                           restart := u.h.restart, csr := { t.h.csr with rpc := u.h.csr.rpc } } } ∧
              s.cyc < u.h.next ∧ ((Instr.ctl i).rp = true → u.h.csr.rpc = s.h.pc ∧ u.h.restart.x = s.h.x) ∧
              ((Instr.ctl i).rp = false → u.h.csr.rpc = t.h.csr.rpc ∧ u.h.restart = t.h.restart)))))

/-- R24, R39: an event that the agenda names, unless the calendar holds it for a later cy, or that is due, happens; where nobody moves, time goes on to the next cy in which
somebody may, and nothing else changes. A trap of the cy of a pre-emption or halt comes before it (R348). The agenda and the calendar
are the model's (log 4). -/
def Obligations.EventsHappenAndTimePasses : Prop :=
  ∀ (s : State) (e : Event) (rest : List Pick),
    let left := fun c : List (Nat × Event) => ∀ x ∈ c, x ∈ s.calendar
    let free := (∀ h ∈ s.h :: s.others, h.wait = none) ∧ ∀ g ∈ s.gangs, g.hold = none
    let happens (u : State) := ((∀ chan, e ≠ .copyStart chan) ∨ ∀ t, execEvent e u = .next t → ∀ g ∈ t.gangs, g.hold = none) →
      step s = execEvent e u
    let later := { s with agenda := rest }
    (free → s.agenda = .event e :: rest → notYet later e = false → trapBefore later e = none → ∃ c, left c ∧
      happens { later with calendar := c }) ∧
    (s.agenda = .event e :: rest → notYet later e = true → step s = .next later) ∧
    (free → s.agenda = [] → trapBefore s e = none → ∀ cy, (cy, e) ∈ s.calendar → cy ≤ s.cyc →
      (∀ x ∈ s.calendar, x ≠ (cy, e) → cy < x.1) → ∃ c, left c ∧ happens { s with calendar := c }) ∧
    (s.agenda = [] → dueEvent s = none → polledEvent s = none → nextHart s = none → ∃ t, step s = .next t ∧
      t = { s with cyc := t.cyc } ∧ s.cyc < t.cyc ∧ ∀ x ∈ s.calendar, s.cyc < x.1 → t.cyc ≤ x.1)

/-- R114, R308: FENCE and FENCER complete without waiting: the fence, with its scope and kinds, FENCER's with its range and space too, is
noted with the accesses before it that are not over; FENCE_RELEASE lets go of the fences all of whose early accesses are over. -/
def Obligations.FencesComplete : Prop :=
  ∀ (c : Ctl) (o : F) (s : State),
    (∀ i ∈ [Instr.fence c o, .fencer c o], ∃ (t : State) (f : FenceHold), exec i s = .next t ∧
      t.h.pc = pcAfter c s ∧ t.h.issued = true ∧ t.h.x = s.h.x ∧ t.h.csr = s.h.csr ∧ t.mem = s.mem ∧ t.others = s.others ∧
      t.h.fences = s.h.fences ++ [f] ∧ f.scope = o.sco.toNat ∧ f.kinds = o.kd ∧
      f.early = s.h.accesses.filter (fun x => decide (s.h.issueCy < x.upto)) ∧
      (i = .fence c o → f.virt = none ∧ f.len = none) ∧
      (i = .fencer c o → f.virt = some (o.sp == 1) ∧ f.base = (rx s o.xa).toNat ∧ f.len = some (rx s o.xb).toNat)) ∧
    ∀ g k h, findHart s g k = some h → ∃ t, exec (.fenceRelease g k) s = .next t ∧ t.mem = s.mem ∧
      findHart t g k = some { h with fences := h.fences.filter (fun f => f.early.any (fun b => decide (s.cyc < b.upto))) }

/-- R97, R317, R320, R383: PLACEMENT_PASS places the only gang of the device, an elastic one, on the least free block; PROLOGUE makes
its harts and sets TSTART, to a multiple of 64 since no plan gives a period; GANG_START lets them run; TRANSLATION_WALK delays
the only chunk of the only copy by 260 cy for each level table that it reads, where the unit no longer holds the translation, and parks it
with a record where the walk fails with code 1 to 3. The cys of these events are the model's choice (logs 4, 11 and 39). -/
def Obligations.SchedulerEventsComplete : Prop :=
  (∀ (s : State) (g : Gang) (c : Nat), s.gangs = [g] → g.st = .queued → g.claim = none → g.launch.lockstep = false →
    g.launch.prio < 4 → g.part < 4 → (partAt s g.part).passDue = true → 0 < g.launch.nhart * g.launch.tph →
    BlockFree s g c → (∀ b, b < c → ¬BlockFree s g b) →
    ∃ t, exec (.placementPass g.part) s = .next t ∧ t.mem = s.mem ∧ t.h = s.h ∧ t.calendar = s.calendar ++ [(s.cyc, .prologue g.id)] ∧
      t.gangs = [{ g with
        st := .placed, base := 8 * c, clusters := ceilDiv (g.launch.nhart * g.launch.tph) 8, claim := none }]) ∧
  (∀ (s : State) (g : Gang), s.gangs = [g] → g.st = .placed → g.saved = none → g.launch.lockstep = false → s.armed = [] →
    g.launch.templates = [] → ∃ t, exec (.prologue g.id) s = .next t ∧
      t.gangs = [{ g with tstart := (s.cyc / 64 + 1) * 64 }] ∧ t.calendar = s.calendar ++ [((s.cyc / 64 + 1) * 64, .gangStart g.id)] ∧
      ∃ hs, t.others = s.others ++ hs ∧ hs.length = g.launch.nhart ∧ ∀ (k : Nat) (h : Hart), hs[k]? = some h →
        h.gang = g.id ∧ h.idx = k ∧ h.core = g.base + k * g.launch.tph ∧ h.pc = g.launch.img + BitVec.ofNat 64 g.launch.entry ∧
        h.next = (s.cyc / 64 + 1) * 64) ∧
  (∀ (s : State) (g : Gang), s.gangs = [g] → g.st = .placed → s.copies = [] →
    ∃ t, exec (.gangStart g.id) s = .next t ∧ t.mem = s.mem ∧ t.gangs = [{ g with st := .running }] ∧
      t.h :: t.others = (s.h :: s.others).map (fun h => if h.gang = g.id ∧ h.exit = none then { h with run := .running } else h)) ∧
  ∀ (s : State) (q : Copy) (n : Nat) (c : Chunk), s.copies = [q] → q.started = true → q.frozen = false →
    (gangOf s q.gang).ending = false → (gangOf s q.gang).launch.lockstep = false → LinearCopy q n → q.tben = false → q.reported = [] →
    q.chunks = [c] → c.st = .waiting → q.dst / 512 ≤ c.blk → c.blk ≤ (q.dst + n - 1) / 512 →
    (s.poisonHbm = [] → (∀ a, q.src ≤ a → a < q.src + n → ∃ x, translate s q.part q.asid (q.core / 96) a false = .ok x) →
      c.due ≠ 2 ^ 64 → c.blk = q.dst / 512 → walkDue s q (q.src, false) = true → ∃ t, exec (.translationWalk q.asid q.src) s = .next t ∧ t.mem = s.mem ∧
        t.copies = [{ q with chunks := [{ c with due := c.due + 260 * walkReads s q.part q.asid q.src }] }] ∧
        (c.due + 260 * walkReads s q.part q.asid q.src, .chunkLand q.chan 0) ∈ t.calendar) ∧
    ∀ x, translate s q.part q.asid (q.core / 96) (q.src + blockFrom q c.blk) false = .error x → 1 ≤ x.code → x.code ≤ 3 →
      ∃ t q' r, exec (.translationWalk q.asid (q.src + blockFrom q c.blk)) s = .next t ∧ t.mem = s.mem ∧ t.copies = [q'] ∧
      q'.chunks = [{ c with st := .parked x.code ((q.src + blockFrom q c.blk) / 65536) }] ∧
      t.records = s.records ++ [r] ∧ r.cls = 0x10 ∧ r.code.toNat = x.code ∧ r.addr = BitVec.ofNat 64 (q.src + blockFrom q c.blk)

/-- R99, R102, R329, R333, R334: FIRMWARE_BOOT of an image with a good signature boots the module; ATTESTATION_REPORT takes the next
counter value and sends one report; LOCK enters the leaf of the page, UNLOCK takes its entries out, PAGE_INVALIDATE drops its lines
where no walk is under way, MIGRATE starts a migration with MIG set in the leaf, each with status 1; MIGRATION_CHUNK_COPY moves one
chunk. When a command ends, and the cy of each chunk, are the model's choice (log 43). -/
def Obligations.BootAndTranslationCommandsComplete : Prop :=
  (∀ (s : State) (image key sig : List Byte), s.bootFailed = false → digest key = s.fuseKey → hssAccepts image key sig = true →
    ∃ t, exec (.firmwareBoot image key sig) s = .next t ∧ t = { s with bootOk := true, measures := t.measures }) ∧
  (∀ (s : State) (nonce : BitVec 256), s.attCount < 2 ^ 40 → ∃ t r, exec (.attestationReport nonce) s = .next t ∧
    t = { s with attCount := s.attCount + 1, hostData := s.hostData ++ [r] }) ∧
  (∀ (s : State) (vf : Nat) (cmd arg : Word), vf < 4 → s.bootOk = true → (∃ d, d < 4 ∧ partOfDie s d = some vf) →
    (partAt s vf).xrun = none → s.copies = [] →
    let va := cmd.toNat % 2 ^ 52 / 2 ^ 16 * 2 ^ 16
    let asid := arg.toNat % 2 ^ 16
    let frame := arg.toNat % 2 ^ 48 / 2 ^ 16 * 2 ^ 16
    let key := fun lv => lockKey vf asid lv va
    let done := fun t : State => (partAt t vf).xcmd = 1 ∧ (partAt t vf).xrun = none
    (∀ leaf at' lv, walk s vf asid va = .ok (leaf, at', lv) → sget 0 s.locked (key lv) = 0 →
      (s.locked.filter (fun e => e.2.toNat / 2 ^ 36 % 2 ^ 12 == leaf.toNat / 2 ^ 36 % 2 ^ 12)).length < 4096 →
      ∃ t, exec (.lock vf cmd arg) s = .next t ∧ done t ∧ t.mem = s.mem ∧
        ∀ k, sget 0 t.locked k = if k = key lv then leaf else sget 0 s.locked k) ∧
    (∃ t, exec (.unlock vf cmd arg) s = .next t ∧ done t ∧ t.mem = s.mem ∧
      ∀ k, sget 0 t.locked k = if k = key 1 ∨ k = key 2 then 0 else sget 0 s.locked k) ∧
    (s.migrations = [] → s.caches.walks = [] → sget 0 s.locked (key 1) = 0 → sget 0 s.locked (key 2) = 0 →
      (∀ leaf lv, leafOf s vf asid va = .ok (leaf, lv) → leaf.getLsbD 62 = false) →
      ∃ t, exec (.pageInvalidate vf cmd arg) s = .next t ∧ done t ∧ t.mem = s.mem ∧ t.locked = s.locked ∧
        ∀ e ∈ t.caches.sets ++ t.caches.tlb, ∀ x ∈ e.2, tagInPage vf asid va x = false) ∧
    ∀ leaf at', walk s vf asid va = .ok (leaf, at', 2) → leaf.getLsbD 62 = false → leaf.getLsbD 61 = false → s.migrations = [] →
      s.poisonHbm = [] → s.armed = [] → frame + 2 ^ 16 ≤ 2 ^ 39 → ∃ t m, exec (.migrate vf cmd arg) s = .next t ∧ done t ∧
        t.migrations = [m] ∧ m.n = s.fresh ∧ m.part = vf ∧ m.asid = asid ∧ m.va = va ∧ m.newPa = frame ∧ m.m = 0 ∧ m.chunks = 128 ∧
        IsDword t at' (leaf ||| 0x4000000000000000) ∧ ∀ a, (a < at' ∨ at' + 8 ≤ a) → sget 0 t.mem a = sget 0 s.mem a) ∧
  ∀ (s : State) (m : Migration), s.migrations = [m] → m.m + 1 < m.chunks → s.poisonHbm = [] → s.armed = [] →
    ∃ t, exec (.migrationChunkCopy m.n) s = .next t ∧ t.migrations = [{ m with m := m.m + 1 }] ∧ t.h = s.h ∧ t.gangs = s.gangs ∧
      ∀ a, sget 0 t.mem a = if m.newPa + 512 * m.m ≤ a ∧ a < m.newPa + 512 * m.m + 512
        then sget 0 s.mem (m.oldPa + 512 * m.m + (a - (m.newPa + 512 * m.m))) else sget 0 s.mem a

/-- R421, R423, R424: what each debug command does to a gang that holds clusters: HALT halts the harts that run, RUN lets those
halted go on, STEP lets one issue, QUIESCE marks the gang and holds its copies, READV and READX read, WRITEX writes, UNFENCE starts its
self-test and ends it 2^20 cy later, and INJECT arms one error. Stated for an elastic gang; addresses of INJECT follow log 46. -/
def Obligations.DebugCommandsComplete : Prop :=
  ∀ (s : State) (g : Gang), findGang s g.id = some g → g.clusters ≠ 0 → g.launch.lockstep = false → s.dbgCmd.getLsbD 63 = false →
    let harts := fun (t : State) => t.h :: t.others
    let each (t : State) (p : Hart → Prop) (f : Hart → Hart → Prop) := (harts t).length = (harts s).length ∧
      ∀ (j : Nat) (a b : Hart), (harts s)[j]? = some a → (harts t)[j]? = some b → a.gang = g.id → p a → f a b
    let good := fun t : State => t.dbgCmd.toNat / 2 ^ 60 = 0 ∧ t.mem = s.mem
    let halted := (∃ h ∈ harts s, h.gang = g.id ∧ h.exit = none ∧ h.run = .halted) ∧
      ∀ h ∈ harts s, h.gang = g.id → h.exit = none → h.run = .halted
    (g.st = .running → g.hold = none → g.haltPending = false → (∀ h ∈ harts s, h.gang = g.id → h.run ≠ .held) →
      ∃ t, exec (.halt g.id) s = .next t ∧ good t ∧ each t (fun a => a.run = .running) (fun _ b => b.run = .halted)) ∧
    (halted → (∀ q ∈ s.copies, q.gang ≠ g.id) → ∃ t, exec (.run g.id) s = .next t ∧ good t ∧
      each t (fun a => a.run = .halted) (fun a b => b = { a with run := .running, next := max a.next s.cyc })) ∧
    (∀ k, halted → (∃ h ∈ harts s, h.gang = g.id ∧ h.idx = k ∧ h.exit = none) →
      (∀ h ∈ harts s, h.gang = g.id → h.idx = k → h.exit = none) → ∃ t, exec (.step g.id k) s = .next t ∧ t.mem = s.mem ∧
        t.dbgCmd.toNat / 2 ^ 60 = 8 ∧ each t (fun a => a.idx = k) (fun a b => b = { a with run := .stepping })) ∧
    (halted → ∃ t, exec (.quiesce g.id) s = .next t ∧ good t ∧ (gangOf t g.id).quiesced = true ∧
      ∀ q ∈ t.copies, q.gang = g.id → q.started = true → q.frozen = true) ∧
    (∀ v e p, s.h.gang = g.id → v < 64 → (vreg s v).first = some p → (∀ x ∈ s.h.exposed, x.kept = false) → s.failedRows = [] →
      e < s.h.csr.rlen * s.h.csr.rows * s.h.csr.tiles → ∃ t, exec (.readv g.id s.h.idx v e) s = .next t ∧ good t ∧
        t.dbgData[0] = BitVec.ofNat 64 e ∧ t.dbgData[1] = BitVec.ofNat 64 (elemAt s v ((vreg s v).wm.toNat + 1) e)) ∧
    (∀ k h v e, findHart s g.id k = some h → ∀ p : v < 32, ∃ t, exec (.readx g.id k v e) s = .next t ∧ good t ∧
      t.dbgData[1] = if v = 0 then 0 else h.x[v]) ∧
    (∀ k h v e w, findHart s g.id k = some h → v < 32 → ∃ t y, exec (.writex g.id k v e w) s = .next t ∧ good t ∧
      findHart t g.id k = some { h with x := y } ∧ XWritten (BitVec.ofNat 5 v) w h.x y) ∧
    (∀ core row, core * 256 + row < 2 ^ 64 → ∃ t u, exec (.unfence core row) s = .next t ∧ t.mem = s.mem ∧ t.dbgCmd.toNat / 2 ^ 60 = 8 ∧
      (s.cyc + 2 ^ 20, .unfence core row) ∈ t.calendar ∧ t.failedRows = s.failedRows ∧
      exec (.unfence core row) { t with cyc := s.cyc + 2 ^ 20 } = .next u ∧ good u ∧
      ∀ j, j ≠ core * 256 + row → sget false u.failedRows j = sget false s.failedRows j) ∧
    ∀ space addr kind, (space = 0 ∨ space = 2 ∨ space = 3) → 1 ≤ kind → kind ≤ 3 →
      ∃ t, exec (.inject space addr kind) s = .next t ∧ good t ∧
        t.armed = s.armed ++ [⟨space, if space = 0 then addr else if space = 2 then addr / 4096 else addr / 64, kind⟩]

/-- R87, R197, R241, R258, R259, R268, R290, R361, R384: the events of copies complete: COPY_START starts the only copy, an elastic
LINEAR one, each of its chunks waiting; CHUNK_LAND of its one chunk writes its bytes and ends it; CHUNK_RETRY lets a parked chunk wait
again; TRANSFER_RETRY delays a landing; APERTURE_QUEUE_ACCEPT makes a held store to an empty channel; FOLLOW_ON_SWEEP runs a waiting outer product on
a free engine, and SWEEP_DONE ends one; KVWALK_CARRIAGE_START ends a walk at SUCC = 0 and else goes on to the next carriage. The calendar
is the model's choice (log 4). -/
def Obligations.CopyEventsComplete : Prop :=
  (∀ (s : State) (q : Copy) (n : Nat), s.copies = [q] → q.frozen = false → LinearCopy q n → s.cyc < 2 ^ 64 →
    let g := gangOf s q.gang
    let w : Who := ⟨q.part, q.asid, q.core / 96⟩
    let base := 2 ^ 40 + q.core / 8 * 2 ^ 24
    g.ending = false → g.launch.lockstep = false →
    (q.started = false → q.chunks = [] → q.indices = [] → q.tmpl.headD 0 = 0x10 → q.tmpl.drop 4 = [0, 0, 0, 0] →
      (q.tmpl.getD 3 0).toNat < 2 ^ 32 → g.st = .running → g.quiesced = false → g.hold = none → s.replicas = [] →
      q.issueCy + 4 + (g.tstart + q.off + 2 ^ 24 - (q.issueCy + 4) % 2 ^ 24) % 2 ^ 24 ≤ s.cyc →
      (sget (15, 0) s.lastServed (q.chan / 16)).2 + 4 ≤ s.cyc →
      ∃ t q', exec (.copyStart q.chan) s = .next t ∧ t.mem = s.mem ∧ t.copies = [q'] ∧ q'.id = q.id ∧ q'.started = true ∧
        q'.chunks.length = (q.dst + n - 1) / 512 - q.dst / 512 + 1 ∧ ∀ c ∈ q'.chunks, c.st = .waiting) ∧
    ∀ c, q.started = true → q.chunks = [c] →
      (c.st = .waiting → c.iss ≠ 2 ^ 64 → c.blk = q.dst / 512 → (q.dst + n - 1) / 512 = q.dst / 512 → q.tben = false → q.ren = false →
        s.poisonWord = [] → PlainVa s w (fun a => q.src ≤ a ∧ a < q.src + n) → ∃ t, exec (.chunkLand q.chan 0) s = .next t ∧ t.copies = [] ∧
          ∀ a, sget 0 t.mem a = if base + q.dst ≤ a ∧ a < base + q.dst + n then vbyte s w (q.src + (a - (base + q.dst))) else sget 0 s.mem a) ∧
      (∀ code page, c.st = .parked code page → ∃ t c', exec (.chunkRetry q.chan 0) s = .next t ∧ t.mem = s.mem ∧
        t.copies = [{ q with chunks := [c'] }] ∧ c'.st = .waiting ∧ c'.blk = c.blk ∧ (c'.due, .chunkLand q.chan 0) ∈ t.calendar) ∧
      (∀ delay, c.st = .waiting → c.due ≠ 2 ^ 64 → 0 < delay → ∃ t, exec (.transferRetry q.chan 0 delay) s = .next t ∧ t.mem = s.mem ∧
        t.copies = [{ q with chunks := [{ c with due := c.due + delay }] }] ∧ (c.due + delay, .chunkLand q.chan 0) ∈ t.calendar)) ∧
  (∀ (c : Ctl) (o : XI) (s : State) (w : Wait), s.copies = [] → w.instr = .stq c o →
    let ea := BitVec.ofInt 64 ((rx s o.xa).toNat + 16 * c.imm.toInt)
    ea.toNat % 16 = 0 → 0x20020000 ≤ ea.toNat → ea.toNat < 0x20020400 →
    (sget 0 s.templates (s.h.core / 8 * 2048 + (rx s o.xd).toNat % 256 * 8)).toNat % 16 ≠ 3 →
    ∃ t q, exec (.apertureQueueAccept s.h.gang s.h.idx) { s with h := { s.h with wait := some w } } = .next t ∧ t.mem = s.mem ∧
      t.copies = [q] ∧ q.chan = 64 * (s.h.core / 8) + (ea.toNat - 0x20020000) / 16 ∧ q.started = false ∧ t.h.wait = none ∧
      t.h.pc = pcAfter c s ∧ t.h.issued = true) ∧
  (∀ (s : State) (x : Sweep), s.sweeps = [x] →
    (x.running = true → ∃ t, exec (.sweepDone x.core) s = .next t ∧ t.mem = s.mem ∧ t.sweeps = [] ∧
      ∀ h, findHart s x.gang x.hart = some h → ∃ h', findHart t x.gang x.hart = some h' ∧
        (sget 0 h'.landed (512 * x.vreg + x.tile)).getLsbD 256 = true) ∧
    (x.running = false → x.gang = s.h.gang → x.hart = s.h.idx → x.cmd.toNat % 4 = 0 →
      ((rampAt s x.core).ahead (max (max s.cyc x.slot) (max (sget 0 s.engines x.core) s.h.units.matrix))).1 ≤ s.cyc →
      (∀ r ∈ sweepRows s x, rowAsleep s r s.cyc = false) → (gangOf s x.gang).launch.lockstep = false → s.poisonLane = [] → s.armed = [] →
      s.h.exposed = [] → (∀ n ∈ [x.cmd.toNat / 2 ^ 10 % 2 ^ 6, x.cmd.toNat / 2 ^ 16 % 2 ^ 6], (vreg s n).first.isSome = true) →
      ∃ t r, exec (.followOnSweep x.core) s = .next t ∧ t.mem = s.mem ∧
        t.sweeps = [{ x with running := true, ready := r }] ∧ s.cyc < r ∧ (r, .sweepDone x.core) ∈ t.calendar)) ∧
  ∀ (s : State) (q : Copy) (v : Walk), s.copies = [q] → RunsOn s q → q.kind = 7 → q.walk = some v → v.ended = false → q.started = true →
    q.dsp = 0 → q.ren = false → q.chunks = [] → v.j = 0 → q.dw 5 = 0 →
    let w : Who := ⟨q.part, q.asid, q.core / 96⟩
    let sh := carShape s w v.va
    let buf := bufAt s (q.core / 8) (q.dw 3 % 64)
    let heads := q.dw 4 / 2 ^ 32 % 2 ^ 16
    buf.landed = 0 →
    (v.va = 0 → ∃ t, exec (.kvwalkCarriageStart q.chan) s = .next t ∧ t.mem = s.mem ∧ t.copies = []) ∧
    (v.va ≠ 0 → v.va % 64 = 0 → PlainVa s w (line v.va) → vnum s w v.va 8 ≠ 0 → sh.ok = true → q.dw 4 / 2 ^ 48 % 4 ≠ 0 →
      q.dw 4 % 2 ^ 16 < sh.lc → q.dw 4 / 2 ^ 16 % 2 ^ 16 + heads ≤ sh.hc →
      1 + (if q.dw 4 / 2 ^ 48 % 4 = 3 then 2 else 1) * heads * ceilDiv (64 * sh.hd * sh.z) 512 ≤ buf.chunks →
      ∃ t q', exec (.kvwalkCarriageStart q.chan) s = .next t ∧ t.mem = s.mem ∧ t.copies = [q'] ∧
        q'.walk.map (fun u => u.j) = some 1 ∧ q'.walk.map (fun u => u.va) = some (vnum s w v.va 8) ∧ q'.chunks ≠ [])

/-- R315, R316, R322, R352, R355, R356, R372, R373, R388: the events of gangs complete: GANG_RETIRE and GANG_FAULT_END end one,
PREEMPTION_STOP saves one and queues it again, FAULT_RECORD_DELIVERY writes a record without a mailbox to the host fault log, TIMING_TRAP
holds a gang whose barrier is late, TIMING_CONDITION_MET notes the condition in the cy of the trap, TIMING_RESTART lets a hart go on from RPC, and WAIT_RELEASE
sends a hart that waits in TWAIT to it. The cys are the model's choice (logs 4, 37 and 48). -/
def Obligations.GangEventsComplete : Prop :=
  (∀ (s : State) (g : Gang), s.gangs = [g] →
    (g.st = .draining → g.ending = false → s.replicas = [] → ∃ t e, exec (.gangRetire g.id) s = .next t ∧ t.mem = s.mem ∧
      t.gangs = [e] ∧ e.id = g.id ∧ e.st = .retired ∧ e.clusters = 0) ∧
    (g.ending = true → g.st = .running → ∃ t e, exec (.gangFaultEnd g.id) s = .next t ∧ t.mem = s.mem ∧ t.gangs = [e] ∧ e.id = g.id ∧
      e.st = .faulted ∧ e.clusters = 0 ∧ ∀ q ∈ t.copies, q.gang ≠ g.id) ∧
    (g.st = .preempted → g.preempt = true → preemptReady s g = true → ∃ t e, exec (.preemptionStop g.id) s = .next t ∧ t.gangs = [e] ∧
      e.id = g.id ∧ e.st = .queued ∧ e.clusters = 0 ∧ e.saved.isSome = true)) ∧
  (∀ (s : State) (r : Record), s.records = [r] → r.live = false → r.part < 4 → (partAt s r.part).condgang % 2 ^ 32 = 0 →
    ∃ t, exec (.faultRecordDelivery r.n) s = .next t ∧ t.mem = s.mem ∧ t.records = [] ∧ HostLogged s t r.part (recordDwords r false)) ∧
  ∀ (s : State) (g : Gang), s.gangs = [g] → g.id = s.h.gang → g.st = .running → s.others = [] →
    (∀ x : Hart, g.launch.lockstep = true → g.hold = none → s.h.run = .running → s.h.wait.any (fun w => w.on == .gbar) = true →
      barrierSlot g s.h ≤ s.cyc → x.gang = g.id → x.idx ≠ s.h.idx → x.wait = none → x.exit = none → ∃ t,
        exec (.timingTrap g.id s.h.idx) { s with others := [x] } = .next t ∧ t.mem = s.mem ∧ t.h.run = .held ∧
          (gangOf t g.id).hold.isSome = true) ∧
    (∀ c0 sh, g.hold = some ⟨c0, [s.h.idx], [], sh⟩ → c0 = s.cyc → 0 < s.cyc → s.h.wait = none → s.h.accesses = [] →
      ∃ t, exec (.timingConditionMet g.id s.h.idx) s = .next t ∧ t.mem = s.mem ∧
        t.gangs = [{ g with hold := some ⟨c0, [s.h.idx], [(s.h.idx, s.cyc)], sh⟩ }]) ∧
    (g.hold = none → s.h.run = .held → s.h.next ≤ s.cyc → ∃ t, exec (.timingRestart g.id s.h.idx) s = .next t ∧ t.mem = s.mem ∧
      t.h.run = .running ∧ t.h.pc = s.h.csr.rpc ∧ t.h.x = s.h.restart.x ∧ t.h.wait = none) ∧
    (s.h.irqs ≠ [] → s.h.csr.status.getLsbD 0 = true → g.launch.lockstep = false → s.h.run = .running →
      s.h.wait.any (fun w => w.on == .twait) = true → ∃ t, exec (.waitRelease g.id s.h.idx) s = .next t ∧ t.mem = s.mem ∧
        t.h.pc = s.h.csr.rpc ∧ t.h.x = s.h.restart.x ∧ t.h.wait = none)

/-- Every instruction and every event answers a next state: every stop of the spec is a trap, a wait or a record. -/
def Obligations.EveryInstructionAnswers : Prop :=
  (∀ i s, ∃ t, exec i s = .next t) ∧ ∀ s, ∃ t, step s = .next t

/-- R88: every step keeps the canonical form of memory and of the scratchpad contents that a pre-emption saved. -/
def Obligations.MemoryFormIsKept : Prop :=
  ∀ (s t : State), Memory.wf s.mem = true → (∀ g ∈ s.gangs, ∀ v, g.saved = some v → Memory.wf v.scratch = true) →
    step s = .next t → Memory.wf t.mem = true ∧ ∀ g ∈ t.gangs, ∀ v, g.saved = some v → Memory.wf v.scratch = true

/-- R326, R330: every step keeps the assignment of dies to partitions, and the one under way, to the shapes of R326. -/
def Obligations.DieShapesAreKept : Prop :=
  let dies := fun (m : Word) p => (List.range 4).filter (fun d => m.toNat / 16 ^ d % 16 / 8 == 1 && m.toNat / 16 ^ d % 16 % 4 == p)
  let legal := fun m : Word => ∀ p, p < 4 → dies m p ∈ [[], [0], [1], [2], [3], [0, 1], [2, 3], [0, 1, 2, 3]]
  ∀ (s t : State), legal s.dieMap → (∀ m, s.dieChange = some m → legal m) → step s = .next t →
    legal t.dieMap ∧ ∀ m, t.dieChange = some m → legal m

/-- R315, R326, R330: after reset memory has its canonical form, no die is assigned, DIESTAT is idle, and there is no gang, copy or
message; every byte reads 0, which is the model's choice (log 1). -/
def Obligations.ResetState : Prop :=
  Memory.wf State.reset.mem = true ∧ (∀ a, sget 0 State.reset.mem a = 0) ∧ (∀ d, partOfDie State.reset d = none) ∧
  State.reset.dieStat = 0 ∧ State.reset.gangs = [] ∧ State.reset.copies = [] ∧ State.reset.msgs = [] ∧
  ∀ core, rampAt State.reset core = ⟨.cold, 0, 0, none⟩

/-- R128, R130, R131, R133, R137, R363: what encodes decodes to itself whatever words follow, with every operand and control; and what
decodes is well formed and encodes to the words it was read from. BTX has STQ's words. -/
def Obligations.EncodeAndDecodeAgree : Prop :=
  (∀ (i : Instr) (rest : List Instr32), i.wellFormed = true → i.encodable = true →
    decodeWords (encode i ++ rest) = .ok (match i with | .btx c o => .stq c o | j => j)) ∧
  ∀ (ws : List Instr32) (i : Instr), decodeWords ws = .ok i → i.wellFormed = true ∧ encode i = ws.take (encode i).length ∧
    encode i ≠ []

/-- R167, R194, R224, R227, R233, R249, R250, R251, R252, R255, R276, R277, R286, R297, R306, R308, R309, R310: words that the spec
gives with their instructions decode to them. -/
def Obligations.WordsOfTheSpecDecode : Prop :=
  let b : Ctl := Ctl.plain
  let e : Ctl := { Ctl.plain with form := .ext, rmo := 0 }
  decodeWords [0x02a83e00] = .ok (.trap { b with imm := 0x55 } ⟨0⟩) ∧
  decodeWords [0x00207001, 0, 0x100] = .ok (.tld { e with imm := 0x100 } ⟨0, 0, 2, 1⟩) ∧
  decodeWords [0x00282800] = .ok (.mcfg b ⟨0, 0, 5, 0⟩) ∧
  decodeWords [0x08102901, 0, 3] = .ok (.mop { e with imm := 3 } ⟨2, 1, 0⟩) ∧
  decodeWords [0x00002880] = .ok (.mzero b ⟨0, 0, 0⟩) ∧
  decodeWords [0x0010ad80] = .ok (.sexp b ⟨0, 1, 2⟩) ∧
  decodeWords [0x0c206e00] = .ok (.sfit b ⟨3, 2, 1⟩) ∧
  decodeWords [0x0a606e80] = .ok (.sargmin b ⟨0, 5, 6, 1⟩) ∧
  decodeWords [0x06212f01, 0, 0] = .ok (.vgen e ⟨0, 3, 2, 4⟩) ∧
  decodeWords [0x13498900] = .ok (.stq { b with imm := 19 } ⟨9, 6⟩) ∧
  decodeWords [0x06293080] = .ok (.binput b ⟨0, 6, 5, 4⟩) ∧
  decodeWords [0x0000f100] = .ok (.binflush b ⟨0, 0, 0, 3⟩) ∧
  decodeWords [0x03107180] = .ok (.kvapp b ⟨0, 3, 2, 1⟩) ∧
  decodeWords [0x25113200] = .ok (.retspan b ⟨1, 5, 2, 4⟩) ∧
  decodeWords [0x0084f500] = .ok (.sadd b ⟨0, 2, 1, 3⟩) ∧
  decodeWords [0x05303a00] = .ok (.amox b ⟨0, 0, 5, 6, 0⟩) ∧
  decodeWords [0x21003b00] = .ok (.fence b ⟨0, 4, 1, 0, 0⟩) ∧
  decodeWords [0xc3293a80] = .ok (.fencer b ⟨1, 8, 3, 5, 4⟩) ∧
  decodeWords [0x06293b80] = .ok (.waitm b ⟨0, 6, 5, 4⟩) ∧
  decodeWords [0x20003b80] = .ok (.gbar b ⟨1, 0, 0, 0⟩)
end

