-- ==== Sys2Proof/Laws/State.lean ====
section
/-! SUPPORT. What each update of the state leaves: one lemma per field per update, so that no proof unfolds a record update. -/
namespace Sys2Proof.Machine

/-! modH -/
@[simp] theorem modH_cyc (s : State) (f : Hart → Hart) : (modH s f).cyc = s.cyc := rfl
@[simp] theorem modH_free (s : State) (f : Hart → Hart) : (modH s f).free = s.free := rfl
@[simp] theorem modH_agenda (s : State) (f : Hart → Hart) : (modH s f).agenda = s.agenda := rfl
@[simp] theorem modH_calendar (s : State) (f : Hart → Hart) : (modH s f).calendar = s.calendar := rfl
@[simp] theorem modH_fresh (s : State) (f : Hart → Hart) : (modH s f).fresh = s.fresh := rfl
@[simp] theorem modH_others (s : State) (f : Hart → Hart) : (modH s f).others = s.others := rfl
@[simp] theorem modH_gangs (s : State) (f : Hart → Hart) : (modH s f).gangs = s.gangs := rfl
@[simp] theorem modH_parts (s : State) (f : Hart → Hart) : (modH s f).parts = s.parts := rfl
@[simp] theorem modH_mem (s : State) (f : Hart → Hart) : (modH s f).mem = s.mem := rfl
@[simp] theorem modH_planes (s : State) (f : Hart → Hart) : (modH s f).planes = s.planes := rfl
@[simp] theorem modH_acc (s : State) (f : Hart → Hart) : (modH s f).acc = s.acc := rfl
@[simp] theorem modH_tables (s : State) (f : Hart → Hart) : (modH s f).tables = s.tables := rfl
@[simp] theorem modH_templates (s : State) (f : Hart → Hart) : (modH s f).templates = s.templates := rfl
@[simp] theorem modH_bufs (s : State) (f : Hart → Hart) : (modH s f).bufs = s.bufs := rfl
@[simp] theorem modH_bufLandings (s : State) (f : Hart → Hart) : (modH s f).bufLandings = s.bufLandings := rfl
@[simp] theorem modH_cvtab (s : State) (f : Hart → Hart) : (modH s f).cvtab = s.cvtab := rfl
@[simp] theorem modH_icache (s : State) (f : Hart → Hart) : (modH s f).icache = s.icache := rfl
@[simp] theorem modH_lastServed (s : State) (f : Hart → Hart) : (modH s f).lastServed = s.lastServed := rfl
@[simp] theorem modH_copies (s : State) (f : Hart → Hart) : (modH s f).copies = s.copies := rfl
@[simp] theorem modH_sweeps (s : State) (f : Hart → Hart) : (modH s f).sweeps = s.sweeps := rfl
@[simp] theorem modH_ramps (s : State) (f : Hart → Hart) : (modH s f).ramps = s.ramps := rfl
@[simp] theorem modH_engines (s : State) (f : Hart → Hart) : (modH s f).engines = s.engines := rfl
@[simp] theorem modH_bins (s : State) (f : Hart → Hart) : (modH s f).bins = s.bins := rfl
@[simp] theorem modH_binFree (s : State) (f : Hart → Hart) : (modH s f).binFree = s.binFree := rfl
@[simp] theorem modH_coachOps (s : State) (f : Hart → Hart) : (modH s f).coachOps = s.coachOps := rfl
@[simp] theorem modH_requests (s : State) (f : Hart → Hart) : (modH s f).requests = s.requests := rfl
@[simp] theorem modH_records (s : State) (f : Hart → Hart) : (modH s f).records = s.records := rfl
@[simp] theorem modH_migrations (s : State) (f : Hart → Hart) : (modH s f).migrations = s.migrations := rfl
@[simp] theorem modH_replicas (s : State) (f : Hart → Hart) : (modH s f).replicas = s.replicas := rfl
@[simp] theorem modH_stamps (s : State) (f : Hart → Hart) : (modH s f).stamps = s.stamps := rfl
@[simp] theorem modH_writers (s : State) (f : Hart → Hart) : (modH s f).writers = s.writers := rfl
@[simp] theorem modH_caches (s : State) (f : Hart → Hart) : (modH s f).caches = s.caches := rfl
@[simp] theorem modH_locked (s : State) (f : Hart → Hart) : (modH s f).locked = s.locked := rfl
@[simp] theorem modH_dieMap (s : State) (f : Hart → Hart) : (modH s f).dieMap = s.dieMap := rfl
@[simp] theorem modH_dieStat (s : State) (f : Hart → Hart) : (modH s f).dieStat = s.dieStat := rfl
@[simp] theorem modH_dieChange (s : State) (f : Hart → Hart) : (modH s f).dieChange = s.dieChange := rfl
@[simp] theorem modH_shareReg (s : State) (f : Hart → Hart) : (modH s f).shareReg = s.shareReg := rfl
@[simp] theorem modH_hostLink (s : State) (f : Hart → Hart) : (modH s f).hostLink = s.hostLink := rfl
@[simp] theorem modH_stver (s : State) (f : Hart → Hart) : (modH s f).stver = s.stver := rfl
@[simp] theorem modH_pfMsix (s : State) (f : Hart → Hart) : (modH s f).pfMsix = s.pfMsix := rfl
@[simp] theorem modH_dbgCmd (s : State) (f : Hart → Hart) : (modH s f).dbgCmd = s.dbgCmd := rfl
@[simp] theorem modH_dbgData (s : State) (f : Hart → Hart) : (modH s f).dbgData = s.dbgData := rfl
@[simp] theorem modH_dbgGang (s : State) (f : Hart → Hart) : (modH s f).dbgGang = s.dbgGang := rfl
@[simp] theorem modH_monitors (s : State) (f : Hart → Hart) : (modH s f).monitors = s.monitors := rfl
@[simp] theorem modH_monBefore (s : State) (f : Hart → Hart) : (modH s f).monBefore = s.monBefore := rfl
@[simp] theorem modH_poisonLane (s : State) (f : Hart → Hart) : (modH s f).poisonLane = s.poisonLane := rfl
@[simp] theorem modH_poisonWord (s : State) (f : Hart → Hart) : (modH s f).poisonWord = s.poisonWord := rfl
@[simp] theorem modH_poisonAcc (s : State) (f : Hart → Hart) : (modH s f).poisonAcc = s.poisonAcc := rfl
@[simp] theorem modH_poisonHbm (s : State) (f : Hart → Hart) : (modH s f).poisonHbm = s.poisonHbm := rfl
@[simp] theorem modH_corrections (s : State) (f : Hart → Hart) : (modH s f).corrections = s.corrections := rfl
@[simp] theorem modH_failedRows (s : State) (f : Hart → Hart) : (modH s f).failedRows = s.failedRows := rfl
@[simp] theorem modH_fencedRows (s : State) (f : Hart → Hart) : (modH s f).fencedRows = s.fencedRows := rfl
@[simp] theorem modH_merge (s : State) (f : Hart → Hart) : (modH s f).merge = s.merge := rfl
@[simp] theorem modH_armed (s : State) (f : Hart → Hart) : (modH s f).armed = s.armed := rfl
@[simp] theorem modH_drowsy (s : State) (f : Hart → Hart) : (modH s f).drowsy = s.drowsy := rfl
@[simp] theorem modH_touched (s : State) (f : Hart → Hart) : (modH s f).touched = s.touched := rfl
@[simp] theorem modH_diesOut (s : State) (f : Hart → Hart) : (modH s f).diesOut = s.diesOut := rfl
@[simp] theorem modH_stalled (s : State) (f : Hart → Hart) : (modH s f).stalled = s.stalled := rfl
@[simp] theorem modH_powerStalled (s : State) (f : Hart → Hart) : (modH s f).powerStalled = s.powerStalled := rfl
@[simp] theorem modH_fuseKey (s : State) (f : Hart → Hart) : (modH s f).fuseKey = s.fuseKey := rfl
@[simp] theorem modH_bootOk (s : State) (f : Hart → Hart) : (modH s f).bootOk = s.bootOk := rfl
@[simp] theorem modH_bootFailed (s : State) (f : Hart → Hart) : (modH s f).bootFailed = s.bootFailed := rfl
@[simp] theorem modH_measures (s : State) (f : Hart → Hart) : (modH s f).measures = s.measures := rfl
@[simp] theorem modH_attCount (s : State) (f : Hart → Hart) : (modH s f).attCount = s.attCount := rfl
@[simp] theorem modH_msgs (s : State) (f : Hart → Hart) : (modH s f).msgs = s.msgs := rfl
@[simp] theorem modH_hostData (s : State) (f : Hart → Hart) : (modH s f).hostData = s.hostData := rfl

/-! modCsr -/
@[simp] theorem modCsr_cyc (s : State) (f : Csrs → Csrs) : (modCsr s f).cyc = s.cyc := rfl
@[simp] theorem modCsr_free (s : State) (f : Csrs → Csrs) : (modCsr s f).free = s.free := rfl
@[simp] theorem modCsr_agenda (s : State) (f : Csrs → Csrs) : (modCsr s f).agenda = s.agenda := rfl
@[simp] theorem modCsr_calendar (s : State) (f : Csrs → Csrs) : (modCsr s f).calendar = s.calendar := rfl
@[simp] theorem modCsr_fresh (s : State) (f : Csrs → Csrs) : (modCsr s f).fresh = s.fresh := rfl
@[simp] theorem modCsr_others (s : State) (f : Csrs → Csrs) : (modCsr s f).others = s.others := rfl
@[simp] theorem modCsr_gangs (s : State) (f : Csrs → Csrs) : (modCsr s f).gangs = s.gangs := rfl
@[simp] theorem modCsr_parts (s : State) (f : Csrs → Csrs) : (modCsr s f).parts = s.parts := rfl
@[simp] theorem modCsr_mem (s : State) (f : Csrs → Csrs) : (modCsr s f).mem = s.mem := rfl
@[simp] theorem modCsr_planes (s : State) (f : Csrs → Csrs) : (modCsr s f).planes = s.planes := rfl
@[simp] theorem modCsr_acc (s : State) (f : Csrs → Csrs) : (modCsr s f).acc = s.acc := rfl
@[simp] theorem modCsr_tables (s : State) (f : Csrs → Csrs) : (modCsr s f).tables = s.tables := rfl
@[simp] theorem modCsr_templates (s : State) (f : Csrs → Csrs) : (modCsr s f).templates = s.templates := rfl
@[simp] theorem modCsr_bufs (s : State) (f : Csrs → Csrs) : (modCsr s f).bufs = s.bufs := rfl
@[simp] theorem modCsr_bufLandings (s : State) (f : Csrs → Csrs) : (modCsr s f).bufLandings = s.bufLandings := rfl
@[simp] theorem modCsr_cvtab (s : State) (f : Csrs → Csrs) : (modCsr s f).cvtab = s.cvtab := rfl
@[simp] theorem modCsr_icache (s : State) (f : Csrs → Csrs) : (modCsr s f).icache = s.icache := rfl
@[simp] theorem modCsr_lastServed (s : State) (f : Csrs → Csrs) : (modCsr s f).lastServed = s.lastServed := rfl
@[simp] theorem modCsr_copies (s : State) (f : Csrs → Csrs) : (modCsr s f).copies = s.copies := rfl
@[simp] theorem modCsr_sweeps (s : State) (f : Csrs → Csrs) : (modCsr s f).sweeps = s.sweeps := rfl
@[simp] theorem modCsr_ramps (s : State) (f : Csrs → Csrs) : (modCsr s f).ramps = s.ramps := rfl
@[simp] theorem modCsr_engines (s : State) (f : Csrs → Csrs) : (modCsr s f).engines = s.engines := rfl
@[simp] theorem modCsr_bins (s : State) (f : Csrs → Csrs) : (modCsr s f).bins = s.bins := rfl
@[simp] theorem modCsr_binFree (s : State) (f : Csrs → Csrs) : (modCsr s f).binFree = s.binFree := rfl
@[simp] theorem modCsr_coachOps (s : State) (f : Csrs → Csrs) : (modCsr s f).coachOps = s.coachOps := rfl
@[simp] theorem modCsr_requests (s : State) (f : Csrs → Csrs) : (modCsr s f).requests = s.requests := rfl
@[simp] theorem modCsr_records (s : State) (f : Csrs → Csrs) : (modCsr s f).records = s.records := rfl
@[simp] theorem modCsr_migrations (s : State) (f : Csrs → Csrs) : (modCsr s f).migrations = s.migrations := rfl
@[simp] theorem modCsr_replicas (s : State) (f : Csrs → Csrs) : (modCsr s f).replicas = s.replicas := rfl
@[simp] theorem modCsr_stamps (s : State) (f : Csrs → Csrs) : (modCsr s f).stamps = s.stamps := rfl
@[simp] theorem modCsr_writers (s : State) (f : Csrs → Csrs) : (modCsr s f).writers = s.writers := rfl
@[simp] theorem modCsr_caches (s : State) (f : Csrs → Csrs) : (modCsr s f).caches = s.caches := rfl
@[simp] theorem modCsr_locked (s : State) (f : Csrs → Csrs) : (modCsr s f).locked = s.locked := rfl
@[simp] theorem modCsr_dieMap (s : State) (f : Csrs → Csrs) : (modCsr s f).dieMap = s.dieMap := rfl
@[simp] theorem modCsr_dieStat (s : State) (f : Csrs → Csrs) : (modCsr s f).dieStat = s.dieStat := rfl
@[simp] theorem modCsr_dieChange (s : State) (f : Csrs → Csrs) : (modCsr s f).dieChange = s.dieChange := rfl
@[simp] theorem modCsr_shareReg (s : State) (f : Csrs → Csrs) : (modCsr s f).shareReg = s.shareReg := rfl
@[simp] theorem modCsr_hostLink (s : State) (f : Csrs → Csrs) : (modCsr s f).hostLink = s.hostLink := rfl
@[simp] theorem modCsr_stver (s : State) (f : Csrs → Csrs) : (modCsr s f).stver = s.stver := rfl
@[simp] theorem modCsr_pfMsix (s : State) (f : Csrs → Csrs) : (modCsr s f).pfMsix = s.pfMsix := rfl
@[simp] theorem modCsr_dbgCmd (s : State) (f : Csrs → Csrs) : (modCsr s f).dbgCmd = s.dbgCmd := rfl
@[simp] theorem modCsr_dbgData (s : State) (f : Csrs → Csrs) : (modCsr s f).dbgData = s.dbgData := rfl
@[simp] theorem modCsr_dbgGang (s : State) (f : Csrs → Csrs) : (modCsr s f).dbgGang = s.dbgGang := rfl
@[simp] theorem modCsr_monitors (s : State) (f : Csrs → Csrs) : (modCsr s f).monitors = s.monitors := rfl
@[simp] theorem modCsr_monBefore (s : State) (f : Csrs → Csrs) : (modCsr s f).monBefore = s.monBefore := rfl
@[simp] theorem modCsr_poisonLane (s : State) (f : Csrs → Csrs) : (modCsr s f).poisonLane = s.poisonLane := rfl
@[simp] theorem modCsr_poisonWord (s : State) (f : Csrs → Csrs) : (modCsr s f).poisonWord = s.poisonWord := rfl
@[simp] theorem modCsr_poisonAcc (s : State) (f : Csrs → Csrs) : (modCsr s f).poisonAcc = s.poisonAcc := rfl
@[simp] theorem modCsr_poisonHbm (s : State) (f : Csrs → Csrs) : (modCsr s f).poisonHbm = s.poisonHbm := rfl
@[simp] theorem modCsr_corrections (s : State) (f : Csrs → Csrs) : (modCsr s f).corrections = s.corrections := rfl
@[simp] theorem modCsr_failedRows (s : State) (f : Csrs → Csrs) : (modCsr s f).failedRows = s.failedRows := rfl
@[simp] theorem modCsr_fencedRows (s : State) (f : Csrs → Csrs) : (modCsr s f).fencedRows = s.fencedRows := rfl
@[simp] theorem modCsr_merge (s : State) (f : Csrs → Csrs) : (modCsr s f).merge = s.merge := rfl
@[simp] theorem modCsr_armed (s : State) (f : Csrs → Csrs) : (modCsr s f).armed = s.armed := rfl
@[simp] theorem modCsr_drowsy (s : State) (f : Csrs → Csrs) : (modCsr s f).drowsy = s.drowsy := rfl
@[simp] theorem modCsr_touched (s : State) (f : Csrs → Csrs) : (modCsr s f).touched = s.touched := rfl
@[simp] theorem modCsr_diesOut (s : State) (f : Csrs → Csrs) : (modCsr s f).diesOut = s.diesOut := rfl
@[simp] theorem modCsr_stalled (s : State) (f : Csrs → Csrs) : (modCsr s f).stalled = s.stalled := rfl
@[simp] theorem modCsr_powerStalled (s : State) (f : Csrs → Csrs) : (modCsr s f).powerStalled = s.powerStalled := rfl
@[simp] theorem modCsr_fuseKey (s : State) (f : Csrs → Csrs) : (modCsr s f).fuseKey = s.fuseKey := rfl
@[simp] theorem modCsr_bootOk (s : State) (f : Csrs → Csrs) : (modCsr s f).bootOk = s.bootOk := rfl
@[simp] theorem modCsr_bootFailed (s : State) (f : Csrs → Csrs) : (modCsr s f).bootFailed = s.bootFailed := rfl
@[simp] theorem modCsr_measures (s : State) (f : Csrs → Csrs) : (modCsr s f).measures = s.measures := rfl
@[simp] theorem modCsr_attCount (s : State) (f : Csrs → Csrs) : (modCsr s f).attCount = s.attCount := rfl
@[simp] theorem modCsr_msgs (s : State) (f : Csrs → Csrs) : (modCsr s f).msgs = s.msgs := rfl
@[simp] theorem modCsr_hostData (s : State) (f : Csrs → Csrs) : (modCsr s f).hostData = s.hostData := rfl

/-! goTo -/
@[simp] theorem goTo_cyc (s : State) (pc : Word) : (goTo pc s).cyc = s.cyc := rfl
@[simp] theorem goTo_free (s : State) (pc : Word) : (goTo pc s).free = s.free := rfl
@[simp] theorem goTo_agenda (s : State) (pc : Word) : (goTo pc s).agenda = s.agenda := rfl
@[simp] theorem goTo_calendar (s : State) (pc : Word) : (goTo pc s).calendar = s.calendar := rfl
@[simp] theorem goTo_fresh (s : State) (pc : Word) : (goTo pc s).fresh = s.fresh := rfl
@[simp] theorem goTo_others (s : State) (pc : Word) : (goTo pc s).others = s.others := rfl
@[simp] theorem goTo_gangs (s : State) (pc : Word) : (goTo pc s).gangs = s.gangs := rfl
@[simp] theorem goTo_parts (s : State) (pc : Word) : (goTo pc s).parts = s.parts := rfl
@[simp] theorem goTo_mem (s : State) (pc : Word) : (goTo pc s).mem = s.mem := rfl
@[simp] theorem goTo_planes (s : State) (pc : Word) : (goTo pc s).planes = s.planes := rfl
@[simp] theorem goTo_acc (s : State) (pc : Word) : (goTo pc s).acc = s.acc := rfl
@[simp] theorem goTo_tables (s : State) (pc : Word) : (goTo pc s).tables = s.tables := rfl
@[simp] theorem goTo_templates (s : State) (pc : Word) : (goTo pc s).templates = s.templates := rfl
@[simp] theorem goTo_bufs (s : State) (pc : Word) : (goTo pc s).bufs = s.bufs := rfl
@[simp] theorem goTo_bufLandings (s : State) (pc : Word) : (goTo pc s).bufLandings = s.bufLandings := rfl
@[simp] theorem goTo_cvtab (s : State) (pc : Word) : (goTo pc s).cvtab = s.cvtab := rfl
@[simp] theorem goTo_icache (s : State) (pc : Word) : (goTo pc s).icache = s.icache := rfl
@[simp] theorem goTo_lastServed (s : State) (pc : Word) : (goTo pc s).lastServed = s.lastServed := rfl
@[simp] theorem goTo_copies (s : State) (pc : Word) : (goTo pc s).copies = s.copies := rfl
@[simp] theorem goTo_sweeps (s : State) (pc : Word) : (goTo pc s).sweeps = s.sweeps := rfl
@[simp] theorem goTo_ramps (s : State) (pc : Word) : (goTo pc s).ramps = s.ramps := rfl
@[simp] theorem goTo_engines (s : State) (pc : Word) : (goTo pc s).engines = s.engines := rfl
@[simp] theorem goTo_bins (s : State) (pc : Word) : (goTo pc s).bins = s.bins := rfl
@[simp] theorem goTo_binFree (s : State) (pc : Word) : (goTo pc s).binFree = s.binFree := rfl
@[simp] theorem goTo_coachOps (s : State) (pc : Word) : (goTo pc s).coachOps = s.coachOps := rfl
@[simp] theorem goTo_requests (s : State) (pc : Word) : (goTo pc s).requests = s.requests := rfl
@[simp] theorem goTo_records (s : State) (pc : Word) : (goTo pc s).records = s.records := rfl
@[simp] theorem goTo_migrations (s : State) (pc : Word) : (goTo pc s).migrations = s.migrations := rfl
@[simp] theorem goTo_replicas (s : State) (pc : Word) : (goTo pc s).replicas = s.replicas := rfl
@[simp] theorem goTo_stamps (s : State) (pc : Word) : (goTo pc s).stamps = s.stamps := rfl
@[simp] theorem goTo_writers (s : State) (pc : Word) : (goTo pc s).writers = s.writers := rfl
@[simp] theorem goTo_caches (s : State) (pc : Word) : (goTo pc s).caches = s.caches := rfl
@[simp] theorem goTo_locked (s : State) (pc : Word) : (goTo pc s).locked = s.locked := rfl
@[simp] theorem goTo_dieMap (s : State) (pc : Word) : (goTo pc s).dieMap = s.dieMap := rfl
@[simp] theorem goTo_dieStat (s : State) (pc : Word) : (goTo pc s).dieStat = s.dieStat := rfl
@[simp] theorem goTo_dieChange (s : State) (pc : Word) : (goTo pc s).dieChange = s.dieChange := rfl
@[simp] theorem goTo_shareReg (s : State) (pc : Word) : (goTo pc s).shareReg = s.shareReg := rfl
@[simp] theorem goTo_hostLink (s : State) (pc : Word) : (goTo pc s).hostLink = s.hostLink := rfl
@[simp] theorem goTo_stver (s : State) (pc : Word) : (goTo pc s).stver = s.stver := rfl
@[simp] theorem goTo_pfMsix (s : State) (pc : Word) : (goTo pc s).pfMsix = s.pfMsix := rfl
@[simp] theorem goTo_dbgCmd (s : State) (pc : Word) : (goTo pc s).dbgCmd = s.dbgCmd := rfl
@[simp] theorem goTo_dbgData (s : State) (pc : Word) : (goTo pc s).dbgData = s.dbgData := rfl
@[simp] theorem goTo_dbgGang (s : State) (pc : Word) : (goTo pc s).dbgGang = s.dbgGang := rfl
@[simp] theorem goTo_monitors (s : State) (pc : Word) : (goTo pc s).monitors = s.monitors := rfl
@[simp] theorem goTo_monBefore (s : State) (pc : Word) : (goTo pc s).monBefore = s.monBefore := rfl
@[simp] theorem goTo_poisonLane (s : State) (pc : Word) : (goTo pc s).poisonLane = s.poisonLane := rfl
@[simp] theorem goTo_poisonWord (s : State) (pc : Word) : (goTo pc s).poisonWord = s.poisonWord := rfl
@[simp] theorem goTo_poisonAcc (s : State) (pc : Word) : (goTo pc s).poisonAcc = s.poisonAcc := rfl
@[simp] theorem goTo_poisonHbm (s : State) (pc : Word) : (goTo pc s).poisonHbm = s.poisonHbm := rfl
@[simp] theorem goTo_corrections (s : State) (pc : Word) : (goTo pc s).corrections = s.corrections := rfl
@[simp] theorem goTo_failedRows (s : State) (pc : Word) : (goTo pc s).failedRows = s.failedRows := rfl
@[simp] theorem goTo_fencedRows (s : State) (pc : Word) : (goTo pc s).fencedRows = s.fencedRows := rfl
@[simp] theorem goTo_merge (s : State) (pc : Word) : (goTo pc s).merge = s.merge := rfl
@[simp] theorem goTo_armed (s : State) (pc : Word) : (goTo pc s).armed = s.armed := rfl
@[simp] theorem goTo_drowsy (s : State) (pc : Word) : (goTo pc s).drowsy = s.drowsy := rfl
@[simp] theorem goTo_touched (s : State) (pc : Word) : (goTo pc s).touched = s.touched := rfl
@[simp] theorem goTo_diesOut (s : State) (pc : Word) : (goTo pc s).diesOut = s.diesOut := rfl
@[simp] theorem goTo_stalled (s : State) (pc : Word) : (goTo pc s).stalled = s.stalled := rfl
@[simp] theorem goTo_powerStalled (s : State) (pc : Word) : (goTo pc s).powerStalled = s.powerStalled := rfl
@[simp] theorem goTo_fuseKey (s : State) (pc : Word) : (goTo pc s).fuseKey = s.fuseKey := rfl
@[simp] theorem goTo_bootOk (s : State) (pc : Word) : (goTo pc s).bootOk = s.bootOk := rfl
@[simp] theorem goTo_bootFailed (s : State) (pc : Word) : (goTo pc s).bootFailed = s.bootFailed := rfl
@[simp] theorem goTo_measures (s : State) (pc : Word) : (goTo pc s).measures = s.measures := rfl
@[simp] theorem goTo_attCount (s : State) (pc : Word) : (goTo pc s).attCount = s.attCount := rfl
@[simp] theorem goTo_msgs (s : State) (pc : Word) : (goTo pc s).msgs = s.msgs := rfl
@[simp] theorem goTo_hostData (s : State) (pc : Word) : (goTo pc s).hostData = s.hostData := rfl

/-! retire -/
@[simp] theorem retire_cyc (s : State) (c : Ctl) : (retire c s).cyc = s.cyc := rfl
@[simp] theorem retire_free (s : State) (c : Ctl) : (retire c s).free = s.free := rfl
@[simp] theorem retire_agenda (s : State) (c : Ctl) : (retire c s).agenda = s.agenda := rfl
@[simp] theorem retire_calendar (s : State) (c : Ctl) : (retire c s).calendar = s.calendar := rfl
@[simp] theorem retire_fresh (s : State) (c : Ctl) : (retire c s).fresh = s.fresh := rfl
@[simp] theorem retire_others (s : State) (c : Ctl) : (retire c s).others = s.others := rfl
@[simp] theorem retire_gangs (s : State) (c : Ctl) : (retire c s).gangs = s.gangs := rfl
@[simp] theorem retire_parts (s : State) (c : Ctl) : (retire c s).parts = s.parts := rfl
@[simp] theorem retire_mem (s : State) (c : Ctl) : (retire c s).mem = s.mem := rfl
@[simp] theorem retire_planes (s : State) (c : Ctl) : (retire c s).planes = s.planes := rfl
@[simp] theorem retire_acc (s : State) (c : Ctl) : (retire c s).acc = s.acc := rfl
@[simp] theorem retire_tables (s : State) (c : Ctl) : (retire c s).tables = s.tables := rfl
@[simp] theorem retire_templates (s : State) (c : Ctl) : (retire c s).templates = s.templates := rfl
@[simp] theorem retire_bufs (s : State) (c : Ctl) : (retire c s).bufs = s.bufs := rfl
@[simp] theorem retire_bufLandings (s : State) (c : Ctl) : (retire c s).bufLandings = s.bufLandings := rfl
@[simp] theorem retire_cvtab (s : State) (c : Ctl) : (retire c s).cvtab = s.cvtab := rfl
@[simp] theorem retire_icache (s : State) (c : Ctl) : (retire c s).icache = s.icache := rfl
@[simp] theorem retire_lastServed (s : State) (c : Ctl) : (retire c s).lastServed = s.lastServed := rfl
@[simp] theorem retire_copies (s : State) (c : Ctl) : (retire c s).copies = s.copies := rfl
@[simp] theorem retire_sweeps (s : State) (c : Ctl) : (retire c s).sweeps = s.sweeps := rfl
@[simp] theorem retire_ramps (s : State) (c : Ctl) : (retire c s).ramps = s.ramps := rfl
@[simp] theorem retire_engines (s : State) (c : Ctl) : (retire c s).engines = s.engines := rfl
@[simp] theorem retire_bins (s : State) (c : Ctl) : (retire c s).bins = s.bins := rfl
@[simp] theorem retire_binFree (s : State) (c : Ctl) : (retire c s).binFree = s.binFree := rfl
@[simp] theorem retire_coachOps (s : State) (c : Ctl) : (retire c s).coachOps = s.coachOps := rfl
@[simp] theorem retire_requests (s : State) (c : Ctl) : (retire c s).requests = s.requests := rfl
@[simp] theorem retire_records (s : State) (c : Ctl) : (retire c s).records = s.records := rfl
@[simp] theorem retire_migrations (s : State) (c : Ctl) : (retire c s).migrations = s.migrations := rfl
@[simp] theorem retire_replicas (s : State) (c : Ctl) : (retire c s).replicas = s.replicas := rfl
@[simp] theorem retire_stamps (s : State) (c : Ctl) : (retire c s).stamps = s.stamps := rfl
@[simp] theorem retire_writers (s : State) (c : Ctl) : (retire c s).writers = s.writers := rfl
@[simp] theorem retire_caches (s : State) (c : Ctl) : (retire c s).caches = s.caches := rfl
@[simp] theorem retire_locked (s : State) (c : Ctl) : (retire c s).locked = s.locked := rfl
@[simp] theorem retire_dieMap (s : State) (c : Ctl) : (retire c s).dieMap = s.dieMap := rfl
@[simp] theorem retire_dieStat (s : State) (c : Ctl) : (retire c s).dieStat = s.dieStat := rfl
@[simp] theorem retire_dieChange (s : State) (c : Ctl) : (retire c s).dieChange = s.dieChange := rfl
@[simp] theorem retire_shareReg (s : State) (c : Ctl) : (retire c s).shareReg = s.shareReg := rfl
@[simp] theorem retire_hostLink (s : State) (c : Ctl) : (retire c s).hostLink = s.hostLink := rfl
@[simp] theorem retire_stver (s : State) (c : Ctl) : (retire c s).stver = s.stver := rfl
@[simp] theorem retire_pfMsix (s : State) (c : Ctl) : (retire c s).pfMsix = s.pfMsix := rfl
@[simp] theorem retire_dbgCmd (s : State) (c : Ctl) : (retire c s).dbgCmd = s.dbgCmd := rfl
@[simp] theorem retire_dbgData (s : State) (c : Ctl) : (retire c s).dbgData = s.dbgData := rfl
@[simp] theorem retire_dbgGang (s : State) (c : Ctl) : (retire c s).dbgGang = s.dbgGang := rfl
@[simp] theorem retire_monitors (s : State) (c : Ctl) : (retire c s).monitors = s.monitors := rfl
@[simp] theorem retire_monBefore (s : State) (c : Ctl) : (retire c s).monBefore = s.monBefore := rfl
@[simp] theorem retire_poisonLane (s : State) (c : Ctl) : (retire c s).poisonLane = s.poisonLane := rfl
@[simp] theorem retire_poisonWord (s : State) (c : Ctl) : (retire c s).poisonWord = s.poisonWord := rfl
@[simp] theorem retire_poisonAcc (s : State) (c : Ctl) : (retire c s).poisonAcc = s.poisonAcc := rfl
@[simp] theorem retire_poisonHbm (s : State) (c : Ctl) : (retire c s).poisonHbm = s.poisonHbm := rfl
@[simp] theorem retire_corrections (s : State) (c : Ctl) : (retire c s).corrections = s.corrections := rfl
@[simp] theorem retire_failedRows (s : State) (c : Ctl) : (retire c s).failedRows = s.failedRows := rfl
@[simp] theorem retire_fencedRows (s : State) (c : Ctl) : (retire c s).fencedRows = s.fencedRows := rfl
@[simp] theorem retire_merge (s : State) (c : Ctl) : (retire c s).merge = s.merge := rfl
@[simp] theorem retire_armed (s : State) (c : Ctl) : (retire c s).armed = s.armed := rfl
@[simp] theorem retire_drowsy (s : State) (c : Ctl) : (retire c s).drowsy = s.drowsy := rfl
@[simp] theorem retire_touched (s : State) (c : Ctl) : (retire c s).touched = s.touched := rfl
@[simp] theorem retire_diesOut (s : State) (c : Ctl) : (retire c s).diesOut = s.diesOut := rfl
@[simp] theorem retire_stalled (s : State) (c : Ctl) : (retire c s).stalled = s.stalled := rfl
@[simp] theorem retire_powerStalled (s : State) (c : Ctl) : (retire c s).powerStalled = s.powerStalled := rfl
@[simp] theorem retire_fuseKey (s : State) (c : Ctl) : (retire c s).fuseKey = s.fuseKey := rfl
@[simp] theorem retire_bootOk (s : State) (c : Ctl) : (retire c s).bootOk = s.bootOk := rfl
@[simp] theorem retire_bootFailed (s : State) (c : Ctl) : (retire c s).bootFailed = s.bootFailed := rfl
@[simp] theorem retire_measures (s : State) (c : Ctl) : (retire c s).measures = s.measures := rfl
@[simp] theorem retire_attCount (s : State) (c : Ctl) : (retire c s).attCount = s.attCount := rfl
@[simp] theorem retire_msgs (s : State) (c : Ctl) : (retire c s).msgs = s.msgs := rfl
@[simp] theorem retire_hostData (s : State) (c : Ctl) : (retire c s).hostData = s.hostData := rfl

/-! setWork -/
@[simp] theorem setWork_cyc (s : State) (n : Nat) : (setWork s n).cyc = s.cyc := rfl
@[simp] theorem setWork_free (s : State) (n : Nat) : (setWork s n).free = s.free := rfl
@[simp] theorem setWork_agenda (s : State) (n : Nat) : (setWork s n).agenda = s.agenda := rfl
@[simp] theorem setWork_calendar (s : State) (n : Nat) : (setWork s n).calendar = s.calendar := rfl
@[simp] theorem setWork_fresh (s : State) (n : Nat) : (setWork s n).fresh = s.fresh := rfl
@[simp] theorem setWork_others (s : State) (n : Nat) : (setWork s n).others = s.others := rfl
@[simp] theorem setWork_gangs (s : State) (n : Nat) : (setWork s n).gangs = s.gangs := rfl
@[simp] theorem setWork_parts (s : State) (n : Nat) : (setWork s n).parts = s.parts := rfl
@[simp] theorem setWork_mem (s : State) (n : Nat) : (setWork s n).mem = s.mem := rfl
@[simp] theorem setWork_planes (s : State) (n : Nat) : (setWork s n).planes = s.planes := rfl
@[simp] theorem setWork_acc (s : State) (n : Nat) : (setWork s n).acc = s.acc := rfl
@[simp] theorem setWork_tables (s : State) (n : Nat) : (setWork s n).tables = s.tables := rfl
@[simp] theorem setWork_templates (s : State) (n : Nat) : (setWork s n).templates = s.templates := rfl
@[simp] theorem setWork_bufs (s : State) (n : Nat) : (setWork s n).bufs = s.bufs := rfl
@[simp] theorem setWork_bufLandings (s : State) (n : Nat) : (setWork s n).bufLandings = s.bufLandings := rfl
@[simp] theorem setWork_cvtab (s : State) (n : Nat) : (setWork s n).cvtab = s.cvtab := rfl
@[simp] theorem setWork_icache (s : State) (n : Nat) : (setWork s n).icache = s.icache := rfl
@[simp] theorem setWork_lastServed (s : State) (n : Nat) : (setWork s n).lastServed = s.lastServed := rfl
@[simp] theorem setWork_copies (s : State) (n : Nat) : (setWork s n).copies = s.copies := rfl
@[simp] theorem setWork_sweeps (s : State) (n : Nat) : (setWork s n).sweeps = s.sweeps := rfl
@[simp] theorem setWork_ramps (s : State) (n : Nat) : (setWork s n).ramps = s.ramps := rfl
@[simp] theorem setWork_engines (s : State) (n : Nat) : (setWork s n).engines = s.engines := rfl
@[simp] theorem setWork_bins (s : State) (n : Nat) : (setWork s n).bins = s.bins := rfl
@[simp] theorem setWork_binFree (s : State) (n : Nat) : (setWork s n).binFree = s.binFree := rfl
@[simp] theorem setWork_coachOps (s : State) (n : Nat) : (setWork s n).coachOps = s.coachOps := rfl
@[simp] theorem setWork_requests (s : State) (n : Nat) : (setWork s n).requests = s.requests := rfl
@[simp] theorem setWork_records (s : State) (n : Nat) : (setWork s n).records = s.records := rfl
@[simp] theorem setWork_migrations (s : State) (n : Nat) : (setWork s n).migrations = s.migrations := rfl
@[simp] theorem setWork_replicas (s : State) (n : Nat) : (setWork s n).replicas = s.replicas := rfl
@[simp] theorem setWork_stamps (s : State) (n : Nat) : (setWork s n).stamps = s.stamps := rfl
@[simp] theorem setWork_writers (s : State) (n : Nat) : (setWork s n).writers = s.writers := rfl
@[simp] theorem setWork_caches (s : State) (n : Nat) : (setWork s n).caches = s.caches := rfl
@[simp] theorem setWork_locked (s : State) (n : Nat) : (setWork s n).locked = s.locked := rfl
@[simp] theorem setWork_dieMap (s : State) (n : Nat) : (setWork s n).dieMap = s.dieMap := rfl
@[simp] theorem setWork_dieStat (s : State) (n : Nat) : (setWork s n).dieStat = s.dieStat := rfl
@[simp] theorem setWork_dieChange (s : State) (n : Nat) : (setWork s n).dieChange = s.dieChange := rfl
@[simp] theorem setWork_shareReg (s : State) (n : Nat) : (setWork s n).shareReg = s.shareReg := rfl
@[simp] theorem setWork_hostLink (s : State) (n : Nat) : (setWork s n).hostLink = s.hostLink := rfl
@[simp] theorem setWork_stver (s : State) (n : Nat) : (setWork s n).stver = s.stver := rfl
@[simp] theorem setWork_pfMsix (s : State) (n : Nat) : (setWork s n).pfMsix = s.pfMsix := rfl
@[simp] theorem setWork_dbgCmd (s : State) (n : Nat) : (setWork s n).dbgCmd = s.dbgCmd := rfl
@[simp] theorem setWork_dbgData (s : State) (n : Nat) : (setWork s n).dbgData = s.dbgData := rfl
@[simp] theorem setWork_dbgGang (s : State) (n : Nat) : (setWork s n).dbgGang = s.dbgGang := rfl
@[simp] theorem setWork_monitors (s : State) (n : Nat) : (setWork s n).monitors = s.monitors := rfl
@[simp] theorem setWork_monBefore (s : State) (n : Nat) : (setWork s n).monBefore = s.monBefore := rfl
@[simp] theorem setWork_poisonLane (s : State) (n : Nat) : (setWork s n).poisonLane = s.poisonLane := rfl
@[simp] theorem setWork_poisonWord (s : State) (n : Nat) : (setWork s n).poisonWord = s.poisonWord := rfl
@[simp] theorem setWork_poisonAcc (s : State) (n : Nat) : (setWork s n).poisonAcc = s.poisonAcc := rfl
@[simp] theorem setWork_poisonHbm (s : State) (n : Nat) : (setWork s n).poisonHbm = s.poisonHbm := rfl
@[simp] theorem setWork_corrections (s : State) (n : Nat) : (setWork s n).corrections = s.corrections := rfl
@[simp] theorem setWork_failedRows (s : State) (n : Nat) : (setWork s n).failedRows = s.failedRows := rfl
@[simp] theorem setWork_fencedRows (s : State) (n : Nat) : (setWork s n).fencedRows = s.fencedRows := rfl
@[simp] theorem setWork_merge (s : State) (n : Nat) : (setWork s n).merge = s.merge := rfl
@[simp] theorem setWork_armed (s : State) (n : Nat) : (setWork s n).armed = s.armed := rfl
@[simp] theorem setWork_drowsy (s : State) (n : Nat) : (setWork s n).drowsy = s.drowsy := rfl
@[simp] theorem setWork_touched (s : State) (n : Nat) : (setWork s n).touched = s.touched := rfl
@[simp] theorem setWork_diesOut (s : State) (n : Nat) : (setWork s n).diesOut = s.diesOut := rfl
@[simp] theorem setWork_stalled (s : State) (n : Nat) : (setWork s n).stalled = s.stalled := rfl
@[simp] theorem setWork_powerStalled (s : State) (n : Nat) : (setWork s n).powerStalled = s.powerStalled := rfl
@[simp] theorem setWork_fuseKey (s : State) (n : Nat) : (setWork s n).fuseKey = s.fuseKey := rfl
@[simp] theorem setWork_bootOk (s : State) (n : Nat) : (setWork s n).bootOk = s.bootOk := rfl
@[simp] theorem setWork_bootFailed (s : State) (n : Nat) : (setWork s n).bootFailed = s.bootFailed := rfl
@[simp] theorem setWork_measures (s : State) (n : Nat) : (setWork s n).measures = s.measures := rfl
@[simp] theorem setWork_attCount (s : State) (n : Nat) : (setWork s n).attCount = s.attCount := rfl
@[simp] theorem setWork_msgs (s : State) (n : Nat) : (setWork s n).msgs = s.msgs := rfl
@[simp] theorem setWork_hostData (s : State) (n : Nat) : (setWork s n).hostData = s.hostData := rfl

/-! orFlags -/
@[simp] theorem orFlags_cyc (s : State) (f : FlagSet) : (orFlags s f).cyc = s.cyc := rfl
@[simp] theorem orFlags_free (s : State) (f : FlagSet) : (orFlags s f).free = s.free := rfl
@[simp] theorem orFlags_agenda (s : State) (f : FlagSet) : (orFlags s f).agenda = s.agenda := rfl
@[simp] theorem orFlags_calendar (s : State) (f : FlagSet) : (orFlags s f).calendar = s.calendar := rfl
@[simp] theorem orFlags_fresh (s : State) (f : FlagSet) : (orFlags s f).fresh = s.fresh := rfl
@[simp] theorem orFlags_others (s : State) (f : FlagSet) : (orFlags s f).others = s.others := rfl
@[simp] theorem orFlags_gangs (s : State) (f : FlagSet) : (orFlags s f).gangs = s.gangs := rfl
@[simp] theorem orFlags_parts (s : State) (f : FlagSet) : (orFlags s f).parts = s.parts := rfl
@[simp] theorem orFlags_mem (s : State) (f : FlagSet) : (orFlags s f).mem = s.mem := rfl
@[simp] theorem orFlags_planes (s : State) (f : FlagSet) : (orFlags s f).planes = s.planes := rfl
@[simp] theorem orFlags_acc (s : State) (f : FlagSet) : (orFlags s f).acc = s.acc := rfl
@[simp] theorem orFlags_tables (s : State) (f : FlagSet) : (orFlags s f).tables = s.tables := rfl
@[simp] theorem orFlags_templates (s : State) (f : FlagSet) : (orFlags s f).templates = s.templates := rfl
@[simp] theorem orFlags_bufs (s : State) (f : FlagSet) : (orFlags s f).bufs = s.bufs := rfl
@[simp] theorem orFlags_bufLandings (s : State) (f : FlagSet) : (orFlags s f).bufLandings = s.bufLandings := rfl
@[simp] theorem orFlags_cvtab (s : State) (f : FlagSet) : (orFlags s f).cvtab = s.cvtab := rfl
@[simp] theorem orFlags_icache (s : State) (f : FlagSet) : (orFlags s f).icache = s.icache := rfl
@[simp] theorem orFlags_lastServed (s : State) (f : FlagSet) : (orFlags s f).lastServed = s.lastServed := rfl
@[simp] theorem orFlags_copies (s : State) (f : FlagSet) : (orFlags s f).copies = s.copies := rfl
@[simp] theorem orFlags_sweeps (s : State) (f : FlagSet) : (orFlags s f).sweeps = s.sweeps := rfl
@[simp] theorem orFlags_ramps (s : State) (f : FlagSet) : (orFlags s f).ramps = s.ramps := rfl
@[simp] theorem orFlags_engines (s : State) (f : FlagSet) : (orFlags s f).engines = s.engines := rfl
@[simp] theorem orFlags_bins (s : State) (f : FlagSet) : (orFlags s f).bins = s.bins := rfl
@[simp] theorem orFlags_binFree (s : State) (f : FlagSet) : (orFlags s f).binFree = s.binFree := rfl
@[simp] theorem orFlags_coachOps (s : State) (f : FlagSet) : (orFlags s f).coachOps = s.coachOps := rfl
@[simp] theorem orFlags_requests (s : State) (f : FlagSet) : (orFlags s f).requests = s.requests := rfl
@[simp] theorem orFlags_records (s : State) (f : FlagSet) : (orFlags s f).records = s.records := rfl
@[simp] theorem orFlags_migrations (s : State) (f : FlagSet) : (orFlags s f).migrations = s.migrations := rfl
@[simp] theorem orFlags_replicas (s : State) (f : FlagSet) : (orFlags s f).replicas = s.replicas := rfl
@[simp] theorem orFlags_stamps (s : State) (f : FlagSet) : (orFlags s f).stamps = s.stamps := rfl
@[simp] theorem orFlags_writers (s : State) (f : FlagSet) : (orFlags s f).writers = s.writers := rfl
@[simp] theorem orFlags_caches (s : State) (f : FlagSet) : (orFlags s f).caches = s.caches := rfl
@[simp] theorem orFlags_locked (s : State) (f : FlagSet) : (orFlags s f).locked = s.locked := rfl
@[simp] theorem orFlags_dieMap (s : State) (f : FlagSet) : (orFlags s f).dieMap = s.dieMap := rfl
@[simp] theorem orFlags_dieStat (s : State) (f : FlagSet) : (orFlags s f).dieStat = s.dieStat := rfl
@[simp] theorem orFlags_dieChange (s : State) (f : FlagSet) : (orFlags s f).dieChange = s.dieChange := rfl
@[simp] theorem orFlags_shareReg (s : State) (f : FlagSet) : (orFlags s f).shareReg = s.shareReg := rfl
@[simp] theorem orFlags_hostLink (s : State) (f : FlagSet) : (orFlags s f).hostLink = s.hostLink := rfl
@[simp] theorem orFlags_stver (s : State) (f : FlagSet) : (orFlags s f).stver = s.stver := rfl
@[simp] theorem orFlags_pfMsix (s : State) (f : FlagSet) : (orFlags s f).pfMsix = s.pfMsix := rfl
@[simp] theorem orFlags_dbgCmd (s : State) (f : FlagSet) : (orFlags s f).dbgCmd = s.dbgCmd := rfl
@[simp] theorem orFlags_dbgData (s : State) (f : FlagSet) : (orFlags s f).dbgData = s.dbgData := rfl
@[simp] theorem orFlags_dbgGang (s : State) (f : FlagSet) : (orFlags s f).dbgGang = s.dbgGang := rfl
@[simp] theorem orFlags_monitors (s : State) (f : FlagSet) : (orFlags s f).monitors = s.monitors := rfl
@[simp] theorem orFlags_monBefore (s : State) (f : FlagSet) : (orFlags s f).monBefore = s.monBefore := rfl
@[simp] theorem orFlags_poisonLane (s : State) (f : FlagSet) : (orFlags s f).poisonLane = s.poisonLane := rfl
@[simp] theorem orFlags_poisonWord (s : State) (f : FlagSet) : (orFlags s f).poisonWord = s.poisonWord := rfl
@[simp] theorem orFlags_poisonAcc (s : State) (f : FlagSet) : (orFlags s f).poisonAcc = s.poisonAcc := rfl
@[simp] theorem orFlags_poisonHbm (s : State) (f : FlagSet) : (orFlags s f).poisonHbm = s.poisonHbm := rfl
@[simp] theorem orFlags_corrections (s : State) (f : FlagSet) : (orFlags s f).corrections = s.corrections := rfl
@[simp] theorem orFlags_failedRows (s : State) (f : FlagSet) : (orFlags s f).failedRows = s.failedRows := rfl
@[simp] theorem orFlags_fencedRows (s : State) (f : FlagSet) : (orFlags s f).fencedRows = s.fencedRows := rfl
@[simp] theorem orFlags_merge (s : State) (f : FlagSet) : (orFlags s f).merge = s.merge := rfl
@[simp] theorem orFlags_armed (s : State) (f : FlagSet) : (orFlags s f).armed = s.armed := rfl
@[simp] theorem orFlags_drowsy (s : State) (f : FlagSet) : (orFlags s f).drowsy = s.drowsy := rfl
@[simp] theorem orFlags_touched (s : State) (f : FlagSet) : (orFlags s f).touched = s.touched := rfl
@[simp] theorem orFlags_diesOut (s : State) (f : FlagSet) : (orFlags s f).diesOut = s.diesOut := rfl
@[simp] theorem orFlags_stalled (s : State) (f : FlagSet) : (orFlags s f).stalled = s.stalled := rfl
@[simp] theorem orFlags_powerStalled (s : State) (f : FlagSet) : (orFlags s f).powerStalled = s.powerStalled := rfl
@[simp] theorem orFlags_fuseKey (s : State) (f : FlagSet) : (orFlags s f).fuseKey = s.fuseKey := rfl
@[simp] theorem orFlags_bootOk (s : State) (f : FlagSet) : (orFlags s f).bootOk = s.bootOk := rfl
@[simp] theorem orFlags_bootFailed (s : State) (f : FlagSet) : (orFlags s f).bootFailed = s.bootFailed := rfl
@[simp] theorem orFlags_measures (s : State) (f : FlagSet) : (orFlags s f).measures = s.measures := rfl
@[simp] theorem orFlags_attCount (s : State) (f : FlagSet) : (orFlags s f).attCount = s.attCount := rfl
@[simp] theorem orFlags_msgs (s : State) (f : FlagSet) : (orFlags s f).msgs = s.msgs := rfl
@[simp] theorem orFlags_hostData (s : State) (f : FlagSet) : (orFlags s f).hostData = s.hostData := rfl

/-! resetGens -/
@[simp] theorem resetGens_cyc (s : State) : (resetGens s).cyc = s.cyc := rfl
@[simp] theorem resetGens_free (s : State) : (resetGens s).free = s.free := rfl
@[simp] theorem resetGens_agenda (s : State) : (resetGens s).agenda = s.agenda := rfl
@[simp] theorem resetGens_calendar (s : State) : (resetGens s).calendar = s.calendar := rfl
@[simp] theorem resetGens_fresh (s : State) : (resetGens s).fresh = s.fresh := rfl
@[simp] theorem resetGens_others (s : State) : (resetGens s).others = s.others := rfl
@[simp] theorem resetGens_gangs (s : State) : (resetGens s).gangs = s.gangs := rfl
@[simp] theorem resetGens_parts (s : State) : (resetGens s).parts = s.parts := rfl
@[simp] theorem resetGens_mem (s : State) : (resetGens s).mem = s.mem := rfl
@[simp] theorem resetGens_planes (s : State) : (resetGens s).planes = s.planes := rfl
@[simp] theorem resetGens_acc (s : State) : (resetGens s).acc = s.acc := rfl
@[simp] theorem resetGens_tables (s : State) : (resetGens s).tables = s.tables := rfl
@[simp] theorem resetGens_templates (s : State) : (resetGens s).templates = s.templates := rfl
@[simp] theorem resetGens_bufs (s : State) : (resetGens s).bufs = s.bufs := rfl
@[simp] theorem resetGens_bufLandings (s : State) : (resetGens s).bufLandings = s.bufLandings := rfl
@[simp] theorem resetGens_cvtab (s : State) : (resetGens s).cvtab = s.cvtab := rfl
@[simp] theorem resetGens_icache (s : State) : (resetGens s).icache = s.icache := rfl
@[simp] theorem resetGens_lastServed (s : State) : (resetGens s).lastServed = s.lastServed := rfl
@[simp] theorem resetGens_copies (s : State) : (resetGens s).copies = s.copies := rfl
@[simp] theorem resetGens_sweeps (s : State) : (resetGens s).sweeps = s.sweeps := rfl
@[simp] theorem resetGens_ramps (s : State) : (resetGens s).ramps = s.ramps := rfl
@[simp] theorem resetGens_engines (s : State) : (resetGens s).engines = s.engines := rfl
@[simp] theorem resetGens_bins (s : State) : (resetGens s).bins = s.bins := rfl
@[simp] theorem resetGens_binFree (s : State) : (resetGens s).binFree = s.binFree := rfl
@[simp] theorem resetGens_coachOps (s : State) : (resetGens s).coachOps = s.coachOps := rfl
@[simp] theorem resetGens_requests (s : State) : (resetGens s).requests = s.requests := rfl
@[simp] theorem resetGens_records (s : State) : (resetGens s).records = s.records := rfl
@[simp] theorem resetGens_migrations (s : State) : (resetGens s).migrations = s.migrations := rfl
@[simp] theorem resetGens_replicas (s : State) : (resetGens s).replicas = s.replicas := rfl
@[simp] theorem resetGens_stamps (s : State) : (resetGens s).stamps = s.stamps := rfl
@[simp] theorem resetGens_writers (s : State) : (resetGens s).writers = s.writers := rfl
@[simp] theorem resetGens_caches (s : State) : (resetGens s).caches = s.caches := rfl
@[simp] theorem resetGens_locked (s : State) : (resetGens s).locked = s.locked := rfl
@[simp] theorem resetGens_dieMap (s : State) : (resetGens s).dieMap = s.dieMap := rfl
@[simp] theorem resetGens_dieStat (s : State) : (resetGens s).dieStat = s.dieStat := rfl
@[simp] theorem resetGens_dieChange (s : State) : (resetGens s).dieChange = s.dieChange := rfl
@[simp] theorem resetGens_shareReg (s : State) : (resetGens s).shareReg = s.shareReg := rfl
@[simp] theorem resetGens_hostLink (s : State) : (resetGens s).hostLink = s.hostLink := rfl
@[simp] theorem resetGens_stver (s : State) : (resetGens s).stver = s.stver := rfl
@[simp] theorem resetGens_pfMsix (s : State) : (resetGens s).pfMsix = s.pfMsix := rfl
@[simp] theorem resetGens_dbgCmd (s : State) : (resetGens s).dbgCmd = s.dbgCmd := rfl
@[simp] theorem resetGens_dbgData (s : State) : (resetGens s).dbgData = s.dbgData := rfl
@[simp] theorem resetGens_dbgGang (s : State) : (resetGens s).dbgGang = s.dbgGang := rfl
@[simp] theorem resetGens_monitors (s : State) : (resetGens s).monitors = s.monitors := rfl
@[simp] theorem resetGens_monBefore (s : State) : (resetGens s).monBefore = s.monBefore := rfl
@[simp] theorem resetGens_poisonLane (s : State) : (resetGens s).poisonLane = s.poisonLane := rfl
@[simp] theorem resetGens_poisonWord (s : State) : (resetGens s).poisonWord = s.poisonWord := rfl
@[simp] theorem resetGens_poisonAcc (s : State) : (resetGens s).poisonAcc = s.poisonAcc := rfl
@[simp] theorem resetGens_poisonHbm (s : State) : (resetGens s).poisonHbm = s.poisonHbm := rfl
@[simp] theorem resetGens_corrections (s : State) : (resetGens s).corrections = s.corrections := rfl
@[simp] theorem resetGens_failedRows (s : State) : (resetGens s).failedRows = s.failedRows := rfl
@[simp] theorem resetGens_fencedRows (s : State) : (resetGens s).fencedRows = s.fencedRows := rfl
@[simp] theorem resetGens_merge (s : State) : (resetGens s).merge = s.merge := rfl
@[simp] theorem resetGens_armed (s : State) : (resetGens s).armed = s.armed := rfl
@[simp] theorem resetGens_drowsy (s : State) : (resetGens s).drowsy = s.drowsy := rfl
@[simp] theorem resetGens_touched (s : State) : (resetGens s).touched = s.touched := rfl
@[simp] theorem resetGens_diesOut (s : State) : (resetGens s).diesOut = s.diesOut := rfl
@[simp] theorem resetGens_stalled (s : State) : (resetGens s).stalled = s.stalled := rfl
@[simp] theorem resetGens_powerStalled (s : State) : (resetGens s).powerStalled = s.powerStalled := rfl
@[simp] theorem resetGens_fuseKey (s : State) : (resetGens s).fuseKey = s.fuseKey := rfl
@[simp] theorem resetGens_bootOk (s : State) : (resetGens s).bootOk = s.bootOk := rfl
@[simp] theorem resetGens_bootFailed (s : State) : (resetGens s).bootFailed = s.bootFailed := rfl
@[simp] theorem resetGens_measures (s : State) : (resetGens s).measures = s.measures := rfl
@[simp] theorem resetGens_attCount (s : State) : (resetGens s).attCount = s.attCount := rfl
@[simp] theorem resetGens_msgs (s : State) : (resetGens s).msgs = s.msgs := rfl
@[simp] theorem resetGens_hostData (s : State) : (resetGens s).hostData = s.hostData := rfl

/-! schedule -/
@[simp] theorem schedule_cyc (s : State) (cy : Nat) (e : Event) : (schedule s cy e).cyc = s.cyc := rfl
@[simp] theorem schedule_free (s : State) (cy : Nat) (e : Event) : (schedule s cy e).free = s.free := rfl
@[simp] theorem schedule_agenda (s : State) (cy : Nat) (e : Event) : (schedule s cy e).agenda = s.agenda := rfl
@[simp] theorem schedule_fresh (s : State) (cy : Nat) (e : Event) : (schedule s cy e).fresh = s.fresh := rfl
@[simp] theorem schedule_h (s : State) (cy : Nat) (e : Event) : (schedule s cy e).h = s.h := rfl
@[simp] theorem schedule_others (s : State) (cy : Nat) (e : Event) : (schedule s cy e).others = s.others := rfl
@[simp] theorem schedule_gangs (s : State) (cy : Nat) (e : Event) : (schedule s cy e).gangs = s.gangs := rfl
@[simp] theorem schedule_parts (s : State) (cy : Nat) (e : Event) : (schedule s cy e).parts = s.parts := rfl
@[simp] theorem schedule_mem (s : State) (cy : Nat) (e : Event) : (schedule s cy e).mem = s.mem := rfl
@[simp] theorem schedule_planes (s : State) (cy : Nat) (e : Event) : (schedule s cy e).planes = s.planes := rfl
@[simp] theorem schedule_acc (s : State) (cy : Nat) (e : Event) : (schedule s cy e).acc = s.acc := rfl
@[simp] theorem schedule_tables (s : State) (cy : Nat) (e : Event) : (schedule s cy e).tables = s.tables := rfl
@[simp] theorem schedule_templates (s : State) (cy : Nat) (e : Event) : (schedule s cy e).templates = s.templates := rfl
@[simp] theorem schedule_bufs (s : State) (cy : Nat) (e : Event) : (schedule s cy e).bufs = s.bufs := rfl
@[simp] theorem schedule_bufLandings (s : State) (cy : Nat) (e : Event) : (schedule s cy e).bufLandings = s.bufLandings := rfl
@[simp] theorem schedule_cvtab (s : State) (cy : Nat) (e : Event) : (schedule s cy e).cvtab = s.cvtab := rfl
@[simp] theorem schedule_icache (s : State) (cy : Nat) (e : Event) : (schedule s cy e).icache = s.icache := rfl
@[simp] theorem schedule_lastServed (s : State) (cy : Nat) (e : Event) : (schedule s cy e).lastServed = s.lastServed := rfl
@[simp] theorem schedule_copies (s : State) (cy : Nat) (e : Event) : (schedule s cy e).copies = s.copies := rfl
@[simp] theorem schedule_sweeps (s : State) (cy : Nat) (e : Event) : (schedule s cy e).sweeps = s.sweeps := rfl
@[simp] theorem schedule_ramps (s : State) (cy : Nat) (e : Event) : (schedule s cy e).ramps = s.ramps := rfl
@[simp] theorem schedule_engines (s : State) (cy : Nat) (e : Event) : (schedule s cy e).engines = s.engines := rfl
@[simp] theorem schedule_bins (s : State) (cy : Nat) (e : Event) : (schedule s cy e).bins = s.bins := rfl
@[simp] theorem schedule_binFree (s : State) (cy : Nat) (e : Event) : (schedule s cy e).binFree = s.binFree := rfl
@[simp] theorem schedule_coachOps (s : State) (cy : Nat) (e : Event) : (schedule s cy e).coachOps = s.coachOps := rfl
@[simp] theorem schedule_requests (s : State) (cy : Nat) (e : Event) : (schedule s cy e).requests = s.requests := rfl
@[simp] theorem schedule_records (s : State) (cy : Nat) (e : Event) : (schedule s cy e).records = s.records := rfl
@[simp] theorem schedule_migrations (s : State) (cy : Nat) (e : Event) : (schedule s cy e).migrations = s.migrations := rfl
@[simp] theorem schedule_replicas (s : State) (cy : Nat) (e : Event) : (schedule s cy e).replicas = s.replicas := rfl
@[simp] theorem schedule_stamps (s : State) (cy : Nat) (e : Event) : (schedule s cy e).stamps = s.stamps := rfl
@[simp] theorem schedule_writers (s : State) (cy : Nat) (e : Event) : (schedule s cy e).writers = s.writers := rfl
@[simp] theorem schedule_caches (s : State) (cy : Nat) (e : Event) : (schedule s cy e).caches = s.caches := rfl
@[simp] theorem schedule_locked (s : State) (cy : Nat) (e : Event) : (schedule s cy e).locked = s.locked := rfl
@[simp] theorem schedule_dieMap (s : State) (cy : Nat) (e : Event) : (schedule s cy e).dieMap = s.dieMap := rfl
@[simp] theorem schedule_dieStat (s : State) (cy : Nat) (e : Event) : (schedule s cy e).dieStat = s.dieStat := rfl
@[simp] theorem schedule_dieChange (s : State) (cy : Nat) (e : Event) : (schedule s cy e).dieChange = s.dieChange := rfl
@[simp] theorem schedule_shareReg (s : State) (cy : Nat) (e : Event) : (schedule s cy e).shareReg = s.shareReg := rfl
@[simp] theorem schedule_hostLink (s : State) (cy : Nat) (e : Event) : (schedule s cy e).hostLink = s.hostLink := rfl
@[simp] theorem schedule_stver (s : State) (cy : Nat) (e : Event) : (schedule s cy e).stver = s.stver := rfl
@[simp] theorem schedule_pfMsix (s : State) (cy : Nat) (e : Event) : (schedule s cy e).pfMsix = s.pfMsix := rfl
@[simp] theorem schedule_dbgCmd (s : State) (cy : Nat) (e : Event) : (schedule s cy e).dbgCmd = s.dbgCmd := rfl
@[simp] theorem schedule_dbgData (s : State) (cy : Nat) (e : Event) : (schedule s cy e).dbgData = s.dbgData := rfl
@[simp] theorem schedule_dbgGang (s : State) (cy : Nat) (e : Event) : (schedule s cy e).dbgGang = s.dbgGang := rfl
@[simp] theorem schedule_monitors (s : State) (cy : Nat) (e : Event) : (schedule s cy e).monitors = s.monitors := rfl
@[simp] theorem schedule_monBefore (s : State) (cy : Nat) (e : Event) : (schedule s cy e).monBefore = s.monBefore := rfl
@[simp] theorem schedule_poisonLane (s : State) (cy : Nat) (e : Event) : (schedule s cy e).poisonLane = s.poisonLane := rfl
@[simp] theorem schedule_poisonWord (s : State) (cy : Nat) (e : Event) : (schedule s cy e).poisonWord = s.poisonWord := rfl
@[simp] theorem schedule_poisonAcc (s : State) (cy : Nat) (e : Event) : (schedule s cy e).poisonAcc = s.poisonAcc := rfl
@[simp] theorem schedule_poisonHbm (s : State) (cy : Nat) (e : Event) : (schedule s cy e).poisonHbm = s.poisonHbm := rfl
@[simp] theorem schedule_corrections (s : State) (cy : Nat) (e : Event) : (schedule s cy e).corrections = s.corrections := rfl
@[simp] theorem schedule_failedRows (s : State) (cy : Nat) (e : Event) : (schedule s cy e).failedRows = s.failedRows := rfl
@[simp] theorem schedule_fencedRows (s : State) (cy : Nat) (e : Event) : (schedule s cy e).fencedRows = s.fencedRows := rfl
@[simp] theorem schedule_merge (s : State) (cy : Nat) (e : Event) : (schedule s cy e).merge = s.merge := rfl
@[simp] theorem schedule_armed (s : State) (cy : Nat) (e : Event) : (schedule s cy e).armed = s.armed := rfl
@[simp] theorem schedule_drowsy (s : State) (cy : Nat) (e : Event) : (schedule s cy e).drowsy = s.drowsy := rfl
@[simp] theorem schedule_touched (s : State) (cy : Nat) (e : Event) : (schedule s cy e).touched = s.touched := rfl
@[simp] theorem schedule_diesOut (s : State) (cy : Nat) (e : Event) : (schedule s cy e).diesOut = s.diesOut := rfl
@[simp] theorem schedule_stalled (s : State) (cy : Nat) (e : Event) : (schedule s cy e).stalled = s.stalled := rfl
@[simp] theorem schedule_powerStalled (s : State) (cy : Nat) (e : Event) : (schedule s cy e).powerStalled = s.powerStalled := rfl
@[simp] theorem schedule_fuseKey (s : State) (cy : Nat) (e : Event) : (schedule s cy e).fuseKey = s.fuseKey := rfl
@[simp] theorem schedule_bootOk (s : State) (cy : Nat) (e : Event) : (schedule s cy e).bootOk = s.bootOk := rfl
@[simp] theorem schedule_bootFailed (s : State) (cy : Nat) (e : Event) : (schedule s cy e).bootFailed = s.bootFailed := rfl
@[simp] theorem schedule_measures (s : State) (cy : Nat) (e : Event) : (schedule s cy e).measures = s.measures := rfl
@[simp] theorem schedule_attCount (s : State) (cy : Nat) (e : Event) : (schedule s cy e).attCount = s.attCount := rfl
@[simp] theorem schedule_msgs (s : State) (cy : Nat) (e : Event) : (schedule s cy e).msgs = s.msgs := rfl
@[simp] theorem schedule_hostData (s : State) (cy : Nat) (e : Event) : (schedule s cy e).hostData = s.hostData := rfl

/-! sendMsi -/
@[simp] theorem sendMsi_cyc (s : State) (fn vec : Nat) : (sendMsi s fn vec).cyc = s.cyc := rfl
@[simp] theorem sendMsi_free (s : State) (fn vec : Nat) : (sendMsi s fn vec).free = s.free := rfl
@[simp] theorem sendMsi_agenda (s : State) (fn vec : Nat) : (sendMsi s fn vec).agenda = s.agenda := rfl
@[simp] theorem sendMsi_calendar (s : State) (fn vec : Nat) : (sendMsi s fn vec).calendar = s.calendar := rfl
@[simp] theorem sendMsi_fresh (s : State) (fn vec : Nat) : (sendMsi s fn vec).fresh = s.fresh := rfl
@[simp] theorem sendMsi_h (s : State) (fn vec : Nat) : (sendMsi s fn vec).h = s.h := rfl
@[simp] theorem sendMsi_others (s : State) (fn vec : Nat) : (sendMsi s fn vec).others = s.others := rfl
@[simp] theorem sendMsi_gangs (s : State) (fn vec : Nat) : (sendMsi s fn vec).gangs = s.gangs := rfl
@[simp] theorem sendMsi_parts (s : State) (fn vec : Nat) : (sendMsi s fn vec).parts = s.parts := rfl
@[simp] theorem sendMsi_mem (s : State) (fn vec : Nat) : (sendMsi s fn vec).mem = s.mem := rfl
@[simp] theorem sendMsi_planes (s : State) (fn vec : Nat) : (sendMsi s fn vec).planes = s.planes := rfl
@[simp] theorem sendMsi_acc (s : State) (fn vec : Nat) : (sendMsi s fn vec).acc = s.acc := rfl
@[simp] theorem sendMsi_tables (s : State) (fn vec : Nat) : (sendMsi s fn vec).tables = s.tables := rfl
@[simp] theorem sendMsi_templates (s : State) (fn vec : Nat) : (sendMsi s fn vec).templates = s.templates := rfl
@[simp] theorem sendMsi_bufs (s : State) (fn vec : Nat) : (sendMsi s fn vec).bufs = s.bufs := rfl
@[simp] theorem sendMsi_bufLandings (s : State) (fn vec : Nat) : (sendMsi s fn vec).bufLandings = s.bufLandings := rfl
@[simp] theorem sendMsi_cvtab (s : State) (fn vec : Nat) : (sendMsi s fn vec).cvtab = s.cvtab := rfl
@[simp] theorem sendMsi_icache (s : State) (fn vec : Nat) : (sendMsi s fn vec).icache = s.icache := rfl
@[simp] theorem sendMsi_lastServed (s : State) (fn vec : Nat) : (sendMsi s fn vec).lastServed = s.lastServed := rfl
@[simp] theorem sendMsi_copies (s : State) (fn vec : Nat) : (sendMsi s fn vec).copies = s.copies := rfl
@[simp] theorem sendMsi_sweeps (s : State) (fn vec : Nat) : (sendMsi s fn vec).sweeps = s.sweeps := rfl
@[simp] theorem sendMsi_ramps (s : State) (fn vec : Nat) : (sendMsi s fn vec).ramps = s.ramps := rfl
@[simp] theorem sendMsi_engines (s : State) (fn vec : Nat) : (sendMsi s fn vec).engines = s.engines := rfl
@[simp] theorem sendMsi_bins (s : State) (fn vec : Nat) : (sendMsi s fn vec).bins = s.bins := rfl
@[simp] theorem sendMsi_binFree (s : State) (fn vec : Nat) : (sendMsi s fn vec).binFree = s.binFree := rfl
@[simp] theorem sendMsi_coachOps (s : State) (fn vec : Nat) : (sendMsi s fn vec).coachOps = s.coachOps := rfl
@[simp] theorem sendMsi_requests (s : State) (fn vec : Nat) : (sendMsi s fn vec).requests = s.requests := rfl
@[simp] theorem sendMsi_records (s : State) (fn vec : Nat) : (sendMsi s fn vec).records = s.records := rfl
@[simp] theorem sendMsi_migrations (s : State) (fn vec : Nat) : (sendMsi s fn vec).migrations = s.migrations := rfl
@[simp] theorem sendMsi_replicas (s : State) (fn vec : Nat) : (sendMsi s fn vec).replicas = s.replicas := rfl
@[simp] theorem sendMsi_stamps (s : State) (fn vec : Nat) : (sendMsi s fn vec).stamps = s.stamps := rfl
@[simp] theorem sendMsi_writers (s : State) (fn vec : Nat) : (sendMsi s fn vec).writers = s.writers := rfl
@[simp] theorem sendMsi_caches (s : State) (fn vec : Nat) : (sendMsi s fn vec).caches = s.caches := rfl
@[simp] theorem sendMsi_locked (s : State) (fn vec : Nat) : (sendMsi s fn vec).locked = s.locked := rfl
@[simp] theorem sendMsi_dieMap (s : State) (fn vec : Nat) : (sendMsi s fn vec).dieMap = s.dieMap := rfl
@[simp] theorem sendMsi_dieStat (s : State) (fn vec : Nat) : (sendMsi s fn vec).dieStat = s.dieStat := rfl
@[simp] theorem sendMsi_dieChange (s : State) (fn vec : Nat) : (sendMsi s fn vec).dieChange = s.dieChange := rfl
@[simp] theorem sendMsi_shareReg (s : State) (fn vec : Nat) : (sendMsi s fn vec).shareReg = s.shareReg := rfl
@[simp] theorem sendMsi_hostLink (s : State) (fn vec : Nat) : (sendMsi s fn vec).hostLink = s.hostLink := rfl
@[simp] theorem sendMsi_stver (s : State) (fn vec : Nat) : (sendMsi s fn vec).stver = s.stver := rfl
@[simp] theorem sendMsi_pfMsix (s : State) (fn vec : Nat) : (sendMsi s fn vec).pfMsix = s.pfMsix := rfl
@[simp] theorem sendMsi_dbgCmd (s : State) (fn vec : Nat) : (sendMsi s fn vec).dbgCmd = s.dbgCmd := rfl
@[simp] theorem sendMsi_dbgData (s : State) (fn vec : Nat) : (sendMsi s fn vec).dbgData = s.dbgData := rfl
@[simp] theorem sendMsi_dbgGang (s : State) (fn vec : Nat) : (sendMsi s fn vec).dbgGang = s.dbgGang := rfl
@[simp] theorem sendMsi_monitors (s : State) (fn vec : Nat) : (sendMsi s fn vec).monitors = s.monitors := rfl
@[simp] theorem sendMsi_monBefore (s : State) (fn vec : Nat) : (sendMsi s fn vec).monBefore = s.monBefore := rfl
@[simp] theorem sendMsi_poisonLane (s : State) (fn vec : Nat) : (sendMsi s fn vec).poisonLane = s.poisonLane := rfl
@[simp] theorem sendMsi_poisonWord (s : State) (fn vec : Nat) : (sendMsi s fn vec).poisonWord = s.poisonWord := rfl
@[simp] theorem sendMsi_poisonAcc (s : State) (fn vec : Nat) : (sendMsi s fn vec).poisonAcc = s.poisonAcc := rfl
@[simp] theorem sendMsi_poisonHbm (s : State) (fn vec : Nat) : (sendMsi s fn vec).poisonHbm = s.poisonHbm := rfl
@[simp] theorem sendMsi_corrections (s : State) (fn vec : Nat) : (sendMsi s fn vec).corrections = s.corrections := rfl
@[simp] theorem sendMsi_failedRows (s : State) (fn vec : Nat) : (sendMsi s fn vec).failedRows = s.failedRows := rfl
@[simp] theorem sendMsi_fencedRows (s : State) (fn vec : Nat) : (sendMsi s fn vec).fencedRows = s.fencedRows := rfl
@[simp] theorem sendMsi_merge (s : State) (fn vec : Nat) : (sendMsi s fn vec).merge = s.merge := rfl
@[simp] theorem sendMsi_armed (s : State) (fn vec : Nat) : (sendMsi s fn vec).armed = s.armed := rfl
@[simp] theorem sendMsi_drowsy (s : State) (fn vec : Nat) : (sendMsi s fn vec).drowsy = s.drowsy := rfl
@[simp] theorem sendMsi_touched (s : State) (fn vec : Nat) : (sendMsi s fn vec).touched = s.touched := rfl
@[simp] theorem sendMsi_diesOut (s : State) (fn vec : Nat) : (sendMsi s fn vec).diesOut = s.diesOut := rfl
@[simp] theorem sendMsi_stalled (s : State) (fn vec : Nat) : (sendMsi s fn vec).stalled = s.stalled := rfl
@[simp] theorem sendMsi_powerStalled (s : State) (fn vec : Nat) : (sendMsi s fn vec).powerStalled = s.powerStalled := rfl
@[simp] theorem sendMsi_fuseKey (s : State) (fn vec : Nat) : (sendMsi s fn vec).fuseKey = s.fuseKey := rfl
@[simp] theorem sendMsi_bootOk (s : State) (fn vec : Nat) : (sendMsi s fn vec).bootOk = s.bootOk := rfl
@[simp] theorem sendMsi_bootFailed (s : State) (fn vec : Nat) : (sendMsi s fn vec).bootFailed = s.bootFailed := rfl
@[simp] theorem sendMsi_measures (s : State) (fn vec : Nat) : (sendMsi s fn vec).measures = s.measures := rfl
@[simp] theorem sendMsi_attCount (s : State) (fn vec : Nat) : (sendMsi s fn vec).attCount = s.attCount := rfl
@[simp] theorem sendMsi_hostData (s : State) (fn vec : Nat) : (sendMsi s fn vec).hostData = s.hostData := rfl

/-! modGang -/
@[simp] theorem modGang_cyc (s : State) (id : Nat) (f : Gang → Gang) : (modGang s id f).cyc = s.cyc := rfl
@[simp] theorem modGang_free (s : State) (id : Nat) (f : Gang → Gang) : (modGang s id f).free = s.free := rfl
@[simp] theorem modGang_agenda (s : State) (id : Nat) (f : Gang → Gang) : (modGang s id f).agenda = s.agenda := rfl
@[simp] theorem modGang_calendar (s : State) (id : Nat) (f : Gang → Gang) : (modGang s id f).calendar = s.calendar := rfl
@[simp] theorem modGang_fresh (s : State) (id : Nat) (f : Gang → Gang) : (modGang s id f).fresh = s.fresh := rfl
@[simp] theorem modGang_h (s : State) (id : Nat) (f : Gang → Gang) : (modGang s id f).h = s.h := rfl
@[simp] theorem modGang_others (s : State) (id : Nat) (f : Gang → Gang) : (modGang s id f).others = s.others := rfl
@[simp] theorem modGang_parts (s : State) (id : Nat) (f : Gang → Gang) : (modGang s id f).parts = s.parts := rfl
@[simp] theorem modGang_mem (s : State) (id : Nat) (f : Gang → Gang) : (modGang s id f).mem = s.mem := rfl
@[simp] theorem modGang_planes (s : State) (id : Nat) (f : Gang → Gang) : (modGang s id f).planes = s.planes := rfl
@[simp] theorem modGang_acc (s : State) (id : Nat) (f : Gang → Gang) : (modGang s id f).acc = s.acc := rfl
@[simp] theorem modGang_tables (s : State) (id : Nat) (f : Gang → Gang) : (modGang s id f).tables = s.tables := rfl
@[simp] theorem modGang_templates (s : State) (id : Nat) (f : Gang → Gang) : (modGang s id f).templates = s.templates := rfl
@[simp] theorem modGang_bufs (s : State) (id : Nat) (f : Gang → Gang) : (modGang s id f).bufs = s.bufs := rfl
@[simp] theorem modGang_bufLandings (s : State) (id : Nat) (f : Gang → Gang) : (modGang s id f).bufLandings = s.bufLandings := rfl
@[simp] theorem modGang_cvtab (s : State) (id : Nat) (f : Gang → Gang) : (modGang s id f).cvtab = s.cvtab := rfl
@[simp] theorem modGang_icache (s : State) (id : Nat) (f : Gang → Gang) : (modGang s id f).icache = s.icache := rfl
@[simp] theorem modGang_lastServed (s : State) (id : Nat) (f : Gang → Gang) : (modGang s id f).lastServed = s.lastServed := rfl
@[simp] theorem modGang_copies (s : State) (id : Nat) (f : Gang → Gang) : (modGang s id f).copies = s.copies := rfl
@[simp] theorem modGang_sweeps (s : State) (id : Nat) (f : Gang → Gang) : (modGang s id f).sweeps = s.sweeps := rfl
@[simp] theorem modGang_ramps (s : State) (id : Nat) (f : Gang → Gang) : (modGang s id f).ramps = s.ramps := rfl
@[simp] theorem modGang_engines (s : State) (id : Nat) (f : Gang → Gang) : (modGang s id f).engines = s.engines := rfl
@[simp] theorem modGang_bins (s : State) (id : Nat) (f : Gang → Gang) : (modGang s id f).bins = s.bins := rfl
@[simp] theorem modGang_binFree (s : State) (id : Nat) (f : Gang → Gang) : (modGang s id f).binFree = s.binFree := rfl
@[simp] theorem modGang_coachOps (s : State) (id : Nat) (f : Gang → Gang) : (modGang s id f).coachOps = s.coachOps := rfl
@[simp] theorem modGang_requests (s : State) (id : Nat) (f : Gang → Gang) : (modGang s id f).requests = s.requests := rfl
@[simp] theorem modGang_records (s : State) (id : Nat) (f : Gang → Gang) : (modGang s id f).records = s.records := rfl
@[simp] theorem modGang_migrations (s : State) (id : Nat) (f : Gang → Gang) : (modGang s id f).migrations = s.migrations := rfl
@[simp] theorem modGang_replicas (s : State) (id : Nat) (f : Gang → Gang) : (modGang s id f).replicas = s.replicas := rfl
@[simp] theorem modGang_stamps (s : State) (id : Nat) (f : Gang → Gang) : (modGang s id f).stamps = s.stamps := rfl
@[simp] theorem modGang_writers (s : State) (id : Nat) (f : Gang → Gang) : (modGang s id f).writers = s.writers := rfl
@[simp] theorem modGang_caches (s : State) (id : Nat) (f : Gang → Gang) : (modGang s id f).caches = s.caches := rfl
@[simp] theorem modGang_locked (s : State) (id : Nat) (f : Gang → Gang) : (modGang s id f).locked = s.locked := rfl
@[simp] theorem modGang_dieMap (s : State) (id : Nat) (f : Gang → Gang) : (modGang s id f).dieMap = s.dieMap := rfl
@[simp] theorem modGang_dieStat (s : State) (id : Nat) (f : Gang → Gang) : (modGang s id f).dieStat = s.dieStat := rfl
@[simp] theorem modGang_dieChange (s : State) (id : Nat) (f : Gang → Gang) : (modGang s id f).dieChange = s.dieChange := rfl
@[simp] theorem modGang_shareReg (s : State) (id : Nat) (f : Gang → Gang) : (modGang s id f).shareReg = s.shareReg := rfl
@[simp] theorem modGang_hostLink (s : State) (id : Nat) (f : Gang → Gang) : (modGang s id f).hostLink = s.hostLink := rfl
@[simp] theorem modGang_stver (s : State) (id : Nat) (f : Gang → Gang) : (modGang s id f).stver = s.stver := rfl
@[simp] theorem modGang_pfMsix (s : State) (id : Nat) (f : Gang → Gang) : (modGang s id f).pfMsix = s.pfMsix := rfl
@[simp] theorem modGang_dbgCmd (s : State) (id : Nat) (f : Gang → Gang) : (modGang s id f).dbgCmd = s.dbgCmd := rfl
@[simp] theorem modGang_dbgData (s : State) (id : Nat) (f : Gang → Gang) : (modGang s id f).dbgData = s.dbgData := rfl
@[simp] theorem modGang_dbgGang (s : State) (id : Nat) (f : Gang → Gang) : (modGang s id f).dbgGang = s.dbgGang := rfl
@[simp] theorem modGang_monitors (s : State) (id : Nat) (f : Gang → Gang) : (modGang s id f).monitors = s.monitors := rfl
@[simp] theorem modGang_monBefore (s : State) (id : Nat) (f : Gang → Gang) : (modGang s id f).monBefore = s.monBefore := rfl
@[simp] theorem modGang_poisonLane (s : State) (id : Nat) (f : Gang → Gang) : (modGang s id f).poisonLane = s.poisonLane := rfl
@[simp] theorem modGang_poisonWord (s : State) (id : Nat) (f : Gang → Gang) : (modGang s id f).poisonWord = s.poisonWord := rfl
@[simp] theorem modGang_poisonAcc (s : State) (id : Nat) (f : Gang → Gang) : (modGang s id f).poisonAcc = s.poisonAcc := rfl
@[simp] theorem modGang_poisonHbm (s : State) (id : Nat) (f : Gang → Gang) : (modGang s id f).poisonHbm = s.poisonHbm := rfl
@[simp] theorem modGang_corrections (s : State) (id : Nat) (f : Gang → Gang) : (modGang s id f).corrections = s.corrections := rfl
@[simp] theorem modGang_failedRows (s : State) (id : Nat) (f : Gang → Gang) : (modGang s id f).failedRows = s.failedRows := rfl
@[simp] theorem modGang_fencedRows (s : State) (id : Nat) (f : Gang → Gang) : (modGang s id f).fencedRows = s.fencedRows := rfl
@[simp] theorem modGang_merge (s : State) (id : Nat) (f : Gang → Gang) : (modGang s id f).merge = s.merge := rfl
@[simp] theorem modGang_armed (s : State) (id : Nat) (f : Gang → Gang) : (modGang s id f).armed = s.armed := rfl
@[simp] theorem modGang_drowsy (s : State) (id : Nat) (f : Gang → Gang) : (modGang s id f).drowsy = s.drowsy := rfl
@[simp] theorem modGang_touched (s : State) (id : Nat) (f : Gang → Gang) : (modGang s id f).touched = s.touched := rfl
@[simp] theorem modGang_diesOut (s : State) (id : Nat) (f : Gang → Gang) : (modGang s id f).diesOut = s.diesOut := rfl
@[simp] theorem modGang_stalled (s : State) (id : Nat) (f : Gang → Gang) : (modGang s id f).stalled = s.stalled := rfl
@[simp] theorem modGang_powerStalled (s : State) (id : Nat) (f : Gang → Gang) : (modGang s id f).powerStalled = s.powerStalled := rfl
@[simp] theorem modGang_fuseKey (s : State) (id : Nat) (f : Gang → Gang) : (modGang s id f).fuseKey = s.fuseKey := rfl
@[simp] theorem modGang_bootOk (s : State) (id : Nat) (f : Gang → Gang) : (modGang s id f).bootOk = s.bootOk := rfl
@[simp] theorem modGang_bootFailed (s : State) (id : Nat) (f : Gang → Gang) : (modGang s id f).bootFailed = s.bootFailed := rfl
@[simp] theorem modGang_measures (s : State) (id : Nat) (f : Gang → Gang) : (modGang s id f).measures = s.measures := rfl
@[simp] theorem modGang_attCount (s : State) (id : Nat) (f : Gang → Gang) : (modGang s id f).attCount = s.attCount := rfl
@[simp] theorem modGang_msgs (s : State) (id : Nat) (f : Gang → Gang) : (modGang s id f).msgs = s.msgs := rfl
@[simp] theorem modGang_hostData (s : State) (id : Nat) (f : Gang → Gang) : (modGang s id f).hostData = s.hostData := rfl

/-! setX -/
@[simp] theorem setX_cyc (s : State) (r : BitVec 5) (v : Word) : (setX s r v).cyc = s.cyc := by unfold setX; split <;> rfl
@[simp] theorem setX_free (s : State) (r : BitVec 5) (v : Word) : (setX s r v).free = s.free := by unfold setX; split <;> rfl
@[simp] theorem setX_agenda (s : State) (r : BitVec 5) (v : Word) : (setX s r v).agenda = s.agenda := by unfold setX; split <;> rfl
@[simp] theorem setX_calendar (s : State) (r : BitVec 5) (v : Word) : (setX s r v).calendar = s.calendar := by unfold setX; split <;> rfl
@[simp] theorem setX_fresh (s : State) (r : BitVec 5) (v : Word) : (setX s r v).fresh = s.fresh := by unfold setX; split <;> rfl
@[simp] theorem setX_others (s : State) (r : BitVec 5) (v : Word) : (setX s r v).others = s.others := by unfold setX; split <;> rfl
@[simp] theorem setX_gangs (s : State) (r : BitVec 5) (v : Word) : (setX s r v).gangs = s.gangs := by unfold setX; split <;> rfl
@[simp] theorem setX_parts (s : State) (r : BitVec 5) (v : Word) : (setX s r v).parts = s.parts := by unfold setX; split <;> rfl
@[simp] theorem setX_mem (s : State) (r : BitVec 5) (v : Word) : (setX s r v).mem = s.mem := by unfold setX; split <;> rfl
@[simp] theorem setX_planes (s : State) (r : BitVec 5) (v : Word) : (setX s r v).planes = s.planes := by unfold setX; split <;> rfl
@[simp] theorem setX_acc (s : State) (r : BitVec 5) (v : Word) : (setX s r v).acc = s.acc := by unfold setX; split <;> rfl
@[simp] theorem setX_tables (s : State) (r : BitVec 5) (v : Word) : (setX s r v).tables = s.tables := by unfold setX; split <;> rfl
@[simp] theorem setX_templates (s : State) (r : BitVec 5) (v : Word) : (setX s r v).templates = s.templates := by unfold setX; split <;> rfl
@[simp] theorem setX_bufs (s : State) (r : BitVec 5) (v : Word) : (setX s r v).bufs = s.bufs := by unfold setX; split <;> rfl
@[simp] theorem setX_bufLandings (s : State) (r : BitVec 5) (v : Word) : (setX s r v).bufLandings = s.bufLandings := by unfold setX; split <;> rfl
@[simp] theorem setX_cvtab (s : State) (r : BitVec 5) (v : Word) : (setX s r v).cvtab = s.cvtab := by unfold setX; split <;> rfl
@[simp] theorem setX_icache (s : State) (r : BitVec 5) (v : Word) : (setX s r v).icache = s.icache := by unfold setX; split <;> rfl
@[simp] theorem setX_lastServed (s : State) (r : BitVec 5) (v : Word) : (setX s r v).lastServed = s.lastServed := by unfold setX; split <;> rfl
@[simp] theorem setX_copies (s : State) (r : BitVec 5) (v : Word) : (setX s r v).copies = s.copies := by unfold setX; split <;> rfl
@[simp] theorem setX_sweeps (s : State) (r : BitVec 5) (v : Word) : (setX s r v).sweeps = s.sweeps := by unfold setX; split <;> rfl
@[simp] theorem setX_ramps (s : State) (r : BitVec 5) (v : Word) : (setX s r v).ramps = s.ramps := by unfold setX; split <;> rfl
@[simp] theorem setX_engines (s : State) (r : BitVec 5) (v : Word) : (setX s r v).engines = s.engines := by unfold setX; split <;> rfl
@[simp] theorem setX_bins (s : State) (r : BitVec 5) (v : Word) : (setX s r v).bins = s.bins := by unfold setX; split <;> rfl
@[simp] theorem setX_binFree (s : State) (r : BitVec 5) (v : Word) : (setX s r v).binFree = s.binFree := by unfold setX; split <;> rfl
@[simp] theorem setX_coachOps (s : State) (r : BitVec 5) (v : Word) : (setX s r v).coachOps = s.coachOps := by unfold setX; split <;> rfl
@[simp] theorem setX_requests (s : State) (r : BitVec 5) (v : Word) : (setX s r v).requests = s.requests := by unfold setX; split <;> rfl
@[simp] theorem setX_records (s : State) (r : BitVec 5) (v : Word) : (setX s r v).records = s.records := by unfold setX; split <;> rfl
@[simp] theorem setX_migrations (s : State) (r : BitVec 5) (v : Word) : (setX s r v).migrations = s.migrations := by unfold setX; split <;> rfl
@[simp] theorem setX_replicas (s : State) (r : BitVec 5) (v : Word) : (setX s r v).replicas = s.replicas := by unfold setX; split <;> rfl
@[simp] theorem setX_stamps (s : State) (r : BitVec 5) (v : Word) : (setX s r v).stamps = s.stamps := by unfold setX; split <;> rfl
@[simp] theorem setX_writers (s : State) (r : BitVec 5) (v : Word) : (setX s r v).writers = s.writers := by unfold setX; split <;> rfl
@[simp] theorem setX_caches (s : State) (r : BitVec 5) (v : Word) : (setX s r v).caches = s.caches := by unfold setX; split <;> rfl
@[simp] theorem setX_locked (s : State) (r : BitVec 5) (v : Word) : (setX s r v).locked = s.locked := by unfold setX; split <;> rfl
@[simp] theorem setX_dieMap (s : State) (r : BitVec 5) (v : Word) : (setX s r v).dieMap = s.dieMap := by unfold setX; split <;> rfl
@[simp] theorem setX_dieStat (s : State) (r : BitVec 5) (v : Word) : (setX s r v).dieStat = s.dieStat := by unfold setX; split <;> rfl
@[simp] theorem setX_dieChange (s : State) (r : BitVec 5) (v : Word) : (setX s r v).dieChange = s.dieChange := by unfold setX; split <;> rfl
@[simp] theorem setX_shareReg (s : State) (r : BitVec 5) (v : Word) : (setX s r v).shareReg = s.shareReg := by unfold setX; split <;> rfl
@[simp] theorem setX_hostLink (s : State) (r : BitVec 5) (v : Word) : (setX s r v).hostLink = s.hostLink := by unfold setX; split <;> rfl
@[simp] theorem setX_stver (s : State) (r : BitVec 5) (v : Word) : (setX s r v).stver = s.stver := by unfold setX; split <;> rfl
@[simp] theorem setX_pfMsix (s : State) (r : BitVec 5) (v : Word) : (setX s r v).pfMsix = s.pfMsix := by unfold setX; split <;> rfl
@[simp] theorem setX_dbgCmd (s : State) (r : BitVec 5) (v : Word) : (setX s r v).dbgCmd = s.dbgCmd := by unfold setX; split <;> rfl
@[simp] theorem setX_dbgData (s : State) (r : BitVec 5) (v : Word) : (setX s r v).dbgData = s.dbgData := by unfold setX; split <;> rfl
@[simp] theorem setX_dbgGang (s : State) (r : BitVec 5) (v : Word) : (setX s r v).dbgGang = s.dbgGang := by unfold setX; split <;> rfl
@[simp] theorem setX_monitors (s : State) (r : BitVec 5) (v : Word) : (setX s r v).monitors = s.monitors := by unfold setX; split <;> rfl
@[simp] theorem setX_monBefore (s : State) (r : BitVec 5) (v : Word) : (setX s r v).monBefore = s.monBefore := by unfold setX; split <;> rfl
@[simp] theorem setX_poisonLane (s : State) (r : BitVec 5) (v : Word) : (setX s r v).poisonLane = s.poisonLane := by unfold setX; split <;> rfl
@[simp] theorem setX_poisonWord (s : State) (r : BitVec 5) (v : Word) : (setX s r v).poisonWord = s.poisonWord := by unfold setX; split <;> rfl
@[simp] theorem setX_poisonAcc (s : State) (r : BitVec 5) (v : Word) : (setX s r v).poisonAcc = s.poisonAcc := by unfold setX; split <;> rfl
@[simp] theorem setX_poisonHbm (s : State) (r : BitVec 5) (v : Word) : (setX s r v).poisonHbm = s.poisonHbm := by unfold setX; split <;> rfl
@[simp] theorem setX_corrections (s : State) (r : BitVec 5) (v : Word) : (setX s r v).corrections = s.corrections := by unfold setX; split <;> rfl
@[simp] theorem setX_failedRows (s : State) (r : BitVec 5) (v : Word) : (setX s r v).failedRows = s.failedRows := by unfold setX; split <;> rfl
@[simp] theorem setX_fencedRows (s : State) (r : BitVec 5) (v : Word) : (setX s r v).fencedRows = s.fencedRows := by unfold setX; split <;> rfl
@[simp] theorem setX_merge (s : State) (r : BitVec 5) (v : Word) : (setX s r v).merge = s.merge := by unfold setX; split <;> rfl
@[simp] theorem setX_armed (s : State) (r : BitVec 5) (v : Word) : (setX s r v).armed = s.armed := by unfold setX; split <;> rfl
@[simp] theorem setX_drowsy (s : State) (r : BitVec 5) (v : Word) : (setX s r v).drowsy = s.drowsy := by unfold setX; split <;> rfl
@[simp] theorem setX_touched (s : State) (r : BitVec 5) (v : Word) : (setX s r v).touched = s.touched := by unfold setX; split <;> rfl
@[simp] theorem setX_diesOut (s : State) (r : BitVec 5) (v : Word) : (setX s r v).diesOut = s.diesOut := by unfold setX; split <;> rfl
@[simp] theorem setX_stalled (s : State) (r : BitVec 5) (v : Word) : (setX s r v).stalled = s.stalled := by unfold setX; split <;> rfl
@[simp] theorem setX_powerStalled (s : State) (r : BitVec 5) (v : Word) : (setX s r v).powerStalled = s.powerStalled := by unfold setX; split <;> rfl
@[simp] theorem setX_fuseKey (s : State) (r : BitVec 5) (v : Word) : (setX s r v).fuseKey = s.fuseKey := by unfold setX; split <;> rfl
@[simp] theorem setX_bootOk (s : State) (r : BitVec 5) (v : Word) : (setX s r v).bootOk = s.bootOk := by unfold setX; split <;> rfl
@[simp] theorem setX_bootFailed (s : State) (r : BitVec 5) (v : Word) : (setX s r v).bootFailed = s.bootFailed := by unfold setX; split <;> rfl
@[simp] theorem setX_measures (s : State) (r : BitVec 5) (v : Word) : (setX s r v).measures = s.measures := by unfold setX; split <;> rfl
@[simp] theorem setX_attCount (s : State) (r : BitVec 5) (v : Word) : (setX s r v).attCount = s.attCount := by unfold setX; split <;> rfl
@[simp] theorem setX_msgs (s : State) (r : BitVec 5) (v : Word) : (setX s r v).msgs = s.msgs := by unfold setX; split <;> rfl
@[simp] theorem setX_hostData (s : State) (r : BitVec 5) (v : Word) : (setX s r v).hostData = s.hostData := by unfold setX; split <;> rfl

/-! The hart in hand. -/
@[simp] theorem modH_h (s : State) (f : Hart → Hart) : (modH s f).h = f s.h := rfl
@[simp] theorem modCsr_h (s : State) (f : Csrs → Csrs) : (modCsr s f).h = { s.h with csr := f s.h.csr } := rfl
@[simp] theorem goTo_h (pc : Word) (s : State) : (goTo pc s).h = { s.h with pc := pc, issued := true } := rfl
@[simp] theorem retire_h (c : Ctl) (s : State) : (retire c s).h = { s.h with pc := nextPc c s, issued := true } := rfl
@[simp] theorem setWork_h (s : State) (n : Nat) : (setWork s n).h = { s.h with work := n } := rfl
@[simp] theorem resetGens_h (s : State) : (resetGens s).h = { s.h with gens := [] } := rfl
@[simp] theorem orFlags_h (s : State) (f : FlagSet) :
    (orFlags s f).h = { s.h with csr := { s.h.csr with fcsr := s.h.csr.fcsr ||| f.setWidth 64 }, raised := s.h.raised ||| f } := rfl
@[simp] theorem modGang_gangs (s : State) (id : Nat) (f : Gang → Gang) : (modGang s id f).gangs =
    s.gangs.map (fun g => if g.id == id && g.st != .retired && g.st != .faulted then f g else g) := rfl
@[simp] theorem schedule_calendar (s : State) (cy : Nat) (e : Event) : (schedule s cy e).calendar = s.calendar ++ [(cy, e)] := rfl
@[simp] theorem sendMsi_msgs (s : State) (fn vec : Nat) : (sendMsi s fn vec).msgs = s.msgs ++ [message s fn vec] := rfl

/-- X0 takes no value. -/
@[simp] theorem setX_zero (s : State) (v : Word) : setX s 0 v = s := if_pos rfl
theorem setX_h (s : State) (r : BitVec 5) (v : Word) (h : r ≠ 0) :
    (setX s r v).h = { s.h with x := s.h.x.set r.toNat v r.isLt } := by unfold setX; rw [if_neg h]; rfl
/-- X0 reads as zero. -/
@[simp] theorem rx_zero (s : State) : rx s 0 = 0 := by simp [rx]
theorem setX_pc (s : State) (r : BitVec 5) (v : Word) : (setX s r v).h.pc = s.h.pc := by unfold setX; split <;> rfl
theorem setX_csr (s : State) (r : BitVec 5) (v : Word) : (setX s r v).h.csr = s.h.csr := by unfold setX; split <;> rfl
theorem setX_regs (s : State) (r : BitVec 5) (v : Word) : (setX s r v).h.regs = s.h.regs := by unfold setX; split <;> rfl
theorem setX_hot (s : State) (r : BitVec 5) (v : Word) : (setX s r v).h.hot = s.h.hot := by unfold setX; split <;> rfl
/-- Every register after a write of X`r`. -/
theorem setX_x (s : State) (r : BitVec 5) (v : Word) (n : Nat) (h : n < 32) :
    (setX s r v).h.x[n] = if n = r.toNat ∧ n ≠ 0 then v else s.h.x[n] := by
  unfold setX
  split
  · rename_i h0; subst h0; simp
  · rename_i h0
    have : r.toNat ≠ 0 := fun e => h0 (BitVec.eq_of_toNat_eq (by simpa using e))
    simp only [modH_h, Vector.getElem_set]
    by_cases e : r.toNat = n
    · subst e; simp [this]
    · exact (if_neg e).trans (if_neg (fun q => e q.1.symm)).symm

end Sys2Proof.Machine
end

