-- ==== Sys2Proof/Laws/Store.lean ====
section
/-! SUPPORT. Sparse storage: reading after each operation, and that each keeps the canonical form. -/
namespace Sys2Proof.Machine

variable {α : Type}

@[simp] theorem sget_nil (d : α) (k : Nat) : sget d [] k = d := rfl

theorem sget_sput (d : α) (m : Sparse α) (k j : Nat) (v : α) : sget d (sput m k v) j = if j = k then v else sget d m j := by
  induction m with
  | nil =>
    by_cases h : j = k
    · simp [sput, sget, h]
    · simp only [sput, sget, if_neg h, if_neg (fun e : k = j => h e.symm)]
  | cons e r ih =>
    obtain ⟨k', v'⟩ := e
    simp only [sput]
    split_ifs with h1 h2 h3 <;> simp only [sget, ih] <;> split_ifs <;> first | rfl | omega

theorem sget_sdrop (d : α) (m : Sparse α) (p : Nat → Bool) (j : Nat) :
    sget d (sdrop m p) j = if p j then d else sget d m j := by
  induction m with
  | nil => simp [sdrop, sget]
  | cons e r ih =>
    obtain ⟨k', v'⟩ := e
    simp only [sdrop, List.filter_cons] at ih ⊢
    by_cases hp : p k' = true
    · simp only [hp, Bool.not_true, Bool.false_eq_true, if_false, ih, sget]
      by_cases hk : k' = j
      · subst hk; simp [hp]
      · simp [hk]
    · simp only [Bool.not_eq_true] at hp
      simp only [hp, Bool.not_false, if_true, sget, ih]
      by_cases hk : k' = j
      · subst hk; simp [hp]
      · simp [hk]

/-- A write to one key changes what that key holds and no other. -/
theorem sget_sset [DecidableEq α] (d : α) (m : Sparse α) (k j : Nat) (v : α) :
    sget d (sset d m k v) j = if j = k then v else sget d m j := by
  unfold sset
  split_ifs with h1 h2 h2
  · subst h2; rw [sget_sdrop]; simp [h1]
  · rw [sget_sdrop]; simp [h2]
  · subst h2; rw [sget_sput]; simp
  · rw [sget_sput]; simp [h2]

/-- The canonical form as an order on the list and a condition on its entries. -/
theorem sortedAbove_iff [DecidableEq α] (d : α) (lo : Nat) (m : Sparse α) :
    sortedAbove d lo m = true ↔ m.Pairwise (fun a b => a.1 < b.1) ∧ ∀ e ∈ m, lo < e.1 ∧ e.2 ≠ d := by
  induction m generalizing lo with
  | nil => simp [sortedAbove]
  | cons e r ih =>
    obtain ⟨k, v⟩ := e
    simp only [sortedAbove, Bool.and_eq_true, Bool.not_eq_true', decide_eq_true_eq, decide_eq_false_iff_not, ih, List.pairwise_cons,
      List.forall_mem_cons]
    constructor
    · rintro ⟨⟨h1, h2⟩, h3, h4⟩
      exact ⟨⟨fun a ha => (h4 a ha).1, h3⟩, ⟨h1, h2⟩, fun a ha => ⟨h1.trans (h4 a ha).1, (h4 a ha).2⟩⟩
    · rintro ⟨⟨h1, h3⟩, ⟨h5, h2⟩, h4⟩
      exact ⟨⟨h5, h2⟩, h3, fun a ha => ⟨h1 a ha, (h4 a ha).2⟩⟩

theorem canonical_iff [DecidableEq α] (d : α) (m : Sparse α) :
    canonical d m = true ↔ m.Pairwise (fun a b => a.1 < b.1) ∧ ∀ e ∈ m, e.2 ≠ d := by
  cases m with
  | nil => simp [canonical]
  | cons e r =>
    obtain ⟨k, v⟩ := e
    simp only [canonical, Bool.and_eq_true, Bool.not_eq_true', decide_eq_false_iff_not, sortedAbove_iff, List.pairwise_cons,
      List.forall_mem_cons]
    constructor
    · rintro ⟨h1, h3, h4⟩
      exact ⟨⟨fun a ha => (h4 a ha).1, h3⟩, h1, fun a ha => (h4 a ha).2⟩
    · rintro ⟨⟨h2, h3⟩, h1, h4⟩
      exact ⟨h1, h3, fun a ha => ⟨h2 a ha, h4 a ha⟩⟩

@[simp] theorem canonical_nil [DecidableEq α] (d : α) : canonical d ([] : Sparse α) = true := rfl

theorem canonical_filter [DecidableEq α] {d : α} {m : Sparse α} (p : Nat × α → Bool) (h : canonical d m = true) :
    canonical d (m.filter p) = true := by
  rw [canonical_iff] at h ⊢
  exact ⟨h.1.filter _, fun e he => h.2 e (List.mem_filter.mp he).1⟩

theorem canonical_sdrop [DecidableEq α] {d : α} {m : Sparse α} (p : Nat → Bool) (h : canonical d m = true) :
    canonical d (sdrop m p) = true := canonical_filter _ h

theorem mem_sput {m : Sparse α} {k : Nat} {v : α} {e : Nat × α} (h : e ∈ sput m k v) : e = (k, v) ∨ e ∈ m := by
  induction m with
  | nil => simpa [sput] using h
  | cons x r ih =>
    simp only [sput] at h
    split_ifs at h with h1 h2
    · simpa using h
    · rcases List.mem_cons.mp h with h | h
      · exact .inl h
      · exact .inr (List.mem_cons_of_mem _ h)
    · rcases List.mem_cons.mp h with h | h
      · exact .inr (h ▸ List.mem_cons_self)
      · exact (ih h).imp_right (List.mem_cons_of_mem _)

theorem pairwise_sput {m : Sparse α} (k : Nat) (v : α) (h : m.Pairwise (fun a b => a.1 < b.1)) :
    (sput m k v).Pairwise (fun a b => a.1 < b.1) := by
  induction m with
  | nil => simp [sput]
  | cons x r ih =>
    obtain ⟨k', v'⟩ := x
    have hr := List.pairwise_cons.mp h
    simp only [sput]
    split_ifs with h1 h2
    · refine List.pairwise_cons.mpr ⟨fun e he => ?_, h⟩
      rcases List.mem_cons.mp he with he | he
      · exact he ▸ h1
      · exact h1.trans (hr.1 e he)
    · exact List.pairwise_cons.mpr ⟨fun e he => by have := hr.1 e he; simp only at this ⊢; omega, hr.2⟩
    · refine List.pairwise_cons.mpr ⟨fun e he => ?_, ih hr.2⟩
      rcases mem_sput he with he | he
      · subst he; simp only; omega
      · exact hr.1 e he

/-- Every write keeps the canonical form. -/
theorem canonical_sset [DecidableEq α] {d : α} {m : Sparse α} (k : Nat) (v : α) (h : canonical d m = true) :
    canonical d (sset d m k v) = true := by
  unfold sset
  split_ifs with hv
  · exact canonical_sdrop _ h
  · rw [canonical_iff] at h ⊢
    refine ⟨pairwise_sput k v h.1, fun e he => ?_⟩
    rcases mem_sput he with he | he
    · exact he ▸ hv
    · exact h.2 e he

theorem canonical_putBytes {m : Sparse Byte} (a : Nat) (bs : List Byte) (h : canonical 0 m = true) :
    canonical 0 (putBytes m a bs) = true := by
  induction bs generalizing m a with
  | nil => exact h
  | cons b r ih => exact ih (a + 1) (canonical_sset a b h)

/-- A slice, its keys counted from its start, is canonical. -/
theorem canonical_sslice [DecidableEq α] {d : α} {m : Sparse α} (lo n : Nat) (h : canonical d m = true) :
    canonical d (sslice m lo n) = true := by
  rw [canonical_iff] at h ⊢
  unfold sslice
  constructor
  · rw [List.pairwise_map]
    refine List.Pairwise.imp_of_mem (fun {a b} ha hb hab => ?_) (h.1.filter _)
    have ha' := (List.mem_filter.mp ha).2
    have hb' := (List.mem_filter.mp hb).2
    simp only [Bool.and_eq_true, decide_eq_true_eq] at ha' hb'
    simp only; omega
  · intro e he
    obtain ⟨x, hx, rfl⟩ := List.mem_map.mp he
    exact h.2 x (List.mem_filter.mp hx).1

/-- Replacing a stretch of a canonical list by a canonical list is canonical. -/
theorem canonical_ssplice [DecidableEq α] {d : α} {m new : Sparse α} (lo n : Nat) (h : canonical d m = true)
    (hn : canonical d new = true) : canonical d (ssplice m lo n new) = true := by
  rw [canonical_iff] at h hn ⊢
  unfold ssplice
  constructor
  · rw [List.pairwise_append, List.pairwise_append, List.pairwise_map]
    refine ⟨⟨h.1.filter _, ?_, ?_⟩, h.1.filter _, ?_⟩
    · exact (hn.1.filter _).imp (fun {a b} hab => by simp only; omega)
    · intro a ha b hb
      obtain ⟨x, hx, rfl⟩ := List.mem_map.mp hb
      have := (List.mem_filter.mp ha).2
      simp only [decide_eq_true_eq] at this
      simp only; omega
    · intro a ha b hb
      have hb' := (List.mem_filter.mp hb).2
      simp only [decide_eq_true_eq] at hb'
      rcases List.mem_append.mp ha with ha | ha
      · have := (List.mem_filter.mp ha).2
        simp only [decide_eq_true_eq] at this
        omega
      · obtain ⟨x, hx, rfl⟩ := List.mem_map.mp ha
        have := (List.mem_filter.mp hx).2
        simp only [decide_eq_true_eq] at this
        simp only; omega
  · intro e he
    rcases List.mem_append.mp he with he | he
    · rcases List.mem_append.mp he with he | he
      · exact h.2 e (List.mem_filter.mp he).1
      · obtain ⟨x, hx, rfl⟩ := List.mem_map.mp he
        exact hn.2 x (List.mem_filter.mp hx).1
    · exact h.2 e (List.mem_filter.mp he).1

/-- Reading a byte after bytes were stored from `a` upward. -/
theorem sget_putBytes (m : Sparse Byte) (a j : Nat) (bs : List Byte) :
    sget 0 (putBytes m a bs) j = if a ≤ j ∧ j < a + bs.length then bs.getD (j - a) 0 else sget 0 m j := by
  induction bs generalizing m a with
  | nil =>
    have : ¬(a ≤ j ∧ j < a + 0) := by omega
    rw [List.length_nil, if_neg this]; rfl
  | cons b r ih =>
    simp only [putBytes, ih, sget_sset, List.length_cons]
    by_cases h1 : j = a
    · subst h1; simp
    · by_cases h2 : a + 1 ≤ j ∧ j < a + 1 + r.length
      · have h3 : a ≤ j ∧ j < a + (r.length + 1) := by omega
        have h4 : j - a = (j - (a + 1)) + 1 := by omega
        simp [h2, h3, h4]
      · have h3 : ¬(a ≤ j ∧ j < a + (r.length + 1)) := by omega
        rw [if_neg h2, if_neg h1, if_neg h3]

@[simp] theorem length_toBytes (n v : Nat) : (toBytes n v).length = n := by simp [toBytes]

theorem getD_toBytes (n v i : Nat) (h : i < n) : (toBytes n v).getD i 0 = BitVec.ofNat 8 (v / 256 ^ i) := by
  simp [toBytes, List.getD, h]

theorem leNat_lt (bs : List Byte) : leNat bs < 256 ^ bs.length := by
  induction bs with
  | nil => simp [leNat]
  | cons b r ih => simp only [leNat, List.length_cons, pow_succ]; have := b.isLt; omega

/-- The bytes of a number read back as the number. -/
theorem leNat_toBytes (n v : Nat) : leNat (toBytes n v) = v % 256 ^ n := by
  induction n generalizing v with
  | zero => simp [toBytes, leNat, Nat.mod_one]
  | succ k ih =>
    have e : toBytes (k + 1) v = BitVec.ofNat 8 v :: toBytes k (v / 256) := by
      simp only [toBytes, List.range_succ_eq_map, List.map_cons, List.map_map, pow_zero, Nat.div_one, List.cons.injEq, true_and]
      refine List.map_congr_left (fun i _ => ?_)
      simp only [Function.comp, Nat.succ_eq_add_one, pow_succ, Nat.div_div_eq_div_mul]
      rw [Nat.mul_comm]
    rw [e, leNat, ih, pow_succ, Nat.mul_comm (256 ^ k), Nat.mod_mul]
    simp

/-- Two canonical lists that read alike are equal. -/
theorem canonical_ext [DecidableEq α] {d : α} {m n : Sparse α} (hm : canonical d m = true) (hn : canonical d n = true)
    (h : ∀ k, sget d m k = sget d n k) : m = n := by
  rw [canonical_iff] at hm hn
  induction m generalizing n with
  | nil =>
    cases n with
    | nil => rfl
    | cons e r =>
      have := h e.1
      simp only [sget, if_true] at this
      exact absurd this.symm (hn.2 e List.mem_cons_self)
  | cons e r ih =>
    have low : ∀ {l : Sparse α} {k : Nat}, (∀ x ∈ l, k < x.1) → sget d l k = d := by
      intro l k hl
      induction l with
      | nil => rfl
      | cons x t iht =>
        have hx := hl x List.mem_cons_self
        simp only [sget, if_neg (show ¬x.1 = k by omega)]
        exact iht (fun y hy => hl y (List.mem_cons_of_mem _ hy))
    have hr := List.pairwise_cons.mp hm.1
    cases n with
    | nil =>
      have := h e.1
      simp only [sget, if_true] at this
      exact absurd this (hm.2 e List.mem_cons_self)
    | cons e' r' =>
      have hr' := List.pairwise_cons.mp hn.1
      obtain ⟨k, v⟩ := e
      obtain ⟨k', v'⟩ := e'
      have hk : k = k' := by
        rcases Nat.lt_trichotomy k k' with c | c | c
        · have := h k
          rw [low (l := (k', v') :: r') (k := k) (by
            intro x hx
            rcases List.mem_cons.mp hx with hx | hx
            · exact hx ▸ c
            · exact c.trans (hr'.1 x hx))] at this
          simp only [sget, if_true] at this
          exact absurd this (hm.2 (k, v) List.mem_cons_self)
        · exact c
        · have := h k'
          rw [low (l := (k, v) :: r) (k := k') (by
            intro x hx
            rcases List.mem_cons.mp hx with hx | hx
            · exact hx ▸ c
            · exact c.trans (hr.1 x hx))] at this
          simp only [sget, if_true] at this
          exact absurd this.symm (hn.2 (k', v') List.mem_cons_self)
      subst hk
      have hv := h k
      simp only [sget, if_true] at hv
      subst hv
      rw [ih ⟨hr.2, fun x hx => hm.2 x (List.mem_cons_of_mem _ hx)⟩ ⟨hr'.2, fun x hx => hn.2 x (List.mem_cons_of_mem _ hx)⟩]
      intro j
      have hj := h j
      simp only [sget] at hj
      by_cases e : k = j
      · subst e; rw [low hr.1, low hr'.1]
      · simpa [e] using hj

end Sys2Proof.Machine
end

