-- ==== Sys2Proof/Laws/Planes.lean ====
section
/-! SUPPORT. What writing elements into the planes does: the bits written, the bits left, and the rest of the state. -/
namespace Sys2Proof.Machine

/-- Nothing but planes, their poison marks and armed errors differs. -/
def OnlyPlanes (s t : State) : Prop :=
  { t with planes := s.planes, poisonLane := s.poisonLane, armed := s.armed, calendar := s.calendar } = s

theorem OnlyPlanes.rfl' (s : State) : OnlyPlanes s s := rfl

theorem OnlyPlanes.trans {s t u : State} (h1 : OnlyPlanes s t) (h2 : OnlyPlanes t u) : OnlyPlanes s u := by
  unfold OnlyPlanes at *
  rw [← h1, ← h2]

theorem OnlyPlanes.h {s t : State} (a : OnlyPlanes s t) : t.h = s.h := by rw [← a]
theorem OnlyPlanes.fenced {s t : State} (a : OnlyPlanes s t) : t.fencedRows = s.fencedRows := by rw [← a]

theorem OnlyPlanes.foldl {β : Type} {f : State → β → State} (hf : ∀ s b, OnlyPlanes s (f s b)) (l : List β) (s : State) :
    OnlyPlanes s (l.foldl f s) := by
  induction l generalizing s with
  | nil => exact .rfl' s
  | cons b r ih => exact (hf s b).trans (ih _)

theorem strike_onlyPlanes (s : State) (space key : Nat) : OnlyPlanes s (strike s space key) := by
  unfold strike
  split
  · exact .rfl' s
  · split <;> rfl

theorem strike_planes (s : State) (space key : Nat) : (strike s space key).planes = s.planes := by
  unfold strike
  split
  · rfl
  · split <;> rfl

theorem markRow_onlyPlanes (s : State) (core row p d : Nat) (l : List (Nat × Nat × Bool)) :
    OnlyPlanes s (markRow s core row p d l) := by
  unfold markRow
  split <;> rfl

theorem markRow_planes (s : State) (core row p d : Nat) (l : List (Nat × Nat × Bool)) :
    (markRow s core row p d l).planes = s.planes := by
  unfold markRow
  split <;> rfl

theorem foldl_planes {β : Type} {f : State → β → State} (hf : ∀ s b, (f s b).planes = s.planes) (l : List β) (s : State) :
    (l.foldl f s).planes = s.planes := by
  induction l generalizing s with
  | nil => rfl
  | cons b r ih => exact (ih _).trans (hf s b)

theorem strikeRow_onlyPlanes (s : State) (core row p d : Nat) (l : List (Nat × Nat × Bool)) :
    OnlyPlanes s (strikeRow s core row p d l) := by
  unfold strikeRow
  split
  · rfl
  · exact .foldl (fun s k => .foldl (fun s l => strike_onlyPlanes _ _ _) _ _) _ _

theorem strikeRow_planes (s : State) (core row p d : Nat) (l : List (Nat × Nat × Bool)) :
    (strikeRow s core row p d l).planes = s.planes := by
  unfold strikeRow
  split
  · rfl
  · exact foldl_planes (fun s k => foldl_planes (fun s l => strike_planes _ _ _) _ _) _ _

theorem writeRow_onlyPlanes (s : State) (core row p d : Nat) (l : List (Nat × Nat × Bool)) :
    OnlyPlanes s (writeRow s core row p d l) := by
  unfold writeRow
  split
  · rfl
  · refine OnlyPlanes.trans (OnlyPlanes.trans ?_ (markRow_onlyPlanes _ _ _ _ _ _)) (strikeRow_onlyPlanes _ _ _ _ _ _)
    rfl

theorem writeRow_planes (s : State) (core row p d : Nat) (l : List (Nat × Nat × Bool)) :
    (writeRow s core row p d l).planes = if l.isEmpty then s.planes else rowWritten (foldOf s) core row p d l s.planes := by
  unfold writeRow
  split
  · rfl
  · rw [strikeRow_planes, markRow_planes]

theorem writeRows_onlyPlanes (s : State) (p d : Nat) (rs : List Nat) (items : List Item) :
    OnlyPlanes s (writeRows s p d rs items) := by
  induction rs generalizing s items with
  | nil => exact .rfl' s
  | cons r rest ih => exact (writeRow_onlyPlanes _ _ _ _ _ _).trans (ih _ _)

theorem writeElems_onlyPlanes (s : State) (n w : Nat) (sgn : Bool) (items : List Item) :
    OnlyPlanes s (writeElems s n w sgn items) := by
  unfold writeElems
  split
  · exact writeRows_onlyPlanes _ _ _ _ _
  · exact .rfl' s

theorem writePred_onlyPlanes (s : State) (p : Nat) (items : List Item) : OnlyPlanes s (writePred s p items) := by
  unfold writePred
  split
  · exact .rfl' s
  · exact writeRows_onlyPlanes _ _ _ _ _

end Sys2Proof.Machine
end

