-- ==== Sys2Proof/Laws/Elements.lean ====
section
/-! SUPPORT. The bits of the elements after a write of results, and the bits that the write leaves. -/
namespace Sys2Proof.Machine

abbrev LaneWrite := Nat × Nat × Bool

/-- The write that covers lane `b`. -/
def laneHit (f : Nat) (lanes : List LaneWrite) (b : Nat) : Option LaneWrite :=
  lanes.find? (fun l => decide (l.1 ≤ b) && decide (b < l.1 + f))

/-- No two writes overlap, and they ascend. -/
def Separated (f : Nat) (lanes : List LaneWrite) : Prop := lanes.Pairwise (fun a b => a.1 + f ≤ b.1)

theorem laneSum_testBit (f : Nat) (g : LaneWrite → Nat) (hg : ∀ l, g l < 2 ^ f) (lanes : List LaneWrite)
    (hs : Separated f lanes) (m0 : Nat) (hm : ∀ l ∈ lanes, m0 < 2 ^ l.1) (b : Nat) :
    (lanes.foldl (fun m l => m + g l * 2 ^ l.1) m0).testBit b =
      match laneHit f lanes b with
      | some l => (g l).testBit (b - l.1)
      | none => m0.testBit b := by
  induction lanes generalizing m0 with
  | nil => rfl
  | cons l r ih =>
    have hr := List.pairwise_cons.mp hs
    have hl := hm l List.mem_cons_self
    have key : (m0 + g l * 2 ^ l.1).testBit b = if b < l.1 then m0.testBit b else (g l).testBit (b - l.1) := by
      rw [Nat.add_comm, Nat.mul_comm, Nat.testBit_two_pow_mul_add _ hl]
    rw [List.foldl_cons, ih hr.2 _ (fun x hx => ?_)]
    · unfold laneHit
      by_cases h : l.1 ≤ b ∧ b < l.1 + f
      · have hn : r.find? (fun l => decide (l.1 ≤ b) && decide (b < l.1 + f)) = none := by
          rw [List.find?_eq_none]
          intro x hx
          have := hr.1 x hx
          simp only [Bool.and_eq_true, decide_eq_true_eq]
          omega
        rw [hn, List.find?_cons_of_pos (by simp [h.1, h.2])]
        simp only [key, if_neg (Nat.not_lt.mpr h.1)]
      · rw [List.find?_cons_of_neg (by simpa using h)]
        cases hf : r.find? (fun l => decide (l.1 ≤ b) && decide (b < l.1 + f)) with
        | some x => rfl
        | none =>
          simp only [key]
          split
          · rfl
          · rename_i hb
            have h1 : (g l).testBit (b - l.1) = false :=
              Nat.testBit_lt_two_pow (lt_of_lt_of_le (hg l) (Nat.pow_le_pow_right (by omega) (by omega)))
            have h2 : m0.testBit b = false :=
              Nat.testBit_lt_two_pow (lt_of_lt_of_le hl (Nat.pow_le_pow_right (by omega) (by omega)))
            rw [h1, h2]
    · have h1 := hr.1 x hx
      have h2 : m0 + g l * 2 ^ l.1 < 2 ^ (l.1 + f) := by
        have := hg l
        have h3 : g l * 2 ^ l.1 + 2 ^ l.1 ≤ 2 ^ f * 2 ^ l.1 := by
          rw [← Nat.succ_mul]; exact Nat.mul_le_mul_right _ this
        rw [Nat.pow_add, Nat.mul_comm (2 ^ l.1)]
        omega
      exact lt_of_lt_of_le h2 (Nat.pow_le_pow_right (by omega) h1)

theorem lanesMask_testBit (f : Nat) (lanes : List LaneWrite) (hs : Separated f lanes) (b : Nat) :
    (lanesMask f lanes).testBit b = (laneHit f lanes b).isSome := by
  have hp : 0 < 2 ^ f := Nat.two_pow_pos f
  have := laneSum_testBit f (fun _ => 2 ^ f - 1) (fun _ => by omega) lanes hs 0 (fun l _ => Nat.two_pow_pos _) b
  unfold lanesMask
  rw [this]
  cases h : laneHit f lanes b with
  | none => simp
  | some l =>
    have h1 := List.find?_some h
    simp only [Bool.and_eq_true, decide_eq_true_eq] at h1
    simp only [Nat.testBit_two_pow_sub_one, Option.isSome_some, decide_eq_true_eq]
    omega

theorem lanesBits_testBit (f k : Nat) (lanes : List LaneWrite) (hs : Separated f lanes) (b : Nat) :
    (lanesBits f k lanes).testBit b = match laneHit f lanes b with
      | some l => l.2.1.testBit (k * f + (b - l.1))
      | none => false := by
  have hp : 0 < 2 ^ f := Nat.two_pow_pos f
  have := laneSum_testBit f (fun l => l.2.1 / 2 ^ (k * f) % 2 ^ f) (fun _ => Nat.mod_lt _ hp) lanes hs 0
    (fun l _ => Nat.two_pow_pos _) b
  unfold lanesBits
  rw [this]
  cases h : laneHit f lanes b with
  | none => simp
  | some l =>
    have h1 := List.find?_some h
    simp only [Bool.and_eq_true, decide_eq_true_eq] at h1
    simp only [Nat.testBit_mod_two_pow, Nat.testBit_div_two_pow]
    have : b - l.1 < f := by omega
    simp [this, Nat.add_comm]

theorem planeKey_inj {c r p c' r' p' : Nat} (hr : r < 256) (hr' : r' < 256) (hp : p < 256) (hp' : p' < 256)
    (h : planeKey c r p = planeKey c' r' p') : c = c' ∧ r = r' ∧ p = p' := by
  unfold planeKey at h
  omega

/-- The planes after a write to lanes of a row, key by key. -/
theorem sget_rowWritten (f core row p d : Nat) (lanes : List LaneWrite) (m : Sparse (BitVec 1024)) (K : Nat) :
    sget 0 (rowWritten f core row p d lanes m) K =
      if planeKey core row p ≤ K ∧ K < planeKey core row p + d then
        (sget 0 m K &&& ~~~BitVec.ofNat 1024 (lanesMask f lanes)) |||
          BitVec.ofNat 1024 (lanesBits f (K - planeKey core row p) lanes)
      else sget 0 m K := by
  unfold rowWritten
  induction d with
  | zero =>
    have : ¬(planeKey core row p ≤ K ∧ K < planeKey core row p + 0) := by omega
    rw [if_neg this]; rfl
  | succ d ih =>
    have ke : planeKey core row (p + d) = planeKey core row p + d := by unfold planeKey; omega
    rw [List.range_succ, List.foldl_append, List.foldl_cons, List.foldl_nil, sget_sset, ke]
    by_cases h : K = planeKey core row p + d
    · subst h
      rw [if_pos rfl, ih, if_neg (by omega), if_pos (by omega)]
      simp
    · rw [if_neg h, ih]
      by_cases h2 : planeKey core row p ≤ K ∧ K < planeKey core row p + d
      · rw [if_pos h2, if_pos (by omega)]
      · rw [if_neg h2, if_neg (by omega)]

/-- One bit after a write to lanes of a row. -/
theorem writeRow_bit (s : State) (core row p d : Nat) (lanes : List LaneWrite) (hs : Separated (foldOf s) lanes)
    (hrow : row < 256) (hp : p + d ≤ 256) (core' row' pl lane : Nat) (hr' : row' < 256) (hpl : pl < 256) (hlane : lane < 1024) :
    (planeAt (writeRow s core row p d lanes) core' row' pl).getLsbD lane =
      if core' = core ∧ row' = row ∧ p ≤ pl ∧ pl < p + d then
        match laneHit (foldOf s) lanes lane with
        | some l => l.2.1.testBit ((pl - p) * foldOf s + (lane - l.1))
        | none => (planeAt s core' row' pl).getLsbD lane
      else (planeAt s core' row' pl).getLsbD lane := by
  unfold planeAt
  rw [writeRow_planes]
  cases lanes with
  | nil =>
    have : laneHit (foldOf s) [] lane = none := rfl
    simp [this]
  | cons l0 rest =>
    rw [if_neg (by simp), sget_rowWritten]
    by_cases h : core' = core ∧ row' = row ∧ p ≤ pl ∧ pl < p + d
    · have hk : planeKey core row p ≤ planeKey core' row' pl ∧ planeKey core' row' pl < planeKey core row p + d := by
        rw [h.1, h.2.1]; unfold planeKey; omega
      have hd : planeKey core' row' pl - planeKey core row p = pl - p := by
        rw [h.1, h.2.1]; unfold planeKey; omega
      rw [if_pos hk, if_pos h, hd]
      simp only [BitVec.getLsbD_or, BitVec.getLsbD_and, BitVec.getLsbD_not, BitVec.getLsbD_ofNat, hlane, decide_true, Bool.true_and,
        lanesMask_testBit _ _ hs, lanesBits_testBit _ _ _ hs]
      cases laneHit (foldOf s) (l0 :: rest) lane with
      | none => simp
      | some l => simp
    · have hk : ¬(planeKey core row p ≤ planeKey core' row' pl ∧ planeKey core' row' pl < planeKey core row p + d) := by
        unfold planeKey; omega
      rw [if_neg hk, if_neg h]

/-! Rows of items. -/

theorem physRow_congr {s t : State} (h : t.fencedRows = s.fencedRows) (core i : Nat) : physRow t core i = physRow s core i := by
  unfold physRow; rw [h]

theorem RowsDistinct.congr {s t : State} (hr : RowsDistinct s) (hh : t.h = s.h) (hf : t.fencedRows = s.fencedRows) :
    RowsDistinct t := by
  intro k hk i hi
  rw [hh] at hk hi ⊢
  refine ⟨by rw [physRow_congr hf]; exact (hr k hk i hi).1, fun j hj => ?_⟩
  rw [physRow_congr hf, physRow_congr hf]
  exact (hr k hk i hi).2 j hj

theorem GrantSound.congr {s t : State} (hg : GrantSound s) (hh : t.h = s.h) (hf : t.fencedRows = s.fencedRows) : GrantSound t := by
  unfold GrantSound
  rw [hh]
  exact ⟨hg.1, hg.2.1, hg.2.2.1, hg.2.2.2.1, hg.2.2.2.2.congr hh hf⟩

theorem itemsBelow_eq (hi : Nat) (items : List Item) (h : items.Pairwise (fun a b => a.elem < b.elem)) :
    itemsBelow hi items = (items.filter (fun i => i.elem < hi), items.filter (fun i => !decide (i.elem < hi))) := by
  induction items with
  | nil => rfl
  | cons x r ih =>
    have hr := List.pairwise_cons.mp h
    unfold itemsBelow
    split
    · rename_i hx
      rw [ih hr.2]
      simp [hx]
    · rename_i hx
      have h1 : r.filter (fun i => i.elem < hi) = [] := by
        rw [List.filter_eq_nil_iff]
        intro a ha
        have := hr.1 a ha
        simp only [decide_eq_true_eq]; omega
      have h2 : r.filter (fun i => !decide (i.elem < hi)) = r := by
        rw [List.filter_eq_self]
        intro a ha
        have := hr.1 a ha
        simp only [Bool.not_eq_true', decide_eq_false_iff_not]; omega
      simp [hx, h1, h2]

/-- The lanes that the items of row `r` write. -/
def rowLanes (k : Csrs) (items : List Item) : List LaneWrite :=
  items.map (fun i => (k.fold * (i.elem % k.rlen), i.bits, i.poison))

theorem rowLanes_separated (k : Csrs) (items : List Item) (r : Nat) (hs : items.Pairwise (fun a b => a.elem < b.elem))
    (hin : ∀ i ∈ items, r * k.rlen ≤ i.elem ∧ i.elem < (r + 1) * k.rlen) : Separated k.fold (rowLanes k items) := by
  unfold Separated rowLanes
  rw [List.pairwise_map]
  refine hs.imp_of_mem (fun {a b} ha hb hab => ?_)
  have h1 := hin a ha
  have h2 := hin b hb
  have e : ∀ x : Nat, r * k.rlen ≤ x → x < (r + 1) * k.rlen → x % k.rlen = x - r * k.rlen := by
    intro x hx1 hx2
    rw [Nat.add_mul, Nat.one_mul] at hx2
    obtain ⟨y, rfl⟩ := Nat.exists_eq_add_of_le hx1
    rw [Nat.mul_comm r, Nat.mul_add_mod, Nat.mod_eq_of_lt (by rw [Nat.mul_comm] at hx2; omega)]
    omega
  simp only
  rw [e _ h1.1 h1.2, e _ h2.1 h2.2, ← Nat.mul_succ]
  exact Nat.mul_le_mul_left _ (by omega)

/-- The lane of an element meets exactly the item of that element. -/
theorem laneHit_rowLanes (k : Csrs) (items : List Item) (r e b : Nat)
    (hin : ∀ i ∈ items, r * k.rlen ≤ i.elem ∧ i.elem < (r + 1) * k.rlen) (he : r * k.rlen ≤ e ∧ e < (r + 1) * k.rlen)
    (hb : b < k.fold) :
    laneHit k.fold (rowLanes k items) (k.fold * (e % k.rlen) + b) =
      (items.find? (fun i => decide (i.elem = e))).map (fun i => (k.fold * (i.elem % k.rlen), i.bits, i.poison)) := by
  unfold laneHit rowLanes
  rw [List.find?_map]
  congr 1
  refine List.find?_congr (fun x hx => ?_)
  have h1 := hin x hx
  have hrow : ∀ y : Nat, r * k.rlen ≤ y ∧ y < (r + 1) * k.rlen → y / k.rlen = r := fun y hy =>
    Nat.div_eq_of_lt_le hy.1 hy.2
  have hx1 := Nat.div_add_mod x.elem k.rlen
  have he1 := Nat.div_add_mod e k.rlen
  rw [hrow _ h1] at hx1
  rw [hrow _ he] at he1
  simp only [Function.comp]
  rw [Bool.eq_iff_iff, Bool.and_eq_true, decide_eq_true_eq, decide_eq_true_eq, decide_eq_true_eq]
  constructor
  · rintro ⟨a1, a2⟩
    have : x.elem % k.rlen = e % k.rlen := by
      rcases Nat.lt_trichotomy (x.elem % k.rlen) (e % k.rlen) with c | c | c
      · have := Nat.mul_le_mul_left k.fold (show x.elem % k.rlen + 1 ≤ e % k.rlen from c)
        rw [Nat.mul_succ] at this; omega
      · exact c
      · have := Nat.mul_le_mul_left k.fold (show e % k.rlen + 1 ≤ x.elem % k.rlen from c)
        rw [Nat.mul_succ] at this; omega
    omega
  · intro h
    rw [h]; omega

/-- The physical place of row `r` of the grant. -/
def rowPlace (s : State) (r : Nat) : Nat × Nat :=
  (s.h.core + r / s.h.csr.rows, physRow s (s.h.core + r / s.h.csr.rows) (r % s.h.csr.rows))

theorem row_tile {s : State} {r : Nat} (hr : r < s.h.csr.rows * s.h.csr.tiles) : r / s.h.csr.rows < s.h.csr.tiles :=
  Nat.div_lt_of_lt_mul hr

theorem rowPlace_inj {s : State} (h : RowsDistinct s) (h0 : 0 < s.h.csr.rows) {r r' : Nat} (hr : r < s.h.csr.rows * s.h.csr.tiles)
    (e : rowPlace s r = rowPlace s r') : r = r' := by
  unfold rowPlace at e
  obtain ⟨e1, e2⟩ := Prod.mk.inj e
  have e1' : r / s.h.csr.rows = r' / s.h.csr.rows := by omega
  rw [e1'] at e2
  have := (h _ (e1' ▸ row_tile hr) _ (Nat.mod_lt r h0)).2 _ (Nat.mod_lt r' h0) e2
  rw [← Nat.div_add_mod r s.h.csr.rows, ← Nat.div_add_mod r' s.h.csr.rows, e1', this]

/-- A write of rows leaves every plane of every other row, and every other plane. -/
theorem writeRows_miss (s : State) (p d : Nat) (rs : List Nat) (items : List Item) (hp : p + d ≤ 256) (hr : RowsDistinct s)
    (h0 : 0 < s.h.csr.rows) (hin : ∀ r ∈ rs, r < s.h.csr.rows * s.h.csr.tiles) (core' row' pl : Nat) (hr' : row' < 256)
    (hpl : pl < 256) (hn : (pl < p ∨ p + d ≤ pl) ∨ ∀ r ∈ rs, rowPlace s r ≠ (core', row')) :
    planeAt (writeRows s p d rs items) core' row' pl = planeAt s core' row' pl := by
  induction rs generalizing s items with
  | nil => rfl
  | cons r rest ih =>
    unfold writeRows
    simp only
    set s1 := writeRow s (s.h.core + r / s.h.csr.rows) (physRow s (s.h.core + r / s.h.csr.rows) (r % s.h.csr.rows)) p d _ with hs1
    have o : OnlyPlanes s s1 := writeRow_onlyPlanes _ _ _ _ _ _
    have hph : ∀ c i, physRow s1 c i = physRow s c i := physRow_congr o.fenced
    rw [ih s1 _ (hr.congr o.h o.fenced) (by rw [o.h]; exact h0)
      (fun x hx => by rw [o.h]; exact hin x (List.mem_cons_of_mem _ hx)) ?_]
    · unfold planeAt
      rw [hs1, writeRow_planes]
      split
      · rfl
      · rw [sget_rowWritten, if_neg]
        intro hk
        have hrow := (hr _ (row_tile (hin r List.mem_cons_self)) _ (Nat.mod_lt r h0)).1
        have hplane : p ≤ pl ∧ pl < p + d ∧ (s.h.core + r / s.h.csr.rows) = core' ∧
            physRow s (s.h.core + r / s.h.csr.rows) (r % s.h.csr.rows) = row' := by
          unfold planeKey at hk; omega
        rcases hn with hn | hn
        · omega
        · exact hn r List.mem_cons_self (by unfold rowPlace; rw [hplane.2.2.1] at *; rw [hplane.2.2.2])
    · rcases hn with hn | hn
      · exact .inl hn
      · refine .inr (fun r' hr' => ?_)
        have := hn r' (List.mem_cons_of_mem _ hr')
        unfold rowPlace at this ⊢
        rw [o.h, hph]; exact this

theorem spotOf_eq (s : State) (e : Nat) :
    spotOf s e = ⟨(rowPlace s (e / s.h.csr.rlen)).1, (rowPlace s (e / s.h.csr.rlen)).2, s.h.csr.fold * (e % s.h.csr.rlen)⟩ := by
  unfold spotOf rowPlace
  simp only [Nat.div_div_eq_div_mul, Nat.mod_mul_right_div_self]

/-- A bit of an element's lanes after a write of items: the item's bit, or the old one. -/
theorem writeRows_bit (s : State) (p d r0 n : Nat) (items : List Item) (hp : p + d ≤ 256) (hg : GrantSound s)
    (hs : items.Pairwise (fun a b => a.elem < b.elem))
    (hin : ∀ i ∈ items, r0 * s.h.csr.rlen ≤ i.elem ∧ i.elem < (r0 + n) * s.h.csr.rlen)
    (hrn : r0 + n ≤ s.h.csr.rows * s.h.csr.tiles)
    (e b pl : Nat) (he : r0 * s.h.csr.rlen ≤ e ∧ e < (r0 + n) * s.h.csr.rlen) (hb : b < s.h.csr.fold)
    (hpl : p ≤ pl ∧ pl < p + d) :
    (planeAt (writeRows s p d (List.range' r0 n) items) (spotOf s e).core (spotOf s e).row pl).getLsbD ((spotOf s e).lane + b) =
      match items.find? (fun i => decide (i.elem = e)) with
      | some i => i.bits.testBit ((pl - p) * s.h.csr.fold + b)
      | none => (planeAt s (spotOf s e).core (spotOf s e).row pl).getLsbD ((spotOf s e).lane + b) := by
  obtain ⟨hf, hl, hfl, h0, hr⟩ := hg
  induction n generalizing s r0 items with
  | zero => rw [Nat.add_zero] at he; omega
  | succ n ih =>
    rw [spotOf_eq s e]
    have hlane : s.h.csr.fold * (e % s.h.csr.rlen) + b < 1024 := by
      have h1 := Nat.mul_le_mul_left s.h.csr.fold (show e % s.h.csr.rlen + 1 ≤ s.h.csr.rlen from Nat.mod_lt e hl)
      rw [Nat.mul_succ] at h1; omega
    rw [List.range'_succ]
    unfold writeRows
    simp only
    rw [itemsBelow_eq _ _ hs]
    simp only
    set now := items.filter (fun i => i.elem < (r0 + 1) * s.h.csr.rlen) with hnow
    set later := items.filter (fun i => !decide (i.elem < (r0 + 1) * s.h.csr.rlen)) with hlater
    have hinNow : ∀ i ∈ now, r0 * s.h.csr.rlen ≤ i.elem ∧ i.elem < (r0 + 1) * s.h.csr.rlen := by
      intro i hi
      have := List.mem_filter.mp hi
      exact ⟨(hin i this.1).1, by simpa using this.2⟩
    have hsep : Separated (foldOf s) (rowLanes s.h.csr now) := rowLanes_separated _ _ r0 (hs.filter _) hinNow
    set s1 := writeRow s (s.h.core + r0 / s.h.csr.rows) (physRow s (s.h.core + r0 / s.h.csr.rows) (r0 % s.h.csr.rows)) p d
      (now.map (fun i => (s.h.csr.fold * (i.elem % s.h.csr.rlen), i.bits, i.poison))) with hs1
    have o : OnlyPlanes s s1 := writeRow_onlyPlanes _ _ _ _ _ _
    have hph : ∀ c i, physRow s1 c i = physRow s c i := physRow_congr o.fenced
    have hr1 : RowsDistinct s1 := hr.congr o.h o.fenced
    have hplace : ∀ r, rowPlace s1 r = rowPlace s r := fun r => by unfold rowPlace; rw [o.h, hph]
    have hrow := fun r (h : r < s.h.csr.rows * s.h.csr.tiles) => (hr _ (row_tile h) _ (Nat.mod_lt r h0)).1
    have he2 : e / s.h.csr.rlen < s.h.csr.rows * s.h.csr.tiles :=
      lt_of_lt_of_le ((Nat.div_lt_iff_lt_mul hl).mpr he.2) hrn
    have hr0 : r0 < s.h.csr.rows * s.h.csr.tiles := by omega
    have hbit := writeRow_bit s (s.h.core + r0 / s.h.csr.rows) (physRow s (s.h.core + r0 / s.h.csr.rows) (r0 % s.h.csr.rows)) p d
      (rowLanes s.h.csr now) hsep (hrow r0 hr0) hp (rowPlace s (e / s.h.csr.rlen)).1 (rowPlace s (e / s.h.csr.rlen)).2 pl
      (s.h.csr.fold * (e % s.h.csr.rlen) + b) (hrow _ he2) (by omega) hlane
    by_cases hrow0 : e < (r0 + 1) * s.h.csr.rlen
    · -- the row of `e` is written now, and never again
      have hediv : e / s.h.csr.rlen = r0 := Nat.div_eq_of_lt_le he.1 hrow0
      rw [hediv] at hbit ⊢
      rw [writeRows_miss s1 p d _ later hp hr1 (by rw [o.h]; exact h0)
        (fun x hx => by rw [o.h]; have := List.mem_range'.mp hx; omega) (rowPlace s r0).1 (rowPlace s r0).2 pl (hrow r0 hr0)
        (by omega) (.inr ?_)]
      · rw [if_pos ⟨rfl, rfl, hpl.1, hpl.2⟩] at hbit
        have hit := laneHit_rowLanes s.h.csr now r0 e b hinNow ⟨he.1, hrow0⟩ hb
        have hfind : items.find? (fun i => decide (i.elem = e)) = now.find? (fun i => decide (i.elem = e)) := by
          rw [hnow, List.find?_filter]
          refine List.find?_congr (fun x _ => ?_)
          by_cases hx : x.elem = e
          · simp [hx, hrow0]
          · simp [hx]
        refine Eq.trans hbit ?_
        rw [hfind]
        show (match laneHit s.h.csr.fold _ _ with | some l => _ | none => _) = _
        rw [hit]
        cases hc : now.find? (fun i => decide (i.elem = e)) with
        | none => rfl
        | some i =>
          have hie : i.elem = e := by simpa using List.find?_some hc
          simp only [Option.map_some, hie, Nat.add_sub_cancel_left]
          rfl
      · intro r hr2 heq
        have hmem := List.mem_range'.mp hr2
        rw [hplace] at heq
        have := rowPlace_inj hr h0 (by omega) heq
        omega
    · -- a later row
      have hdiv : r0 + 1 ≤ e / s.h.csr.rlen := (Nat.le_div_iff_mul_le hl).mpr (by omega)
      have hold : (planeAt s1 (rowPlace s (e / s.h.csr.rlen)).1 (rowPlace s (e / s.h.csr.rlen)).2 pl).getLsbD
          (s.h.csr.fold * (e % s.h.csr.rlen) + b) =
          (planeAt s (rowPlace s (e / s.h.csr.rlen)).1 (rowPlace s (e / s.h.csr.rlen)).2 pl).getLsbD
          (s.h.csr.fold * (e % s.h.csr.rlen) + b) := by
        refine Eq.trans hbit (if_neg ?_)
        rintro ⟨h1, h2, _⟩
        have : rowPlace s (e / s.h.csr.rlen) = rowPlace s r0 := Prod.ext h1 h2
        have := rowPlace_inj hr h0 he2 this
        omega
      have key := ih s1 (r0 + 1) later (hs.filter _) (by
          intro i hi
          have := List.mem_filter.mp hi
          rw [o.h]
          refine ⟨by simpa using this.2, ?_⟩
          have := (hin i this.1).2
          rw [show r0 + 1 + n = r0 + (n + 1) by omega]; exact this)
        (by rw [o.h]; omega) (by rw [o.h]; exact ⟨by omega, by rw [show r0 + 1 + n = r0 + (n + 1) by omega]; exact he.2⟩) (by rw [o.h]; exact hb)
        (by rw [o.h]; exact hf) (by rw [o.h]; exact hl) (by rw [o.h]; exact hfl) (by rw [o.h]; exact h0) hr1
      rw [spotOf_eq s1 e] at key
      simp only [hplace, o.h] at key
      rw [key]
      have hfind : items.find? (fun i => decide (i.elem = e)) = later.find? (fun i => decide (i.elem = e)) := by
        rw [hlater, List.find?_filter]
        refine List.find?_congr (fun x _ => ?_)
        by_cases hx : x.elem = e
        · simp [hx, hrow0]
        · simp [hx]
      rw [hfind]
      cases later.find? (fun i => decide (i.elem = e)) with
      | none => exact hold
      | some i => rfl

/-! Elements as patterns. -/

theorem bitSum_testBit (g : Nat → Bool) (w b : Nat) :
    ((List.range w).foldr (fun b acc => acc + (if g b then 2 ^ b else 0)) 0).testBit b = (decide (b < w) && g b) := by
  have gen : ∀ w m, (∀ i, i < w → m.testBit i = false) →
      ((List.range w).foldr (fun b acc => acc + (if g b then 2 ^ b else 0)) m).testBit b =
        if b < w then g b else m.testBit b := by
    intro w
    induction w with
    | zero => intro m _; simp
    | succ w ih =>
      intro m hm
      have hd : 2 ^ (w + 1) ∣ m := by
        refine Nat.dvd_of_mod_eq_zero (Nat.eq_of_testBit_eq (fun i => ?_))
        rw [Nat.testBit_mod_two_pow, Nat.zero_testBit]
        by_cases h : i < w + 1
        · simp [hm i h]
        · simp [h]
      have key : ∀ i, (m + (if g w then 2 ^ w else 0)).testBit i = if i = w then g w else m.testBit i := by
        intro i
        obtain ⟨k, rfl⟩ := hd
        cases hg : g w with
        | false =>
          simp only [Bool.false_eq_true, if_false, Nat.add_zero]
          split
          · rename_i h; subst h; exact hm i (by omega)
          · rfl
        | true =>
          simp only [if_true]
          rw [Nat.testBit_two_pow_mul_add _ (Nat.pow_lt_pow_right (by omega) (by omega)), Nat.testBit_two_pow_mul, Nat.testBit_two_pow]
          by_cases h : i = w
          · subst h; simp
          · by_cases h2 : i < w + 1
            · simp [h2, h, show ¬w = i by omega, show ¬w < i by omega]
            · simp [h2, h, show w + 1 ≤ i by omega]
      rw [List.range_succ, List.foldr_append, List.foldr_cons, List.foldr_nil, ih _ (fun i hi => by
        rw [key, if_neg (by omega)]; exact hm i (by omega)), key]
      by_cases h : b < w
      · simp [h, show b < w + 1 by omega]
      · by_cases h2 : b = w
        · subst h2; simp
        · simp [h, h2, show ¬b < w + 1 by omega]
  rw [gen w 0 (fun i _ => Nat.zero_testBit i)]
  by_cases h : b < w <;> simp [h]

/-- A bit of a pattern in the planes. -/
theorem bitsAt_testBit (s : State) (q : Spot) (p w b : Nat) :
    (bitsAt s q p w).testBit b =
      (decide (b < w) && (planeAt s q.core q.row (p + b / foldOf s)).getLsbD (q.lane + b % foldOf s)) := by
  unfold bitsAt
  exact bitSum_testBit _ w b

theorem bitsAt_lt (s : State) (q : Spot) (p w : Nat) : bitsAt s q p w < 2 ^ w := by
  refine Nat.lt_pow_two_of_testBit _ (fun i hi => ?_)
  rw [bitsAt_testBit]
  simp [Nat.not_lt.mpr hi]

/-- The low bits of a fill are the result's. -/
theorem fillBits_mod (s : State) (w : Nat) (sgn : Bool) (v : Nat) (h : 0 < foldOf s) : fillBits s w sgn v % 2 ^ w = v % 2 ^ w := by
  unfold fillBits
  simp only
  split
  · have hw : w ≤ dOf s w * foldOf s := by
      unfold dOf ceilDiv
      have := Nat.div_add_mod (w + foldOf s - 1) (foldOf s)
      have h2 := Nat.mod_lt (w + foldOf s - 1) h
      rw [Nat.mul_comm] at this
      omega
    obtain ⟨k, hk⟩ := Nat.exists_eq_add_of_le hw
    rw [hk, Nat.pow_add, show 2 ^ w * 2 ^ k - 2 ^ w = 2 ^ w * (2 ^ k - 1) by rw [Nat.mul_sub]; simp, Nat.add_mul_mod_self_left]
  · rfl

theorem width_le_planes (s : State) (w : Nat) (h : 0 < foldOf s) : w ≤ dOf s w * foldOf s := by
  unfold dOf ceilDiv
  have := Nat.div_add_mod (w + foldOf s - 1) (foldOf s)
  have h2 := Nat.mod_lt (w + foldOf s - 1) h
  rw [Nat.mul_comm] at this
  omega

/-- Every element of a register after results were written: the result's pattern, or the old one. -/
theorem writeElems_bitsAt (s : State) (n w : Nat) (sgn : Bool) (items : List Item) (p : Nat) (hfirst : (vreg s n).first = some p)
    (hp : p + dOf s w ≤ 256) (hg : GrantSound s) (hs : items.Pairwise (fun a b => a.elem < b.elem))
    (hin : ∀ i ∈ items, i.elem < s.h.csr.rows * s.h.csr.tiles * s.h.csr.rlen)
    (e : Nat) (he : e < s.h.csr.rows * s.h.csr.tiles * s.h.csr.rlen) :
    bitsAt (writeElems s n w sgn items) (spotOf s e) p w =
      match items.find? (fun i => decide (i.elem = e)) with
      | some i => i.bits % 2 ^ w
      | none => bitsAt s (spotOf s e) p w := by
  have hf : 0 < foldOf s := hg.1
  have ow := writeElems_onlyPlanes s n w sgn items
  have hfold : foldOf (writeElems s n w sgn items) = foldOf s := by unfold foldOf; rw [ow.h]
  have bit : ∀ b, b < w →
      (planeAt (writeElems s n w sgn items) (spotOf s e).core (spotOf s e).row (p + b / foldOf s)).getLsbD
        ((spotOf s e).lane + b % foldOf s) =
      match items.find? (fun i => decide (i.elem = e)) with
      | some i => (fillBits s w sgn i.bits).testBit b
      | none => (planeAt s (spotOf s e).core (spotOf s e).row (p + b / foldOf s)).getLsbD ((spotOf s e).lane + b % foldOf s) := by
    intro b hb
    have hbd : b / foldOf s < dOf s w := Nat.div_lt_of_lt_mul (lt_of_lt_of_le hb (by rw [Nat.mul_comm]; exact width_le_planes s w hf))
    have key := writeRows_bit s p (dOf s w) 0 (s.h.csr.rows * s.h.csr.tiles)
      (items.map (fun i => { i with bits := fillBits s w sgn i.bits })) hp hg (by rw [List.pairwise_map]; exact hs)
      (by
        intro i hi
        obtain ⟨x, hx, rfl⟩ := List.mem_map.mp hi
        exact ⟨by omega, by rw [Nat.zero_add]; exact hin x hx⟩)
      (by omega) e (b % foldOf s) (p + b / foldOf s) ⟨by omega, by rw [Nat.zero_add]; exact he⟩ (Nat.mod_lt _ hf) ⟨Nat.le_add_right _ _, Nat.add_lt_add_left hbd _⟩
    unfold writeElems
    rw [hfirst]
    simp only
    unfold allRows
    rw [List.range_eq_range', key, List.find?_map]
    have : (p + b / foldOf s - p) * s.h.csr.fold + b % foldOf s = b := by
      rw [Nat.add_sub_cancel_left, Nat.mul_comm]; exact Nat.div_add_mod b (foldOf s)
    rw [this]
    simp only [Function.comp_def]
    cases items.find? (fun i => decide (i.elem = e)) <;> rfl
  refine Nat.eq_of_testBit_eq (fun b => ?_)
  rw [bitsAt_testBit, hfold]
  by_cases hb : b < w
  · rw [bit b hb]
    cases hc : items.find? (fun i => decide (i.elem = e)) with
    | none => simp [bitsAt_testBit]
    | some i =>
      simp only [hb, decide_true, Bool.true_and]
      have h1 : (fillBits s w sgn i.bits % 2 ^ w).testBit b = (i.bits % 2 ^ w).testBit b := by rw [fillBits_mod s w sgn _ hf]
      simpa [Nat.testBit_mod_two_pow, hb] using h1
  · cases items.find? (fun i => decide (i.elem = e)) with
    | none => simp [bitsAt_testBit, hb]
    | some i => simp [hb, Nat.testBit_mod_two_pow]

/-- A write of results leaves every plane outside the destination's, in every row. -/
theorem writeElems_other (s : State) (n w : Nat) (sgn : Bool) (items : List Item) (p : Nat) (hfirst : (vreg s n).first = some p)
    (hp : p + dOf s w ≤ 256) (hg : GrantSound s) (core row pl : Nat) (hrow : row < 256) (hpl : pl < 256)
    (hn : pl < p ∨ p + dOf s w ≤ pl) : planeAt (writeElems s n w sgn items) core row pl = planeAt s core row pl := by
  unfold writeElems
  rw [hfirst]
  exact writeRows_miss s p _ _ _ hp hg.2.2.2.2 hg.2.2.2.1 (fun r hr => List.mem_range.mp hr) core row pl hrow hpl (.inl hn)

/-! The items of an element-wise instruction. -/

theorem find_filterMap_range (g : Nat → Option Item) (hg : ∀ e i, g e = some i → i.elem = e) (n e : Nat) :
    ((List.range n).filterMap g).find? (fun i => decide (i.elem = e)) = if e < n then g e else none := by
  induction n with
  | zero => simp
  | succ n ih =>
    rw [List.range_succ, List.filterMap_append, List.find?_append, ih]
    by_cases h : e < n
    · simp only [h, if_true, show e < n + 1 by omega]
      cases hge : g e with
      | some i => rfl
      | none =>
        simp only [Option.none_or]
        cases hgn : g n with
        | none => simp [hgn]
        | some i =>
          have := hg n i hgn
          simp [hgn, show ¬i.elem = e by omega]
    · simp only [h, if_false, Option.none_or]
      by_cases h2 : e = n
      · subst h2
        cases hge : g e with
        | none => simp [hge]
        | some i => simp [hge, hg e i hge]
      · rw [if_neg (by omega)]
        cases hgn : g n with
        | none => simp [hgn]
        | some i =>
          have := hg n i hgn
          simp [hgn, show ¬i.elem = e by omega]

theorem pairwise_filterMap_range (g : Nat → Option Item) (hg : ∀ e i, g e = some i → i.elem = e) (n : Nat) :
    ((List.range n).filterMap g).Pairwise (fun a b => a.elem < b.elem) := by
  rw [List.pairwise_filterMap]
  refine List.pairwise_lt_range.imp (fun {a b} hab x hx y hy => ?_)
  rw [hg a x hx, hg b y hy]; exact hab

/-- The item of element `e` among the results. -/
def resultItem (c : Ctl) (s : State) (f : Nat → Nat) (poison : Nat → Bool) (e : Nat) : Option Item :=
  if predBit s c.pred.toNat e then some ⟨e, f e, poison e || predPoisoned s c.pred.toNat e⟩
  else if c.z then some ⟨e, 0, false⟩ else none

theorem resultItem_elem (c : Ctl) (s : State) (f : Nat → Nat) (poison : Nat → Bool) (e : Nat) (i : Item)
    (h : resultItem c s f poison e = some i) : i.elem = e := by
  unfold resultItem at h
  split at h
  · cases h; rfl
  · split at h
    · cases h; rfl
    · cases h

theorem results_find (c : Ctl) (s : State) (f : Nat → Nat) (poison : Nat → Bool) (e : Nat) :
    (results c s f poison).find? (fun i => decide (i.elem = e)) = if e < s.h.csr.vl then resultItem c s f poison e else none :=
  find_filterMap_range _ (resultItem_elem c s f poison) _ e

theorem results_pairwise (c : Ctl) (s : State) (f : Nat → Nat) (poison : Nat → Bool) :
    (results c s f poison).Pairwise (fun a b => a.elem < b.elem) :=
  pairwise_filterMap_range _ (resultItem_elem c s f poison) _

theorem results_lt (c : Ctl) (s : State) (f : Nat → Nat) (poison : Nat → Bool) (i : Item) (h : i ∈ results c s f poison) :
    i.elem < s.h.csr.vl := by
  obtain ⟨e, he, hi⟩ := List.mem_filterMap.mp h
  have hi : resultItem c s f poison e = some i := hi
  rw [resultItem_elem c s f poison e i hi]
  exact List.mem_range.mp he

end Sys2Proof.Machine
end

