-- ==== Sys2Proof/Laws/Ops.lean ====
section
/-! SUPPORT. What the shared operations do, once each: a write of X, going on, taking a trap, a change of harts, the frame of the
vector instructions. -/
namespace Sys2Proof.Machine

theorem setX_written (s : State) (r : BitVec 5) (v : Word) :
    setX s r v = { s with h := { s.h with x := (setX s r v).h.x } } ∧ XWritten r v s.h.x (setX s r v).h.x := by
  unfold setX
  split
  · rename_i h
    exact ⟨rfl, fun n hn => by rw [if_neg]; rintro ⟨rfl, h0⟩; exact h0 (by rw [h]; rfl)⟩
  · rename_i h
    refine ⟨rfl, fun n hn => ?_⟩
    have h0 : r.toNat ≠ 0 := fun e => h (BitVec.eq_of_toNat_eq e)
    simp only [modH]
    rw [Vector.getElem_set]
    by_cases e : r.toNat = n
    · rw [if_pos e, if_pos ⟨e.symm, by omega⟩]
    · rw [if_neg e, if_neg (fun x => e x.1.symm)]

theorem nextPc_eq (c : Ctl) (s : State) : nextPc c s = pcAfter c s := by
  unfold nextPc pcAfter pcPlus Ctl.bytes
  cases c.form <;> simp only [Form.words] <;> apply BitVec.eq_of_toNat_eq <;> simp <;> omega

theorem retire_goesOn (c : Ctl) (s : State) : GoesOn c s (retire c s) id := by
  simp only [GoesOn, retire, goTo, modH, nextPc_eq, id]

/-- Every scalar result goes through `alu`. -/
theorem alu_writes (c : Ctl) (xd : BitVec 5) (v : Word) (s : State) :
    ∃ t, alu c xd v s = .next t ∧ GoesOn c s t (fun h => { h with x := t.h.x }) ∧ XWritten xd v s.h.x t.h.x := by
  obtain ⟨h1, h2⟩ := setX_written s xd v
  refine ⟨_, rfl, ?_, h2⟩
  unfold GoesOn
  rw [h1]
  simp only [retire, goTo, modH, nextPc_eq]
  rfl

theorem enterHandler_enters (async : Bool) (t : Trap) (s : State) :
    EntersHandler async t.cls t.code t.eaddr t.epc s (modH s (enterHandler async t)) := by
  refine ⟨rfl, rfl, fun k hk => ?_, ?_, ?_, ?_⟩
  · show (t.epc &&& ~~~3#64).getLsbD k = _
    rw [BitVec.getLsbD_and, BitVec.getLsbD_not]
    have : (3#64).getLsbD k = decide (k < 2) := by
      rcases k with _ | _ | k
      · rfl
      · rfl
      · simp only [BitVec.getLsbD_ofNat]
        have : Nat.testBit 3 (k + 1 + 1) = false := by
          rw [Nat.testBit_eq_decide_div_mod_eq]
          have : 3 / 2 ^ (k + 1 + 1) = 0 := Nat.div_eq_of_lt (by rw [Nat.pow_succ, Nat.pow_succ]; have := Nat.one_le_two_pow (n := k); omega)
          simp [this]
        simp [this]
    rw [this]
    by_cases h : k < 2
    · simp [h, show ¬2 ≤ k by omega]
    · simp [h, hk, show 2 ≤ k by omega]
  · show (BitVec.ofBool async ++ 0#47 ++ t.cls ++ t.code : BitVec 64).toNat = _
    have h : ∀ x, 256 * x ||| t.code.toNat = 256 * x + t.code.toNat :=
      fun x => (Nat.two_pow_add_eq_or_of_lt (i := 8) t.code.isLt x).symm
    have h2 := t.cls.isLt
    cases async
    · simp only [BitVec.toNat_append, Nat.shiftLeft_eq]
      simp
      rw [Nat.mul_comm, h]
    · simp only [BitVec.toNat_append, Nat.shiftLeft_eq]
      simp
      rw [Nat.mul_comm]
      have h4 := Nat.two_pow_add_eq_or_of_lt (i := 55) (b := t.cls.toNat) (by omega) 1
      have h5 : 36028797018963968 ||| t.cls.toNat = 36028797018963968 + t.cls.toNat := by simpa using h4.symm
      rw [h5, h]
      omega
  · show (mkStatus true (statusIe s.h.csr.status) false).toNat = _
    unfold statusIe
    cases s.h.csr.status.getLsbD 0 <;> rfl
  · show s.h.lastLand + 8 ≤ max s.h.lastLand s.h.issueCy + 8
    omega

theorem takeTrap_ready {s : State} (h : HandlerReady s) (t : Trap) : takeTrap s t = modH s (enterHandler false t) := by
  unfold takeTrap statusTl
  rw [if_neg]
  rw [h.1]
  simpa using h.2

theorem takeTrap_unready {s : State} (h : ¬HandlerReady s) (t : Trap) : takeTrap s t = trapUnhandled s t := by
  unfold takeTrap statusTl
  rw [if_pos]
  by_contra n
  simp only [Bool.or_eq_true, beq_iff_eq, not_or, Bool.not_eq_true] at n
  exact h ⟨n.1, n.2⟩

theorem checked_answers (t : Option Trap) (s k : State) : ∃ u, checked t s k = .next u := ⟨_, rfl⟩

/-- A vector instruction traps, in its frame or in its swap, or runs on registers made resident. -/
theorem vecFrame_cases (c : Ctl) (s : State) (used : List Opnd) (accept : Bool) (names : List Named) (extra early : Option Trap)
    (k : State → State) :
    (∃ t u, vecFrame c s used accept names extra early k = .next (takeTrap u t)) ∨
    ∃ r, makeResident s names = .ok r ∧ vecFrame c s used accept names extra early k = .next (k (touchRegs r names)) := by
  unfold vecFrame
  dsimp only
  split
  · exact .inl ⟨_, _, rfl⟩
  · split
    · exact .inl ⟨_, _, rfl⟩
    · exact .inr ⟨_, by assumption, rfl⟩

theorem modHarts_changes (s : State) (p : Hart → Bool) (f : Hart → Hart) :
    HartsChange s (modHarts s p f) (fun h => p h = true) (fun x y => y = f x) := by
  refine ⟨rfl, by simp [modHarts], fun j a b ha hb => ?_⟩
  have key : b = if p a then f a else a := by
    cases j with
    | zero =>
      simp only [List.getElem?_cons_zero, Option.some.injEq, modHarts] at ha hb
      rw [← hb, ← ha]
    | succ j =>
      simp only [List.getElem?_cons_succ, modHarts, List.getElem?_map] at ha hb
      rw [ha] at hb
      simpa using hb.symm
  exact ⟨fun h => by rw [key, if_pos h], fun h => by rw [key, if_neg h]⟩

end Sys2Proof.Machine
end

