-- ==== Sys2Proof/Laws/PerInstr.lean ====
section
/-! SUPPORT. Per instruction: the row of the opcode map that holds it (R137, R138). -/
namespace Sys2Proof.Laws.RowOf
open Sys2Proof Sys2Proof.Machine

/-- The instruction that decoding answers for the words of `i`. -/
def decoded : Instr → Instr
  | .btx c o => .stq c o
  | j => j

/-- The row of the opcode map with the instruction's key rebuilds the instruction from its controls and its OPS; BTX rebuilds as STQ
(R255, log 12). An event has no row. -/
def Statement (i : Instr) : Prop :=
  ∀ key c ops, parts i = some (key, c, ops) → ∃ (n : Nat) (r : OpRow), opRows[n]? = some r ∧ r.key = key ∧
    r.build c ops = decoded i

theorem Statement.intro {i : Instr} {key : Key} {c : Ctl} {ops : BitVec 18} {build : Ctl → BitVec 18 → Instr} (n : Nat)
    (hp : parts i = some (key, c, ops)) (hr : opRows[n]? = some ⟨key, build⟩)
    (hb : build c ops = decoded i) : Statement i := by
  intro k c' o h
  rw [hp] at h
  cases h
  exact ⟨n, _, hr, rfl, hb⟩

/-! What a class of OPS lays out, its reader reads back (R134). -/
theorem x3OfBits_x3Bits (o : X3) : x3OfBits (x3Bits o) = o := by
  cases o; simp only [x3OfBits, x3Bits, X3.mk.injEq]; refine ⟨?_, ?_, ?_, ?_⟩ <;> (ext i hi; grind)
theorem atOfBits_atBits (o : AT) : atOfBits (atBits o) = o := by
  cases o; simp only [atOfBits, atBits, AT.mk.injEq]; refine ⟨?_, ?_, ?_, ?_, ?_⟩ <;> (ext i hi; grind)
theorem xiOfBits_xiBits (o : XI) : xiOfBits (xiBits o) = o := by
  cases o; simp only [xiOfBits, xiBits, XI.mk.injEq]; refine ⟨?_, ?_⟩ <;> (ext i hi; grind)
theorem xlOfBits_xlBits (o : XL) : xlOfBits (xlBits o) = o := by
  cases o; simp only [xlOfBits, xlBits, XL.mk.injEq]; (ext i hi; grind)
theorem brOfBits_brBits (o : BR) : brOfBits (brBits o) = o := by
  cases o; simp only [brOfBits, brBits, BR.mk.injEq]; refine ⟨?_, ?_⟩ <;> (ext i hi; grind)
theorem jOfBits_jBits (o : J) : jOfBits (jBits o) = o := by
  cases o; rfl
theorem cOfBits_cBits (o : C) : cOfBits (cBits o) = o := by
  cases o; simp only [cOfBits, cBits, C.mk.injEq]; refine ⟨?_, ?_, ?_⟩ <;> (ext i hi; grind)
theorem fOfBits_fBits (o : F) : fOfBits (fBits o) = o := by
  cases o; simp only [fOfBits, fBits, F.mk.injEq]; refine ⟨?_, ?_, ?_, ?_, ?_⟩ <;> (ext i hi; grind)
theorem v3OfBits_v3Bits (o : V3) : v3OfBits (v3Bits o) = o := by
  cases o; simp only [v3OfBits, v3Bits, V3.mk.injEq]; refine ⟨?_, ?_, ?_⟩ <;> (ext i hi; grind)
theorem vfOfBits_vfBits (o : VF) : vfOfBits (vfBits o) = o := by
  cases o; simp only [vfOfBits, vfBits, VF.mk.injEq]; refine ⟨?_, ?_, ?_⟩ <;> (ext i hi; grind)
theorem viOfBits_viBits (o : VI) : viOfBits (viBits o) = o := by
  cases o; simp only [viOfBits, viBits, VI.mk.injEq]; refine ⟨?_, ?_⟩ <;> (ext i hi; grind)
theorem vxOfBits_vxBits (o : VX) : vxOfBits (vxBits o) = o := by
  cases o; simp only [vxOfBits, vxBits, VX.mk.injEq]; refine ⟨?_, ?_, ?_, ?_⟩ <;> (ext i hi; grind)
theorem vvxOfBits_vvxBits (o : VVX) : vvxOfBits (vvxBits o) = o := by
  cases o; simp only [vvxOfBits, vvxBits, VVX.mk.injEq]; refine ⟨?_, ?_, ?_, ?_⟩ <;> (ext i hi; grind)
theorem p3OfBits_p3Bits (o : P3) : p3OfBits (p3Bits o) = o := by
  cases o; simp only [p3OfBits, p3Bits, P3.mk.injEq]; refine ⟨?_, ?_, ?_, ?_⟩ <;> (ext i hi; grind)
theorem s3OfBits_s3Bits (o : S3) : s3OfBits (s3Bits o) = o := by
  cases o; simp only [s3OfBits, s3Bits, S3.mk.injEq]; refine ⟨?_, ?_, ?_, ?_⟩ <;> (ext i hi; grind)
theorem sxOfBits_sxBits (o : SX) : sxOfBits (sxBits o) = o := by
  cases o; simp only [sxOfBits, sxBits, SX.mk.injEq]; refine ⟨?_, ?_, ?_, ?_⟩ <;> (ext i hi; grind)
theorem svOfBits_svBits (o : SV) : svOfBits (svBits o) = o := by
  cases o; simp only [svOfBits, svBits, SV.mk.injEq]; refine ⟨?_, ?_, ?_⟩ <;> (ext i hi; grind)
theorem plOfBits_plBits (o : PL) : plOfBits (plBits o) = o := by
  cases o; simp only [plOfBits, plBits, PL.mk.injEq]; (ext i hi; grind)

/-! One lemma per constructor. -/
theorem add (c : Ctl) (o : X3) : Statement (.add c o) :=
  .intro 0 rfl rfl (congrArg (Instr.add c) (x3OfBits_x3Bits o))
theorem sub (c : Ctl) (o : X3) : Statement (.sub c o) :=
  .intro 1 rfl rfl (congrArg (Instr.sub c) (x3OfBits_x3Bits o))
theorem and (c : Ctl) (o : X3) : Statement (.and c o) :=
  .intro 2 rfl rfl (congrArg (Instr.and c) (x3OfBits_x3Bits o))
theorem or (c : Ctl) (o : X3) : Statement (.or c o) :=
  .intro 3 rfl rfl (congrArg (Instr.or c) (x3OfBits_x3Bits o))
theorem xor (c : Ctl) (o : X3) : Statement (.xor c o) :=
  .intro 4 rfl rfl (congrArg (Instr.xor c) (x3OfBits_x3Bits o))
theorem andn (c : Ctl) (o : X3) : Statement (.andn c o) :=
  .intro 5 rfl rfl (congrArg (Instr.andn c) (x3OfBits_x3Bits o))
theorem min (c : Ctl) (o : X3) : Statement (.min c o) :=
  .intro 6 rfl rfl (congrArg (Instr.min c) (x3OfBits_x3Bits o))
theorem max (c : Ctl) (o : X3) : Statement (.max c o) :=
  .intro 7 rfl rfl (congrArg (Instr.max c) (x3OfBits_x3Bits o))
theorem minu (c : Ctl) (o : X3) : Statement (.minu c o) :=
  .intro 8 rfl rfl (congrArg (Instr.minu c) (x3OfBits_x3Bits o))
theorem maxu (c : Ctl) (o : X3) : Statement (.maxu c o) :=
  .intro 9 rfl rfl (congrArg (Instr.maxu c) (x3OfBits_x3Bits o))
theorem slt (c : Ctl) (o : X3) : Statement (.slt c o) :=
  .intro 10 rfl rfl (congrArg (Instr.slt c) (x3OfBits_x3Bits o))
theorem sltu (c : Ctl) (o : X3) : Statement (.sltu c o) :=
  .intro 11 rfl rfl (congrArg (Instr.sltu c) (x3OfBits_x3Bits o))
theorem sll (c : Ctl) (o : X3) : Statement (.sll c o) :=
  .intro 12 rfl rfl (congrArg (Instr.sll c) (x3OfBits_x3Bits o))
theorem srl (c : Ctl) (o : X3) : Statement (.srl c o) :=
  .intro 13 rfl rfl (congrArg (Instr.srl c) (x3OfBits_x3Bits o))
theorem sra (c : Ctl) (o : X3) : Statement (.sra c o) :=
  .intro 14 rfl rfl (congrArg (Instr.sra c) (x3OfBits_x3Bits o))
theorem sel (c : Ctl) (o : X3) : Statement (.sel c o) :=
  .intro 15 rfl rfl (congrArg (Instr.sel c) (x3OfBits_x3Bits o))
theorem mul (c : Ctl) (o : X3) : Statement (.mul c o) :=
  .intro 16 rfl rfl (congrArg (Instr.mul c) (x3OfBits_x3Bits o))
theorem mulh (c : Ctl) (o : X3) : Statement (.mulh c o) :=
  .intro 17 rfl rfl (congrArg (Instr.mulh c) (x3OfBits_x3Bits o))
theorem mulhu (c : Ctl) (o : X3) : Statement (.mulhu c o) :=
  .intro 18 rfl rfl (congrArg (Instr.mulhu c) (x3OfBits_x3Bits o))
theorem div (c : Ctl) (o : X3) : Statement (.div c o) :=
  .intro 19 rfl rfl (congrArg (Instr.div c) (x3OfBits_x3Bits o))
theorem divu (c : Ctl) (o : X3) : Statement (.divu c o) :=
  .intro 20 rfl rfl (congrArg (Instr.divu c) (x3OfBits_x3Bits o))
theorem rem (c : Ctl) (o : X3) : Statement (.rem c o) :=
  .intro 21 rfl rfl (congrArg (Instr.rem c) (x3OfBits_x3Bits o))
theorem remu (c : Ctl) (o : X3) : Statement (.remu c o) :=
  .intro 22 rfl rfl (congrArg (Instr.remu c) (x3OfBits_x3Bits o))
theorem clz (c : Ctl) (o : X3) : Statement (.clz c o) :=
  .intro 23 rfl rfl (congrArg (Instr.clz c) (x3OfBits_x3Bits o))
theorem ctz (c : Ctl) (o : X3) : Statement (.ctz c o) :=
  .intro 24 rfl rfl (congrArg (Instr.ctz c) (x3OfBits_x3Bits o))
theorem popc (c : Ctl) (o : X3) : Statement (.popc c o) :=
  .intro 25 rfl rfl (congrArg (Instr.popc c) (x3OfBits_x3Bits o))
theorem ext (c : Ctl) (o : X3) : Statement (.ext c o) :=
  .intro 26 rfl rfl (congrArg (Instr.ext c) (x3OfBits_x3Bits o))
theorem ins (c : Ctl) (o : X3) : Statement (.ins c o) :=
  .intro 27 rfl rfl (congrArg (Instr.ins c) (x3OfBits_x3Bits o))
theorem addi (c : Ctl) (o : XI) : Statement (.addi c o) :=
  .intro 28 rfl rfl (congrArg (Instr.addi c) (xiOfBits_xiBits o))
theorem andi (c : Ctl) (o : XI) : Statement (.andi c o) :=
  .intro 29 rfl rfl (congrArg (Instr.andi c) (xiOfBits_xiBits o))
theorem ori (c : Ctl) (o : XI) : Statement (.ori c o) :=
  .intro 30 rfl rfl (congrArg (Instr.ori c) (xiOfBits_xiBits o))
theorem xori (c : Ctl) (o : XI) : Statement (.xori c o) :=
  .intro 31 rfl rfl (congrArg (Instr.xori c) (xiOfBits_xiBits o))
theorem slli (c : Ctl) (o : XI) : Statement (.slli c o) :=
  .intro 32 rfl rfl (congrArg (Instr.slli c) (xiOfBits_xiBits o))
theorem srli (c : Ctl) (o : XI) : Statement (.srli c o) :=
  .intro 33 rfl rfl (congrArg (Instr.srli c) (xiOfBits_xiBits o))
theorem srai (c : Ctl) (o : XI) : Statement (.srai c o) :=
  .intro 34 rfl rfl (congrArg (Instr.srai c) (xiOfBits_xiBits o))
theorem slti (c : Ctl) (o : XI) : Statement (.slti c o) :=
  .intro 35 rfl rfl (congrArg (Instr.slti c) (xiOfBits_xiBits o))
theorem li (c : Ctl) (o : XL) : Statement (.li c o) :=
  .intro 36 rfl rfl (congrArg (Instr.li c) (xlOfBits_xlBits o))
theorem la (c : Ctl) (o : XL) : Statement (.la c o) :=
  .intro 37 rfl rfl (congrArg (Instr.la c) (xlOfBits_xlBits o))
theorem ld (c : Ctl) (o : XI) : Statement (.ld c o) :=
  .intro 38 rfl rfl (congrArg (Instr.ld c) (xiOfBits_xiBits o))
theorem ldu (c : Ctl) (o : XI) : Statement (.ldu c o) :=
  .intro 39 rfl rfl (congrArg (Instr.ldu c) (xiOfBits_xiBits o))
theorem st (c : Ctl) (o : XI) : Statement (.st c o) :=
  .intro 40 rfl rfl (congrArg (Instr.st c) (xiOfBits_xiBits o))
theorem ldq (c : Ctl) (o : XI) : Statement (.ldq c o) :=
  .intro 41 rfl rfl (congrArg (Instr.ldq c) (xiOfBits_xiBits o))
theorem stq (c : Ctl) (o : XI) : Statement (.stq c o) :=
  .intro 42 rfl rfl (congrArg (Instr.stq c) (xiOfBits_xiBits o))
theorem btx (c : Ctl) (o : XI) : Statement (.btx c o) :=
  .intro 42 rfl rfl (congrArg (Instr.stq c) (xiOfBits_xiBits o))
theorem beq (c : Ctl) (o : BR) : Statement (.beq c o) :=
  .intro 43 rfl rfl (congrArg (Instr.beq c) (brOfBits_brBits o))
theorem bne (c : Ctl) (o : BR) : Statement (.bne c o) :=
  .intro 44 rfl rfl (congrArg (Instr.bne c) (brOfBits_brBits o))
theorem blt (c : Ctl) (o : BR) : Statement (.blt c o) :=
  .intro 45 rfl rfl (congrArg (Instr.blt c) (brOfBits_brBits o))
theorem bge (c : Ctl) (o : BR) : Statement (.bge c o) :=
  .intro 46 rfl rfl (congrArg (Instr.bge c) (brOfBits_brBits o))
theorem bltu (c : Ctl) (o : BR) : Statement (.bltu c o) :=
  .intro 47 rfl rfl (congrArg (Instr.bltu c) (brOfBits_brBits o))
theorem bgeu (c : Ctl) (o : BR) : Statement (.bgeu c o) :=
  .intro 48 rfl rfl (congrArg (Instr.bgeu c) (brOfBits_brBits o))
theorem jmp (c : Ctl) (o : J) : Statement (.jmp c o) :=
  .intro 49 rfl rfl (congrArg (Instr.jmp c) (jOfBits_jBits o))
theorem jal (c : Ctl) (o : XL) : Statement (.jal c o) :=
  .intro 50 rfl rfl (congrArg (Instr.jal c) (xlOfBits_xlBits o))
theorem jalr (c : Ctl) (o : XI) : Statement (.jalr c o) :=
  .intro 51 rfl rfl (congrArg (Instr.jalr c) (xiOfBits_xiBits o))
theorem loop (c : Ctl) (o : XL) : Statement (.loop c o) :=
  .intro 52 rfl rfl (congrArg (Instr.loop c) (xlOfBits_xlBits o))
theorem waitc (c : Ctl) (o : XL) : Statement (.waitc c o) :=
  .intro 53 rfl rfl (congrArg (Instr.waitc c) (xlOfBits_xlBits o))
theorem nop (c : Ctl) (o : X3) : Statement (.nop c o) :=
  .intro 54 rfl rfl (congrArg (Instr.nop c) (x3OfBits_x3Bits o))
theorem exit (c : Ctl) (o : X3) : Statement (.exit c o) :=
  .intro 55 rfl rfl (congrArg (Instr.exit c) (x3OfBits_x3Bits o))
theorem yield (c : Ctl) (o : X3) : Statement (.yield c o) :=
  .intro 216 rfl rfl (congrArg (Instr.yield c) (x3OfBits_x3Bits o))
theorem trap (c : Ctl) (o : XL) : Statement (.trap c o) :=
  .intro 213 rfl rfl (congrArg (Instr.trap c) (xlOfBits_xlBits o))
theorem brk (c : Ctl) (o : X3) : Statement (.brk c o) :=
  .intro 215 rfl rfl (congrArg (Instr.brk c) (x3OfBits_x3Bits o))
theorem rte (c : Ctl) (o : X3) : Statement (.rte c o) :=
  .intro 214 rfl rfl (congrArg (Instr.rte c) (x3OfBits_x3Bits o))
theorem csrr (c : Ctl) (o : C) : Statement (.csrr c o) :=
  .intro 209 rfl rfl (congrArg (Instr.csrr c) (cOfBits_cBits o))
theorem csrw (c : Ctl) (o : C) : Statement (.csrw c o) :=
  .intro 210 rfl rfl (congrArg (Instr.csrw c) (cOfBits_cBits o))
theorem csrs (c : Ctl) (o : C) : Statement (.csrs c o) :=
  .intro 211 rfl rfl (congrArg (Instr.csrs c) (cOfBits_cBits o))
theorem csrc (c : Ctl) (o : C) : Statement (.csrc c o) :=
  .intro 212 rfl rfl (congrArg (Instr.csrc c) (cOfBits_cBits o))
theorem pool (c : Ctl) (o : PL) : Statement (.pool c o) :=
  .intro 217 rfl rfl (congrArg (Instr.pool c) (plOfBits_plBits o))
theorem setvl (c : Ctl) (o : X3) : Statement (.setvl c o) :=
  .intro 56 rfl rfl (congrArg (Instr.setvl c) (x3OfBits_x3Bits o))
theorem setvt (c : Ctl) (o : X3) : Statement (.setvt c o) :=
  .intro 57 rfl rfl (congrArg (Instr.setvt c) (x3OfBits_x3Bits o))
theorem vdecl (c : Ctl) (o : VX) : Statement (.vdecl c o) :=
  .intro 58 rfl rfl (congrArg (Instr.vdecl c) (vxOfBits_vxBits o))
theorem vqry (c : Ctl) (o : VX) : Statement (.vqry c o) :=
  .intro 59 rfl rfl (congrArg (Instr.vqry c) (vxOfBits_vxBits o))
theorem vadd (c : Ctl) (o : V3) : Statement (.vadd c o) :=
  .intro 60 rfl rfl (congrArg (Instr.vadd c) (v3OfBits_v3Bits o))
theorem vsub (c : Ctl) (o : V3) : Statement (.vsub c o) :=
  .intro 61 rfl rfl (congrArg (Instr.vsub c) (v3OfBits_v3Bits o))
theorem vadds (c : Ctl) (o : V3) : Statement (.vadds c o) :=
  .intro 62 rfl rfl (congrArg (Instr.vadds c) (v3OfBits_v3Bits o))
theorem vsubs (c : Ctl) (o : V3) : Statement (.vsubs c o) :=
  .intro 63 rfl rfl (congrArg (Instr.vsubs c) (v3OfBits_v3Bits o))
theorem vmul (c : Ctl) (o : V3) : Statement (.vmul c o) :=
  .intro 64 rfl rfl (congrArg (Instr.vmul c) (v3OfBits_v3Bits o))
theorem vmulh (c : Ctl) (o : V3) : Statement (.vmulh c o) :=
  .intro 65 rfl rfl (congrArg (Instr.vmulh c) (v3OfBits_v3Bits o))
theorem vmac (c : Ctl) (o : V3) : Statement (.vmac c o) :=
  .intro 66 rfl rfl (congrArg (Instr.vmac c) (v3OfBits_v3Bits o))
theorem vmin (c : Ctl) (o : V3) : Statement (.vmin c o) :=
  .intro 74 rfl rfl (congrArg (Instr.vmin c) (v3OfBits_v3Bits o))
theorem vmax (c : Ctl) (o : V3) : Statement (.vmax c o) :=
  .intro 75 rfl rfl (congrArg (Instr.vmax c) (v3OfBits_v3Bits o))
theorem vand (c : Ctl) (o : V3) : Statement (.vand c o) :=
  .intro 76 rfl rfl (congrArg (Instr.vand c) (v3OfBits_v3Bits o))
theorem vor (c : Ctl) (o : V3) : Statement (.vor c o) :=
  .intro 77 rfl rfl (congrArg (Instr.vor c) (v3OfBits_v3Bits o))
theorem vxor (c : Ctl) (o : V3) : Statement (.vxor c o) :=
  .intro 78 rfl rfl (congrArg (Instr.vxor c) (v3OfBits_v3Bits o))
theorem vandn (c : Ctl) (o : V3) : Statement (.vandn c o) :=
  .intro 79 rfl rfl (congrArg (Instr.vandn c) (v3OfBits_v3Bits o))
theorem vneg (c : Ctl) (o : VF) : Statement (.vneg c o) :=
  .intro 67 rfl rfl (congrArg (Instr.vneg c) (vfOfBits_vfBits o))
theorem vabs (c : Ctl) (o : VF) : Statement (.vabs c o) :=
  .intro 68 rfl rfl (congrArg (Instr.vabs c) (vfOfBits_vfBits o))
theorem vnot (c : Ctl) (o : VF) : Statement (.vnot c o) :=
  .intro 69 rfl rfl (congrArg (Instr.vnot c) (vfOfBits_vfBits o))
theorem vmov (c : Ctl) (o : VF) : Statement (.vmov c o) :=
  .intro 70 rfl rfl (congrArg (Instr.vmov c) (vfOfBits_vfBits o))
theorem vclz (c : Ctl) (o : VF) : Statement (.vclz c o) :=
  .intro 71 rfl rfl (congrArg (Instr.vclz c) (vfOfBits_vfBits o))
theorem vpopc (c : Ctl) (o : VF) : Statement (.vpopc c o) :=
  .intro 72 rfl rfl (congrArg (Instr.vpopc c) (vfOfBits_vfBits o))
theorem vwide (c : Ctl) (o : VF) : Statement (.vwide c o) :=
  .intro 73 rfl rfl (congrArg (Instr.vwide c) (vfOfBits_vfBits o))
theorem vshl (c : Ctl) (o : VI) : Statement (.vshl c o) :=
  .intro 81 rfl rfl (congrArg (Instr.vshl c) (viOfBits_viBits o))
theorem vshr (c : Ctl) (o : VI) : Statement (.vshr c o) :=
  .intro 82 rfl rfl (congrArg (Instr.vshr c) (viOfBits_viBits o))
theorem vsra (c : Ctl) (o : VI) : Statement (.vsra c o) :=
  .intro 83 rfl rfl (congrArg (Instr.vsra c) (viOfBits_viBits o))
theorem vshv (c : Ctl) (o : V3) : Statement (.vshv c o) :=
  .intro 84 rfl rfl (congrArg (Instr.vshv c) (v3OfBits_v3Bits o))
theorem vbool (c : Ctl) (o : V3) : Statement (.vbool c o) :=
  .intro 80 rfl rfl (congrArg (Instr.vbool c) (v3OfBits_v3Bits o))
theorem vcmp (c : Ctl) (o : V3) : Statement (.vcmp c o) :=
  .intro 85 rfl rfl (congrArg (Instr.vcmp c) (v3OfBits_v3Bits o))
theorem vsel (c : Ctl) (o : V3) : Statement (.vsel c o) :=
  .intro 86 rfl rfl (congrArg (Instr.vsel c) (v3OfBits_v3Bits o))
theorem vsplat (c : Ctl) (o : VX) : Statement (.vsplat c o) :=
  .intro 87 rfl rfl (congrArg (Instr.vsplat c) (vxOfBits_vxBits o))
theorem viota (c : Ctl) (o : VX) : Statement (.viota c o) :=
  .intro 88 rfl rfl (congrArg (Instr.viota c) (vxOfBits_vxBits o))
theorem vlut (c : Ctl) (o : V3) : Statement (.vlut c o) :=
  .intro 89 rfl rfl (congrArg (Instr.vlut c) (v3OfBits_v3Bits o))
theorem pand (c : Ctl) (o : P3) : Statement (.pand c o) :=
  .intro 90 rfl rfl (congrArg (Instr.pand c) (p3OfBits_p3Bits o))
theorem por (c : Ctl) (o : P3) : Statement (.por c o) :=
  .intro 91 rfl rfl (congrArg (Instr.por c) (p3OfBits_p3Bits o))
theorem pxor (c : Ctl) (o : P3) : Statement (.pxor c o) :=
  .intro 92 rfl rfl (congrArg (Instr.pxor c) (p3OfBits_p3Bits o))
theorem pnot (c : Ctl) (o : P3) : Statement (.pnot c o) :=
  .intro 93 rfl rfl (congrArg (Instr.pnot c) (p3OfBits_p3Bits o))
theorem pandn (c : Ctl) (o : P3) : Statement (.pandn c o) :=
  .intro 94 rfl rfl (congrArg (Instr.pandn c) (p3OfBits_p3Bits o))
theorem pcnt (c : Ctl) (o : P3) : Statement (.pcnt c o) :=
  .intro 95 rfl rfl (congrArg (Instr.pcnt c) (p3OfBits_p3Bits o))
theorem pfirst (c : Ctl) (o : P3) : Statement (.pfirst c o) :=
  .intro 96 rfl rfl (congrArg (Instr.pfirst c) (p3OfBits_p3Bits o))
theorem pset (c : Ctl) (o : P3) : Statement (.pset c o) :=
  .intro 97 rfl rfl (congrArg (Instr.pset c) (p3OfBits_p3Bits o))
theorem pmov (c : Ctl) (o : P3) : Statement (.pmov c o) :=
  .intro 98 rfl rfl (congrArg (Instr.pmov c) (p3OfBits_p3Bits o))
theorem vredAdd (c : Ctl) (o : VF) : Statement (.vredAdd c o) :=
  .intro 99 rfl rfl (congrArg (Instr.vredAdd c) (vfOfBits_vfBits o))
theorem vredMin (c : Ctl) (o : VF) : Statement (.vredMin c o) :=
  .intro 100 rfl rfl (congrArg (Instr.vredMin c) (vfOfBits_vfBits o))
theorem vredMax (c : Ctl) (o : VF) : Statement (.vredMax c o) :=
  .intro 101 rfl rfl (congrArg (Instr.vredMax c) (vfOfBits_vfBits o))
theorem vredMinu (c : Ctl) (o : VF) : Statement (.vredMinu c o) :=
  .intro 102 rfl rfl (congrArg (Instr.vredMinu c) (vfOfBits_vfBits o))
theorem vredMaxu (c : Ctl) (o : VF) : Statement (.vredMaxu c o) :=
  .intro 103 rfl rfl (congrArg (Instr.vredMaxu c) (vfOfBits_vfBits o))
theorem vredAnd (c : Ctl) (o : VF) : Statement (.vredAnd c o) :=
  .intro 104 rfl rfl (congrArg (Instr.vredAnd c) (vfOfBits_vfBits o))
theorem vredOr (c : Ctl) (o : VF) : Statement (.vredOr c o) :=
  .intro 105 rfl rfl (congrArg (Instr.vredOr c) (vfOfBits_vfBits o))
theorem vredXor (c : Ctl) (o : VF) : Statement (.vredXor c o) :=
  .intro 106 rfl rfl (congrArg (Instr.vredXor c) (vfOfBits_vfBits o))
theorem vscanAdd (c : Ctl) (o : VF) : Statement (.vscanAdd c o) :=
  .intro 107 rfl rfl (congrArg (Instr.vscanAdd c) (vfOfBits_vfBits o))
theorem vscanMin (c : Ctl) (o : VF) : Statement (.vscanMin c o) :=
  .intro 108 rfl rfl (congrArg (Instr.vscanMin c) (vfOfBits_vfBits o))
theorem vscanMax (c : Ctl) (o : VF) : Statement (.vscanMax c o) :=
  .intro 109 rfl rfl (congrArg (Instr.vscanMax c) (vfOfBits_vfBits o))
theorem vscanMinu (c : Ctl) (o : VF) : Statement (.vscanMinu c o) :=
  .intro 110 rfl rfl (congrArg (Instr.vscanMinu c) (vfOfBits_vfBits o))
theorem vscanMaxu (c : Ctl) (o : VF) : Statement (.vscanMaxu c o) :=
  .intro 111 rfl rfl (congrArg (Instr.vscanMaxu c) (vfOfBits_vfBits o))
theorem vscanAnd (c : Ctl) (o : VF) : Statement (.vscanAnd c o) :=
  .intro 112 rfl rfl (congrArg (Instr.vscanAnd c) (vfOfBits_vfBits o))
theorem vscanOr (c : Ctl) (o : VF) : Statement (.vscanOr c o) :=
  .intro 113 rfl rfl (congrArg (Instr.vscanOr c) (vfOfBits_vfBits o))
theorem vscanXor (c : Ctl) (o : VF) : Statement (.vscanXor c o) :=
  .intro 114 rfl rfl (congrArg (Instr.vscanXor c) (vfOfBits_vfBits o))
theorem vdot (c : Ctl) (o : V3) : Statement (.vdot c o) :=
  .intro 115 rfl rfl (congrArg (Instr.vdot c) (v3OfBits_v3Bits o))
theorem vperm (c : Ctl) (o : V3) : Statement (.vperm c o) :=
  .intro 116 rfl rfl (congrArg (Instr.vperm c) (v3OfBits_v3Bits o))
theorem vslide (c : Ctl) (o : VVX) : Statement (.vslide c o) :=
  .intro 117 rfl rfl (congrArg (Instr.vslide c) (vvxOfBits_vvxBits o))
theorem vxch (c : Ctl) (o : V3) : Statement (.vxch c o) :=
  .intro 118 rfl rfl (congrArg (Instr.vxch c) (v3OfBits_v3Bits o))
theorem vbcast (c : Ctl) (o : VVX) : Statement (.vbcast c o) :=
  .intro 119 rfl rfl (congrArg (Instr.vbcast c) (vvxOfBits_vvxBits o))
theorem vfadd (c : Ctl) (o : V3) : Statement (.vfadd c o) :=
  .intro 120 rfl rfl (congrArg (Instr.vfadd c) (v3OfBits_v3Bits o))
theorem vfsub (c : Ctl) (o : V3) : Statement (.vfsub c o) :=
  .intro 121 rfl rfl (congrArg (Instr.vfsub c) (v3OfBits_v3Bits o))
theorem vfmul (c : Ctl) (o : V3) : Statement (.vfmul c o) :=
  .intro 122 rfl rfl (congrArg (Instr.vfmul c) (v3OfBits_v3Bits o))
theorem vfma (c : Ctl) (o : V3) : Statement (.vfma c o) :=
  .intro 123 rfl rfl (congrArg (Instr.vfma c) (v3OfBits_v3Bits o))
theorem vfms (c : Ctl) (o : V3) : Statement (.vfms c o) :=
  .intro 124 rfl rfl (congrArg (Instr.vfms c) (v3OfBits_v3Bits o))
theorem vfnma (c : Ctl) (o : V3) : Statement (.vfnma c o) :=
  .intro 125 rfl rfl (congrArg (Instr.vfnma c) (v3OfBits_v3Bits o))
theorem vfdiv (c : Ctl) (o : V3) : Statement (.vfdiv c o) :=
  .intro 126 rfl rfl (congrArg (Instr.vfdiv c) (v3OfBits_v3Bits o))
theorem vfsqrt (c : Ctl) (o : VF) : Statement (.vfsqrt c o) :=
  .intro 127 rfl rfl (congrArg (Instr.vfsqrt c) (vfOfBits_vfBits o))
theorem vfclass (c : Ctl) (o : VF) : Statement (.vfclass c o) :=
  .intro 128 rfl rfl (congrArg (Instr.vfclass c) (vfOfBits_vfBits o))
theorem vfcvt (c : Ctl) (o : VF) : Statement (.vfcvt c o) :=
  .intro 129 rfl rfl (congrArg (Instr.vfcvt c) (vfOfBits_vfBits o))
theorem vftoi (c : Ctl) (o : VF) : Statement (.vftoi c o) :=
  .intro 130 rfl rfl (congrArg (Instr.vftoi c) (vfOfBits_vfBits o))
theorem vitof (c : Ctl) (o : VF) : Statement (.vitof c o) :=
  .intro 131 rfl rfl (congrArg (Instr.vitof c) (vfOfBits_vfBits o))
theorem vfred (c : Ctl) (o : VF) : Statement (.vfred c o) :=
  .intro 132 rfl rfl (congrArg (Instr.vfred c) (vfOfBits_vfBits o))
theorem vmxq (c : Ctl) (o : VF) : Statement (.vmxq c o) :=
  .intro 133 rfl rfl (congrArg (Instr.vmxq c) (vfOfBits_vfBits o))
theorem vmxd (c : Ctl) (o : VF) : Statement (.vmxd c o) :=
  .intro 134 rfl rfl (congrArg (Instr.vmxd c) (vfOfBits_vfBits o))
theorem vhad (c : Ctl) (o : VF) : Statement (.vhad c o) :=
  .intro 135 rfl rfl (congrArg (Instr.vhad c) (vfOfBits_vfBits o))
theorem vfmin (c : Ctl) (o : V3) : Statement (.vfmin c o) :=
  .intro 136 rfl rfl (congrArg (Instr.vfmin c) (v3OfBits_v3Bits o))
theorem vfmax (c : Ctl) (o : V3) : Statement (.vfmax c o) :=
  .intro 137 rfl rfl (congrArg (Instr.vfmax c) (v3OfBits_v3Bits o))
theorem vfcmp (c : Ctl) (o : V3) : Statement (.vfcmp c o) :=
  .intro 138 rfl rfl (congrArg (Instr.vfcmp c) (v3OfBits_v3Bits o))
theorem vfsgn (c : Ctl) (o : V3) : Statement (.vfsgn c o) :=
  .intro 139 rfl rfl (congrArg (Instr.vfsgn c) (v3OfBits_v3Bits o))
theorem vldz (c : Ctl) (o : VX) : Statement (.vldz c o) :=
  .intro 140 rfl rfl (congrArg (Instr.vldz c) (vxOfBits_vxBits o))
theorem vstz (c : Ctl) (o : VX) : Statement (.vstz c o) :=
  .intro 141 rfl rfl (congrArg (Instr.vstz c) (vxOfBits_vxBits o))
theorem mcfg (c : Ctl) (o : X3) : Statement (.mcfg c o) :=
  .intro 142 rfl rfl (congrArg (Instr.mcfg c) (x3OfBits_x3Bits o))
theorem mzero (c : Ctl) (o : V3) : Statement (.mzero c o) :=
  .intro 143 rfl rfl (congrArg (Instr.mzero c) (v3OfBits_v3Bits o))
theorem mop (c : Ctl) (o : V3) : Statement (.mop c o) :=
  .intro 144 rfl rfl (congrArg (Instr.mop c) (v3OfBits_v3Bits o))
theorem mops (c : Ctl) (o : V3) : Statement (.mops c o) :=
  .intro 145 rfl rfl (congrArg (Instr.mops c) (v3OfBits_v3Bits o))
theorem mopg (c : Ctl) (o : V3) : Statement (.mopg c o) :=
  .intro 146 rfl rfl (congrArg (Instr.mopg c) (v3OfBits_v3Bits o))
theorem mdrain (c : Ctl) (o : V3) : Statement (.mdrain c o) :=
  .intro 147 rfl rfl (congrArg (Instr.mdrain c) (v3OfBits_v3Bits o))
theorem mscale (c : Ctl) (o : VX) : Statement (.mscale c o) :=
  .intro 148 rfl rfl (congrArg (Instr.mscale c) (vxOfBits_vxBits o))
theorem msave (c : Ctl) (o : VX) : Statement (.msave c o) :=
  .intro 149 rfl rfl (congrArg (Instr.msave c) (vxOfBits_vxBits o))
theorem mrest (c : Ctl) (o : VX) : Statement (.mrest c o) :=
  .intro 150 rfl rfl (congrArg (Instr.mrest c) (vxOfBits_vxBits o))
theorem mburst (c : Ctl) (o : XL) : Statement (.mburst c o) :=
  .intro 151 rfl rfl (congrArg (Instr.mburst c) (xlOfBits_xlBits o))
theorem mwait (c : Ctl) (o : X3) : Statement (.mwait c o) :=
  .intro 152 rfl rfl (congrArg (Instr.mwait c) (x3OfBits_x3Bits o))
theorem sexp (c : Ctl) (o : V3) : Statement (.sexp c o) :=
  .intro 153 rfl rfl (congrArg (Instr.sexp c) (v3OfBits_v3Bits o))
theorem sfit (c : Ctl) (o : V3) : Statement (.sfit c o) :=
  .intro 154 rfl rfl (congrArg (Instr.sfit c) (v3OfBits_v3Bits o))
theorem sargmin (c : Ctl) (o : VX) : Statement (.sargmin c o) :=
  .intro 155 rfl rfl (congrArg (Instr.sargmin c) (vxOfBits_vxBits o))
theorem vgen (c : Ctl) (o : VX) : Statement (.vgen c o) :=
  .intro 156 rfl rfl (congrArg (Instr.vgen c) (vxOfBits_vxBits o))
theorem tld (c : Ctl) (o : VX) : Statement (.tld c o) :=
  .intro 157 rfl rfl (congrArg (Instr.tld c) (vxOfBits_vxBits o))
theorem tst (c : Ctl) (o : VX) : Statement (.tst c o) :=
  .intro 158 rfl rfl (congrArg (Instr.tst c) (vxOfBits_vxBits o))
theorem tldx (c : Ctl) (o : VX) : Statement (.tldx c o) :=
  .intro 159 rfl rfl (congrArg (Instr.tldx c) (vxOfBits_vxBits o))
theorem tstx (c : Ctl) (o : VX) : Statement (.tstx c o) :=
  .intro 160 rfl rfl (congrArg (Instr.tstx c) (vxOfBits_vxBits o))
theorem twait (c : Ctl) (o : VX) : Statement (.twait c o) :=
  .intro 161 rfl rfl (congrArg (Instr.twait c) (vxOfBits_vxBits o))
theorem tclr (c : Ctl) (o : VX) : Statement (.tclr c o) :=
  .intro 162 rfl rfl (congrArg (Instr.tclr c) (vxOfBits_vxBits o))
theorem tqry (c : Ctl) (o : VX) : Statement (.tqry c o) :=
  .intro 163 rfl rfl (congrArg (Instr.tqry c) (vxOfBits_vxBits o))
theorem binput (c : Ctl) (o : X3) : Statement (.binput c o) :=
  .intro 164 rfl rfl (congrArg (Instr.binput c) (x3OfBits_x3Bits o))
theorem binflush (c : Ctl) (o : X3) : Statement (.binflush c o) :=
  .intro 165 rfl rfl (congrArg (Instr.binflush c) (x3OfBits_x3Bits o))
theorem kvapp (c : Ctl) (o : X3) : Statement (.kvapp c o) :=
  .intro 166 rfl rfl (congrArg (Instr.kvapp c) (x3OfBits_x3Bits o))
theorem retspan (c : Ctl) (o : X3) : Statement (.retspan c o) :=
  .intro 167 rfl rfl (congrArg (Instr.retspan c) (x3OfBits_x3Bits o))
theorem kvpin (c : Ctl) (o : X3) : Statement (.kvpin c o) :=
  .intro 168 rfl rfl (congrArg (Instr.kvpin c) (x3OfBits_x3Bits o))
theorem kvunpin (c : Ctl) (o : X3) : Statement (.kvunpin c o) :=
  .intro 169 rfl rfl (congrArg (Instr.kvunpin c) (x3OfBits_x3Bits o))
theorem kvqryDesc (c : Ctl) (o : X3) : Statement (.kvqryDesc c o) :=
  .intro 170 rfl rfl (congrArg (Instr.kvqryDesc c) (x3OfBits_x3Bits o))
theorem kvqryPos (c : Ctl) (o : X3) : Statement (.kvqryPos c o) :=
  .intro 171 rfl rfl (congrArg (Instr.kvqryPos c) (x3OfBits_x3Bits o))
theorem kvqryHdr (c : Ctl) (o : X3) : Statement (.kvqryHdr c o) :=
  .intro 172 rfl rfl (congrArg (Instr.kvqryHdr c) (x3OfBits_x3Bits o))
theorem kvqryCount (c : Ctl) (o : X3) : Statement (.kvqryCount c o) :=
  .intro 173 rfl rfl (congrArg (Instr.kvqryCount c) (x3OfBits_x3Bits o))
theorem sld (c : Ctl) (o : SX) : Statement (.sld c o) :=
  .intro 174 rfl rfl (congrArg (Instr.sld c) (sxOfBits_sxBits o))
theorem sst (c : Ctl) (o : SX) : Statement (.sst c o) :=
  .intro 175 rfl rfl (congrArg (Instr.sst c) (sxOfBits_sxBits o))
theorem sadd (c : Ctl) (o : S3) : Statement (.sadd c o) :=
  .intro 176 rfl rfl (congrArg (Instr.sadd c) (s3OfBits_s3Bits o))
theorem ssub (c : Ctl) (o : S3) : Statement (.ssub c o) :=
  .intro 177 rfl rfl (congrArg (Instr.ssub c) (s3OfBits_s3Bits o))
theorem smul (c : Ctl) (o : S3) : Statement (.smul c o) :=
  .intro 178 rfl rfl (congrArg (Instr.smul c) (s3OfBits_s3Bits o))
theorem smax (c : Ctl) (o : S3) : Statement (.smax c o) :=
  .intro 179 rfl rfl (congrArg (Instr.smax c) (s3OfBits_s3Bits o))
theorem sscale (c : Ctl) (o : S3) : Statement (.sscale c o) :=
  .intro 180 rfl rfl (congrArg (Instr.sscale c) (s3OfBits_s3Bits o))
theorem sdot (c : Ctl) (o : SX) : Statement (.sdot c o) :=
  .intro 181 rfl rfl (congrArg (Instr.sdot c) (sxOfBits_sxBits o))
theorem sxpand (c : Ctl) (o : SV) : Statement (.sxpand c o) :=
  .intro 182 rfl rfl (congrArg (Instr.sxpand c) (svOfBits_svBits o))
theorem spack (c : Ctl) (o : SV) : Statement (.spack c o) :=
  .intro 183 rfl rfl (congrArg (Instr.spack c) (svOfBits_svBits o))
theorem shacc (c : Ctl) (o : SX) : Statement (.shacc c o) :=
  .intro 184 rfl rfl (congrArg (Instr.shacc c) (sxOfBits_sxBits o))
theorem slen (c : Ctl) (o : SX) : Statement (.slen c o) :=
  .intro 185 rfl rfl (congrArg (Instr.slen c) (sxOfBits_sxBits o))
theorem amoAdd (c : Ctl) (o : AT) : Statement (.amoAdd c o) :=
  .intro 186 rfl rfl (congrArg (Instr.amoAdd c) (atOfBits_atBits o))
theorem amoAnd (c : Ctl) (o : AT) : Statement (.amoAnd c o) :=
  .intro 187 rfl rfl (congrArg (Instr.amoAnd c) (atOfBits_atBits o))
theorem amoOr (c : Ctl) (o : AT) : Statement (.amoOr c o) :=
  .intro 188 rfl rfl (congrArg (Instr.amoOr c) (atOfBits_atBits o))
theorem amoXor (c : Ctl) (o : AT) : Statement (.amoXor c o) :=
  .intro 189 rfl rfl (congrArg (Instr.amoXor c) (atOfBits_atBits o))
theorem amoMin (c : Ctl) (o : AT) : Statement (.amoMin c o) :=
  .intro 190 rfl rfl (congrArg (Instr.amoMin c) (atOfBits_atBits o))
theorem amoMax (c : Ctl) (o : AT) : Statement (.amoMax c o) :=
  .intro 191 rfl rfl (congrArg (Instr.amoMax c) (atOfBits_atBits o))
theorem amoMinu (c : Ctl) (o : AT) : Statement (.amoMinu c o) :=
  .intro 192 rfl rfl (congrArg (Instr.amoMinu c) (atOfBits_atBits o))
theorem amoMaxu (c : Ctl) (o : AT) : Statement (.amoMaxu c o) :=
  .intro 193 rfl rfl (congrArg (Instr.amoMaxu c) (atOfBits_atBits o))
theorem amocas (c : Ctl) (o : AT) : Statement (.amocas c o) :=
  .intro 194 rfl rfl (congrArg (Instr.amocas c) (atOfBits_atBits o))
theorem amoSwap (c : Ctl) (o : AT) : Statement (.amoSwap c o) :=
  .intro 195 rfl rfl (congrArg (Instr.amoSwap c) (atOfBits_atBits o))
theorem amofFp32 (c : Ctl) (o : AT) : Statement (.amofFp32 c o) :=
  .intro 196 rfl rfl (congrArg (Instr.amofFp32 c) (atOfBits_atBits o))
theorem amofFp64 (c : Ctl) (o : AT) : Statement (.amofFp64 c o) :=
  .intro 197 rfl rfl (congrArg (Instr.amofFp64 c) (atOfBits_atBits o))
theorem amofBf16 (c : Ctl) (o : AT) : Statement (.amofBf16 c o) :=
  .intro 198 rfl rfl (congrArg (Instr.amofBf16 c) (atOfBits_atBits o))
theorem amox (c : Ctl) (o : AT) : Statement (.amox c o) :=
  .intro 199 rfl rfl (congrArg (Instr.amox c) (atOfBits_atBits o))
theorem amoxrFp32 (c : Ctl) (o : AT) : Statement (.amoxrFp32 c o) :=
  .intro 200 rfl rfl (congrArg (Instr.amoxrFp32 c) (atOfBits_atBits o))
theorem amoxrFp64 (c : Ctl) (o : AT) : Statement (.amoxrFp64 c o) :=
  .intro 201 rfl rfl (congrArg (Instr.amoxrFp64 c) (atOfBits_atBits o))
theorem fencer (c : Ctl) (o : F) : Statement (.fencer c o) :=
  .intro 202 rfl rfl (congrArg (Instr.fencer c) (fOfBits_fBits o))
theorem fence (c : Ctl) (o : F) : Statement (.fence c o) :=
  .intro 203 rfl rfl (congrArg (Instr.fence c) (fOfBits_fBits o))
theorem waitm (c : Ctl) (o : X3) : Statement (.waitm c o) :=
  .intro 204 rfl rfl (congrArg (Instr.waitm c) (x3OfBits_x3Bits o))
theorem gbar (c : Ctl) (o : X3) : Statement (.gbar c o) :=
  .intro 205 rfl rfl (congrArg (Instr.gbar c) (x3OfBits_x3Bits o))
theorem etrig (c : Ctl) (o : X3) : Statement (.etrig c o) :=
  .intro 206 rfl rfl (congrArg (Instr.etrig c) (x3OfBits_x3Bits o))
theorem glaunch (c : Ctl) (o : X3) : Statement (.glaunch c o) :=
  .intro 207 rfl rfl (congrArg (Instr.glaunch c) (x3OfBits_x3Bits o))
theorem gqry (c : Ctl) (o : X3) : Statement (.gqry c o) :=
  .intro 208 rfl rfl (congrArg (Instr.gqry c) (x3OfBits_x3Bits o))
theorem trapEntry (cls code : BitVec 8) (eaddr : Word) : Statement (.trapEntry cls code eaddr) :=
  fun _ _ _ h => nomatch h
theorem asyncInterrupt : Statement (.asyncInterrupt) :=
  fun _ _ _ h => nomatch h
theorem swap (regs : List (BitVec 6)) : Statement (.swap regs) :=
  fun _ _ _ h => nomatch h
theorem resultLanding (n : Nat) : Statement (.resultLanding n) :=
  fun _ _ _ h => nomatch h
theorem loadDataReturn : Statement (.loadDataReturn) :=
  fun _ _ _ h => nomatch h
theorem rowDrowsy (core row : Nat) : Statement (.rowDrowsy core row) :=
  fun _ _ _ h => nomatch h
theorem arrayRampUpEnd (core : Nat) : Statement (.arrayRampUpEnd core) :=
  fun _ _ _ h => nomatch h
theorem arrayRampDown (core : Nat) : Statement (.arrayRampDown core) :=
  fun _ _ _ h => nomatch h
theorem arrayRampDownEnd (core : Nat) : Statement (.arrayRampDownEnd core) :=
  fun _ _ _ h => nomatch h
theorem burstHoldEnd (core : Nat) : Statement (.burstHoldEnd core) :=
  fun _ _ _ h => nomatch h
theorem apertureQueueAccept (gang hart : Nat) : Statement (.apertureQueueAccept gang hart) :=
  fun _ _ _ h => nomatch h
theorem copyStart (chan : Nat) : Statement (.copyStart chan) :=
  fun _ _ _ h => nomatch h
theorem translationWalk (asid va : Nat) : Statement (.translationWalk asid va) :=
  fun _ _ _ h => nomatch h
theorem chunkLand (chan k : Nat) : Statement (.chunkLand chan k) :=
  fun _ _ _ h => nomatch h
theorem chunkRetry (chan k : Nat) : Statement (.chunkRetry chan k) :=
  fun _ _ _ h => nomatch h
theorem followOnSweep (core : Nat) : Statement (.followOnSweep core) :=
  fun _ _ _ h => nomatch h
theorem sweepDone (core : Nat) : Statement (.sweepDone core) :=
  fun _ _ _ h => nomatch h
theorem kvwalkCarriageStart (chan : Nat) : Statement (.kvwalkCarriageStart chan) :=
  fun _ _ _ h => nomatch h
theorem binPairWrite (die : Nat) : Statement (.binPairWrite die) :=
  fun _ _ _ h => nomatch h
theorem coachOpApply (die : Nat) : Statement (.coachOpApply die) :=
  fun _ _ _ h => nomatch h
theorem coachOpComplete (gang hart : Nat) : Statement (.coachOpComplete gang hart) :=
  fun _ _ _ h => nomatch h
theorem replicaApply (n : Nat) : Statement (.replicaApply n) :=
  fun _ _ _ h => nomatch h
theorem waitComplete (gang hart : Nat) : Statement (.waitComplete gang hart) :=
  fun _ _ _ h => nomatch h
theorem waitmReread (gang hart : Nat) : Statement (.waitmReread gang hart) :=
  fun _ _ _ h => nomatch h
theorem fenceRelease (gang hart : Nat) : Statement (.fenceRelease gang hart) :=
  fun _ _ _ h => nomatch h
theorem binflushComplete (gang hart : Nat) : Statement (.binflushComplete gang hart) :=
  fun _ _ _ h => nomatch h
theorem barrierComplete (gang : Nat) : Statement (.barrierComplete gang) :=
  fun _ _ _ h => nomatch h
theorem timingTrap (gang hart : Nat) : Statement (.timingTrap gang hart) :=
  fun _ _ _ h => nomatch h
theorem timingConditionMet (gang hart : Nat) : Statement (.timingConditionMet gang hart) :=
  fun _ _ _ h => nomatch h
theorem timingRestart (gang hart : Nat) : Statement (.timingRestart gang hart) :=
  fun _ _ _ h => nomatch h
theorem waitRelease (gang hart : Nat) : Statement (.waitRelease gang hart) :=
  fun _ _ _ h => nomatch h
theorem icacheFill (va : Word) : Statement (.icacheFill va) :=
  fun _ _ _ h => nomatch h
theorem icacheParityRefill (va : Word) : Statement (.icacheParityRefill va) :=
  fun _ _ _ h => nomatch h
theorem launchArrival (n : Nat) : Statement (.launchArrival n) :=
  fun _ _ _ h => nomatch h
theorem gqryArrival (n : Nat) : Statement (.gqryArrival n) :=
  fun _ _ _ h => nomatch h
theorem placementPass (part : Nat) : Statement (.placementPass part) :=
  fun _ _ _ h => nomatch h
theorem preemptionStop (gang : Nat) : Statement (.preemptionStop gang) :=
  fun _ _ _ h => nomatch h
theorem prologue (gang : Nat) : Statement (.prologue gang) :=
  fun _ _ _ h => nomatch h
theorem gangStart (gang : Nat) : Statement (.gangStart gang) :=
  fun _ _ _ h => nomatch h
theorem gangRetire (gang : Nat) : Statement (.gangRetire gang) :=
  fun _ _ _ h => nomatch h
theorem gangFaultEnd (gang : Nat) : Statement (.gangFaultEnd gang) :=
  fun _ _ _ h => nomatch h
theorem faultRecordDelivery (n : Nat) : Statement (.faultRecordDelivery n) :=
  fun _ _ _ h => nomatch h
theorem hostLaunch (vf : Nat) (lid : Word) : Statement (.hostLaunch vf lid) :=
  fun _ _ _ h => nomatch h
theorem lock (vf : Nat) (cmd arg : Word) : Statement (.lock vf cmd arg) :=
  fun _ _ _ h => nomatch h
theorem unlock (vf : Nat) (cmd arg : Word) : Statement (.unlock vf cmd arg) :=
  fun _ _ _ h => nomatch h
theorem pageInvalidate (vf : Nat) (cmd arg : Word) : Statement (.pageInvalidate vf cmd arg) :=
  fun _ _ _ h => nomatch h
theorem migrate (vf : Nat) (cmd arg : Word) : Statement (.migrate vf cmd arg) :=
  fun _ _ _ h => nomatch h
theorem migrationChunkCopy (n : Nat) : Statement (.migrationChunkCopy n) :=
  fun _ _ _ h => nomatch h
theorem diemapWrite (v : Word) : Statement (.diemapWrite v) :=
  fun _ _ _ h => nomatch h
theorem dieAssignmentDone : Statement (.dieAssignmentDone) :=
  fun _ _ _ h => nomatch h
theorem shareWrite (v : Word) : Statement (.shareWrite v) :=
  fun _ _ _ h => nomatch h
theorem logclrVcount (part : Nat) : Statement (.logclrVcount part) :=
  fun _ _ _ h => nomatch h
theorem logclrFcount (part : Nat) : Statement (.logclrFcount part) :=
  fun _ _ _ h => nomatch h
theorem registerWrite (pf : Bool) (vf off : Nat) (v : Word) : Statement (.registerWrite pf vf off v) :=
  fun _ _ _ h => nomatch h
theorem bar2Read (vf off len : Nat) : Statement (.bar2Read vf off len) :=
  fun _ _ _ h => nomatch h
theorem bar2Write (vf off : Nat) (bytes : List Byte) : Statement (.bar2Write vf off bytes) :=
  fun _ _ _ h => nomatch h
theorem tbConfigWrite (cluster tb : Nat) (v : Word) : Statement (.tbConfigWrite cluster tb v) :=
  fun _ _ _ h => nomatch h
theorem tbLandedClear (cluster tb dw : Nat) (v : Word) : Statement (.tbLandedClear cluster tb dw v) :=
  fun _ _ _ h => nomatch h
theorem halt (gang : Nat) : Statement (.halt gang) :=
  fun _ _ _ h => nomatch h
theorem run (gang : Nat) : Statement (.run gang) :=
  fun _ _ _ h => nomatch h
theorem step (gang hart : Nat) : Statement (.step gang hart) :=
  fun _ _ _ h => nomatch h
theorem quiesce (gang : Nat) : Statement (.quiesce gang) :=
  fun _ _ _ h => nomatch h
theorem readv (gang hart v e : Nat) : Statement (.readv gang hart v e) :=
  fun _ _ _ h => nomatch h
theorem readx (gang hart arg csr : Nat) : Statement (.readx gang hart arg csr) :=
  fun _ _ _ h => nomatch h
theorem writex (gang hart arg csr : Nat) (v : Word) : Statement (.writex gang hart arg csr v) :=
  fun _ _ _ h => nomatch h
theorem unfence (core row : Nat) : Statement (.unfence core row) :=
  fun _ _ _ h => nomatch h
theorem inject (space addr kind : Nat) : Statement (.inject space addr kind) :=
  fun _ _ _ h => nomatch h
theorem monitorConfigWrite (unit : Nat) (v : Word) : Statement (.monitorConfigWrite unit v) :=
  fun _ _ _ h => nomatch h
theorem monitorSample (unit v : Nat) : Statement (.monitorSample unit v) :=
  fun _ _ _ h => nomatch h
theorem alarmClear (unit : Nat) : Statement (.alarmClear unit) :=
  fun _ _ _ h => nomatch h
theorem firmwareBoot (image key sig : List Byte) : Statement (.firmwareBoot image key sig) :=
  fun _ _ _ h => nomatch h
theorem attestationReport (nonce : BitVec 256) : Statement (.attestationReport nonce) :=
  fun _ _ _ h => nomatch h
theorem thermalStall (die reading : Nat) : Statement (.thermalStall die reading) :=
  fun _ _ _ h => nomatch h
theorem dieStopTemperature (die reading : Nat) : Statement (.dieStopTemperature die reading) :=
  fun _ _ _ h => nomatch h
theorem ucieEdgeLoss (edge : Nat) : Statement (.ucieEdgeLoss edge) :=
  fun _ _ _ h => nomatch h
theorem correctedWriteback (space addr : Nat) : Statement (.correctedWriteback space addr) :=
  fun _ _ _ h => nomatch h
theorem transferRetry (chan k delay : Nat) : Statement (.transferRetry chan k delay) :=
  fun _ _ _ h => nomatch h
theorem uncorrectedError (space addr : Nat) : Statement (.uncorrectedError space addr) :=
  fun _ _ _ h => nomatch h
theorem thermalStallEnd (die : Nat) : Statement (.thermalStallEnd die) :=
  fun _ _ _ h => nomatch h
theorem mailboxWindowWrite (vf off : Nat) (v : Word) : Statement (.mailboxWindowWrite vf off v) :=
  fun _ _ _ h => nomatch h

end Sys2Proof.Laws.RowOf
end

