-- ==== Sys2Proof/Tests/Slice0.lean ====
section
/-! SUPPORT. Small tests, their expected values taken from the spec, and witnesses that meet the hypotheses of the statements. -/
namespace Sys2Proof.Tests
open Sys2Proof Sys2Proof.Machine
set_option Elab.async false

/-! A small device: die 0 belongs to partition 0, where a gang of one hart with one tile runs on core 0. -/

/-- V0 to V5 are vector registers of width 16, resident from plane 16 n + 24 on; V6 is a resident table of two entries of 16 bits;
V7 is a vector register that has never been filled; the others are not declared. -/
def reg (n : Nat) : VReg :=
  if n < 6 then { VReg.undeclared with kind := 1, wm := 15, first := some (16 * n + 24), slotSize := 4096, slot := 4096 * n }
  else if n = 6 then { VReg.undeclared with kind := 2, wm := 15, entm := 1, first := some 120, slotSize := 8192, slot := 24576 }
  else if n = 7 then { VReg.undeclared with kind := 1, wm := 15, fresh := true, slotSize := 4096, slot := 32768 }
  else VReg.undeclared

def gang : Gang := { Gang.none with id := 1, part := 0, st := .running, base := 0, clusters := 1
                                    launch := { Launch.none with tph := 1, nhart := 1, asid := 3 } }
def csrs : Csrs := { Csrs.init with vl := 20, rlen := 16, rows := 2, tiles := 1, fold := 1 }
def hart : Hart := { Hart.none with gang := 1, slots := 1, run := .running, csr := csrs, regs := Vector.ofFn (fun i => reg i.val) }
def dev : State :=
  { State.reset with
    dieMap := 8, gangs := [gang], h := hart, locked := [(lockKey 0 3 2 0x10000, 0x0300000000010003)]
    parts := Vector.ofFn (fun i => if i.val = 0 then { Part.init with region := [(0, 0x8000000000000000)] } else Part.init) }

/-- The device with these descriptors in VTYPE. -/
def vdev (a b d : Desc) : State :=
  { dev with h := { hart with csr := { csrs with vtype := BitVec.ofNat 64 (d.toNat * 2 ^ 32 + b.toNat * 2 ^ 16 + a.toNat) } } }
def i16 : Desc := ⟨1, 16, true, 0⟩
def u8 : Desc := ⟨0, 8, false, 0⟩
def fp16 : Desc := ⟨5, 16, false, 0⟩

/-- The device with some values in X. -/
def withX (s : State) (l : List (Nat × Word)) : State :=
  { s with h := { s.h with x := Vector.ofFn (fun i => ((l.find? (fun p => p.1 == i.val)).map (fun p => p.2)).getD s.h.x[i]) } }

def ctl : Ctl := Ctl.plain
def ext : Ctl := { Ctl.plain with form := .ext, rmo := 0 }
/-- The decoder on literal words. -/
def dec (ws : List Nat) : Decoded := decodeWords (ws.map (BitVec.ofNat 32))
/-- Controls of a base form with SC = 11 and RP = 1, and of an extended form with minor code `k`. -/
def sr : Ctl := { ctl with sc := 11, rp := true }
def sx (k : BitVec 7) : Ctl := { sr with form := .ext, minor := k }

/-! Words laid out bit by bit from R130 to R138: OPS field by field, MAJ, SC, RP, LEN. -/

theorem test_words_alu :
    dec [0b000_00010_01001_10100_0000000_1011_1_00] = .ok (.add sr ⟨0, 2, 9, 20⟩) ∧
    dec [0b001_00010_01001_10100_0000000_1011_1_00] = .ok (.sub sr ⟨1, 2, 9, 20⟩) ∧
    dec [0b010_00010_01001_10100_0000000_1011_1_00] = .ok (.and sr ⟨2, 2, 9, 20⟩) ∧
    dec [0b011_00010_01001_10100_0000000_1011_1_00] = .ok (.or sr ⟨3, 2, 9, 20⟩) ∧
    dec [0b100_00010_01001_10100_0000000_1011_1_00] = .ok (.xor sr ⟨4, 2, 9, 20⟩) ∧
    dec [0b101_00010_01001_10100_0000000_1011_1_00] = .ok (.andn sr ⟨5, 2, 9, 20⟩) ∧
    dec [0b110_00010_01001_10100_0000000_1011_1_00] = .ok (.min sr ⟨6, 2, 9, 20⟩) ∧
    dec [0b111_00010_01001_10100_0000000_1011_1_00] = .ok (.max sr ⟨7, 2, 9, 20⟩) ∧
    dec [0b000_00010_01001_10100_0000001_1011_1_00] = .ok (.minu sr ⟨0, 2, 9, 20⟩) ∧
    dec [0b001_00010_01001_10100_0000001_1011_1_00] = .ok (.maxu sr ⟨1, 2, 9, 20⟩) ∧
    dec [0b010_00010_01001_10100_0000001_1011_1_00] = .ok (.slt sr ⟨2, 2, 9, 20⟩) ∧
    dec [0b011_00010_01001_10100_0000001_1011_1_00] = .ok (.sltu sr ⟨3, 2, 9, 20⟩) := by decide

theorem test_words_alu_2 :
    dec [0b100_00010_01001_10100_0000001_1011_1_00] = .ok (.sll sr ⟨4, 2, 9, 20⟩) ∧
    dec [0b101_00010_01001_10100_0000001_1011_1_00] = .ok (.srl sr ⟨5, 2, 9, 20⟩) ∧
    dec [0b110_00010_01001_10100_0000001_1011_1_00] = .ok (.sra sr ⟨6, 2, 9, 20⟩) ∧
    dec [0b111_00010_01001_10100_0000001_1011_1_00] = .ok (.sel sr ⟨7, 2, 9, 20⟩) ∧
    dec [0b000_00010_01001_10100_0000010_1011_1_00] = .ok (.mul sr ⟨0, 2, 9, 20⟩) ∧
    dec [0b001_00010_01001_10100_0000010_1011_1_00] = .ok (.mulh sr ⟨1, 2, 9, 20⟩) ∧
    dec [0b010_00010_01001_10100_0000010_1011_1_00] = .ok (.mulhu sr ⟨2, 2, 9, 20⟩) ∧
    dec [0b011_00010_01001_10100_0000010_1011_1_00] = .ok (.div sr ⟨3, 2, 9, 20⟩) ∧
    dec [0b100_00010_01001_10100_0000010_1011_1_00] = .ok (.divu sr ⟨4, 2, 9, 20⟩) ∧
    dec [0b101_00010_01001_10100_0000010_1011_1_00] = .ok (.rem sr ⟨5, 2, 9, 20⟩) ∧
    dec [0b110_00010_01001_10100_0000010_1011_1_00] = .ok (.remu sr ⟨6, 2, 9, 20⟩) ∧
    dec [0b000_00000_01001_10100_0000011_1011_1_00] = .ok (.clz sr ⟨0, 0, 9, 20⟩) := by decide

theorem test_words_alu_3 :
    dec [0b001_00000_01001_10100_0000011_1011_1_00] = .ok (.ctz sr ⟨1, 0, 9, 20⟩) ∧
    dec [0b010_00000_01001_10100_0000011_1011_1_00] = .ok (.popc sr ⟨2, 0, 9, 20⟩) ∧
    dec [0b011_00010_01001_10100_0000011_1011_1_00] = .ok (.ext sr ⟨3, 2, 9, 20⟩) ∧
    dec [0b100_00010_01001_10100_0000011_1011_1_00] = .ok (.ins sr ⟨4, 2, 9, 20⟩) ∧
    dec [0b10100101_01001_10100_0000100_1011_1_00] = .ok (.addi { sr with imm := BitVec.ofInt 64 (-91) } ⟨9, 20⟩) ∧
    dec [0b10100101_01001_10100_0000101_1011_1_00] = .ok (.andi { sr with imm := BitVec.ofInt 64 (-91) } ⟨9, 20⟩) ∧
    dec [0b10100101_01001_10100_0000110_1011_1_00] = .ok (.ori { sr with imm := BitVec.ofInt 64 (-91) } ⟨9, 20⟩) ∧
    dec [0b10100101_01001_10100_0000111_1011_1_00] = .ok (.xori { sr with imm := BitVec.ofInt 64 (-91) } ⟨9, 20⟩) := by decide

theorem test_words_immediate :
    dec [0b00100101_01001_10100_0001000_1011_1_00] = .ok (.slli { sr with imm := BitVec.ofInt 64 (37) } ⟨9, 20⟩) ∧
    dec [0b00100101_01001_10100_0001001_1011_1_00] = .ok (.srli { sr with imm := BitVec.ofInt 64 (37) } ⟨9, 20⟩) ∧
    dec [0b00100101_01001_10100_0001010_1011_1_00] = .ok (.srai { sr with imm := BitVec.ofInt 64 (37) } ⟨9, 20⟩) ∧
    dec [0b10100101_01001_10100_0001011_1011_1_00] = .ok (.slti { sr with imm := BitVec.ofInt 64 (-91) } ⟨9, 20⟩) ∧
    dec [0b1101001011100_10100_0001100_1011_1_00] = .ok (.li { sr with imm := BitVec.ofInt 64 (-1444) } ⟨20⟩) ∧
    dec [0b1101001011100_10100_0001101_1011_1_00] = .ok (.la { sr with imm := BitVec.ofInt 64 (-1444) } ⟨20⟩) ∧
    dec [0b10100101_01001_10100_0001110_1011_1_00] = .ok (.ld { sr with imm := BitVec.ofInt 64 (-91) } ⟨9, 20⟩) ∧
    dec [0b10100101_01001_10100_0001111_1011_1_00] = .ok (.ldu { sr with imm := BitVec.ofInt 64 (-91) } ⟨9, 20⟩) := by decide

theorem test_words_store_branch :
    dec [0b10100101_01001_10100_0010000_1011_1_00] = .ok (.st { sr with imm := BitVec.ofInt 64 (-91) } ⟨9, 20⟩) ∧
    dec [0b10100101_01001_10100_0010001_1011_1_00] = .ok (.ldq { sr with imm := BitVec.ofInt 64 (-91) } ⟨9, 20⟩) ∧
    dec [0b10100101_01001_10100_0010010_1011_1_00] = .ok (.stq { sr with imm := BitVec.ofInt 64 (-91) } ⟨9, 20⟩) ∧
    dec [0b10100101_00010_01001_0010011_1011_1_00] = .ok (.beq { sr with imm := BitVec.ofInt 64 (-91) } ⟨2, 9⟩) ∧
    dec [0b10100101_00010_01001_0010100_1011_1_00] = .ok (.bne { sr with imm := BitVec.ofInt 64 (-91) } ⟨2, 9⟩) ∧
    dec [0b10100101_00010_01001_0010101_1011_1_00] = .ok (.blt { sr with imm := BitVec.ofInt 64 (-91) } ⟨2, 9⟩) ∧
    dec [0b10100101_00010_01001_0010110_1011_1_00] = .ok (.bge { sr with imm := BitVec.ofInt 64 (-91) } ⟨2, 9⟩) ∧
    dec [0b10100101_00010_01001_0010111_1011_1_00] = .ok (.bltu { sr with imm := BitVec.ofInt 64 (-91) } ⟨2, 9⟩) := by decide

theorem test_words_branch_misc :
    dec [0b10100101_00010_01001_0011000_1011_1_00] = .ok (.bgeu { sr with imm := BitVec.ofInt 64 (-91) } ⟨2, 9⟩) ∧
    dec [0b101010010110100101_0011001_1011_1_00] = .ok (.jmp { sr with imm := BitVec.ofInt 64 (-88667) } ⟨⟩) ∧
    dec [0b1101001011100_10100_0011010_1011_1_00] = .ok (.jal { sr with imm := BitVec.ofInt 64 (-1444) } ⟨20⟩) ∧
    dec [0b10100101_01001_10100_0011011_1011_1_00] = .ok (.jalr { sr with imm := BitVec.ofInt 64 (-91) } ⟨9, 20⟩) ∧
    dec [0b1101001011100_10100_0011100_1011_1_00] = .ok (.loop { sr with imm := BitVec.ofInt 64 (-1444) } ⟨20⟩) ∧
    dec [0b1101001011100_10100_0011101_1011_1_00] = .ok (.waitc { sr with imm := BitVec.ofInt 64 (-1444) } ⟨20⟩) ∧
    dec [0b000_00000_00000_00000_0011110_1011_1_00] = .ok (.nop sr ⟨0, 0, 0, 0⟩) ∧
    dec [0b001_00000_01001_00000_0011110_1011_1_00] = .ok (.exit sr ⟨1, 0, 9, 0⟩) := by decide

theorem test_words_setup_vector :
    dec [0b000_00000_01001_10100_0100000_1011_1_00] = .ok (.setvl sr ⟨0, 0, 9, 20⟩) ∧
    dec [0b000_00000_01001_10100_0100001_1011_1_00] = .ok (.setvt sr ⟨0, 0, 9, 20⟩) ∧
    dec [0b00_00000_01001_001010_0100010_1011_1_00] = .ok (.vdecl sr ⟨0, 0, 9, 10⟩) ∧
    dec [0b00_00010_01001_001010_0100011_1011_1_00] = .ok (.vqry sr ⟨0, 2, 9, 10⟩) ∧
    dec [0b100001_010101_001010_0100100_1011_1_00] = .ok (.vadd sr ⟨33, 21, 10⟩) ∧
    dec [0b100001_010101_001010_0100101_1011_1_00] = .ok (.vsub sr ⟨33, 21, 10⟩) ∧
    dec [0b100001_010101_001010_0100110_1011_1_00] = .ok (.vadds sr ⟨33, 21, 10⟩) ∧
    dec [0b100001_010101_001010_0100111_1011_1_00] = .ok (.vsubs sr ⟨33, 21, 10⟩) := by decide

theorem test_words_vector :
    dec [0b100001_010101_001010_0101000_1011_1_00] = .ok (.vmul sr ⟨33, 21, 10⟩) ∧
    dec [0b100001_010101_001010_0101001_1011_1_00] = .ok (.vmulh sr ⟨33, 21, 10⟩) ∧
    dec [0b100001_010101_001010_0101010_1011_1_00] = .ok (.vmac sr ⟨33, 21, 10⟩) ∧
    dec [0b000000_010101_001010_0101011_1011_1_00] = .ok (.vneg sr ⟨0, 21, 10⟩) ∧
    dec [0b000001_010101_001010_0101011_1011_1_00] = .ok (.vabs sr ⟨1, 21, 10⟩) ∧
    dec [0b000010_010101_001010_0101011_1011_1_00] = .ok (.vnot sr ⟨2, 21, 10⟩) ∧
    dec [0b000011_010101_001010_0101011_1011_1_00] = .ok (.vmov sr ⟨3, 21, 10⟩) ∧
    dec [0b000100_010101_001010_0101011_1011_1_00] = .ok (.vclz sr ⟨4, 21, 10⟩) ∧
    dec [0b000101_010101_001010_0101011_1011_1_00] = .ok (.vpopc sr ⟨5, 21, 10⟩) ∧
    dec [0b000110_010101_001010_0101011_1011_1_00] = .ok (.vwide sr ⟨6, 21, 10⟩) ∧
    dec [0b100001_010101_001010_0101100_1011_1_00] = .ok (.vmin sr ⟨33, 21, 10⟩) ∧
    dec [0b100001_010101_001010_0101101_1011_1_00] = .ok (.vmax sr ⟨33, 21, 10⟩) := by decide

theorem test_words_vector_2 :
    dec [0b100001_010101_001010_0101110_1011_1_00] = .ok (.vand sr ⟨33, 21, 10⟩) ∧
    dec [0b100001_010101_001010_0101111_1011_1_00] = .ok (.vor sr ⟨33, 21, 10⟩) := by decide

theorem test_words_bitwise_shift :
    dec [0b100001_010101_001010_0110000_1011_1_00] = .ok (.vxor sr ⟨33, 21, 10⟩) ∧
    dec [0b100001_010101_001010_0110001_1011_1_00] = .ok (.vandn sr ⟨33, 21, 10⟩) ∧
    dec [0b100001_010101_001010_0110010_1011_1_01, 0b00000000_00000000_0000000_111_0_0_0000, 0] = .ok (.vbool (sx 0) ⟨33, 21, 10⟩) ∧
    dec [0b101101_010101_001010_0110011_1011_1_00] = .ok (.vshl { sr with imm := BitVec.ofInt 64 (45) } ⟨21, 10⟩) ∧
    dec [0b101101_010101_001010_0110100_1011_1_00] = .ok (.vshr { sr with imm := BitVec.ofInt 64 (45) } ⟨21, 10⟩) ∧
    dec [0b101101_010101_001010_0110101_1011_1_00] = .ok (.vsra { sr with imm := BitVec.ofInt 64 (45) } ⟨21, 10⟩) ∧
    dec [0b100001_010101_001010_0110110_1011_1_00] = .ok (.vshv sr ⟨33, 21, 10⟩) ∧
    dec [0b100001_010101_001010_0110111_1011_1_01, 0b00000000_00000000_0000000_111_0_0_0000, 0] = .ok (.vcmp (sx 0) ⟨33, 21, 10⟩) := by decide

theorem test_words_pred_reduce :
    dec [0b100001_010101_001010_0111000_1011_1_00] = .ok (.vsel sr ⟨33, 21, 10⟩) ∧
    dec [0b00_00000_01001_001010_0111001_1011_1_00] = .ok (.vsplat sr ⟨0, 0, 9, 10⟩) ∧
    dec [0b00_00000_01001_001010_0111010_1011_1_00] = .ok (.viota sr ⟨0, 0, 9, 10⟩) ∧
    dec [0b100001_010101_001010_0111011_1011_1_00] = .ok (.vlut sr ⟨33, 21, 10⟩) ∧
    dec [0b000000_0011_0101_1001_0111100_1011_1_00] = .ok (.pand sr ⟨0, 3, 5, 9⟩) ∧
    dec [0b000001_0011_0101_1001_0111100_1011_1_00] = .ok (.por sr ⟨1, 3, 5, 9⟩) ∧
    dec [0b000010_0011_0101_1001_0111100_1011_1_00] = .ok (.pxor sr ⟨2, 3, 5, 9⟩) ∧
    dec [0b000011_0000_0101_1001_0111100_1011_1_00] = .ok (.pnot sr ⟨3, 0, 5, 9⟩) ∧
    dec [0b000100_0011_0101_1001_0111100_1011_1_00] = .ok (.pandn sr ⟨4, 3, 5, 9⟩) ∧
    dec [0b000101_0000_0101_1001_0111100_1011_1_00] = .ok (.pcnt sr ⟨5, 0, 5, 9⟩) ∧
    dec [0b000110_0000_0101_1001_0111100_1011_1_00] = .ok (.pfirst sr ⟨6, 0, 5, 9⟩) ∧
    dec [0b000111_0000_0101_1001_0111100_1011_1_00] = .ok (.pset sr ⟨7, 0, 5, 9⟩) := by decide

theorem test_words_pred_reduce_2 :
    dec [0b001000_0000_0101_1001_0111100_1011_1_00] = .ok (.pmov sr ⟨8, 0, 5, 9⟩) ∧
    dec [0b000000_010101_001010_0111101_1011_1_00] = .ok (.vredAdd sr ⟨0, 21, 10⟩) ∧
    dec [0b000001_010101_001010_0111101_1011_1_00] = .ok (.vredMin sr ⟨1, 21, 10⟩) ∧
    dec [0b000010_010101_001010_0111101_1011_1_00] = .ok (.vredMax sr ⟨2, 21, 10⟩) ∧
    dec [0b000011_010101_001010_0111101_1011_1_00] = .ok (.vredMinu sr ⟨3, 21, 10⟩) ∧
    dec [0b000100_010101_001010_0111101_1011_1_00] = .ok (.vredMaxu sr ⟨4, 21, 10⟩) ∧
    dec [0b000101_010101_001010_0111101_1011_1_00] = .ok (.vredAnd sr ⟨5, 21, 10⟩) ∧
    dec [0b000110_010101_001010_0111101_1011_1_00] = .ok (.vredOr sr ⟨6, 21, 10⟩) ∧
    dec [0b000111_010101_001010_0111101_1011_1_00] = .ok (.vredXor sr ⟨7, 21, 10⟩) ∧
    dec [0b000000_010101_001010_0111110_1011_1_00] = .ok (.vscanAdd sr ⟨0, 21, 10⟩) ∧
    dec [0b000001_010101_001010_0111110_1011_1_00] = .ok (.vscanMin sr ⟨1, 21, 10⟩) ∧
    dec [0b000010_010101_001010_0111110_1011_1_00] = .ok (.vscanMax sr ⟨2, 21, 10⟩) := by decide

theorem test_words_pred_reduce_3 :
    dec [0b000011_010101_001010_0111110_1011_1_00] = .ok (.vscanMinu sr ⟨3, 21, 10⟩) ∧
    dec [0b000100_010101_001010_0111110_1011_1_00] = .ok (.vscanMaxu sr ⟨4, 21, 10⟩) ∧
    dec [0b000101_010101_001010_0111110_1011_1_00] = .ok (.vscanAnd sr ⟨5, 21, 10⟩) ∧
    dec [0b000110_010101_001010_0111110_1011_1_00] = .ok (.vscanOr sr ⟨6, 21, 10⟩) ∧
    dec [0b000111_010101_001010_0111110_1011_1_00] = .ok (.vscanXor sr ⟨7, 21, 10⟩) ∧
    dec [0b100001_010101_001010_0111111_1011_1_00] = .ok (.vdot sr ⟨33, 21, 10⟩) := by decide

theorem test_words_permute_float :
    dec [0b100001_010101_001010_1000000_1011_1_00] = .ok (.vperm sr ⟨33, 21, 10⟩) ∧
    dec [0b0_00010_010101_001010_1000001_1011_1_00] = .ok (.vslide sr ⟨0, 2, 21, 10⟩) ∧
    dec [0b000000_010101_001010_1000010_1011_1_01, 0b00000000_00000000_0000000_111_0_0_0000, 0] = .ok (.vxch (sx 0) ⟨0, 21, 10⟩) ∧
    dec [0b0_00010_010101_001010_1000011_1011_1_00] = .ok (.vbcast sr ⟨0, 2, 21, 10⟩) ∧
    dec [0b100001_010101_001010_1000100_1011_1_00] = .ok (.vfadd sr ⟨33, 21, 10⟩) ∧
    dec [0b100001_010101_001010_1000101_1011_1_00] = .ok (.vfsub sr ⟨33, 21, 10⟩) ∧
    dec [0b100001_010101_001010_1000110_1011_1_00] = .ok (.vfmul sr ⟨33, 21, 10⟩) ∧
    dec [0b100001_010101_001010_1000111_1011_1_00] = .ok (.vfma sr ⟨33, 21, 10⟩) := by decide

theorem test_words_float :
    dec [0b100001_010101_001010_1001000_1011_1_00] = .ok (.vfms sr ⟨33, 21, 10⟩) ∧
    dec [0b100001_010101_001010_1001001_1011_1_00] = .ok (.vfnma sr ⟨33, 21, 10⟩) ∧
    dec [0b100001_010101_001010_1001010_1011_1_00] = .ok (.vfdiv sr ⟨33, 21, 10⟩) ∧
    dec [0b000000_010101_001010_1001011_1011_1_00] = .ok (.vfsqrt sr ⟨0, 21, 10⟩) ∧
    dec [0b000001_010101_001010_1001011_1011_1_00] = .ok (.vfclass sr ⟨1, 21, 10⟩) ∧
    dec [0b000010_010101_001010_1001011_1011_1_00] = .ok (.vfcvt sr ⟨2, 21, 10⟩) ∧
    dec [0b000011_010101_001010_1001011_1011_1_00] = .ok (.vftoi sr ⟨3, 21, 10⟩) ∧
    dec [0b000100_010101_001010_1001011_1011_1_00] = .ok (.vitof sr ⟨4, 21, 10⟩) ∧
    dec [0b000101_010101_001010_1001011_1011_1_00] = .ok (.vfred sr ⟨5, 21, 10⟩) ∧
    dec [0b000110_010101_001010_1001011_1011_1_00] = .ok (.vmxq sr ⟨6, 21, 10⟩) ∧
    dec [0b000111_010101_001010_1001011_1011_1_00] = .ok (.vmxd sr ⟨7, 21, 10⟩) ∧
    dec [0b001000_010101_001010_1001011_1011_1_00] = .ok (.vhad sr ⟨8, 21, 10⟩) := by decide

theorem test_words_float_2 :
    dec [0b100001_010101_001010_1001100_1011_1_01, 0b00000000_00000000_0000000_111_0_0_0000, 0] = .ok (.vfmin (sx 0) ⟨33, 21, 10⟩) ∧
    dec [0b100001_010101_001010_1001100_1011_1_01, 0b00000000_00000000_0000001_111_0_0_0000, 0] = .ok (.vfmax (sx 1) ⟨33, 21, 10⟩) ∧
    dec [0b100001_010101_001010_1001100_1011_1_01, 0b00000000_00000000_0000010_111_0_0_0000, 0] = .ok (.vfcmp (sx 2) ⟨33, 21, 10⟩) ∧
    dec [0b100001_010101_001010_1001100_1011_1_01, 0b00000000_00000000_0000011_111_0_0_0000, 0] = .ok (.vfsgn (sx 3) ⟨33, 21, 10⟩) ∧
    dec [0b00_00010_01001_001010_1001101_1011_1_00] = .ok (.vldz sr ⟨0, 2, 9, 10⟩) ∧
    dec [0b00_00010_01001_001010_1001110_1011_1_00] = .ok (.vstz sr ⟨0, 2, 9, 10⟩) := by decide

theorem test_words_matrix :
    dec [0b000_00000_01001_10100_1010000_1011_1_00] = .ok (.mcfg sr ⟨0, 0, 9, 20⟩) ∧
    dec [0b000000_000000_000000_1010001_1011_1_00] = .ok (.mzero sr ⟨0, 0, 0⟩) ∧
    dec [0b100001_010101_000000_1010010_1011_1_01, 0b00000000_00000000_0000000_111_0_0_0000, 0] = .ok (.mop (sx 0) ⟨33, 21, 0⟩) ∧
    dec [0b100001_010101_001010_1010011_1011_1_01, 0b00000000_00000000_0000000_111_0_0_0000, 0] = .ok (.mops (sx 0) ⟨33, 21, 10⟩) ∧
    dec [0b100001_010101_000000_1010100_1011_1_01, 0b00000000_00000000_0000000_111_0_0_0000, 0] = .ok (.mopg (sx 0) ⟨33, 21, 0⟩) ∧
    dec [0b000000_000000_001010_1010101_1011_1_01, 0b00000000_00000000_0000000_111_0_0_0000, 0] = .ok (.mdrain (sx 0) ⟨0, 0, 10⟩) ∧
    dec [0b00_00000_01001_001010_1010110_1011_1_00] = .ok (.mscale sr ⟨0, 0, 9, 10⟩) ∧
    dec [0b00_00000_01001_001010_1010111_1011_1_00] = .ok (.msave sr ⟨0, 0, 9, 10⟩) := by decide

theorem test_words_matrix_seed :
    dec [0b00_00000_01001_001010_1011000_1011_1_00] = .ok (.mrest sr ⟨0, 0, 9, 10⟩) ∧
    dec [0b1101001011100_00000_1011001_1011_1_00] = .ok (.mburst { sr with imm := BitVec.ofInt 64 (-1444) } ⟨0⟩) ∧
    dec [0b000_00000_01001_10100_1011010_1011_1_00] = .ok (.mwait sr ⟨0, 0, 9, 20⟩) ∧
    dec [0b000000_010101_001010_1011011_1011_1_00] = .ok (.sexp sr ⟨0, 21, 10⟩) ∧
    dec [0b100001_010101_001010_1011100_1011_1_00] = .ok (.sfit sr ⟨33, 21, 10⟩) ∧
    dec [0b00_00010_01001_001010_1011101_1011_1_00] = .ok (.sargmin sr ⟨0, 2, 9, 10⟩) ∧
    dec [0b00_00010_01001_001010_1011110_1011_1_01, 0b00000000_00000000_0000000_111_0_0_0000, 0] = .ok (.vgen (sx 0) ⟨0, 2, 9, 10⟩) := by decide

theorem test_words_tile_coach :
    dec [0b00_00000_01001_001010_1100000_1011_1_01, 0b00000000_00000000_0000000_111_0_0_0000, 0] = .ok (.tld (sx 0) ⟨0, 0, 9, 10⟩) ∧
    dec [0b00_00000_01001_001010_1100000_1011_1_01, 0b00000000_00000000_0000001_111_0_0_0000, 0] = .ok (.tst (sx 1) ⟨0, 0, 9, 10⟩) ∧
    dec [0b00_00010_01001_001010_1100000_1011_1_01, 0b00000000_00000000_0000010_111_0_0_0000, 0] = .ok (.tldx (sx 2) ⟨0, 2, 9, 10⟩) ∧
    dec [0b00_00010_01001_001010_1100000_1011_1_01, 0b00000000_00000000_0000011_111_0_0_0000, 0] = .ok (.tstx (sx 3) ⟨0, 2, 9, 10⟩) ∧
    dec [0b00_00010_01001_001010_1100000_1011_1_01, 0b00000000_00000000_0000100_111_0_0_0000, 0] = .ok (.twait (sx 4) ⟨0, 2, 9, 10⟩) ∧
    dec [0b00_00000_00000_001010_1100000_1011_1_01, 0b00000000_00000000_0000101_111_0_0_0000, 0] = .ok (.tclr (sx 5) ⟨0, 0, 0, 10⟩) ∧
    dec [0b00_00010_01001_001010_1100000_1011_1_01, 0b00000000_00000000_0000110_111_0_0_0000, 0] = .ok (.tqry (sx 6) ⟨0, 2, 9, 10⟩) ∧
    dec [0b000_00010_01001_10100_1100001_1011_1_00] = .ok (.binput sr ⟨0, 2, 9, 20⟩) ∧
    dec [0b000_00000_00000_10100_1100010_1011_1_00] = .ok (.binflush sr ⟨0, 0, 0, 20⟩) ∧
    dec [0b000_00010_01001_10100_1100011_1011_1_00] = .ok (.kvapp sr ⟨0, 2, 9, 20⟩) ∧
    dec [0b000_00010_01001_10100_1100100_1011_1_00] = .ok (.retspan sr ⟨0, 2, 9, 20⟩) ∧
    dec [0b000_00000_01001_10100_1100101_1011_1_00] = .ok (.kvpin sr ⟨0, 0, 9, 20⟩) := by decide

theorem test_words_tile_coach_2 :
    dec [0b000_00000_01001_10100_1100110_1011_1_00] = .ok (.kvunpin sr ⟨0, 0, 9, 20⟩) ∧
    dec [0b000_00010_01001_10100_1100111_1011_1_00] = .ok (.kvqryDesc sr ⟨0, 2, 9, 20⟩) ∧
    dec [0b001_00010_01001_10100_1100111_1011_1_00] = .ok (.kvqryPos sr ⟨1, 2, 9, 20⟩) ∧
    dec [0b010_00010_01001_10100_1100111_1011_1_00] = .ok (.kvqryHdr sr ⟨2, 2, 9, 20⟩) ∧
    dec [0b011_00010_01001_10100_1100111_1011_1_00] = .ok (.kvqryCount sr ⟨3, 2, 9, 20⟩) := by decide

theorem test_words_sparse :
    dec [0b0000_00010_01001_0111_1101000_1011_1_00] = .ok (.sld sr ⟨0, 2, 9, 7⟩) ∧
    dec [0b0000_00010_01001_0111_1101001_1011_1_00] = .ok (.sst sr ⟨0, 2, 9, 7⟩) ∧
    dec [0b000000_0100_1010_0111_1101010_1011_1_00] = .ok (.sadd sr ⟨0, 4, 10, 7⟩) ∧
    dec [0b000001_0100_1010_0111_1101010_1011_1_00] = .ok (.ssub sr ⟨1, 4, 10, 7⟩) ∧
    dec [0b000010_0100_1010_0111_1101010_1011_1_00] = .ok (.smul sr ⟨2, 4, 10, 7⟩) ∧
    dec [0b000011_0100_1010_0111_1101010_1011_1_00] = .ok (.smax sr ⟨3, 4, 10, 7⟩) ∧
    dec [0b000100_0100_1010_0111_1101010_1011_1_00] = .ok (.sscale sr ⟨4, 4, 10, 7⟩) ∧
    dec [0b0000_00010_01001_0111_1101011_1011_1_00] = .ok (.sdot sr ⟨0, 2, 9, 7⟩) ∧
    dec [0b00000000_100101_0111_1101100_1011_1_00] = .ok (.sxpand sr ⟨0, 37, 7⟩) ∧
    dec [0b00000000_100101_0111_1101101_1011_1_00] = .ok (.spack sr ⟨0, 37, 7⟩) ∧
    dec [0b0000_00010_01001_0111_1101110_1011_1_00] = .ok (.shacc sr ⟨0, 2, 9, 7⟩) ∧
    dec [0b0000_00010_00000_0111_1101111_1011_1_00] = .ok (.slen sr ⟨0, 2, 0, 7⟩) := by decide

theorem test_words_atomic_sync :
    dec [0b00_1_00010_01001_10100_1110000_1011_1_00] = .ok (.amoAdd sr ⟨0, 1, 2, 9, 20⟩) ∧
    dec [0b01_1_00010_01001_10100_1110000_1011_1_00] = .ok (.amoAnd sr ⟨1, 1, 2, 9, 20⟩) ∧
    dec [0b10_1_00010_01001_10100_1110000_1011_1_00] = .ok (.amoOr sr ⟨2, 1, 2, 9, 20⟩) ∧
    dec [0b11_1_00010_01001_10100_1110000_1011_1_00] = .ok (.amoXor sr ⟨3, 1, 2, 9, 20⟩) ∧
    dec [0b00_1_00010_01001_10100_1110001_1011_1_00] = .ok (.amoMin sr ⟨0, 1, 2, 9, 20⟩) ∧
    dec [0b01_1_00010_01001_10100_1110001_1011_1_00] = .ok (.amoMax sr ⟨1, 1, 2, 9, 20⟩) ∧
    dec [0b10_1_00010_01001_10100_1110001_1011_1_00] = .ok (.amoMinu sr ⟨2, 1, 2, 9, 20⟩) ∧
    dec [0b11_1_00010_01001_10100_1110001_1011_1_00] = .ok (.amoMaxu sr ⟨3, 1, 2, 9, 20⟩) ∧
    dec [0b00_1_00010_01001_10100_1110010_1011_1_00] = .ok (.amocas sr ⟨0, 1, 2, 9, 20⟩) ∧
    dec [0b01_1_00010_01001_10100_1110010_1011_1_00] = .ok (.amoSwap sr ⟨1, 1, 2, 9, 20⟩) ∧
    dec [0b00_0_00010_01001_10100_1110011_1011_1_00] = .ok (.amofFp32 sr ⟨0, 0, 2, 9, 20⟩) ∧
    dec [0b01_0_00010_01001_10100_1110011_1011_1_00] = .ok (.amofFp64 sr ⟨1, 0, 2, 9, 20⟩) := by decide

theorem test_words_atomic_sync_2 :
    dec [0b10_0_00010_01001_10100_1110011_1011_1_00] = .ok (.amofBf16 sr ⟨2, 0, 2, 9, 20⟩) ∧
    dec [0b00_0_00010_01001_00000_1110100_1011_1_00] = .ok (.amox sr ⟨0, 0, 2, 9, 0⟩) ∧
    dec [0b01_0_00010_01001_10100_1110100_1011_1_00] = .ok (.amoxrFp32 sr ⟨1, 0, 2, 9, 20⟩) ∧
    dec [0b10_0_00010_01001_10100_1110100_1011_1_00] = .ok (.amoxrFp64 sr ⟨2, 0, 2, 9, 20⟩) ∧
    dec [0b1_0110_010_00010_01001_1110101_1011_1_00] = .ok (.fencer sr ⟨1, 6, 2, 2, 9⟩) ∧
    dec [0b0_0110_010_00000_00000_1110110_1011_1_00] = .ok (.fence sr ⟨0, 6, 2, 0, 0⟩) ∧
    dec [0b000_00010_01001_10100_1110111_1011_1_00] = .ok (.waitm sr ⟨0, 2, 9, 20⟩) ∧
    dec [0b001_00000_00000_00000_1110111_1011_1_00] = .ok (.gbar sr ⟨1, 0, 0, 0⟩) ∧
    dec [0b010_00000_00000_00000_1110111_1011_1_00] = .ok (.etrig sr ⟨2, 0, 0, 0⟩) ∧
    dec [0b011_00010_01001_10100_1110111_1011_1_00] = .ok (.glaunch sr ⟨3, 2, 9, 20⟩) ∧
    dec [0b100_00010_01001_10100_1110111_1011_1_00] = .ok (.gqry sr ⟨4, 2, 9, 20⟩) := by decide

theorem test_words_system :
    dec [0b000000010000_0_10100_1111000_1011_1_00] = .ok (.csrr sr ⟨16, 0, 20⟩) ∧
    dec [0b000000010001_0_10100_1111001_1011_1_00] = .ok (.csrw sr ⟨17, 0, 20⟩) ∧
    dec [0b000000010000_0_10100_1111010_1011_1_00] = .ok (.csrs sr ⟨16, 0, 20⟩) ∧
    dec [0b000000010000_0_10100_1111011_1011_1_00] = .ok (.csrc sr ⟨16, 0, 20⟩) ∧
    dec [0b1101001011100_00000_1111100_1011_1_00] = .ok (.trap { sr with imm := BitVec.ofInt 64 (-1444) } ⟨0⟩) ∧
    dec [0b000_00000_00000_00000_1111101_1011_1_00] = .ok (.rte sr ⟨0, 0, 0, 0⟩) ∧
    dec [0b001_00000_00000_00000_1111101_1011_1_00] = .ok (.brk sr ⟨1, 0, 0, 0⟩) ∧
    dec [0b010_00000_00000_00000_1111101_1011_1_00] = .ok (.yield sr ⟨2, 0, 0, 0⟩) ∧
    dec [0b000000000000000011_1111111_0000_0_00] = .ok (.pool ctl ⟨3⟩) := by decide

/-! The extended forms: ROWB, ROWA, MIN, RMO, OVR, Z, PRED; then E2 (R131 to R133). -/

theorem test_words_extended :
    dec [0b000011_000010_000001_0100100_0000_0_01, 0b00000000_00000000_0000000_111_1_1_0101,
      0b00_0001110001_0000110000_1111111111] =
      .ok (.vadd { ctl with form := .ext, pred := 5, z := true, ovr := some ⟨0x3ff, 0x030, 0x071⟩ } ⟨3, 2, 1⟩) ∧
    dec [0b000011_000010_000001_1000100_0000_0_01, 0b00000000_00000000_0000000_101_0_0_0000, 0] =
      .ok (.vfadd { ctl with form := .ext, rmo := 5 } ⟨3, 2, 1⟩) ∧
    dec [0b000010_000001_000000_1010010_0000_0_01, 0b00000111_00001001_0000000_111_0_0_0000, 3] =
      .ok (.mop { ctl with form := .ext, rowa := 9, rowb := 7, imm := 3 } ⟨2, 1, 0⟩) ∧
    dec [0b00000000_00001_00010_0000100_0000_0_01, 0b00000000_00000000_0000000_111_0_0_0000, 0xfffffffe] =
      .ok (.addi { ctl with form := .ext, imm := 0xfffffffffffffffe } ⟨1, 2⟩) := by decide

theorem test_words_literals :
    dec [0b00000000_00001_00010_0000100_0000_0_10, 0x89abcdef, 0x01234567] =
      .ok (.addi { ctl with form := .lit, imm := 0x0123456789abcdef } ⟨1, 2⟩) ∧
    dec [0b00000000_00001_00010_0000100_0000_0_11, 0b00000000_00000000_0000000_111_0_0_0000, 0, 7, 8] =
      .ok (.addi { ctl with form := .extLit, imm := 0x800000007 } ⟨1, 2⟩) := by decide

/-- R363: an unassigned major; a form that an E major does not have; unassigned minors; reserved fields; forbidden registers; CSRs;
ranges; and words that are still missing. -/
theorem test_illegal_words :
    dec [0x00000f80] = .illegal 1 ∧ dec [0b00_00000_01001_001010_1100000_0000_0_00] = .illegal 2 ∧
    dec [0b101_00010_00001_00011_0000011_0000_0_00] = .illegal 3 ∧ dec [0b011_00000_00000_00000_0011110_0000_0_00] = .illegal 3 ∧
    dec [0b000_00001_00001_00011_0000011_0000_0_00] = .illegal 4 ∧
    dec [0b000_00010_00001_00011_0000000_0000_0_01, 0b00000000_00000000_0000000_110_0_0_0000, 0] = .illegal 4 ∧
    dec [0b000_00010_00001_00011_0000000_0000_0_10, 0, 0] = .illegal 4 ∧
    dec [0b00000000_00001_00011_0010001_0000_0_00] = .illegal 5 ∧ dec [0b000000000000_0_00001_1111001_0000_0_00] = .illegal 6 ∧
    dec [0b000111_0000_0110_0001_0111100_0000_0_00] = .illegal 8 ∧ dec [0b01] = .short 3 := by decide

/-- One ill-formed term for each static test, which WellFormed refuses, beside a well-formed one. -/
theorem test_well_formed_smoke :
    (Instr.tld ctl ⟨0, 0, 2, 1⟩).wellFormed = false ∧ illegalCode (.tld ctl ⟨0, 0, 2, 1⟩) = some 2 ∧
    illegalCode (.add ctl ⟨1, 2, 1, 3⟩) = some 3 ∧ illegalCode (.add { ctl with pred := 1 } ⟨0, 2, 1, 3⟩) = some 4 ∧
    illegalCode (.addi { ctl with imm := 128 } ⟨1, 3⟩) = some 4 ∧ illegalCode (.clz ctl ⟨0, 1, 1, 3⟩) = some 4 ∧
    illegalCode (.ldq ctl ⟨1, 3⟩) = some 5 ∧ illegalCode (.loop ctl ⟨0⟩) = some 5 ∧ illegalCode (.pand ctl ⟨0, 1, 2, 0⟩) = some 5 ∧
    illegalCode (.csrr ctl ⟨0x046, 0, 1⟩) = some 6 ∧ illegalCode (.csrw ctl ⟨0x000, 0, 1⟩) = some 6 ∧
    illegalCode (.pset ctl ⟨7, 0, 6, 1⟩) = some 8 ∧ illegalCode (.fence ctl ⟨0, 4, 5, 0, 0⟩) = some 8 ∧
    (Instr.add ctl ⟨0, 2, 1, 3⟩).wellFormed = true := by decide

/-! Witnesses: for each statement with hypotheses, a state and operands that meet them, clause by clause, at values where clauses meet. -/

/-- A cluster without tile buffers checks nothing. -/
theorem no_checks {s : State} (h : s.bufs = []) (cl lo hi n : Nat) : checks s cl lo hi n = false := by
  simp [checks, bufAt, h, TileBuf.init, TileBuf.en]

def trapping : State := { dev with h := { dev.h with csr := { dev.h.csr with tvec := 0x1000 } } }
def inHandler : State := { trapping with h := { trapping.h with csr := { trapping.h.csr with status := 4 } } }

theorem trapping_ready : HandlerReady trapping := ⟨by decide +kernel, by decide +kernel⟩

theorem no_moves {s : State} (h : s.h.strip = []) (h' : s.h.stripReads = []) : NoTileMoves s := by
  simp [NoTileMoves, h, h']

theorem witness_ScalarControlFlow :
    let s := withX dev [(1, 8), (2, 6)]
    (BitVec.ofInt 64 ((rx s 1).toNat + ctl.imm.toInt)).toNat % 4 = 0 ∧ (BitVec.ofInt 64 ((rx s 2).toNat + ctl.imm.toInt)).toNat % 4 ≠ 0 ∧
    (⟨1⟩ : XL).xd ≠ 0 := by decide +kernel

theorem witness_TrapAndInterruptEntry :
    HandlerReady trapping ∧ ¬HandlerReady dev ∧ ¬HandlerReady inHandler ∧ (findGang dev dev.h.gang).isSome = true ∧
    (1 ≤ (1 : BitVec 8).toNat ∧ (10 : BitVec 8).toNat ≤ 10 ∧ 10 < (11 : BitVec 8).toNat) ∧
    (∃ (s : State) (q : Irq), s.h.irqs = q :: [] ∧ s.h.csr.status.getLsbD 0 = true ∧ s.h.csr.status.getLsbD 2 = false) ∧
    (∃ (s : State) (q : Irq), s.h.irqs = q :: [] ∧ s.h.csr.status.getLsbD 0 = false) ∧ ∃ (s : State) (q : Irq), s.h.irqs = q :: [] ∧ s.h.csr.status.getLsbD 2 = true :=
  ⟨trapping_ready, fun h => h.2 (by decide +kernel), fun h => absurd h.1 (by decide +kernel), by decide +kernel, by decide,
   ⟨{ dev with h := { dev.h with irqs := [⟨0x20, 1, 0⟩], csr := { dev.h.csr with status := 1 } } }, ⟨0x20, 1, 0⟩, by decide +kernel⟩,
   ⟨{ dev with h := { dev.h with irqs := [⟨0x20, 1, 0⟩] } }, ⟨0x20, 1, 0⟩, by decide +kernel⟩,
   ⟨{ dev with h := { dev.h with irqs := [⟨0x20, 1, 0⟩], csr := { dev.h.csr with status := 5 } } }, ⟨0x20, 1, 0⟩, by decide +kernel⟩⟩

theorem witness_TrapBreakReturnPool :
    HandlerReady trapping ∧ inHandler.h.csr.status.getLsbD 2 = true ∧ dev.h.csr.status.getLsbD 2 = false ∧
    (myGang dev).haltOnBreak = false ∧ (myGang { dev with gangs := [{ gang with haltOnBreak := true }] }).haltOnBreak = true :=
  ⟨trapping_ready, by decide +kernel⟩

theorem witness_CsrResults :
    ((⟨0x010, 0, 1⟩ : C).csr.toNat, dev.h.csr.fcsr) = (0x010, dev.h.csr.fcsr) ∧ Loc.flags ∉ dev.h.hot ∧ ctl.rp = false ∧
    ((0x024 : Nat), dev.h.csr.rpc) ∈ [(0x023, BitVec.ofNat 64 dev.cyc), (0x024, dev.h.csr.rpc)] ∧
    (⟨0x010, 0, 1⟩ : C).csr.toNat ∈ [0x005, 0x007, 0x010, 0x011, 0x021, 0x040, 0x041, 0x042, 0x043, 0x044, 0x045] ∧
    (⟨0x045, 0, 1⟩ : C).csr.toNat ∈ [0x005, 0x007, 0x010, 0x011, 0x021, 0x040, 0x041, 0x042, 0x043, 0x044, 0x045] := by decide +kernel

/-- X1 addresses the last dword of the own scratchpad, X2 the first of die 0's, X3 the last of it; X4 is misaligned, X5 lies between
windows, X6 in a die outside the partition. -/
def devA : State := withX dev [(1, 0xfffff8), (2, 0x10000000), (3, 0x13fffff0), (4, 4), (5, 0x1000000), (6, 0x14000000), (7, 0)]

theorem loads_ready {s : State} {ea : Word} {n g : Nat} (hb : s.bufs = []) (hp : s.poisonWord = []) (h1 : ea.toNat % n = 0)
    (h2 : scratchAddr s ea.toNat = some g) (h3 : NoTileMoves s) : LoadReady s ea n g :=
  ⟨h1, h2, h3, fun b h => absurd h (by rw [no_checks hb]; decide), fun k _ => by rw [hp]; rfl⟩

theorem witness_ScalarLoadsAndStores :
    LoadReady devA 0xfffff8 8 (2 ^ 40 + 0xfffff8) ∧ LoadReady devA 0x10000000 16 (2 ^ 41) ∧
    LoadReady devA 0x13fffff0 16 (2 ^ 41 + 0x3fffff0) ∧ NoTileMoves devA ∧ (rx devA 1).toNat % 8 = 0 ∧
    scratchAddr devA (rx devA 1).toNat = some (2 ^ 40 + 0xfffff8) ∧ (rx devA 3).toNat % 16 = 0 ∧
    scratchAddr devA (rx devA 3).toNat = some (2 ^ 41 + 0x3fffff0) :=
  ⟨loads_ready rfl rfl (by decide +kernel) (by decide +kernel) (no_moves rfl rfl), loads_ready rfl rfl (by decide +kernel) (by decide +kernel) (no_moves rfl rfl),
   loads_ready rfl rfl (by decide +kernel) (by decide +kernel) (no_moves rfl rfl), no_moves rfl rfl, by decide +kernel, by decide +kernel, by decide +kernel, by decide +kernel⟩

/-- Buffer 1 of cluster 0 holds one landed chunk at 512 whose tag is not the one expected. -/
def devB : State := { trapping with bufs := [(1, { TileBuf.init with cfg := 0x0007000080000001, ltag := 6, landed := 1 })] }

theorem devB_checks_one (k : Nat) (h : k < 1) : checks devB 0 512 520 k = false := by
  have : k = 0 := by omega
  subst this; decide

theorem witness_ScalarFaultsAndErrorResponses :
    (rx devA 4).toNat % 8 ≠ 0 ∧ (rx devA 4).toNat % 16 ≠ 0 ∧
    (HandlerReady devB ∧ (512 : Word).toNat % 16 = 0 ∧ (512 : Word).toNat < 2 ^ 24 ∧ checks devB 0 512 520 1 = true ∧
      tagGood devB 0 1 = false ∧ ∀ k, k < 1 → checks devB 0 512 520 k = true → tagGood devB 0 k = true) ∧
    (let s : State := { devA with poisonWord := [(2 ^ 37 + 1, true)] }
     scratchAddr s 8 = some (2 ^ 40 + 8) ∧ (∀ b, checks s 0 8 16 b = false) ∧ sget false s.poisonWord ((2 ^ 40 + 8) / 8) = true) ∧
    (rx devA 5).toNat % 16 = 0 ∧ badKind devA (rx devA 5).toNat = some 1 ∧ badKind devA (rx devA 6).toNat = some 2 :=
  ⟨by decide +kernel, by decide +kernel,
   ⟨⟨by decide +kernel, by decide +kernel⟩, by decide +kernel, by decide +kernel, by decide +kernel, by decide +kernel, fun k h c => by rw [devB_checks_one k h] at c; cases c⟩,
   ⟨by decide +kernel, fun b => no_checks rfl _ _ _ b, by decide +kernel⟩, by decide +kernel, by decide +kernel, by decide +kernel⟩

theorem witness_RegisterWindowsAndApertures :
    [(0x20000000 : Word), 0x20003ff8, 0x20010000, 0x20010008, 0x20010080, 0x20013ff8, 0x20020000].all (fun a => a.toNat % 8 == 0) = true ∧
    (0x20003ff0 : Word).toNat % 16 = 0 ∧
    (let line := (List.range 8).map (fun k => sget 0 devA.templates k)
     (0x20020000 : Word).toNat % 16 = 0 ∧ (line.headD 0).toNat % 16 ≠ 3 ∧ (devA.copies.filter (fun q => q.chan == 0)).length < 5) ∧
    ∃ q : Copy, let s : State := { devA with copies := List.replicate 5 q }
      5 ≤ (s.copies.filter (fun q => q.chan == 0)).length :=
  ⟨by decide +kernel, by decide +kernel, by decide +kernel,
   ⟨0, 0, 1, 0, 0, 0, 0, [], 0, 0, 0, 0, 0, 0, csrs, 0, false, false, [], [], none, 0, 0, none, [], false, 0, false⟩, by decide +kernel⟩
/-! The vector. -/

theorem sound {s : State} (hf : s.fencedRows = []) (h1 : 0 < s.h.csr.fold) (h2 : 0 < s.h.csr.rlen)
    (h3 : s.h.csr.fold * s.h.csr.rlen ≤ 1024) (h4 : 0 < s.h.csr.rows) (h5 : s.h.csr.rows ≤ 256) : GrantSound s := by
  refine ⟨h1, h2, h3, h4, fun k _ i hi => ?_⟩
  simp only [physRow, hf, List.all_nil, if_true]
  exact ⟨by omega, fun j _ e => e⟩

theorem granted {s : State} (h : s.h.csr = { csrs with vtype := s.h.csr.vtype }) (hf : s.fencedRows = []) : Granted s := by
  have h1 : s.h.csr.fold = 1 := by rw [h]; rfl
  have h2 : s.h.csr.rlen = 16 := by rw [h]; rfl
  have h3 : s.h.csr.rows = 2 := by rw [h]; rfl
  have h4 : s.h.csr.tiles = 1 := by rw [h]; rfl
  have h5 : s.h.csr.vl = 20 := by rw [h]; rfl
  exact Or.inr ⟨sound hf (by omega) (by omega) (by rw [h1, h2]; decide) (by omega) (by omega), by rw [h2, h3, h4, h5]; decide⟩

/-- The registers are declared wide enough and resident. -/
def usableB (s : State) (ops : List (BitVec 6 × Nat)) : Bool :=
  ops.all (fun o => (vreg s o.1.toNat).kind == 1 && decide (o.2 ≤ (vreg s o.1.toNat).width) &&
    (match (vreg s o.1.toNat).first with
     | some p => decide (p + dOf s o.2 ≤ 256)
     | none => false)) &&
  decide (planesOf s ((List.range 64).filter (fun n => ops.any (fun o => o.1.toNat == n))) ≤ 232)

theorem usable {s : State} {ops : List (BitVec 6 × Nat)} (h : usableB s ops = true) : Usable s ops := by
  simp only [usableB, Bool.and_eq_true, List.all_eq_true, decide_eq_true_eq, beq_iff_eq] at h
  refine ⟨fun o ho => ⟨(h.1 o ho).1.1, (h.1 o ho).1.2, ?_⟩, h.2⟩
  have := (h.1 o ho).2
  split at this
  · exact ⟨_, by assumption, by simpa using this⟩
  · simp at this

/-- VTYPE holds integers of 16 and 8 bits; V1 and V2 are sources, V3 the destination. -/
def devI : State := vdev i16 u8 i16
def devF : State := vdev fp16 fp16 fp16
def v3 : V3 := ⟨2, 1, 3⟩

theorem witness_VectorElementwiseResults :
    IntOp ctl devI .a ∧ IntOp ctl devI .b ∧ IntOp ctl devI .d ∧ Usable devI [(v3.va, 16), (v3.vb, 8), (v3.vd, 16)] ∧
    Granted devI ∧ Usable devI [(v3.va, 16), (v3.vd, 16)] ∧ Usable devI [(v3.vd, 16)] ∧ (vreg devI 3).width = 16 ∧
    devI.poisonLane = [] :=
  ⟨⟨by decide +kernel, by decide +kernel⟩, ⟨by decide +kernel, by decide +kernel⟩, ⟨by decide +kernel, by decide +kernel⟩,
   usable (by decide +kernel), granted rfl rfl, usable (by decide +kernel), usable (by decide +kernel), by decide +kernel, rfl⟩

theorem witness_SelectLookupAndPredicateResults :
    Usable devI [(v3.vb, 8), (v3.vd, 16)] ∧ (vreg devI 6).kind = 2 ∧ 16 ≤ (vreg devI 6).width ∧ (vreg devI 6).first = some 120 ∧
    planesOf devI ((List.range 64).filter (fun n => [6, 2, 3].any (fun m => m == n))) ≤ 232 ∧ Loc.v 6 ∉ devI.h.hot ∧
    Usable devI [(v3.va, 16), (v3.vb, 8)] ∧ (⟨7, 0, 5, 1⟩ : P3).pa.toNat < 6 ∧ devI.poisonLane = [] :=
  ⟨usable (by decide +kernel), by decide +kernel, by decide +kernel, by decide +kernel, by decide +kernel, by decide +kernel,
   usable (by decide +kernel), by decide +kernel, rfl⟩

theorem witness_ReductionAndScanResults :
    devI.poisonLane = [] ∧ Granted devI ∧ devI.h.csr.fold = 1 ∧ IntOp ctl devI .a ∧ IntOp ctl devI .d ∧
    Usable devI [(v3.va, 16), (v3.vd, 16)] ∧ Usable devI [(v3.va, 16), (v3.vb, 8), (v3.vd, 16)] :=
  ⟨rfl, granted rfl rfl, rfl, ⟨by decide +kernel, by decide +kernel⟩, ⟨by decide +kernel, by decide +kernel⟩,
   usable (by decide +kernel), usable (by decide +kernel)⟩

theorem witness_PermuteResults :
    Granted devI ∧ (descOf ctl devI .a).wf = true ∧ (descOf ctl devI .d).wf = true ∧ Usable devI [(v3.va, 16), (v3.vd, 16)] ∧
    15 + (0 + 1) ≤ dOf devI 16 ∧ (vreg devI 1).first = some 40 ∧ (vreg devI 3).first = some 72 ∧
    devI.h.hot = [] :=
  ⟨granted rfl rfl, by decide +kernel, by decide +kernel, usable (by decide +kernel), by decide +kernel, by decide +kernel,
   by decide +kernel, rfl⟩

theorem witness_FloatResults :
    FpOp ctl devF .a ∧ FpOp ctl devF .b ∧ FpOp ctl devF .d ∧ Granted devF ∧ Usable devF [(v3.va, 16), (v3.vb, 16), (v3.vd, 16)] ∧
    Usable devF [(v3.va, 16), (v3.vd, 16)] ∧ Usable devF [(v3.va, 16), (v3.vb, 16)] ∧ (descOf ctl devF .d).fmt = (descOf ctl devF .a).fmt ∧
    (7 : Word).toNat % 16 < 8 ∧ (2 : Word).toNat % 16 < 3 ∧
    (let s := vdev fp16 fp16 i16
     FpOp ctl s .a ∧ IntOp ctl s .d ∧ Usable s [(v3.va, 16), (v3.vd, 16)]) ∧
    (let s := vdev i16 fp16 fp16
     IntOp ctl s .a ∧ FpOp ctl s .d ∧ Usable s [(v3.va, 16), (v3.vd, 16)]) :=
  ⟨⟨by decide +kernel, by decide +kernel⟩, ⟨by decide +kernel, by decide +kernel⟩, ⟨by decide +kernel, by decide +kernel⟩,
   granted rfl rfl, usable (by decide +kernel), usable (by decide +kernel), usable (by decide +kernel), by decide +kernel,
   by decide +kernel, by decide +kernel,
   ⟨⟨by decide +kernel, by decide +kernel⟩, ⟨by decide +kernel, by decide +kernel⟩, usable (by decide +kernel)⟩,
   ⟨⟨by decide +kernel, by decide +kernel⟩, ⟨by decide +kernel, by decide +kernel⟩, usable (by decide +kernel)⟩⟩

theorem witness_FloatOperationsExact :
    (FVal.fin false 3 (-1) false).IsRat (3 / 2) ∧ (FVal.fin true 0 0 false).IsRat 0 ∧ (FVal.fin true 1 0 false).IsRat (-1) :=
  ⟨⟨false, 3, -1, rfl, by norm_num⟩, ⟨true, 0, 0, rfl, by norm_num⟩, ⟨true, 1, 0, rfl, by norm_num⟩⟩

theorem witness_RoundingIsNearestAndExact :
    fp16.wf = true ∧ 2 ≤ fp16.fmt ∧ fp16.fmt ≤ 7 ∧ 0x3c00 < 2 ^ fp16.w ∧ decodeFloat fp16.fmt 0x3c00 = .fin false 1024 (-10) false ∧
    (decodeFloat fp16.fmt 0x3c00).IsRat 1 ∧ (decodeFloat fp16.fmt (fitFloat fp16.fmt 0 0 (.fin false 1 0 false)).1).IsRat 1 := by
  have e : decodeFloat fp16.fmt 0x3c00 = .fin false 1024 (-10) false := by decide +kernel
  have f : (fitFloat fp16.fmt 0 0 (.fin false 1 0 false)).1 = 0x3c00 := by decide +kernel
  exact ⟨by decide, by decide, by decide, by decide, e, ⟨false, 1024, -10, e, by norm_num⟩,
    ⟨false, 1024, -10, by rw [f, e], by norm_num⟩⟩

theorem witness_MicroscalingAndHadamard :
    (let s := vdev fp16 fp16 ⟨13, 8, false, 0⟩
     FpOp ctl s .a ∧ (descOf ctl s .d).wf = true ∧ (descOf ctl s .d).fmt = 13 ∧ Usable s [(1, 16), (3, 8), (4, 8)] ∧ Granted s ∧
     (4 : BitVec 6) ≠ 3 ∧ (4 : BitVec 6) ≠ 1 ∧ (vreg s 3).first = some 72 ∧ (vreg s 4).first = some 88 ∧ 72 + dOf s 8 ≤ 88) ∧
    (let s := vdev ⟨10, 4, false, 0⟩ fp16 fp16
     (descOf ctl s .a).wf = true ∧ (descOf ctl s .a).fmt = 10 ∧ FpOp ctl s .d ∧ Usable s [(1, 4), (3, 16), (4, 8)]) ∧
    devI.h.csr.rlen % 16 = 0 ∧ IntOp ctl devI .a ∧ IntOp ctl devI .d ∧ FpOp ctl devF .a ∧ FpOp ctl devF .d ∧
    Usable devF [(v3.va, 16), (v3.vd, 16)] :=
  ⟨⟨⟨by decide +kernel, by decide +kernel⟩, by decide +kernel, by decide +kernel, usable (by decide +kernel), granted rfl rfl,
    by decide +kernel, by decide +kernel, by decide +kernel, by decide +kernel, by decide +kernel⟩,
   ⟨by decide +kernel, by decide +kernel, ⟨by decide +kernel, by decide +kernel⟩, usable (by decide +kernel)⟩, rfl,
   ⟨by decide +kernel, by decide +kernel⟩, ⟨by decide +kernel, by decide +kernel⟩, ⟨by decide +kernel, by decide +kernel⟩,
   ⟨by decide +kernel, by decide +kernel⟩, usable (by decide +kernel)⟩

/-- No element is active, one is, and two neighbours of one pair are. -/
theorem witness_FloatReductionResults :
    devF.poisonLane = [] ∧ FpOp ctl devF .a ∧ FpOp ctl devF .d ∧ Usable devF [(v3.va, 16), (v3.vd, 16)] ∧ Granted devF ∧
    (List.range 1).filter (fun e => predBit devF 0 e) = [0] ∧ (List.range 2).filter (fun e => predBit devF 0 e) = [0, 0 + 1] ∧
    (List.range 2).filter (fun e => predBit devF 1 e) = [] ∧ 0 % (devF.h.csr.rlen * devF.h.csr.rows) + 1 < devF.h.csr.rlen * devF.h.csr.rows :=
  ⟨rfl, ⟨by decide +kernel, by decide +kernel⟩, ⟨by decide +kernel, by decide +kernel⟩, usable (by decide +kernel), granted rfl rfl,
   by decide +kernel, by decide +kernel, by decide +kernel, by decide +kernel⟩

/-- An ill-formed descriptor of VTYPE; an ill-formed override; a format not accepted; a table, a register too narrow, an undeclared
register; and VLUT with a table of 232 planes. -/
def tableDev : State :=
  { devI with h := { devI.h with regs := devI.h.regs.set 6 { VReg.undeclared with kind := 2, wm := 15, entm := 13, first := some 24 } } }

theorem witness_VectorFormatAndBudgetTraps :
    (descOf ctl (vdev ⟨15, 16, false, 0⟩ u8 i16) .a).wf = false ∧ (ovrOf ctl .a).isSome = false ∧
    (let c : Ctl := { ext with ovr := some ⟨0x00f, 0x3ff, 0x3ff⟩ }
     (ovrOf c .a).isSome = true ∧ (descOf c devI .a).wf = false ∧ (descOf c devI .b).wf = true ∧ (descOf c devI .d).wf = true) ∧
    ¬(descOf ctl devF .a).fmt < 2 ∧ (descOf ctl devI .a).fmt < 2 ∧ (descOf ctl devI .b).fmt < 2 ∧ (descOf ctl devI .d).fmt < 2 ∧
    ((vreg devI 6).kind ≠ 0 ∧ (vreg devI 6).kind = 2) ∧ (vreg devI 8).kind = 0 ∧
    (let s := vdev ⟨1, 17, true, 0⟩ u8 i16
     (vreg s 1).kind ≠ 0 ∧ (vreg s 1).width < (descOf ctl s .a).w) ∧
    ((vreg tableDev 6).kind = 2 ∧ (descOf ctl tableDev .a).w ≤ (vreg tableDev 6).width ∧
      232 < planesOf tableDev ((List.range 64).filter (fun n => [6, 2, 3].any (fun m => m == n)))) := by
  decide +kernel
theorem grant_sound : GrantSound devI :=
  (granted rfl rfl : Granted devI).resolve_left (by decide +kernel) |>.1

theorem runs_before : ∀ q < 152, 24 ≤ q → ∃ k < 16, planeTaken devI (q + k) = true := by decide +kernel

/-- A copy of hart 0 of gang 1 from `template` entry 0 of kind `k`, with the vector register `v` in dword 3 for PLANES. -/
def copyOf (k v : Word) : Copy :=
  ⟨0, 0, 1, 0, 0, 3, 0, [k, 0, 0, v], 0, 0, 0, 0, 0, 0, csrs, 0, false, false, [], [], none, 0, 0, none, [], false, 0, false⟩

theorem witness_SwapAndSetvl :
    ([1, 2].all (fun r => (vreg devI r).first.isSome) = true) ∧
    (GrantSound devI ∧ (vreg devI 7).first = none ∧ (vreg devI 7).fresh = true ∧
      (vreg devI 7).planes devI.h.csr.fold +
        ((List.range 64).map (fun m => if (vreg devI m).first.isSome then (vreg devI m).planes devI.h.csr.fold else 0)).sum ≤ 232 ∧
      (∀ k < 16, planeTaken devI (152 + k) = false) ∧ ∀ q < 152, 24 ≤ q → ∃ k < 16, planeTaken devI (q + k) = true) ∧
    RowsDistinct devI ∧ rowsStale devI = false ∧
    (let s : State := { withX devI [(1, 0x0002000100020010)] with copies := [copyOf 3 0] }
     (rx s 1).toNat / 2 ^ 48 % 16 ≠ s.h.csr.fold ∧ s.copies.any (fun x => x.gang == 1 && x.hart == 0 && (x.tmpl.getD 0 0).toNat % 16 == 3) = true) ∧
    (let s : State := { dev with h := { dev.h with regs := Vector.replicate 64 VReg.undeclared } }
     (List.range 64).all (fun n => (vreg s n).first.isNone) = true ∧ s.copies = [] ∧ rowsStale s = false) :=
  ⟨by decide +kernel, ⟨grant_sound, by decide +kernel, by decide +kernel, by decide +kernel, by decide +kernel, runs_before⟩,
   grant_sound.2.2.2.2, by decide +kernel, by decide +kernel, by decide +kernel⟩

/-- X1 declares V1 anew at 16 bits, X2 a register of a reserved kind, X3 a table of 256 planes, X4 none. -/
def declDev : State := withX dev [(1, 0x400f), (2, 0xc000), (3, 0xf800f), (4, 0)]

theorem witness_DeclarationsAndLandedState :
    (rx declDev 2).toNat / 2 ^ 14 % 4 = 3 ∧ (rx declDev 3).toNat / 2 ^ 14 % 4 = 2 ∧
    232 < ((rx declDev 3).toNat / 2 ^ 16 % 64 + 1) * ((rx declDev 3).toNat % 64 + 1) ∧
    (vreg declDev 8).slotSize < ceilDiv (256 * 1) 512 * 512 + 256 * 1 * (1 * 16) * 128 ∧ (myGang declDev).launch.bsize = 0 ∧
    copyInto declDev 1 = false ∧ (rx declDev 4).toNat / 2 ^ 14 % 4 = 0 ∧
    (let s : State := { dev with copies := [copyOf 3 1] }
     copyInto s 1 = true) ∧
    ((vreg dev 1).kind = 1 ∧ (vreg dev 1).first ≠ none ∧ (vreg dev 1).planes dev.h.csr.fold ≤ 232 ∧ (vreg dev 8).kind ≠ 1) ∧
    (bufAt dev 0 0).en = false ∧ (bufAt devB 0 1).en = true ∧ (bufAt devB 0 1).landed.getLsbD 0 = true ∧
    (landedOf dev 1 0).getLsbD 0 = false ∧ 0 + 1 ≤ dev.h.csr.rows * dev.h.csr.tiles ∧
    (let s : State := { dev with h := { dev.h with landed := [(512, 1)] } }
     (landedOf s 1 0).getLsbD 0 = true ∧ sget 0 s.h.landedAt (257 * 512) + 48 * 0 ≤ s.cyc) ∧
    (let s : State := { devB with bufLandings := [⟨0, 0, 1, 3, 0⟩] }
     s.bufLandings.any (fun l => l.cyc == s.cyc && l.cluster == 0 && l.buf == 1 && l.index == 3) = true) ∧
    devB.bufLandings = [] := by
  decide +kernel

theorem witness_ExitAndTrigger :
    (dev.others.all (fun h => !isHart dev.h.gang dev.h.idx h) = true ∧ dev.copies = [] ∧ dev.bins = [] ∧ dev.h.binSets = [] ∧
      (findGang dev 1).isSome = true) ∧
    (let s : State := { dev with copies := [copyOf 0 0] }
     s.copies.any (fun q => q.gang == 1 && q.hart == 0) = true) ∧
    (dev.replicas = [] ∧ [(⟨5, 0, 0x20000, [1], (1, 0, 0, 0), 1, 0⟩ : Replica)].any (fun r => r.gang == 1 && r.hart == 0) = true) ∧
    (let s : State := { dev with others := [{ hart with idx := 1, core := 8 }] }
     s.others.all (fun h => !isHart s.h.gang s.h.idx h) = true ∧ s.others.all (fun h => h.triggered || h.exit.isSome) = false) := by
  decide +kernel

theorem tags_good {s : State} (h : s.bufs = []) : TagsGood s := by
  intro cl n _ e
  simp [bufAt, h, TileBuf.init, TileBuf.en] at e

theorem tile_places (cw : Nat) (h : cw = 16 ∨ cw = 8) : TilePlaces devI 0 none cw none (fun e => 2 ^ 40 * 8 + e * cw) := by
  refine ⟨by decide, by decide, by simp, fun e he => ?_⟩
  have he : e < 20 := he
  have hr : devI.h.csr.rlen = 16 := rfl
  have hs : devI.h.csr.rows = 2 := rfl
  have hc : devI.h.core = 0 := rfl
  have hb : (0 : Word).toNat = 0 := rfl
  simp only [containerOff, hr, hs, hc, hb]
  rcases h with rfl | rfl <;> omega

theorem witness_TileMoves :
    IntOp ctl devI .d ∧ IntOp ctl devI .a ∧ Usable devI [(3, 16)] ∧ Granted devI ∧ IsContainer 16 16 ∧
    (∃ at', TilePlaces devI 0 none 16 none at') ∧ TagsGood devI ∧ devI.h.strip = [] ∧ devI.h.stripReads = [] :=
  ⟨⟨by decide +kernel, by decide +kernel⟩, ⟨by decide +kernel, by decide +kernel⟩, usable (by decide +kernel), granted rfl rfl,
   ⟨by decide, 4, by decide, by decide, by decide⟩, ⟨_, tile_places 16 (.inl rfl)⟩, tags_good rfl, rfl, rfl⟩

theorem witness_TileMoveFaults :
    Granted devI ∧ IntOp ctl devI .d ∧ Usable devI [(3, 16)] ∧ (4 : Word).toNat % 8 ≠ 0 ∧ (0 : Word).toNat % 8 = 0 ∧
    IsContainer 16 16 ∧ 0 < devI.h.csr.vl ∧ (0xfffff8 : Word).toNat < 0 + 2 ^ 24 ∧
    (0 + 2 ^ 24) * 8 < (0xfffff8 : Word).toNat * 8 + devI.h.csr.vl * 16 ∧ badKind devI (0x1000000 : Word).toNat = some 1 ∧
    badKind devI (0x14000000 : Word).toNat = some 2 ∧
    ((0x14000000 : Word).toNat * 8 + devI.h.csr.vl * 16 - 1) / 2 ^ 29 = (0x14000000 : Word).toNat / 2 ^ 26 :=
  ⟨granted rfl rfl, ⟨by decide +kernel, by decide +kernel⟩, usable (by decide +kernel), by decide, by decide,
   ⟨by decide, 4, by decide, by decide, by decide⟩, by decide +kernel, by decide +kernel, by decide +kernel, by decide +kernel,
   by decide +kernel, by decide +kernel⟩

/-- One segment of one element that is 0, in the format of DESCD, and behind it what `l` lists. -/
def streamDev (l : List (Nat × Byte)) : State :=
  { devI with mem := [(2 ^ 40, 0x01), (2 ^ 40 + 2, 0x11), (2 ^ 40 + 3, 0x0f)] ++ l }

theorem dword_iff (s : State) (g : Nat) (v : Word) (h : (List.range 64).all (fun k =>
    v.getLsbD k == (sget 0 s.mem (g + k / 8)).getLsbD (k % 8)) = true) : IsDword s g v := by
  intro k hk
  simpa using List.all_eq_true.mp h k (List.mem_range.mpr hk)

theorem stream_segment : HoldsSegment (streamDev []) i16 (2 ^ 40) 1 (fun _ => 0) := by
  refine ⟨⟨0x0f110001, dword_iff _ _ _ (by decide +kernel), by decide +kernel⟩, ?_, ?_, ?_⟩
  · have : ∀ k < 64, memBit (streamDev []) (8 * (2 ^ 40 + 8) + k) = false := by decide +kernel
    intro k hk
    rw [this k hk]
    simp
  · intro j k hj; simp [List.range, List.range.loop] at hj
  · intro k _ hk; simp [List.range, List.range.loop, ceilDiv] at hk

theorem witness_StreamResults :
    (Granted devI ∧ 0 < devI.h.csr.rlen ∧ i16.wf = true ∧ Usable devI [(3, 16)] ∧ StreamPlace devI 0 1024 (2 ^ 40) ∧ TagsGood devI) ∧
    (GrantSound (streamDev []) ∧ StreamPlace (streamDev []) 0 16 (2 ^ 40) ∧ TagsGood (streamDev []) ∧
      HoldsSegment (streamDev []) i16 (2 ^ 40) 1 (fun _ => 0) ∧ streamOff 16 (fun _ => 1) (fun _ => 0) 1 = 16 ∧
      streamElems (fun _ => 1) 1 = 1 ∧ (streamDev []).h.csr.vl ≠ 0) ∧
    GrantSound { devI with h := { devI.h with csr := { devI.h.csr with vl := 0 } } } ∧
    IsDword (streamDev []) (2 ^ 40 + 16) 0 ∧
    IsDword (streamDev [(2 ^ 40 + 16, 0x20), (2 ^ 40 + 18, 0x11), (2 ^ 40 + 19, 0x0f)]) (2 ^ 40 + 16) 0x0f110020 ∧
    IsDword (streamDev [(2 ^ 40 + 16, 0x01), (2 ^ 40 + 17, 0x04), (2 ^ 40 + 18, 0x11), (2 ^ 40 + 19, 0x0f)]) (2 ^ 40 + 16) 0x0f110401 ∧
    HandlerReady trapping :=
  ⟨⟨granted rfl rfl, by decide +kernel, by decide +kernel, usable (by decide +kernel), ⟨by decide, by decide +kernel, by decide +kernel⟩,
    tags_good rfl⟩,
   ⟨grant_sound, ⟨by decide, by decide +kernel, by decide +kernel⟩, tags_good rfl, stream_segment, by decide +kernel, by decide +kernel, by decide⟩,
   grant_sound, dword_iff _ _ _ (by decide +kernel), dword_iff _ _ _ (by decide +kernel), dword_iff _ _ _ (by decide +kernel), trapping_ready⟩
/-! The matrix engine and the seeds: all rows of the tile, V1 to V3 64 bits wide. -/

def mdev (a b d : Desc) (mcfg : Word) (planes : Sparse (BitVec 1024)) : State :=
  { dev with
    planes := planes
    h := { hart with
      regs := Vector.ofFn (fun i => if 1 ≤ i.val ∧ i.val ≤ 3
        then { VReg.undeclared with kind := 1, wm := 63, first := some (64 * i.val - 40) } else VReg.undeclared)
      csr := { csrs with vl := 2 ^ 18, rlen := 1024, rows := 256, mcfg := mcfg
                         vtype := BitVec.ofNat 64 (d.toNat * 2 ^ 32 + b.toNat * 2 ^ 16 + a.toNat) } } }

theorem mdev_sound (a b d : Desc) (m : Word) (p : Sparse (BitVec 1024)) : GrantSound (mdev a b d m p) :=
  sound rfl (show 0 < 1 by decide) (show 0 < 1024 by decide) (show 1 * 1024 ≤ 1024 by decide) (show 0 < 256 by decide)
    (show 256 ≤ 256 by decide)

/-- Metadata of row 0 whose every nibble picks terms 0 and 1. -/
def pairMeta : Sparse (BitVec 1024) := (List.range 16).map (fun k => (planeKey 0 0 (152 + 4 * k + 2), 0xffff))

theorem pairMeta_lanes : ∀ l < 16, bitsAt (mdev i16 i16 i16 0 pairMeta) ⟨0, 0, l⟩ 152 64 = 0x4444444444444444 := by decide +kernel

theorem pairMeta_nibbles : ∀ k < 16, 0x4444444444444444 / 2 ^ (4 * k) % 2 ^ 4 = 4 := by decide +kernel

theorem pairMeta_ordered (j : Nat) (h : j < 256) :
    (let x := bitsAt (mdev i16 i16 i16 0 pairMeta) ⟨0, 0, j / 16⟩ 152 64 / 2 ^ (4 * (j % 16)) % 2 ^ 4
     x % 4 < x / 4) := by
  rw [pairMeta_lanes (j / 16) (by omega), pairMeta_nibbles (j % 16) (by omega)]
  decide

theorem witness_MatrixProductResults :
    (let s := mdev i16 i16 i16 0 pairMeta
     s.poisonLane = [] ∧ GrantSound s ∧ s.h.csr.fold = 1 ∧ s.h.csr.mcfg.toNat % 4 < 2 ∧ (descOf ctl s .a).wf = true ∧
     (descOf ctl s .a).w ≤ 16 ∧ Usable s [(1, 16), (2, 16)] ∧ Usable s [(1, 16), (2, 16), (3, 64)] ∧ 255 + 1 ≤ s.h.csr.rows ∧
     (vreg s 3).first = some 152 ∧ ∀ j < 256, (let x := bitsAt s ⟨0, 0, j / 16⟩ 152 64 / 2 ^ (4 * (j % 16)) % 2 ^ 4
       x % 4 < x / 4)) ∧
    (let s := mdev i16 i16 i16 0 []
     let x := bitsAt s ⟨0, 0, 0⟩ 152 64
     x % 4 ≥ x / 4) ∧
    (let s := mdev i16 ⟨14, 7, false, 0⟩ i16 0 []
     (descOf ctl s .b).wf = true ∧ (descOf ctl s .b).fmt = 14 ∧ Usable s [(1, 16), (2, 32)] ∧ (15 + 1) % 16 = 0) ∧
    (let s := mdev fp16 fp16 i16 0x002 []
     s.h.csr.mcfg.toNat % 4 = 2 ∧ FpOp ctl s .a ∧ FpOp ctl s .b ∧ Usable s [(1, 16), (2, 16)] ∧ 0 < max 1 1 ∧ ∀ sel, Loc.table sel ∉ s.h.hot) :=
  ⟨⟨rfl, mdev_sound _ _ _ _ _, rfl, by decide +kernel, by decide +kernel, by decide +kernel, usable (by decide +kernel),
    usable (by decide +kernel), by decide, by decide +kernel, pairMeta_ordered⟩, by decide +kernel,
   ⟨by decide +kernel, by decide +kernel, usable (by decide +kernel), by decide⟩,
   ⟨by decide +kernel, ⟨by decide +kernel, by decide +kernel⟩, ⟨by decide +kernel, by decide +kernel⟩, usable (by decide +kernel),
    by decide, fun _ h => nomatch h⟩⟩

theorem mdev_granted (a b d : Desc) (m : Word) (p : Sparse (BitVec 1024)) : Granted (mdev a b d m p) :=
  .inr ⟨mdev_sound _ _ _ _ _, show 2 ^ 18 ≤ 256 * 1 * 1024 by decide⟩

/-- Modes 0 and 1 into integers, mode 2 unsliced, sliced without an image, with one in VA, and with images in VA and VB. -/
theorem witness_DrainResults :
    (let s := mdev i16 i16 i16 0 []
     s.poisonLane = [] ∧ s.poisonAcc = [] ∧ s.h.hot = [] ∧ canonical 0 s.acc = true ∧ GrantSound s ∧ Granted s ∧ s.h.csr.fold = 1 ∧
     IntOp ctl s .d ∧ Usable s [(3, 16)] ∧ 0 + 256 ≤ 256 ∧ 0 + 256 ≤ s.h.csr.rows) ∧
    (let s := mdev i16 i16 fp16 0 []
     FpOp ctl s .d ∧ (descOf ctl s .a).wf = true ∧ Usable s [(3, 16)]) ∧
    (let s := mdev fp16 fp16 fp16 2 []
     s.h.csr.mcfg.toNat % 4 = 2 ∧ (0 : BitVec 6) = 0 ∧ (1 : BitVec 6) ≠ 0) ∧
    (let s := mdev fp16 fp16 fp16 0x772 []
     s.h.csr.mcfg.toNat % 4 = 2 ∧ FpOp ctl s .d ∧ Usable s [(1, 41), (2, 41), (3, 16)]) :=
  ⟨⟨rfl, rfl, rfl, rfl, mdev_sound _ _ _ _ _, mdev_granted _ _ _ _ _, rfl, ⟨by decide +kernel, by decide +kernel⟩,
    usable (by decide +kernel), by decide, by decide⟩,
   ⟨⟨by decide +kernel, by decide +kernel⟩, by decide +kernel, usable (by decide +kernel)⟩, by decide +kernel,
   ⟨by decide +kernel, ⟨by decide +kernel, by decide +kernel⟩, usable (by decide +kernel)⟩⟩

theorem witness_AccumulatorMoves :
    (let s := mdev i16 i16 i16 0 []
     IntOp ctl s .d ∧ Usable s [(3, 16)] ∧ s.h.csr.rlen = 1024 ∧ 64 * 3 + 64 ≤ s.h.csr.rows ∧ Usable s [(3, 41)] ∧
     (vreg s 3).first = some 152 ∧ (rx (withX s [(1, 9)]) 1).toNat % 16 = 9 ∧ (rx (withX s [(1, 8)]) 1).toNat % 16 < 9 ∧ s.sweeps = []) ∧
    (rx (withX (mdev i16 i16 i16 0 []) [(1, 8)]) 1).getLsbD 0 = false ∧ (rx (withX (mdev i16 i16 i16 0 []) [(1, 9)]) 1).getLsbD 0 = true ∧
    ∃ w : Sweep, w.running = true ∧ w.core = 0 :=
  ⟨⟨⟨by decide +kernel, by decide +kernel⟩, usable (by decide +kernel), rfl, by decide, usable (by decide +kernel), by decide +kernel,
    by decide +kernel, by decide +kernel, rfl⟩, by decide +kernel, by decide +kernel, ⟨0, 0, 1, 0, 0, 0, 0, true, 0, 0, csrs, 0, 0, 0, 0, 0⟩, rfl, rfl⟩

theorem witness_SeedAndWeightResults :
    (let s := mdev i16 ⟨1, 4, true, 0⟩ i16 0 []
     s.h.csr.fold = 1 ∧ Granted s ∧ Usable s [(1, 16), (3, 64)] ∧ (descOf ctl s .b).wf = true ∧ (descOf ctl s .b).fmt = 1 ∧
     Usable s [(1, 64), (2, 64), (3, 64)] ∧ Usable s [(3, 64)]) ∧
    (let s := mdev i16 i16 ⟨14, 7, false, 0⟩ 0 []
     GrantSound s ∧ 0 < s.h.csr.vl ∧ (descOf ctl s .d).wf = true ∧ (descOf ctl s .d).fmt = 14 ∧ Usable s [(3, 7)] ∧
     scratchAddr s 0 = some (2 ^ 40) ∧ 0 + 4 * ((16 - 1) * 1024 + min 1024 1024) ≤ 2 ^ 24 ∧ 0 + 16 * 16 ≤ s.h.csr.rows ∧ TagsGood s ∧
     s.h.strip = []) :=
  ⟨⟨rfl, mdev_granted _ _ _ _ _, usable (by decide +kernel), by decide +kernel, by decide +kernel, usable (by decide +kernel),
    usable (by decide +kernel)⟩,
   ⟨mdev_sound _ _ _ _ _, by decide +kernel, by decide +kernel, by decide +kernel, usable (by decide +kernel), by decide +kernel,
    by decide, by decide, tags_good rfl, rfl⟩⟩
/-! Sparse registers and atomics: S1 holds (5, 7), S2 holds (5, 9), both signed; S3 is empty and unsigned; S0 is ill formed. A hash
table of 16 slots stands at 0x2000, with the slot of key 5 empty in `tableEmpty` and taken by key 0 in `sparseDev []`. -/

def sparseDev (l : List (Nat × Byte)) : State :=
  { trapping with
    gangs := [{ gang with launch := { gang.launch with sbase := 1024, scount := 4, scap := 4 } }]
    mem := [(2 ^ 40 + 1031, 0xc0), (2 ^ 40 + 1032, 1), (2 ^ 40 + 1040, 1), (2 ^ 40 + 1055, 0x40), (2 ^ 40 + 1568, 5), (2 ^ 40 + 1572, 7),
      (2 ^ 40 + 1600, 5), (2 ^ 40 + 1604, 9), (2 ^ 40 + 0x2000, 4), (2 ^ 40 + 0x2001, 1)] ++ l }

theorem sparse_ready (l : List (Nat × Byte)) : SparseReady (sparseDev l) :=
  ⟨no_moves rfl rfl, rfl, show 1024 % 512 = 0 by decide, show 4 < 2 ^ 15 by decide, show 4 ≤ 16 by decide⟩

theorem sparse_one (m : Nat) (p : Nat × Nat) (w : Word) (s : State) (hs : (myGang s).launch.scap = 4) (hp : p.1 < 2 ^ 32 ∧ p.2 < 2 ^ 32)
    (h : IsDword s (sparseArea s + 8 * m) w) (hw : w.toNat % 2 ^ 15 = 1 ∧ w.toNat / 2 ^ 62 = 0)
    (h' : IsDword s (pairPlace s m 0) (pairWord p)) : SparseHolds s m 0 [p] :=
  ⟨by decide, by rw [hs]; simp, ⟨by simp, by simpa using hp⟩, ⟨w, h, hw⟩, fun k hk => by
    have : k = 0 := by simpa using hk
    subst this; exact h'⟩

theorem sparse_S1 (l : List (Nat × Byte)) (hd : (List.range 64).all (fun k =>
      (1 : Word).getLsbD k == (sget 0 (sparseDev l).mem (sparseArea (sparseDev l) + 8 * 1 + k / 8)).getLsbD (k % 8)) = true)
    (hp : (List.range 64).all (fun k =>
      (pairWord (5, 7)).getLsbD k == (sget 0 (sparseDev l).mem (pairPlace (sparseDev l) 1 0 + k / 8)).getLsbD (k % 8)) = true) :
    SparseHolds (sparseDev l) 1 0 [(5, 7)] :=
  sparse_one 1 (5, 7) 1 _ rfl (by decide) (dword_iff _ _ _ hd) (by decide) (dword_iff _ _ _ hp)

theorem sparse_S2 : SparseHolds (sparseDev []) 2 0 [(5, 9)] :=
  sparse_one 2 (5, 9) 1 _ rfl (by decide) (dword_iff _ _ _ (by decide +kernel)) (by decide) (dword_iff _ _ _ (by decide +kernel))

theorem sparse_S3 : SparseHolds (sparseDev []) 3 1 [] :=
  ⟨by decide, by simp, ⟨by simp, by simp⟩, ⟨0x4000000000000000, dword_iff _ _ _ (by decide +kernel), by decide⟩,
   fun k hk => by simp at hk⟩

theorem witness_SparseArithmeticResults :
    SparseReady (sparseDev []) ∧ SparseHolds (sparseDev []) 1 0 [(5, 7)] ∧ SparseHolds (sparseDev []) 2 0 [(5, 9)] ∧
    2 < (myGang (sparseDev [])).launch.scount ∧ [(5, 16)].Pairwise (fun p q : Nat × Nat => p.1 < q.1) :=
  ⟨sparse_ready _, sparse_S1 _ (by decide +kernel) (by decide +kernel), sparse_S2, show 2 < 4 by decide, by simp⟩

theorem witness_SparseMovesAndFaults :
    (SparseReady (sparseDev []) ∧ (0x620 : Word).toNat % 8 = 0 ∧ InWindow (sparseDev []) 0x620 8 (2 ^ 40 + 0x620) ∧ PairsSound [(5, 7)] ∧
      IsDword (sparseDev []) (2 ^ 40 + 0x620) (pairWord (5, 7)) ∧ (∀ b, checks (sparseDev []) 0 0x620 0x628 b = false) ∧
      SparseHolds (sparseDev []) 1 0 [(5, 7)] ∧ IsDword (sparseDev []) (sparseArea (sparseDev []) + 8) 1) ∧
    (myGang (sparseDev [])).launch.scount ≤ (4 : BitVec 4).toNat ∧ SparseHolds (sparseDev []) 3 1 [] ∧
    (∃ w, IsDword (sparseDev []) (sparseArea (sparseDev []) + 8 * 0) w ∧ w.toNat / 2 ^ 62 = 3) ∧ (64 : Word).toNat % 64 = 0 ∧
    (4 : Word).toNat % 8 ≠ 0 ∧ (32 : Word).toNat % 64 ≠ 0 ∧
    (∃ u v, IsDword (sparseDev []) (sparseArea (sparseDev []) + 8 * 1) u ∧ IsDword (sparseDev []) (sparseArea (sparseDev []) + 8 * 2) v ∧
      u.toNat / 2 ^ 62 = v.toNat / 2 ^ 62) ∧
    HandlerReady (sparseDev []) ∧ ¬HandlerReady { sparseDev [] with h := dev.h } :=
  ⟨⟨sparse_ready _, by decide, ⟨by decide +kernel, by decide⟩, ⟨by simp, by simp⟩, dword_iff _ _ _ (by decide +kernel),
    fun b => no_checks rfl _ _ _ b, sparse_S1 _ (by decide +kernel) (by decide +kernel), dword_iff _ _ _ (by decide +kernel)⟩,
   show 4 ≤ 4 by decide, sparse_S3, ⟨0xc000000000000000, dword_iff _ _ _ (by decide +kernel), by decide⟩, by decide, by decide, by decide,
   ⟨1, 1, dword_iff _ _ _ (by decide +kernel), dword_iff _ _ _ (by decide +kernel), rfl⟩, ⟨by decide +kernel, by decide +kernel⟩,
   fun h => h.2 (by decide +kernel)⟩

theorem witness_SparseExpandAndPack :
    (let s : State := { sparseDev [] with h := devI.h }
     s.poisonLane = [] ∧ Granted s ∧ i16.wf = true ∧ Usable s [(3, 16)] ∧ s.h.csr.vl ≤ 2 ^ 32 ∧
     (List.range s.h.csr.vl).filter (fun e => elemBits s 1 16 e != 0) = []) :=
  ⟨rfl, granted rfl rfl, by decide +kernel, usable (by decide +kernel), by decide +kernel, by decide +kernel⟩

/-- The key 5 has its place in slot 1 of the table, empty in the first device and taken by key 0 in the second. -/
theorem witness_HashAccumulation :
    (let l : List (Nat × Byte) := (List.range 4).map (fun k => (2 ^ 40 + 0x2048 + k, 0xff))
     let s := sparseDev l
     SparseReady s ∧ SparseHolds s 1 0 [(5, 7)] ∧ (0x2000 : Word).toNat % 64 = 0 ∧ InWindow s 0x2000 (64 + 8 * 2 ^ 4) (2 ^ 40 + 0x2000) ∧
     IsDword s (2 ^ 40 + 0x2000) 0x104 ∧ (∀ k, 0 < k → k < 8 → IsDword s (2 ^ 40 + 0x2000 + 8 * k) 0) ∧
     (∀ b, checks s 0 0x2000 0x2040 b = false) ∧ 5 * 0x9e3779b9 % 2 ^ 32 / 2 ^ (32 - 4) = 1 ∧ lockstep s = false ∧
     leNat (bytesAt s.mem (2 ^ 40 + 0x2000 + 64 + 8 * 1) 8) % 2 ^ 32 = 0xffffffff) ∧
    HandlerReady (sparseDev []) ∧ leNat (bytesAt (sparseDev []).mem (2 ^ 40 + 0x2000 + 64 + 8 * 1) 8) % 2 ^ 32 = 0 :=
  ⟨⟨sparse_ready _, sparse_S1 _ (by decide +kernel) (by decide +kernel), by decide, ⟨by decide +kernel, by decide⟩,
    dword_iff _ _ _ (by decide +kernel), fun k h h' => by
      have : k = 1 ∨ k = 2 ∨ k = 3 ∨ k = 4 ∨ k = 5 ∨ k = 6 ∨ k = 7 := by omega
      rcases this with rfl | rfl | rfl | rfl | rfl | rfl | rfl <;> exact dword_iff _ _ _ (by decide +kernel),
    fun b => no_checks rfl _ _ _ b, by decide, by decide +kernel, by decide +kernel⟩, ⟨by decide, by decide⟩, by decide +kernel⟩

theorem atomic_ready {s : State} {ea : Word} {n al g : Nat} (hp : s.poisonWord = []) (h1 : ea.toNat % al = 0)
    (h2 : scratchAddr s ea.toNat = some g) (h3 : NoTileMoves s) : AtomicReady s ea n al g :=
  ⟨h1, h2, h3, fun k _ _ => by rw [hp]; rfl⟩

theorem witness_AtomicResultsAndFaults :
    AtomicReady devA 0xfffffc 4 4 (2 ^ 40 + 0xfffffc) ∧ AtomicReady devA 0xfffff8 8 8 (2 ^ 40 + 0xfffff8) ∧
    AtomicReady devA 0x10000040 48 64 (2 ^ 41 + 64) ∧ (rx devA 4).toNat % 64 ≠ 0 ∧ (2 : Word).toNat % 4 ≠ 0 ∧
    scratchAddr devA 0x20000000 = none ∧ scratchAddr devA 0x14000000 = none ∧
    (let s : State := { devA with poisonWord := [(2 ^ 37 + 1, true)] }
     scratchAddr s 8 = some (2 ^ 40 + 8) ∧ sget false s.poisonWord ((2 ^ 40 + 8) / 8) = true) :=
  ⟨atomic_ready rfl (by decide) (by decide +kernel) (no_moves rfl rfl), atomic_ready rfl (by decide) (by decide +kernel) (no_moves rfl rfl),
   atomic_ready rfl (by decide) (by decide +kernel) (no_moves rfl rfl), by decide +kernel, by decide, by decide +kernel,
   by decide +kernel, by decide +kernel⟩
/-! A page of the virtual space: the locked entry maps 0x10000 to 0x1ffff, for ASID 3 of partition 0, to the frame of the same place. -/

theorem page_home {s : State} (hr : (partAt s 0).region = [(0, 0x8000000000000000)]) (hd : partOfDie s 0 = some 0) (f a : Nat)
    (ha : a < 2 ^ 30) : homeDie s 0 f a = .ok (0, 0, false) := by
  have h0 : a / 2 ^ 30 % 2 ^ 22 = 0 := by omega
  have hreg : regionOf s 0 a = some (0, 0x8000000000000000) := by
    unfold regionOf
    rw [hr, h0]
    decide +kernel
  unfold homeDie
  rw [hreg]
  simp [hd]

theorem word_zero {s : State} {p : Nat} (h : ∀ k, k < 8 → sget 0 s.mem (p + k) = 0) : wordAt s p = 0 := by
  unfold wordAt bytesAt
  have : (List.range 8).map (fun i => sget 0 s.mem (p + i)) = [0, 0, 0, 0, 0, 0, 0, 0] := by
    refine List.ext_getElem (by simp) (fun i h1 h2 => ?_)
    have hi : i < 8 := by simpa using h1
    rw [List.getElem_map, List.getElem_range, h i hi]
    have : i = 0 ∨ i = 1 ∨ i = 2 ∨ i = 3 ∨ i = 4 ∨ i = 5 ∨ i = 6 ∨ i = 7 := by omega
    rcases this with rfl | rfl | rfl | rfl | rfl | rfl | rfl | rfl <;> rfl
  rw [this]
  rfl

theorem no_walk {s : State} (hr : (partAt s 0).rpt = 0) (hp : s.poisonHbm = []) (hz : ∀ p, p < 2 ^ 15 → sget 0 s.mem p = 0) (va : Nat) :
    walk s 0 3 va = .error ⟨1, 0⟩ := by
  have h1 : wordAt s 24 = 0 := word_zero (fun k hk => hz _ (by omega))
  have h2 : wordAt s (0 + 8 * (va / 2 ^ 40 % 2 ^ 12)) = 0 := word_zero (fun k hk => hz _ (by omega))
  have e : (partAt s 0).rpt.toNat % hbmBytes + 8 * 3 = 24 := by rw [hr]; rfl
  have t0 : tableOk 0 (2 ^ 15) = true := rfl
  have p0 : pteP 0 = false := rfl
  have q : ∀ a, tablePoisoned s a = false := fun a => by unfold tablePoisoned; rw [hp]; rfl
  have z : (0 : Word).toNat = 0 := rfl
  unfold walk tableWord
  simp only [e, h1, q, z, t0, Bool.not_true, Bool.false_eq_true, if_false, h2, p0, Bool.not_false, if_true]

/-- What the page needs of a state. -/
structure Paged (s : State) : Prop where
  region : (partAt s 0).region = [(0, 0x8000000000000000)]
  rpt : (partAt s 0).rpt = 0
  die : partOfDie s 0 = some 0
  locked : s.locked = [(lockKey 0 3 2 0x10000, 0x0300000000010003)]
  noMig : s.migrations = []
  noPoison : s.poisonHbm = []
  noArmed : s.armed = []
  noTags : s.caches.tags = []
  low : ∀ p, p < 2 ^ 15 → sget 0 s.mem p = 0

theorem Paged.translate {s : State} (h : Paged s) (f a : Nat) (wr : Bool) (h1 : 0x10000 ≤ a) (h2 : a < 0x20000) :
    Machine.translate s 0 3 f a wr = .ok ⟨a, 0x0300000000010003, 0, 2, 3, a⟩ := by
  have hk : a % 2 ^ 52 / 2 ^ 16 * 2 ^ 16 = 0x10000 := by omega
  have hl : leafOf s 0 3 a = .ok (0x0300000000010003, 2) := by
    unfold leafOf lockKey pageSize
    rw [h.locked]
    simp only [hk, show (2 : Nat) = 1 ↔ False by decide, if_false]
    rfl
  have hf : frameByte s 0 3 a 0x0300000000010003 2 0 = a := by
    unfold frameByte migrationOf
    rw [h.noMig]
    simp only [List.find?_nil]
    rw [show pteRepl 0x0300000000010003 = false from rfl, show pteAddr 0x0300000000010003 = 0x10000 from rfl]
    simp [pageSize]
    omega
  unfold Machine.translate
  rw [page_home h.region h.die f a (by omega)]
  simp only [hl, hf]
  cases wr <;> rfl

theorem Paged.plain {s : State} (h : Paged s) (f : Nat) (R : Nat → Prop) (hR : ∀ a, R a → 0x10000 ≤ a ∧ a < 0x20000) :
    PlainVa s ⟨0, 3, f⟩ R := by
  have hv : ∀ a, R a → vpa s ⟨0, 3, f⟩ a = a := fun a ha => by
    unfold vpa
    rw [h.translate f a true (hR a ha).1 (hR a ha).2]
  refine ⟨h.noMig, h.noPoison, h.noArmed, fun a ha => ⟨by have := hR a ha; omega, _, h.translate f a true (hR a ha).1 (hR a ha).2,
      show pteRepl 0x0300000000010003 = false from rfl, fun t ht => by rw [h.noTags] at ht; cases ht⟩,
    fun a b ha hb e => by rwa [hv a ha, hv b hb] at e, fun a b ha hb e => by rwa [hv a ha, hv b hb] at e, ?_⟩
  intro t ht hm va wr
  have hw : walk t 0 3 va = walk s 0 3 va := by
    rw [no_walk h.rpt h.noPoison h.low va]
    refine no_walk (by rw [ht]; exact h.rpt) (by rw [ht]; exact h.noPoison) (fun p hp => ?_) va
    rw [hm p (fun a ha e => by rw [hv a ha] at e; have := hR a ha; omega)]
    exact h.low p hp
  show Machine.translate t 0 3 f va wr = Machine.translate s 0 3 f va wr
  have hl : leafOf t 0 3 va = leafOf s 0 3 va := by
    unfold leafOf
    rw [hw, ht]
  unfold Machine.translate
  rw [hl]
  rw [ht]
  rfl

theorem sget_low (m : Sparse Byte) (h : m.all (fun e => decide (2 ^ 15 ≤ e.1)) = true) (p : Nat) (hp : p < 2 ^ 15) : sget 0 m p = 0 := by
  induction m with
  | nil => rfl
  | cons e r ih =>
    simp only [List.all_cons, Bool.and_eq_true, decide_eq_true_eq] at h
    rw [sget, if_neg (by omega)]
    exact ih h.2

theorem paged {s : State} (h1 : s.parts = dev.parts) (h2 : partOfDie s 0 = some 0) (h3 : s.locked = dev.locked)
    (h4 : s.migrations = []) (h5 : s.poisonHbm = []) (h6 : s.armed = [])
    (h7 : s.mem.all (fun e => decide (2 ^ 15 ≤ e.1)) = true) (h8 : s.caches.tags = [] := by rfl) : Paged s :=
  ⟨by simp only [partAt, h1]; rfl, by simp only [partAt, h1]; rfl, h2, h3, h4, h5, h6, h8, sget_low _ h7⟩

theorem paged_dev : Paged dev := paged rfl (by decide) rfl rfl rfl rfl rfl

/-! Fences, waits, barriers, landings, monitors, binning. -/

/-- WAITM on the empty word at 8: equal to 0 holds, different from 0 does not; condition code 6 is reserved; 0x20000000 has no word. -/
theorem witness_MemoryWaitsAndBarriers :
    NoTileMoves devA ∧ 5 < (14 : Word).toNat % 8 ∧ (8 : Word).toNat % 8 ≤ 5 ∧ scratchAddr devA 8 = some (2 ^ 40 + 8) ∧
    IsDword devA (2 ^ 40 + 8) 0 ∧ sget false devA.poisonWord ((2 ^ 40 + 8) / 8) = false ∧ scratchAddr devA 0x20000000 = none ∧
    (∃ w : Wait, w.on = .waitm ∧ w.instr = .waitm ctl ⟨0, 1, 2, 3⟩) ∧
    (let s : State := { dev with h := { dev.h with wait := some ⟨.gbar, .gbar ctl ⟨1, 0, 0, 0⟩, 0, none⟩ } }
     (s.h :: s.others).all (fun h => h.wait.any (fun w => w.on == .gbar) || h.exit.isSome) = true) ∧
    [dev.h].all (fun h => h.wait.any (fun w => w.on == .gbar) || h.exit.isSome) = false ∧
    (∀ lock, (gangOf { dev with gangs := [{ gang with launch := { gang.launch with lockstep := lock } }], others := [{ hart with idx := 1 }] }
      1).launch.lockstep = lock) :=
  ⟨no_moves rfl rfl, by decide, by decide, by decide +kernel, dword_iff _ _ _ (by decide +kernel), by decide +kernel, by decide +kernel,
   ⟨⟨.waitm, .waitm ctl ⟨0, 1, 2, 3⟩, 0, none⟩, rfl, rfl⟩, by decide +kernel, by decide +kernel, fun lock => by cases lock <;> decide +kernel⟩

theorem witness_LandingsAndCacheFills :
    (let s : State := { dev with replicas := [⟨5, 0, 0x20000, [1, 2], (1, 0, 0, 0), 0, 0⟩] }
     s.replicas.find? (fun r => r.n == 5) = some ⟨5, 0, 0x20000, [1, 2], (1, 0, 0, 0), 0, 0⟩ ∧ s.armed = []) ∧
    (dev.h.exposed = [] ∧ 0 ≤ dev.cyc) := by decide +kernel

theorem witness_MonitorResults :
    (let d : MonUnit := { MonUnit.init with cfg := 0x80000001, alarm := 0x4000000000000005 }
     d.cfg.getLsbD 31 = true ∧ 0 < d.cfg.toNat % 2 ^ 16 ∧ d.cfg.toNat % 2 ^ 16 ≤ 6 ∧ d.alarm.getLsbD 62 = true ∧
     d.alarm.toNat % 2 ^ 48 < 6) ∧
    ({ MonUnit.init with cfg := 0x80000004 }.periodic = true ∧ MonUnit.init.periodic = false ∧ dev.cyc % 1024 = 0 ∧ dev.monBefore = [] ∧
     { dev with cyc := 1023 }.cyc % 1024 ≠ 0) ∧
    (∀ x ∈ dev.monBefore, x.cyc ≠ dev.cyc) ∧ MonUnit.init.cfg.getLsbD 31 = false ∧ 0x100 ≤ (0x1ff : BitVec 12).toNat ∧ (0x1ff : BitVec 12).toNat < 0x200 := by decide +kernel

/-- A bin set at 0x18000 of one register group of two carts at 0x10000, with a capacity of 2 pairs. -/
def binSet : BinSet := ⟨0x18000, some [0x10000, 1, 1, 0, 2, 7], [], []⟩
def pair (i : Nat) : BinPair := ⟨0, 1, 0, 0, 0x18000, i, 9, none, 0⟩
def binDev (i : Nat) (mem : Sparse Byte) : State :=
  { dev with bins := [pair i], mem := mem, h := { dev.h with binSets := [binSet] } }

theorem bin_found (i : Nat) : (binDev i []).bins.find? (fun p => p.die == 0 && decide (p.due ≤ (binDev i []).cyc)) = some (pair i) := by
  simp [binDev, pair]

/-- One pair has been appended to the cart and waits for its flush. -/
def flushDev : State := { dev with h := { dev.h with binSets := [{ binSet with appended := [(0x10000, 1)] }] } }

theorem witness_BinningResults :
    (binDev 7 []).bins.find? (fun p => p.die == 0 && decide (p.due ≤ (binDev 7 []).cyc)) = some (pair 7) ∧
    ((binDev 7 []).bins.all (fun x => x.slot.isNone) = true ∧ (binDev 7 []).h.binSets.all (fun b => b.va == 0x18000) = true ∧
      (binDev 7 []).others.all (fun h => !isHart 1 0 h) = true) ∧
    (sget 0 (binDev 7 []).binFree 0 ≤ (binDev 7 []).cyc ∧ 0 < sget 0 { binDev 7 [] with binFree := [(0, 1)] }.binFree 0) ∧
    (binDev 7 []).h.binSets.find? (fun b => b.va == 0x18000) = some binSet ∧ (gangOf (binDev 7 []) 1).ending = false ∧
    6 < 7 ∧ 7 - 7 < 1 ∧ 1 ≤ (8 - 7) / 2 ^ 0 ∧ (0x10000 + 64 + 16 * 2 ≤ 2 ^ 64 ∧ 0x10000 % 64 = 0) ∧
    (vnum (binDev 7 []) ⟨0, 3, 0⟩ 0x10000 4 + 0 < 2 ∧
      PlainVa (binDev 7 []) ⟨0, 3, 0⟩ (fun a => 0x10000 ≤ a ∧ a < 0x10000 + 64 ∨ 0x10040 ≤ a ∧ a < 0x10040 + 16)) ∧
    (2 ≤ vnum (binDev 7 [(0x10000, 2)]) ⟨0, 3, 0⟩ 0x10000 4 ∧
      PlainVa (binDev 7 [(0x10000, 2)]) ⟨0, 3, 0⟩ (fun a => 0x10000 ≤ a ∧ a < 0x10000 + 64)) ∧
    hartWho (binDev 7 []) (binDev 7 []).h = ⟨0, 3, 0⟩ ∧
    (flushDev.bins = [] ∧ flushDev.h.wait = none ∧
      PlainVa flushDev ⟨0, 3, 0⟩ (fun a => ∃ e ∈ flushDev.h.binSets.flatMap (fun b => b.appended), e.1 ≤ a ∧ a < e.1 + 64)) ∧
    (let s : State := { dev with bins := List.replicate 64 (pair 7) }
     64 ≤ (s.bins.filter (fun p => p.gang == s.h.gang && p.hart == s.h.idx)).length) :=
  ⟨bin_found 7, by decide +kernel, by decide +kernel, by decide +kernel, by decide +kernel, by decide, by decide, by decide, by decide,
   ⟨by decide +kernel, (paged rfl (by decide) rfl rfl rfl rfl rfl : Paged (binDev 7 [])).plain 0 _ (fun a h => by omega)⟩,
   ⟨by decide +kernel, (paged rfl (by decide) rfl rfl rfl rfl (by decide) : Paged (binDev 7 [(0x10000, 2)])).plain 0 _ (fun a h => by omega)⟩,
   by decide +kernel,
   ⟨rfl, rfl, (paged rfl (by decide) rfl rfl rfl rfl rfl : Paged flushDev).plain 0 _ (fun a h => by
      obtain ⟨e, he, h⟩ := h
      simp [flushDev] at he
      subst he
      simp at h
      omega)⟩,
   by decide +kernel⟩
/-! Coaches: the coach or carriage at 0x10000, a pool at 0x10080, carriages at 0x10040 and 0x10200. -/

/-- Little-endian dwords at addresses. -/
def dws (l : List (Nat × Nat)) : Sparse Byte :=
  l.flatMap (fun p => (List.range 8).map (fun i => (p.1 + i, BitVec.ofNat 8 (p.2 / 256 ^ i))))

def coachOp (i : Instr) (b : Word) : CoachOp := ⟨0, 1, 0, 0, i, 0x10000, b, 0⟩
def coachDev (i : Instr) (b : Word) (l : List (Nat × Nat)) : State := { dev with coachOps := [coachOp i b], mem := dws l }

theorem coach_first (i : Instr) (b : Word) (l : List (Nat × Nat)) : CoachFirst (coachDev i b l) (coachOp i b) :=
  ⟨⟨[], rfl, fun _ h => nomatch h⟩, Nat.le_refl _, rfl, rfl, by rfl, (fun _ h => nomatch h), fun g h v e => by
    rw [show g = gang from List.mem_singleton.mp h] at e
    nomatch e⟩

theorem coach_who (i : Instr) (b : Word) (l : List (Nat × Nat)) : coachWho (coachDev i b l) (coachOp i b) = ⟨0, 3, 0⟩ := rfl

theorem coach_plain (i : Instr) (b : Word) (l : List (Nat × Nat)) (R : Nat → Prop) (hR : ∀ a, R a → 0x10000 ≤ a ∧ a < 0x20000)
    (h : (dws l).all (fun e => decide (2 ^ 15 ≤ e.1)) = true) : PlainVa (coachDev i b l) ⟨0, 3, 0⟩ R :=
  (paged rfl (show partOfDie dev 0 = some 0 by decide) rfl rfl rfl rfl h : Paged (coachDev i b l)).plain 0 _ hR

theorem coach_line (x a : Nat) (h : line x a) : x ≤ a ∧ a < x + 64 := h

def x3 : X3 := ⟨0, 3, 2, 1⟩
def me : Who := ⟨0, 3, 0⟩

/-- KVPIN of a free carriage, of one pinned 65,535 times, and of another; KVUNPIN of one not pinned, of one referenced, and of the last
pin; the queries of a coach with one prefix carriage of one token. -/
theorem witness_CoachPinsResults :
    (let f := fun m => vnum (coachDev (.kvpin ctl x3) 0 [(0x10010, m)]) me 0x10010 8
     f 2 = 2 ∧ f (65535 * 2 ^ 32) / 2 ^ 32 % 2 ^ 16 = 65535 ∧ f (2 ^ 48) / 2 ^ 48 = 1) ∧
    (∀ m, m = 2 ∨ m = 2 ^ 48 → CoachFirst (coachDev (.kvpin ctl x3) 0 [(0x10010, m)]) (coachOp (.kvpin ctl x3) 0)) ∧
    PlainVa (coachDev (.kvpin ctl x3) 0 [(0x10010, 2)]) me (line 0x10000) ∧
    (let s := coachDev (.kvunpin ctl x3) 0 [(0x10010, 2 ^ 32), (0x10030, 0x10080)]
     vnum s me 0x10010 8 / 2 ^ 32 % 2 ^ 16 = 1 ∧ vnum s me 0x10010 8 / 2 ^ 48 = 0 ∧ vnum s me 0x10030 8 = 0x10080 ∧ 0x10080 % 64 = 0 ∧
     PlainVa s me (fun a => line 0x10000 a ∨ line 0x10080 a)) ∧
    (let s := coachDev (.kvqryPos ctl x3) 0 [(0x10000, 0x10040), (0x10048, 0x100)]
     ChainIs s me (vnum s me 0x10000 8) [0x10040] ∧ ChainIs s me (vnum s me 0x10008 8) [] ∧
     vnum s me 0x10048 8 / 2 ^ 32 ≤ 0 ∧ 0 < vnum s me 0x10048 8 / 2 ^ 32 + vnum s me 0x10048 8 / 2 ^ 8 % 2 ^ 8 ∧
     ¬5 < vnum s me 0x10048 8 / 2 ^ 32 + vnum s me 0x10048 8 / 2 ^ 8 % 2 ^ 8 ∧
     PlainVa s me (fun a => line 0x10000 a ∨ ∃ x ∈ [0x10040] ++ [], line x a)) ∧
    ∃ (s : State) (w : Wait), s.h.wait = some w ∧ w.instr = .kvapp ctl x3 ∧ w.reply = some 7 :=
  ⟨by decide +kernel, fun _ _ => coach_first _ _ _, coach_plain _ _ _ _ (fun a h => by have := coach_line _ _ h; omega) (by decide +kernel),
   ⟨by decide +kernel, by decide +kernel, by decide +kernel, by decide,
    coach_plain _ _ _ _ (fun a h => by rcases h with h | h <;> (have := coach_line _ _ h; omega)) (by decide +kernel)⟩,
   ⟨⟨by decide +kernel, by decide +kernel, show _ = _ by decide +kernel⟩, show _ = _ by decide +kernel, by decide +kernel, by decide +kernel,
    by decide +kernel,
    coach_plain _ _ _ _ (fun a h => by
      rcases h with h | ⟨x, hx, h⟩
      · have := coach_line _ _ h; omega
      · simp at hx; subst hx; have := coach_line _ _ h; omega) (by decide +kernel)⟩,
   ⟨{ dev with h := { dev.h with wait := some ⟨.coach, .kvapp ctl x3, 0, some 7⟩ } }, _, rfl, rfl, rfl⟩⟩

/-- A shape of one layer, one head and eight bytes. -/
def shapeWords (a : Nat) : List (Nat × Nat) := [(a, 0x70070), (a + 8, 0x20000000200), (a + 16, 0x200)]

def tailDev : State := coachDev (.kvapp ctl x3) 0 ([(0x10010, 0x10040)] ++ shapeWords 0x10058)
def poolDev (free : Nat) : State := coachDev (.kvapp ctl x3) 0 ([(0x10018, 0x10080), (0x10080, free)] ++ shapeWords 0x10028)
def badDev : State := coachDev (.kvapp ctl x3) 0 [(0x10018, 0x10080)]

theorem token_range (h : Shape) (hl : h.lc = 1 ∧ h.hc = 1 ∧ h.hd * h.z = 8 ∧ h.voff = 512) (k a : Nat) (t : tokenBytes h k 0 a) :
    k + 512 ≤ a ∧ a < k + 1100 := by
  obtain ⟨l, x, i, h1, h2, h3, h4⟩ := t
  have : l = 0 := by omega
  have : x = 0 := by omega
  subst l x
  unfold tokenPlace at h4
  simp only [Nat.zero_mul, Nat.add_zero] at h4
  omega

theorem record_at (s : State) (hp : s.poisonWord = []) (h : scratchAddr s 0 = some (2 ^ 40)) : RecordAt s 0 16 (2 ^ 40) :=
  ⟨by decide, ⟨h, by decide⟩, hp⟩

theorem witness_CoachAppendAndRetspan :
    (2 ^ 52 ≤ (0x10000000000000 : Word).toNat) ∧
    (let s := tailDev
     let h := shapeOf (vnum s me 0x10058 8) (vnum s me 0x10060 8) (vnum s me 0x10068 8 % 2 ^ 32) (vnum s me 0x10050 8 / 2 ^ 24 % 2 ^ 8)
     vnum s me 0x10010 8 = 0x10040 ∧ (vnum s me 0x10050 8).testBit 0 = false ∧ vnum s me 0x10048 8 % 16 = 0 ∧
     vnum s me 0x10048 8 / 2 ^ 8 % 2 ^ 8 = 0 ∧ h.ok = true ∧ (∀ a, tokenBytes h 0x10040 0 a → ¬line 0x10000 a) ∧
     PlainVa s me (fun a => line 0x10000 a ∨ line 0x10040 a ∨ tokenBytes h 0x10040 0 a) ∧
     2 * h.lc * h.hc * h.hd * h.z = 16 ∧ RecordAt s 0 16 (2 ^ 40)) ∧ 4 % 8 ≠ 0 ∧
    (let s := poolDev 0x10200
     let h := shapeOf (vnum s me 0x10028 8) (vnum s me 0x10030 8) (vnum s me 0x10038 8 % 2 ^ 24) (vnum s me 0x10038 8 / 2 ^ 24 % 2 ^ 8)
     let heads := fun a => line 0x10000 a ∨ line 0x10080 a ∨ line 0x10200 a ∨ ((0 : Nat) ≠ 0 ∧ line 0 a)
     vnum s me 0x10010 8 = 0 ∧ vnum s me 0x10018 8 = 0x10080 ∧ vnum s me 0x10080 8 = 0x10200 ∧ h.ok = true ∧
     [0x10000, 0x10080, 0].Nodup ∧ (∀ a, tokenBytes h 0x10200 0 a → ¬heads a) ∧
     PlainVa s me (fun a => heads a ∨ tokenBytes h 0x10200 0 a) ∧ 2 * h.lc * h.hc * h.hd * h.z = 16 ∧ RecordAt s 0 16 (2 ^ 40)) ∧
    vnum (poolDev 0) me 0x10080 8 = 0 ∧
    (let s := badDev
     (shapeOf (vnum s me 0x10028 8) (vnum s me 0x10030 8) (vnum s me 0x10038 8 % 2 ^ 24) (vnum s me 0x10038 8 / 2 ^ 24 % 2 ^ 8)).ok = false ∧
     RecordAt s 0 2 (2 ^ 40)) ∧
    (let s := fun ref => coachDev (.retspan ctl x3) 0 [(0x10008, 0x10040), (0x10010, 0x10040), (0x10050, ref * 2 ^ 48)]
     ChainIs (s 2) me (vnum (s 2) me 0x10008 8) [0x10040] ∧ ChainIs (s 2) me 0 [] ∧ vnum (s 2) me 0x10010 8 = 0x10040 ∧
     vnum (s 2) me 0x10050 8 / 2 ^ 48 = 2 ∧ vnum (s 0) me 0x10050 8 / 2 ^ 48 = 0 ∧ vnum (s 2) me 0x10048 8 % 16 = 0 ∧
     PlainVa (s 2) me (fun a => ∃ x ∈ 0x10000 :: [0x10040] ++ [], line x a)) := by
  refine ⟨by decide, ⟨by decide +kernel, by decide +kernel, by decide +kernel, by decide +kernel, by decide +kernel, ?_, ?_, by decide +kernel,
    record_at _ rfl (by decide +kernel)⟩, by decide, ⟨by decide +kernel, by decide +kernel, by decide +kernel, by decide +kernel, by decide, ?_, ?_,
    by decide +kernel, record_at _ rfl (by decide +kernel)⟩, by decide +kernel, ⟨by decide +kernel, by decide, ⟨by decide +kernel, by decide⟩, rfl⟩,
    ⟨by decide +kernel, by decide +kernel, show _ = _ by decide +kernel⟩, show _ = _ by decide +kernel, by decide +kernel, by decide +kernel,
    by decide +kernel, by decide +kernel, ?_⟩
  · intro a t h
    have := token_range _ (by decide +kernel) _ _ t
    have := coach_line _ _ h
    omega
  · refine coach_plain _ _ _ _ (fun a h => ?_) (by decide +kernel)
    rcases h with h | h | h
    · have := coach_line _ _ h; omega
    · have := coach_line _ _ h; omega
    · have := token_range _ (by decide +kernel) _ _ h; omega
  · intro a t h
    have := token_range _ (by decide +kernel) _ _ t
    rcases h with h | h | h | h
    · have := coach_line _ _ h; omega
    · have := coach_line _ _ h; omega
    · have := coach_line _ _ h; omega
    · exact h.1 rfl
  · refine coach_plain _ _ _ _ (fun a h => ?_) (by decide +kernel)
    rcases h with (h | h | h | h) | h
    · have := coach_line _ _ h; omega
    · have := coach_line _ _ h; omega
    · have := coach_line _ _ h; omega
    · exact absurd rfl h.1
    · have := token_range _ (by decide +kernel) _ _ h; omega
  · refine coach_plain _ _ _ _ (fun a h => ?_) (by decide +kernel)
    obtain ⟨x, hx, h⟩ := h
    simp at hx
    rcases hx with rfl | rfl <;> (have := coach_line _ _ h; omega)
/-! The scheduler root and records. -/

/-- A launch block at 0x10000 of one hart with one tile and an image of 256 bytes, and a request for gang 7. -/
def launchMem : Sparse Byte := dws [(0x10008, 0x100), (0x10010, 0x10001), (0x10070, 3)]
def request (a b : Word) (q : Bool) : Request := ⟨5, q, 0, 3, false, 1, 0, 0, 0, a, b, 0⟩
def launchDev (a b : Word) : State :=
  { dev with
    mem := launchMem, requests := [request a b false], bootOk := true
    parts := Vector.ofFn (fun i => if i.val = 0
      then { Part.init with region := [(0, 0x8000000000000000)], hasid := 3, lva := 0x10000 } else Part.init) }

theorem launch_ok : (match checkLaunch (launchDev 0x10000 7) 0 3 0x10000 7 with
    | .ok l => l.preds.all (fun p => p.1 == 0) && l.prio == 0
    | .fault .. => false) = true := by decide +kernel

theorem not_refused (b : Word) (h1 : b.toNat < 2 ^ 32) (h2 : b ≠ 0) (h3 : b.toNat ≠ 1) : ¬IdRefused (launchDev 0x10000 b) 0 b := by
  rintro (h | h | ⟨g, hg, hi, _⟩)
  · omega
  · exact h2 h
  · have : g = gang := by simpa [launchDev, dev] using hg
    subst this
    have : (gang.id : Nat) = 1 := rfl
    omega

theorem witness_LaunchRequestsAndArrivals :
    (∃ (s : State) (w : Wait), s.h.wait = some w ∧ w.instr = .gqry ctl x3 ∧ w.reply = some 7) ∧
    (let s : State := { dev with requests := [request 1 (-1) true] }
     s.requests.find? (fun x => x.n == 5 && x.query) = some (request 1 (-1) true) ∧ s.gangs.filter (fun g => g.id == 1) = [gang] ∧
     gang.live ∧ (s.h :: s.others).find? (fun h => h.idx == (0 : Word).toNat) = some s.h) ∧
    (launchDev 0x10000 7).requests = [request 0x10000 7 false] ∧ IdRefused (launchDev 0x10000 1) 0 1 ∧
    ¬IdRefused (launchDev 0x10000 7) 0 7 ∧ (8 : Word).toNat % 64 ≠ 0 ∧
    (∃ l, checkLaunch (launchDev 0x10000 7) 0 3 0x10000 7 = .ok l ∧ l.preds.all (fun p => p.1 == 0) = true ∧
      ((launchDev 0x10000 7).gangs.filter (fun g => g.part == 0 && (g.st == .queued || g.st == .waiting) && g.launch.prio == l.prio)).length < 64) ∧
    (let s : State := { launchDev 0x10000 7 with gangs := List.replicate 64 { gang with st := .queued } }
     64 ≤ (s.gangs.filter (fun g => g.part == 0 && (g.st == .queued || g.st == .waiting) && g.launch.prio == 0)).length) ∧
    ((launchDev 0x10000 7).bootOk = true ∧ partOfDie (launchDev 0x10000 7) 0 = some 0 ∧ (partAt (launchDev 0x10000 7) 0).hasid.toNat % 2 ^ 16 = 3) ∧
    (let s : State := { launchDev 0x10000 7 with requests := [] }
     s.requests.all (fun q => q.query || decide (s.cyc < q.due)) = true ∧ s.bootOk = true ∧ partOfDie s 0 = some 0) ∧
    (let g : Gang := { gang with st := .retired, endNo := 1, exited := 1 }
     ¬g.live ∧ 1 + 1 < g.endNo + 64 ∧ [g].filter (fun x => x.id == 1) = [g]) ∧
    dev.bootOk = false := by
  refine ⟨⟨{ dev with h := { dev.h with wait := some ⟨.query, .gqry ctl x3, 0, some 7⟩ } }, _, rfl, rfl, rfl⟩,
    ⟨by decide +kernel, by decide +kernel, ⟨by decide, by decide⟩, by decide +kernel⟩, rfl,
    .inr (.inr ⟨gang, by simp [launchDev, dev], by decide, by decide, by decide⟩), not_refused 7 (by decide) (by decide) (by decide),
    by decide, ?_, by decide +kernel, by decide +kernel, by decide +kernel,
    ⟨fun h => h.1 rfl, by decide, by decide +kernel⟩, rfl⟩
  have h := launch_ok
  split at h
  · rename_i l e
    simp only [Bool.and_eq_true, beq_iff_eq] at h
    refine ⟨l, e, h.1, ?_⟩
    rw [h.2]
    decide +kernel
  · cases h

/-- A queued gang of one tile, elastic or in lockstep mode at core 0; in the second device gang 2 holds all of die 0. -/
def queued (lock : Bool) : Gang :=
  { gang with id := 9, st := .queued, base := 0, clusters := 0
              launch := { gang.launch with lockstep := lock, plan := if lock then some ⟨64, 0, 0, 1, 0⟩ else none } }
def dueParts : Vector Part 4 :=
  Vector.ofFn (fun i => if i.val = 0 then { Part.init with region := [(0, 0x8000000000000000)], passDue := true } else Part.init)
def placeDev (lock : Bool) : State := { dev with gangs := [queued lock], parts := dueParts }
def fullDev (lock : Bool) : State :=
  { dev with parts := dueParts, gangs := [queued lock, { gang with id := 2, clusters := 12, launch := { gang.launch with lockstep := lock } }] }

theorem block_free (lock : Bool) : BlockFree (placeDev lock) (queued lock) 0 := by
  have hn : ceilDiv ((queued lock).launch.nhart * (queued lock).launch.tph) 8 = 1 := by cases lock <;> decide
  refine ⟨⟨by decide, by cases lock <;> decide⟩, fun i hi => ?_⟩
  rw [hn] at hi
  have : i = 0 := by omega
  subst this
  refine ⟨by decide, by cases lock <;> decide, fun x hx hne => ?_⟩
  simp only [placeDev, List.mem_singleton] at hx
  exact absurd (by rw [hx]) hne

theorem no_block (lock : Bool) (c : Nat) : ¬BlockFree (fullDev lock) (queued lock) c := by
  rintro ⟨⟨h1, h2⟩, h3⟩
  have hn : ceilDiv ((queued lock).launch.nhart * (queued lock).launch.tph) 8 = 1 := by cases lock <;> decide
  have hd : ∀ d < 4, partOfDie (fullDev lock) d = some 0 → d = 0 := by cases lock <;> decide
  have hc : c / 12 = 0 := hd _ (by omega) (by simpa [queued, gang] using h2)
  have := (h3 0 (by omega)).2.2 { gang with id := 2, clusters := 12, launch := { gang.launch with lockstep := lock } }
    (by simp [fullDev]) (by simp [queued]) ⟨show gang.st ≠ .retired by decide, show gang.st ≠ .faulted by decide⟩
  exact this (.inl ⟨show 12 ≠ 0 by decide, show 0 / 8 ≤ c + 0 by omega, show c + 0 < 0 / 8 + 12 by omega⟩)

theorem witness_PlacementAndPrologue :
    (∀ lock, findGang (placeDev lock) 9 = some (queued lock) ∧ (queued lock).st = .queued ∧ (queued lock).claim = none ∧
      0 < (queued lock).launch.nhart * (queued lock).launch.tph ∧ BlockFree (placeDev lock) (queued lock) 0 ∧
      (queued lock).launch.prio < 4 ∧ (partAt (placeDev lock) 0).passDue = true ∧ (partAt dev 0).passDue = false ∧
      (placeDev lock).gangs.filter (fun x => x.part == 0 && (x.st == .queued || x.st == .waiting)) = [queued lock]) ∧
    (∀ lock, findGang (fullDev lock) 9 = some (queued lock) ∧ (∀ c, ¬BlockFree (fullDev lock) (queued lock) c) ∧
      (fullDev lock).gangs.all (fun x => decide ((queued lock).launch.prio ≤ x.launch.prio)) = true) ∧
    (let s : State := { dev with gangs := [{ gang with st := .placed }], h := Hart.none }
     findGang s 1 = some { gang with st := .placed } ∧ gang.saved = none ∧ gang.launch.lockstep = false ∧ s.copies = [] ∧
     gang.launch.templates = [] ∧ s.armed = []) :=
  ⟨fun lock => ⟨by cases lock <;> decide +kernel, by cases lock <;> rfl, by cases lock <;> rfl, by cases lock <;> decide, block_free lock,
     by cases lock <;> decide, by cases lock <;> decide +kernel, by decide +kernel, by cases lock <;> decide +kernel⟩,
   fun lock => ⟨by cases lock <;> decide +kernel, no_block lock, by cases lock <;> decide +kernel⟩, by decide +kernel⟩

def record (live : Bool) (mbox : Word) : Record :=
  { Record.blank dev with gang := 1, live := live, mbox := some (mbox, 3), cls := 6, code := 1 }
def recordDev (live : Bool) (mbox : Word) (l : List (Nat × Nat)) : State := { dev with records := [record live mbox], mem := dws l }

theorem record_plain (l : List (Nat × Nat)) (R : Nat → Prop) (hR : ∀ a, R a → 0x10000 ≤ a ∧ a < 0x20000)
    (h : (dws l).all (fun e => decide (2 ^ 15 ≤ e.1)) = true) : PlainVa (recordDev true 0x10000 l) me R :=
  (paged rfl (show partOfDie dev 0 = some 0 by decide) rfl rfl rfl rfl h : Paged (recordDev true 0x10000 l)).plain 0 _ hR

theorem witness_GangEndsAndRecords :
    (let s := fun (g : Gang) => ({ dev with gangs := [g] } : State)
     findGang (s { gang with st := .draining }) 1 = some { gang with st := .draining } ∧ gang.ending = false ∧
     findGang (s { gang with ending := true }) 1 = some { gang with ending := true } ∧
     findGang (s { gang with st := .preempted, preempt := true }) 1 = some { gang with st := .preempted, preempt := true } ∧
     preemptReady (s { gang with st := .preempted, preempt := true }) { gang with st := .preempted, preempt := true } = true) ∧
    (let s := recordDev true 0x10000 [(0x10008, 2)]
     s.records.filter (fun x => x.cyc == 0) = [record true 0x10000] ∧ s.records.find? (fun x => x.n == 0) = some (record true 0x10000) ∧
     (partAt s 0).condgang % 2 ^ 32 = 0 ∧ lowestDie s 0 = 0 ∧ vnum s me 0x10008 8 % 2 ^ 16 = 2 ∧ vnum s me 0x10000 8 = 0 ∧
     vnum s me 0x10010 8 = 0 ∧ PlainVa s me (fun x => line 0x10000 x ∨ line 0x10040 x)) ∧
    (let s := recordDev true 0x10000 []
     vnum s me 0x10008 8 % 2 ^ 16 ≤ (vnum s me 0x10000 8 + 2 ^ 64 - vnum s me 0x10010 8) % 2 ^ 64 ∧ PlainVa s me (line 0x10000)) ∧
    (dev.replicas = [] ∧ [(⟨5, 0, 0x20000, [1], (1, 0, 0, 0), 1, 0⟩ : Replica)].any (fun r => r.gang == 1) = true) ∧
    (record false 0).live = false ∧ (record true 0).mbox = some (0, 3) :=
  ⟨by decide +kernel,
   ⟨by decide +kernel, by decide +kernel, by decide +kernel, by decide +kernel, by decide +kernel, by decide +kernel, by decide +kernel,
    record_plain _ _ (fun a h => by rcases h with h | h <;> (have := coach_line _ _ h; omega)) (by decide +kernel)⟩,
   ⟨by decide +kernel, record_plain _ _ (fun a h => by have := coach_line _ _ h; omega) (by decide +kernel)⟩, by decide, rfl, rfl⟩

/-! Timing traps, ramps, errors, heat, boot. -/

def lockGang : Gang := { gang with launch := { gang.launch with lockstep := true, plan := some ⟨128, 0, 0, 1, 0⟩ } }
def lockDev : State := { dev with gangs := [lockGang] }

theorem witness_TimingTrapAndRestart :
    (findGang lockDev 1 = some lockGang ∧ findHart lockDev 1 0 = some lockDev.h ∧ lockDev.h.run = .running ∧ lockGang.hold = none ∧
      lockGang.launch.lockstep = true) ∧
    gang.launch.lockstep = false ∧
    (let g : Gang := { lockGang with hold := some ⟨0, [0], [], 0⟩ }
     let s : State := { lockDev with gangs := [g], cyc := 1, h := { hart with run := .held } }
     findGang s 1 = some g ∧ findHart s 1 0 = some s.h ∧ g.hold = some ⟨0, [0], [], 0⟩ ∧ s.h.wait = none ∧ 0 < s.cyc ∧
     (match g.launch.lockstep, g.launch.plan with | true, some p => p.period | _, _ => 64) = 128 ∧
     (s.h :: s.others).filter (isHart 1 0) = [s.h] ∧
     s.copies.all (fun q => !(q.gang == 1 && q.hart == 0) || q.chunks.all (fun c => !c.late || c.st == .landed || c.st == .abandoned)) = true) ∧
    (let h : Hart := { hart with wait := some ⟨.gbar, .gbar ctl ⟨1, 0, 0, 0⟩, 0, none⟩ }
     let s : State := { lockDev with h := h, others := [{ hart with idx := 1, core := 8 }], cyc := barrierSlot lockGang h }
     s.h.gang = lockGang.id ∧ s.h.wait.any (fun w => w.on == .gbar) = true ∧ ((s.h :: s.others).map (fun x => (x.gang, x.idx))).Nodup ∧
     barrierSlot lockGang s.h ≤ s.cyc ∧ (∃ x ∈ s.h :: s.others, x.gang = lockGang.id ∧ x.wait = none ∧ x.exit = none) ∧
     0 < barrierSlot { lockGang with tstart := 64 } h) ∧
    (let g : Gang := { lockGang with hold := some ⟨1, [0], [], 0⟩ }
     let s : State := { lockDev with gangs := [g], cyc := 1, h := { hart with run := .held } }
     findGang s 1 = some g ∧ g.hold = some ⟨1, [0], [], 0⟩ ∧ s.h.wait = none ∧ s.h.accesses = []) ∧
    lockDev.h.wait.any (fun w => w.on == .gbar) = false ∧
    (let s : State := { lockDev with h := { hart with run := .held } }
     findHart s 1 0 = some s.h ∧ s.h.run = .held ∧ s.h.next ≤ s.cyc) ∧
    (let h : Hart := { hart with irqs := [⟨0x20, 1, 0⟩], csr := { csrs with status := 1 } }
     h.irqs ≠ [] ∧ h.csr.status.getLsbD 0 = true ∧ h.run = .running ∧ h.wait = none ∧
     (some (⟨.exit, .exit ctl x3, 0, none⟩ : Wait)).any (fun w => w.on == .twait || w.on == .waitm || w.on == .mwait || w.on == .exit) = true) ∧
    hart.irqs = [] :=
  ⟨by decide +kernel, by decide +kernel, by decide +kernel,
   ⟨by decide +kernel, by decide +kernel, by decide +kernel, Nat.le_refl _, ⟨{ hart with idx := 1, core := 8 }, by simp, by decide⟩, by
     have : barrierTime { lockGang with tstart := 64 } = 24 := by decide +kernel
     unfold barrierSlot
     rw [this]
     simp only
     omega⟩,
   by decide +kernel, by decide +kernel, by decide +kernel, by decide +kernel, by decide +kernel⟩

theorem witness_ArrayRamps :
    (let s := fun r : Ramp => ({ dev with ramps := [(0, r)], cyc := 40 } : State)
     (rampAt (s ⟨.up, 40, 0, none⟩) 0).st = .up ∧ (rampAt (s ⟨.warm, 39, 39, none⟩) 0).st = .warm ∧ 39 < (s ⟨.warm, 39, 39, none⟩).cyc ∧
     (rampAt (s ⟨.held, 39, 39, none⟩) 0).st = .held ∧ ¬40 < (s ⟨.held, 40, 40, none⟩).cyc ∧
     sweepBegins (s ⟨.warm, 39, 39, none⟩) 0 = false ∧ rampAt (s ⟨.down, 39, 0, none⟩) 0 = ⟨.down, 39, 0, none⟩ ∧ (rampAt (s ⟨.down, 39, 0, some 64⟩) 0).queued = some 64 ∧
     (rampAt (s ⟨.cold, 0, 0, none⟩) 0).st ≠ .down) := by decide +kernel

/-- The `n` words from 0x80000 on in core 0's cache. -/
def cacheDev (n : Nat) : State := { dev with icache := (List.range n).map (fun k => (0x20000 + k, 0x100000000)) }

theorem cacheDev_core (n : Nat) (hn : n ≤ 16384) :
    ((cacheDev n).icache.filter (fun e => e.1 / 2 ^ 62 == (cacheDev n).h.core)).length = n := by
  have h : (cacheDev n).icache.filter (fun e => e.1 / 2 ^ 62 == (cacheDev n).h.core) = (cacheDev n).icache := by
    refine List.filter_eq_self.mpr (fun e h => ?_)
    obtain ⟨k, hk, rfl⟩ := List.mem_map.mp h
    have := List.mem_range.mp hk
    rw [show (cacheDev n).h.core = 0 from rfl, beq_iff_eq]
    omega
  rw [h, cacheDev, List.length_map, List.length_range]

theorem cacheDev_paged (n : Nat) : Paged (cacheDev n) := paged rfl (show partOfDie dev 0 = some 0 by decide) rfl rfl rfl rfl rfl

theorem witness_InstructionCacheFills :
    PlainVa dev me (fun a => 0x10040 ≤ a ∧ a < 0x10040 + 64) ∧ PlainVa dev me (fun a => 0x10044 ≤ a ∧ a < 0x10044 + 4) ∧
    (0x10047 : Word).toNat / 64 * 64 = 0x10040 ∧ (0x10047 : Word).toNat / 4 * 4 = 0x10044 ∧
    (⟨(myGang dev).part, (myGang dev).launch.asid, dev.h.core / 96⟩ : Who) = me ∧
    PlainVa lockDev me (fun a => 0x10044 ≤ a ∧ a < 0x10044 + 4) ∧ findGang lockDev lockDev.h.gang = some (myGang lockDev) ∧
    (myGang lockDev).hold = none ∧ (myGang lockDev).launch.lockstep = true ∧
    (dev.icache.filter (fun e => e.1 / 2 ^ 62 == dev.h.core)).length ≤ 16368 ∧
    ∃ n, PlainVa (cacheDev n) me (fun a => 0x10040 ≤ a ∧ a < 0x10040 + 64) ∧
      16368 < ((cacheDev n).icache.filter (fun e => e.1 / 2 ^ 62 == (cacheDev n).h.core)).length :=
  ⟨paged_dev.plain 0 _ (fun a h => by omega), paged_dev.plain 0 _ (fun a h => by omega), by decide, by decide, by decide +kernel,
   (paged rfl (by decide) rfl rfl rfl rfl rfl : Paged lockDev).plain 0 _ (fun a h => by omega), by decide +kernel, by decide +kernel,
   by decide +kernel, by decide,
   16384, (cacheDev_paged _).plain 0 _ (fun a h => by omega), (cacheDev_core _ (Nat.le_refl _)).symm ▸ (by decide)⟩

/-- The 15th correction of row 1 is counted; a 16th fails the row. The gang's scalar registers lie on core 0. -/
theorem witness_StorageErrors :
    (let s : State := { dev with corrections := [(1, List.replicate 15 0)] }
     (∀ g ∈ s.gangs, g.ending = false) ∧
     ((sget [] s.corrections (0 * 2 ^ 64 + 4096 / 4096)).filter (fun t => decide (s.cyc ≤ t + 2 ^ 30))).length = 15 ∧
     sget false s.failedRows 1 = false) ∧
    (∀ g ∈ dev.gangs, g.ending = false) ∧ (3 : Nat) < 4 ∧ sget [] dev.corrections (2 ^ 64) = [] ∧
    sget false { dev with failedRows := [(1, true)] }.failedRows (4096 / 4096) = true ∧
    (dev.h.gang ≠ 0 ∧ dev.h.core ≤ 0 ∧ 0 < dev.h.core + dev.h.slots) := by
  refine ⟨⟨?_, by decide +kernel, by decide +kernel⟩, ?_, by decide, by decide +kernel, by decide +kernel, by decide +kernel⟩ <;>
    · intro g hg
      have : g = gang := by simpa [dev] using hg
      rw [this]
      rfl

theorem witness_ThermalAndDieStops :
    (3 : Nat) < 4 ∧ (4 : Nat) ≤ 4 ∧ (950 : Nat) < 951 ∧ ¬(950 : Nat) < 950 ∧ (1900 : Nat) < 1901 ∧ ¬(1900 : Nat) < 1900 ∧ (1100 : Nat) ≤ 1100 ∧ (1099 : Nat) < 1100 ∧
    partOfDie dev 0 = some 0 ∧ partOfDie dev 1 = none ∧ (0 : Nat) ∉ dev.diesOut := by decide +kernel

/-- FIPS 180-4's digest of the three bytes "abc", the first byte lowest. -/
theorem test_sha256_abc : digest [0x61, 0x62, 0x63] =
    0xad1500f261ff10b49c7a1796a36103b02322ae5dde404141eacf018fbf1678ba := by decide +kernel

/-! A two-level signature of zeros is good under the key that it leads to. -/

theorem shaRound_length (v : List (BitVec 32)) (kw : Nat × BitVec 32) : (shaRound v kw).length = v.length := by
  unfold shaRound
  split <;> rfl

theorem shaRounds_length (l : List (Nat × BitVec 32)) (v : List (BitVec 32)) : (l.foldl shaRound v).length = v.length := by
  induction l generalizing v with
  | nil => rfl
  | cons x l ih => exact (ih _).trans (shaRound_length v x)

theorem shaBlocks_length (f : Nat → List Byte) (l : List Nat) (h : List (BitVec 32)) :
    (l.foldl (fun h i => shaBlock h (f i)) h).length = h.length := by
  induction l generalizing h with
  | nil => rfl
  | cons x l ih =>
    refine (ih _).trans ?_
    unfold shaBlock
    rw [List.length_zipWith, shaRounds_length, Nat.min_self]

theorem sha256_length (bs : List Byte) : (sha256 bs).length = 32 := by
  unfold sha256
  rw [List.length_flatMap]
  simp only [show ∀ n, (beBytes 4 n).length = 4 from fun n => by simp [beBytes], List.map_const', List.sum_replicate_nat, shaBlocks_length]
  rfl

/-- Sixteen bytes of identifier, and the hash of the leaf 0. -/
def sigId : List Byte := List.replicate 16 0
def treeSig : List Byte := [0, 0, 0, 0, 0, 0, 0, 3] ++ List.replicate 2176 0 ++ [0, 0, 0, 8] ++ List.replicate 640 0
/-- The root that the tree signature of zeros gives for a message. -/
def rootFor (msg : List Byte) : List Byte :=
  treeRoot sigId (2 ^ 20 + 0) (sha256 (sigId ++ beBytes 4 (2 ^ 20 + 0) ++ [0x82, 0x82] ++ otsKey sigId 0 ((treeSig.drop 4).take 2180) msg))
    ((List.range 20).map (fun i => (treeSig.drop (2188 + 32 * i)).take 32))
def keyFor (msg : List Byte) : List Byte := [0, 0, 0, 8, 0, 0, 0, 3] ++ sigId ++ rootFor msg

theorem treeRoot_length (id : List Byte) (n : Nat) (x : List Byte) (l : List (List Byte)) (h : x.length = 32) :
    (treeRoot id n x l).length = 32 := by
  induction l generalizing n x with
  | nil => exact h
  | cons p l ih => exact ih _ _ (sha256_length _)

theorem keyFor_length (msg : List Byte) : (keyFor msg).length = 56 := by
  have h : (rootFor msg).length = 32 := treeRoot_length _ _ _ _ (sha256_length _)
  simp only [keyFor, List.length_append, h]
  rfl

theorem lms_accepts (msg : List Byte) : lmsAccepts (keyFor msg) treeSig msg = true := by
  have h2 : ((keyFor msg).drop 8).take 16 = sigId := rfl
  have h3 : (keyFor msg).drop 24 = rootFor msg := rfl
  have h4 : (keyFor msg).take 4 = [0, 0, 0, 8] := rfl
  have h5 : ((keyFor msg).drop 4).take 4 = [0, 0, 0, 3] := rfl
  have q : beNat (treeSig.take 4) = 0 := by decide +kernel
  unfold lmsAccepts
  simp only [keyFor_length, h2, h3, h4, h5, q]
  rw [show (treeRoot sigId (2 ^ 20 + 0) _ _ == rootFor msg) = true from beq_self_eq_true (rootFor msg)]
  decide +kernel

/-- The two-level signature of zeros. -/
def signed (image : List Byte) : List Byte := [0, 0, 0, 1] ++ treeSig ++ keyFor image ++ treeSig
def rootKey (image : List Byte) : List Byte := [0, 0, 0, 2] ++ keyFor (keyFor image)

theorem hss_accepts (image : List Byte) : hssAccepts image (rootKey image) (signed image) = true := by
  have l : treeSig.length = 2828 := by decide +kernel
  have d4 : (signed image).drop 4 = treeSig ++ keyFor image ++ treeSig := rfl
  have d : ∀ n, (treeSig ++ keyFor image ++ treeSig).drop (2828 + n) = (keyFor image ++ treeSig).drop n := fun n => by
    rw [List.append_assoc, ← l, List.drop_length_add_append]
  have k1 : (signed image).drop 2832 = keyFor image ++ treeSig := by
    rw [show 2832 = 4 + 2828 from rfl, ← List.drop_drop, d4]; exact d 0
  have s1 : ((signed image).drop 4).take 2828 = treeSig := by
    rw [d4, List.append_assoc, ← l, List.take_left']; rfl
  have k2 : ((signed image).drop 2832).take 56 = keyFor image := by
    rw [k1, List.take_left' (keyFor_length image)]
  have s2 : (signed image).drop 2888 = treeSig := by
    rw [show 2888 = 2832 + 56 from rfl, ← List.drop_drop, k1, List.drop_left' (keyFor_length image)]
  have n : (signed image).length = 5716 := by
    simp only [signed, List.length_append, l, keyFor_length]; rfl
  have m : (rootKey image).length = 60 := by simp only [rootKey, List.length_append, keyFor_length]; rfl
  unfold hssAccepts
  simp only [k2, s1, s2, n, m, show (rootKey image).drop 4 = keyFor (keyFor image) from rfl, lms_accepts,
    show (rootKey image).take 4 = [0, 0, 0, 2] from rfl, show (signed image).take 4 = [0, 0, 0, 1] from rfl]
  decide +kernel
/-- A good signature, an empty one, and the last report. -/
theorem witness_BootAndAttestation :
    (∀ image, ∃ s : State, s.bootFailed = false ∧ digest (rootKey image) = s.fuseKey ∧
      hssAccepts image (rootKey image) (signed image) = true) ∧
    (∀ image key, ∃ s : State, s.bootFailed = false ∧ digest key = s.fuseKey ∧ hssAccepts image key [] = false) ∧
    { dev with bootFailed := true }.bootFailed = true ∧
    { dev with attCount := 2 ^ 40 - 1 }.attCount < 2 ^ 40 ∧ 2 ^ 40 ≤ { dev with attCount := 2 ^ 40 }.attCount :=
  ⟨fun image => ⟨{ dev with fuseKey := digest (rootKey image) }, rfl, rfl, hss_accepts image⟩,
   fun _ key => ⟨{ dev with fuseKey := digest key }, rfl, rfl, by simp [hssAccepts]⟩, rfl, by decide, by decide⟩

/-- Tables at 0x8000, 0x80000 and 0x1000 give the page 0x10000 the frame 0x20000. -/
def walkMem (leaf : Nat) : Sparse Byte := dws [(24, 0x8000), (0x1008, leaf), (0x8000, 0x80001), (0x80000, 0x1001)]
def walkDev (leaf : Nat) : State := { dev with mem := walkMem leaf, bootOk := true, locked := [] }

theorem walks : walk (walkDev 0x20003) 0 3 0x10000 = .ok (0x20003, 0x1008, 2) ∧
    walk (walkDev 0x4000000000020003) 0 3 0x10000 = .ok (0x4000000000020003, 0x1008, 2) := by
  have h : (match walk (walkDev 0x20003) 0 3 0x10000, walk (walkDev 0x4000000000020003) 0 3 0x10000 with
    | .ok a, .ok b => decide (a = (0x20003, 0x1008, 2)) && decide (b = (0x4000000000020003, 0x1008, 2))
    | _, _ => false) = true := by decide +kernel
  split at h
  · rename_i a b e1 e2
    simp only [Bool.and_eq_true, decide_eq_true_eq] at h
    rw [e1, e2, h.1, h.2]
    exact ⟨rfl, rfl⟩
  · cases h

theorem witness_TranslationCommands :
    (let s := walkDev 0x20003
     s.copies = [] ∧ s.bins = [] ∧ s.armed = [] ∧ s.poisonHbm = [] ∧ s.migrations = [] ∧ (partAt s 0).xrun = none ∧ s.caches.walks = [] ∧
     s.bootOk = true ∧ partOfDie s 0 = some 0 ∧
     (0x10000 : Word).toNat % 2 ^ 52 / 2 ^ 16 * 2 ^ 16 = 0x10000 ∧ (0x30003 : Word).toNat % 2 ^ 16 = 3 ∧
     (0x30003 : Word).toNat % 2 ^ 48 / 2 ^ 16 * 2 ^ 16 + 2 ^ 16 ≤ 2 ^ 39 ∧ sget 0 s.locked (lockKey 0 3 2 0x10000) = 0 ∧ s.locked.length < 4096 ∧
     (0x20003 : Word).getLsbD 62 = false ∧ (0x20003 : Word).getLsbD 61 = false ∧ (0x4000000000020003 : Word).getLsbD 62 = true) ∧
    sget 0 { walkDev 0x20003 with locked := dev.locked }.locked (lockKey 0 3 2 0x10000) ≠ 0 ∧
    (let s : State := { walkDev 0x20003 with locked := (List.range 4096).map (fun i => (lockKey 0 4 2 (0x10000 * i), 3)) }
     4096 ≤ (s.locked.filter (fun e => e.2.toNat / 2 ^ 36 % 2 ^ 12 == (0x20003 : Word).toNat / 2 ^ 36 % 2 ^ 12)).length ∧
     sget 0 s.locked (lockKey 0 3 2 0x10000) = 0) ∧
    (match leafOf (walkDev 0x4000000000020003) 0 3 0x10000 with | .ok (leaf, _) => leaf.getLsbD 62 | .error _ => false) = true ∧
    dev.bootOk = false ∧
    (let s : State := { walkDev 0x20003 with caches := { tags := [], sets := [], tlb := [], walks := [(0, 9, 1 + (0x10000 / 512 * 2 ^ 20 + 3) * 2 + 1)] } }
     s.caches.walks.any (fun w => tagInPage 0 3 0x10000 w.2.2 && decide (s.cyc < w.2.1)) = true) ∧
    (∃ (s : State) (m : Migration), s.migrations = [m] ∧ m.m + 1 < m.chunks) :=
  ⟨by decide +kernel, by decide +kernel, by decide +kernel, by decide +kernel, rfl, by decide +kernel,
   ⟨{ dev with migrations := [⟨0, 0, 3, 0x10000, 0x1008, 0x20000, 0x30000, 126, 128, false⟩] }, _, rfl, by decide⟩⟩

/-! The host, debug commands and copies. -/

theorem failing_translation (s : State) (a : Nat) : (match translate s 0 3 0 a true with | .error _ => true | .ok _ => false) = true →
    ∃ x, translate s 0 3 0 a true = .error x := by
  intro h
  split at h
  · rename_i x e; exact ⟨x, e⟩
  · cases h

theorem failing_code (s : State) (f a : Nat) (wr : Bool) :
    (match translate s 0 3 f a wr with | .error x => decide (x.code ≤ 5) | .ok _ => false) = true →
    ∃ x, translate s 0 3 f a wr = .error x ∧ x.code ≤ 5 := by
  intro h
  split at h
  · rename_i x e; exact ⟨x, e, by simpa using h⟩
  · cases h

/-- Partition 0's window begins at 0x10000 under ASID 3. -/
def hostDev : State :=
  { dev with
    bootOk := true
    parts := Vector.ofFn (fun i => if i.val = 0
      then { Part.init with region := [(0, 0x8000000000000000)], hasid := 3, hwbase := 0x10000 } else Part.init) }

theorem witness_HostRegistersAndWindows :
    (hostDev.bootOk = true ∧ partOfDie hostDev 0 = some 0 ∧ partOfDie hostDev 1 = none) ∧
    (let dies := fun (m : Word) p => (List.range 4).filter (fun d => m.toNat / 16 ^ d % 16 / 8 == 1 && m.toNat / 16 ^ d % 16 % 4 == p)
     let shape := fun ds : List Nat => ds = [] ∨ ds.length = 1 ∨ ds = [0, 1] ∨ ds = [2, 3] ∨ ds = [0, 1, 2, 3]
     ((∀ p, p < 4 → shape (dies (0x99a8 &&& 0xbbbb) p)) ∧
       ∀ g ∈ dev.gangs, g.part < 4 → g.live → dies (0x99a8 &&& 0xbbbb) g.part = dies dev.dieMap g.part) ∧
     ¬(∀ p, p < 4 → shape (dies (0x0880 &&& 0xbbbb) p))) ∧
    { dev with dieChange := some 8 }.dieChange = some 8 ∧
    (let share := fun (v : Word) k => v.toNat / 256 ^ k % 32
     share 0x04040404 0 + share 0x04040404 1 + share 0x04040404 2 + share 0x04040404 3 = 16 ∧
     share 0x04040405 0 + share 0x04040405 1 + share 0x04040405 2 + share 0x04040405 3 = 17) ∧
    (0xfff8 < 0x10000 ∧ hostDev.armed = [] ∧ hostDev.poisonWord = [] ∧ hostDev.replicas = []) ∧
    (4096 < 4097 ∧ 8 ≤ 4096 ∧ 512 < (List.replicate 513 (0 : Byte)).length ∧ (List.replicate 512 (0 : Byte)).length ≤ 512) ∧
    (lowestDie hostDev 0 = 0 ∧ (partAt hostDev 0).hasid.toNat % 2 ^ 16 = 3 ∧ (partAt hostDev 0).hwbase.toNat = 0x10000 ∧ 8 + 8 ≤ 2 ^ 36 ∧
      PlainVa hostDev me (fun x => 0x10008 ≤ x ∧ x < 0x10008 + 8)) ∧
    (hostDev.migrations = [] ∧ 0x10000 + 1 ≤ 2 ^ 36 ∧ ∀ wr, ∃ x, translate hostDev 0 3 0 0x20000 wr = .error x ∧ x.code ≤ 5) ∧
    (∀ q ∈ hostDev.copies, q.kind ≠ 6) ∧
    (3 : Nat) < 4 ∧ (255 : Nat) < 256 ∧ (7 : Nat) < 8 ∧ (63 : Nat) < 64 ∧ (15 : Nat) < 16 := by
  refine ⟨by decide +kernel, ⟨⟨by decide +kernel, ?_⟩, by decide +kernel⟩, rfl, by decide +kernel, by decide +kernel, by decide +kernel,
    ⟨by decide +kernel, by decide +kernel, by decide +kernel, by decide, ?_⟩, ⟨rfl, by decide, ?_⟩, by decide +kernel, by decide, by decide, by decide,
    by decide, by decide⟩
  · intro g hg _ _
    have : g = gang := by simpa [dev] using hg
    subst this
    decide +kernel
  · have hz : ∀ p, p < 2 ^ 15 → sget 0 hostDev.mem p = 0 := sget_low _ rfl
    exact (⟨by decide +kernel, by decide +kernel, by decide +kernel, rfl, rfl, rfl, rfl, rfl, hz⟩ : Paged hostDev).plain 0 _ (fun a h => by omega)
  · intro wr; exact failing_code _ _ _ _ (by revert wr; decide +kernel)

theorem witness_DebugCommands :
    (dev.dbgCmd.getLsbD 63 = false ∧ dev.copies = [] ∧ findGang dev 1 = some gang ∧ gang.clusters ≠ 0 ∧ gang.haltPending = false ∧
      gang.launch.lockstep = false) ∧
    findGang dev 2 = none ∧
    ((gang.st = .running ∨ gang.st = .draining) ∧ gang.hold = none ∧ hart.run ≠ .held) ∧ gang.st ≠ .queued ∧ hart.run ≠ .halted ∧
    (let s : State := { dev with h := { hart with run := .halted } }
     (s.h :: s.others).filter (fun h => h.gang == 1) = [s.h] ∧ s.h.run = .halted ∧ s.h.exit = none ∧ s.h.idx = 0 ∧ s.ramps = []) ∧
    (hart.last = none ∧ dev.h.exposed = [] ∧ hart.run = .running) ∧ ((vreg dev 0).first = some 24 ∧ 19 < dev.h.csr.rlen * dev.h.csr.rows * dev.h.csr.tiles ∧ dev.poisonLane = []) ∧
    (dev.h.hot = [] ∧ ctl.rp = false ∧ (⟨0x005, 0, 3⟩ : C).csr.toNat = 5 ∧ (⟨0x005, 0, 3⟩ : C).xd ≠ 0) ∧
    ((32 : Nat) ≤ 32 ∧ (254 : Nat) < 0xff) ∧
    (let s : State := { dev with dbgGang := 1 }
     s.gangs = [gang] ∧ gang.id % 2 ^ 32 = s.dbgGang.toNat % 2 ^ 32 ∧ s.h.idx = s.dbgCmd.toNat / 2 ^ 16 % 2 ^ 16 ∧
     (1 : Word).toNat % 4 ≠ 0 ∧ (4 : Word).toNat % 4 = 0) := by decide +kernel

/-- A CSRR that completes, as READX's clause asks. -/
theorem witness_DebugReadx : ∃ q, WritesX (.csrr ctl ⟨0x005, 0, 3⟩) ctl 3 q dev :=
  ⟨csrRead dev 5, _, rfl, rfl, by unfold XWritten; decide +kernel⟩

/-- A LINEAR copy of 16 bytes at 0x10000 to 0x1f8 of the scratchpad: two chunks. -/
def chunk (b : Nat) : Chunk := ⟨b, .waiting, 5, 640, 640, false, 0, none, 512, []⟩
def copy : Copy :=
  { id := 3, chan := 0, gang := 1, hart := 0, part := 0, asid := 3, pc := 0, tmpl := [0x10, 0x10000, 0x1f8, 15, 0, 0, 0, 0], sreq := 0
    tag := 7, off := 0, tidx := 0, disp := 0, issueCy := 0, csr := csrs, core := 0, started := true, frozen := false
    chunks := [chunk 0, chunk 1], indices := [], limit := none, pos := 0, units := 16, walk := none, reported := [], errorResp := false
    lag := 0, lost := false }
def copyDev (q : Copy) : State := { dev with copies := [q] }

theorem linear : LinearCopy copy 16 := by unfold LinearCopy; decide +kernel

theorem copy_paged (q : Copy) : Paged (copyDev q) := paged rfl (show partOfDie dev 0 = some 0 by decide) rfl rfl rfl rfl rfl

/-- The copy whose second chunk is in the given state, or with other template dwords. -/
def copyWith (c : ChunkSt) (started : Bool) : Copy := { copy with started := started, chunks := [{ chunk 0 with st := .landed }, { chunk 1 with st := c }] }
def unstarted (k : Word) : Copy := { copy with off := 4, started := false, chunks := [], tmpl := [k, 0x10000, 0x1f8, 15, 0, 0, 0, 0] }
def unmapped (c : ChunkSt) : Copy := { copyWith c true with tmpl := [0x10, 0x20000, 0x1f8, 15, 0, 0, 0, 0] }

theorem runs_on (q : Copy) (h1 : q.chan = 0 ∧ q.started = true ∧ q.frozen = false ∧ q.gang = 1) : RunsOn (copyDev q) q := by
  refine ⟨by simp [copyDev, h1.1, h1.2.1], by simp [copyDev], h1.2.2.1, ?_⟩
  rw [h1.2.2.2]
  rfl

theorem witness_ChunksLandAndPark :
    (RunsOn (copyDev copy) copy ∧ LinearCopy copy 16 ∧ copy.chunks[1]? = some (chunk 1) ∧ (chunk 1).st = .waiting ∧ (chunk 1).iss ≠ 2 ^ 64 ∧
      copy.dst / 512 ≤ 0 ∧ 1 ≤ (copy.dst + 16 - 1) / 512 ∧ PlainVa (copyDev copy) me (fun a => copy.src ≤ a ∧ a < copy.src + 16) ∧
      copy.dw 7 % 2 ^ 48 % 8 = 0 ∧ copy.tben = false) ∧
    (let q : Copy := { copy with tmpl := [0x10010, 0x10000, 0x1f8, 15, 0, 0, 0, 0] }
     let s : State := { copyDev q with bufs := [(0, { TileBuf.init with cfg := 0x8000 })] }
     q.tben = true ∧ (bufAt s 0 q.tb).base ≤ 1 ∧ 1 - (bufAt s 0 q.tb).base < (bufAt s 0 q.tb).chunks) ∧
    (let q := unmapped .waiting
     let s := copyDev q
     RunsOn s q ∧ LinearCopy q 16 ∧ q.tben = false ∧ q.reported = [] ∧ q.src + blockFrom q 1 = 0x20008 ∧
     (∃ x, translate s 0 3 0 0x20008 false = .error x ∧ x.code ≤ 5) ∧
     (∃ x, translate { s with poisonHbm := [(0, true)] } 0 3 0 0x20008 false = .error x ∧ 5 < x.code) ∧ s.copies.filter (fun y => y.asid == q.asid) = [q] ∧
     ∀ (i : Nat) (y : Chunk), q.chunks[i]? = some y → i ≠ 1 → y.st = .landed) ∧
    (let q := unmapped (.parked 1 2)
     let s := copyDev q
     RunsOn s q ∧ q.chunks[1]? = some { chunk 1 with st := .parked 1 2 } ∧ s.copies.filter (fun y => y.chan / 16 == 0) = [q] ∧
     s.cyc < 2 ^ 64 ∧ (gangOf s q.gang).launch.lockstep = false) ∧
    (let s : State := { copyDev (unmapped .waiting) with gangs := [lockGang], cyc := 640 }
     (gangOf s 1).launch.lockstep = true ∧ (chunk 1).due ≤ s.cyc ∧ MissesSlot s (unmapped .waiting) (chunk 1)) ∧
    ¬MissesSlot (copyDev (unmapped .waiting)) (unmapped .waiting) (chunk 1) := by
  refine ⟨⟨runs_on _ (by decide +kernel), linear, rfl, rfl, by decide, by decide +kernel, by decide +kernel, ?_, by decide +kernel, by decide +kernel⟩,
    by decide +kernel, ⟨runs_on _ (by decide +kernel), by unfold LinearCopy; decide +kernel, by decide +kernel, rfl, by decide +kernel,
      failing_code _ _ _ _ (by decide +kernel), ?_, by decide +kernel, ?_⟩,
    ⟨runs_on _ (by decide +kernel), rfl, by decide +kernel, by decide +kernel, by decide +kernel⟩,
    ⟨by decide +kernel, by decide, by decide +kernel, by decide, by decide⟩, fun h => nomatch h.1⟩
  · refine (copy_paged copy).plain 0 _ (fun a h => ?_)
    have : copy.src = 0x10000 := by decide +kernel
    omega
  · have h : (match translate { copyDev (unmapped .waiting) with poisonHbm := [(0, true)] } 0 3 0 0x20008 false with
        | .error x => decide (5 < x.code) | .ok _ => false) = true := by decide +kernel
    split at h
    · rename_i x e; exact ⟨x, e, by simpa using h⟩
    · cases h
  · intro i y h1 h2
    match i, h1, h2 with
    | 0, h1, _ => cases h1; rfl
    | 1, _, h2 => exact absurd rfl h2
    | _ + 2, h1, _ => cases h1

theorem witness_CopiesStartAndRetry :
    (let q := unstarted 0x10
     let s : State := { copyDev q with cyc := 4 }
     let st := fun (q : Copy) => q.issueCy + 4 + ((gangOf s q.gang).tstart + q.off + 2 ^ 24 - (q.issueCy + 4) % 2 ^ 24) % 2 ^ 24
     s.copies.find? (fun x => x.chan == q.chan) = some q ∧ q.started = false ∧ q.chunks = [] ∧ q.indices = [] ∧
     (s.copies.map (fun x => x.id)).Nodup ∧ st q = 4 ∧ s.cyc = 4 ∧ 4 < st { q with off := 5 } ∧
     (gangOf s q.gang).st = .running ∧ (gangOf s q.gang).hold = none ∧ (gangOf s q.gang).quiesced = false ∧ (gangOf s q.gang).ending = false ∧
     q.walk = none ∧ q.tmpl.headD 0 = 0x10 ∧ q.tmpl.drop 4 = [0, 0, 0, 0] ∧ (q.tmpl.getD 3 0).toNat < 2 ^ 32 ∧
     s.copies.filter (fun x => x.chan / 16 == q.chan / 16) = [q] ∧ (sget (15, 0) s.lastServed (q.chan / 16)).2 + 4 ≤ s.cyc ∧
     s.replicas = [] ∧ [(⟨5, 0, 0x20000, [1], (1, 0, 0, 0), 1, 0⟩ : Replica)].any (fun r => r.stamp.2.2.1 == q.chan) = true ∧
     q.src + blockFrom q 0 = 0x10000) ∧
    LinearCopy (unstarted 0x10) 16 ∧ homeDie (copyDev (unstarted 0x10)) 0 0 0x10000 = .ok (0, 0, false) ∧
    8 < (unstarted 9).dw 0 % 16 ∧
    (let s : State := { dev with gangs := [{ gang with hold := some ⟨1, [0], [], 0⟩ }], cyc := 2 }
     (gangOf s 1).hold = some ⟨1, [0], [], 0⟩ ∧ 1 < s.cyc ∧ (s.h :: s.others).all (fun h => h.wait.isNone) = true) ∧
    (copyDev (unstarted 0x10)).caches.walks = [] ∧ (16 : Nat) ≤ 65536 ∧ (gangOf { dev with gangs := [{ gang with quiesced := true }] } 1).quiesced = true ∧
    (let s := withX dev [(1, 0x20020000), (2, 0)]
     (rx s 1).toNat % 16 = 0 ∧ 0x20020000 ≤ (rx s 1).toNat ∧ (rx s 1).toNat < 0x20020400 ∧
     (sget 0 s.templates ((rx s 2).toNat % 256 * 8)).toNat % 16 ≠ 3 ∧ (s.copies.filter (fun q => q.chan == 0)).length < 5 ∧
     5 ≤ (List.filter (fun q : Copy => q.chan == 0) { s with copies := List.replicate 5 copy }.copies).length ∧
     (⟨.aperture, .stq ctl ⟨2, 1⟩, 0, none⟩ : Wait).instr ∈ [Instr.stq ctl ⟨2, 1⟩, .btx ctl ⟨2, 1⟩]) ∧
    (RunsOn (copyDev copy) copy ∧ copy.chunks[0]? = some (chunk 0) ∧ (chunk 0).st = .waiting ∧ (chunk 0).due ≠ 2 ^ 64) ∧
    MissesSlot { copyDev copy with gangs := [lockGang] } copy (chunk 0) ∧ ¬MissesSlot (copyDev copy) copy (chunk 0) ∧
    (let q : Copy := { copy with tmpl := [0x16] }; q.kind = 6 ∧ MissesSlot { copyDev q with gangs := [lockGang] } q (chunk 0)) :=
  ⟨by decide +kernel, by unfold LinearCopy; decide +kernel, page_home rfl (by decide +kernel) _ _ (by decide), by decide +kernel, by decide +kernel, by decide +kernel, by decide, by decide +kernel,
   by decide +kernel,
   ⟨runs_on _ (by decide +kernel), rfl, rfl, by decide⟩, ⟨by decide +kernel, by decide, by decide⟩, (fun h => nomatch h.1),
   ⟨rfl, by decide +kernel, by decide, by decide⟩⟩

/-- A sweep of core 0, and a KVWALK whose next carriage is at 0x10000: one layer, one head and eight bytes. -/
def sweep (run : Bool) : Sweep := ⟨0, 3, 1, 0, 0, 0, 0, run, 0, 0, csrs, 0, 0, 0, 0, 0⟩
def walkCopy (v : Walk) : Copy :=
  { copy with tmpl := [0x17, 0, 0, 0, 0x1000100000000, 0, 0, 0], chunks := [], walk := some v }
def kvDev (v : Walk) : State :=
  { copyDev (walkCopy v) with mem := dws ([(0x10000, 0x10200)] ++ shapeWords 0x10018), bufs := [(0, { TileBuf.init with cfg := 0x1f8000 })] }

/-- The follow-on command of an outer product (0), a sparse one (1) or a generated one (2) of V1 and V2, the metadata in V3. -/
def sweepCmd (op : Nat) : Word := BitVec.ofNat 64 (op + 2 ^ 10 + 2 * 2 ^ 16 + 3 * 2 ^ 22 + 0xf1 * 2 ^ 36 + 0xf1 * 2 ^ 46)
def sweepDev (op : Nat) (planes : Sparse (BitVec 1024)) : State :=
  { mdev i16 i16 i16 0 planes with cyc := 64, sweeps := [{ sweep false with cmd := sweepCmd op }] }

theorem witness_SweepsAndWalks :
    ({ dev with sweeps := [sweep true] }.sweeps.find? (fun x => x.core == 0 && x.running) = some (sweep true)) ∧
    (findHart dev (sweep true).gang (sweep true).hart = some dev.h) ∧
    ({ dev with sweeps := [sweep false] }.sweeps.find? (fun x => x.core == 0 && !x.running) = some (sweep false) ∧
      (sweep false).gang = dev.h.gang ∧ (sweep false).hart = dev.h.idx ∧
      0 < ((rampAt dev 0).ahead (max 0 (max (sget 0 dev.engines 0) { hart.units with matrix := 1 }.matrix))).1) ∧
    (∀ op, op < 3 → let s := sweepDev op []
     let x := { sweep false with cmd := sweepCmd op }
     s.sweeps.find? (fun x => x.core == 0 && !x.running) = some x ∧ x.cmd.toNat % 4 = op ∧
     ((rampAt s 0).ahead (max s.cyc (max (sget 0 s.engines 0) s.h.units.matrix))).1 ≤ s.cyc ∧ s.poisonLane = [] ∧ s.armed = [] ∧
     s.h.exposed = [] ∧ (∀ n ∈ [1, 2, 3], (vreg s n).first.isSome = true) ∧ (gangOf s 1).ending = false ∧
     (sweepRows s x).all (fun r => !rowAsleep s r s.cyc) = true ∧ (gangOf s x.gang).launch.lockstep = false ∧
     (sweepRows s x).all (fun r => !rowAsleep { s with drowsy := [(0, true)] } r s.cyc) = false) ∧
    (∀ j < 256, (let x := bitsAt (sweepDev 1 pairMeta) ⟨0, 0, j / 16⟩ 152 64 / 2 ^ (4 * (j % 16)) % 2 ^ 4
      x % 4 < x / 4)) ∧
    (let x := bitsAt (sweepDev 1 []) ⟨0, 0, 0⟩ 152 64
     x / 4 ≤ x % 4) ∧
    (let v : Walk := ⟨0, 0x10000, [], [], false, false⟩
     let q := walkCopy v
     let s := kvDev v
     q.started = true ∧ s.copies.all (fun y => y.kind != 6) = true ∧ q.dw 4 / 2 ^ 48 % 4 ≠ 0 ∧ 0x10000 % 64 = 0 ∧
     q.chan = 0 ∧ q.kind = 7 ∧ q.dsp = 0 ∧ q.ren = false ∧ (bufAt s 0 0).landed = 0 ∧ q.chunks = [] ∧ v.j = 0 ∧
     q.dw 5 = 0 ∧ vnum s me 0x10000 8 ≠ 0 ∧ (carShape s me 0x10000).ok = true ∧ q.dw 4 / 2 ^ 48 % 4 = 1 ∧ q.dw 4 / 2 ^ 32 % 2 ^ 16 = 1 ∧
     q.dw 4 % 2 ^ 16 < (carShape s me 0x10000).lc ∧ q.dw 4 / 2 ^ 16 % 2 ^ 16 + 1 ≤ (carShape s me 0x10000).hc ∧
     1 + 1 * 1 * ceilDiv (64 * (carShape s me 0x10000).hd * (carShape s me 0x10000).z) 512 ≤ (bufAt s 0 0).chunks) ∧
    RunsOn (kvDev ⟨0, 0x10000, [], [], false, false⟩) (walkCopy ⟨0, 0x10000, [], [], false, false⟩) ∧
    PlainVa (kvDev ⟨0, 0x10000, [], [], false, false⟩) me (line 0x10000) ∧
    RunsOn (kvDev ⟨0, 0, [], [], false, false⟩) (walkCopy ⟨0, 0, [], [], false, false⟩) := by
  refine ⟨by decide +kernel, by decide +kernel, by decide +kernel, by decide +kernel, ?_, by decide +kernel, by decide +kernel,
    ⟨by decide +kernel, by decide +kernel, rfl, rfl⟩, ?_, ⟨by decide +kernel, by decide +kernel, rfl, rfl⟩⟩
  · intro j hj
    have h : bitsAt (sweepDev 1 pairMeta) ⟨0, 0, j / 16⟩ 152 64 = 0x4444444444444444 := pairMeta_lanes (j / 16) (by omega)
    rw [h]
    have : ∀ k < 16, (0x4444444444444444 / 2 ^ (4 * k) % 2 ^ 4) = 4 := by decide
    rw [this (j % 16) (by omega)]
    decide
  exact (paged rfl (show partOfDie dev 0 = some 0 by decide) rfl rfl rfl rfl (by decide +kernel) :
    Paged (kvDev ⟨0, 0x10000, [], [], false, false⟩)).plain 0 _ (fun a h => by have := coach_line _ _ h; omega)

/-! Steps. -/

/-- The hart of the device, its image of 256 bytes at 0x10000, with the words of ADD X3, X1, X2 and of an unassigned major there; the
agenda names it. -/
def stepDev (pc : Word) : State :=
  { dev with
    agenda := [.hart 1 0 0], icache := [(0x4000, 0x100000000 + 0x0208c000), (0x4001, 0x100000f80)]
    gangs := [{ gang with launch := { gang.launch with img := 0x10000, imgLen := 256 } }], h := { hart with pc := pc } }

def issuing (pc : Word) : State := { stepDev pc with agenda := [], h := { (stepDev pc).h with hot := [], raised := 0, work := 0, swapCy := 0, queued := none, issueCy := 0, issued := false } }

theorem witness_StepRunsDecodedInstruction :
    (let s := stepDev 0x10000
     let s1 := issuing 0x10000
     s.h.part = none ∧ s.h.timed = false ∧ s.h.lateX = [] ∧ plannedWait (.add ctl ⟨0, 2, 1, 3⟩) = false ∧ plannedWait (.mwait ctl x3) = true ∧
     s.agenda = .hart s.h.gang s.h.idx 0 :: [] ∧ ready s s.h = true ∧ s.h.run = .running ∧ s.h.irqs = [] ∧
     (s.h.pc - (myGang s).launch.img).toNat + 4 ≤ (myGang s).launch.imgLen ∧
     sget 0 s.icache (s.h.core * 2 ^ 62 + s.h.pc.toNat / 4) = BitVec.ofNat 33 (2 ^ 32 + (0x0208c000 : Instr32).toNat) ∧
     [(0x0208c000 : Instr32)].length = (formOf 0x0208c000).words ∧ (myGang s).dirty = [] ∧ s.h.queued = none ∧
     (∃ i, decodeWords [0x0208c000] = .ok i ∧ earliest s1 (costOf i s1) ≤ s1.cyc ∧
       ∃ t, exec i s1 = .next t ∧ t.h.issued = true ∧ t.h.wait = none ∧ t.h.swapCy = 0 ∧ s.h.csr.tchk = false ∧
         wakes s1 (costOf i s1) = false ∧ s.h.exposed = [] ∧ s.h.reading = [] ∧ s.sweeps = [] ∧ t.sweeps = [])) ∧
    earliest { issuing 0x10000 with merge := [(0, 9)] } { scalarCost [] [] with merge := 1 } = 7 ∧
    (let s := stepDev 0x10004
     sget 0 s.icache (s.h.core * 2 ^ 62 + s.h.pc.toNat / 4) = BitVec.ofNat 33 (2 ^ 32 + (0x00000f80 : Instr32).toNat) ∧
     [(0x00000f80 : Instr32)].length = (formOf 0x00000f80).words ∧ decodeWords [0x00000f80] = .illegal 1) ∧
    (let s := stepDev 0x10008
     (s.h.pc - (myGang s).launch.img).toNat + 4 ≤ (myGang s).launch.imgLen ∧
     (sget 0 s.icache (s.h.core * 2 ^ 62 + s.h.pc.toNat / 4)).getLsbD 32 = false) ∧
    (∃ t, exec (.icacheFill 0x10008) (issuing 0x10008) = .next t ∧ t.h.run ≠ .stopped) ∧
    (let s := stepDev 0x10100
     ¬(s.h.pc - (myGang s).launch.img).toNat + 4 ≤ (myGang s).launch.imgLen) := by
  refine ⟨⟨rfl, rfl, rfl, rfl, rfl, by decide +kernel, by decide +kernel, by decide +kernel, by decide +kernel, by decide +kernel,
    by decide +kernel, by decide +kernel, by decide +kernel, by decide +kernel,
    ⟨.add ctl ⟨0, 2, 1, 3⟩, by decide, by decide +kernel, _, rfl, by decide +kernel, by decide +kernel, by decide +kernel, by decide +kernel,
      by decide +kernel, by decide +kernel, by decide +kernel, by decide +kernel, by decide +kernel⟩⟩,
    by decide +kernel, by decide +kernel, ⟨by decide +kernel, by decide +kernel⟩, ?_, by decide +kernel⟩
  have h : (match exec (.icacheFill 0x10008) (issuing 0x10008) with | .next t => t.h.run != .stopped | _ => false) = true := by decide +kernel
  split at h
  · rename_i t e
    exact ⟨t, e, by simpa using h⟩
  · cases h

theorem witness_EventsHappenAndTimePasses :
    (let s : State := { dev with agenda := [.event (.alarmClear 0)], calendar := [(0, .alarmClear 0), (9, .alarmClear 0)] }
     (s.h :: s.others).all (fun h => h.wait.isNone) = true ∧ s.agenda = .event (.alarmClear 0) :: [] ∧
     (s.gangs).all (fun g => g.hold.isNone) = true ∧ (trapBefore s (.alarmClear 0)).isNone = true ∧ (0, Event.alarmClear 0) ∈ s.calendar ∧ 0 ≤ s.cyc) ∧
    (let s : State := { dev with calendar := [(9, .alarmClear 0)], h := { hart with next := 7 } }
     s.agenda = [] ∧ dueEvent s = none ∧ polledEvent s = none ∧ nextHart s = none) := by decide +kernel

/-! What completes. -/

theorem witness_FencesComplete : findHart dev 1 0 = some dev.h := by decide +kernel

theorem witness_SchedulerEventsComplete :
    (let g := queued false
     let s := placeDev false
     s.gangs = [g] ∧ g.st = .queued ∧ g.claim = none ∧ g.launch.lockstep = false ∧ g.launch.prio < 4 ∧ g.part < 4 ∧
     (partAt s g.part).passDue = true ∧ 0 < g.launch.nhart * g.launch.tph ∧ BlockFree s g 0 ∧ ∀ b, b < 0 → ¬BlockFree s g b) ∧
    (let g : Gang := { gang with st := .placed }
     let s : State := { dev with gangs := [g], h := Hart.none }
     s.gangs = [g] ∧ g.st = .placed ∧ g.saved = none ∧ g.launch.lockstep = false ∧ s.armed = [] ∧ g.launch.templates = [] ∧ s.copies = []) ∧
    (let c := chunk 1
     let q : Copy := { unmapped .waiting with chunks := [c] }
     let s := copyDev q
     s.copies = [q] ∧ q.started = true ∧ q.frozen = false ∧ (gangOf s q.gang).ending = false ∧ (gangOf s q.gang).launch.lockstep = false ∧
     LinearCopy q 16 ∧ q.tben = false ∧ q.reported = [] ∧ q.chunks = [c] ∧ c.st = .waiting ∧ q.dst / 512 ≤ c.blk ∧
     c.blk ≤ (q.dst + 16 - 1) / 512 ∧ ∃ x, translate s q.part q.asid (q.core / 96) (q.src + blockFrom q c.blk) false = .error x ∧
       1 ≤ x.code ∧ x.code ≤ 3) ∧
    (let c := chunk 0
     let q : Copy := { copy with chunks := [c], tmpl := [0x10, 0x10000, 0, 0, 0, 0, 0, 0] }
     let s : State := { walkDev 0x0300000000020003 with copies := [q] }
     s.copies = [q] ∧ (gangOf s q.gang).ending = false ∧ (gangOf s q.gang).launch.lockstep = false ∧ LinearCopy q 1 ∧ q.tben = false ∧
     q.reported = [] ∧ q.chunks = [c] ∧ c.st = .waiting ∧ c.blk = q.dst / 512 ∧ q.dst / 512 ≤ c.blk ∧ c.blk ≤ (q.dst + 1 - 1) / 512 ∧
     s.poisonHbm = [] ∧ (∃ x, translate s q.part q.asid (q.core / 96) q.src false = .ok x) ∧ c.due ≠ 2 ^ 64 ∧
     walkDue s q (q.src, false) = true) := by
  refine ⟨⟨rfl, rfl, rfl, rfl, by decide, by decide, by decide +kernel, by decide, block_free false, fun b h => absurd h (Nat.not_lt_zero b)⟩,
    ⟨rfl, rfl, rfl, rfl, rfl, rfl, rfl⟩, ⟨rfl, rfl, rfl, rfl, rfl, by unfold LinearCopy; decide +kernel, by decide +kernel, rfl, rfl, rfl,
    by decide +kernel, by decide +kernel, ?_⟩, rfl, rfl, rfl, by unfold LinearCopy; decide +kernel, by decide +kernel, rfl, rfl, rfl,
    by decide +kernel, by decide +kernel, by decide +kernel, rfl, ?_, by decide +kernel, by decide +kernel⟩
  rotate_left
  · have h : (match translate { walkDev 0x0300000000020003 with
          copies := [{ copy with chunks := [chunk 0], tmpl := [0x10, 0x10000, 0, 0, 0, 0, 0, 0] }] } 0 3 0 0x10000 false with
        | .ok _ => true | .error _ => false) = true := by decide +kernel
    split at h
    · rename_i x e
      exact ⟨x, e⟩
    · cases h
  have h : (match translate (copyDev { unmapped .waiting with chunks := [chunk 1] }) 0 3 0 0x20008 false with
      | .error x => decide (1 ≤ x.code) && decide (x.code ≤ 3) | .ok _ => false) = true := by decide +kernel
  split at h
  · rename_i x e
    simp only [Bool.and_eq_true, decide_eq_true_eq] at h
    exact ⟨x, e, h⟩
  · cases h

theorem witness_BootAndTranslationCommandsComplete :
    (∀ image, ∃ s : State, s.bootFailed = false ∧ digest (rootKey image) = s.fuseKey ∧
      hssAccepts image (rootKey image) (signed image) = true) ∧
    { dev with attCount := 2 ^ 40 - 1 }.attCount < 2 ^ 40 ∧
    (let s := walkDev 0x20003
     s.bootOk = true ∧ (∃ d, d < 4 ∧ partOfDie s d = some 0) ∧ (partAt s 0).xrun = none ∧ s.copies = [] ∧
     (0x10000 : Word).toNat % 2 ^ 52 / 2 ^ 16 * 2 ^ 16 = 0x10000 ∧ (0x30003 : Word).toNat % 2 ^ 16 = 3 ∧
     (0x30003 : Word).toNat % 2 ^ 48 / 2 ^ 16 * 2 ^ 16 + 2 ^ 16 ≤ 2 ^ 39 ∧ walk s 0 3 0x10000 = .ok (0x20003, 0x1008, 2) ∧
     s.locked = [] ∧ s.migrations = [] ∧ s.caches.walks = [] ∧ (0x20003 : Word).getLsbD 62 = false ∧ (0x20003 : Word).getLsbD 61 = false ∧
     (∀ leaf lv, leafOf s 0 3 0x10000 = .ok (leaf, lv) → leaf.getLsbD 62 = false) ∧ s.poisonHbm = [] ∧ s.armed = []) ∧
    ∃ (s : State) (m : Migration), s.migrations = [m] ∧ m.m + 1 < m.chunks ∧ s.poisonHbm = [] ∧ s.armed = [] := by
  refine ⟨fun image => ⟨{ dev with fuseKey := digest (rootKey image) }, rfl, rfl, hss_accepts image⟩, by decide,
    ⟨rfl, ⟨0, by decide, by decide +kernel⟩, by decide +kernel, rfl, by decide, by decide, by decide, walks.1, rfl, rfl, rfl, by decide, by decide, ?_,
      rfl, rfl⟩,
    ⟨{ dev with migrations := [⟨0, 0, 3, 0x10000, 0x1008, 0x20000, 0x30000, 126, 128, false⟩] }, _, rfl, by decide, rfl, rfl⟩⟩
  intro leaf lv h
  have e : leafOf (walkDev 0x20003) 0 3 0x10000 = .ok (0x20003, 2) := by
    unfold leafOf
    rw [walks.1]
    rfl
  rw [e] at h
  cases h
  decide

theorem witness_DebugCommandsComplete :
    (findGang dev 1 = some gang ∧ gang.clusters ≠ 0 ∧ gang.launch.lockstep = false ∧ dev.dbgCmd.getLsbD 63 = false ∧ gang.st = .running ∧
      gang.hold = none ∧ gang.haltPending = false ∧ dev.h.run ≠ .held) ∧
    (let s : State := { dev with h := { hart with run := .halted } }
     s.others = [] ∧ s.h.gang = 1 ∧ s.h.idx = 0 ∧ s.h.exit = none ∧ s.h.run = .halted ∧ s.copies = []) ∧
    (dev.h.gang = 1 ∧ (vreg dev 0).first = some 24 ∧ dev.h.exposed = [] ∧ dev.failedRows = [] ∧
      19 < dev.h.csr.rlen * dev.h.csr.rows * dev.h.csr.tiles) ∧
    findHart dev 1 0 = some dev.h := by decide +kernel

/-- Each event's premises hold of the copy, chunk, sweep, walk or held store of its helper state. -/
theorem witness_CopyEventsComplete :
    (let q := unstarted 0x10
     let s : State := { copyDev q with cyc := 64 }
     s.copies = [q] ∧ q.frozen = false ∧ LinearCopy q 16 ∧ s.cyc < 2 ^ 64 ∧ (gangOf s q.gang).ending = false ∧
     (gangOf s q.gang).launch.lockstep = false ∧ q.started = false ∧ q.chunks = [] ∧ q.indices = [] ∧ q.tmpl.headD 0 = 0x10 ∧
     q.tmpl.drop 4 = [0, 0, 0, 0] ∧ (q.tmpl.getD 3 0).toNat < 2 ^ 32 ∧ (gangOf s q.gang).st = .running ∧
     (gangOf s q.gang).quiesced = false ∧ (gangOf s q.gang).hold = none ∧ s.replicas = [] ∧
     q.issueCy + 4 + ((gangOf s q.gang).tstart + q.off + 2 ^ 24 - (q.issueCy + 4) % 2 ^ 24) % 2 ^ 24 ≤ s.cyc ∧
     (sget (15, 0) s.lastServed (q.chan / 16)).2 + 4 ≤ s.cyc) ∧
    (let c := chunk 0
     let q : Copy := { copy with chunks := [c], tmpl := [0x10, 0x10000, 0, 15, 0, 0, 0, 0] }
     let s := copyDev q
     s.copies = [q] ∧ LinearCopy q 16 ∧ q.started = true ∧ q.chunks = [c] ∧ c.st = .waiting ∧ c.iss ≠ 2 ^ 64 ∧ c.due ≠ 2 ^ 64 ∧
     c.blk = q.dst / 512 ∧ (q.dst + 16 - 1) / 512 = q.dst / 512 ∧ q.tben = false ∧ q.ren = false ∧ s.poisonWord = [] ∧
     PlainVa s me (fun a => q.src ≤ a ∧ a < q.src + 16)) ∧
    { chunk 0 with st := .parked 1 2 }.st = .parked 1 2 ∧
    (let s : State := withX dev [(1, 0x20020000)]
     let ea := BitVec.ofInt 64 ((rx s 1).toNat + 16 * ctl.imm.toInt)
     s.copies = [] ∧ ea.toNat % 16 = 0 ∧ 0x20020000 ≤ ea.toNat ∧ ea.toNat < 0x20020400 ∧
     (sget 0 s.templates (s.h.core / 8 * 2048 + (rx s 2).toNat % 256 * 8)).toNat % 16 ≠ 3) ∧
    (sweep true).running = true ∧
    (let s := sweepDev 0 []
     let x := { sweep false with cmd := sweepCmd 0 }
     s.sweeps = [x] ∧ x.running = false ∧ x.gang = s.h.gang ∧ x.hart = s.h.idx ∧ x.cmd.toNat % 4 = 0 ∧
     ((rampAt s x.core).ahead (max (max s.cyc x.slot) (max (sget 0 s.engines x.core) s.h.units.matrix))).1 ≤ s.cyc ∧
     (sweepRows s x).all (fun r => !rowAsleep s r s.cyc) = true ∧ (gangOf s x.gang).launch.lockstep = false ∧ s.poisonLane = [] ∧
     s.armed = [] ∧ s.h.exposed = [] ∧
     ∀ n ∈ [x.cmd.toNat / 2 ^ 10 % 2 ^ 6, x.cmd.toNat / 2 ^ 16 % 2 ^ 6], (vreg s n).first.isSome = true) ∧
    (∀ va, RunsOn (kvDev ⟨0, va, [], [], false, false⟩) (walkCopy ⟨0, va, [], [], false, false⟩)) ∧
    (∀ va ∈ [0, 0x10000], let v : Walk := ⟨0, va, [], [], false, false⟩
     let q := walkCopy v
     let s := kvDev v
     s.copies = [q] ∧ q.kind = 7 ∧ q.walk = some v ∧ v.ended = false ∧ q.started = true ∧ q.dsp = 0 ∧ q.ren = false ∧
     q.chunks = [] ∧ v.j = 0 ∧ q.dw 5 = 0 ∧ (bufAt s (q.core / 8) (q.dw 3 % 64)).landed = 0) ∧
    (let v : Walk := ⟨0, 0x10000, [], [], false, false⟩
     let s := kvDev v
     let q := walkCopy v
     PlainVa s me (line 0x10000) ∧ vnum s me 0x10000 8 ≠ 0 ∧ (carShape s me 0x10000).ok = true ∧ q.dw 4 / 2 ^ 48 % 4 ≠ 0 ∧
     q.dw 4 % 2 ^ 16 < (carShape s me 0x10000).lc ∧
     q.dw 4 / 2 ^ 16 % 2 ^ 16 + q.dw 4 / 2 ^ 32 % 2 ^ 16 ≤ (carShape s me 0x10000).hc) := by
  refine ⟨⟨rfl, rfl, by unfold LinearCopy; decide +kernel, by decide, rfl, rfl, rfl, rfl, rfl, rfl, rfl, by decide, rfl, rfl, rfl, rfl,
      by decide +kernel, by decide +kernel⟩,
    ⟨rfl, by unfold LinearCopy; decide +kernel, rfl, rfl, rfl, by decide, by decide, by decide +kernel, by decide +kernel, by decide +kernel,
      by decide +kernel, rfl, (copy_paged _).plain 0 _ (fun a (h : 0x10000 ≤ a ∧ a < 0x10000 + 16) => ⟨h.1, by omega⟩)⟩,
    rfl, ⟨rfl, by decide +kernel, by decide +kernel, by decide +kernel, by decide +kernel⟩, rfl,
    ⟨rfl, rfl, rfl, rfl, by decide +kernel, by decide +kernel, by decide +kernel, rfl, rfl, rfl, rfl, by decide +kernel⟩,
    fun va => runs_on _ ⟨rfl, rfl, rfl, rfl⟩, by decide +kernel,
    (paged rfl (show partOfDie dev 0 = some 0 by decide) rfl rfl rfl rfl (by decide +kernel) :
      Paged (kvDev ⟨0, 0x10000, [], [], false, false⟩)).plain 0 _ (fun a h => by have := coach_line _ _ h; omega),
    by decide +kernel, by decide +kernel, by decide +kernel, by decide +kernel, by decide +kernel⟩

theorem witness_GangEventsComplete :
    (let g : Gang := { gang with st := .preempted, preempt := true }
     preemptReady { dev with gangs := [g] } g = true) ∧
    (let s := recordDev false 0 []
     s.records = [record false 0] ∧ (record false 0).live = false ∧ (record false 0).part < 4 ∧
     (partAt s (record false 0).part).condgang % 2 ^ 32 = 0) ∧
    (let h : Hart := { hart with wait := some ⟨.gbar, .gbar ctl ⟨1, 0, 0, 0⟩, 0, none⟩ }
     let s : State := { lockDev with h := h, cyc := barrierSlot lockGang h }
     let x : Hart := { hart with idx := 1, core := 8 }
     s.gangs = [lockGang] ∧ lockGang.id = s.h.gang ∧ lockGang.st = .running ∧ s.others = [] ∧ lockGang.launch.lockstep = true ∧
     lockGang.hold = none ∧ s.h.run = .running ∧ s.h.wait.any (fun w => w.on == .gbar) = true ∧ barrierSlot lockGang s.h ≤ s.cyc ∧
     x.gang = lockGang.id ∧ x.idx ≠ s.h.idx ∧ x.wait = none ∧ x.exit = none) ∧
    (let g : Gang := { lockGang with hold := some ⟨1, [0], [], 0⟩ }
     let s : State := { lockDev with gangs := [g], cyc := 1, h := { hart with run := .held } }
     s.gangs = [g] ∧ g.id = s.h.gang ∧ g.st = .running ∧ s.others = [] ∧ g.hold = some ⟨1, [s.h.idx], [], 0⟩ ∧ 1 = s.cyc ∧ 0 < s.cyc ∧
     s.h.wait = none ∧ s.h.accesses = [] ∧ s.h.run = .held ∧ s.h.next ≤ s.cyc) ∧
    (let s : State := { dev with h := { hart with
       irqs := [⟨6, 1, 0⟩], csr := { csrs with status := 1 }, wait := some ⟨.twait, .twait ctl ⟨0, 0, 0, 0⟩, 0, none⟩ } }
     s.h.irqs ≠ [] ∧ s.h.csr.status.getLsbD 0 = true ∧ gang.launch.lockstep = false ∧ s.h.run = .running ∧
     s.h.wait.any (fun w => w.on == .twait) = true) := by
  refine ⟨by decide +kernel, ⟨rfl, rfl, by decide, by decide +kernel⟩,
    ⟨rfl, rfl, rfl, rfl, rfl, rfl, rfl, by decide, Nat.le_refl _, rfl, by decide, rfl, rfl⟩,
    ⟨rfl, rfl, rfl, rfl, rfl, rfl, by decide, rfl, rfl, rfl, by decide⟩, by decide, by decide, rfl, rfl, by decide⟩

theorem witness_MemoryFormIsKept :
    Memory.wf dev.mem = true ∧ (∀ g ∈ dev.gangs, ∀ v, g.saved = some v → Memory.wf v.scratch = true) ∧ ∃ t, step dev = .next t :=
  ⟨by decide +kernel, (fun g hg v hv => by
    have : g = gang := by simpa [dev] using hg
    subst this
    exact nomatch (show (none : Option Saved) = some v from hv)), ⟨_, rfl⟩⟩

theorem witness_DieShapesAreKept :
    let dies := fun (m : Word) p => (List.range 4).filter (fun d => m.toNat / 16 ^ d % 16 / 8 == 1 && m.toNat / 16 ^ d % 16 % 4 == p)
    (∀ p, p < 4 → dies dev.dieMap p ∈ [[], [0], [1], [2], [3], [0, 1], [2, 3], [0, 1, 2, 3]]) ∧ dev.dieChange = none := by decide +kernel

theorem witness_EncodeAndDecodeAgree :
    (Instr.add ctl ⟨0, 2, 1, 3⟩).wellFormed = true ∧ (Instr.add ctl ⟨0, 2, 1, 3⟩).encodable = true ∧
    decodeWords (encode (.add ctl ⟨0, 2, 1, 3⟩)) = .ok (.add ctl ⟨0, 2, 1, 3⟩) := by decide

/-! One step each, with the results that the spec works out. -/

/-- The instruction answers a next state of which `p` holds. -/
def goes (i : Instr) (s : State) (p : State → Bool) : Bool :=
  match exec i s with
  | .next t => p t
  | _ => false

/-- R33's example: three tile slots, two fenced rows in one of them; RLEN 1,024, ROWS 256, TILES 4, F 2 are asked for. -/
theorem test_setvl_grant :
    goes (.setvl ctl ⟨0, 0, 2, 1⟩)
      (withX { dev with failedRows := [(256 + 3, true), (256 + 7, true)], h := { hart with slots := 3, regs := Hart.none.regs } } [(2, 0x0002000401000400)])
      (fun t => rx t 1 == 390144 && t.h.csr.vl == 390144 && t.h.csr.rlen == 512 && t.h.csr.rows == 254 && t.h.csr.tiles == 3 &&
        t.h.csr.fold == 2) = true := by decide +kernel

/-- The example before R58: unsigned 5-bit 31 and signed 3-bit −4 into signed 4 bits give −5, or 7 with SAT. -/
def addDev : State :=
  { vdev ⟨0, 5, false, 0⟩ ⟨1, 3, true, 0⟩ ⟨1, 4, true, 0⟩ with planes := (List.range 5).map (fun k => (40 + k, 1)) ++ [(58, 1)] }

theorem test_vadd_wraps : goes (.vadd ctl v3) addDev (fun t => elemAt t 3 4 0 == 0b1011 && t.h.csr.fcsr.toNat % 256 == 0) = true := by
  decide +kernel

theorem test_vadds_saturates :
    goes (.vadds ctl v3) addDev (fun t => elemAt t 3 4 0 == 7 && t.h.csr.fcsr.toNat % 256 == 0x20) = true := by decide +kernel

/-- The example after R65: 5 to TP6 is a tie; 300 overflows. -/
theorem test_fit_tp6 :
    (fitFloat 9 0 0 (.ofInt 5)).1 = 0x18 ∧ (fitFloat 9 4 0 (.ofInt 5)).1 = 0x19 ∧ (fitFloat 9 0 0 (.ofInt 300)).1 = 0x1f := by decide +kernel

/-- Example after R84: a row of 1,024 elements of width 12 in format 0x02, and raw. -/
theorem test_record_bytes : recordBytes 2 1024 12 = 520 ∧ recordBytes 0 1024 12 = 1536 := by decide +kernel

/-- R150 and the example of R167's procedure: LDU's data lands by t + 12, its address by t + 1. -/
theorem test_ldu_landing :
    dec [0x010907d8] = .ok (.ldu { ctl with imm := 1, sc := 11 } ⟨1, 4⟩) ∧
    (costOf (.ldu { ctl with imm := 1 } ⟨1, 4⟩) dev).lands = [(1, 1), (4, 12)] := by decide +kernel

/-- R156: the extreme values. -/
theorem test_divide_overflow :
    goes (.div ctl x3) (withX dev [(2, 0x8000000000000000), (3, -1)]) (fun t => rx t 1 == 0x8000000000000000) = true ∧
    goes (.rem ctl x3) (withX dev [(2, 0x8000000000000000), (3, -1)]) (fun t => rx t 1 == 0) = true ∧
    goes (.div ctl x3) (withX dev [(2, 5)]) (fun t => rx t 1 == -1) = true := by decide +kernel

/-- R245, R247 and the table after R251: seed 1, seed 0x1a01 and the records of the worked example. -/
theorem test_seeds_and_records :
    seedBits 1 = 0x7b347a25b4b0b111 ∧ seedBits 0x1a01 = 0xf7b347a25b4b0b11 ∧
    (List.range 4).map (coefficient 0x51e30001) = [3, -2, 1, 5] ∧ (List.range 4).map (coefficient 0x702c0001) = [-4, 2, 0, 7] := by
  decide +kernel

/-- The example after R356: gang 0x42, its hart 3 at 0x0030_0000_0120 executes TRAP 0x55 without a handler. -/
theorem test_trap_record :
    goes (.trap { ctl with imm := 0x55 } ⟨0⟩)
      { dev with gangs := [{ gang with id := 0x42 }], h := { hart with gang := 0x42, idx := 3, pc := 0x300000000120 } }
      (fun t => t.records.map (fun r => recordDwords r false) ==
        [[0x8001000000030100, 0x0000004200000003, 0x300000000120, 0, 0x55, 0xfff, 0, 0]]) = true := by decide +kernel

/-- The example after R363: the word 0x0000_0f80. -/
theorem test_illegal_word_traps :
    goes (.trapEntry 2 1 0xf80) trapping
      (fun t => t.h.csr.eaddr == 0xf80 && t.h.csr.epc == 0 && t.h.pc == 0x1000) = true := by decide +kernel

/-- The example after R407: the pair (2, 7) is inserted in slot 3, (4, 5) finds slots 7 and 8 taken, and the SHACC traps. -/
def haccDev : State :=
  { trapping with
    gangs := [{ gang with launch := { gang.launch with sbase := 1024, scount := 4, scap := 8 } }]
    h := { trapping.h with x := (withX dev [(2, 0x3000)]).h.x }
    mem := dws [(2 ^ 40 + 1032, 3), (2 ^ 40 + 1600, 0x700000002), (2 ^ 40 + 1608, 0x500000004), (2 ^ 40 + 1616, 0x100000005),
      (2 ^ 40 + 0x3000, 0x200000204), (2 ^ 40 + 0x3058, 0xffffffff), (2 ^ 40 + 0x3078, 40), (2 ^ 40 + 0x3080, 41)] }

theorem test_hash_overflow :
    dec [0x01887700] = .ok (.shacc ctl ⟨0, 3, 2, 1⟩) ∧
    goes (.shacc ctl ⟨0, 3, 2, 1⟩) haccDev (fun t =>
      leNat (bytesAt t.mem (2 ^ 40 + 0x3000) 8) == 0x300000224 && leNat (bytesAt t.mem (2 ^ 40 + 0x3058) 8) == 0x700000002 &&
      t.h.csr.resume == 1 && t.h.csr.ecause.toNat % 65536 == 0x0a02 && t.h.csr.eaddr == 0x3000 && rx t 3 == 0) = true := by decide +kernel

/-- R150, R154, R156, R159, R302: sums wrap, a source that is also the destination, a taken branch, an atomic's old value. -/
theorem test_scalar_steps :
    goes (.add ctl x3) (withX dev [(2, -1), (3, 2)]) (fun t => rx t 1 == 1 && t.h.pc == 4) = true ∧
    goes (.sub ctl ⟨0, 1, 2, 1⟩) (withX dev [(1, 3), (2, 2)]) (fun t => rx t 1 == -1) = true ∧
    goes (.addi { ctl with imm := -8 } ⟨0, 0⟩) dev (fun t => rx t 0 == 0) = true ∧
    goes (.mulh ctl x3) (withX dev [(2, -1), (3, 2)]) (fun t => rx t 1 == -1) = true := by decide +kernel

end Sys2Proof.Tests
end

section
/-! The start of copies (R258, R261). -/
namespace Sys2Proof.Machine

/-- A LINEAR copy of one byte at the head of channel 0 whose start cy is 4. It has not started, and it is frozen. -/
def frozenHead : Copy :=
  { id := 3, chan := 0, gang := 1, hart := 0, part := 0, asid := 0, pc := 0, tmpl := [0x10, 0, 0, 0, 0, 0, 0, 0], sreq := 0
    tag := 0, off := 4, tidx := 0, disp := 0, issueCy := 0, csr := Csrs.init, core := 0, started := false, frozen := true
    chunks := [], indices := [], limit := none, pos := 0, units := 0, walk := none, reported := [], errorResp := false, lag := 0
    lost := false }

/-- The device in that cy, the copy's elastic gang running and nothing else queued. -/
def frozenHeadState : State :=
  { State.reset with cyc := 4, gangs := [{ Gang.none with id := 1, st := .running }], copies := [frozenHead] }

/-- The same copy once COPY_START has let it begin: its one chunk waits. -/
def frozenStarted : Copy := { frozenHead with started := true, units := 1, chunks := [Chunk.new 0] }

/-- A BTE serves the chunks of copies that are not frozen only. -/
theorem openChunks_of_frozen (s : State) (bte : Nat) (lock : Bool) (h : ∀ q ∈ s.copies, q.frozen = true) :
    openChunks s bte lock = List.replicate 16 [] := by
  have none_goes (ch : Nat) : s.copies.find? (fun q => q.chan == bte * 16 + ch && q.goes) = none :=
    List.find?_eq_none.mpr fun q hq => by simp [Copy.goes, h q hq]
  simp [openChunks, none_goes, List.map_const']

/-- Where every copy is frozen, a BTE assigns no chunk cycle. -/
theorem planBte_of_frozen (s : State) (bte : Nat) (lock : Bool) (h : ∀ q ∈ s.copies, q.frozen = true) :
    planBte s bte lock = { s with free := s.free + 1 } := by
  simp [planBte, openChunks_of_frozen s bte lock h, serve]

/-- The frozen copy begins, and its chunk has no chunk cycle. -/
theorem copyStart_frozenHead :
    exec (.copyStart 0) frozenHeadState = .next { frozenHeadState with copies := [frozenStarted], free := 1 } := by
  have passes : exec (.copyStart 0) frozenHeadState = .next (planBte { frozenHeadState with copies := [frozenStarted] } 0 false) := rfl
  rw [passes, planBte_of_frozen _ _ _ (by simp [frozenStarted, frozenHead])]
  rfl

theorem frozenHead_linear : LinearCopy frozenHead 1 := by
  unfold LinearCopy
  decide +kernel

end Sys2Proof.Machine

open Sys2Proof Sys2Proof.Machine

/-- Refutes O45: the clause on COPY_START lacks the premise that the copy is not frozen. A frozen copy passes every test of the start,
but the BTE gives its chunks no cycle (R261, R352): the chunk of `frozenHead` keeps the issue cy 2^64, where the statement has the cy
of the event, 4. -/
theorem not_copiesStartAndRetry : ¬ Obligations.CopiesStartAndRetry := by
  unfold Obligations.CopiesStartAndRetry
  intro h
  obtain ⟨-, -, start, -⟩ := h frozenHeadState frozenHead 1
  obtain ⟨t, q', ran, frame, -, -, planned⟩ := start ⟨rfl, rfl, rfl, rfl, by decide⟩
    ⟨⟨.inl rfl, rfl, rfl⟩, rfl⟩ (by rintro ⟨r, hr, -⟩; exact nomatch hr) (by decide +kernel) rfl frozenHead_linear rfl rfl
    (by decide) rfl (by decide) rfl (by decide)
  have t_eq : t = { frozenHeadState with copies := [frozenStarted], free := 1 } :=
    (Host.Outcome.next.inj (ran.symm.trans copyStart_frozenHead))
  have q'_eq : q' = frozenStarted := by
    have copies_eq : t.copies = copiesWith frozenHeadState frozenHead q' := by rw [frame]
    rw [t_eq] at copies_eq
    simpa [copiesWith, frozenHeadState] using copies_eq.symm
  obtain ⟨-, -, iss_eq, -⟩ := planned 0 (Chunk.new 0) (by rw [q'_eq]; rfl)
  exact absurd iss_eq (by decide)
end

section
/-! Who moves next: the event that the agenda names or that is due, else the passing of time (R24, R39, log 4). -/
namespace Sys2Proof.Machine

/-! An entry of the calendar is taken away; none is added. -/

theorem eraseEvent_sublist (cyc : Nat) (e : Event) (c : List (Nat × Event)) : (eraseEvent cyc e c).Sublist c := by
  induction c with
  | nil => exact List.Sublist.refl _
  | cons x r ih =>
    unfold eraseEvent
    split
    · exact List.sublist_cons_self x r
    · exact ih.cons_cons x

theorem takeEvent_sublist (s : State) (e : Event) : (takeEvent s e).Sublist s.calendar := by
  unfold takeEvent
  split
  · exact eraseEvent_sublist _ _ _
  · exact eraseEvent_sublist _ _ _

/-! Where no gang is in a hold and no hart waits, an event is its own effect and nothing else. -/

/-- Only a gang in a hold keeps an event back (R372). -/
theorem heldBack_eq_false {s : State} (no_hold : ∀ g ∈ s.gangs, g.hold = none) (e : Event) : heldBack s e = false := by
  unfold heldBack
  exact List.any_eq_false.mpr fun g hg => by simp [no_hold g hg]

/-- The gangs that a start of a copy hastens are those in a hold, and the waits that an event may settle are those of its start. -/
theorem runEvent_eq_execEvent {e : Event} {s : State} (no_wait : ∀ h ∈ allHarts s, h.wait = none)
    (no_hold : (∀ chan, e ≠ .copyStart chan) ∨ ∀ t, execEvent e s = .next t → ∀ g ∈ t.gangs, g.hold = none) :
    runEvent e s = execEvent e s := by
  have none_settles : (allHarts s).filter (fun h => h.wait.isSome) = [] :=
    List.filter_eq_nil_iff.mpr fun h hh => by simp [no_wait h hh]
  unfold runEvent
  rw [none_settles]
  cases ran : execEvent e s with
  | fault r => rfl
  | refused r => rfl
  | next t =>
    cases e
    case copyStart chan =>
      have none_hastens : t.gangs.filter (fun g => g.hold.isSome) = [] :=
        List.filter_eq_nil_iff.mpr fun g hg => by
          simp [no_hold.resolve_left (fun h => h chan rfl) t ran g hg]
      simp only [none_hastens, List.foldl_nil]
    all_goals rfl

theorem runDue_eq_runEvent {e : Event} {s : State} (no_trap : trapBefore s e = none) (t : State) : runDue e s t = runEvent e t := by
  unfold runDue
  rw [no_trap]

/-! The event that is due is the calendar's least entry. -/

/-- The entries of the calendar that are due and that no hold keeps back. -/
def dueEntries (s : State) : List (Nat × Event) := s.calendar.filter (fun x => decide (x.1 ≤ s.cyc) && !heldBack s x.2)

theorem dueEvent_eq_argmin (s : State) : dueEvent s = ((dueEntries s).argmin Prod.fst).map Prod.snd := by
  unfold dueEvent List.argmin dueEntries
  refine congrArg (fun f => Option.map Prod.snd (List.foldl f none _)) ?_
  funext b x
  cases b with
  | none => rfl
  | some y => rfl

theorem mem_dueEntries {s : State} (no_hold : ∀ g ∈ s.gangs, g.hold = none) {x : Nat × Event} :
    x ∈ dueEntries s ↔ x ∈ s.calendar ∧ x.1 ≤ s.cyc := by
  simp [dueEntries, heldBack_eq_false no_hold]

/-- An entry that is due, every other one being later, is the one that happens. -/
theorem dueEvent_of_earliest {s : State} (no_hold : ∀ g ∈ s.gangs, g.hold = none) {cy : Nat} {e : Event}
    (entered : (cy, e) ∈ s.calendar) (due : cy ≤ s.cyc) (earliest : ∀ x ∈ s.calendar, x ≠ (cy, e) → cy < x.1) :
    dueEvent s = some e := by
  have mem : (cy, e) ∈ dueEntries s := (mem_dueEntries no_hold).mpr ⟨entered, due⟩
  rw [dueEvent_eq_argmin]
  cases first : (dueEntries s).argmin Prod.fst with
  | none => simp [List.argmin_eq_none.mp first] at mem
  | some m =>
    have m_le : m.1 ≤ cy := List.le_of_mem_argmin mem first
    have m_mem : m ∈ s.calendar := ((mem_dueEntries no_hold).mp (List.argmin_mem first)).1
    have m_eq : m = (cy, e) := by_contra fun ne => absurd (earliest m m_mem ne) (Nat.not_lt.mpr m_le)
    rw [m_eq]
    rfl

/-! The passing of time. -/

/-- The later cys in which an entry of the calendar falls due, a hart may issue or a fence releases. -/
def laterCys (s : State) : List Nat :=
  ((s.calendar.map (fun e => e.1)) ++ ((allHarts s).filter (mayIssue s)).map (fun h => h.next) ++
    ((allHarts s).flatMap (fun h => h.fences)).map FenceHold.end_).filter (fun t => decide (s.cyc < t))

theorem nextCy_eq_min (s : State) : nextCy s = (laterCys s).min?.getD (s.cyc + 1) := by
  change (match laterCys s with | [] => s.cyc + 1 | t :: r => r.foldl min t) = _
  cases laterCys s with
  | nil => rfl
  | cons t r => rw [List.min?_cons']; rfl

theorem lt_of_mem_laterCys {s : State} {t : Nat} (h : t ∈ laterCys s) : s.cyc < t :=
  of_decide_eq_true (List.mem_filter.mp h).2

theorem mem_laterCys_of_mem_calendar {s : State} {x : Nat × Event} (hx : x ∈ s.calendar) (later : s.cyc < x.1) : x.1 ∈ laterCys s :=
  List.mem_filter.mpr ⟨List.mem_append_left _ (List.mem_append_left _ (List.mem_map_of_mem hx)), decide_eq_true later⟩

theorem lt_nextCy (s : State) : s.cyc < nextCy s := by
  rw [nextCy_eq_min]
  cases least : (laterCys s).min? with
  | none => exact Nat.lt_succ_self _
  | some t => exact lt_of_mem_laterCys (List.min?_mem least)

theorem nextCy_le_of_mem_calendar {s : State} {x : Nat × Event} (hx : x ∈ s.calendar) (later : s.cyc < x.1) : nextCy s ≤ x.1 := by
  have mem := mem_laterCys_of_mem_calendar hx later
  rw [nextCy_eq_min]
  cases least : (laterCys s).min? with
  | none => simp [List.min?_eq_none_iff.mp least] at mem
  | some t => exact (List.min?_eq_some_iff.mp least).2 _ mem

/-! What a step does in each case. -/

theorem step_of_agenda_cons {s : State} {p : Pick} {rest : List Pick} (named : s.agenda = p :: rest) :
    step s = pick p { s with agenda := rest } := by
  unfold step
  rw [named]

theorem step_of_agenda_nil {s : State} (no_agenda : s.agenda = []) : step s = proceed s := by
  unfold step
  split
  · next cons => exact nomatch no_agenda.symm.trans cons
  · rfl

/-- The agenda brings an event about, unless the calendar or a hold keeps it for later. -/
theorem pick_event_of_due {s : State} {e : Event} (now : notYet s e = false) (not_held : heldBack s e = false)
    (no_trap : trapBefore s e = none) : pick (.event e) s = runEvent e { s with calendar := takeEvent s e } := by
  simp only [pick, now, not_held, Bool.or_self, Bool.false_eq_true, if_false, runDue_eq_runEvent no_trap]

theorem pick_event_of_notYet {s : State} {e : Event} (later : notYet s e = true) : pick (.event e) s = .next s := by
  simp only [pick, later, Bool.true_or, if_true]

theorem proceed_of_dueEvent {s : State} {e : Event} (due : dueEvent s = some e) (no_trap : trapBefore s e = none) :
    proceed s = runEvent e { s with calendar := eraseEvent s.cyc e s.calendar } := by
  simp only [proceed, due, runDue_eq_runEvent no_trap]

theorem proceed_of_nobody {s : State} (no_due : dueEvent s = none) (no_polled : polledEvent s = none) (no_hart : nextHart s = none) :
    proceed s = .next { s with cyc := nextCy s } := by
  simp only [proceed, no_due, no_polled, no_hart]

end Sys2Proof.Machine

open Sys2Proof Sys2Proof.Machine

/-- Settles O48: a case each for the agenda's event, one that must wait, the due event and the passing of time. -/
theorem eventsHappenAndTimePasses : Obligations.EventsHappenAndTimePasses := by
  unfold Obligations.EventsHappenAndTimePasses
  intro s e rest
  refine ⟨?named, ?notYet, ?due, ?nobody⟩
  case named =>
    rintro ⟨no_wait, no_hold⟩ named now no_trap
    exact ⟨_, fun x hx => (takeEvent_sublist { s with agenda := rest } e).subset hx, fun no_haste =>
      calc step s
        _ = pick (.event e) { s with agenda := rest } := step_of_agenda_cons named
        _ = runEvent e _ := pick_event_of_due now (heldBack_eq_false (s := { s with agenda := rest }) no_hold e) no_trap
        _ = execEvent e _ := runEvent_eq_execEvent no_wait no_haste⟩
  case notYet => exact fun named later => (step_of_agenda_cons named).trans (pick_event_of_notYet later)
  case due =>
    rintro ⟨no_wait, no_hold⟩ no_agenda no_trap cy entered due earliest
    exact ⟨_, fun x hx => (eraseEvent_sublist s.cyc e s.calendar).subset hx, fun no_haste =>
      calc step s
        _ = proceed s := step_of_agenda_nil no_agenda
        _ = runEvent e _ := proceed_of_dueEvent (dueEvent_of_earliest no_hold entered due earliest) no_trap
        _ = execEvent e _ := runEvent_eq_execEvent no_wait no_haste⟩
  case nobody =>
    intro no_agenda no_due no_polled no_hart
    exact ⟨_, (step_of_agenda_nil no_agenda).trans (proceed_of_nobody no_due no_polled no_hart), rfl, lt_nextCy s,
      fun x hx => nextCy_le_of_mem_calendar hx⟩
end

section
/-! Vector instructions whose registers are resident: the frame around the effect (R50, R347, R368, R369). -/
namespace Sys2Proof.Machine

/-! The order of references changes nothing that an operand reads. -/

theorem vregAt_setVreg (h : Hart) (k n : Nat) (r : VReg) :
    vregAt (setVreg h k r) n = if n = k ∧ n < 64 then r else vregAt h n := by
  unfold vregAt setVreg
  by_cases hk : k < 64 <;> by_cases hn : n < 64 <;> simp [hk, hn, Vector.getElem_set, eq_comm]
  omega

theorem setVreg_eq (h : Hart) (n : Nat) (r : VReg) : setVreg h n r = { h with regs := (setVreg h n r).regs } := by
  unfold setVreg
  split <;> rfl

/-- The references of a list of registers, one by one. -/
theorem foldl_reference (ns : List Nat) (h : Hart) :
    let h' := ns.foldl (fun h n => setVreg h n { vregAt h n with lastRef := h.refs }) h
    h' = { h with regs := h'.regs } ∧
    ∀ n, vregAt h' n = if n ∈ ns ∧ n < 64 then { vregAt h n with lastRef := h.refs } else vregAt h n := by
  induction ns generalizing h with
  | nil => exact ⟨rfl, fun n => by simp⟩
  | cons k r ih =>
    obtain ⟨frame, regs⟩ := ih (setVreg h k { vregAt h k with lastRef := h.refs })
    have refs_eq : (setVreg h k { vregAt h k with lastRef := h.refs }).refs = h.refs := by rw [setVreg_eq]
    refine ⟨?_, fun n => ?_⟩
    · rw [List.foldl_cons, frame, setVreg_eq]
    · rw [List.foldl_cons, regs n, refs_eq, vregAt_setVreg]
      by_cases hn : n = k
      · subst hn
        by_cases h64 : n < 64 <;> simp [h64]
      · simp [hn]

theorem touchRegs_eq (s : State) (names : List Named) :
    touchRegs s names = { s with h := { s.h with refs := s.h.refs + 1, regs := (touchRegs s names).h.regs } } :=
  congrArg (fun h => { s with h := h }) (foldl_reference (namedRegs names) { s.h with refs := s.h.refs + 1 }).1

theorem vreg_touchRegs (s : State) (names : List Named) (n : Nat) :
    vreg (touchRegs s names) n =
      if n ∈ namedRegs names ∧ n < 64 then { vreg s n with lastRef := s.h.refs + 1 } else vreg s n :=
  (foldl_reference (namedRegs names) { s.h with refs := s.h.refs + 1 }).2 n

@[simp] theorem vreg_touchRegs_first (s : State) (names : List Named) (n : Nat) :
    (vreg (touchRegs s names) n).first = (vreg s n).first := by
  rw [vreg_touchRegs]
  split <;> rfl

@[simp] theorem touchRegs_csr (s : State) (names : List Named) : (touchRegs s names).h.csr = s.h.csr := by rw [touchRegs_eq]
@[simp] theorem touchRegs_core (s : State) (names : List Named) : (touchRegs s names).h.core = s.h.core := by rw [touchRegs_eq]
@[simp] theorem touchRegs_hot (s : State) (names : List Named) : (touchRegs s names).h.hot = s.h.hot := by rw [touchRegs_eq]
@[simp] theorem touchRegs_free (s : State) (names : List Named) : (touchRegs s names).free = s.free := by rw [touchRegs_eq]
@[simp] theorem touchRegs_planes (s : State) (names : List Named) : (touchRegs s names).planes = s.planes := by rw [touchRegs_eq]
@[simp] theorem touchRegs_fencedRows (s : State) (names : List Named) : (touchRegs s names).fencedRows = s.fencedRows := by
  rw [touchRegs_eq]
@[simp] theorem touchRegs_poisonLane (s : State) (names : List Named) : (touchRegs s names).poisonLane = s.poisonLane := by
  rw [touchRegs_eq]
@[simp] theorem touchRegs_armed (s : State) (names : List Named) : (touchRegs s names).armed = s.armed := by rw [touchRegs_eq]
@[simp] theorem touchRegs_calendar (s : State) (names : List Named) : (touchRegs s names).calendar = s.calendar := by
  rw [touchRegs_eq]
@[simp] theorem foldOf_touchRegs (s : State) (names : List Named) : foldOf (touchRegs s names) = foldOf s := by
  rw [touchRegs_eq]; rfl
@[simp] theorem dOf_touchRegs (s : State) (names : List Named) (w : Nat) : dOf (touchRegs s names) w = dOf s w := by
  rw [touchRegs_eq]; rfl
@[simp] theorem spotOf_touchRegs (s : State) (names : List Named) (e : Nat) : spotOf (touchRegs s names) e = spotOf s e := by
  rw [touchRegs_eq]; rfl
@[simp] theorem bitsAt_touchRegs (s : State) (names : List Named) (q : Spot) (p w : Nat) :
    bitsAt (touchRegs s names) q p w = bitsAt s q p w := by rw [touchRegs_eq]; rfl
@[simp] theorem hotBits_touchRegs (s : State) (names : List Named) (l : Loc) (w e f v : Nat) :
    hotBits (touchRegs s names) l w e f v = hotBits s l w e f v := by rw [touchRegs_eq]; rfl
@[simp] theorem predBit_touchRegs (s : State) (names : List Named) (p e : Nat) :
    predBit (touchRegs s names) p e = predBit s p e := by rw [touchRegs_eq]; rfl
@[simp] theorem elemBits_touchRegs (s : State) (names : List Named) (n w e : Nat) :
    elemBits (touchRegs s names) n w e = elemBits s n w e := by
  unfold elemBits
  simp only [vreg_touchRegs_first, touchRegs_hot, hotBits_touchRegs, touchRegs_free, bitsAt_touchRegs, spotOf_touchRegs]
@[simp] theorem elemInt_touchRegs (s : State) (names : List Named) (d : Desc) (n e : Nat) :
    elemInt (touchRegs s names) d n e = elemInt s d n e := by
  unfold elemInt
  rw [elemBits_touchRegs]

theorem GrantSound.touch {s : State} (g : GrantSound s) (names : List Named) : GrantSound (touchRegs s names) := by
  rw [touchRegs_eq]; exact g

/-! Without poison nothing read is poisoned. -/

theorem spotPoisoned_of_clean {s : State} (clean : s.poisonLane = []) (q : Spot) (p d : Nat) : spotPoisoned s q p d = false := by
  simp [spotPoisoned, clean]

theorem elemPoisoned_of_clean {s : State} (clean : s.poisonLane = []) (n w e : Nat) : elemPoisoned s n w e = false := by
  unfold elemPoisoned
  split
  · exact spotPoisoned_of_clean clean _ _ _
  · rfl

theorem predPoisoned_of_clean {s : State} (clean : s.poisonLane = []) (p e : Nat) : predPoisoned s p e = false := by
  simp [predPoisoned, spotPoisoned_of_clean clean]

/-! Registers that pass every check and need no swap. -/

/-- The named registers are vector registers of their widths, resident, and within the plane budget. -/
def Prepared (s : State) (names : List Named) : Prop :=
  (∀ x ∈ names, x.table = false ∧ (vreg s x.reg).kind = 1 ∧ x.width.getD 0 ≤ (vreg s x.reg).width ∧
    (vreg s x.reg).first.isSome = true) ∧
  planesOf s (namedRegs names) ≤ 232

/-- The names are the operands, none wider than its operand. -/
def Names (names : List Named) (ops : List (BitVec 6 × Nat)) : Prop :=
  List.Forall₂ (fun x o => x.reg = o.1.toNat ∧ x.table = false ∧ x.width.getD 0 ≤ o.2) names ops

theorem Names.any_reg {names : List Named} {ops : List (BitVec 6 × Nat)} (m : Names names ops) (n : Nat) :
    names.any (fun x => x.reg == n) = ops.any (fun o => o.1.toNat == n) := by
  induction m with
  | nil => rfl
  | cons hx _ ih => simp only [List.any_cons, hx.1, ih]

theorem Names.namedRegs {names : List Named} {ops : List (BitVec 6 × Nat)} (m : Names names ops) :
    namedRegs names = (List.range 64).filter (fun n => ops.any (fun o => o.1.toNat == n)) := by
  unfold Machine.namedRegs
  exact congrArg (List.filter · _) (funext m.any_reg)

theorem Names.mem_namedRegs {names : List Named} {ops : List (BitVec 6 × Nat)} (m : Names names ops) {n : Nat} (hn : n < 64) :
    n ∈ Machine.namedRegs names ↔ n ∈ ops.map (fun o => o.1.toNat) := by
  simp [m.namedRegs, hn]

theorem Usable.prepared {s : State} {names : List Named} {ops : List (BitVec 6 × Nat)} (u : Usable s ops) (m : Names names ops) :
    Prepared s names := by
  obtain ⟨usable, budget⟩ := u
  refine ⟨fun x hx => ?_, m.namedRegs ▸ budget⟩
  clear budget
  induction m with
  | nil => exact nomatch hx
  | @cons x' o _ _ fits _ ih =>
    obtain ⟨reg_eq, no_table, le⟩ := fits
    rcases List.mem_cons.mp hx with rfl | hx
    · obtain ⟨kind, width, p, first, -⟩ := usable o List.mem_cons_self
      rw [reg_eq]
      exact ⟨no_table, kind, le.trans width, by rw [first]; rfl⟩
    · exact ih (fun o ho => usable o (List.mem_cons_of_mem _ ho)) hx

theorem firstSome_eq_none {α β : Type} {l : List α} {f : α → Option β} (h : ∀ a ∈ l, f a = none) : firstSome l f = none := by
  induction l with
  | nil => rfl
  | cons a r ih =>
    unfold firstSome
    rw [h a List.mem_cons_self]
    exact ih fun b hb => h b (List.mem_cons_of_mem _ hb)

theorem trapIf_false (t : Trap) : trapIf false t = none := rfl

theorem formatTrap_prepared {c : Ctl} {s : State} {used : List Opnd} {names : List Named} (p : Prepared s names)
    (wf : ∀ x ∈ used, (descOf c s x).wf = true) : formatTrap c s used true names = none := by
  have no_bad (given : Bool) : used.any (fun o => (ovrOf c o).isSome == given && !(descOf c s o).wf) = false :=
    List.any_eq_false.mpr fun x hx => by simp [wf x hx]
  unfold formatTrap
  simp only [no_bad, Bool.not_true, trapIf_false, Option.orElse_none]
  rw [firstSome_eq_none fun x hx => ?misfit, firstSome_eq_none fun x hx => ?undeclared]
  · rfl
  all_goals
    obtain ⟨no_table, kind, width, -⟩ := p.1 x hx
    simp [no_table, kind, trapIf, Nat.not_lt.mpr width]

theorem missing_prepared {s : State} {names : List Named} (p : Prepared s names) : missing s names = [] := by
  refine List.filter_eq_nil_iff.mpr fun n hn => ?_
  obtain ⟨x, hx, reg_eq⟩ := List.any_eq_true.mp (List.mem_filter.mp hn).2
  obtain ⟨-, -, -, resident⟩ := p.1 x hx
  simp only [beq_iff_eq] at reg_eq
  simp [isResident, ← reg_eq, resident]

theorem budgetTrap_prepared {s : State} {names : List Named} (p : Prepared s names) : budgetTrap s names = none := by
  unfold budgetTrap
  rw [if_neg (Nat.not_lt.mpr p.2)]
  simp [missing_prepared p, planesOf, planEvictions]

theorem makeResident_prepared {s : State} {names : List Named} (p : Prepared s names) : makeResident s names = .ok s := by
  unfold makeResident
  simp [missing_prepared p]

/-- On prepared registers a vector instruction comes to its effect, the registers being referenced. -/
theorem vecFrame_prepared {c : Ctl} {s : State} {used : List Opnd} {accept : Bool} {names : List Named} {extra : Option Trap}
    (k : State → State) (p : Prepared s names) (wf : ∀ x ∈ used, (descOf c s x).wf = true) (accepted : accept = true)
    (no_extra : extra = none) : vecFrame c s used accept names extra none k = .next (k (touchRegs s names)) := by
  unfold vecFrame
  simp [accepted, no_extra, formatTrap_prepared p wf, budgetTrap_prepared p, makeResident_prepared p]

end Sys2Proof.Machine
end

section
/-! What a vector instruction leaves once its results are written: the frame, poison and armed errors, and the elements. -/
namespace Sys2Proof.Machine

/-! Writes without poison or armed errors. -/

theorem markRow_of_clean {s : State} (clean : s.poisonLane = []) (core row p d : Nat) {l : List (Nat × Nat × Bool)}
    (none_bad : ∀ x ∈ l, x.2.2 = false) : markRow s core row p d l = s := by
  have all : l.all (fun x => !x.2.2) = true := List.all_eq_true.mpr fun x hx => by simp [none_bad x hx]
  simp [markRow, clean, all]

theorem strike_poisonLane (s : State) (space key : Nat) : (strike s space key).poisonLane = s.poisonLane := by
  unfold strike
  split
  · rfl
  · split <;> rfl

theorem foldl_poisonLane {β : Type} {f : State → β → State} (hf : ∀ s b, (f s b).poisonLane = s.poisonLane) (l : List β) (s : State) :
    (l.foldl f s).poisonLane = s.poisonLane := by
  induction l generalizing s with
  | nil => rfl
  | cons b r ih => exact (ih _).trans (hf s b)

theorem strikeRow_poisonLane (s : State) (core row p d : Nat) (l : List (Nat × Nat × Bool)) :
    (strikeRow s core row p d l).poisonLane = s.poisonLane := by
  unfold strikeRow
  split
  · rfl
  · exact foldl_poisonLane (fun s k => foldl_poisonLane (fun s l => strike_poisonLane _ _ _) _ _) _ _

theorem writeRow_clean {s : State} (clean : s.poisonLane = []) (core row p d : Nat) {l : List (Nat × Nat × Bool)}
    (none_bad : ∀ x ∈ l, x.2.2 = false) : (writeRow s core row p d l).poisonLane = [] := by
  unfold writeRow
  split
  · exact clean
  · rw [strikeRow_poisonLane, markRow_of_clean (by exact clean) _ _ _ _ none_bad]
    exact clean

theorem mem_of_mem_itemsBelow {hi : Nat} {items : List Item} {i : Item}
    (h : i ∈ (itemsBelow hi items).1 ∨ i ∈ (itemsBelow hi items).2) : i ∈ items := by
  induction items with
  | nil => rcases h with h | h <;> exact nomatch h
  | cons x r ih =>
    unfold itemsBelow at h
    by_cases hx : x.elem < hi
    · simp only [hx, if_true, List.mem_cons] at h ⊢
      rcases h with (h | h) | h
      · exact .inl h
      · exact .inr (ih (.inl h))
      · exact .inr (ih (.inr h))
    · simpa [hx] using h

theorem writeRows_clean {s : State} (clean : s.poisonLane = []) (p d : Nat) (rs : List Nat) {items : List Item}
    (none_bad : ∀ i ∈ items, i.poison = false) : (writeRows s p d rs items).poisonLane = [] := by
  induction rs generalizing s items with
  | nil => exact clean
  | cons r rest ih =>
    refine ih (writeRow_clean clean _ _ _ _ fun x hx => ?_) fun i hi => none_bad i (mem_of_mem_itemsBelow (.inr hi))
    obtain ⟨i, hi, rfl⟩ := List.mem_map.mp hx
    exact none_bad i (mem_of_mem_itemsBelow (.inl hi))

/-- No error is armed, and none that was struck stands in the calendar. -/
def Unarmed (s t : State) : Prop := s.armed = [] → t.armed = [] ∧ t.calendar = s.calendar

theorem writeRow_unarmed (s : State) (core row p d : Nat) (l : List (Nat × Nat × Bool)) : Unarmed s (writeRow s core row p d l) := by
  intro unarmed
  unfold writeRow markRow strikeRow
  split
  · exact ⟨unarmed, rfl⟩
  · split <;> simp [unarmed]

theorem writeRows_unarmed (s : State) (p d : Nat) (rs : List Nat) (items : List Item) : Unarmed s (writeRows s p d rs items) := by
  intro unarmed
  induction rs generalizing s items with
  | nil => exact ⟨unarmed, rfl⟩
  | cons r rest ih =>
    obtain ⟨now, kept⟩ := writeRow_unarmed s (s.h.core + r / s.h.csr.rows)
      (physRow s (s.h.core + r / s.h.csr.rows) (r % s.h.csr.rows)) p d
      ((itemsBelow ((r + 1) * s.h.csr.rlen) items).1.map (fun i => (s.h.csr.fold * (i.elem % s.h.csr.rlen), i.bits, i.poison))) unarmed
    obtain ⟨later, kept'⟩ := ih _ (itemsBelow ((r + 1) * s.h.csr.rlen) items).2 now
    exact ⟨later, kept'.trans kept⟩

theorem writeElems_clean {s : State} (clean : s.poisonLane = []) (n w : Nat) (sgn : Bool) {items : List Item}
    (none_bad : ∀ i ∈ items, i.poison = false) : (writeElems s n w sgn items).poisonLane = [] := by
  unfold writeElems
  split
  · refine writeRows_clean clean _ _ _ fun i hi => ?_
    obtain ⟨x, hx, rfl⟩ := List.mem_map.mp hi
    exact none_bad x hx
  · exact clean

theorem writeElems_unarmed (s : State) (n w : Nat) (sgn : Bool) (items : List Item) : Unarmed s (writeElems s n w sgn items) := by
  unfold writeElems
  split
  · exact writeRows_unarmed _ _ _ _ _
  · exact fun unarmed => ⟨unarmed, rfl⟩

theorem writeRows_nil (s : State) (p d : Nat) (rs : List Nat) : writeRows s p d rs [] = s := by
  induction rs with
  | nil => rfl
  | cons r rest ih => simpa [writeRows, itemsBelow, writeRow] using ih

theorem writeElems_nil (s : State) (n w : Nat) (sgn : Bool) : writeElems s n w sgn [] = s := by
  unfold writeElems
  split
  · exact writeRows_nil _ _ _ _
  · rfl

theorem results_clean {c : Ctl} {s : State} (clean : s.poisonLane = []) (f : Nat → Nat) {bad : Nat → Bool}
    (none_bad : ∀ e, bad e = false) : ∀ i ∈ results c s f bad, i.poison = false := by
  intro i hi
  obtain ⟨e, -, found⟩ := List.mem_filterMap.mp hi
  split at found
  · cases found
    simp [none_bad, predPoisoned_of_clean clean]
  · split at found <;> cases found
    rfl

theorem results_eq_nil {c : Ctl} {s : State} (empty : s.h.csr.vl = 0) (f : Nat → Nat) (bad : Nat → Bool) : results c s f bad = [] := by
  simp [results, elems, empty]

/-! The frame. -/

theorem touchRegs_hart (s : State) (names : List Named) :
    (touchRegs s names).h = { s.h with refs := (touchRegs s names).h.refs, regs := (touchRegs s names).h.regs } := by
  have refs_eq : (touchRegs s names).h.refs = s.h.refs + 1 := by rw [touchRegs_eq]
  rw [refs_eq]
  exact congrArg State.h (touchRegs_eq s names)

/-- The registers named count as referenced, whatever planes the instruction has written. -/
theorem Names.referenced {names : List Named} {ops : List (BitVec 6 × Nat)} (m : Names names ops) (s : State) :
    Referenced (ops.map (fun o => o.1.toNat)) s.h (touchRegs s names).h := by
  refine ⟨by rw [touchRegs_eq], fun n hn => (vreg_touchRegs s names n).trans ?_⟩
  simp only [m.mem_namedRegs hn, hn, and_true]
  rfl

/-- The state after results were written to planes, and then `f` of the hart. -/
theorem vecFrame_of_onlyPlanes {c : Ctl} {s t u : State} {names : List Named} {ops : List (BitVec 6 × Nat)} {f : Hart → Hart}
    (m : Names names ops) (o : OnlyPlanes (touchRegs s names) u)
    (t_eq : t = { u with h := { f s.h with
      pc := pcAfter c s, issued := true, refs := (touchRegs s names).h.refs, regs := (touchRegs s names).h.regs } })
    (clean : s.poisonLane = [] → u.poisonLane = []) (unarmed : Unarmed (touchRegs s names) u) :
    VecFrame c s t (ops.map (fun x => x.1.toNat)) f := by
  have others : u = { s with
      h := u.h, planes := u.planes, poisonLane := u.poisonLane, armed := u.armed, calendar := u.calendar } := by
    have u_eq : u = { touchRegs s names with
        planes := u.planes, poisonLane := u.poisonLane, armed := u.armed, calendar := u.calendar } := by
      conv_rhs => rw [← o]
    have touched := touchRegs_eq s names
    rw [u_eq, touched]
  subst t_eq
  refine ⟨?_, m.referenced s, clean, fun none_armed => ?_⟩
  · conv_lhs => rw [others]
  · obtain ⟨armed_eq, calendar_eq⟩ := unarmed (by simpa using none_armed)
    exact ⟨armed_eq, by simpa using calendar_eq⟩

theorem pcAfter_congr {c : Ctl} {s t : State} (h : t.h.pc = s.h.pc) : pcAfter c t = pcAfter c s := by
  unfold pcAfter
  rw [h]

/-- Going on from planes written leaves the hart's registers as the references left them. -/
theorem retire_of_onlyPlanes (c : Ctl) {s u : State} {names : List Named} (o : OnlyPlanes (touchRegs s names) u) :
    retire c u = { u with h := { s.h with
      pc := pcAfter c s, issued := true, refs := (touchRegs s names).h.refs, regs := (touchRegs s names).h.regs } } := by
  have hart := touchRegs_hart s names
  have pc_eq : u.h.pc = s.h.pc := by rw [o.h, hart]
  simp only [retire, goTo, modH, nextPc_eq, pcAfter_congr pc_eq, o.h]
  rw [hart]

/-! The elements. -/

theorem planeAt_congr {s t : State} (h : t.planes = s.planes) (core row pl : Nat) : planeAt t core row pl = planeAt s core row pl := by
  unfold planeAt
  rw [h]

theorem elemAt_of_first {s : State} {n p : Nat} (first : (vreg s n).first = some p) (w e : Nat) :
    elemAt s n w e = bitsAt s (spotOf s e) p w := by
  unfold elemAt
  rw [first]

/-- What an element holds depends on the planes and the place that the grant gives it. -/
theorem bitsAt_spotOf_congr {s t : State} (planes : t.planes = s.planes) (csr : t.h.csr = s.h.csr) (core : t.h.core = s.h.core)
    (fenced : t.fencedRows = s.fencedRows) (p w e : Nat) : bitsAt t (spotOf t e) p w = bitsAt s (spotOf s e) p w := by
  unfold bitsAt spotOf physRow foldOf planeAt
  simp only [planes, csr, core, fenced]

end Sys2Proof.Machine
end

section
/-! What the element-wise integer instructions write (R34, R36, R176): one lemma per form, and the frame. -/
namespace Sys2Proof.Machine

theorem inGrant_rowPlace {s : State} {r core row : Nat} (rows_pos : 0 < s.h.csr.rows) (below : r < s.h.csr.rows * s.h.csr.tiles)
    (place : rowPlace s r = (core, row)) : InGrant s core row := by
  obtain ⟨rfl, rfl⟩ := Prod.mk.inj place
  exact ⟨r / s.h.csr.rows, r % s.h.csr.rows, row_tile below, Nat.mod_lt r rows_pos, rfl, rfl⟩

/-- A write of the granted rows leaves every other plane, and every row outside the grant. -/
theorem writeRows_planesKept {s : State} (g : GrantSound s) {p d : Nat} (fits : p + d ≤ 256) (items : List Item) :
    PlanesKept s (writeRows s p d (allRows s) items) p d := by
  obtain ⟨-, -, -, rows_pos, distinct⟩ := g
  intro core row pl row_lt pl_lt kept
  refine writeRows_miss s p _ _ _ fits distinct rows_pos (fun r hr => List.mem_range.mp hr) core row pl row_lt pl_lt ?_
  rcases kept with low | high | outside
  · exact .inl (.inl low)
  · exact .inl (.inr high)
  · exact .inr fun r hr place => outside (inGrant_rowPlace rows_pos (List.mem_range.mp hr) place)

theorem writeElems_planesKept {s : State} (g : GrantSound s) {n p w : Nat} (first : (vreg s n).first = some p)
    (fits : p + dOf s w ≤ 256) (sgn : Bool) (items : List Item) : PlanesKept s (writeElems s n w sgn items) p (dOf s w) := by
  unfold writeElems
  rw [first]
  exact writeRows_planesKept g fits _

theorem elemAt_writeElems {s : State} (sgn : Bool) (items : List Item) {n p : Nat} (first : (vreg s n).first = some p) (w w' e : Nat) :
    elemAt (writeElems s n w' sgn items) n w e = bitsAt (writeElems s n w' sgn items) (spotOf s e) p w := by
  have only := writeElems_onlyPlanes s n w' sgn items
  have first' : (vreg (writeElems s n w' sgn items) n).first = some p := by
    unfold vreg
    rw [only.h]
    exact first
  rw [elemAt_of_first first']
  unfold spotOf physRow
  rw [only.h, only.fenced]

/-- The value that an element takes is the bits of its item (R36). -/
theorem resultItem_bits (c : Ctl) (s : State) (f : Nat → Nat) (bad : Nat → Bool) (e : Nat) :
    (if e < s.h.csr.vl then resultItem c s f bad e else none).map Item.bits = masked c s 0 f e := by
  unfold masked resultItem
  split
  · cases predBit s c.pred.toNat e <;> cases c.z <;> rfl
  · rfl

/-- The results of an element-wise instruction stand in the destination and nowhere else. -/
theorem writeElems_results {s : State} (g : Granted s) (c : Ctl) {n p w : Nat} (first : (vreg s n).first = some p)
    (fits : p + dOf s w ≤ 256) (sgn : Bool) (f : Nat → Nat) (bad : Nat → Bool) :
    ElemsWritten s (writeElems s n w sgn (results c s f bad)) n w (masked c s 0 f) := by
  refine ⟨p, first, ?_, fun e he => ?_⟩
  · rcases g with empty | ⟨g, -⟩
    · rw [results_eq_nil empty, writeElems_nil]
      exact fun _ _ _ _ _ _ => rfl
    · exact writeElems_planesKept g first fits sgn _
  · rcases g with empty | ⟨g, below⟩
    · simp [results_eq_nil empty, writeElems_nil, masked, empty]
    · rw [elemAt_writeElems sgn _ first, elemAt_of_first first,
        writeElems_bitsAt s n w sgn _ p first fits g (results_pairwise c s f bad)
          (fun i hi => (results_lt c s f bad i hi).trans_le below) e he, results_find,
        ← resultItem_bits c s f bad]
      cases (if e < s.h.csr.vl then resultItem c s f bad e else none) <;> rfl

theorem masked_touchRegs (c : Ctl) (s : State) (names : List Named) (f : Nat → Nat) :
    masked c (touchRegs s names) 0 f = masked c s 0 f := by
  unfold masked
  simp only [touchRegs_csr, predBit_touchRegs]

theorem elemAt_touchRegs (s : State) (names : List Named) (n w e : Nat) : elemAt (touchRegs s names) n w e = elemAt s n w e := by
  unfold elemAt
  simp only [vreg_touchRegs_first, bitsAt_touchRegs, spotOf_touchRegs]

theorem Granted.touch {s : State} (g : Granted s) (names : List Named) : Granted (touchRegs s names) := by
  rw [touchRegs_eq]; exact g

theorem PlanesKept.of_touchRegs {s t : State} {names : List Named} {p d : Nat} (k : PlanesKept (touchRegs s names) t p d) :
    PlanesKept s t p d := by
  rw [touchRegs_eq] at k
  exact k

/-- Where elements are written does not depend on the order of references. -/
theorem ElemsWritten.of_touchRegs {s t : State} {names : List Named} {n w : Nat} {f : Nat → Option Nat}
    (e : ElemsWritten (touchRegs s names) t n w f) : ElemsWritten s t n w f := by
  obtain ⟨p, first, kept, written⟩ := e
  refine ⟨p, (vreg_touchRegs_first s names n).symm.trans first, ?_, fun e he => ?_⟩
  · rw [dOf_touchRegs] at kept
    exact kept.of_touchRegs
  · rw [← elemAt_touchRegs s names]
    exact written e (by simpa using he)

theorem dOf_mono {s : State} {w w' : Nat} (h : w ≤ w') : dOf s w ≤ dOf s w' :=
  Nat.div_le_div_right (by omega)

/-- The state after the results of an element-wise instruction. -/
theorem results_written {c : Ctl} {s : State} {names : List Named} {n p w : Nat} (g : Granted s)
    (first : (vreg s n).first = some p) (fits : p + dOf s w ≤ 256) (sgn : Bool) (f : Nat → Nat) (bad : Nat → Bool) :
    ElemsWritten s (writeElems (touchRegs s names) n w sgn (results c (touchRegs s names) f bad)) n w (masked c s 0 f) := by
  have written := (writeElems_results (g.touch names) c ((vreg_touchRegs_first s names n).trans first)
    (by simpa using fits) sgn f bad).of_touchRegs
  rwa [masked_touchRegs] at written

/-- The element-wise write of one instruction: its results, then the next instruction. -/
theorem results_frame {c : Ctl} {s : State} {names : List Named} {ops : List (BitVec 6 × Nat)} (m : Names names ops) (n w : Nat)
    (sgn : Bool) (f : Nat → Nat) {bad : Nat → Bool} (none_bad : s.poisonLane = [] → ∀ e, bad e = false) :
    VecFrame c s (retire c (writeElems (touchRegs s names) n w sgn (results c (touchRegs s names) f bad)))
      (ops.map (fun x => x.1.toNat)) id := by
  have only := writeElems_onlyPlanes (touchRegs s names) n w sgn (results c (touchRegs s names) f bad)
  refine vecFrame_of_onlyPlanes (f := id) m only (retire_of_onlyPlanes c only) (fun clean => ?_) (writeElems_unarmed _ _ _ _ _)
  have clean' : (touchRegs s names).poisonLane = [] := by simpa using clean
  exact writeElems_clean clean' n w sgn (results_clean clean' f (none_bad clean))

theorem vecWrites_of_results {i : Instr} {c : Ctl} {s : State} {names : List Named} {ops : List (BitVec 6 × Nat)} {n p w : Nat}
    {sgn : Bool} {f : Nat → Nat} {bad : Nat → Bool} (m : Names names ops) (g : Granted s) (first : (vreg s n).first = some p)
    (fits : p + dOf s w ≤ 256) (none_bad : s.poisonLane = [] → ∀ e, bad e = false)
    (run : exec i s = .next (retire c (writeElems (touchRegs s names) n w sgn (results c (touchRegs s names) f bad)))) :
    VecWrites i c s ops n w f :=
  ⟨_, run, results_frame m n w sgn f none_bad, results_written g first fits sgn f bad⟩

end Sys2Proof.Machine
end

section
/-! The forms of the integer instructions: two sources, three sources, one source, an index; and saturation (R57, R178 to R183). -/
namespace Sys2Proof.Machine

theorem low_eq_wrap (w : Nat) (v : Int) : low w v = wrap w v := rfl

theorem IntOp.accepted {c : Ctl} {s : State} {x : Opnd} (h : IntOp c s x) : intDesc (descOf c s x) = true := decide_eq_true h.2

/-- The operands of a list are well formed. -/
theorem wf_of_intOp {c : Ctl} {s : State} {used : List Opnd} (h : ∀ x ∈ used, IntOp c s x) : ∀ x ∈ used, (descOf c s x).wf = true :=
  fun x hx => (h x hx).1

theorem Usable.destination {s : State} {ops : List (BitVec 6 × Nat)} (u : Usable s ops) {o : BitVec 6 × Nat} (ho : o ∈ ops) :
    ∃ p, (vreg s o.1.toNat).first = some p ∧ p + dOf s o.2 ≤ 256 :=
  (u.1 o ho).2.2

theorem clean_touchRegs {s : State} (clean : s.poisonLane = []) (names : List Named) : (touchRegs s names).poisonLane = [] := by
  simpa using clean

theorem names_pair (c : Ctl) (va vd : BitVec 6) (wa wd : Nat) :
    Names [srcNamed va wa, dstNamed c vd wd] [(va, wa), (vd, wd)] :=
  .cons ⟨rfl, rfl, le_rfl⟩ (.cons ⟨rfl, rfl, le_rfl⟩ .nil)

theorem names_triple (c : Ctl) (va vb vd : BitVec 6) (wa wb wd : Nat) :
    Names [srcNamed va wa, srcNamed vb wb, dstNamed c vd wd] [(va, wa), (vb, wb), (vd, wd)] :=
  .cons ⟨rfl, rfl, le_rfl⟩ (names_pair c vb vd wb wd)

section
variable {i : Instr} {c : Ctl} {s : State}

/-- An instruction whose effect is a write of results, on registers that can be used as they stand. -/
theorem vecFrame_writes {used : List Opnd} {accept : Bool} {names : List Named} {ops : List (BitVec 6 × Nat)} {vd : BitVec 6} {w : Nat}
    {sgn : Bool} {value : State → Nat → Nat} {bad : State → Nat → Bool} {f : Nat → Nat}
    (run : exec i s = vecFrame c s used accept names none none (fun u =>
      retire c (writeElems u vd.toNat w sgn (results c u (value u) (bad u)))))
    (m : Names names ops) (usable : Usable s ops) (dest : (vd, w) ∈ ops) (g : Granted s) (ints : ∀ x ∈ used, IntOp c s x)
    (accepted : accept = true) (same : value (touchRegs s names) = f)
    (none_bad : ∀ u : State, u.poisonLane = [] → ∀ e, bad u e = false) : VecWrites i c s ops vd.toNat w f := by
  obtain ⟨-, -, p, first, fits⟩ := usable.1 _ dest
  refine vecWrites_of_results (sgn := sgn) (bad := bad (touchRegs s names)) m g first fits
    (fun clean => none_bad _ (clean_touchRegs clean _)) (run.trans ?_)
  rw [vecFrame_prepared _ (usable.prepared m) (wf_of_intOp ints) accepted rfl, same]

theorem vec3_writes {o : V3} {f : Desc → Int → Int → Int} (run : exec i s = vec3 c o s f) (intA : IntOp c s .a) (intB : IntOp c s .b)
    (intD : IntOp c s .d)
    (usable : Usable s [(o.va, (descOf c s .a).w), (o.vb, (descOf c s .b).w), (o.vd, (descOf c s .d).w)]) (g : Granted s) :
    VecWrites i c s [(o.va, (descOf c s .a).w), (o.vb, (descOf c s .b).w), (o.vd, (descOf c s .d).w)] o.vd.toNat (descOf c s .d).w
      (fun e => low (descOf c s .d).w
        (f (descOf c s .d) (elemInt s (descOf c s .a) o.va.toNat e) (elemInt s (descOf c s .b) o.vb.toNat e))) := by
  unfold vec3 at run
  refine vecFrame_writes run (names_triple ..) usable (by simp) g (by simp [intA, intB, intD])
    (by simp [intA.accepted, intB.accepted, intD.accepted]) ?_ fun u clean e => ?_
  · simp only [elemInt_touchRegs]
    rfl
  · simp only [elemPoisoned_of_clean clean, Bool.or_self]

theorem vec3d_writes {o : V3} {f : Desc → Int → Int → Int → Int} (run : exec i s = vec3d c o s f) (intA : IntOp c s .a)
    (intB : IntOp c s .b) (intD : IntOp c s .d)
    (usable : Usable s [(o.va, (descOf c s .a).w), (o.vb, (descOf c s .b).w), (o.vd, (descOf c s .d).w)]) (g : Granted s) :
    VecWrites i c s [(o.va, (descOf c s .a).w), (o.vb, (descOf c s .b).w), (o.vd, (descOf c s .d).w)] o.vd.toNat (descOf c s .d).w
      (fun e => low (descOf c s .d).w (f (descOf c s .d) (elemInt s (descOf c s .a) o.va.toNat e)
        (elemInt s (descOf c s .b) o.vb.toNat e) (elemInt s (descOf c s .d) o.vd.toNat e))) := by
  have m : Names [srcNamed o.va (descOf c s .a).w, srcNamed o.vb (descOf c s .b).w, srcNamed o.vd (descOf c s .d).w]
      [(o.va, (descOf c s .a).w), (o.vb, (descOf c s .b).w), (o.vd, (descOf c s .d).w)] :=
    .cons ⟨rfl, rfl, le_rfl⟩ (.cons ⟨rfl, rfl, le_rfl⟩ (.cons ⟨rfl, rfl, le_rfl⟩ .nil))
  unfold vec3d at run
  refine vecFrame_writes run m usable (by simp) g (by simp [intA, intB, intD])
    (by simp [intA.accepted, intB.accepted, intD.accepted]) ?_ fun u clean e => ?_
  · simp only [elemInt_touchRegs]
    rfl
  · simp only [elemPoisoned_of_clean clean, Bool.or_self]

theorem vec1_writes {va vd : BitVec 6} {f : Desc → Int → Nat → Int} (run : exec i s = vec1 c va vd s f) (intA : IntOp c s .a)
    (intD : IntOp c s .d) (usable : Usable s [(va, (descOf c s .a).w), (vd, (descOf c s .d).w)]) (g : Granted s) :
    VecWrites i c s [(va, (descOf c s .a).w), (vd, (descOf c s .d).w)] vd.toNat (descOf c s .d).w
      (fun e => low (descOf c s .d).w (f (descOf c s .a) (elemInt s (descOf c s .a) va.toNat e)
        (elemBits s va.toNat (descOf c s .a).w e))) := by
  unfold vec1 at run
  refine vecFrame_writes run (names_pair ..) usable (by simp) g (by simp [intA, intD])
    (by simp [intA.accepted, intD.accepted]) ?_ fun u clean e => elemPoisoned_of_clean clean _ _ _
  simp only [elemBits_touchRegs]
  rfl

theorem vwide_writes {o : VF} (intA : IntOp c s .a) (intD : IntOp c s .d)
    (usable : Usable s [(o.va, (descOf c s .a).w), (o.vd, (vreg s o.vd.toNat).width)]) (g : Granted s) :
    VecWrites (.vwide c o) c s [(o.va, (descOf c s .a).w), (o.vd, (vreg s o.vd.toNat).width)] o.vd.toNat (vreg s o.vd.toNat).width
      (fun e => low (vreg s o.vd.toNat).width (elemInt s (descOf c s .a) o.va.toNat e)) := by
  have run : exec (.vwide c o) s = execVwide c o s := rfl
  unfold execVwide at run
  refine vecFrame_writes run (.cons ⟨rfl, rfl, le_rfl⟩ (.cons ⟨rfl, rfl, Nat.zero_le _⟩ .nil)) usable (by simp) g
    (by simp [intA, intD]) (by simp [intA.accepted, intD.accepted]) ?_ fun u clean e => elemPoisoned_of_clean clean _ _ _
  simp only [elemInt_touchRegs]
  rfl

theorem vecIndex_writes {vd : BitVec 6} {f : Nat → Int} (run : exec i s = vecIndex c vd s f) (intD : IntOp c s .d)
    (usable : Usable s [(vd, (descOf c s .d).w)]) (g : Granted s) :
    VecWrites i c s [(vd, (descOf c s .d).w)] vd.toNat (descOf c s .d).w (fun e => low (descOf c s .d).w (f e)) := by
  unfold vecIndex at run
  exact vecFrame_writes (bad := fun _ _ => false) run (.cons ⟨rfl, rfl, le_rfl⟩ .nil) usable (by simp) g (by simp [intD]) intD.accepted rfl fun _ _ _ => rfl

end

/-! Integers bit by bit. -/

theorem low_testBit (w : Nat) (v : Int) (k : Nat) : (low w v).testBit k = (decide (k < w) && intBit v k) := by
  have nonneg : 0 ≤ v % 2 ^ w := Int.emod_nonneg v (by positivity)
  have cast_eq : ((low w v : Nat) : Int) = v % 2 ^ w := Int.toNat_of_nonneg nonneg
  have lt : low w v < 2 ^ w := by
    have := Int.emod_lt_of_pos v (show (0 : Int) < 2 ^ w by positivity)
    exact_mod_cast cast_eq.trans_lt this
  by_cases hk : k < w
  · have split_pow : (2 : Int) ^ w * (v / 2 ^ w) = 2 ^ k * (2 * (2 ^ (w - k - 1) * (v / 2 ^ w))) := by
      rw [← mul_assoc 2, ← pow_succ', ← mul_assoc, ← pow_add, show k + (w - k - 1 + 1) = w by omega]
    have bit : ((low w v / 2 ^ k % 2 : Nat) : Int) = v / 2 ^ k % 2 := by
      push_cast
      rw [cast_eq, Int.emod_def v, split_pow, Int.sub_mul_ediv_left v _ (pow_ne_zero k two_ne_zero)]
      omega
    rw [Nat.testBit_eq_decide_div_mod_eq]
    simp only [hk, decide_true, Bool.true_and, intBit, beq_eq_decide, ← bit]
    exact decide_eq_decide.mpr (by omega)
  · simp [hk, Nat.testBit_lt_two_pow (lt.trans_le (Nat.pow_le_pow_right (by decide) (Nat.not_lt.mp hk)))]


/-- A bit of a machine word made from an integer. -/
theorem getLsbD_ofInt (w : Nat) (v : Int) (k : Nat) : (BitVec.ofInt w v).getLsbD k = (decide (k < w) && intBit v k) := by
  rw [← low_testBit, BitVec.getLsbD, BitVec.toNat_ofInt]
  rfl

theorem intBit_toInt {w : Nat} (x : BitVec w) {k : Nat} (hk : k < w) : intBit x.toInt k = x.getLsbD k := by
  have h := getLsbD_ofInt w x.toInt k
  rw [BitVec.ofInt_toInt] at h
  rw [h, decide_eq_true hk, Bool.true_and]

theorem intBit_natCast (v k : Nat) : intBit (v : Int) k = v.testBit k := by
  have cast_eq : (v : Int) / 2 ^ k % 2 = ((v / 2 ^ k % 2 : Nat) : Int) := by push_cast; rfl
  rw [Nat.testBit_eq_decide_div_mod_eq, intBit, cast_eq, beq_eq_decide]
  exact decide_eq_decide.mpr (by omega)

/-- A bitwise operation on the infinite forms, bit by bit. -/
theorem low_bitwise_testBit {f : BitVec 66 → BitVec 66 → BitVec 66} {g : Bool → Bool → Bool} {w : Nat} (hw : w ≤ 66) (a b : Int)
    (bits : ∀ x y : BitVec 66, ∀ k, k < 66 → (f x y).getLsbD k = g (x.getLsbD k) (y.getLsbD k)) {k : Nat} (hk : k < w) :
    (low w (bitwise f a b)).testBit k = g (intBit a k) (intBit b k) := by
  have h66 : k < 66 := by omega
  rw [low_testBit, bitwise, intBit_toInt _ h66, bits _ _ _ h66, getLsbD_ofInt, getLsbD_ofInt]
  simp [hk, h66]

theorem descOf_width_le (c : Ctl) (s : State) (x : Opnd) : (descOf c s x).w ≤ 64 := by
  unfold descOf
  split <;> exact Nat.mod_lt _ (by decide)

theorem descOf_width_pos (c : Ctl) (s : State) (x : Opnd) : 0 < (descOf c s x).w := by
  unfold descOf
  split <;> exact Nat.succ_pos _

/-- The truth table is a natural number, bit by bit. -/
theorem truthTable_eq (tt w : Nat) (a b d : Int) :
    truthTable tt w a b d = ((List.range w).foldr (fun k acc => acc +
      (if tt.testBit (4 * (if (wrap w d).testBit k then 1 else 0) + 2 * (if (wrap w b).testBit k then 1 else 0) +
        (if (wrap w a).testBit k then 1 else 0)) then 2 ^ k else 0)) 0 : Nat) := by
  unfold truthTable
  have gen : ∀ l : List Nat, ∀ g : Nat → Bool, l.foldr (fun k (acc : Int) => acc + (if g k then 2 ^ k else 0)) 0 =
      ((l.foldr (fun k acc => acc + (if g k then 2 ^ k else 0)) 0 : Nat) : Int) := by
    intro l g
    induction l with
    | nil => rfl
    | cons k r ih =>
      simp only [List.foldr_cons, ih]
      split <;> push_cast <;> rfl
  exact gen _ fun k => tt.testBit (4 * (if (wrap w d).testBit k then 1 else 0) + 2 * (if (wrap w b).testBit k then 1 else 0) +
    (if (wrap w a).testBit k then 1 else 0))

/-- VBOOL reads the table at the three bits (R181). -/
theorem low_truthTable_testBit (imm : Word) (w : Nat) (a b d : Int) {k : Nat} (hk : k < w) :
    (low w (truthTable (imm.toNat % 256) w a b d)).testBit k =
      imm.getLsbD (4 * (if intBit d k then 1 else 0) + 2 * (if intBit b k then 1 else 0) + (if intBit a k then 1 else 0)) := by
  have small : ∀ x y z : Bool, 4 * (if x then 1 else 0) + 2 * (if y then 1 else 0) + (if z then 1 else 0) < 8 := by decide
  rw [low_testBit, truthTable_eq, intBit_natCast, bitSum_testBit]
  simp only [hk, decide_true, Bool.true_and, ← low_eq_wrap, low_testBit]
  rw [show 256 = 2 ^ 8 from rfl, Nat.testBit_mod_two_pow]
  simp only [small, decide_true, Bool.true_and]
  rfl

/-! Patterns. -/

theorem foldl_max_le {α : Type} {l : List α} {f : Nat → α → Nat} {w : Nat} (hf : ∀ m x, m ≤ w → f m x ≤ w) {m : Nat} (hm : m ≤ w) :
    l.foldl f m ≤ w := by
  induction l generalizing m with
  | nil => exact hm
  | cons x r ih => exact ih (hf m x hm)

theorem openBits_le (s : State) (l : Loc) (w e : Nat) : openBits s l w e ≤ w := by
  unfold openBits
  dsimp only
  split
  · exact le_rfl
  · refine foldl_max_le (fun m x hm => ?_) (Nat.zero_le w)
    split
    · exact le_rfl
    · split
      · exact max_le hm (min_le_left _ _)
      · exact hm

theorem hotBits_lt (s : State) (l : Loc) {w v : Nat} (e free : Nat) (hv : v < 2 ^ w) : hotBits s l w e free v < 2 ^ w := by
  unfold hotBits
  dsimp only
  have hk := openBits_le s l w e
  generalize openBits s l w e = k at hk
  have pow_eq : 2 ^ w = 2 ^ k * 2 ^ (w - k) := by rw [← pow_add, Nat.add_sub_cancel' hk]
  have low_lt : free % 2 ^ k < 2 ^ k := Nat.mod_lt _ (by positivity)
  have high_lt : v / 2 ^ k < 2 ^ (w - k) := Nat.div_lt_of_lt_mul (pow_eq ▸ hv)
  calc free % 2 ^ k + v / 2 ^ k * 2 ^ k < 2 ^ k * (v / 2 ^ k + 1) := by rw [Nat.mul_succ, Nat.mul_comm (2 ^ k)]; omega
    _ ≤ 2 ^ w := pow_eq ▸ Nat.mul_le_mul_left _ high_lt

theorem elemBits_lt (s : State) (n w e : Nat) : elemBits s n w e < 2 ^ w := by
  have held : (match (vreg s n).first with
      | some p => bitsAt s (spotOf s e) p w
      | none => 0) < 2 ^ w := by
    split
    · exact bitsAt_lt _ _ _ _
    · positivity
  unfold elemBits
  dsimp only
  split
  · exact hotBits_lt _ _ _ _ held
  · exact held

/-- Leading zeros: at most the width, zeros above, and a one below them (R179). -/
theorem clzBits_spec {w p : Nat} (hp : p < 2 ^ w) :
    clzBits w p ≤ w ∧ (∀ k, w - clzBits w p ≤ k → k < w → p.testBit k = false) ∧
    (clzBits w p < w → p.testBit (w - 1 - clzBits w p) = true) := by
  unfold clzBits
  by_cases zero : p = 0
  · simp [zero]
  · have log_lt := (Nat.log2_lt zero).mpr hp
    simp only [zero, if_false]
    refine ⟨by omega, fun k above _ => ?_, fun _ => ?_⟩
    · exact Nat.testBit_lt_two_pow (Nat.lt_log2_self.trans_le (Nat.pow_le_pow_right (by decide) (by omega)))
    · rw [show w - 1 - (w - 1 - p.log2) = p.log2 by omega]
      exact Nat.testBit_log2 zero

theorem popCount_eq_countP (w p : Nat) : popCount w p = (List.range w).countP (fun k => p.testBit k) := by
  unfold popCount
  have gen : ∀ (l : List Nat) (n : Nat), l.foldl (fun k i => if p.testBit i then k + 1 else k) n = n + l.countP (fun k => p.testBit k) := by
    intro l
    induction l with
    | nil => exact fun n => rfl
    | cons i r ih =>
      intro n
      rw [List.foldl_cons, ih, List.countP_cons]
      split <;> omega
  rw [gen, Nat.zero_add]

/-- A shift by a signed amount, clamped to 64 either way (R180). -/
theorem clamped_shift (a b : Int) :
    (if 0 ≤ max (-64) (min 64 b) then a * 2 ^ (max (-64) (min 64 b)).toNat else a / 2 ^ (-max (-64) (min 64 b)).toNat) =
      if 0 ≤ b then a * 2 ^ (min 64 b).toNat else a / 2 ^ (min 64 (-b)).toNat := by
  by_cases hb : 0 ≤ b
  · have clamp : max (-64) (min 64 b) = min 64 b := by omega
    rw [clamp, if_pos (by omega), if_pos hb]
  · have clamp : -max (-64) (min 64 b) = min 64 (-b) := by omega
    rw [if_neg (by omega), if_neg hb, clamp]

end Sys2Proof.Machine
end

section
/-! Saturating addition and subtraction (R57, R72), and the element results of the integer instructions together. -/
namespace Sys2Proof.Machine

theorem intMin_le_intMax {d : Desc} : intMin d ≤ intMax d := by
  have pow_pos (n : Nat) : (1 : Int) ≤ 2 ^ n := one_le_pow₀ (by decide)
  have half := pow_pos (d.w - 1)
  have full := pow_pos d.w
  unfold intMin intMax
  split <;> omega

theorem clampInt_eq (d : Desc) (v : Int) : clampInt d v = if v < intMin d then intMin d else if intMax d < v then intMax d else v := by
  have ordered : intMin d ≤ intMax d := intMin_le_intMax
  unfold clampInt
  split
  · omega
  · split <;> omega

/-- An element clamps when its exact value is out of range. -/
theorem clampInt_ne (d : Desc) (v : Int) : (clampInt d v != v) = (decide (v < intMin d) || decide (intMax d < v)) := by
  have ordered : intMin d ≤ intMax d := intMin_le_intMax
  rw [clampInt_eq]
  by_cases under : v < intMin d
  · simp [under, bne_iff_ne, under.ne']
  · by_cases above : intMax d < v
    · simp [under, above, bne_iff_ne, above.ne]
    · simp [under, above]

theorem fSat_getLsbD {k : Nat} (hk : k < 64) : (fSat.setWidth 64).getLsbD k = decide (k = 5) := by
  have all : ∀ k : Fin 64, (fSat.setWidth 64).getLsbD k = decide (k.val = 5) := by decide
  exact all ⟨k, hk⟩

/-- FCSR and the flags raised after a saturating instruction. -/
def satHart (hit : Bool) (h : Hart) : Hart :=
  if hit then { h with raised := h.raised ||| fSat, csr := { h.csr with fcsr := h.csr.fcsr ||| fSat.setWidth 64 } } else h

theorem orFlags_of_hit (hit : Bool) (s : State) : (if hit then orFlags s fSat else s) = modH s (satHart hit) := by
  cases hit <;> rfl

theorem satHart_fcsr (hit : Bool) (h : Hart) {k : Nat} (hk : k < 64) :
    (satHart hit h).csr.fcsr.getLsbD k = (h.csr.fcsr.getLsbD k || (decide (k = 5) && hit)) := by
  cases hit with
  | false => simp [satHart]
  | true => simp [satHart, fSat_getLsbD hk]

theorem satHart_pc (hit : Bool) (h : Hart) : (satHart hit h).pc = h.pc := by
  cases hit <;> rfl

/-- Raising SAT changes no element. -/
theorem ElemsWritten.saturate {c : Ctl} {s u : State} {n w : Nat} {f : Nat → Option Nat} (hit : Bool) (e : ElemsWritten s u n w f) :
    ElemsWritten s (retire c (modH u (satHart hit))) n w f := by
  cases hit <;> exact e

/-- The frame of a saturating instruction: FCSR and the flags raised besides. -/
theorem saturate_frame {c : Ctl} {s u : State} {names : List Named} {ops : List (BitVec 6 × Nat)} (hit : Bool) (m : Names names ops)
    (o : OnlyPlanes (touchRegs s names) u) (clean : s.poisonLane = [] → u.poisonLane = []) (unarmed : Unarmed (touchRegs s names) u) :
    VecFrame c s (retire c (modH u (satHart hit))) (ops.map (fun x => x.1.toNat)) (fun h =>
      { h with csr := { h.csr with fcsr := (satHart hit s.h).csr.fcsr }, raised := (satHart hit u.h).raised }) := by
  refine vecFrame_of_onlyPlanes m o ?_ clean unarmed
  have hart : u.h = { s.h with refs := (touchRegs s names).h.refs, regs := (touchRegs s names).h.regs } :=
    o.h.trans (touchRegs_hart s names)
  have pc_eq : (modH u (satHart hit)).h.pc = s.h.pc := (satHart_pc hit u.h).trans (by rw [hart])
  simp only [retire, goTo, modH, nextPc_eq] at pc_eq ⊢
  rw [pcAfter_congr pc_eq, hart]
  cases hit <;> rfl

/-- A saturating instruction completes with clamped results, SAT set where an active element clamps, and nothing else. -/
theorem vecSat_writes {i : Instr} {c : Ctl} {s : State} {o : V3} {f : Int → Int → Int} (run : exec i s = vecSat c o s f)
    (intA : IntOp c s .a) (intB : IntOp c s .b) (intD : IntOp c s .d)
    (usable : Usable s [(o.va, (descOf c s .a).w), (o.vb, (descOf c s .b).w), (o.vd, (descOf c s .d).w)]) (g : Granted s) :
    let v := fun e => f (elemInt s (descOf c s .a) o.va.toNat e) (elemInt s (descOf c s .b) o.vb.toNat e)
    ∃ t fl, exec i s = .next t ∧
      VecFrame c s t ([(o.va, (descOf c s .a).w), (o.vb, (descOf c s .b).w), (o.vd, (descOf c s .d).w)].map (fun x => x.1.toNat))
        (fun h => { h with csr := { h.csr with fcsr := fl }, raised := t.h.raised }) ∧
      ElemsWritten s t o.vd.toNat (descOf c s .d).w (masked c s 0 (fun e => low (descOf c s .d).w
        (if v e < intMin (descOf c s .d) then intMin (descOf c s .d)
          else if intMax (descOf c s .d) < v e then intMax (descOf c s .d) else v e))) ∧
      (s.poisonLane = [] → ∀ k, k < 64 → fl.getLsbD k = (s.h.csr.fcsr.getLsbD k || (decide (k = 5) &&
        (List.range s.h.csr.vl).any (fun e => predBit s c.pred.toNat e &&
          (decide (v e < intMin (descOf c s .d)) || decide (intMax (descOf c s .d) < v e)))))) := by
  intro v
  have m := names_triple c o.va o.vb o.vd (descOf c s .a).w (descOf c s .b).w (descOf c s .d).w
  obtain ⟨-, -, p, first, fits⟩ := usable.1 (o.vd, (descOf c s .d).w) (by simp)
  unfold vecSat at run
  rw [vecFrame_prepared _ (usable.prepared m) (wf_of_intOp (by simp [intA, intB, intD]))
    (by simp [intA.accepted, intB.accepted, intD.accepted]) rfl] at run
  simp only [elemInt_touchRegs, orFlags_of_hit, ← clampInt_eq, ← clampInt_ne] at run ⊢
  have unpoisoned (clean : s.poisonLane = []) (names : List Named) (n w e : Nat) : elemPoisoned (touchRegs s names) n w e = false :=
    elemPoisoned_of_clean (clean_touchRegs clean names) n w e
  refine ⟨_, _, run, saturate_frame _ m (writeElems_onlyPlanes _ _ _ _ _) (fun clean => ?_) (writeElems_unarmed _ _ _ _ _),
    (results_written g first fits _ _ _).saturate _, fun clean k hk => ?_⟩
  · exact writeElems_clean (clean_touchRegs clean _) _ _ _
      (results_clean (clean_touchRegs clean _) _ fun e => by simp only [unpoisoned clean, Bool.or_self])
  · rw [satHart_fcsr _ _ hk]
    simp [unpoisoned clean, actives, elems, v, List.any_filter]

/-! The four instructions whose definition states its integer otherwise. -/

theorem exec_vshv (c : Ctl) (o : V3) (s : State) : exec (.vshv c o) s = vec3 c o s (fun _ x y =>
    if 0 ≤ y then x * 2 ^ (min 64 y).toNat else x / 2 ^ (min 64 (-y)).toNat) := by
  change execVshv c o s = _
  unfold execVshv
  simp only [clamped_shift]

theorem exec_vabs (c : Ctl) (o : VF) (s : State) : exec (.vabs c o) s = vec1 c o.va o.vd s (fun _ x _ => if x < 0 then -x else x) := by
  have magnitude (v : Int) : (v.natAbs : Int) = if v < 0 then -v else v := by omega
  change execVabs c o s = _
  unfold execVabs
  simp only [magnitude]

theorem exec_vpopc (c : Ctl) (o : VF) (s : State) : exec (.vpopc c o) s = vec1 c o.va o.vd s (fun A _ p =>
    ((List.range A.w).countP (fun k => p.testBit k) : Nat)) := by
  change execVpopc c o s = _
  unfold execVpopc
  simp only [popCount_eq_countP]

theorem exec_vshr (c : Ctl) (o : VI) (s : State) :
    exec (.vshr c o) s = vec1 c o.va o.vd s (fun _ _ p => (p / 2 ^ (c.imm.toNat % 64) : Nat)) := by
  change execVshr c o s = _
  unfold execVshr
  push_cast
  rfl

end Sys2Proof.Machine

open Sys2Proof Sys2Proof.Machine

/-- Settles O9: every instruction of the group is one of the shared forms, whose results are written by element; the exact value of
each is then a matter of integers. -/
theorem vectorElementwiseResults : Obligations.VectorElementwiseResults := by
  unfold Obligations.VectorElementwiseResults
  refine ⟨?_, ?_, ?_, ?_⟩
  · intro c o s A B D ops a b gives intA intB intD usable g
    have direct {i : Instr} (f : Desc → Int → Int → Int) (run : exec i s = vec3 c o s f) : gives i (fun e => f D (a e) (b e)) :=
      vec3_writes run intA intB intD usable g
    refine ⟨direct (fun _ x y => x + y) rfl, direct (fun _ x y => x - y) rfl, direct (fun _ x y => x * y) rfl,
      direct (fun D x y => x * y / 2 ^ D.w) rfl, vec3d_writes (f := fun _ x y z => z + x * y) rfl intA intB intD usable g,
      direct (fun _ x y => min x y) rfl, direct (fun _ x y => max x y) rfl, direct _ (exec_vshv c o s)⟩
  · intro c o s A B D ops a b d gives intA intB intD usable g
    have width : D.w ≤ 66 := (descOf_width_le c s .d).trans (by decide)
    have direct {i : Instr} (f : BitVec 66 → BitVec 66 → BitVec 66) (h : Bool → Bool → Bool)
        (run : exec i s = vec3 c o s (fun _ x y => bitwise f x y))
        (bits : ∀ x y : BitVec 66, ∀ k, k < 66 → (f x y).getLsbD k = h (x.getLsbD k) (y.getLsbD k)) :
        gives i (fun e k => h (a e k) (b e k)) :=
      ⟨_, fun e k hk => low_bitwise_testBit width _ _ bits hk, vec3_writes run intA intB intD usable g⟩
    exact ⟨direct (fun x y => x &&& y) (fun x y => x && y) rfl fun x y k _ => BitVec.getLsbD_and,
      direct (fun x y => x ||| y) (fun x y => x || y) rfl fun x y k _ => BitVec.getLsbD_or,
      direct (fun x y => x ^^^ y) (fun x y => x != y) rfl fun x y k _ => by simp,
      direct (fun x y => x &&& ~~~y) (fun x y => x && !y) rfl fun x y k hk => by simp [hk],
      ⟨_, fun e k hk => low_truthTable_testBit c.imm _ _ _ _ hk,
        vec3d_writes (f := fun D x y z => truthTable (c.imm.toNat % 256) D.w x y z) rfl intA intB intD usable g⟩⟩
  · intro c o s A B D ops lo hi gives intA intB intD usable g
    exact ⟨vecSat_writes (f := fun x y => x + y) rfl intA intB intD usable g,
      vecSat_writes (f := fun x y => x - y) rfl intA intB intD usable g⟩
  · intro c o q x s va_eq vd_eq vd_eq' A D ops wide a p n gives intD g
    refine ⟨fun intA usable => ?_, fun intA usable => vwide_writes intA intD usable g, fun usable => ?_⟩
    · have direct {i : Instr} (f : Desc → Int → Nat → Int) (run : exec i s = vec1 c o.va o.vd s f) :
          gives i (fun e => f A (a e) (p e)) := vec1_writes run intA intD usable g
      have shift {i : Instr} (f : Desc → Int → Nat → Int) (run : exec i s = vec1 c q.va q.vd s f) :
          gives i (fun e => f A (a e) (p e)) := direct f (run.trans (by rw [va_eq, vd_eq]))
      exact ⟨direct (fun _ x _ => -x) rfl, direct _ (exec_vabs c o s), direct (fun _ x _ => -x - 1) rfl, direct (fun _ x _ => x) rfl,
        ⟨fun e => clzBits A.w (p e), fun e => clzBits_spec (elemBits_lt s _ _ e), direct (fun A _ p => clzBits A.w p) rfl⟩,
        direct _ (exec_vpopc c o s), shift (fun _ x _ => x * 2 ^ n) rfl, shift _ (exec_vshr c q s),
        shift (fun _ x _ => x / 2 ^ n) rfl⟩
    · rw [← vd_eq'] at usable ⊢
      exact ⟨vecIndex_writes (f := fun _ => (rx s x.xa).toInt + c.imm.toInt) rfl intD usable g,
        vecIndex_writes (f := fun e => (rx s x.xa).toInt + e) rfl intD usable g⟩
end

section
/-! The row permutes and the plane exchange (R190, R191). -/
namespace Sys2Proof.Machine

theorem permute_writes {i : Instr} {c : Ctl} {s : State} {va vd : BitVec 6} {used : List Opnd} {more : List Named}
    {mids : List (BitVec 6 × Nat)} {src : State → Nat → Option Nat} {f : Nat → Nat} (run : exec i s = permute c va vd s used more src)
    (m : Names more mids)
    (usable : Usable s ((va, (descOf c s .a).w) :: mids ++ [(vd, (descOf c s .d).w)])) (g : Granted s) (ints : ∀ x ∈ used, IntOp c s x)
    (same : ∀ names e, ((src (touchRegs s names) e).elim 0 fun i =>
      low (descOf c s .d).w (elemInt s (descOf c s .a) va.toNat i)) = f e) :
    VecWrites i c s ((va, (descOf c s .a).w) :: mids ++ [(vd, (descOf c s .d).w)]) vd.toNat (descOf c s .d).w f := by
  unfold permute at run
  refine vecFrame_writes run (.cons ⟨rfl, rfl, le_rfl⟩ (List.rel_append m (.cons ⟨rfl, rfl, le_rfl⟩ .nil))) usable (by simp) g ints
    (List.all_eq_true.mpr fun x hx => (ints x hx).accepted) (funext fun e => ?_) fun u clean e => ?_
  · simp only [elemInt_touchRegs, ← low_eq_wrap]
    rw [← same _ e]
    cases src (touchRegs s _) e <;> rfl
  · have first_off : more.any (fun n => elemPoisoned u n.reg (n.width.getD 1) e) = false :=
      List.any_eq_false.mpr fun n _ => by simp [elemPoisoned_of_clean clean]
    rw [first_off]
    split
    · exact elemPoisoned_of_clean clean _ _ _
    · rfl

theorem exec_vperm (c : Ctl) (o : V3) (s : State) :
    exec (.vperm c o) s = permute c o.va o.vd s [.a, .b, .d] [srcNamed o.vb (descOf c s .b).w] (fun u e =>
      if elemBits u o.vb.toNat (descOf c s .b).w e < u.h.csr.rlen
      then some (e - e % u.h.csr.rlen + elemBits u o.vb.toNat (descOf c s .b).w e) else none) := rfl

theorem exec_vslide (c : Ctl) (o : VVX) (s : State) :
    exec (.vslide c o) s = permute c o.va o.vd s [.a, .d] [] (fun u e =>
      if 0 ≤ ((e % u.h.csr.rlen : Nat) : Int) + (rx s o.xb).toInt ∧ ((e % u.h.csr.rlen : Nat) : Int) + (rx s o.xb).toInt < u.h.csr.rlen
      then some ((e : Int) + (rx s o.xb).toInt).toNat else none) := rfl

theorem exec_vbcast (c : Ctl) (o : VVX) (s : State) :
    exec (.vbcast c o) s = permute c o.va o.vd s [.a, .d] [] (fun u e =>
      if (rx s o.xb).toNat < u.h.csr.rlen * u.h.csr.rows
      then some (e / (u.h.csr.rlen * u.h.csr.rows) * (u.h.csr.rlen * u.h.csr.rows) + (rx s o.xb).toNat) else none) := rfl

/-- What a permute delivers where a source is there, and where none is. -/
theorem elim_ite {p : Prop} [Decidable p] (i : Nat) (f : Nat → Nat) : (if p then some i else none).elim 0 f = if p then f i else 0 := by
  split <;> rfl

theorem sub_mod_eq_div_mul (e l : Nat) : e - e % l = e / l * l := by
  have := Nat.div_add_mod' e l
  omega

theorem slide_source (e l : Nat) (k : Int) : (e : Int) + k = ((e / l * l : Nat) : Int) + (((e % l : Nat) : Int) + k) := by
  have := Nat.div_add_mod' e l
  omega

/-- The pattern of whole planes after a write of items: the item's, or the old one. -/
theorem writeRows_bitsAt {s : State} (g : GrantSound s) {p d : Nat} (fits : p + d ≤ 256) {items : List Item}
    (ascend : items.Pairwise (fun a b => a.elem < b.elem))
    (below : ∀ i ∈ items, i.elem < s.h.csr.rows * s.h.csr.tiles * s.h.csr.rlen) {e : Nat}
    (he : e < s.h.csr.rows * s.h.csr.tiles * s.h.csr.rlen) :
    bitsAt (writeRows s p d (allRows s) items) (spotOf s e) p (d * s.h.csr.fold) =
      match items.find? (fun i => decide (i.elem = e)) with
      | some i => i.bits % 2 ^ (d * s.h.csr.fold)
      | none => bitsAt s (spotOf s e) p (d * s.h.csr.fold) := by
  have fold_pos : 0 < s.h.csr.fold := g.1
  have fold_eq : foldOf (writeRows s p d (allRows s) items) = s.h.csr.fold := by
    unfold foldOf
    rw [(writeRows_onlyPlanes s p d _ items).h]
  refine Nat.eq_of_testBit_eq fun b => ?_
  rw [bitsAt_testBit, fold_eq]
  by_cases hb : b < d * s.h.csr.fold
  · have plane_lt : b / s.h.csr.fold < d := Nat.div_lt_of_lt_mul (by rwa [Nat.mul_comm] at hb)
    have place : (p + b / s.h.csr.fold - p) * s.h.csr.fold + b % s.h.csr.fold = b := by
      rw [Nat.add_sub_cancel_left, Nat.mul_comm]
      exact Nat.div_add_mod b _
    have bit := writeRows_bit s p d 0 (s.h.csr.rows * s.h.csr.tiles) items fits g ascend
      (fun i hi => ⟨by omega, by rw [Nat.zero_add]; exact below i hi⟩) (by omega) e (b % s.h.csr.fold) (p + b / s.h.csr.fold)
      ⟨by omega, by rwa [Nat.zero_add]⟩ (Nat.mod_lt _ fold_pos)
      ⟨Nat.le_add_right _ _, Nat.add_lt_add_left plane_lt p⟩
    rw [allRows, List.range_eq_range', bit, place]
    cases items.find? (fun i => decide (i.elem = e)) with
    | none => simp [bitsAt_testBit, foldOf]
    | some i => simp [hb, Nat.testBit_mod_two_pow]
  · cases items.find? (fun i => decide (i.elem = e)) with
    | none => simp [bitsAt_testBit, hb]
    | some i => simp [hb, Nat.testBit_mod_two_pow]

theorem result_small {c : Ctl} {s : State} {f : Nat → Nat} {bad : Nat → Bool} {w e : Nat} {i : Item} (small : ∀ e, f e < 2 ^ w)
    (item : (if e < s.h.csr.vl then resultItem c s f bad e else none) = some i) : i.bits < 2 ^ w := by
  have value : (if e < s.h.csr.vl then resultItem c s f bad e else none).map Item.bits = some i.bits := by rw [item]; rfl
  rw [resultItem_bits, masked] at value
  split at value
  · split at value
    · exact Option.some.inj value ▸ small e
    · split at value
      · exact Option.some.inj value ▸ Nat.two_pow_pos w
      · exact nomatch value
  · exact nomatch value

/-- Whole planes written with the results of an element-wise instruction. -/
theorem writeRows_results {s : State} (g : Granted s) (c : Ctl) {p d : Nat} (fits : p + d ≤ 256) {f : Nat → Nat} (bad : Nat → Bool)
    (small : ∀ e, f e < 2 ^ (d * s.h.csr.fold)) :
    PlanesKept s (writeRows s p d (allRows s) (results c s f bad)) p d ∧
    ∀ e, e < s.h.csr.rows * s.h.csr.tiles * s.h.csr.rlen →
      bitsAt (writeRows s p d (allRows s) (results c s f bad)) (spotOf s e) p (d * s.h.csr.fold) =
        (masked c s 0 f e).getD (bitsAt s (spotOf s e) p (d * s.h.csr.fold)) := by
  rcases g with empty | ⟨g, below⟩
  · rw [results_eq_nil empty, writeRows_nil]
    exact ⟨fun _ _ _ _ _ _ => rfl, fun e _ => by simp [masked, empty]⟩
  · refine ⟨writeRows_planesKept g fits _, fun e he => ?_⟩
    rw [writeRows_bitsAt g fits (results_pairwise c s f bad) (fun i hi => (results_lt c s f bad i hi).trans_le below) he, results_find,
      ← resultItem_bits c s f bad]
    cases item : (if e < s.h.csr.vl then resultItem c s f bad e else none) with
    | none => rfl
    | some i => exact Nat.mod_eq_of_lt (result_small small item)

theorem exchanged_of_not_hot {s : State} {va : Nat} (cold : Loc.v va ∉ s.h.hot) (p n e : Nat) :
    exchanged s va p n e = bitsAt s (spotOf s e) p (n * s.h.csr.fold) := by
  unfold exchanged
  rw [if_neg (by simpa using cold)]
  rfl

/-- The exchange of planes completes: the paired tile's planes under the predicate, and nothing else changes. -/
theorem vxch_writes {c : Ctl} {o : V3} {s : State} (g : Granted s) (wfA : (descOf c s .a).wf = true) (wfD : (descOf c s .d).wf = true)
    (usable : Usable s [(o.va, (descOf c s .a).w), (o.vd, (descOf c s .d).w)]) {pa pd : Nat}
    (firstA : (vreg s o.va.toNat).first = some pa) (firstD : (vreg s o.vd.toNat).first = some pd) (cold : Loc.v o.va.toNat ∉ s.h.hot)
    (insideA : c.imm.toNat / 65536 % 256 + (c.imm.toNat / 2 ^ 24 % 8 + 1) ≤ dOf s (descOf c s .a).w)
    (insideD : c.imm.toNat / 65536 % 256 + (c.imm.toNat / 2 ^ 24 % 8 + 1) ≤ dOf s (descOf c s .d).w) :
    let per := s.h.csr.rlen * s.h.csr.rows
    let k := c.imm.toNat % 512
    let j0 := c.imm.toNat / 65536 % 256
    let n := c.imm.toNat / 2 ^ 24 % 8 + 1
    ∃ t, exec (.vxch c o) s = .next t ∧ VecFrame c s t [o.va.toNat, o.vd.toNat] id ∧ PlanesKept s t (pd + j0) n ∧
      ∀ e, e < s.h.csr.rows * s.h.csr.tiles * s.h.csr.rlen → bitsAt t (spotOf s e) (pd + j0) (n * s.h.csr.fold) =
        (masked c s 0 (fun e => if (e / per ^^^ k) < s.h.csr.tiles
          then bitsAt s (spotOf s ((e / per ^^^ k) * per + e % per)) (pa + j0) (n * s.h.csr.fold) else 0) e).getD
          (bitsAt s (spotOf s e) (pd + j0) (n * s.h.csr.fold)) := by
  intro per k j0 n
  have m := names_pair c o.va o.vd (descOf c s .a).w (descOf c s .d).w
  obtain ⟨-, -, p, first, fits⟩ := usable.1 (o.vd, (descOf c s .d).w) (by simp)
  obtain rfl : pd = p := Option.some.inj (firstD.symm.trans first)
  have planes_fit : pd + j0 + n ≤ 256 := by
    have fits : pd + dOf s (descOf c s .d).w ≤ 256 := fits
    have inside : j0 + n ≤ dOf s (descOf c s .d).w := insideD
    omega
  have no_extra (t : Trap) : trapIf (decide (dOf s (descOf c s .a).w < j0 + n) || decide (dOf s (descOf c s .d).w < j0 + n)) t = none := by
    rw [decide_eq_false (Nat.not_lt.mpr insideA), decide_eq_false (Nat.not_lt.mpr insideD)]
    rfl
  have run : exec (.vxch c o) s = execVxch c o s := rfl
  unfold execVxch at run
  rw [vecFrame_prepared _ (usable.prepared m) (by simp [wfA, wfD]) rfl (no_extra _)] at run
  generalize names_eq : [srcNamed o.va (descOf c s .a).w, dstNamed c o.vd (descOf c s .d).w] = names at run m
  have cold' : Loc.v o.va.toNat ∉ (touchRegs s names).h.hot := by rwa [touchRegs_hot]
  simp only [vreg_touchRegs_first, firstA, firstD, exchanged_of_not_hot cold', touchRegs_csr, bitsAt_touchRegs, spotOf_touchRegs,
    decide_eq_true_eq] at run
  have only := writeRows_onlyPlanes (touchRegs s names) (pd + j0) n (allRows (touchRegs s names))
  have unpoisoned := spotPoisoned_of_clean (s := touchRegs s names)
  obtain ⟨kept, held⟩ := writeRows_results (g.touch names) c planes_fit (fun e => decide ((e / per ^^^ k) < s.h.csr.tiles) &&
    spotPoisoned (touchRegs s names) (spotOf s (e % per + (e / per ^^^ k) * per)) (pa + j0) n) (f := fun e =>
    if (e / per ^^^ k) < s.h.csr.tiles then bitsAt s (spotOf s (e % per + (e / per ^^^ k) * per)) (pa + j0) (n * s.h.csr.fold) else 0)
    (fun e => by
      split
      · rw [touchRegs_csr]
        exact bitsAt_lt _ _ _ _
      · exact Nat.two_pow_pos _)
  refine ⟨_, run, vecFrame_of_onlyPlanes m (only _) (retire_of_onlyPlanes c (only _)) (fun clean => ?_) (writeRows_unarmed _ _ _ _ _),
    kept.of_touchRegs, ?_⟩
  · refine writeRows_clean (clean_touchRegs clean names) _ _ _ (results_clean (clean_touchRegs clean names) _ fun e => ?_)
    rw [unpoisoned (clean_touchRegs clean names), Bool.and_false]
  · simp only [masked_touchRegs, touchRegs_csr, bitsAt_touchRegs, spotOf_touchRegs] at held
    simp only [Nat.add_comm _ (_ % per)]
    exact held

end Sys2Proof.Machine

open Sys2Proof Sys2Proof.Machine

/-- Settles O12: the three row permutes write element by element what they read in the row or the tile; the exchange writes whole
planes. -/
theorem permuteResults : Obligations.PermuteResults := by
  unfold Obligations.PermuteResults
  intro c o q s va_eq vd_eq g A B D l per a x two
  refine ⟨fun intA intB intD usable => ?perm, fun intA intD usable => ⟨?slide, ?bcast⟩, fun wfA wfD usable => ?exchange⟩
  case perm =>
    refine permute_writes (mids := [(o.vb, B.w)]) (exec_vperm c o s) (.cons ⟨rfl, rfl, le_rfl⟩ .nil) usable g (by simp [intA, intB, intD])
      fun names e => ?_
    simp only [elim_ite, touchRegs_csr, elemBits_touchRegs, sub_mod_eq_div_mul]
    rfl
  case slide =>
    have run := exec_vslide c q s
    rw [va_eq, vd_eq] at run
    refine permute_writes (mids := []) run .nil usable g (by simp [intA, intD]) fun names e => ?_
    rw [elim_ite, touchRegs_csr, slide_source e l]
  case bcast =>
    have run := exec_vbcast c q s
    rw [va_eq, vd_eq] at run
    refine permute_writes (mids := []) run .nil usable g (by simp [intA, intD]) fun names e => ?_
    rw [elim_ite, touchRegs_csr]
  case exchange =>
    intro k j0 n insideA insideD pa pd firstA firstD cold
    exact vxch_writes g wfA wfD usable firstA firstD cold insideA insideD
end

section
/-! Planes set to zero row by row: what a first fill and a smaller grant do (R32, R81); and SWAP (R50, R85). -/
namespace Sys2Proof.Machine

/-! Planes set to zero. -/

/-- The planes that `hit` names are zero, the others are kept, and no poison or armed error comes of it. -/
def Zeroed (s t : State) (hit : Nat → Nat → Nat → Prop) : Prop :=
  OnlyPlanes s t ∧ (s.poisonLane = [] → t.poisonLane = []) ∧ Unarmed s t ∧
  ∀ core row pl, row < 256 → pl < 256 → (hit core row pl → planeAt t core row pl = 0) ∧
    (¬hit core row pl → planeAt t core row pl = planeAt s core row pl)

theorem Zeroed.refl (s : State) : Zeroed s s fun _ _ _ => False :=
  ⟨.rfl' s, id, fun unarmed => ⟨unarmed, rfl⟩, fun _ _ _ _ _ => ⟨False.elim, fun _ => rfl⟩⟩

theorem Zeroed.trans {s t u : State} {a b : Nat → Nat → Nat → Prop} (first : Zeroed s t a) (second : Zeroed t u b) :
    Zeroed s u fun core row pl => a core row pl ∨ b core row pl := by
  obtain ⟨only, clean, unarmed, planes⟩ := first
  obtain ⟨only', clean', unarmed', planes'⟩ := second
  refine ⟨only.trans only', clean' ∘ clean, fun none_armed => ?_, fun core row pl row_lt pl_lt => ⟨fun hit => ?_, fun miss => ?_⟩⟩
  · obtain ⟨armed, calendar⟩ := unarmed none_armed
    obtain ⟨armed', calendar'⟩ := unarmed' armed
    exact ⟨armed', calendar'.trans calendar⟩
  · by_cases later : b core row pl
    · exact (planes' core row pl row_lt pl_lt).1 later
    · rw [(planes' core row pl row_lt pl_lt).2 later]
      exact (planes core row pl row_lt pl_lt).1 (hit.resolve_right later)
  · obtain ⟨not_a, not_b⟩ := not_or.mp miss
    rw [(planes' core row pl row_lt pl_lt).2 not_b, (planes core row pl row_lt pl_lt).2 not_a]

theorem Zeroed.congr {s t : State} {a b : Nat → Nat → Nat → Prop} (z : Zeroed s t a) (same : ∀ core row pl, a core row pl ↔ b core row pl) :
    Zeroed s t b :=
  (funext fun core => funext fun row => funext fun pl => propext (same core row pl) : a = b) ▸ z

/-- Rows set to zero one after another. -/
theorem Zeroed.foldl {α : Type} {f : State → α → State} {hit : α → Nat → Nat → Nat → Prop} {s : State} {l : List α}
    (step : ∀ u, OnlyPlanes s u → ∀ a ∈ l, Zeroed u (f u a) (hit a)) :
    Zeroed s (l.foldl f s) fun core row pl => ∃ a ∈ l, hit a core row pl := by
  induction l generalizing s with
  | nil => exact (Zeroed.refl s).congr (by simp)
  | cons a r ih =>
    have first := step s (.rfl' s) a List.mem_cons_self
    exact (first.trans (ih fun u only b hb => step u (first.1.trans only) b (List.mem_cons_of_mem _ hb))).congr (by simp)

/-! One row. -/

theorem strikePlanes_onlyPlanes (core row p d : Nat) (s : State) : OnlyPlanes s (strikePlanes core row p d s) := by
  unfold strikePlanes
  split
  · exact .rfl' s
  · exact .foldl (fun s i => strike_onlyPlanes s _ _) _ _

theorem strikePlanes_planes (core row p d : Nat) (s : State) : (strikePlanes core row p d s).planes = s.planes := by
  unfold strikePlanes
  split
  · rfl
  · exact foldl_planes (fun s i => strike_planes s _ _) _ _

theorem strikePlanes_poisonLane (core row p d : Nat) (s : State) : (strikePlanes core row p d s).poisonLane = s.poisonLane := by
  unfold strikePlanes
  split
  · rfl
  · exact foldl_poisonLane (fun s i => strike_poisonLane s _ _) _ _

theorem strikePlanes_unarmed (core row p d : Nat) (s : State) : Unarmed s (strikePlanes core row p d s) := by
  intro unarmed
  simp [strikePlanes, unarmed]

/-- Zero written to `d` keys from a key on. -/
theorem sget_foldl_sset_zero (key d : Nat) (m : Sparse (BitVec 1024)) (K : Nat) :
    sget 0 ((List.range d).foldl (fun m k => sset 0 m (key + k) 0) m) K = if key ≤ K ∧ K < key + d then 0 else sget 0 m K := by
  induction d with
  | zero => rw [if_neg (by omega)]; rfl
  | succ d ih =>
    rw [List.range_succ, List.foldl_append, List.foldl_cons, List.foldl_nil, sget_sset]
    by_cases last : K = key + d
    · rw [if_pos last, if_pos (by omega)]
    · have same : (key ≤ K ∧ K < key + d) ↔ key ≤ K ∧ K < key + (d + 1) := by omega
      rw [if_neg last, ih]
      simp only [same]

theorem setRow_zero (s : State) {core row p d : Nat} (row_lt : row < 256) (fits : p + d ≤ 256) :
    Zeroed s (setRow s core row p (List.replicate d 0)) fun core' row' pl => core' = core ∧ row' = row ∧ p ≤ pl ∧ pl < p + d := by
  have no_marks : (List.range (16 * (List.replicate d (0 : BitVec 1024)).length)).filter (fun _ => false) = [] := by simp
  unfold setRow
  simp only [no_marks, List.foldl_nil]
  refine ⟨OnlyPlanes.trans ?_ (strikePlanes_onlyPlanes _ _ _ _ _), fun clean => ?_, fun unarmed => ?_, fun core' row' pl row_lt' pl_lt => ?_⟩
  · rfl
  · rw [strikePlanes_poisonLane, clean]
    rfl
  · exact strikePlanes_unarmed _ _ _ _ _ unarmed
  · have zeros : (List.range (List.replicate d (0 : BitVec 1024)).length).foldl (fun m k =>
        sset 0 m (planeKey core row (p + k)) ((List.replicate d 0).getD k 0)) s.planes =
        (List.range d).foldl (fun m k => sset 0 m (planeKey core row p + k) 0) s.planes := by
      rw [List.length_replicate]
      refine List.foldl_ext _ _ _ fun m k hk => ?_
      simp [planeKey, Nat.add_assoc, List.mem_range.mp hk]
    unfold planeAt
    rw [strikePlanes_planes, zeros, sget_foldl_sset_zero]
    have key_iff : planeKey core row p ≤ planeKey core' row' pl ∧ planeKey core' row' pl < planeKey core row p + d ↔
        core' = core ∧ row' = row ∧ p ≤ pl ∧ pl < p + d := by
      unfold planeKey
      omega
    simp only [key_iff]
    exact ⟨fun hit => if_pos hit, fun miss => if_neg miss⟩

theorem mem_grantedRows {s : State} {tr : Nat × Nat} (h : tr ∈ grantedRows s) : tr.1 < s.h.csr.tiles ∧ tr.2 < s.h.csr.rows := by
  obtain ⟨r, hr, rfl⟩ := List.mem_map.mp h
  have below := List.mem_range.mp hr
  exact ⟨row_tile below, Nat.mod_lt r (Nat.pos_of_mul_pos_right (Nat.zero_lt_of_lt below))⟩

theorem grantedRows_mem {s : State} {k i : Nat} (hk : k < s.h.csr.tiles) (hi : i < s.h.csr.rows) : (k, i) ∈ grantedRows s := by
  refine List.mem_map.mpr ⟨s.h.csr.rows * k + i, List.mem_range.mpr ?_, ?_⟩
  · calc s.h.csr.rows * k + i < s.h.csr.rows * (k + 1) := by rw [Nat.mul_succ]; omega
      _ ≤ s.h.csr.rows * s.h.csr.tiles := Nat.mul_le_mul_left _ hk
  · have rows_pos : 0 < s.h.csr.rows := Nat.zero_lt_of_lt hi
    rw [Nat.mul_add_div rows_pos, Nat.mul_add_mod, Nat.div_eq_of_lt hi, Nat.mod_eq_of_lt hi, Nat.add_zero]

/-! SWAP. -/

/-- The names of SWAP. -/
def swapNames (regs : List (BitVec 6)) : List Named := regs.map fun r => { reg := r.toNat }

theorem exec_swap (regs : List (BitVec 6)) (s : State) : exec (.swap regs) s = .next (match makeResident s (swapNames regs) with
    | .ok s => s
    | .error (s, t) => takeTrap s t) := rfl

theorem mem_namedRegs_swapNames {regs : List (BitVec 6)} {n : Nat} :
    n ∈ namedRegs (swapNames regs) ↔ n < 64 ∧ ∃ r ∈ regs, r.toNat = n := by
  simp [namedRegs, swapNames]

theorem missing_swap_of_resident {regs : List (BitVec 6)} {s : State} (resident : ∀ r ∈ regs, (vreg s r.toNat).first ≠ none) :
    missing s (swapNames regs) = [] := by
  refine List.filter_eq_nil_iff.mpr fun n hn => ?_
  obtain ⟨-, r, hr, rfl⟩ := mem_namedRegs_swapNames.mp hn
  simp [isResident, resident r hr]

theorem filter_range_eq_singleton {n m : Nat} (hn : n < m) {p : Nat → Bool} (iff : ∀ k, k < m → (p k = true ↔ k = n)) :
    (List.range m).filter p = [n] := by
  have same : (List.range m).filter p = (List.range m).filter (· == n) :=
    List.filter_congr fun k hk => Bool.eq_iff_iff.mpr ((iff k (List.mem_range.mp hk)).trans (by simp))
  rw [same, List.filter_beq, List.count_eq_one_of_mem List.nodup_range (List.mem_range.mpr hn)]
  rfl

theorem missing_swap_of_one {regs : List (BitVec 6)} {s : State} {n : BitVec 6} (named : n ∈ regs) (absent : (vreg s n.toNat).first = none)
    (others : ∀ m ∈ regs, m ≠ n → (vreg s m.toNat).first ≠ none) : missing s (swapNames regs) = [n.toNat] := by
  unfold missing namedRegs
  rw [List.filter_filter]
  refine filter_range_eq_singleton n.isLt fun k _ => ?_
  simp only [Bool.and_eq_true, swapNames, List.any_map, List.any_eq_true, Function.comp_apply, beq_iff_eq, isResident,
    Bool.not_eq_true', Option.isSome_eq_false_iff, Option.isNone_iff_eq_none]
  constructor
  · rintro ⟨none_first, m, hm, rfl⟩
    by_contra differs
    exact others m hm (fun same => differs (same ▸ rfl)) none_first
  · rintro rfl
    exact ⟨absent, n, named, rfl⟩

theorem foldl_ite_add (l : List Nat) (p : Nat → Bool) (f : Nat → Nat) (a : Nat) :
    l.foldl (fun k n => if p n then k + f n else k) a = a + (l.map (fun n => if p n then f n else 0)).sum := by
  induction l generalizing a with
  | nil => rfl
  | cons n r ih =>
    rw [List.foldl_cons, ih, List.map_cons, List.sum_cons]
    split <;> omega

/-- Where there is room, nothing is evicted. -/
theorem planEvictions_of_room (s : State) (keep : List Nat) {need free : Nat} (fuel : Nat) (room : need ≤ free) :
    planEvictions s keep (fuel + 1) need [] free = some [] := by
  unfold planEvictions
  rw [if_pos room]
  rfl

/-- The lowest run of free planes (R85). -/
theorem findRun_eq {s : State} {p d : Nat} (d_pos : 0 < d) (low : 24 ≤ p) (fits : p + d ≤ 256)
    (free : ∀ k, k < d → planeTaken s (p + k) = false)
    (least : ∀ q, 24 ≤ q → q < p → ∃ k, k < d ∧ planeTaken s (q + k) = true) : findRun s d = some p := by
  have found : (List.range 232).find? (fun i => decide (i + d ≤ 232) && (List.range d).all (fun k => !planeTaken s (24 + i + k))) =
      some (p - 24) := by
    rw [List.find?_range_eq_some]
    refine ⟨?_, List.mem_range.mpr (by omega), fun i hi => ?_⟩
    · rw [Nat.add_sub_cancel' low]
      simpa [show p - 24 + d ≤ 232 by omega] using free
    · obtain ⟨k, hk, taken⟩ := least (24 + i) (by omega) (by omega)
      rw [Bool.not_eq_true', Bool.and_eq_false_iff]
      exact .inr (List.all_eq_false.mpr ⟨k, List.mem_range.mpr hk, by simp [taken]⟩)
  unfold findRun
  rw [found, Option.map_some, Nat.add_sub_cancel' low]

theorem vregAt_setVreg_same (h : Hart) {n : Nat} (hn : n < 64) (r : VReg) : vregAt (setVreg h n r) n = r := by
  rw [vregAt_setVreg, if_pos ⟨rfl, hn⟩]

theorem planes_pos (r : VReg) {fold : Nat} (fold_pos : 0 < fold) : 0 < r.planes fold := by
  refine Nat.mul_pos ?_ (Nat.div_pos (by unfold VReg.width; omega) fold_pos)
  unfold VReg.entries
  split <;> omega

end Sys2Proof.Machine
end

section
/-! SWAP of one register that has never been filled (R50, R81, R85). -/
namespace Sys2Proof.Machine

/-- The planes of a register from plane `p` on set to zero in every row of the grant. -/
def zeroRows (s : State) (r : VReg) (p : Nat) : State :=
  (grantedRows s).foldl (fun s tr =>
    setRow s (s.h.core + tr.1) (physRow s (s.h.core + tr.1) tr.2) p (List.replicate (r.planes (foldOf s)) 0)) s

theorem zeroRows_zeroed {s : State} (distinct : RowsDistinct s) (r : VReg) {p : Nat} (fits : p + r.planes s.h.csr.fold ≤ 256) :
    Zeroed s (zeroRows s r p) fun core row pl => InGrant s core row ∧ p ≤ pl ∧ pl < p + r.planes s.h.csr.fold := by
  have rows : Zeroed s (zeroRows s r p) fun core row pl => ∃ tr ∈ grantedRows s,
      core = s.h.core + tr.1 ∧ row = physRow s (s.h.core + tr.1) tr.2 ∧ p ≤ pl ∧ pl < p + r.planes s.h.csr.fold := by
    refine Zeroed.foldl fun u only tr htr => ?_
    obtain ⟨tile_lt, index_lt⟩ := mem_grantedRows htr
    unfold foldOf
    rw [only.h, physRow_congr only.fenced]
    exact setRow_zero u (distinct tr.1 tile_lt tr.2 index_lt).1 fits
  refine rows.congr fun core row pl => ⟨?_, ?_⟩
  · rintro ⟨tr, htr, rfl, rfl, plane⟩
    obtain ⟨tile_lt, index_lt⟩ := mem_grantedRows htr
    exact ⟨⟨tr.1, tr.2, tile_lt, index_lt, rfl, rfl⟩, plane⟩
  · rintro ⟨⟨k, i, tile_lt, index_lt, rfl, rfl⟩, plane⟩
    exact ⟨(k, i), grantedRows_mem tile_lt index_lt, rfl, rfl, plane⟩

/-- The first fill of a register that has planes: zeros (R81). -/
theorem fillReg_of_fresh {s : State} {n p : Nat} (first : (vreg s n).first = some p) (fresh : (vreg s n).fresh = true) :
    fillReg s n false = (modH (zeroRows s (vreg s n) p) (fun h => setVreg h n { vregAt h n with
      fresh := false, spilled := some ((vreg s n).spilled.getD (grantNow (zeroRows s (vreg s n) p) false)) }), none) := by
  unfold fillReg
  simp only [first, fresh, Bool.or_true, if_true, Bool.false_eq_true, if_false]
  rfl

/-- The hart while the swap of register `n` to plane `p` is under way. -/
def placed (s : State) (n p cost : Nat) : State :=
  modH (addSwap cost s) (fun h => setVreg h n { vregAt h n with first := some p })

/-- Where one register is missing and there is room, the swap is its fill in the lowest run of free planes (R85). -/
theorem makeResident_of_room {regs : List (BitVec 6)} {s t : State} {n : BitVec 6} {p : Nat} (need : missing s (swapNames regs) = [n.toNat])
    (named : n ∈ regs) (room : (vreg s n.toNat).planes s.h.csr.fold ≤ freePlanes s)
    (run : findRun s ((vreg s n.toNat).planes s.h.csr.fold) = some p)
    (fill : fillReg (placed s n.toNat p (moveCost s 640 [n.toNat])) n.toNat false = (t, none)) :
    makeResident s (swapNames regs) = .ok t := by
  have plan : planEvictions s (namedRegs (swapNames regs)) 65 (planesOf s [n.toNat]) [] (freePlanes s) = some [] :=
    planEvictions_of_room s _ 64 (by simpa [planesOf, foldOf] using room)
  have place (u : State) (free : findRun u ((vreg u n.toNat).planes (foldOf u)) = some p) :
      placeRegs u [n.toNat] = some (modH u (fun h => setVreg h n.toNat { vreg u n.toNat with first := some p })) := by
    simp only [placeRegs, free]
  have plane (u : State) (r : VReg) : vreg (modH u (fun h => setVreg h n.toNat r)) n.toNat = r := vregAt_setVreg_same u.h n.isLt r
  have filled : [n.toNat].filter (fun m => (swapNames regs).any (fun x => x.reg == m && x.fill)) = [n.toNat] := by
    simpa [swapNames] using ⟨n, named, rfl⟩
  have none_bare : [n.toNat].filter (fun m => !(List.contains [n.toNat] m)) = [] := by simp
  have not_bare : (swapNames regs).all (fun x => x.reg != n.toNat || !x.fill) = false :=
    List.all_eq_false.mpr ⟨{ reg := n.toNat }, List.mem_map.mpr ⟨n, named, rfl⟩, by simp⟩
  have cost : moveCost s 40 [] + 0 + moveCost s 640 [n.toNat] = moveCost s 640 [n.toNat] := Nat.zero_add _
  unfold makeResident
  simp only [need, plan, List.isEmpty_cons, Bool.false_eq_true, if_false, Option.getD_some, spillAll, List.foldl_nil, place s run,
    Option.isNone_some, filled, cost]
  rw [place (addSwap (moveCost s 640 [n.toNat]) s) run]
  simp only [none_bare, List.append_nil, List.foldl_cons, List.foldl_nil, plane, not_bare]
  change (match fillReg (placed s n.toNat p (moveCost s 640 [n.toNat])) n.toNat false with
    | (s, some e) => Except.error (s, swapTrap s e.1 e.2)
    | (s, none) => Except.ok s) = Except.ok t
  rw [fill]

/-- What the planes of the resident registers leave of the budget. -/
theorem freePlanes_eq (s : State) : freePlanes s =
    232 - ((List.range 64).map (fun m => if (vreg s m).first.isSome then (vreg s m).planes s.h.csr.fold else 0)).sum := by
  unfold freePlanes
  rw [foldl_ite_add, Nat.zero_add]
  rfl

theorem vregAt_placed (s : State) {n : Nat} (hn : n < 64) (p cost m : Nat) :
    vregAt (placed s n p cost).h m = if m = n then { vreg s n with first := some p } else vreg s m := by
  have h := vregAt_setVreg (addSwap cost s).h n m { vregAt (addSwap cost s).h n with first := some p }
  by_cases same : m = n
  · subst same
    rw [if_pos rfl]
    rw [if_pos ⟨rfl, hn⟩] at h
    exact h
  · rw [if_neg same]
    rw [if_neg fun both => same both.1] at h
    exact h

theorem placed_eq (s : State) (n p cost : Nat) : placed s n p cost =
    { s with h := { s.h with regs := (placed s n p cost).h.regs, swapCy := (placed s n p cost).h.swapCy } } := by
  have hart : (placed s n p cost).h = { (addSwap cost s).h with regs := (placed s n p cost).h.regs } := setVreg_eq _ _ _
  have swap_eq : (placed s n p cost).h.swapCy = (addSwap cost s).h.swapCy := by rw [hart]
  rw [swap_eq]
  exact congrArg (fun h => { s with h := h }) hart

theorem OnlyPlanes.eq {s t : State} (o : OnlyPlanes s t) :
    t = { s with planes := t.planes, poisonLane := t.poisonLane, armed := t.armed, calendar := t.calendar } := by
  conv_rhs => rw [← o]

/-- Planes written, and the registers and the swap's cost of the hart changed: the rest of the state stays. -/
theorem swap_frame {s u z : State} {x : Hart} (only : OnlyPlanes u z)
    (u_eq : u = { s with h := { s.h with regs := u.h.regs, swapCy := u.h.swapCy } }) (x_eq : x = { z.h with regs := x.regs }) :
    ({ z with h := x } : State) = { s with
      planes := z.planes, poisonLane := z.poisonLane, armed := z.armed, calendar := z.calendar
      h := { s.h with regs := x.regs, swapCy := x.swapCy } } := by
  have hart : x = { s.h with regs := x.regs, swapCy := x.swapCy } := by
    have swap_eq : x.swapCy = u.h.swapCy := by rw [x_eq, only.h]
    rw [swap_eq]
    conv_lhs => rw [x_eq, only.h, u_eq]
  have rest : z = { s with h := z.h, planes := z.planes, poisonLane := z.poisonLane, armed := z.armed, calendar := z.calendar } := by
    rw [only.eq, u_eq]
  rw [← hart]
  conv_lhs => rw [rest]

theorem VReg.eq_with_spilled {a r : VReg} {q : Option SpillGrant} (h : a = { r with spilled := q }) :
    a = { r with spilled := a.spilled } := by
  rw [h]

/-- The swap of one register that has never been filled, into the lowest run of free planes: its bits are zero, and nothing else
changes. -/
theorem swap_of_fresh {regs : List (BitVec 6)} {s : State} {n : BitVec 6} {p : Nat} (named : n ∈ regs) (g : GrantSound s)
    (absent : (vreg s n.toNat).first = none) (others : ∀ m ∈ regs, m ≠ n → (vreg s m.toNat).first ≠ none)
    (fresh : (vreg s n.toNat).fresh = true) (room : (vreg s n.toNat).planes s.h.csr.fold ≤ freePlanes s)
    (fits : p + (vreg s n.toNat).planes s.h.csr.fold ≤ 256)
    (run_free : findRun s ((vreg s n.toNat).planes s.h.csr.fold) = some p) :
    ∃ t, exec (.swap regs) s = .next t ∧
      t = { s with planes := t.planes, poisonLane := t.poisonLane, armed := t.armed, calendar := t.calendar
                   h := { s.h with regs := t.h.regs, swapCy := t.h.swapCy } } ∧
      (s.poisonLane = [] → s.armed = [] → t.poisonLane = []) ∧ (s.armed = [] → t.armed = [] ∧ t.calendar = s.calendar) ∧
      (∀ m, m < 64 → vregAt t.h m = if m = n.toNat
        then { vreg s n.toNat with first := some p, fresh := false, spilled := (vregAt t.h m).spilled } else vregAt s.h m) ∧
      PlanesKept s t p ((vreg s n.toNat).planes s.h.csr.fold) ∧
      ∀ core row k, row < 256 → InGrant s core row → k < (vreg s n.toNat).planes s.h.csr.fold → planeAt t core row (p + k) = 0 := by
  generalize u_def : placed s n.toNat p (moveCost s 640 [n.toNat]) = u
  have reg_of (m : Nat) : vregAt u.h m = if m = n.toNat then { vreg s n.toNat with first := some p } else vreg s m :=
    u_def ▸ vregAt_placed s n.isLt p _ m
  have reg : vreg u n.toNat = { vreg s n.toNat with first := some p } := (reg_of n.toNat).trans (if_pos rfl)
  have u_eq : u = { s with h := { s.h with regs := u.h.regs, swapCy := u.h.swapCy } } := by
    rw [← u_def]
    exact placed_eq s n.toNat p _
  obtain ⟨only, clean, unarmed, planes⟩ := zeroRows_zeroed (s := u) (p := p) (by rw [u_eq]; exact g.2.2.2.2) (vreg u n.toNat)
    (by rw [reg, u_eq]; exact fits)
  have fill := fillReg_of_fresh (s := u) (n := n.toNat) (p := p) (by rw [reg]) (by rw [reg]; exact fresh)
  generalize zeroRows u (vreg u n.toNat) p = z at only clean unarmed planes fill
  generalize (vreg u n.toNat).spilled.getD (grantNow z false) = q at fill
  rw [← u_def] at fill
  have run := exec_swap regs s
  rw [makeResident_of_room (missing_swap_of_one named absent others) named room run_free fill] at run
  have hit_iff (core row pl : Nat) : (InGrant u core row ∧ p ≤ pl ∧ pl < p + (vreg u n.toNat).planes u.h.csr.fold) ↔
      (InGrant s core row ∧ p ≤ pl ∧ pl < p + (vreg s n.toNat).planes s.h.csr.fold) := by
    rw [reg, u_eq]
    rfl
  have kept_eq (core row pl : Nat) : planeAt u core row pl = planeAt s core row pl := by rw [u_eq]; rfl
  simp only [hit_iff, kept_eq] at planes
  refine ⟨_, run, swap_frame only u_eq (setVreg_eq _ _ _), fun no_poison _ => clean (by rw [u_eq]; exact no_poison),
    fun none_armed => ?armed, fun m hm => ?regs, ?kept, ?zero⟩
  case armed =>
    obtain ⟨armed_eq, calendar_eq⟩ := unarmed (by rw [u_eq]; exact none_armed)
    exact ⟨armed_eq, calendar_eq.trans (by rw [u_eq])⟩
  case regs =>
    have z_reg (k : Nat) : vregAt z.h k = if k = n.toNat then { vreg s n.toNat with first := some p } else vreg s k := by
      rw [only.h, reg_of]
    have written := vregAt_setVreg z.h n.toNat m { vregAt z.h n.toNat with fresh := false, spilled := some q }
    by_cases same : m = n.toNat
    · rw [if_pos ⟨same, same ▸ hm⟩] at written
      have value := z_reg n.toNat
      rw [if_pos rfl] at value
      rw [if_pos same]
      exact VReg.eq_with_spilled (q := some q) (r := { vreg s n.toNat with first := some p, fresh := false })
        (written.trans (congrArg (fun v : VReg => { v with fresh := false, spilled := some q }) value))
    · rw [if_neg fun both => same both.1] at written
      have value := z_reg m
      rw [if_neg same] at value
      rw [if_neg same]
      exact written.trans value
  case kept =>
    intro core row pl row_lt pl_lt outside
    refine (planes core row pl row_lt pl_lt).2 ?_
    rintro ⟨inside, low, high⟩
    rcases outside with below | above | out
    · omega
    · omega
    · exact out inside
  case zero =>
    intro core row k row_lt inside k_lt
    exact (planes core row (p + k) row_lt (by omega)).1 ⟨inside, by omega, by omega⟩

end Sys2Proof.Machine
end

section
/-! SETVL (R31 to R33, R171). -/
namespace Sys2Proof.Machine

/-! The grant. -/

/-- A run of tile slots from the first on ends before the first that fails the test. -/
theorem takeWhile_range_length (p : Nat → Bool) (m : Nat) :
    ((List.range m).takeWhile p).length ≤ m ∧ (∀ k, k < ((List.range m).takeWhile p).length → p k = true) ∧
    (((List.range m).takeWhile p).length < m → p ((List.range m).takeWhile p).length = false) := by
  have length_eq : ((List.range m).takeWhile p).length = (List.range m).findIdx (fun k => !p k) := by
    rw [List.takeWhile_eq_take_findIdx_not, List.length_take, min_eq_left List.findIdx_le_length]
  rw [length_eq]
  refine ⟨List.findIdx_le_length.trans_eq List.length_range, fun k hk => ?_, fun short => ?_⟩
  · simpa using List.not_of_lt_findIdx hk
  · have found := List.findIdx_getElem (xs := List.range m) (p := fun k => !p k) (w := by rwa [List.length_range])
    rw [List.getElem_range] at found
    simpa using found

/-- The least of values is at most each of them, and one of them or the bound it began with. -/
theorem foldl_min (f : Nat → Nat) (l : List Nat) (a : Nat) :
    l.foldl (fun m t => min m (f t)) a ≤ a ∧ (∀ t ∈ l, l.foldl (fun m t => min m (f t)) a ≤ f t) ∧
    (l.foldl (fun m t => min m (f t)) a = a ∨ ∃ t ∈ l, l.foldl (fun m t => min m (f t)) a = f t) := by
  induction l generalizing a with
  | nil => exact ⟨le_rfl, fun t ht => (nomatch ht), .inl rfl⟩
  | cons x r ih =>
    obtain ⟨below, each, attained⟩ := ih (min a (f x))
    rw [List.foldl_cons]
    refine ⟨below.trans (min_le_left _ _), fun t ht => ?_, ?_⟩
    · rcases List.mem_cons.mp ht with rfl | ht
      · exact below.trans (min_le_right _ _)
      · exact each t ht
    · rcases attained with start | ⟨t, ht, eq⟩
      · rcases min_choice a (f x) with first | second
        · exact .inl (start.trans first)
        · exact .inr ⟨x, List.mem_cons_self, start.trans second⟩
      · exact .inr ⟨t, List.mem_cons_of_mem _ ht, eq⟩

theorem unfencedRows_le (s : State) (core : Nat) : unfencedRows s core ≤ 256 := Nat.sub_le _ _

/-- The rows granted are those asked for, or the least count of unfenced rows over the tiles granted (R31). -/
theorem grantOf_rows (s : State) (req : Word) :
    (grantOf s req).rows ≤ req.toNat / 2 ^ 16 % 2 ^ 16 ∧
    (∀ k, k < (grantOf s req).tiles → (grantOf s req).rows ≤ unfencedRows s (s.h.core + k)) ∧
    (0 < (grantOf s req).tiles → (grantOf s req).rows < req.toNat / 2 ^ 16 % 2 ^ 16 →
      ∃ k, k < (grantOf s req).tiles ∧ (grantOf s req).rows = unfencedRows s (s.h.core + k)) := by
  have rows_eq : (grantOf s req).rows = min (req.toNat / 2 ^ 16 % 2 ^ 16)
    ((List.range (grantOf s req).tiles).foldl (fun m t => min m (unfencedRows s (s.h.core + t))) 256) := rfl
  obtain ⟨-, each, attained⟩ := foldl_min (fun t => unfencedRows s (s.h.core + t)) (List.range (grantOf s req).tiles) 256
  rw [rows_eq]
  refine ⟨min_le_left _ _, fun k hk => (min_le_right _ _).trans (each k (List.mem_range.mpr hk)), fun some_tile fewer => ?_⟩
  have least := min_eq_right_of_lt (lt_of_not_ge fun asked => fewer.ne (min_eq_left asked))
  rw [least]
  rcases attained with all | ⟨k, hk, eq⟩
  · exact ⟨0, some_tile, le_antisymm (each 0 (List.mem_range.mpr some_tile)) ((unfencedRows_le _ _).trans_eq all.symm)⟩
  · exact ⟨k, List.mem_range.mp hk, eq⟩

/-! The rows that leave the grant. -/

theorem gateRows_eq (s : State) (g : Grant) :
    gateRows s g = { s with planes := (gateRows s g).planes, poisonLane := (gateRows s g).poisonLane } := by
  have gen (l : List (Nat × Nat)) (u : State) : let v := l.foldl (fun s tr => if tr.1 < g.tiles ∧ tr.2 < g.rows then s
      else clearRow s (s.h.core + tr.1) (physRow s (s.h.core + tr.1) tr.2)) u
      v = { u with planes := v.planes, poisonLane := v.poisonLane } := by
    induction l generalizing u with
    | nil => rfl
    | cons tr r ih =>
      have step := ih (if tr.1 < g.tiles ∧ tr.2 < g.rows then u
        else clearRow u (u.h.core + tr.1) (physRow u (u.h.core + tr.1) tr.2))
      rw [List.foldl_cons]
      refine step.trans ?_
      split <;> rfl
  exact gen (grantedRows s) s

theorem clearRow_zeroed (s : State) {core row : Nat} (row_lt : row < 256) :
    Zeroed s (clearRow s core row) fun core' row' _ => core' = core ∧ row' = row := by
  refine ⟨rfl, fun clean => ?_, fun unarmed => ⟨unarmed, rfl⟩, fun core' row' pl row_lt' pl_lt => ?_⟩
  · simp [clearRow, clean, sdrop]
  · have key_iff : (planeKey core' row' pl / 256 == core * 256 + row) = true ↔ core' = core ∧ row' = row := by
      rw [beq_iff_eq]
      unfold planeKey
      omega
    unfold planeAt clearRow
    simp only [sget_sdrop, key_iff]
    exact ⟨fun hit => if_pos hit, fun miss => if_neg miss⟩

theorem gateRows_zeroed {s : State} (distinct : RowsDistinct s) (g : Grant) :
    Zeroed s (gateRows s g) fun core row _ => ∃ tr ∈ grantedRows s, ¬(tr.1 < g.tiles ∧ tr.2 < g.rows) ∧
      core = s.h.core + tr.1 ∧ row = physRow s (s.h.core + tr.1) tr.2 := by
  refine Zeroed.foldl fun u only tr htr => ?_
  obtain ⟨tile_lt, index_lt⟩ := mem_grantedRows htr
  rw [only.h, physRow_congr only.fenced]
  split
  case isTrue kept => exact (Zeroed.refl u).congr fun _ _ _ => ⟨False.elim, fun left => left.1 kept⟩
  case isFalse left =>
    exact (clearRow_zeroed u (distinct tr.1 tile_lt tr.2 index_lt).1).congr fun _ _ _ => ⟨fun place => ⟨left, place⟩, fun hit => hit.2⟩

/-! The instruction. -/

theorem anyCopyInto_iff (s : State) : anyCopyInto s = true ↔
    ∃ x ∈ s.copies, x.gang = s.h.gang ∧ x.hart = s.h.idx ∧ (x.tmpl.getD 0 0).toNat % 16 = 3 := by
  simp only [anyCopyInto, copyInto, List.any_eq_true, List.mem_range, Bool.and_eq_true, beq_iff_eq]
  constructor
  · rintro ⟨n, -, x, hx, ⟨⟨gang, hart⟩, kind⟩, -⟩
    exact ⟨x, hx, gang, hart, kind⟩
  · rintro ⟨x, hx, gang, hart, kind⟩
    exact ⟨(x.tmpl.getD 3 0).toNat % 64, Nat.mod_lt _ (by decide), x, hx, ⟨⟨gang, hart⟩, kind⟩, rfl⟩

/-- The CSRs after a grant. -/
def Grant.csr (g : Grant) (k : Csrs) : Csrs := { k with fold := g.fold, rlen := g.rlen, rows := g.rows, tiles := g.tiles, vl := g.vl }

/-- What SETVL does where it spills nothing. -/
def shaped (s : State) (g : Grant) : State := closeStrip (resetGens (addSwap 0 (modCsr (gateRows s g) g.csr)))

theorem setvlCore_eq {c : Ctl} {o : X3} {s : State}
    (nothing : (grantOf s (rx s o.xa)).fold = s.h.csr.fold ∨ ∀ n, n < 64 → (vreg s n).first = none) (current : rowsStale s = false) :
    setvlCore c o s = retire c (setX (shaped s (grantOf s (rx s o.xa))) o.xd (BitVec.ofNat 64 (grantOf s (rx s o.xa)).vl)) := by
  have current' : rowsStale (gateRows s (grantOf s (rx s o.xa))) = false := by
    rw [gateRows_eq]
    exact current
  unfold setvlCore
  simp only [current, Bool.or_false]
  rcases nothing with same | none_resident
  · have no_spill : ((grantOf s (rx s o.xa)).fold != s.h.csr.fold) = false := by simp [same]
    simp only [no_spill, Bool.false_eq_true, if_false, current']
    rfl
  · have empty : (List.range 64).filter (fun n => isResident (vreg s n)) = [] :=
      List.filter_eq_nil_iff.mpr fun n hn => by simp [isResident, none_resident n (List.mem_range.mp hn)]
    simp only [empty, spillAll, List.foldl_nil, ite_self, moveCost, current', Bool.false_eq_true, if_false]
    rfl

theorem shaped_eq (s : State) (g : Grant) : ∃ writers, shaped s g =
    { s with planes := (gateRows s g).planes, poisonLane := (gateRows s g).poisonLane, writers
             h := { s.h with csr := g.csr s.h.csr, gens := [], strip := [], stripReads := [], streams := [] } } := by
  refine ⟨s.writers.filter (fun e => e.2 != writerKey s.h), ?_⟩
  have u_eq := gateRows_eq s g
  simp only [shaped, closeStrip, resetGens, addSwap, modCsr, modH, writerKey, Nat.add_zero]
  generalize (gateRows s g).planes = planes at u_eq ⊢
  generalize (gateRows s g).poisonLane = poison at u_eq ⊢
  rw [u_eq]

/-- A result written, then the next instruction. -/
theorem retire_setX (c : Ctl) (s : State) (xd : BitVec 5) (v : Word) : ∃ x,
    retire c (setX s xd v) = { s with h := { s.h with pc := pcAfter c s, issued := true, x } } ∧ XWritten xd v s.h.x x := by
  obtain ⟨x_eq, written⟩ := setX_written s xd v
  refine ⟨(setX s xd v).h.x, ?_, written⟩
  generalize (setX s xd v).h.x = x at x_eq
  rw [x_eq]
  simp only [retire, nextPc_eq]
  rfl

/-- SETVL where nothing waits and nothing is spilled. -/
theorem exec_setvl_of_free {c : Ctl} {o : X3} {s : State} (free : (grantOf s (rx s o.xa)).fold = s.h.csr.fold ∨ anyCopyInto s = false)
    (nothing : (grantOf s (rx s o.xa)).fold = s.h.csr.fold ∨ ∀ n, n < 64 → (vreg s n).first = none) (current : rowsStale s = false) :
    ∃ x writers, exec (.setvl c o) s = .next { s with
      planes := (gateRows s (grantOf s (rx s o.xa))).planes, poisonLane := (gateRows s (grantOf s (rx s o.xa))).poisonLane, writers
      h := { s.h with pc := pcAfter c s, issued := true, x, csr := (grantOf s (rx s o.xa)).csr s.h.csr, gens := [], strip := []
                      stripReads := [], streams := [] } } ∧
      XWritten o.xd (BitVec.ofNat 64 (grantOf s (rx s o.xa)).vl) s.h.x x := by
  have no_wait : ((grantOf s (rx s o.xa)).fold != s.h.csr.fold && anyCopyInto s) = false := by
    rcases free with same | none_copying
    · simp [same]
    · simp [none_copying]
  have run : exec (.setvl c o) s = execSetvl c o s := rfl
  unfold execSetvl at run
  rw [no_wait, if_neg Bool.false_ne_true, setvlCore_eq nothing current] at run
  obtain ⟨writers, shape⟩ := shaped_eq s (grantOf s (rx s o.xa))
  obtain ⟨x, next, written⟩ := retire_setX c (shaped s (grantOf s (rx s o.xa))) o.xd (BitVec.ofNat 64 (grantOf s (rx s o.xa)).vl)
  rw [next] at run
  rw [shape] at run written
  exact ⟨x, writers, run, written⟩

/-- The planes after a grant: zero where a row leaves it. -/
theorem planeAt_gateRows {s : State} (distinct : RowsDistinct s) (g : Grant) {core row pl : Nat} (row_lt : row < 256) (pl_lt : pl < 256) :
    planeAt (gateRows s g) core row pl =
      if (List.range s.h.csr.tiles).any (fun k => decide (core = s.h.core + k) && (List.range s.h.csr.rows).any (fun i =>
        decide (row = physRow s core i) && !(decide (k < g.tiles) && decide (i < g.rows)))) then 0
      else planeAt s core row pl := by
  obtain ⟨-, -, -, planes⟩ := gateRows_zeroed distinct g
  obtain ⟨zero, kept⟩ := planes core row pl row_lt pl_lt
  have leaves : (∃ tr ∈ grantedRows s, ¬(tr.1 < g.tiles ∧ tr.2 < g.rows) ∧ core = s.h.core + tr.1 ∧
      row = physRow s (s.h.core + tr.1) tr.2) ↔
      (List.range s.h.csr.tiles).any (fun k => decide (core = s.h.core + k) && (List.range s.h.csr.rows).any (fun i =>
        decide (row = physRow s core i) && !(decide (k < g.tiles) && decide (i < g.rows)))) = true := by
    simp only [List.any_eq_true, List.mem_range, Bool.and_eq_true, decide_eq_true_eq, Bool.not_eq_true', ← Bool.decide_and, decide_eq_false_iff_not]
    constructor
    · rintro ⟨tr, htr, left, rfl, rfl⟩
      obtain ⟨tile_lt, index_lt⟩ := mem_grantedRows htr
      exact ⟨tr.1, tile_lt, rfl, tr.2, index_lt, rfl, left⟩
    · rintro ⟨k, tile_lt, rfl, i, index_lt, rfl, left⟩
      exact ⟨(k, i), grantedRows_mem tile_lt index_lt, left, rfl, rfl⟩
  split
  case isTrue hit => exact zero (leaves.mpr hit)
  case isFalse miss => exact kept (mt leaves.mp miss)

end Sys2Proof.Machine

open Sys2Proof Sys2Proof.Machine

/-- Settles O16: SWAP of residents leaves the state, and of one fresh register it is the fill of the lowest run of free planes; SETVL
computes the five steps and sets the rows that leave the grant to zero. -/
theorem swapAndSetvl : Obligations.SwapAndSetvl := by
  unfold Obligations.SwapAndSetvl
  refine ⟨fun regs s => ⟨fun resident => ?resident, ?fresh⟩, ?shape⟩
  case resident =>
    rw [exec_swap]
    simp only [makeResident, missing_swap_of_resident resident, List.isEmpty_nil, if_true]
  case fresh =>
    intro n p named g r d taken absent others fresh room low fits free least
    have d_pos : 0 < d := planes_pos r g.1
    refine swap_of_fresh named g absent others fresh ?_ fits (findRun_eq d_pos low fits free least)
    rw [freePlanes_eq]
    exact Nat.le_sub_of_add_le room
  case shape =>
    intro c o s distinct q f fold on copying
    refine ⟨?waits, ?grants⟩
    case waits =>
      intro changes waiting
      have wait : ((grantOf s (rx s o.xa)).fold != s.h.csr.fold && anyCopyInto s) = true := by
        rw [Bool.and_eq_true, bne_iff_ne]
        exact ⟨changes, (anyCopyInto_iff s).mpr waiting⟩
      have run : exec (.setvl c o) s = execSetvl c o s := rfl
      unfold execSetvl at run
      rw [wait, if_pos rfl] at run
      exact ⟨_, _, run, rfl, rfl⟩
    case grants =>
      intro nothing free current
      have no_copy : fold = s.h.csr.fold ∨ anyCopyInto s = false :=
        free.imp_right fun none_copying => Bool.eq_false_iff.mpr (mt (anyCopyInto_iff s).mp none_copying)
      obtain ⟨x, writers, run, written⟩ := exec_setvl_of_free no_copy nothing current
      obtain ⟨within, attached, ends⟩ := takeWhile_range_length
        (fun t => partOfDie s (dieOfCore (s.h.core + t)) == some (myGang s).part) s.h.slots
      obtain ⟨asked, each, least⟩ := grantOf_rows s (rx s o.xa)
      refine ⟨_, attachedSlots s, (grantOf s (rx s o.xa)).csr s.h.csr, run, rfl, within, fun k hk => beq_iff_eq.mp (attached k hk),
        fun short => ne_of_beq_false (ends short), rfl, asked, each, least, written,
        fun core row pl row_lt pl_lt => planeAt_gateRows distinct _ row_lt pl_lt⟩
end

section
/-! Landings, drowsy rows and replicated stores (R41, R45, R126, R151). -/
namespace Sys2Proof.Machine

/-- A location all of whose windows are over is in no window after the landing. -/
theorem not_hot_landed {h : Hart} {cyc : Nat} {l : Loc} (ended : ∀ w ∈ h.exposed, w.loc = l → w.upto < cyc) (k : Cost) :
    l ∉ hotAt (landWindows cyc h) k cyc := by
  intro hot
  obtain ⟨w, hw, rfl⟩ := List.mem_map.mp hot
  obtain ⟨hw, late⟩ := List.mem_filter.mp (List.mem_filter.mp hw).1
  exact absurd (ended w hw rfl) (Nat.not_lt.mpr (of_decide_eq_true late))

theorem exec_loadDataReturn (s : State) : exec .loadDataReturn s = .next { s with h := { landWindows s.cyc s.h with
    units := { s.h.units with scalar := if s.h.units.scalar ≤ s.cyc then s.cyc else s.h.units.scalar } } } := by
  change Host.Outcome.next _ = _
  unfold modH
  by_cases due : s.h.units.scalar ≤ s.cyc
  · simp [landWindows, due]
  · simp [landWindows, due]

/-! Stamped writes. -/

/-- One byte of a stamped write. -/
def stampByte (pa : Nat) (bs : List Byte) (st : Nat × Nat × Nat × Nat) (s : State) (i : Nat) : State :=
  if replicaBefore st (sget (0, 0, 0, 0) s.stamps (pa + i)) then s
  else { putHbm s (pa + i) [bs.getD i 0] with stamps := sset (0, 0, 0, 0) s.stamps (pa + i) st }

theorem applyStamped_eq (s : State) (pa : Nat) (bs : List Byte) (st : Nat × Nat × Nat × Nat) :
    applyStamped s pa bs st = (List.range bs.length).foldl (stampByte pa bs st) s := rfl

/-- With no error armed a byte stored changes memory and the poison of its sector. -/
theorem putHbm_byte {s : State} (unarmed : s.armed = []) (pa : Nat) (b : Byte) :
    ∃ marks, putHbm s pa [b] = { s with mem := sset 0 s.mem pa b, poisonHbm := marks } := by
  refine ⟨(putHbm s pa [b]).poisonHbm, ?_⟩
  unfold putHbm strikeHbm
  simp only [unarmed, List.isEmpty_nil, if_true]
  rfl

/-- What a byte of a stamped write leaves. -/
def Stamped (s t : State) (takes : Nat → Prop) (bytes : Nat → Byte) (st : Nat × Nat × Nat × Nat) : Prop :=
  t = { s with mem := t.mem, stamps := t.stamps, poisonHbm := t.poisonHbm } ∧
  ∀ p, (takes p → sget 0 t.mem p = bytes p ∧ sget (0, 0, 0, 0) t.stamps p = st) ∧
    (¬takes p → sget 0 t.mem p = sget 0 s.mem p ∧ sget (0, 0, 0, 0) t.stamps p = sget (0, 0, 0, 0) s.stamps p)

theorem stampByte_stamped {s : State} (unarmed : s.armed = []) (pa : Nat) (bs : List Byte) (st : Nat × Nat × Nat × Nat) (i : Nat) :
    Stamped s (stampByte pa bs st s i) (fun p => p = pa + i ∧ replicaBefore st (sget (0, 0, 0, 0) s.stamps p) = false)
      (fun p => bs.getD (p - pa) 0) st := by
  obtain ⟨marks, stored⟩ := putHbm_byte unarmed (pa + i) (bs.getD i 0)
  unfold stampByte
  by_cases older : replicaBefore st (sget (0, 0, 0, 0) s.stamps (pa + i)) = true
  · rw [if_pos older]
    refine ⟨rfl, fun p => ⟨fun takes => ?_, fun _ => ⟨rfl, rfl⟩⟩⟩
    obtain ⟨rfl, newer⟩ := takes
    exact absurd older (by simp [newer])
  · rw [if_neg older, stored]
    refine ⟨rfl, fun p => ⟨fun takes => ?_, fun keeps => ?_⟩⟩
    · obtain ⟨rfl, -⟩ := takes
      simp [sget_sset]
    · have elsewhere : p ≠ pa + i := fun same => keeps ⟨same, by simpa [same] using older⟩
      simp [sget_sset, elsewhere]

/-- The bytes of a stamped write go in where the copy holds no later stamp (R126). -/
theorem applyStamped_stamped {s : State} (unarmed : s.armed = []) (pa : Nat) (bs : List Byte) (st : Nat × Nat × Nat × Nat) :
    Stamped s (applyStamped s pa bs st)
      (fun p => pa ≤ p ∧ p < pa + bs.length ∧ replicaBefore st (sget (0, 0, 0, 0) s.stamps p) = false) (fun p => bs.getD (p - pa) 0) st := by
  rw [applyStamped_eq]
  generalize bs.length = n
  induction n with
  | zero => exact ⟨rfl, fun p => ⟨fun takes => by omega, fun _ => ⟨rfl, rfl⟩⟩⟩
  | succ n ih =>
    rw [List.range_succ, List.foldl_append, List.foldl_cons, List.foldl_nil]
    obtain ⟨frame, bytes⟩ := ih
    generalize (List.range n).foldl (stampByte pa bs st) s = u at frame bytes
    have unarmed' : u.armed = [] := by rw [frame]; exact unarmed
    obtain ⟨frame', bytes'⟩ := stampByte_stamped unarmed' pa bs st n
    generalize stampByte pa bs st u n = t at frame' bytes'
    refine ⟨?_, fun p => ?_⟩
    · rw [frame', frame]
    · obtain ⟨put, left⟩ := bytes p
      obtain ⟨put', left'⟩ := bytes' p
      by_cases last : p = pa + n
      · obtain ⟨mem_eq, stamp_eq⟩ := left (by omega)
        simp only [mem_eq, stamp_eq] at put' left'
        exact ⟨fun takes => put' ⟨last, takes.2.2⟩, fun keeps => left' fun takes => keeps ⟨by omega, by omega, takes.2⟩⟩
      · obtain ⟨mem_eq, stamp_eq⟩ := left' fun takes => last takes.1
        rw [mem_eq, stamp_eq]
        exact ⟨fun takes => put ⟨takes.1, by omega, takes.2.2⟩, fun keeps => left fun takes => keeps ⟨takes.1, by omega, takes.2.2⟩⟩

/-- REPLICA_APPLY of a write that is on its way (R126). -/
theorem exec_replicaApply {s : State} {n : Nat} {r : Replica} (found : s.replicas.find? (fun r => r.n == n) = some r)
    (unarmed : s.armed = []) :
    let takes := fun p => decide (r.pa ≤ p) && decide (p < r.pa + r.bytes.length) && !replicaBefore r.stamp (sget (0, 0, 0, 0) s.stamps p)
    ∃ t, exec (.replicaApply n) s = .next t ∧
      t = { s with replicas := s.replicas.filter (fun x => x.n != n), mem := t.mem, stamps := t.stamps, poisonHbm := t.poisonHbm } ∧
      ∀ p, sget 0 t.mem p = (if takes p then r.bytes.getD (p - r.pa) 0 else sget 0 s.mem p) ∧
        sget (0, 0, 0, 0) t.stamps p = (if takes p then r.stamp else sget (0, 0, 0, 0) s.stamps p) := by
  intro takes
  have run : exec (.replicaApply n) s = execReplicaApply n s := rfl
  unfold execReplicaApply at run
  rw [found] at run
  obtain ⟨frame, bytes⟩ := applyStamped_stamped (s := { s with replicas := s.replicas.filter (fun x => x.n != n) }) unarmed r.pa r.bytes r.stamp
  refine ⟨_, run, frame, fun p => ?_⟩
  obtain ⟨put, left⟩ := bytes p
  have takes_iff : takes p = true ↔
      r.pa ≤ p ∧ p < r.pa + r.bytes.length ∧ replicaBefore r.stamp (sget (0, 0, 0, 0) s.stamps p) = false := by
    simp [takes, and_assoc]
  by_cases taken : takes p = true
  · rw [if_pos taken, if_pos taken]
    exact put (takes_iff.mp taken)
  · rw [if_neg taken, if_neg taken]
    exact left (mt takes_iff.mpr taken)

theorem exec_rowDrowsy (core row : Nat) (s : State) : ∃ t, exec (.rowDrowsy core row) s = .next t ∧ t = { s with drowsy := t.drowsy } ∧
    ∀ k, sget false t.drowsy k = if k = core * 256 + row ∧ max (sget 0 s.touched (core * 256 + row)) (startOf s core) + 4096 < s.cyc
      then true else sget false s.drowsy k := by
  have run : exec (.rowDrowsy core row) s = execRowDrowsy core row s := rfl
  unfold execRowDrowsy rowIdle at run
  by_cases idle : max (sget 0 s.touched (core * 256 + row)) (startOf s core) + 4096 < s.cyc
  · rw [if_pos (decide_eq_true idle)] at run
    exact ⟨_, run, rfl, fun k => by simp [sget_sset, idle]⟩
  · rw [if_neg (by simpa using idle)] at run
    exact ⟨_, run, rfl, fun k => by simp [idle]⟩

end Sys2Proof.Machine
end

section
/-! What an engine reads of a plain line of virtual memory, and the instruction cache that takes it (R96, R141, R366, R418). -/
namespace Sys2Proof.Machine

/-! Tables in parts. -/

theorem sget_eq_find {α : Type} (d : α) (m : Sparse α) (k : Nat) : sget d m k = ((m.find? (fun e => e.1 == k)).map Prod.snd).getD d := by
  induction m with
  | nil => rfl
  | cons e r ih =>
    obtain ⟨k', v⟩ := e
    by_cases here : k' = k
    · simp [sget, here]
    · simp [sget, here, ih]

theorem sget_filter {α : Type} (d : α) (m : Sparse α) (p : Nat → Bool) (k : Nat) :
    sget d (m.filter (fun e => p e.1)) k = if p k then sget d m k else d := by
  have h := sget_sdrop d m (fun j => !p j) k
  simp only [sdrop, Bool.not_not] at h
  rw [h]
  cases p k <;> rfl

theorem sget_append {α : Type} (d : α) (m n : Sparse α) (k : Nat) (absent : ∀ e ∈ m, e.1 ≠ k) : sget d (m ++ n) k = sget d n k := by
  rw [sget_eq_find, sget_eq_find, List.find?_append, List.find?_eq_none.mpr fun e he => by simpa using absent e he, Option.none_or]

theorem sget_append_left {α : Type} (d : α) (m n : Sparse α) (k : Nat) (absent : ∀ e ∈ n, e.1 ≠ k) : sget d (m ++ n) k = sget d m k := by
  rw [sget_eq_find, sget_eq_find, List.find?_append, List.find?_eq_none (l := n) |>.mpr fun e he => by simpa using absent e he, Option.or_none]

theorem sget_shift {α : Type} (d : α) (m : Sparse α) {lo k : Nat} (above : lo ≤ k) :
    sget d (m.map (fun e => (e.1 + lo, e.2))) k = sget d m (k - lo) := by
  rw [sget_eq_find, sget_eq_find, List.find?_map, Option.map_map]
  have same : ((fun e : Nat × α => e.1 == k) ∘ fun e : Nat × α => (e.1 + lo, e.2)) = fun e : Nat × α => e.1 == k - lo :=
    funext fun e => Bool.eq_iff_iff.mpr (by simp only [Function.comp_apply, beq_iff_eq]; omega)
  rw [same]
  rfl

/-- A part of a table replaced. -/
theorem sget_ssplice {α : Type} (d : α) (m : Sparse α) (lo n : Nat) (new : Sparse α) (k : Nat) :
    sget d (ssplice m lo n new) k = if lo ≤ k ∧ k < lo + n then sget d new (k - lo) else sget d m k := by
  unfold ssplice
  have low_key {e : Nat × α} (he : e ∈ m.filter (fun e => decide (e.1 < lo))) : e.1 < lo := of_decide_eq_true (List.mem_filter.mp he).2
  have high_key {e : Nat × α} (he : e ∈ m.filter (fun e => decide (lo + n ≤ e.1))) : lo + n ≤ e.1 :=
    of_decide_eq_true (List.mem_filter.mp he).2
  have mid_key {e : Nat × α} (he : e ∈ (new.filter (fun e => decide (e.1 < n))).map (fun e => (e.1 + lo, e.2))) :
      lo ≤ e.1 ∧ e.1 < lo + n := by
    obtain ⟨x, hx, rfl⟩ := List.mem_map.mp he
    have := of_decide_eq_true (List.mem_filter.mp hx).2
    exact ⟨Nat.le_add_left _ _, by show x.1 + lo < lo + n; omega⟩
  by_cases below : k < lo
  · rw [List.append_assoc, sget_append_left _ _ _ _ fun e he => ?_, sget_filter d m (fun j => decide (j < lo)), if_pos (by simpa using below),
      if_neg (by omega)]
    rcases List.mem_append.mp he with mid | high
    · have := mid_key mid
      omega
    · have := high_key high
      omega
  · by_cases inside : k < lo + n
    · rw [List.append_assoc, sget_append _ _ _ _ fun e he => by have := low_key he; omega,
        sget_append_left _ _ _ _ fun e he => by have := high_key he; omega, sget_shift d _ (by omega),
        sget_filter d new (fun j => decide (j < n)), if_pos (by simp; omega), if_pos (by omega)]
    · rw [List.append_assoc, sget_append _ _ _ _ fun e he => by have := low_key he; omega,
        sget_append _ _ _ _ fun e he => by have := mid_key he; omega, sget_filter d m (fun j => decide (lo + n ≤ j)),
        if_pos (by simp; omega), if_neg (by omega)]

/-! A line of virtual memory. -/

/-- The bytes from `lo` on lie on a page that does not migrate and is not replicated, in sectors without poison and a line reached under
no other tag. -/
def PlainLine (s : State) (w : Who) (lo : Nat) (x : Xlat) : Prop :=
  s.migrations = [] ∧ s.poisonHbm = [] ∧ translate s w.part w.asid w.die lo true = .ok x ∧ pteRepl x.leaf = false ∧
  ∀ t ∈ sget [] s.caches.tags (x.pa / 512), t = x.tag w.part

theorem PlainVa.line {s : State} {w : Who} {R : Nat → Prop} (v : PlainVa s w R) {lo : Nat} (inside : R lo) : ∃ x, PlainLine s w lo x := by
  obtain ⟨no_migration, no_poison, -, mapped, -⟩ := v
  obtain ⟨-, x, found, unique, tags⟩ := mapped lo inside
  exact ⟨x, no_migration, no_poison, found, unique, tags⟩

/-- An address that may be written may be read. -/
theorem translate_read {s : State} {part asid die va : Nat} {x : Xlat} (found : translate s part asid die va true = .ok x) :
    translate s part asid die va false = .ok x := by
  unfold translate at found ⊢
  cases home : homeDie s part die va with
  | error e => rw [home] at found; exact found
  | ok h =>
    obtain ⟨d, i, loc⟩ := h
    rw [home] at found
    cases leaf : leafOf s part asid va with
    | error e => rw [leaf] at found; exact found
    | ok l =>
      obtain ⟨e, lv⟩ := l
      rw [leaf] at found
      simp only [Bool.true_and, Bool.false_and, Bool.or_false] at found ⊢
      split at found
      · exact nomatch found
      · rename_i placed
        rw [if_neg placed]
        split at found
        · exact nomatch found
        · rename_i allowed
          rw [if_neg fun denied => allowed (by simp [denied])]
          exact found

section
variable {lo m : Nat} (page : (lo + m) / 2 ^ 16 = lo / 2 ^ 16)
include page

theorem regionOf_same_page (s : State) (part : Nat) : regionOf s part (lo + m) = regionOf s part lo := by
  unfold regionOf
  rw [show (lo + m) / 2 ^ 30 = lo / 2 ^ 30 by omega]

theorem homeDie_same_page (s : State) (part die : Nat) : homeDie s part die (lo + m) = homeDie s part die lo := by
  unfold homeDie
  rw [regionOf_same_page page]

theorem lockKey_same_page (part asid level : Nat) : lockKey part asid level (lo + m) = lockKey part asid level lo := by
  unfold lockKey pageSize
  split
  · rw [show (lo + m) % 2 ^ 52 / 2 ^ 24 = lo % 2 ^ 52 / 2 ^ 24 by omega]
  · rw [show (lo + m) % 2 ^ 52 / 2 ^ 16 = lo % 2 ^ 52 / 2 ^ 16 by omega]

theorem walk_same_page (s : State) (part asid : Nat) : walk s part asid (lo + m) = walk s part asid lo := by
  unfold walk
  rw [show (lo + m) / 2 ^ 40 = lo / 2 ^ 40 by omega, show (lo + m) / 2 ^ 24 = lo / 2 ^ 24 by omega, page]

theorem leafOf_same_page (s : State) (part asid : Nat) : leafOf s part asid (lo + m) = leafOf s part asid lo := by
  unfold leafOf
  rw [lockKey_same_page page, lockKey_same_page page, walk_same_page page]

theorem frameByte_same_page {s : State} (no_migration : s.migrations = []) {leaf : Word} (unique : pteRepl leaf = false)
    (part asid level d : Nat) : frameByte s part asid (lo + m) leaf level d = frameByte s part asid lo leaf level d + m := by
  have none_moving (va : Nat) : migrationOf s part asid va = none := by simp [migrationOf, no_migration]
  unfold frameByte
  simp only [none_moving, unique, Bool.false_eq_true, if_false]
  unfold pageSize
  split <;> omega

/-- Translations of one page's addresses differ by the distance of the addresses. -/
theorem translate_same_page {s : State} {part asid die : Nat} {x : Xlat} (no_migration : s.migrations = [])
    (unique : pteRepl x.leaf = false) (found : translate s part asid die lo true = .ok x) :
    translate s part asid die (lo + m) true = .ok { x with pa := x.pa + m, va := lo + m } := by
  unfold translate at found ⊢
  rw [homeDie_same_page page, leafOf_same_page page]
  cases home : homeDie s part die lo with
  | error e => rw [home] at found; exact nomatch found
  | ok h =>
    obtain ⟨d, i, loc⟩ := h
    rw [home] at found
    cases leaf : leafOf s part asid lo with
    | error e => rw [leaf] at found; exact nomatch found
    | ok l =>
      obtain ⟨e, lv⟩ := l
      rw [leaf] at found
      dsimp only at found ⊢
      split at found
      · exact nomatch found
      · split at found
        · exact nomatch found
        · split at found
          · exact nomatch found
          · obtain rfl := Except.ok.inj found
            rename_i placed allowed healthy
            rw [if_neg placed, if_neg allowed, if_neg healthy, frameByte_same_page page no_migration unique]

end

/-- The byte behind an address of a plain line. -/
theorem vpa_of_line {s : State} {w : Who} {lo m : Nat} {x : Xlat} (line : PlainLine s w lo x) (page : (lo + m) / 2 ^ 16 = lo / 2 ^ 16) :
    vpa s w (lo + m) = x.pa + m := by
  obtain ⟨no_migration, -, found, unique, -⟩ := line
  unfold vpa
  rw [translate_same_page page no_migration unique found]

theorem pieces_nothing (fuel a : Nat) : pieces fuel a 0 = [] := by
  cases fuel <;> rfl

theorem cut_one {a n : Nat} (n_pos : 0 < n) (fits : a % 512 + n ≤ 512) : cut a n = [(a, n)] := by
  have whole : min n (512 - a % 512) = n := by omega
  unfold cut pieces
  rw [if_neg n_pos.ne', whole]
  simp only [Nat.sub_self, pieces_nothing]

/-- What an engine reads within one plain line. -/
theorem vaRead_of_line {s : State} {w : Who} {lo n : Nat} {x : Xlat} (line : PlainLine s w lo x) (n_pos : 0 < n) (fits : lo % 512 + n ≤ 512) :
    vaRead s w.part w.asid w.die lo n = .ok (noteLine s w.part x, bytesAt s.mem x.pa n) := by
  obtain ⟨no_migration, no_poison, found, -, tags⟩ := line
  have settled : settle s w.part w.asid lo = s := by simp [settle, migrationOf, no_migration]
  have clean : hbmPoisoned s x.pa n = false := by simp [hbmPoisoned, no_poison]
  have once : mappedTwice s w.part x = false := List.any_eq_false.mpr fun t ht => by simp [tags t ht]
  unfold vaRead
  rw [cut_one n_pos fits]
  simp only [List.foldl_cons, List.foldl_nil, settled, translate_read found, clean, Bool.and_false, Bool.false_eq_true, if_false,
    List.nil_append, lineBytes, once]

/-! Words of the image. -/

theorem bytesAt_part (m : Sparse Byte) (a : Nat) {n j l : Nat} (inside : j + l ≤ n) :
    ((bytesAt m a n).drop j).take l = (List.range l).map (fun k => sget 0 m (a + j + k)) := by
  refine List.ext_getElem (by simp [bytesAt]; omega) fun k h₁ h₂ => ?_
  simp [bytesAt, Nat.add_assoc]

/-- The entry of a word in an instruction cache. -/
def wordEntry (s : State) (w : Who) (a : Nat) : BitVec 33 := BitVec.ofNat 33 (2 ^ 32 + vnum s w a 4)

theorem vnum_of_line {s : State} {w : Who} {lo : Nat} {x : Xlat} (line : PlainLine s w lo x) {n i : Nat} (fits : lo % 512 + 4 * n ≤ 512)
    (hi : i < n) : leNat (((bytesAt s.mem x.pa (4 * n)).drop (4 * i)).take 4) = vnum s w (lo + 4 * i) 4 := by
  rw [bytesAt_part s.mem x.pa (by omega)]
  unfold vnum vbyte
  refine congrArg leNat (List.map_congr_left fun k hk => ?_)
  have k_lt := List.mem_range.mp hk
  rw [Nat.add_assoc lo, vpa_of_line line (by omega), Nat.add_assoc]

theorem imageWords_of_line {s : State} {w : Who} {wd n : Nat} {x : Xlat} (line : PlainLine s w (4 * wd) x) (n_pos : 0 < n)
    (fits : 4 * wd % 512 + 4 * n ≤ 512) :
    imageWords s w.part w.asid w.die 1 wd (wd + n) = (List.range n).map (fun i => (wd + i, wordEntry s w (4 * wd + 4 * i))) := by
  have whole : min 128 (wd + n - wd) = n := by omega
  unfold imageWords
  rw [if_neg (by omega), whole]
  simp only [vaRead_of_line line (show 0 < 4 * n by omega) fits, imageWords, List.append_nil]
  refine List.map_congr_left fun i hi => ?_
  rw [vnum_of_line line fits (List.mem_range.mp hi)]
  rfl

theorem sget_range {α : Type} (d : α) (v : Nat → α) (n j : Nat) :
    sget d ((List.range n).map fun i => (i, v i)) j = if j < n then v j else d := by
  have found : ((List.range n).map fun i => (i, v i)).find? (fun e => e.1 == j) = if j < n then some (j, v j) else none := by
    split
    case isTrue below =>
      refine List.find?_eq_some_iff_getElem.mpr ⟨by simp, j, by simpa using below, by simp, fun i hi => ?_⟩
      simpa using hi.ne
    case isFalse above =>
      refine List.find?_eq_none.mpr fun e he => ?_
      obtain ⟨i, hi, rfl⟩ := List.mem_map.mp he
      have := List.mem_range.mp hi
      simp only [beq_iff_eq]
      omega
  rw [sget_eq_find, found]
  split <;> rfl

/-- The cache of a core after a fill: the words of the line, the rest as it was (R141, R366). -/
theorem sget_fillIcache {s : State} {core part asid wd n : Nat} {x : Xlat} (line : PlainLine s ⟨part, asid, core / 96⟩ (4 * wd) x)
    (n_pos : 0 < n) (few : n < 128) (fits : 4 * wd % 512 + 4 * n ≤ 512) (k : Nat) :
    sget 0 (fillIcache s core part asid wd (wd + n)).icache k =
      if core * 2 ^ 62 + wd ≤ k ∧ k < core * 2 ^ 62 + wd + n
      then wordEntry s ⟨part, asid, core / 96⟩ (4 * wd + 4 * (k - (core * 2 ^ 62 + wd))) else sget 0 s.icache k := by
  have words := imageWords_of_line line n_pos fits
  have fuel : (wd + n - wd) / 128 + 1 = 1 := by omega
  have count : wd + n - wd = n := by omega
  unfold fillIcache refill
  dsimp only
  rw [sget_ssplice, fuel, count]
  have entries : ((List.range n).map fun i => (wd + i, wordEntry s ⟨part, asid, core / 96⟩ (4 * wd + 4 * i))).map
      (fun e => (e.1 - wd, e.2)) = (List.range n).map fun i => (i, wordEntry s ⟨part, asid, core / 96⟩ (4 * wd + 4 * i)) := by
    simp
  split
  case isTrue inside =>
    change sget 0 ((imageWords s part asid (core / 96) 1 wd (wd + n)).map _) _ = _
    rw [words, entries, sget_range, if_pos (by omega)]
  case isFalse => rfl

end Sys2Proof.Machine
end

section
/-! Fills of the instruction cache: a line, and a word anew (R141, R366, R418). -/
namespace Sys2Proof.Machine

/-- The fetching core as an engine of its gang. -/
def fetcher (s : State) : Who := ⟨(myGang s).part, (myGang s).launch.asid, s.h.core / 96⟩

theorem vnum_lt (s : State) (w : Who) (a n : Nat) : vnum s w a n < 256 ^ n := by
  have h := leNat_lt ((List.range n).map (fun k => vbyte s w (a + k)))
  rwa [List.length_map, List.length_range] at h

theorem wordEntry_valid (s : State) (w : Who) (a : Nat) : (wordEntry s w a).getLsbD 32 = true := by
  have small : vnum s w a 4 < 2 ^ 32 := vnum_lt s w a 4
  unfold wordEntry
  rw [BitVec.getLsbD_ofNat, show 2 ^ 32 + vnum s w a 4 = 2 ^ 32 * 1 + vnum s w a 4 by omega, Nat.testBit_two_pow_mul_add _ small]
  rfl

theorem icacheAt_of_entry {s t : State} {core : Nat} {va : Word} {w : Who} {a : Nat}
    (entry : sget 0 t.icache (core * 2 ^ 62 + va.toNat / 4) = wordEntry s w a) : (icacheAt t core va).isSome = true := by
  unfold icacheAt
  rw [entry]
  simp [wordEntry_valid]

/-- The words of the cache after a fill of `n` words from byte address `lo` on. -/
def CacheFilled (s t : State) (old : Nat → BitVec 33) (lo n : Nat) : Prop :=
  ∀ k, sget 0 t.icache k = if s.h.core * 2 ^ 62 + lo / 4 ≤ k ∧ k < s.h.core * 2 ^ 62 + lo / 4 + n
    then wordEntry s (fetcher s) (lo + 4 * (k - (s.h.core * 2 ^ 62 + lo / 4))) else old k

theorem fillWords_filled {s : State} {wd n : Nat} {x : Xlat} (line : PlainLine s (fetcher s) (4 * wd) x) (n_pos : 0 < n) (few : n < 128)
    (fits : 4 * wd % 512 + 4 * n ≤ 512) :
    fillWords s wd (wd + n) = { s with icache := (fillWords s wd (wd + n)).icache } ∧
    CacheFilled s (fillWords s wd (wd + n)) (sget 0 s.icache) (4 * wd) n := by
  refine ⟨rfl, fun k => ?_⟩
  rw [show 4 * wd / 4 = wd by omega]
  exact sget_fillIcache line n_pos few fits k

/-- The word asked for is there after a fill that covers it. -/
theorem CacheFilled.present {s t : State} {old : Nat → BitVec 33} {lo n : Nat} (filled : CacheFilled s t old lo n) {va : Word}
    (covers : lo / 4 ≤ va.toNat / 4 ∧ va.toNat / 4 < lo / 4 + n) : (icacheAt t s.h.core va).isSome = true := by
  have entry := filled (s.h.core * 2 ^ 62 + va.toNat / 4)
  rw [if_pos (by omega)] at entry
  exact icacheAt_of_entry entry

/-! A full cache gives up one line. -/

theorem length_sslice {α : Type} (m : Sparse α) (core : Nat) :
    (sslice m (core * 2 ^ 62) (2 ^ 62)).length = (m.filter (fun e => e.1 / 2 ^ 62 == core)).length := by
  have same : (fun e : Nat × α => decide (core * 2 ^ 62 ≤ e.1) && decide (e.1 < core * 2 ^ 62 + 2 ^ 62)) = fun e => e.1 / 2 ^ 62 == core :=
    funext fun e => Bool.eq_iff_iff.mpr (by simp only [Bool.and_eq_true, decide_eq_true_eq, beq_iff_eq]; omega)
  rw [sslice, List.length_map, same]

theorem evictLine_of_room {s : State} {core : Nat} (room : (s.icache.filter (fun e => e.1 / 2 ^ 62 == core)).length ≤ 16368) :
    evictLine s core = s := by
  unfold evictLine
  dsimp only
  rw [length_sslice, if_pos (by omega)]

theorem evictLine_of_full {s : State} {core : Nat} (full : 16368 < (s.icache.filter (fun e => e.1 / 2 ^ 62 == core)).length) :
    ∃ e ∈ s.icache, e.1 / 2 ^ 62 = core ∧
      evictLine s core = { s with icache := sdrop s.icache (fun k => k / 16 == e.1 / 16), free := s.free + 1 } := by
  rw [← length_sslice] at full
  generalize index_eq : (Config.freeBits s.free (2 ^ 67)).toNat % (sslice s.icache (core * 2 ^ 62) (2 ^ 62)).length = j
  have below : j < (sslice s.icache (core * 2 ^ 62) (2 ^ 62)).length := index_eq ▸ Nat.mod_lt _ (by omega)
  obtain ⟨e, he, entry⟩ := List.mem_map.mp (List.getElem_mem below)
  obtain ⟨he, inside⟩ := List.mem_filter.mp he
  simp only [Bool.and_eq_true, decide_eq_true_eq] at inside
  refine ⟨e, he, by omega, ?_⟩
  unfold evictLine
  dsimp only
  rw [if_neg (by omega), index_eq, List.getElem?_eq_getElem below, ← entry]
  simp only [Nat.add_sub_cancel' inside.1]

/-! Notices and the hold of a gang. -/

theorem msix_modPart (s : State) (p fn : Nat) {f : Part → Part} (kept : ∀ q, (f q).msix = q.msix) :
    (partAt (modPart s p f) fn).msix = (partAt s fn).msix := by
  unfold modPart
  split
  case isTrue hp =>
    unfold partAt
    split
    case isTrue hf =>
      dsimp only
      rw [Vector.getElem_set]
      split
      case isTrue same =>
        subst same
        exact kept _
      case isFalse => rfl
    case isFalse => rfl
  case isFalse => rfl

theorem message_logHost (s : State) (p : Nat) (d : List Word) (fn vec : Nat) : message (logHost s p d) fn vec = message s fn vec := by
  have table : msixTable (logHost s p d) fn = msixTable s fn := by
    unfold msixTable
    rw [show (partAt (logHost s p d) fn).msix = (partAt s fn).msix from msix_modPart s p fn fun _ => rfl]
    refine if_congr Iff.rfl rfl ?_
    unfold logHost sendMsi modPart
    dsimp only
    split <;> rfl
  unfold message
  rw [table]

/-- A notice goes to a host fault log, with one message. -/
theorem notice_eq (s : State) (code : BitVec 8) (agent : Nat) (g : Gang) (hart : Nat) (synd : Word) : notice s code agent g hart synd =
    { s with parts := (notice s code agent g hart synd).parts, msgs := s.msgs ++ [message s g.part 0] } := by
  have unchanged (f : Part → Part) (kept : ∀ q, (f q).msix = q.msix) : sendMsi (modPart s g.part f) g.part 0 =
      { s with parts := (modPart s g.part f).parts, msgs := s.msgs ++ [message s g.part 0] } := by
    have table : msixTable (modPart s g.part f) g.part = msixTable s g.part := by
      unfold msixTable
      rw [msix_modPart s g.part g.part kept]
      refine if_congr Iff.rfl rfl ?_
      unfold modPart
      split <;> rfl
    unfold sendMsi message
    rw [table]
    unfold modPart
    split <;> rfl
  exact unchanged _ fun _ => rfl

theorem message_notice (s : State) (code : BitVec 8) (agent : Nat) (g : Gang) (hart : Nat) (synd : Word) (fn vec : Nat) :
    message (notice s code agent g hart synd) fn vec = message s fn vec := message_logHost _ _ _ _ _

theorem findGang_id {s : State} {k : Nat} {g : Gang} (found : findGang s k = some g) : g.id = k := by
  have live := List.find?_some found
  simp only [Bool.and_eq_true, beq_iff_eq] at live
  exact live.1.1

theorem findGang_hold {s : State} {k : Nat} {g : Gang} (found : findGang s k = some g) (hold : Option Hold) :
    findGang (modGang s k (fun x => { x with hold })) k = some { g with hold } := by
  have live := List.find?_some found
  unfold findGang at found ⊢
  unfold modGang
  dsimp only
  rw [List.find?_map]
  have same : ((fun g : Gang => g.id == k && g.st != .retired && g.st != .faulted) ∘ fun g : Gang =>
      if (g.id == k && g.st != .retired && g.st != .faulted) = true then { g with hold } else g) =
      fun g => g.id == k && g.st != .retired && g.st != .faulted := by
    funext g
    dsimp only [Function.comp_apply]
    split <;> rfl
  rw [same, found, Option.map_some, if_pos live]

theorem modHarts_modGang_h {s : State} {k : Nat} {fg : Gang → Gang} {p : Hart → Bool} {f : Hart → Hart} (named : p s.h = true) :
    (modHarts (modGang s k fg) p f).h = f s.h := if_pos named

theorem notice_h (s : State) (code : BitVec 8) (agent : Nat) (g : Gang) (hart : Nat) (synd : Word) :
    (notice s code agent g hart synd).h = s.h := by rw [notice_eq]

theorem findGang_notice (s : State) (code : BitVec 8) (agent : Nat) (g : Gang) (hart : Nat) (synd : Word) (k : Nat) :
    findGang (notice s code agent g hart synd) k = findGang s k := by
  rw [notice_eq]
  rfl

theorem timingTrap_icache (s : State) (g : Gang) (h : Hart) (c1 : Nat) : (timingTrap s g h c1).icache = s.icache := by
  unfold timingTrap
  rw [notice_eq]
  rfl

/-- The hart in hand holds its gang still (R372). -/
theorem timingTrap_holds {s : State} {g : Gang} (found : findGang s s.h.gang = some g) (c1 : Nat) :
    (timingTrap s g s.h c1).h.run = .held ∧ (timingTrap s g s.h c1).h.pc = s.h.pc ∧
    (gangOf (timingTrap s g s.h c1) s.h.gang).hold.isSome = true ∧
    (timingTrap s g s.h c1).msgs = s.msgs ++ [message s g.part 0] := by
  have id_eq := findGang_id found
  have mine : isHart s.h.gang s.h.idx s.h = true := by simp [isHart]
  unfold timingTrap
  dsimp only
  rw [id_eq]
  refine ⟨?run, ?pc, ?hold, by rw [notice_eq]; rfl⟩
  case run => rw [notice_h, modHarts_modGang_h mine]
  case pc => rw [notice_h, modHarts_modGang_h mine]
  case hold =>
    unfold gangOf
    rw [findGang_notice]
    exact congrArg (fun g => (Option.getD g Gang.none).hold.isSome) (findGang_hold found _)

/-! The two events. -/

theorem exec_icacheFill_of_line {s u : State} {va : Word} {x : Xlat} (evicted : evictLine s s.h.core = u)
    (line : PlainLine u (fetcher u) (4 * (va.toNat / 64 * 16)) x) :
    ∃ t, exec (.icacheFill va) s = .next t ∧ t = { u with icache := t.icache } ∧
      CacheFilled u t (sget 0 u.icache) (va.toNat / 64 * 64) 16 := by
  obtain ⟨frame, filled⟩ := fillWords_filled line (n := 16) (by decide) (by decide) (by omega)
  rw [show 4 * (va.toNat / 64 * 16) = va.toNat / 64 * 64 by omega] at filled
  have run : exec (.icacheFill va) s = execIcacheFill va s := rfl
  unfold execIcacheFill at run
  rw [evicted] at run
  exact ⟨_, run.trans (congrArg Host.Outcome.next (if_pos (filled.present (va := va) (by omega)))), frame, filled⟩

/-- A word of a plain line refilled: in elastic mode the cache alone changes, in lockstep mode the gang holds besides, with notice 0x05 and
the notice of the hold (R366, R418). -/
theorem exec_icacheParityRefill_of_line {s : State} {va : Word} {x : Xlat} (line : PlainLine s (fetcher s) (4 * (va.toNat / 4)) x) :
    ∃ t, exec (.icacheParityRefill va) s = .next t ∧ CacheFilled s t (sget 0 s.icache) (4 * (va.toNat / 4)) 1 ∧
      ((myGang s).launch.lockstep = false → t = { s with icache := t.icache }) ∧
      ((myGang s).launch.lockstep = true → findGang s s.h.gang = some (myGang s) → t.h.run = .held ∧ t.h.pc = s.h.pc ∧
        (gangOf t s.h.gang).hold.isSome = true ∧ t.msgs = s.msgs ++ [message s (myGang s).part 0, message s (myGang s).part 0]) := by
  obtain ⟨frame, filled⟩ := fillWords_filled line (n := 1) (by decide) (by decide) (by omega)
  have present := filled.present (va := va) (by omega)
  have run : exec (.icacheParityRefill va) s = execIcacheParityRefill va s := rfl
  unfold execIcacheParityRefill at run
  dsimp only at run
  generalize u_eq : fillWords s (va.toNat / 4) (va.toNat / 4 + 1) = u at frame filled present run
  have core_eq : u.h.core = s.h.core := by rw [frame]
  have gang_eq : myGang u = myGang s := by rw [frame]; rfl
  have readable : ((icacheAt u u.h.core va).isNone) = false := by rw [core_eq, Option.isNone_eq_false_iff]; exact present
  simp only [readable, Bool.false_eq_true, if_false, lockstep, gang_eq] at run
  cases locked : (myGang s).launch.lockstep with
  | false =>
    rw [locked, if_neg Bool.false_ne_true] at run
    exact ⟨u, run, filled, fun _ => frame, fun always => nomatch always⟩
  | true =>
    rw [locked, if_pos rfl] at run
    have noticed := notice_eq u 5 6 (myGang s) u.h.idx 0
    have same_message := message_notice u 5 6 (myGang s) u.h.idx 0
    generalize notice u 5 6 (myGang s) u.h.idx 0 = v at run noticed same_message
    have v_h : v.h = s.h := by rw [noticed, frame]
    have u_h : u.h = v.h := by rw [noticed]
    rw [u_h] at run
    refine ⟨_, run, fun k => ?words, fun never => Bool.noConfusion never, fun _ found => ?holds⟩
    case words =>
      have icache_eq : v.icache = u.icache := by rw [noticed]
      rw [timingTrap_icache, icache_eq]
      exact filled k
    case holds =>
      have found' : findGang v v.h.gang = some (myGang s) := by
        rw [v_h, ← found, noticed, frame]
        rfl
      have msgs_eq : v.msgs = s.msgs ++ [message s (myGang s).part 0] := by
        rw [noticed, frame]
        rfl
      have message_eq : message v (myGang s).part 0 = message s (myGang s).part 0 := by
        rw [same_message, frame]
        rfl
      obtain ⟨held, pc, hold, msgs⟩ := timingTrap_holds found' u.cyc
      refine ⟨held, pc.trans (congrArg Hart.pc v_h), v_h ▸ hold, msgs.trans ?_⟩
      rw [msgs_eq, message_eq, List.append_assoc]
      rfl

end Sys2Proof.Machine

open Sys2Proof Sys2Proof.Machine

/-- Settles O31: each landing by its own event, and the two fills by the line that the fetching core reads. -/
theorem landingsAndCacheFills : Obligations.LandingsAndCacheFills := by
  unfold Obligations.LandingsAndCacheFills
  refine ⟨?landings, ?fills⟩
  case landings =>
    intro s core row n late lands key idle
    exact ⟨⟨_, rfl, rfl, fun l k ended => not_hot_landed ended k⟩, exec_loadDataReturn s, exec_rowDrowsy core row s,
      fun r found unarmed => exec_replicaApply found unarmed⟩
  case fills =>
    intro s va g w key held filledFrom filled lo wd
    refine ⟨fun plain => ?line, fun plain => ?word⟩
    case line =>
      obtain ⟨x, line⟩ := plain.line (lo := 4 * (va.toNat / 64 * 16)) (by omega)
      refine ⟨fun room => exec_icacheFill_of_line (evictLine_of_room room) line, fun full => ?_⟩
      obtain ⟨e, he, of_core, evicted⟩ := evictLine_of_full full
      obtain ⟨t, run, frame, filled⟩ := exec_icacheFill_of_line evicted line
      refine ⟨t, e, run, frame, he, of_core, fun k => (filled k).trans ?_⟩
      simp only [sget_sdrop, beq_iff_eq]
      rfl
    case word =>
      obtain ⟨x, line⟩ := plain.line (lo := 4 * (va.toNat / 4)) (by omega)
      obtain ⟨t, run, filled, elastic, locked⟩ := exec_icacheParityRefill_of_line line
      rw [Nat.mul_comm] at filled
      exact ⟨fun mode => ⟨t, run, elastic mode, filled⟩, fun mode found _ => ⟨t, run, filled, locked mode found⟩⟩
end

section
/-! No instruction moves the clock, first part: the operations on the state, on rows and on the strip keep `cyc`. Each lemma
says it once for one function of the model, and the later ones use those before. -/
namespace Sys2Proof.Machine

/-- Where the outcome is a next state, its clock reads `n`. -/
def ClockIs (n : Nat) (o : Out) : Prop := ∀ t, o = .next t → t.cyc = n

@[simp] theorem clockIs_next (n : Nat) (t : State) : ClockIs n (.next t) ↔ t.cyc = n := by
  simp [ClockIs]

@[simp] theorem clockIs_refused (n : Nat) (r : Refusal) : ClockIs n (.refused r) := by
  simp [ClockIs]

@[simp] theorem clockIs_fault (n : Nat) (f : Fault) : ClockIs n (.fault f) := by
  simp [ClockIs]

@[simp] theorem clockIs_ite (n : Nat) (c : Prop) [Decidable c] (o p : Out) :
    ClockIs n (if c then o else p) ↔ if c then ClockIs n o else ClockIs n p := by
  split <;> rfl

@[simp] theorem ite_cyc (c : Prop) [Decidable c] (s t : State) : (if c then s else t).cyc = if c then s.cyc else t.cyc :=
  apply_ite State.cyc c s t

@[simp] theorem foldl_cyc {α : Type} {f : State → α → State} (hf : ∀ s x, (f s x).cyc = s.cyc) (l : List α) (s : State) :
    (l.foldl f s).cyc = s.cyc :=
  List.foldlRecOn l f (motive := fun t => t.cyc = s.cyc) rfl (fun t ht x _ => (hf t x).trans ht)

@[simp] theorem foldl_fst_cyc {α β : Type} {f : State × β → α → State × β} (hf : ∀ q x, (f q x).1.cyc = q.1.cyc) (l : List α)
    (q : State × β) : (l.foldl f q).1.cyc = q.1.cyc :=
  List.foldlRecOn l f (motive := fun t => t.1.cyc = q.1.cyc) rfl (fun t ht x _ => (hf t x).trans ht)

theorem cyc_of_eq_mk {α : Type} {q : State × α} {t : State} {x : α} {n : Nat} (h : q = (t, x)) (hq : q.1.cyc = n) : t.cyc = n := by
  rw [← hq, h]

/-! State, records and traps. -/

@[simp] theorem modHarts_cyc (s : State) (p : Hart → Bool) (f : Hart → Hart) : (modHarts s p f).cyc = s.cyc := by
  unfold modHarts
  rfl

@[simp] theorem modPart_cyc (s : State) (p : Nat) (f : Part → Part) : (modPart s p f).cyc = s.cyc := by
  unfold modPart
  split <;> simp

@[simp] theorem logViolation_cyc (s : State) (p kind agent addr hart gang : Nat) :
    (logViolation s p kind agent addr hart gang).cyc = s.cyc := by
  simp [logViolation]

@[simp] theorem addRecord_cyc (s : State) (r : Record) : (addRecord s r).cyc = s.cyc := by
  simp [addRecord]

@[simp] theorem strike_cyc (s : State) (space key : Nat) : (strike s space key).cyc = s.cyc := by
  unfold strike
  split
  · rfl
  · split <;> rfl

@[simp] theorem endGang_cyc (s : State) (g : Nat) : (endGang s g).cyc = s.cyc := by
  simp [endGang]

@[simp] theorem trapUnhandled_cyc (s : State) (t : Trap) : (trapUnhandled s t).cyc = s.cyc := by
  simp [trapUnhandled]

@[simp] theorem takeTrap_cyc (s : State) (t : Trap) : (takeTrap s t).cyc = s.cyc := by
  simp [takeTrap]

@[simp] theorem raise_cyc (s : State) (cls code : BitVec 8) (eaddr : Word) (n : Nat) :
    ClockIs n (raise s cls code eaddr) ↔ s.cyc = n := by
  simp [raise]

@[simp] theorem resumeRecords_cyc {n : Nat} {s : State} {o : Out} (h : ClockIs n o) : ClockIs n (resumeRecords s o) := by
  cases o with
  | next t => simpa [resumeRecords] using h
  | fault f => exact h
  | refused f => exact h

@[simp] theorem poisonEnd_cyc (s : State) (addr : Word) : (poisonEnd s addr).cyc = s.cyc := by
  simp [poisonEnd]

/-! Rows of the register planes. -/

@[simp] theorem markRow_cyc (s : State) (core row p d : Nat) (lanes : List (Nat × Nat × Bool)) :
    (markRow s core row p d lanes).cyc = s.cyc := by
  simp [markRow]

@[simp] theorem strikeRow_cyc (s : State) (core row p d : Nat) (lanes : List (Nat × Nat × Bool)) :
    (strikeRow s core row p d lanes).cyc = s.cyc := by
  simp [strikeRow]

@[simp] theorem writeRow_cyc (s : State) (core row p d : Nat) (lanes : List (Nat × Nat × Bool)) :
    (writeRow s core row p d lanes).cyc = s.cyc := by
  simp [writeRow]

@[simp] theorem writeRows_cyc (s : State) (p d : Nat) (rs : List Nat) (items : List Item) :
    (writeRows s p d rs items).cyc = s.cyc := by
  induction rs generalizing s items with
  | nil => rfl
  | cons r rs ih => rw [writeRows, ih, writeRow_cyc]

@[simp] theorem writeElems_cyc (s : State) (n w : Nat) (sgn : Bool) (items : List Item) :
    (writeElems s n w sgn items).cyc = s.cyc := by
  unfold writeElems
  split
  · exact writeRows_cyc ..
  · rfl

@[simp] theorem writePred_cyc (s : State) (p : Nat) (items : List Item) : (writePred s p items).cyc = s.cyc := by
  simp [writePred]

@[simp] theorem advanceGens_cyc (s : State) (es : List Nat) : (advanceGens s es).cyc = s.cyc := by
  unfold advanceGens
  rfl

/-! Tile buffers and the strip. -/

@[simp] theorem setBuf_cyc (s : State) (cl n : Nat) (b : TileBuf) : (setBuf s cl n b).cyc = s.cyc := by
  unfold setBuf
  rfl

theorem checkBuffers_cyc {s t : State} {ns : List (Nat × Nat)} (h : checkBuffers s ns = .ok t) : t.cyc = s.cyc := by
  unfold checkBuffers at h
  split at h
  · cases h
  · cases h
    simp

theorem tagCheck_cyc {s t : State} {cl lo hi : Nat} (h : tagCheck s cl lo hi = .ok t) : t.cyc = s.cyc := checkBuffers_cyc h

@[simp] theorem putWord_cyc (s : State) (g : Nat) (v : Word) (poison : Bool) : (putWord s g v poison).cyc = s.cyc := by
  simp [putWord]

@[simp] theorem redecode_cyc (q : Streamed) (upto : Nat) (s : State) : (redecode q upto s).cyc = s.cyc := by
  unfold redecode
  dsimp only
  split
  · rfl
  · simp

@[simp] theorem reland_cyc (s : State) (r : StripRead) (v : Word) : (reland s r v).cyc = s.cyc := by
  unfold reland
  dsimp only
  rw [foldl_cyc]
  · split <;> simp
  · intro s p
    split
    · rfl
    · split <;> simp

@[simp] theorem rebindReads_cyc (tile : Bool) (g q cap capAll : Nat) (rs : List StripRead) (s : State) :
    (rebindReads tile g q cap capAll rs s).2.cyc = s.cyc := by
  induction rs generalizing cap capAll s with
  | nil => rfl
  | cons r rs ih =>
    unfold rebindReads
    split
    · exact ih ..
    · simp [ih]

@[simp] theorem storeAt_cyc (s : State) (tile glued : Bool) (g q : Nat) (mask v : Word) (poison : Bool) :
    (storeAt s tile glued g q mask v poison).cyc = s.cyc := by
  simp [storeAt]

@[simp] theorem stripStore_cyc (s : State) (tile : Bool) (g : Nat) (mask v : Word) (poison : Bool) :
    (stripStore s tile g mask v poison).cyc = s.cyc := by
  simp [stripStore]

@[simp] theorem noteWords_cyc (s : State) (gs : List Nat) : (noteWords s gs).cyc = s.cyc := by
  simp [noteWords]

@[simp] theorem closeStrip_cyc (s : State) : (closeStrip s).cyc = s.cyc := by
  unfold closeStrip
  rfl

@[simp] theorem violation_cyc (s : State) (kind addr : Nat) : (violation s kind addr).cyc = s.cyc := by
  simp [violation]

@[simp] theorem scalarWrite_cyc (s : State) (ea : Word) (vs : List Word) : (scalarWrite s ea vs).cyc = s.cyc := by
  unfold scalarWrite
  split <;> simp

@[simp] theorem noteLoad_cyc (s : State) (ea : Word) (n : Nat) (r : BitVec 5) : (noteLoad s ea n r).cyc = s.cyc := by
  unfold noteLoad
  split <;> simp

end Sys2Proof.Machine
end

section
/-! No instruction moves the clock, second part: accesses to the virtual space, and the swap that makes registers resident. -/
namespace Sys2Proof.Machine

/-! The virtual space. -/

@[simp] theorem strikeHbm_cyc (pa n : Nat) (s : State) : (strikeHbm pa n s).cyc = s.cyc := by
  simp [strikeHbm]

@[simp] theorem copyMigrating_cyc (s : State) (m : Migration) : (copyMigrating s m).cyc = s.cyc := by
  simp [copyMigrating]

@[simp] theorem settle_cyc (s : State) (part asid va : Nat) : (settle s part asid va).cyc = s.cyc := by
  unfold settle
  split <;> simp

@[simp] theorem putHbm_cyc (s : State) (pa : Nat) (bs : List Byte) : (putHbm s pa bs).cyc = s.cyc := by
  simp [putHbm]

@[simp] theorem applyStamped_cyc (s : State) (pa : Nat) (bs : List Byte) (st : Nat × Nat × Nat × Nat) :
    (applyStamped s pa bs st).cyc = s.cyc := by
  simp [applyStamped]

@[simp] theorem noteLine_cyc (s : State) (part : Nat) (x : Xlat) : (noteLine s part x).cyc = s.cyc := by
  simp [noteLine]

@[simp] theorem hbmStore_cyc (s : State) (part die issuer q : Nat) (x : Xlat) (bs : List Byte) (who : Nat × Nat) :
    (hbmStore s part die issuer q x bs who).cyc = s.cyc := by
  unfold hbmStore
  split
  · exact putHbm_cyc ..
  · dsimp only
    split
    · simp
    · rw [foldl_cyc]
      · simp
      · intro s d
        rfl

theorem vaRead_cyc {s : State} {part asid die va n : Nat} {tolerant : Bool} {r : State × List Byte}
    (h : vaRead s part asid die va n tolerant = .ok r) : r.1.cyc = s.cyc := by
  refine List.foldlRecOn (cut va n) _
    (motive := fun acc : Except AccessErr (State × List Byte) => ∀ r, acc = .ok r → r.1.cyc = s.cyc) ?_ ?_ r h
  · rintro _ ⟨⟩
    rfl
  · rintro (e | q) hq p _ r hr
    · cases hr
    · have before := hq _ rfl
      dsimp only at hr
      split at hr
      · cases hr
      · split at hr
        · cases hr
        · cases hr
          simpa using before

@[simp] theorem vaWrite_cyc (s : State) (part asid die issuer va : Nat) (bs : List Byte) (who : Nat × Nat) :
    (vaWrite s part asid die issuer va bs who).1.cyc = s.cyc := by
  unfold vaWrite
  rw [foldl_fst_cyc]
  rintro ⟨s, _ | e⟩ p
  · dsimp only
    split <;> simp
  · rfl

theorem swapRead_cyc {s : State} {va n : Nat} {tolerant : Bool} {r : State × List Byte}
    (h : swapRead s va n tolerant = .ok r) : r.1.cyc = s.cyc := vaRead_cyc h

@[simp] theorem swapPoisonRecord_cyc (s : State) (va : Nat) : (swapPoisonRecord s va).cyc = s.cyc := by
  simp [swapPoisonRecord]

@[simp] theorem swapWrite_cyc (s : State) (va : Nat) (bs : List Byte) : (swapWrite s va bs).1.cyc = s.cyc := by
  simp [swapWrite]

/-! Swaps. -/

@[simp] theorem spillRow_cyc (s : State) (r : VReg) (p tile i : Nat) : (spillRow s r p tile i).1.cyc = s.cyc := by
  unfold spillRow
  dsimp only
  split
  · exact cyc_of_eq_mk ‹_› (swapWrite_cyc ..)
  · rw [swapWrite_cyc]
    have written := cyc_of_eq_mk ‹_› (swapWrite_cyc ..)
    split
    · rw [foldl_cyc, written]
      intro s j
      split
      · split <;> rfl
      · rfl
    · exact written

@[simp] theorem overRows_cyc {f : State → Nat → Nat → State × Option (BitVec 8 × Nat)} (hf : ∀ s t i, (f s t i).1.cyc = s.cyc)
    (s : State) (rows : List (Nat × Nat)) : (overRows f s rows).1.cyc = s.cyc := by
  induction rows generalizing s with
  | nil => rfl
  | cons r rows ih =>
    have first := hf s r.1 r.2
    unfold overRows
    split <;> simp_all

@[simp] theorem spillReg_cyc (s : State) (n : Nat) (byIndex : Bool) : (spillReg s n byIndex).1.cyc = s.cyc := by
  unfold spillReg
  dsimp only
  split
  · rfl
  · split
    · refine cyc_of_eq_mk ‹_› (overRows_cyc (fun s t i => ?_) ..)
      split <;> exact cyc_of_eq_mk ‹_› (spillRow_cyc ..)
    · refine (modH_cyc ..).trans (cyc_of_eq_mk ‹_› (overRows_cyc (fun s t i => ?_) ..))
      split <;> exact cyc_of_eq_mk ‹_› (spillRow_cyc ..)

@[simp] theorem strikePlanes_cyc (core row p d : Nat) (s : State) : (strikePlanes core row p d s).cyc = s.cyc := by
  simp [strikePlanes]

@[simp] theorem movePlanes_cyc (s : State) (p q d : Nat) : (movePlanes s p q d).cyc = s.cyc := by
  unfold movePlanes
  split
  · rfl
  · rw [foldl_cyc]
    intro s tr
    rw [strikePlanes_cyc, foldl_cyc]
    intro s k
    dsimp only
    split <;> rfl

@[simp] theorem compact_cyc (s : State) : (compact s).cyc = s.cyc := by
  unfold compact
  rw [foldl_fst_cyc]
  intro s n
  dsimp only
  split <;> simp

theorem placeRegs_cyc {s t : State} {ns : List Nat} (h : placeRegs s ns = some t) : t.cyc = s.cyc := by
  induction ns generalizing s with
  | nil => cases h; rfl
  | cons n ns ih =>
    unfold placeRegs at h
    dsimp only at h
    split at h
    · cases h
    · exact (ih h).trans (modH_cyc ..)

@[simp] theorem setRow_cyc (s : State) (core row p : Nat) (planes : List (BitVec 1024)) (bad : Nat → Nat → Bool) :
    (setRow s core row p planes bad).cyc = s.cyc := by
  simp [setRow]

theorem readRecord_cyc {s : State} {r : VReg} {tile row rlen d : Nat} {q : State × Nat × List Byte × List Bool}
    (h : readRecord s r tile row rlen d = .ok q) : q.1.cyc = s.cyc := by
  unfold readRecord at h
  split at h
  · cases h
  · have dir := swapRead_cyc ‹swapRead s _ _ _ = _›
    dsimp only at h dir
    split at h
    · cases h
    · split at h
      · cases h
      · have record := swapRead_cyc ‹swapRead _ _ _ true = _›
        cases h
        dsimp only at record ⊢
        split <;> simp [dir, record]

@[simp] theorem fillStop_cyc (s : State) (e : BitVec 8 × Nat) : (fillStop s e).1.cyc = s.cyc := by
  simp [fillStop]

@[simp] theorem fillRow_cyc (s : State) (r : VReg) (p tile i : Nat) : (fillRow s r p tile i).1.cyc = s.cyc := by
  unfold fillRow
  dsimp only
  split
  · exact fillStop_cyc ..
  · exact (setRow_cyc ..).trans (readRecord_cyc ‹_›)

@[simp] theorem fillByIndex_cyc (s : State) (r : VReg) (p : Nat) (q : SpillGrant) : (fillByIndex s r p q).1.cyc = s.cyc := by
  unfold fillByIndex
  dsimp only
  rw [overRows_cyc]
  · simp
  · intro s t i
    split
    · exact fillStop_cyc ..
    · rw [foldl_cyc]
      · exact readRecord_cyc ‹_›
      · simp

@[simp] theorem fillReg_cyc (s : State) (n : Nat) (bare : Bool) : (fillReg s n bare).1.cyc = s.cyc := by
  unfold fillReg
  dsimp only
  split
  · rfl
  · split <;>
    · rw [modH_cyc]
      split
      · simp
      · split <;> simp

@[simp] theorem spillAll_cyc (s : State) (ns : List Nat) (byIndex : Bool) : (spillAll s ns byIndex).1.cyc = s.cyc := by
  unfold spillAll
  rw [foldl_fst_cyc]
  rintro ⟨s, _ | e⟩ n
  · exact spillReg_cyc ..
  · rfl

@[simp] theorem addSwap_cyc (n : Nat) (s : State) : (addSwap n s).cyc = s.cyc := by
  unfold addSwap
  rfl

theorem makeResident_cyc {s t : State} {names : List Named} (h : makeResident s names = .ok t) : t.cyc = s.cyc := by
  unfold makeResident at h
  dsimp only at h
  split at h
  · cases h; rfl
  · split at h
    · cases h
    · have spilled := cyc_of_eq_mk ‹_› (spillAll_cyc ..)
      split at h
      · cases h
        simp [spilled]
      · split at h
        · cases h
        · cases h
          refine (cyc_of_eq_mk ‹_› (foldl_fst_cyc ?_ ..)).trans (by simp [spilled])
          rintro ⟨s, _ | e⟩ n
          · simp
          · rfl

theorem makeResident_error_cyc {s : State} {names : List Named} {e : State × Trap} (h : makeResident s names = .error e) :
    e.1.cyc = s.cyc := by
  unfold makeResident at h
  dsimp only at h
  split at h
  · cases h
  · split at h
    · cases h
      exact cyc_of_eq_mk ‹_› (spillAll_cyc ..)
    · have spilled := cyc_of_eq_mk ‹_› (spillAll_cyc ..)
      split at h
      · cases h
      · split at h
        · cases h
          refine (cyc_of_eq_mk ‹_› (foldl_fst_cyc ?_ ..)).trans (by simp [spilled])
          rintro ⟨s, _ | e⟩ n
          · simp
          · rfl
        · cases h

end Sys2Proof.Machine
end

section
/-! No instruction moves the clock, third part: the frame of a vector instruction, and the forms of scalar, vector, tile and stream
instructions. -/
namespace Sys2Proof.Machine

/-! The frame, and the integer forms. -/

@[simp] theorem touchRegs_cyc (s : State) (names : List Named) : (touchRegs s names).cyc = s.cyc := by
  unfold touchRegs
  rfl

@[simp] theorem vecFrame_cyc {c : Ctl} {s : State} {used : List Opnd} {accept : Bool} {names : List Named} {extra early : Option Trap}
    {k : State → State} (hk : ∀ s, (k s).cyc = s.cyc) : ClockIs s.cyc (vecFrame c s used accept names extra early k) := by
  unfold vecFrame
  dsimp only
  split
  · simp
  · split
    · simpa using makeResident_error_cyc ‹_›
    · simpa [hk] using makeResident_cyc ‹_›

@[simp] theorem vec3_cyc (c : Ctl) (o : V3) (s : State) (f : Desc → Int → Int → Int) : ClockIs s.cyc (vec3 c o s f) := by
  simp [vec3]

@[simp] theorem vecSat_cyc (c : Ctl) (o : V3) (s : State) (f : Int → Int → Int) : ClockIs s.cyc (vecSat c o s f) := by
  simp [vecSat]

@[simp] theorem vec3d_cyc (c : Ctl) (o : V3) (s : State) (f : Desc → Int → Int → Int → Int) : ClockIs s.cyc (vec3d c o s f) := by
  simp [vec3d]

@[simp] theorem vec1_cyc (c : Ctl) (va vd : BitVec 6) (s : State) (f : Desc → Int → Nat → Int) :
    ClockIs s.cyc (vec1 c va vd s f) := by
  simp [vec1]

@[simp] theorem vecIndex_cyc (c : Ctl) (vd : BitVec 6) (s : State) (f : Nat → Int) : ClockIs s.cyc (vecIndex c vd s f) := by
  simp [vecIndex]

@[simp] theorem alu_cyc (c : Ctl) (xd : BitVec 5) (v : Word) (n : Nat) (s : State) : ClockIs n (alu c xd v s) ↔ s.cyc = n := by
  simp [alu]

theorem scalarRead_cyc {s t : State} {ea : Word} {n : Nat} {vs : List Word} (h : scalarRead s ea n = .ok t vs) : t.cyc = s.cyc := by
  unfold scalarRead at h
  split at h
  case h_1 => cases h; simp
  case h_2 => cases h; rfl
  case h_3 => cases h; rfl
  case h_4 => cases h; rfl
  case h_5 =>
    split at h
    · cases h
    · split at h
      · cases h
      · cases h
        exact tagCheck_cyc ‹_›

@[simp] theorem loadThen_cyc {s : State} {ea : Word} {n : Nat} {k : State → List Word → State}
    (hk : ∀ s vs, (k s vs).cyc = s.cyc) : ClockIs s.cyc (loadThen s ea n k) := by
  unfold loadThen
  split
  · simp
  · split
    · simp
    · simp
    · simpa [hk] using scalarRead_cyc ‹_›

/-! Monitors, waits and the grant. -/

@[simp] theorem setMon_cyc (s : State) (key : Nat) (u : MonUnit) : (setMon s key u).cyc = s.cyc := by
  unfold setMon
  rfl

@[simp] theorem noteMon_cyc (s : State) (key : Nat) : (noteMon s key).cyc = s.cyc := by
  unfold noteMon
  rfl

@[simp] theorem changeMon_cyc (s : State) (key : Nat) (f : MonUnit → MonUnit) : (changeMon s key f).cyc = s.cyc := by
  unfold changeMon
  rfl

@[simp] theorem nextSample_cyc (s : State) (key : Nat) : (nextSample s key).cyc = s.cyc := by
  simp [nextSample]

@[simp] theorem writeMon_cyc (s : State) (key i : Nat) (v : Word) : (writeMon s key i v).cyc = s.cyc := by
  simp [writeMon]

@[simp] theorem sampleUnit_cyc (s : State) (key v : Nat) : (sampleUnit s key v).cyc = s.cyc := by
  unfold sampleUnit
  dsimp only
  split
  · split <;> simp
  · simp

@[simp] theorem sampleEvent_cyc (s : State) (core ev v : Nat) : (sampleEvent s core ev v).cyc = s.cyc := by
  simp [sampleEvent]

@[simp] theorem holdFor_cyc (s : State) (on : WaitFor) (i : Instr) : (holdFor s on i).cyc = s.cyc := by
  unfold holdFor
  rfl

@[simp] theorem clearRow_cyc (s : State) (core row : Nat) : (clearRow s core row).cyc = s.cyc := by
  unfold clearRow
  rfl

@[simp] theorem gateRows_cyc (s : State) (g : Grant) : (gateRows s g).cyc = s.cyc := by
  simp [gateRows]

@[simp] theorem adoptFences_cyc (s : State) : (adoptFences s).cyc = s.cyc := by
  unfold adoptFences
  rfl

@[simp] theorem setvlCore_cyc (c : Ctl) (o : X3) (s : State) : (setvlCore c o s).cyc = s.cyc := by
  have spilled (b : Bool) (ns : List Nat) : (if b then spillAll s ns true else (s, none)).1.cyc = s.cyc := by
    split <;> simp
  unfold setvlCore
  dsimp only
  split
  · exact (takeTrap_cyc ..).trans (cyc_of_eq_mk ‹_› (spilled ..))
  · simpa using cyc_of_eq_mk ‹_› (spilled ..)

/-! Tile moves and streams. -/

theorem Move.check_cyc {m : Move} {s t : State} (h : m.check s = .ok t) : t.cyc = s.cyc := checkBuffers_cyc h

@[simp] theorem noteReads_cyc (notes : List StripRead) (s : State) : (noteReads notes s).cyc = s.cyc := by
  unfold noteReads
  rfl

@[simp] theorem loadTile_cyc (c : Ctl) (vd : Nat) (D : Desc) (m : Move) (s : State) : (loadTile c vd D m s).cyc = s.cyc := by
  unfold loadTile
  split
  · split <;> simp
  · split
    · simp
    · simpa using Move.check_cyc ‹_›

@[simp] theorem storeTile_cyc (c : Ctl) (vd : Nat) (A : Desc) (m : Move) (s : State) : (storeTile c vd A m s).cyc = s.cyc := by
  unfold storeTile
  split
  · simp
  · split
    · simp
    · simpa using Move.check_cyc ‹_›

@[simp] theorem tileLoad_cyc (c : Ctl) (o : VX) (s : State) (strided : Bool) : ClockIs s.cyc (tileLoad c o s strided) := by
  simp [tileLoad]

@[simp] theorem tileStore_cyc (c : Ctl) (o : VX) (s : State) (strided : Bool) : ClockIs s.cyc (tileStore c o s strided) := by
  simp [tileStore]

@[simp] theorem Sel.acquire_cyc (q : Sel) (lo n : Nat) (s : State) : (Sel.acquire q lo n s).cyc = s.cyc := by
  simp [Sel.acquire]

@[simp] theorem Sel.touch_cyc (q : Sel) (s : State) : (Sel.touch q s).cyc = s.cyc := by
  simp [Sel.touch]

@[simp] theorem Sel.frame_cyc {q : Sel} {s : State} {early : Option Trap} {k : State → Out} (hk : ∀ s, ClockIs s.cyc (k s)) :
    ClockIs s.cyc (q.frame s early k) := by
  unfold Sel.frame
  split
  · simp
  · split
    · simpa using makeResident_error_cyc ‹_›
    · exact makeResident_cyc ‹makeResident s _ = _› ▸ hk _

@[simp] theorem clearLanded_cyc (s : State) (n : Nat) : (clearLanded s n).cyc = s.cyc := by
  unfold clearLanded
  rfl

@[simp] theorem consume_cyc (s : State) (cl n : Nat) : (consume s cl n).cyc = s.cyc := by
  unfold consume
  rfl

@[simp] theorem clearBuf_cyc (s : State) (cl n : Nat) : (clearBuf s cl n).cyc = s.cyc := by
  unfold clearBuf
  dsimp only
  split <;> rfl

theorem streamCheck_cyc {s t : State} {base budget : Word} (h : streamCheck s base budget = .ok t) : t.cyc = s.cyc := by
  unfold streamCheck at h
  split at h
  · exact tagCheck_cyc h
  · cases h; rfl

@[simp] theorem putStream_cyc (s : State) (g : Nat) (ws : List StreamWord) : (putStream s g ws).cyc = s.cyc := by
  induction ws generalizing s g with
  | nil => rfl
  | cons w ws ih => rw [putStream, ih, stripStore_cyc]

@[simp] theorem vstzCore_cyc (c : Ctl) (o : VX) (D : Desc) (base budget : Word) (s : State) :
    (vstzCore c o D base budget s).cyc = s.cyc := by
  have checked {t : State} (h : (if s.h.csr.vl = 0 then .ok s else streamCheck s base budget) = Except.ok t) : t.cyc = s.cyc := by
    split at h
    · cases h; rfl
    · exact streamCheck_cyc h
  unfold vstzCore
  split
  · simp
  · have same := checked ‹_›
    dsimp only
    split
    · simpa using same
    · split <;> simpa using same

@[simp] theorem vldzNotes_cyc (s : State) (o : VX) (D : Desc) (src : Option Nat) (upto budget cap off : Nat) (items : List Item) :
    (vldzNotes s o D src upto budget cap off items).cyc = s.cyc := by
  unfold vldzNotes
  split <;> simp

@[simp] theorem vldzCore_cyc (c : Ctl) (o : VX) (D : Desc) (base budget : Word) (s : State) :
    (vldzCore c o D base budget s).cyc = s.cyc := by
  unfold vldzCore
  split
  · simp
  · split
    · simp
    · have same := streamCheck_cyc ‹_›
      dsimp only
      split
      · simp only [retire_cyc, setX_cyc, modCsr_cyc, writeElems_cyc, vldzNotes_cyc, setWork_cyc]
        split <;> simpa using same
      · simp only [takeTrap_cyc, modCsr_cyc, writeElems_cyc, setWork_cyc]
        split <;> simpa using same

@[simp] theorem vgenCore_cyc (c : Ctl) (o : VX) (D : Desc) (base x : Word) (s : State) : (vgenCore c o D base x s).cyc = s.cyc := by
  unfold vgenCore
  dsimp only
  split
  · simp
  · split
    · simp
    · have same := streamCheck_cyc ‹_›
      simp only [retire_cyc, noteReads_cyc, writeElems_cyc]
      split <;> simpa using same

end Sys2Proof.Machine
end

section
/-! No instruction moves the clock, fourth part: floating point, the matrix unit, copies that an instruction starts, and coaches. -/
namespace Sys2Proof.Machine

/-! Floating point and the matrix unit. -/

@[simp] theorem drawn_cyc (rm : Nat) (es : List Nat) (s : State) : (drawn rm es s).cyc = s.cyc := by
  simp [drawn]

@[simp] theorem putFloats_cyc (c : Ctl) (n w : Nat) (sgn : Bool) (rm : Nat) (items : List FItem) (s : State) :
    (putFloats c n w sgn rm items s).cyc = s.cyc := by
  simp [putFloats]

@[simp] theorem vecFloat_cyc (c : Ctl) (o : V3) (s : State) (readD : Bool) (f : Nat → FVal → FVal → FVal → FVal × FlagSet) :
    ClockIs s.cyc (vecFloat c o s readD f) := by
  simp [vecFloat]

@[simp] theorem vecFun_cyc (c : Ctl) (o : VF) (s : State) (accept : Desc → Desc → Bool)
    (f : Desc → Desc → Nat → Nat → Nat → Nat × FlagSet) : ClockIs s.cyc (vecFun c o s accept f) := by
  simp [vecFun]

@[simp] theorem setTable_cyc (s : State) (core sel i : Nat) (v : Int) : (setTable s core sel i v).cyc = s.cyc := by
  unfold setTable
  rfl

@[simp] theorem clearMarks_cyc (s : State) (core : Nat) : (clearMarks s core).cyc = s.cyc := by
  unfold clearMarks
  rfl

@[simp] theorem setExps_cyc (s : State) (j : Job) (t sel n row0 : Nat) (d : Desc) : (setExps s j t sel n row0 d).cyc = s.cyc := by
  unfold setExps
  rw [foldl_cyc]
  intro s i
  rfl

@[simp] theorem setMarks_cyc (s : State) (j : Job) (t sel n row0 : Nat) (d : Desc) : (setMarks s j t sel n row0 d).cyc = s.cyc := by
  simp [setMarks]

@[simp] theorem slicedTile_cyc (s : State) (j : Job) (t : Nat) : (slicedTile s j t).1.cyc = s.cyc := by
  simp [slicedTile]

@[simp] theorem strikeAcc_cyc (core i0 n : Nat) (s : State) : (strikeAcc core i0 n s).cyc = s.cyc := by
  simp [strikeAcc]

@[simp] theorem markAcc_cyc (s : State) (core : Nat) (rows : List Nat) : (markAcc s core rows).cyc = s.cyc := by
  simp [markAcc]

@[simp] theorem metaRecord_cyc (s : State) (j : Job) (t : Nat) (pc : Word) : (metaRecord s j t pc).cyc = s.cyc := by
  unfold metaRecord
  split <;> simp

@[simp] theorem runJob_cyc (s : State) (j : Job) (t : Nat) (pc : Word) : (runJob s j t pc).1.cyc = s.cyc := by
  unfold runJob
  split <;> simp

@[simp] theorem arrayOp_cyc (c : Ctl) (s : State) (j : Job) : ClockIs s.cyc (arrayOp c s j) := by
  unfold arrayOp
  refine vecFrame_cyc fun s => ?_
  dsimp only
  split <;> simp

@[simp] theorem zeroAcc_cyc (s : State) (core : Nat) : (zeroAcc s core).cyc = s.cyc := by
  simp [zeroAcc]

@[simp] theorem drainCore_cyc (c : Ctl) (q : Drain) (vd : Nat) (s : State) : (drainCore c q vd s).cyc = s.cyc := by
  simp [drainCore]

@[simp] theorem scaleTile_cyc (c : Ctl) (sel vd : Nat) (D : Desc) (acc : State × FlagSet) (t : Nat) :
    (scaleTile c sel vd D acc t).1.cyc = acc.1.cyc := by
  unfold scaleTile
  rw [foldl_fst_cyc]
  intro q j
  dsimp only
  split <;> rfl

@[simp] theorem saveTile_cyc (vd k : Nat) (s : State) (t : Nat) : (saveTile vd k s t).cyc = s.cyc := by
  unfold saveTile
  split <;> simp

@[simp] theorem restTile_cyc (vd k : Nat) (s : State) (t : Nat) : (restTile vd k s t).cyc = s.cyc := by
  unfold restTile
  split <;> simp

@[simp] theorem setRamp_cyc (s : State) (core : Nat) (r : Ramp) : (setRamp s core r).cyc = s.cyc := by
  unfold setRamp
  rfl

@[simp] theorem rampUp_cyc (s : State) (core t h : Nat) : (rampUp s core t h).cyc = s.cyc := by
  unfold rampUp
  rfl

@[simp] theorem burst_cyc (h t : Nat) (s : State) (core : Nat) : (burst h t s core).cyc = s.cyc := by
  unfold burst
  dsimp only
  split <;> simp

/-! Aperture stores, and what the root and the coaches are sent. -/

@[simp] theorem startNext_cyc (s : State) (chan : Nat) : (startNext s chan).cyc = s.cyc := by
  unfold startNext
  split <;> simp

theorem prepareRegister_cyc {s t : State} {q : Copy} (h : prepareRegister s q = .ok t) : t.cyc = s.cyc := by
  unfold prepareRegister at h
  dsimp only at h
  split at h
  · cases h; rfl
  · split at h
    · cases h; simp
    · split at h
      · cases h
      · split at h
        · cases h
        · cases h
          simpa using makeResident_cyc ‹_›

theorem prepareRegister_error_cyc {s : State} {q : Copy} {e : State × Trap} (h : prepareRegister s q = .error e) : e.1.cyc = s.cyc := by
  unfold prepareRegister at h
  dsimp only at h
  split at h
  · cases h
  · split at h
    · cases h
    · split at h
      · cases h; rfl
      · split at h
        · cases h
          exact makeResident_error_cyc ‹_›
        · cases h

@[simp] theorem apertureStore_cyc (c : Ctl) (s : State) (q : Copy) : (apertureStore c s q).cyc = s.cyc := by
  unfold apertureStore
  split
  · simpa using prepareRegister_error_cyc ‹_›
  · simpa using prepareRegister_cyc ‹_›

@[simp] theorem storePair_cyc (c : Ctl) (o : XI) (i : Instr) (s : State) : ClockIs s.cyc (storePair c o i s) := by
  unfold storePair
  dsimp only
  split
  · simp
  · split <;> simp

@[simp] theorem vputBytes_cyc (s : State) (w : Who) (va : Nat) (bs : List Byte) : (vputBytes s w va bs).cyc = s.cyc := by
  simp [vputBytes]

@[simp] theorem vput_cyc (s : State) (w : Who) (va v : Nat) : (vput s w va v).cyc = s.cyc := by
  simp [vput]

@[simp] theorem vputField_cyc (s : State) (w : Who) (va hi lo x : Nat) : (vputField s w va hi lo x).cyc = s.cyc := by
  simp [vputField]

@[simp] theorem sendCoach_cyc (s : State) (o : X3) (i : Instr) : (sendCoach s o i).cyc = s.cyc := by
  unfold sendCoach
  rfl

@[simp] theorem binRecord_cyc (s : State) (p : BinPair) (code : Nat) : (binRecord s p code).cyc = s.cyc := by
  simp [binRecord]

@[simp] theorem flushCarts_cyc (s : State) (h : Hart) : (flushCarts s h).1.cyc = s.cyc := by
  unfold flushCarts
  dsimp only
  rw [modHarts_cyc, foldl_fst_cyc]
  intro q e
  split <;> simp

@[simp] theorem binflush_cyc (c : Ctl) (xd : BitVec 5) (s : State) : (binflush c xd s).cyc = s.cyc := by
  simp [binflush]

end Sys2Proof.Machine
end

section
/-! No instruction moves the clock, fifth part: sparse vectors, atomics, synchronisation, the instruction cache and the forms over
whole registers. -/
namespace Sys2Proof.Machine

/-! Sparse vectors and atomics. -/

@[simp] theorem putHome_cyc (s : State) (a : Nat) (v : Word) (poison : Bool) : (putHome s a v poison).cyc = s.cyc := by
  simp [putHome]

@[simp] theorem noteSources_cyc (s : State) (ms : List Nat) : (noteSources s ms).cyc = s.cyc := by
  simp [noteSources]

@[simp] theorem putPairs_cyc (s : State) (m k : Nat) (ps : List (SPair × Bool)) : (putPairs s m k ps).cyc = s.cyc := by
  induction ps generalizing s k with
  | nil => rfl
  | cons p ps ih => rw [putPairs, ih, putHome_cyc]

@[simp] theorem writeSparse_cyc (s : State) (m : Nat) (v : SVec) (bad : Nat → Bool) : (writeSparse s m v bad).cyc = s.cyc := by
  simp [writeSparse]

@[simp] theorem withSources_cyc {s : State} {ms : List Nat} {k : List SVec → State} (hk : ∀ vs, (k vs).cyc = s.cyc) :
    (withSources s ms k).cyc = s.cyc := by
  induction ms generalizing k with
  | nil => exact hk []
  | cons m ms ih =>
    unfold withSources
    split
    · simp
    · simp
    · exact ih fun vs => hk _

@[simp] theorem putResult_cyc {s : State} {m : Nat} {v : SVec} {n : Nat} {k : State → State} (hk : ∀ s, (k s).cyc = s.cyc) :
    (putResult s m v n k).cyc = s.cyc := by
  simp [putResult, hk]

@[simp] theorem mergeOp_cyc (c : Ctl) (o : S3) (s : State) (both : Nat → Nat → Nat → Nat → Option (Nat × FlagSet))
    (left : Nat → Option (Nat × FlagSet)) (right : Nat → Nat → Nat → Option (Nat × FlagSet)) :
    ClockIs s.cyc (mergeOp c o s both left right) := by
  unfold mergeOp
  dsimp only
  split
  · simp
  · rw [clockIs_next, withSources_cyc fun vs => putResult_cyc fun s => by simp, noteSources_cyc]

theorem localWords_cyc {s : State} {ea n : Nat} {r : State × List (Word × Bool)} (h : localWords s ea n = .ok r) : r.1.cyc = s.cyc := by
  unfold localWords at h
  split at h
  · cases h; rfl
  · split at h
    · cases h
    · have same := tagCheck_cyc ‹_›
      cases h
      dsimp only
      rw [noteWords_cyc]
      split <;> simpa using same

@[simp] theorem storeWords_cyc (s : State) (ea : Nat) (ws : List Word) : (storeWords s ea ws).cyc = s.cyc := by
  unfold storeWords
  rw [foldl_fst_cyc]
  intro q k
  dsimp only
  split <;> simp

@[simp] theorem putSlot_cyc (s : State) (ea : Word) (off : Nat) (v : Word) : (putSlot s ea off v).cyc = s.cyc := by
  unfold putSlot
  split <;> simp

@[simp] theorem countProbes_cyc (s : State) (lcap crd off : Nat) : (countProbes s lcap crd off).cyc = s.cyc := by
  unfold countProbes
  rfl

@[simp] theorem accumulate_cyc {rm vt plim lcap : Nat} {ea : Word} {done : State → FlagSet → State}
    (hd : ∀ s f, (done s f).cyc = s.cyc) (ps : List SPair) (k : Nat) (f : FlagSet) (s : State) :
    (accumulate rm vt plim lcap ea done ps k f s).cyc = s.cyc := by
  induction ps generalizing k f s with
  | nil => exact hd s f
  | cons p ps ih =>
    unfold accumulate
    dsimp only
    split
    · simp
    · split <;> simp [ih]

@[simp] theorem atomStore_cyc (s : State) (g n v : Nat) : (atomStore s g n v).cyc = s.cyc := by
  simp [atomStore]

@[simp] theorem application_cyc (c : Ctl) (s : State) (ea : Word) (size align : Nat) (xd : BitVec 5) (f : Nat → Nat × Word × FlagSet) :
    ClockIs s.cyc (application c s ea size align xd f) := by
  unfold application
  split
  · simp
  · rw [clockIs_next]
    split
    · split <;> simp
    · simp
    · simp

@[simp] theorem amo_cyc (c : Ctl) (o : AT) (s : State) (sx : Bool) (f : Nat → Nat → Nat → Nat) : ClockIs s.cyc (amo c o s sx f) := by
  simp [amo]

@[simp] theorem amof_cyc (c : Ctl) (o : AT) (s : State) (fmt n : Nat) : ClockIs s.cyc (amof c o s fmt n) := by
  simp [amof]

@[simp] theorem amoxr_cyc (c : Ctl) (o : AT) (s : State) (fmt : Nat) : ClockIs s.cyc (amoxr c o s fmt) := by
  simp [amoxr]

@[simp] theorem branch_cyc (c : Ctl) (cond : Bool) (s : State) : ClockIs s.cyc (branch c cond s) := by
  simp [branch]

/-! CSRs, fences, barriers and the instruction cache. -/

@[simp] theorem landFlags_cyc (n : Nat) (s : State) : (landFlags n s).cyc = s.cyc := by
  simp [landFlags]

@[simp] theorem csrWrite_cyc (s : State) (n : Nat) (v : Word) (seed : Bool) : (csrWrite s n v seed).cyc = s.cyc := by
  simp [csrWrite]

@[simp] theorem fence_cyc (c : Ctl) (f : FenceHold) (s : State) : ClockIs s.cyc (fence c f s) := by
  simp [fence]

@[simp] theorem waitmRead_cyc (s : State) (ea : Word) : (waitmRead s ea).1.cyc = s.cyc := by
  unfold waitmRead
  split <;> simp

@[simp] theorem waitmNote_cyc (s : State) (ea : Word) : (waitmNote s ea).cyc = s.cyc := by
  unfold waitmNote
  split <;> simp

@[simp] theorem barrierCheck_cyc (s : State) (g : Nat) : (barrierCheck s g).cyc = s.cyc := by
  simp [barrierCheck]

@[simp] theorem barrierWatch_cyc (s : State) : (barrierWatch s).cyc = s.cyc := by
  simp [barrierWatch]

@[simp] theorem checkFired_cyc (s : State) (g : Nat) : (checkFired s g).cyc = s.cyc := by
  simp [checkFired]

@[simp] theorem request_cyc (s : State) (query : Bool) (o : X3) (i : Instr) : (request s query o i).cyc = s.cyc := by
  unfold request
  rfl

@[simp] theorem evictLine_cyc (s : State) (core : Nat) : (evictLine s core).cyc = s.cyc := by
  unfold evictLine
  dsimp only
  split
  · rfl
  · split <;> rfl

@[simp] theorem fillIcache_cyc (s : State) (core part asid w last : Nat) : (fillIcache s core part asid w last).cyc = s.cyc := by
  unfold fillIcache
  rfl

@[simp] theorem fillWords_cyc (s : State) (w last : Nat) : (fillWords s w last).cyc = s.cyc := by
  unfold fillWords
  rfl

@[simp] theorem fetchTrap_cyc (s : State) (va : Word) : (fetchTrap s va).cyc = s.cyc := by
  simp [fetchTrap]

/-! Permutes, predicates, reductions and scans. -/

@[simp] theorem permute_cyc (c : Ctl) (va vd : BitVec 6) (s : State) (used : List Opnd) (more : List Named)
    (src : State → Nat → Option Nat) : ClockIs s.cyc (permute c va vd s used more src) := by
  simp [permute]

@[simp] theorem predWrite_cyc (c : Ctl) (s : State) (pd : Nat) (srcs : List Nat) (f : Nat → Bool) :
    ClockIs s.cyc (predWrite c s pd srcs f) := by
  simp [predWrite]

@[simp] theorem pred2_cyc (c : Ctl) (o : P3) (s : State) (f : Bool → Bool → Bool) : ClockIs s.cyc (pred2 c o s f) := by
  simp [pred2]

@[simp] theorem vred_cyc (c : Ctl) (o : VF) (s : State) (r : Red) : ClockIs s.cyc (vred c o s r) := by
  simp [vred]

@[simp] theorem vscan_cyc (c : Ctl) (o : VF) (s : State) (r : Red) : ClockIs s.cyc (vscan c o s r) := by
  simp [vscan]

end Sys2Proof.Machine
end

section
/-! No instruction moves the clock, last part: the instructions that are more than one use of a shared form, and then all of them. -/
namespace Sys2Proof.Machine

@[simp] theorem execVdecl_cyc (c : Ctl) (o : VX) (s : State) : ClockIs s.cyc (execVdecl c o s) := by
  unfold execVdecl
  dsimp only
  split <;> simp

@[simp] theorem execMzero_cyc (c : Ctl) (o : V3) (s : State) : ClockIs s.cyc (execMzero c o s) := by
  unfold execMzero
  split <;> simp

@[simp] theorem execVfred_cyc (c : Ctl) (o : VF) (s : State) : ClockIs s.cyc (execVfred c o s) := by
  unfold execVfred
  refine vecFrame_cyc fun s => ?_
  split
  · simp
  · rw [retire_cyc]
    split <;> simp

@[simp] theorem execVxch_cyc (c : Ctl) (o : V3) (s : State) : ClockIs s.cyc (execVxch c o s) := by
  unfold execVxch
  refine vecFrame_cyc fun s => ?_
  dsimp only
  split <;> simp

@[simp] theorem execSscale_cyc (c : Ctl) (o : S3) (s : State) : ClockIs s.cyc (execSscale c o s) := by
  unfold execSscale
  dsimp only
  split
  · simp
  · rw [clockIs_next, withSources_cyc fun vs => putResult_cyc fun s => by simp, noteSources_cyc]

@[simp] theorem execSdot_cyc (c : Ctl) (o : SX) (s : State) : ClockIs s.cyc (execSdot c o s) := by
  unfold execSdot
  dsimp only
  split <;> simp

@[simp] theorem execSlen_cyc (c : Ctl) (o : SX) (s : State) : ClockIs s.cyc (execSlen c o s) := by
  unfold execSlen
  dsimp only
  split <;> simp

@[simp] theorem execSst_cyc (c : Ctl) (o : SX) (s : State) : ClockIs s.cyc (execSst c o s) := by
  unfold execSst
  dsimp only
  split
  · simp
  · split <;> simp

@[simp] theorem execSld_cyc (c : Ctl) (o : SX) (s : State) : ClockIs s.cyc (execSld c o s) := by
  unfold execSld
  dsimp only
  split
  · simp
  · split
    · simp
    · split
      · simp
      · split
        · simp
        · split
          · simp
          · have same := localWords_cyc ‹_›
            dsimp only at same
            rw [clockIs_next]
            split <;> simpa using same

@[simp] theorem execShacc_cyc (c : Ctl) (o : SX) (s : State) : ClockIs s.cyc (execShacc c o s) := by
  refine resumeRecords_cyc ?_
  dsimp only
  split
  · simp
  · split
    · simp
    · rw [clockIs_next, withSources_cyc, noteSources_cyc]
      intro vs
      split
      · simp
      · have same := localWords_cyc ‹_›
        dsimp only at same
        split
        · simpa using same
        · split
          · simpa using same
          · rw [accumulate_cyc]
            · exact same
            · simp

@[simp] theorem execIcacheFill_cyc (va : Word) (s : State) : ClockIs s.cyc (execIcacheFill va s) := by
  simp [execIcacheFill]

/-- No instruction moves the clock: every instruction not treated above is one use of a form whose lemma says so. An event, which has no
words, is none of them. -/
theorem exec_cyc {i : Instr} (h : (parts i).isSome = true) (s : State) : ClockIs s.cyc (exec i s) := by
  cases i <;> simp [parts, exec,
    execAdd, execSub, execAnd, execOr, execXor, execAndn, execMin, execMax, execMinu, execMaxu, execSlt, execSltu, execSll,
    execSrl, execSra, execSel, execMul, execMulh, execMulhu, execDiv, execDivu, execRem, execRemu, execClz, execCtz, execPopc,
    execExt, execIns, execAddi, execAndi, execOri, execXori, execSlli, execSrli, execSrai, execSlti, execLi, execLa, execLd,
    execLdu, execSt, execLdq, execStq, execBtx, execBeq, execBne, execBlt, execBge, execBltu, execBgeu, execJmp, execJal,
    execJalr, execLoop, execWaitc, execNop, execExit, execYield, execTrap, execBrk, execRte, execCsrr, execCsrw, execCsrs,
    execCsrc, execPool, execSetvl, execSetvt, execVqry, execVadd, execVsub, execVadds, execVsubs, execVmul, execVmulh, execVmac,
    execVmin, execVmax, execVand, execVor, execVxor, execVandn, execVneg, execVabs, execVnot, execVmov, execVclz, execVpopc,
    execVwide, execVshl, execVshr, execVsra, execVshv, execVbool, execVcmp, execVsel, execVsplat, execViota, execVlut, execPand,
    execPor, execPxor, execPnot, execPandn, execPcnt, execPfirst, execPset, execPmov, execVredAdd, execVredMin, execVredMax,
    execVredMinu, execVredMaxu, execVredAnd, execVredOr, execVredXor, execVscanAdd, execVscanMin, execVscanMax, execVscanMinu,
    execVscanMaxu, execVscanAnd, execVscanOr, execVscanXor, execVdot, execVperm, execVslide, execVbcast, execVfadd, execVfsub,
    execVfmul, execVfma, execVfms, execVfnma, execVfdiv, execVfsqrt, execVfclass, execVfcvt, execVftoi, execVitof, execVmxq,
    execVmxd, execVhad, execVfmin, execVfmax, execVfcmp, execVfsgn, execVldz, execVstz, execMcfg, execMop, execMops, execMopg,
    execMdrain, execMscale, execMsave, execMrest, execMburst, execMwait, execSexp, execSfit, execSargmin, execVgen, execTld,
    execTst, execTldx, execTstx, execTwait, execTclr, execTqry, execBinput, execBinflush, execKvapp, execRetspan, execKvpin,
    execKvunpin, execKvqryDesc, execKvqryPos, execKvqryHdr, execKvqryCount, execSadd, execSsub, execSmul, execSmax, execSxpand,
    execSpack, execAmoAdd, execAmoAnd, execAmoOr, execAmoXor, execAmoMin, execAmoMax, execAmoMinu, execAmoMaxu, execAmocas,
    execAmoSwap, execAmofFp32, execAmofFp64, execAmofBf16, execAmox, execAmoxrFp32, execAmoxrFp64, execFencer, execFence,
    execWaitm, execGbar, execEtrig, execGlaunch, execGqry] at h ⊢

end Sys2Proof.Machine
end

section
/-! What the agenda's hart does in one step: the fetch, and the attempt to issue what the fetched words decode to. -/
namespace Sys2Proof.Machine

/-! The fetch (R141, R366). -/

/-- The word at `va` lies in the image of the gang of the hart in hand. -/
def InImage (s : State) (va : Word) : Prop := (va - (myGang s).launch.img).toNat + 4 ≤ (myGang s).launch.imgLen

/-- No copy has overwritten the word at `va`. -/
def Clean (s : State) (va : Word) : Prop := ∀ r ∈ (myGang s).dirty, r.1 + r.2 ≤ va.toNat ∨ va.toNat + 4 ≤ r.1

/-- What the instruction cache of the hart in hand holds for the word at `va`. -/
def cachedAt (s : State) (va : Word) : BitVec 33 := sget 0 s.icache (s.h.core * 2 ^ 62 + va.toNat / 4)

theorem Clean.not_dirty {s : State} {va : Word} (clean : Clean s va) :
    (myGang s).dirty.any (fun r => decide (r.1 < va.toNat + 4) && decide (va.toNat < r.1 + r.2)) = false := by
  rw [List.any_eq_false]
  intro r hr
  have := clean r hr
  simp only [Bool.and_eq_true, decide_eq_true_eq]
  omega

theorem fetchWord_of_outside {s : State} {va : Word} (outside : ¬InImage s va) :
    fetchWord s va = .error (.trap (Trap.here s 8 2 va)) := by
  unfold InImage at outside
  unfold fetchWord
  rw [if_pos (by omega)]

theorem fetchWord_of_clean {s : State} {va : Word} (inside : InImage s va) (clean : Clean s va) :
    fetchWord s va = match icacheAt s s.h.core va with
      | some w => .ok w
      | none => .error (if lockstep s then .trap (Trap.here s 8 3 va) else .miss va) := by
  unfold InImage at inside
  unfold fetchWord
  rw [if_neg (by omega), clean.not_dirty]
  rfl

theorem fetchWord_of_miss {s : State} {va : Word} (inside : InImage s va) (clean : Clean s va)
    (miss : (cachedAt s va).getLsbD 32 = false) :
    fetchWord s va = .error (if lockstep s then .trap (Trap.here s 8 3 va) else .miss va) := by
  have none_there : icacheAt s s.h.core va = none := if_neg (by rw [cachedAt] at miss; rw [miss]; decide)
  rw [fetchWord_of_clean inside clean, none_there]

theorem icacheAt_of_cached {s : State} {va : Word} {v : Instr32} (cached : cachedAt s va = BitVec.ofNat 33 (2 ^ 32 + v.toNat)) :
    icacheAt s s.h.core va = some v := by
  have valid : (BitVec.ofNat 33 (2 ^ 32 + v.toNat)).getLsbD 32 = true := by
    rw [BitVec.getLsbD_ofNat, show 2 ^ 32 + v.toNat = 2 ^ 32 * 1 + v.toNat by omega, Nat.testBit_two_pow_mul_add _ v.isLt]
    rfl
  have word : (BitVec.ofNat 33 (2 ^ 32 + v.toNat)).setWidth 32 = v := by
    apply BitVec.eq_of_toNat_eq
    have := v.isLt
    simp only [BitVec.toNat_setWidth, BitVec.toNat_ofNat]
    omega
  rw [cachedAt] at cached
  simp only [icacheAt, cached, valid, word, if_true]

theorem fetchWord_of_cached {s : State} {va : Word} {v : Instr32} (inside : InImage s va) (clean : Clean s va)
    (cached : cachedAt s va = BitVec.ofNat 33 (2 ^ 32 + v.toNat)) : fetchWord s va = .ok v := by
  rw [fetchWord_of_clean inside clean, icacheAt_of_cached cached]

theorem fetchWords_of_fetchWord {s : State} {ws : List Instr32} {va : Word}
    (each : ∀ (k : Nat) (v : Instr32), ws[k]? = some v → fetchWord s (va + BitVec.ofNat 64 (4 * k)) = .ok v) :
    fetchWords s ws.length va = .ok ws := by
  induction ws generalizing va with
  | nil => rfl
  | cons w ws ih =>
    have first : fetchWord s va = .ok w := by simpa using each 0 w rfl
    have later : fetchWords s ws.length (va + 4) = .ok ws := ih fun k v hk => by
      have := each (k + 1) v (by simpa using hk)
      rwa [show va + BitVec.ofNat 64 (4 * (k + 1)) = va + 4 + BitVec.ofNat 64 (4 * k) by bv_omega] at this
    rw [List.length_cons, fetchWords, first, later]

theorem fetch_of_error {s : State} {e : FetchStop} (stopped : fetchWord s s.h.pc = .error e) : fetch s = .error e := by
  unfold fetch
  rw [stopped]

theorem fetch_of_fetchWord {s : State} {w : Instr32} {ws : List Instr32} (head : ws.head? = some w)
    (length : ws.length = (formOf w).words)
    (each : ∀ (k : Nat) (v : Instr32), ws[k]? = some v → fetchWord s (s.h.pc + BitVec.ofNat 64 (4 * k)) = .ok v) :
    fetch s = .ok ws := by
  have first : fetchWord s s.h.pc = .ok w := by
    simpa using each 0 w (by rw [← head, List.head?_eq_getElem?])
  rw [← fetchWords_of_fetchWord each, length]
  unfold fetch
  rw [first]

/-! The attempt. -/

theorem takeHart_self (s : State) : takeHart s s.h.gang s.h.idx = s := if_pos (by simp [isHart])

theorem findHart_self (s : State) : findHart s s.h.gang s.h.idx = some s.h := by
  simp [findHart, allHarts, isHart]

theorem settleStep_of_running {s : State} (running : s.h.run = .running) (t : State) : settleStep s t = t := by
  unfold settleStep
  rw [running]
  rfl

theorem issue_of_running {s : State} (running : s.h.run = .running) :
    issue s.h.gang s.h.idx s = attempt (modH s (fun h => { h with issued := false })) := by
  unfold issue
  rw [takeHart_self]
  dsimp only
  cases attempt (modH s fun h => { h with issued := false }) with
  | next t => exact congrArg _ (settleStep_of_running running t)
  | fault f => rfl
  | refused r => rfl

/-- The agenda's hart takes its turn. -/
theorem step_of_hart {s : State} {rest : List Pick} (named : s.agenda = .hart s.h.gang s.h.idx 0 :: rest)
    (can : ready s s.h = true) (running : s.h.run = .running) :
    step s = attempt (modH { s with agenda := rest } (fun h => { h with issued := false })) := by
  have found : findHart { s with agenda := rest } s.h.gang s.h.idx = some s.h := findHart_self _
  have still : ready { s with agenda := rest } s.h = true := can
  have picked : pick (.hart s.h.gang s.h.idx 0) { s with agenda := rest } = issue s.h.gang s.h.idx { s with agenda := rest } := by
    simp only [pick, found, still, lt_irrefl, if_false, if_true]
  rw [step_of_agenda_cons named, picked]
  exact issue_of_running (s := { s with agenda := rest }) running

/-- The state in which the hart in hand fetches. -/
def fetching (s : State) : State := modH s (fun h => { clearAttempt h with issueCy := s.cyc })

theorem interruptDue_fetching {s : State} (no_irq : s.h.irqs = []) : interruptDue (fetching s) = false := by
  simp [interruptDue, fetching, clearAttempt, no_irq]

/-- What an attempt does with the outcome of its fetch. -/
def afterFetch (s : State) (queued : Option Nat) : Except FetchStop (List Instr32) → Out
  | .error (.trap t) => .next (takeTrap s t)
  | .error (.miss va) => match execIcacheFill va s with
    | .next t => .next (missStall t)
    | other => other
  | .ok ws => match decodeWords ws with
    | .ok i => issueInstr i (modH s (fun h => { h with queued }))
    | .illegal code => .next (takeTrap s (illegalTrap s ws code))
    | .short _ => .next s

/-- No interrupt and no instruction stopped part-way keeps the hart from its fetch. -/
theorem attempt_eq_afterFetch {s : State} (no_irq : s.h.irqs = []) (no_part : s.h.part = none) :
    attempt s = afterFetch (fetching s) s.h.queued (fetch (fetching s)) := by
  have quiet := interruptDue_fetching no_irq
  unfold attempt
  dsimp only
  split
  · next q stopped => exact nomatch no_part.symm.trans stopped
  · refine (if_neg ?_).trans ?_
    · exact (Bool.eq_false_iff.mp quiet :)
    · rfl

theorem attempt_of_trap {s : State} {t : Trap} (no_irq : s.h.irqs = []) (no_part : s.h.part = none)
    (fetched : fetch (fetching s) = .error (.trap t)) : attempt s = .next (takeTrap (fetching s) t) := by
  rw [attempt_eq_afterFetch no_irq no_part, fetched]
  rfl

theorem attempt_of_miss {s t : State} {va : Word} (no_irq : s.h.irqs = []) (no_part : s.h.part = none)
    (fetched : fetch (fetching s) = .error (.miss va)) (filled : execIcacheFill va (fetching s) = .next t) :
    attempt s = .next (missStall t) := by
  rw [attempt_eq_afterFetch no_irq no_part, fetched]
  dsimp only [afterFetch]
  rw [filled]

theorem attempt_of_illegal {s : State} {ws : List Instr32} {code : Nat} (no_irq : s.h.irqs = []) (no_part : s.h.part = none)
    (fetched : fetch (fetching s) = .ok ws) (decoded : decodeWords ws = .illegal code) :
    attempt s = .next (takeTrap (fetching s) (illegalTrap (fetching s) ws code)) := by
  rw [attempt_eq_afterFetch no_irq no_part, fetched]
  dsimp only [afterFetch]
  rw [decoded]

theorem attempt_of_decoded {s : State} {ws : List Instr32} {i : Instr} (no_irq : s.h.irqs = []) (no_part : s.h.part = none)
    (fetched : fetch (fetching s) = .ok ws) (decoded : decodeWords ws = .ok i) :
    attempt s = issueInstr i (modH (fetching s) (fun h => { h with queued := s.h.queued })) := by
  rw [attempt_eq_afterFetch no_irq no_part, fetched]
  dsimp only [afterFetch]
  rw [decoded]

/-! The decoded instruction. -/

theorem isSome_parts_of_decodeWords {ws : List Instr32} {i : Instr} (decoded : decodeWords ws = .ok i) : (parts i).isSome = true := by
  have words : encodeWords i ≠ [] := by
    unfold decodeWords at decoded
    split at decoded
    · cases decoded
    · next w rest =>
      dsimp only at decoded
      generalize (if (formOf w).isExt = true then rest.getD 0 0 else 0) = e1 at decoded
      generalize (if (formOf w).isExt = true then rest.getD 1 0 else 0) = e2 at decoded
      generalize rest.getD (if (formOf w).isExt = true then 3 else 1) 0 ++ rest.getD (if (formOf w).isExt = true then 2 else 0) 0 = lit
        at decoded
      split at decoded
      · cases decoded
      · split at decoded
        · cases decoded
        · split at decoded
          · cases decoded
          · next kept =>
            split at decoded
            · cases decoded
            · cases decoded
              have same := of_not_not (bne_iff_ne.not.mp kept)
              rw [same]
              cases formOf w <;> simp [Form.words]
  cases known : parts i with
  | some p => rfl
  | none => exact absurd (by unfold encodeWords; rw [known]) words

theorem awaitUnits_of_others {s : State} {k : Cost} (late : s.cyc < earliest s { k with merge := 0 }) :
    awaitUnits s k = some (delay s (earliest s { k with merge := 0 })) := if_pos late

theorem awaitUnits_of_merge {s : State} {k : Cost} (others : earliest s { k with merge := 0 } ≤ s.cyc) (late : s.cyc < earliest s k) :
    awaitUnits s k = some (modH (delay s (earliest s k)) (fun h => { h with queued := some (s.h.queued.getD s.cyc) })) :=
  (if_neg (by omega)).trans (if_pos late)

theorem awaitUnits_of_free {s : State} {k : Cost} (others : earliest s { k with merge := 0 } ≤ s.cyc) (all : earliest s k ≤ s.cyc) :
    awaitUnits s k = none := (if_neg (by omega)).trans (if_neg (by omega))

/-- A wait of a lockstep hart whose cy its plan has not yet given (R240). -/
def PlanOpen (i : Instr) (s : State) : Prop := lockstep s = true ∧ plannedWait i = true ∧ s.h.timed = false

theorem issueInstr_of_planOpen {i : Instr} {s : State} (planned : PlanOpen i s) :
    ∃ n, s.cyc ≤ n ∧ issueInstr i s = .next (modH s (fun h => { clearAttempt h with timed := true, next := n })) := by
  obtain ⟨lock, wait, untimed⟩ := planned
  exact ⟨_, Nat.le_add_right .., if_pos (by simp [lock, wait, untimed])⟩

theorem planTest_of_not_planOpen {i : Instr} {s : State} (unplanned : ¬PlanOpen i s) :
    (lockstep s && plannedWait i && !s.h.timed) = false := by
  simpa [PlanOpen] using unplanned

theorem issueInstr_of_await {i : Instr} {s t : State} (unplanned : ¬PlanOpen i s) (waits : awaitUnits s (costOf i s) = some t) :
    issueInstr i s = .next t := by
  unfold issueInstr
  simp only [planTest_of_not_planOpen unplanned, waits]
  rfl

/-- The state in which the instruction `i` has its effect: the windows it meets are noted. -/
def meeting (i : Instr) (s : State) : State :=
  let k := costOf i s
  let stepped := if s.h.stepAt = 0 then [] else k.reads.filter (fun l => match l with | .x _ => false | _ => true)
  modH s (fun h => { h with
    hot := hotAt (besideSweeps s) k s.cyc ++ stepped
    hotCells := hotCellsAt (besideSweeps s) k s.cyc ++ stepped.map (fun l => (l, none)) })

theorem issueInstr_of_exec {i : Instr} {s t : State} (unplanned : ¬PlanOpen i s) (free : awaitUnits s (costOf i s) = none)
    (next : exec i (meeting i s) = .next t) : issueInstr i s = .next (settleTrial i (meeting i s) t) := by
  unfold issueInstr
  rw [if_neg (by rw [planTest_of_not_planOpen unplanned]; exact Bool.false_ne_true)]
  dsimp only
  rw [free]
  change (match exec i (meeting i s) with
    | .next t => Host.Outcome.next (settleTrial i (meeting i s) t)
    | other => other) = _
  rw [next]

end Sys2Proof.Machine
end

section
/-! What the issue of an instruction adds to its effect (log 6): the account of its cost, timing only where no earlier instruction is
still reading or landing. -/
namespace Sys2Proof.Machine

theorem keepLate_eq {k : Cost} {old : Hart} (none_late : old.lateX = []) (s : State) :
    ∃ l, keepLate k old s = modH s (fun h => { h with lateX := l }) := by
  refine List.foldlRecOn k.lands _ (motive := fun t => ∃ l, t = modH s (fun h => { h with lateX := l })) ⟨s.h.lateX, rfl⟩ ?_
  rintro _ ⟨l, rfl⟩ x _
  have on_time (u : State) : decide (u.cyc + 1 < sget 0 old.lateX x.1.toNat) = false := by
    rw [none_late]
    exact decide_eq_false (Nat.not_lt_zero _)
  dsimp only
  split
  · exact ⟨l, rfl⟩
  · simp only [on_time, Bool.false_and, Bool.false_eq_true, if_false]
    exact ⟨_, rfl⟩

theorem disturbReaders_of_over {s : State} {old : Hart} {locs : List Loc} {first : Nat} (ended : ∀ w ∈ old.reading, w.upto ≤ first) :
    disturbReaders s old locs first = s := by
  have nobody : readersOf old locs first = [] := by
    have : openReads old locs first = [] := List.filter_eq_nil_iff.mpr fun w hw => by
      have := ended w hw
      simp [Nat.not_lt.mpr this]
    rw [readersOf, this]
    rfl
  unfold disturbReaders
  rw [nobody]

theorem disturbSweeps_of_still {cores : List Nat} {locs : List Loc} {first : Nat} {s : State}
    (still : ∀ w ∈ s.sweeps, w.running = false) : disturbSweeps cores locs first s = s := by
  unfold disturbSweeps
  dsimp only
  rw [List.filter_eq_nil_iff.mpr fun w hw => by simp [still w hw]]
  rfl

/-- The same state but for merge units, arrays, the calendar and what rows are awake. -/
def SameButTiming (s u : State) : Prop :=
  ∃ m r c w d, u = { s with merge := m, ramps := r, calendar := c, touched := w, drowsy := d }

theorem SameButTiming.refl (s : State) : SameButTiming s s := ⟨s.merge, s.ramps, s.calendar, s.touched, s.drowsy, rfl⟩

theorem SameButTiming.trans {s u v : State} (h : SameButTiming s u) (h' : SameButTiming u v) : SameButTiming s v := by
  obtain ⟨_, _, _, _, _, rfl⟩ := h
  obtain ⟨m, r, c, w, d, rfl⟩ := h'
  exact ⟨m, r, c, w, d, rfl⟩

theorem SameButTiming.cyc {s u : State} (h : SameButTiming s u) : u.cyc = s.cyc := by
  obtain ⟨_, _, _, _, _, rfl⟩ := h
  rfl

theorem arrayOccupy_timing (s : State) (core t n : Nat) : SameButTiming s (arrayOccupy s core t n) := by
  unfold arrayOccupy
  dsimp only
  split <;> exact ⟨s.merge, _, _, s.touched, s.drowsy, rfl⟩

theorem touchRows_timing (s : State) (rows : List Nat) (t : Nat) : SameButTiming s (touchRows s rows t) :=
  ⟨s.merge, s.ramps, s.calendar, _, _, rfl⟩

theorem charge_timing (s : State) (k : Cost) (t : Nat) (pc : Word) : SameButTiming (modH s (chargeHart k t pc)) (charge s k t pc) := by
  have merge (s : State) (c : Prop) [Decidable c] (m : Sparse Nat) : SameButTiming s (if c then s else { s with merge := m }) := by
    split
    · exact .refl s
    · exact ⟨m, s.ramps, s.calendar, s.touched, s.drowsy, rfl⟩
  have arrays (s : State) : SameButTiming s (if k.array then
      (tileCores s).foldl (fun s core => arrayOccupy s core (t + 2 + k.skew) k.occ) s else s) := by
    split
    · exact List.foldlRecOn _ _ (motive := SameButTiming s) (.refl s) fun u hu core _ => hu.trans (arrayOccupy_timing ..)
    · exact .refl s
  unfold charge
  dsimp only
  split
  · exact (merge ..).trans (arrays _)
  · exact ((merge ..).trans (arrays _)).trans (touchRows_timing ..)

theorem markRestart_of_rp {c : Ctl} (rp : c.rp = true) (old : Hart) (cy : Nat) (h : Hart) : markRestart c old cy h =
    { h with csr := { h.csr with rpc := old.pc }, restart := ⟨old.x, old.csr, old.gens, cy⟩ } := if_pos rp

theorem markRestart_of_not_rp {c : Ctl} (no_rp : c.rp = false) (old : Hart) (cy : Nat) (h : Hart) : markRestart c old cy h = h :=
  if_neg (Bool.eq_false_iff.mp no_rp)

/-- What an issue leaves in its hart beside the account of its cost: `h` is the hart after that account. -/
def settledHart (i : Instr) (old : Hart) (t next : Nat) (last : Option Issued) (h : Hart) : Hart :=
  clearAttempt { markRestart (Instr.ctl i) old t h with
    next, stepAt := (match i with | .rte _ _ => h.stepAt | _ => 0), last, swapPaid := false, timed := false }

theorem settleIssue_of_charge {i : Instr} {k : Cost} {old : Hart} {s v u : State} (kept : keepLate k old s = v)
    (readers : ∀ locs, disturbReaders v old locs (s.cyc + 1 + k.skew) = v)
    (sweeps : ∀ cores locs first, disturbSweeps cores locs first v = v) (charged : charge v k v.cyc old.pc = u) :
    ∃ next last, u.cyc < next ∧
      settleIssue i k old s = { modH u (settledHart i old u.cyc next last) with free := u.free + 1 } := by
  unfold settleIssue
  dsimp only
  rw [kept, readers, sweeps, charged]
  exact ⟨max u.h.next (u.cyc + 1 + (Instr.ctl i).sc.toNat + k.extra + heatStall u), _, by omega, rfl⟩

theorem chargeHart_eq (k : Cost) (t : Nat) (pc : Word) (h : Hart) :
    ∃ units lastLand laneLand accessEnd ports accesses flagsDue exposed reading, chargeHart k t pc h =
      { h with units, lastLand, laneLand, accessEnd, ports, accesses, flagsDue, exposed, reading } :=
  ⟨_, _, _, _, _, _, _, _, _, rfl⟩

/-- Where no earlier instruction is still reading or landing, an issue adds its account; the hart may issue again in a later cy. -/
theorem settleIssue_eq {i : Instr} {k : Cost} {old : Hart} {s : State} (none_late : old.lateX = [])
    (none_reads : ∀ w ∈ old.reading, w.upto ≤ s.cyc + 1) (still : ∀ w ∈ s.sweeps, w.running = false) :
    ∃ late next last merge ramps calendar touched drowsy, s.cyc < next ∧ settleIssue i k old s =
      { s with free := s.free + 1, merge, ramps, calendar, touched, drowsy
               h := settledHart i old s.cyc next last (chargeHart k s.cyc old.pc { s.h with lateX := late }) } := by
  obtain ⟨late, kept⟩ := keepLate_eq (k := k) none_late s
  obtain ⟨u, charged⟩ : ∃ u, charge (modH s fun h => { h with lateX := late }) k s.cyc old.pc = u := ⟨_, rfl⟩
  have timing := charge_timing (modH s fun h => { h with lateX := late }) k s.cyc old.pc
  rw [charged] at timing
  have clock : u.cyc = s.cyc := timing.cyc
  obtain ⟨next, last, later, settled⟩ := settleIssue_of_charge (i := i) kept
    (fun locs => disturbReaders_of_over fun w hw => (none_reads w hw).trans (Nat.le_add_right ..))
    (fun cores locs first => disturbSweeps_of_still still) charged
  rw [clock] at later settled
  obtain ⟨m, r, c, w, d, rfl⟩ := timing
  refine ⟨late, next, last, m, r, c, w, d, later, ?_⟩
  rw [settled]
  dsimp only [modH]

/-- The trial of an instruction that has issued, waits for nothing, swaps nothing and meets free units stands as its issue. -/
theorem settleTrial_of_issued {i : Instr} {s t : State} {k : Cost} (issued : t.h.issued = true) (no_wait : t.h.wait = none)
    (no_swap : t.h.swapCy = 0) (no_check : s.h.csr.tchk = false)
    (cost : costOf i { s with h := { s.h with work := t.h.work, swapCy := 0 } } = k)
    (free : awaitUnits s k = none) (awake : wakes s k = false) : settleTrial i s t = settleIssue i k s.h t := by
  have account : costOf i (modH s (fun h => { h with work := t.h.work, swapCy := t.h.swapCy })) = k := by
    rw [no_swap]
    exact cost
  unfold settleTrial
  simp only [account]
  simp only [issued, no_wait, no_swap, no_check, free, awake, Bool.not_true, Bool.false_and, bne_self_eq_false,
    Option.isSome_none, Bool.false_eq_true, if_false]

theorem missStall_eq (s : State) : ∃ n, s.cyc ≤ n ∧
    missStall s = if s.h.run = .stopped then s else { s with free := s.free + 1, h := { s.h with next := n } } := by
  refine ⟨max s.h.next (s.cyc + (Config.freeBits s.free (2 ^ 69)).toNat), by omega, ?_⟩
  unfold missStall
  simp only [beq_iff_eq]
  rfl

theorem exec_trapEntry {cls : BitVec 8} (precise : preciseClass cls = true) (code : BitVec 8) (va : Word) (s : State) :
    exec (.trapEntry cls code va) s = .next (takeTrap s (Trap.here s cls code va)) := if_pos precise

end Sys2Proof.Machine
open Sys2Proof Sys2Proof.Machine

/-- Settles O47: the step is the attempt of the hart that the agenda names. Its fetch gives the words in the cache, or the trap or the
miss of the first of them; the words decode or trap; and what issuing adds is the account of `settleIssue`. No instruction moves the
clock (`exec_cyc`), so that the account is that of the cy in which the hart issues. -/
theorem stepRunsDecodedInstruction : Obligations.StepRunsDecodedInstruction := by
  unfold Obligations.StepRunsDecodedInstruction
  intro s rest w ws named can running no_irq no_part
  have turn := step_of_hart named can running
  intro at' l inside clean cached s1 sq
  have here : at' 0 = s.h.pc := by simp [at']
  have trapped {code : BitVec 8} (stopped : fetchWord s1 s1.h.pc = .error (.trap (Trap.here s1 8 code s.h.pc))) :
      step s = exec (.trapEntry 8 code s.h.pc) s1 :=
    (turn.trans (attempt_of_trap no_irq no_part (fetch_of_error stopped))).trans (exec_trapEntry (by decide) ..).symm
  refine ⟨fun outside => trapped (fetchWord_of_outside (here ▸ outside)), fun is_inside is_clean miss => ?_,
    fun each head length => ?_⟩
  · have stopped := fetchWord_of_miss (s := s1) (here ▸ is_inside) (fun r hr => here ▸ is_clean r hr) (here ▸ miss)
    refine ⟨fun lock => trapped ?_, fun elastic t filled => ?_⟩
    · rwa [if_pos (show lockstep s1 = true from lock)] at stopped
    · rw [if_neg (show ¬lockstep s1 = true from Bool.eq_false_iff.mp elastic)] at stopped
      obtain ⟨n, later, stalled⟩ := missStall_eq t
      have clock : t.cyc = s.cyc := execIcacheFill_cyc s.h.pc s1 t filled
      have missed := turn.trans (attempt_of_miss no_irq no_part (fetch_of_error stopped) filled)
      exact ⟨n, clock ▸ later, missed.trans (congrArg _ stalled)⟩
  · have fetched := fetch_of_fetchWord (s := s1) head length fun k v hv => by
      obtain ⟨is_inside, is_clean, is_cached⟩ := each k v hv
      exact fetchWord_of_cached is_inside is_clean is_cached
    refine ⟨fun code illegal => ?_, fun i decoded => ?_⟩
    · refine (turn.trans (attempt_of_illegal no_irq no_part fetched illegal)).trans ?_
      have first : ws.getD 0 0 = w := by rw [List.getD_eq_getElem?_getD, ← List.head?_eq_getElem?, head]; rfl
      rw [exec_trapEntry (by decide), ← first]
      rfl
    · have tried : step s = issueInstr i sq := turn.trans (attempt_of_decoded no_irq no_part fetched decoded)
      intro c others all lane stepped s2 planned
      refine ⟨fun is_planned => ?_, fun unplanned =>
        ⟨fun late => ?_, fun on_time late => ?_, fun on_time free t next => ⟨?_, ?_⟩⟩⟩
      · obtain ⟨n, later, put_off⟩ := issueInstr_of_planOpen (i := i) (s := sq) is_planned
        exact ⟨n, later, tried.trans put_off⟩
      · exact tried.trans (issueInstr_of_await unplanned (awaitUnits_of_others late))
      · exact tried.trans (issueInstr_of_await unplanned (awaitUnits_of_merge on_time late))
      · exact tried.trans (issueInstr_of_exec unplanned (awaitUnits_of_free on_time free) next)
      · intro done no_wait no_swap no_check d others_free all_free awake _ none_reads _ still none_late
        have clock : t.cyc = s.cyc := exec_cyc (isSome_parts_of_decodeWords decoded) s2 t next
        have settled := settleTrial_of_issued (i := i) (s := s2) done no_wait no_swap no_check rfl
          (awaitUnits_of_free others_free all_free) awake
        obtain ⟨late, n, last, m, r, cal, rows, asleep, later, account⟩ :=
          settleIssue_eq (i := i) (k := d) (old := s2.h) (s := t) none_late (clock ▸ none_reads) still
        obtain ⟨_, _, _, _, _, _, _, _, _, charged⟩ := chargeHart_eq d t.cyc s2.h.pc { t.h with lateX := late }
        rw [charged] at account
        unfold settledHart at account
        cases rp : (Instr.ctl i).rp with
        | true =>
          rw [markRestart_of_rp rp] at account
          exact ⟨_, settled.trans account, rfl, clock ▸ later, fun _ => ⟨rfl, rfl⟩, nofun⟩
        | false =>
          rw [markRestart_of_not_rp rp] at account
          exact ⟨_, settled.trans account, rfl, clock ▸ later, nofun, fun _ => ⟨rfl, rfl⟩⟩
end

section
/-! Results together with a change of the hart: the flags of FCSR, the generators, the dot register (R70, R72, R75). -/
namespace Sys2Proof.Machine

/-! The elements written. -/

/-- The values that ascending items leave in a register of the grant. -/
theorem writeElems_items {s : State} (g : GrantSound s) {n p w : Nat} (first : (vreg s n).first = some p) (fits : p + dOf s w ≤ 256)
    (sgn : Bool) {items : List Item} (ascend : items.Pairwise (fun a b => a.elem < b.elem))
    (below : ∀ i ∈ items, i.elem < s.h.csr.rows * s.h.csr.tiles * s.h.csr.rlen) :
    ElemsWritten s (writeElems s n w sgn items) n w (fun e => (items.find? (fun i => decide (i.elem = e))).map Item.bits) := by
  refine ⟨p, first, writeElems_planesKept g first fits sgn _, fun e he => ?_⟩
  rw [elemAt_writeElems sgn _ first, elemAt_of_first first, writeElems_bitsAt s n w sgn _ p first fits g ascend below e he]
  dsimp only
  cases items.find? (fun i => decide (i.elem = e)) <;> rfl

/-- What an element takes counts by its low bits. -/
theorem ElemsWritten.congr {s t : State} {n w : Nat} {f f' : Nat → Option Nat} (written : ElemsWritten s t n w f)
    (same : ∀ e, (f e).map (· % 2 ^ w) = (f' e).map (· % 2 ^ w)) : ElemsWritten s t n w f' := by
  obtain ⟨p, first, kept, held⟩ := written
  refine ⟨p, first, kept, fun e he => (held e he).trans ?_⟩
  have value := same e
  cases old : f e <;> cases new : f' e <;> rw [old, new] at value
  · cases value
  · cases value
  · exact Option.some.inj value

/-- A value written to element 0 alone, where VL is not 0 (R74, R75). -/
theorem head_written {s : State} (g : Granted s) {n p w : Nat} (first : (vreg s n).first = some p) (fits : p + dOf s w ≤ 256)
    (sgn : Bool) (v : Nat) :
    ElemsWritten s (if s.h.csr.vl = 0 then s else writeElems s n w sgn [⟨0, v, false⟩]) n w
      (fun e => if e = 0 ∧ 0 < s.h.csr.vl then some v else none) := by
  by_cases empty : s.h.csr.vl = 0
  · simp only [empty, if_true, lt_irrefl, and_false, if_false]
    exact ⟨p, first, fun _ _ _ _ _ _ => rfl, fun _ _ => rfl⟩
  · obtain ⟨g, below⟩ := g.resolve_left empty
    rw [if_neg empty]
    refine (writeElems_items g first fits sgn (List.pairwise_singleton _ _) fun i hi => ?_).congr fun e => ?_
    · rw [List.mem_singleton.mp hi]
      exact (Nat.pos_of_ne_zero empty).trans_le below
    · by_cases he : e = 0 <;> simp [he, Nat.pos_of_ne_zero empty, eq_comm]

theorem head_onlyPlanes (s : State) (n w : Nat) (sgn : Bool) (v : Nat) :
    OnlyPlanes s (if s.h.csr.vl = 0 then s else writeElems s n w sgn [⟨0, v, false⟩]) := by
  split
  · exact .rfl' s
  · exact writeElems_onlyPlanes s n w sgn _

theorem head_clean {s : State} (clean : s.poisonLane = []) (n w : Nat) (sgn : Bool) (v : Nat) :
    (if s.h.csr.vl = 0 then s else writeElems s n w sgn [⟨0, v, false⟩]).poisonLane = [] := by
  split
  · exact clean
  · exact writeElems_clean clean n w sgn fun i hi => by rw [List.mem_singleton.mp hi]

theorem head_unarmed (s : State) (n w : Nat) (sgn : Bool) (v : Nat) :
    Unarmed s (if s.h.csr.vl = 0 then s else writeElems s n w sgn [⟨0, v, false⟩]) := by
  split
  · exact fun unarmed => ⟨unarmed, rfl⟩
  · exact writeElems_unarmed s n w sgn _

/-! The frame. -/

/-- The frame of an instruction that changes its hart by `g` before it writes planes. -/
theorem vecFrame_of_hartChange {c : Ctl} {s t u : State} {names : List Named} {ops : List (BitVec 6 × Nat)} {f g : Hart → Hart}
    (m : Names names ops) (o : OnlyPlanes (modH (touchRegs s names) g) u)
    (t_eq : t = { u with h := { f s.h with
      pc := pcAfter c s, issued := true, refs := (touchRegs s names).h.refs, regs := (touchRegs s names).h.regs } })
    (clean : s.poisonLane = [] → u.poisonLane = []) (unarmed : Unarmed (touchRegs s names) u) :
    VecFrame c s t (ops.map (fun x => x.1.toNat)) f := by
  unfold OnlyPlanes at o
  have only := congrArg (fun x : State => { x with h := (touchRegs s names).h }) o
  exact vecFrame_of_onlyPlanes (u := { u with h := (touchRegs s names).h }) m only t_eq clean unarmed

/-- Going on, where the hart and its pc are known. -/
theorem retire_of_hart (c : Ctl) {s u : State} {h : Hart} (hart : u.h = h) (same_pc : h.pc = s.h.pc) :
    retire c u = { u with h := { h with pc := pcAfter c s, issued := true } } := by
  subst hart
  rw [retire, nextPc_eq, pcAfter_congr same_pc]
  rfl

/-- A change of the hart that leaves the grant and the register file. -/
structure KeepsGrant (g : Hart → Hart) : Prop where
  vl : ∀ h, (g h).csr.vl = h.csr.vl
  fold : ∀ h, (g h).csr.fold = h.csr.fold
  rlen : ∀ h, (g h).csr.rlen = h.csr.rlen
  rows : ∀ h, (g h).csr.rows = h.csr.rows
  tiles : ∀ h, (g h).csr.tiles = h.csr.tiles
  core : ∀ h, (g h).core = h.core
  regs : ∀ h, (g h).regs = h.regs

theorem physRow_modH (s : State) (g : Hart → Hart) (core i : Nat) : physRow (modH s g) core i = physRow s core i := rfl

theorem planeAt_modH (s : State) (g : Hart → Hart) (core row pl : Nat) : planeAt (modH s g) core row pl = planeAt s core row pl := rfl

theorem KeepsGrant.dOf {g : Hart → Hart} (k : KeepsGrant g) (s : State) (w : Nat) : dOf (modH s g) w = dOf s w := by
  simp only [Machine.dOf, foldOf, modH_h, k.fold]

theorem KeepsGrant.vreg {g : Hart → Hart} (k : KeepsGrant g) (s : State) (n : Nat) : vreg (modH s g) n = vreg s n := by
  simp only [Machine.vreg, vregAt, modH_h, k.regs]

theorem KeepsGrant.granted {g : Hart → Hart} (k : KeepsGrant g) {s : State} (granted : Granted s) : Granted (modH s g) := by
  simpa only [Granted, GrantSound, RowsDistinct, physRow_modH, modH_h, k.vl, k.fold, k.rlen, k.rows, k.tiles, k.core] using granted

theorem KeepsGrant.spotOf {g : Hart → Hart} (k : KeepsGrant g) (s : State) (e : Nat) : spotOf (modH s g) e = spotOf s e := by
  simp only [Machine.spotOf, physRow_modH, modH_h, k.fold, k.rlen, k.rows, k.core]

theorem KeepsGrant.elemAt {g : Hart → Hart} (k : KeepsGrant g) (s : State) (n w e : Nat) : elemAt (modH s g) n w e = elemAt s n w e := by
  have fold_eq : foldOf (modH s g) = foldOf s := k.fold s.h
  unfold Machine.elemAt bitsAt
  simp only [k.vreg, k.spotOf, fold_eq, planeAt_modH]

/-- Where elements are written depends on the grant and the register file alone. -/
theorem KeepsGrant.elemsWritten {g : Hart → Hart} (k : KeepsGrant g) {s t : State} {n w : Nat} {f : Nat → Option Nat}
    (written : ElemsWritten (modH s g) t n w f) : ElemsWritten s t n w f := by
  obtain ⟨p, first, kept, held⟩ := written
  simp only [k.vreg, k.elemAt, k.dOf, modH_h, k.rows, k.tiles, k.rlen] at first kept held
  refine ⟨p, first, ?_, held⟩
  simpa only [PlanesKept, InGrant, physRow_modH, planeAt_modH, modH_h, k.rows, k.tiles, k.core] using kept

/-- A change of the hart, then a value to element 0 alone, then the next instruction. -/
theorem head_after_hartChange {c : Ctl} {s : State} {names : List Named} {ops : List (BitVec 6 × Nat)} {n p w : Nat} {f g : Hart → Hart}
    (m : Names names ops) (k : KeepsGrant g) (granted : Granted s) (first : (vreg s n).first = some p) (fits : p + dOf s w ≤ 256)
    (hart : g (touchRegs s names).h = { f s.h with refs := (touchRegs s names).h.refs, regs := (touchRegs s names).h.regs })
    (same_pc : (f s.h).pc = s.h.pc) (sgn : Bool) (v : Nat) {t : State}
    (t_eq : t = retire c (if s.h.csr.vl = 0 then modH (touchRegs s names) g
      else writeElems (modH (touchRegs s names) g) n w sgn [⟨0, v, false⟩])) :
    VecFrame c s t (ops.map (fun x => x.1.toNat)) f ∧
    ElemsWritten s t n w (fun e => if e = 0 ∧ 0 < s.h.csr.vl then some v else none) := by
  have vl_eq : (modH (touchRegs s names) g).h.csr.vl = s.h.csr.vl := (k.vl _).trans (congrArg Csrs.vl (touchRegs_csr s names))
  have only := head_onlyPlanes (modH (touchRegs s names) g) n w sgn v
  have clean (clean : s.poisonLane = []) :=
    head_clean (s := modH (touchRegs s names) g) (clean_touchRegs clean names) n w sgn v
  have unarmed := head_unarmed (modH (touchRegs s names) g) n w sgn v
  have written := head_written (k.granted (granted.touch names))
    ((congrArg VReg.first (k.vreg _ n)).trans ((vreg_touchRegs_first s names n).trans first))
    (by rw [k.dOf, dOf_touchRegs]; exact fits) sgn v
  rw [vl_eq] at only clean unarmed written
  subst t_eq
  exact ⟨vecFrame_of_hartChange m only (retire_of_hart c (only.h.trans hart) same_pc) clean unarmed,
    (k.elemsWritten written).of_touchRegs⟩

/-! Flags. -/

theorem flagsOf_getLsbD (l : List FItem) (k : Nat) :
    (flagsOf l).getLsbD k = l.any (fun i => !i.poison && i.flags.getLsbD k) := by
  unfold flagsOf
  have gen : ∀ a : FlagSet, (l.foldl (fun a i => if i.poison then a else a ||| i.flags) a).getLsbD k =
      (a.getLsbD k || l.any (fun i => !i.poison && i.flags.getLsbD k)) := by
    induction l with
    | nil => intro a; simp
    | cons i r ih =>
      intro a
      rw [List.foldl_cons, ih, List.any_cons]
      cases i.poison <;> simp [Bool.or_assoc]
  rw [gen]
  simp

theorem setWidth_getLsbD_flags (f : FlagSet) {k : Nat} (hk : k < 64) :
    (f.setWidth 64).getLsbD k = (decide (k < 6) && f.getLsbD k) := by
  rw [BitVec.getLsbD_setWidth, decide_eq_true hk, Bool.true_and]
  by_cases small : k < 6
  · simp [small]
  · simp [small, BitVec.getLsbD_of_ge f k (Nat.not_lt.mp small)]

/-- The flags of the elements, unpoisoned, are those of the active elements. -/
theorem floatItems_flags {c : Ctl} {s : State} (clean : s.poisonLane = []) (f : Nat → Nat × FlagSet) {bad : Nat → Bool}
    (none_bad : ∀ e, bad e = false) (k : Nat) :
    (flagsOf (floatItems c s f bad)).getLsbD k =
      (List.range s.h.csr.vl).any (fun e => predBit s c.pred.toNat e && (f e).2.getLsbD k) := by
  rw [flagsOf_getLsbD, floatItems, List.any_filterMap]
  refine congrArg (List.any _) (funext fun e => ?_)
  cases predBit s c.pred.toNat e
  · cases c.z <;> simp
  · simp [none_bad, predPoisoned_of_clean clean]

/-- The flags that an element-wise instruction adds to FCSR. -/
theorem flagsGathered_of_floatItems {c : Ctl} {s : State} (names : List Named) (f : Nat → Nat × FlagSet) {bad : Nat → Bool}
    (none_bad : s.poisonLane = [] → ∀ e, bad e = false) :
    FlagsGathered c s (s.h.csr.fcsr ||| (flagsOf (floatItems c (touchRegs s names) f bad)).setWidth 64) (fun e => (f e).2) := by
  intro clean k hk
  rw [BitVec.getLsbD_or, setWidth_getLsbD_flags _ hk, floatItems_flags (clean_touchRegs clean names) f (none_bad clean)]
  simp only [touchRegs_csr, predBit_touchRegs]

/-- The bits of the results are those of an element-wise integer instruction. -/
theorem floatItems_items (c : Ctl) (s : State) (f : Nat → Nat × FlagSet) (bad : Nat → Bool) :
    (floatItems c s f bad).map FItem.item = results c s (fun e => (f e).1) bad := by
  unfold floatItems results
  rw [List.map_filterMap]
  refine congrArg (List.filterMap · _) (funext fun e => ?_)
  split
  · rfl
  · split <;> rfl

/-! Generators. -/

theorem lfsrStep_ne_zero {x : BitVec 32} (nonzero : x ≠ 0) : (lfsrStep x).2 ≠ 0 := by
  intro zero
  apply nonzero
  unfold lfsrStep at zero
  cases low : x.getLsbD 0
  · simp only [low, Bool.false_eq_true, if_false] at zero
    refine BitVec.eq_of_getLsbD_eq fun k hk => ?_
    refine Eq.trans ?_ BitVec.getLsbD_zero.symm
    cases k with
    | zero => exact low
    | succ k =>
      have bit := congrArg (BitVec.getLsbD · k) zero
      simpa [Nat.add_comm] using bit
  · simp only [low, if_true] at zero
    have top := congrArg (BitVec.getLsbD · 31) zero
    simp at top

theorem lfsrRun_ne_zero (n j : Nat) {x : BitVec 32} (z : Nat) (nonzero : x ≠ 0) : (lfsrRun n j x z).2 ≠ 0 := by
  induction n generalizing j x z with
  | zero => exact nonzero
  | succ n ih => exact ih (j + 1) _ (lfsrStep_ne_zero nonzero)

theorem genState_ne_zero (h : Hart) (e : Nat) : genState h e ≠ 0 := by
  unfold genState genSeed
  dsimp only
  split
  · split
    · decide
    · assumption
  · assumption

/-- A generator's state depends on its entry and on the seed in the high half of FCSR (R70). -/
theorem genState_congr {h h' : Hart} (gens : h'.gens = h.gens)
    (seed : h'.csr.fcsr.extractLsb' 32 32 = h.csr.fcsr.extractLsb' 32 32) (e : Nat) : genState h' e = genState h e := by
  unfold genState
  rw [gens, seed]

theorem seed_of_flags (w : Word) (f : FlagSet) : (w ||| f.setWidth 64).extractLsb' 32 32 = w.extractLsb' 32 32 := by
  refine BitVec.eq_of_getLsbD_eq fun k hk => ?_
  have high : ¬32 + k < 6 := by omega
  rw [BitVec.getLsbD_extractLsb', BitVec.getLsbD_extractLsb', BitVec.getLsbD_or, setWidth_getLsbD_flags f (by omega),
    decide_eq_false high, Bool.false_and, Bool.or_false]

theorem genState_advanceGen (h : Hart) (e k : Nat) :
    genState (advanceGen h e 1) k = if k = e then (lfsrDraw (genState h e)).2 else genState h k := by
  have drawn_ne : (lfsrDraw (genState h e)).2 ≠ 0 := lfsrRun_ne_zero 32 0 0 (genState_ne_zero h e)
  have entry : sget 0 (advanceGen h e 1).gens k = if k = e then (lfsrDraw (genState h e)).2 else sget 0 h.gens k := sget_sset ..
  unfold genState
  dsimp only
  rw [entry]
  by_cases same : k = e
  · rw [if_pos same, if_pos same, if_neg drawn_ne]
    rfl
  · rw [if_neg same, if_neg same]
    rfl

theorem foldl_advanceGen (es : List Nat) (h : Hart) :
    es.foldl (fun h e => advanceGen h e 1) h = { h with gens := (es.foldl (fun h e => advanceGen h e 1) h).gens } := by
  induction es generalizing h with
  | nil => rfl
  | cons e r ih => exact ih (advanceGen h e 1)

/-- Each generator of a list without repetition draws once. -/
theorem genState_foldl_advanceGen {es : List Nat} (nodup : es.Nodup) (h : Hart) (k : Nat) :
    genState (es.foldl (fun h e => advanceGen h e 1) h) k = if k ∈ es then (lfsrDraw (genState h k)).2 else genState h k := by
  induction es generalizing h with
  | nil => rfl
  | cons e r ih =>
    obtain ⟨fresh, nodup⟩ := List.nodup_cons.mp nodup
    rw [List.foldl_cons, ih nodup, genState_advanceGen]
    by_cases same : k = e
    · subst same
      simp [fresh]
    · simp [same]

/-! FCSR, the generators and the flags raised. -/

/-- A hart with new flags and generators. -/
def floatHart (fcsr : Word) (gens : Sparse (BitVec 32)) (raised : FlagSet) (h : Hart) : Hart :=
  { h with csr := { h.csr with fcsr }, gens, raised }

/-- The generators after each of `es` has drawn, under SR (R70). -/
def gensAfter (rm : Nat) (es : List Nat) (h : Hart) : Sparse (BitVec 32) :=
  if rm = 5 then (es.foldl (fun h e => advanceGen h e 1) h).gens else h.gens

theorem drawn_orFlags (rm : Nat) (es : List Nat) (u : State) (fl : FlagSet) :
    drawn rm es (orFlags u fl) =
      modH u (floatHart (u.h.csr.fcsr ||| fl.setWidth 64) (gensAfter rm es (orFlags u fl).h) (u.h.raised ||| fl)) := by
  unfold drawn gensAfter
  split
  · exact congrArg (fun h => { u with h := h }) (foldl_advanceGen es (orFlags u fl).h)
  · rfl

theorem genState_orFlags (s : State) (fl : FlagSet) (k : Nat) : genState (orFlags s fl).h k = genState s.h k :=
  genState_congr (h := s.h) (h' := (orFlags s fl).h) rfl (seed_of_flags s.h.csr.fcsr fl) k

theorem drawn_generators {rm : Nat} {es : List Nat} (nodup : es.Nodup) (s : State) (fl : FlagSet) :
    GeneratorsDrawn rm s (drawn rm es (orFlags s fl)) (fun e => decide (e ∈ es)) := by
  refine ⟨fun other => ?_, fun sr e => ?_⟩
  · rw [drawn, if_neg other]
    rfl
  · rw [drawn, if_pos sr]
    refine (genState_foldl_advanceGen nodup (orFlags s fl).h e).trans ?_
    simp only [genState_orFlags, decide_eq_true_eq]

/-- What is drawn does not depend on the order of references. -/
theorem GeneratorsDrawn.of_hart {rm : Nat} {s s' t t' : State} {es : Nat → Bool} (d : GeneratorsDrawn rm s t es)
    (old : s'.h.gens = s.h.gens) (old_seed : s'.h.csr = s.h.csr) (new : t'.h.gens = t.h.gens) (new_seed : t'.h.csr = t.h.csr) :
    GeneratorsDrawn rm s' t' es := by
  obtain ⟨others, sr⟩ := d
  refine ⟨fun h => by rw [new, others h, old], fun h e => ?_⟩
  rw [genState_congr new (by rw [new_seed]), genState_congr old (by rw [old_seed])]
  exact sr h e

theorem touchRegs_gens (s : State) (names : List Named) : (touchRegs s names).h.gens = s.h.gens := by rw [touchRegs_eq]

@[simp] theorem genState_touchRegs (s : State) (names : List Named) (e : Nat) : genState (touchRegs s names).h e = genState s.h e :=
  genState_congr (touchRegs_gens s names) (by rw [touchRegs_csr]) e

@[simp] theorem drawZ_touchRegs (s : State) (names : List Named) (e : Nat) : drawZ (touchRegs s names) e = drawZ s e := by
  unfold drawZ
  rw [genState_touchRegs]

@[simp] theorem rmOf_touchRegs (c : Ctl) (s : State) (names : List Named) : rmOf c (touchRegs s names) = rmOf c s := by
  unfold rmOf
  rw [touchRegs_csr]

@[simp] theorem elemFloat_touchRegs (s : State) (names : List Named) (d : Desc) (n e : Nat) :
    elemFloat (touchRegs s names) d n e = elemFloat s d n e := by
  unfold elemFloat
  rw [elemBits_touchRegs]

@[simp] theorem actives_touchRegs (c : Ctl) (s : State) (names : List Named) : actives c (touchRegs s names) = actives c s := by
  unfold actives elems
  simp only [touchRegs_csr, predBit_touchRegs]

theorem mem_actives (c : Ctl) (s : State) (e : Nat) :
    decide (e ∈ actives c s) = (decide (e < s.h.csr.vl) && predBit s c.pred.toNat e) := by
  simp [actives, elems]

theorem actives_nodup (c : Ctl) (s : State) : (actives c s).Nodup := List.nodup_range.filter _

theorem floatHart_frame {c : Ctl} {s u : State} {names : List Named} {ops : List (BitVec 6 × Nat)} (fcsr : Word)
    (gens : Sparse (BitVec 32)) (raised : FlagSet) (m : Names names ops) (o : OnlyPlanes (touchRegs s names) u)
    (clean : s.poisonLane = [] → u.poisonLane = []) (unarmed : Unarmed (touchRegs s names) u) :
    VecFrame c s (retire c (modH u (floatHart fcsr gens raised))) (ops.map (fun x => x.1.toNat)) (floatHart fcsr gens raised) := by
  refine vecFrame_of_onlyPlanes m o ?_ clean unarmed
  have hart : (modH u (floatHart fcsr gens raised)).h = floatHart fcsr gens raised
      { s.h with refs := (touchRegs s names).h.refs, regs := (touchRegs s names).h.regs } := by
    rw [modH_h, o.h]
    exact congrArg _ (touchRegs_hart s names)
  exact retire_of_hart c hart rfl

/-- Planes written, then flags raised and draws taken, then the next instruction. -/
theorem drawn_frame {c : Ctl} {s u : State} {names : List Named} {ops : List (BitVec 6 × Nat)} {rm : Nat} {es : List Nat}
    {fl : FlagSet} (m : Names names ops) (o : OnlyPlanes (touchRegs s names) u) (clean : s.poisonLane = [] → u.poisonLane = [])
    (unarmed : Unarmed (touchRegs s names) u) :
    VecFrame c s (retire c (drawn rm es (orFlags u fl))) (ops.map (fun x => x.1.toNat)) (fun h =>
      { h with csr := { h.csr with fcsr := s.h.csr.fcsr ||| fl.setWidth 64 }
               gens := (retire c (drawn rm es (orFlags u fl))).h.gens, raised := (retire c (drawn rm es (orFlags u fl))).h.raised }) := by
  have csr : u.h.csr = s.h.csr := by rw [o.h, touchRegs_csr]
  rw [drawn_orFlags, csr]
  exact floatHart_frame _ _ _ m o clean unarmed

theorem drawn_elems {c : Ctl} {s u : State} {rm : Nat} {es : List Nat} {fl : FlagSet} {n w : Nat} {f : Nat → Option Nat}
    (written : ElemsWritten s u n w f) : ElemsWritten s (retire c (drawn rm es (orFlags u fl))) n w f := by
  rw [drawn_orFlags]
  exact written

theorem drawn_gens {c : Ctl} {s u : State} {names : List Named} {rm : Nat} {es : List Nat} {fl : FlagSet}
    (o : OnlyPlanes (touchRegs s names) u) (nodup : es.Nodup) :
    GeneratorsDrawn rm s (retire c (drawn rm es (orFlags u fl))) (fun e => decide (e ∈ es)) :=
  (drawn_generators nodup u fl).of_hart (by rw [o.h, touchRegs_gens]) (by rw [o.h, touchRegs_csr]) rfl rfl

end Sys2Proof.Machine
end

section
/-! Integer reductions, the dot product and scans (R74, R75, R186 to R188). -/
namespace Sys2Proof.Machine

/-! The combination of a list of values. -/

/-- The combination of values in index order, the group's own value over none. -/
def Red.total (r : Red) (D : Desc) (l : List Int) : Int := (r.fold l).getD (r.empty D)

theorem Red.fold_append (r : Red) (l : List Int) (v : Int) : r.fold (l ++ [v]) = some ((r.fold l).elim v (r.comb · v)) := by
  cases l with
  | nil => rfl
  | cons x l => simp [Red.fold, List.foldl_append]

theorem total_add (D : Desc) (l : List Int) : redAdd.total D l = l.sum := by
  cases l with
  | nil => rfl
  | cons v l =>
    show l.foldl (fun a b => a + b) v = _
    induction l generalizing v with
    | nil => simp
    | cons x l ih => rw [List.foldl_cons, ih, List.sum_cons, List.sum_cons, List.sum_cons, add_assoc]

/-- A fold by a choice between two values gives a member that `le` puts before all. -/
theorem foldl_choice {comb : Int → Int → Int} {le : Int → Int → Prop} (refl : ∀ a, le a a) (trans : ∀ a b c, le a b → le b c → le a c)
    (left : ∀ a b, le (comb a b) a) (right : ∀ a b, le (comb a b) b) (either : ∀ a b, comb a b = a ∨ comb a b = b) (l : List Int) (v : Int) :
    l.foldl comb v ∈ v :: l ∧ ∀ x ∈ v :: l, le (l.foldl comb v) x := by
  induction l generalizing v with
  | nil => exact ⟨List.mem_singleton_self v, fun x hx => List.mem_singleton.mp hx ▸ refl v⟩
  | cons y l ih =>
    obtain ⟨member, first⟩ := ih (comb v y)
    have best := first (comb v y) List.mem_cons_self
    refine ⟨?_, fun x hx => ?_⟩
    · rcases List.mem_cons.mp member with chosen | later
      · rw [List.foldl_cons, chosen]
        rcases either v y with same | same <;> simp [same]
      · simp [List.foldl_cons, later]
    · rcases List.mem_cons.mp hx with rfl | hx
      · exact trans _ _ _ best (left x y)
      · rcases List.mem_cons.mp hx with rfl | hx
        · exact trans _ _ _ best (right v x)
        · exact first x (List.mem_cons_of_mem _ hx)

theorem total_least {r : Red} (comb : r.comb = fun a b => min a b) (D : Desc) {l : List Int} (some_value : l ≠ []) :
    r.total D l ∈ l ∧ ∀ x ∈ l, r.total D l ≤ x := by
  obtain ⟨v, l, rfl⟩ := List.exists_cons_of_ne_nil some_value
  simp only [Red.total, Red.fold, comb, Option.getD_some]
  exact foldl_choice (le := fun a b => a ≤ b) le_refl (fun _ _ _ => le_trans) min_le_left min_le_right min_choice l v

theorem total_greatest {r : Red} (comb : r.comb = fun a b => max a b) (D : Desc) {l : List Int} (some_value : l ≠ []) :
    r.total D l ∈ l ∧ ∀ x ∈ l, x ≤ r.total D l := by
  obtain ⟨v, l, rfl⟩ := List.exists_cons_of_ne_nil some_value
  simp only [Red.total, Red.fold, comb, Option.getD_some]
  exact foldl_choice (le := fun a b => b ≤ a) le_refl (fun _ _ _ h h' => le_trans h' h) le_max_left le_max_right max_choice l v

/-- Over no value the group's own value, else what holds of the total over some. -/
theorem total_cases {r : Red} {D : Desc} {l : List Int} {P : Prop} (of_some : l ≠ [] → P) :
    (l = [] ∧ r.total D l = r.empty D) ∨ P := by
  cases l with
  | nil => exact .inl ⟨rfl, rfl⟩
  | cons v l => exact .inr (of_some (List.cons_ne_nil v l))

theorem intBit_zero (k : Nat) : intBit 0 k = false := by simp [intBit]

theorem intBit_neg_one (k : Nat) : intBit (-1) k = true := by
  have quotient : (-1 : Int) / 2 ^ k = -1 :=
    ((Int.ediv_emod_unique (r := 2 ^ k - 1) (by positivity)).mpr ⟨by ring, by have : (0 : Int) < 2 ^ k := by positivity
                                                                              omega, by omega⟩).1
  rw [intBit, quotient]
  rfl

/-- A fold by a bitwise operation, bit by bit. -/
theorem foldl_bitwise {f : BitVec 66 → BitVec 66 → BitVec 66} {g : Bool → Bool → Bool}
    (bits : ∀ x y : BitVec 66, ∀ k, k < 66 → (f x y).getLsbD k = g (x.getLsbD k) (y.getLsbD k)) {k : Nat} (hk : k < 66) (l : List Int)
    (v : Int) : intBit (l.foldl (bitwise f) v) k = (l.map (intBit · k)).foldl g (intBit v k) := by
  induction l generalizing v with
  | nil => rfl
  | cons x l ih =>
    have step : intBit (bitwise f v x) k = g (intBit v k) (intBit x k) := by
      have := low_bitwise_testBit (w := 66) le_rfl v x bits hk
      rwa [low_testBit, decide_eq_true hk, Bool.true_and] at this
    rw [List.foldl_cons, ih, step, List.map_cons, List.foldl_cons]

theorem total_and (D : Desc) (l : List Int) {k : Nat} (hk : k < 66) : intBit (redAnd.total D l) k = l.all (fun x => intBit x k) := by
  have fold (l : List Int) (b : Bool) : (l.map (intBit · k)).foldl (fun x y => x && y) b = (b && l.all (fun x => intBit x k)) := by
    induction l generalizing b with
    | nil => simp
    | cons x l ih => rw [List.map_cons, List.foldl_cons, ih, List.all_cons, Bool.and_assoc]
  cases l with
  | nil => exact intBit_neg_one k
  | cons v l => exact (foldl_bitwise (g := fun x y => x && y) (fun _ _ _ _ => BitVec.getLsbD_and) hk l v).trans (fold l _)

theorem total_or (D : Desc) (l : List Int) {k : Nat} (hk : k < 66) : intBit (redOr.total D l) k = l.any (fun x => intBit x k) := by
  have fold (l : List Int) (b : Bool) : (l.map (intBit · k)).foldl (fun x y => x || y) b = (b || l.any (fun x => intBit x k)) := by
    induction l generalizing b with
    | nil => simp
    | cons x l ih => rw [List.map_cons, List.foldl_cons, ih, List.any_cons, Bool.or_assoc]
  cases l with
  | nil => exact intBit_zero k
  | cons v l => exact (foldl_bitwise (g := fun x y => x || y) (fun _ _ _ _ => BitVec.getLsbD_or) hk l v).trans (fold l _)

theorem odd_add_bit (n : Nat) (b : Bool) : ((n + if b then 1 else 0) % 2 == 1) = (b ^^ (n % 2 == 1)) := by
  rcases Nat.mod_two_eq_zero_or_one n with even | odd <;> cases b <;> simp [Nat.add_mod, *]

theorem total_xor (D : Desc) (l : List Int) {k : Nat} (hk : k < 66) :
    intBit (redXor.total D l) k = (l.countP (fun x => intBit x k) % 2 == 1) := by
  have fold (l : List Int) (b : Bool) :
      (l.map (intBit · k)).foldl (fun x y => x ^^ y) b = (b ^^ (l.countP (fun x => intBit x k) % 2 == 1)) := by
    induction l generalizing b with
    | nil => simp
    | cons x l ih => rw [List.map_cons, List.foldl_cons, ih, List.countP_cons, odd_add_bit, Bool.xor_assoc]
  cases l with
  | nil => exact intBit_zero k
  | cons v l =>
    refine (foldl_bitwise (g := fun x y => x ^^ y) (fun _ _ _ _ => BitVec.getLsbD_xor) hk l v).trans ((fold l _).trans ?_)
    rw [List.countP_cons, odd_add_bit]

/-! Reductions. -/

@[simp] theorem Red.value_touchRegs (r : Red) (s : State) (names : List Named) (A : Desc) (n : Nat) :
    r.value (touchRegs s names) A n = r.value s A n := by
  funext e
  simp only [Red.value, elemBits_touchRegs, elemInt_touchRegs]

theorem none_poisoned {s : State} (clean : s.poisonLane = []) (names : List Named) (l : List Nat) (n w : Nat) :
    l.any (elemPoisoned (touchRegs s names) n w) = false :=
  List.any_eq_false.mpr fun e _ => by simp [elemPoisoned_of_clean (clean_touchRegs clean names)]

theorem vred_writes {i : Instr} {c : Ctl} {o : VF} {s : State} {r : Red} (run : exec i s = vred c o s r) (clean : s.poisonLane = [])
    (g : Granted s) (intA : IntOp c s .a) (intD : IntOp c s .d)
    (usable : Usable s [(o.va, (descOf c s .a).w), (o.vd, (descOf c s .d).w)]) :
    ∃ t, exec i s = .next t ∧
      VecFrame c s t ([(o.va, (descOf c s .a).w), (o.vd, (descOf c s .d).w)].map (fun x => x.1.toNat)) id ∧
      ElemsWritten s t o.vd.toNat (descOf c s .d).w (fun e => if e = 0 ∧ 0 < s.h.csr.vl then
        some (low (descOf c s .d).w (r.total (descOf c s .d) ((actives c s).map (r.value s (descOf c s .a) o.va.toNat)))) else none) := by
  have m := names_pair c o.va o.vd (descOf c s .a).w (descOf c s .d).w
  obtain ⟨-, -, p, first, fits⟩ := usable.1 (o.vd, (descOf c s .d).w) (by simp)
  unfold vred at run
  rw [vecFrame_prepared _ (usable.prepared m) (wf_of_intOp (by simp [intA, intD])) (by simp [intA.accepted, intD.accepted]) rfl] at run
  generalize [srcNamed o.va (descOf c s .a).w, dstNamed c o.vd (descOf c s .d).w] = names at run m
  simp only [none_poisoned clean, Bool.false_eq_true, if_false, actives_touchRegs, Red.value_touchRegs] at run
  have only := head_onlyPlanes (touchRegs s names) o.vd.toNat (descOf c s .d).w (descOf c s .d).sgn
  refine ⟨_, run, vecFrame_of_onlyPlanes (f := id) m (only _) (retire_of_onlyPlanes c (only _))
    (fun clean => head_clean (clean_touchRegs clean names) _ _ _ _) (head_unarmed _ _ _ _ _), ?_⟩
  have written := (head_written (g.touch names) ((vreg_touchRegs_first s names _).trans first) (by simpa using fits)
    (descOf c s .d).sgn (low (descOf c s .d).w (r.total (descOf c s .d) ((actives c s).map (r.value s (descOf c s .a) o.va.toNat))))).of_touchRegs
  simp only [touchRegs_csr] at written ⊢
  exact written

/-! The dot product. -/

/-- A hart with a new dot register and a new count of its work. -/
def dotHart (dot : Word) (work : Nat) (h : Hart) : Hart := { h with dot, work }

theorem keepsGrant_dotHart (dot : Word) (work : Nat) : KeepsGrant (dotHart dot work) :=
  ⟨fun _ => rfl, fun _ => rfl, fun _ => rfl, fun _ => rfl, fun _ => rfl, fun _ => rfl, fun _ => rfl⟩

theorem foldl_add_map (l : List Nat) (f : Nat → Int) (a : Int) : l.foldl (fun t e => t + f e) a = a + (l.map f).sum := by
  induction l generalizing a with
  | nil => simp
  | cons e l ih => rw [List.foldl_cons, ih, List.map_cons, List.sum_cons, add_assoc]

theorem vdot_writes {c : Ctl} {o : V3} {s : State} (clean : s.poisonLane = []) (g : Granted s) (unfolded : s.h.csr.fold = 1)
    (intA : IntOp c s .a) (intB : IntOp c s .b) (intD : IntOp c s .d)
    (usable : Usable s [(o.va, (descOf c s .a).w), (o.vb, (descOf c s .b).w), (o.vd, (descOf c s .d).w)]) :
    let start := if c.imm.getLsbD 0 then elemInt s (descOf c s .d) o.vd.toNat 0 else 0
    let dot := BitVec.ofInt 64 (start + ((actives c s).map fun e =>
      elemInt s (descOf c s .a) o.va.toNat e * elemInt s (descOf c s .b) o.vb.toNat e).sum)
    ∃ t, exec (.vdot c o) s = .next t ∧
      VecFrame c s t ([(o.va, (descOf c s .a).w), (o.vb, (descOf c s .b).w), (o.vd, (descOf c s .d).w)].map (fun x => x.1.toNat))
        (fun h => { h with dot := dot, work := t.h.work }) ∧
      ElemsWritten s t o.vd.toNat (descOf c s .d).w (fun e => if e = 0 ∧ 0 < s.h.csr.vl then
        some (low (descOf c s .d).w dot.toInt) else none) := by
  intro start dot
  have m : Names [srcNamed o.va (descOf c s .a).w, srcNamed o.vb (descOf c s .b).w,
      if c.imm.getLsbD 0 then srcNamed o.vd (descOf c s .d).w else dstNamed c o.vd (descOf c s .d).w]
      [(o.va, (descOf c s .a).w), (o.vb, (descOf c s .b).w), (o.vd, (descOf c s .d).w)] := by
    refine .cons ⟨rfl, rfl, le_rfl⟩ (.cons ⟨rfl, rfl, le_rfl⟩ (.cons ?_ .nil))
    cases c.imm.getLsbD 0 <;> exact ⟨rfl, rfl, le_rfl⟩
  obtain ⟨-, -, p, first, fits⟩ := usable.1 (o.vd, (descOf c s .d).w) (by simp)
  have run : exec (.vdot c o) s = execVdot c o s := rfl
  unfold execVdot at run
  rw [vecFrame_prepared _ (usable.prepared m) (wf_of_intOp (by simp [intA, intB, intD]))
    (by simp [intA.accepted, intB.accepted, intD.accepted]) (by rw [unfolded]; rfl)] at run
  generalize [srcNamed o.va (descOf c s .a).w, srcNamed o.vb (descOf c s .b).w,
    if c.imm.getLsbD 0 then srcNamed o.vd (descOf c s .d).w else dstNamed c o.vd (descOf c s .d).w] = names at run m
  have sound (n w e : Nat) : elemPoisoned (touchRegs s names) n w e = false := elemPoisoned_of_clean (clean_touchRegs clean names) n w e
  simp only [sound, Bool.or_self, List.any_eq_false.mpr fun _ _ => Bool.false_ne_true, Bool.false_eq_true, if_false, actives_touchRegs, elemInt_touchRegs,
    foldl_add_map] at run
  generalize planePairs c _ o _ _ = work at run
  obtain ⟨t, completes⟩ : ∃ t, exec (.vdot c o) s = .next t := ⟨_, run⟩
  obtain ⟨frame, written⟩ := head_after_hartChange (f := dotHart dot work) m (keepsGrant_dotHart dot work) g first fits
    (congrArg _ (touchRegs_hart s names)) rfl (descOf c s .d).sgn (low (descOf c s .d).w dot.toInt) (t := t)
    (by rw [← touchRegs_csr s names]; exact Host.Outcome.next.inj (completes.symm.trans run))
  have work_eq : t.h.work = work := congrArg (fun t => t.h.work) frame.1
  refine ⟨t, completes, ?_, written⟩
  rw [work_eq]
  exact frame

/-! Scans. -/

theorem Red.prefixes_append (r : Red) (acc : Option Int) (l : List (Nat × Int)) (e : Nat) (v : Int) :
    r.prefixes acc (l ++ [(e, v)]) = r.prefixes acc l ++
      [(e, ((l.map Prod.snd).foldl (fun acc v => some (acc.elim v (r.comb · v))) acc).elim v (r.comb · v))] := by
  induction l generalizing acc with
  | nil => cases acc <;> rfl
  | cons x l ih =>
    cases acc with
    | none => exact congrArg _ (ih _)
    | some a => exact congrArg _ (ih _)

theorem Red.fold_eq_foldl (r : Red) (l : List Int) : r.fold l = l.foldl (fun acc v => some (acc.elim v (r.comb · v))) none := by
  induction l using List.reverseRecOn with
  | nil => rfl
  | append_singleton l v ih => rw [Red.fold_append, List.foldl_append, ← ih]; rfl

/-- The running combinations over the chosen elements below `n`. -/
theorem Red.prefixes_filter (r : Red) (p : Nat → Bool) (v : Nat → Int) (n : Nat) (d : Int) :
    r.prefixes none (((List.range n).filter p).map (fun e => (e, v e))) =
      ((List.range n).filter p).map (fun e => (e, (r.fold (((List.range (e + 1)).filter p).map v)).getD d)) := by
  induction n with
  | zero => rfl
  | succ n ih =>
    rw [List.range_succ, List.filter_append]
    cases chosen : p n with
    | false => simpa [chosen] using ih
    | true =>
      have single : [n].filter p = [n] := by simp [chosen]
      have last : r.fold (((List.range (n + 1)).filter p).map v) =
          some ((r.fold (((List.range n).filter p).map v)).elim (v n) (r.comb · (v n))) := by
        rw [List.range_succ, List.filter_append, single, List.map_append]
        exact r.fold_append _ _
      rw [single, List.map_append, List.map_append, List.map_singleton, List.map_singleton, r.prefixes_append, ih, last,
        List.map_map, r.fold_eq_foldl]
      rfl

theorem scanItems_skip (c : Ctl) (w e : Nat) (es : List Nat) {ps : List (Nat × Int)} (other : ∀ x ∈ ps, x.1 ≠ e) :
    scanItems c w (e :: es) ps = if c.z then ⟨e, 0, false⟩ :: scanItems c w es ps else scanItems c w es ps := by
  cases ps with
  | nil => rfl
  | cons x ps => exact if_neg fun same => other x List.mem_cons_self same.symm

/-- The items of a scan are those of an element-wise instruction. -/
theorem scanItems_filter (c : Ctl) (w : Nat) (p : Nat → Bool) (f : Nat → Int) {es : List Nat} (nodup : es.Nodup) :
    scanItems c w es ((es.filter p).map (fun e => (e, f e))) =
      es.filterMap (fun e => if p e then some ⟨e, wrap w (f e), false⟩ else if c.z then some ⟨e, 0, false⟩ else none) := by
  induction es with
  | nil => rfl
  | cons e es ih =>
    obtain ⟨fresh, nodup⟩ := List.nodup_cons.mp nodup
    cases chosen : p e with
    | true =>
      rw [List.filter_cons_of_pos chosen, List.map_cons, List.filterMap_cons_some (by rw [if_pos chosen]), ← ih nodup]
      exact if_pos rfl
    | false =>
      have unlisted : ∀ x ∈ (es.filter p).map (fun e => (e, f e)), x.1 ≠ e := by
        intro x hx same
        obtain ⟨k, hk, rfl⟩ := List.mem_map.mp hx
        exact fresh (same ▸ (List.mem_filter.mp hk).1)
      rw [List.filter_cons_of_neg (by simp [chosen]), scanItems_skip c w e es unlisted, ih nodup]
      cases c.z <;> simp [chosen]

theorem Red.prefixes_actives (r : Red) (c : Ctl) (s : State) (v : Nat → Int) (d : Int) :
    r.prefixes none ((actives c s).map (fun e => (e, v e))) = (actives c s).map (fun e =>
      (e, (r.fold (((List.range (e + 1)).filter (fun k => predBit s c.pred.toNat k)).map v)).getD d)) :=
  r.prefixes_filter _ v _ d

theorem scanItems_actives {c : Ctl} {s : State} (clean : s.poisonLane = []) (w : Nat) (f : Nat → Int) :
    scanItems c w (elems s) ((actives c s).map (fun e => (e, f e))) = results c s (fun e => wrap w (f e)) := by
  refine (scanItems_filter c w (fun e => predBit s c.pred.toNat e) f List.nodup_range).trans ?_
  unfold results elems
  simp only [predPoisoned_of_clean clean, Bool.or_false]

theorem vscan_writes {i : Instr} {c : Ctl} {o : VF} {s : State} {r : Red} (run : exec i s = vscan c o s r) (clean : s.poisonLane = [])
    (g : Granted s) (intA : IntOp c s .a) (intD : IntOp c s .d)
    (usable : Usable s [(o.va, (descOf c s .a).w), (o.vd, (descOf c s .d).w)]) :
    VecWrites i c s [(o.va, (descOf c s .a).w), (o.vd, (descOf c s .d).w)] o.vd.toNat (descOf c s .d).w (fun e =>
      low (descOf c s .d).w (r.total (descOf c s .d)
        (((List.range (e + 1)).filter (fun k => predBit s c.pred.toNat k)).map (r.value s (descOf c s .a) o.va.toNat)))) := by
  have m := names_pair c o.va o.vd (descOf c s .a).w (descOf c s .d).w
  obtain ⟨-, -, p, first, fits⟩ := usable.1 (o.vd, (descOf c s .d).w) (by simp)
  unfold vscan at run
  rw [vecFrame_prepared _ (usable.prepared m) (wf_of_intOp (by simp [intA, intD])) (by simp [intA.accepted, intD.accepted]) rfl] at run
  generalize [srcNamed o.va (descOf c s .a).w, dstNamed c o.vd (descOf c s .d).w] = names at run m
  simp only [none_poisoned clean, Bool.false_eq_true, if_false, actives_touchRegs, Red.value_touchRegs] at run
  rw [Red.prefixes_actives r c s _ (r.empty (descOf c s .d)), ← actives_touchRegs c s names,
    scanItems_actives (clean_touchRegs clean names)] at run
  exact vecWrites_of_results m g first fits (fun _ _ => rfl) run

end Sys2Proof.Machine

open Sys2Proof Sys2Proof.Machine

/-- Settles O11: a reduction writes the total of the active values to element 0, a scan gives each active element the total of the
active values up to it; what each group's total is, is a matter of lists of integers. -/
theorem reductionAndScanResults : Obligations.ReductionAndScanResults := by
  unfold Obligations.ReductionAndScanResults
  refine ⟨?_, ?_⟩
  · intro c o q s clean g A D ops ns act a u top bottom writes gives bits least greatest
    refine ⟨fun intA intD usable => ?_, fun unfolded intA intB intD usable => vdot_writes clean g unfolded intA intB intD usable⟩
    have width : D.w ≤ 66 := (descOf_width_le c s .d).trans (by decide)
    have direct {i : Instr} (r : Red) (run : exec i s = vred c o s r) : gives i (r.total D (act.map (r.value s A o.va.toNat))) :=
      vred_writes run clean g intA intD usable
    have bitwise {i : Instr} (r : Red) {f : Nat → Bool} (run : exec i s = vred c o s r)
        (total : ∀ k, k < 66 → intBit (r.total D (act.map (r.value s A o.va.toNat))) k = f k) : bits i f :=
      ⟨_, fun k hk => by rw [low_testBit, decide_eq_true hk, Bool.true_and, total k (by omega)], direct r run⟩
    refine ⟨?_, ?_, ?_, ?_, ?_, bitwise redAnd rfl fun k hk => total_and D a hk, bitwise redOr rfl fun k hk => total_or D a hk,
      bitwise redXor rfl fun k hk => total_xor D a hk⟩
    · exact total_add D a ▸ direct redAdd rfl
    · exact ⟨_, total_cases (total_least rfl D), direct redMin rfl⟩
    · exact ⟨_, total_cases (total_greatest rfl D), direct redMax rfl⟩
    · exact ⟨_, total_cases (total_least rfl D), direct redMinu rfl⟩
    · exact ⟨_, total_cases (total_greatest rfl D), direct redMaxu rfl⟩
  · intro c o s clean g A D ops upTo a u gives bits least greatest intA intD usable
    have width : D.w ≤ 66 := (descOf_width_le c s .d).trans (by decide)
    have direct {i : Instr} (r : Red) (run : exec i s = vscan c o s r) :
        gives i (fun e => r.total D ((upTo e).map (r.value s A o.va.toNat))) := vscan_writes run clean g intA intD usable
    have bitwise {i : Instr} (r : Red) {f : Nat → Nat → Bool} (run : exec i s = vscan c o s r)
        (total : ∀ e k, k < 66 → intBit (r.total D ((upTo e).map (r.value s A o.va.toNat))) k = f e k) : bits i f :=
      ⟨_, fun e k hk => by rw [low_testBit, decide_eq_true hk, Bool.true_and, total e k (by omega)], direct r run⟩
    refine ⟨?_, ⟨_, fun e => total_least rfl D, direct redMin rfl⟩, ⟨_, fun e => total_greatest rfl D, direct redMax rfl⟩,
      ⟨_, fun e => total_least rfl D, direct redMinu rfl⟩, ⟨_, fun e => total_greatest rfl D, direct redMaxu rfl⟩,
      bitwise redAnd rfl fun e k hk => total_and D (a e) hk, bitwise redOr rfl fun e k hk => total_or D (a e) hk,
      bitwise redXor rfl fun e k hk => total_xor D (a e) hk⟩
    have sums : gives (.vscanAdd c o) _ := direct redAdd rfl
    simp only [total_add] at sums
    exact sums
end

section
/-! Floating-point results by element, with their flags and draws; and predicates (R35, R69 to R72, R201, R205). -/
namespace Sys2Proof.Machine

theorem FpOp.accepted {c : Ctl} {s : State} {x : Opnd} (h : FpOp c s x) : fpDesc (descOf c s x) = true := by
  obtain ⟨-, low, high⟩ := h
  simp [fpDesc, low, high]

section
variable {i : Instr} {c : Ctl} {s : State}

/-- An instruction whose effect is a write of results, on operands of any format that can be used as they stand. -/
theorem vecFrame_results {used : List Opnd} {accept : Bool} {names : List Named} {ops : List (BitVec 6 × Nat)} {vd : BitVec 6}
    {w : Nat} {sgn : Bool} {extra : Option Trap} {value : State → Nat → Nat} {bad : State → Nat → Bool} {f : Nat → Nat}
    (run : exec i s = vecFrame c s used accept names extra none (fun u =>
      retire c (writeElems u vd.toNat w sgn (results c u (value u) (bad u)))))
    (m : Names names ops) (usable : Usable s ops) (dest : (vd, w) ∈ ops) (g : Granted s) (wf : ∀ x ∈ used, (descOf c s x).wf = true)
    (accepted : accept = true) (no_extra : extra = none) (same : value (touchRegs s names) = f)
    (none_bad : ∀ u : State, u.poisonLane = [] → ∀ e, bad u e = false) : VecWrites i c s ops vd.toNat w f := by
  obtain ⟨-, -, p, first, fits⟩ := usable.1 _ dest
  refine vecWrites_of_results (sgn := sgn) (bad := bad (touchRegs s names)) m g first fits
    (fun clean => none_bad _ (clean_touchRegs clean _)) (run.trans ?_)
  rw [vecFrame_prepared _ (usable.prepared m) wf accepted no_extra, same]

/-- Results, their flags and their draws: what an element-wise floating-point instruction leaves. -/
theorem floatWrites_of_floatItems {names : List Named} {ops : List (BitVec 6 × Nat)} {n p w rm : Nat} {sgn : Bool}
    {f : Nat → Nat × FlagSet} {bad : Nat → Bool} (m : Names names ops) (g : Granted s) (first : (vreg s n).first = some p)
    (fits : p + dOf s w ≤ 256) (none_bad : s.poisonLane = [] → ∀ e, bad e = false)
    (run : exec i s = .next (retire c (putFloats c n w sgn rm (floatItems c (touchRegs s names) f bad) (touchRegs s names)))) :
    FloatWrites i c s ops n w rm f := by
  unfold putFloats at run
  rw [floatItems_items, actives_touchRegs] at run
  have only := writeElems_onlyPlanes (touchRegs s names) n w sgn (results c (touchRegs s names) (fun e => (f e).1) bad)
  refine ⟨_, _, run, drawn_frame m only (fun clean => ?_) (writeElems_unarmed _ _ _ _ _),
    drawn_elems (results_written g first fits sgn _ bad), flagsGathered_of_floatItems names f none_bad, ?_⟩
  · have clean' := clean_touchRegs clean names
    exact writeElems_clean clean' n w sgn (results_clean clean' _ (none_bad clean))
  · simpa only [mem_actives] using drawn_gens only (actives_nodup c s)

/-- An instruction whose effect is a write of floating-point results. -/
theorem vecFrame_floats {used : List Opnd} {accept : Bool} {names : List Named} {ops : List (BitVec 6 × Nat)} {vd : BitVec 6}
    {w : Nat} {sgn : Bool} {extra : Option Trap} {value : State → Nat → Nat × FlagSet} {bad : State → Nat → Bool} {f : Nat → Nat × FlagSet}
    (run : exec i s = vecFrame c s used accept names extra none (fun u =>
      retire c (putFloats c vd.toNat w sgn (rmOf c u) (floatItems c u (value u) (bad u)) u)))
    (m : Names names ops) (usable : Usable s ops) (dest : (vd, w) ∈ ops) (g : Granted s) (wf : ∀ x ∈ used, (descOf c s x).wf = true)
    (accepted : accept = true) (no_extra : extra = none) (same : value (touchRegs s names) = f)
    (none_bad : ∀ u : State, u.poisonLane = [] → ∀ e, bad u e = false) : FloatWrites i c s ops vd.toNat w (rmOf c s) f := by
  obtain ⟨-, -, p, first, fits⟩ := usable.1 _ dest
  rw [vecFrame_prepared _ (usable.prepared m) wf accepted no_extra, same, rmOf_touchRegs] at run
  exact floatWrites_of_floatItems m g first fits (fun clean => none_bad _ (clean_touchRegs clean _)) run

theorem vecFloat_writes {o : V3} {readD : Bool} {f : Nat → FVal → FVal → FVal → FVal × FlagSet}
    (run : exec i s = vecFloat c o s readD f) (fpA : FpOp c s .a) (fpB : FpOp c s .b) (fpD : FpOp c s .d)
    (usable : Usable s [(o.va, (descOf c s .a).w), (o.vb, (descOf c s .b).w), (o.vd, (descOf c s .d).w)]) (g : Granted s) :
    FloatWrites i c s [(o.va, (descOf c s .a).w), (o.vb, (descOf c s .b).w), (o.vd, (descOf c s .d).w)] o.vd.toNat (descOf c s .d).w
      (rmOf c s) (fun e => rounded (descOf c s .d).fmt (rmOf c s) (drawZ s e) (f (rmOf c s) (elemFloat s (descOf c s .a) o.va.toNat e)
        (elemFloat s (descOf c s .b) o.vb.toNat e) (if readD then elemFloat s (descOf c s .d) o.vd.toNat e else .zero))) := by
  have m : Names [srcNamed o.va (descOf c s .a).w, srcNamed o.vb (descOf c s .b).w,
      if readD then srcNamed o.vd (descOf c s .d).w else dstNamed c o.vd (descOf c s .d).w]
      [(o.va, (descOf c s .a).w), (o.vb, (descOf c s .b).w), (o.vd, (descOf c s .d).w)] := by
    refine .cons ⟨rfl, rfl, le_rfl⟩ (.cons ⟨rfl, rfl, le_rfl⟩ (.cons ?_ .nil))
    cases readD <;> exact ⟨rfl, rfl, le_rfl⟩
  unfold vecFloat at run
  refine vecFrame_floats run m usable (by simp) g (by simp [fpA.1, fpB.1, fpD.1])
    (by simp [fpA.accepted, fpB.accepted, fpD.accepted]) rfl ?_ fun u clean e => ?_
  · simp only [rmOf_touchRegs, elemFloat_touchRegs, drawZ_touchRegs]
    rfl
  · simp only [elemPoisoned_of_clean clean, Bool.and_false, Bool.or_self]

theorem vecFun_writes {o : VF} {accept : Desc → Desc → Bool} {f : Desc → Desc → Nat → Nat → Nat → Nat × FlagSet}
    (run : exec i s = vecFun c o s accept f) (wfA : (descOf c s .a).wf = true) (wfD : (descOf c s .d).wf = true)
    (accepted : accept (descOf c s .a) (descOf c s .d) = true)
    (usable : Usable s [(o.va, (descOf c s .a).w), (o.vd, (descOf c s .d).w)]) (g : Granted s) :
    FloatWrites i c s [(o.va, (descOf c s .a).w), (o.vd, (descOf c s .d).w)] o.vd.toNat (descOf c s .d).w (rmOf c s) (fun e =>
      f (descOf c s .a) (descOf c s .d) (rmOf c s) (drawZ s e) (elemBits s o.va.toNat (descOf c s .a).w e)) := by
  unfold vecFun at run
  refine vecFrame_floats run (names_pair ..) usable (by simp) g (by simp [wfA, wfD]) accepted rfl ?_
    fun u clean e => elemPoisoned_of_clean clean _ _ _
  simp only [rmOf_touchRegs, drawZ_touchRegs, elemBits_touchRegs]

end

/-! Predicates. -/

theorem results_map (c : Ctl) (s : State) (f : Nat → Nat) (bad : Nat → Bool) (h : Nat → Nat) (zero : h 0 = 0) :
    (results c s f bad).map (fun i => { i with bits := h i.bits }) = results c s (fun e => h (f e)) bad := by
  unfold results
  rw [List.map_filterMap]
  refine congrArg (List.filterMap · _) (funext fun e => ?_)
  split
  · rfl
  · split
    · exact congrArg (fun b => some (Item.mk e b false)) zero
    · rfl

/-- A predicate's bit is the lowest of the lanes that it has for the element (R35). -/
theorem predAt_eq_testBit {s : State} (fold_pos : 0 < s.h.csr.fold) {p : Nat} (named : p ≠ 0) (e : Nat) :
    predAt s p e = (bitsAt s (spotOf s e) (p - 1) s.h.csr.fold).testBit 0 := by
  rw [bitsAt_testBit]
  simp [predAt, named, fold_pos, foldOf]

theorem masked_map {α β : Type} (c : Ctl) (s : State) (zero : α) (f : Nat → α) (h : α → β) (e : Nat) :
    (masked c s zero f e).map h = masked c s (h zero) (fun e => h (f e)) e := by
  unfold masked
  split
  · split
    · rfl
    · split <;> rfl
  · rfl

theorem writePred_results {s : State} (g : Granted s) (c : Ctl) {p : Nat} (small : p < 16) (f : Nat → Nat) (bad : Nat → Bool) :
    PredWritten s (writePred s p (results c s f bad)) p (masked c s false (fun e => f e % 2 == 1)) := by
  unfold PredWritten writePred
  by_cases named : p = 0
  · simp [named]
  · rw [if_neg named, if_neg (by simpa using named)]
    set lanes : Nat → Nat := fun b => if b % 2 == 1 then 2 ^ foldOf s - 1 else 0 with lanes_def
    have lanes_lt (e : Nat) : lanes (f e) < 2 ^ (1 * s.h.csr.fold) := by
      have := Nat.two_pow_pos s.h.csr.fold
      simp only [lanes_def, foldOf, Nat.one_mul]
      split <;> omega
    rw [results_map c s f bad lanes rfl]
    obtain ⟨kept, held⟩ := writeRows_results g c (show p - 1 + 1 ≤ 256 by omega) bad lanes_lt
    refine ⟨kept, fun e he => ?_⟩
    rcases g with empty | ⟨⟨fold_pos, -⟩, -⟩
    · rw [results_eq_nil empty, writeRows_nil]
      simp [masked, empty]
    · have only := writeRows_onlyPlanes s (p - 1) 1 (allRows s) (results c s (fun e => lanes (f e)) bad)
      have spot_eq (t : State) (o : OnlyPlanes s t) : spotOf t e = spotOf s e := by
        unfold spotOf physRow
        rw [o.h, o.fenced]
      rw [predAt_eq_testBit (by rw [only.h]; exact fold_pos) named, predAt_eq_testBit fold_pos named, spot_eq _ only, only.h]
      have bits := congrArg (Nat.testBit · 0) (held e he)
      simp only [Nat.one_mul] at bits
      rw [bits]
      have lowest (b : Nat) : (lanes b).testBit 0 = (b % 2 == 1) := by
        simp only [lanes_def, foldOf]
        split
        · next odd => rw [odd, Nat.testBit_two_pow_sub_one, decide_eq_true fold_pos]
        · next even => rw [Nat.zero_testBit, eq_comm, Bool.eq_false_iff]; exact even
      have value := masked_map c s 0 (fun e => lanes (f e)) (Nat.testBit · 0) e
      simp only [lowest, Nat.zero_testBit] at value
      rw [← value]
      cases masked c s 0 (fun e => lanes (f e)) e <;> rfl

theorem writePred_clean {s : State} (clean : s.poisonLane = []) (p : Nat) {items : List Item} (none_bad : ∀ i ∈ items, i.poison = false) :
    (writePred s p items).poisonLane = [] := by
  unfold writePred
  split
  · exact clean
  · refine writeRows_clean clean _ _ _ fun i hi => ?_
    obtain ⟨x, hx, rfl⟩ := List.mem_map.mp hi
    exact none_bad x hx

theorem writePred_unarmed (s : State) (p : Nat) (items : List Item) : Unarmed s (writePred s p items) := by
  unfold writePred
  split
  · exact fun unarmed => ⟨unarmed, rfl⟩
  · exact writeRows_unarmed _ _ _ _ _

theorem predAt_touchRegs (s : State) (names : List Named) (p e : Nat) : predAt (touchRegs s names) p e = predAt s p e := by
  rw [touchRegs_eq]; rfl

theorem PredWritten.of_touchRegs {s t : State} {names : List Named} {p : Nat} {f : Nat → Option Bool}
    (written : PredWritten (touchRegs s names) t p f) : PredWritten s t p f := by
  unfold PredWritten at written ⊢
  split at written
  · next unnamed => rwa [if_pos unnamed, ← touchRegs_planes s names]
  · next named =>
    obtain ⟨kept, held⟩ := written
    rw [if_neg named]
    refine ⟨kept.of_touchRegs, fun e he => ?_⟩
    rw [← predAt_touchRegs s names]
    exact held e (by simpa using he)

theorem PredWritten.orFlags {c : Ctl} {s u : State} {fl : FlagSet} {p : Nat} {f : Nat → Option Bool} (written : PredWritten s u p f) :
    PredWritten s (retire c (orFlags u fl)) p f := written

/-- Planes written, then flags raised, then the next instruction. -/
theorem orFlags_frame {c : Ctl} {s u : State} {names : List Named} {ops : List (BitVec 6 × Nat)} {fl : FlagSet}
    (m : Names names ops) (o : OnlyPlanes (touchRegs s names) u) (clean : s.poisonLane = [] → u.poisonLane = [])
    (unarmed : Unarmed (touchRegs s names) u) :
    VecFrame c s (retire c (orFlags u fl)) (ops.map (fun x => x.1.toNat)) (fun h =>
      { h with csr := { h.csr with fcsr := s.h.csr.fcsr ||| fl.setWidth 64 }, raised := (retire c (orFlags u fl)).h.raised }) := by
  have gens : u.h.gens = s.h.gens := by rw [o.h, touchRegs_gens]
  have csr : u.h.csr = s.h.csr := by rw [o.h, touchRegs_csr]
  have same : orFlags u fl = modH u (floatHart (s.h.csr.fcsr ||| fl.setWidth 64) s.h.gens (u.h.raised ||| fl)) := by
    rw [← gens, ← csr]
    rfl
  rw [same]
  exact floatHart_frame _ _ _ m o clean unarmed

theorem masked_touchRegs_bool (c : Ctl) (s : State) (names : List Named) (f : Nat → Bool) :
    masked c (touchRegs s names) false f = masked c s false f := by
  unfold masked
  simp only [touchRegs_csr, predBit_touchRegs]

end Sys2Proof.Machine
end

section
/-! Floating-point compares, classes, signs and conversions (R205 to R211), and the results of the group together. -/
namespace Sys2Proof.Machine

section
variable {c : Ctl} {s : State}

theorem compareFloat_eq {cc : Nat} (known : cc < 8) (r : Option Int) :
    compareFloat cc r = match r with
      | none => decide (cc = 1 ∨ cc = 6)
      | some r => decide ((cc = 0 ∧ r = 0) ∨ (cc = 1 ∧ r ≠ 0) ∨ (cc = 2 ∧ r < 0) ∨ (cc = 3 ∧ r ≤ 0) ∨ (cc = 4 ∧ 0 < r) ∨
          (cc = 5 ∧ 0 ≤ r) ∨ cc = 7) := by
  cases r <;> interval_cases cc <;> simp [compareFloat, beq_eq_decide, bne]

/-- NV of a compare: an ordered condition that meets a NaN (R205). -/
theorem compare_flag (cc : Nat) (r : Option Int) :
    (if r.isNone && decide (2 ≤ cc) && decide (cc ≤ 5) then fNv else 0) = if r = none ∧ 2 ≤ cc ∧ cc ≤ 5 then 0x10 else 0 := by
  simp only [Bool.and_eq_true, Option.isNone_iff_eq_none, decide_eq_true_eq, and_assoc]
  rfl

theorem vfcmp_writes {o : V3} (fpA : FpOp c s .a) (fpB : FpOp c s .b)
    (usable : Usable s [(o.va, (descOf c s .a).w), (o.vb, (descOf c s .b).w)]) (g : Granted s) :
    let r := fun e => (elemFloat s (descOf c s .a) o.va.toNat e).cmp (elemFloat s (descOf c s .b) o.vb.toNat e)
    ∃ t fl, exec (.vfcmp c o) s = .next t ∧
      VecFrame c s t ([(o.va, (descOf c s .a).w), (o.vb, (descOf c s .b).w)].map (fun x => x.1.toNat))
        (fun h => { h with csr := { h.csr with fcsr := fl }, raised := t.h.raised }) ∧
      PredWritten s t (o.vd.toNat % 16) (masked c s false (fun e => compareFloat (c.imm.toNat % 16) (r e))) ∧
      FlagsGathered c s fl (fun e => if r e = none ∧ 2 ≤ c.imm.toNat % 16 ∧ c.imm.toNat % 16 ≤ 5 then 0x10 else 0) := by
  intro r
  have m : Names [srcNamed o.va (descOf c s .a).w, srcNamed o.vb (descOf c s .b).w]
      [(o.va, (descOf c s .a).w), (o.vb, (descOf c s .b).w)] := .cons ⟨rfl, rfl, le_rfl⟩ (.cons ⟨rfl, rfl, le_rfl⟩ .nil)
  have run : exec (.vfcmp c o) s = execVfcmp c o s := rfl
  unfold execVfcmp at run
  rw [vecFrame_prepared _ (usable.prepared m) (by simp [fpA.1, fpB.1]) (by simp [fpA.accepted, fpB.accepted]) rfl] at run
  generalize [srcNamed o.va (descOf c s .a).w, srcNamed o.vb (descOf c s .b).w] = names at run m
  simp only [elemFloat_touchRegs, compare_flag, floatItems_items] at run
  have none_bad (clean : s.poisonLane = []) (e : Nat) : (elemPoisoned (touchRegs s names) o.va.toNat (descOf c s .a).w e ||
      elemPoisoned (touchRegs s names) o.vb.toNat (descOf c s .b).w e) = false := by
    simp only [elemPoisoned_of_clean (clean_touchRegs clean names), Bool.or_self]
  refine ⟨_, _, run, orFlags_frame m (writePred_onlyPlanes _ _ _) (fun clean => ?_) (writePred_unarmed _ _ _), ?_,
    flagsGathered_of_floatItems names _ none_bad⟩
  · exact writePred_clean (clean_touchRegs clean names) _ (results_clean (clean_touchRegs clean names) _ (none_bad clean))
  · have written := (writePred_results (g.touch names) c (Nat.mod_lt o.vd.toNat (by decide : 0 < 16))
      (fun e => if compareFloat (c.imm.toNat % 16) (r e) then 1 else 0) (fun e =>
        elemPoisoned (touchRegs s names) o.va.toNat (descOf c s .a).w e ||
          elemPoisoned (touchRegs s names) o.vb.toNat (descOf c s .b).w e)).of_touchRegs
    have lowest (b : Bool) : ((if b then 1 else 0) % 2 == 1) = b := by cases b <;> rfl
    simp only [masked_touchRegs_bool, lowest] at written
    exact written.orFlags

theorem PredWritten.congr {t : State} {p : Nat} {f f' : Nat → Bool} (written : PredWritten s t p (masked c s false f))
    (same : ∀ e, f e = f' e) : PredWritten s t p (masked c s false f') :=
  funext same ▸ written

/-! Classes. -/

/-- The place of the class bit (R208). -/
def classBit (fmt : Nat) (v : FVal) : Nat :=
  match v with
  | .nan _ => 8
  | .inf n => if n then 0 else 7
  | .fin n m x _ => if m = 0 then (if n then 3 else 4)
    else match ieeeOf fmt with
      | some q => if logMag m x < 1 - (q.bias : Int) then (if n then 2 else 5) else (if n then 1 else 6)
      | none => if n then 1 else 6

theorem classMask_eq (fmt p : Nat) : classMask fmt p = 2 ^ classBit fmt (decodeFloat fmt p) := by
  unfold classMask classBit
  cases decodeFloat fmt p with
  | nan _ => rfl
  | inf n => cases n <;> rfl
  | fin n m x t =>
    by_cases zero : m = 0
    · cases n <;> simp [zero]
    · cases ieeeOf fmt with
      | none => cases n <;> simp [zero]
      | some q => by_cases sub : logMag m x < 1 - (q.bias : Int) <;> cases n <;> simp [zero, sub]

theorem classBit_spec (fmt : Nat) (v : FVal) :
    match v with
    | .nan _ => classBit fmt v = 8
    | .inf n => classBit fmt v = if n then 0 else 7
    | .fin n m x _ => if m = 0 then classBit fmt v = (if n then 3 else 4)
      else match ieeeOf fmt with
        | some q => if (Nat.log2 m : Int) + x < 1 - q.bias then classBit fmt v = (if n then 2 else 5)
          else classBit fmt v = (if n then 1 else 6)
        | none => classBit fmt v = if n then 1 else 6 := by
  cases v with
  | nan _ => rfl
  | inf n => rfl
  | fin n m x t =>
    simp only [classBit, logMag]
    split
    · rfl
    · cases ieeeOf fmt with
      | none => rfl
      | some q =>
        dsimp only
        split
        · next sub => exact if_pos sub
        · next normal => exact if_neg normal

theorem vfclass_writes {o : VF} (fpA : FpOp c s .a) (intD : IntOp c s .d)
    (usable : Usable s [(o.va, (descOf c s .a).w), (o.vd, (descOf c s .d).w)]) (g : Granted s) :
    VecWrites (.vfclass c o) c s [(o.va, (descOf c s .a).w), (o.vd, (descOf c s .d).w)] o.vd.toNat (descOf c s .d).w
      (fun e => 2 ^ classBit (descOf c s .a).fmt (elemFloat s (descOf c s .a) o.va.toNat e)) := by
  have run : exec (.vfclass c o) s = execVfclass c o s := rfl
  unfold execVfclass at run
  obtain ⟨t, completes, frame, written⟩ := vecFrame_results run (names_pair ..) usable (by simp) g (by simp [fpA.1, intD.1])
    (by simp [fpA.accepted, intD.accepted]) rfl rfl fun u clean e => elemPoisoned_of_clean clean _ _ _
  refine ⟨t, completes, frame, written.congr fun e => ?_⟩
  simp only [masked_map, elemBits_touchRegs, classMask_eq, Nat.mod_mod, Nat.zero_mod]
  rfl

/-! Signs. -/

theorem testBit_add_top {x n k : Nat} (small : x < 2 ^ n) (sign : Bool) (below : k ≤ n) :
    (x + if sign then 2 ^ n else 0).testBit k = if k = n then sign else x.testBit k := by
  have place := Nat.testBit_two_pow_mul_add sign.toNat small k
  have sum_eq : 2 ^ n * sign.toNat + x = x + if sign then 2 ^ n else 0 := by cases sign <;> simp [Nat.add_comm]
  rw [← sum_eq, place]
  rcases below.lt_or_eq with lower | rfl
  · rw [if_pos lower, if_neg lower.ne]
  · cases sign <;> simp

/-- The bits that sign injection gives (R206). -/
theorem signInject_testBit {fmt w sub a b wb k : Nat} (below : k < w) (known : sub < 3) :
    (signInject fmt w sub a b wb).testBit k =
      if k + 1 = w ∧ ¬((fmt = 8 ∨ fmt = 9) ∧ a % 2 ^ (w - 1) = 0) then
        (if sub = 0 then b.testBit (wb - 1) else if sub = 1 then !b.testBit (wb - 1) else a.testBit k != b.testBit (wb - 1))
      else a.testBit k := by
  have taper : (taperBits fmt).isSome = true ↔ fmt = 8 ∨ fmt = 9 := by
    unfold taperBits
    split <;> simp_all
  unfold signInject
  simp only [taper]
  by_cases passes : (fmt = 8 ∨ fmt = 9) ∧ a % 2 ^ (w - 1) = 0
  · simp [passes]
  · simp only [passes, if_false, not_false_eq_true, and_true]
    rw [testBit_add_top (Nat.mod_lt _ (Nat.two_pow_pos _)) _ (by omega), Nat.testBit_mod_two_pow]
    by_cases top : k = w - 1
    · rw [if_pos top, if_pos (by omega), ← top]
      interval_cases sub <;> rfl
    · rw [if_neg top, if_neg (by omega), decide_eq_true (by omega : k < w - 1), Bool.true_and]

theorem vfsgn_writes {o : V3} (fpA : FpOp c s .a) (fpB : FpOp c s .b) (wfD : (descOf c s .d).wf = true)
    (same_fmt : (descOf c s .d).fmt = (descOf c s .a).fmt)
    (usable : Usable s [(o.va, (descOf c s .a).w), (o.vb, (descOf c s .b).w), (o.vd, (descOf c s .d).w)]) (g : Granted s) :
    VecWrites (.vfsgn c o) c s [(o.va, (descOf c s .a).w), (o.vb, (descOf c s .b).w), (o.vd, (descOf c s .d).w)] o.vd.toNat
      (descOf c s .d).w (fun e => signInject (descOf c s .a).fmt (descOf c s .a).w (c.imm.toNat % 16)
        (elemBits s o.va.toNat (descOf c s .a).w e) (elemBits s o.vb.toNat (descOf c s .b).w e) (descOf c s .b).w) := by
  have run : exec (.vfsgn c o) s = execVfsgn c o s := rfl
  unfold execVfsgn at run
  refine vecFrame_results run (names_triple ..) usable (by simp) g (by simp [fpA.1, fpB.1, wfD])
    (by simp [fpA.accepted, fpB.accepted, same_fmt]) rfl ?_ fun u clean e => ?_
  · simp only [elemBits_touchRegs]
  · simp only [elemPoisoned_of_clean clean, Bool.or_self]

/-! Conversions. -/

theorem FloatWrites.congr {i : Instr} {ops : List (BitVec 6 × Nat)} {n w rm : Nat} {r r' : Nat → Nat × FlagSet}
    (writes : FloatWrites i c s ops n w rm r) (same : ∀ e, r e = r' e) : FloatWrites i c s ops n w rm r' :=
  funext same ▸ writes

theorem rounded_exact (fmt rm z : Nat) (v : FVal) : rounded fmt rm z (v, 0) = fitFloat fmt rm z v :=
  Prod.ext rfl BitVec.zero_or

theorem fitSat_eq (fmt rm z : Nat) (v : FVal) :
    fitSat fmt rm z v = match ieeeOf fmt, decodeFloat fmt (fitFloat fmt rm z v).1 with
      | some p, .inf n => (p.big n, (fitFloat fmt rm z v).2 ||| 0x05)
      | _, _ => fitFloat fmt rm z v := by
  unfold fitSat
  simp only [BitVec.or_assoc]
  rfl

theorem clampInt_flags (D : Desc) (v : Int) (fl : FlagSet) :
    (fun r : Int × FlagSet => (wrap D.w r.1, r.2)) (if clampInt D v = v then (v, fl) else (clampInt D v, fNv)) =
      if v < intMin D then (low D.w (intMin D), 0x10) else if intMax D < v then (low D.w (intMax D), 0x10) else (low D.w v, fl) := by
  rw [clampInt_eq]
  by_cases under : v < intMin D
  · simp only [under, if_true, if_neg under.ne']
    rfl
  · by_cases above : intMax D < v
    · simp only [under, above, if_true, if_false, if_neg above.ne]
      rfl
    · simp only [under, above, if_true, if_false]
      rfl

/-- The pattern and the flags of a conversion to an integer (R210). -/
theorem toInteger_eq (D : Desc) (rm z : Nat) (v : FVal) :
    (wrap D.w (toInteger D rm z v).1, (toInteger D rm z v).2) = match v with
      | .nan _ => (0, 0x10)
      | .inf n => (low D.w (if n then intMin D else intMax D), 0x10)
      | .fin n m x t =>
        let u := roundAt rm n m x 0 t z
        let v : Int := if n then -u.1 else u.1
        if v < intMin D then (low D.w (intMin D), 0x10) else if intMax D < v then (low D.w (intMax D), 0x10)
          else (low D.w v, if u.2 then 0x01 else 0) := by
  cases v with
  | nan _ => simp [toInteger, wrap, fNv]
  | inf n => rfl
  | fin n m x t =>
    exact clampInt_flags D (if n then -((roundAt rm n m x 0 t z).1 : Int) else (roundAt rm n m x 0 t z).1)
      (if (roundAt rm n m x 0 t z).2 then fNx else 0)

end
end Sys2Proof.Machine

open Sys2Proof Sys2Proof.Machine

/-- Settles O13: the arithmetic and the conversions are the two shared forms, whose results, flags and draws are written by element;
compares, classes and signs are written likewise. -/
theorem floatResults : Obligations.FloatResults := by
  unfold Obligations.FloatResults
  refine ⟨?arithmetic, ?tests, ?conversions⟩
  case arithmetic =>
    rintro c o ⟨fn, va, vd⟩ s va_eq vd_eq A B D ops rm a b d gives fpA fpD g
    refine ⟨fun fpB usable => ?_, fun usable => ?_⟩
    · have direct {i : Instr} (f : Nat → FVal → FVal → FVal → FVal × FlagSet) (run : exec i s = vecFloat c o s false f) :
          gives i (fun e => f rm (a e) (b e) .zero) := vecFloat_writes run fpA fpB fpD usable g
      have withD {i : Instr} (f : Nat → FVal → FVal → FVal → FVal × FlagSet) (run : exec i s = vecFloat c o s true f) :
          gives i (fun e => f rm (a e) (b e) (d e)) := vecFloat_writes run fpA fpB fpD usable g
      exact ⟨direct (fun rm x y _ => x.add rm y) rfl, direct (fun rm x y _ => x.add rm y.neg) rfl, direct (fun _ x y _ => x.mul y) rfl,
        direct (fun _ x y _ => x.div y) rfl, withD (fused false false) rfl, withD (fused false true) rfl, withD (fused true false) rfl,
        direct (fun _ x y _ => (x.pick false y, 0)) rfl, direct (fun _ x y _ => (x.pick true y, 0)) rfl⟩
    · obtain rfl : va = o.va := va_eq
      obtain rfl : vd = o.vd := vd_eq
      have run : exec (.vfsqrt c ⟨fn, o.va, o.vd⟩) s = execVfsqrt c ⟨fn, o.va, o.vd⟩ s := rfl
      exact vecFun_writes run fpA.1 fpD.1 (by simp [fpA.accepted, fpD.accepted]) usable g
  case tests =>
    rintro c o ⟨fn, va, vd⟩ s va_eq vd_eq fpA g A B D a b p cc two
    obtain rfl : va = o.va := va_eq
    obtain rfl : vd = o.vd := vd_eq
    refine ⟨fun fpB usable known => ?_, fun intD usable => ?_, fun fpB wfD same_fmt usable known => ?_⟩
    · obtain ⟨t, fl, completes, frame, written, flags⟩ := vfcmp_writes fpA fpB usable g
      exact ⟨t, fl, completes, frame, written.congr fun e => compareFloat_eq known _, flags⟩
    · exact ⟨_, fun e => classBit_spec A.fmt (a e), vfclass_writes (o := ⟨fn, o.va, o.vd⟩) fpA intD usable g⟩
    · exact ⟨_, fun e k below => signInject_testBit below known, vfsgn_writes fpA fpB wfD same_fmt usable g⟩
  case conversions =>
    intro c o s g A D ops rm lo hi sat fit usable
    have fits (e : Nat) (x : FVal) : (if c.imm.getLsbD 0 then fitSat else fitFloat) D.fmt rm (drawZ s e) x = fit e x := by
      simp only [fit, rounded_exact]
      split
      · exact fitSat_eq ..
      · rfl
    refine ⟨fun fpA fpD => ?_, fun intA fpD => ?_, fun fpA intD => ?_⟩
    · have run : exec (.vfcvt c o) s = execVfcvt c o s := rfl
      exact (vecFun_writes run fpA.1 fpD.1 (by simp [fpA.accepted, fpD.accepted]) usable g).congr fun e => fits e _
    · have run : exec (.vitof c o) s = execVitof c o s := rfl
      exact (vecFun_writes run intA.1 fpD.1 (by simp [intA.accepted, fpD.accepted]) usable g).congr fun e => fits e _
    · have run : exec (.vftoi c o) s = execVftoi c o s := rfl
      exact (vecFun_writes run fpA.1 intD.1 (by simp [fpA.accepted, intD.accepted]) usable g).congr fun e => toInteger_eq D rm _ _
end

section
/-! Floating-point reduction: which entries the tree combines (R74, R212). -/
namespace Sys2Proof.Machine

/-! Levels of the tree. -/

/-- A list of at most one entry passes a level as it is. -/
theorem treeLevel_lone (fmt rm op : Nat) (acc : Hart × FlagSet) : ∀ {l : List (Option Entry)}, l.reduceOption.length ≤ 1 →
    ∃ l', treeLevel fmt rm op l acc = (l', acc) ∧ l'.reduceOption = l.reduceOption ∧ l'.length = (l.length + 1) / 2
  | [], _ => ⟨[], rfl, rfl, rfl⟩
  | [x], _ => ⟨[x], rfl, rfl, by simp⟩
  | none :: y :: rest, lone => by
    have rest_lone : rest.reduceOption.length ≤ 1 := by
      cases y with
      | none => exact lone
      | some b => simp_all
    obtain ⟨l', level, same, length⟩ := treeLevel_lone fmt rm op acc rest_lone
    refine ⟨y :: l', by simp [treeLevel, level], ?_, by simp [length]; omega⟩
    cases y <;> simp [same]
  | some a :: none :: rest, lone => by
    have rest_lone : rest.reduceOption.length ≤ 1 := by simp_all
    obtain ⟨l', level, same, length⟩ := treeLevel_lone fmt rm op acc rest_lone
    exact ⟨some a :: l', by simp [treeLevel, level], by simp [same], by simp [length]; omega⟩
  | some a :: some b :: rest, lone => by simp at lone

/-- Enough levels bring a list of at most one entry to a list of one place. -/
theorem treeLevels_lone (fmt rm op : Nat) (acc : Hart × FlagSet) (n : Nat) {l : List (Option Entry)} (lone : l.reduceOption.length ≤ 1)
    (short : l.length ≤ 2 ^ n) :
    ∃ l', treeLevels fmt rm op n l acc = (l', acc) ∧ l'.getD 0 none = l.reduceOption.head? := by
  have single {l : List (Option Entry)} (h : l.length ≤ 1) : l.getD 0 none = l.reduceOption.head? := by
    match l, h with
    | [], _ => rfl
    | [none], _ => rfl
    | [some x], _ => rfl
  induction n generalizing l with
  | zero => exact ⟨l, rfl, single short⟩
  | succ n ih =>
    unfold treeLevels
    split
    · next h => exact ⟨l, rfl, single h⟩
    · obtain ⟨l', level, same, length⟩ := treeLevel_lone fmt rm op acc lone
      obtain ⟨r, levels, head⟩ := ih (l := l') (by rwa [same]) (by rw [length]; omega)
      exact ⟨r, by rw [level]; exact levels, by rw [head, same]⟩

/-- A pair at an even place combines in the first level. -/
theorem treeLevel_pair (fmt rm op : Nat) (acc : Hart × FlagSet) (a b : Entry) {rest : List (Option Entry)}
    (none_later : rest.reduceOption = []) (j : Nat) :
    ∃ l', treeLevel fmt rm op (List.replicate (2 * j) none ++ some a :: some b :: rest) acc = (l', (combine fmt rm op a b acc).2) ∧
      l'.reduceOption = [(combine fmt rm op a b acc).1] ∧ l'.length = (2 * j + 2 + rest.length + 1) / 2 := by
  induction j with
  | zero =>
    obtain ⟨l', level, same, length⟩ := treeLevel_lone fmt rm op (combine fmt rm op a b acc).2 (l := rest) (by simp [none_later])
    exact ⟨some (combine fmt rm op a b acc).1 :: l', by simp [treeLevel, level], by simp [same, none_later], by simp [length]; omega⟩
  | succ j ih =>
    obtain ⟨l', level, same, length⟩ := ih
    refine ⟨none :: l', ?_, by simp [same], by simp [length]; omega⟩
    rw [show 2 * (j + 1) = 2 * j + 1 + 1 by omega, List.replicate_succ, List.replicate_succ, List.cons_append, List.cons_append]
    simp [treeLevel, level]

theorem treeLevels_pair (fmt rm op : Nat) (acc : Hart × FlagSet) (n : Nat) (a b : Entry) {rest : List (Option Entry)}
    (none_later : rest.reduceOption = []) (j : Nat) (short : 2 * j + 2 + rest.length ≤ 2 ^ (n + 1)) :
    ∃ l', treeLevels fmt rm op (n + 1) (List.replicate (2 * j) none ++ some a :: some b :: rest) acc =
        (l', (combine fmt rm op a b acc).2) ∧ l'.getD 0 none = some (combine fmt rm op a b acc).1 := by
  obtain ⟨l', level, same, length⟩ := treeLevel_pair fmt rm op acc a b none_later j
  obtain ⟨r, levels, head⟩ := treeLevels_lone fmt rm op (combine fmt rm op a b acc).2 n (l := l') (by simp [same]) (by omega)
  refine ⟨r, ?_, by rw [head, same]; rfl⟩
  unfold treeLevels
  rw [if_neg (by simp; omega), level]
  exact levels

/-! The entries of one tile. -/

section
variable {c : Ctl} {s : State} {A : Desc} {fmt rm op va : Nat}

/-- The elements of a tile below VL. -/
def tileElems (s : State) (t : Nat) : List Nat :=
  ((List.range (s.h.csr.rlen * s.h.csr.rows)).map (fun i => t * (s.h.csr.rlen * s.h.csr.rows) + i)).filter
    (fun e => decide (e < s.h.csr.vl))

theorem filter_lt_map_add (a n m : Nat) :
    ((List.range n).map (fun i => a + i)).filter (fun e => decide (e < m)) = List.range' a (min n (m - a)) := by
  rw [← List.range'_eq_map_range]
  induction n generalizing a with
  | zero => simp
  | succ n ih =>
    rw [List.range'_succ]
    by_cases below : a < m
    · rw [List.filter_cons_of_pos (by simpa using below), ih, show min (n + 1) (m - a) = min n (m - (a + 1)) + 1 by omega,
        List.range'_succ]
    · rw [show min (n + 1) (m - a) = 0 by omega, List.range'_zero, List.filter_eq_nil_iff]
      intro e he
      have := List.mem_range'_1.mp (List.range'_succ ▸ he)
      simp only [decide_eq_true_eq]
      omega

theorem tileElems_eq (s : State) (t : Nat) :
    tileElems s t = List.range' (t * (s.h.csr.rlen * s.h.csr.rows))
      (min (s.h.csr.rlen * s.h.csr.rows) (s.h.csr.vl - t * (s.h.csr.rlen * s.h.csr.rows))) :=
  filter_lt_map_add _ _ _

theorem enterAll_cons_idle {e : Nat} (idle : active c s e = false) (ys : List Nat) (acc : Hart × FlagSet) :
    enterAll c s A fmt rm va (e :: ys) acc = (none :: (enterAll c s A fmt rm va ys acc).1, (enterAll c s A fmt rm va ys acc).2) := by
  simp only [enterAll, idle]
  rfl

theorem enterAll_cons_active {e : Nat} (on : active c s e = true) (ys : List Nat) (acc : Hart × FlagSet) :
    enterAll c s A fmt rm va (e :: ys) acc =
      (some ⟨e, (fitDraw fmt rm e (elemFloat s A va e) acc).1⟩ ::
          (enterAll c s A fmt rm va ys (fitDraw fmt rm e (elemFloat s A va e) acc).2).1,
        (enterAll c s A fmt rm va ys (fitDraw fmt rm e (elemFloat s A va e) acc).2).2) := by
  simp only [enterAll, on]
  rfl

theorem enterAll_idle_append {xs : List Nat} (idle : ∀ e ∈ xs, active c s e = false) (ys : List Nat) (acc : Hart × FlagSet) :
    enterAll c s A fmt rm va (xs ++ ys) acc =
      (List.replicate xs.length none ++ (enterAll c s A fmt rm va ys acc).1, (enterAll c s A fmt rm va ys acc).2) := by
  induction xs with
  | nil => rfl
  | cons e xs ih =>
    rw [List.cons_append, enterAll_cons_idle (idle e List.mem_cons_self), ih fun k hk => idle k (List.mem_cons_of_mem _ hk)]
    rfl

theorem enterAll_idle {xs : List Nat} (idle : ∀ e ∈ xs, active c s e = false) (acc : Hart × FlagSet) :
    enterAll c s A fmt rm va xs acc = (List.replicate xs.length none, acc) := by
  have h := enterAll_idle_append (A := A) (fmt := fmt) (rm := rm) (va := va) idle [] acc
  rwa [List.append_nil, enterAll, List.append_nil] at h

/-- The entry that a tile delivers, none where none of its elements is active. -/
def tileEntry (c : Ctl) (s : State) (A : Desc) (fmt rm op va t : Nat) (acc : Hart × FlagSet) : Option Entry × (Hart × FlagSet) :=
  let r := treeLevels fmt rm op 20 (enterAll c s A fmt rm va (tileElems s t) acc).1 (enterAll c s A fmt rm va (tileElems s t) acc).2
  (r.1.getD 0 none, r.2)

theorem reduceTiles_cons (t : Nat) (rest : List Nat) (best : Option Entry) (acc : Hart × FlagSet) :
    reduceTiles c s A fmt rm op va (t :: rest) best acc =
      match (tileEntry c s A fmt rm op va t acc).1, best with
      | none, b => reduceTiles c s A fmt rm op va rest b (tileEntry c s A fmt rm op va t acc).2
      | some x, none => reduceTiles c s A fmt rm op va rest (some x) (tileEntry c s A fmt rm op va t acc).2
      | some x, some b =>
        reduceTiles c s A fmt rm op va rest (some (combine fmt rm op b x (tileEntry c s A fmt rm op va t acc).2).1)
          (combine fmt rm op b x (tileEntry c s A fmt rm op va t acc).2).2 := rfl

/-- A tile without an active element delivers no entry. -/
theorem tileEntry_idle {t : Nat} (idle : ∀ e ∈ tileElems s t, active c s e = false) (short : (tileElems s t).length ≤ 2 ^ 20)
    (acc : Hart × FlagSet) : tileEntry c s A fmt rm op va t acc = (none, acc) := by
  obtain ⟨l, levels, head⟩ := treeLevels_lone fmt rm op acc 20 (l := List.replicate (tileElems s t).length none)
    (by simp) (by simpa using short)
  unfold tileEntry
  rw [enterAll_idle idle]
  simp only [levels, head]
  simp

/-- The tile of the only active element delivers its rounded value. -/
theorem tileEntry_single {t e : Nat} {xs ys : List Nat} (elems : tileElems s t = xs ++ e :: ys) (on : active c s e = true)
    (before : ∀ k ∈ xs, active c s k = false) (after : ∀ k ∈ ys, active c s k = false) (short : (tileElems s t).length ≤ 2 ^ 20)
    (acc : Hart × FlagSet) :
    tileEntry c s A fmt rm op va t acc =
      (some ⟨e, (fitDraw fmt rm e (elemFloat s A va e) acc).1⟩, (fitDraw fmt rm e (elemFloat s A va e) acc).2) := by
  obtain ⟨l, levels, head⟩ := treeLevels_lone fmt rm op (fitDraw fmt rm e (elemFloat s A va e) acc).2 20
    (l := List.replicate xs.length none ++ some ⟨e, (fitDraw fmt rm e (elemFloat s A va e) acc).1⟩ :: List.replicate ys.length none)
    (by simp [List.reduceOption_append]) (by rw [elems] at short; simpa using short)
  unfold tileEntry
  rw [elems, enterAll_idle_append before, enterAll_cons_active on, enterAll_idle after]
  simp only [levels, head]
  simp [List.reduceOption_append]

/-- Two active neighbours of one pair combine at once (R74). -/
theorem tileEntry_pair {t e j : Nat} {xs ys : List Nat} (elems : tileElems s t = xs ++ e :: (e + 1) :: ys) (even : xs.length = 2 * j)
    (on : active c s e = true) (on' : active c s (e + 1) = true) (before : ∀ k ∈ xs, active c s k = false)
    (after : ∀ k ∈ ys, active c s k = false) (short : (tileElems s t).length ≤ 2 ^ 20) (acc : Hart × FlagSet) :
    let p := fitDraw fmt rm e (elemFloat s A va e) acc
    let q := fitDraw fmt rm (e + 1) (elemFloat s A va (e + 1)) p.2
    tileEntry c s A fmt rm op va t acc = (some (combine fmt rm op ⟨e, p.1⟩ ⟨e + 1, q.1⟩ q.2).1, (combine fmt rm op ⟨e, p.1⟩ ⟨e + 1, q.1⟩ q.2).2) := by
  intro p q
  obtain ⟨l, levels, head⟩ := treeLevels_pair fmt rm op q.2 19 ⟨e, p.1⟩ ⟨e + 1, q.1⟩ (rest := List.replicate ys.length none) (by simp) j
    (by rw [elems] at short; simp at short ⊢; omega)
  unfold tileEntry
  rw [elems, enterAll_idle_append before, enterAll_cons_active on, enterAll_cons_active on', enterAll_idle after, even]
  simp only [levels, head, p, q]

/-! The tiles. -/

theorem reduceTiles_idle {ts : List Nat} (idle : ∀ t ∈ ts, ∀ e ∈ tileElems s t, active c s e = false)
    (short : ∀ t, (tileElems s t).length ≤ 2 ^ 20) (best : Option Entry) (acc : Hart × FlagSet) :
    reduceTiles c s A fmt rm op va ts best acc = (best, acc) := by
  induction ts with
  | nil => rfl
  | cons t ts ih =>
    rw [reduceTiles_cons, tileEntry_idle (idle t List.mem_cons_self) (short t)]
    exact ih fun k hk => idle k (List.mem_cons_of_mem _ hk)

/-- Where one tile alone has active elements, its entry is the result. -/
theorem reduceTiles_of_tile {t : Nat} (granted : t < s.h.csr.tiles) (idle : ∀ k, k ≠ t → ∀ e ∈ tileElems s k, active c s e = false)
    (short : ∀ t, (tileElems s t).length ≤ 2 ^ 20) {acc acc' : Hart × FlagSet} {x : Entry}
    (entry : tileEntry c s A fmt rm op va t acc = (some x, acc')) :
    reduceTiles c s A fmt rm op va (List.range s.h.csr.tiles) none acc = (some x, acc') := by
  obtain ⟨before, after, tiles⟩ := List.append_of_mem (List.mem_range.mpr granted)
  have nodup := tiles ▸ List.nodup_range (n := s.h.csr.tiles)
  rw [tiles]
  obtain ⟨-, nodup_after, apart⟩ := List.nodup_append.mp nodup
  have other_before (k : Nat) (hk : k ∈ before) : k ≠ t := apart k hk t List.mem_cons_self
  have other_after (k : Nat) (hk : k ∈ after) : k ≠ t := fun same => (List.nodup_cons.mp nodup_after).1 (same ▸ hk)
  clear tiles nodup apart nodup_after
  induction before with
  | nil =>
    rw [List.nil_append, reduceTiles_cons, entry]
    exact reduceTiles_idle (fun k hk => idle k (other_after k hk)) short _ _
  | cons k before ih =>
    rw [List.cons_append, reduceTiles_cons, tileEntry_idle (idle k (other_before k List.mem_cons_self)) (short k)]
    exact ih fun j hj => other_before j (List.mem_cons_of_mem _ hj)

theorem rows_le_of_distinct (distinct : RowsDistinct s) (tiles_pos : 0 < s.h.csr.tiles) : s.h.csr.rows ≤ 256 := by
  let place (i : Fin s.h.csr.rows) : Fin 256 := ⟨physRow s (s.h.core + 0) i, (distinct 0 tiles_pos i i.isLt).1⟩
  have injective : Function.Injective place := fun i j same =>
    Fin.ext ((distinct 0 tiles_pos i i.isLt).2 j j.isLt (congrArg Fin.val same))
  simpa using Fintype.card_le_of_injective place injective

theorem tileElems_length_le (g : Granted s) (t : Nat) : (tileElems s t).length ≤ 2 ^ 20 := by
  rw [tileElems_eq, List.length_range']
  rcases g with empty | ⟨⟨fold_pos, -, lanes, -, distinct⟩, below⟩
  · simp [empty]
  · by_cases tiles : s.h.csr.tiles = 0
    · rw [tiles] at below
      omega
    · have rows_le := rows_le_of_distinct distinct (Nat.pos_of_ne_zero tiles)
      have rlen_le : s.h.csr.rlen ≤ 1024 := (Nat.le_mul_of_pos_left _ fold_pos).trans lanes
      calc min (s.h.csr.rlen * s.h.csr.rows) _ ≤ s.h.csr.rlen * s.h.csr.rows := min_le_left ..
        _ ≤ 1024 * 256 := Nat.mul_le_mul rlen_le rows_le
        _ ≤ 2 ^ 20 := by decide

theorem active_eq (k : Nat) : active c s k = decide (k ∈ actives c s) := (mem_actives c s k).symm

theorem range'_split (a : Nat) {i n : Nat} (inside : i < n) :
    List.range' a n = List.range' a i ++ (a + i) :: List.range' (a + i + 1) (n - i - 1) := by
  rw [← List.range'_succ, List.range'_append_1]
  congr 1
  omega

/-- The tile of an active element, and its place there. -/
theorem active_place (g : Granted s) {e : Nat} (on : e ∈ actives c s) :
    let per := s.h.csr.rlen * s.h.csr.rows
    e / per < s.h.csr.tiles ∧ e / per * per + e % per = e ∧ e % per < min per (s.h.csr.vl - e / per * per) ∧
    ∀ k, k ≠ e / per → e ∉ tileElems s k := by
  intro per
  have below : e < s.h.csr.vl := List.mem_range.mp (List.mem_filter.mp on).1
  obtain ⟨⟨-, rlen_pos, -, rows_pos, -⟩, vl_le⟩ := g.resolve_left (by omega)
  have per_pos : 0 < per := Nat.mul_pos rlen_pos rows_pos
  have parts := Nat.div_add_mod' e per
  have inside := Nat.mod_lt e per_pos
  refine ⟨Nat.div_lt_of_lt_mul ?_, parts, by omega, fun k other mem => other ?_⟩
  · calc e < s.h.csr.vl := below
      _ ≤ s.h.csr.rows * s.h.csr.tiles * s.h.csr.rlen := vl_le
      _ = per * s.h.csr.tiles := by ring
  · rw [tileElems_eq, List.mem_range'_1] at mem
    exact (Nat.div_eq_of_lt_le mem.1 (by rw [Nat.succ_mul]; omega)).symm

/-- Over no active element the tree delivers nothing (R212). -/
theorem reduceTiles_of_none (g : Granted s) (none_active : actives c s = []) (acc : Hart × FlagSet) :
    reduceTiles c s A fmt rm op va (List.range s.h.csr.tiles) none acc = (none, acc) :=
  reduceTiles_idle (fun _ _ e _ => by rw [active_eq, none_active]; rfl) (tileElems_length_le g) _ _

/-- Over one active element the tree delivers its rounded value. -/
theorem reduceTiles_of_single (g : Granted s) {e : Nat} (single : actives c s = [e]) (acc : Hart × FlagSet) :
    reduceTiles c s A fmt rm op va (List.range s.h.csr.tiles) none acc =
      (some ⟨e, (fitDraw fmt rm e (elemFloat s A va e) acc).1⟩, (fitDraw fmt rm e (elemFloat s A va e) acc).2) := by
  obtain ⟨granted, parts, inside, elsewhere⟩ := active_place g (single ▸ List.mem_singleton_self e)
  have idle (k : Nat) (other : k ≠ e) : active c s k = false := by rw [active_eq, single]; simpa using other
  refine reduceTiles_of_tile granted (fun k other j hj => idle j fun same => elsewhere k other (same ▸ hj)) (tileElems_length_le g) ?_
  have elems := tileElems_eq s (e / (s.h.csr.rlen * s.h.csr.rows))
  rw [range'_split _ inside, parts] at elems
  exact tileEntry_single elems (by rw [active_eq, single]; simp)
    (fun k hk => idle k (by have := List.mem_range'_1.mp hk; omega)) (fun k hk => idle k (by have := List.mem_range'_1.mp hk; omega))
    (tileElems_length_le g _) acc

/-- Over two active neighbours of one pair the tree delivers one combining step. -/
theorem reduceTiles_of_pair (g : Granted s) {e : Nat} (pair : actives c s = [e, e + 1])
    (same_tile : e % (s.h.csr.rlen * s.h.csr.rows) + 1 < s.h.csr.rlen * s.h.csr.rows)
    (even : e % (s.h.csr.rlen * s.h.csr.rows) % 2 = 0) (acc : Hart × FlagSet) :
    let p := fitDraw fmt rm e (elemFloat s A va e) acc
    let q := fitDraw fmt rm (e + 1) (elemFloat s A va (e + 1)) p.2
    reduceTiles c s A fmt rm op va (List.range s.h.csr.tiles) none acc =
      (some (combine fmt rm op ⟨e, p.1⟩ ⟨e + 1, q.1⟩ q.2).1, (combine fmt rm op ⟨e, p.1⟩ ⟨e + 1, q.1⟩ q.2).2) := by
  have on : e ∈ actives c s := by simp [pair]
  have on' : e + 1 ∈ actives c s := by simp [pair]
  obtain ⟨granted, parts, inside, elsewhere⟩ := active_place g on
  obtain ⟨-, -, -, elsewhere'⟩ := active_place g on'
  have next_tile : (e + 1) / (s.h.csr.rlen * s.h.csr.rows) = e / (s.h.csr.rlen * s.h.csr.rows) :=
    Nat.div_eq_of_lt_le (by omega) (by rw [Nat.succ_mul]; omega)
  rw [next_tile] at elsewhere'
  have below' : e + 1 < s.h.csr.vl := List.mem_range.mp (List.mem_filter.mp on').1
  have idle (k : Nat) (other : k ≠ e) (other' : k ≠ e + 1) : active c s k = false := by rw [active_eq, pair]; simp [other, other']
  refine reduceTiles_of_tile granted (fun k other j hj => idle j (fun same => elsewhere k other (same ▸ hj))
    fun same => elsewhere' k other (same ▸ hj)) (tileElems_length_le g) ?_
  have elems := tileElems_eq s (e / (s.h.csr.rlen * s.h.csr.rows))
  rw [range'_split _ inside, parts, range'_split (i := 0) (e + 1) (by omega)] at elems
  exact tileEntry_pair elems (j := e % (s.h.csr.rlen * s.h.csr.rows) / 2) (by rw [List.length_range']; omega)
    (by rw [active_eq, decide_eq_true on]) (by rw [active_eq, decide_eq_true on'])
    (fun k hk => idle k (by have := List.mem_range'_1.mp hk; omega) (by have := List.mem_range'_1.mp hk; omega))
    (fun k hk => idle k (by have := List.mem_range'_1.mp hk; omega) (by have := List.mem_range'_1.mp hk; omega))
    (tileElems_length_le g _) acc

end

end Sys2Proof.Machine
end

section
/-! VFRED: what it writes, its flags, and its draws (R70, R74, R212). -/
namespace Sys2Proof.Machine

/-! A draw decides under SR alone. -/

theorem roundsUp_of_not_sr {rm : Nat} (det : rm ≠ 5) (neg even : Bool) (c : Cut) (z z' : Nat) :
    roundsUp rm neg even c z = roundsUp rm neg even c z' := by
  unfold roundsUp
  split
  · rfl
  · rfl
  · rfl
  · exact absurd rfl det
  · rfl

theorem roundAt_of_not_sr {rm : Nat} (det : rm ≠ 5) (neg : Bool) (m : Nat) (e q : Int) (sticky : Bool) (z z' : Nat) :
    roundAt rm neg m e q sticky z = roundAt rm neg m e q sticky z' := by
  unfold roundAt
  dsimp only
  rw [roundsUp_of_not_sr det neg _ _ z z']

theorem fitFloat_of_not_sr {rm : Nat} (det : rm ≠ 5) (fmt z z' : Nat) (v : FVal) : fitFloat fmt rm z v = fitFloat fmt rm z' v := by
  have round (neg : Bool) (m : Nat) (e q : Int) (sticky : Bool) := roundAt_of_not_sr det neg m e q sticky z z'
  have up (neg even : Bool) (c : Cut) := roundsUp_of_not_sr det neg even c z z'
  unfold fitFloat fitIeee fitTaper fitMxint tiny
  simp only [round, up]

theorem fitDraw_hart {rm : Nat} (det : rm ≠ 5) (fmt e : Nat) (v : FVal) (acc : Hart × FlagSet) :
    (fitDraw fmt rm e v acc).2.1 = acc.1 := if_neg det

theorem combine_hart {rm : Nat} (det : rm ≠ 5) (fmt op : Nat) (l r : Entry) (acc : Hart × FlagSet) :
    (combine fmt rm op l r acc).2.1 = acc.1 := fitDraw_hart det ..

theorem treeLevel_hart {rm : Nat} (det : rm ≠ 5) (fmt op : Nat) : ∀ (l : List (Option Entry)) (acc : Hart × FlagSet),
    (treeLevel fmt rm op l acc).2.1 = acc.1
  | [], _ => rfl
  | [_], _ => rfl
  | none :: _ :: rest, acc => treeLevel_hart det fmt op rest acc
  | some _ :: none :: rest, acc => treeLevel_hart det fmt op rest acc
  | some a :: some b :: rest, acc => (treeLevel_hart det fmt op rest (combine fmt rm op a b acc).2).trans (combine_hart det ..)

theorem treeLevels_hart {rm : Nat} (det : rm ≠ 5) (fmt op n : Nat) (l : List (Option Entry)) (acc : Hart × FlagSet) :
    (treeLevels fmt rm op n l acc).2.1 = acc.1 := by
  induction n generalizing l acc with
  | zero => rfl
  | succ n ih =>
    unfold treeLevels
    split
    · rfl
    · exact (ih _ _).trans (treeLevel_hart det fmt op l acc)

section
variable {c : Ctl} {s : State} {A : Desc} {fmt rm op va : Nat}

theorem enterAll_hart (det : rm ≠ 5) (es : List Nat) (acc : Hart × FlagSet) : (enterAll c s A fmt rm va es acc).2.1 = acc.1 := by
  induction es generalizing acc with
  | nil => rfl
  | cons e es ih =>
    cases on : active c s e with
    | false => rw [enterAll_cons_idle on]; exact ih acc
    | true => rw [enterAll_cons_active on]; exact (ih _).trans (fitDraw_hart det ..)

theorem reduceTiles_hart (det : rm ≠ 5) (ts : List Nat) (best : Option Entry) (acc : Hart × FlagSet) :
    (reduceTiles c s A fmt rm op va ts best acc).2.1 = acc.1 := by
  induction ts generalizing best acc with
  | nil => rfl
  | cons t ts ih =>
    have entry : (tileEntry c s A fmt rm op va t acc).2.1 = acc.1 := (treeLevels_hart det ..).trans (enterAll_hart det ..)
    rw [reduceTiles_cons]
    split
    · exact (ih _ _).trans entry
    · exact (ih _ _).trans entry
    · exact (ih _ _).trans ((combine_hart det ..).trans entry)

end

/-! The instruction. -/

/-- The code that VFRED delivers for the tree's entry. -/
def redCode (fmt op : Nat) (r : Option Entry) : Nat :=
  match r with
  | some x => x.code
  | none => redIdentity fmt op

/-- The code over no active element (R212). -/
theorem redIdentity_eq (fmt op : Nat) :
    redIdentity fmt op = if op = 0 then 0 else match ieeeOf fmt, taperBits fmt with
      | some p, _ => if p.hasInf then p.infinity (op == 2) else p.big (op == 2)
      | none, some n => (if op = 2 then 2 ^ n else 0) + (2 ^ n - 1)
      | none, none => if op = 2 then 0x81 else 0x7f := by
  unfold redIdentity fitFloat
  split
  · rfl
  · cases ieeeOf fmt with
    | some p => cases infinite : p.hasInf <;> simp [infinite]
    | none => cases taperBits fmt <;> simp

theorem keepsGrant_floatHart (fcsr : Word) (gens : Sparse (BitVec 32)) (raised : FlagSet) : KeepsGrant (floatHart fcsr gens raised) :=
  ⟨fun _ => rfl, fun _ => rfl, fun _ => rfl, fun _ => rfl, fun _ => rfl, fun _ => rfl, fun _ => rfl⟩

/-- VFRED leaves what its tree delivers. -/
theorem vfred_writes {c : Ctl} {o : VF} {s : State} (clean : s.poisonLane = []) (g : Granted s) (fpA : FpOp c s .a) (fpD : FpOp c s .d)
    (usable : Usable s [(o.va, (descOf c s .a).w), (o.vd, (descOf c s .d).w)]) {x : Option Entry} {h : Hart} {fl : FlagSet}
    (tree : reduceTiles c (touchRegs s [srcNamed o.va (descOf c s .a).w, dstNamed c o.vd (descOf c s .d).w]) (descOf c s .a)
      (descOf c s .d).fmt (rmOf c s) (c.imm.toNat % 4) o.va.toNat (List.range s.h.csr.tiles) none
      ((touchRegs s [srcNamed o.va (descOf c s .a).w, dstNamed c o.vd (descOf c s .d).w]).h, 0) = (x, (h, fl))) :
    ∃ t, exec (.vfred c o) s = .next t ∧
      VecFrame c s t ([(o.va, (descOf c s .a).w), (o.vd, (descOf c s .d).w)].map (fun x => x.1.toNat)) (fun h =>
        { h with csr := { h.csr with fcsr := s.h.csr.fcsr ||| fl.setWidth 64 }, gens := t.h.gens, raised := t.h.raised }) ∧
      ElemsWritten s t o.vd.toNat (descOf c s .d).w
        (fun e => if e = 0 ∧ 0 < s.h.csr.vl then some (redCode (descOf c s .d).fmt (c.imm.toNat % 4) x) else none) ∧
      t.h.gens = h.gens := by
  have m := names_pair c o.va o.vd (descOf c s .a).w (descOf c s .d).w
  obtain ⟨-, -, p, first, fits⟩ := usable.1 (o.vd, (descOf c s .d).w) (by simp)
  have run : exec (.vfred c o) s = execVfred c o s := rfl
  unfold execVfred at run
  rw [vecFrame_prepared _ (usable.prepared m) (by simp [fpA.1, fpD.1]) (by simp [fpA.accepted, fpD.accepted]) rfl] at run
  generalize [srcNamed o.va (descOf c s .a).w, dstNamed c o.vd (descOf c s .d).w] = names at run m tree
  have sound (n w e : Nat) : elemPoisoned (touchRegs s names) n w e = false := elemPoisoned_of_clean (clean_touchRegs clean names) n w e
  have sound' (p e : Nat) : predPoisoned (touchRegs s names) p e = false := predPoisoned_of_clean (clean_touchRegs clean names) p e
  simp only [sound, sound', Bool.or_self, List.any_eq_false.mpr fun _ _ => Bool.false_ne_true, Bool.false_eq_true, if_false,
    rmOf_touchRegs, touchRegs_csr, tree] at run
  obtain ⟨t, completes⟩ : ∃ t, exec (.vfred c o) s = .next t := ⟨_, run⟩
  have t_eq := Host.Outcome.next.inj (completes.symm.trans run)
  obtain ⟨frame, written⟩ := head_after_hartChange (t := t)
    (f := floatHart (s.h.csr.fcsr ||| fl.setWidth 64) h.gens ((touchRegs s names).h.raised ||| fl)) m
    (keepsGrant_floatHart _ _ _) g first fits (congrArg _ (touchRegs_hart s names)) rfl false
    (redCode (descOf c s .d).fmt (c.imm.toNat % 4) x) (by rw [← touchRegs_csr s names]; exact t_eq)
  have gens_eq : t.h.gens = h.gens := congrArg (fun t => t.h.gens) frame.1
  have raised_eq : t.h.raised = (touchRegs s names).h.raised ||| fl := congrArg (fun t => t.h.raised) frame.1
  refine ⟨t, completes, ?_, written, gens_eq⟩
  rw [gens_eq, raised_eq]
  exact frame

/-- The flags that VFRED adds to FCSR. -/
theorem fcsr_flags_added (w : Word) (fl : FlagSet) :
    (∀ k, k < 64 → 6 ≤ k → (w ||| fl.setWidth 64).getLsbD k = w.getLsbD k) ∧
    (∀ k, k < 6 → w.getLsbD k = true → (w ||| fl.setWidth 64).getLsbD k = true) := by
  refine ⟨fun k hk high => ?_, fun k _ set => ?_⟩
  · rw [BitVec.getLsbD_or, setWidth_getLsbD_flags fl hk, decide_eq_false (Nat.not_lt.mpr high), Bool.false_and, Bool.or_false]
  · rw [BitVec.getLsbD_or, set, Bool.true_or]

/-- What the tree delivers over no active element, over one, and over two neighbours of one pair. -/
theorem reduceTiles_delivers {c : Ctl} {s u : State} {names : List Named} (touched : u = touchRegs s names) (g : Granted s) {A : Desc}
    {fmt rm op va : Nat} {x : Option Entry} {h : Hart} {fl : FlagSet}
    (tree : reduceTiles c u A fmt rm op va (List.range s.h.csr.tiles) none (u.h, 0) = (x, (h, fl))) :
    let first := fun e => fitFloat fmt rm (drawZ s e) (elemFloat s A va e)
    (rm ≠ 5 → h.gens = s.h.gens) ∧
    (actives c s = [] → x = none ∧ fl = 0) ∧
    (∀ e, actives c s = [e] → x = some ⟨e, (first e).1⟩ ∧ fl = (first e).2) ∧
    (∀ e, actives c s = [e, e + 1] → e % (s.h.csr.rlen * s.h.csr.rows) + 1 < s.h.csr.rlen * s.h.csr.rows →
      (e % (s.h.csr.rlen * s.h.csr.rows)) % 2 = 0 → rm ≠ 5 →
      let a := decodeFloat fmt (first e).1
      let b := decodeFloat fmt (first (e + 1)).1
      let v := if op = 0 then a.add rm b else (FVal.pick (op == 2) a b, 0)
      let q := fitFloat fmt rm 0 v.1
      x = some ⟨e, q.1⟩ ∧ fl = (first e).2 ||| (first (e + 1)).2 ||| v.2 ||| q.2) := by
  intro first
  have no_flags (f : FlagSet) : 0 ||| f = f := BitVec.zero_or
  have csr : u.h.csr = s.h.csr := by rw [touched, touchRegs_csr]
  have g' : Granted u := touched ▸ g.touch names
  have same_actives : actives c u = actives c s := by rw [touched, actives_touchRegs]
  have entry (e : Nat) : fitFloat fmt rm (lfsrDraw (genState u.h e)).1 (elemFloat u A va e) = first e := by
    rw [touched, genState_touchRegs, elemFloat_touchRegs]
    rfl
  rw [← csr] at tree ⊢
  refine ⟨fun det => ?_, fun none_active => ?_, fun e single => ?_, fun e pair same_tile even det => ?_⟩
  · have hart := reduceTiles_hart (c := c) (s := u) (A := A) (fmt := fmt) (op := op) (va := va) det (List.range u.h.csr.tiles) none (u.h, 0)
    rw [tree] at hart
    rw [show h = u.h from hart, touched, touchRegs_gens]
  · rw [reduceTiles_of_none g' (same_actives.trans none_active)] at tree
    simp only [Prod.mk.injEq] at tree
    exact ⟨tree.1.symm, tree.2.2.symm⟩
  · rw [reduceTiles_of_single g' (same_actives.trans single)] at tree
    simp only [fitDraw, entry, Prod.mk.injEq, no_flags] at tree
    exact ⟨tree.1.symm, tree.2.2.symm⟩
  · rw [reduceTiles_of_pair g' (same_actives.trans pair) same_tile even] at tree
    simp only [combine, fitDraw, if_neg det, entry, Prod.mk.injEq, no_flags] at tree
    obtain ⟨x_eq, -, fl_eq⟩ := tree
    intro a b v q
    rw [fitFloat_of_not_sr det fmt _ 0] at x_eq fl_eq
    exact ⟨x_eq.symm, fl_eq.symm⟩

end Sys2Proof.Machine
end

section
/-! Hadamard sums and scaled elements (R214, R215, R410). -/
namespace Sys2Proof.Machine

@[simp] theorem active_touchRegs (c : Ctl) (s : State) (names : List Named) (e : Nat) :
    active c (touchRegs s names) e = active c s e := by
  rw [active, touchRegs_csr, predBit_touchRegs]
  rfl

/-! Hadamard sums. -/

/-- A term's sign is the parity of the bits its row and its column share (R215). -/
theorem hadNeg_eq (i j : Nat) :
    hadNeg i j = decide (((List.range 5).countP (fun k => i.testBit k && j.testBit k)) % 2 = 1) := by
  unfold hadNeg
  simp only [popCount_eq_countP, Nat.testBit_and]
  rfl

/-- A block's signed sum, term by term. -/
theorem hadamard_sum (n base i : Nat) (on : Nat → Bool) (x : Nat → Int) :
    ((List.range n).map (fun j => (j, base + j))).foldl (fun t p =>
      if on p.2 then (if hadNeg i p.1 then t - x p.2 else t + x p.2) else t) 0 =
    ((List.range n).map (fun j => if on (base + j) then
      (if ((List.range 5).countP (fun k => i.testBit k && j.testBit k)) % 2 = 1 then -1 else 1) * x (base + j) else 0)).sum := by
  have step (t : Int) (j : Nat) : (if on (base + j) then (if hadNeg i j then t - x (base + j) else t + x (base + j)) else t) =
      t + if on (base + j) then
        (if ((List.range 5).countP (fun k => i.testBit k && j.testBit k)) % 2 = 1 then -1 else 1) * x (base + j) else 0 := by
    simp only [hadNeg_eq, decide_eq_true_eq]
    split
    · split <;> omega
    · omega
  rw [List.foldl_map]
  simp only [step]
  rw [foldl_add_map, Int.zero_add]

section
variable {c : Ctl} {s : State} {o : VF}

theorem vhad_trap {n : Nat} (whole : s.h.csr.rlen % n = 0) (t : Trap) : trapIf (s.h.csr.rlen % n != 0) t = none := by
  simp [trapIf, whole]

/-- Integer Hadamard sums. -/
theorem vhad_int (g : Granted s) (intA : IntOp c s .a) (intD : IntOp c s .d)
    (whole : s.h.csr.rlen % (if c.imm.getLsbD 0 then 32 else 16) = 0)
    (usable : Usable s [(o.va, (descOf c s .a).w), (o.vd, (descOf c s .d).w)]) :
    let n := if c.imm.getLsbD 0 then 32 else 16
    VecWrites (.vhad c o) c s [(o.va, (descOf c s .a).w), (o.vd, (descOf c s .d).w)] o.vd.toNat (descOf c s .d).w (fun e =>
      low (descOf c s .d).w ((List.range n).map (fun j => if active c s (e / n * n + j) then
        (if ((List.range 5).countP (fun k => (e % n).testBit k && j.testBit k)) % 2 = 1 then -1 else 1) *
          elemInt s (descOf c s .a) o.va.toNat (e / n * n + j) else 0)).sum) := by
  intro n
  have run : exec (.vhad c o) s = execVhad c o s := rfl
  unfold execVhad at run
  simp only [intA.accepted, if_true] at run
  refine vecFrame_results run (names_pair ..) usable (by simp) g (by simp [intA.1, intD.1]) (by simp [intD.accepted])
    (vhad_trap whole _) (funext fun e => ?_) fun u clean e => ?_
  · simp only [active_touchRegs, elemInt_touchRegs]
    exact congrArg (wrap _) (hadamard_sum n _ _ (active c s) _)
  · simp only [elemPoisoned_of_clean clean, Bool.and_false, List.any_eq_false.mpr fun _ _ => Bool.false_ne_true]

/-- Floating-point Hadamard sums. -/
theorem vhad_float (g : Granted s) (fpA : FpOp c s .a) (fpD : FpOp c s .d)
    (whole : s.h.csr.rlen % (if c.imm.getLsbD 0 then 32 else 16) = 0)
    (usable : Usable s [(o.va, (descOf c s .a).w), (o.vd, (descOf c s .d).w)]) :
    let n := if c.imm.getLsbD 0 then 32 else 16
    FloatWrites (.vhad c o) c s [(o.va, (descOf c s .a).w), (o.vd, (descOf c s .d).w)] o.vd.toNat (descOf c s .d).w (rmOf c s) (fun e =>
      rounded (descOf c s .d).fmt (rmOf c s) (drawZ s e) (hadFloat (rmOf c s) ((List.range n).map (fun j =>
        let x := if active c s (e / n * n + j) then elemFloat s (descOf c s .a) o.va.toNat (e / n * n + j) else .zero
        if ((List.range 5).countP (fun k => (e % n).testBit k && j.testBit k)) % 2 = 1 then x.neg else x)))) := by
  intro n
  have run : exec (.vhad c o) s = execVhad c o s := rfl
  have float : intDesc (descOf c s .a) = false := by
    have := fpA.2.1
    simp [intDesc]
    omega
  unfold execVhad at run
  simp only [float, Bool.false_eq_true, if_false] at run
  refine vecFrame_floats run (names_pair ..) usable (by simp) g (by simp [fpA.1, fpD.1]) (by simp [fpA.accepted, fpD.accepted])
    (vhad_trap whole _) (funext fun e => ?_) fun u clean e => ?_
  · simp only [active_touchRegs, elemFloat_touchRegs, rmOf_touchRegs, drawZ_touchRegs, hadNeg_eq, decide_eq_true_eq, List.map_map]
    rfl
  · simp only [elemPoisoned_of_clean clean, Bool.and_false, List.any_eq_false.mpr fun _ _ => Bool.false_ne_true]

/-! Elements by their block's scale. -/

/-- The scale register that the immediate names (R213). -/
theorem scaleReg_eq (c : Ctl) : scaleReg c = (BitVec.ofNat 6 c.imm.toNat).toNat := by
  rw [BitVec.toNat_ofNat]
  rfl

theorem scaleTrap_none {vs : BitVec 6} (reg : scaleReg c = vs.toNat) (not_dest : vs ≠ o.vd) (not_source : vs ≠ o.va)
    (wide : 8 ≤ (vreg s vs.toNat).width) : scaleTrap c o s = none := by
  have not_dest : vs.toNat ≠ o.vd.toNat := fun same => not_dest (BitVec.eq_of_toNat_eq same)
  have not_source : vs.toNat ≠ o.va.toNat := fun same => not_source (BitVec.eq_of_toNat_eq same)
  unfold scaleTrap
  simp [reg, trapIf, not_dest, not_source, wide]

theorem accepted_of_mx {d : Desc} (mx : d.wf = true ∧ 10 ≤ d.fmt ∧ d.fmt ≤ 13) : mxDesc d = true := by
  simp [mxDesc, mx.2]

/-- VMXD scales each element back; NaN blocks draw nothing. -/
theorem vmxd_writes (g : Granted s) (mxA : (descOf c s .a).wf = true ∧ 10 ≤ (descOf c s .a).fmt ∧ (descOf c s .a).fmt ≤ 13)
    (fpD : FpOp c s .d) {vs : BitVec 6} (reg : scaleReg c = vs.toNat) (not_dest : vs ≠ o.vd) (not_source : vs ≠ o.va)
    (usable : Usable s [(o.va, (descOf c s .a).w), (o.vd, (descOf c s .d).w), (vs, 8)]) :
    let sc := fun e => elemBits s vs.toNat 8 (e / 32)
    let r := fun e => if sc e = 0xff then (canonNan (descOf c s .d).fmt, 0)
      else fitFloat (descOf c s .d).fmt (rmOf c s) (drawZ s e) ((elemFloat s (descOf c s .a) o.va.toNat e).scale ((sc e : Int) - 127))
    ∃ t fl, exec (.vmxd c o) s = .next t ∧
      VecFrame c s t ([(o.va, (descOf c s .a).w), (o.vd, (descOf c s .d).w), (vs, 8)].map (fun x => x.1.toNat)) (fun h =>
        { h with csr := { h.csr with fcsr := fl }, gens := t.h.gens, raised := t.h.raised }) ∧
      ElemsWritten s t o.vd.toNat (descOf c s .d).w (masked c s 0 (fun e => (r e).1)) ∧ FlagsGathered c s fl (fun e => (r e).2) ∧
      GeneratorsDrawn (rmOf c s) s t (fun e => active c s e && decide (sc e ≠ 0xff)) := by
  intro sc r
  have m : Names [srcNamed o.va (descOf c s .a).w, dstNamed c o.vd (descOf c s .d).w, { reg := scaleReg c }]
      [(o.va, (descOf c s .a).w), (o.vd, (descOf c s .d).w), (vs, 8)] :=
    .cons ⟨rfl, rfl, le_rfl⟩ (.cons ⟨rfl, rfl, le_rfl⟩ (.cons ⟨reg, rfl, Nat.zero_le _⟩ .nil))
  obtain ⟨-, -, p, first, fits⟩ := usable.1 (o.vd, (descOf c s .d).w) (by simp)
  obtain ⟨-, wide, -⟩ := usable.1 (vs, 8) (by simp)
  have run : exec (.vmxd c o) s = execVmxd c o s := rfl
  unfold execVmxd at run
  rw [vecFrame_prepared _ (usable.prepared m) (by simp [mxA.1, fpD.1]) (by simp [accepted_of_mx mxA, fpD.accepted])
    (scaleTrap_none reg not_dest not_source wide), reg] at run
  rw [reg] at m
  generalize [srcNamed o.va (descOf c s .a).w, dstNamed c o.vd (descOf c s .d).w, { reg := vs.toNat }] = names at run m
  simp only [rmOf_touchRegs, elemBits_touchRegs, elemFloat_touchRegs, drawZ_touchRegs, actives_touchRegs, floatItems_items] at run
  have none_bad (clean : s.poisonLane = []) (e : Nat) : (elemPoisoned (touchRegs s names) o.va.toNat (descOf c s .a).w e ||
      elemPoisoned (touchRegs s names) vs.toNat 8 (e / 32)) = false := by
    simp only [elemPoisoned_of_clean (clean_touchRegs clean names), Bool.or_self]
  have only := writeElems_onlyPlanes (touchRegs s names) o.vd.toNat (descOf c s .d).w false
    (results c (touchRegs s names) (fun e => (r e).1) (fun e => elemPoisoned (touchRegs s names) o.va.toNat (descOf c s .a).w e ||
      elemPoisoned (touchRegs s names) vs.toNat 8 (e / 32)))
  refine ⟨_, _, run, drawn_frame m only (fun clean => ?_) (writeElems_unarmed _ _ _ _ _),
    drawn_elems (results_written g first fits false _ _), flagsGathered_of_floatItems names r none_bad, ?_⟩
  · exact writeElems_clean (clean_touchRegs clean names) _ _ _ (results_clean (clean_touchRegs clean names) _ (none_bad clean))
  · have chosen (e : Nat) : decide (e ∈ (actives c s).filter (fun e => sc e != 0xff)) = (active c s e && decide (sc e ≠ 0xff)) := by
      rw [active_eq]
      simp [List.mem_filter, bne]
    simp only [← chosen]
    exact drawn_gens only ((actives_nodup c s).filter _)

end

end Sys2Proof.Machine
end

section
/-! VMXQ: shared scales, blocks of thirty-two elements, and a write to two registers (R64, R65, R213, R410). -/
namespace Sys2Proof.Machine

/-! The shared exponent. -/

theorem mxBad_iff (xs : List FVal) : mxBad xs = true ↔ ∃ x ∈ xs, ∀ n m e t, x ≠ .fin n m e t := by
  unfold mxBad
  rw [List.any_eq_true]
  refine exists_congr fun x => and_congr_right fun _ => ?_
  cases x with
  | nan sig => simp
  | inf neg => simp
  | fin neg m e sticky => exact ⟨fun h => (Bool.false_ne_true h).elim, fun h => (h neg m e sticky rfl).elim⟩

/-- The logarithm of a finite value other than zero. -/
def finiteLog : FVal → Option Int
  | .fin _ m e _ => if m = 0 then none else some (logMag m e)
  | _ => none

theorem finiteLog_eq_some (x : FVal) (l : Int) :
    finiteLog x = some l ↔ ∃ n m e t, x = .fin n m e t ∧ m ≠ 0 ∧ logMag m e = l := by
  cases x with
  | nan sig => simp [finiteLog]
  | inf neg => simp [finiteLog]
  | fin neg m e sticky =>
    refine ⟨fun h => ?_, ?_⟩
    · by_cases zero : m = 0
      · simp [finiteLog, zero] at h
      · exact ⟨neg, m, e, sticky, rfl, zero, by simpa [finiteLog, zero] using h⟩
    · rintro ⟨n, m, e, t, h, nonzero, rfl⟩
      rw [h, finiteLog, if_neg nonzero]

theorem maxLog_eq (xs : List FVal) : maxLog xs = (xs.filterMap finiteLog).max? := by
  induction xs with
  | nil => rfl
  | cons x r ih =>
    cases x with
    | nan sig => exact ih
    | inf neg => exact ih
    | fin neg m e sticky =>
      by_cases zero : m = 0
      · simpa [maxLog, finiteLog, zero] using ih
      · rw [List.filterMap_cons_some (b := logMag m e) (by simp [finiteLog, zero]), List.max?_cons, maxLog, if_neg zero, ih]
        cases (r.filterMap finiteLog).max? <;> rfl

/-- The element format's largest exponent (R65). -/
theorem mxEmax_eq (fmt : Nat) : mxEmax fmt = if fmt = 12 then 4 else if fmt = 13 then 0 else 2 := by
  unfold mxEmax
  split
  · rfl
  · rfl
  · next not12 not13 => rw [if_neg not12, if_neg not13]

/-- The shared exponent of R65, case by case. -/
theorem sharedExp_cases (fmt : Nat) (xs : List FVal) :
    (mxBad xs = false → (∀ x ∈ xs, ∀ n m e t, x = .fin n m e t → m = 0) → sharedExp fmt xs = none) ∧
    (mxBad xs = true → sharedExp fmt xs = none) ∧
    (mxBad xs = false → (∃ x ∈ xs, ∃ n m e t, x = .fin n m e t ∧ m ≠ 0) → ∃ l : Int,
      (∀ x ∈ xs, ∀ n m e t, x = .fin n m e t → m ≠ 0 → (Nat.log2 m : Int) + e ≤ l) ∧
      (∃ x ∈ xs, ∃ n m e t, x = .fin n m e t ∧ m ≠ 0 ∧ (Nat.log2 m : Int) + e = l) ∧
      sharedExp fmt xs = some (max (-127) (min 127 (l - if fmt = 12 then 4 else if fmt = 13 then 0 else 2)))) := by
  have member (l : Int) : l ∈ xs.filterMap finiteLog ↔ ∃ x ∈ xs, ∃ n m e t, x = .fin n m e t ∧ m ≠ 0 ∧ logMag m e = l := by
    simp only [List.mem_filterMap, finiteLog_eq_some]
  unfold sharedExp
  refine ⟨fun good zeros => ?_, fun bad => if_pos bad, fun good nonzero => ?_⟩
  · have empty : xs.filterMap finiteLog = [] := List.eq_nil_iff_forall_not_mem.mpr fun l hl => by
      obtain ⟨x, hx, n, m, e, t, h, nonzero, -⟩ := (member l).mp hl
      exact nonzero (zeros x hx n m e t h)
    simp [good, maxLog_eq, empty]
  · obtain ⟨x, hx, n, m, e, t, h, nonzero⟩ := nonzero
    obtain ⟨l, greatest⟩ := Option.ne_none_iff_exists'.mp fun none =>
      List.ne_nil_of_mem ((member _).mpr ⟨x, hx, n, m, e, t, h, nonzero, rfl⟩) (List.max?_eq_none_iff.mp none)
    obtain ⟨attained, above⟩ := List.max?_eq_some_iff.mp greatest
    refine ⟨l, fun x hx n m e t h nonzero => above _ ((member _).mpr ⟨x, hx, n, m, e, t, h, nonzero, rfl⟩), (member l).mp attained, ?_⟩
    simp [good, maxLog_eq, greatest, mxEmax_eq]

theorem sharedExp_bounds {fmt : Nat} {xs : List FVal} {k : Int} (shared : sharedExp fmt xs = some k) : -127 ≤ k ∧ k ≤ 127 := by
  unfold sharedExp at shared
  split at shared
  · cases shared
  · split at shared
    · cases shared
      omega
    · cases shared

/-! Blocks of thirty-two. -/

/-- The elements of block `b` below `n`. -/
def blockElems (n b : Nat) : List Nat := ((List.range 32).map (fun i => 32 * b + i)).filter (fun e => decide (e < n))

theorem mem_blockElems {n b e : Nat} : e ∈ blockElems n b ↔ e / 32 = b ∧ e < n := by
  unfold blockElems
  rw [filter_lt_map_add, List.mem_range'_1]
  omega

/-- The blocks hold the elements below `n` in order. -/
theorem blockElems_flatten (n : Nat) : (List.range (ceilDiv n 32)).flatMap (blockElems n) = List.range n := by
  have upTo (k : Nat) : (List.range k).flatMap (blockElems n) = List.range (min (32 * k) n) := by
    induction k with
    | zero => simp
    | succ k ih =>
      rw [List.range_succ, List.flatMap_append, ih, List.flatMap_singleton, blockElems, filter_lt_map_add, List.range_eq_range',
        List.range_eq_range', show min (32 * (k + 1)) n = min (32 * k) n + min 32 (n - 32 * k) by omega, ← List.range'_append_1,
        Nat.zero_add]
      by_cases past : n ≤ 32 * k
      · simp [Nat.sub_eq_zero_of_le past]
      · rw [min_eq_left (by omega : 32 * k ≤ n)]
  rw [upTo, min_eq_right (by unfold ceilDiv; omega)]

/-! One block quantised. -/

section
variable (c : Ctl) (s : State) (A : Desc) (fmt rm va : Nat)

/-- The active values of block `b`. -/
def mxValues (b : Nat) : List FVal :=
  ((blockElems s.h.csr.vl b).filter (fun e => predBit s c.pred.toNat e)).map (elemFloat s A va)

/-- Whether block `b` has an active element with poison. -/
def mxPoisoned (b : Nat) : Bool :=
  ((blockElems s.h.csr.vl b).filter (fun e => predBit s c.pred.toNat e)).any
    (fun e => elemPoisoned s va A.w e || predPoisoned s c.pred.toNat e)

/-- An active element's code and flags at its block's scale. -/
def mxElement (e : Nat) : Nat × FlagSet :=
  match sharedExp fmt (mxValues c s A va (e / 32)) with
  | some k => fitFloat fmt rm (drawZ s e) ((elemFloat s A va e).scale (-k))
  | none => (0, 0)

/-- The same with the NV of a block that has a value that is not finite. -/
def mxResult (e : Nat) : Nat × FlagSet :=
  match sharedExp fmt (mxValues c s A va (e / 32)) with
  | some k => fitFloat fmt rm (drawZ s e) ((elemFloat s A va e).scale (-k))
  | none => (0, if mxBad (mxValues c s A va (e / 32)) then 0x10 else 0)

/-- The scale code of block `b` (R65). -/
def mxCode (b : Nat) : Nat :=
  match sharedExp fmt (mxValues c s A va b) with
  | some k => (k + 127).toNat
  | none => if mxBad (mxValues c s A va b) then 0xff else 0

/-- What an element takes. -/
def mxItem (e : Nat) : Option FItem :=
  if predBit s c.pred.toNat e then
    some ⟨e, (mxElement c s A fmt rm va e).1, (mxElement c s A fmt rm va e).2, mxPoisoned c s A va (e / 32) || predPoisoned s c.pred.toNat e⟩
  else if c.z then some ⟨e, 0, 0, false⟩ else none

end

section
variable {c : Ctl} {s : State} {A : Desc} {fmt rm va : Nat}

theorem mxValues_eq (b : Nat) :
    mxValues c s A va b = (((List.range 32).map (fun i => 32 * b + i)).filter (active c s)).map (elemFloat s A va) := by
  rw [mxValues, blockElems, List.filter_filter]
  exact congrArg (fun p => (List.filter p _).map _) (funext fun e => Bool.and_comm _ _)

/-- A block's items are those of its elements, and under a scale its active elements draw. -/
theorem quantise_eq (b : Nat) : quantise c s A fmt rm va b =
    (mxCode c s A fmt va b, (blockElems s.h.csr.vl b).filterMap (mxItem c s A fmt rm va),
      (if mxBad (mxValues c s A va b) && !mxPoisoned c s A va b then fNv else 0) |||
        flagsOf ((blockElems s.h.csr.vl b).filterMap (mxItem c s A fmt rm va)),
      (blockElems s.h.csr.vl b).filter (fun e =>
        predBit s c.pred.toNat e && (sharedExp fmt (mxValues c s A va (e / 32))).isSome)) := by
  have items : (quantise c s A fmt rm va b).2.1 = (blockElems s.h.csr.vl b).filterMap (mxItem c s A fmt rm va) := by
    refine List.filterMap_congr fun e he => ?_
    obtain ⟨rfl, -⟩ := mem_blockElems.mp he
    unfold mxItem mxElement
    split
    · next on =>
      have poison : (mxPoisoned c s A va (e / 32) || predPoisoned s c.pred.toNat e) = mxPoisoned c s A va (e / 32) := by
        rw [Bool.or_eq_left_iff_imp]
        exact fun bad => List.any_eq_true.mpr ⟨e, List.mem_filter.mpr ⟨he, on⟩, by rw [bad, Bool.or_true]⟩
      rw [poison]
      change (match sharedExp fmt (mxValues c s A va (e / 32)) with
        | some k => some _
        | none => some _) = _
      cases sharedExp fmt (mxValues c s A va (e / 32)) <;> rfl
    · rfl
  have draws : (quantise c s A fmt rm va b).2.2.2 = (blockElems s.h.csr.vl b).filter (fun e =>
      predBit s c.pred.toNat e && (sharedExp fmt (mxValues c s A va (e / 32))).isSome) := by
    change (if (sharedExp fmt (mxValues c s A va b)).isSome then (blockElems s.h.csr.vl b).filter (fun e => predBit s c.pred.toNat e)
      else []) = _
    have place : (blockElems s.h.csr.vl b).filter (fun e =>
        predBit s c.pred.toNat e && (sharedExp fmt (mxValues c s A va (e / 32))).isSome) =
        (blockElems s.h.csr.vl b).filter (fun e => predBit s c.pred.toNat e && (sharedExp fmt (mxValues c s A va b)).isSome) :=
      List.filter_congr fun e he => by rw [(mem_blockElems.mp he).1]
    rw [place]
    cases (sharedExp fmt (mxValues c s A va b)).isSome <;> simp
  rw [← items, ← draws]
  rfl

/-! All blocks. -/

theorem mxResult_code (e : Nat) : (mxResult c s A fmt rm va e).1 = (mxElement c s A fmt rm va e).1 := by
  unfold mxElement mxResult
  split <;> rfl

/-- The items of all blocks are those of an element-wise instruction. -/
theorem quantised_items :
    (((List.range (ceilDiv s.h.csr.vl 32)).map (fun b => quantise c s A fmt rm va b)).map (fun b => b.2.1)).flatten =
      floatItems c s (mxElement c s A fmt rm va) (fun e => mxPoisoned c s A va (e / 32)) := by
  simp only [List.map_map, Function.comp_def, quantise_eq]
  rw [← List.flatMap_def, ← List.filterMap_flatMap, blockElems_flatten]
  rfl

/-- Every active element of a block that has a scale draws. -/
theorem quantised_draws :
    (((List.range (ceilDiv s.h.csr.vl 32)).map (fun b => quantise c s A fmt rm va b)).map (fun b => b.2.2.2)).flatten =
      (List.range s.h.csr.vl).filter (fun e =>
        predBit s c.pred.toNat e && (sharedExp fmt (mxValues c s A va (e / 32))).isSome) := by
  simp only [List.map_map, Function.comp_def, quantise_eq]
  rw [← List.flatMap_def, ← List.filter_flatMap, blockElems_flatten]

theorem mxPoisoned_of_clean (clean : s.poisonLane = []) (b : Nat) : mxPoisoned c s A va b = false := by
  simp [mxPoisoned, elemPoisoned_of_clean clean, predPoisoned_of_clean clean]

/-- A block's flags are those of its active elements. -/
theorem quantise_flags (clean : s.poisonLane = []) (b k : Nat) : (quantise c s A fmt rm va b).2.2.1.getLsbD k =
    (blockElems s.h.csr.vl b).any (fun e => predBit s c.pred.toNat e && (mxResult c s A fmt rm va e).2.getLsbD k) := by
  have items : (flagsOf ((blockElems s.h.csr.vl b).filterMap (mxItem c s A fmt rm va))).getLsbD k =
      (blockElems s.h.csr.vl b).any (fun e => predBit s c.pred.toNat e && (mxElement c s A fmt rm va e).2.getLsbD k) := by
    rw [flagsOf_getLsbD, List.any_filterMap]
    refine congrArg (List.any _) (funext fun e => ?_)
    unfold mxItem
    cases predBit s c.pred.toNat e
    · cases c.z <;> simp
    · simp [mxPoisoned_of_clean clean, predPoisoned_of_clean clean]
  rw [quantise_eq, BitVec.getLsbD_or, items, mxPoisoned_of_clean clean, Bool.not_false, Bool.and_true, Bool.eq_iff_iff, Bool.or_eq_true]
  simp only [List.any_eq_true, Bool.and_eq_true]
  cases bad : mxBad (mxValues c s A va b) with
  | false =>
    have unset : ((if false = true then fNv else 0) : FlagSet).getLsbD k = false := BitVec.getLsbD_zero
    rw [unset]
    simp only [Bool.false_eq_true, false_or]
    refine exists_congr fun e => and_congr_right fun he => ?_
    obtain ⟨rfl, -⟩ := mem_blockElems.mp he
    unfold mxElement mxResult
    rw [bad]
    rfl
  | true =>
    have unscaled := (sharedExp_cases fmt _).2.1 bad
    have raised {e : Nat} (he : e ∈ blockElems s.h.csr.vl b) :
        (mxElement c s A fmt rm va e).2 = 0 ∧ (mxResult c s A fmt rm va e).2 = fNv := by
      obtain ⟨rfl, -⟩ := mem_blockElems.mp he
      unfold mxElement mxResult
      rw [unscaled, bad]
      exact ⟨rfl, rfl⟩
    have unset : (0 : FlagSet).getLsbD k = false := BitVec.getLsbD_zero
    refine ⟨fun h => ?_, fun ⟨e, he, _, flag⟩ => .inl ((raised he).2 ▸ flag)⟩
    rcases h with flag | ⟨e, he, -, flag⟩
    · obtain ⟨x, hx, -⟩ := (mxBad_iff _).mp bad
      obtain ⟨e, he, -⟩ := List.mem_map.mp hx
      obtain ⟨he, on⟩ := List.mem_filter.mp he
      exact ⟨e, he, on, (raised he).2 ▸ flag⟩
    · rw [(raised he).1, unset] at flag
      exact absurd flag Bool.false_ne_true

/-- The flags of all blocks. -/
theorem quantised_flags (clean : s.poisonLane = []) (k : Nat) :
    (((List.range (ceilDiv s.h.csr.vl 32)).map (fun b => quantise c s A fmt rm va b)).foldl (fun a b => a ||| b.2.2.1)
      (0 : FlagSet)).getLsbD k =
    (List.range s.h.csr.vl).any (fun e => predBit s c.pred.toNat e && (mxResult c s A fmt rm va e).2.getLsbD k) := by
  have gather (l : List Nat) (a : FlagSet) : (l.foldl (fun a b => a ||| (quantise c s A fmt rm va b).2.2.1) a).getLsbD k =
      (a.getLsbD k || l.any (fun b => (quantise c s A fmt rm va b).2.2.1.getLsbD k)) := by
    induction l generalizing a with
    | nil => simp
    | cons b l ih => rw [List.foldl_cons, ih, BitVec.getLsbD_or, List.any_cons, Bool.or_assoc]
  have zero : (0 : FlagSet).getLsbD k = false := BitVec.getLsbD_zero
  rw [List.foldl_map, gather, zero, Bool.false_or]
  simp only [quantise_flags clean]
  rw [← List.any_flatMap, blockElems_flatten]

end

end Sys2Proof.Machine
end

section
/-! VMXQ writes two registers, which lie in different planes (R213, R410). -/
namespace Sys2Proof.Machine

theorem OnlyPlanes.grantSound {s t : State} (o : OnlyPlanes s t) (g : GrantSound s) : GrantSound t := by
  rw [← o] at g
  exact g

theorem Unarmed.trans {s t u : State} (first : Unarmed s t) (second : Unarmed t u) : Unarmed s u := fun unarmed => by
  obtain ⟨armed, calendar⟩ := first unarmed
  obtain ⟨armed', calendar'⟩ := second armed
  exact ⟨armed', calendar'.trans calendar⟩

/-- A register in planes that a write keeps holds what it held. -/
theorem PlanesKept.elemAt_eq {s t : State} {q d : Nat} (kept : PlanesKept s t q d) (o : OnlyPlanes s t) (g : GrantSound s)
    {n p w : Nat} (first : (vreg s n).first = some p) (fits : p + dOf s w ≤ 256) (apart : p + dOf s w ≤ q ∨ q + d ≤ p) {e : Nat}
    (inside : e < s.h.csr.rows * s.h.csr.tiles * s.h.csr.rlen) : elemAt t n w e = elemAt s n w e := by
  obtain ⟨fold_pos, -, -, rows_pos, distinct⟩ := g
  have first' : (vreg t n).first = some p := by
    unfold vreg
    rw [o.h]
    exact first
  have spot_eq : spotOf t e = spotOf s e := by
    unfold spotOf physRow
    rw [o.h, o.fenced]
  have row_lt : (spotOf s e).row < 256 := by
    rw [spotOf_eq]
    exact (distinct _ (row_tile (Nat.div_lt_of_lt_mul (by rwa [Nat.mul_comm]))) _ (Nat.mod_lt _ rows_pos)).1
  have fold_eq : foldOf t = foldOf s := by unfold foldOf; rw [o.h]
  rw [elemAt_of_first first', elemAt_of_first first, spot_eq]
  refine Nat.eq_of_testBit_eq fun b => ?_
  rw [bitsAt_testBit, bitsAt_testBit, fold_eq]
  by_cases below : b < w
  · have plane : b / foldOf s < dOf s w :=
      Nat.div_lt_of_lt_mul (below.trans_le (by rw [Nat.mul_comm]; exact width_le_planes s w fold_pos))
    rw [kept _ _ _ row_lt (by omega) (apart.imp (fun h => by omega) (fun h => .inl (Nat.le_add_right_of_le h)))]
  · simp [below]

/-- The first elements of a register written one by one. -/
theorem leading_written {s : State} (g : GrantSound s) {n p w : Nat} (first : (vreg s n).first = some p) (fits : p + dOf s w ≤ 256)
    (sgn : Bool) {count : Nat} (below : count ≤ s.h.csr.rows * s.h.csr.tiles * s.h.csr.rlen) (code : Nat → Nat) (poison : Nat → Bool) :
    ElemsWritten s (writeElems s n w sgn ((List.range count).map (fun b => ⟨b, code b, poison b⟩))) n w
      (fun e => if e < count then some (code e) else none) := by
  have place : ∀ e i, (some (Item.mk e (code e) (poison e))) = some i → i.elem = e := fun e i h => by cases h; rfl
  have items : (List.range count).map (fun b => (⟨b, code b, poison b⟩ : Item)) =
      (List.range count).filterMap (fun b => some ⟨b, code b, poison b⟩) := List.filterMap_eq_map.symm ▸ rfl
  rw [items]
  refine (writeElems_items g first fits sgn (pairwise_filterMap_range _ place count) fun i hi => ?_).congr fun e => ?_
  · obtain ⟨b, hb, made⟩ := List.mem_filterMap.mp hi
    rw [place b i made]
    exact (List.mem_range.mp hb).trans_le below
  · rw [find_filterMap_range _ place]
    split <;> rfl

/-- Results in one register and then values in the first elements of another, in other planes. -/
theorem results_then_leading {c : Ctl} {s : State} (g : Granted s) {n p w : Nat} (first : (vreg s n).first = some p)
    (fits : p + dOf s w ≤ 256) {n' q w' : Nat} (first' : (vreg s n').first = some q) (fits' : q + dOf s w' ≤ 256)
    (apart : p + dOf s w ≤ q ∨ q + dOf s w' ≤ p) (sgn : Bool) {count : Nat} (below : count ≤ s.h.csr.vl) (f : Nat → Nat)
    (bad : Nat → Bool) (code : Nat → Nat) (poison : Nat → Bool) {t : State}
    (t_eq : t = writeElems (writeElems s n w sgn (results c s f bad)) n' w' false
      ((List.range count).map (fun b => ⟨b, code b, poison b⟩)))
    {e : Nat} (inside : e < s.h.csr.rows * s.h.csr.tiles * s.h.csr.rlen) :
    elemAt t n w e = ((masked c s 0 f e).map (· % 2 ^ w)).getD (elemAt s n w e) ∧
    elemAt t n' w' e = if e < count then code e % 2 ^ w' else elemAt s n' w' e := by
  subst t_eq
  rcases g with empty | ⟨g, vl_le⟩
  · obtain rfl : count = 0 := by omega
    simp [results_eq_nil empty, writeElems_nil, masked, empty]
  · set u := writeElems s n w sgn (results c s f bad) with u_def
    have only : OnlyPlanes s u := writeElems_onlyPlanes s n w sgn _
    have g' := only.grantSound g
    have planes_eq (w : Nat) : dOf u w = dOf s w := by unfold dOf foldOf; rw [only.h]
    have vreg_eq (n : Nat) : vreg u n = vreg s n := by unfold vreg; rw [only.h]
    obtain ⟨p', first_p, kept, held⟩ := writeElems_results (.inr ⟨g, vl_le⟩) c first fits sgn f bad
    obtain ⟨q', first_q, kept', held'⟩ := leading_written g' (by rw [vreg_eq]; exact first') (by rw [planes_eq]; exact fits') false
      (below.trans (by rw [only.h]; exact vl_le)) code poison
    obtain rfl := Option.some.inj (first.symm.trans first_p)
    rw [vreg_eq] at first_q
    obtain rfl := Option.some.inj (first'.symm.trans first_q)
    rw [planes_eq] at kept'
    rw [only.h] at held'
    refine ⟨?_, ?_⟩
    · rw [kept'.elemAt_eq (writeElems_onlyPlanes u n' w' false _) g' (by rw [vreg_eq]; exact first) (by rw [planes_eq]; exact fits)
        (by rw [planes_eq]; exact apart) (by rw [only.h]; exact inside), u_def, held e inside]
      cases masked c s 0 f e <;> rfl
    · rw [held' e inside, kept.elemAt_eq only g first' fits' apart.symm inside]
      by_cases written : e < count
      · simp only [written, if_true]
      · simp only [written, if_false]

theorem drawn_elemAt (c : Ctl) (u : State) (rm : Nat) (es : List Nat) (fl : FlagSet) (n w e : Nat) :
    elemAt (retire c (drawn rm es (orFlags u fl))) n w e = elemAt u n w e := by
  rw [drawn_orFlags]
  rfl

section
variable {c : Ctl} {s : State} {A : Desc} {fmt rm va : Nat}

@[simp] theorem mxValues_touchRegs (names : List Named) : mxValues c (touchRegs s names) A va = mxValues c s A va := by
  funext b
  simp only [mxValues_eq]
  exact congrArg₂ (fun p f => (List.filter p _).map f) (funext fun e => active_touchRegs c s names e)
    (funext fun e => elemFloat_touchRegs s names A va e)

@[simp] theorem mxResult_touchRegs (names : List Named) : mxResult c (touchRegs s names) A fmt rm va = mxResult c s A fmt rm va := by
  funext e
  simp only [mxResult, mxValues_touchRegs, drawZ_touchRegs, elemFloat_touchRegs]

@[simp] theorem mxCode_touchRegs (names : List Named) : mxCode c (touchRegs s names) A fmt va = mxCode c s A fmt va := by
  funext b
  simp only [mxCode, mxValues_touchRegs]

theorem mxItem_clean (clean : s.poisonLane = []) {es : List Nat} : ∀ i ∈ es.filterMap (mxItem c s A fmt rm va), i.poison = false := by
  intro i hi
  obtain ⟨e, -, made⟩ := List.mem_filterMap.mp hi
  unfold mxItem at made
  split at made
  · cases made
    simp [mxPoisoned_of_clean clean, predPoisoned_of_clean clean]
  · split at made <;> cases made
    rfl

theorem mxCode_lt (b : Nat) : mxCode c s A fmt va b % 2 ^ 8 = mxCode c s A fmt va b := by
  refine Nat.mod_eq_of_lt ?_
  unfold mxCode
  split
  · next k shared =>
    have := sharedExp_bounds shared
    omega
  · split <;> decide

/-- The scale codes of the blocks, with the poison of their elements. -/
def mxScales (c : Ctl) (s : State) (A : Desc) (fmt rm va : Nat) : List Item :=
  (List.range (ceilDiv s.h.csr.vl 32)).map (fun b => ⟨b, mxCode c s A fmt va b,
    ((blockElems s.h.csr.vl b).filterMap (mxItem c s A fmt rm va)).any (fun i => i.poison)⟩)

theorem quantised_scales : (List.range (ceilDiv s.h.csr.vl 32)).map (fun b => (⟨b,
      (((List.range (ceilDiv s.h.csr.vl 32)).map (fun b => quantise c s A fmt rm va b)).getD b (0, [], 0, [])).1,
      (((List.range (ceilDiv s.h.csr.vl 32)).map (fun b => quantise c s A fmt rm va b)).getD b (0, [], 0, [])).2.1.any
        (fun i => i.poison)⟩ : Item)) = mxScales c s A fmt rm va := by
  refine List.map_congr_left fun b hb => ?_
  have below := List.mem_range.mp hb
  simp only [List.getD_eq_getElem?_getD, List.getElem?_map, List.getElem?_range below, Option.map_some, Option.getD_some, quantise_eq]

theorem mxScales_clean (clean : s.poisonLane = []) : ∀ i ∈ mxScales c s A fmt rm va, i.poison = false := by
  intro i hi
  obtain ⟨b, -, rfl⟩ := List.mem_map.mp hi
  exact List.any_eq_false.mpr fun x hx => by rw [mxItem_clean clean x hx]; exact Bool.false_ne_true

/-- VMXQ gives each block its scale and each active element its code at that scale. -/
theorem vmxq_writes {o : VF} {A D : Desc} (A_eq : descOf c s .a = A) (D_eq : descOf c s .d = D) (g : Granted s) (fpA : FpOp c s .a)
    (mxD : D.wf = true ∧ 10 ≤ D.fmt ∧ D.fmt ≤ 13) {vs : BitVec 6} (reg : scaleReg c = vs.toNat) (not_dest : vs ≠ o.vd)
    (not_source : vs ≠ o.va) (usable : Usable s [(o.va, A.w), (o.vd, D.w), (vs, 8)])
    (apart : ∀ p q, (vreg s o.vd.toNat).first = some p → (vreg s vs.toNat).first = some q → p + dOf s D.w ≤ q ∨ q + dOf s 8 ≤ p) :
    let r := mxResult c s A D.fmt (rmOf c s) o.va.toNat
    ∃ t fl, exec (.vmxq c o) s = .next t ∧
      VecFrame c s t ([(o.va, A.w), (o.vd, D.w), (vs, 8)].map (fun x => x.1.toNat)) (fun h =>
        { h with csr := { h.csr with fcsr := fl }, gens := t.h.gens, raised := t.h.raised }) ∧
      FlagsGathered c s fl (fun e => (r e).2) ∧
      GeneratorsDrawn (rmOf c s) s t (fun e => active c s e && (sharedExp D.fmt (mxValues c s A o.va.toNat (e / 32))).isSome) ∧
      ∀ e, e < s.h.csr.rows * s.h.csr.tiles * s.h.csr.rlen →
        elemAt t o.vd.toNat D.w e = ((masked c s 0 (fun e => (r e).1 % 2 ^ D.w)) e).getD (elemAt s o.vd.toNat D.w e) ∧
        elemAt t vs.toNat 8 e = if e < (s.h.csr.vl + 31) / 32 then mxCode c s A D.fmt o.va.toNat e else elemAt s vs.toNat 8 e := by
  intro r
  have m : Names [srcNamed o.va A.w, dstNamed c o.vd D.w, { reg := scaleReg c, fill := !(c.pred == 0 && !c.z) }]
      [(o.va, A.w), (o.vd, D.w), (vs, 8)] :=
    .cons ⟨rfl, rfl, le_rfl⟩ (.cons ⟨rfl, rfl, le_rfl⟩ (.cons ⟨reg, rfl, Nat.zero_le _⟩ .nil))
  obtain ⟨-, -, p, first, fits⟩ := usable.1 (o.vd, D.w) (by simp)
  obtain ⟨-, wide, q, first', fits'⟩ := usable.1 (vs, 8) (by simp)
  have run : exec (.vmxq c o) s = execVmxq c o s := rfl
  have acceptedA := fpA.accepted
  unfold execVmxq at run
  rw [A_eq] at acceptedA
  rw [A_eq, D_eq, vecFrame_prepared _ (usable.prepared m) (by simp [fpA.1, D_eq, mxD.1]) (by simp [accepted_of_mx mxD, acceptedA])
    (scaleTrap_none reg not_dest not_source wide)] at run
  generalize [srcNamed o.va A.w, dstNamed c o.vd D.w, { reg := scaleReg c, fill := !(c.pred == 0 && !c.z) }] = names at run m
  simp only [List.length_map, List.length_range, quantised_scales, quantised_items, quantised_draws, floatItems_items, rmOf_touchRegs,
    reg] at run
  have only := (writeElems_onlyPlanes (touchRegs s names) o.vd.toNat D.w D.sgn (results c (touchRegs s names)
    (fun e => (mxElement c (touchRegs s names) A D.fmt (rmOf c s) o.va.toNat e).1)
    (fun e => mxPoisoned c (touchRegs s names) A o.va.toNat (e / 32)))).trans
    (writeElems_onlyPlanes _ vs.toNat 8 false (mxScales c (touchRegs s names) A D.fmt (rmOf c s) o.va.toNat))
  refine ⟨_, _, run, drawn_frame m only (fun clean => ?_) (Unarmed.trans (writeElems_unarmed _ _ _ _ _)
    (writeElems_unarmed _ _ _ _ _)), ?_, ?_, ?_⟩
  · have clean' := clean_touchRegs clean names
    exact writeElems_clean (writeElems_clean clean' _ _ _ (results_clean clean' _ fun _ => mxPoisoned_of_clean clean' _)) _ _ _
      (mxScales_clean clean')
  · intro clean k hk
    rw [BitVec.getLsbD_or, setWidth_getLsbD_flags _ hk, quantised_flags (clean_touchRegs clean names)]
    simp only [touchRegs_csr, predBit_touchRegs, mxResult_touchRegs, r]
  · have chosen (e : Nat) : decide (e ∈ (List.range (touchRegs s names).h.csr.vl).filter (fun e =>
        predBit (touchRegs s names) c.pred.toNat e && (sharedExp D.fmt (mxValues c (touchRegs s names) A o.va.toNat (e / 32))).isSome)) =
        (active c s e && (sharedExp D.fmt (mxValues c s A o.va.toNat (e / 32))).isSome) := by
      simp [active, Bool.and_assoc]
    simp only [← chosen]
    exact drawn_gens only (List.nodup_range.filter _)
  · intro e inside
    rw [drawn_elemAt, drawn_elemAt]
    obtain ⟨results, scales⟩ := results_then_leading (c := c) (g.touch names) ((vreg_touchRegs_first s names _).trans first)
      (by rw [dOf_touchRegs]; exact fits) ((vreg_touchRegs_first s names _).trans first') (by rw [dOf_touchRegs]; exact fits')
      (by rw [dOf_touchRegs, dOf_touchRegs]; exact apart p q first first') D.sgn
      (count := ceilDiv (touchRegs s names).h.csr.vl 32) (by unfold ceilDiv; omega) _ _ _ _ rfl (e := e) (by rw [touchRegs_csr]; exact inside)
    refine ⟨results.trans ?_, scales.trans ?_⟩
    · simp only [masked_touchRegs, elemAt_touchRegs, masked_map, Nat.zero_mod, ← mxResult_code, mxResult_touchRegs]
      rfl
    · simp only [touchRegs_csr, elemAt_touchRegs, mxCode_touchRegs, mxCode_lt]
      rfl

end

end Sys2Proof.Machine
end

section
open Sys2Proof Sys2Proof.Machine

/-- Settles O15: VMXQ block by block, VMXD and VHAD element by element, and VFRED by the tree's levels, in which an entry without a
partner passes up. -/
theorem microscalingHadamardAndFred : Obligations.MicroscalingHadamardAndFred := by
  unfold Obligations.MicroscalingHadamardAndFred
  refine ⟨?_, ?_⟩
  · intro c o s g A D vs n rm on a three ns frame mx emax
    refine ⟨?_, ?_, ?_, ?_⟩
    · intro fpA mxD usable not_dest not_source apart
      refine ⟨fun b => sharedExp D.fmt (mxValues c s A o.va.toNat b), fun b => mxBad (mxValues c s A o.va.toNat b), fun b => ?_, ?_⟩
      · obtain ⟨zeros, bad, nonzero⟩ := sharedExp_cases D.fmt (mxValues c s A o.va.toNat b)
        have values := mxValues_eq (c := c) (s := s) (A := A) (va := o.va.toNat) b
        exact values ▸ ⟨mxBad_iff _, zeros, bad, nonzero⟩
      · intro r
        obtain ⟨t, fl, run, left, flags, draws, held⟩ := vmxq_writes rfl rfl g fpA mxD (scaleReg_eq c) not_dest not_source usable apart
        exact ⟨t, fl, run, left, flags, draws, held⟩
    · intro mxA fpD usable not_dest not_source
      exact vmxd_writes g mxA fpD (scaleReg_eq c) not_dest not_source usable
    · intro intA intD whole usable
      exact vhad_int g intA intD whole usable
    · intro fpA fpD whole usable
      exact vhad_float g fpA fpD whole usable
  · intro c o s clean g fpA fpD A D ops rm op act entry first writes usable
    obtain ⟨⟨x, h, fl⟩, tree⟩ : ∃ r, reduceTiles c (touchRegs s [srcNamed o.va A.w, dstNamed c o.vd D.w]) A D.fmt (rmOf c s) op o.va.toNat
      (List.range s.h.csr.tiles) none ((touchRegs s [srcNamed o.va A.w, dstNamed c o.vd D.w]).h, 0) = r := ⟨_, rfl⟩
    obtain ⟨t, run, left, written, gens⟩ := vfred_writes clean g fpA fpD usable tree
    obtain ⟨same_gens, over_none, over_one, over_pair⟩ := reduceTiles_delivers rfl g tree
    obtain ⟨others, kept⟩ := fcsr_flags_added s.h.csr.fcsr fl
    refine ⟨t, _, _, run, left, written, fun det => gens.trans (same_gens det), others, kept, fun none_active => ?_, fun e single => ?_,
      fun e pair same_tile even det _ => ?_⟩
    · obtain ⟨rfl, rfl⟩ := over_none none_active
      exact ⟨BitVec.or_zero, redIdentity_eq ..⟩
    · obtain ⟨rfl, rfl⟩ := over_one e single
      exact ⟨rfl, rfl⟩
    · obtain ⟨rfl, rfl⟩ := over_pair e pair same_tile even det
      exact ⟨rfl, rfl⟩
end

section
/-! MDRAIN: the drained cells and the elements they go to (R222, R234). -/
namespace Sys2Proof.Machine

/-! Places. -/

section
variable (s : State)

/-- The tile, the row there and the column of element `e` (R31). -/
def tileOf (e : Nat) : Nat := e / (s.h.csr.rlen * s.h.csr.rows)
def rowOf (e : Nat) : Nat := e % (s.h.csr.rlen * s.h.csr.rows) / s.h.csr.rlen
def colOf (e : Nat) : Nat := e % s.h.csr.rlen

/-- Whether a drain reaches element `e`. -/
def reached (q : Drain) (e : Nat) : Bool :=
  decide (q.row ≤ rowOf s e) && decide (rowOf s e < q.row + q.n) && decide (colOf s e < 256)

/-- The cell drained to element `e`, and the element. -/
def drainPlace (q : Drain) (e : Nat) : Nat × Nat × Nat × Nat := (tileOf s e, q.i0 + rowOf s e - q.row, colOf s e, e)

end

section
variable {s : State} {q : Drain}

theorem elemOf_eq (t r g : Nat) : elemOf s t r g = (t * s.h.csr.rows + r) * s.h.csr.rlen + g := by
  unfold elemOf
  ring

/-- The tile, the row and the column that an element was made of. -/
theorem elemOf_parts {t r g : Nat} (row : r < s.h.csr.rows) (col : g < s.h.csr.rlen) :
    tileOf s (elemOf s t r g) = t ∧ rowOf s (elemOf s t r g) = r ∧ colOf s (elemOf s t r g) = g := by
  have flat : elemOf s t r g / s.h.csr.rlen = t * s.h.csr.rows + r := by
    rw [elemOf_eq, Nat.mul_comm, Nat.mul_add_div (by omega), Nat.div_eq_of_lt col, Nat.add_zero]
  refine ⟨?_, ?_, ?_⟩
  · rw [tileOf, ← Nat.div_div_eq_div_mul, flat, Nat.mul_comm, Nat.mul_add_div (by omega), Nat.div_eq_of_lt row, Nat.add_zero]
  · rw [rowOf, Nat.mod_mul_right_div_self, flat, Nat.mul_comm, Nat.mul_add_mod, Nat.mod_eq_of_lt row]
  · rw [colOf, elemOf_eq, Nat.mul_comm, Nat.mul_add_mod, Nat.mod_eq_of_lt col]

/-- An element is made of its tile, row and column. -/
theorem elemOf_of_parts (e : Nat) : elemOf s (tileOf s e) (rowOf s e) (colOf s e) = e := by
  have flat : tileOf s e * s.h.csr.rows + rowOf s e = e / s.h.csr.rlen := by
    rw [tileOf, rowOf, ← Nat.div_div_eq_div_mul, Nat.mod_mul_right_div_self]
    exact Nat.div_add_mod' _ _
  rw [elemOf_eq, flat]
  exact Nat.div_add_mod' _ _

theorem elemOf_lt {t r g t' r' g' : Nat} (row : r < s.h.csr.rows) (col : g < s.h.csr.rlen)
    (before : t < t' ∨ t = t' ∧ (r < r' ∨ r = r' ∧ g < g')) : elemOf s t r g < elemOf s t' r' g' := by
  have later {x x' : Nat} (h : x < x') : x * s.h.csr.rlen + g < x' * s.h.csr.rlen + g' :=
    calc x * s.h.csr.rlen + g < (x + 1) * s.h.csr.rlen := by rw [Nat.succ_mul]; omega
      _ ≤ x' * s.h.csr.rlen + g' := (Nat.mul_le_mul_right _ h).trans (Nat.le_add_right ..)
  rw [elemOf_eq, elemOf_eq]
  rcases before with tile | ⟨rfl, below | ⟨rfl, right⟩⟩
  · refine later ?_
    calc t * s.h.csr.rows + r < (t + 1) * s.h.csr.rows := by rw [Nat.succ_mul]; omega
      _ ≤ t' * s.h.csr.rows + r' := (Nat.mul_le_mul_right _ tile).trans (Nat.le_add_right ..)
  · exact later (by omega)
  · omega

/-- The places of a drain, tile by tile. -/
def drainOrder (s : State) (q : Drain) : List (Nat × Nat × Nat × Nat) :=
  ((List.range s.h.csr.tiles).map (drainPlaces s q)).flatten

theorem mem_drainOrder (granted : Granted s) (rows : q.row + q.n ≤ s.h.csr.rows) (x : Nat × Nat × Nat × Nat) :
    x ∈ drainOrder s q ↔ x.2.2.2 < s.h.csr.vl ∧ reached s q x.2.2.2 = true ∧ x = drainPlace s q x.2.2.2 := by
  simp only [drainOrder, drainPlaces, List.mem_flatten, List.mem_map, List.mem_range, exists_exists_and_eq_and, List.mem_filter,
    decide_eq_true_eq, reached, Bool.and_eq_true]
  constructor
  · rintro ⟨t, tile, ⟨k, row, j, col, rfl⟩, below⟩
    obtain ⟨tile_eq, row_eq, col_eq⟩ := elemOf_parts (s := s) (t := t) (r := q.row + k) (g := j) (by omega) (by omega)
    refine ⟨below, ?_, ?_⟩
    · rw [row_eq, col_eq]
      omega
    · rw [drainPlace, tile_eq, row_eq, col_eq, show q.i0 + (q.row + k) - q.row = q.i0 + k by omega]
  · rintro ⟨below, ⟨⟨above, row⟩, col⟩, place⟩
    generalize x.2.2.2 = e at *
    subst place
    obtain ⟨⟨-, rlen_pos, -⟩, vl_le⟩ := granted.resolve_left (by omega)
    refine ⟨tileOf s e, Nat.div_lt_of_lt_mul ?_, ⟨rowOf s e - q.row, by omega, colOf s e, ?_, ?_⟩, below⟩
    · calc e < s.h.csr.vl := below
        _ ≤ s.h.csr.rows * s.h.csr.tiles * s.h.csr.rlen := vl_le
        _ = s.h.csr.rlen * s.h.csr.rows * s.h.csr.tiles := by ring
    · have := Nat.mod_lt e rlen_pos
      unfold colOf at *
      omega
    · rw [show q.row + (rowOf s e - q.row) = rowOf s e by omega, elemOf_of_parts, drainPlace,
        show q.i0 + (rowOf s e - q.row) = q.i0 + rowOf s e - q.row by omega]

theorem drainOrder_ascending (rows : q.row + q.n ≤ s.h.csr.rows) :
    (drainOrder s q).Pairwise (fun a b => a.2.2.2 < b.2.2.2) := by
  have tile (t : Nat) : (((List.range q.n).map (fun k => (List.range (min 256 s.h.csr.rlen)).map (fun j =>
      (t, q.i0 + k, j, elemOf s t (q.row + k) j)))).flatten).Pairwise (fun a b => a.2.2.2 < b.2.2.2) := by
    rw [List.pairwise_flatten, List.pairwise_map]
    refine ⟨fun l hl => ?_, List.pairwise_lt_range.imp_of_mem fun {k k'} hk _ before x hx y hy => ?_⟩
    · obtain ⟨k, hk, rfl⟩ := List.mem_map.mp hl
      rw [List.pairwise_map]
      refine List.pairwise_lt_range.imp_of_mem fun {j j'} hj _ before => ?_
      simp only [List.mem_range] at hk hj
      exact elemOf_lt (by omega) (by omega) (.inr ⟨rfl, .inr ⟨rfl, before⟩⟩)
    · obtain ⟨j, hj, rfl⟩ := List.mem_map.mp hx
      obtain ⟨j', -, rfl⟩ := List.mem_map.mp hy
      simp only [List.mem_range] at hk hj
      exact elemOf_lt (by omega) (by omega) (.inr ⟨rfl, .inl (by omega)⟩)
  unfold drainOrder
  rw [List.pairwise_flatten, List.pairwise_map]
  refine ⟨fun l hl => ?_, List.pairwise_lt_range.imp fun {t t'} before x hx y hy => ?_⟩
  · obtain ⟨t, -, rfl⟩ := List.mem_map.mp hl
    exact (tile t).filter _
  · simp only [drainPlaces, List.mem_filter, List.mem_flatten, List.mem_map, List.mem_range, exists_exists_and_eq_and] at hx hy
    obtain ⟨⟨k, hk, j, hj, rfl⟩, -⟩ := hx
    obtain ⟨⟨k', -, j', -, rfl⟩, -⟩ := hy
    exact elemOf_lt (by omega) (by omega) (.inl before)

/-- A drain goes to the elements it reaches in their order. -/
theorem drainOrder_eq (granted : Granted s) (rows : q.row + q.n ≤ s.h.csr.rows) :
    drainOrder s q = ((List.range s.h.csr.vl).filter (reached s q)).map (drainPlace s q) := by
  have elems : (drainOrder s q).map (fun x => x.2.2.2) = (List.range s.h.csr.vl).filter (reached s q) := by
    refine (List.pairwise_map.mpr (drainOrder_ascending rows)).eq_of_mem_iff (List.pairwise_lt_range.filter _) fun e => ?_
    simp only [List.mem_map, mem_drainOrder granted rows, List.mem_filter, List.mem_range]
    exact ⟨fun ⟨x, h, e_eq⟩ => e_eq ▸ ⟨h.1, h.2.1⟩, fun h => ⟨drainPlace s q e, ⟨h.1, h.2, rfl⟩, rfl⟩⟩
  rw [← elems, List.map_map]
  calc drainOrder s q = (drainOrder s q).map id := (List.map_id _).symm
    _ = _ := List.map_congr_left fun x hx => ((mem_drainOrder granted rows x).mp hx).2.2

end

/-! What a drain writes, raises, draws and clears. -/

section
variable (c : Ctl) (s : State) (q : Drain) (vd : Nat)

/-- The result of the cell drained to element `e`. -/
def drainResult (e : Nat) : Nat × FlagSet × Bool :=
  drainCell s q (tileOf s e) (q.i0 + rowOf s e - q.row) (colOf s e) e vd

/-- What element `e` takes where the drain reaches it, and whether that was rounded. -/
def drainItem (e : Nat) : Option (FItem × Bool) :=
  if reached s q e then
    if predBit s c.pred.toNat e then
      some (⟨e, (drainResult s q vd e).1, (drainResult s q vd e).2.1, false⟩, (drainResult s q vd e).2.2)
    else if c.z then some (⟨e, 0, 0, false⟩, false) else none
  else none

def drainItems : List (FItem × Bool) := (List.range s.h.csr.vl).filterMap (drainItem c s q vd)

/-- Whether some drained cell holds CF. -/
def drainCf : Bool := s.acc.any (fun e => drained s q e.1 && cellCf e.2)

/-- CLR of a drain (R234). -/
def drainClear (z : State) : State :=
  if q.clr then
    (List.range z.h.csr.tiles).foldl (fun s t => strikeAcc (s.h.core + t) q.i0 q.n s)
      { z with acc := sdrop z.acc (drained z q), poisonAcc := sdrop z.poisonAcc (fun k => drained z q (k * 256)) }
  else z

end

section
variable {c : Ctl} {s : State} {q : Drain} {vd : Nat}

theorem accPoisoned_of_clean (clean : s.poisonAcc = []) (core i : Nat) : accPoisoned s core i = false := by
  rw [accPoisoned, clean, sget_nil]

/-- The drain's effect, without poison and outside every window. -/
theorem drainCore_eq (clean : s.poisonLane = []) (clean_acc : s.poisonAcc = []) (cold : s.h.hot = []) (granted : Granted s)
    (rows : q.row + q.n ≤ s.h.csr.rows) :
    drainCore c q vd s = retire c (drainClear q (drawn q.rm
      (((drainItems c s q vd).filter (fun x => x.2)).map (fun x => x.1.elem))
      (orFlags (writeElems s vd q.dd.w q.dd.sgn (((drainItems c s q vd).map (fun x => x.1)).map FItem.item))
        (flagsOf ((drainItems c s q vd).map (fun x => x.1)) ||| if drainCf s q then fSat else 0)))) := by
  have cells : (drainOrder s q).filterMap (fun x =>
      if predBit s c.pred.toNat x.2.2.2 then
        some (FItem.mk x.2.2.2 (drainCell s q x.1 x.2.1 x.2.2.1 x.2.2.2 vd).1 (drainCell s q x.1 x.2.1 x.2.2.1 x.2.2.2 vd).2.1 false,
          (drainCell s q x.1 x.2.1 x.2.2.1 x.2.2.2 vd).2.2)
      else if c.z then some (FItem.mk x.2.2.2 0 0 false, false) else none) = drainItems c s q vd := by
    rw [drainOrder_eq granted rows, List.filterMap_map, List.filterMap_filter]
    rfl
  unfold drainCore
  simp only [accPoisoned_of_clean clean_acc, elemPoisoned_of_clean clean, predPoisoned_of_clean clean, cold, List.contains_nil,
    Bool.or_false, Bool.and_false, Bool.not_false, Bool.and_true, Bool.false_and, List.any_eq_false.mpr fun _ _ => Bool.false_ne_true]
  unfold drainOrder at cells
  rw [cells]
  rfl

end

end Sys2Proof.Machine
end

section
/-! MDRAIN: what its cells hold, what it clears, and what an instruction that drains leaves (R76, R77, R78, R222, R234, R235, R236). -/
namespace Sys2Proof.Machine

/-! The accumulator. -/

theorem mem_of_sget {α : Type} {d : α} {m : Sparse α} {k : Nat} (held : sget d m k ≠ d) : (k, sget d m k) ∈ m := by
  induction m with
  | nil => exact absurd rfl held
  | cons e r ih =>
    obtain ⟨k', v⟩ := e
    unfold sget at held ⊢
    split at held
    · next same => rw [if_pos same, same]; exact List.mem_cons_self
    · next other => rw [if_neg other]; exact List.mem_cons_of_mem _ (ih held)

theorem sget_of_mem {α : Type} [DecidableEq α] {d : α} {m : Sparse α} (canon : canonical d m = true) {e : Nat × α} (he : e ∈ m) :
    sget d m e.1 = e.2 := by
  obtain ⟨ascend, -⟩ := (canonical_iff d m).mp canon
  clear canon
  induction m with
  | nil => exact nomatch he
  | cons x r ih =>
    obtain ⟨first, ascend⟩ := List.pairwise_cons.mp ascend
    rcases List.mem_cons.mp he with rfl | he
    · exact if_pos rfl
    · exact (if_neg (first e he).ne).trans (ih he ascend)

/-- The cells that a drain takes, by tile, row and column. -/
theorem drained_cellKey {s : State} {q : Drain} (rows : q.i0 + q.n ≤ 256) (k : Nat) : drained s q k = true ↔
    ∃ t x y, t < s.h.csr.tiles ∧ x < q.n ∧ y < 256 ∧ k = cellKey (s.h.core + t) (q.i0 + x) y := by
  simp only [drained, Bool.and_eq_true, decide_eq_true_eq, cellKey]
  constructor
  · rintro ⟨⟨⟨core, tile⟩, above⟩, below⟩
    exact ⟨k / 65536 - s.h.core, k / 256 % 256 - q.i0, k % 256, by omega, by omega, by omega, by omega⟩
  · rintro ⟨t, x, y, tile, row, col, rfl⟩
    omega

/-- SAT takes the CF of every drained cell (R222). -/
theorem drainCf_eq {s : State} {q : Drain} (canon : canonical 0 s.acc = true) (rows : q.i0 + q.n ≤ 256) : drainCf s q =
    (List.range s.h.csr.tiles).any (fun t => (List.range q.n).any (fun x => (List.range 256).any (fun y =>
      cellCf (sget 0 s.acc (cellKey (s.h.core + t) (q.i0 + x) y))))) := by
  rw [Bool.eq_iff_iff]
  simp only [drainCf, List.any_eq_true, List.mem_range, Bool.and_eq_true, drained_cellKey rows]
  constructor
  · rintro ⟨e, he, ⟨t, x, y, tile, row, col, key⟩, cf⟩
    exact ⟨t, tile, x, row, y, col, by rw [← key, sget_of_mem canon he]; exact cf⟩
  · rintro ⟨t, tile, x, row, y, col, cf⟩
    refine ⟨_, mem_of_sget (k := cellKey (s.h.core + t) (q.i0 + x) y) fun zero => ?_, ⟨t, x, y, tile, row, col, rfl⟩, cf⟩
    rw [zero] at cf
    exact absurd cf (by decide)

/-! The clear. -/

/-- Nothing but armed errors and what they set off differs. -/
def OnlyArmed (s t : State) : Prop := t = { s with armed := t.armed, calendar := t.calendar }

theorem OnlyArmed.trans {s t u : State} (first : OnlyArmed s t) (second : OnlyArmed t u) : OnlyArmed s u := by
  unfold OnlyArmed at *
  rw [second, first]

theorem OnlyArmed.foldl {β : Type} {f : State → β → State} (hf : ∀ s b, OnlyArmed s (f s b)) (l : List β) (s : State) :
    OnlyArmed s (l.foldl f s) := by
  induction l generalizing s with
  | nil => exact rfl
  | cons b r ih => exact (hf s b).trans (ih _)

theorem strike_onlyArmed (s : State) (space key : Nat) : OnlyArmed s (strike s space key) := by
  unfold strike
  split
  · rfl
  · split <;> rfl

theorem strikeAcc_onlyArmed (core i0 n : Nat) (s : State) : OnlyArmed s (strikeAcc core i0 n s) := by
  unfold strikeAcc
  split
  · rfl
  · exact .foldl (fun s i => strike_onlyArmed s _ _) _ s

/-- CLR zeroes the drained cells and nothing else; armed errors may strike. -/
theorem drainClear_spec (q : Drain) {z : State} (clean : z.poisonAcc = []) :
    ∃ acc armed calendar, drainClear q z = { z with acc, armed, calendar } ∧
      ∀ k, sget 0 acc k = if q.clr = true ∧ drained z q k = true then 0 else sget 0 z.acc k := by
  unfold drainClear
  split
  · next clr =>
    have unpoisoned : sdrop z.poisonAcc (fun k => drained z q (k * 256)) = z.poisonAcc := by
      rw [clean]
      rfl
    rw [unpoisoned]
    have struck := OnlyArmed.foldl (fun s t => strikeAcc_onlyArmed (s.h.core + t) q.i0 q.n s) (List.range z.h.csr.tiles)
      { z with acc := sdrop z.acc (drained z q) }
    refine ⟨sdrop z.acc (drained z q), _, _, struck, fun k => ?_⟩
    rw [sget_sdrop]
    simp [clr]
  · next kept => exact ⟨_, _, _, rfl, fun k => (if_neg fun h => kept h.1).symm⟩

/-! Nothing read depends on the order of references. -/

section
variable (s : State) (names : List Named) (q : Drain) (vd : Nat)

@[simp] theorem tileOf_touchRegs : tileOf (touchRegs s names) = tileOf s := by
  funext e
  simp only [tileOf, touchRegs_csr]

@[simp] theorem rowOf_touchRegs : rowOf (touchRegs s names) = rowOf s := by
  funext e
  simp only [rowOf, touchRegs_csr]

@[simp] theorem colOf_touchRegs : colOf (touchRegs s names) = colOf s := by
  funext e
  simp only [colOf, touchRegs_csr]

@[simp] theorem reached_touchRegs : reached (touchRegs s names) q = reached s q := by
  funext e
  simp only [reached, rowOf_touchRegs, colOf_touchRegs]

@[simp] theorem cellAt_touchRegs (core i j : Nat) : cellAt (touchRegs s names) core i j = cellAt s core i j := by
  rw [touchRegs_eq]; rfl

@[simp] theorem tableInt_touchRegs (core sel i : Nat) : tableInt (touchRegs s names) core sel i = tableInt s core sel i := by
  rw [touchRegs_eq]; rfl

@[simp] theorem marked_touchRegs (core sel i : Nat) : marked (touchRegs s names) core sel i = marked s core sel i := by
  rw [touchRegs_eq]; rfl

@[simp] theorem drainCf_touchRegs : drainCf (touchRegs s names) q = drainCf s q := by
  rw [touchRegs_eq]; rfl

theorem physRow_touchRegs (core i : Nat) : physRow (touchRegs s names) core i = physRow s core i := by
  rw [touchRegs_eq]; rfl

@[simp] theorem imageCell_touchRegs (n t k i j : Nat) : imageCell (touchRegs s names) n t k i j = imageCell s n t k i j := by
  unfold imageCell
  simp only [touchRegs_hot, touchRegs_free, vreg_touchRegs_first, touchRegs_csr, touchRegs_core, bitsAt_touchRegs, physRow_touchRegs]

@[simp] theorem drainExact_touchRegs (t i j : Nat) : drainExact (touchRegs s names) q t i j = drainExact s q t i j := by
  unfold drainExact mcfgSa mcfgSb
  simp only [touchRegs_core, touchRegs_csr, cellAt_touchRegs, tableInt_touchRegs, marked_touchRegs, imageCell_touchRegs]

@[simp] theorem drainResult_touchRegs : drainResult (touchRegs s names) q vd = drainResult s q vd := by
  funext e
  unfold drainResult drainCell
  simp only [tileOf_touchRegs, rowOf_touchRegs, colOf_touchRegs, touchRegs_core, elemBits_touchRegs, cellAt_touchRegs,
    tableInt_touchRegs, drawZ_touchRegs, drainExact_touchRegs]

@[simp] theorem drainItems_touchRegs (c : Ctl) : drainItems c (touchRegs s names) q vd = drainItems c s q vd := by
  unfold drainItems drainItem
  simp only [touchRegs_csr, reached_touchRegs, predBit_touchRegs, drainResult_touchRegs]

end

/-! What the drain leaves. -/

section
variable {c : Ctl} {s : State} {q : Drain} {vd : Nat}

theorem drainItem_elem {e : Nat} {x : FItem × Bool} (made : drainItem c s q vd e = some x) : x.1.elem = e := by
  unfold drainItem at made
  split at made
  · split at made
    · cases made; rfl
    · split at made <;> cases made
      rfl
  · cases made

theorem drainItem_clean {e : Nat} {x : FItem × Bool} (made : drainItem c s q vd e = some x) : x.1.poison = false := by
  unfold drainItem at made
  split at made
  · split at made
    · cases made; rfl
    · split at made <;> cases made
      rfl
  · cases made

/-- The bits that a drain leaves in an element. -/
theorem drainItem_bits (e : Nat) : (if e < s.h.csr.vl then (drainItem c s q vd e).map (fun x => x.1.bits) else none) =
    if reached s q e then masked c s 0 (fun e => (drainResult s q vd e).1) e else none := by
  cases hit : reached s q e with
  | false => simp [drainItem, hit]
  | true =>
    unfold masked
    split
    · cases on : predBit s c.pred.toNat e with
      | false => cases zeroed : c.z <;> simp [drainItem, hit, on, zeroed]
      | true => simp [drainItem, hit, on]
    · rfl

theorem drainItems_flags (k : Nat) : (flagsOf ((drainItems c s q vd).map (fun x => x.1))).getLsbD k =
    (List.range s.h.csr.vl).any (fun e => predBit s c.pred.toNat e && reached s q e && (drainResult s q vd e).2.1.getLsbD k) := by
  rw [flagsOf_getLsbD, drainItems, List.map_filterMap, List.any_filterMap]
  refine congrArg (List.any _) (funext fun e => ?_)
  cases hit : reached s q e with
  | false => simp [drainItem, hit]
  | true =>
    cases on : predBit s c.pred.toNat e with
    | false => cases zeroed : c.z <;> simp [drainItem, hit, on, zeroed]
    | true => simp [drainItem, hit, on]

/-- The elements whose rounding draws. -/
theorem drainItems_draws : ((drainItems c s q vd).filter (fun x => x.2)).map (fun x => x.1.elem) =
    (List.range s.h.csr.vl).filter (fun e => predBit s c.pred.toNat e && reached s q e && (drainResult s q vd e).2.2) := by
  rw [drainItems, List.filter_filterMap, List.map_filterMap, ← List.filterMap_eq_filter]
  refine congrArg (List.filterMap · _) (funext fun e => ?_)
  cases hit : reached s q e with
  | false => simp [drainItem, hit, Option.guard]
  | true =>
    cases on : predBit s c.pred.toNat e with
    | false => cases zeroed : c.z <;> simp [drainItem, hit, on, zeroed, Option.guard]
    | true => cases rounds : (drainResult s q vd e).2.2 <;> simp [drainItem, hit, on, rounds, Option.guard]

end

end Sys2Proof.Machine
end

section
/-! MDRAIN: the state that a drain leaves (R72, R222, R234). -/
namespace Sys2Proof.Machine

theorem drained_congr {s t : State} (core : t.h.core = s.h.core) (csr : t.h.csr.tiles = s.h.csr.tiles) (q : Drain) :
    drained t q = drained s q := by
  unfold drained
  rw [core, csr]

theorem satFlag_getLsbD {k : Nat} (hk : k < 6) (b : Bool) : ((if b then fSat else 0) : FlagSet).getLsbD k = (decide (k = 5) && b) := by
  have set : ∀ k < 6, fSat.getLsbD k = decide (k = 5) := by decide
  cases b
  · rw [Bool.and_false]
    exact BitVec.getLsbD_zero
  · rw [Bool.and_true]
    exact set k hk

/-! The elements. -/

section
variable {c : Ctl} {s : State} {q : Drain} {vd : Nat}

/-- What a drain writes, as bits of elements. -/
def drainBits (c : Ctl) (s : State) (q : Drain) (vd : Nat) : List Item := ((drainItems c s q vd).map (fun x => x.1)).map FItem.item

theorem drainBits_eq : drainBits c s q vd =
    (List.range s.h.csr.vl).filterMap (fun e => (drainItem c s q vd e).map (fun x => x.1.item)) := by
  rw [drainBits, List.map_map, drainItems, List.map_filterMap]
  rfl

theorem drainBits_place : ∀ e i, (drainItem c s q vd e).map (fun x => x.1.item) = some i → i.elem = e := by
  intro e i made
  obtain ⟨x, item, rfl⟩ := Option.map_eq_some_iff.mp made
  exact drainItem_elem item

theorem drainBits_clean : ∀ i ∈ drainBits c s q vd, i.poison = false := by
  intro i hi
  rw [drainBits_eq] at hi
  obtain ⟨e, -, made⟩ := List.mem_filterMap.mp hi
  obtain ⟨x, item, rfl⟩ := Option.map_eq_some_iff.mp made
  exact drainItem_clean item

/-- A drain writes the elements it reaches, under the predicate. -/
theorem drainBits_written (g : GrantSound s) (granted : Granted s) {p : Nat} (first : (vreg s vd).first = some p)
    (fits : p + dOf s q.dd.w ≤ 256) (names : List Named) :
    ElemsWritten s (writeElems (touchRegs s names) vd q.dd.w q.dd.sgn (drainBits c s q vd)) vd q.dd.w
      (fun e => if reached s q e then masked c s 0 (fun e => (drainResult s q vd e).1) e else none) := by
  refine ElemsWritten.of_touchRegs (names := names) ((writeElems_items (g.touch names) ((vreg_touchRegs_first s names vd).trans first)
    (by rw [dOf_touchRegs]; exact fits) q.dd.sgn (by rw [drainBits_eq]; exact pairwise_filterMap_range _ drainBits_place _)
    fun i hi => ?_).congr fun e => ?_)
  · rw [drainBits_eq] at hi
    obtain ⟨e, below, made⟩ := List.mem_filterMap.mp hi
    have below := List.mem_range.mp below
    obtain ⟨-, vl_le⟩ := granted.resolve_left (by omega)
    rw [drainBits_place e i made, touchRegs_csr]
    exact below.trans_le vl_le
  · rw [drainBits_eq, find_filterMap_range _ drainBits_place, ← drainItem_bits]
    split
    · cases drainItem c s q vd e <;> rfl
    · rfl

/-! Its flags and its draws. -/

/-- What a drain raises: the flags of its elements, and SAT for CF. -/
def drainFlags (c : Ctl) (s : State) (q : Drain) (vd : Nat) : FlagSet :=
  flagsOf ((drainItems c s q vd).map (fun x => x.1)) ||| if drainCf s q then fSat else 0

/-- The elements whose generators draw. -/
def drainDraws (c : Ctl) (s : State) (q : Drain) (vd : Nat) : List Nat :=
  (List.range s.h.csr.vl).filter (fun e => predBit s c.pred.toNat e && reached s q e && (drainResult s q vd e).2.2)

theorem drainFlags_getLsbD (w : Word) {k : Nat} (hk : k < 64) : (w ||| (drainFlags c s q vd).setWidth 64).getLsbD k =
    (w.getLsbD k || (decide (k < 6) &&
      ((List.range s.h.csr.vl).any (fun e => predBit s c.pred.toNat e && reached s q e && (drainResult s q vd e).2.1.getLsbD k) ||
        decide (k = 5) && drainCf s q))) := by
  rw [BitVec.getLsbD_or, setWidth_getLsbD_flags _ hk, drainFlags, BitVec.getLsbD_or, drainItems_flags]
  by_cases low : k < 6
  · rw [satFlag_getLsbD low]
  · simp [low]

theorem drainDraws_nodup : (drainDraws c s q vd).Nodup := List.nodup_range.filter _

theorem mem_drainDraws (e : Nat) : decide (e ∈ drainDraws c s q vd) =
    (decide (e < s.h.csr.vl) && (predBit s c.pred.toNat e && reached s q e && (drainResult s q vd e).2.2)) := by
  simp [drainDraws, List.mem_filter]

/-- The drain of an instruction that has counted its references. -/
theorem drainCore_touchRegs (clean : s.poisonLane = []) (clean_acc : s.poisonAcc = []) (cold : s.h.hot = []) (granted : Granted s)
    (rows : q.row + q.n ≤ s.h.csr.rows) (names : List Named) : drainCore c q vd (touchRegs s names) =
      retire c (drainClear q (drawn q.rm (drainDraws c s q vd) (orFlags
        (writeElems (touchRegs s names) vd q.dd.w q.dd.sgn (drainBits c s q vd)) (drainFlags c s q vd)))) := by
  rw [drainCore_eq (clean_touchRegs clean names) (by rw [touchRegs_eq]; exact clean_acc) (by rw [touchRegs_hot]; exact cold)
    (granted.touch names) (by rw [touchRegs_csr]; exact rows), drainItems_draws]
  simp only [drainItems_touchRegs, drainCf_touchRegs, touchRegs_csr, predBit_touchRegs, reached_touchRegs, drainResult_touchRegs]
  rfl

end

/-! The state. -/

/-- Elements, flags, draws and cells after a drain. -/
theorem drain_writes {i : Instr} {c : Ctl} {s : State} {q : Drain} {names : List Named} {ops : List (BitVec 6 × Nat)} {vd p : Nat}
    (run : exec i s = .next (drainCore c q vd (touchRegs s names))) (m : Names names ops) (clean : s.poisonLane = [])
    (clean_acc : s.poisonAcc = []) (cold : s.h.hot = []) (g : GrantSound s) (granted : Granted s) (rows : q.row + q.n ≤ s.h.csr.rows)
    (first : (vreg s vd).first = some p) (fits : p + dOf s q.dd.w ≤ 256) :
    let r := drainResult s q vd
    ∃ t, exec i s = .next t ∧
      t = { s with planes := t.planes, acc := t.acc, armed := t.armed, calendar := t.calendar
                   h := { s.h with pc := pcAfter c s, issued := true, refs := t.h.refs, regs := t.h.regs, gens := t.h.gens
                                   raised := t.h.raised, csr := { s.h.csr with fcsr := t.h.csr.fcsr } } } ∧
      Referenced (ops.map (fun x => x.1.toNat)) s.h t.h ∧
      ElemsWritten s t vd q.dd.w (fun e => if reached s q e then masked c s 0 (fun e => (r e).1) e else none) ∧
      (∀ k, k < 64 → t.h.csr.fcsr.getLsbD k = (s.h.csr.fcsr.getLsbD k || (decide (k < 6) &&
        ((List.range s.h.csr.vl).any (fun e => predBit s c.pred.toNat e && reached s q e && (r e).2.1.getLsbD k) ||
          decide (k = 5) && drainCf s q)))) ∧
      GeneratorsDrawn q.rm s t (fun e => decide (e < s.h.csr.vl) && (predBit s c.pred.toNat e && reached s q e && (r e).2.2)) ∧
      ∀ k, sget 0 t.acc k = if q.clr = true ∧ drained s q k = true then 0 else sget 0 s.acc k := by
  intro r
  rw [drainCore_touchRegs clean clean_acc cold granted rows names] at run
  have written := drawn_elems (c := c) (rm := q.rm) (es := drainDraws c s q vd) (fl := drainFlags c s q vd)
    (drainBits_written (c := c) g granted first fits names)
  have unarmed := writeElems_unarmed (touchRegs s names) vd q.dd.w q.dd.sgn (drainBits c s q vd)
  have lane_kept := writeElems_clean (clean_touchRegs clean names) vd q.dd.w q.dd.sgn (drainBits_clean (c := c) (s := s) (q := q) (vd := vd))
  have only := writeElems_onlyPlanes (touchRegs s names) vd q.dd.w q.dd.sgn (drainBits c s q vd)
  generalize writeElems (touchRegs s names) vd q.dd.w q.dd.sgn (drainBits c s q vd) = w at run written unarmed lane_kept only
  obtain ⟨left, referenced, lane, -⟩ :=
    drawn_frame (c := c) (rm := q.rm) (es := drainDraws c s q vd) (fl := drainFlags c s q vd) m only (fun _ => lane_kept) unarmed
  have draws := drawn_gens (c := c) (rm := q.rm) (fl := drainFlags c s q vd) only (drainDraws_nodup (c := c) (s := s) (q := q) (vd := vd))
  simp only [mem_drainDraws] at draws
  generalize drawn q.rm (drainDraws c s q vd) (orFlags w (drainFlags c s q vd)) = z at run written left referenced lane draws
  have unpoisoned : z.poisonAcc = s.poisonAcc := (congrArg State.poisonAcc left :)
  have same_cells : z.acc = s.acc := (congrArg State.acc left :)
  have same_core : z.h.core = s.h.core := congrArg (fun t => t.h.core) left
  have same_tiles : z.h.csr.tiles = s.h.csr.tiles := congrArg (fun t => t.h.csr.tiles) left
  have new_fcsr : (retire c z).h.csr.fcsr = s.h.csr.fcsr ||| (drainFlags c s q vd).setWidth 64 := congrArg (fun t => t.h.csr.fcsr) left
  obtain ⟨acc, armed, calendar, cleared, cells⟩ := drainClear_spec q (unpoisoned.trans clean_acc)
  rw [cleared] at run
  refine ⟨_, run, ?_, referenced, written, fun k hk => ?_, draws, fun k => ?_⟩
  · rw [lane clean, ← clean, ← new_fcsr] at left
    exact congrArg (fun t => { t with acc, armed, calendar }) left
  · exact (congrArg (BitVec.getLsbD · k) new_fcsr).trans (drainFlags_getLsbD _ hk)
  · rw [← same_cells, ← drained_congr same_core same_tiles q]
    exact cells k

end Sys2Proof.Machine
end

section
/-! MDRAIN: the value of one drained cell in each mode (R76, R77, R78, R235, R236), and the run of the instruction (R234). -/
namespace Sys2Proof.Machine

/-! One cell. -/

/-- An integer clamped to a descriptor's range, with SAT where that changes it (R72, R235). -/
def satResult (d : Desc) (x : Int) : Nat × FlagSet :=
  if x < intMin d then (low d.w (intMin d), 0x20) else if intMax d < x then (low d.w (intMax d), 0x20) else (low d.w x, 0)

theorem clamp_eq_satResult (d : Desc) (x : Int) :
    (wrap d.w (clampInt d x), (if clampInt d x = x then 0 else fSat : FlagSet)) = satResult d x := by
  unfold satResult
  rw [clampInt_eq]
  by_cases under : x < intMin d
  · simp only [under, if_true, under.ne']
    rfl
  · by_cases above : intMax d < x
    · simp only [under, above, if_true, if_false, above.ne]
      rfl
    · simp only [under, above, if_true, if_false]
      rfl

theorem signedOf_eq_toInt {w v : Nat} (positive : 0 < w) (below : v < 2 ^ w) : signedOf w v = (BitVec.ofNat w v).toInt := by
  have double : 2 ^ w = 2 * 2 ^ (w - 1) := by rw [← Nat.pow_succ', Nat.succ_eq_add_one, Nat.sub_add_cancel positive]
  rw [BitVec.toInt_eq_toNat_cond, BitVec.toNat_ofNat, Nat.mod_eq_of_lt below, signedOf]
  by_cases low : 2 ^ (w - 1) ≤ v
  · rw [if_pos low, if_neg (by omega)]
    norm_cast
  · rw [if_neg low, if_pos (by omega)]

section
variable {s : State} {q : Drain} {vd t i j e : Nat}

theorem cellAt_of_cold (cold : s.h.hot = []) (core : Nat) : cellAt s core i j = sget 0 s.acc (cellKey core i j) := by
  simp [cellAt, cold]

/-- A cell of a saved image (R238). -/
theorem imageCell_of_cold (cold : s.h.hot = []) (n k : Nat) : imageCell s n t k i j = (vreg s n).first.elim 0 (fun p =>
    if 64 * k + i / 4 < s.h.csr.rows then
      (BitVec.ofNat 40 (bitsAt s ⟨s.h.core + t, physRow s (s.h.core + t) (64 * k + i / 4), 256 * (i % 4) + j⟩ p 40)).toInt
    else 0) := by
  unfold imageCell
  simp only [cold, List.contains_nil, Bool.false_eq_true, if_false, signedOf_eq_toInt (w := 40) (by decide) (bitsAt_lt ..)]
  cases (vreg s n).first <;> rfl

/-- What ADDP adds to the integer modes. -/
def drainPrior (s : State) (q : Drain) (vd e : Nat) : Int := if q.addp then intVal q.dd (elemBits s vd q.dd.w e) else 0

/-- V of a cell (R235). -/
def drainValue (s : State) (t i j : Nat) : Int :=
  cellVal (cellAt s (s.h.core + t) i j) - tableInt s (s.h.core + t) 2 j - tableInt s (s.h.core + t) 3 i

theorem drainCell_int (mode : q.mode = 0) : drainCell s q t i j e vd =
    ((satResult q.dd (drainValue s t i j + drainPrior s q vd e)).1, (satResult q.dd (drainValue s t i j + drainPrior s q vd e)).2, false) := by
  rw [← clamp_eq_satResult]
  unfold drainCell
  simp only [mode]
  rfl

/-- The requantised value, rounded (R235). -/
def drainRounded (s : State) (q : Drain) (t i j e : Nat) : Int :=
  let x := drainValue s t i j * tableInt s (s.h.core + t) 0 j
  let y := roundAt q.rm (decide (x < 0)) x.natAbs (-(tableInt s (s.h.core + t) 1 j)) 0 false (drawZ s e)
  if x < 0 then -(y.1 : Int) else y.1

theorem drainCell_rq (mode : q.mode = 1) : drainCell s q t i j e vd =
    ((satResult q.dd (drainRounded s q t i j e + tableInt s (s.h.core + t) 4 j + drainPrior s q vd e)).1,
      (satResult q.dd (drainRounded s q t i j e + tableInt s (s.h.core + t) 4 j + drainPrior s q vd e)).2, true) := by
  have rounds : drainRounded s q t i j e = (roundInt q.rm (drawZ s e) (decide (drainValue s t i j * tableInt s (s.h.core + t) 0 j < 0))
      (drainValue s t i j * tableInt s (s.h.core + t) 0 j).natAbs (-(tableInt s (s.h.core + t) 1 j)) false).1 := by
    unfold drainRounded roundInt
    simp only [decide_eq_true_eq]
  rw [rounds, ← clamp_eq_satResult]
  unfold drainCell
  simp only [mode]
  rfl

/-- The numerator of a .flt drain (R76, R236). -/
def drainNum (s : State) (q : Drain) (t i j : Nat) : Int :=
  if q.sliced then
    ((List.range (max (mcfgSa s) (mcfgSb s))).map (fun d =>
      (if d + 1 = max (mcfgSa s) (mcfgSb s) then cellVal (cellAt s (s.h.core + t) i j)
        else if d < 4 then imageCell s q.va t d i j else imageCell s q.vb t (d - 4) i j) *
      2 ^ (8 * (mcfgSa s + mcfgSb s - 2 - d)))).sum * tableInt s (s.h.core + t) 0 j
  else drainValue s t i j * tableInt s (s.h.core + t) 0 j

/-- Its exponent. -/
def drainScale (s : State) (q : Drain) (t i j : Nat) : Int :=
  if q.sliced then
    tableInt s (s.h.core + t) 5 i + tableInt s (s.h.core + t) 6 j - (8 * (mcfgSa s + mcfgSb s) : Nat) + 2 - tableInt s (s.h.core + t) 1 j
  else tableInt s (s.h.core + t) 5 i + tableInt s (s.h.core + t) 6 j + q.ua + q.ub - tableInt s (s.h.core + t) 1 j

/-- Whether it delivers a NaN (R76, R77). -/
def drainNan (s : State) (q : Drain) (t i j : Nat) : Bool :=
  if q.sliced then marked s (s.h.core + t) 7 i || marked s (s.h.core + t) 8 j
  else decide (tableInt s (s.h.core + t) 5 i = -32768) || decide (tableInt s (s.h.core + t) 6 j = -32768)

theorem drainExact_eq : drainExact s q t i j =
    if drainNan s q t i j then .error (if q.sliced then fNv else 0)
    else .ok (FVal.ofScaled (drainNum s q t i j) (drainScale s q t i j)) := by
  unfold drainExact drainNan drainNum drainScale
  cases sliced : q.sliced with
  | true => simp only [if_true, foldl_add_map, Int.zero_add]
  | false =>
    simp only [Bool.false_eq_true, if_false, Bool.or_eq_true, decide_eq_true_eq]
    rfl

theorem drainCell_flt (mode : q.mode = 2) : drainCell s q t i j e vd =
    if drainNan s q t i j then (canonNan q.dd.fmt, if q.sliced then fNv else 0, false)
    else
      let w := roundW (FVal.ofScaled (drainNum s q t i j) (drainScale s q t i j))
      let r := rounded q.dd.fmt q.rm (drawZ s e)
        (if q.addp then (decodeFloat q.dd.fmt (elemBits s vd q.dd.w e)).add q.rm w else (w, 0))
      (r.1, r.2, true) := by
  unfold drainCell
  rw [drainExact_eq]
  simp only [mode]
  cases drainNan s q t i j <;> rfl

end

end Sys2Proof.Machine
end

section
/-! MDRAIN: its checks and its run (R134, R222, R234, R402, R403). -/
namespace Sys2Proof.Machine

section
variable (c : Ctl) (o : V3) (s : State)

/-- The drain that MDRAIN's fields describe. -/
def drainOf : Drain :=
  { mode := c.imm.toNat / 65536 % 4, i0 := c.imm.toNat % 256, n := c.imm.toNat / 256 % 256 + 1, row := c.rowa.toNat
    addp := c.imm.getLsbD 19, clr := c.imm.getLsbD 20, sliced := c.imm.toNat / 65536 % 4 == 2 && mcfgMode s == 2, rm := rmOf c s
    dd := descOf c s .d, ua := drainExp (descOf c s .a).fmt, ub := drainExp (descOf c s .b).fmt, va := o.va.toNat, vb := o.vb.toNat }

/-- The registers that it names. -/
def drainNames : List Named :=
  (if (drainOf c o s).sliced && decide (1 < max (mcfgSa s) (mcfgSb s)) then [srcNamed o.va 41] else []) ++
    (if (drainOf c o s).sliced && decide (5 < max (mcfgSa s) (mcfgSb s)) then [srcNamed o.vb 41] else []) ++
    [if c.imm.getLsbD 19 then srcNamed o.vd (descOf c s .d).w else dstNamed c o.vd (descOf c s .d).w]

/-- The same as operands. -/
def drainOps : List (BitVec 6 × Nat) :=
  (if (drainOf c o s).sliced && decide (1 < max (mcfgSa s) (mcfgSb s)) then [(o.va, 41)] else []) ++
    (if (drainOf c o s).sliced && decide (5 < max (mcfgSa s) (mcfgSb s)) then [(o.vb, 41)] else []) ++
    [(o.vd, (descOf c s .d).w)]

end

section
variable {c : Ctl} {o : V3} {s : State}

theorem drainNames_ops : Names (drainNames c o s) (drainOps c o s) := by
  unfold drainNames drainOps
  have image (b : Bool) (v : BitVec 6) : Names (if b then [srcNamed v 41] else []) (if b then [(v, 41)] else []) := by
    cases b with
    | false => exact .nil
    | true => exact .cons ⟨rfl, rfl, le_rfl⟩ .nil
  refine List.rel_append (List.rel_append (image _ _) (image _ _)) (.cons ?_ .nil)
  cases c.imm.getLsbD 19 <;> exact ⟨rfl, rfl, le_rfl⟩

/-- VA and VB of a .flt drain outside SLICED are reserved (R134, R236). -/
theorem mdrain_reserved (flt : (drainOf c o s).mode = 2) (whole : (drainOf c o s).sliced = false) (named : o.va ≠ 0 ∨ o.vb ≠ 0) :
    Raises (.mdrain c o) 2 4 (illegalEaddr (.mdrain c o)) s := by
  have run : exec (.mdrain c o) s = execMdrain c o s := rfl
  have refused : ((drainOf c o s).mode == 2 && !(drainOf c o s).sliced && (o.va != 0 || o.vb != 0)) = true := by
    rw [flt, whole]
    simpa using named
  unfold Raises
  rw [run, exec_trapEntry (by decide)]
  exact if_pos refused

theorem drainTrap_none {q : Drain} (unfolded : s.h.csr.fold = 1) (cells : q.i0 + q.n ≤ 256) (rows : q.row + q.n ≤ s.h.csr.rows)
    (accepted : if q.mode = 2 then fpDesc q.dd = true else intDesc q.dd = true) : drainTrap c s q = none := by
  have fits : ¬256 < q.i0 + q.n := by omega
  have granted : ¬s.h.csr.rows < q.row + q.n := by omega
  unfold drainTrap
  by_cases flt : q.mode = 2
  · rw [if_pos flt] at accepted
    simp [foldTrap, rowsTrap, arithTrap, trapIf, firstSome, unfolded, fits, granted, flt, accepted]
  · rw [if_neg flt] at accepted
    simp [foldTrap, rowsTrap, arithTrap, trapIf, firstSome, unfolded, fits, granted, flt, accepted]

/-- A drain that passes its checks. -/
theorem mdrain_run (lawful : (drainOf c o s).mode = 2 → (drainOf c o s).sliced = false → o.va = 0 ∧ o.vb = 0)
    (usable : Usable s (drainOps c o s)) (wfD : (descOf c s .d).wf = true)
    (wf : (drainOf c o s).mode = 2 → (drainOf c o s).sliced = false → (descOf c s .a).wf = true ∧ (descOf c s .b).wf = true)
    (checks : drainTrap c s (drainOf c o s) = none) :
    exec (.mdrain c o) s = .next (drainCore c (drainOf c o s) o.vd.toNat (touchRegs s (drainNames c o s))) := by
  have run : exec (.mdrain c o) s = execMdrain c o s := rfl
  have allowed : ¬(((drainOf c o s).mode == 2 && !(drainOf c o s).sliced && (o.va != 0 || o.vb != 0)) = true) := by
    simp only [Bool.and_eq_true, beq_iff_eq, Bool.not_eq_true', Bool.or_eq_true, bne_iff_ne]
    rintro ⟨⟨flt, whole⟩, named⟩
    obtain ⟨va, vb⟩ := lawful flt whole
    exact named.elim (fun h => h va) (fun h => h vb)
  have frame : execMdrain c o s = vecFrame c s (if (drainOf c o s).mode == 2 && !(drainOf c o s).sliced then [.a, .b, .d] else [.d]) true
      (drainNames c o s) none (drainTrap c s (drainOf c o s)) (drainCore c (drainOf c o s) o.vd.toNat) := if_neg allowed
  rw [run, frame, checks, vecFrame_prepared _ (usable.prepared drainNames_ops) (fun x hx => ?_) rfl rfl]
  split at hx
  · next whole =>
    simp only [Bool.and_eq_true, beq_iff_eq, Bool.not_eq_true'] at whole
    obtain ⟨wfA, wfB⟩ := wf whole.1 whole.2
    simp only [List.mem_cons, List.not_mem_nil, or_false] at hx
    rcases hx with rfl | rfl | rfl
    · exact wfA
    · exact wfB
    · exact wfD
  · rw [List.mem_singleton.mp hx]
    exact wfD

end

end Sys2Proof.Machine
end

section
namespace Sys2Proof.Machine

theorem any_range_below (n : Nat) (p : Nat → Bool) : (List.range n).any (fun e => decide (e < n) && p e) = (List.range n).any p := by
  rw [Bool.eq_iff_iff]
  simp only [List.any_eq_true, List.mem_range, Bool.and_eq_true, decide_eq_true_eq]
  exact exists_congr fun e => ⟨fun ⟨below, _, h⟩ => ⟨below, h⟩, fun ⟨below, h⟩ => ⟨below, below, h⟩⟩

end Sys2Proof.Machine

open Sys2Proof Sys2Proof.Machine

/-- Settles O21: the places of a drain are the elements it reaches, in order, and each mode's value of a cell is the statement's. -/
theorem drainResults : Obligations.DrainResults := by
  unfold Obligations.DrainResults
  intro c o s clean clean_acc cold canon g granted unfolded D mode sliced sa sb i0 n addp clr rm l per core row i j drains ent acc v prior
    p lo hi sat u image diag num exp nan w r on names
  have sliced_iff : (drainOf c o s).sliced = true ↔ sliced := by
    simp only [drainOf, Bool.and_eq_true, beq_iff_eq]
    rfl
  have whole_iff : (drainOf c o s).sliced = false ↔ ¬sliced := by rw [← sliced_iff, Bool.not_eq_true]
  refine ⟨fun flt whole named => ⟨_, mdrain_reserved flt (whole_iff.mpr whole) named⟩, fun modes lawful formats usable cells rows => ?_⟩
  have names_eq : names = drainOps c o s := by
    unfold drainOps
    simp only [Bool.and_eq_true, sliced_iff, decide_eq_true_eq]
    rfl
  have image_eq (m : BitVec 6) (k e : Nat) : image m k e = imageCell s m.toNat (tileOf s e) k (i e) (j e) := by
    rw [imageCell_of_cold cold]
    simp only [image]
    cases (vreg s m.toNat).first <;> rfl
  have value_eq (e : Nat) : v e = drainValue s (tileOf s e) (i e) (j e) := by
    rw [drainValue, cellAt_of_cold cold]
    rfl
  have num_eq (e : Nat) : num e = drainNum s (drainOf c o s) (tileOf s e) (i e) (j e) := by
    unfold drainNum
    simp only [sliced_iff, num, diag, image_eq, value_eq, cellAt_of_cold cold]
    rfl
  have exp_eq (e : Nat) : exp e = drainScale s (drainOf c o s) (tileOf s e) (i e) (j e) := by
    unfold drainScale
    simp only [sliced_iff]
    rfl
  have nan_eq (e : Nat) : nan e = drainNan s (drainOf c o s) (tileOf s e) (i e) (j e) := by
    unfold drainNan
    simp only [sliced_iff]
    rfl
  have result (e : Nat) : drainResult s (drainOf c o s) o.vd.toNat e =
      ((r e).1, (r e).2, mode == 1 || (mode == 2 && !nan e)) := by
    have mode_cases : mode = 0 ∨ mode = 1 ∨ mode = 2 := by omega
    have cell : drainResult s (drainOf c o s) o.vd.toNat e =
        drainCell s (drainOf c o s) (tileOf s e) (i e) (j e) e o.vd.toNat := rfl
    rw [cell]
    rcases mode_cases with int | rq | flt
    · have same : r e = satResult D (drainValue s (tileOf s e) (i e) (j e) + drainPrior s (drainOf c o s) o.vd.toNat e) := by
        simp only [r, if_pos int, value_eq]
        rfl
      rw [drainCell_int int, same, int]
      rfl
    · have same : r e = satResult D (drainRounded s (drainOf c o s) (tileOf s e) (i e) (j e) e + ent 4 e +
          drainPrior s (drainOf c o s) o.vd.toNat e) := by
        simp only [r, rq, if_neg one_ne_zero, if_true, value_eq]
        rfl
      rw [drainCell_rq rq, same, rq]
      rfl
    · have same : r e = if nan e then (canonNan D.fmt, if sliced then (0x10 : FlagSet) else 0)
          else rounded D.fmt rm (drawZ s e) (if addp then (decodeFloat D.fmt (prior e)).add rm (w e) else (w e, 0)) := by
        simp only [r, flt]
        rfl
      have not_rq : (mode == 1) = false := beq_false_of_ne fun rq => absurd (flt.symm.trans rq) (by decide)
      rw [drainCell_flt flt, ← nan_eq, ← num_eq, ← exp_eq, same, not_rq, beq_iff_eq.mpr flt]
      cases nan e with
      | true =>
        simp only [if_true, sliced_iff]
        rfl
      | false => rfl
  have accepted : D.wf = true ∧ (if mode = 2 then fpDesc D = true else intDesc D = true) ∧
      (mode = 2 → ¬sliced → (descOf c s .a).wf = true ∧ (descOf c s .b).wf = true) := by
    split at formats
    · next flt => exact ⟨formats.1.1, by rw [if_pos flt]; exact formats.1.accepted, fun _ => formats.2⟩
    · next int => exact ⟨formats.1, by rw [if_neg int]; exact IntOp.accepted formats, fun flt => absurd flt int⟩
  obtain ⟨wfD, fits_mode, wf⟩ := accepted
  obtain ⟨-, -, q, first, fits⟩ := usable.1 (o.vd, D.w) (by simp [names])
  obtain ⟨t, run, left, referenced, written, flags, draws, cleared⟩ := drain_writes (q := drainOf c o s) (vd := o.vd.toNat)
    (mdrain_run (fun flt whole => lawful flt (whole_iff.mp whole)) (names_eq ▸ usable) wfD (fun flt whole => wf flt (whole_iff.mp whole))
      (drainTrap_none unfolded cells rows fits_mode)) drainNames_ops clean clean_acc cold g granted rows first fits
  simp only [result] at written flags draws
  refine ⟨t, run, left, names_eq ▸ referenced, written, fun k hk => ?_, ?_, fun k => ?_⟩
  · rw [flags k hk, drainCf_eq canon cells, ← any_range_below]
    simp only [← Bool.and_assoc]
    rfl
  · simp only [← Bool.and_assoc] at draws
    exact draws
  · rw [cleared k]
    simp only [drained, Bool.and_eq_true, decide_eq_true_eq, and_assoc]
    rfl
end

section
/-! The stored form (R88) along a step, first part: what keeps it, and the operations on the state, on rows and on the strip. Each lemma
says it once for one function of the model: one that writes no memory keeps it exactly where it was kept before (`↔`), one that may write
memory keeps it where it was (`→`). -/
namespace Sys2Proof.Machine

/-- What pre-empted gangs have saved of their scratchpads has the canonical form. -/
def SavedWf (gs : List Gang) : Prop := ∀ g ∈ gs, ∀ v, g.saved = some v → Memory.wf v.scratch = true

/-- The canonical form of all stored bytes: memory, and the scratchpad contents that a pre-emption saved (R88). -/
def StoredWf (s : State) : Prop := Memory.wf s.mem = true ∧ SavedWf s.gangs

/-- On the way from `a` to `s` the stored form was kept, and the assignment of the dies has not moved (R326). -/
structure Keeps (a s : State) : Prop where
  stored : StoredWf a → StoredWf s
  dieMap : s.dieMap = a.dieMap
  dieChange : s.dieChange = a.dieChange

/-- Where the outcome is a next state, it has kept what `Keeps` says. -/
def KeepsOut (a : State) (o : Out) : Prop := ∀ t, o = .next t → Keeps a t

theorem Keeps.refl (s : State) : Keeps s s := ⟨id, rfl, rfl⟩

theorem Keeps.trans {a s t : State} (h : Keeps a s) (k : Keeps s t) : Keeps a t :=
  ⟨k.stored ∘ h.stored, k.dieMap.trans h.dieMap, k.dieChange.trans h.dieChange⟩

variable {a : State}

/-- A state with the same stored bytes and dies. -/
theorem keeps_congr {s t : State} (mem : t.mem = s.mem) (gangs : t.gangs = s.gangs) (map : t.dieMap = s.dieMap)
    (change : t.dieChange = s.dieChange) : Keeps a t ↔ Keeps a s := by
  have same : StoredWf t ↔ StoredWf s := by simp only [StoredWf, mem, gangs]
  constructor <;> rintro ⟨h, m, c⟩
  · exact ⟨same.mp ∘ h, map ▸ m, change ▸ c⟩
  · exact ⟨same.mpr ∘ h, map ▸ m, change ▸ c⟩

/-- New contents of memory that have the form where the old ones have it. -/
theorem Keeps.setMem {s t : State} (h : Keeps a s) (mem : StoredWf a → Memory.wf s.mem = true → Memory.wf t.mem = true)
    (gangs : t.gangs = s.gangs) (map : t.dieMap = s.dieMap) (change : t.dieChange = s.dieChange) : Keeps a t :=
  ⟨fun wf => ⟨mem wf (h.stored wf).1, gangs ▸ (h.stored wf).2⟩, map.trans h.dieMap, change.trans h.dieChange⟩

/-- Bytes stored in memory. -/
theorem Keeps.putBytes {s t : State} (h : Keeps a s) {lo : Nat} {bs : List Byte} (mem : t.mem = putBytes s.mem lo bs)
    (gangs : t.gangs = s.gangs) (map : t.dieMap = s.dieMap) (change : t.dieChange = s.dieChange) : Keeps a t :=
  h.setMem (fun _ wf => mem ▸ canonical_putBytes lo bs wf) gangs map change

/-- A new list of gangs whose saved scratchpads have the form where those of the old one have it. -/
theorem Keeps.setGangs {s t : State} (h : Keeps a s) (gangs : StoredWf a → StoredWf s → SavedWf t.gangs)
    (mem : t.mem = s.mem) (map : t.dieMap = s.dieMap) (change : t.dieChange = s.dieChange) : Keeps a t :=
  ⟨fun wf => ⟨mem ▸ (h.stored wf).1, gangs wf (h.stored wf)⟩, map.trans h.dieMap, change.trans h.dieChange⟩

@[simp] theorem keepsOut_next (t : State) : KeepsOut a (.next t) ↔ Keeps a t := by
  simp [KeepsOut]

@[simp] theorem keepsOut_refused (r : Refusal) : KeepsOut a (.refused r) := by
  simp [KeepsOut]

@[simp] theorem keepsOut_ite (c : Prop) [Decidable c] (o p : Out) :
    KeepsOut a (if c then o else p) ↔ if c then KeepsOut a o else KeepsOut a p := by
  split <;> rfl

@[simp] theorem keeps_ite (c : Prop) [Decidable c] (s t : State) :
    Keeps a (if c then s else t) ↔ if c then Keeps a s else Keeps a t := by
  split <;> rfl

@[simp] theorem keeps_fst_ite {β : Type} (c : Prop) [Decidable c] (p q : State × β) :
    Keeps a (if c then p else q).1 ↔ if c then Keeps a p.1 else Keeps a q.1 := by
  split <;> rfl

/-- A change of anything but the stored bytes and the dies. -/
@[simp] theorem keeps_mk (cyc free : Nat) (agenda : List Pick) (calendar : List (Nat × Event)) (fresh : Nat) (h : Hart)
    (others : List Hart) (parts : Vector Part 4) (planes : Sparse (BitVec 1024)) (acc : Sparse (BitVec 41)) (s : State)
    (tables templates : Sparse Word) (bufs : Sparse TileBuf) (bufLandings : List BufLanding) (cvtab : Sparse (BitVec 16))
    (icache : Sparse (BitVec 33)) (lastServed : Sparse (Nat × Nat)) (copies : List Copy) (sweeps : List Sweep) (ramps : Sparse Ramp)
    (engines : Sparse Nat) (bins : List BinPair) (binFree : Sparse Nat) (coachOps : List CoachOp) (requests : List Request)
    (records : List Record) (migrations : List Migration) (replicas : List Replica) (stamps : Sparse (Nat × Nat × Nat × Nat))
    (writers : Sparse Nat) (caches : Caches) (locked : Sparse Word) (dieStat : Word) (shareReg : Word) (hostLink : Sparse Nat)
    (stver : Nat) (pfMsix : Sparse Word) (dbgCmd : Word) (dbgData : Vector Word 8) (dbgGang : Word) (monitors : Sparse MonUnit)
    (monBefore : List MonBefore) (poisonLane poisonWord poisonAcc poisonHbm : Sparse Bool) (corrections : Sparse (List Nat))
    (failedRows fencedRows : Sparse Bool) (merge : Sparse Nat) (armed : List Armed) (drowsy : Sparse Bool) (touched : Sparse Nat)
    (diesOut stalled powerStalled : List Nat) (fuseKey : BitVec 256) (bootOk bootFailed : Bool) (measures : Vector (BitVec 256) 8)
    (attCount : Nat) (msgs : List (Nat × Nat × Bool)) (hostData : List (List Byte)) :
    Keeps a { cyc, free, agenda, calendar, fresh, h, others, gangs := s.gangs, parts, mem := s.mem, planes, acc, tables, templates, bufs,
              bufLandings, cvtab, icache, lastServed, copies, sweeps, ramps, engines, bins, binFree, coachOps, requests, records,
              migrations, replicas, stamps, writers, caches, locked, dieMap := s.dieMap, dieStat, dieChange := s.dieChange, shareReg,
              hostLink, stver, pfMsix, dbgCmd, dbgData, dbgGang, monitors, monBefore, poisonLane, poisonWord, poisonAcc, poisonHbm,
              corrections, failedRows, fencedRows, merge, armed, drowsy, touched, diesOut, stalled, powerStalled, fuseKey, bootOk,
              bootFailed, measures, attCount, msgs, hostData } ↔ Keeps a s := keeps_congr rfl rfl rfl rfl

/-- A fold whose steps keep the form exactly where it was kept. -/
@[simp] theorem foldl_keeps {α : Type} {f : State → α → State} (hf : ∀ s x, Keeps a (f s x) ↔ Keeps a s) (l : List α) (s : State) :
    Keeps a (l.foldl f s) ↔ Keeps a s :=
  List.foldlRecOn l f (motive := fun t => Keeps a t ↔ Keeps a s) Iff.rfl (fun t ht x _ => (hf t x).trans ht)

/-- A fold whose steps keep the form where it was kept. -/
theorem Keeps.foldl {α : Type} {f : State → α → State} {s : State} (h : Keeps a s) (l : List α)
    (hf : ∀ s x, Keeps a s → Keeps a (f s x)) : Keeps a (l.foldl f s) :=
  List.foldlRecOn l f (motive := Keeps a) h (fun t ht x _ => hf t x ht)

@[simp] theorem foldl_fst_keeps {α β : Type} {f : State × β → α → State × β} (hf : ∀ q x, Keeps a (f q x).1 ↔ Keeps a q.1)
    (l : List α) (q : State × β) : Keeps a (l.foldl f q).1 ↔ Keeps a q.1 :=
  List.foldlRecOn l f (motive := fun t => Keeps a t.1 ↔ Keeps a q.1) Iff.rfl (fun t ht x _ => (hf t x).trans ht)

theorem Keeps.foldl_fst {α β : Type} {f : State × β → α → State × β} {q : State × β} (h : Keeps a q.1) (l : List α)
    (hf : ∀ q x, Keeps a q.1 → Keeps a (f q x).1) : Keeps a (l.foldl f q).1 :=
  List.foldlRecOn l f (motive := fun t => Keeps a t.1) h (fun t ht x _ => hf t x ht)

theorem Keeps.of_eq_mk {α : Type} {q : State × α} {t : State} {x : α} (e : q = (t, x)) (h : Keeps a q.1) : Keeps a t := by
  rwa [e] at h

/-! State, records and traps. -/

@[simp] theorem modH_keeps (s : State) (f : Hart → Hart) : Keeps a (modH s f) ↔ Keeps a s := keeps_congr rfl rfl rfl rfl
@[simp] theorem modCsr_keeps (s : State) (f : Csrs → Csrs) : Keeps a (modCsr s f) ↔ Keeps a s := keeps_congr rfl rfl rfl rfl
@[simp] theorem goTo_keeps (s : State) (pc : Word) : Keeps a (goTo pc s) ↔ Keeps a s := keeps_congr rfl rfl rfl rfl
@[simp] theorem retire_keeps (c : Ctl) (s : State) : Keeps a (retire c s) ↔ Keeps a s := keeps_congr rfl rfl rfl rfl
@[simp] theorem setWork_keeps (s : State) (n : Nat) : Keeps a (setWork s n) ↔ Keeps a s := keeps_congr rfl rfl rfl rfl
@[simp] theorem resetGens_keeps (s : State) : Keeps a (resetGens s) ↔ Keeps a s := keeps_congr rfl rfl rfl rfl
@[simp] theorem orFlags_keeps (s : State) (f : FlagSet) : Keeps a (orFlags s f) ↔ Keeps a s := keeps_congr rfl rfl rfl rfl
@[simp] theorem schedule_keeps (s : State) (cy : Nat) (e : Event) : Keeps a (schedule s cy e) ↔ Keeps a s :=
  keeps_congr rfl rfl rfl rfl
@[simp] theorem sendMsi_keeps (s : State) (fn vec : Nat) : Keeps a (sendMsi s fn vec) ↔ Keeps a s := keeps_congr rfl rfl rfl rfl
@[simp] theorem setX_keeps (s : State) (r : BitVec 5) (v : Word) : Keeps a (setX s r v) ↔ Keeps a s := by
  simp [setX]
@[simp] theorem modHarts_keeps (s : State) (p : Hart → Bool) (f : Hart → Hart) : Keeps a (modHarts s p f) ↔ Keeps a s :=
  keeps_congr rfl rfl rfl rfl


@[simp] theorem modPart_keeps (s : State) (p : Nat) (f : Part → Part) : Keeps a (modPart s p f) ↔ Keeps a s := by
  unfold modPart
  split <;> simp

@[simp] theorem logViolation_keeps (s : State) (p kind agent addr hart gang : Nat) :
    Keeps a (logViolation s p kind agent addr hart gang) ↔ Keeps a s := by
  simp [logViolation]

@[simp] theorem logHost_keeps (s : State) (p : Nat) (d : List Word) : Keeps a (logHost s p d) ↔ Keeps a s := by
  simp [logHost]

@[simp] theorem notice_keeps (s : State) (code : BitVec 8) (agent : Nat) (g : Gang) (hart : Nat) (synd : Word) :
    Keeps a (notice s code agent g hart synd) ↔ Keeps a s := by
  simp [notice]

@[simp] theorem addRecord_keeps (s : State) (r : Record) : Keeps a (addRecord s r) ↔ Keeps a s := by
  simp [addRecord]

/-- A new list of gangs, each of which has saved nothing, or what a gang of the old list has. -/
theorem Keeps.fromGangs {s t : State} (h : Keeps a s) (old : ∀ g ∈ t.gangs, g.saved = none ∨ ∃ x ∈ s.gangs, g.saved = x.saved)
    (mem : t.mem = s.mem) (map : t.dieMap = s.dieMap) (change : t.dieChange = s.dieChange) : Keeps a t := by
  refine h.setGangs (fun _ wf g hg v hv => ?_) mem map change
  rcases old g hg with none | ⟨x, hx, same⟩
  · rw [none] at hv
    cases hv
  · exact wf.2 x hx v (same ▸ hv)

/-- A change of each gang that leaves what it has saved, or drops it. -/
theorem Keeps.mapGangs {s t : State} (h : Keeps a s) {f : Gang → Gang} (hf : ∀ g, (f g).saved = g.saved ∨ (f g).saved = none)
    (gangs : t.gangs = s.gangs.map f) (mem : t.mem = s.mem) (map : t.dieMap = s.dieMap) (change : t.dieChange = s.dieChange) :
    Keeps a t := by
  refine h.fromGangs (fun g hg => ?_) mem map change
  rw [gangs] at hg
  obtain ⟨x, hx, rfl⟩ := List.mem_map.mp hg
  exact (hf x).symm.imp id fun same => ⟨x, hx, same⟩

/-- A change of one gang that leaves what it has saved, or drops it. -/
@[simp] theorem modGang_keeps {s : State} (h : Keeps a s) (id : Nat) {f : Gang → Gang}
    (hf : ∀ g, (f g).saved = g.saved ∨ (f g).saved = none) : Keeps a (modGang s id f) :=
  h.mapGangs (f := fun g => if g.id == id && g.st != .retired && g.st != .faulted then f g else g)
    (fun g => by
      split
      · exact hf g
      · exact .inl rfl) rfl rfl rfl rfl

@[simp] theorem strike_keeps (s : State) (space key : Nat) : Keeps a (strike s space key) ↔ Keeps a s := by
  unfold strike
  split
  · rfl
  · split <;> simp

@[simp] theorem endGang_keeps {s : State} (h : Keeps a s) (g : Nat) : Keeps a (endGang s g) := by
  simp [endGang, h]

@[simp] theorem timingTrap_keeps {s : State} (h : Keeps a s) (g : Gang) (x : Hart) (c1 : Nat) : Keeps a (timingTrap s g x c1) := by
  simp [timingTrap, h]

@[simp] theorem trapUnhandled_keeps {s : State} (h : Keeps a s) (t : Trap) : Keeps a (trapUnhandled s t) := by
  simp [trapUnhandled, h]

@[simp] theorem takeTrap_keeps {s : State} (h : Keeps a s) (t : Trap) : Keeps a (takeTrap s t) := by
  simp [takeTrap, h]

@[simp] theorem raise_keeps {s : State} (h : Keeps a s) (cls code : BitVec 8) (eaddr : Word) : KeepsOut a (raise s cls code eaddr) := by
  simp [raise, h]

@[simp] theorem checked_keeps {s k : State} (h : Keeps a s) (hk : Keeps a k) (t : Option Trap) : KeepsOut a (checked t s k) := by
  cases t <;> simp [checked, h, hk]

@[simp] theorem takeInterrupt_keeps (s : State) (q : Irq) : Keeps a (takeInterrupt s q) ↔ Keeps a s := by
  simp [takeInterrupt]

@[simp] theorem resumeRecords_keeps {s : State} {o : Out} (h : KeepsOut a o) : KeepsOut a (resumeRecords s o) := by
  cases o with
  | next t => simpa [resumeRecords] using h
  | fault f => exact h
  | refused f => exact h

@[simp] theorem poisonEnd_keeps {s : State} (h : Keeps a s) (addr : Word) : Keeps a (poisonEnd s addr) := by
  simp [poisonEnd, h]

/-! Rows of the register planes. -/

@[simp] theorem markRow_keeps (s : State) (core row p d : Nat) (lanes : List (Nat × Nat × Bool)) :
    Keeps a (markRow s core row p d lanes) ↔ Keeps a s := by
  simp [markRow]

@[simp] theorem strikeRow_keeps (s : State) (core row p d : Nat) (lanes : List (Nat × Nat × Bool)) :
    Keeps a (strikeRow s core row p d lanes) ↔ Keeps a s := by
  simp [strikeRow]

@[simp] theorem writeRow_keeps (s : State) (core row p d : Nat) (lanes : List (Nat × Nat × Bool)) :
    Keeps a (writeRow s core row p d lanes) ↔ Keeps a s := by
  simp [writeRow]

@[simp] theorem writeRows_keeps (s : State) (p d : Nat) (rs : List Nat) (items : List Item) :
    Keeps a (writeRows s p d rs items) ↔ Keeps a s := by
  induction rs generalizing s items with
  | nil => rfl
  | cons r rs ih => rw [writeRows, ih, writeRow_keeps]

@[simp] theorem writeElems_keeps (s : State) (n w : Nat) (sgn : Bool) (items : List Item) :
    Keeps a (writeElems s n w sgn items) ↔ Keeps a s := by
  unfold writeElems
  split
  · exact writeRows_keeps ..
  · rfl

@[simp] theorem writePred_keeps (s : State) (p : Nat) (items : List Item) : Keeps a (writePred s p items) ↔ Keeps a s := by
  simp [writePred]

@[simp] theorem advanceGens_keeps (s : State) (es : List Nat) : Keeps a (advanceGens s es) ↔ Keeps a s := by
  simp [advanceGens]

/-! Tile buffers and the strip. -/

@[simp] theorem setBuf_keeps (s : State) (cl n : Nat) (b : TileBuf) : Keeps a (setBuf s cl n b) ↔ Keeps a s := by
  simp [setBuf]

theorem checkBuffers_keeps {s t : State} {ns : List (Nat × Nat)} (e : checkBuffers s ns = .ok t) : Keeps a t ↔ Keeps a s := by
  unfold checkBuffers at e
  split at e
  · cases e
  · cases e
    simp

theorem tagCheck_keeps {s t : State} {cl lo hi : Nat} (e : tagCheck s cl lo hi = .ok t) : Keeps a t ↔ Keeps a s :=
  checkBuffers_keeps e

@[simp] theorem putWord_keeps {s : State} (h : Keeps a s) (g : Nat) (v : Word) (poison : Bool) : Keeps a (putWord s g v poison) :=
  (strike_keeps ..).mpr (h.putBytes rfl rfl rfl rfl)

@[simp] theorem redecode_keeps (q : Streamed) (upto : Nat) (s : State) : Keeps a (redecode q upto s) ↔ Keeps a s := by
  unfold redecode
  dsimp only
  split
  · rfl
  · simp

@[simp] theorem reland_keeps (s : State) (r : StripRead) (v : Word) : Keeps a (reland s r v) ↔ Keeps a s := by
  unfold reland
  dsimp only
  rw [foldl_keeps]
  · split <;> simp
  · intro s p
    split
    · rfl
    · split <;> simp

@[simp] theorem rebindReads_keeps (tile : Bool) (g q cap capAll : Nat) (rs : List StripRead) (s : State) :
    Keeps a (rebindReads tile g q cap capAll rs s).2 ↔ Keeps a s := by
  induction rs generalizing cap capAll s with
  | nil => rfl
  | cons r rs ih =>
    unfold rebindReads
    split
    · exact ih ..
    · simp [ih]

@[simp] theorem storeAt_keeps {s : State} (h : Keeps a s) (tile glued : Bool) (g q : Nat) (mask v : Word) (poison : Bool) :
    Keeps a (storeAt s tile glued g q mask v poison) := by
  simp [storeAt, h]

@[simp] theorem stripStore_keeps {s : State} (h : Keeps a s) (tile : Bool) (g : Nat) (mask v : Word) (poison : Bool) :
    Keeps a (stripStore s tile g mask v poison) := by
  simp [stripStore, h]

@[simp] theorem noteWords_keeps (s : State) (gs : List Nat) : Keeps a (noteWords s gs) ↔ Keeps a s := by
  simp [noteWords]

@[simp] theorem closeStrip_keeps (s : State) : Keeps a (closeStrip s) ↔ Keeps a s := by
  simp [closeStrip]

@[simp] theorem violation_keeps (s : State) (kind addr : Nat) : Keeps a (violation s kind addr) ↔ Keeps a s := by
  simp [violation]

@[simp] theorem scalarWrite_keeps {s : State} (h : Keeps a s) (ea : Word) (vs : List Word) : Keeps a (scalarWrite s ea vs) := by
  unfold scalarWrite
  split
  · simp [h]
  · exact h
  · simp [h]
  · simp [h]
  · exact h.foldl _ fun s i hs => stripStore_keeps hs ..

@[simp] theorem noteLoad_keeps (s : State) (ea : Word) (n : Nat) (r : BitVec 5) : Keeps a (noteLoad s ea n r) ↔ Keeps a s := by
  unfold noteLoad
  split <;> simp

end Sys2Proof.Machine
end

section
/-! The stored form along a step, second part: accesses to the virtual space, and the swap that makes registers resident. -/
namespace Sys2Proof.Machine

variable {a : State}

/-! The virtual space. -/

@[simp] theorem strikeHbm_keeps (pa n : Nat) (s : State) : Keeps a (strikeHbm pa n s) ↔ Keeps a s := by
  simp [strikeHbm]

@[simp] theorem copyMigrating_keeps {s : State} (h : Keeps a s) (m : Migration) : Keeps a (copyMigrating s m) := by
  unfold copyMigrating
  dsimp only
  rw [strikeHbm_keeps]
  generalize bytesAt _ _ _ = bs
  exact h.putBytes rfl rfl rfl rfl

@[simp] theorem settle_keeps {s : State} (h : Keeps a s) (part asid va : Nat) : Keeps a (settle s part asid va) := by
  unfold settle
  split <;> simp [h]

@[simp] theorem putHbm_keeps {s : State} (h : Keeps a s) (pa : Nat) (bs : List Byte) : Keeps a (putHbm s pa bs) :=
  (strikeHbm_keeps ..).mpr (h.putBytes rfl rfl rfl rfl)

@[simp] theorem applyStamped_keeps {s : State} (h : Keeps a s) (pa : Nat) (bs : List Byte) (st : Nat × Nat × Nat × Nat) :
    Keeps a (applyStamped s pa bs st) := by
  refine h.foldl _ fun s i hs => ?_
  simp [hs]

@[simp] theorem noteLine_keeps (s : State) (part : Nat) (x : Xlat) : Keeps a (noteLine s part x) ↔ Keeps a s := by
  simp [noteLine]

@[simp] theorem startWalk_keeps (s : State) (u t reads : Nat) : Keeps a (startWalk s u t reads).1 ↔ Keeps a s := by
  simp [startWalk]

@[simp] theorem fetchLine_keeps (s : State) (part asid from_ va : Nat) (write : Bool) :
    Keeps a (fetchLine s part asid from_ va write).1 ↔ Keeps a s := by
  unfold fetchLine
  split
  · split <;> simp
  · dsimp only
    split
    · simp
    · simp only [noteLine_keeps]
      split <;> simp

@[simp] theorem dropPage_keeps (s : State) (part asid va : Nat) : Keeps a (dropPage s part asid va) ↔ Keeps a s := by
  simp [dropPage]

@[simp] theorem hbmStore_keeps {s : State} (h : Keeps a s) (part die issuer q : Nat) (x : Xlat) (bs : List Byte) (who : Nat × Nat) :
    Keeps a (hbmStore s part die issuer q x bs who) := by
  unfold hbmStore
  split
  · exact putHbm_keeps h ..
  · dsimp only
    split
    · exact ((foldl_keeps (fun s d => noteLine_keeps ..) ..).mpr h).foldl _ fun s d hs => putHbm_keeps hs ..
    · rw [foldl_keeps fun s d => by simp]
      exact applyStamped_keeps (by simp [h]) ..

theorem vaRead_keeps {s : State} {part asid die va n : Nat} {tolerant : Bool} {r : State × List Byte}
    (e : vaRead s part asid die va n tolerant = .ok r) (h : Keeps a s) : Keeps a r.1 := by
  refine List.foldlRecOn (cut va n) _
    (motive := fun acc : Except AccessErr (State × List Byte) => ∀ r, acc = .ok r → Keeps a r.1) ?_ ?_ r e
  · rintro _ ⟨⟩
    exact h
  · rintro (e | q) hq p _ r hr
    · cases hr
    · have before := hq _ rfl
      dsimp only at hr
      split at hr
      · cases hr
      · split at hr
        · cases hr
        · cases hr
          simp [before]

@[simp] theorem vaWrite_keeps {s : State} (h : Keeps a s) (part asid die issuer va : Nat) (bs : List Byte) (who : Nat × Nat) :
    Keeps a (vaWrite s part asid die issuer va bs who).1 := by
  refine Keeps.foldl_fst h _ ?_
  rintro ⟨s, _ | e⟩ p hs
  · have hs : Keeps a s := hs
    dsimp only
    split <;> simp [hs]
  · exact hs

theorem swapRead_keeps {s : State} {va n : Nat} {tolerant : Bool} {r : State × List Byte}
    (e : swapRead s va n tolerant = .ok r) (h : Keeps a s) : Keeps a r.1 := vaRead_keeps e h

@[simp] theorem swapPoisonRecord_keeps (s : State) (va : Nat) : Keeps a (swapPoisonRecord s va) ↔ Keeps a s := by
  simp [swapPoisonRecord]

@[simp] theorem swapWrite_keeps {s : State} (h : Keeps a s) (va : Nat) (bs : List Byte) : Keeps a (swapWrite s va bs).1 := by
  simp [swapWrite, h]

/-! Swaps. -/

@[simp] theorem spillRow_keeps {s : State} (h : Keeps a s) (r : VReg) (p tile i : Nat) : Keeps a (spillRow s r p tile i).1 := by
  unfold spillRow
  dsimp only
  split
  · exact .of_eq_mk ‹_› (swapWrite_keeps h ..)
  · have written := Keeps.of_eq_mk ‹_› (swapWrite_keeps h ..)
    refine swapWrite_keeps ?_ ..
    split
    · rw [foldl_keeps]
      · exact written
      · intro s j
        split
        · split <;> simp
        · rfl
    · exact written

@[simp] theorem overRows_keeps {f : State → Nat → Nat → State × Option (BitVec 8 × Nat)}
    (hf : ∀ s t i, Keeps a s → Keeps a (f s t i).1) {s : State} (h : Keeps a s) (rows : List (Nat × Nat)) :
    Keeps a (overRows f s rows).1 := by
  induction rows generalizing s with
  | nil => exact h
  | cons r rows ih =>
    have first := hf s r.1 r.2 h
    unfold overRows
    split <;> simp_all

@[simp] theorem spillReg_keeps {s : State} (h : Keeps a s) (n : Nat) (byIndex : Bool) : Keeps a (spillReg s n byIndex).1 := by
  have rows (r : VReg) (p : Nat) (s : State) (t i : Nat) (hs : Keeps a s) : Keeps a (match spillRow s r p t i with
      | (s, none) => (s, (none : Option (BitVec 8 × Nat)))
      | (s, some e) => (s, some (6, e.va))).1 := by
    split <;> exact .of_eq_mk ‹_› (spillRow_keeps hs ..)
  unfold spillReg
  dsimp only
  split
  · exact h
  · split
    · exact .of_eq_mk ‹_› (overRows_keeps (rows _ _) h _)
    · simpa using Keeps.of_eq_mk ‹_› (overRows_keeps (rows _ _) h _)

@[simp] theorem strikePlanes_keeps (core row p d : Nat) (s : State) : Keeps a (strikePlanes core row p d s) ↔ Keeps a s := by
  simp [strikePlanes]

@[simp] theorem movePlanes_keeps (s : State) (p q d : Nat) : Keeps a (movePlanes s p q d) ↔ Keeps a s := by
  unfold movePlanes
  split
  · rfl
  · rw [foldl_keeps]
    intro s tr
    rw [strikePlanes_keeps, foldl_keeps]
    intro s k
    dsimp only
    split <;> simp

@[simp] theorem compact_keeps (s : State) : Keeps a (compact s) ↔ Keeps a s := by
  unfold compact
  dsimp only
  rw [foldl_fst_keeps]
  rintro ⟨s, q⟩ n
  dsimp only
  split <;> simp

theorem placeRegs_keeps {s t : State} {ns : List Nat} (e : placeRegs s ns = some t) : Keeps a t ↔ Keeps a s := by
  induction ns generalizing s with
  | nil => cases e; rfl
  | cons n ns ih =>
    unfold placeRegs at e
    dsimp only at e
    split at e
    · cases e
    · exact (ih e).trans (modH_keeps ..)

@[simp] theorem setRow_keeps (s : State) (core row p : Nat) (planes : List (BitVec 1024)) (bad : Nat → Nat → Bool) :
    Keeps a (setRow s core row p planes bad) ↔ Keeps a s := by
  simp [setRow]

theorem readRecord_keeps {s : State} {r : VReg} {tile row rlen d : Nat} {q : State × Nat × List Byte × List Bool}
    (e : readRecord s r tile row rlen d = .ok q) (h : Keeps a s) : Keeps a q.1 := by
  unfold readRecord at e
  split at e
  · cases e
  · have dir := swapRead_keeps ‹swapRead s _ _ _ = _› h
    dsimp only at e dir
    split at e
    · cases e
    · split at e
      · cases e
      · have record := swapRead_keeps ‹swapRead _ _ _ true = _› dir
        cases e
        dsimp only at record ⊢
        split <;> simp [record]

@[simp] theorem fillStop_keeps (s : State) (e : BitVec 8 × Nat) : Keeps a (fillStop s e).1 ↔ Keeps a s := by
  simp [fillStop]

@[simp] theorem fillRow_keeps {s : State} (h : Keeps a s) (r : VReg) (p tile i : Nat) : Keeps a (fillRow s r p tile i).1 := by
  unfold fillRow
  dsimp only
  split
  · exact (fillStop_keeps ..).mpr h
  · exact (setRow_keeps ..).mpr (readRecord_keeps ‹_› h)

@[simp] theorem fillByIndex_keeps {s : State} (h : Keeps a s) (r : VReg) (p : Nat) (q : SpillGrant) :
    Keeps a (fillByIndex s r p q).1 := by
  unfold fillByIndex
  dsimp only
  refine overRows_keeps (fun s t i hs => ?_) (by simp [h]) _
  split
  · exact (fillStop_keeps ..).mpr hs
  · have record := readRecord_keeps ‹_› hs
    simpa using record

@[simp] theorem fillReg_keeps {s : State} (h : Keeps a s) (n : Nat) (bare : Bool) : Keeps a (fillReg s n bare).1 := by
  unfold fillReg
  dsimp only
  split
  · exact h
  · split <;>
    · rw [modH_keeps]
      split
      · simp [h]
      · split
        · exact fillByIndex_keeps h ..
        · exact overRows_keeps (fun s t i hs => fillRow_keeps hs ..) h _

@[simp] theorem spillAll_keeps {s : State} (h : Keeps a s) (ns : List Nat) (byIndex : Bool) : Keeps a (spillAll s ns byIndex).1 := by
  refine Keeps.foldl_fst h _ ?_
  rintro ⟨s, _ | e⟩ n hs
  · exact spillReg_keeps hs ..
  · exact hs

@[simp] theorem addSwap_keeps (n : Nat) (s : State) : Keeps a (addSwap n s) ↔ Keeps a s := by
  simp [addSwap]

/-- The fills of a swap, which end at the first fault. -/
theorem fills_keep {q : State × Option (BitVec 8 × Nat)} (h : Keeps a q.1) (ns : List Nat) (placed : State) (bare : Nat → Bool) :
    Keeps a (ns.foldl (fun acc n => match acc with
      | (s, none) =>
        let s := modH s (fun h => setVreg h n { vregAt h n with first := (vreg placed n).first })
        fillReg s n (bare n)
      | bad => bad) q).1 := by
  refine Keeps.foldl_fst h _ ?_
  rintro ⟨s, _ | e⟩ n hs
  · exact fillReg_keeps ((modH_keeps ..).mpr hs) ..
  · exact hs

theorem makeResident_keeps {s t : State} {names : List Named} (e : makeResident s names = .ok t) (h : Keeps a s) : Keeps a t := by
  unfold makeResident at e
  dsimp only at e
  split at e
  · cases e
    exact h
  · split at e
    · cases e
    · have spilled := Keeps.of_eq_mk ‹_› (spillAll_keeps h ..)
      split at e
      · cases e
        simp [spilled]
      · split at e
        · cases e
        · cases e
          exact .of_eq_mk ‹_› (fills_keep (by simp [spilled]) ..)

theorem makeResident_error_keeps {s : State} {names : List Named} {e : State × Trap} (he : makeResident s names = .error e)
    (h : Keeps a s) : Keeps a e.1 := by
  unfold makeResident at he
  dsimp only at he
  split at he
  · cases he
  · split at he
    · cases he
      exact .of_eq_mk ‹_› (spillAll_keeps h ..)
    · have spilled := Keeps.of_eq_mk ‹_› (spillAll_keeps h ..)
      split at he
      · cases he
      · split at he
        · cases he
          exact .of_eq_mk ‹_› (fills_keep (by simp [spilled]) ..)
        · cases he

@[simp] theorem touchRegs_keeps (s : State) (names : List Named) : Keeps a (touchRegs s names) ↔ Keeps a s := by
  simp [touchRegs]

@[simp] theorem vecFrame_keeps {c : Ctl} {s : State} {used : List Opnd} {accept : Bool} {names : List Named} {extra early : Option Trap}
    {k : State → State} (h : Keeps a s) (hk : ∀ s, Keeps a s → Keeps a (k s)) :
    KeepsOut a (vecFrame c s used accept names extra early k) := by
  unfold vecFrame
  dsimp only
  split
  · simp [h]
  · split
    · next e =>
      simpa using takeTrap_keeps (makeResident_error_keeps e h) _
    · next e =>
      simpa using hk _ ((touchRegs_keeps ..).mpr (makeResident_keeps e h))

end Sys2Proof.Machine
end

section
/-! The stored form along a step, third part: what several instructions share, and the instructions. -/
namespace Sys2Proof.Machine

variable {a : State}

@[simp] theorem vec3_keeps (c : Ctl) (o : V3) {s : State} (h : Keeps a s) (f : Desc → Int → Int → Int) : KeepsOut a (vec3 c o s f) := by
  simp [vec3, h]

@[simp] theorem vecSat_keeps (c : Ctl) (o : V3) {s : State} (h : Keeps a s) (f : Int → Int → Int) : KeepsOut a (vecSat c o s f) := by
  simp [vecSat, h]

@[simp] theorem vec3d_keeps (c : Ctl) (o : V3) {s : State} (h : Keeps a s) (f : Desc → Int → Int → Int → Int) :
    KeepsOut a (vec3d c o s f) := by
  simp [vec3d, h]

@[simp] theorem vec1_keeps (c : Ctl) (va vd : BitVec 6) {s : State} (h : Keeps a s) (f : Desc → Int → Nat → Int) :
    KeepsOut a (vec1 c va vd s f) := by
  simp [vec1, h]

@[simp] theorem vecIndex_keeps (c : Ctl) (vd : BitVec 6) {s : State} (h : Keeps a s) (f : Nat → Int) :
    KeepsOut a (vecIndex c vd s f) := by
  simp [vecIndex, h]

@[simp] theorem alu_keeps (c : Ctl) (xd : BitVec 5) (v : Word) {s : State} (h : Keeps a s) : KeepsOut a (alu c xd v s) := by
  simp [alu, h]

theorem scalarRead_keeps {s t : State} {ea : Word} {n : Nat} {vs : List Word} (e : scalarRead s ea n = .ok t vs) (h : Keeps a s) :
    Keeps a t := by
  unfold scalarRead at e
  split at e
  case h_1 => cases e; simp [h]
  case h_2 => cases e; exact h
  case h_3 => cases e; exact h
  case h_4 => cases e; exact h
  case h_5 =>
    split at e
    · cases e
    · split at e
      · cases e
      · cases e
        exact (tagCheck_keeps ‹_›).mpr h

@[simp] theorem loadThen_keeps {s : State} (h : Keeps a s) {ea : Word} {n : Nat} {k : State → List Word → State}
    (hk : ∀ s vs, Keeps a s → Keeps a (k s vs)) : KeepsOut a (loadThen s ea n k) := by
  unfold loadThen
  split
  · simp [h]
  · split
    · simp [h]
    · simp [h]
    · simpa using hk _ _ (scalarRead_keeps ‹_› h)

/-! Monitors, waits and the grant. -/

@[simp] theorem setMon_keeps (s : State) (key : Nat) (u : MonUnit) : Keeps a (setMon s key u) ↔ Keeps a s := by
  simp [setMon]

@[simp] theorem noteMon_keeps (s : State) (key : Nat) : Keeps a (noteMon s key) ↔ Keeps a s := by
  simp [noteMon]

@[simp] theorem changeMon_keeps (s : State) (key : Nat) (f : MonUnit → MonUnit) : Keeps a (changeMon s key f) ↔ Keeps a s := by
  simp [changeMon]

@[simp] theorem nextSample_keeps (s : State) (key : Nat) : Keeps a (nextSample s key) ↔ Keeps a s := by
  simp [nextSample]

@[simp] theorem writeMon_keeps (s : State) (key i : Nat) (v : Word) : Keeps a (writeMon s key i v) ↔ Keeps a s := by
  simp [writeMon]

@[simp] theorem sampleUnit_keeps (s : State) (key v : Nat) : Keeps a (sampleUnit s key v) ↔ Keeps a s := by
  unfold sampleUnit
  dsimp only
  split
  · split <;> simp
  · simp

@[simp] theorem sampleEvent_keeps (s : State) (core ev v : Nat) : Keeps a (sampleEvent s core ev v) ↔ Keeps a s := by
  simp [sampleEvent]

@[simp] theorem holdFor_keeps (s : State) (on : WaitFor) (i : Instr) : Keeps a (holdFor s on i) ↔ Keeps a s := by
  simp [holdFor]

@[simp] theorem clearRow_keeps (s : State) (core row : Nat) : Keeps a (clearRow s core row) ↔ Keeps a s := by
  simp [clearRow]

@[simp] theorem gateRows_keeps (s : State) (g : Grant) : Keeps a (gateRows s g) ↔ Keeps a s := by
  simp [gateRows]

@[simp] theorem adoptFences_keeps (s : State) : Keeps a (adoptFences s) ↔ Keeps a s := by
  simp [adoptFences]

@[simp] theorem setvlCore_keeps (c : Ctl) (o : X3) {s : State} (h : Keeps a s) : Keeps a (setvlCore c o s) := by
  have spilled (b : Bool) (ns : List Nat) : Keeps a (if b then spillAll s ns true else (s, none)).1 := by
    split <;> simp [h]
  unfold setvlCore
  dsimp only
  split
  · exact takeTrap_keeps (.of_eq_mk ‹_› (spilled ..)) _
  · simpa using Keeps.of_eq_mk ‹_› (spilled ..)

/-! Tile moves and streams. -/

theorem Move.check_keeps {m : Move} {s t : State} (e : m.check s = .ok t) : Keeps a t ↔ Keeps a s := checkBuffers_keeps e

@[simp] theorem noteReads_keeps (notes : List StripRead) (s : State) : Keeps a (noteReads notes s) ↔ Keeps a s := by
  simp [noteReads]

@[simp] theorem loadTile_keeps (c : Ctl) (vd : Nat) (D : Desc) (m : Move) {s : State} (h : Keeps a s) :
    Keeps a (loadTile c vd D m s) := by
  unfold loadTile
  split
  · split <;> simp [h]
  · split
    · simp [h]
    · simpa using (Move.check_keeps ‹_›).mpr h

@[simp] theorem storeTile_keeps (c : Ctl) (vd : Nat) (A : Desc) (m : Move) {s : State} (h : Keeps a s) :
    Keeps a (storeTile c vd A m s) := by
  unfold storeTile
  split
  · simp [h]
  · split
    · simp [h]
    · rw [retire_keeps]
      refine Keeps.foldl ?_ _ fun s w hs => stripStore_keeps hs ..
      simpa using (Move.check_keeps ‹_›).mpr h

@[simp] theorem tileLoad_keeps (c : Ctl) (o : VX) {s : State} (h : Keeps a s) (strided : Bool) : KeepsOut a (tileLoad c o s strided) :=
  vecFrame_keeps h fun _ h => loadTile_keeps _ _ _ _ h

@[simp] theorem tileStore_keeps (c : Ctl) (o : VX) {s : State} (h : Keeps a s) (strided : Bool) :
    KeepsOut a (tileStore c o s strided) :=
  vecFrame_keeps h fun _ h => storeTile_keeps _ _ _ _ h

@[simp] theorem Sel.acquire_keeps (q : Sel) (lo n : Nat) (s : State) : Keeps a (Sel.acquire q lo n s) ↔ Keeps a s := by
  simp [Sel.acquire]

@[simp] theorem Sel.touch_keeps (q : Sel) (s : State) : Keeps a (Sel.touch q s) ↔ Keeps a s := by
  simp [Sel.touch]

@[simp] theorem Sel.frame_keeps {q : Sel} {s : State} {early : Option Trap} {k : State → Out} (h : Keeps a s)
    (hk : ∀ s, Keeps a s → KeepsOut a (k s)) :
    KeepsOut a (q.frame s early k) := by
  unfold Sel.frame
  split
  · simp [h]
  · split
    · simpa using takeTrap_keeps (makeResident_error_keeps ‹_› h) _
    · exact hk _ (makeResident_keeps ‹_› h)

@[simp] theorem clearLanded_keeps (s : State) (n : Nat) : Keeps a (clearLanded s n) ↔ Keeps a s := by
  simp [clearLanded]

@[simp] theorem consume_keeps (s : State) (cl n : Nat) : Keeps a (consume s cl n) ↔ Keeps a s := by
  simp [consume]

@[simp] theorem clearBuf_keeps (s : State) (cl n : Nat) : Keeps a (clearBuf s cl n) ↔ Keeps a s := by
  unfold clearBuf
  dsimp only
  split <;> simp

theorem streamCheck_keeps {s t : State} {base budget : Word} (e : streamCheck s base budget = .ok t) : Keeps a t ↔ Keeps a s := by
  unfold streamCheck at e
  split at e
  · exact tagCheck_keeps e
  · cases e; rfl

@[simp] theorem putStream_keeps {s : State} (h : Keeps a s) (g : Nat) (ws : List StreamWord) : Keeps a (putStream s g ws) := by
  induction ws generalizing s g with
  | nil => exact h
  | cons w ws ih => exact ih (stripStore_keeps h ..) _

@[simp] theorem vstzCore_keeps (c : Ctl) (o : VX) (D : Desc) (base budget : Word) {s : State} (h : Keeps a s) :
    Keeps a (vstzCore c o D base budget s) := by
  have checked {t : State} (e : (if s.h.csr.vl = 0 then .ok s else streamCheck s base budget) = Except.ok t) : Keeps a t := by
    split at e
    · cases e
      exact h
    · exact (streamCheck_keeps e).mpr h
  unfold vstzCore
  split
  · simp [h]
  · have same := checked ‹_›
    dsimp only
    split
    · refine takeTrap_keeps ?_ _
      simpa using same
    · split
      · exact (retire_keeps ..).mpr (putStream_keeps (by simpa using same) ..)
      all_goals
        rw [retire_keeps]
        split <;> simpa using same

@[simp] theorem vldzNotes_keeps (s : State) (o : VX) (D : Desc) (src : Option Nat) (upto budget cap off : Nat) (items : List Item) :
    Keeps a (vldzNotes s o D src upto budget cap off items) ↔ Keeps a s := by
  unfold vldzNotes
  split <;> simp

@[simp] theorem vldzCore_keeps (c : Ctl) (o : VX) (D : Desc) (base budget : Word) {s : State} (h : Keeps a s) :
    Keeps a (vldzCore c o D base budget s) := by
  unfold vldzCore
  split
  · simp [h]
  · split
    · simp [h]
    · have same := (streamCheck_keeps ‹_›).mpr h
      dsimp only
      split
      · simp only [retire_keeps, setX_keeps, modCsr_keeps, writeElems_keeps, vldzNotes_keeps, setWork_keeps]
        split <;> simpa using same
      · refine takeTrap_keeps ?_ _
        simp only [modCsr_keeps, writeElems_keeps, setWork_keeps]
        split <;> simpa using same

@[simp] theorem vgenCore_keeps (c : Ctl) (o : VX) (D : Desc) (base x : Word) {s : State} (h : Keeps a s) :
    Keeps a (vgenCore c o D base x s) := by
  unfold vgenCore
  dsimp only
  split
  · simp [h]
  · split
    · simp [h]
    · have same := (streamCheck_keeps ‹_›).mpr h
      simp only [retire_keeps, noteReads_keeps, writeElems_keeps]
      split <;> simpa using same


/-! Floating point and the matrix unit. -/

@[simp] theorem drawn_keeps (rm : Nat) (es : List Nat) (s : State) : Keeps a (drawn rm es s) ↔ Keeps a s := by
  simp [drawn]

@[simp] theorem putFloats_keeps (c : Ctl) (n w : Nat) (sgn : Bool) (rm : Nat) (items : List FItem) (s : State) :
    Keeps a (putFloats c n w sgn rm items s) ↔ Keeps a s := by
  simp [putFloats]

@[simp] theorem vecFloat_keeps (c : Ctl) (o : V3) {s : State} (h : Keeps a s) (readD : Bool) (f : Nat → FVal → FVal → FVal → FVal × FlagSet) :
    KeepsOut a (vecFloat c o s readD f) := by
  simp [vecFloat, h]

@[simp] theorem vecFun_keeps (c : Ctl) (o : VF) {s : State} (h : Keeps a s) (accept : Desc → Desc → Bool)
    (f : Desc → Desc → Nat → Nat → Nat → Nat × FlagSet) : KeepsOut a (vecFun c o s accept f) := by
  simp [vecFun, h]

@[simp] theorem setTable_keeps (s : State) (core sel i : Nat) (v : Int) : Keeps a (setTable s core sel i v) ↔ Keeps a s := by
  simp [setTable]

@[simp] theorem clearMarks_keeps (s : State) (core : Nat) : Keeps a (clearMarks s core) ↔ Keeps a s := by
  simp [clearMarks]

@[simp] theorem setExps_keeps (s : State) (j : Job) (t sel n row0 : Nat) (d : Desc) :
    Keeps a (setExps s j t sel n row0 d) ↔ Keeps a s := by
  unfold setExps
  rw [foldl_keeps]
  intro s i
  simp

@[simp] theorem setMarks_keeps (s : State) (j : Job) (t sel n row0 : Nat) (d : Desc) :
    Keeps a (setMarks s j t sel n row0 d) ↔ Keeps a s := by
  simp [setMarks]

@[simp] theorem slicedTile_keeps (s : State) (j : Job) (t : Nat) : Keeps a (slicedTile s j t).1 ↔ Keeps a s := by
  simp [slicedTile]

@[simp] theorem strikeAcc_keeps (core i0 n : Nat) (s : State) : Keeps a (strikeAcc core i0 n s) ↔ Keeps a s := by
  simp [strikeAcc]

@[simp] theorem markAcc_keeps (s : State) (core : Nat) (rows : List Nat) : Keeps a (markAcc s core rows) ↔ Keeps a s := by
  simp [markAcc]

@[simp] theorem metaRecord_keeps {s : State} (h : Keeps a s) (j : Job) (t : Nat) (pc : Word) : Keeps a (metaRecord s j t pc) := by
  unfold metaRecord
  split <;> simp [h]

@[simp] theorem runJob_keeps {s : State} (h : Keeps a s) (j : Job) (t : Nat) (pc : Word) : Keeps a (runJob s j t pc).1 := by
  unfold runJob
  split <;> simp [h]

@[simp] theorem arrayOp_keeps (c : Ctl) {s : State} (h : Keeps a s) (j : Job) : KeepsOut a (arrayOp c s j) := by
  unfold arrayOp
  refine vecFrame_keeps h fun s h => ?_
  dsimp only
  split
  · simp [h]
  · simp only [retire_keeps, orFlags_keeps]
    exact Keeps.foldl_fst h _ fun q t hq => runJob_keeps hq ..

@[simp] theorem zeroAcc_keeps (s : State) (core : Nat) : Keeps a (zeroAcc s core) ↔ Keeps a s := by
  simp [zeroAcc]

@[simp] theorem drainCore_keeps (c : Ctl) (q : Drain) (vd : Nat) {s : State} (h : Keeps a s) : Keeps a (drainCore c q vd s) := by
  simp [drainCore, h]

@[simp] theorem scaleTile_keeps (c : Ctl) (sel vd : Nat) (D : Desc) (acc : State × FlagSet) (t : Nat) :
    Keeps a (scaleTile c sel vd D acc t).1 ↔ Keeps a acc.1 := by
  unfold scaleTile
  rw [foldl_fst_keeps]
  intro q j
  dsimp only
  split <;> simp

@[simp] theorem saveTile_keeps (vd k : Nat) {s : State} (h : Keeps a s) (t : Nat) : Keeps a (saveTile vd k s t) := by
  unfold saveTile
  split <;> simp [h]

@[simp] theorem restTile_keeps (vd k : Nat) {s : State} (h : Keeps a s) (t : Nat) : Keeps a (restTile vd k s t) := by
  unfold restTile
  split <;> simp [h]

@[simp] theorem setRamp_keeps (s : State) (core : Nat) (r : Ramp) : Keeps a (setRamp s core r) ↔ Keeps a s := by
  simp [setRamp]

@[simp] theorem rampUp_keeps (s : State) (core t h : Nat) : Keeps a (rampUp s core t h) ↔ Keeps a s := by
  simp [rampUp]

@[simp] theorem burst_keeps (h t : Nat) (s : State) (core : Nat) : Keeps a (burst h t s core) ↔ Keeps a s := by
  unfold burst
  dsimp only
  split <;> simp

/-! Aperture stores, and what the root and the coaches are sent. -/

@[simp] theorem startNext_keeps (s : State) (chan : Nat) : Keeps a (startNext s chan) ↔ Keeps a s := by
  unfold startNext
  split <;> simp

theorem prepareRegister_keeps {s t : State} {q : Copy} (e : prepareRegister s q = .ok t) (h : Keeps a s) : Keeps a t := by
  unfold prepareRegister at e
  dsimp only at e
  split at e
  · cases e; exact h
  · split at e
    · cases e; simp [h]
    · split at e
      · cases e
      · split at e
        · cases e
        · cases e
          simpa using makeResident_keeps ‹_› (by simpa using h)

theorem prepareRegister_error_keeps {s : State} {q : Copy} {x : State × Trap} (e : prepareRegister s q = .error x)
    (h : Keeps a s) : Keeps a x.1 := by
  unfold prepareRegister at e
  dsimp only at e
  split at e
  · cases e
  · split at e
    · cases e
    · split at e
      · cases e; exact h
      · split at e
        · cases e
          exact makeResident_error_keeps ‹_› (by simpa using h)
        · cases e

@[simp] theorem apertureStore_keeps (c : Ctl) {s : State} (h : Keeps a s) (q : Copy) : Keeps a (apertureStore c s q) := by
  unfold apertureStore
  split
  · simpa using takeTrap_keeps (prepareRegister_error_keeps ‹_› h) _
  · simpa using prepareRegister_keeps ‹_› h

@[simp] theorem storePair_keeps (c : Ctl) (o : XI) (i : Instr) {s : State} (h : Keeps a s) : KeepsOut a (storePair c o i s) := by
  unfold storePair
  dsimp only
  split
  · simp [h]
  · split <;> simp [h]

@[simp] theorem vputBytes_keeps {s : State} (h : Keeps a s) (w : Who) (va : Nat) (bs : List Byte) : Keeps a (vputBytes s w va bs) :=
  Keeps.foldl_fst h _ fun _ _ hq => vaWrite_keeps hq ..

@[simp] theorem vput_keeps {s : State} (h : Keeps a s) (w : Who) (va v : Nat) : Keeps a (vput s w va v) := by
  simp [vput, h]

@[simp] theorem vputField_keeps {s : State} (h : Keeps a s) (w : Who) (va hi lo x : Nat) : Keeps a (vputField s w va hi lo x) := by
  simp [vputField, h]

@[simp] theorem sendCoach_keeps (s : State) (o : X3) (i : Instr) : Keeps a (sendCoach s o i) ↔ Keeps a s := by
  simp [sendCoach]

@[simp] theorem binRecord_keeps (s : State) (p : BinPair) (code : Nat) : Keeps a (binRecord s p code) ↔ Keeps a s := by
  simp [binRecord]

@[simp] theorem flushCarts_keeps {s : State} (h : Keeps a s) (x : Hart) : Keeps a (flushCarts s x).1 := by
  unfold flushCarts
  dsimp only
  rw [modHarts_keeps]
  refine Keeps.foldl_fst h _ fun q e h => ?_
  split <;> simp [h]

@[simp] theorem binflush_keeps (c : Ctl) (xd : BitVec 5) {s : State} (h : Keeps a s) : Keeps a (binflush c xd s) := by
  simp [binflush, h]


/-! Sparse vectors and atomics. -/

@[simp] theorem putHome_keeps {s : State} (h : Keeps a s) (ad : Nat) (v : Word) (poison : Bool) : Keeps a (putHome s ad v poison) := by
  simp [putHome, h]

@[simp] theorem noteSources_keeps (s : State) (ms : List Nat) : Keeps a (noteSources s ms) ↔ Keeps a s := by
  simp [noteSources]

@[simp] theorem putPairs_keeps {s : State} (h : Keeps a s) (m k : Nat) (ps : List (SPair × Bool)) : Keeps a (putPairs s m k ps) := by
  induction ps generalizing s k with
  | nil => exact h
  | cons p ps ih => exact ih (putHome_keeps h ..) _

@[simp] theorem writeSparse_keeps {s : State} (h : Keeps a s) (m : Nat) (v : SVec) (bad : Nat → Bool) :
    Keeps a (writeSparse s m v bad) := by
  simp [writeSparse, h]

@[simp] theorem withSources_keeps {s : State} {ms : List Nat} {k : List SVec → State} (h : Keeps a s) (hk : ∀ vs, Keeps a (k vs)) :
    Keeps a (withSources s ms k) := by
  induction ms generalizing k with
  | nil => exact hk []
  | cons m ms ih =>
    unfold withSources
    split
    · simp [h]
    · simp [h]
    · exact ih fun vs => hk _

@[simp] theorem putResult_keeps {s : State} {m : Nat} {v : SVec} {n : Nat} {k : State → State} (h : Keeps a s)
    (hk : ∀ s, Keeps a s → Keeps a (k s)) : Keeps a (putResult s m v n k) := by
  simp [putResult, hk, h]

@[simp] theorem mergeOp_keeps (c : Ctl) (o : S3) {s : State} (h : Keeps a s) (both : Nat → Nat → Nat → Nat → Option (Nat × FlagSet))
    (left : Nat → Option (Nat × FlagSet)) (right : Nat → Nat → Nat → Option (Nat × FlagSet)) :
    KeepsOut a (mergeOp c o s both left right) := by
  unfold mergeOp
  dsimp only
  split
  · simp [h]
  · rw [keepsOut_next]
    exact withSources_keeps (by simpa using h) fun vs => putResult_keeps (by simpa using h) fun s hs => by simp [hs]

theorem localWords_keeps {s : State} {ea n : Nat} {r : State × List (Word × Bool)} (e : localWords s ea n = .ok r) (h : Keeps a s) :
    Keeps a r.1 := by
  unfold localWords at e
  split at e
  · cases e
    exact h
  · split at e
    · cases e
    · have same := (tagCheck_keeps ‹_›).mpr h
      cases e
      dsimp only
      rw [noteWords_keeps]
      split <;> simpa using same

@[simp] theorem storeWords_keeps {s : State} (h : Keeps a s) (ea : Nat) (ws : List Word) : Keeps a (storeWords s ea ws) := by
  unfold storeWords
  refine Keeps.foldl_fst h _ fun q k h => ?_
  dsimp only
  split <;> simp [h]

@[simp] theorem putSlot_keeps {s : State} (h : Keeps a s) (ea : Word) (off : Nat) (v : Word) : Keeps a (putSlot s ea off v) := by
  unfold putSlot
  split <;> simp [h]

@[simp] theorem countProbes_keeps (s : State) (lcap crd off : Nat) : Keeps a (countProbes s lcap crd off) ↔ Keeps a s := by
  simp [countProbes]

@[simp] theorem accumulate_keeps {rm vt plim lcap : Nat} {ea : Word} {done : State → FlagSet → State}
    (hd : ∀ s f, Keeps a s → Keeps a (done s f)) (ps : List SPair) (k : Nat) (f : FlagSet) {s : State} (h : Keeps a s) :
    Keeps a (accumulate rm vt plim lcap ea done ps k f s) := by
  induction ps generalizing k f s with
  | nil => exact hd s f h
  | cons p ps ih =>
    unfold accumulate
    dsimp only
    split
    · simp [h]
    · split
      · exact poisonEnd_keeps h _
      · exact takeTrap_keeps (by simp [h]) _
      · exact ih _ _ (putSlot_keeps (putSlot_keeps (by simpa using h) ..) ..)
      · exact ih _ _ (putSlot_keeps (by simpa using h) ..)

@[simp] theorem atomStore_keeps {s : State} (h : Keeps a s) (g n v : Nat) : Keeps a (atomStore s g n v) := by
  unfold atomStore
  split
  · exact storeAt_keeps h ..
  · exact h.foldl _ fun s i hs => storeAt_keeps hs ..

@[simp] theorem application_keeps (c : Ctl) {s : State} (h : Keeps a s) (ea : Word) (size align : Nat) (xd : BitVec 5) (f : Nat → Nat × Word × FlagSet) :
    KeepsOut a (application c s ea size align xd f) := by
  unfold application
  split
  · simp [h]
  · rw [keepsOut_next]
    split
    · split <;> simp [h]
    · simp [h]
    · simp [h]

@[simp] theorem amo_keeps (c : Ctl) (o : AT) {s : State} (h : Keeps a s) (sx : Bool) (f : Nat → Nat → Nat → Nat) :
    KeepsOut a (amo c o s sx f) := by
  simp [amo, h]

@[simp] theorem amof_keeps (c : Ctl) (o : AT) {s : State} (h : Keeps a s) (fmt n : Nat) : KeepsOut a (amof c o s fmt n) := by
  simp [amof, h]

@[simp] theorem amoxr_keeps (c : Ctl) (o : AT) {s : State} (h : Keeps a s) (fmt : Nat) : KeepsOut a (amoxr c o s fmt) := by
  simp [amoxr, h]

@[simp] theorem branch_keeps (c : Ctl) (cond : Bool) {s : State} (h : Keeps a s) : KeepsOut a (branch c cond s) := by
  simp [branch, h]

/-! CSRs, fences, barriers and the instruction cache. -/

@[simp] theorem landFlags_keeps (n : Nat) (s : State) : Keeps a (landFlags n s) ↔ Keeps a s := by
  simp [landFlags]

@[simp] theorem csrWrite_keeps {s : State} (h : Keeps a s) (n : Nat) (v : Word) (seed : Bool) : Keeps a (csrWrite s n v seed) := by
  simp [csrWrite, h]

@[simp] theorem fence_keeps (c : Ctl) (f : FenceHold) {s : State} (h : Keeps a s) : KeepsOut a (fence c f s) := by
  simp [fence, h]

@[simp] theorem waitmRead_keeps {s : State} (h : Keeps a s) (ea : Word) : Keeps a (waitmRead s ea).1 := by
  unfold waitmRead
  split <;> simp [h]

@[simp] theorem waitmNote_keeps (s : State) (ea : Word) : Keeps a (waitmNote s ea) ↔ Keeps a s := by
  unfold waitmNote
  split <;> simp

@[simp] theorem barrierCheck_keeps {s : State} (h : Keeps a s) (g : Nat) : Keeps a (barrierCheck s g) := by
  simp [barrierCheck, h]

@[simp] theorem barrierWatch_keeps {s : State} (h : Keeps a s) : Keeps a (barrierWatch s) := by
  simp [barrierWatch, h]

@[simp] theorem checkFired_keeps {s : State} (h : Keeps a s) (g : Nat) : Keeps a (checkFired s g) := by
  simp [checkFired, h]

@[simp] theorem request_keeps (s : State) (query : Bool) (o : X3) (i : Instr) : Keeps a (request s query o i) ↔ Keeps a s := by
  simp [request]

@[simp] theorem evictLine_keeps (s : State) (core : Nat) : Keeps a (evictLine s core) ↔ Keeps a s := by
  unfold evictLine
  dsimp only
  split
  · rfl
  · split <;> simp

@[simp] theorem fillIcache_keeps (s : State) (core part asid w last : Nat) :
    Keeps a (fillIcache s core part asid w last) ↔ Keeps a s := by
  simp [fillIcache]

@[simp] theorem fillWords_keeps (s : State) (w last : Nat) : Keeps a (fillWords s w last) ↔ Keeps a s := by
  simp [fillWords]

@[simp] theorem fetchTrap_keeps {s : State} (h : Keeps a s) (va : Word) : Keeps a (fetchTrap s va) := by
  simp [fetchTrap, h]

/-! Permutes, predicates, reductions and scans. -/

@[simp] theorem permute_keeps (c : Ctl) (va vd : BitVec 6) {s : State} (h : Keeps a s) (used : List Opnd) (more : List Named)
    (src : State → Nat → Option Nat) : KeepsOut a (permute c va vd s used more src) := by
  simp [permute, h]

@[simp] theorem predWrite_keeps (c : Ctl) {s : State} (h : Keeps a s) (pd : Nat) (srcs : List Nat) (f : Nat → Bool) :
    KeepsOut a (predWrite c s pd srcs f) := by
  simp [predWrite, h]

@[simp] theorem pred2_keeps (c : Ctl) (o : P3) {s : State} (h : Keeps a s) (f : Bool → Bool → Bool) : KeepsOut a (pred2 c o s f) := by
  simp [pred2, h]

@[simp] theorem vred_keeps (c : Ctl) (o : VF) {s : State} (h : Keeps a s) (r : Red) : KeepsOut a (vred c o s r) := by
  unfold vred
  exact vecFrame_keeps h fun s h => by simp [h]

@[simp] theorem vscan_keeps (c : Ctl) (o : VF) {s : State} (h : Keeps a s) (r : Red) : KeepsOut a (vscan c o s r) := by
  unfold vscan
  exact vecFrame_keeps h fun s h => by simp [h]


@[simp] theorem execVdecl_keeps (c : Ctl) (o : VX) {s : State} (h : Keeps a s) : KeepsOut a (execVdecl c o s) := by
  unfold execVdecl
  dsimp only
  split <;> simp [h]

@[simp] theorem execMzero_keeps (c : Ctl) (o : V3) {s : State} (h : Keeps a s) : KeepsOut a (execMzero c o s) := by
  unfold execMzero
  split <;> simp [h]

@[simp] theorem execVfred_keeps (c : Ctl) (o : VF) {s : State} (h : Keeps a s) : KeepsOut a (execVfred c o s) := by
  unfold execVfred
  refine vecFrame_keeps h fun s h => ?_
  split
  · simp [h]
  · rw [retire_keeps]
    split <;> simp [h]

@[simp] theorem execVxch_keeps (c : Ctl) (o : V3) {s : State} (h : Keeps a s) : KeepsOut a (execVxch c o s) := by
  unfold execVxch
  refine vecFrame_keeps h fun s h => ?_
  dsimp only
  split <;> simp [h]

@[simp] theorem execSscale_keeps (c : Ctl) (o : S3) {s : State} (h : Keeps a s) : KeepsOut a (execSscale c o s) := by
  unfold execSscale
  dsimp only
  split
  · simp [h]
  · rw [keepsOut_next]
    exact withSources_keeps (by simpa using h) fun vs => putResult_keeps (by simpa using h) fun s hs => by simp [hs]

@[simp] theorem execSdot_keeps (c : Ctl) (o : SX) {s : State} (h : Keeps a s) : KeepsOut a (execSdot c o s) := by
  unfold execSdot
  dsimp only
  split <;> simp [h]

@[simp] theorem execSlen_keeps (c : Ctl) (o : SX) {s : State} (h : Keeps a s) : KeepsOut a (execSlen c o s) := by
  unfold execSlen
  dsimp only
  split <;> simp [h]

@[simp] theorem execSst_keeps (c : Ctl) (o : SX) {s : State} (h : Keeps a s) : KeepsOut a (execSst c o s) := by
  unfold execSst
  dsimp only
  split
  · simp [h]
  · split <;> simp [h]

@[simp] theorem execSld_keeps (c : Ctl) (o : SX) {s : State} (h : Keeps a s) : KeepsOut a (execSld c o s) := by
  unfold execSld
  dsimp only
  split
  · simp [h]
  · split
    · simp [h]
    · split
      · simp [h]
      · split
        · simp [h]
        · split
          · simp [h]
          · have same := localWords_keeps ‹_› h
            dsimp only at same
            rw [keepsOut_next]
            split
            · exact poisonEnd_keeps (by simpa using same) _
            · exact takeTrap_keeps (by simpa using same) _
            · exact (retire_keeps ..).mpr (writeSparse_keeps (by simpa using same) ..)

@[simp] theorem execShacc_keeps (c : Ctl) (o : SX) {s : State} (h : Keeps a s) : KeepsOut a (execShacc c o s) := by
  refine resumeRecords_keeps ?_
  dsimp only
  split
  · simp [h]
  · split
    · simp [h]
    · rw [keepsOut_next]
      refine withSources_keeps (by simpa using h) fun vs => ?_
      split
      · simp [h]
      · have same := localWords_keeps ‹_› (by simpa using h)
        dsimp only at same
        split
        · exact poisonEnd_keeps same _
        · split
          · exact takeTrap_keeps (by simpa using same) _
          · exact accumulate_keeps (fun s f hs => by simp [hs]) _ _ _ same

@[simp] theorem execIcacheFill_keeps (va : Word) {s : State} (h : Keeps a s) : KeepsOut a (execIcacheFill va s) := by
  simp [execIcacheFill, h]

@[simp] theorem execExit_keeps (c : Ctl) (o : X3) {s : State} (h : Keeps a s) : KeepsOut a (execExit c o s) := by
  unfold execExit
  rw [keepsOut_next]
  split
  · simpa using h
  · have parked : Keeps a (barrierCheck (checkFired (modH (flushCarts s s.h).1 (fun h =>
        { h with exit := some (rx s o.xa), run := .exited, wait := none, issued := true })) s.h.gang) s.h.gang) :=
      barrierCheck_keeps (checkFired_keeps ((modH_keeps ..).mpr (flushCarts_keeps h _)) _) _
    dsimp only
    split
    · simp [parked]
    · exact parked

@[simp] theorem execVdot_keeps (c : Ctl) (o : V3) {s : State} (h : Keeps a s) : KeepsOut a (execVdot c o s) := by
  unfold execVdot
  refine vecFrame_keeps h fun s h => ?_
  dsimp only
  split
  · simp [h]
  · rw [retire_keeps]
    split <;> simp [h]

@[simp] theorem execVldz_keeps (c : Ctl) (o : VX) {s : State} (h : Keeps a s) : KeepsOut a (execVldz c o s) :=
  resumeRecords_keeps (vecFrame_keeps h fun _ h => vldzCore_keeps _ _ _ _ _ h)

@[simp] theorem execVstz_keeps (c : Ctl) (o : VX) {s : State} (h : Keeps a s) : KeepsOut a (execVstz c o s) :=
  vecFrame_keeps h fun _ h => vstzCore_keeps _ _ _ _ _ h

@[simp] theorem execVgen_keeps (c : Ctl) (o : VX) {s : State} (h : Keeps a s) : KeepsOut a (execVgen c o s) :=
  vecFrame_keeps h fun _ h => vgenCore_keeps _ _ _ _ _ h

@[simp] theorem execMdrain_keeps (c : Ctl) (o : V3) {s : State} (h : Keeps a s) : KeepsOut a (execMdrain c o s) := by
  unfold execMdrain
  dsimp only
  split
  · exact raise_keeps h _ _ _
  · exact vecFrame_keeps h fun _ h => drainCore_keeps _ _ _ h

@[simp] theorem execMsave_keeps (c : Ctl) (o : VX) {s : State} (h : Keeps a s) : KeepsOut a (execMsave c o s) := by
  unfold execMsave
  exact vecFrame_keeps h fun _ h => (retire_keeps ..).mpr (h.foldl _ fun _ _ h => saveTile_keeps _ _ h _)

@[simp] theorem execMrest_keeps (c : Ctl) (o : VX) {s : State} (h : Keeps a s) : KeepsOut a (execMrest c o s) := by
  unfold execMrest
  exact vecFrame_keeps h fun _ h => (retire_keeps ..).mpr (h.foldl _ fun _ _ h => restTile_keeps _ _ h _)

@[simp] theorem execSargmin_keeps (c : Ctl) (o : VX) {s : State} (h : Keeps a s) : KeepsOut a (execSargmin c o s) := by
  unfold execSargmin
  exact vecFrame_keeps h fun s h => by simp [h]

@[simp] theorem execTqry_keeps (c : Ctl) (o : VX) {s : State} (h : Keeps a s) : KeepsOut a (execTqry c o s) := by
  unfold execTqry
  exact Sel.frame_keeps h fun s h => by simp [h]

@[simp] theorem execSxpand_keeps (c : Ctl) (o : SV) {s : State} (h : Keeps a s) : KeepsOut a (execSxpand c o s) := by
  unfold execSxpand
  refine vecFrame_keeps h fun s h => withSources_keeps (by simpa using h) fun vs => ?_
  simp only [retire_keeps, setWork_keeps]
  split <;> simpa using h

@[simp] theorem execSpack_keeps (c : Ctl) (o : SV) {s : State} (h : Keeps a s) : KeepsOut a (execSpack c o s) := by
  unfold execSpack
  refine vecFrame_keeps h fun s h => withSources_keeps (by simpa using h) fun vs => ?_
  dsimp only
  split
  · exact takeTrap_keeps (by simpa using h) _
  · simp only [retire_keeps, setWork_keeps]
    split <;> simpa using writeSparse_keeps (by simpa using h) ..

/-- Every instruction keeps the stored form: every instruction not treated above is one use of a form whose lemma says so. An event, which has no
words, is none of them. -/
theorem exec_keeps {i : Instr} (words : (parts i).isSome = true) {s : State} (h : Keeps a s) : KeepsOut a (exec i s) := by
  cases i <;> simp [parts, exec,
    execAdd, execSub, execAnd, execOr, execXor, execAndn, execMin, execMax, execMinu, execMaxu, execSlt, execSltu, execSll,
    execSrl, execSra, execSel, execMul, execMulh, execMulhu, execDiv, execDivu, execRem, execRemu, execClz, execCtz, execPopc,
    execExt, execIns, execAddi, execAndi, execOri, execXori, execSlli, execSrli, execSrai, execSlti, execLi, execLa, execLd,
    execLdu, execSt, execLdq, execStq, execBtx, execBeq, execBne, execBlt, execBge, execBltu, execBgeu, execJmp, execJal,
    execJalr, execLoop, execWaitc, execNop, execYield, execTrap, execBrk, execRte, execCsrr, execCsrw, execCsrs,
    execCsrc, execPool, execSetvl, execSetvt, execVqry, execVadd, execVsub, execVadds, execVsubs, execVmul, execVmulh, execVmac,
    execVmin, execVmax, execVand, execVor, execVxor, execVandn, execVneg, execVabs, execVnot, execVmov, execVclz, execVpopc,
    execVwide, execVshl, execVshr, execVsra, execVshv, execVbool, execVcmp, execVsel, execVsplat, execViota, execVlut, execPand,
    execPor, execPxor, execPnot, execPandn, execPcnt, execPfirst, execPset, execPmov, execVredAdd, execVredMin, execVredMax,
    execVredMinu, execVredMaxu, execVredAnd, execVredOr, execVredXor, execVscanAdd, execVscanMin, execVscanMax, execVscanMinu,
    execVscanMaxu, execVscanAnd, execVscanOr, execVscanXor, execVperm, execVslide, execVbcast, execVfadd, execVfsub,
    execVfmul, execVfma, execVfms, execVfnma, execVfdiv, execVfsqrt, execVfclass, execVfcvt, execVftoi, execVitof, execVmxq,
    execVmxd, execVhad, execVfmin, execVfmax, execVfcmp, execVfsgn, execMcfg, execMop, execMops, execMopg,
    execMscale, execMburst, execMwait, execSexp, execSfit, execTld,
    execTst, execTldx, execTstx, execTwait, execTclr, execBinput, execBinflush, execKvapp, execRetspan, execKvpin,
    execKvunpin, execKvqryDesc, execKvqryPos, execKvqryHdr, execKvqryCount, execSadd, execSsub, execSmul, execSmax,
    execAmoAdd, execAmoAnd, execAmoOr, execAmoXor, execAmoMin, execAmoMax, execAmoMinu, execAmoMaxu, execAmocas,
    execAmoSwap, execAmofFp32, execAmofFp64, execAmofBf16, execAmox, execAmoxrFp32, execAmoxrFp64, execFencer, execFence,
    execWaitm, execGbar, execEtrig, execGlaunch, execGqry, h] at words ⊢

end Sys2Proof.Machine
end

section
/-! The stored form along a step, fourth part: disturbed reads, copies and their chunks, and follow-on sweeps. -/
namespace Sys2Proof.Machine

variable {a : State}

@[simp] theorem takeHart_keeps (s : State) (g k : Nat) : Keeps a (takeHart s g k) ↔ Keeps a s := by
  unfold takeHart
  split
  · rfl
  · split
    · exact keeps_mk ..
    · rfl

@[simp] theorem withHart_keeps {s : State} (h : Keeps a s) (g k : Nat) {f : State → State} (hf : ∀ s, Keeps a s → Keeps a (f s)) :
    Keeps a (withHart s g k f) := by
  unfold withHart
  split
  · exact h
  · exact (takeHart_keeps ..).mpr (hf _ ((takeHart_keeps ..).mpr h))

/-! What a write disturbs. -/

@[simp] theorem freeAccRow_keeps (s : State) (i : Nat) : Keeps a (freeAccRow s i) ↔ Keeps a s := by
  simp [freeAccRow]

@[simp] theorem freeTable_keeps (s : State) (sel : Nat) : Keeps a (freeTable s sel) ↔ Keeps a s := by
  simp [freeTable]

@[simp] theorem freeFlags_keeps (s : State) (upto : Nat) : Keeps a (freeFlags s upto) ↔ Keeps a s := by
  simp [freeFlags]

@[simp] theorem freeLoc_keeps (s : State) (w : Window) : Keeps a (freeLoc s w) ↔ Keeps a s := by
  unfold freeLoc
  split <;> simp

@[simp] theorem freeWord_keeps {s : State} (h : Keeps a s) (at_ w : Nat) : Keeps a (freeWord s at_ w) := by
  unfold freeWord
  split
  · exact h
  · simp [h]

@[simp] theorem disturb_keeps {s : State} (h : Keeps a s) (hit : List Loc) (at_ : Nat) : Keeps a (disturb hit s at_) :=
  Keeps.foldl ((foldl_keeps freeLoc_keeps ..).mpr h) _ fun _ _ hs => freeWord_keeps hs ..

@[simp] theorem disturbReaders_keeps {s : State} (h : Keeps a s) (old : Hart) (locs : List Loc) (first : Nat) :
    Keeps a (disturbReaders s old locs first) := by
  unfold disturbReaders
  split
  · exact h
  · exact (keeps_mk ..).mpr (h.foldl _ fun _ _ hs => disturb_keeps hs ..)

@[simp] theorem disturbSweeps_keeps (cores : List Nat) (locs : List Loc) (first : Nat) (s : State) :
    Keeps a (disturbSweeps cores locs first s) ↔ Keeps a s := by
  simp [disturbSweeps]

/-! Copies and what they read and write. -/

@[simp] theorem modCopy_keeps (s : State) (id : Nat) (f : Copy → Copy) : Keeps a (modCopy s id f) ↔ Keeps a s := by
  simp [modCopy]

@[simp] theorem copyRecord_keeps (s : State) (q : Copy) (agent cls code addr : Nat) (synd : Word) :
    Keeps a (copyRecord s q agent cls code addr synd) ↔ Keeps a s := by
  simp [copyRecord]

@[simp] theorem copyViolation_keeps (s : State) (q : Copy) (kind ad : Nat) : Keeps a (copyViolation s q kind ad) ↔ Keeps a s := by
  unfold copyViolation
  split <;> simp

@[simp] theorem spaceRead_keeps {s : State} (h : Keeps a s) (q : Copy) (space cl ad n : Nat) :
    Keeps a (spaceRead s q space cl ad n).1 := by
  refine Keeps.foldl_fst (q := (s, [])) h _ fun acc p hs => ?_
  dsimp only
  split
  · split <;> simp [hs]
  · exact hs
  · simp [hs]

@[simp] theorem putScratch_keeps {s : State} (h : Keeps a s) (g : Nat) (bs : List Byte) : Keeps a (putScratch s g bs) := by
  unfold putScratch
  dsimp only
  split
  · exact h.putBytes rfl rfl rfl rfl
  · refine (foldl_keeps (fun s i => strike_keeps ..) ..).mpr ?_
    exact h.putBytes rfl rfl rfl rfl

@[simp] theorem noteImage_keeps {s : State} (h : Keeps a s) (q : Copy) (va n : Nat) : Keeps a (noteImage s q va n) := by
  unfold noteImage
  extract_lets glob hit
  split
  · refine h.mapGangs (f := fun g => if hit g then { g with dirty := (va, n) :: g.dirty } else g) (fun g => .inl ?_) rfl rfl rfl rfl
    split <;> rfl
  · exact h

@[simp] theorem spaceWrite_keeps {s : State} (h : Keeps a s) (q : Copy) (space cl ad : Nat) (bs : List Byte) (iter : Nat) :
    Keeps a (spaceWrite s q space cl ad bs iter) := by
  refine Keeps.foldl_fst (q := (s, bs)) h _ fun acc p hs => ?_
  dsimp only
  split
  · split
    · exact noteImage_keeps (by simp [hs]) ..
    · simp [hs]
  · simp [hs]
  · simp [hs]

/-! Chunks: their cycles and slots. -/

@[simp] theorem setChunk_keeps (s : State) (id k : Nat) (f : Chunk → Chunk) : Keeps a (setChunk s id k f) ↔ Keeps a s := by
  simp [setChunk]

@[simp] theorem missSlot_keeps (s : State) (q : Copy) (k : Nat) : Keeps a (missSlot s q k) ↔ Keeps a s := by
  unfold missSlot
  split
  · split
    · rfl
    · dsimp only
      split <;> simp
  · rfl

@[simp] theorem landAt_keeps (s : State) (q : Copy) (k t : Nat) : Keeps a (landAt s q k t) ↔ Keeps a s := by
  simp [landAt]

@[simp] theorem postpone_keeps (s : State) (q : Copy) (k t : Nat) : Keeps a (postpone s q k t) ↔ Keeps a s := by
  simp [postpone]

@[simp] theorem moveSlot_keeps (s : State) (q : Copy) (k d : Nat) : Keeps a (moveSlot s q k d) ↔ Keeps a s := by
  simp [moveSlot]

@[simp] theorem fetchLines_keeps (s : State) (q : Copy) (lock : Bool) (c : Chunk) : Keeps a (fetchLines s q lock c).1 ↔ Keeps a s := by
  unfold fetchLines
  dsimp only
  rw [foldl_fst_keeps]
  intro q v
  simp

@[simp] theorem planChunk_keeps (lock : Bool) (s : State) (p : Nat × Nat × Nat) : Keeps a (planChunk lock s p) ↔ Keeps a s := by
  unfold planChunk
  split
  · rfl
  · split
    · rfl
    · dsimp only
      split
      · split <;> simp
      · simp

@[simp] theorem planBte_keeps (s : State) (bte : Nat) (lock : Bool) : Keeps a (planBte s bte lock) ↔ Keeps a s := by
  simp [planBte]

/-! The end of a copy, and chunks that cannot go. -/

@[simp] theorem endCopy_keeps (s : State) (q : Copy) : Keeps a (endCopy s q) ↔ Keeps a s := by
  unfold endCopy
  dsimp only
  split <;> simp

@[simp] theorem writeReport_keeps {s : State} (h : Keeps a s) (q : Copy) : Keeps a (writeReport s q) := by
  unfold writeReport
  split <;> simp [h]

@[simp] theorem closeIfOver_keeps (s : State) (id : Nat) : Keeps a (closeIfOver s id) ↔ Keeps a s := by
  unfold closeIfOver
  split
  · split <;> simp
  · rfl

@[simp] theorem reportFault_keeps (s : State) (q : Copy) (code va : Nat) (synd : Word) :
    Keeps a (reportFault s q code va synd) ↔ Keeps a s := by
  unfold reportFault
  dsimp only
  split
  · rfl
  · split
    · rfl
    · split <;> simp

@[simp] theorem hostNext_keeps (s : State) (id : Nat) : Keeps a (hostNext s id) ↔ Keeps a s := by
  unfold hostNext
  split
  · split
    · split
      · split
        · split <;> simp
        · rfl
      · rfl
    · rfl
  · rfl

@[simp] theorem failChunk_keeps (s : State) (q : Copy) (k code va : Nat) (synd : Word) :
    Keeps a (failChunk s q k code va synd) ↔ Keeps a s := by
  unfold failChunk
  dsimp only
  split <;> simp

/-! A chunk that lands. -/

@[simp] theorem wakeRow_keeps (s : State) (q : Copy) (r : Nat) : Keeps a (wakeRow s q r) ↔ Keeps a s := by
  simp [wakeRow]

@[simp] theorem showLater_keeps (s : State) (gang hart t : Nat) : Keeps a (showLater s gang hart t) ↔ Keeps a s := by
  unfold showLater
  split
  · split <;> simp
  · rfl

@[simp] theorem landRow_keeps {s : State} (h : Keeps a s) (q : Copy) (r : Nat) (bs : List Byte) : Keeps a (landRow s q r bs) := by
  unfold landRow
  simp only [showLater_keeps]
  refine withHart_keeps h _ _ fun s hs => ?_
  rw [modH_keeps]
  split
  · exact hs
  · split
    · split <;> simp [hs]
    · exact hs

@[simp] theorem movePiece_keeps {s : State} (h : Keeps a s) (q : Copy) (p : Piece) : Keeps a (movePiece q s p) := by
  unfold movePiece
  split <;> simp [h]

@[simp] theorem moveChunk_keeps {s : State} (h : Keeps a s) (q : Copy) (c : Chunk) : Keeps a (moveChunk s q c) := by
  unfold moveChunk
  split
  · simp [h]
  · split
    · simp [h]
    · split
      · split
        · exact h
        · have read (s' : State) (bs : List Byte) (e : (match c.src with
              | some x => let (s, bs) := spaceRead s q 1 0 x c.len; (s, bs.take (c.len - c.data.length) ++ c.data)
              | none => (s, c.data)) = (s', bs)) : Keeps a s' := by
            split at e
            · next x _ =>
              have read := spaceRead_keeps h q 1 0 x c.len
              generalize spaceRead s q 1 0 x c.len = r at e read
              cases e
              exact read
            · cases e
              exact h
          split
          have := read _ _ ‹_›
          split
          · exact this
          · exact putScratch_keeps this ..
      · exact h.foldl _ fun _ _ hs => movePiece_keeps hs ..

@[simp] theorem handSweeps_keeps (s : State) (q : Copy) : Keeps a (handSweeps s q) ↔ Keeps a s := by
  unfold handSweeps
  split <;> simp

@[simp] theorem lateTrap_keeps {s : State} (h : Keeps a s) (q : Copy) : Keeps a (lateTrap s q) := by
  unfold lateTrap
  dsimp only
  split
  · split <;> simp [h]
  · exact h

@[simp] theorem noteLanding_keeps (s : State) (cl n k : Nat) (tag : BitVec 16) : Keeps a (noteLanding s cl n k tag) ↔ Keeps a s := by
  simp [noteLanding]

@[simp] theorem landChunk_keeps {s : State} (h : Keeps a s) (q : Copy) (k : Nat) (c : Chunk) : Keeps a (landChunk s q k c) := by
  unfold landChunk
  extract_lets moved landed sampled late
  have late_keeps : Keeps a late := by
    simp only [late, sampled, landed, moved]
    split
    · exact lateTrap_keeps (by simp [h]) _
    · simp [h]
  split
  · exact late_keeps
  · next q' _ =>
    extract_lets reported marked swept
    have reported_keeps : Keeps a reported := by
      simp only [reported]
      split <;> simp [late_keeps]
    have marked_keeps : Keeps a marked := by
      simp only [marked]
      split <;> simp [reported_keeps]
    simpa [swept] using marked_keeps

end Sys2Proof.Machine
end

section
/-! The stored form along a step, fifth part: the events of copies and sweeps, coaches, walks, binning and replays. -/
namespace Sys2Proof.Machine

variable {a : State}

/-! Chunks arrive, or are tried again. -/

@[simp] theorem cutStrip_keeps (s : State) (q : Copy) (n : Nat) : Keeps a (cutStrip s q n) ↔ Keeps a s := by
  simp [cutStrip]

@[simp] theorem linkLand_keeps {s : State} (h : Keeps a s) (q : Copy) (k : Nat) (c : Chunk) : Keeps a (linkLand s q k c) := by
  unfold linkLand
  dsimp only
  split
  · exact h
  · split <;> simp [h]

@[simp] theorem relandHost_keeps (s : State) : Keeps a (relandHost s) ↔ Keeps a s := by
  refine foldl_keeps (fun s q => foldl_keeps (fun s k => ?_) ..) ..
  split
  · split <;> simp
  · rfl

@[simp] theorem arrive_keeps {s : State} (h : Keeps a s) (q : Copy) (k : Nat) (c : Chunk) : Keeps a (arrive s q k c) := by
  unfold arrive
  split
  · simp [h]
  · split
    · simp [h]
    · split
      · simp [h]
      · split
        · simp [h]
        · split <;> simp [h]

@[simp] theorem execChunkLand_keeps (chan k : Nat) {s : State} (h : Keeps a s) : KeepsOut a (execChunkLand chan k s) := by
  rw [execChunkLand, keepsOut_next]
  split
  · exact h
  · next q _ =>
    split
    · exact h
    · next c _ =>
      split
      · exact h
      · split
        · simpa using h
        · extract_lets cut q'
          have cut_keeps : Keeps a cut := by
            simp only [cut]
            split <;> simp [h]
          split <;> simp [cut_keeps]

@[simp] theorem execTranslationWalk_keeps (asid va : Nat) {s : State} (h : Keeps a s) : KeepsOut a (execTranslationWalk asid va s) := by
  rw [execTranslationWalk, keepsOut_next, foldl_keeps]
  · exact h
  intro s q
  rw [foldl_keeps]
  intro s k
  split
  · rfl
  · split
    · rfl
    · split
      · split
        · split <;> simp
        · rfl
      · split <;> simp

@[simp] theorem retryChunk_keeps (s : State) (q : Copy) (k : Nat) : Keeps a (retryChunk s q k) ↔ Keeps a s := by
  unfold retryChunk
  split
  · split <;> simp
  · rfl

@[simp] theorem retryParked_keeps (s : State) (part asid : Nat) : Keeps a (retryParked s part asid) ↔ Keeps a s := by
  unfold retryParked
  rw [foldl_keeps, foldl_keeps]
  · exact keeps_mk ..
  · intro s d
    split <;> simp
  · intro s q
    dsimp only
    rw [foldl_keeps]
    · split <;> split <;> simp
    · intro s k
      split
      · split <;> simp
      · rfl

@[simp] theorem execTransferRetry_keeps (chan k delay : Nat) {s : State} (h : Keeps a s) :
    KeepsOut a (execTransferRetry chan k delay s) := by
  rw [execTransferRetry, keepsOut_next]
  split
  · exact h
  · split
    · exact h
    · split
      · exact h
      · dsimp only
        split <;> split <;> simp [h]

/-! Starts of copies. -/

@[simp] theorem readIndices_keeps {s : State} (h : Keeps a s) (q : Copy) : Keeps a (readIndices s q).1 := by
  unfold readIndices
  dsimp only
  split
  · simpa using h
  · exact spaceRead_keeps h ..

@[simp] theorem beginCopy_keeps {s : State} (h : Keeps a s) (q : Copy) : Keeps a (beginCopy s q) := by
  unfold beginCopy
  extract_lets q s'
  have read (p : State × Option (List Nat)) (e : (if q.kind = 5 then readIndices s' q else (s', some [])) = p) : Keeps a p.1 := by
    rw [← e]
    have := readIndices_keeps ((modCopy_keeps ..).mpr h : Keeps a s') q
    split
    · exact this
    · simpa [s'] using h
  split
  next t idx e =>
    have started : Keeps a t := read _ e
    split
    · simpa using started
    · dsimp only
      split
      · rw [endCopy_keeps]
        exact writeReport_keeps (by simpa using started) _
      · simpa using started

@[simp] theorem beginWalk_keeps (s : State) (q : Copy) : Keeps a (beginWalk s q) ↔ Keeps a s := by
  simp [beginWalk]

/-! Follow-on sweeps. -/

@[simp] theorem sweepCore_keeps {s : State} (h : Keeps a s) (w : Sweep) (j : Job) : Keeps a (sweepCore w j s).1 := by
  unfold sweepCore
  dsimp only
  split
  · exact h
  · simp [h]

@[simp] theorem rampDown_keeps (s : State) (core : Nat) : Keeps a (rampDown s core) ↔ Keeps a s := by
  simp [rampDown]

@[simp] theorem touchRows_keeps (s : State) (rows : List Nat) (t : Nat) : Keeps a (touchRows s rows t) ↔ Keeps a s := by
  simp [touchRows]

@[simp] theorem arrayOccupy_keeps (s : State) (core t n : Nat) : Keeps a (arrayOccupy s core t n) ↔ Keeps a s := by
  unfold arrayOccupy
  dsimp only
  split <;> simp

@[simp] theorem sweepLate_keeps {s : State} (h : Keeps a s) (w : Sweep) : Keeps a (sweepLate w s) := by
  unfold sweepLate
  dsimp only
  split <;> simp [h]

@[simp] theorem execArrayRampDown_keeps (core : Nat) {s : State} (h : Keeps a s) : KeepsOut a (execArrayRampDown core s) := by
  simp [execArrayRampDown, h]

@[simp] theorem execFollowOnSweep_keeps (core : Nat) {s : State} (h : Keeps a s) : KeepsOut a (execFollowOnSweep core s) := by
  rw [execFollowOnSweep, keepsOut_next]
  split
  · exact h
  · next w _ =>
    dsimp only
    split
    · simpa using h
    · split
      · simpa using h
      · have swept (p : State × Option (Nat × Nat)) (e : (match findHart s w.gang w.hart with
            | none => (s, none)
            | some _ =>
              let r := sweepCore w (followJob (w.copyOf s)) (takeHart s w.gang w.hart)
              (takeHart r.1 s.h.gang s.h.idx, r.2)) = p) : Keeps a p.1 := by
          rw [← e]
          split <;> simp [h]
        split
        · simpa using h
        · next t e =>
          have := swept _ e
          exact sweepLate_keeps (by simpa using this) _

@[simp] theorem execSweepDone_keeps (core : Nat) {s : State} (h : Keeps a s) : KeepsOut a (execSweepDone core s) := by
  rw [execSweepDone, keepsOut_next]
  split
  · exact h
  · simpa using h

/-! Coaches. -/

@[simp] theorem freeCarriage_keeps {s : State} (h : Keeps a s) (w : Who) (k : Nat) : Keeps a (freeCarriage s w k) := by
  unfold freeCarriage
  exact vputField_keeps (vput_keeps (vput_keeps (vput_keeps h ..) ..) ..) ..

@[simp] theorem freeIfDue_keeps {s : State} (h : Keeps a s) (w : Who) (k : Nat) : Keeps a (freeIfDue s w k) := by
  unfold freeIfDue
  split <;> simp [h]

@[simp] theorem recordRead_keeps (s : State) (op : CoachOp) (part cl ad n : Nat) :
    Keeps a (recordRead s op part cl ad n).1 ↔ Keeps a s := by
  unfold recordRead
  split <;> simp

@[simp] theorem dropRef_keeps {s : State} (h : Keeps a s) (w : Who) (k : Nat) : Keeps a (dropRef w s k) := by
  simp [dropRef, h]

@[simp] theorem retireOne_keeps {q : State × Nat × Nat} (h : Keeps a q.1) (w : Who) (c tag : Nat) (close : Bool) (k : Nat) :
    Keeps a (retireOne w c tag close q k).1 := by
  unfold retireOne
  dsimp only
  split
  · refine freeIfDue_keeps (vputField_keeps (vputField_keeps ?_ ..) ..) ..
    split <;> split <;> simp [h]
  · split <;> simp [h]

theorem kvapp_keeps {s : State} {w : Who} {op : CoachOp} {cl : Nat} {r : State × Nat × Nat} (e : kvapp s w op cl = .ok r)
    (h : Keeps a s) : Keeps a r.1 := by
  unfold kvapp at e
  extract_lets c tag rec_ d t new pool n sh k slot len outside body spans pos at e
  iterate 7
    split at e
    · cases e
  have read := (recordRead_keeps s op w.part cl rec_ len).mpr h
  split at e
  next s1 bs e1 =>
    rw [e1] at read
    extract_lets popped counted made linked s2 at e
    cases e
    refine vputField_keeps (vputField_keeps (Keeps.foldl ?_ _ fun _ _ hs => vputBytes_keeps hs ..) ..) ..
    have made_keeps : Keeps a made := vputBytes_keeps (vputField_keeps (vput_keeps read ..) ..) ..
    have linked_keeps : Keeps a linked := by
      simp only [linked]
      split <;> simp [made_keeps]
    simp only [s2]
    split
    · exact vput_keeps linked_keeps ..
    · exact read

theorem retspan_keeps {s : State} {w : Who} {op : CoachOp} {close pfx : Bool} {r : State × Nat × Nat}
    (e : retspan s w op close pfx = .ok r) (h : Keeps a s) : Keeps a r.1 := by
  unfold retspan at e
  extract_lets c tag prefix_ owned before own pre spans lowered at e
  iterate 4
    split at e
    · cases e
  have retired : Keeps a (own.foldl (retireOne w c tag close) (s, 0, 0)).1 :=
    Keeps.foldl_fst h _ fun _ _ hq => retireOne_keeps hq ..
  split at e
  next s1 prev gone e1 =>
    rw [e1] at retired
    extract_lets tail sealed closed dropped at e
    cases e
    have sealed_keeps : Keeps a sealed := by
      simp only [sealed]
      split <;> simp [retired]
    have closed_keeps : Keeps a closed := by
      simp only [closed]
      split <;> simp [sealed_keeps]
    simp only [dropped]
    split
    · exact vput_keeps (closed_keeps.foldl _ fun _ _ hs => dropRef_keeps hs ..) ..
    · exact closed_keeps

theorem kvpin_keeps {s : State} {w : Who} {op : CoachOp} {r : State × Nat × Nat} (e : kvpin s w op = .ok r) (h : Keeps a s) :
    Keeps a r.1 := by
  unfold kvpin at e
  extract_lets k p at e
  iterate 3
    split at e
    · cases e
  cases e
  exact vputField_keeps h ..

theorem kvunpin_keeps {s : State} {w : Who} {op : CoachOp} {r : State × Nat × Nat} (e : kvunpin s w op = .ok r) (h : Keeps a s) :
    Keeps a r.1 := by
  unfold kvunpin at e
  extract_lets k frees p at e
  iterate 2
    split at e
    · cases e
  cases e
  exact freeIfDue_keeps (vputField_keeps h ..) ..

theorem kvqry_keeps {s : State} {w : Who} {op : CoachOp} {query : Nat} {r : State × Nat × Nat} (e : kvqry s w op query = .ok r)
    (h : Keeps a s) : Keeps a r.1 := by
  unfold kvqry at e
  dsimp only at e
  split at e
  all_goals
    split at e
    · cases e
    · cases e
      exact h

theorem coachEffect_keeps {s : State} {w : Who} {op : CoachOp} {r : State × Nat × Nat} (e : coachEffect s w op = .ok r)
    (h : Keeps a s) : Keeps a r.1 := by
  unfold coachEffect at e
  split at e
  · exact kvapp_keeps e h
  · exact retspan_keeps e h
  · exact kvpin_keeps e h
  · exact kvunpin_keeps e h
  · exact kvqry_keeps e h
  · exact kvqry_keeps e h
  · exact kvqry_keeps e h
  · exact kvqry_keeps e h
  · cases e
    exact h

@[simp] theorem coachReply_keeps (s : State) (op : CoachOp) (v extra : Nat) : Keeps a (coachReply s op v extra) ↔ Keeps a s := by
  simp [coachReply]

@[simp] theorem execCoachOpApply_keeps (die : Nat) {s : State} (h : Keeps a s) : KeepsOut a (execCoachOpApply die s) := by
  rw [execCoachOpApply, keepsOut_next]
  split
  · exact h
  · dsimp only
    split
    · exact (coachReply_keeps ..).mpr (coachEffect_keeps ‹_› (by simpa using h))
    · simpa using h

@[simp] theorem finishWait_keeps (c : Ctl) (xd : BitVec 5) (s : State) : Keeps a (finishWait c xd s) ↔ Keeps a s := by
  unfold finishWait
  split
  · split <;> simp
  · rfl

@[simp] theorem execCoachOpComplete_keeps (gang hart : Nat) {s : State} (h : Keeps a s) :
    KeepsOut a (execCoachOpComplete gang hart s) := by
  rw [execCoachOpComplete, keepsOut_next]
  refine withHart_keeps h _ _ fun s hs => ?_
  split
  · split <;> simp [hs]
  · exact hs

/-! Walks. -/

@[simp] theorem setWalk_keeps (s : State) (id : Nat) (f : Walk → Walk) : Keeps a (setWalk s id f) ↔ Keeps a s := by
  simp [setWalk]

@[simp] theorem endWalk_keeps {s : State} (h : Keeps a s) (q : Copy) (bad : Bool) : Keeps a (endWalk s q bad) := by
  unfold endWalk
  dsimp only
  split
  · split <;> simp [h]
  · simpa using h

@[simp] theorem startCarriage_keeps {s : State} (h : Keeps a s) (q : Copy) (w : Walk) : Keeps a (startCarriage s q w) := by
  unfold startCarriage
  dsimp only
  split
  · simp [h]
  · split
    · split <;> simp [h]
    · have read := spaceRead_keeps h q 1 0 w.va 64
      split
      · exact endWalk_keeps (by simpa using read) ..
      · split
        · split
          · exact endWalk_keeps (by simpa using read) ..
          · simpa using read
        · simpa using read

@[simp] theorem execKvwalkCarriageStart_keeps (chan : Nat) {s : State} (h : Keeps a s) :
    KeepsOut a (execKvwalkCarriageStart chan s) := by
  rw [execKvwalkCarriageStart, keepsOut_next]
  split
  · exact h
  · dsimp only
    split
    · exact h
    · split <;> simp [h]

/-! Binning and replays. -/

@[simp] theorem putBinSet_keeps (s : State) (g k : Nat) (b : BinSet) : Keeps a (putBinSet s g k b) ↔ Keeps a s := by
  simp [putBinSet]

@[simp] theorem storePairAt_keeps {s : State} (h : Keeps a s) (w : Who) (va : Nat) (p : BinPair) : Keeps a (storePairAt s w va p) := by
  simp [storePairAt, h]

@[simp] theorem dropPair_keeps (s : State) (p : BinPair) : Keeps a (dropPair s p) ↔ Keeps a s := by
  simp [dropPair]

@[simp] theorem appendPair_keeps {s : State} (h : Keeps a s) (p : BinPair) : Keeps a (appendPair s p) := by
  unfold appendPair
  dsimp only
  split
  · simpa using h
  · split
    · simpa using h
    · split
      · split <;> simp [h]
      · split <;> simp [h]
      · simp [h]
      · simp [h]

@[simp] theorem execBinPairWrite_keeps (die : Nat) {s : State} (h : Keeps a s) : KeepsOut a (execBinPairWrite die s) := by
  rw [execBinPairWrite, keepsOut_next]
  split
  · exact h
  · dsimp only
    split
    · simpa using h
    · split <;> simp [h]

@[simp] theorem execBinflushComplete_keeps (gang hart : Nat) {s : State} (h : Keeps a s) :
    KeepsOut a (execBinflushComplete gang hart s) := by
  rw [execBinflushComplete, keepsOut_next]
  refine withHart_keeps h _ _ fun s hs => ?_
  split
  · split
    · split <;> simp [hs]
    · exact hs
  · exact hs

@[simp] theorem replayApply_keeps {s : State} (h : Keeps a s) (q : Copy) (ad v : Nat) : Keeps a (replayApply s q ad v) := by
  unfold replayApply
  extract_lets op n
  split
  · split
    · simpa using h
    · split
      · exact h
      · exact putScratch_keeps h ..
  · simpa using h
  · simpa using h

@[simp] theorem replayRecord_keeps (s : State) (q : Copy) (code key va : Nat) : Keeps a (replayRecord s q code key va) ↔ Keeps a s := by
  unfold replayRecord
  split <;> simp

@[simp] theorem replayPair_keeps {r : State × Bool} (h : Keeps a r.1) (f : List Nat) (q : Copy) (p : Nat × Nat) :
    Keeps a (replayPair f q r p).1 := by
  unfold replayPair
  dsimp only
  split
  · exact h
  · split
    · split <;> simp [h]
    · split <;> simp [h]

@[simp] theorem replayClear_keeps {s : State} (h : Keeps a s) (f : List Nat) (q : Copy) : Keeps a (replayClear f q s) := by
  unfold replayClear
  split
  · exact h.foldl _ fun s x hs => noteImage_keeps (vputField_keeps hs ..) ..
  · exact h

@[simp] theorem continueReplay_keeps {s : State} (h : Keeps a s) (q : Copy) : Keeps a (continueReplay s q) := by
  unfold continueReplay
  split
  · simpa using h
  · next f _ =>
    have replayed : Keeps a (((replayPairs f q.indices (replayRegion q)).drop q.pos).foldl (replayPair f q) (s, false)).1 :=
      Keeps.foldl_fst h _ fun _ _ hr => replayPair_keeps hr ..
    dsimp only
    split
    · exact replayed
    · split
      · exact (endCopy_keeps ..).mpr (writeReport_keeps (replayClear_keeps replayed ..) _)
      · exact replayed

@[simp] theorem beginReplay_keeps {s : State} (h : Keeps a s) (q : Copy) : Keeps a (beginReplay s q) := by
  unfold beginReplay
  dsimp only
  split
  · simpa using h
  · split
    · simpa using h
    · split <;> simp [h]

@[simp] theorem reissue_keeps {s : State} (h : Keeps a s) (q : Copy) : Keeps a (reissue s q) := by
  unfold reissue
  dsimp only
  split <;> simp [h]

@[simp] theorem execCopyStart_keeps (chan : Nat) {s : State} (h : Keeps a s) : KeepsOut a (execCopyStart chan s) := by
  rw [execCopyStart, keepsOut_next]
  split
  · exact h
  · dsimp only
    split
    · exact h
    · split
      · simp [h]
      · split
        · simpa using h
        · split
          · simpa using h
          · split <;> simp [h]

@[simp] theorem execChunkRetry_keeps (chan k : Nat) {s : State} (h : Keeps a s) : KeepsOut a (execChunkRetry chan k s) := by
  rw [execChunkRetry, keepsOut_next]
  split
  · split <;> simp [h]
  · exact h

@[simp] theorem execApertureQueueAccept_keeps (gang hart : Nat) {s : State} (h : Keeps a s) :
    KeepsOut a (execApertureQueueAccept gang hart s) := by
  rw [execApertureQueueAccept, keepsOut_next]
  refine withHart_keeps h _ _ fun s hs => ?_
  have accept (c : Ctl) (o : XI) : Keeps a (match homePlace s (effAddr s o.xa c.imm 16) with
      | .aperture bte ch _ =>
        if apertureFull s (captureCopy s bte ch (rx s o.xd) (rx s (o.xd + 1))) then s
        else apertureStore c (modH s (fun h => { h with wait := none })) (captureCopy s bte ch (rx s o.xd) (rx s (o.xd + 1)))
      | _ => s) := by
    split
    · split <;> simp [hs]
    · exact hs
  split
  · dsimp only
    split
    · exact accept ..
    · exact accept ..
    · exact hs
  · exact hs

end Sys2Proof.Machine
end

section
/-! The stored form along a step, sixth part: the gang scheduler with its saves and restores. -/
namespace Sys2Proof.Machine

variable {a : State}

/-! Requests, dependences and acceptance. -/

theorem findGang_mem {s : State} {key : Nat} {g : Gang} (e : findGang s key = some g) : g ∈ s.gangs := List.mem_of_find?_eq_some e

@[simp] theorem passNeeded_keeps (s : State) (part : Nat) : Keeps a (passNeeded s part) ↔ Keeps a s := by
  simp [passNeeded]

@[simp] theorem countEnd_keeps (s : State) (part : Nat) : Keeps a (countEnd s part) ↔ Keeps a s := by
  simp [countEnd]

@[simp] theorem dropHarts_keeps (s : State) (key : Nat) : Keeps a (dropHarts s key) ↔ Keeps a s := keeps_congr rfl rfl rfl rfl

@[simp] theorem dropEvents_keeps (s : State) (key : Nat) : Keeps a (dropEvents s key) ↔ Keeps a s := by
  simp [dropEvents]

@[simp] theorem pruneEnded_keeps {s : State} (h : Keeps a s) (part : Nat) : Keeps a (pruneEnded s part) :=
  h.fromGangs (fun g hg => .inr ⟨g, (List.mem_filter.mp hg).1, rfl⟩) rfl rfl rfl

/-- Gangs go, and one that has saved nothing comes. -/
theorem Keeps.replaceGangs {s t : State} (h : Keeps a s) {p : Gang → Bool} {g : Gang} (saved : g.saved = none)
    (gangs : t.gangs = s.gangs.filter p ++ [g]) (mem : t.mem = s.mem) (map : t.dieMap = s.dieMap) (change : t.dieChange = s.dieChange) :
    Keeps a t := by
  refine h.fromGangs (fun x hx => ?_) mem map change
  rw [gangs, List.mem_append, List.mem_filter, List.mem_singleton] at hx
  rcases hx with ⟨old, -⟩ | rfl
  · exact .inr ⟨x, old, rfl⟩
  · exact .inl saved

@[simp] theorem endRecord_keeps {s : State} (h : Keeps a s) (g : Gang) (st : GangState) : Keeps a (endRecord s g st) := by
  unfold endRecord
  extract_lets hs exits s1 e gone s2 s3
  rw [schedule_keeps]
  refine pruneEnded_keeps ?_ _
  have ended : Keeps a s2 := (dropHarts_keeps ..).mpr
    (((countEnd_keeps ..).mpr h : Keeps a s1).replaceGangs (g := e) rfl rfl rfl rfl rfl)
  simp only [s3]
  split <;> simp [ended]

@[simp] theorem settleGang_keeps {s : State} (h : Keeps a s) (g : Gang) : Keeps a (settleGang s g) := by
  unfold settleGang
  dsimp only
  split
  · simp [h]
  · split <;> simp [h]

@[simp] theorem settleDeps_keeps (n : Nat) {s : State} (h : Keeps a s) (part : Nat) : Keeps a (settleDeps n s part) := by
  induction n generalizing s with
  | zero => exact h
  | succ n ih => exact ih (h.foldl _ fun _ _ hs => settleGang_keeps hs _)

@[simp] theorem acceptLaunch_keeps {s : State} (h : Keeps a s) (part asid : Nat) (va op pc : Word) :
    Keeps a (acceptLaunch s part asid va op pc).1 := by
  unfold acceptLaunch
  extract_lets id seq add
  have added (l : Launch) (st : GangState) : Keeps a (add l st) := by
    simp only [add, modPart_keeps]
    exact h.replaceGangs (g := Gang.accepted part id seq l pc st) rfl rfl rfl rfl rfl
  split
  · exact h
  · split
    · extract_lets g s1 no
      simp only [schedule_keeps, addRecord_keeps]
      have counted : Keeps a s1 := (countEnd_keeps ..).mpr (added ..)
      refine pruneEnded_keeps ?_ _
      refine counted.mapGangs (f := fun x => if x.id == gangKey part id && x.ended then { x with endNo := no } else x)
        (fun x => .inl ?_) rfl rfl rfl rfl
      split <;> rfl
    · split
      · exact h
      · exact (schedule_keeps ..).mpr (settleDeps_keeps _ (modGang_keeps (added ..) _ (by simp)) _)

@[simp] theorem answer_keeps (s : State) (r : Request) (v : Nat) : Keeps a (answer s r v) ↔ Keeps a s := by
  simp [answer]

@[simp] theorem execLaunchArrival_keeps (n : Nat) {s : State} (h : Keeps a s) : KeepsOut a (execLaunchArrival n s) := by
  rw [execLaunchArrival, keepsOut_next]
  split
  · exact h
  · simpa using acceptLaunch_keeps (by simpa using h) ..

@[simp] theorem execGqryArrival_keeps (n : Nat) {s : State} (h : Keeps a s) : KeepsOut a (execGqryArrival n s) := by
  rw [execGqryArrival, keepsOut_next]
  split
  · exact h
  · split <;> simp [h]

/-! Placement. -/

@[simp] theorem placeGang_keeps {s : State} (h : Keeps a s) (g : Gang) (c : Nat) : Keeps a (placeGang s g c) := by
  simp [placeGang, h]

@[simp] theorem stopGang_keeps (s : State) (gang : Nat) : Keeps a (stopGang s gang) ↔ Keeps a s := by
  simp [stopGang]

@[simp] theorem makeVictim_keeps {s : State} (h : Keeps a s) (v : Gang) : Keeps a (makeVictim s v) := by
  unfold makeVictim
  dsimp only
  split <;> simp [h]

@[simp] theorem tryPlace_keeps {q : State × Bool × Bool} (h : Keeps a q.1) (id : Nat) : Keeps a (tryPlace q id).1 := by
  unfold tryPlace
  dsimp only
  split
  · exact h
  · split
    · split
      · exact h
      · split
        · exact placeGang_keeps h ..
        · split
          · exact h
          · exact modGang_keeps h _ (by simp)
    · split
      · exact h
      · split
        · exact placeGang_keeps h ..
        · split
          · exact h
          · split
            · split
              · exact h
              · exact (modGang_keeps h _ (by simp)).foldl _ fun _ _ hs => makeVictim_keeps hs _
            · exact h

@[simp] theorem execPlacementPass_keeps (part : Nat) {s : State} (h : Keeps a s) : KeepsOut a (execPlacementPass part s) := by
  rw [execPlacementPass, keepsOut_next]
  have settled := settleDeps_keeps s.gangs.length h part
  split
  · exact Keeps.foldl_fst (by simpa using settled) _ fun _ _ hq => tryPlace_keeps hq _
  · exact settled

/-! The prologue. -/

@[simp] theorem strikeClusters_keeps (g : Gang) (s : State) : Keeps a (strikeClusters g s) ↔ Keeps a s := by
  simp [strikeClusters]

@[simp] theorem zeroClusters_keeps {s : State} (h : Keeps a s) (g : Gang) : Keeps a (zeroClusters s g) := by
  unfold zeroClusters
  dsimp only
  rw [strikeClusters_keeps]
  exact h.setMem (fun _ wf => canonical_ssplice _ _ wf (canonical_nil _)) rfl rfl rfl

@[simp] theorem loadClusters_keeps (s : State) (g : Gang) : Keeps a (loadClusters s g) ↔ Keeps a s := by
  refine foldl_keeps (fun s i => ?_) ..
  dsimp only
  rw [foldl_keeps, foldl_keeps]
  · intro s n
    simp
  · intro s t
    simp

@[simp] theorem lockFill_keeps (s : State) (g : Gang) : Keeps a (lockFill s g) ↔ Keeps a s := by
  simp [lockFill]

@[simp] theorem freshPrologue_keeps {s : State} (h : Keeps a s) (g : Gang) : Keeps a (freshPrologue s g) := by
  unfold freshPrologue
  extract_lets s1 t hs s2
  have started : Keeps a s2 :=
    modGang_keeps ((keeps_mk ..).mpr ((loadClusters_keeps ..).mpr (zeroClusters_keeps h g))) _ (by simp)
  rw [schedule_keeps]
  split <;> simp [started]

@[simp] theorem shiftGang_keeps {s : State} (h : Keeps a s) (key c0 d : Nat) : Keeps a (shiftGang s key c0 d) :=
  modGang_keeps ((keeps_mk ..).mpr h) _ (by simp)

@[simp] theorem rampEvents_keeps (s : State) (core : Nat) : Keeps a (rampEvents s core) ↔ Keeps a s := by
  unfold rampEvents
  dsimp only
  split
  · rfl
  · split <;> simp
  · simp
  · split <;> simp
  · split <;> simp

theorem restoreClusters_keeps {s : State} (h : Keeps a s) (g : Gang) (v : Saved) (hv : StoredWf a → Memory.wf v.scratch = true) :
    Keeps a (restoreClusters s g v) := by
  unfold restoreClusters
  refine (zeroClusters_keeps h g).setMem (fun stored wf => ?_) rfl rfl rfl
  exact canonical_ssplice _ _ wf (canonical_filter _ (hv stored))

theorem resumePrologue_keeps {s : State} (h : Keeps a s) (g : Gang) (v : Saved) (hv : StoredWf a → Memory.wf v.scratch = true) :
    Keeps a (resumePrologue s g v) := by
  unfold resumePrologue
  extract_lets s1 cs d hs copies s2 start s3 s4 s5
  have moved : Keeps a s3 := modGang_keeps (shiftGang_keeps ((keeps_mk ..).mpr (restoreClusters_keeps h g v hv)) ..) _ (by simp)
  rw [schedule_keeps]
  simp only [s5, s4]
  split <;> simp [moved]

@[simp] theorem execPrologue_keeps (gang : Nat) {s : State} (h : Keeps a s) : KeepsOut a (execPrologue gang s) := by
  rw [execPrologue, keepsOut_next]
  split
  · exact h
  · next g found =>
    split
    · exact h
    · split
      · exact resumePrologue_keeps h _ _ fun wf => (h.stored wf).2 g (findGang_mem found) _ ‹_›
      · exact freshPrologue_keeps h _

@[simp] theorem execGangStart_keeps (gang : Nat) {s : State} (h : Keeps a s) : KeepsOut a (execGangStart gang s) := by
  rw [execGangStart, keepsOut_next]
  split
  · exact h
  · split <;> simp [h]

/-! Pre-emption and the end of a gang. -/

@[simp] theorem spillHart_keeps {s : State} (h : Keeps a s) (x : Hart) : Keeps a (spillHart s x) := by
  refine withHart_keeps h _ _ fun s hs => hs.foldl _ fun s n hs => ?_
  split <;> simp [hs]

@[simp] theorem saveGang_keeps {s : State} (h : Keeps a s) (g : Gang) : Keeps a (saveGang s g) := by
  unfold saveGang
  extract_lets b n c s1 s2 v hs s3 s4 s5
  have flushed : Keeps a s2 :=
    (h.foldl _ fun _ _ hs => spillHart_keeps hs _ : Keeps a s1).foldl _ fun _ _ hs => flushCarts_keeps hs _
  have dropped : Keeps a s4 := by simp [s4, s3, flushed]
  have saved : Keeps a s5 := by
    refine dropped.setGangs (fun wf wf4 x hx w hw => ?_) rfl rfl rfl
    obtain ⟨y, hy, rfl⟩ := List.mem_map.mp hx
    split at hw
    · cases hw
      exact canonical_sslice _ _ (flushed.stored wf).1
    · exact wf4.2 y hy w hw
  simp [saved]

@[simp] theorem execPreemptionStop_keeps (gang : Nat) {s : State} (h : Keeps a s) : KeepsOut a (execPreemptionStop gang s) := by
  rw [execPreemptionStop, keepsOut_next]
  split
  · exact h
  · split <;> simp [h]

@[simp] theorem execGangRetire_keeps (gang : Nat) {s : State} (h : Keeps a s) : KeepsOut a (execGangRetire gang s) := by
  rw [execGangRetire, keepsOut_next]
  split
  · exact h
  · split
    · exact h
    · split <;> simp [h]

@[simp] theorem execGangFaultEnd_keeps (gang : Nat) {s : State} (h : Keeps a s) : KeepsOut a (execGangFaultEnd gang s) := by
  rw [execGangFaultEnd, keepsOut_next]
  split
  · exact h
  · split
    · exact h
    · exact endRecord_keeps (by simpa using h) ..

end Sys2Proof.Machine
end

section
/-! The stored form along a step, seventh part: waits, timing holds, records, and what the host and the driver do. -/
namespace Sys2Proof.Machine

variable {a : State}

/-! The end of waits. -/

theorem after_keeps {s : State} {o : Out} (h : Keeps a s) (ho : KeepsOut a o) : Keeps a (after s o) := by
  cases o with
  | next t => exact ho t rfl
  | fault f => exact h
  | refused f => exact h

@[simp] theorem resumeWait_keeps {s : State} (h : Keeps a s) : Keeps a (resumeWait s) := by
  unfold resumeWait
  split
  · exact h
  · next w _ =>
    have freed : Keeps a (modH s (fun h => { h with wait := none })) := (modH_keeps ..).mpr h
    have again (i : Instr) (words : (parts i).isSome = true) :
        Keeps a (after s (exec i (modH s (fun h => { h with wait := none })))) := after_keeps h (exec_keeps words freed)
    extract_lets s1 t
    have resumed : Keeps a t := by
      simp only [t]
      split
      · split <;> simp [s1, h]
      · exact again (.waitm ..) rfl
      · exact again (.mwait ..) rfl
      · exact again (.tclr ..) rfl
      · exact again (.setvl ..) rfl
      · exact again (.vdecl ..) rfl
      · exact again (.binput ..) rfl
      · exact again (.exit ..) rfl
      · simpa using h
      · simpa using h
      · exact h
    split
    · exact h
    · exact resumed

@[simp] theorem execWaitComplete_keeps (gang hart : Nat) {s : State} (h : Keeps a s) : KeepsOut a (execWaitComplete gang hart s) := by
  rw [execWaitComplete, keepsOut_next]
  exact withHart_keeps h _ _ fun _ hs => resumeWait_keeps hs

@[simp] theorem execWaitmReread_keeps (gang hart : Nat) {s : State} (h : Keeps a s) : KeepsOut a (execWaitmReread gang hart s) := by
  rw [execWaitmReread, keepsOut_next]
  refine withHart_keeps h _ _ fun s hs => ?_
  split <;> simp [hs]

@[simp] theorem execBarrierComplete_keeps (gang : Nat) {s : State} (h : Keeps a s) : KeepsOut a (execBarrierComplete gang s) := by
  unfold execBarrierComplete
  dsimp only
  split
  · rw [keepsOut_next, modHarts_keeps, foldl_keeps]
    · exact h
    · intro s x
      split <;> simp
  · exact (keepsOut_next s).mpr h

/-! Timing traps. -/

@[simp] theorem execTimingTrap_keeps (gang hart : Nat) {s : State} (h : Keeps a s) : KeepsOut a (execTimingTrap gang hart s) := by
  rw [execTimingTrap, keepsOut_next]
  split
  · split
    · exact h.foldl _ fun _ _ hs => timingTrap_keeps hs ..
    · exact h
  · exact h

@[simp] theorem hasten_keeps (s : State) (x : Hart) : Keeps a (hasten s x) ↔ Keeps a s := by
  unfold hasten
  rw [foldl_fst_keeps]
  intro q p
  dsimp only
  split
  · rfl
  · split <;> simp

@[simp] theorem hastenGang_keeps (s : State) (g : Nat) : Keeps a (hastenGang s g) ↔ Keeps a s := by
  simp [hastenGang]

@[simp] theorem endHold_keeps {s : State} (h : Keeps a s) (g : Gang) (q : Hold) : Keeps a (endHold s g q) := by
  unfold endHold
  dsimp only
  rw [foldl_keeps (fun s x => schedule_keeps ..), modHarts_keeps]
  exact shiftGang_keeps (modGang_keeps h _ (by simp)) ..

@[simp] theorem settleHold_keeps {s : State} (h : Keeps a s) (g : Gang) (q : Hold) : Keeps a (settleHold s g q) := by
  unfold settleHold
  dsimp only
  split <;> simp [h]

@[simp] theorem conditionMet_keeps {s : State} (h : Keeps a s) (g : Gang) (q : Hold) (k : Nat) : Keeps a (conditionMet s g q k) :=
  settleHold_keeps h ..

@[simp] theorem execTimingConditionMet_keeps (gang hart : Nat) {s : State} (h : Keeps a s) :
    KeepsOut a (execTimingConditionMet gang hart s) := by
  rw [execTimingConditionMet, keepsOut_next]
  split
  · split
    · split
      · exact h
      · split <;> simp [h]
    · exact h
  · exact h

@[simp] theorem execTimingRestart_keeps (gang hart : Nat) {s : State} (h : Keeps a s) : KeepsOut a (execTimingRestart gang hart s) := by
  rw [execTimingRestart, keepsOut_next]
  split
  · split <;> simp [h]
  · exact h

@[simp] theorem execWaitRelease_keeps (gang hart : Nat) {s : State} (h : Keeps a s) : KeepsOut a (execWaitRelease gang hart s) := by
  rw [execWaitRelease, keepsOut_next]
  split
  · dsimp only
    split
    · exact h
    · split
      · split <;> split <;> simp [h]
      · split <;> simp [h]
  · exact h

/-! Delivery of records. -/

theorem mailboxWrite_keeps {s t : State} {part asid : Nat} {mbox : Word} {d : List Word} {slot : Nat}
    (e : mailboxWrite s part asid mbox d = some (t, slot)) (h : Keeps a s) : Keeps a t := by
  unfold mailboxWrite at e
  dsimp only at e
  split at e
  · cases e
  · split at e
    · cases e
    · split at e
      · cases e
      · split at e
        · cases e
        · have first := Keeps.of_eq_mk ‹_› (vaWrite_keeps h ..)
          split at e
          · cases e
          · have second := Keeps.of_eq_mk ‹_› (vaWrite_keeps first ..)
            cases e
            exact second

@[simp] theorem mailboxInterrupt_keeps {s : State} (h : Keeps a s) (gang : Nat) (r : Record) (slot : Nat) :
    Keeps a (mailboxInterrupt s gang r slot) := by
  unfold mailboxInterrupt
  dsimp only
  rw [foldl_keeps]
  · simp [h]
  · intro s x
    split <;> simp

@[simp] theorem deliverFrom2_keeps {s : State} (h : Keeps a s) (r : Record) (esc : Bool) : Keeps a (deliverFrom2 s r esc) := by
  unfold deliverFrom2
  split
  · simpa using h
  · split
    · exact mailboxInterrupt_keeps (mailboxWrite_keeps ‹_› h) ..
    · simpa using h

@[simp] theorem deliver_keeps {s : State} (h : Keeps a s) (r : Record) : Keeps a (deliver s r) := by
  unfold deliver
  split
  · split
    · exact mailboxInterrupt_keeps (mailboxWrite_keeps ‹_› h) ..
    · exact deliverFrom2_keeps h ..
  · exact deliverFrom2_keeps h ..

@[simp] theorem execFaultRecordDelivery_keeps (n : Nat) {s : State} (h : Keeps a s) : KeepsOut a (execFaultRecordDelivery n s) := by
  rw [execFaultRecordDelivery, keepsOut_next]
  split <;> simp [h]

/-! What the host and the driver do. -/

@[simp] theorem arriveFirst_keeps (n : Nat) {s : State} (h : Keeps a s) : Keeps a (arriveFirst n s) := by
  induction n generalizing s with
  | zero => exact h
  | succ n ih =>
    unfold arriveFirst
    split
    · exact h
    · split
      · exact ih (execLaunchArrival_keeps _ h _ ‹_›)
      · exact h

@[simp] theorem execHostLaunch_keeps (vf : Nat) (lid : Word) {s : State} (h : Keeps a s) : KeepsOut a (execHostLaunch vf lid s) := by
  rw [execHostLaunch, keepsOut_next]
  split
  · exact h
  · simpa using acceptLaunch_keeps (arriveFirst_keeps _ h) ..

@[simp] theorem commandDone_keeps (s : State) (vf asid st : Nat) : Keeps a (commandDone s vf asid st) ↔ Keeps a s := by
  unfold commandDone
  dsimp only
  split <;> simp

@[simp] theorem noteArg_keeps (s : State) (vf : Nat) (arg : Word) : Keeps a (noteArg s vf arg) ↔ Keeps a s := by
  simp [noteArg]

@[simp] theorem lockPage_keeps (s : State) (vf : Nat) (cmd arg : Word) : Keeps a (lockPage s vf cmd arg).1 ↔ Keeps a s := by
  unfold lockPage
  dsimp only
  split
  · rfl
  · simp

@[simp] theorem unlockPage_keeps (s : State) (vf : Nat) (cmd arg : Word) : Keeps a (unlockPage s vf cmd arg) ↔ Keeps a s := by
  simp [unlockPage]

@[simp] theorem execLock_keeps (vf : Nat) (cmd arg : Word) {s : State} (h : Keeps a s) : KeepsOut a (execLock vf cmd arg s) := by
  simp [execLock, h]

@[simp] theorem execUnlock_keeps (vf : Nat) (cmd arg : Word) {s : State} (h : Keeps a s) : KeepsOut a (execUnlock vf cmd arg s) := by
  simp [execUnlock, h]

@[simp] theorem commandRuns_keeps (s : State) (vf : Nat) (cmd arg : Word) (t : Nat) (e : Event) :
    Keeps a (commandRuns s vf cmd arg t e) ↔ Keeps a s := by
  simp [commandRuns]

@[simp] theorem execPageInvalidate_keeps (vf : Nat) (cmd arg : Word) {s : State} (h : Keeps a s) :
    KeepsOut a (execPageInvalidate vf cmd arg s) := by
  rw [execPageInvalidate, keepsOut_next]
  split
  · exact h
  · dsimp only
    split
    · simpa using h
    · split <;> simp [h]

@[simp] theorem execMigrate_keeps (vf : Nat) (cmd arg : Word) {s : State} (h : Keeps a s) : KeepsOut a (execMigrate vf cmd arg s) := by
  rw [execMigrate, keepsOut_next]
  split
  · exact h
  · dsimp only
    split
    · simpa using h
    · split <;> simp [h]

@[simp] theorem endMigration_keeps {s : State} (h : Keeps a s) (m : Migration) : Keeps a (endMigration s m) := by
  unfold endMigration
  extract_lets s1 s2 relock
  have relock_keeps (s : State) (lv : Nat) : Keeps a (relock s lv) ↔ Keeps a s := by
    simp only [relock]
    split <;> simp
  simp [relock_keeps, s2, s1, h]

@[simp] theorem hbmRecord_keeps (s : State) (part code pa : Nat) (synd : Word) :
    Keeps a (hbmRecord s part code pa synd) ↔ Keeps a s := by
  simp [hbmRecord]

@[simp] theorem execMigrationChunkCopy_keeps (n : Nat) {s : State} (h : Keeps a s) : KeepsOut a (execMigrationChunkCopy n s) := by
  rw [execMigrationChunkCopy, keepsOut_next]
  split
  · exact h
  · next m _ =>
    split
    · exact endMigration_keeps h _
    · extract_lets bad s1 s2
      have copied : Keeps a s2 := copyMigrating_keeps (by simpa [s1] using h) _
      split <;> simp [copied]

@[simp] theorem barFault_keeps (s : State) (vf off : Nat) (e : AccessErr) : Keeps a (barFault s vf off e) ↔ Keeps a s := by
  unfold barFault
  dsimp only
  split <;> simp

@[simp] theorem execBar2Read_keeps (vf off len : Nat) {s : State} (h : Keeps a s) : KeepsOut a (execBar2Read vf off len s) := by
  rw [execBar2Read, keepsOut_next]
  split
  · exact h
  · split
    · simpa using h
    · split
      · simpa using vaRead_keeps ‹_› h
      · simpa using h

@[simp] theorem execBar2Write_keeps (vf off : Nat) (bytes : List Byte) {s : State} (h : Keeps a s) :
    KeepsOut a (execBar2Write vf off bytes s) := by
  rw [execBar2Write, keepsOut_next]
  split
  · exact h
  · split
    · simpa using h
    · split <;> simp [h]

@[simp] theorem setDieStat_keeps (s : State) (v : Word) : Keeps a (setDieStat s v) ↔ Keeps a s := by
  unfold setDieStat
  split <;> simp

@[simp] theorem execShareWrite_keeps (v : Word) {s : State} (h : Keeps a s) : KeepsOut a (execShareWrite v s) := by
  rw [execShareWrite, keepsOut_next]
  split
  · exact h
  · simpa using h

@[simp] theorem setLog_keeps (s : State) (part k : Nat) (v : Word) : Keeps a (setLog s part k v) ↔ Keeps a s := by
  simp [setLog]

@[simp] theorem execMailboxWindowWrite_keeps (vf off : Nat) (v : Word) {s : State} (h : Keeps a s) :
    KeepsOut a (execMailboxWindowWrite vf off v s) := by
  rw [execMailboxWindowWrite, keepsOut_next]
  split <;> simp [h]

@[simp] theorem unmaskMsi_keeps (s : State) (fn : Nat) : Keeps a (unmaskMsi s fn) ↔ Keeps a s := by
  simp [unmaskMsi]

@[simp] theorem startVf_keeps (s : State) (vf off : Nat) (v : Word) (e : Event) : Keeps a (startVf s vf off v e) ↔ Keeps a s := by
  unfold startVf
  split
  · simp
  · split
    · split <;> simp
    · simp

@[simp] theorem vfWrite_keeps (s : State) (vf off : Nat) (v : Word) : Keeps a (vfWrite s vf off v) ↔ Keeps a s := by
  unfold vfWrite
  iterate 7
    split
    · simp
  split
  · split <;> simp
  · split <;> simp

@[simp] theorem pfWrite_keeps (s : State) (off : Nat) (v : Word) : Keeps a (pfWrite s off v) ↔ Keeps a s := by
  unfold pfWrite
  split
  · simp
  · split <;> simp

@[simp] theorem execRegisterWrite_keeps (pf : Bool) (vf off : Nat) (v : Word) {s : State} (h : Keeps a s) :
    KeepsOut a (execRegisterWrite pf vf off v s) := by
  rw [execRegisterWrite, keepsOut_next]
  split
  · exact h
  · split
    · simpa using h
    · split
      · exact h
      · split <;> simp [h]

end Sys2Proof.Machine
end

section
/-! The stored form along a step, last part: soft errors, the debugger, boot, the attempt of a hart to issue, and the step. -/
namespace Sys2Proof.Machine

variable {a : State}

/-! Soft errors, caches and the stop of dies. -/

@[simp] theorem coreRecord_keeps (s : State) (code core addr : Nat) (synd : Word) :
    Keeps a (coreRecord s code core addr synd) ↔ Keeps a s := by
  simp [coreRecord]

@[simp] theorem failRow_keeps (s : State) (row : Nat) : Keeps a (failRow s row) ↔ Keeps a s := by
  unfold failRow
  split <;> simp

@[simp] theorem execUncorrectedError_keeps (space addr : Nat) {s : State} (h : Keeps a s) :
    KeepsOut a (execUncorrectedError space addr s) := by
  unfold execUncorrectedError
  extract_lets synd s1 s2 g core r
  have counted : Keeps a s1 := (keeps_mk ..).mpr h
  have marked : Keeps a s2 := (keeps_mk ..).mpr counted
  rw [keepsOut_next]
  split
  · simpa using counted
  · split <;> simpa using marked
  · simpa using counted
  · exact (addRecord_keeps ..).mpr ((keeps_mk ..).mpr counted)
  · simpa using counted
  · split
    · exact withHart_keeps counted _ _ fun _ hs => poisonEnd_keeps hs _
    · exact counted

@[simp] theorem execIcacheParityRefill_keeps (va : Word) {s : State} (h : Keeps a s) : KeepsOut a (execIcacheParityRefill va s) := by
  rw [execIcacheParityRefill, keepsOut_next]
  split
  · simp [h]
  · split <;> simp [h]

@[simp] theorem stopDies_keeps {s : State} (h : Keeps a s) (dies : List Nat) (code : BitVec 8) : Keeps a (stopDies s dies code) := by
  unfold stopDies
  dsimp only
  refine (keeps_mk ..).mpr ((foldl_keeps (fun s d => addRecord_keeps ..) ..).mpr (h.foldl _ fun s g hs => endGang_keeps ?_ _))
  simpa using hs

/-! The debugger. -/

@[simp] theorem dbgBegin_keeps (s : State) (op arg hart gang : Nat) : Keeps a (dbgBegin s op arg hart gang) ↔ Keeps a s := by
  simp [dbgBegin]

@[simp] theorem dbgEnd_keeps (s : State) (refused : Bool) : Keeps a (dbgEnd s refused) ↔ Keeps a s := by
  simp [dbgEnd]

@[simp] theorem setDbg_keeps (s : State) (k : Nat) (v : Word) : Keeps a (setDbg s k v) ↔ Keeps a s := by
  simp [setDbg]

theorem dbgCommand_keeps {s : State} (h : Keeps a s) (op arg hart gang : Nat) {f : State → Gang → State}
    (hf : ∀ s g, Keeps a s → Keeps a (f s g)) : Keeps a (dbgCommand s op arg hart gang f) := by
  unfold dbgCommand
  split
  · exact h
  · dsimp only
    split
    · exact hf _ _ ((dbgBegin_keeps ..).mpr h)
    · simpa using h

@[simp] theorem thawRamps_keeps (s : State) (g : Gang) (d : Nat) : Keeps a (thawRamps s g d) ↔ Keeps a s := by
  simp [thawRamps]

@[simp] theorem haltNow_keeps {s : State} (h : Keeps a s) (g : Gang) : Keeps a (haltNow s g) := by
  simp [haltNow, h]

@[simp] theorem execHalt_keeps (gang : Nat) {s : State} (h : Keeps a s) : KeepsOut a (execHalt gang s) := by
  have go (s : State) (g : Gang) (hs : Keeps a s) :
      Keeps a (if haltMay s g then haltNow s g else modGang s gang (fun x => { x with haltPending := true })) := by
    split <;> simp [hs]
  rw [execHalt, keepsOut_next]
  split
  · split
    · split <;> simp [h]
    · exact dbgCommand_keeps h _ _ _ _ go
  · exact dbgCommand_keeps h _ _ _ _ go

@[simp] theorem releaseCopies_keeps (s : State) (g : Gang) (d : Nat) : Keeps a (releaseCopies s g d) ↔ Keeps a s := by
  unfold releaseCopies
  dsimp only
  rw [foldl_keeps fun s c => startNext_keeps ..]
  split
  · rw [foldl_keeps]
    intro s q
    split <;> simp
  · rfl

@[simp] theorem rebaseHalted_keeps {s : State} (h : Keeps a s) (g : Gang) (d : Nat) : Keeps a (rebaseHalted s g d) :=
  modGang_keeps (by simpa using h) _ (by simp)

@[simp] theorem execRun_keeps (gang : Nat) {s : State} (h : Keeps a s) : KeepsOut a (execRun gang s) := by
  rw [execRun, keepsOut_next]
  refine dbgCommand_keeps h _ _ _ _ fun s g hs => ?_
  extract_lets halted d s1 s2 s3
  have rebased : Keeps a s1 := by
    simp only [s1]
    split <;> simp [hs]
  split
  · simpa using hs
  · exact (dbgEnd_keeps ..).mpr (modGang_keeps (by simpa [s3, s2] using rebased) _ (by simp))

@[simp] theorem execStep_keeps (gang hart : Nat) {s : State} (h : Keeps a s) : KeepsOut a (execStep gang hart s) := by
  rw [execStep, keepsOut_next]
  refine dbgCommand_keeps h _ _ _ _ fun s g hs => ?_
  split
  · split <;> simp [hs]
  · simpa using hs

@[simp] theorem endStepping_keeps (s : State) (gang hart : Nat) : Keeps a (endStepping s gang hart) ↔ Keeps a s := by
  unfold endStepping
  split
  · split <;> simp
  · simp

@[simp] theorem execQuiesce_keeps (gang : Nat) {s : State} (h : Keeps a s) : KeepsOut a (execQuiesce gang s) := by
  rw [execQuiesce, keepsOut_next]
  refine dbgCommand_keeps h _ _ _ _ fun s g hs => ?_
  split <;> simp [hs]

@[simp] theorem execReadv_keeps (gang hart v e : Nat) {s : State} (h : Keeps a s) : KeepsOut a (execReadv gang hart v e s) := by
  rw [execReadv, keepsOut_next]
  refine dbgCommand_keeps h _ _ _ _ fun s g hs => ?_
  split
  · simpa using hs
  · split <;> simp [hs]

@[simp] theorem execReadx_keeps (gang hart arg csr : Nat) {s : State} (h : Keeps a s) : KeepsOut a (execReadx gang hart arg csr s) := by
  rw [execReadx, keepsOut_next]
  refine dbgCommand_keeps h _ _ _ _ fun s g hs => ?_
  split
  · simpa using hs
  · split
    · simpa using hs
    · split <;> simp [hs]

@[simp] theorem execWritex_keeps (gang hart arg csr : Nat) (v : Word) {s : State} (h : Keeps a s) :
    KeepsOut a (execWritex gang hart arg csr v s) := by
  rw [execWritex, keepsOut_next]
  refine dbgCommand_keeps h _ _ _ _ fun s g hs => ?_
  dsimp only
  split
  · simpa using hs
  · split
    · split
      · simpa using hs
      · exact (dbgEnd_keeps ..).mpr (withHart_keeps (by simpa using hs) _ _ fun _ hs => csrWrite_keeps hs ..)
    · split
      · exact (dbgEnd_keeps ..).mpr (withHart_keeps (by simpa using hs) _ _ fun _ hs => (setX_keeps ..).mpr hs)
      · simpa using hs

@[simp] theorem execUnfence_keeps (core row : Nat) {s : State} (h : Keeps a s) : KeepsOut a (execUnfence core row s) := by
  rw [execUnfence]
  dsimp only
  rw [keepsOut_next]
  split
  · simpa using h
  · split
    · rw [dbgEnd_keeps]
      split <;> simpa using h
    · exact h

@[simp] theorem execInject_keeps (space addr kind : Nat) {s : State} (h : Keeps a s) : KeepsOut a (execInject space addr kind s) := by
  rw [execInject]
  dsimp only
  rw [keepsOut_next]
  split
  · exact h
  · split
    · split <;> simpa using h
    · simpa using h

/-! The events. -/

@[simp] theorem execAsyncInterrupt_keeps {s : State} (h : Keeps a s) : KeepsOut a (execAsyncInterrupt s) := by
  unfold execAsyncInterrupt
  split
  · split <;> simp [h]
  · simpa using h

@[simp] theorem execSwap_keeps (regs : List (BitVec 6)) {s : State} (h : Keeps a s) : KeepsOut a (execSwap regs s) := by
  rw [execSwap, keepsOut_next]
  split
  · exact makeResident_keeps ‹_› h
  · exact takeTrap_keeps (makeResident_error_keeps ‹_› h) _

@[simp] theorem execArrayRampDownEnd_keeps (core : Nat) {s : State} (h : Keeps a s) : KeepsOut a (execArrayRampDownEnd core s) := by
  unfold execArrayRampDownEnd
  dsimp only
  rw [keepsOut_next]
  split
  · split <;> simp [h]
  · exact h

@[simp] theorem execReplicaApply_keeps (n : Nat) {s : State} (h : Keeps a s) : KeepsOut a (execReplicaApply n s) := by
  rw [execReplicaApply, keepsOut_next]
  split <;> simp [h]

/-- Every event but the two that assign dies keeps the stored form and the assignment. -/
theorem execEvent_keeps {e : Event} (write : ∀ v, e ≠ .diemapWrite v) (done : e ≠ .dieAssignmentDone) {s : State} (h : Keeps a s) :
    KeepsOut a (execEvent e s) := by
  cases e <;> simp [execEvent, execTrapEntry, execResultLanding, execLoadDataReturn, execRowDrowsy, execArrayRampUpEnd,
    execBurstHoldEnd, execFenceRelease, execCorrectedWriteback, execThermalStall, execThermalStallEnd, execDieStopTemperature,
    execUcieEdgeLoss, execFirmwareBoot, execAttestationReport, execMonitorConfigWrite, execMonitorSample, execAlarmClear,
    execLogclrVcount, execLogclrFcount, execTbConfigWrite, execTbLandedClear, h] at write done ⊢

/-! An attempt to issue. -/

@[simp] theorem keepLate_keeps (k : Cost) (old : Hart) (s : State) : Keeps a (keepLate k old s) ↔ Keeps a s := by
  refine foldl_keeps (fun s x => ?_) ..
  dsimp only
  split
  · rfl
  · split <;> simp

@[simp] theorem charge_keeps (s : State) (k : Cost) (t : Nat) (pc : Word) : Keeps a (charge s k t pc) ↔ Keeps a s := by
  unfold charge
  extract_lets s1 s2 s3
  have merged : Keeps a s2 ↔ Keeps a s := by
    simp only [s2]
    split <;> simp [s1]
  have occupied : Keeps a s3 ↔ Keeps a s := by
    simp only [s3]
    split <;> simp [merged]
  split <;> simp [occupied]

@[simp] theorem settleIssue_keeps {s : State} (h : Keeps a s) (i : Instr) (k : Cost) (old : Hart) :
    Keeps a (settleIssue i k old s) := by
  unfold settleIssue
  dsimp only
  refine (keeps_mk ..).mpr ((modH_keeps ..).mpr ((charge_keeps ..).mpr ((disturbSweeps_keeps ..).mpr (disturbReaders_keeps ?_ ..))))
  simpa using h

@[simp] theorem delay_keeps (s : State) (t : Nat) : Keeps a (delay s t) ↔ Keeps a s := by
  simp [delay]

theorem awaitUnits_keeps {s t : State} {k : Cost} (e : awaitUnits s k = some t) : Keeps a t ↔ Keeps a s := by
  unfold awaitUnits at e
  dsimp only at e
  split at e
  · cases e
    simp
  · split at e
    · cases e
      simp
    · cases e

/-- The state in which a hart waits for units, `t` where it need not. -/
theorem awaitUnits_getD_keeps {s t : State} (h : Keeps a s) (ht : Keeps a t) (k : Cost) : Keeps a ((awaitUnits s k).getD t) := by
  cases e : awaitUnits s k with
  | none => exact ht
  | some u => exact (awaitUnits_keeps e).mpr h

@[simp] theorem lateSwap_keeps {s : State} (h : Keeps a s) (fin : Nat) : Keeps a (lateSwap s fin) := by
  unfold lateSwap
  dsimp only
  split <;> simp [h]

@[simp] theorem paySwap_keeps {s : State} (h : Keeps a s) (t : State) : Keeps a (paySwap s t) := by
  unfold paySwap
  dsimp only
  split <;> simp [h]

@[simp] theorem chargeTrap_keeps (k : Cost) (s t : State) : Keeps a (chargeTrap k s t) ↔ Keeps a t := by
  unfold chargeTrap
  split <;> simp

/-- What follows a trial `t` made in `s`. -/
theorem settleTrial_keeps {s t : State} (h : Keeps a s) (ht : Keeps a t) (i : Instr) : Keeps a (settleTrial i s t) := by
  unfold settleTrial
  extract_lets k stays charged trapped
  have trapped_keeps : Keeps a trapped := by
    simpa [trapped, charged] using ht
  split
  · exact trapped_keeps
  · split
    · exact paySwap_keeps h t
    · split
      · exact awaitUnits_getD_keeps h h k
      · split
        · simpa using h
        · split
          · simp [h]
          · split
            · exact trapped_keeps
            · split
              · exact settleIssue_keeps ht ..
              · split <;> simp [ht]

/-- Out of `s` an attempt comes to a state that `Keeps` relates to it. -/
theorem issueInstr_keeps {s : State} (h : Keeps a s) {i : Instr} (words : (parts i).isSome = true) : KeepsOut a (issueInstr i s) := by
  unfold issueInstr
  extract_lets k
  split
  · simpa using h
  · split
    · exact (keepsOut_next _).mpr ((awaitUnits_keeps ‹_›).mpr h)
    · have trial (f : Hart → Hart) : KeepsOut a (exec i (modH s f)) := exec_keeps words ((modH_keeps ..).mpr h)
      split
      · exact (keepsOut_next _).mpr (settleTrial_keeps ((modH_keeps ..).mpr h) (trial _ _ ‹_›) i)
      · exact trial _

@[simp] theorem missStall_keeps (s : State) : Keeps a (missStall s) ↔ Keeps a s := by
  unfold missStall
  split <;> simp

@[simp] theorem resumeStep_keeps {s : State} (h : Keeps a s) (q : Issued) : Keeps a (resumeStep q s) := by
  unfold resumeStep
  split
  · simpa [oneStep] using h
  · exact awaitUnits_getD_keeps h (by simpa [continueStep] using h) _

@[simp] theorem attempt_keeps {s : State} (h : Keeps a s) : KeepsOut a (attempt s) := by
  unfold attempt
  extract_lets queued s1
  have tried : Keeps a s1 := (modH_keeps ..).mpr h
  split
  · simp [tried]
  · split
    · exact execAsyncInterrupt_keeps tried
    · split
      · simp [tried]
      · next va _ =>
        have filled := execIcacheFill_keeps va tried
        split
        · exact (keepsOut_next _).mpr ((missStall_keeps ..).mpr (filled _ ‹_›))
        · exact filled
      · split
        · exact issueInstr_keeps ((modH_keeps ..).mpr tried) (isSome_parts_of_decodeWords ‹_›)
        · simp [tried]
        · simp [tried]

@[simp] theorem issue_keeps (g k : Nat) {s : State} (h : Keeps a s) : KeepsOut a (issue g k s) := by
  unfold issue
  extract_lets s1
  have tried := attempt_keeps ((modH_keeps ..).mpr ((takeHart_keeps ..).mpr h) : Keeps a (modH s1 (fun h => { h with issued := false })))
  split
  · rw [keepsOut_next, settleStep]
    split
    · exact (endStepping_keeps ..).mpr (tried _ ‹_›)
    · exact tried _ ‹_›
  · exact tried

/-! What follows an event, and the step. -/

@[simp] theorem settleWait_keeps {s : State} (h : Keeps a s) (s0 : State) (old : Hart) : Keeps a (settleWait s0 old s) := by
  unfold settleWait
  split
  · split
    · exact withHart_keeps h _ _ fun s hs => by simpa using hs
    · exact h
  · exact h

@[simp] theorem lateLoads_keeps {s : State} (h : Keeps a s) (x : Hart) (more : Nat) : Keeps a (lateLoads s x more) := by
  have delayed (s : State) : Keeps a (delayLoads s x more) ↔ Keeps a s := by
    simp [delayLoads]
  unfold lateLoads
  dsimp only
  split
  · exact h
  · split
    · split <;> simp [h, delayed]
    · simp [h, delayed]

theorem execDiemapWrite_storedWf {v : Word} {s t : State} (next : execDiemapWrite v s = .next t) (wf : StoredWf s) : StoredWf t := by
  unfold execDiemapWrite at next
  cases next
  split
  · exact ((setDieStat_keeps ..).mpr (.refl s)).stored wf
  · exact ((schedule_keeps ..).mpr ((setDieStat_keeps ..).mpr (.refl { s with dieChange := some _ }))).stored wf

theorem execDieAssignmentDone_storedWf {s t : State} (next : execDieAssignmentDone s = .next t) (wf : StoredWf s) : StoredWf t := by
  unfold execDieAssignmentDone at next
  cases next
  split
  · next v _ => exact ((setDieStat_keeps ..).mpr (.refl { s with dieMap := v, dieChange := none })).stored wf
  · exact wf

/-- An event keeps the stored form. -/
theorem execEvent_storedWf {e : Event} {s t : State} (next : execEvent e s = .next t) (wf : StoredWf s) : StoredWf t := by
  by_cases write : ∃ v, e = .diemapWrite v
  · obtain ⟨v, rfl⟩ := write
    exact execDiemapWrite_storedWf next wf
  · by_cases done : e = .dieAssignmentDone
    · subst done
      exact execDieAssignmentDone_storedWf next wf
    · exact (execEvent_keeps (fun v hv => write ⟨v, hv⟩) done (.refl s) t next).stored wf

theorem runEvent_storedWf {e : Event} {s t : State} (next : runEvent e s = .next t) (wf : StoredWf s) : StoredWf t := by
  unfold runEvent at next
  split at next
  · next u happened =>
    have settled (u' : State) (h : Keeps u u') :
        Keeps u (((allHarts s).filter (fun h => h.wait.isSome)).foldl (fun t h => settleWait s h t) u') :=
      h.foldl _ fun _ _ hs => settleWait_keeps hs ..
    cases next
    refine (settled _ ?_).stored (execEvent_storedWf happened wf)
    split
    · exact (foldl_keeps (fun s g => hastenGang_keeps ..) ..).mpr (.refl u)
    · exact .refl u
  · next other =>
    exact absurd next (by simpa using other t)

theorem runDue_storedWf {e : Event} {s t u : State} (next : runDue e s t = .next u) (wf : StoredWf s) (wft : StoredWf t) :
    StoredWf u := by
  unfold runDue at next
  split at next
  · exact (issue_keeps _ _ (.refl s) u next).stored wf
  · exact runEvent_storedWf next wft

theorem pick_storedWf {p : Pick} {s t : State} (next : pick p s = .next t) (wf : StoredWf s) : StoredWf t := by
  have kept (h : KeepsOut s (pick p s)) : StoredWf t := (h t next).stored wf
  unfold pick at next kept
  split at next
  · split at next
    · cases next
      exact wf
    · exact runDue_storedWf next wf wf
  · refine kept ?_
    simp only [keepsOut_next]
    split
    · exact lateLoads_keeps (.refl s) ..
    · exact .refl s
  · refine kept ?_
    dsimp only
    split
    · simp [Keeps.refl]
    · split
      · split <;> simp [Keeps.refl]
      · split
        · exact issue_keeps _ _ (.refl s)
        · simp [Keeps.refl]

theorem proceed_storedWf {s t : State} (next : proceed s = .next t) (wf : StoredWf s) : StoredWf t := by
  unfold proceed at next
  split at next
  · exact runDue_storedWf next wf wf
  · split at next
    · exact runDue_storedWf next wf wf
    · split at next
      · exact (issue_keeps _ _ (.refl s) t next).stored wf
      · cases next
        exact wf

theorem step_storedWf {s t : State} (next : step s = .next t) (wf : StoredWf s) : StoredWf t := by
  unfold step at next
  split at next
  · exact pick_storedWf next wf
  · exact proceed_storedWf next wf

end Sys2Proof.Machine
end

section
/-! The step's lemma on the stored form. -/
open Sys2Proof Sys2Proof.Machine

/-- Settles O56: memory is written by stores of bytes, by the zeroing and the restoring of clusters, all of which keep the canonical form,
and what a pre-emption saves is a stretch of memory. -/
theorem memoryFormIsKept : Obligations.MemoryFormIsKept :=
  fun _ _ mem saved next => step_storedWf next ⟨mem, saved⟩

end

section
/-! Bits of byte lists and of dwords, as memory holds them (R8). -/
namespace Sys2Proof.Machine

theorem leNat_testBit (bs : List Byte) (k : Nat) : (leNat bs).testBit k = (bs.getD (k / 8) 0).getLsbD (k % 8) := by
  induction bs generalizing k with
  | nil => simp [leNat]
  | cons b r ih =>
    rw [leNat, Nat.add_comm, Nat.testBit_two_pow_mul_add (i := 8) _ b.isLt]
    split
    case isTrue low =>
      rw [Nat.div_eq_of_lt low, Nat.mod_eq_of_lt low]
      rfl
    case isFalse high =>
      rw [ih, show k / 8 = (k - 8) / 8 + 1 by omega, show (k - 8) % 8 = k % 8 by omega]
      rfl

theorem getD_bytesAt (m : Sparse Byte) (a : Nat) {n i : Nat} (inside : i < n) : (bytesAt m a n).getD i 0 = sget 0 m (a + i) := by
  simp [bytesAt, List.getD, inside]

/-- The model's word at `g` is the little-endian dword there. -/
theorem isDword_wordAt (s : State) (g : Nat) : IsDword s g (wordAt s g) := fun k hk => by
  rw [wordAt, BitVec.getLsbD_ofNat, leNat_testBit, getD_bytesAt _ _ (by omega)]
  simp [hk]

theorem getD_toBytes_dword (v : Word) {k : Nat} (inside : k < 8) : (toBytes 8 v.toNat).getD k 0 = byteOf v k := by
  rw [getD_toBytes _ _ _ inside, byteOf, show 256 ^ k = 2 ^ (8 * k) by rw [Nat.pow_mul]]

/-- A dword stored: its eight bytes, the others as they were. -/
theorem sget_putDword (m : Sparse Byte) (g : Nat) (v : Word) (a : Nat) :
    sget 0 (putBytes m g (toBytes 8 v.toNat)) a = if g ≤ a ∧ a < g + 8 then byteOf v (a - g) else sget 0 m a := by
  rw [sget_putBytes, length_toBytes]
  split
  · exact getD_toBytes_dword v (by omega)
  · rfl

end Sys2Proof.Machine
end

section
/-! The strip interval without tile moves: scalar accesses keep their program order (R111, R112), so that a read sees memory as it
stands and a write goes on top. -/
namespace Sys2Proof.Machine

variable {s : State}

theorem foldl_max_fst {α : Type} (p : α → Bool) (l : List α) (all : ∀ e ∈ l, p e = true) (n : Nat) :
    l.foldl (fun (x : Nat × Nat) e => (x.1 + 1, if p e then x.1 + 1 else x.2)) (n, n) = (n + l.length, n + l.length) := by
  induction l generalizing n with
  | nil => rfl
  | cons e r ih =>
    rw [List.foldl_cons, if_pos (all e List.mem_cons_self), ih (fun x hx => all x (List.mem_cons_of_mem _ hx)), List.length_cons,
      Nat.add_assoc, Nat.add_comm 1]

theorem le_foldl_max (l : List StripRead) (m : Nat) : m ≤ l.foldl (fun m r => max m r.pos) m := by
  induction l generalizing m with
  | nil => exact le_rfl
  | cons r l ih => exact (le_max_left _ _).trans (ih _)

theorem mem_writesOf {w : Nat} {e : StripWrite} (he : e ∈ writesOf s w) : e ∈ s.h.strip := by
  unfold writesOf at he
  dsimp only at he
  split at he
  · exact (List.mem_filter.mp he).1
  · exact nomatch he

/-- An access that every earlier write of its word precedes stands above them all. -/
theorem length_le_leastPos {w : Nat} {we : StripWrite → Bool} (all : ∀ e ∈ writesOf s w, we e = true) (re : StripRead → Bool) :
    (writesOf s w).length ≤ leastPos s w we re := by
  unfold leastPos
  rw [foldl_max_fst we _ all 0, Nat.zero_add]
  exact le_foldl_max _ _

theorem NoTileMoves.ordered (quiet : NoTileMoves s) (w : Nat) (mark : StripWrite → Bool) :
    ∀ e ∈ writesOf s w, (mark e || (!false && !e.tile)) = true := fun e he => by
  simp [quiet.1 e (mem_writesOf he)]

/-- Where only the top is left, the top it is. -/
theorem pickPos_placesDown_top (s : State) (key : Nat) {lo top : Nat} {ok : Nat → Bool} (high : top ≤ lo) :
    pickPos s key (placesDown lo top ok) top = top := by
  have below : (List.range top).filter (fun p => decide (lo ≤ p) && ok p) = [] :=
    List.filter_eq_nil_iff.mpr fun p hp => by have := List.mem_range.mp hp; simp; omega
  unfold placesDown
  rw [List.range_succ, List.filter_append, below, List.nil_append, List.filter_singleton]
  cases decide (lo ≤ top) && ok top <;> rfl

theorem readPos_top (quiet : NoTileMoves s) (g : Nat) : readPos s false g = (writesOf s (g / 8)).length :=
  pickPos_placesDown_top _ _ (length_le_leastPos (quiet.ordered _ _) _)

theorem valueAt_top (s : State) (g : Nat) : valueAt s g (writesOf s (g / 8)).length = wordAt s g := by
  unfold valueAt
  rw [List.getElem?_eq_none le_rfl]

theorem stripWord_eq (quiet : NoTileMoves s) (g : Nat) : stripWord s false g = wordAt s g := by
  rw [stripWord, readPos_top quiet, valueAt_top]

theorem freePlace_top (quiet : NoTileMoves s) (g : Nat) : freePlace s g (writeFloor s false (g / 8)) = (writesOf s (g / 8)).length :=
  pickPos_placesDown_top _ _ (length_le_leastPos (quiet.ordered _ _) _)

/-- Reads that are no tile moves stay where they are past a scalar write; only their places are counted anew. -/
theorem rebindReads_scalar (g q : Nat) (cap capAll : Nat) (rs : List StripRead) (s : State) (scalar : ∀ r ∈ rs, r.tile = false) :
    (rebindReads false g q cap capAll rs s).2 = s ∧ ∀ r ∈ (rebindReads false g q cap capAll rs s).1, r.tile = false := by
  induction rs generalizing cap capAll with
  | nil => exact ⟨rfl, fun r hr => nomatch hr⟩
  | cons r rest ih =>
    have mine := scalar r List.mem_cons_self
    have others := fun cap capAll => ih cap capAll fun x hx => scalar x (List.mem_cons_of_mem _ hx)
    unfold rebindReads
    split
    case isTrue =>
      exact ⟨(others _ _).1, List.forall_mem_cons.mpr ⟨mine, (others _ _).2⟩⟩
    case isFalse =>
      simp only [mine, Bool.or_self, Bool.false_and, Bool.false_eq_true, if_false]
      exact ⟨(others _ _).1, List.forall_mem_cons.mpr ⟨rfl, (others _ _).2⟩⟩

/-- What holds of a write whatever value lies beneath it. -/
theorem insertWrite_all {P : StripWrite → Prop} {w : StripWrite} (q : Nat) {es : List StripWrite} (hw : P w) (all : ∀ e ∈ es, P e) :
    ∀ e ∈ insertWrite w q es, P e := by
  induction es generalizing q with
  | nil => simpa [insertWrite] using hw
  | cons e r ih =>
    have mine := all e List.mem_cons_self
    have others := fun q => ih q fun x hx => all x (List.mem_cons_of_mem _ hx)
    unfold insertWrite
    split
    · exact List.forall_mem_cons.mpr ⟨mine, others _⟩
    · split
      · exact List.forall_mem_cons.mpr ⟨hw, all⟩
      · exact List.forall_mem_cons.mpr ⟨mine, others _⟩

theorem restack_all {P : StripWrite → Prop} (blind : ∀ e v, P e → P { e with old := v }) (w q : Nat) (v : Word) {es : List StripWrite}
    (all : ∀ e ∈ es, P e) : ∀ e ∈ restack w q v es, P e := by
  induction es generalizing q v with
  | nil => simp [restack]
  | cons e r ih =>
    have mine := all e List.mem_cons_self
    have others := fun q v => ih q v fun x hx => all x (List.mem_cons_of_mem _ hx)
    unfold restack
    split
    · exact List.forall_mem_cons.mpr ⟨mine, others _ _⟩
    · split
      · exact List.forall_mem_cons.mpr ⟨blind e _ mine, others _ _⟩
      · exact List.forall_mem_cons.mpr ⟨mine, others _ _⟩

/-- An armed error may go off, nothing else (R46). -/
theorem strike_eq (s : State) (space key : Nat) :
    strike s space key = { s with armed := (strike s space key).armed, calendar := (strike s space key).calendar } ∧
    (s.armed = [] → strike s space key = s) := by
  refine ⟨strike_onlyArmed s space key, fun none_armed => ?_⟩
  unfold strike
  rw [none_armed]
  rfl

/-- What a whole word stored leaves. -/
theorem putWord_spec (s : State) (g : Nat) (v : Word) (poison : Bool) :
    putWord s g v poison = { s with
      mem := (putWord s g v poison).mem, poisonWord := (putWord s g v poison).poisonWord, writers := (putWord s g v poison).writers
      armed := (putWord s g v poison).armed, calendar := (putWord s g v poison).calendar } ∧
    (s.armed = [] → (putWord s g v poison).armed = [] ∧ (putWord s g v poison).calendar = s.calendar) ∧
    (putWord s g v poison).mem = putBytes s.mem g (toBytes 8 v.toNat) ∧
    ∀ k, sget false (putWord s g v poison).poisonWord k = if k = g / 8 then poison else sget false s.poisonWord k := by
  unfold putWord
  generalize marks_eq : (if s.poisonWord.isEmpty && !poison then s.poisonWord else sset false s.poisonWord (g / 8) poison) = marks
  dsimp only
  obtain ⟨frame, unarmed⟩ := strike_eq
    { s with mem := putBytes s.mem g (toBytes 8 v.toNat), poisonWord := marks, writers := sset 0 s.writers (g / 8) 0 } 1 (g / 8)
  generalize strike _ 1 (g / 8) = u at frame unarmed ⊢
  have mem_eq : u.mem = putBytes s.mem g (toBytes 8 v.toNat) := by rw [frame]
  have marked : u.poisonWord = marks := by rw [frame]
  refine ⟨by rw [frame], fun none_armed => ?_, mem_eq, fun k => ?_⟩
  · rw [unarmed none_armed]
    exact ⟨none_armed, rfl⟩
  · rw [marked, ← marks_eq]
    split
    case isTrue clean =>
      simp only [Bool.and_eq_true, List.isEmpty_iff, Bool.not_eq_true'] at clean
      obtain ⟨unmarked, sound⟩ := clean
      simp [unmarked, sound]
    case isFalse => exact sget_sset _ _ _ _ _

end Sys2Proof.Machine
end

section
/-! Scalar stores and loads of the scratchpads where no tile move is under way (R88, R90, R158). -/
namespace Sys2Proof.Machine

variable {s t u : State}

/-- Nothing but what a store to a scratchpad changes: memory, its marks and its writers, armed errors, the open orders of the strip. -/
def OnlyStored (s t : State) : Prop :=
  t = { s with mem := t.mem, poisonWord := t.poisonWord, armed := t.armed, calendar := t.calendar, writers := t.writers
               h := { s.h with strip := t.h.strip, stripReads := t.h.stripReads } } ∧
  (s.armed = [] → t.armed = [] ∧ t.calendar = s.calendar)

/-- Bytes `g` to `g + n - 1` take `f` and lose their marks; the others stay. -/
def BytesTaken (s t : State) (g n : Nat) (f : Nat → Byte) : Prop :=
  (∀ a, sget 0 t.mem a = if g ≤ a ∧ a < g + n then f (a - g) else sget 0 s.mem a) ∧
  ∀ k, sget false t.poisonWord k = if g / 8 ≤ k ∧ k < g / 8 + n / 8 then false else sget false s.poisonWord k

theorem OnlyStored.trans (first : OnlyStored s t) (second : OnlyStored t u) : OnlyStored s u := by
  obtain ⟨t_eq, quiet_t⟩ := first
  obtain ⟨u_eq, quiet_u⟩ := second
  refine ⟨?_, fun unarmed => ?_⟩
  · rw [t_eq] at u_eq
    exact u_eq
  · obtain ⟨t_unarmed, t_calendar⟩ := quiet_t unarmed
    obtain ⟨u_unarmed, u_calendar⟩ := quiet_u t_unarmed
    exact ⟨u_unarmed, u_calendar.trans t_calendar⟩

theorem blend_all (v old : Word) : blend 0xffffffffffffffff v old = v := by
  unfold blend
  have all : (0xffffffffffffffff : Word) = BitVec.allOnes 64 := rfl
  rw [all, BitVec.and_allOnes, BitVec.not_allOnes, BitVec.and_zero, BitVec.or_zero]

/-- A whole dword stored by a scalar access: on top, without a mark. -/
theorem stripStore_scalar (quiet : NoTileMoves s) (g : Nat) (v : Word) :
    OnlyStored s (stripStore s false g 0xffffffffffffffff v) ∧ NoTileMoves (stripStore s false g 0xffffffffffffffff v) ∧
    BytesTaken s (stripStore s false g 0xffffffffffffffff v) g 8 (byteOf v) := by
  obtain ⟨strip_scalar, reads_scalar⟩ := quiet
  unfold stripStore storeAt
  rw [freePlace_top ⟨strip_scalar, reads_scalar⟩]
  dsimp only
  rw [List.drop_length, List.foldl_nil, blend_all]
  simp only [bne_self_eq_false, Bool.false_and, Bool.or_self]
  have kept_scalar : ∀ e ∈ (if (writesOf s (g / 8)).isEmpty then s.h.strip.filter (fun e => e.word != g / 8) else s.h.strip),
      e.tile = false := fun e he => strip_scalar e (by
    split at he
    · exact (List.mem_filter.mp he).1
    · exact he)
  have stacked := restack_all (P := fun e => e.tile = false) (fun e v scalar => scalar) (g / 8) ((writesOf s (g / 8)).length + 1) v
    (insertWrite_all (w := ⟨g / 8, false, s.h.issueCy, 0xffffffffffffffff, v, valueAt s g (writesOf s (g / 8)).length, false, false, false⟩)
      (writesOf s (g / 8)).length rfl kept_scalar)
  generalize restack _ _ _ _ = strip at stacked ⊢
  obtain ⟨frame, unarmed, mem_eq, marks⟩ := putWord_spec s g v false
  generalize putWord s g v = p at frame unarmed mem_eq marks ⊢
  have reads_eq : p.h.stripReads = s.h.stripReads := by rw [frame]
  obtain ⟨same, moved_scalar⟩ := rebindReads_scalar g (writesOf s (g / 8)).length ((writesOf s (g / 8)).length + 1)
    ((writesOf s (g / 8)).length + 1) s.h.stripReads
    (modH { p with writers := sset 0 p.writers (g / 8) (writerKey p.h) } (fun h => { h with strip })) reads_scalar
  simp only [modH_h, reads_eq]
  generalize rebindReads _ _ _ _ _ _ _ = moved at same moved_scalar ⊢
  obtain ⟨reads, w⟩ := moved
  subst same
  refine ⟨⟨?_, unarmed⟩, ⟨stacked, moved_scalar⟩, fun a => ?_, fun k => ?_⟩
  · simp only [modH]
    rw [frame]
  · exact (congrArg (sget 0 · a) mem_eq).trans (sget_putDword _ _ _ _)
  · refine (marks k).trans (if_congr ?_ rfl rfl)
    omega

/-- Two stretches taken one behind the other. -/
theorem BytesTaken.append {g n m : Nat} {f f' : Nat → Byte} (first : BytesTaken s t g n f) (second : BytesTaken t u (g + n) m f')
    (words : n % 8 = 0 ∧ m % 8 = 0) : BytesTaken s u g (n + m) (fun k => if k < n then f k else f' (k - n)) := by
  obtain ⟨bytes, marks⟩ := first
  obtain ⟨bytes', marks'⟩ := second
  refine ⟨fun a => ?_, fun k => ?_⟩
  · rw [bytes' a, bytes a]
    by_cases low : a < g + n
    · rw [if_neg (by omega)]
      by_cases inside : g ≤ a
      · rw [if_pos ⟨inside, low⟩, if_pos (by omega)]
        exact (if_pos (show a - g < n by omega)).symm
      · rw [if_neg (by omega), if_neg (by omega)]
    · by_cases inside : a < g + n + m
      · rw [if_pos (by omega), if_pos (by omega), ← Nat.sub_sub]
        exact (if_neg (show ¬a - g < n by omega)).symm
      · rw [if_neg (by omega), if_neg (by omega), if_neg (by omega)]
  · rw [marks' k, marks k, ← ite_or]
    exact if_congr (by omega) rfl rfl

/-! Places. -/

/-- A scratchpad byte is where R88 says. -/
theorem placeOf_mem {a g : Nat} (behind : scratchAddr s a = some g) : placeOf s (myGang s).part (homeCluster s) a = .mem g := by
  unfold scratchAddr at behind
  unfold placeOf homeCluster clusterOfCore clusterBase dieBase
  split at behind
  case isTrue own => rw [if_pos (by omega), ← Option.some.inj behind]
  case isFalse beyond =>
    rw [if_neg (by omega)]
    split at behind
    case isTrue die =>
      obtain ⟨low, high, owned⟩ := die
      rw [if_pos (by omega), ← Option.some.inj behind]
      dsimp only
      rw [show a - 268435456 = a - 2 ^ 28 by omega, if_pos owned]
      exact congrArg Place.mem (by omega)
    case isFalse => exact nomatch behind

theorem effAddr_eq (s : State) (xa : BitVec 5) (imm : Word) (n : Nat) :
    effAddr s xa imm n = BitVec.ofInt 64 ((rx s xa).toNat + n * imm.toInt) := by
  rw [effAddr, BitVec.ofInt_add, BitVec.ofInt_mul, BitVec.ofInt_toInt, BitVec.ofInt_natCast, BitVec.ofInt_natCast, BitVec.ofNat_toNat,
    BitVec.setWidth_eq, BitVec.mul_comm]

theorem effAddr_dwords (s : State) (xa : BitVec 5) (imm : Word) :
    effAddr s xa imm 8 = BitVec.ofInt 64 ((rx s xa).toNat + 8 * imm.toInt) := effAddr_eq s xa imm 8

theorem effAddr_pairs (s : State) (xa : BitVec 5) (imm : Word) :
    effAddr s xa imm 16 = BitVec.ofInt 64 ((rx s xa).toNat + 16 * imm.toInt) := effAddr_eq s xa imm 16

end Sys2Proof.Machine
end

section
/-! The tag check of an access to the checked buffers (R92, R371). -/
namespace Sys2Proof.Machine

variable {s : State}

theorem bufAt_setBuf (s : State) {n b : Nat} (cl cl' : Nat) (v : TileBuf) (hn : n < 64) (hb : b < 64) :
    bufAt (setBuf s cl n v) cl' b = if cl' = cl ∧ b = n then v else bufAt s cl' b := by
  unfold bufAt setBuf
  exact (sget_sset _ _ _ _ _).trans (if_congr (by omega) rfl rfl)

theorem setChecked_spec (ns : List (Nat × Nat)) (inside : ∀ n ∈ ns, n.2 < 64) (s : State) :
    ∃ t, ns.foldl (fun s n => setBuf s n.1 n.2 { bufAt s n.1 n.2 with chk := true }) s = t ∧ t = { s with bufs := t.bufs } ∧
      ∀ cl b, b < 64 → bufAt t cl b = if (cl, b) ∈ ns then { bufAt s cl b with chk := true } else bufAt s cl b := by
  induction ns generalizing s with
  | nil => exact ⟨s, rfl, rfl, fun cl b _ => by simp⟩
  | cons n r ih =>
    have n_lt := inside n List.mem_cons_self
    obtain ⟨t, run, frame, bufs⟩ := ih (fun x hx => inside x (List.mem_cons_of_mem _ hx))
      (setBuf s n.1 n.2 { bufAt s n.1 n.2 with chk := true })
    refine ⟨t, run, frame, fun cl b hb => ?_⟩
    have key : (cl, b) = n ↔ cl = n.1 ∧ b = n.2 := Prod.ext_iff
    rw [bufs cl b hb, bufAt_setBuf _ _ _ _ n_lt hb]
    by_cases mine : cl = n.1 ∧ b = n.2
    · obtain ⟨rfl, rfl⟩ := mine
      simp
    · simp [mine, key]

/-- Where every buffer's tags are good, each gets CHK. -/
theorem checkBuffers_good {ns : List (Nat × Nat)} (good : ∀ n ∈ ns, n.2 < 64 ∧ tagGood s n.1 n.2 = true) :
    ∃ t, checkBuffers s ns = .ok t ∧ t = { s with bufs := t.bufs } ∧
      ∀ cl b, b < 64 → bufAt t cl b = if (cl, b) ∈ ns then { bufAt s cl b with chk := true } else bufAt s cl b := by
  have no_fault : ns.find? (fun n => (bufAt s n.1 n.2).etag != (bufAt s n.1 n.2).ltag || (bufAt s n.1 n.2).mix) = none :=
    List.find?_eq_none.mpr fun n hn => by
      have tags := (good n hn).2
      unfold tagGood at tags
      simp only [Bool.and_eq_true, Bool.not_eq_true', beq_iff_eq] at tags
      simp [tags.1, tags.2]
  obtain ⟨t, run, frame, bufs⟩ := setChecked_spec ns (fun n hn => (good n hn).1) s
  refine ⟨t, ?_, frame, bufs⟩
  unfold checkBuffers
  rw [no_fault, ← run]

/-- The buffers that an access checks. -/
theorem mem_buffersTouched (s : State) (cl lo hi n : Nat) : n ∈ buffersTouched s cl lo hi ↔ checks s cl lo hi n = true := by
  unfold buffersTouched
  split
  case isTrue none_there =>
    have bufs_eq : s.bufs = [] := List.isEmpty_iff.mp none_there
    have init : bufAt s cl n = TileBuf.init := by rw [bufAt, bufs_eq]; rfl
    have off : TileBuf.init.en = false := rfl
    simp [checks, init, off]
  case isFalse =>
    rw [List.mem_filter, List.mem_range]
    unfold checks TileBuf.touchedBy
    dsimp only
    simp only [Bool.and_eq_true, decide_eq_true_eq, and_assoc]

theorem tagCheck_good {cl lo hi : Nat} (good : ∀ b, checks s cl lo hi b = true → tagGood s cl b = true) :
    ∃ t, tagCheck s cl lo hi = .ok t ∧ t = { s with bufs := t.bufs } ∧
      ∀ cl' b, b < 64 → bufAt t cl' b =
        if cl' = cl ∧ checks s cl lo hi b = true then { bufAt s cl' b with chk := true } else bufAt s cl' b := by
  have below : ∀ b, checks s cl lo hi b = true → b < 64 := fun b hb => by
    unfold checks at hb
    dsimp only at hb
    simp only [Bool.and_eq_true, decide_eq_true_eq] at hb
    omega
  obtain ⟨t, run, frame, bufs⟩ := checkBuffers_good (s := s) (ns := (buffersTouched s cl lo hi).map (fun n => (cl, n))) (by
    intro n hn
    obtain ⟨b, hb, rfl⟩ := List.mem_map.mp hn
    rw [mem_buffersTouched] at hb
    exact ⟨below b hb, good b hb⟩)
  refine ⟨t, run, frame, fun cl' b hb => (bufs cl' b hb).trans (if_congr ?_ rfl rfl)⟩
  simp only [List.mem_map, Prod.mk.injEq, mem_buffersTouched]
  exact ⟨fun ⟨x, hx, e, e'⟩ => ⟨e.symm, e' ▸ hx⟩, fun ⟨e, hx⟩ => ⟨b, hx, e.symm, rfl⟩⟩

end Sys2Proof.Machine
end

section
/-! LD, LDU, LDQ, ST, STQ and BTX of a scratchpad (R158, R255). -/
namespace Sys2Proof.Machine

variable {s : State} {c : Ctl} {o : XI} {g : Nat}

theorem NoTileMoves.of_hart {s t : State} (quiet : NoTileMoves s) (same : t.h = s.h) : NoTileMoves t := by
  unfold NoTileMoves
  rw [same]
  exact quiet

/-- What a load's dwords are: `n` of them from `g` on. -/
def dwordsAt (s : State) (g n : Nat) : List Word := (List.range n).map (fun i => wordAt s (g + 8 * i))

theorem scalarRead_ready {ea : Word} {n : Nat} (ready : LoadReady s ea (8 * n) g) :
    ∃ t, scalarRead s ea n = .ok t (dwordsAt s g n) ∧ t = { s with bufs := t.bufs } ∧
      ∀ cl b, b < 64 → bufAt t cl b =
        if cl = s.h.core / 8 ∧ checks s cl ea.toNat (checkEnd ea.toNat (8 * n)) b = true then { bufAt s cl b with chk := true }
        else bufAt s cl b := by
  obtain ⟨-, behind, quiet, good, clean⟩ := ready
  obtain ⟨t, run, frame, bufs⟩ := tagCheck_good good
  have unmarked : (List.range n).find? (fun i => sget false t.poisonWord (g / 8 + i)) = none :=
    List.find?_eq_none.mpr fun i hi => by
      have marked := clean i (by have := List.mem_range.mp hi; omega)
      rw [frame]
      simp [marked]
  have quiet_t : NoTileMoves t := quiet.of_hart (by rw [frame])
  have words : ∀ a, wordAt t a = wordAt s a := fun a => by rw [frame]; rfl
  refine ⟨t, ?_, frame, fun cl b hb => (bufs cl b hb).trans (if_congr (and_congr_right fun e => by rw [e]) rfl rfl)⟩
  unfold scalarRead homePlace
  rw [placeOf_mem behind]
  dsimp only
  rw [show tagCheck s (homeCluster s) ea.toNat (if ea.toNat < 0x1000000 then ea.toNat + 8 * n else 0) = .ok t from run]
  simp only [unmarked, dwordsAt, stripWord_eq quiet_t, words]

theorem loadThen_ready {ea : Word} {n : Nat} (ready : LoadReady s ea (8 * n) g) (k : State → List Word → State) :
    ∃ t, loadThen s ea n k = .next (k t (dwordsAt s g n)) ∧ t = { s with bufs := t.bufs } ∧
      ∀ cl b, b < 64 → bufAt t cl b =
        if cl = s.h.core / 8 ∧ checks s cl ea.toNat (checkEnd ea.toNat (8 * n)) b = true then { bufAt s cl b with chk := true }
        else bufAt s cl b := by
  obtain ⟨t, read, frame, bufs⟩ := scalarRead_ready ready
  refine ⟨t, ?_, frame, bufs⟩
  have straight : aligned ea (8 * n) = true := beq_iff_eq.mpr ready.1
  unfold loadThen
  rw [straight, read]
  rfl

theorem noteLoad_eq (s : State) (ea : Word) (n : Nat) (r : BitVec 5) :
    noteLoad s ea n r = { s with h := { s.h with stripReads := (noteLoad s ea n r).h.stripReads } } := by
  unfold noteLoad
  split <;> rfl

/-- After a load: registers written in turn, then the notes of the strip. -/
theorem loads_of_run {i : Instr} {ea : Word} {n : Nat} {f : Nat → Option Word} (ready : LoadReady s ea (8 * n) g)
    (k : State → List Word → State) (run : exec i s = loadThen s ea n (fun u vs => retire c (noteLoad (k u vs) ea n o.xd)))
    (writes : ∀ u : State, k u (dwordsAt s g n) = { u with h := { u.h with x := (k u (dwordsAt s g n)).h.x } } ∧
      ∀ r (h : r < 32), (k u (dwordsAt s g n)).h.x[r] = if r = 0 then u.h.x[r] else (f r).getD u.h.x[r]) :
    Loads i c s ea (8 * n) f := by
  obtain ⟨u, loaded, frame, bufs⟩ := loadThen_ready ready (fun u vs => retire c (noteLoad (k u vs) ea n o.xd))
  obtain ⟨k_eq, values⟩ := writes u
  have note := noteLoad_eq (k u (dwordsAt s g n)) ea n o.xd
  refine ⟨_, run.trans loaded, ?frame, fun r hr => ?values, fun cl b hb => ?bufs⟩
  case frame =>
    generalize (noteLoad (k u (dwordsAt s g n)) ea n o.xd).h.stripReads = reads at note
    rw [note]
    generalize (k u (dwordsAt s g n)).h.x = x at k_eq
    rw [k_eq, frame]
    simp only [retire, goTo, modH, nextPc_eq]
    rfl
  case values =>
    rw [retire_h]
    refine Eq.trans ?_ ((values r hr).trans ?_)
    · congr 1
      rw [note]
    · rw [frame]
  case bufs =>
    have same : (retire c (noteLoad (k u (dwordsAt s g n)) ea n o.xd)).bufs = u.bufs := by
      rw [note, k_eq]
      rfl
    refine Eq.trans ?_ ((bufs cl b hb).trans (if_congr (and_congr_right fun e => by rw [e]) rfl rfl))
    unfold bufAt
    rw [same]

theorem setX_writes (s : State) (xd : BitVec 5) (v : Word) : setX s xd v = { s with h := { s.h with x := (setX s xd v).h.x } } ∧
    ∀ r (h : r < 32), (setX s xd v).h.x[r] = if r = 0 then s.h.x[r] else (if r = xd.toNat then some v else none).getD s.h.x[r] := by
  obtain ⟨frame, written⟩ := setX_written s xd v
  refine ⟨frame, fun r hr => (written r hr).trans ?_⟩
  by_cases zero : r = 0
  · rw [if_neg (by simp [zero]), if_pos zero]
  · rw [if_neg zero]
    by_cases named : r = xd.toNat
    · rw [if_pos ⟨named, zero⟩, if_pos named]
      rfl
    · rw [if_neg (fun both => named both.1), if_neg named]
      rfl

/-- Two registers written, the second after the first. -/
theorem setX_setX_writes (s : State) (xa xd : BitVec 5) (v w : Word) :
    setX (setX s xa v) xd w = { s with h := { s.h with x := (setX (setX s xa v) xd w).h.x } } ∧
    ∀ r (h : r < 32), (setX (setX s xa v) xd w).h.x[r] =
      if r = 0 then s.h.x[r] else (if r = xd.toNat then some w else if r = xa.toNat then some v else none).getD s.h.x[r] := by
  obtain ⟨first, one⟩ := setX_writes s xa v
  obtain ⟨second, two⟩ := setX_writes (setX s xa v) xd w
  refine ⟨?_, fun r hr => ?_⟩
  · generalize (setX (setX s xa v) xd w).h.x = y at second
    generalize (setX s xa v).h.x = x at first
    rw [second, first]
  · rw [two r hr, one r hr]
    split_ifs <;> rfl

/-- The state after a store to a scratchpad. -/
theorem stores_of_run {i : Instr} {u : State} {n : Nat} {f : Nat → Byte} (run : exec i s = .next (retire c u)) (only : OnlyStored s u)
    (taken : BytesTaken s u g n f) : Stores i c s g n f := by
  obtain ⟨frame, unarmed⟩ := only
  refine ⟨_, run, ⟨?_, unarmed⟩, taken⟩
  have pc : u.h.pc = s.h.pc := by rw [frame]
  simp only [retire, goTo, modH, nextPc_eq, pcAfter_congr pc]
  conv_lhs => rw [frame]

theorem scalarWrite_one {ea v : Word} (quiet : NoTileMoves s) (behind : scratchAddr s ea.toNat = some g) :
    OnlyStored s (scalarWrite s ea [v]) ∧ BytesTaken s (scalarWrite s ea [v]) g 8 (byteOf v) := by
  unfold scalarWrite homePlace
  rw [placeOf_mem behind]
  obtain ⟨only, -, taken⟩ := stripStore_scalar quiet g v
  exact ⟨only, taken⟩

theorem scalarWrite_two {ea v w : Word} (quiet : NoTileMoves s) (behind : scratchAddr s ea.toNat = some g) :
    OnlyStored s (scalarWrite s ea [v, w]) ∧
    BytesTaken s (scalarWrite s ea [v, w]) g 16 (fun k => if k < 8 then byteOf v k else byteOf w (k - 8)) := by
  unfold scalarWrite homePlace
  rw [placeOf_mem behind]
  obtain ⟨only, quiet', taken⟩ := stripStore_scalar quiet g v
  obtain ⟨only', -, taken'⟩ := stripStore_scalar quiet' (g + 8) w
  exact ⟨only.trans only', taken.append taken' ⟨rfl, rfl⟩⟩

theorem storePair_scratch {i : Instr} (quiet : NoTileMoves s) (straight : (effAddr s o.xa c.imm 16).toNat % 16 = 0)
    (behind : scratchAddr s (effAddr s o.xa c.imm 16).toNat = some g) (run : exec i s = storePair c o i s) :
    Stores i c s g 16 (fun k => if k < 8 then byteOf (rx s o.xd) k else byteOf (rx s (o.xd + 1)) (k - 8)) := by
  obtain ⟨only, taken⟩ := scalarWrite_two (v := rx s o.xd) (w := rx s (o.xd + 1)) quiet behind
  refine stores_of_run (run.trans ?_) only taken
  have on_boundary : aligned (effAddr s o.xa c.imm 16) 16 = true := beq_iff_eq.mpr straight
  have place : homePlace s (effAddr s o.xa c.imm 16) = .mem g := placeOf_mem behind
  unfold storePair
  simp only [on_boundary, place, Bool.not_true, Bool.false_eq_true, if_false]

end Sys2Proof.Machine

open Sys2Proof Sys2Proof.Machine

/-- Settles O6: without tile moves a read sees memory as it stands and a write goes on top. -/
theorem scalarLoadsAndStores : Obligations.ScalarLoadsAndStores := by
  unfold Obligations.ScalarLoadsAndStores
  refine ⟨fun c o s g => ?loads, fun c o s g quiet => ?stores⟩
  case loads =>
    dsimp only
    rw [← effAddr_dwords s o.xa c.imm, ← effAddr_pairs s o.xa c.imm]
    refine ⟨fun ready => ⟨wordAt s g, isDword_wordAt s g, ?ld, ?ldu⟩,
      fun ready => ⟨wordAt s g, wordAt s (g + 8), isDword_wordAt s g, isDword_wordAt s (g + 8), ?ldq⟩⟩
    case ld => exact loads_of_run (n := 1) ready (fun u vs => setX u o.xd (vs.getD 0 0)) rfl (fun u => setX_writes u _ _)
    case ldu =>
      exact loads_of_run (n := 1) ready (fun u vs => setX (setX u o.xa (effAddr s o.xa c.imm 8)) o.xd (vs.getD 0 0)) rfl
        (fun u => setX_setX_writes u _ _ _ _)
    case ldq =>
      exact loads_of_run (n := 2) ready (fun u vs => setX (setX u o.xd (vs.getD 0 0)) (o.xd + 1) (vs.getD 1 0)) rfl
        (fun u => setX_setX_writes u _ _ _ _)
  case stores =>
    dsimp only
    rw [← effAddr_dwords s o.xa c.imm, ← effAddr_pairs s o.xa c.imm]
    refine ⟨fun straight behind => ?st, fun straight behind => ⟨storePair_scratch quiet straight behind rfl, storePair_scratch quiet straight behind rfl⟩⟩
    case st =>
      obtain ⟨only, taken⟩ := scalarWrite_one (v := rx s o.xd) quiet behind
      refine stores_of_run (Eq.trans ?_ rfl) only taken
      have on_boundary : aligned (effAddr s o.xa c.imm 8) 8 = true := beq_iff_eq.mpr straight
      show execSt c o s = _
      unfold execSt
      simp only [on_boundary, Bool.not_true, Bool.false_eq_true, if_false]
end

section
/-! The template window and the tile-buffer descriptors, as scalar accesses reach them (R88, R91, R256). -/
namespace Sys2Proof.Machine

variable {s : State} {c : Ctl} {o : XI} {ea : Word}

theorem homePlace_template (window : 0x20000000 ≤ ea.toNat ∧ ea.toNat < 0x20004000) :
    homePlace s ea = .template (ea.toNat - 0x20000000) := by
  unfold homePlace placeOf
  rw [if_neg (by omega), if_neg (by omega), if_pos window]

theorem homePlace_desc (window : 0x20010000 ≤ ea.toNat ∧ ea.toNat < 0x20014000) : homePlace s ea = .desc (ea.toNat - 0x20010000) := by
  unfold homePlace placeOf
  rw [if_neg (by omega), if_neg (by omega), if_neg (by omega), if_pos window]

theorem homePlace_aperture (window : 0x20020000 ≤ ea.toNat ∧ ea.toNat < 0x20020400) :
    homePlace s ea = .aperture (ea.toNat / 256 % 4) (ea.toNat / 16 % 16) (ea.toNat % 16) := by
  unfold homePlace placeOf
  rw [if_neg (by omega), if_neg (by omega), if_neg (by omega), if_neg (by omega), if_pos window]

/-- LD of a register window writes one value and notes nothing. -/
theorem ld_register {v : Word} (straight : (effAddr s o.xa c.imm 8).toNat % 8 = 0) (elsewhere : ∀ g, homePlace s (effAddr s o.xa c.imm 8) ≠ .mem g)
    (read : scalarRead s (effAddr s o.xa c.imm 8) 1 = .ok s [v]) : WritesX (.ld c o) c o.xd v s := by
  obtain ⟨t, run, goes, written⟩ := alu_writes c o.xd v s
  refine ⟨t, Eq.trans ?_ run, goes, written⟩
  have on_boundary : aligned (effAddr s o.xa c.imm 8) (8 * 1) = true := beq_iff_eq.mpr straight
  have not_noted (x : State) (same : homePlace x (effAddr s o.xa c.imm 8) = homePlace s (effAddr s o.xa c.imm 8)) :
      noteLoad x (effAddr s o.xa c.imm 8) 1 o.xd = x := by
    unfold noteLoad
    rw [same]
    split
    case h_1 g at_g => exact absurd at_g (elsewhere g)
    case h_2 => rfl
  show execLd c o s = _
  unfold execLd loadThen alu
  simp only [on_boundary, read, Bool.not_true, Bool.false_eq_true, if_false]
  rw [not_noted]
  · rfl
  · unfold setX
    split <;> rfl

/-- ST to a register window. -/
theorem st_run (straight : (effAddr s o.xa c.imm 8).toNat % 8 = 0) :
    exec (.st c o) s = .next (retire c (scalarWrite s (effAddr s o.xa c.imm 8) [rx s o.xd])) := by
  have on_boundary : aligned (effAddr s o.xa c.imm 8) 8 = true := beq_iff_eq.mpr straight
  show execSt c o s = _
  unfold execSt
  simp only [on_boundary, Bool.not_true, Bool.false_eq_true, if_false]

theorem template_loads (straight : (effAddr s o.xa c.imm 8).toNat % 8 = 0)
    (window : 0x20000000 ≤ (effAddr s o.xa c.imm 8).toNat ∧ (effAddr s o.xa c.imm 8).toNat < 0x20004000) :
    WritesX (.ld c o) c o.xd (sget 0 s.templates (s.h.core / 8 * 2048 + ((effAddr s o.xa c.imm 8).toNat - 0x20000000) / 8)) s := by
  refine ld_register straight (fun g => by rw [homePlace_template window]; exact nofun) ?_
  unfold scalarRead
  rw [homePlace_template window]
  simp [homeCluster, clusterOfCore]

theorem template_stores (straight : (effAddr s o.xa c.imm 8).toNat % 8 = 0)
    (window : 0x20000000 ≤ (effAddr s o.xa c.imm 8).toNat ∧ (effAddr s o.xa c.imm 8).toNat < 0x20004000) :
    ∃ t, exec (.st c o) s = .next t ∧
      t = { s with templates := t.templates, h := { s.h with pc := pcAfter c s, issued := true } } ∧
      ∀ q, sget 0 t.templates q = if q = s.h.core / 8 * 2048 + ((effAddr s o.xa c.imm 8).toNat - 0x20000000) / 8 then rx s o.xd
        else sget 0 s.templates q := by
  refine ⟨_, st_run straight, ?_, fun q => ?_⟩
  all_goals unfold scalarWrite; rw [homePlace_template window]
  · simp only [retire, goTo, modH, nextPc_eq]
    rfl
  · exact sget_sset _ _ _ _ _

theorem template_stores_pair {i : Instr} (run : exec i s = storePair c o i s) (straight : (effAddr s o.xa c.imm 16).toNat % 16 = 0)
    (window : 0x20000000 ≤ (effAddr s o.xa c.imm 16).toNat ∧ (effAddr s o.xa c.imm 16).toNat < 0x20004000) :
    ∃ t, exec i s = .next t ∧
      t = { s with templates := t.templates, h := { s.h with pc := pcAfter c s, issued := true } } ∧
      ∀ q, sget 0 t.templates q = if q = s.h.core / 8 * 2048 + ((effAddr s o.xa c.imm 16).toNat - 0x20000000) / 8 then rx s o.xd
        else if q = s.h.core / 8 * 2048 + ((effAddr s o.xa c.imm 16).toNat - 0x20000000) / 8 + 1 then rx s (o.xd + 1)
        else sget 0 s.templates q := by
  have on_boundary : aligned (effAddr s o.xa c.imm 16) 16 = true := beq_iff_eq.mpr straight
  have stored : storePair c o i s = .next (retire c (scalarWrite s (effAddr s o.xa c.imm 16) [rx s o.xd, rx s (o.xd + 1)])) := by
    unfold storePair
    simp only [on_boundary, homePlace_template window, Bool.not_true, Bool.false_eq_true, if_false]
  refine ⟨_, run.trans stored, ?_, fun q => ?_⟩
  all_goals unfold scalarWrite; rw [homePlace_template window]
  · simp only [retire, goTo, modH, nextPc_eq]
    rfl
  · refine (sget_sset _ _ _ _ _).trans ?_
    rw [sget_sset]
    unfold homeCluster clusterOfCore
    by_cases low : q = s.h.core / 8 * 2048 + ((effAddr s o.xa c.imm 16).toNat - 0x20000000) / 8
    · rw [if_neg (by omega), if_pos low, if_pos low]
    · rw [if_neg low, if_neg low]

end Sys2Proof.Machine
end

section
/-! Tile-buffer descriptors dword by dword (R91). -/
namespace Sys2Proof.Machine

variable {s : State} {c : Ctl} {o : XI}

theorem ite_getLsbD_pow (on : Bool) {i j : Nat} (hi : i < 64) (v : Word) (v_eq : v = BitVec.ofNat 64 (2 ^ i)) :
    (if on then v else 0).getLsbD j = (decide (j = i) && on) := by
  subst v_eq
  have bit : (BitVec.ofNat 64 (2 ^ i)).getLsbD j = decide (j = i) := by
    rw [BitVec.getLsbD_ofNat, Nat.testBit_two_pow]
    by_cases same : j = i
    · simp [same, hi]
    · simp [same, Ne.symm same]
  cases on
  · simp
  · simpa using bit

/-- The configuration word as it is read: tag, MIX and CHK over the fields stored. -/
theorem dword_config (b : TileBuf) {j : Nat} (hj : j < 64) : (b.dword 0).getLsbD j =
    (if j = 28 then b.chk || b.cfg.getLsbD j else if j = 29 then b.mix || b.cfg.getLsbD j
      else if 32 ≤ j ∧ j < 48 then b.ltag.getLsbD (j - 32) || b.cfg.getLsbD j else b.cfg.getLsbD j) := by
  unfold TileBuf.dword
  rw [if_pos rfl, BitVec.getLsbD_or, BitVec.getLsbD_or, BitVec.getLsbD_or, BitVec.getLsbD_shiftLeft, BitVec.getLsbD_setWidth,
    ite_getLsbD_pow b.mix (i := 29) (by decide) 0x20000000 rfl, ite_getLsbD_pow b.chk (i := 28) (by decide) 0x10000000 rfl]
  by_cases chk : j = 28
  · subst chk
    simp [Bool.or_comm]
  by_cases mix : j = 29
  · subst mix
    simp [Bool.or_comm]
  by_cases tag : 32 ≤ j ∧ j < 48
  · have low : ¬j < 32 := by omega
    have small : j - 32 < 64 := by omega
    simp [chk, mix, tag, hj, low, small, Bool.or_comm]
  · by_cases low : j < 32
    · simp [chk, mix, low]
    · have beyond : b.ltag.getLsbD (j - 32) = false := BitVec.getLsbD_of_ge _ _ (by omega)
      rw [if_neg chk, if_neg mix, if_neg tag]
      simp [chk, mix, beyond]

theorem dword_count (b : TileBuf) : b.dword 1 = BitVec.ofNat 64 ((List.range 1024).countP (fun q => b.landed.getLsbD q)) := by
  unfold TileBuf.dword
  rw [if_neg (by decide), if_pos rfl, popCount_eq_countP]
  rfl

theorem dword_landed (b : TileBuf) {k j : Nat} (config : k ≠ 0) (count : k ≠ 1) (hj : j < 64) : (b.dword k).getLsbD j =
    (decide (16 ≤ k) && b.landed.getLsbD (64 * (k - 16) + j)) := by
  unfold TileBuf.dword
  rw [if_neg config, if_neg count]
  split
  case isTrue high => simp [high, hj]
  case isFalse low => simp [low]

/-! The configuration stored (R91). -/

theorem mask_getLsbD (v : Word) {j : Nat} (hj : j < 64) : (v &&& 0xffff0000c1ffffff).getLsbD j =
    (v.getLsbD j && (decide (j < 25) || decide (j = 30) || decide (j = 31) || decide (48 ≤ j))) := by
  rw [BitVec.getLsbD_and]
  congr 1
  revert j
  decide

/-- A field of the bits that the mask keeps. -/
theorem mask_field (v : Word) {lo n : Nat} (below : lo + n ≤ 25) :
    (v &&& 0xffff0000c1ffffff).toNat / 2 ^ lo % 2 ^ n = v.toNat / 2 ^ lo % 2 ^ n := by
  refine Nat.eq_of_testBit_eq fun j => ?_
  rw [Nat.testBit_mod_two_pow, Nat.testBit_mod_two_pow, Nat.testBit_div_two_pow, Nat.testBit_div_two_pow]
  by_cases inside : j < n
  · have same := mask_getLsbD v (j := j + lo) (by omega)
    have low : j + lo < 25 := by omega
    simp only [BitVec.getLsbD, low] at same
    simpa [inside] using same
  · simp [inside]

theorem configure_eq (v : Word) : TileBuf.configure v =
    if v.getLsbD 31 && decide (32768 < v.toNat % 2 ^ 15 + (v.toNat / 2 ^ 15 % 2 ^ 10 + 1))
    then ⟨(v &&& 0xffff0000c1ffffff) &&& ~~~0x80000000#64, 0, false, false, 0⟩ else ⟨v &&& 0xffff0000c1ffffff, 0, false, false, 0⟩ := by
  have base := mask_field v (lo := 0) (n := 15) (by decide)
  have chunks : (v &&& 0xffff0000c1ffffff).toNat / 2 ^ 15 % 1024 = v.toNat / 2 ^ 15 % 2 ^ 10 := mask_field v (lo := 15) (n := 10) (by decide)
  simp only [pow_zero, Nat.div_one] at base
  have en := mask_getLsbD v (j := 31) (by decide)
  rw [show (decide (31 < 25) || decide (31 = 30) || decide (31 = 31) || decide (48 ≤ 31)) = true from rfl, Bool.and_true] at en
  unfold TileBuf.configure
  dsimp only
  unfold TileBuf.en TileBuf.base TileBuf.chunks
  dsimp only
  rw [en, base, chunks]

/-- What a store of the configuration word leaves: nothing landed, no tag, and EN only where the range ends in the scratchpad. -/
theorem configure_spec (v : Word) : (TileBuf.configure v).landed = 0 ∧ (TileBuf.configure v).ltag = 0 ∧ (TileBuf.configure v).mix = false ∧
    (TileBuf.configure v).chk = false ∧ ∀ j, j < 64 → (TileBuf.configure v).cfg.getLsbD j =
      if j = 31 then v.getLsbD 31 && decide (v.toNat % 2 ^ 15 + v.toNat / 2 ^ 15 % 2 ^ 10 + 1 ≤ 32768)
      else v.getLsbD j && (decide (j < 25) || decide (j = 30) || decide (48 ≤ j)) := by
  rw [configure_eq]
  cases beyond : v.getLsbD 31 && decide (32768 < v.toNat % 2 ^ 15 + (v.toNat / 2 ^ 15 % 2 ^ 10 + 1)) with
  | true =>
    simp only [Bool.and_eq_true, decide_eq_true_eq] at beyond
    refine ⟨rfl, rfl, rfl, rfl, fun j hj => ?_⟩
    have bit : (~~~0x80000000#64).getLsbD j = !decide (j = 31) := by
      revert j
      decide
    rw [if_pos rfl]
    dsimp only
    rw [BitVec.getLsbD_and, mask_getLsbD v hj, bit]
    by_cases en : j = 31
    · have far : ¬v.toNat % 2 ^ 15 + v.toNat / 2 ^ 15 % 2 ^ 10 + 1 ≤ 32768 := by omega
      rw [if_pos en, decide_eq_false far]
      simp [en]
    · simp [en]
  | false =>
    refine ⟨rfl, rfl, rfl, rfl, fun j hj => ?_⟩
    rw [if_neg Bool.false_ne_true]
    dsimp only
    rw [mask_getLsbD v hj]
    by_cases en : j = 31
    · subst en
      cases on : v.getLsbD 31 with
      | false => simp
      | true =>
        rw [on, Bool.true_and, decide_eq_false_iff_not] at beyond
        have near : v.toNat % 2 ^ 15 + v.toNat / 2 ^ 15 % 2 ^ 10 + 1 ≤ 32768 := by omega
        rw [if_pos rfl, decide_eq_true near]
        rfl
    · simp [en]

/-- A 1 stored to a LANDED bit clears it. -/
theorem store_landed (b : TileBuf) (v : Word) {k : Nat} (high : 16 ≤ k) :
    b.store k v = { b with landed := (b.store k v).landed } ∧
    ∀ j, j < 1024 → (b.store k v).landed.getLsbD j = (b.landed.getLsbD j && !(decide (j / 64 = k - 16) && v.getLsbD (j % 64))) := by
  unfold TileBuf.store
  rw [if_neg (by omega), if_pos high]
  refine ⟨rfl, fun j hj => ?_⟩
  dsimp only
  rw [BitVec.getLsbD_and, BitVec.getLsbD_not, BitVec.getLsbD_shiftLeft, BitVec.getLsbD_setWidth]
  by_cases here : j / 64 = k - 16
  · have start : ¬j < 64 * (k - 16) := by omega
    have bit : j - 64 * (k - 16) = j % 64 := by omega
    have inside : j % 64 < 1024 := by omega
    simp [hj, here, start, bit, inside]
  · by_cases below : j < 64 * (k - 16)
    · simp [hj, here, below]
    · have beyond : v.getLsbD (j - 64 * (k - 16)) = false := BitVec.getLsbD_of_ge _ _ (by omega)
      simp [hj, here, beyond]

theorem store_reserved (b : TileBuf) (v : Word) {k : Nat} (config : 0 < k) (low : k < 16) : b.store k v = b := by
  unfold TileBuf.store
  rw [if_neg (by omega), if_neg (by omega)]

/-! As scalar accesses reach them. -/

theorem desc_loads (straight : (effAddr s o.xa c.imm 8).toNat % 8 = 0)
    (window : 0x20010000 ≤ (effAddr s o.xa c.imm 8).toNat ∧ (effAddr s o.xa c.imm 8).toNat < 0x20014000) :
    WritesX (.ld c o) c o.xd ((bufAt s (s.h.core / 8) (((effAddr s o.xa c.imm 8).toNat - 0x20010000) / 256)).dword
      ((effAddr s o.xa c.imm 8).toNat / 8 % 32)) s := by
  refine ld_register straight (fun g => by rw [homePlace_desc window]; exact nofun) ?_
  have dword : ((effAddr s o.xa c.imm 8).toNat - 0x20010000) / 8 % 32 = (effAddr s o.xa c.imm 8).toNat / 8 % 32 := by omega
  unfold scalarRead
  rw [homePlace_desc window]
  simp [homeCluster, clusterOfCore, dword]

theorem desc_stores (straight : (effAddr s o.xa c.imm 8).toNat % 8 = 0)
    (window : 0x20010000 ≤ (effAddr s o.xa c.imm 8).toNat ∧ (effAddr s o.xa c.imm 8).toNat < 0x20014000) :
    ∃ t, exec (.st c o) s = .next t ∧ t = { s with bufs := t.bufs, h := { s.h with pc := pcAfter c s, issued := true } } ∧
      ∀ cl m, m < 64 → bufAt t cl m = if cl = s.h.core / 8 ∧ m = ((effAddr s o.xa c.imm 8).toNat - 0x20010000) / 256
        then (bufAt s cl m).store ((effAddr s o.xa c.imm 8).toNat / 8 % 32) (rx s o.xd) else bufAt s cl m := by
  have dword : ((effAddr s o.xa c.imm 8).toNat - 0x20010000) / 8 % 32 + 0 = (effAddr s o.xa c.imm 8).toNat / 8 % 32 := by omega
  have n_lt : ((effAddr s o.xa c.imm 8).toNat - 0x20010000) / 256 < 64 := by omega
  have written : scalarWrite s (effAddr s o.xa c.imm 8) [rx s o.xd] =
      setBuf s (s.h.core / 8) (((effAddr s o.xa c.imm 8).toNat - 0x20010000) / 256)
        ((bufAt s (s.h.core / 8) (((effAddr s o.xa c.imm 8).toNat - 0x20010000) / 256)).store ((effAddr s o.xa c.imm 8).toNat / 8 % 32)
          (rx s o.xd)) := by
    unfold scalarWrite
    rw [homePlace_desc window]
    simp only [List.length_singleton, List.range_one, List.foldl_cons, List.foldl_nil, dword]
    rfl
  refine ⟨_, st_run straight, ?_, fun cl m hm => ?_⟩
  all_goals rw [written]
  · simp only [retire, goTo, modH, nextPc_eq]
    rfl
  · refine (bufAt_setBuf s _ cl _ n_lt hm).trans ?_
    by_cases here : cl = s.h.core / 8 ∧ m = ((effAddr s o.xa c.imm 8).toNat - 0x20010000) / 256
    · rw [if_pos here, if_pos here, here.1, here.2]
    · rw [if_neg here, if_neg here]

end Sys2Proof.Machine
end

section
/-! The stores that start copies (R87, R112, R254, R256, R258). -/
namespace Sys2Proof.Machine

variable {s : State} {c : Ctl} {o : XI}

/-- The copy that a store of the two dwords to a channel captures. -/
def copyOf (s : State) (chan : Nat) (d0 d1 : Word) : Copy :=
  { captureCopy s 0 0 d0 d1 with chan := chan }

theorem captureCopy_eq {ea : Word} (window : 0x20020000 ≤ ea.toNat ∧ ea.toNat < 0x20020400) (s : State) (d0 d1 : Word) :
    captureCopy s (ea.toNat / 256 % 4) (ea.toNat / 16 % 16) d0 d1 =
      copyOf s (64 * (s.h.core / 8) + (ea.toNat - 0x20020000) / 16) d0 d1 := by
  unfold copyOf captureCopy homeCluster clusterOfCore
  dsimp only
  congr 1
  omega

/-- A copy of any kind but PLANES waits for room in its channel alone. -/
theorem apertureFull_eq {q : Copy} (kind : q.kind ≠ 3) (s : State) :
    apertureFull s q = decide (5 ≤ (s.copies.filter (fun x => x.chan == q.chan)).length) := by
  have other : (q.kind == 3) = false := beq_eq_false_iff_ne.mpr kind
  rw [apertureFull, other, Bool.false_and, Bool.or_false]

theorem kind_copyOf (s : State) (chan : Nat) (d0 d1 : Word) : (copyOf s chan d0 d1).kind =
    (((List.range 8).map (fun k => sget 0 s.templates (s.h.core / 8 * 2048 + d0.toNat % 256 * 8 + k))).headD 0).toNat % 16 := by
  show _ / 2 ^ 0 % 2 ^ (3 - 0 + 1) = _
  rw [Nat.pow_zero, Nat.div_one]
  rfl

/-- The start of a copy: the least cy from 4 cy after the issue whose distance from TSTART is OFF modulo 2^24 (R258). -/
theorem startCy_spec (tstart : Nat) (q : Copy) (off : q.off < 2 ^ 24) : q.issueCy + 4 ≤ startCy tstart q ∧
    startCy tstart q < q.issueCy + 4 + 2 ^ 24 ∧ ((startCy tstart q : Int) - tstart) % 2 ^ 24 = q.off := by
  unfold startCy
  dsimp only
  omega

/-- A channel's first copy, not yet started, is planned; nothing else changes. -/
theorem startNext_frame (s : State) (chan : Nat) : startNext s chan = { s with calendar := (startNext s chan).calendar } := by
  unfold startNext
  split
  · rfl
  · split <;> rfl

theorem startNext_append {q : Copy} (idle : s.copies.filter (fun x => x.chan == q.chan) = []) (fresh : q.started = false) (n : Nat) :
    (startNext { s with copies := s.copies ++ [q], fresh := n } q.chan).calendar =
      s.calendar ++ [(max s.cyc (startCy (gangOf s q.gang).tstart q), .copyStart q.chan)] := by
  have first : (s.copies ++ [q]).find? (fun x => x.chan == q.chan) = some q := by
    rw [List.find?_append, List.find?_eq_none.mpr fun x hx => List.filter_eq_nil_iff.mp idle x hx]
    simp
  unfold startNext
  simp only [first, fresh, Bool.false_eq_true, if_false]
  rfl

/-- An aperture store of a copy of any kind but PLANES: the copy joins its channel, and the strip closes. -/
theorem apertureStore_spec {q : Copy} (kind : q.kind ≠ 3) (id_eq : q.id = s.fresh) : ∃ t, apertureStore c s q = t ∧
    t = { s with copies := s.copies ++ [q], fresh := s.fresh + 1, calendar := t.calendar, writers := t.writers
                 h := { s.h with pc := pcAfter c s, issued := true, strip := [], stripReads := [], streams := [] } } ∧
    t.calendar = (startNext { s with copies := s.copies ++ [q], fresh := s.fresh + 1 } q.chan).calendar := by
  have other : (q.kind != 3) = true := bne_iff_ne.mpr kind
  have same : { q with id := s.fresh } = q := by rw [← id_eq]
  have ready : prepareRegister s q = .ok s := by
    unfold prepareRegister
    dsimp only
    rw [other]
    rfl
  refine ⟨_, rfl, ?_⟩
  unfold apertureStore
  simp only [ready, same]
  rw [startNext_frame]
  generalize (startNext _ q.chan).calendar = calendar
  refine ⟨?_, rfl⟩
  simp only [retire, goTo, closeStrip, modH, nextPc_eq]
  rfl

/-- The hart in hand takes back its own wait. -/
theorem withHart_self (s : State) (f : State → State) (same : (f s).h.gang = s.h.gang ∧ (f s).h.idx = s.h.idx) :
    withHart s s.h.gang s.h.idx f = f s := by
  unfold withHart
  rw [findHart_self, takeHart_self]
  dsimp only
  rw [← same.1, ← same.2, takeHart_self]

/-- What O8 says of a copy captured. -/
def Captured (s : State) (chan : Nat) (d0 d1 : Word) (q : Copy) : Prop :=
  q.chan = chan ∧ q.gang = s.h.gang ∧ q.hart = s.h.idx ∧ q.part = (myGang s).part ∧ q.asid = (myGang s).launch.asid ∧
  q.pc = s.h.pc ∧ q.tmpl = (List.range 8).map (fun k => sget 0 s.templates (s.h.core / 8 * 2048 + d0.toNat % 256 * 8 + k)) ∧
  q.sreq = d0.toNat / 2 ^ 48 ∧ q.tag.toNat = d0.toNat / 2 ^ 32 % 2 ^ 16 ∧ q.off = d0.toNat / 2 ^ 8 % 2 ^ 24 ∧
  q.tidx = d0.toNat % 2 ^ 8 ∧ q.disp = d1 ∧ q.issueCy = s.h.issueCy ∧ q.csr = s.h.csr ∧ q.core = s.h.core ∧
  q.started = false ∧ q.chunks = [] ∧ q.id = s.fresh

theorem captured_copyOf (s : State) (chan : Nat) (d0 d1 : Word) : Captured s chan d0 d1 (copyOf s chan d0 d1) :=
  ⟨rfl, rfl, rfl, rfl, rfl, rfl, rfl, rfl, by simp [copyOf, captureCopy], rfl, rfl, rfl, rfl, rfl, rfl, rfl, rfl, rfl⟩

/-- The state after the start of a copy by the hart in hand, whose wait becomes `wait`. -/
def Starts (c : Ctl) (s : State) (chan : Nat) (d0 d1 : Word) (wait : Option Wait) (j : Instr) (x : State) : Prop :=
  ∃ t q, exec j x = .next t ∧
    t = { s with copies := s.copies ++ [q], fresh := s.fresh + 1, calendar := t.calendar, writers := t.writers
                 h := { s.h with pc := pcAfter c s, issued := true, strip := [], stripReads := [], streams := [], wait := wait } } ∧
    Captured s chan d0 d1 q ∧
    (s.copies.filter (fun q => q.chan == chan) = [] → ∃ cy st, t.calendar = s.calendar ++ [(cy, .copyStart chan)] ∧ cy = max s.cyc st ∧
      s.h.issueCy + 4 ≤ st ∧ st < s.h.issueCy + 4 + 2 ^ 24 ∧ ((st : Int) - (myGang s).tstart) % 2 ^ 24 = d0.toNat / 2 ^ 8 % 2 ^ 24)

theorem starts_of_run {chan : Nat} {d0 d1 : Word} {wait : Option Wait} {j : Instr} {x : State}
    (kind : (copyOf s chan d0 d1).kind ≠ 3)
    (run : exec j x = .next (apertureStore c (modH s (fun h => { h with wait := wait })) (copyOf s chan d0 d1))) :
    Starts c s chan d0 d1 wait j x := by
  obtain ⟨t, stored, frame, calendar⟩ := apertureStore_spec (s := modH s (fun h => { h with wait := wait })) (c := c)
    (q := copyOf s chan d0 d1) kind rfl
  refine ⟨t, copyOf s chan d0 d1, run.trans (congrArg _ stored), frame, captured_copyOf s chan d0 d1, fun idle => ?_⟩
  have off : (copyOf s chan d0 d1).off < 2 ^ 24 := Nat.mod_lt _ (by decide)
  obtain ⟨late, soon, dist⟩ := startCy_spec (myGang s).tstart (copyOf s chan d0 d1) off
  refine ⟨_, startCy (myGang s).tstart (copyOf s chan d0 d1), calendar.trans ?_, rfl, late, soon, dist.trans ?_⟩
  · exact startNext_append (s := modH s (fun h => { h with wait := wait })) (q := copyOf s chan d0 d1) idle rfl _
  · show ((d0.toNat / 256 % 2 ^ 24 : Nat) : Int) = _
    push_cast
    rfl

section
variable {i : Instr} (run : exec i s = storePair c o i s) (straight : (effAddr s o.xa c.imm 16).toNat % 16 = 0)
  (window : 0x20020000 ≤ (effAddr s o.xa c.imm 16).toNat ∧ (effAddr s o.xa c.imm 16).toNat < 0x20020400)
  (kind : (copyOf s (64 * (s.h.core / 8) + ((effAddr s o.xa c.imm 16).toNat - 0x20020000) / 16) (rx s o.xd) (rx s (o.xd + 1))).kind ≠ 3)

include run straight window kind in
theorem aperture_run : exec i s = .next (
    if 5 ≤ (s.copies.filter (fun q => q.chan == 64 * (s.h.core / 8) + ((effAddr s o.xa c.imm 16).toNat - 0x20020000) / 16)).length
    then holdFor s .aperture i
    else apertureStore c s (copyOf s (64 * (s.h.core / 8) + ((effAddr s o.xa c.imm 16).toNat - 0x20020000) / 16) (rx s o.xd)
      (rx s (o.xd + 1)))) := by
  have on_boundary : aligned (effAddr s o.xa c.imm 16) 16 = true := beq_iff_eq.mpr straight
  refine run.trans ?_
  unfold storePair
  simp only [on_boundary, homePlace_aperture window, captureCopy_eq window, apertureFull_eq kind, Bool.not_true, Bool.false_eq_true,
    if_false, decide_eq_true_eq]
  rfl

include window kind in
omit straight in
theorem accept_run {i : Instr} (named : i = .stq c o ∨ i = .btx c o)
    (room : (s.copies.filter (fun q => q.chan == 64 * (s.h.core / 8) + ((effAddr s o.xa c.imm 16).toNat - 0x20020000) / 16)).length < 5)
    (w : Wait) (held : w.instr = i) :
    exec (.apertureQueueAccept s.h.gang s.h.idx) { s with h := { s.h with wait := some w } } =
      .next (apertureStore c (modH s (fun h => { h with wait := none }))
        (copyOf s (64 * (s.h.core / 8) + ((effAddr s o.xa c.imm 16).toNat - 0x20020000) / 16) (rx s o.xd) (rx s (o.xd + 1)))) := by
  set x : State := { s with h := { s.h with wait := some w } } with x_eq
  set q := copyOf s (64 * (s.h.core / 8) + ((effAddr s o.xa c.imm 16).toNat - 0x20020000) / 16) (rx s o.xd) (rx s (o.xd + 1)) with q_eq
  have place : homePlace x (effAddr x o.xa c.imm 16) = _ := homePlace_aperture (s := x) window
  have captured : captureCopy x _ _ (rx x o.xd) (rx x (o.xd + 1)) = q :=
    captureCopy_eq (ea := effAddr x o.xa c.imm 16) window x (rx s o.xd) (rx s (o.xd + 1))
  have open_ : apertureFull x q = false := (apertureFull_eq kind x).trans (decide_eq_false (Nat.not_le.mpr room))
  obtain ⟨t, stored, frame, -⟩ := apertureStore_spec (s := modH s (fun h => { h with wait := none })) (c := c) (q := q) kind rfl
  have mine : t.h.gang = x.h.gang ∧ t.h.idx = x.h.idx := by rw [frame]; exact ⟨rfl, rfl⟩
  rw [stored]
  show Host.Outcome.next (withHart x x.h.gang x.h.idx _) = _
  rw [withHart_self]
  all_goals
    simp only [show x.h.wait = some w from rfl, held]
    obtain rfl | rfl := named
    all_goals
      simp only [place, captured, open_, Bool.false_eq_true, if_false]
      rw [show modH x (fun h => { h with wait := none }) = modH s (fun h => { h with wait := none }) from rfl, stored]
  · exact mine
  · exact mine

end

end Sys2Proof.Machine

open Sys2Proof Sys2Proof.Machine

/-- Settles O8: each window by its own dwords, and a copy captured, behind the others of its channel. -/
theorem registerWindowsAndApertures : Obligations.RegisterWindowsAndApertures := by
  unfold Obligations.RegisterWindowsAndApertures
  refine ⟨fun c o s => ?windows, fun c o s i named => ?apertures⟩
  case windows =>
    dsimp only
    rw [← effAddr_dwords s o.xa c.imm, ← effAddr_pairs s o.xa c.imm]
    intro straight
    refine ⟨fun window => ⟨template_loads straight window, template_stores straight window⟩, fun i named straight₂ low high => ?pair,
      fun window => ⟨⟨_, desc_loads straight window, fun j hj => ?dword⟩, ?store⟩, fun window => ?aperture⟩
    case pair =>
      simp only [List.mem_cons, List.not_mem_nil, or_false] at named
      obtain rfl | rfl := named
      · exact template_stores_pair rfl straight₂ ⟨low, high⟩
      · exact template_stores_pair rfl straight₂ ⟨low, high⟩
    case dword =>
      split
      case isTrue config => rw [config, dword_config _ hj]
      case isFalse config =>
        split
        case isTrue count => rw [count, dword_count]
        case isFalse count => exact dword_landed _ config count hj
    case store =>
      obtain ⟨t, run, frame, bufs⟩ := desc_stores straight window
      have mine := (bufs (s.h.core / 8) (((effAddr s o.xa c.imm 8).toNat - 0x20010000) / 256) (by omega)).trans (if_pos ⟨rfl, rfl⟩)
      refine ⟨t, run, frame, fun cl m hm other => (bufs cl m hm).trans (if_neg fun same => other (Prod.ext same.1 same.2)),
        fun config => ?_, fun config low => ?_, fun high => ?_⟩
      · rw [mine, config]
        exact configure_spec (rx s o.xd)
      · exact mine.trans (store_reserved _ _ config low)
      · rw [mine]
        exact store_landed _ _ high
    case aperture =>
      refine ld_register straight (fun g => by rw [homePlace_aperture window]; exact nofun) ?_
      unfold scalarRead
      rw [homePlace_aperture window]
      rfl
  case apertures =>
    dsimp only
    rw [← effAddr_pairs s o.xa c.imm]
    intro straight low high kind
    have kind' : (copyOf s (64 * (s.h.core / 8) + ((effAddr s o.xa c.imm 16).toNat - 0x20020000) / 16) (rx s o.xd)
        (rx s (o.xd + 1))).kind ≠ 3 := fun planes => kind ((kind_copyOf _ _ _ _).symm.trans planes)
    simp only [List.mem_cons, List.not_mem_nil, or_false] at named
    have run : exec i s = storePair c o i s := by
      obtain rfl | rfl := named <;> rfl
    have stored := aperture_run run straight ⟨low, high⟩ kind'
    refine ⟨fun room => ⟨?stores, fun w held => ?accepted⟩, fun full => ⟨_, _, stored.trans (congrArg _ (if_pos full)), rfl, rfl⟩⟩
    case stores => simpa only [Starts, Captured, and_assoc] using starts_of_run kind' (stored.trans (congrArg _ (if_neg (Nat.not_le.mpr room))))
    case accepted => simpa only [Starts, Captured, and_assoc] using starts_of_run kind' (accept_run ⟨low, high⟩ kind' named room w held)
end

section
/-! Results that no predicate masks, compares, and the PRED group (R35, R36, R182 to R185). -/
namespace Sys2Proof.Machine

variable {c : Ctl} {s : State}

/-- The control bits with P0 in the predicate's place. -/
def everywhere (c : Ctl) : Ctl := { c with pred := 0 }

/-- What every element below VL takes is what it takes under P0. -/
theorem map_elems_eq_results (c : Ctl) (s : State) (f : Nat → Nat) (bad : Nat → Bool) :
    (elems s).map (fun e => (⟨e, f e, bad e⟩ : Item)) = results (everywhere c) s f bad := by
  have item (e : Nat) : (⟨e, f e, bad e⟩ : Item) = ⟨e, f e, bad e || predPoisoned s (everywhere c).pred.toNat e⟩ := by
    rw [show predPoisoned s (everywhere c).pred.toNat e = false from rfl, Bool.or_false]
  rw [funext item, ← List.filterMap_eq_map]
  rfl

theorem masked_everywhere {α : Type} (c : Ctl) (s : State) (zero : α) (f : Nat → α) (e : Nat) :
    masked (everywhere c) s zero f e = if e < s.h.csr.vl then some (f e) else none := rfl

/-! VSEL. -/

theorem vsel_writes {o : V3} (intA : IntOp c s .a) (intB : IntOp c s .b) (intD : IntOp c s .d) (g : Granted s)
    (usable : Usable s [(o.va, (descOf c s .a).w), (o.vb, (descOf c s .b).w), (o.vd, (descOf c s .d).w)]) :
    ∃ t, exec (.vsel c o) s = .next t ∧
      VecFrame c s t ([(o.va, (descOf c s .a).w), (o.vb, (descOf c s .b).w), (o.vd, (descOf c s .d).w)].map (fun x => x.1.toNat)) id ∧
      ElemsWritten s t o.vd.toNat (descOf c s .d).w (fun e => if e < s.h.csr.vl then some (low (descOf c s .d).w
        (if predBit s c.pred.toNat e then elemInt s (descOf c s .a) o.va.toNat e else elemInt s (descOf c s .b) o.vb.toNat e))
        else none) := by
  obtain ⟨p, first, fits⟩ := usable.destination (o := (o.vd, (descOf c s .d).w)) (by simp)
  have m : Names [srcNamed o.va (descOf c s .a).w, srcNamed o.vb (descOf c s .b).w,
      { reg := o.vd.toNat, width := some (descOf c s .d).w, fill := false }]
      [(o.va, (descOf c s .a).w), (o.vb, (descOf c s .b).w), (o.vd, (descOf c s .d).w)] :=
    .cons ⟨rfl, rfl, le_rfl⟩ (.cons ⟨rfl, rfl, le_rfl⟩ (.cons ⟨rfl, rfl, le_rfl⟩ .nil))
  have run : exec (.vsel c o) s = execVsel c o s := rfl
  unfold execVsel at run
  rw [vecFrame_prepared _ (usable.prepared m) (by simp [intA.1, intB.1, intD.1])
    (by simp [intA.accepted, intB.accepted, intD.accepted]) rfl] at run
  dsimp only at run
  rw [map_elems_eq_results c] at run
  simp only [elemInt_touchRegs, predBit_touchRegs] at run
  refine ⟨_, run, results_frame (c := everywhere c) m _ _ _ _ fun clean e => ?clean, ?written⟩
  case clean =>
    have clean' := clean_touchRegs clean [srcNamed o.va (descOf c s .a).w, srcNamed o.vb (descOf c s .b).w,
      { reg := o.vd.toNat, width := some (descOf c s .d).w, fill := false }]
    simp only [elemPoisoned_of_clean clean', predPoisoned_of_clean clean', ite_self, Bool.or_self]
  case written => exact results_written (c := everywhere c) g first fits _ _ _

/-! VCMP. -/

theorem compareInt_eq (cc : Nat) (a b : Int) : compareInt cc a b = (match cc with
    | 0 => decide (a = b) | 1 => decide (a ≠ b) | 2 => decide (a < b) | 3 => decide (a ≤ b) | 4 => decide (a > b)
    | _ => decide (a ≥ b)) := by
  rcases cc with _ | _ | _ | _ | _ | cc
  case zero => exact beq_eq_decide (a := a) (b := b)
  case succ.zero => exact (congrArg (! ·) (beq_eq_decide (a := a) (b := b))).trans decide_not.symm
  all_goals rfl

theorem vcmp_writes {o : V3} (intA : IntOp c s .a) (intB : IntOp c s .b) (g : Granted s)
    (usable : Usable s [(o.va, (descOf c s .a).w), (o.vb, (descOf c s .b).w)]) :
    ∃ t, exec (.vcmp c o) s = .next t ∧
      VecFrame c s t ([(o.va, (descOf c s .a).w), (o.vb, (descOf c s .b).w)].map (fun x => x.1.toNat)) id ∧
      PredWritten s t (o.vd.toNat % 16) (masked c s false (fun e => compareInt c.minor.toNat
        (elemInt s (descOf c s .a) o.va.toNat e) (elemInt s (descOf c s .b) o.vb.toNat e))) := by
  have m : Names [srcNamed o.va (descOf c s .a).w, srcNamed o.vb (descOf c s .b).w]
      [(o.va, (descOf c s .a).w), (o.vb, (descOf c s .b).w)] := .cons ⟨rfl, rfl, le_rfl⟩ (.cons ⟨rfl, rfl, le_rfl⟩ .nil)
  have run : exec (.vcmp c o) s = execVcmp c o s := rfl
  unfold execVcmp at run
  rw [vecFrame_prepared _ (usable.prepared m) (by simp [intA.1, intB.1]) (by simp [intA.accepted, intB.accepted]) rfl] at run
  generalize [srcNamed o.va (descOf c s .a).w, srcNamed o.vb (descOf c s .b).w] = names at run m
  simp only [elemInt_touchRegs] at run
  have only := writePred_onlyPlanes (touchRegs s names) (o.vd.toNat % 16) (results c (touchRegs s names)
    (fun e => if compareInt c.minor.toNat (elemInt s (descOf c s .a) o.va.toNat e) (elemInt s (descOf c s .b) o.vb.toNat e) then 1 else 0)
    (fun e => elemPoisoned (touchRegs s names) o.va.toNat (descOf c s .a).w e ||
      elemPoisoned (touchRegs s names) o.vb.toNat (descOf c s .b).w e))
  refine ⟨_, run, vecFrame_of_onlyPlanes (f := id) m only (retire_of_onlyPlanes c only) (fun clean => ?clean)
    (writePred_unarmed _ _ _), ?written⟩
  case clean =>
    have clean' := clean_touchRegs clean names
    exact writePred_clean clean' _ (results_clean clean' _ fun e => by simp only [elemPoisoned_of_clean clean', Bool.or_self])
  case written =>
    have written := (writePred_results (g.touch names) c (Nat.mod_lt o.vd.toNat (by decide : 0 < 16))
      (fun e => if compareInt c.minor.toNat (elemInt s (descOf c s .a) o.va.toNat e) (elemInt s (descOf c s .b) o.vb.toNat e) then 1 else 0)
      (fun e => elemPoisoned (touchRegs s names) o.va.toNat (descOf c s .a).w e ||
        elemPoisoned (touchRegs s names) o.vb.toNat (descOf c s .b).w e)).of_touchRegs
    have lowest (b : Bool) : ((if b then 1 else 0) % 2 == 1) = b := by cases b <;> rfl
    simp only [masked_touchRegs_bool, lowest] at written
    exact written

/-! The PRED group: every form writes the elements below VL, whatever the predicate (R185). -/

theorem predWrite_gives {i : Instr} {pd : BitVec 4} {srcs : List Nat} {f : Nat → Bool} (g : Granted s)
    (run : exec i s = predWrite c s pd.toNat srcs f) : ∃ t, exec i s = .next t ∧
      t = { s with planes := t.planes, poisonLane := t.poisonLane, armed := t.armed, calendar := t.calendar
                   h := { s.h with pc := pcAfter c s, issued := true } } ∧
      (s.poisonLane = [] → t.poisonLane = []) ∧ (s.armed = [] → t.armed = [] ∧ t.calendar = s.calendar) ∧
      PredWritten s t pd.toNat (fun e => if e < s.h.csr.vl then some (f e) else none) := by
  unfold predWrite at run
  rw [map_elems_eq_results c] at run
  have written := writePred_results g (everywhere c) pd.isLt (fun e => if f e then 1 else 0)
    (fun e => srcs.any (fun p => predPoisoned s p e))
  have clean (unpoisoned : s.poisonLane = []) := writePred_clean unpoisoned pd.toNat (results_clean (c := everywhere c) unpoisoned
    (fun e => if f e then 1 else 0) (bad := fun e => srcs.any (fun p => predPoisoned s p e))
    (fun e => List.any_eq_false.mpr fun p _ => by simp [predPoisoned_of_clean unpoisoned]))
  have unarmed := writePred_unarmed s pd.toNat (results (everywhere c) s (fun e => if f e then 1 else 0)
    (fun e => srcs.any (fun p => predPoisoned s p e)))
  have only := (writePred_onlyPlanes s pd.toNat (results (everywhere c) s (fun e => if f e then 1 else 0)
    (fun e => srcs.any (fun p => predPoisoned s p e)))).eq
  generalize writePred s pd.toNat _ = u at run written clean unarmed only
  have lowest (b : Bool) : ((if b then 1 else 0) % 2 == 1) = b := by cases b <;> rfl
  simp only [lowest] at written
  refine ⟨_, run, ?_, clean, unarmed, written⟩
  have pc : u.h.pc = s.h.pc := by rw [only]
  simp only [retire, goTo, modH, nextPc_eq, pcAfter_congr pc]
  conv_lhs => rw [only]

/-- The first element below VL whose bit is set (R185). -/
theorem find_first (p : Nat → Bool) {n e : Nat} (below : e < n) :
    ((List.range n).find? p == some e) = (p e && (List.range e).all (fun k => !p k)) := by
  refine Bool.eq_iff_iff.mpr ?_
  rw [beq_iff_eq, List.find?_range_eq_some, Bool.and_eq_true, List.all_eq_true]
  simp only [List.mem_range, Bool.not_eq_true']
  exact ⟨fun ⟨on, _, before⟩ => ⟨on, fun k hk => by simpa using before k hk⟩,
    fun ⟨on, before⟩ => ⟨on, by simpa using below, fun k hk => by simpa using before k hk⟩⟩

theorem PredWritten.of_below {t : State} {pd : Nat} {f f' : Nat → Bool} (written : PredWritten s t pd (fun e => if e < s.h.csr.vl then some (f e) else none))
    (same : ∀ e, e < s.h.csr.vl → f e = f' e) : PredWritten s t pd (fun e => if e < s.h.csr.vl then some (f' e) else none) := by
  have values : (fun e => if e < s.h.csr.vl then some (f e) else none) = fun e => if e < s.h.csr.vl then some (f' e) else none :=
    funext fun e => ite_congr rfl (fun below => by rw [same e below]) (fun _ => rfl)
  rwa [values] at written

theorem psetBit_eq {vl e : Nat} (below : e < vl) (code : Nat) : psetBit vl code e = (match code with
    | 0 => false | 1 => true | 2 => decide (e % 2 = 0) | 3 => decide (e % 2 = 1) | 4 => decide (e = 0) | _ => decide (e = vl - 1)) := by
  have last : (e + 1 == vl) = decide (e = vl - 1) := by
    rw [beq_eq_decide]
    exact decide_eq_decide.mpr (by omega)
  unfold psetBit
  rw [last]
  rcases code with _ | _ | _ | _ | _ | code
  case zero | succ.zero | succ.succ.succ.succ.succ => rfl
  all_goals exact beq_eq_decide (α := Nat) _ _

theorem pcnt_writes {o : P3} (clean : s.poisonLane = []) :
    WritesX (.pcnt c o) c (o.pd.setWidth 5) (BitVec.ofNat 64 ((List.range s.h.csr.vl).countP (fun e => predBit s o.pa.toNat e))) s := by
  have unpoisoned : (elems s).any (predPoisoned s o.pa.toNat) = false :=
    List.any_eq_false.mpr fun e _ => by simp [predPoisoned_of_clean clean]
  have run : exec (.pcnt c o) s = execPcnt c o s := rfl
  unfold execPcnt at run
  rw [unpoisoned, if_neg Bool.false_ne_true, ← List.countP_eq_length_filter] at run
  obtain ⟨t, alu_run, goes, written⟩ := alu_writes c (o.pd.setWidth 5)
    (BitVec.ofNat 64 ((List.range s.h.csr.vl).countP (fun e => predBit s o.pa.toNat e))) s
  exact ⟨t, run.trans alu_run, goes, written⟩

end Sys2Proof.Machine
end

section
/-! VLUT: a table that is resident, its index and its result (R82, R184). -/
namespace Sys2Proof.Machine

variable {c : Ctl} {s : State}

/-- References depend on the registers named alone. -/
theorem touchRegs_congr {names names' : List Named} (same : namedRegs names = namedRegs names') (s : State) :
    touchRegs s names = touchRegs s names' := by
  unfold touchRegs
  rw [same]

/-- A vector instruction whose registers pass every check and are all resident comes to its effect. -/
theorem vecFrame_resident {used : List Opnd} {accept : Bool} {names : List Named} (k : State → State)
    (formats : formatTrap c s used accept names = none) (resident : missing s names = []) (budget : planesOf s (namedRegs names) ≤ 232) :
    vecFrame c s used accept names none none k = .next (k (touchRegs s names)) := by
  have within : budgetTrap s names = none := by
    unfold budgetTrap
    rw [if_neg (Nat.not_lt.mpr budget)]
    simp [resident, planesOf, planEvictions]
  have ready : makeResident s names = .ok s := by
    unfold makeResident
    simp [resident]
  unfold vecFrame
  simp [formats, within, ready]

theorem entryBits_of_cold {n p w : Nat} (cold : Loc.v n ∉ s.h.hot) (first : (vreg s n).first = some p) (j e : Nat) :
    entryBits s n w j e = bitsAt s (spotOf s e) (p + j * dOf s w) w := by
  unfold entryBits
  rw [if_neg (by simpa using cold), first]

theorem entries_of_table {r : VReg} (table : r.kind = 2) : r.entries = r.entm.toNat + 1 := by
  unfold VReg.entries
  rw [table]
  rfl

theorem vlut_writes {o : V3} {p : Nat} (intA : IntOp c s .a) (intB : IntOp c s .b) (intD : IntOp c s .d) (g : Granted s)
    (usable : Usable s [(o.vb, (descOf c s .b).w), (o.vd, (descOf c s .d).w)]) (table : (vreg s o.va.toNat).kind = 2)
    (wide : (descOf c s .a).w ≤ (vreg s o.va.toNat).width) (first : (vreg s o.va.toNat).first = some p)
    (budget : planesOf s ((List.range 64).filter (fun n => [o.va.toNat, o.vb.toNat, o.vd.toNat].any (fun m => m == n))) ≤ 232)
    (cold : Loc.v o.va.toNat ∉ s.h.hot) :
    VecWrites (.vlut c o) c s [(o.va, (descOf c s .a).w), (o.vb, (descOf c s .b).w), (o.vd, (descOf c s .d).w)] o.vd.toNat (descOf c s .d).w
      (fun e => if elemBits s o.vb.toNat (descOf c s .b).w e < (vreg s o.va.toNat).entm.toNat + 1
        then low (descOf c s .d).w (intVal (descOf c s .a)
          (bitsAt s (spotOf s e) (p + elemBits s o.vb.toNat (descOf c s .b).w e * dOf s (descOf c s .a).w) (descOf c s .a).w)) else 0) := by
  obtain ⟨vb_kind, vb_wide, vb_first, vb_resident, -⟩ := usable.1 (o.vb, (descOf c s .b).w) (by simp)
  obtain ⟨vd_kind, vd_wide, vd_first, vd_resident, fits⟩ := usable.1 (o.vd, (descOf c s .d).w) (by simp)
  have m := names_triple c o.va o.vb o.vd (descOf c s .a).w (descOf c s .b).w (descOf c s .d).w
  have same : namedRegs [{ srcNamed o.va (descOf c s .a).w with table := true }, srcNamed o.vb (descOf c s .b).w,
      dstNamed c o.vd (descOf c s .d).w] =
      namedRegs [srcNamed o.va (descOf c s .a).w, srcNamed o.vb (descOf c s .b).w, dstNamed c o.vd (descOf c s .d).w] := rfl
  have run : exec (.vlut c o) s = execVlut c o s := rfl
  unfold execVlut at run
  rw [vecFrame_resident _ ?formats ?resident ?budget, touchRegs_congr same] at run
  case formats =>
    have no_bad (given : Bool) : [Opnd.a, .b, .d].any (fun x => (ovrOf c x).isSome == given && !(descOf c s x).wf) = false := by
      simp [intA.1, intB.1, intD.1]
    unfold formatTrap
    simp only [no_bad, intA.accepted, intB.accepted, intD.accepted, Bool.and_self, Bool.not_true, trapIf_false, Option.orElse_none]
    simp [firstSome, srcNamed, dstNamed, trapIf, table, vb_kind, vd_kind, Nat.not_lt.mpr wide, Nat.not_lt.mpr vb_wide,
      Nat.not_lt.mpr vd_wide]
  case resident =>
    refine List.filter_eq_nil_iff.mpr fun n hn => ?_
    have named := (List.mem_filter.mp hn).2
    simp only [List.any_cons, List.any_nil, Bool.or_false, Bool.or_eq_true, beq_iff_eq, srcNamed, dstNamed] at named
    obtain rfl | rfl | rfl := named
    · simp [isResident, first]
    · simp [isResident, vb_resident]
    · simp [isResident, vd_resident]
  case budget =>
    rw [same, m.namedRegs]
    exact budget
  generalize [srcNamed o.va (descOf c s .a).w, srcNamed o.vb (descOf c s .b).w, dstNamed c o.vd (descOf c s .d).w] = names at run m
  have entry (j e : Nat) : entryBits (touchRegs s names) o.va.toNat (descOf c s .a).w j e =
      bitsAt s (spotOf s e) (p + j * dOf s (descOf c s .a).w) (descOf c s .a).w := by
    rw [entryBits_of_cold (by simpa using cold) ((vreg_touchRegs_first s _ _).trans first)]
    simp only [bitsAt_touchRegs, spotOf_touchRegs, dOf_touchRegs]
  simp only [entry, entries_of_table table, elemBits_touchRegs, ← low_eq_wrap] at run
  refine vecWrites_of_results m g vd_resident fits (fun clean e => ?_) run
  have clean' := clean_touchRegs clean names
  rw [elemPoisoned_of_clean clean', Bool.false_or]
  split
  · exact spotPoisoned_of_clean clean' _ _ _
  · rfl

end Sys2Proof.Machine

open Sys2Proof Sys2Proof.Machine

/-- Settles O10: VSEL and the PRED group write as under P0, VCMP under its predicate, and VLUT reads entries of a resident table. -/
theorem selectLookupAndPredicateResults : Obligations.SelectLookupAndPredicateResults := by
  unfold Obligations.SelectLookupAndPredicateResults
  refine ⟨fun c o s => ?vectors, fun c o q s g => ?predicates⟩
  case vectors =>
    intro A B D ops ns table intA intB intD g
    exact ⟨fun usable => vsel_writes intA intB intD g usable,
      fun p usable kind wide first budget cold => vlut_writes intA intB intD g usable kind wide first budget cold⟩
  case predicates =>
    intro A B ops a b vl pa pb cmp gives
    refine ⟨fun intA intB usable => ?vcmp, predWrite_gives g rfl, predWrite_gives g rfl, predWrite_gives g rfl, predWrite_gives g rfl,
      predWrite_gives g rfl, predWrite_gives g rfl, ?pfirst, fun _ => ?pset, pcnt_writes⟩
    case vcmp =>
      have written := vcmp_writes (o := o) intA intB g usable
      simp only [compareInt_eq] at written
      exact written
    case pfirst =>
      obtain ⟨t, run, frame, clean, unarmed, written⟩ := predWrite_gives (i := .pfirst c q) (c := c) (pd := q.pd)
        (srcs := [q.pa.toNat]) (f := fun e => (elems s).find? (predBit s q.pa.toNat) == some e) g rfl
      exact ⟨t, run, frame, clean, unarmed, written.of_below fun e below => find_first _ below⟩
    case pset =>
      obtain ⟨t, run, frame, clean, unarmed, written⟩ := predWrite_gives (i := .pset c q) (c := c) (pd := q.pd) (srcs := [])
        (f := psetBit s.h.csr.vl q.pa.toNat) g rfl
      exact ⟨t, run, frame, clean, unarmed, written.of_below fun e below => psetBit_eq below _⟩
end

section
/-! Declarations: VDECL's checks and what it leaves, and VQRY's answers (R81 to R83, R173 to R175). -/
namespace Sys2Proof.Machine

variable {c : Ctl} {o : VX} {s : State}

theorem raises_of_trap {i : Instr} {cls code : BitVec 8} {eaddr : Word} (precise : preciseClass cls = true)
    (run : exec i s = .next (takeTrap s (Trap.here s cls code eaddr))) : Raises i cls code eaddr s := by
  refine run.trans (Eq.symm ?_)
  show execTrapEntry cls code eaddr s = _
  unfold execTrapEntry
  rw [if_pos precise]
  rfl

/-! The entry of the register map, field by field (R81). -/

theorem ofEntry_kind (v : Nat) : (VReg.ofEntry v).kind = BitVec.ofNat 2 (v / 2 ^ 14 % 4) :=
  BitVec.eq_of_toNat_eq (by simp [VReg.ofEntry])

theorem ofEntry_kind_eq (v : Nat) {k : Nat} (hk : k < 4) : ((VReg.ofEntry v).kind == BitVec.ofNat 2 k) = decide (v / 2 ^ 14 % 4 = k) := by
  rw [ofEntry_kind, beq_eq_decide]
  refine decide_eq_decide.mpr ⟨fun same => ?_, fun same => by rw [same]⟩
  have values := congrArg BitVec.toNat same
  simp only [BitVec.toNat_ofNat] at values
  omega

theorem ofEntry_width (v : Nat) : (VReg.ofEntry v).width = v % 64 + 1 := by
  simp [VReg.width, VReg.ofEntry]

theorem ofEntry_entries (v : Nat) : (VReg.ofEntry v).entries = if v / 2 ^ 14 % 4 = 2 then v / 2 ^ 16 % 64 + 1 else 1 := by
  unfold VReg.entries
  rw [show (2 : BitVec 2) = BitVec.ofNat 2 2 from rfl, ofEntry_kind_eq v (by decide)]
  simp only [decide_eq_true_eq]
  exact if_congr Iff.rfl (by simp [VReg.ofEntry]) rfl

theorem ofEntry_eq (v : Nat) : VReg.ofEntry v = { VReg.undeclared with
    kind := BitVec.ofNat 2 (v / 2 ^ 14 % 4), wm := BitVec.ofNat 6 v, entm := BitVec.ofNat 6 (v / 2 ^ 16), init := decide (v / 64 % 2 = 1)
    fresh := decide (v / 64 % 2 = 0) } := by
  have kind := ofEntry_kind v
  have fresh : (!(v / 64 % 2 == 1)) = decide (v / 64 % 2 = 0) := by
    rw [beq_eq_decide, ← decide_not]
    exact decide_eq_decide.mpr (by omega)
  unfold VReg.ofEntry at kind ⊢
  dsimp only at kind ⊢
  rw [kind, fresh, beq_eq_decide]

theorem entryBad_iff (v : Nat) : entryBad v = true ↔
    2 ^ 22 ≤ v ∨ v / 2 ^ 7 % 2 ^ 7 ≠ 0 ∨ v / 2 ^ 14 % 4 = 3 ∨ (v / 2 ^ 14 % 4 = 1 ∧ v / 2 ^ 16 % 64 ≠ 0) := by
  have high : v / 2 ^ 22 ≠ 0 ↔ 2 ^ 22 ≤ v := by
    rw [Nat.div_ne_zero_iff]
    simp
  simp only [entryBad, Bool.or_eq_true, Bool.and_eq_true, bne_iff_ne, beq_iff_eq, high, or_assoc]

/-! VDECL. -/

/-- The size of a slot for an entry of `n` times `w` planes' worth (R83). -/
def slotSizeFor (slots n w : Nat) : Nat := ceilDiv (256 * slots) 512 * 512 + 256 * slots * (n * w) * 128

/-- Entries of a declaration: more than one for a table alone (R82). -/
def entriesFor (v : Nat) : Nat := if v / 2 ^ 14 % 4 = 2 then v / 2 ^ 16 % 64 + 1 else 1

theorem slotBytes_ofEntry (slots v : Nat) : slotBytes slots (VReg.ofEntry v) = slotSizeFor slots (entriesFor v) (v % 64 + 1) := by
  rw [slotBytes, ofEntry_entries, ofEntry_width]
  rfl

theorem ofEntry_declared (v : Nat) : ((VReg.ofEntry v).kind != 0) = decide (v / 2 ^ 14 % 4 ≠ 0) := by
  rw [bne, show (0 : BitVec 2) = BitVec.ofNat 2 0 from rfl, ofEntry_kind_eq v (by decide), decide_not]

theorem vdeclTrap_eq (s : State) (n v : Nat) : vdeclTrap s n v =
    if entryBad v then some (Trap.here s 4 6 (BitVec.ofNat 64 v))
    else if v / 2 ^ 14 % 4 ≠ 0 ∧ 232 < entriesFor v * (v % 64 + 1) then
      some (Trap.here s 7 3 (BitVec.ofNat 64 (entriesFor v * (v % 64 + 1))))
    else if v / 2 ^ 14 % 4 ≠ 0 ∧ (vreg s n).slotSize < slotSizeFor s.h.slots (entriesFor v) (v % 64 + 1) ∧
      (myGang s).launch.bsize < ceilDiv s.h.slotEnd 512 * 512 + slotSizeFor s.h.slots (entriesFor v) (v % 64 + 1) then
      some (Trap.here s 9 5 (BitVec.ofNat 64 (ceilDiv s.h.slotEnd 512 * 512 + slotSizeFor s.h.slots (entriesFor v) (v % 64 + 1))))
    else none := by
  have count : (VReg.ofEntry v).entries * (VReg.ofEntry v).width = entriesFor v * (v % 64 + 1) := by
    rw [ofEntry_entries, ofEntry_width]
    rfl
  unfold vdeclTrap tableTooBig
  simp only [count, slotBytes_ofEntry, ofEntry_declared, roundUp, trapIf]
  by_cases bad : entryBad v = true
  · rw [if_pos bad, if_pos bad]
    rfl
  · rw [if_neg bad, if_neg bad]
    by_cases big : v / 2 ^ 14 % 4 ≠ 0 ∧ 232 < entriesFor v * (v % 64 + 1)
    · rw [if_pos (by simpa using big), if_pos big]
      rfl
    · rw [if_neg (by simpa using big), if_neg big]
      simp [and_assoc]

theorem exec_vdecl_of_trap {t : Trap} (trapped : vdeclTrap s o.vd.toNat ((rx s o.xa).toNat % 2 ^ 32) = some t) :
    exec (.vdecl c o) s = .next (takeTrap s t) := by
  show execVdecl c o s = _
  unfold execVdecl
  dsimp only
  rw [trapped]

theorem exec_vdecl_of_none (sound : vdeclTrap s o.vd.toNat ((rx s o.xa).toNat % 2 ^ 32) = none) (free : copyInto s o.vd.toNat = false) :
    exec (.vdecl c o) s = .next (retire c (modH s (fun h => declare h o.vd.toNat ((rx s o.xa).toNat % 2 ^ 32)))) := by
  show execVdecl c o s = _
  unfold execVdecl
  dsimp only
  rw [sound]
  simp only [free, Bool.false_eq_true, if_false]

/-- The declaration replaces an entry and keeps or takes a slot. -/
theorem declare_spec (h : Hart) {n : Nat} (hn : n < 64) (v : Nat) :
    let size := slotSizeFor h.slots (entriesFor v) (v % 64 + 1)
    let mark := ceilDiv h.slotEnd 512 * 512
    let old := vregAt h n
    let keeps := v / 2 ^ 14 % 4 = 0 ∨ size ≤ old.slotSize
    declare h n v = { h with regs := (declare h n v).regs, slotEnd := if keeps then h.slotEnd else mark + size } ∧
    ∀ m, vregAt (declare h n v) m = if m ≠ n then vregAt h m
      else if keeps then { VReg.ofEntry v with slot := old.slot, slotSize := old.slotSize, lastRef := old.lastRef }
      else { VReg.ofEntry v with slot := mark, slotSize := size, lastRef := old.lastRef } := by
  intro size mark old keeps
  have undeclared : ((VReg.ofEntry v).kind == 0) = decide (v / 2 ^ 14 % 4 = 0) := ofEntry_kind_eq v (by decide)
  have branch : ((VReg.ofEntry v).kind == 0 || decide (slotBytes h.slots (VReg.ofEntry v) ≤ (vregAt h n).slotSize)) = decide keeps := by
    rw [undeclared, slotBytes_ofEntry, ← Bool.decide_or]
  unfold declare
  simp only [branch, decide_eq_true_eq]
  by_cases kept : keeps
  · simp only [if_pos kept]
    refine ⟨setVreg_eq _ _ _, fun m => (vregAt_setVreg _ _ _ _).trans ?_⟩
    by_cases same : m = n
    · rw [if_pos ⟨same, same ▸ hn⟩, if_neg (not_not.mpr same)]
    · rw [if_neg fun both => same both.1, if_pos same]
  · simp only [if_neg kept, slotBytes_ofEntry, roundUp]
    refine ⟨congrArg (fun x : Hart => { x with slotEnd := mark + size }) (setVreg_eq _ _ _),
      fun m => (vregAt_setVreg _ _ _ _).trans ?_⟩
    by_cases same : m = n
    · rw [if_pos ⟨same, same ▸ hn⟩, if_neg (not_not.mpr same)]
    · rw [if_neg fun both => same both.1, if_pos same]

/-! VQRY. -/

theorem entry_lt (r : VReg) : r.entry < 2 ^ 22 := by
  have entm := r.entm.isLt
  have kind := r.kind.isLt
  have wm := r.wm.isLt
  unfold VReg.entry
  split <;> omega

/-- The run of attached slots: all of its slots are attached, and the next is not (R31). -/
theorem attachedSlots_spec (s : State) : attachedSlots s ≤ s.h.slots ∧
    (∀ k, k < attachedSlots s → partOfDie s ((s.h.core + k) / 96) = some (myGang s).part) ∧
    (attachedSlots s < s.h.slots → partOfDie s ((s.h.core + attachedSlots s) / 96) ≠ some (myGang s).part) := by
  have count : attachedSlots s = (List.range s.h.slots).findIdx
      (fun t => !(partOfDie s (dieOfCore (s.h.core + t)) == some (myGang s).part)) := by
    unfold attachedSlots
    rw [List.takeWhile_eq_take_findIdx_not, List.length_take]
    exact min_eq_left List.findIdx_le_length
  have le := List.findIdx_le_length (p := fun t => !(partOfDie s (dieOfCore (s.h.core + t)) == some (myGang s).part))
    (xs := List.range s.h.slots)
  rw [List.length_range] at le
  refine ⟨count ▸ le, fun k hk => ?_, fun more => ?_⟩
  · rw [count] at hk
    have attached := List.not_of_lt_findIdx hk
    simpa [dieOfCore] using attached
  · have stop := List.findIdx_getElem (p := fun t => !(partOfDie s (dieOfCore (s.h.core + t)) == some (myGang s).part))
      (xs := List.range s.h.slots) (w := by rwa [← count, List.length_range])
    simp only [← count, List.getElem_range] at stop
    simpa [dieOfCore] using stop

theorem exec_vqry (c : Ctl) (o : VX) (s : State) : exec (.vqry c o) s =
    alu c o.xb (BitVec.ofNat 64 (vqryAnswer s o.vd.toNat (rx s o.xa)))
      (if (rx s o.xa).toNat % 256 < 2 then touchRegs s [{ reg := o.vd.toNat }] else s) := rfl

/-- One register referenced (R50). -/
theorem referenced_single (n : BitVec 6) (s : State) : Referenced [n.toNat] s.h (touchRegs s [{ reg := n.toNat }]).h :=
  (show Names [{ reg := n.toNat }] [(n, 0)] from .cons ⟨rfl, rfl, le_rfl⟩ .nil).referenced s

/-- A result written after a register was referenced. -/
theorem alu_touched (xd : BitVec 5) (v : Word) (names : List Named) (s : State) : ∃ t, alu c xd v (touchRegs s names) = .next t ∧
    GoesOn c s t (fun h => { h with x := t.h.x, refs := t.h.refs, regs := t.h.regs }) ∧ XWritten xd v s.h.x t.h.x ∧
    t.h.refs = (touchRegs s names).h.refs ∧ t.h.regs = (touchRegs s names).h.regs := by
  obtain ⟨t, run, goes, written⟩ := alu_writes c xd v (touchRegs s names)
  have touched := touchRegs_eq s names
  generalize touchRegs s names = u at run goes written touched ⊢
  unfold GoesOn at goes ⊢
  have refs : t.h.refs = u.h.refs := by rw [goes]
  have regs : t.h.regs = u.h.regs := by rw [goes]
  have x_eq : u.h.x = s.h.x := by rw [touched]
  have pc : u.h.pc = s.h.pc := by rw [touched]
  have count : u.h.refs = s.h.refs + 1 := by rw [touched]
  refine ⟨t, run, ?_, x_eq ▸ written, refs, regs⟩
  rw [refs, regs, count]
  generalize t.h.x = x at goes
  rw [goes, pcAfter_congr pc]
  conv_lhs => rw [touched]

theorem referenced_of_eq {ns : List Nat} {old new new' : Hart} (r : Referenced ns old new) (refs : new'.refs = new.refs)
    (regs : new'.regs = new.regs) : Referenced ns old new' := by
  obtain ⟨count, held⟩ := r
  refine ⟨refs.trans count, fun n hn => Eq.trans ?_ (held n hn)⟩
  unfold vregAt
  rw [regs]

end Sys2Proof.Machine
end

section
/-! Selections of landed state: their frame, their bits, and when the home core sees them (R50, R91, R196, R197). -/
namespace Sys2Proof.Machine

variable {c : Ctl} {o : VX} {s : State} {q : Sel}

/-- The register that a selection names can be used as it stands, or it names none. -/
def Sel.Ready (q : Sel) (s : State) : Prop :=
  q.buf = true ∨ (vreg s q.vd).kind ≠ 1 ∨ ((vreg s q.vd).first ≠ none ∧ (vreg s q.vd).planes s.h.csr.fold ≤ 232)

theorem Sel.Ready.prepared (ready : q.Ready s) (hv : q.vd < 64) : Prepared s (q.named s) := by
  unfold Sel.named
  split
  case isTrue => exact ⟨fun x hx => (nomatch hx), by simp [namedRegs, planesOf]⟩
  case isFalse names =>
    simp only [Bool.or_eq_true, bne_iff_ne, not_or, not_not, Bool.not_eq_true] at names
    obtain ⟨register, kind⟩ := names
    rcases ready with buf | other | ⟨resident, budget⟩
    · rw [register] at buf
      exact nomatch buf
    · exact absurd kind other
    · refine ⟨fun x hx => ?_, ?_⟩
      · rw [List.mem_singleton.mp hx]
        exact ⟨rfl, kind, Nat.zero_le _, Option.isSome_iff_ne_none.mpr resident⟩
      · have one : namedRegs [{ reg := q.vd }] = [q.vd] := by
          have single : (fun n : Nat => [({ reg := q.vd } : Named)].any (fun x => x.reg == n)) = fun n => n == q.vd := by
            funext n
            simp [Bool.beq_comm]
          rw [namedRegs, single, List.filter_beq, List.count_eq_one_of_mem List.nodup_range (List.mem_range.mpr hv)]
          rfl
        rw [one]
        simpa [planesOf, foldOf] using budget

theorem Sel.frame_ready (ready : q.Ready s) (hv : q.vd < 64) (early : Option Trap) (k : State → Out) : q.frame s early k =
    match early with
    | some t => .next (takeTrap s t)
    | none => k s := by
  unfold Sel.frame
  rw [budgetTrap_prepared (ready.prepared hv), makeResident_prepared (ready.prepared hv)]
  rfl

/-- A register selection is a reference, a buffer's is none (R50). -/
theorem Sel.touch_buf (buf : q.buf = true) (s : State) : q.touch s = s := if_pos buf

theorem Sel.touch_register (register : q.buf = false) (s : State) : q.touch s = touchRegs s [{ reg := q.vd }] := by
  rw [Sel.touch, register]
  rfl

theorem span_eq (h : Hart) : h.span = ((List.range h.csr.tiles).map (fun t =>
    (h.core / 96 - (h.core + t) / 96) + ((h.core + t) / 96 - h.core / 96))).foldl max 0 := by
  rw [List.foldl_map]
  rfl

/-- TWAIT's condition, bit by bit (R197). -/
theorem twaitHolds_iff (c : Ctl) (o : VX) (s : State) : twaitHolds c o s = true ↔
    ∀ x, (rx s o.xa).toNat ≤ x → x < (rx s o.xa).toNat + (rx s o.xb).toNat → (selOf c o).shown s x = true := by
  unfold twaitHolds
  rw [List.all_eq_true]
  refine ⟨fun all x low high => ?_, fun all i hi => ?_⟩
  · have := all (x - (rx s o.xa).toNat) (List.mem_range.mpr (by omega))
    rwa [Nat.add_sub_cancel' low] at this
  · have := List.mem_range.mp hi
    exact all _ (by omega) (by omega)

/-! The monitors count a wait; nothing else of the state changes (R336). -/

/-- Nothing but the monitors and their messages differs. -/
def OnlySampled (s t : State) : Prop := t = { s with monitors := t.monitors, monBefore := t.monBefore, msgs := t.msgs }

theorem OnlySampled.trans {s t u : State} (first : OnlySampled s t) (second : OnlySampled t u) : OnlySampled s u := by
  unfold OnlySampled at first second ⊢
  rw [first] at second
  exact second

theorem OnlySampled.foldl {β : Type} {f : State → β → State} (hf : ∀ s b, OnlySampled s (f s b)) (l : List β) (s : State) :
    OnlySampled s (l.foldl f s) := by
  induction l generalizing s with
  | nil => rfl
  | cons b r ih => exact (hf s b).trans (ih _)

theorem sampleUnit_onlySampled (s : State) (key v : Nat) : OnlySampled s (sampleUnit s key v) := by
  unfold sampleUnit OnlySampled
  dsimp only
  split
  · split <;> rfl
  · rfl

theorem sampleEvent_onlySampled (s : State) (core ev v : Nat) : OnlySampled s (sampleEvent s core ev v) ∧
    (s.monitors = [] → sampleEvent s core ev v = s) := by
  unfold sampleEvent
  refine ⟨?_, fun none_there => if_pos (by rw [none_there]; rfl)⟩
  split
  · rfl
  · refine OnlySampled.foldl (fun s b => OnlySampled.foldl (fun s u => ?_) _ _) _ _
    split
    · exact sampleUnit_onlySampled _ _ _
    · rfl

/-! The words of a buffer's chunks precede later reads (R116). -/

theorem acquire_eq (q : Sel) (lo n : Nat) (s : State) : q.acquire lo n s = modH s (fun h => { h with strip := h.strip.map (fun e =>
    { e with seen := e.seen || (q.buf && decide (2 ^ 40 + s.h.core / 8 * 2 ^ 24 + 512 * ((bufAt s (s.h.core / 8) q.n).base + lo) ≤ 8 * e.word) &&
      decide (8 * e.word < 2 ^ 40 + s.h.core / 8 * 2 ^ 24 + 512 * ((bufAt s (s.h.core / 8) q.n).base + lo) + 512 * n)) }) }) := by
  unfold Sel.acquire
  cases buf : q.buf with
  | false => simp [modH]
  | true =>
    simp only [Bool.not_true, Bool.false_eq_true, if_false, Bool.true_and]
    refine congrArg (modH s) (funext fun h => congrArg (fun l => { h with strip := l }) (List.map_congr_left fun e _ => ?_))
    show (if decide (2 ^ 40 + s.h.core / 8 * 2 ^ 24 + 512 * ((bufAt s (s.h.core / 8) q.n).base + lo) ≤ 8 * e.word) &&
      decide (8 * e.word < 2 ^ 40 + s.h.core / 8 * 2 ^ 24 + 512 * ((bufAt s (s.h.core / 8) q.n).base + lo) + 512 * n) then _ else e) = _
    split
    case isTrue inside => rw [inside, Bool.or_true]
    case isFalse outside => rw [Bool.eq_false_of_not_eq_true outside, Bool.or_false]

end Sys2Proof.Machine
end

section
/-! TCLR of a buffer: the buffer cleared, the chunks of this cy landed after it, the carriages consumed (R92, R198, R271). -/
namespace Sys2Proof.Machine

variable {s : State}

theorem land_spec (b : TileBuf) (k : Nat) (t : BitVec 16) : (b.land k (some t)).cfg = b.cfg ∧ (b.land k (some t)).chk = b.chk ∧
    (b.land k (some t)).landed = b.landed ||| BitVec.ofNat 1024 (2 ^ k) := by
  unfold TileBuf.land
  dsimp only
  split
  · exact ⟨rfl, rfl, rfl⟩
  · split <;> exact ⟨rfl, rfl, rfl⟩

theorem getLsbD_onePlace (k : Nat) {j : Nat} (hj : j < 1024) : (BitVec.ofNat 1024 (2 ^ k)).getLsbD j = (k == j) := by
  rw [BitVec.getLsbD_ofNat, Nat.testBit_two_pow, decide_eq_true hj, Bool.true_and, beq_eq_decide]

theorem foldl_land (ls : List BufLanding) (b : TileBuf) :
    (ls.foldl (fun b l => b.land l.index (some l.tag)) b).cfg = b.cfg ∧ (ls.foldl (fun b l => b.land l.index (some l.tag)) b).chk = b.chk ∧
    ∀ j, j < 1024 → (ls.foldl (fun b l => b.land l.index (some l.tag)) b).landed.getLsbD j =
      (b.landed.getLsbD j || ls.any (fun l => l.index == j)) := by
  induction ls generalizing b with
  | nil => exact ⟨rfl, rfl, fun j _ => by simp⟩
  | cons l r ih =>
    obtain ⟨cfg, chk, landed⟩ := ih (b.land l.index (some l.tag))
    obtain ⟨cfg', chk', landed'⟩ := land_spec b l.index l.tag
    refine ⟨cfg.trans cfg', chk.trans chk', fun j hj => ?_⟩
    rw [List.foldl_cons, landed j hj, landed', BitVec.getLsbD_or, getLsbD_onePlace _ hj, List.any_cons, Bool.or_assoc]

theorem clear_spec (b : TileBuf) : b.clear.landed = 0 ∧ b.clear.ltag = 0 ∧ b.clear.mix = false ∧ b.clear.chk = false ∧
    b.clear.etag = (if b.ainc then b.etag + 1 else b.etag) ∧ ∀ j, j < 48 → b.clear.cfg.getLsbD j = b.cfg.getLsbD j := by
  unfold TileBuf.clear
  dsimp only
  generalize (if b.ainc then b.etag + 1 else b.etag) = tag
  have low (j : Nat) (hj : j < 64) : (0x0000ffffffffffff : Word).getLsbD j = decide (j < 48) := by
    revert j
    decide
  refine ⟨rfl, rfl, rfl, rfl, BitVec.eq_of_getLsbD_eq fun j hj => ?_, fun j hj => ?_⟩
  · unfold TileBuf.etag
    rw [BitVec.getLsbD_extractLsb', BitVec.getLsbD_or, BitVec.getLsbD_and, low _ (by omega), BitVec.getLsbD_shiftLeft,
      BitVec.getLsbD_setWidth]
    have inside : 48 + j < 64 := by omega
    have small : j < 64 := by omega
    simp [hj, inside, small]
  · rw [BitVec.getLsbD_or, BitVec.getLsbD_and, low _ (by omega), BitVec.getLsbD_shiftLeft]
    simp [hj]

/-- A chunk of buffer `n` of cluster `cl` lands at `j` in this cy. -/
def landsNow (s : State) (cl n j : Nat) : Bool :=
  s.bufLandings.any (fun l => l.cyc == s.cyc && l.cluster == cl && l.buf == n && l.index == j)

theorem relandBuf_spec (s : State) (cl n : Nat) (b : TileBuf) :
    (relandBuf s cl n b.clear).cfg = b.clear.cfg ∧ (relandBuf s cl n b.clear).chk = false ∧
    (∀ j, j < 1024 → (relandBuf s cl n b.clear).landed.getLsbD j = landsNow s cl n j) ∧
    ((∀ l ∈ s.bufLandings, ¬(l.cyc = s.cyc ∧ l.cluster = cl ∧ l.buf = n)) → relandBuf s cl n b.clear = b.clear) := by
  obtain ⟨landed, -, -, chk, -⟩ := clear_spec b
  unfold relandBuf
  obtain ⟨cfg', chk', landed'⟩ := foldl_land (s.bufLandings.filter (fun l => l.cyc == s.cyc && l.cluster == cl && l.buf == n)) b.clear
  refine ⟨cfg', chk'.trans chk, fun j hj => ?_, fun quiet => ?_⟩
  · rw [landed' j hj, landed, List.any_filter]
    simp only [show (0 : BitVec 1024).getLsbD j = false from BitVec.getLsbD_zero, Bool.false_or]
    rfl
  · rw [List.filter_eq_nil_iff.mpr fun l hl => by simpa [and_assoc] using quiet l hl]
    rfl

/-- The carriages of a walk that are consumed by a clear of buffer `n` of cluster `cl` (R271). -/
def usedAfter (cl n : Nat) (p : Copy) (w : Walk) : List Nat :=
  if p.tbCluster = cl then (w.used ++ (List.range w.j).filter (fun j => p.carBuf j == n && carLanded p j)).eraseDups else w.used

theorem mem_usedAfter (cl n : Nat) (p : Copy) (w : Walk) (x : Nat) : x ∈ usedAfter cl n p w ↔
    x ∈ w.used ∨ (p.tbCluster = cl ∧ x < w.j ∧ p.carBuf x = n ∧ carLanded p x = true) := by
  unfold usedAfter
  split
  case isTrue mine =>
    rw [List.mem_eraseDups]
    simp [mine]
  case isFalse other => simp [other]

theorem consume_eq (s : State) (cl n : Nat) : consume s cl n = { s with
    copies := s.copies.map (fun p => { p with walk := p.walk.map (fun w => { w with used := usedAfter cl n p w }) }) } := by
  unfold consume
  refine congrArg (fun l => { s with copies := l }) (List.map_congr_left fun p _ => ?_)
  unfold usedAfter
  by_cases mine : p.tbCluster = cl
  · simp [mine]
  · simp [mine]

end Sys2Proof.Machine
end

section
/-! TWAIT, TCLR and TQRY (R196 to R198). -/
namespace Sys2Proof.Machine

variable {c : Ctl} {o : VX} {s : State}

theorem selOf_vd_lt (c : Ctl) (o : VX) : (selOf c o).vd < 64 := o.vd.isLt

theorem twaitTrap_eq (c : Ctl) (o : VX) (s : State) : twaitTrap c o s =
    if ((selOf c o).buf = true ∧ (bufAt s (s.h.core / 8) (selOf c o).n).en = false) ∨
      (rx s o.xb ≠ 0 ∧ (selOf c o).size s < (rx s o.xa).toNat + (rx s o.xb).toNat)
    then some (Trap.here s 9 7 (rx s o.xa + rx s o.xb - 1)) else none := by
  unfold twaitTrap trapIf
  refine if_congr ?_ rfl rfl
  simp only [Bool.or_eq_true, Bool.and_eq_true, decide_eq_true_eq, Bool.not_eq_true']
  rfl

theorem twait_run (ready : (selOf c o).Ready s) : exec (.twait c o) s =
    if ((selOf c o).buf = true ∧ (bufAt s (s.h.core / 8) (selOf c o).n).en = false) ∨
      (rx s o.xb ≠ 0 ∧ (selOf c o).size s < (rx s o.xa).toNat + (rx s o.xb).toNat)
    then .next (takeTrap s (Trap.here s 9 7 (rx s o.xa + rx s o.xb - 1)))
    else .next (if twaitHolds c o s
      then retire c (sampleEvent ((selOf c o).touch ((selOf c o).acquire (rx s o.xa).toNat (rx s o.xb).toNat s)) s.h.core 1 0)
      else holdFor s .twait (.twait c o)) := by
  show execTwait c o s = _
  unfold execTwait
  rw [Sel.frame_ready ready (selOf_vd_lt c o), twaitTrap_eq]
  split_ifs <;> rfl

theorem acquired_frame (q : Sel) (o : VX) (s : State) : ∃ u, q.touch (q.acquire (rx s o.xa).toNat (rx s o.xb).toNat s) = u ∧
    u = { s with h := { s.h with strip := u.h.strip, refs := u.h.refs, regs := u.h.regs } } ∧
    (q.buf = true → u.h.refs = s.h.refs ∧ u.h.regs = s.h.regs) ∧
    (q.buf = false → u.h.refs = (touchRegs s [{ reg := q.vd }]).h.refs ∧ u.h.regs = (touchRegs s [{ reg := q.vd }]).h.regs) ∧
    u.h.strip = s.h.strip.map (fun e => { e with seen := e.seen || (q.buf &&
      decide (2 ^ 40 + s.h.core / 8 * 2 ^ 24 + 512 * ((bufAt s (s.h.core / 8) q.n).base + (rx s o.xa).toNat) ≤ 8 * e.word) &&
      decide (8 * e.word < 2 ^ 40 + s.h.core / 8 * 2 ^ 24 + 512 * ((bufAt s (s.h.core / 8) q.n).base + (rx s o.xa).toNat) +
        512 * (rx s o.xb).toNat)) }) := by
  rw [acquire_eq]
  cases buf : q.buf with
  | true =>
    rw [Sel.touch_buf buf]
    exact ⟨_, rfl, rfl, fun _ => ⟨rfl, rfl⟩, fun never => (nomatch never), rfl⟩
  | false =>
    rw [Sel.touch_register buf]
    simp only [Bool.false_and, Bool.or_false, List.map_id']
    have touched := touchRegs_eq s [{ reg := q.vd }]
    have refs : (touchRegs s [{ reg := q.vd }]).h.refs = s.h.refs + 1 := by rw [touched]
    have strip : (touchRegs s [{ reg := q.vd }]).h.strip = s.h.strip := by rw [touched]
    refine ⟨touchRegs s [{ reg := q.vd }], rfl, ?_, fun never => (nomatch never), fun _ => ⟨rfl, rfl⟩, strip⟩
    rw [refs, strip]
    exact touched

/-- What TWAIT leaves where it goes on. -/
theorem twait_goes_on (c : Ctl) (o : VX) (s : State) : ∃ t,
    retire c (sampleEvent ((selOf c o).touch ((selOf c o).acquire (rx s o.xa).toNat (rx s o.xb).toNat s)) s.h.core 1 0) = t ∧
    t = { s with monitors := t.monitors, monBefore := t.monBefore, msgs := t.msgs
                 h := { s.h with pc := pcAfter c s, issued := true, strip := t.h.strip, refs := t.h.refs, regs := t.h.regs } } ∧
    (s.monitors = [] → t.monitors = [] ∧ t.monBefore = s.monBefore ∧ t.msgs = s.msgs) ∧
    (((selOf c o).buf = true → t.h.refs = s.h.refs ∧ t.h.regs = s.h.regs) ∧
      ((selOf c o).buf = false → Referenced [o.vd.toNat] s.h t.h)) ∧
    t.h.strip = s.h.strip.map (fun e => { e with seen := e.seen || ((selOf c o).buf &&
      decide (2 ^ 40 + s.h.core / 8 * 2 ^ 24 + 512 * ((bufAt s (s.h.core / 8) (selOf c o).n).base + (rx s o.xa).toNat) ≤ 8 * e.word) &&
      decide (8 * e.word < 2 ^ 40 + s.h.core / 8 * 2 ^ 24 + 512 * ((bufAt s (s.h.core / 8) (selOf c o).n).base + (rx s o.xa).toNat) +
        512 * (rx s o.xb).toNat)) }) := by
  obtain ⟨u, touched, frame, buf, register, strip⟩ := acquired_frame (selOf c o) o s
  obtain ⟨sampled, unmonitored⟩ := sampleEvent_onlySampled u s.h.core 1 0
  rw [touched]
  generalize sampleEvent u s.h.core 1 0 = v at sampled unmonitored
  unfold OnlySampled at sampled
  have hart : v.h = u.h := by rw [sampled]
  have pc : u.h.pc = s.h.pc := by rw [frame]
  have hart' : (retire c v).h = { u.h with pc := pcAfter c s, issued := true } := by
    rw [retire_h, hart, nextPc_eq, pcAfter_congr (hart ▸ pc)]
  refine ⟨_, rfl, ?_, fun none_there => ?_, ⟨fun on => ?_, fun off => ?_⟩, ?_⟩
  · rw [hart']
    show { v with h := (retire c v).h } = _
    rw [hart', sampled]
    generalize u.h.strip = strip at frame
    generalize u.h.refs = refs at frame
    generalize u.h.regs = regs at frame
    rw [frame]
    rfl
  · have same := unmonitored (by rw [frame]; exact none_there)
    have monitors : v.monitors = s.monitors := by rw [same, frame]
    have before : v.monBefore = s.monBefore := by rw [same, frame]
    have msgs : v.msgs = s.msgs := by rw [same, frame]
    exact ⟨monitors.trans none_there, before, msgs⟩
  · rw [hart']
    exact buf on
  · obtain ⟨refs, regs⟩ := register off
    rw [hart']
    exact referenced_of_eq (referenced_single o.vd s) refs regs
  · rw [hart']
    exact strip

/-! TQRY. -/

/-- The bits of a sum of distinct powers. -/
theorem foldl_bits_testBit (g : Nat → Bool) (n j : Nat) :
    ((List.range n).foldl (fun v i => if g i then v + 2 ^ i else v) 0).testBit j = (decide (j < n) && g j) ∧
    (List.range n).foldl (fun v i => if g i then v + 2 ^ i else v) 0 < 2 ^ n := by
  induction n with
  | zero => simp
  | succ n ih =>
    obtain ⟨bits, small⟩ := ih
    rw [List.range_succ, List.foldl_append, List.foldl_cons, List.foldl_nil]
    generalize (List.range n).foldl _ 0 = v at bits small
    cases on : g n with
    | true =>
      rw [if_pos rfl, Nat.pow_succ]
      refine ⟨?_, by omega⟩
      rw [Nat.add_comm, ← Nat.mul_one (2 ^ n), Nat.testBit_two_pow_mul_add _ small]
      by_cases low : j < n
      · rw [if_pos low, bits]
        simp [low, Nat.lt_succ_of_lt low]
      · rw [if_neg low]
        by_cases here : j = n
        · simp [here, on]
        · have beyond : ¬j < n + 1 := by omega
          have high := Nat.testBit_lt_two_pow (Nat.one_lt_two_pow (show j - n ≠ 0 by omega))
          simp [beyond, high]
    | false =>
      rw [if_neg Bool.false_ne_true, Nat.pow_succ]
      refine ⟨?_, by omega⟩
      rw [bits]
      by_cases here : j = n
      · simp [here, on]
      · simp [show (j < n) = (j < n + 1) from propext (by omega)]

theorem tqry_run (ready : (selOf c o).Ready s) : exec (.tqry c o) s = alu c o.xb (BitVec.ofNat 64 ((List.range 64).foldl
    (fun v i => if (selOf c o).bit s ((rx s o.xa).toNat + i) then v + 2 ^ i else v) 0)) ((selOf c o).touch s) := by
  show execTqry c o s = _
  unfold execTqry
  dsimp only
  rw [Sel.frame_ready ready (selOf_vd_lt c o)]

theorem tqry_writes (ready : (selOf c o).Ready s) : ∃ (v : Word) (t : State),
    (∀ j, j < 64 → v.getLsbD j = (selOf c o).bit s ((rx s o.xa).toNat + j)) ∧ exec (.tqry c o) s = .next t ∧
    GoesOn c s t (fun h => { h with x := t.h.x, refs := t.h.refs, regs := t.h.regs }) ∧ XWritten o.xb v s.h.x t.h.x ∧
    (((selOf c o).buf = true → t.h.refs = s.h.refs ∧ t.h.regs = s.h.regs) ∧
      ((selOf c o).buf = false → Referenced [o.vd.toNat] s.h t.h)) := by
  have bits (j : Nat) (hj : j < 64) : (BitVec.ofNat 64 ((List.range 64).foldl
      (fun v i => if (selOf c o).bit s ((rx s o.xa).toNat + i) then v + 2 ^ i else v) 0)).getLsbD j =
      (selOf c o).bit s ((rx s o.xa).toNat + j) := by
    rw [BitVec.getLsbD_ofNat, (foldl_bits_testBit (fun i => (selOf c o).bit s ((rx s o.xa).toNat + i)) 64 j).1]
    simp [hj]
  have run := tqry_run ready
  generalize BitVec.ofNat 64 _ = v at bits run
  cases buf : (selOf c o).buf with
  | true =>
    rw [Sel.touch_buf buf] at run
    obtain ⟨t, alu_run, goes, written⟩ := alu_writes c o.xb v s
    have refs : t.h.refs = s.h.refs := by rw [goes]
    have regs : t.h.regs = s.h.regs := by rw [goes]
    refine ⟨v, t, bits, run.trans alu_run, ?_, written, fun _ => ⟨refs, regs⟩, fun never => (nomatch never)⟩
    unfold GoesOn at goes ⊢
    rw [refs, regs]
    exact goes
  | false =>
    rw [Sel.touch_register buf] at run
    obtain ⟨t, alu_run, goes, written, refs, regs⟩ := alu_touched (c := c) o.xb v [{ reg := (selOf c o).vd }] s
    exact ⟨v, t, bits, run.trans alu_run, goes, written, fun never => (nomatch never),
      fun _ => referenced_of_eq (referenced_single o.vd s) refs regs⟩

/-! TCLR. -/

theorem tclr_buf (buf : (selOf c o).buf = true) :
    exec (.tclr c o) s = .next (retire c (clearBuf s (s.h.core / 8) (selOf c o).n)) := by
  show execTclr c o s = _
  unfold execTclr
  dsimp only
  rw [buf]
  rfl

theorem tclr_register (register : (selOf c o).buf = false) (ready : (selOf c o).Ready s) : exec (.tclr c o) s =
    if copyInto s o.vd.toNat then .next (holdFor s .tclr (.tclr c o))
    else .next (retire c (clearLanded (touchRegs s [{ reg := o.vd.toNat }]) o.vd.toNat)) := by
  show execTclr c o s = _
  unfold execTclr
  dsimp only
  rw [register, Sel.frame_ready ready (selOf_vd_lt c o)]
  simp only [Bool.false_eq_true, if_false, Sel.touch_register register]
  rfl

theorem clearLanded_spec (s : State) (n : Nat) : ∃ t, clearLanded (touchRegs s [{ reg := n }]) n = t ∧
    t = { s with h := { s.h with landed := t.h.landed, landedAt := t.h.landedAt, refs := t.h.refs, regs := t.h.regs } } ∧
    t.h.refs = (touchRegs s [{ reg := n }]).h.refs ∧ t.h.regs = (touchRegs s [{ reg := n }]).h.regs ∧
    ∀ m x, x < 512 → landedOf t m x = if m = n then 0 else landedOf s m x := by
  obtain ⟨refs, regs, touched⟩ : ∃ refs regs, touchRegs s [{ reg := n }] = { s with h := { s.h with refs := refs, regs := regs } } :=
    ⟨_, _, touchRegs_eq s [{ reg := n }]⟩
  rw [touched]
  refine ⟨_, rfl, rfl, rfl, rfl, fun m x hx => ?_⟩
  unfold landedOf clearLanded
  simp only [modH_h, sget_sdrop, beq_iff_eq]
  exact if_congr (by omega) rfl rfl

/-- A buffer cleared: its own descriptor, and the carriages of walks into it where nothing lands in it in this cy. -/
theorem clearBuf_spec (s : State) (cl : Nat) {n : Nat} (hn : n < 64) : ∃ u, clearBuf s cl n = u ∧
    u = { s with bufs := u.bufs, copies := u.copies } ∧
    (∀ cl' m, m < 64 → bufAt u cl' m = if cl' = cl ∧ m = n then relandBuf s cl n (bufAt s cl n).clear else bufAt s cl' m) ∧
    ((∃ j, j < 1024 ∧ landsNow s cl n j = true) → u.copies = s.copies) ∧
    ((∀ l ∈ s.bufLandings, ¬(l.cyc = s.cyc ∧ l.cluster = cl ∧ l.buf = n)) → u.copies =
      s.copies.map (fun p => { p with walk := p.walk.map (fun w => { w with used := usedAfter cl n p w }) })) := by
  obtain ⟨-, -, landed, cleared⟩ := relandBuf_spec s cl n (bufAt s cl n)
  have read (cl' m : Nat) (hm : m < 64) := bufAt_setBuf s cl cl' (relandBuf s cl n (bufAt s cl n).clear) hn hm
  unfold clearBuf
  dsimp only
  by_cases empty : (relandBuf s cl n (bufAt s cl n).clear).landed = 0
  · rw [if_pos empty, consume_eq]
    refine ⟨_, rfl, rfl, read, fun ⟨j, hj, lands⟩ => ?_, fun _ => rfl⟩
    have bit := landed j hj
    rw [empty, lands] at bit
    exact absurd bit (by simp)
  · rw [if_neg empty]
    refine ⟨_, rfl, rfl, read, fun _ => rfl, fun quiet => absurd ?_ empty⟩
    rw [cleared quiet]
    exact (clear_spec _).1

end Sys2Proof.Machine
end

section
/-! The results of VDECL, VQRY and TCLR as O17 states them. -/
namespace Sys2Proof.Machine

variable {c : Ctl} {o : VX} {s : State}

theorem vdecl_goes_on (sound : entryBad ((rx s o.xa).toNat % 2 ^ 32) = false)
    (few : (rx s o.xa).toNat % 2 ^ 32 / 2 ^ 14 % 4 = 0 ∨
      entriesFor ((rx s o.xa).toNat % 2 ^ 32) * ((rx s o.xa).toNat % 2 ^ 32 % 64 + 1) ≤ 232)
    (room : ((rx s o.xa).toNat % 2 ^ 32 / 2 ^ 14 % 4 = 0 ∨ slotSizeFor s.h.slots (entriesFor ((rx s o.xa).toNat % 2 ^ 32))
        ((rx s o.xa).toNat % 2 ^ 32 % 64 + 1) ≤ (vreg s o.vd.toNat).slotSize) ∨
      ceilDiv s.h.slotEnd 512 * 512 + slotSizeFor s.h.slots (entriesFor ((rx s o.xa).toNat % 2 ^ 32))
        ((rx s o.xa).toNat % 2 ^ 32 % 64 + 1) ≤ (myGang s).launch.bsize)
    (free : copyInto s o.vd.toNat = false) :
    exec (.vdecl c o) s = .next (retire c (modH s (fun h => declare h o.vd.toNat ((rx s o.xa).toNat % 2 ^ 32)))) := by
  refine exec_vdecl_of_none ?_ free
  rw [vdeclTrap_eq, sound, if_neg Bool.false_ne_true, if_neg (by omega), if_neg (by omega)]

theorem vqry_entry {q : Word} (asked : q.toNat % 256 = 0) (n : Nat) :
    (BitVec.ofNat 64 (vqryAnswer s n q)).toNat = (vreg s n).entm.toNat * 2 ^ 16 + (vreg s n).kind.toNat * 2 ^ 14 +
      (if (vreg s n).init then 64 else 0) + (vreg s n).wm.toNat + (if (vreg s n).first.isSome then 2 ^ 32 else 0) +
      (if copyInto s n then 2 ^ 33 else 0) + (vreg s n).first.getD 0 * 2 ^ 40 ∨ 255 < (vreg s n).first.getD 0 := by
  by_cases far : 255 < (vreg s n).first.getD 0
  · exact .inr far
  · refine .inl ?_
    have answer : vqryAnswer s n q = (vreg s n).entry + (if (vreg s n).first.isSome then 2 ^ 32 else 0) +
        (if copyInto s n then 2 ^ 33 else 0) + (vreg s n).first.getD 0 * 2 ^ 40 := by
      unfold vqryAnswer
      rw [asked]
      rfl
    have small := entry_lt (vreg s n)
    have resident : (if (vreg s n).first.isSome then 2 ^ 32 else 0 : Nat) ≤ 2 ^ 32 := by split <;> omega
    have filling : (if copyInto s n then 2 ^ 33 else 0 : Nat) ≤ 2 ^ 33 := by split <;> omega
    rw [BitVec.toNat_ofNat, answer, Nat.mod_eq_of_lt (by omega)]
    rfl

theorem vqry_slot {q : Word} (asked : q.toNat % 256 = 1) (n : Nat) : vqryAnswer s n q = (vreg s n).slot := by
  unfold vqryAnswer
  rw [asked]
  rfl

theorem vqry_rows {q : Word} (asked : q.toNat % 256 = 2) (n : Nat) : vqryAnswer s n q =
    if q.toNat / 2 ^ 16 % 2 ^ 16 < s.h.slots then unfencedRows s (s.h.core + q.toNat / 2 ^ 16 % 2 ^ 16) else 0 := by
  unfold vqryAnswer
  rw [asked]
  rfl

theorem vqry_attached {q : Word} (asked : q.toNat % 256 = 3) (n : Nat) : vqryAnswer s n q = attachedSlots s := by
  unfold vqryAnswer
  rw [asked]
  rfl

theorem vqry_other {q : Word} (asked : 4 ≤ q.toNat % 256) (n : Nat) : vqryAnswer s n q = 0 := by
  obtain ⟨k, eq⟩ : ∃ k, q.toNat % 256 = k + 4 := ⟨q.toNat % 256 - 4, by omega⟩
  unfold vqryAnswer
  rw [eq]
  rfl

/-- The frame of VQRY: a query about VD is a reference to it. -/
theorem vqry_frame (c : Ctl) (o : VX) (s : State) : ∃ t, exec (.vqry c o) s = .next t ∧
    GoesOn c s t (fun h => { h with x := t.h.x, refs := t.h.refs, regs := t.h.regs }) ∧
    XWritten o.xb (BitVec.ofNat 64 (vqryAnswer s o.vd.toNat (rx s o.xa))) s.h.x t.h.x ∧
    ((rx s o.xa).toNat % 256 < 2 → Referenced [o.vd.toNat] s.h t.h) ∧
    (2 ≤ (rx s o.xa).toNat % 256 → t.h.refs = s.h.refs ∧ t.h.regs = s.h.regs) := by
  have run := exec_vqry c o s
  by_cases about : (rx s o.xa).toNat % 256 < 2
  · rw [if_pos about] at run
    obtain ⟨t, alu_run, goes, written, refs, regs⟩ := alu_touched (c := c) o.xb
      (BitVec.ofNat 64 (vqryAnswer s o.vd.toNat (rx s o.xa))) [{ reg := o.vd.toNat }] s
    exact ⟨t, run.trans alu_run, goes, written, fun _ => referenced_of_eq (referenced_single o.vd s) refs regs, fun high => by omega⟩
  · rw [if_neg about] at run
    obtain ⟨t, alu_run, goes, written⟩ := alu_writes c o.xb (BitVec.ofNat 64 (vqryAnswer s o.vd.toNat (rx s o.xa))) s
    have refs : t.h.refs = s.h.refs := by rw [goes]
    have regs : t.h.regs = s.h.regs := by rw [goes]
    refine ⟨t, run.trans alu_run, ?_, written, fun low => absurd low about, fun _ => ⟨refs, regs⟩⟩
    unfold GoesOn at goes ⊢
    rw [refs, regs]
    exact goes

/-- TCLR of a buffer, as its descriptor and the walks into it show it. -/
theorem tclr_buf_spec (buf : (selOf c o).buf = true) : ∃ u, exec (.tclr c o) s = .next (retire c u) ∧
    u = { s with bufs := u.bufs, copies := u.copies } ∧
    (∀ cl' m, m < 64 → bufAt u cl' m = if cl' = s.h.core / 8 ∧ m = (selOf c o).n
      then relandBuf s (s.h.core / 8) (selOf c o).n (bufAt s (s.h.core / 8) (selOf c o).n).clear else bufAt s cl' m) ∧
    ((∃ j, j < 1024 ∧ landsNow s (s.h.core / 8) (selOf c o).n j = true) → u.copies = s.copies) ∧
    ((∀ l ∈ s.bufLandings, ¬(l.cyc = s.cyc ∧ l.cluster = s.h.core / 8 ∧ l.buf = (selOf c o).n)) → u.copies =
      s.copies.map (fun p => { p with walk := p.walk.map (fun w => { w with used := usedAfter (s.h.core / 8) (selOf c o).n p w }) })) := by
  obtain ⟨u, cleared, rest⟩ := clearBuf_spec s (s.h.core / 8) (n := (selOf c o).n) (Nat.mod_lt _ (by decide))
  exact ⟨u, (tclr_buf buf).trans (by rw [cleared]), rest⟩

/-- Each copy of a list whose walks are marked, one by one. -/
theorem marked_copies {cl n : Nat} {l l' : List Copy}
    (eq : l' = l.map (fun p => { p with walk := p.walk.map (fun w => { w with used := usedAfter cl n p w }) })) :
    l'.length = l.length ∧ ∀ (i : Nat) (p q : Copy), l[i]? = some p → l'[i]? = some q →
      q = { p with walk := q.walk } ∧ (p.walk = none → q.walk = none) ∧
      ∀ w, p.walk = some w → ∃ u, q.walk = some { w with used := u } ∧
        ∀ x, x ∈ u ↔ x ∈ w.used ∨ (p.tbCluster = cl ∧ x < w.j ∧ p.carBuf x = n ∧ carLanded p x = true) := by
  subst eq
  refine ⟨List.length_map _, fun i p q hp hq => ?_⟩
  rw [List.getElem?_map, hp, Option.map_some, Option.some.injEq] at hq
  subst hq
  exact ⟨rfl, fun none_there => by simp [none_there], fun w there => ⟨usedAfter cl n p w, by simp [there], mem_usedAfter cl n p w⟩⟩

end Sys2Proof.Machine

open Sys2Proof Sys2Proof.Machine

/-- Settles O17: VDECL by its checks in order, VQRY by its query, TWAIT, TCLR and TQRY by the frame of their selection. -/
theorem declarationsAndLandedState : Obligations.DeclarationsAndLandedState := by
  unfold Obligations.DeclarationsAndLandedState
  refine ⟨fun c o s => ?declarations, fun c o s => ?landed⟩
  case declarations =>
    intro v kind w n size mark old bad new keeps q
    have bad_iff : entryBad v = true ↔ bad := entryBad_iff v
    have sound (ok : ¬bad) : entryBad v = false := Bool.eq_false_iff.mpr fun is => ok (bad_iff.mp is)
    have trapped (t : Trap) (eq : vdeclTrap s o.vd.toNat v = some t) := exec_vdecl_of_trap (c := c) (o := o) eq
    refine ⟨fun is_bad => ?format, fun ok declared big => ?planes, fun ok few slotless beyond => ?slot,
      fun ok few room free => ?goes, ?query⟩
    case format => exact raises_of_trap rfl (trapped _ (by rw [vdeclTrap_eq, if_pos (bad_iff.mpr is_bad)]))
    case planes =>
      refine raises_of_trap rfl (trapped _ ?_)
      rw [vdeclTrap_eq, sound ok, if_neg Bool.false_ne_true, if_pos ⟨declared, big⟩]
      rfl
    case slot =>
      obtain ⟨declared, small⟩ := not_or.mp slotless
      refine raises_of_trap rfl (trapped _ ?_)
      rw [vdeclTrap_eq, sound ok, if_neg Bool.false_ne_true, if_neg fun big => absurd few (Nat.not_le.mpr big.2),
        if_pos ⟨declared, Nat.not_le.mp small, beyond⟩]
      rfl
    case goes =>
      obtain ⟨frame, regs⟩ := declare_spec s.h o.vd.isLt v
      refine ⟨_, vdecl_goes_on (sound ok) few room free, ?_, fun m hm => ?_⟩
      · unfold GoesOn
        rw [retire_h, modH_h]
        generalize (declare s.h o.vd.toNat v).regs = r at frame
        simp only [retire, goTo, modH]
        rw [frame, nextPc_eq]
        rfl
      · refine (regs m).trans ?_
        rw [ofEntry_eq]
        rfl
    case query =>
      obtain ⟨t, run, goes, written, about, other⟩ := vqry_frame c o s
      refine ⟨_, t, run, goes, written, about, other, fun asked => vqry_entry asked _, fun asked => by rw [vqry_slot asked],
        fun asked => by rw [vqry_rows asked], fun asked => ⟨attachedSlots s, by rw [vqry_attached asked], ?_⟩,
        fun asked => by rw [vqry_other asked]; rfl⟩
      exact attachedSlots_spec s
  case landed =>
    intro buf md n cl b size bit lo k off tile row hops span holds ready named first landsNow' quiet
    have n_lt : n < 64 := Nat.mod_lt _ (by decide)
    have span_eq' : s.h.span = span := span_eq s.h
    have holds_iff : twaitHolds c o s = true ↔ holds := by
      rw [twaitHolds_iff]
      refine forall_congr' fun x => forall_congr' fun low => forall_congr' fun high => ?_
      unfold Sel.shown seenDelay
      dsimp only
      rw [span_eq']
      simp only [Bool.and_eq_true, Bool.or_eq_true, decide_eq_true_eq]
      rfl
    refine ⟨fun r beyond => ?trap, fun r inside seen => ?goes, fun r inside unseen => ?waits, fun is_buf => ?buffer,
      fun register r free => ?register, fun register r taken => ?held, fun r => tqry_writes r⟩
    case trap => exact raises_of_trap rfl ((twait_run r).trans (if_pos beyond))
    case goes =>
      obtain ⟨t, goes_on, frame, unmonitored, refs, strip⟩ := twait_goes_on c o s
      exact ⟨t, ((twait_run r).trans (if_neg inside)).trans (by rw [if_pos (holds_iff.mpr seen), goes_on]), frame, unmonitored, refs, strip⟩
    case waits =>
      exact ⟨_, _, ((twait_run r).trans (if_neg inside)).trans (by rw [if_neg fun is => unseen (holds_iff.mp is)]; rfl), rfl, rfl⟩
    case buffer =>
      obtain ⟨u, run, frame, bufs, busy, idle⟩ := tclr_buf_spec (c := c) (o := o) (s := s) is_buf
      obtain ⟨cfg, chk, landed, cleared⟩ := relandBuf_spec s cl n b
      obtain ⟨-, ltag, mix, -, etag, low⟩ := clear_spec b
      have mine : bufAt u cl n = relandBuf s cl n b.clear := (bufs cl n n_lt).trans (if_pos ⟨rfl, rfl⟩)
      have pc : u.h = s.h := by rw [frame]
      refine ⟨_, run, ?_, fun cl' m hm other => (bufs cl' m hm).trans (if_neg fun same => other (Prod.ext same.1 same.2)),
        fun j hj => (congrArg (fun b : TileBuf => b.landed.getLsbD j) mine).trans (landed j hj),
        (congrArg TileBuf.chk mine).trans chk, busy, fun nothing => ?_, ?_, fun j hj => ?_⟩
      · simp only [retire, goTo, modH, nextPc_eq, pcAfter_congr (congrArg Hart.pc pc)]
        conv_lhs => rw [frame]
      · have still := cleared nothing
        obtain ⟨length, each⟩ := marked_copies (idle nothing)
        exact ⟨(congrArg TileBuf.ltag (mine.trans still)).trans ltag, (congrArg TileBuf.mix (mine.trans still)).trans mix, length, each⟩
      · refine Eq.trans ?_ etag
        have := congrArg TileBuf.cfg mine
        exact congrArg (fun x : Word => x.extractLsb' 48 16) (this.trans cfg)
      · exact (congrArg (fun b : TileBuf => b.cfg.getLsbD j) mine).trans ((congrArg (fun x : Word => x.getLsbD j) cfg).trans (low j hj))
    case register =>
      obtain ⟨u, cleared, frame, refs, regs, landed⟩ := clearLanded_spec s o.vd.toNat
      have run := tclr_register (c := c) (o := o) register r
      rw [if_neg (by simp [free]), cleared] at run
      have pc : u.h.pc = s.h.pc := by rw [frame]
      refine ⟨_, run, ?_, referenced_of_eq (referenced_single o.vd s) refs regs, landed⟩
      unfold GoesOn
      simp only [retire, goTo, modH, nextPc_eq, pcAfter_congr pc]
      conv_lhs => rw [frame]
    case held => exact ⟨_, _, (tclr_register (c := c) (o := o) register r).trans (if_pos taken), rfl, rfl⟩
end

section
/-! The containers of a tile move: where they lie, and that such a move neither traps nor leaves the scratchpads (R89, R193, R194). -/
namespace Sys2Proof.Machine

variable {s : State} {m : Move}

theorem container_of_isContainer {w cw : Nat} (h : IsContainer w cw) : container w = cw := by
  obtain ⟨fits, k, small, rfl, least⟩ := h
  have above : (0 < k → 2 ^ 0 < w) ∧ (1 < k → 2 ^ 1 < w) ∧ (2 < k → 2 ^ 2 < w) ∧ (3 < k → 2 ^ 3 < w) ∧ (4 < k → 2 ^ 4 < w) ∧
      (5 < k → 2 ^ 5 < w) := ⟨least 0, least 1, least 2, least 3, least 4, least 5⟩
  unfold container
  interval_cases k <;> split_ifs <;> omega

/-- The container widths divide a word. -/
theorem isContainer_dvd {w cw : Nat} (h : IsContainer w cw) : 0 < cw ∧ cw ∣ 64 := by
  obtain ⟨-, k, small, rfl, -⟩ := h
  exact ⟨Nat.two_pow_pos k, Nat.pow_dvd_pow 2 small⟩

theorem pos_eq (base : Word) (stride : Option Word) (cw : Nat) (s : State) (e : Nat) :
    (⟨base, stride, cw⟩ : Move).pos s e = containerOff s stride cw e := by
  cases stride <;> rfl

/-- A container does not straddle words. -/
theorem containerOff_dvd {stride : Option Word} {cw : Nat} (divides : cw ∣ 64) (whole : (stride.getD 0).toNat % 8 = 0) (e : Nat) :
    (cw : Int) ∣ containerOff s stride cw e := by
  cases stride with
  | none => exact ⟨e, by simp [containerOff, Int.mul_comm]⟩
  | some st =>
    have whole : st.toNat % 8 = 0 := whole
    have eighth : (8 : Int) ∣ st.toInt := by
      rw [BitVec.toInt_eq_toNat_cond]
      split <;> omega
    have word : (cw : Int) ∣ 64 := Int.natCast_dvd_natCast.mpr divides
    unfold containerOff
    refine dvd_add (word.trans ?_) ⟨(e % s.h.csr.rlen : Nat), by push_cast; ring⟩
    obtain ⟨q, eq⟩ := eighth
    exact ⟨(e / s.h.csr.rlen : Nat) * q, by rw [eq]; ring⟩

theorem emod_add_le_of_dvd {cw : Nat} {a : Int} (positive : 0 < cw) (divides : cw ∣ 64) (multiple : (cw : Int) ∣ a) :
    a % 64 + cw ≤ 64 := by
  obtain ⟨k, hk⟩ := divides
  obtain ⟨j, rfl⟩ := multiple
  have rem : ((cw : Int) * j) % 64 = cw * (j % k) := by
    have : (64 : Int) = cw * k := by exact_mod_cast hk
    rw [this, Int.mul_emod_mul_of_pos _ _ (by exact_mod_cast positive)]
  have k_pos : 0 < k := Nat.pos_of_ne_zero fun zero => by simp [zero] at hk
  have small : j % (k : Int) + 1 ≤ k := Int.emod_lt_of_pos _ (by exact_mod_cast k_pos)
  have : (cw : Int) * (j % k + 1) ≤ cw * k := Int.mul_le_mul_of_nonneg_left small (by positivity)
  have whole : (cw : Int) * k = 64 := by exact_mod_cast hk.symm
  rw [rem]
  linarith

/-! The window of a tile move. -/

/-- First byte and the byte behind the last of the own scratchpad's window, or of die `k`'s (R88). -/
def windowBounds : Option Nat → Nat × Nat
  | none => (0, 2 ^ 24)
  | some k => (2 ^ 28 + k * 2 ^ 26, 2 ^ 28 + (k + 1) * 2 ^ 26)

/-- How far behind its address a byte of the window lies in storage, as tile `t` reaches it. -/
def windowShift (s : State) (d : Option Nat) (t : Nat) : Nat :=
  match d with
  | none => 2 ^ 40 + (s.h.core + t) / 8 * 2 ^ 24
  | some _ => 2 ^ 41 - 2 ^ 28

theorem tilePlace_of_window {d : Option Nat} (owned : ∀ k, d = some k → k < 4 ∧ partOfDie s k = some (myGang s).part) (t : Nat) {x : Word}
    (inside : (windowBounds d).1 ≤ x.toNat ∧ x.toNat < (windowBounds d).2) : tilePlace s t x = .mem (windowShift s d t + x.toNat) := by
  unfold tilePlace placeOf clusterOfCore
  cases d with
  | none =>
    have low : x.toNat < 2 ^ 24 := inside.2
    rw [if_pos (by omega)]
    rfl
  | some k =>
    obtain ⟨small, mine⟩ := owned k rfl
    obtain ⟨low, high⟩ := inside
    simp only [windowBounds] at low high
    have die : (x.toNat - 0x10000000) / 2 ^ 26 = k := by omega
    rw [if_neg (by omega), if_pos (by omega), die]
    dsimp only
    rw [if_pos mine]
    refine congrArg Place.mem ?_
    simp only [windowShift, dieBase]
    omega

theorem windowOf_of_window {d : Option Nat} (owned : ∀ k, d = some k → k < 4) {a : Nat}
    (inside : (windowBounds d).1 ≤ a ∧ a < (windowBounds d).2) :
    windowOf a = some ((windowBounds d).1, (windowBounds d).2 - (windowBounds d).1) := by
  unfold windowOf
  cases d with
  | none =>
    have low : a < 2 ^ 24 := inside.2
    rw [if_pos (by omega)]
    rfl
  | some k =>
    have small := owned k rfl
    have low : 2 ^ 28 + k * 2 ^ 26 ≤ a := inside.1
    have high : a < 2 ^ 28 + (k + 1) * 2 ^ 26 := inside.2
    rw [if_neg (by omega), if_pos (by omega)]
    simp only [windowBounds]
    refine congrArg some (Prod.ext ?_ ?_)
    · dsimp only
      omega
    · dsimp only
      omega

theorem toNat_addr (m : Move) {off : Int} (low : 0 ≤ (m.base.toNat : Int) + off) (high : (m.base.toNat : Int) + off < 2 ^ 64) :
    ((m.addr off).toNat : Int) = m.base.toNat + off := by
  unfold Move.addr
  rw [BitVec.toNat_add, BitVec.toNat_ofInt]
  omega

/-- The extent of some elements starts at one of them and ends at one of them. -/
theorem extent_cons (m : Move) (s : State) (e : Nat) (es : List Nat) :
    (∃ k ∈ e :: es, (m.extent s (e :: es)).1 = m.pos s k / 8) ∧ ∃ k ∈ e :: es, (m.extent s (e :: es)).2 = (m.pos s k + m.cw + 7) / 8 := by
  have go : ∀ (l : List Nat) (acc : Int × Int), (∃ k ∈ e :: es, acc.1 = m.pos s k / 8) → (∃ k ∈ e :: es, acc.2 = (m.pos s k + m.cw + 7) / 8) →
      (∀ k ∈ l, k ∈ e :: es) →
      (∃ k ∈ e :: es, (l.foldl (fun acc k => (min acc.1 (m.pos s k / 8), max acc.2 ((m.pos s k + m.cw + 7) / 8))) acc).1 = m.pos s k / 8) ∧
      ∃ k ∈ e :: es, (l.foldl (fun acc k => (min acc.1 (m.pos s k / 8), max acc.2 ((m.pos s k + m.cw + 7) / 8))) acc).2 =
        (m.pos s k + m.cw + 7) / 8 := by
    intro l
    induction l with
    | nil => exact fun acc low high _ => ⟨low, high⟩
    | cons x r ih =>
      intro acc low high inside
      have mine := inside x List.mem_cons_self
      refine ih _ ?_ ?_ fun k hk => inside k (List.mem_cons_of_mem _ hk)
      · rcases min_choice acc.1 (m.pos s x / 8) with left | right
        · obtain ⟨k, hk, eq⟩ := low
          exact ⟨k, hk, Eq.trans left eq⟩
        · exact ⟨x, mine, right⟩
      · rcases max_choice acc.2 ((m.pos s x + m.cw + 7) / 8) with left | right
        · obtain ⟨k, hk, eq⟩ := high
          exact ⟨k, hk, Eq.trans left eq⟩
        · exact ⟨x, mine, right⟩
  exact go es _ ⟨e, List.mem_cons_self, rfl⟩ ⟨e, List.mem_cons_self, rfl⟩ fun k hk => List.mem_cons_of_mem _ hk

end Sys2Proof.Machine
end

section
/-! A tile move whose containers have places. -/
namespace Sys2Proof.Machine

variable {s : State} {base : Word} {stride : Option Word} {cw : Nat} {d : Option Nat} {at' : Nat → Nat}

/-- The bit address of a container in the window. -/
def bitAddr (s : State) (base : Word) (stride : Option Word) (cw e : Nat) : Int := base.toNat * 8 + containerOff s stride cw e

section
variable (places : TilePlaces s base stride cw d at')
include places

theorem TilePlaces.owned : ∀ k, d = some k → k < 4 ∧ partOfDie s k = some (myGang s).part := places.2.2.1

theorem TilePlaces.inside {e : Nat} (below : e < s.h.csr.vl) :
    ((windowBounds d).1 * 8 : Int) ≤ bitAddr s base stride cw e ∧ bitAddr s base stride cw e + cw ≤ ((windowBounds d).2 * 8 : Int) ∧
    (at' e : Int) = (windowShift s d (e / (s.h.csr.rlen * s.h.csr.rows)) : Nat) * 8 + bitAddr s base stride cw e := by
  obtain ⟨-, -, -, each⟩ := places
  have mine := each e below
  unfold bitAddr windowShift
  cases d with
  | none =>
    obtain ⟨low, high, place⟩ := mine
    simp only [windowBounds]
    refine ⟨by omega, by omega, ?_⟩
    push_cast
    omega
  | some k =>
    obtain ⟨low, high, place⟩ := mine
    simp only [windowBounds]
    exact ⟨by omega, by omega, by omega⟩

/-- The window ends before 2^29. -/
theorem TilePlaces.bound : (windowBounds d).2 ≤ 2 ^ 29 ∧ (windowBounds d).1 % 8 = 0 ∧ (windowBounds d).1 < (windowBounds d).2 := by
  cases d with
  | none => simp [windowBounds]
  | some k =>
    have small := (places.owned k rfl).1
    simp only [windowBounds]
    omega

theorem TilePlaces.trap_none (positive : 0 < cw) : (⟨base, stride, cw⟩ : Move).trap s = none := by
  obtain ⟨whole, whole_stride, -, -⟩ := id places
  have aligned_base : aligned base 8 = true := beq_iff_eq.mpr whole
  have aligned_stride : aligned (stride.getD 0) 8 = true := beq_iff_eq.mpr whole_stride
  unfold Move.trap
  simp only [aligned_base, aligned_stride, Bool.not_true, trapIf_false, Option.orElse_none]
  cases below : s.h.csr.vl with
  | zero =>
    simp only [Nat.lt_irrefl, decide_false, Bool.false_and, trapIf_false]
    split <;> rfl
  | succ n =>
    have elems_eq : elems s = 0 :: (List.range n).map Nat.succ := by rw [elems, below, List.range_succ_eq_map]
    rw [elems_eq]
    obtain ⟨⟨k, hk, first⟩, ⟨j, hj, last⟩⟩ := extent_cons ⟨base, stride, cw⟩ s 0 ((List.range n).map Nat.succ)
    rw [← elems_eq] at hk hj
    obtain ⟨k_low, k_high, -⟩ := places.inside (List.mem_range.mp hk)
    obtain ⟨j_low, j_high, -⟩ := places.inside (List.mem_range.mp hj)
    rw [pos_eq] at first last
    unfold bitAddr at k_low k_high j_low j_high
    obtain ⟨small, bound_whole, proper⟩ := places.bound
    generalize Move.extent _ s _ = ext at first last
    have lo := toNat_addr ⟨base, stride, cw⟩ (off := ext.1) (by dsimp only; omega) (by dsimp only; omega)
    dsimp only at lo last
    rw [windowOf_of_window (fun k hk => (places.owned k hk).1) (by omega)]
    dsimp only
    have fits : ¬(windowBounds d).1 + ((windowBounds d).2 - (windowBounds d).1) <
        ((⟨base, stride, cw⟩ : Move).addr ext.1).toNat + (ext.2 - ext.1).toNat := by omega
    rw [decide_eq_false fits, Bool.and_false]
    rfl

theorem TilePlaces.outside_none (positive : 0 < cw) (some_element : 0 < s.h.csr.vl) : (⟨base, stride, cw⟩ : Move).outside s = none := by
  have elems_eq : elems s = 0 :: (List.range (s.h.csr.vl - 1)).map Nat.succ := by
    rw [elems, ← List.range_succ_eq_map, Nat.sub_add_cancel some_element]
  obtain ⟨⟨k, hk, first⟩, -⟩ := extent_cons ⟨base, stride, cw⟩ s 0 ((List.range (s.h.csr.vl - 1)).map Nat.succ)
  rw [← elems_eq] at hk first
  obtain ⟨k_low, k_high, -⟩ := places.inside (List.mem_range.mp hk)
  rw [pos_eq] at first
  unfold bitAddr at k_low k_high
  obtain ⟨small, bound_whole, proper⟩ := places.bound
  unfold Move.outside
  generalize Move.extent _ s _ = ext at first
  have lo := toNat_addr ⟨base, stride, cw⟩ (off := ext.1) (by dsimp only; omega) (by dsimp only; omega)
  dsimp only at lo
  rw [tilePlace_of_window places.owned 0 (by omega)]

/-- The word that holds an element's container, and its offset there. -/
theorem TilePlaces.slot (positive : 0 < cw) (divides : cw ∣ 64) {e : Nat} (below : e < s.h.csr.vl) :
    tilePlace s (e / (s.h.csr.rlen * s.h.csr.rows)) ((⟨base, stride, cw⟩ : Move).addr ((⟨base, stride, cw⟩ : Move).pos s e / 64 * 8)) =
      .mem (at' e / 64 * 8) ∧ ((⟨base, stride, cw⟩ : Move).pos s e % 64).toNat = at' e % 64 ∧ at' e % 64 + cw ≤ 64 := by
  obtain ⟨low, high, place⟩ := places.inside below
  obtain ⟨small, bound_whole, proper⟩ := places.bound
  obtain ⟨whole, whole_stride, -, -⟩ := id places
  have fits := emod_add_le_of_dvd positive divides (containerOff_dvd (s := s) divides whole_stride e)
  rw [pos_eq]
  unfold bitAddr at low high place
  generalize containerOff s stride cw e = p at low high place fits ⊢
  have addr := toNat_addr ⟨base, stride, cw⟩ (off := p / 64 * 8) (by dsimp only; omega) (by dsimp only; omega)
  dsimp only at addr
  have shift_whole : windowShift s d (e / (s.h.csr.rlen * s.h.csr.rows)) % 8 = 0 := by
    unfold windowShift
    cases d with
    | none => dsimp only; omega
    | some k => norm_num
  refine ⟨?_, by omega, by omega⟩
  rw [tilePlace_of_window places.owned _ (by omega)]
  generalize windowShift s d (e / (s.h.csr.rlen * s.h.csr.rows)) = shift at place shift_whole
  exact congrArg Place.mem (by omega)

end

end Sys2Proof.Machine
end

section
/-! Loads of a tile move: each active element takes the low bits of its container (R89, R176, R193). -/
namespace Sys2Proof.Machine

variable {s : State} {c : Ctl} {base : Word} {stride : Option Word} {cw : Nat} {d : Option Nat} {at' : Nat → Nat}

/-- Where every buffer's tags are good, a tile move sets CHK of those that it touches and goes on. -/
theorem Move.check_good (tags : TagsGood s) (m : Move) : ∃ bufs, m.check s = .ok { s with bufs } ∧ OnlyChecked s { s with bufs } := by
  have good : ∀ x ∈ m.buffers s, x.2 < 64 ∧ tagGood s x.1 x.2 = true := fun x hx => by
    unfold Move.buffers at hx
    dsimp only at hx
    split at hx
    case isTrue => exact nomatch hx
    case isFalse =>
      obtain ⟨n, hn, hx⟩ := List.mem_flatMap.mp hx
      obtain ⟨cl, hcl, rfl⟩ := List.mem_map.mp hx
      obtain ⟨e, -, he⟩ := List.any_eq_true.mp (List.mem_filter.mp hcl).2
      have below := List.mem_range.mp hn
      simp only [TileBuf.touchedBy, Bool.and_eq_true, Bool.not_eq_true', bne_iff_ne] at he
      obtain ⟨-, ⟨⟨⟨en, unchecked⟩, landed⟩, -⟩, -⟩ := he
      rcases tags cl n below en landed with checked | good
      · exact absurd checked (Bool.eq_false_iff.mp unchecked)
      · exact ⟨below, good⟩
  obtain ⟨t, run, frame, bufs⟩ := checkBuffers_good good
  refine ⟨t.bufs, run.trans (congrArg Except.ok frame), fun cl n below => ?_⟩
  have same : bufAt { s with bufs := t.bufs } cl n = bufAt t cl n := rfl
  rw [same, bufs cl n below]
  split
  · rw [Bool.or_true]
  · rw [Bool.or_self]

theorem TilePlaces.slots_eq (places : TilePlaces s base stride cw d at') (positive : 0 < cw) (divides : cw ∣ 64) {es : List Nat}
    (below : ∀ e ∈ es, e < s.h.csr.vl) :
    (⟨base, stride, cw⟩ : Move).slots s es = es.map (fun e => ⟨e, at' e / 64 * 8, at' e % 64⟩) := by
  unfold Move.slots
  rw [← List.filterMap_eq_map]
  refine List.filterMap_congr fun e he => ?_
  obtain ⟨place, bit, -⟩ := places.slot positive divides (below e he)
  simp only [place, bit]
  rfl

theorem writesOf_closed (closed : s.h.strip = []) (w : Nat) : writesOf s w = [] := by
  simp [writesOf, closed]

/-- Without earlier writes a tile move reads memory as it stands. -/
theorem stripWord_closed (closed : s.h.strip = []) (tile : Bool) (g : Nat) : stripWord s tile g = wordAt s g := by
  unfold stripWord valueAt readPos
  rw [writesOf_closed closed]
  rfl

/-- What a load takes from a container. -/
def containerValue (s : State) (at' : Nat → Nat) (w e : Nat) : Nat := (wordAt s (at' e / 64 * 8)).toNat / 2 ^ (at' e % 64) % 2 ^ w

theorem containerValue_testBit {w e k : Nat} (inside : at' e % 64 + w ≤ 64) (hk : k < w) :
    (containerValue s at' w e).testBit k = memBit s (at' e + k) := by
  unfold containerValue memBit
  rw [Nat.testBit_mod_two_pow, decide_eq_true hk, Bool.true_and, Nat.testBit_div_two_pow]
  have dword := isDword_wordAt s (at' e / 64 * 8) (at' e % 64 + k) (by omega)
  refine (congrArg (Nat.testBit _) (Nat.add_comm _ _)).trans (dword.trans ?_)
  rw [show at' e / 64 * 8 + (at' e % 64 + k) / 8 = (at' e + k) / 8 by omega, show (at' e % 64 + k) % 8 = (at' e + k) % 8 by omega]

theorem masked_of_active {α : Type} {zero : α} {f f' : Nat → α} (same : ∀ e ∈ actives c s, f e = f' e) :
    masked c s zero f = masked c s zero f' := by
  funext e
  unfold masked
  split
  · split
    · next below on => rw [same e ((List.mem_filter).mpr ⟨List.mem_range.mpr below, on⟩)]
    · rfl
  · rfl

theorem onlyChecked_of_bufs {t : State} (same : t.bufs = s.bufs) : OnlyChecked s t := fun cl n _ => by
  have buf : bufAt t cl n = bufAt s cl n := congrArg (fun b => sget TileBuf.init b (cl * 64 + n)) same
  rw [buf, Bool.or_self]

/-- What a load takes from the container among `slots` that is the element's. -/
def slotValue (s : State) (w : Nat) (slots : List Slot) (e : Nat) : Nat :=
  match slots.find? (fun q => q.elem == e) with
  | some q => readSlot s w q
  | none => 0

theorem slotValue_of_mem (closed : s.h.strip = []) (w : Nat) {es : List Nat} {e : Nat} (mem : e ∈ es) :
    slotValue s w (es.map (fun e => ⟨e, at' e / 64 * 8, at' e % 64⟩)) e = containerValue s at' w e := by
  obtain ⟨q, found⟩ : ∃ q, (es.map (fun e => (⟨e, at' e / 64 * 8, at' e % 64⟩ : Slot))).find? (fun q => q.elem == e) = some q :=
    Option.isSome_iff_exists.mp (List.find?_isSome.mpr ⟨_, List.mem_map_of_mem mem, beq_self_eq_true e⟩)
  obtain ⟨x, -, rfl⟩ := List.mem_map.mp (List.mem_of_find?_eq_some found)
  have here := List.find?_some found
  have same : x = e := beq_iff_eq.mp here
  unfold slotValue
  rw [found, same]
  dsimp only
  rw [readSlot, stripWord_closed closed]
  rfl

theorem loadTile_of_checked {n : Nat} {D : Desc} {m : Move} {bufs : Sparse TileBuf} (inside : m.outside s = none)
    (checked : m.check s = .ok { s with bufs }) : ∃ notes bad, loadTile c n D m s = retire c (noteReads notes
      (writeElems { s with bufs } n D.w D.sgn (results c { s with bufs }
        (slotValue { s with bufs } D.w (m.slots { s with bufs } (actives c { s with bufs }))) bad))) := by
  unfold loadTile
  rw [inside]
  dsimp only
  rw [checked]
  exact ⟨_, _, rfl⟩

/-- Nothing but what a load writes changes. -/
def OnlyLoaded (c : Ctl) (s t : State) : Prop :=
  t = { s with planes := t.planes, poisonLane := t.poisonLane, armed := t.armed, calendar := t.calendar, bufs := t.bufs
               h := { s.h with pc := pcAfter c s, issued := true, stripReads := t.h.stripReads } }

theorem OnlyPlanes.retire_loaded {u : State} {bufs : Sparse TileBuf} (only : OnlyPlanes { s with bufs } u) (notes : List StripRead) :
    OnlyLoaded c s (retire c (noteReads notes u)) := by
  unfold OnlyLoaded
  rw [only.eq]
  simp only [retire, goTo, modH, noteReads, nextPc_eq]
  rfl

theorem loadTile_ready {n p : Nat} {D : Desc} (g : Granted s) (first : (vreg s n).first = some p) (fits : p + dOf s D.w ≤ 256)
    (whole : IsContainer D.w cw) (places : TilePlaces s base stride cw d at') (tags : TagsGood s) (closed : s.h.strip = []) :
    let t := loadTile c n D ⟨base, stride, cw⟩ s
    OnlyLoaded c s t ∧ OnlyChecked s t ∧ ElemsWritten s t n D.w (masked c s 0 (containerValue s at' D.w)) := by
  obtain ⟨positive, divides⟩ := isContainer_dvd whole
  dsimp only
  cases away : (⟨base, stride, cw⟩ : Move).outside s with
  | some kind =>
    have empty : s.h.csr.vl = 0 := by
      by_contra some_element
      rw [places.outside_none positive (Nat.pos_of_ne_zero some_element)] at away
      exact nomatch away
    have run : loadTile c n D ⟨base, stride, cw⟩ s = retire c (noteReads [] s) := by
      unfold loadTile
      rw [away]
      exact if_pos empty
    have written := writeElems_results g c first fits D.sgn (containerValue s at' D.w) (fun _ => false)
    rw [results_eq_nil empty, writeElems_nil] at written
    rw [run]
    exact ⟨OnlyPlanes.retire_loaded (bufs := s.bufs) rfl [], onlyChecked_of_bufs rfl, written⟩
  | none =>
    obtain ⟨bufs, checked, only⟩ := (⟨base, stride, cw⟩ : Move).check_good tags
    obtain ⟨notes, bad, run⟩ := loadTile_of_checked (c := c) (n := n) (D := D) away checked
    have below : ∀ e ∈ actives c s, e < s.h.csr.vl := fun e he => List.mem_range.mp (List.mem_filter.mp he).1
    have slots : (⟨base, stride, cw⟩ : Move).slots { s with bufs } (actives c { s with bufs }) = _ :=
      places.slots_eq positive divides below
    have granted : Granted { s with bufs } := g
    have written := writeElems_results granted c (n := n) first fits D.sgn
      (slotValue { s with bufs } D.w ((⟨base, stride, cw⟩ : Move).slots { s with bufs } (actives c { s with bufs }))) bad
    have planes := writeElems_onlyPlanes { s with bufs } n D.w D.sgn (results c { s with bufs }
      (slotValue { s with bufs } D.w ((⟨base, stride, cw⟩ : Move).slots { s with bufs } (actives c { s with bufs }))) bad)
    have values : masked c { s with bufs } 0 (slotValue { s with bufs } D.w ((⟨base, stride, cw⟩ : Move).slots { s with bufs }
        (actives c { s with bufs }))) = masked c s 0 (containerValue s at' D.w) := by
      rw [slots]
      exact masked_of_active fun e he => slotValue_of_mem (s := { s with bufs }) closed D.w he
    rw [values] at written
    rw [run]
    generalize writeElems _ _ _ _ _ = u at planes written ⊢
    refine ⟨OnlyPlanes.retire_loaded planes notes, ?checked, written⟩
    case checked =>
      have same : u.bufs = bufs := by rw [planes.eq]
      intro cl b hb
      have buf : bufAt (retire c (noteReads notes u)) cl b = bufAt { s with bufs } cl b :=
        congrArg (fun x => sget TileBuf.init x (cl * 64 + b)) same
      rw [buf]
      exact only cl b hb

theorem TilePlaces.touch (places : TilePlaces s base stride cw d at') (names : List Named) :
    TilePlaces (touchRegs s names) base stride cw d at' := by
  rw [touchRegs_eq]
  exact places

theorem TagsGood.touch (tags : TagsGood s) (names : List Named) : TagsGood (touchRegs s names) := by
  rw [touchRegs_eq]
  exact tags

/-- The move of a tile load or store. -/
theorem moveOf_eq {o : VX} {strided : Bool} {D : Desc} (whole : IsContainer D.w cw)
    (strides : stride = if strided then some (rx s o.xb) else none) :
    moveOf c o s strided D = ⟨rx s o.xa + c.imm, stride, cw⟩ := by
  rw [moveOf, container_of_isContainer whole, strides]

theorem tileLoad_loads {o : VX} {strided : Bool} {i : Instr} (run : exec i s = tileLoad c o s strided)
    (strides : stride = if strided then some (rx s o.xb) else none) (int : IntOp c s .d) (usable : Usable s [(o.vd, (descOf c s .d).w)])
    (g : Granted s) (whole : IsContainer (descOf c s .d).w cw) (places : TilePlaces s (rx s o.xa + c.imm) stride cw d at')
    (tags : TagsGood s) (closed : s.h.strip = []) :
    ∃ t, exec i s = .next t ∧
      t = { s with planes := t.planes, poisonLane := t.poisonLane, armed := t.armed, calendar := t.calendar, bufs := t.bufs
                   h := { s.h with pc := pcAfter c s, issued := true, refs := t.h.refs, regs := t.h.regs, stripReads := t.h.stripReads } } ∧
      Referenced [o.vd.toNat] s.h t.h ∧ OnlyChecked s t ∧
      ElemsWritten s t o.vd.toNat (descOf c s .d).w (masked c s 0 (containerValue s at' (descOf c s .d).w)) := by
  obtain ⟨p, first, fits⟩ := usable.destination (o := (o.vd, (descOf c s .d).w)) (by simp)
  have m : Names [dstNamed c o.vd (descOf c s .d).w] [(o.vd, (descOf c s .d).w)] := .cons ⟨rfl, rfl, le_rfl⟩ .nil
  unfold tileLoad at run
  dsimp only at run
  rw [moveOf_eq whole strides, places.trap_none (isContainer_dvd whole).1,
    vecFrame_prepared _ (usable.prepared m) (by simp [int.1]) int.accepted rfl] at run
  generalize [dstNamed c o.vd (descOf c s .d).w] = names at run m
  have touched := touchRegs_eq s names
  have refs := m.referenced s
  obtain ⟨only, checked, written⟩ := loadTile_ready (c := c) (s := touchRegs s names) (n := o.vd.toNat) (D := descOf c s .d) (g.touch names)
    ((vreg_touchRegs_first s names o.vd.toNat).trans first) (by simpa using fits) whole (places.touch names) (tags.touch names)
    (by rw [touched]; exact closed)
  refine ⟨_, run, ?frame, ?refs, ?checked, ?written⟩
  case written =>
    have values : containerValue (touchRegs s names) at' (descOf c s .d).w = containerValue s at' (descOf c s .d).w := by
      rw [touched]
      rfl
    rw [masked_touchRegs, values] at written
    exact written.of_touchRegs
  all_goals
    generalize loadTile _ _ _ _ _ = t at only checked written ⊢
    generalize touchRegs s names = u at touched refs only checked
    unfold OnlyLoaded at only
  case frame =>
    have regs : t.h.regs = u.h.regs := by rw [only]
    have count : t.h.refs = s.h.refs + 1 := by rw [only, touched]
    have pc : u.h.pc = s.h.pc := by rw [touched]
    rw [regs, count]
    rw [pcAfter_congr pc] at only
    conv_lhs => rw [only, touched]
  case refs => exact referenced_of_eq refs (by rw [only]) (by rw [only])
  case checked =>
    have same : ∀ cl b, bufAt u cl b = bufAt s cl b := fun cl b => by rw [touched]; rfl
    intro cl b hb
    rw [← same]
    exact checked cl b hb

end Sys2Proof.Machine
end

section
/-! Stores of a tile move, gathered word by word; where containers meet the later element stands (R194). -/
namespace Sys2Proof.Machine

/-- What the gathered stores put at bit `b` of storage; none where no container covers it. -/
def gatheredBit (ws : Sparse WordStore) (b : Nat) : Option Bool :=
  if (sget ⟨0, 0, false⟩ ws (b / 64 * 8)).mask.getLsbD (b % 64) then some ((sget ⟨0, 0, false⟩ ws (b / 64 * 8)).value.getLsbD (b % 64)) else none

theorem gatheredBit_nil (b : Nat) : gatheredBit [] b = none := by
  have zero : (0 : Word).getLsbD (b % 64) = false := BitVec.getLsbD_zero
  unfold gatheredBit
  rw [sget_nil]
  exact if_neg (by rw [zero]; exact Bool.false_ne_true)

theorem getLsbD_shifted (v : Nat) {n j : Nat} (inside : j < 64) :
    (BitVec.ofNat 64 (v * 2 ^ n)).getLsbD j = (decide (n ≤ j) && v.testBit (j - n)) := by
  rw [BitVec.getLsbD_ofNat, decide_eq_true inside, Bool.true_and, Nat.testBit_mul_two_pow]

theorem getLsbD_blend (mask a b : Word) {j : Nat} (inside : j < 64) :
    (blend mask a b).getLsbD j = if mask.getLsbD j then a.getLsbD j else b.getLsbD j := by
  unfold blend
  simp only [BitVec.getLsbD_or, BitVec.getLsbD_and, BitVec.getLsbD_not, decide_eq_true inside]
  cases mask.getLsbD j <;> simp

/-- One container more: its bits are its element's, the others stay. -/
theorem gatheredBit_gatherSlot {cw p : Nat} (fits : p % 64 + cw ≤ 64) (ws : Sparse WordStore) (e bits : Nat) (bad : Bool) (b : Nat) :
    gatheredBit (gatherSlot cw ws ⟨e, p / 64 * 8, p % 64⟩ bits bad) b =
      if p ≤ b ∧ b < p + cw then some (bits.testBit (b - p)) else gatheredBit ws b := by
  have inside : b % 64 < 64 := Nat.mod_lt _ (by decide)
  unfold gatheredBit gatherSlot
  dsimp only
  rw [sget_sput]
  by_cases same : b / 64 * 8 = p / 64 * 8
  · rw [if_pos same]
    simp only [BitVec.getLsbD_or, getLsbD_blend _ _ _ inside, getLsbD_shifted _ inside, Nat.testBit_two_pow_sub_one,
      Nat.testBit_mod_two_pow, same]
    by_cases covered : p ≤ b ∧ b < p + cw
    · rw [if_pos covered, show b % 64 - p % 64 = b - p by omega]
      simp [show p % 64 ≤ b % 64 by omega, show b - p < cw by omega]
    · rw [if_neg covered]
      have outside : (decide (p % 64 ≤ b % 64) && decide (b % 64 - p % 64 < cw)) = false := by
        simp only [Bool.and_eq_false_iff, decide_eq_false_iff_not]
        omega
      simp only [outside, Bool.or_false, Bool.false_eq_true, if_false]
  · rw [if_neg same, if_neg (show ¬(p ≤ b ∧ b < p + cw) by omega)]

/-- Keys of gathered stores rise, and each is a word's address. -/
def WordKeys (ws : Sparse WordStore) : Prop := ws.Pairwise (fun a b => a.1 < b.1) ∧ ∀ w ∈ ws, w.1 % 8 = 0

theorem WordKeys.gatherSlot {ws : Sparse WordStore} (keys : WordKeys ws) (cw p e bits : Nat) (bad : Bool) :
    WordKeys (gatherSlot cw ws ⟨e, p / 64 * 8, p % 64⟩ bits bad) := by
  obtain ⟨rising, words⟩ := keys
  refine ⟨pairwise_sput _ _ rising, fun w hw => ?_⟩
  rcases mem_sput hw with rfl | old
  · exact Nat.mul_mod_left _ _
  · exact words w old

/-- The containers of `es`, in order. -/
def gathered (cw : Nat) (at' bits : Nat → Nat) (bad : Nat → Bool) (es : List Nat) : Sparse WordStore :=
  es.foldl (fun ws e => gatherSlot cw ws ⟨e, at' e / 64 * 8, at' e % 64⟩ (bits e) (bad e)) []

section
variable {cw : Nat} {at' bits : Nat → Nat} {bad : Nat → Bool} {es : List Nat}

theorem wordKeys_gathered : WordKeys (gathered cw at' bits bad es) := by
  induction es using List.reverseRecOn with
  | nil => exact ⟨.nil, fun w hw => nomatch hw⟩
  | append_singleton r e ih =>
    unfold gathered at ih ⊢
    rw [List.foldl_append]
    exact ih.gatherSlot _ _ _ _ _

theorem gatheredBit_gathered (fits : ∀ e ∈ es, at' e % 64 + cw ≤ 64) (rising : es.Pairwise (· < ·)) (b : Nat) :
    ((∀ e ∈ es, ¬(at' e ≤ b ∧ b < at' e + cw)) → gatheredBit (gathered cw at' bits bad es) b = none) ∧
    ∀ e ∈ es, (at' e ≤ b ∧ b < at' e + cw) → (∀ k ∈ es, (at' k ≤ b ∧ b < at' k + cw) → k ≤ e) →
      gatheredBit (gathered cw at' bits bad es) b = some ((bits e).testBit (b - at' e)) := by
  induction es using List.reverseRecOn with
  | nil => exact ⟨fun _ => gatheredBit_nil b, fun e he => nomatch he⟩
  | append_singleton r x ih =>
    obtain ⟨rising_r, -, below⟩ := List.pairwise_append.mp rising
    obtain ⟨untouched, last⟩ := ih (fun e he => fits e (List.mem_append_left _ he)) rising_r
    have mine : x ∈ r ++ [x] := List.mem_append_right _ List.mem_cons_self
    have step : gatheredBit (gathered cw at' bits bad (r ++ [x])) b =
        if at' x ≤ b ∧ b < at' x + cw then some ((bits x).testBit (b - at' x)) else gatheredBit (gathered cw at' bits bad r) b := by
      rw [← gatheredBit_gatherSlot (fits x mine) (gathered cw at' bits bad r) x (bits x) (bad x) b]
      unfold gathered
      rw [List.foldl_append]
      rfl
    rw [step]
    refine ⟨fun none_covers => ?_, fun e he covers latest => ?_⟩
    · rw [if_neg (none_covers x mine)]
      exact untouched fun e he => none_covers e (List.mem_append_left _ he)
    · rcases List.mem_append.mp he with old | new
      · have earlier : e < x := below e old x List.mem_cons_self
        rw [if_neg fun covered => absurd (latest x mine covered) (by omega)]
        exact last e old covers fun k hk => latest k (List.mem_append_left _ hk)
      · obtain rfl := List.mem_singleton.mp new
        rw [if_pos covers]

end

/-! The words stored. -/

variable {s : State}

theorem wordAt_bit (s : State) (b : Nat) : (wordAt s (b / 64 * 8)).getLsbD (b % 64) = memBit s b := by
  rw [isDword_wordAt s _ _ (Nat.mod_lt _ (by decide)), memBit, show b / 64 * 8 + b % 64 / 8 = b / 8 by omega,
    show b % 64 % 8 = b % 8 by omega]

/-- A masked store of a word that the strip has neither written nor read. -/
theorem stripStore_fresh {g : Nat} (reads : s.h.stripReads = []) (fresh : ∀ e ∈ s.h.strip, e.word ≠ g / 8) (mask v : Word) (poison : Bool) :
    let t := stripStore s true g mask v poison
    OnlyStored s t ∧ t.h.stripReads = [] ∧ t.mem = putBytes s.mem g (toBytes 8 (blend mask v (wordAt s g)).toNat) ∧
    ∀ P : Nat → Prop, P (g / 8) → (∀ e ∈ s.h.strip, P e.word) → ∀ e ∈ t.h.strip, P e.word := by
  have none_there : writesOf s (g / 8) = [] := by
    unfold writesOf
    rw [List.filter_eq_nil_iff.mpr fun e he => by simpa using fresh e he]
    exact ite_self _
  have top : freePlace s g (writeFloor s true (g / 8)) = 0 := by
    have low := pickPos_placesDown_top s (2 ^ 90 + g / 8 * 64) (Nat.zero_le (writeFloor s true (g / 8)))
      (ok := fun p => !(([] : List StripWrite)[p]?).any (fun e => e.glued))
    unfold freePlace
    rw [none_there]
    exact low
  have beneath : valueAt s g 0 = wordAt s g := by
    unfold valueAt
    rw [none_there]
    rfl
  unfold stripStore storeAt
  dsimp only
  rw [top, none_there, beneath, List.drop_nil, List.foldl_nil]
  simp only [List.isEmpty_nil, if_true]
  have stacked := fun (P : Nat → Prop) (here : P (g / 8)) (others : ∀ e ∈ s.h.strip, P e.word) =>
    restack_all (P := fun e => P e.word) (fun e v same => same) (g / 8) 1 (blend mask v (wordAt s g))
      (es := insertWrite _ 0 (s.h.strip.filter (fun e => e.word != g / 8)))
      (insertWrite_all (w := ⟨g / 8, true, s.h.issueCy, mask, v, wordAt s g, false, false, false⟩) 0 here
        fun e he => others e (List.mem_filter.mp he).1)
  generalize restack _ _ _ _ = strip at stacked ⊢
  obtain ⟨frame, unarmed, mem_eq, -⟩ := putWord_spec s g (blend mask v (wordAt s g))
    (poison || (mask != 0xffffffffffffffff && sget false s.poisonWord (g / 8)))
  generalize putWord s g _ _ = p at frame unarmed mem_eq ⊢
  have reads_p : p.h.stripReads = [] := by rw [frame]; exact reads
  simp only [modH_h, reads_p, rebindReads]
  refine ⟨⟨?_, unarmed⟩, trivial, mem_eq, stacked⟩
  simp only [modH]
  rw [frame]

theorem byteOf_getLsbD (v : Word) (k : Nat) {j : Nat} (inside : j < 8) : (byteOf v k).getLsbD j = v.getLsbD (8 * k + j) := by
  rw [byteOf, BitVec.getLsbD_ofNat, decide_eq_true inside, Bool.true_and, Nat.testBit_div_two_pow, Nat.add_comm]
  rfl

theorem gatheredBit_cons (w : Nat × WordStore) (r : Sparse WordStore) (b : Nat) : gatheredBit (w :: r) b =
    if w.1 = b / 64 * 8 then (if w.2.mask.getLsbD (b % 64) then some (w.2.value.getLsbD (b % 64)) else none) else gatheredBit r b := by
  obtain ⟨k, v⟩ := w
  unfold gatheredBit
  rw [sget]
  split <;> rfl

theorem gatheredBit_absent {ws : Sparse WordStore} {b : Nat} (absent : ∀ w ∈ ws, w.1 ≠ b / 64 * 8) : gatheredBit ws b = none := by
  induction ws with
  | nil => exact gatheredBit_nil b
  | cons w r ih =>
    rw [gatheredBit_cons, if_neg (absent w List.mem_cons_self)]
    exact ih fun x hx => absent x (List.mem_cons_of_mem _ hx)

/-- Words stored one after the other: each covered bit takes its gathered value, the others stay. -/
theorem storeWords_spec (ws : Sparse WordStore) (keys : WordKeys ws) (s : State) (reads : s.h.stripReads = [])
    (fresh : ∀ e ∈ s.h.strip, ∀ w ∈ ws, e.word ≠ w.1 / 8) :
    let t := ws.foldl (fun s w => stripStore s true w.1 w.2.mask w.2.value w.2.poison) s
    OnlyStored s t ∧ t.h.stripReads = [] ∧ ∀ b, memBit t b = (gatheredBit ws b).getD (memBit s b) := by
  induction ws generalizing s with
  | nil => exact ⟨⟨rfl, fun unarmed => ⟨unarmed, rfl⟩⟩, reads, fun b => by rw [gatheredBit_nil]; rfl⟩
  | cons w r ih =>
    obtain ⟨rising, words⟩ := keys
    obtain ⟨above, rising_r⟩ := List.pairwise_cons.mp rising
    have whole := words w List.mem_cons_self
    have whole_r := fun x hx => words x (List.mem_cons_of_mem _ hx)
    obtain ⟨only, reads', mem_eq, strip⟩ := stripStore_fresh reads (fun e he => fresh e he w List.mem_cons_self) w.2.mask w.2.value w.2.poison
    obtain ⟨only', reads'', bits⟩ := ih ⟨rising_r, whole_r⟩ (stripStore s true w.1 w.2.mask w.2.value w.2.poison) reads'
      fun e he x hx => strip (fun word => word ≠ x.1 / 8) (by have := above x hx; have := whole_r x hx; omega)
        (fun e he => fresh e he x (List.mem_cons_of_mem _ hx)) e he
    refine ⟨only.trans only', reads'', fun b => ?_⟩
    have one : memBit (stripStore s true w.1 w.2.mask w.2.value w.2.poison) b =
        if w.1 = b / 64 * 8 then (if w.2.mask.getLsbD (b % 64) then w.2.value.getLsbD (b % 64) else memBit s b) else memBit s b := by
      unfold memBit
      rw [mem_eq, sget_putDword]
      by_cases here : w.1 = b / 64 * 8
      · rw [if_pos (by omega), if_pos here, byteOf_getLsbD _ _ (by omega), show 8 * (b / 8 - w.1) + b % 8 = b % 64 by omega,
          getLsbD_blend _ _ _ (by omega), here, wordAt_bit]
        rfl
      · rw [if_neg (by omega), if_neg here]
    rw [List.foldl_cons, bits b, one, gatheredBit_cons]
    by_cases here : w.1 = b / 64 * 8
    · rw [if_pos here, if_pos here, gatheredBit_absent fun x hx => by have := above x hx; omega]
      split <;> rfl
    · rw [if_neg here, if_neg here]

end Sys2Proof.Machine
end

section
/-! TST and TSTX (R193, R194). -/
namespace Sys2Proof.Machine

variable {s : State} {c : Ctl} {base : Word} {stride : Option Word} {cw : Nat} {d : Option Nat} {at' : Nat → Nat}

/-- The container of an element: its value, then sign bits or zeros (R193). -/
theorem containerBits_testBit {A : Desc} {v k : Nat} (small : v < 2 ^ A.w) (fits : A.w ≤ cw) (inside : k < cw) :
    (containerBits A cw v).testBit k = if k < A.w then v.testBit k else A.sgn && v.testBit (A.w - 1) := by
  have above (high : A.w ≤ k) : v.testBit k = false := Nat.testBit_lt_two_pow (small.trans_le (Nat.pow_le_pow_right (by decide) high))
  unfold containerBits
  cases extended : A.sgn && v.testBit (A.w - 1) with
  | false =>
    rw [if_neg Bool.false_ne_true]
    split
    · rfl
    · next high => exact above (Nat.le_of_not_lt high)
  | true =>
    have split_width : 2 ^ cw - 2 ^ A.w = 2 ^ A.w * (2 ^ (cw - A.w) - 1) := by
      rw [Nat.mul_sub, ← Nat.pow_add, Nat.add_sub_cancel' fits, Nat.mul_one]
    rw [if_pos rfl, split_width, Nat.add_comm, Nat.testBit_two_pow_mul_add _ small]
    split
    · rfl
    · rw [Nat.testBit_two_pow_sub_one]
      exact decide_eq_true (by omega)

/-- Nothing but what a store writes changes. -/
def OnlyTileStored (c : Ctl) (s t : State) : Prop :=
  t = { s with mem := t.mem, poisonWord := t.poisonWord, armed := t.armed, calendar := t.calendar, bufs := t.bufs, writers := t.writers
               h := { s.h with pc := pcAfter c s, issued := true, strip := t.h.strip } }

theorem OnlyStored.retire_tileStored {u : State} {bufs : Sparse TileBuf} (only : OnlyStored { s with bufs } u)
    (reads : u.h.stripReads = s.h.stripReads) : OnlyTileStored c s (retire c u) := by
  obtain ⟨frame, -⟩ := only
  unfold OnlyTileStored
  rw [reads] at frame
  have pc : u.h.pc = s.h.pc := by rw [frame]
  have same : u.bufs = bufs := by rw [frame]
  simp only [retire, goTo, modH, nextPc_eq, pcAfter_congr pc, same]
  conv_lhs => rw [frame]

theorem storeTile_of_checked {n : Nat} {A : Desc} {m : Move} {bufs : Sparse TileBuf} (inside : m.outside s = none)
    (checked : m.check s = .ok { s with bufs })
    (slots : m.slots { s with bufs } (actives c { s with bufs }) = (actives c s).map (fun e => ⟨e, at' e / 64 * 8, at' e % 64⟩)) :
    ∃ bad, storeTile c n A m s = retire c ((gathered m.cw at' (fun e => containerBits A m.cw (elemBits s n A.w e)) bad (actives c s)).foldl
      (fun s w => stripStore s true w.1 w.2.mask w.2.value w.2.poison) { s with bufs }) := by
  unfold storeTile
  rw [inside]
  dsimp only
  rw [checked]
  dsimp only
  rw [slots, List.foldl_map]
  exact ⟨_, rfl⟩

/-- Bit `b` after a store: the latest active container that covers it, else what was there. -/
def StoredBits (c : Ctl) (s t : State) (at' : Nat → Nat) (cw : Nat) (A : Desc) (v : Nat → Nat) : Prop :=
  ∀ b, ((∀ e ∈ actives c s, ¬(at' e ≤ b ∧ b < at' e + cw)) → memBit t b = memBit s b) ∧
    ∀ e ∈ actives c s, at' e ≤ b ∧ b < at' e + cw → (∀ k ∈ actives c s, at' k ≤ b ∧ b < at' k + cw → k ≤ e) →
      memBit t b = if b - at' e < A.w then (v e).testBit (b - at' e) else A.sgn && (v e).testBit (A.w - 1)

theorem storeTile_ready {n : Nat} {A : Desc} (whole : IsContainer A.w cw) (places : TilePlaces s base stride cw d at')
    (tags : TagsGood s) (closed : s.h.strip = []) (reads : s.h.stripReads = []) :
    let t := storeTile c n A ⟨base, stride, cw⟩ s
    OnlyTileStored c s t ∧ OnlyChecked s t ∧ StoredBits c s t at' cw A (elemBits s n A.w) := by
  obtain ⟨positive, divides⟩ := isContainer_dvd whole
  have below : ∀ e ∈ actives c s, e < s.h.csr.vl := fun e he => List.mem_range.mp (List.mem_filter.mp he).1
  dsimp only
  cases away : (⟨base, stride, cw⟩ : Move).outside s with
  | some kind =>
    have empty : s.h.csr.vl = 0 := by
      by_contra some_element
      rw [places.outside_none positive (Nat.pos_of_ne_zero some_element)] at away
      exact nomatch away
    have run : storeTile c n A ⟨base, stride, cw⟩ s = retire c s := by
      unfold storeTile
      rw [away]
      exact congrArg (retire c) (if_pos empty)
    rw [run]
    refine ⟨OnlyStored.retire_tileStored (bufs := s.bufs) ⟨rfl, fun unarmed => ⟨unarmed, rfl⟩⟩ rfl, onlyChecked_of_bufs rfl,
      fun b => ⟨fun _ => rfl, fun e he => ?_⟩⟩
    have := below e he
    omega
  | none =>
    obtain ⟨bufs, checked, only⟩ := (⟨base, stride, cw⟩ : Move).check_good tags
    have slots : (⟨base, stride, cw⟩ : Move).slots { s with bufs } (actives c { s with bufs }) = _ :=
      places.slots_eq positive divides below
    obtain ⟨bad, run⟩ := storeTile_of_checked (n := n) (A := A) away checked slots
    have fits : ∀ e ∈ actives c s, at' e % 64 + cw ≤ 64 := fun e he => (places.slot positive divides (below e he)).2.2
    obtain ⟨stored, reads', bits⟩ := storeWords_spec _ (wordKeys_gathered (cw := cw) (at' := at')
      (bits := fun e => containerBits A cw (elemBits s n A.w e)) (bad := bad) (es := actives c s)) { s with bufs } reads
      (fun e he => by rw [show s.h.strip = [] from closed] at he; exact nomatch he)
    have covered := gatheredBit_gathered (bits := fun e => containerBits A cw (elemBits s n A.w e)) (bad := bad) fits
      (List.pairwise_lt_range.filter _)
    rw [run]
    dsimp only at bits ⊢
    generalize List.foldl _ _ _ = u at stored reads' bits ⊢
    refine ⟨stored.retire_tileStored (reads'.trans reads.symm), ?checked, fun b => ?bits⟩
    case checked =>
      have same : u.bufs = bufs := by rw [stored.1]
      intro cl n hn
      have buf : bufAt (retire c u) cl n = bufAt { s with bufs } cl n := congrArg (fun x => sget TileBuf.init x (cl * 64 + n)) same
      rw [buf]
      exact only cl n hn
    case bits =>
      obtain ⟨untouched, last⟩ := covered b
      have after : memBit (retire c u) b = (gatheredBit _ b).getD (memBit s b) := bits b
      refine ⟨fun none_covers => ?_, fun e he covers latest => ?_⟩
      · rw [after, untouched none_covers]
        rfl
      · rw [after, last e he covers latest, Option.getD_some, containerBits_testBit (elemBits_lt s n A.w e) whole.1 (by omega)]

theorem tileStore_stores {o : VX} {strided : Bool} {i : Instr} (run : exec i s = tileStore c o s strided)
    (strides : stride = if strided then some (rx s o.xb) else none) (int : IntOp c s .a) (usable : Usable s [(o.vd, (descOf c s .a).w)])
    (whole : IsContainer (descOf c s .a).w cw) (places : TilePlaces s (rx s o.xa + c.imm) stride cw d at')
    (tags : TagsGood s) (closed : s.h.strip = []) (reads : s.h.stripReads = []) :
    ∃ t, exec i s = .next t ∧
      t = { s with mem := t.mem, poisonWord := t.poisonWord, armed := t.armed, calendar := t.calendar, bufs := t.bufs
                   writers := t.writers
                   h := { s.h with pc := pcAfter c s, issued := true, refs := t.h.refs, regs := t.h.regs, strip := t.h.strip } } ∧
      Referenced [o.vd.toNat] s.h t.h ∧ OnlyChecked s t ∧
      StoredBits c s t at' cw (descOf c s .a) (elemBits s o.vd.toNat (descOf c s .a).w) := by
  have m : Names [srcNamed o.vd (descOf c s .a).w] [(o.vd, (descOf c s .a).w)] := .cons ⟨rfl, rfl, le_rfl⟩ .nil
  unfold tileStore at run
  dsimp only at run
  rw [moveOf_eq whole strides, places.trap_none (isContainer_dvd whole).1,
    vecFrame_prepared _ (usable.prepared m) (by simp [int.1]) int.accepted rfl] at run
  generalize [srcNamed o.vd (descOf c s .a).w] = names at run m
  have touched := touchRegs_eq s names
  have refs := m.referenced s
  obtain ⟨only, checked, stored⟩ := storeTile_ready (c := c) (s := touchRegs s names) (n := o.vd.toNat) (A := descOf c s .a) whole
    (places.touch names) (tags.touch names) (by rw [touched]; exact closed) (by rw [touched]; exact reads)
  have values : elemBits (touchRegs s names) o.vd.toNat (descOf c s .a).w = elemBits s o.vd.toNat (descOf c s .a).w :=
    funext fun e => elemBits_touchRegs s names _ _ e
  have same_actives := actives_touchRegs c s names
  have same_bits : ∀ b, memBit (touchRegs s names) b = memBit s b := fun b => by rw [touched]; rfl
  unfold StoredBits at stored
  rw [values, same_actives] at stored
  simp only [same_bits] at stored
  refine ⟨_, run, ?frame, ?refs, ?checked, stored⟩
  all_goals
    generalize storeTile _ _ _ _ _ = t at only checked stored ⊢
    generalize touchRegs s names = u at touched refs only checked
    unfold OnlyTileStored at only
  case frame =>
    have regs : t.h.regs = u.h.regs := by rw [only]
    have count : t.h.refs = s.h.refs + 1 := by rw [only, touched]
    have pc : u.h.pc = s.h.pc := by rw [touched]
    rw [regs, count]
    rw [pcAfter_congr pc] at only
    conv_lhs => rw [only, touched]
  case refs => exact referenced_of_eq refs (by rw [only]) (by rw [only])
  case checked =>
    have same : ∀ cl b, bufAt u cl b = bufAt s cl b := fun cl b => by rw [touched]; rfl
    intro cl b hb
    rw [← same]
    exact checked cl b hb

end Sys2Proof.Machine

open Sys2Proof Sys2Proof.Machine

/-- Settles O18: a load takes the low bits of each container, and a store leaves in each bit the latest container that covers it. -/
theorem tileMoves : Obligations.TileMoves := by
  unfold Obligations.TileMoves
  dsimp only
  refine ⟨fun c o s i stride move cw d at' int usable g whole places tags closed => ?load,
    fun c o s i stride move cw d at' int usable whole places tags closed reads => ?store⟩
  case load =>
    obtain ⟨strided, move_run, strides⟩ : ∃ strided : Bool, exec i s = tileLoad c o s strided ∧
        stride = if strided then some (rx s o.xb) else none := by
      simp only [List.mem_cons, Prod.mk.injEq, List.not_mem_nil, or_false] at move
      obtain ⟨rfl, strides⟩ | ⟨rfl, strides⟩ := move
      · exact ⟨false, rfl, strides⟩
      · exact ⟨true, rfl, strides⟩
    obtain ⟨t, run, frame, refs, checked, written⟩ := tileLoad_loads move_run strides int usable g whole places tags closed
    refine ⟨t, containerValue s at' (descOf c s .d).w, run, frame, refs, checked, fun e k below hk => ?_, written⟩
    obtain ⟨positive, divides⟩ := isContainer_dvd whole
    have fits := (places.slot positive divides below).2.2
    exact containerValue_testBit (by have := whole.1; omega) hk
  case store =>
    obtain ⟨strided, move_run, strides⟩ : ∃ strided : Bool, exec i s = tileStore c o s strided ∧
        stride = if strided then some (rx s o.xb) else none := by
      simp only [List.mem_cons, Prod.mk.injEq, List.not_mem_nil, or_false] at move
      obtain ⟨rfl, strides⟩ | ⟨rfl, strides⟩ := move
      · exact ⟨false, rfl, strides⟩
      · exact ⟨true, rfl, strides⟩
    obtain ⟨t, run, frame, refs, checked, stored⟩ := tileStore_stores move_run strides int usable whole places tags closed reads
    refine ⟨t, run, frame, refs, checked, fun b => ?_⟩
    obtain ⟨untouched, last⟩ := stored b
    have active : ∀ e, e ∈ actives c s ↔ e < s.h.csr.vl ∧ predBit s c.pred.toNat e = true := fun e => by simp [actives, elems]
    refine ⟨fun none_covers => untouched fun e he covered => ?_, fun e covers latest => ?_⟩
    · obtain ⟨below, on⟩ := (active e).mp he
      exact none_covers e ⟨below, on, covered⟩
    · obtain ⟨below, on, covered⟩ := covers
      refine last e ((active e).mpr ⟨below, on⟩) covered fun k hk covered' => ?_
      obtain ⟨below', on'⟩ := (active k).mp hk
      exact latest k ⟨below', on', covered'⟩
end

section
/-! What the engines and the host read and write over several lines of plain virtual memory (R96, R328). -/
namespace Sys2Proof.Machine

variable {s t : State} {w : Who} {R R' : Nat → Prop}

/-! The range is cut at line boundaries. -/

theorem pieces_fuel : ∀ (fuel fuel' a n : Nat), a % 512 + n ≤ 512 * fuel → a % 512 + n ≤ 512 * fuel' → pieces fuel a n = pieces fuel' a n := by
  intro fuel
  induction fuel with
  | zero =>
    intro fuel' a n enough _
    rw [show n = 0 by omega, pieces_nothing, pieces_nothing]
  | succ fuel ih =>
    intro fuel' a n enough enough'
    by_cases none_left : n = 0
    · rw [none_left, pieces_nothing, pieces_nothing]
    · obtain ⟨fuel', rfl⟩ : ∃ k, fuel' = k + 1 := ⟨fuel' - 1, by omega⟩
      unfold pieces
      rw [if_neg none_left, if_neg none_left]
      refine congrArg (_ :: ·) ?_
      by_cases last : n ≤ 512 - a % 512
      · rw [min_eq_left last, Nat.sub_self, pieces_nothing, pieces_nothing]
      · rw [min_eq_right (by omega)]
        exact ih _ _ _ (by omega) (by omega)

theorem cut_nothing (a : Nat) : cut a 0 = [] := pieces_nothing _ _

/-- A range is its part of the first line, then the rest. -/
theorem cut_cons {a n : Nat} (some_bytes : 0 < n) :
    cut a n = (a, min n (512 - a % 512)) :: cut (a + min n (512 - a % 512)) (n - min n (512 - a % 512)) := by
  unfold cut
  conv_lhs => rw [show n / 512 + 2 = (n / 512 + 1) + 1 from rfl, pieces, if_neg some_bytes.ne']
  refine congrArg (_ :: ·) ?_
  by_cases last : n ≤ 512 - a % 512
  · rw [min_eq_left last, Nat.sub_self, pieces_nothing, pieces_nothing]
  · rw [min_eq_right (by omega)]
    exact pieces_fuel _ _ _ _ (by omega) (by omega)

/-! A line noted in the caches. -/

/-- Only the caches change; the line's tags are its own, those of the others stay. -/
theorem noteLine_spec {lo : Nat} {x : Xlat} (line : PlainLine s w lo x) : ∃ caches, noteLine s w.part x = { s with caches } ∧
    (∀ t ∈ sget [] caches.tags (x.pa / 512), t = x.tag w.part) ∧ ∀ k, k ≠ x.pa / 512 → sget [] caches.tags k = sget [] s.caches.tags k := by
  obtain ⟨-, -, -, -, tags⟩ := line
  unfold noteLine
  dsimp only
  split
  · exact ⟨s.caches, rfl, tags, fun _ _ => rfl⟩
  · refine ⟨_, rfl, ?_, fun k other => ?_⟩
    · dsimp only
      split
      · exact tags
      · rw [sget_sset, if_pos rfl]
        intro t ht
        rcases List.mem_append.mp ht with old | new
        · exact tags t old
        · exact List.mem_singleton.mp new
    · dsimp only
      split
      · rfl
      · rw [sget_sset, if_neg other]

/-- Plain bytes stay plain where only memory behind them changes and their lines keep no other tag. -/
theorem PlainVa.keep (v : PlainVa s w R) (sub : ∀ a, R' a → R a) (frame : t = { s with mem := t.mem, caches := t.caches })
    (outside : ∀ p, (∀ a, R a → vpa s w a ≠ p) → sget 0 t.mem p = sget 0 s.mem p)
    (own : ∀ a x, R' a → PlainLine s w a x → ∀ tag ∈ sget [] t.caches.tags (x.pa / 512), tag = x.tag w.part) :
    PlainVa t w R' ∧ ∀ a, vpa t w a = vpa s w a := by
  have line : ∀ {lo : Nat}, R lo → ∃ x, PlainLine s w lo x := fun inside => v.line inside
  obtain ⟨no_migration, no_poison, unarmed, mapped, apart, apart_lines, stable⟩ := v
  have same := stable t frame outside
  have places : ∀ a, vpa t w a = vpa s w a := fun a => by unfold vpa; rw [same]
  refine ⟨⟨by rw [frame]; exact no_migration, by rw [frame]; exact no_poison, by rw [frame]; exact unarmed, fun a ha => ?_,
    fun a b ha hb => ?_, fun a b ha hb => ?_, fun u frame' outside' va wr => ?_⟩, places⟩
  · obtain ⟨x, plain⟩ := line (sub a ha)
    obtain ⟨small, -⟩ := mapped a (sub a ha)
    have tags := own a x ha plain
    obtain ⟨-, -, found, unique, -⟩ := plain
    exact ⟨small, x, (same a true).trans found, unique, tags⟩
  · rw [places, places]
    exact apart a b (sub a ha) (sub b hb)
  · rw [places, places]
    exact apart_lines a b (sub a ha) (sub b hb)
  · have whole : u = { s with mem := u.mem, caches := u.caches } := by
      rw [frame] at frame'
      exact frame'
    have kept : ∀ p, (∀ a, R a → vpa s w a ≠ p) → sget 0 u.mem p = sget 0 s.mem p := fun p free =>
      (outside' p fun a ha => places a ▸ free a (sub a ha)).trans (outside p free)
    rw [stable u whole kept, same]

/-- Plain bytes stay plain where only memory behind them and the tags of other lines change. -/
theorem PlainVa.after (v : PlainVa s w R) (sub : ∀ a, R' a → R a) (frame : t = { s with mem := t.mem, caches := t.caches })
    (outside : ∀ p, (∀ a, R a → vpa s w a ≠ p) → sget 0 t.mem p = sget 0 s.mem p)
    (tags : ∀ a, R' a → sget [] t.caches.tags (vpa s w a / 512) = sget [] s.caches.tags (vpa s w a / 512)) :
    PlainVa t w R' ∧ ∀ a, vpa t w a = vpa s w a := by
  refine v.keep sub frame outside fun a x ha line => ?_
  have place : vpa s w a = x.pa := (vpa_of_line (m := 0) line rfl).trans (Nat.add_zero _)
  have kept := tags a ha
  rw [place] at kept
  obtain ⟨-, -, -, -, own⟩ := line
  exact kept ▸ own

theorem PlainVa.sub (v : PlainVa s w R) (sub : ∀ a, R' a → R a) : PlainVa s w R' :=
  (v.after sub rfl (fun _ _ => rfl) fun _ _ => rfl).1

/-- The bytes of a line behind one another. -/
theorem bytesAt_of_line {lo n : Nat} {x : Xlat} (line : PlainLine s w lo x) (fits : lo % 512 + n ≤ 512) :
    bytesAt s.mem x.pa n = (List.range n).map (fun k => vbyte s w (lo + k)) := by
  unfold bytesAt vbyte
  refine List.map_congr_left fun k hk => ?_
  have := List.mem_range.mp hk
  rw [vpa_of_line line (by omega)]

theorem vbytes_split (s : State) (w : Who) (a k n : Nat) (le : k ≤ n) : (List.range n).map (fun i => vbyte s w (a + i)) =
    (List.range k).map (fun i => vbyte s w (a + i)) ++ (List.range (n - k)).map (fun i => vbyte s w (a + k + i)) := by
  conv_lhs => rw [← Nat.add_sub_cancel' le, List.range_add, List.map_append, List.map_map]
  simp only [Function.comp_def, Nat.add_assoc]

/-- A fold that notes and reads the lines of a plain range one after the other. -/
theorem foldl_reads {β : Type} {f : β → Nat × Nat → β} {wrap : State × List Byte → β}
    (step : ∀ (s : State) (bs : List Byte) (lo n : Nat) (x : Xlat), PlainLine s w lo x → 0 < n → lo % 512 + n ≤ 512 →
      f (wrap (s, bs)) (lo, n) = wrap (noteLine s w.part x, bs ++ bytesAt s.mem x.pa n)) (n : Nat) :
    ∀ (a : Nat) (s : State) (bs : List Byte), PlainVa s w (fun x => a ≤ x ∧ x < a + n) →
      ∃ caches, (cut a n).foldl f (wrap (s, bs)) = wrap ({ s with caches }, bs ++ (List.range n).map (fun k => vbyte s w (a + k))) := by
  induction n using Nat.strong_induction_on with
  | _ n ih =>
    intro a s bs v
    by_cases none_left : n = 0
    · subst none_left
      exact ⟨s.caches, by rw [cut_nothing]; simp⟩
    · have some_bytes := Nat.pos_of_ne_zero none_left
      obtain ⟨x, line⟩ := v.line ⟨le_rfl, by omega⟩
      obtain ⟨noted, noted_eq, -, others⟩ := noteLine_spec line
      have place : vpa s w a = x.pa := (vpa_of_line (m := 0) line rfl).trans (Nat.add_zero _)
      have first : 0 < min n (512 - a % 512) := by have := Nat.mod_lt a (by decide : 512 > 0); omega
      generalize k_eq : min n (512 - a % 512) = k at first
      have read := step s bs a k x line first (by omega)
      obtain ⟨rest, places⟩ := v.after (t := { s with caches := noted }) (R' := fun x => a + k ≤ x ∧ x < a + k + (n - k))
        (fun y hy => by omega) rfl (fun p _ => rfl) fun y hy => others _ fun same => by
          have := v.2.2.2.2.2.1 y a (by omega) ⟨le_rfl, by omega⟩ (by rw [same, place])
          omega
      have bytes : ∀ b, vbyte { s with caches := noted } w b = vbyte s w b := fun b => congrArg (sget 0 s.mem) (places b)
      obtain ⟨caches, more⟩ := ih (n - k) (by omega) (a + k) { s with caches := noted } (bs ++ bytesAt s.mem x.pa k) rest
      refine ⟨caches, ?_⟩
      rw [cut_cons some_bytes, k_eq, List.foldl_cons, read, noted_eq, more]
      simp only [bytes]
      rw [bytesAt_of_line line (by omega), List.append_assoc, ← vbytes_split s w a k n (by omega)]

theorem settle_still (no_migration : s.migrations = []) (part asid va : Nat) : settle s part asid va = s := by
  simp [settle, migrationOf, no_migration]

/-- What an engine reads of a plain range: its bytes. -/
theorem vaRead_plain {a n : Nat} (v : PlainVa s w (fun x => a ≤ x ∧ x < a + n)) (tolerant : Bool) :
    ∃ caches, vaRead s w.part w.asid w.die a n tolerant = .ok ({ s with caches }, (List.range n).map (fun k => vbyte s w (a + k))) := by
  unfold vaRead
  refine foldl_reads (wrap := Except.ok) (fun s bs lo n x line some_bytes fits => ?_) n a s [] v
  obtain ⟨no_migration, no_poison, found, -, tags⟩ := line
  have clean : hbmPoisoned s x.pa n = false := by simp [hbmPoisoned, no_poison]
  have once : mappedTwice s w.part x = false := List.any_eq_false.mpr fun t ht => by simp [tags t ht]
  simp only [settle_still no_migration, translate_read found, clean, Bool.and_false, Bool.false_eq_true, if_false, lineBytes, once]

/-! Writes. -/

/-- Bytes stored on a page that is not replicated, with no sector poisoned and no error armed. -/
theorem hbmStore_plain (no_poison : s.poisonHbm = []) (unarmed : s.armed = []) {x : Xlat} (unique : pteRepl x.leaf = false)
    (part from_ issuer q : Nat) (bs : List Byte) (who : Nat × Nat) :
    hbmStore s part from_ issuer q x bs who = { s with mem := putBytes s.mem x.pa bs } := by
  unfold hbmStore putHbm strikeHbm
  simp only [unique, Bool.not_false, if_true, no_poison, unarmed, List.isEmpty_nil]

theorem foldl_writes {f : State × Option AccessErr → Nat × Nat → State × Option AccessErr} {lo₀ : Nat} {bs : List Byte}
    (step : ∀ (s : State) (lo n : Nat) (x : Xlat), PlainLine s w lo x → s.armed = [] → 0 < n → lo % 512 + n ≤ 512 →
      f (s, none) (lo, n) = ({ noteLine s w.part x with mem := putBytes s.mem x.pa ((bs.drop (lo - lo₀)).take n) }, none)) (n : Nat) :
    ∀ (a : Nat) (s : State), lo₀ ≤ a → a + n = lo₀ + bs.length → PlainVa s w (fun x => a ≤ x ∧ x < a + n) →
      ∃ mem caches, (cut a n).foldl f (s, none) = ({ s with mem, caches }, none) ∧
        VaBecomes s { s with mem, caches } w (fun x => a ≤ x ∧ x < a + n) (fun x => bs.getD (x - lo₀) 0) := by
  induction n using Nat.strong_induction_on with
  | _ n ih =>
    intro a s above ends v
    by_cases none_left : n = 0
    · subst none_left
      exact ⟨s.mem, s.caches, by rw [cut_nothing]; rfl, fun x hx => by omega, fun p _ => rfl⟩
    · have some_bytes := Nat.pos_of_ne_zero none_left
      obtain ⟨x, line⟩ := v.line ⟨le_rfl, by omega⟩
      obtain ⟨noted, noted_eq, -, others⟩ := noteLine_spec line
      have place : vpa s w a = x.pa := (vpa_of_line (m := 0) line rfl).trans (Nat.add_zero _)
      have first : 0 < min n (512 - a % 512) := by have := Nat.mod_lt a (by decide : 512 > 0); omega
      generalize k_eq : min n (512 - a % 512) = k at first
      have write := step s a k x line v.2.2.1 first (by omega)
      have taken : ((bs.drop (a - lo₀)).take k).length = k := by rw [List.length_take, List.length_drop]; omega
      have inLine : ∀ i, i < k → vpa s w (a + i) = x.pa + i := fun i hi => vpa_of_line line (by omega)
      have stored : ∀ p, sget 0 (putBytes s.mem x.pa ((bs.drop (a - lo₀)).take k)) p =
          if x.pa ≤ p ∧ p < x.pa + k then bs.getD (a - lo₀ + (p - x.pa)) 0 else sget 0 s.mem p := fun p => by
        rw [sget_putBytes, taken]
        refine ite_congr rfl (fun inside => ?_) fun _ => rfl
        rw [List.getD_eq_getElem?_getD, List.getElem?_take_of_lt (by omega), List.getElem?_drop, List.getD_eq_getElem?_getD]
      obtain ⟨rest, places⟩ := v.after (t := { s with mem := putBytes s.mem x.pa ((bs.drop (a - lo₀)).take k), caches := noted })
        (R' := fun x => a + k ≤ x ∧ x < a + k + (n - k)) (fun y hy => by omega) rfl
        (fun p free => by
          dsimp only
          rw [stored p, if_neg fun inside => free (a + (p - x.pa)) (by omega) (by rw [inLine _ (by omega)]; omega)])
        fun y hy => others _ fun same => by
          have := v.2.2.2.2.2.1 y a (by omega) ⟨le_rfl, by omega⟩ (by rw [same, place])
          omega
      obtain ⟨mem, caches, more, becomes, kept⟩ := ih (n - k) (by omega) (a + k)
        { s with mem := putBytes s.mem x.pa ((bs.drop (a - lo₀)).take k), caches := noted } (by omega) (by omega) rest
      simp only [places] at becomes kept
      refine ⟨mem, caches, ?_, fun y hy => ?_, fun p free => ?_⟩
      · rw [cut_cons some_bytes, k_eq, List.foldl_cons, write, noted_eq, more]
      · by_cases early : y < a + k
        · obtain ⟨i, rfl⟩ := Nat.exists_eq_add_of_le hy.1
          dsimp only
          rw [kept _ fun z hz same => by have := v.2.2.2.2.1 z (a + i) (by omega) hy same; omega]
          rw [stored, inLine i (by omega), if_pos (by omega), show x.pa + i - x.pa = i by omega, show a - lo₀ + i = a + i - lo₀ by omega]
        · exact becomes y (by omega)
      · rw [kept p fun z hz => free z (by omega)]
        rw [stored, if_neg fun inside => free (a + (p - x.pa)) (by omega) (by rw [inLine _ (by omega)]; omega)]

/-- A write of a plain range: its bytes become those written, no other byte changes. -/
theorem vaWrite_plain {a : Nat} {bs : List Byte} (v : PlainVa s w (fun x => a ≤ x ∧ x < a + bs.length)) (issuer : Nat) (who : Nat × Nat) :
    ∃ mem caches, vaWrite s w.part w.asid w.die issuer a bs who = ({ s with mem, caches }, none) ∧
      VaBecomes s { s with mem, caches } w (fun x => a ≤ x ∧ x < a + bs.length) (fun x => bs.getD (x - a) 0) := by
  unfold vaWrite
  refine foldl_writes (fun s lo n x line unarmed some_bytes fits => ?_) bs.length a s le_rfl rfl v
  obtain ⟨noted, noted_eq, -⟩ := noteLine_spec line
  obtain ⟨no_migration, no_poison, found, unique, tags⟩ := line
  simp only [settle_still no_migration, found, noted_eq, hbmStore_plain (s := { s with caches := noted }) no_poison unarmed unique]

end Sys2Proof.Machine
end

section
/-! The registers of BAR0, DIEMAP, SHARE and the host's logs (R326 to R331, R356). -/
namespace Sys2Proof.Machine

variable {s : State}

theorem modPart_spec (s : State) {p : Nat} (hp : p < 4) (f : Part → Part) : ∃ parts, modPart s p f = { s with parts } ∧
    ∀ q, q < 4 → partAt { s with parts } q = if q = p then f (partAt s q) else partAt s q := by
  refine ⟨s.parts.set p (f s.parts[p]) hp, by rw [modPart, dif_pos hp], fun q hq => ?_⟩
  unfold partAt
  rw [dif_pos hq, dif_pos hq, Vector.getElem_set]
  by_cases same : p = q
  · subst same
    simp
  · rw [if_neg same, if_neg (Ne.symm same)]

/-- Partition `p` is changed by `f`, the others stay, and so does the rest of the state. -/
def PartBecomes (i : Instr) (p : Nat) (f : Part → Part) (s : State) : Prop :=
  ∃ t, exec i s = .next t ∧ t = { s with parts := t.parts } ∧ ∀ q, q < 4 → partAt t q = if q = p then f (partAt s q) else partAt s q

theorem partBecomes_of_run {i : Instr} {p : Nat} {f : Part → Part} (hp : p < 4) (run : exec i s = .next (modPart s p f)) :
    PartBecomes i p f s := by
  obtain ⟨parts, eq, held⟩ := modPart_spec s hp f
  exact ⟨_, run.trans (congrArg _ eq), rfl, held⟩

/-- A table of a partition takes a value in one place. -/
theorem tableBecomes_of_run {i : Instr} {p k : Nat} {v : Word} {get : Part → Sparse Word} {f : Part → Part} (hp : p < 4)
    (put : ∀ q, get (f q) = sset 0 (get q) k v) (run : exec i s = .next (modPart s p f)) :
    ∃ t, exec i s = .next t ∧ t = { s with parts := t.parts } ∧ ∀ q j, q < 4 →
      sget 0 (get (partAt t q)) j = (if q = p ∧ j = k then v else sget 0 (get (partAt s q)) j) ∧
      (partAt t q = f (partAt s q) ∨ partAt t q = partAt s q) := by
  obtain ⟨parts, eq, held⟩ := modPart_spec s hp f
  refine ⟨_, run.trans (congrArg _ eq), rfl, fun q j hq => ?_⟩
  rw [held q hq]
  by_cases same : q = p
  · rw [if_pos same, put, sget_sset]
    exact ⟨by simp [same], .inl rfl⟩
  · rw [if_neg same]
    exact ⟨by simp [same], .inr rfl⟩

/-! DIEMAP (R326). -/

/-- A map gives die `d` to partition `p`. -/
def givesDie (m : Word) (p d : Nat) : Bool := m.toNat / 16 ^ d % 16 / 8 == 1 && m.toNat / 16 ^ d % 16 % 4 == p

/-- The dies that a map gives partition `p`. -/
def diesIn (m : Word) (p : Nat) : List Nat := (List.range 4).filter (givesDie m p)

/-- The dies 0 to 3 that four choices take, as a list and as a mask. -/
def dieList (a b c d : Bool) : List Nat :=
  (if a then [0] else []) ++ (if b then [1] else []) ++ (if c then [2] else []) ++ (if d then [3] else [])

def dieMask (a b c d : Bool) : Nat := (if a then 1 else 0) + (if b then 2 else 0) + (if c then 4 else 0) + (if d then 8 else 0)

theorem dieMask_inj : ∀ a b c d a' b' c' d', dieMask a b c d = dieMask a' b' c' d' ↔ dieList a b c d = dieList a' b' c' d' := by decide

theorem shapeOk_dieMask : ∀ a b c d, shapeOk (dieMask a b c d) = true ↔ (dieList a b c d = [] ∨ (dieList a b c d).length = 1 ∨
    dieList a b c d = [0, 1] ∨ dieList a b c d = [2, 3] ∨ dieList a b c d = [0, 1, 2, 3]) := by decide

theorem diesIn_eq (m : Word) (p : Nat) : diesIn m p = dieList (givesDie m p 0) (givesDie m p 1) (givesDie m p 2) (givesDie m p 3) := by
  unfold diesIn
  rw [show List.range 4 = [0, 1, 2, 3] from rfl]
  simp only [List.filter_cons, List.filter_nil]
  cases givesDie m p 0 <;> cases givesDie m p 1 <;> cases givesDie m p 2 <;> cases givesDie m p 3 <;> rfl

theorem diesOf_eq (m : Word) (p : Nat) : diesOf m p = dieMask (givesDie m p 0) (givesDie m p 1) (givesDie m p 2) (givesDie m p 3) := by
  have step : diesOf m p = [0, 1, 2, 3].foldl (fun acc d => if givesDie m p d then acc + 2 ^ d else acc) 0 := rfl
  rw [step]
  simp only [List.foldl_cons, List.foldl_nil]
  cases givesDie m p 0 <;> cases givesDie m p 1 <;> cases givesDie m p 2 <;> cases givesDie m p 3 <;> rfl

theorem diesOf_eq_iff (m m' : Word) (p : Nat) : diesOf m p = diesOf m' p ↔ diesIn m p = diesIn m' p := by
  rw [diesOf_eq, diesOf_eq, diesIn_eq, diesIn_eq]
  exact dieMask_inj _ _ _ _ _ _ _ _

theorem shapeOk_iff (m : Word) (p : Nat) : shapeOk (diesOf m p) = true ↔ (diesIn m p = [] ∨ (diesIn m p).length = 1 ∨
    diesIn m p = [0, 1] ∨ diesIn m p = [2, 3] ∨ diesIn m p = [0, 1, 2, 3]) := by
  rw [diesOf_eq, diesIn_eq]
  exact shapeOk_dieMask _ _ _ _

/-- A map is taken: each partition's dies have a shape of R326, and no partition with a live gang changes. -/
def MayAssign (s : State) (map : Word) : Prop :=
  (∀ p, p < 4 → (diesIn map p = [] ∨ (diesIn map p).length = 1 ∨ diesIn map p = [0, 1] ∨ diesIn map p = [2, 3] ∨ diesIn map p = [0, 1, 2, 3])) ∧
  ∀ g ∈ s.gangs, g.part < 4 → g.live → diesIn map g.part = diesIn s.dieMap g.part

theorem ended_iff (g : Gang) : g.ended = false ↔ g.live := by
  unfold Gang.ended Gang.live
  cases g.st <;> simp

theorem diemapRefused_iff (s : State) (map : Word) :
    (!(List.range 4).all (fun p => shapeOk (diesOf map p)) || s.gangs.any (fun g =>
      ((List.range 4).filter (fun p => diesOf map p != diesOf s.dieMap p)).contains g.part && !g.ended)) = true ↔ ¬MayAssign s map := by
  rw [← not_iff_not, not_not, Bool.or_eq_true, not_or, Bool.not_eq_true', Bool.not_eq_false, Bool.not_eq_true, List.any_eq_false,
    List.all_eq_true]
  refine and_congr ?shapes ?idle
  case shapes => simp only [List.mem_range, shapeOk_iff]
  case idle =>
    refine forall₂_congr fun g _ => ?_
    rw [← ended_iff, ← diesOf_eq_iff]
    simp only [Bool.and_eq_true, List.contains_iff_mem, List.mem_filter, List.mem_range, bne_iff_ne, Bool.not_eq_true', not_and, and_imp]
    exact ⟨fun h below live => by_contra fun changed => h below changed live, fun h below changed live => changed (h below live)⟩

/-- DIESTAT takes a value, with a message where it changes. -/
theorem setDieStat_eq (s : State) (v : Word) : setDieStat s v =
    { s with dieStat := v, msgs := s.msgs ++ if s.dieStat = v then [] else [message s 4 0] } := by
  unfold setDieStat
  split
  case isTrue same => rw [← same, List.append_nil]
  case isFalse => rfl

end Sys2Proof.Machine
end

section
/-! What the host's stores leave (R91, R326 to R331, R356, R357). -/
namespace Sys2Proof.Machine

variable {s : State} {vf off : Nat} {v : Word}

/-! Assignments of dies. -/

theorem diemapWrite_taken (may : MayAssign s (v &&& 0xbbbb)) : exec (.diemapWrite v) s = .next { s with
    dieChange := some (v &&& 0xbbbb), dieStat := 1, msgs := s.msgs ++ if s.dieStat = 1 then [] else [message s 4 0]
    calendar := s.calendar ++ [(s.cyc + 1, .dieAssignmentDone)] } := by
  have run : exec (.diemapWrite v) s = execDiemapWrite v s := rfl
  unfold execDiemapWrite at run
  dsimp only at run
  rw [if_neg fun refused => (diemapRefused_iff s _).mp refused may, setDieStat_eq] at run
  exact run

theorem diemapWrite_refused (not : ¬MayAssign s (v &&& 0xbbbb)) : exec (.diemapWrite v) s = .next { s with
    dieStat := 2, msgs := s.msgs ++ if s.dieStat = 2 then [] else [message s 4 0] } := by
  have run : exec (.diemapWrite v) s = execDiemapWrite v s := rfl
  unfold execDiemapWrite at run
  dsimp only at run
  rw [if_pos ((diemapRefused_iff s _).mpr not), setDieStat_eq] at run
  exact run

theorem dieAssignmentDone_run {m : Word} (changing : s.dieChange = some m) : exec .dieAssignmentDone s = .next { s with
    dieMap := m, dieChange := none, dieStat := 0, msgs := s.msgs ++ if s.dieStat = 0 then [] else [message s 4 0] } := by
  have run : exec .dieAssignmentDone s = execDieAssignmentDone s := rfl
  unfold execDieAssignmentDone at run
  rw [changing] at run
  dsimp only at run
  rw [setDieStat_eq] at run
  exact run

/-! SHARE (R356). -/

/-- Nothing but copies and the calendar differs. -/
def OnlyRelanded (s t : State) : Prop := t = { s with copies := t.copies, calendar := t.calendar }

theorem OnlyRelanded.trans {s t u : State} (first : OnlyRelanded s t) (second : OnlyRelanded t u) : OnlyRelanded s u := by
  unfold OnlyRelanded at first second ⊢
  rw [first] at second
  exact second

theorem OnlyRelanded.foldl {β : Type} {f : State → β → State} (hf : ∀ s b, OnlyRelanded s (f s b)) (l : List β) (s : State) :
    OnlyRelanded s (l.foldl f s) := by
  induction l generalizing s with
  | nil => rfl
  | cons b r ih => exact (hf s b).trans (ih _)

theorem relandHost_only (s : State) : OnlyRelanded s (relandHost s) := by
  refine OnlyRelanded.foldl (fun s q => OnlyRelanded.foldl (fun s k => ?_) _ _) _ _
  split
  · split
    · rfl
    · rfl
  · rfl

theorem relandHost_none (none_host : ∀ q ∈ s.copies, q.kind ≠ 6) : relandHost s = s := by
  unfold relandHost
  rw [List.filter_eq_nil_iff.mpr fun q hq => by simp [none_host q hq]]
  rfl

/-! The registers of a VF's BAR0 (R328). -/

/-- A verified image runs and the partition holds a die (R326). -/
def VfOn (s : State) (vf : Nat) : Prop := s.bootOk = true ∧ ∃ d, d < 4 ∧ partOfDie s d = some vf

theorem vfOn_iff (s : State) (vf : Nat) : vfOn s vf = true ↔ VfOn s vf := by
  simp [vfOn, VfOn]

theorem registerWrite_off (off' : ¬VfOn s vf) : exec (.registerWrite false vf off v) s = .next s := by
  have not_on : vfOn s vf = false := by rwa [← Bool.not_eq_true, vfOn_iff]
  have run : exec (.registerWrite false vf off v) s = execRegisterWrite false vf off v s := rfl
  unfold execRegisterWrite at run
  rw [not_on] at run
  simpa using run

/-- A register that holds its value. -/
theorem registerWrite_holds (on : VfOn s vf) (whole : off % 8 = 0) (plain : off ≠ 8 ∧ off ≠ 0x3000 ∧ off < 0x10000) :
    exec (.registerWrite false vf off v) s = .next (vfWrite s vf off v) := by
  obtain ⟨no_launch, no_command, low⟩ := plain
  have event : vfEvent s vf off v = none := by
    unfold vfEvent
    dsimp only
    rw [if_neg no_launch, if_neg no_command, if_neg (by omega)]
  have run : exec (.registerWrite false vf off v) s = execRegisterWrite false vf off v s := rfl
  unfold execRegisterWrite at run
  rw [(vfOn_iff s vf).mpr on, event] at run
  simpa [whole] using run

theorem registerWrite_becomes (small : vf < 4) (on : VfOn s vf) (whole : off % 8 = 0) (plain : off ≠ 8 ∧ off ≠ 0x3000 ∧ off < 0x10000)
    {f : Part → Part} (held : vfWrite s vf off v = modPart s vf f) : PartBecomes (.registerWrite false vf off v) vf f s :=
  partBecomes_of_run small ((registerWrite_holds on whole plain).trans (congrArg _ held))

theorem registerWrite_launch (small : vf < 4) (on : VfOn s vf) : ∃ t, exec (.registerWrite false vf 8 v) s = .next t ∧
    t = { s with parts := t.parts, calendar := s.calendar ++ [(s.cyc, .hostLaunch vf v)] } ∧
    ∀ q, q < 4 → partAt t q = if q = vf then { partAt s q with lres := 0xff } else partAt s q := by
  obtain ⟨parts, eq, held⟩ := modPart_spec s small (fun p => { p with lres := 0xff })
  have run : exec (.registerWrite false vf 8 v) s = .next (if !vfOn s vf then s
      else { modPart s vf (fun p => { p with lres := 0xff }) with
        calendar := (modPart s vf (fun p => { p with lres := 0xff })).calendar ++ [(s.cyc, .hostLaunch vf v)] }) := rfl
  rw [(vfOn_iff s vf).mpr on, eq] at run
  exact ⟨_, run, rfl, held⟩

theorem registerWrite_region (small : vf < 4) (on : VfOn s vf) {k : Nat} (hk : k < 256) :
    ∃ t, exec (.registerWrite false vf (0x2000 + 8 * k) v) s = .next t ∧ t = { s with parts := t.parts } ∧
      ∀ q j, q < 4 → sget 0 (partAt t q).region j = (if q = vf ∧ j = k then v &&& 0xf0000fffffffffff else sget 0 (partAt s q).region j) ∧
        partAt t q = { partAt s q with region := (partAt t q).region } := by
  have held : vfWrite s vf (0x2000 + 8 * k) v = modPart s vf (fun p => { p with region := sset 0 p.region k (v &&& 0xf0000fffffffffff) }) := by
    unfold vfWrite
    rw [if_neg (by omega), if_neg (by omega), if_neg (by omega), if_neg (by omega), if_pos (by omega),
      show (0x2000 + 8 * k - 0x2000) / 8 = k by omega]
  obtain ⟨t, run, frame, table⟩ := tableBecomes_of_run (get := Part.region) (k := k) (v := v &&& 0xf0000fffffffffff) small (fun _ => rfl)
    ((registerWrite_holds on (by omega) (by omega)).trans (congrArg _ held))
  refine ⟨t, run, frame, fun q j hq => ?_⟩
  obtain ⟨entry, changed | same⟩ := table q j hq
  · exact ⟨entry, by rw [changed]⟩
  · exact ⟨entry, by rw [same]⟩

theorem logclr_run (small : vf < 4) {i : Instr} {k : Nat} (run : exec i s = .next (setLog s vf k 0)) :
    ∃ t, exec i s = .next t ∧ t = { s with parts := t.parts } ∧
      ∀ q j, q < 4 → sget 0 (partAt t q).log j = (if q = vf ∧ j = k then 0 else sget 0 (partAt s q).log j) ∧
        partAt t q = { partAt s q with log := (partAt t q).log } := by
  obtain ⟨t, run, frame, table⟩ := tableBecomes_of_run (get := Part.log) (k := k) (v := 0) small (fun _ => rfl) run
  refine ⟨t, run, frame, fun q j hq => ?_⟩
  obtain ⟨entry, changed | same⟩ := table q j hq
  · exact ⟨entry, by rw [changed]⟩
  · exact ⟨entry, by rw [same]⟩

/-! The registers of the PF. -/

theorem registerWrite_pf (whole : off % 8 = 0) (quiet : pfEvents s off v = []) :
    exec (.registerWrite true vf off v) s = .next (pfWrite s off v) := by
  have run : exec (.registerWrite true vf off v) s = execRegisterWrite true vf off v s := rfl
  unfold execRegisterWrite at run
  rw [quiet] at run
  simpa [whole] using run

theorem pfEvents_quiet (plain : off ≠ 0x100 ∧ off ≠ 0x110 ∧ ¬(0x140 ≤ off ∧ off < 0x160) ∧ off ≠ 0x1000) : pfEvents s off v = [] := by
  obtain ⟨no_map, no_share, no_clear, no_command⟩ := plain
  unfold pfEvents
  dsimp only
  rw [if_neg no_map, if_neg no_share, if_neg no_clear, if_neg no_command]

theorem registerWrite_conductor {k : Nat} (hk : k < 4) :
    PartBecomes (.registerWrite true vf (0x120 + 8 * k) v) k (fun p => { p with condgang := v.toNat % 2 ^ 32 }) s := by
  refine partBecomes_of_run hk ((registerWrite_pf (by omega) (pfEvents_quiet (by omega))).trans (congrArg _ ?_))
  unfold pfWrite
  rw [if_pos (by omega), show (0x120 + 8 * k - 0x120) / 8 = k by omega]

theorem registerWrite_data {k : Nat} (hk : k < 8) : ∃ t, exec (.registerWrite true vf (0x1008 + 8 * k) v) s = .next t ∧
    t = { s with dbgData := t.dbgData } ∧ ∀ j (h : j < 8), t.dbgData[j] = if j = k then v else s.dbgData[j] := by
  have held : pfWrite s (0x1008 + 8 * k) v = { s with dbgData := s.dbgData.set k v hk } := by
    unfold pfWrite
    rw [if_neg (by omega), dif_pos (by omega)]
    simp only [show (0x1008 + 8 * k - 0x1008) / 8 = k by omega]
  refine ⟨_, (registerWrite_pf (by omega) (pfEvents_quiet (by omega))).trans (congrArg _ held), rfl, fun j hj => ?_⟩
  dsimp only
  rw [Vector.getElem_set]
  exact if_congr eq_comm rfl rfl

/-! The mailbox window and the tile buffers (R91, R331, R394). -/

/-- A word stored where nothing is poisoned and no error armed. -/
theorem putWord_plain (unarmed : s.armed = []) (clean : s.poisonWord = []) (g : Nat) (v : Word) :
    putWord s g v = { s with mem := putBytes s.mem g (toBytes 8 v.toNat), writers := sset 0 s.writers (g / 8) 0 } := by
  have marks : (if s.poisonWord.isEmpty && !false then s.poisonWord else sset false s.poisonWord (g / 8) false) = s.poisonWord := by
    rw [clean]
    rfl
  unfold putWord
  rw [marks]
  exact (strike_eq { s with mem := putBytes s.mem g (toBytes 8 v.toNat), writers := sset 0 s.writers (g / 8) 0 } 1 (g / 8)).2 unarmed

theorem mailboxWindowWrite_run (on : VfOn s vf) (inside : off < 0x10000) (unarmed : s.armed = []) (clean : s.poisonWord = []) :
    exec (.mailboxWindowWrite vf off v) s = .next { s with
      mem := putBytes s.mem (mailboxByte s vf (off / 8 * 8)) (toBytes 8 v.toNat)
      writers := sset 0 s.writers (mailboxByte s vf (off / 8 * 8) / 8) 0 } := by
  have run : exec (.mailboxWindowWrite vf off v) s = execMailboxWindowWrite vf off v s := rfl
  unfold execMailboxWindowWrite at run
  rw [(vfOn_iff s vf).mpr on, decide_eq_true inside, putWord_plain unarmed clean] at run
  exact run

/-- One buffer changed. -/
theorem setBuf_only {cl tb : Nat} (small : tb < 64) (b : TileBuf) : setBuf s cl tb b = { s with bufs := (setBuf s cl tb b).bufs } ∧
    (∀ c m, m < 64 → (c ≠ cl ∨ m ≠ tb) → bufAt (setBuf s cl tb b) c m = bufAt s c m) ∧ bufAt (setBuf s cl tb b) cl tb = b := by
  refine ⟨rfl, fun c m hm other => ?_, ?_⟩
  · rw [bufAt_setBuf _ _ _ _ small hm, if_neg (by omega)]
  · rw [bufAt_setBuf _ _ _ _ small small, if_pos ⟨rfl, rfl⟩]

end Sys2Proof.Machine
end

section
/-! BAR2 (R328, R357, R389). -/
namespace Sys2Proof.Machine

variable {s : State} {vf off n : Nat}

/-- What vector `vec` of a function sends depends on the MSI-X tables alone. -/
theorem message_congr {s t : State} (fn vec : Nat) (tables : (partAt t fn).msix = (partAt s fn).msix) (pf : t.pfMsix = s.pfMsix) :
    message t fn vec = message s fn vec := by
  unfold message msixTable
  rw [tables, pf]

theorem sget_putDwords_of_lt (m : Sparse Word) {k j : Nat} (vs : List Word) (below : j < k) : sget 0 (putDwords m k vs) j = sget 0 m j := by
  induction vs generalizing m k with
  | nil => rfl
  | cons v r ih =>
    rw [putDwords, ih _ (Nat.lt_succ_of_lt below), sget_sset, if_neg below.ne]

/-- A violation entry: one more in VCOUNT, and vector 1 (R357). -/
theorem logViolation_spec (s : State) {p : Nat} (small : p < 4) (kind agent addr hart gang : Nat) :
    ∃ parts, logViolation s p kind agent addr hart gang = { s with parts, msgs := s.msgs ++ [message s p 1] } ∧
      sget 0 (partAt { s with parts } p).log 0 = sget 0 (partAt s p).log 0 + 1 := by
  unfold logViolation
  dsimp only
  generalize log_eq : sset 0 (putDwords (partAt s p).log _ _) 0 _ = log
  have count : sget 0 log 0 = sget 0 (partAt s p).log 0 + 1 := by
    rw [← log_eq, sget_sset, if_pos rfl, BitVec.ofNat_add, BitVec.ofNat_toNat, BitVec.setWidth_eq]
    rfl
  obtain ⟨parts, eq, held⟩ := modPart_spec s small (fun q => { q with log })
  refine ⟨parts, ?_, by rw [held p small, if_pos rfl]; exact count⟩
  unfold sendMsi
  rw [eq, message_congr (s := s) (t := { s with parts }) p 1 (by rw [held p small, if_pos rfl]) rfl]

theorem barWritesOver_none (none_there : s.replicas = []) (vf : Nat) : barWritesOver s vf = s.cyc := by
  unfold barWritesOver
  rw [none_there]
  rfl

theorem bar2Read_refused (refused : ¬VfOn s vf ∨ 4096 < n) : exec (.bar2Read vf off n) s = .next s := by
  refine congrArg Host.Outcome.next (if_pos ?_)
  rcases refused with not_on | long
  · rw [show vfOn s vf = false by rwa [← Bool.not_eq_true, vfOn_iff]]
    rfl
  · rw [decide_eq_true long, Bool.or_true]

theorem bar2Write_refused {bs : List Byte} (refused : ¬VfOn s vf ∨ 512 < bs.length) : exec (.bar2Write vf off bs) s = .next s := by
  refine congrArg Host.Outcome.next (if_pos ?_)
  rcases refused with not_on | long
  · rw [show vfOn s vf = false by rwa [← Bool.not_eq_true, vfOn_iff]]
    rfl
  · rw [decide_eq_true long, Bool.or_true]

/-- The requester of a VF's accesses. -/
def barWho (s : State) (vf : Nat) : Who := ⟨vf, (partAt s vf).hasid.toNat % 2 ^ 16, lowestDie s vf⟩

/-- What a read does once it is taken. -/
theorem bar2Read_taken (on : VfOn s vf) (inside : off + n ≤ 2 ^ 36) (short : n ≤ 4096) (none_there : s.replicas = []) :
    exec (.bar2Read vf off n) s = .next (match vaRead s (barWho s vf).part (barWho s vf).asid (barWho s vf).die (barVa s vf off) n with
      | .ok (s, bs) => { s with hostData := s.hostData ++ [bs] }
      | .error e => { barFault s vf off e with hostData := (barFault s vf off e).hostData ++ [[]] }) := by
  have run : exec (.bar2Read vf off n) s = execBar2Read vf off n s := rfl
  unfold execBar2Read at run
  rw [(vfOn_iff s vf).mpr on, decide_eq_false (Nat.not_lt.mpr inside), decide_eq_false (Nat.not_lt.mpr short),
    barWritesOver_none none_there, if_neg (by simp), if_neg (Nat.lt_irrefl _)] at run
  refine run.trans (congrArg _ ?_)
  unfold hostAsid barWho
  rfl

/-- What a write does once it is taken. -/
theorem bar2Write_taken {bs : List Byte} (on : VfOn s vf) (inside : off + bs.length ≤ 2 ^ 36) (short : bs.length ≤ 512)
    (none_there : s.replicas = []) :
    exec (.bar2Write vf off bs) s = .next (match (cut (barVa s vf off) bs.length).findSome?
        (fun p => match translate s (barWho s vf).part (barWho s vf).asid (barWho s vf).die p.1 true with
          | .error x => some (⟨p.1, x⟩ : AccessErr)
          | .ok _ => none) with
      | some e => barFault s vf off e
      | none => (vaWrite s (barWho s vf).part (barWho s vf).asid (barWho s vf).die 3072 (barVa s vf off) bs (0, vf)).1) := by
  have run : exec (.bar2Write vf off bs) s = execBar2Write vf off bs s := rfl
  unfold execBar2Write at run
  dsimp only at run
  rw [(vfOn_iff s vf).mpr on, decide_eq_false (Nat.not_lt.mpr inside), decide_eq_false (Nat.not_lt.mpr short),
    barWritesOver_none none_there, if_neg (by simp), if_neg (Nat.lt_irrefl _)] at run
  exact run

/-- The pieces of a range start in it. -/
theorem cut_start_mem {a n : Nat} : ∀ p ∈ cut a n, a ≤ p.1 ∧ p.1 < a + n := by
  induction n using Nat.strong_induction_on generalizing a with
  | _ n ih =>
    intro p hp
    by_cases none_left : n = 0
    · rw [none_left, cut_nothing] at hp
      exact nomatch hp
    · rw [cut_cons (Nat.pos_of_ne_zero none_left)] at hp
      have := Nat.mod_lt a (by decide : 512 > 0)
      rcases List.mem_cons.mp hp with rfl | later
      · exact ⟨le_rfl, by dsimp only; omega⟩
      · have := ih _ (by omega) p later
        omega

theorem barVa_eq (small : (partAt s vf).hwbase.toNat + off < 2 ^ 64) : barVa s vf off = (partAt s vf).hwbase.toNat + off :=
  Nat.mod_eq_of_lt small

/-- A read of plain bytes returns them. -/
theorem bar2Read_plain (on : VfOn s vf) (none_there : s.replicas = []) (inside : off + n ≤ 2 ^ 36)
    (below : (partAt s vf).hwbase.toNat + off + n ≤ 2 ^ 64) (short : n ≤ 4096)
    (plain : PlainVa s (barWho s vf) (fun x => (partAt s vf).hwbase.toNat + off ≤ x ∧ x < (partAt s vf).hwbase.toNat + off + n)) :
    ∃ t, exec (.bar2Read vf off n) s = .next t ∧ t = { s with caches := t.caches, hostData := s.hostData ++
      [(List.range n).map (fun k => vbyte s (barWho s vf) ((partAt s vf).hwbase.toNat + off + k))] } := by
  rw [bar2Read_taken on inside short none_there]
  by_cases nothing : n = 0
  · subst nothing
    refine ⟨_, rfl, ?_⟩
    unfold vaRead
    rw [cut_nothing]
    rfl
  · obtain ⟨caches, read⟩ := vaRead_plain plain false
    rw [barVa_eq (by omega), read]
    exact ⟨_, rfl, rfl⟩

/-- A write of plain bytes. -/
theorem bar2Write_plain {bs : List Byte} (on : VfOn s vf) (none_there : s.replicas = []) (inside : off + bs.length ≤ 2 ^ 36)
    (below : (partAt s vf).hwbase.toNat + off + bs.length ≤ 2 ^ 64) (short : bs.length ≤ 512)
    (plain : PlainVa s (barWho s vf) (fun x => (partAt s vf).hwbase.toNat + off ≤ x ∧ x < (partAt s vf).hwbase.toNat + off + bs.length)) :
    ∃ t, exec (.bar2Write vf off bs) s = .next t ∧ t = { s with mem := t.mem, caches := t.caches } ∧
      VaBecomes s t (barWho s vf) (fun x => (partAt s vf).hwbase.toNat + off ≤ x ∧ x < (partAt s vf).hwbase.toNat + off + bs.length)
        (fun x => bs.getD (x - ((partAt s vf).hwbase.toNat + off)) 0) := by
  rw [bar2Write_taken on inside short none_there]
  by_cases nothing : bs = []
  · subst nothing
    have none_cut : cut (barVa s vf off) ([] : List Byte).length = [] := cut_nothing _
    refine ⟨s, congrArg _ ?_, rfl, fun x hx => ?_, fun p _ => rfl⟩
    · unfold vaWrite
      rw [none_cut]
      rfl
    · dsimp only [List.length_nil] at hx
      omega
  · have some_bytes := List.length_pos_iff.mpr nothing
    rw [barVa_eq (by omega)]
    have mapped : (cut ((partAt s vf).hwbase.toNat + off) bs.length).findSome?
        (fun p => match translate s (barWho s vf).part (barWho s vf).asid (barWho s vf).die p.1 true with
          | .error x => some (⟨p.1, x⟩ : AccessErr)
          | .ok _ => none) = none := List.findSome?_eq_none_iff.mpr fun p hp => by
      obtain ⟨-, x, found, -⟩ := plain.2.2.2.1 p.1 (cut_start_mem p hp)
      rw [found]
    obtain ⟨mem, caches, written, becomes⟩ := vaWrite_plain plain 3072 (0, vf)
    rw [mapped, written]
    exact ⟨_, rfl, rfl, becomes⟩

/-- A translation that fails with one of the codes 1 to 5 leaves a violation entry. -/
def BarLogged (s t : State) (vf : Nat) : Prop :=
  t.msgs = s.msgs ++ [message s vf 1] ∧ sget 0 (partAt t vf).log 0 = sget 0 (partAt s vf).log 0 + 1

theorem barFault_spec (small : vf < 4) {e : AccessErr} (code : e.x.code ≤ 5) :
    ∃ parts, barFault s vf off e = { s with parts, msgs := s.msgs ++ [message s vf 1] } ∧
      sget 0 (partAt { s with parts } vf).log 0 = sget 0 (partAt s vf).log 0 + 1 := by
  unfold barFault
  rw [if_neg (by omega)]
  exact logViolation_spec s small _ _ _ _ _

theorem bar2Write_fails (small : vf < 4) (on : VfOn s vf) (none_there : s.replicas = []) (inside : off + 1 ≤ 2 ^ 36)
    (below : (partAt s vf).hwbase.toNat + off < 2 ^ 64) {x : XErr}
    (fails : translate s (barWho s vf).part (barWho s vf).asid (barWho s vf).die ((partAt s vf).hwbase.toNat + off) true = .error x)
    (code : x.code ≤ 5)
    (b : Byte) : ∃ t, exec (.bar2Write vf off [b]) s = .next t ∧ t = { s with parts := t.parts, msgs := t.msgs } ∧ BarLogged s t vf := by
  obtain ⟨parts, fault, count⟩ := barFault_spec (s := s) (off := off) small (e := ⟨(partAt s vf).hwbase.toNat + off, x⟩) code
  rw [bar2Write_taken on inside (show [b].length ≤ 512 from (by decide : 1 ≤ 512)) none_there, barVa_eq below,
    show cut ((partAt s vf).hwbase.toNat + off) [b].length = [((partAt s vf).hwbase.toNat + off, 1)] from
      cut_one (n := 1) Nat.one_pos (by have := Nat.mod_lt ((partAt s vf).hwbase.toNat + off) (by decide : 512 > 0); omega)]
  simp only [List.findSome?_cons, fails, fault]
  exact ⟨_, rfl, rfl, rfl, count⟩

theorem bar2Read_fails (small : vf < 4) (on : VfOn s vf) (none_there : s.replicas = []) (inside : off + 1 ≤ 2 ^ 36)
    (below : (partAt s vf).hwbase.toNat + off < 2 ^ 64) (no_migration : s.migrations = []) {x : XErr}
    (fails : translate s (barWho s vf).part (barWho s vf).asid (barWho s vf).die ((partAt s vf).hwbase.toNat + off) false = .error x)
    (code : x.code ≤ 5) :
    ∃ t, exec (.bar2Read vf off 1) s = .next t ∧ t = { s with parts := t.parts, msgs := t.msgs, hostData := s.hostData ++ [[]] } ∧
      BarLogged s t vf := by
  obtain ⟨parts, fault, count⟩ := barFault_spec (s := s) (off := off) small (e := ⟨(partAt s vf).hwbase.toNat + off, x⟩) code
  have read : vaRead s (barWho s vf).part (barWho s vf).asid (barWho s vf).die ((partAt s vf).hwbase.toNat + off) 1 =
      .error ⟨(partAt s vf).hwbase.toNat + off, x⟩ := by
    unfold vaRead
    rw [cut_one Nat.one_pos (by have := Nat.mod_lt ((partAt s vf).hwbase.toNat + off) (by decide : 512 > 0); omega)]
    simp only [List.foldl_cons, List.foldl_nil, settle_still no_migration, fails]
  rw [bar2Read_taken on inside (by decide) none_there, barVa_eq below, read]
  simp only [fault]
  exact ⟨_, rfl, rfl, rfl, count⟩

/-! SHARE and the tile buffers, as stated. -/

variable {v : Word}

theorem shares_sum (v : Word) : ((List.range 4).map (shareOf v)).sum = v.toNat / 256 ^ 0 % 32 + v.toNat / 256 ^ 1 % 32 +
    v.toNat / 256 ^ 2 % 32 + v.toNat / 256 ^ 3 % 32 := by
  rw [show List.range 4 = [0, 1, 2, 3] from rfl]
  simp only [List.map_cons, List.map_nil, List.sum_cons, List.sum_nil, shareOf]
  omega

theorem shareWrite_taken (fits : v.toNat / 256 ^ 0 % 32 + v.toNat / 256 ^ 1 % 32 + v.toNat / 256 ^ 2 % 32 + v.toNat / 256 ^ 3 % 32 ≤ 16) :
    ∃ t, exec (.shareWrite v) s = .next t ∧ t = { s with shareReg := v &&& 0x1f1f1f1f, copies := t.copies, calendar := t.calendar } ∧
      ((∀ q ∈ s.copies, q.kind ≠ 6) → t.copies = s.copies ∧ t.calendar = s.calendar) := by
  have run : exec (.shareWrite v) s = execShareWrite v s := rfl
  unfold execShareWrite at run
  dsimp only at run
  rw [shares_sum, if_neg (by omega)] at run
  refine ⟨_, run, relandHost_only _, fun none_host => ?_⟩
  rw [relandHost_none (s := { s with shareReg := v &&& 0x1f1f1f1f }) none_host]
  exact ⟨rfl, rfl⟩

theorem shareWrite_refused (beyond : 16 < v.toNat / 256 ^ 0 % 32 + v.toNat / 256 ^ 1 % 32 + v.toNat / 256 ^ 2 % 32 + v.toNat / 256 ^ 3 % 32) :
    exec (.shareWrite v) s = .next s := by
  have run : exec (.shareWrite v) s = execShareWrite v s := rfl
  unfold execShareWrite at run
  dsimp only at run
  rw [shares_sum, if_pos beyond] at run
  exact run

/-- The registers that only hold their value (R328). -/
theorem registers_hold (small : vf < 4) (on : VfOn s vf) : PartBecomes (.registerWrite false vf 0 v) vf (fun p => { p with lva := v }) s ∧
    PartBecomes (.registerWrite false vf 0x1000 v) vf (fun p => { p with rpt := v }) s ∧
    PartBecomes (.registerWrite false vf 0x1008 v) vf (fun p => { p with hasid := v &&& 0xffff }) s ∧
    PartBecomes (.registerWrite false vf 0x1010 v) vf (fun p => { p with hwbase := v &&& ~~~0xffff#64 }) s ∧
    PartBecomes (.registerWrite false vf 0x3008 v) vf (fun p => { p with xarg := v &&& 0x0000ffffffffffff }) s :=
  ⟨registerWrite_becomes small on rfl (by decide) rfl, registerWrite_becomes small on rfl (by decide) rfl,
    registerWrite_becomes small on rfl (by decide) rfl, registerWrite_becomes small on rfl (by decide) rfl,
    registerWrite_becomes small on rfl (by decide) rfl⟩

theorem mailboxWindowWrite_off (off' : ¬VfOn s vf) : exec (.mailboxWindowWrite vf off v) s = .next s := by
  refine congrArg Host.Outcome.next (if_neg ?_)
  rw [show vfOn s vf = false by rwa [← Bool.not_eq_true, vfOn_iff]]
  exact Bool.false_ne_true

theorem tbConfigWrite_spec {cl tb : Nat} (small : tb < 64) : ∃ t, exec (.tbConfigWrite cl tb v) s = .next t ∧
    (t = { s with bufs := t.bufs } ∧ ∀ c m, m < 64 → (c ≠ cl ∨ m ≠ tb) → bufAt t c m = bufAt s c m) ∧
    (bufAt t cl tb).ltag = 0 ∧ (bufAt t cl tb).mix = false ∧ (bufAt t cl tb).chk = false ∧ (bufAt t cl tb).landed = 0 ∧
    ∀ j, j < 64 → (bufAt t cl tb).cfg.getLsbD j = (v.getLsbD j && (decide (j < 25) || decide (j = 30) || decide (48 ≤ j) ||
      decide (j = 31 ∧ v.toNat % 2 ^ 15 + (v.toNat / 2 ^ 15 % 1024 + 1) ≤ 32768))) := by
  obtain ⟨frame, others, here⟩ := setBuf_only (s := s) (cl := cl) small (TileBuf.configure v)
  obtain ⟨landed, ltag, mix, chk, cfg⟩ := configure_spec v
  refine ⟨setBuf s cl tb (TileBuf.configure v), rfl, ⟨frame, others⟩, ?_⟩
  rw [here]
  refine ⟨ltag, mix, chk, landed, fun j hj => (cfg j hj).trans ?_⟩
  by_cases en : j = 31
  · subst en
    simp [Nat.add_assoc]
  · simp [en]

theorem tbLandedClear_spec {cl tb dw : Nat} (small : tb < 64) (hdw : dw < 16) : ∃ t, exec (.tbLandedClear cl tb dw v) s = .next t ∧
    (t = { s with bufs := t.bufs } ∧ ∀ c m, m < 64 → (c ≠ cl ∨ m ≠ tb) → bufAt t c m = bufAt s c m) ∧
    bufAt t cl tb = { bufAt s cl tb with landed := (bufAt t cl tb).landed } ∧
    ∀ j, j < 1024 → (bufAt t cl tb).landed.getLsbD j = ((bufAt s cl tb).landed.getLsbD j && !(decide (j / 64 = dw) && v.getLsbD (j % 64))) := by
  have run : exec (.tbLandedClear cl tb dw v) s = .next (setBuf s cl tb ((bufAt s cl tb).store (16 + dw % 16) v)) := rfl
  rw [Nat.mod_eq_of_lt hdw] at run
  obtain ⟨frame, others, here⟩ := setBuf_only (s := s) (cl := cl) small ((bufAt s cl tb).store (16 + dw) v)
  obtain ⟨kept, cleared⟩ := store_landed (bufAt s cl tb) v (k := 16 + dw) (by omega)
  rw [Nat.add_sub_cancel_left] at cleared
  refine ⟨_, run, ⟨frame, others⟩, ?_⟩
  rw [here]
  exact ⟨kept, cleared⟩

end Sys2Proof.Machine

open Sys2Proof Sys2Proof.Machine

/-- Settles O42: each register by its own lemma; BAR2 by what a plain range reads and writes. -/
theorem hostRegistersAndWindows : Obligations.HostRegistersAndWindows := by
  unfold Obligations.HostRegistersAndWindows
  intro s vf off n v small
  refine ⟨fun may => ?taken, fun not => ?refused, fun m changing => ?done, fun fits => ?share, fun beyond => ?beyond, fun i k clear => ?clear,
    fun off' => ?off, fun on => ?on, fun k hk => registerWrite_conductor hk, fun k hk => registerWrite_data hk, fun cl tb dw htb => ?buffer⟩
  case taken => exact ⟨_, diemapWrite_taken may, ⟨rfl, rfl⟩, rfl⟩
  case refused => exact ⟨_, diemapWrite_refused not, ⟨rfl, rfl⟩, rfl⟩
  case done => exact ⟨_, dieAssignmentDone_run changing, ⟨rfl, rfl⟩, rfl⟩
  case share => exact shareWrite_taken fits
  case beyond => exact shareWrite_refused beyond
  case clear =>
    simp only [List.mem_cons, Prod.mk.injEq, List.not_mem_nil, or_false] at clear
    obtain ⟨rfl, rfl⟩ | ⟨rfl, rfl⟩ := clear
    · exact logclr_run small rfl
    · exact logclr_run small rfl
  case off =>
    refine ⟨registerWrite_off off', ?_, bar2Read_refused (.inl off'), fun bs => bar2Write_refused (.inl off')⟩
    exact mailboxWindowWrite_off off'
  case on =>
    obtain ⟨lva, rpt, hasid, hwbase, xarg⟩ := registers_hold (v := v) small on
    refine ⟨lva, rpt, hasid, hwbase, xarg, registerWrite_launch small on, fun k hk => registerWrite_region small on hk,
      fun inside unarmed clean => ?mailbox, fun long => bar2Read_refused (.inr long), fun bs long => bar2Write_refused (.inr long),
      fun none_there inside below plain => ⟨fun short => bar2Read_plain on none_there inside below short plain, fun bs len short => ?write⟩,
      fun none_there inside below _ x fails code b => bar2Write_fails small on none_there inside below fails code b,
      fun none_there inside below still x fails code => bar2Read_fails small on none_there inside below still fails code⟩
    case mailbox =>
      refine ⟨_, mailboxWindowWrite_run on inside unarmed clean, rfl, fun k hk => ?_, fun p hp => ?_⟩
      · have byte := sget_putDword s.mem (mailboxByte s vf (off / 8 * 8)) v (mailboxByte s vf (off / 8 * 8) + k / 8)
        rw [if_pos (by omega), Nat.add_sub_cancel_left] at byte
        have bit := congrArg (fun b : Byte => b.getLsbD (k % 8)) byte
        rw [byteOf_getLsbD _ _ (Nat.mod_lt _ (by decide)), Nat.div_add_mod] at bit
        exact bit.symm
      · exact (sget_putDword s.mem (mailboxByte s vf (off / 8 * 8)) v p).trans (if_neg fun inside => by
          have beyond : p < mailboxByte s vf (off / 8 * 8) ∨ mailboxByte s vf (off / 8 * 8) + 8 ≤ p := hp
          omega)
    case write =>
      subst len
      exact bar2Write_plain on none_there inside below short plain
  case buffer =>
    refine ⟨?config, fun hdw => ?landed⟩
    case config => exact tbConfigWrite_spec htb
    case landed => exact tbLandedClear_spec htb hdw
end

section
/-! LINEAR copies from virtual space into their own cluster: their pieces, and what a chunk of one reads (R259, R264, R383). -/
namespace Sys2Proof.Machine

variable {s : State} {q : Copy} {n blk : Nat} {c : Chunk}

/-- The requester of a copy's reads. -/
def copyWho (q : Copy) : Who := ⟨q.part, q.asid, q.core / 96⟩

/-- Block `blk` is one of those that the copy writes. -/
def InBlocks (q : Copy) (n blk : Nat) : Prop := q.dst / 512 ≤ blk ∧ blk ≤ (q.dst + n - 1) / 512

theorem dieOfCluster_clusterOfCore (core : Nat) : dieOfCore core = core / 96 := rfl

theorem LinearCopy.size_pos (linear : LinearCopy q n) : 0 < n := by
  obtain ⟨-, -, -, -, -, -, -, -, -, n_eq, -⟩ := linear
  omega

theorem block_bounds (linear : LinearCopy q n) (inside : InBlocks q n blk) :
    blockFrom q blk < blockTo q n blk ∧ blockTo q n blk ≤ n ∧ blockTo q n blk - blockFrom q blk ≤ 512 ∧
    (q.dst + blockFrom q blk) % 512 + (blockTo q n blk - blockFrom q blk) ≤ 512 := by
  have := linear.size_pos
  obtain ⟨low, high⟩ := inside
  unfold blockFrom blockTo
  omega

theorem LinearCopy.runs (linear : LinearCopy q n) : runsOf q = [⟨q.dst, some q.src, n, n⟩] := by
  obtain ⟨kind, -, -, -, cvt, -, -, limit, -, n_eq, -⟩ := linear
  have size : N0of q = n := by
    unfold N0of
    rw [kind]
    exact n_eq.symm
  have wide : q.wide = 1 := by
    unfold Copy.wide
    rw [cvt]
    rfl
  have rows : rowStarts q = [(q.dst, q.src)] := by
    unfold rowStarts
    exact if_pos kind
  unfold runsOf
  rw [kind]
  unfold dimRuns
  simp only [limit, size, wide, rows, List.map_cons, List.map_nil, Nat.mul_one]

theorem within_linear (linear : LinearCopy q n) (inside : InBlocks q n blk) :
    (⟨q.dst, some q.src, n, n⟩ : ByteRun).within blk = some (blockFrom q blk, blockTo q n blk - blockFrom q blk) := by
  obtain ⟨proper, -⟩ := block_bounds linear inside
  have lo : (if blk = q.dst / 512 then 0 else (blk * 512 + 2 ^ 64 - q.dst) % 2 ^ 64) = blockFrom q blk := by
    obtain ⟨-, -, -, -, -, -, -, -, -, -, dst_in, -⟩ := linear
    obtain ⟨low, high⟩ := inside
    unfold blockFrom
    split <;> omega
  have hi : min n (if blk = q.dst / 512 then 512 - q.dst % 512 else blockFrom q blk + 512) = blockTo q n blk := by
    obtain ⟨low, high⟩ := inside
    unfold blockFrom blockTo
    split <;> omega
  unfold ByteRun.within
  dsimp only
  rw [lo, hi, if_pos proper]

/-- A chunk of a LINEAR copy is one piece. -/
theorem LinearCopy.piece (linear : LinearCopy q n) (inside : InBlocks q n blk) : piecesIn q blk =
    [⟨q.dst + blockFrom q blk, some (q.src + blockFrom q blk, blockTo q n blk - blockFrom q blk), 0, blockTo q n blk - blockFrom q blk, 0,
      blockFrom q blk⟩] := by
  obtain ⟨proper, whole, -⟩ := block_bounds linear inside
  have within := within_linear linear inside
  have runs := linear.runs
  obtain ⟨-, -, -, -, cvt, -, -, -, -, -, dst_in, src_in, -⟩ := linear
  have wide : q.wide = 1 := by
    unfold Copy.wide
    rw [cvt]
    rfl
  unfold piecesIn
  rw [runs, wide, piecesOf, within]
  dsimp only [Option.map_some, piecesOf]
  have dst : (q.dst + blockFrom q blk) % 2 ^ 64 = q.dst + blockFrom q blk := Nat.mod_eq_of_lt (by omega)
  have src : (q.src + blockFrom q blk / 1) % 2 ^ 64 = q.src + blockFrom q blk := by rw [Nat.div_one, Nat.mod_eq_of_lt (by omega)]
  have len : (blockFrom q blk + (blockTo q n blk - blockFrom q blk) - 1) / 1 - blockFrom q blk / 1 + 1 =
      blockTo q n blk - blockFrom q blk := by omega
  rw [dst, src, len, Nat.mod_one]

/-! What keeps a chunk from being moved. -/

theorem spaceCut_eq {a n : Nat} (below : a + n ≤ 2 ^ 64) : spaceCut a n = cut a n := by
  unfold spaceCut
  conv_rhs => rw [← List.map_id (cut a n)]
  refine List.map_congr_left fun p hp => ?_
  have := cut_start_mem p hp
  rw [Nat.mod_eq_of_lt (by omega)]
  rfl

theorem spaceSpot_virtual (s : State) (q : Copy) (cl a : Nat) : spaceSpot s q 1 cl a = .virt a := rfl

theorem spaceSpot_cluster (s : State) (q : Copy) (cl : Nat) {a : Nat} (inside : a < 2 ^ 24) :
    spaceSpot s q 0 cl a = .mem (2 ^ 40 + q.core / 8 * 2 ^ 24 + a) := by
  have place : placeOf s q.part q.cluster a = .mem (2 ^ 40 + q.core / 8 * 2 ^ 24 + a) := by
    unfold placeOf
    exact if_pos inside
  unfold spaceSpot
  rw [place]
  rfl

theorem chunkFault_linear (linear : LinearCopy q n) (inside : InBlocks q n c.blk) :
    chunkFault s q c = readFault s q 1 q.scl (q.src + blockFrom q c.blk) (blockTo q n c.blk - blockFrom q c.blk) := by
  have piece := linear.piece inside
  obtain ⟨proper, whole, -, fits⟩ := block_bounds linear inside
  obtain ⟨kind, ssp, dsp, fof, -, ldcv, -, -, -, -, dst_in, src_in, -⟩ := linear
  have first : elementZeroFault s q c = none := by
    unfold elementZeroFault
    split
    · rw [fof]
      rfl
    · rfl
  have stores : writeFault s q 0 q.dcl (q.dst + blockFrom q c.blk) (blockTo q n c.blk - blockFrom q c.blk) = none := by
    unfold writeFault
    rw [spaceCut_eq (by omega), cut_one (by omega) fits]
    simp only [firstSome, spaceSpot_cluster s q _ (show q.dst + blockFrom q c.blk < 2 ^ 24 by omega)]
  unfold chunkFault
  rw [ldcv, kind, first, piece]
  simp only [Bool.false_eq_true, if_false, OfNat.zero_ne_ofNat, Option.orElse_none, firstSome, ssp, dsp, stores]
  cases readFault s q 1 q.scl (q.src + blockFrom q c.blk) (blockTo q n c.blk - blockFrom q c.blk) <;> rfl

/-- A range that translates can be read. -/
theorem readFault_none {cl a m : Nat} (below : a + m ≤ 2 ^ 64) (clean : s.poisonHbm = [])
    (mapped : ∀ x, a ≤ x → x < a + m → ∃ y, translate s q.part q.asid (q.core / 96) x false = .ok y) : readFault s q 1 cl a m = none := by
  unfold readFault
  rw [spaceCut_eq below]
  refine firstSome_eq_none fun p hp => ?_
  obtain ⟨low, high⟩ := cut_start_mem p hp
  obtain ⟨y, found⟩ := mapped p.1 low high
  have found : translate s q.part q.asid q.die p.1 false = .ok y := found
  have sound : hbmPoisoned s y.pa p.2 = false := by simp [hbmPoisoned, clean]
  simp only [spaceSpot_virtual, found, sound, Bool.false_eq_true, if_false]

/-- A range whose first byte does not translate cannot. -/
theorem readFault_some {cl a m : Nat} (below : a + m ≤ 2 ^ 64) (some_bytes : 0 < m) {x : XErr}
    (fails : translate s q.part q.asid (q.core / 96) a false = .error x) : readFault s q 1 cl a m = some ⟨a, x⟩ := by
  have fails : translate s q.part q.asid q.die a false = .error x := fails
  unfold readFault
  rw [spaceCut_eq below, cut_cons some_bytes]
  simp only [firstSome, spaceSpot_virtual, fails]

/-! The bytes of a chunk. -/

/-- What a copy reads of a plain range: its bytes. -/
theorem spaceRead_plain {cl a m : Nat} (v : PlainVa s (copyWho q) (fun x => a ≤ x ∧ x < a + m)) (below : a + m ≤ 2 ^ 64) :
    ∃ caches, spaceRead s q 1 cl a m = ({ s with caches }, (List.range m).map (fun k => vbyte s (copyWho q) (a + k))) := by
  unfold spaceRead
  rw [spaceCut_eq below]
  refine foldl_reads (wrap := id) (fun s bs lo n x line some_bytes fits => ?_) m a s [] v
  obtain ⟨no_migration, no_poison, found, -, tags⟩ := line
  have once : mappedTwice s q.part x = false := List.any_eq_false.mpr fun t ht => by
    have own := tags t ht
    simp [show x.tag q.part = x.tag (copyWho q).part from rfl, own]
  have found : translate s q.part q.asid q.die lo false = .ok x := translate_read found
  simp only [id, spaceSpot_virtual, settle_still no_migration, found, lineBytes, once, Bool.false_eq_true, if_false]
  rfl

/-- Bytes stored in the scratchpads, with nothing poisoned and no error armed. -/
theorem putScratch_plain (unarmed : s.armed = []) (clean : s.poisonWord = []) (g : Nat) (bs : List Byte) :
    ∃ writers, putScratch s g bs = { s with mem := putBytes s.mem g bs, writers } := by
  have marks : ∀ p, sdrop s.poisonWord p = s.poisonWord := fun p => by rw [clean]; rfl
  unfold putScratch
  dsimp only
  rw [marks, if_pos (show s.armed.isEmpty = true by rw [unarmed]; rfl)]
  exact ⟨_, rfl⟩

/-- A copy's store within one block of its own cluster. -/
theorem spaceWrite_cluster (unarmed : s.armed = []) (clean : s.poisonWord = []) {cl a : Nat} {bs : List Byte} (some_bytes : 0 < bs.length)
    (fits : a % 512 + bs.length ≤ 512) (inside : a < 2 ^ 24) (iter : Nat) :
    ∃ writers, spaceWrite s q 0 cl a bs iter = { s with mem := putBytes s.mem (2 ^ 40 + q.core / 8 * 2 ^ 24 + a) bs, writers } := by
  obtain ⟨writers, stored⟩ := putScratch_plain unarmed clean (2 ^ 40 + q.core / 8 * 2 ^ 24 + a) bs
  refine ⟨writers, ?_⟩
  unfold spaceWrite
  rw [spaceCut_eq (by omega), cut_one some_bytes fits]
  simp only [List.foldl_cons, List.foldl_nil, spaceSpot_cluster s q cl inside, List.take_length, stored]

end Sys2Proof.Machine
end

section
/-! The list of copies: one copy changed, one that ends (R259). -/
namespace Sys2Proof.Machine

variable {s : State} {q q' : Copy} {k : Nat} {c : Chunk}

/-- The copy is one of the list, and no other has its number. -/
def Holds (s : State) (q : Copy) : Prop := q ∈ s.copies ∧ (s.copies.map (fun x => x.id)).Nodup

theorem RunsOn.holds (runs : RunsOn s q) : Holds s q := ⟨List.mem_of_find?_eq_some runs.1, runs.2.1⟩

theorem Holds.eq_of_id (held : Holds s q) {x : Copy} (hx : x ∈ s.copies) (same : x.id = q.id) : x = q :=
  List.inj_on_of_nodup_map held.2 hx held.1 same

theorem Holds.find (held : Holds s q) : findCopy s q.id = some q := by
  obtain ⟨x, found⟩ := Option.isSome_iff_exists.mp (List.find?_isSome (p := fun x => x.id == q.id) |>.mpr ⟨q, held.1, beq_self_eq_true q.id⟩)
  have here := List.find?_some found
  rw [findCopy, found, held.eq_of_id (List.mem_of_find?_eq_some found) (beq_iff_eq.mp here)]

theorem copiesWith_ids (same : q'.id = q.id) : (copiesWith s q q').map (fun x => x.id) = s.copies.map (fun x => x.id) := by
  unfold copiesWith
  rw [List.map_map]
  refine List.map_congr_left fun x _ => ?_
  by_cases here : x.id = q.id
  · simp [here, same]
  · simp [here]

theorem Holds.replace (held : Holds s q) (same : q'.id = q.id) : Holds { s with copies := copiesWith s q q' } q' :=
  ⟨List.mem_map.mpr ⟨q, held.1, if_pos (beq_self_eq_true q.id)⟩, by rw [copiesWith_ids same]; exact held.2⟩

theorem copiesWith_copiesWith (same : q'.id = q.id) (q'' : Copy) :
    copiesWith { s with copies := copiesWith s q q' } q' q'' = copiesWith s q q'' := by
  unfold copiesWith
  rw [List.map_map]
  refine List.map_congr_left fun x _ => ?_
  by_cases here : x.id = q.id
  · simp [here, same]
  · simp [here, same]

theorem copiesWith_filter (same : q'.id = q.id) :
    (copiesWith s q q').filter (fun x => x.id != q.id) = s.copies.filter (fun x => x.id != q.id) := by
  unfold copiesWith
  rw [List.filter_map]
  have kept : ((fun x : Copy => x.id != q.id) ∘ fun x : Copy => if x.id == q.id then q' else x) = fun x => x.id != q.id := by
    funext x
    by_cases here : x.id = q.id <;> simp [here, same]
  rw [kept]
  conv_rhs => rw [← List.map_id (s.copies.filter (fun x => x.id != q.id))]
  refine List.map_congr_left fun x hx => if_neg ?_
  simpa using (List.mem_filter.mp hx).2

theorem Holds.modCopy (held : Holds s q) (f : Copy → Copy) : modCopy s q.id f = { s with copies := copiesWith s q (f q) } := by
  refine congrArg (fun l => { s with copies := l }) (List.map_congr_left fun x hx => ?_)
  by_cases here : x.id = q.id
  · rw [held.eq_of_id hx here]
  · simp [here]

theorem Holds.setChunk (held : Holds s q) (k : Nat) (f : Chunk → Chunk) :
    setChunk s q.id k f = { s with copies := copiesWith s q { q with chunks := q.chunks.modify k f } } := held.modCopy _

theorem modify_eq_set {l : List Chunk} (there : l[k]? = some c) (f : Chunk → Chunk) : l.modify k f = l.set k (f c) := by
  refine List.ext_getElem? fun j => ?_
  rw [List.getElem?_modify, List.getElem?_set]
  by_cases same : k = j
  · subst same
    obtain ⟨inside, found⟩ := List.getElem?_eq_some_iff.mp there
    simp [inside, found]
  · simp [same]

/-! The end of a copy. -/

/-- Nothing but the list of copies, the service of the BTE and the calendar differs after a copy ends. -/
theorem endCopy_spec (kind : q.kind ≠ 8) : ∃ lastServed calendar,
    endCopy s q = { s with copies := s.copies.filter (fun x => x.id != q.id), lastServed, calendar } := by
  unfold endCopy
  dsimp only
  rw [if_neg kind, startNext_frame]
  exact ⟨_, _, rfl⟩

theorem Holds.closeIfOver (held : Holds s q) : closeIfOver s q.id = if q.over then endCopy s q else s := by
  unfold Machine.closeIfOver
  rw [held.find]

theorem Holds.hostNext (held : Holds s q) (kind : q.kind ≠ 6) : hostNext s q.id = s := by
  unfold Machine.hostNext
  rw [held.find]
  simp [kind]

/-- Every other chunk is over. -/
def OthersOver (q : Copy) (k : Nat) : Prop :=
  ∀ (i : Nat) (x : Chunk), q.chunks[i]? = some x → i ≠ k → x.st = .landed ∨ x.st = .abandoned

theorem over_set (no_walk : q.walk = none) (there : q.chunks[k]? = some c) {c' : Chunk} (done : c'.over = true) :
    ({ q with chunks := q.chunks.set k c' } : Copy).over = true ↔ OthersOver q k := by
  obtain ⟨inside, -⟩ := List.getElem?_eq_some_iff.mp there
  have chunk_over (x : Chunk) : x.over = true ↔ x.st = .landed ∨ x.st = .abandoned := by simp [Chunk.over]
  unfold Copy.over OthersOver
  dsimp only
  rw [no_walk, Bool.and_true, List.all_eq_true]
  constructor
  · intro all i x at_i other
    refine (chunk_over x).mp (all x (List.mem_of_getElem? (i := i) ?_))
    rw [List.getElem?_set, if_neg (Ne.symm other)]
    exact at_i
  · intro others x hx
    obtain ⟨i, at_i⟩ := List.mem_iff_getElem?.mp hx
    rw [List.getElem?_set] at at_i
    by_cases same : k = i
    · rw [if_pos same, if_pos inside] at at_i
      rw [← Option.some.inj at_i]
      exact done
    · rw [if_neg same] at at_i
      exact (chunk_over x).mpr (others i x at_i (Ne.symm same))

end Sys2Proof.Machine
end

section
/-! A chunk of a LINEAR copy lands (R259, R263, R264). -/
namespace Sys2Proof.Machine

variable {s : State} {q : Copy} {k n : Nat} {c : Chunk}

/-- An elastic landing that is late traps nothing (R44). -/
theorem lateTrap_elastic (elastic : (gangOf s q.gang).launch.lockstep = false) : lateTrap s q = s := by
  unfold lateTrap
  dsimp only
  split
  · simp [mayTrap, elastic]
  · rfl

/-- A chunk's block becomes what virtual memory holds. -/
theorem moveChunk_linear (linear : LinearCopy q n) (inside : InBlocks q n c.blk) (clean : s.poisonWord = [])
    (v : PlainVa s (copyWho q) (fun a => q.src ≤ a ∧ a < q.src + n)) : ∃ mem caches writers,
    moveChunk s q c = { s with mem, caches, writers } ∧ ∀ a, sget 0 mem a =
      if 2 ^ 40 + q.core / 8 * 2 ^ 24 + q.dst + blockFrom q c.blk ≤ a ∧ a < 2 ^ 40 + q.core / 8 * 2 ^ 24 + q.dst + blockTo q n c.blk
      then vbyte s (copyWho q) (q.src + (a - (2 ^ 40 + q.core / 8 * 2 ^ 24 + q.dst))) else sget 0 s.mem a := by
  have piece := linear.piece inside
  obtain ⟨proper, whole, -, fits⟩ := block_bounds linear inside
  obtain ⟨kind, ssp, dsp, fof, cvt, ldcv, -, -, -, -, dst_in, src_in, -⟩ := linear
  obtain ⟨caches, read⟩ := spaceRead_plain (s := s) (q := q) (cl := q.scl) (a := q.src + blockFrom q c.blk)
    (m := blockTo q n c.blk - blockFrom q c.blk) (v.sub fun x hx => by omega) (by omega)
  generalize bytes_eq : (List.range (blockTo q n c.blk - blockFrom q c.blk)).map
    (fun k => vbyte s (copyWho q) (q.src + blockFrom q c.blk + k)) = bs at read
  have len : bs.length = blockTo q n c.blk - blockFrom q c.blk := by rw [← bytes_eq]; simp
  obtain ⟨writers, stored⟩ := spaceWrite_cluster (s := { s with caches }) (q := q) (cl := q.dcl) (a := q.dst + blockFrom q c.blk) (bs := bs)
    v.2.2.1 clean (by omega) (by rw [len]; exact fits) (by omega) (0 * 2 ^ 40 + blockFrom q c.blk)
  refine ⟨putBytes s.mem (2 ^ 40 + q.core / 8 * 2 ^ 24 + (q.dst + blockFrom q c.blk)) bs, caches, writers, ?_, fun a => ?_⟩
  · unfold moveChunk
    rw [ldcv, if_neg Bool.false_ne_true, if_neg (by rw [kind]; decide), if_neg (by rw [kind]; decide), piece, List.foldl_cons, List.foldl_nil]
    unfold movePiece
    dsimp only
    rw [ssp, dsp, read]
    dsimp only
    rw [cvt, if_neg Bool.false_ne_true]
    exact stored
  · rw [sget_putBytes, len]
    refine ite_congr (by simp only [eq_iff_iff]; omega) (fun here => ?_) fun _ => rfl
    rw [← bytes_eq, List.getD_eq_getElem?_getD, List.getElem?_map, List.getElem?_range (by omega)]
    simp only [Option.map_some, Option.getD_some]
    congr 1
    omega

end Sys2Proof.Machine
end

section
/-! What follows the writes of a landing: the report, the tile buffer, the end of the copy (R92, R259, R263). -/
namespace Sys2Proof.Machine

variable {s : State} {q : Copy} {k n : Nat} {c : Chunk}

/-- The report stands once nothing of the copy is outstanding. -/
def reported (s : State) (q : Copy) : State := if q.over then writeReport s q else s

/-- The tile buffer notes the chunk. -/
def noted (s : State) (q : Copy) (c : Chunk) : State :=
  match chunkMark s q c with
  | some (cl, n, j, tag) => noteLanding (setBuf s cl n ((bufAt s cl n).land j (some tag))) cl n j tag
  | none => s

/-- The copy ends with its last chunk. -/
def concluded (s : State) (q : Copy) : State := closeIfOver (hostNext s q.id) q.id

/-- The bytes are written, the chunk has landed, and the monitors sample it. -/
def written (s : State) (q : Copy) (k : Nat) (c : Chunk) : State :=
  let u := setChunk (moveChunk s q c) q.id k (fun c => { c with st := .landed })
  let u := sampleEvent u q.core 2 (u.cyc - c.iss)
  if c.late then lateTrap u q else u

/-- A chunk's landing in four steps: its bytes and its state, the report, the buffer, the end. -/
theorem landChunk_eq {q' : Copy} (kind : q'.kind ≠ 3) (found : findCopy (written s q k c) q.id = some q') :
    landChunk s q k c = concluded (noted (reported (written s q k c) q') q' c) q' := by
  unfold written at found ⊢
  unfold landChunk
  dsimp only at found ⊢
  rw [found]
  dsimp only
  rw [if_neg kind]
  rfl

/-- A copy reports when it is over, asked to, and has lost nothing. -/
def Reports (q : Copy) : Prop := q.over = true ∧ q.ren = true ∧ q.lost = false

theorem reportWord_lt (q : Copy) : reportWord q < 2 ^ 64 := by
  unfold reportWord
  have := q.tag.isLt
  omega

theorem reported_spec (unarmed : s.armed = []) (clean : s.poisonWord = [])
    (fits : q.ren = true → q.dw 7 % 2 ^ 48 % 8 = 0 ∧ q.dw 7 % 2 ^ 48 + 8 ≤ 2 ^ 24) : ∃ mem writers, reported s q = { s with mem, writers } ∧
      (Reports q → ∀ a, sget 0 mem a =
        if 2 ^ 40 + q.core / 8 * 2 ^ 24 + q.dw 7 % 2 ^ 48 ≤ a ∧ a < 2 ^ 40 + q.core / 8 * 2 ^ 24 + q.dw 7 % 2 ^ 48 + 8
        then byteOf (BitVec.ofNat 64 (reportWord q)) (a - (2 ^ 40 + q.core / 8 * 2 ^ 24 + q.dw 7 % 2 ^ 48)) else sget 0 s.mem a) ∧
      (¬Reports q → mem = s.mem) := by
  unfold reported writeReport Reports
  cases over_eq : q.over with
  | false => exact ⟨s.mem, s.writers, rfl, fun report => (nomatch report.1), fun _ => rfl⟩
  | true =>
    cases asked : q.ren && !q.lost with
    | false =>
      refine ⟨s.mem, s.writers, rfl, fun report => ?_, fun _ => rfl⟩
      rw [report.2.1, report.2.2] at asked
      exact nomatch asked
    | true =>
      simp only [Bool.and_eq_true, Bool.not_eq_true'] at asked
      obtain ⟨straight, inside⟩ := fits asked.1
      obtain ⟨writers, stored⟩ := spaceWrite_cluster (s := s) (q := q) (cl := 0) (a := q.dw 7 % 2 ^ 48) (bs := toBytes 8 (reportWord q))
        unarmed clean (by rw [length_toBytes]; decide) (by rw [length_toBytes]; omega) (by omega) (2 ^ 95)
      refine ⟨_, writers, stored, fun _ a => ?_, fun silent => absurd ⟨rfl, asked⟩ silent⟩
      have word : (BitVec.ofNat 64 (reportWord q)).toNat = reportWord q := by
        rw [BitVec.toNat_ofNat]
        exact Nat.mod_eq_of_lt (reportWord_lt q)
      have stored := sget_putDword s.mem (2 ^ 40 + q.core / 8 * 2 ^ 24 + q.dw 7 % 2 ^ 48) (BitVec.ofNat 64 (reportWord q)) a
      rw [word] at stored
      exact stored

theorem land_eq (b : TileBuf) (j : Nat) (tag : BitVec 16) : b.land j (some tag) = { b with
    landed := b.landed ||| BitVec.ofNat 1024 (2 ^ j), ltag := if b.landed = 0 then tag else b.ltag
    mix := b.mix || (!decide (b.landed = 0) && decide (b.ltag ≠ tag)) } := by
  unfold TileBuf.land
  generalize b.landed ||| BitVec.ofNat 1024 (2 ^ j) = landed
  rw [beq_eq_decide]
  by_cases first : b.landed = 0
  · simp only [first, decide_true, if_true, Bool.not_true, Bool.false_and, Bool.or_false]
  · by_cases same : b.ltag = tag
    · simp only [first, same, decide_false, if_false, ne_eq, not_true, Bool.and_false, Bool.or_false, beq_self_eq_true, if_true,
        Bool.false_eq_true]
    · simp only [first, same, decide_false, if_false, ne_eq, not_false_eq_true, decide_true, Bool.not_false, Bool.and_true, Bool.or_true,
        Bool.false_eq_true, beq_iff_eq]

/-- The tile buffer's bit, tags and landing of a chunk that lies inside it. -/
theorem noted_spec (linear : LinearCopy q n) (inside : q.tben = true → (bufAt s (q.core / 8) q.tb).base ≤ c.blk) :
    ∃ bufs, noted s q c = { s with bufs, bufLandings := (if q.tben = true
        then s.bufLandings.filter (fun l => l.cyc == s.cyc) ++
          [⟨s.cyc, q.core / 8, q.tb, c.blk - (bufAt s (q.core / 8) q.tb).base, q.tag⟩] else s.bufLandings) } ∧
      ∀ cl m, m < 64 → bufAt { s with bufs } cl m = if q.tben = true ∧ cl = q.core / 8 ∧ m = q.tb then
        { bufAt s (q.core / 8) q.tb with
          landed := (bufAt s (q.core / 8) q.tb).landed ||| BitVec.ofNat 1024 (2 ^ (c.blk - (bufAt s (q.core / 8) q.tb).base))
          ltag := if (bufAt s (q.core / 8) q.tb).landed = 0 then q.tag else (bufAt s (q.core / 8) q.tb).ltag
          mix := (bufAt s (q.core / 8) q.tb).mix ||
            (!decide ((bufAt s (q.core / 8) q.tb).landed = 0) && decide ((bufAt s (q.core / 8) q.tb).ltag ≠ q.tag)) }
        else bufAt s cl m := by
  obtain ⟨kind, -, dsp, -⟩ := linear
  have cluster : q.tbCluster = q.core / 8 := by
    unfold Copy.tbCluster
    rw [dsp]
    rfl
  have not_walk : ¬q.kind = 7 := by rw [kind]; decide
  unfold noted chunkMark
  rw [if_neg not_walk, cluster]
  cases named : q.tben with
  | false => exact ⟨s.bufs, rfl, fun cl m _ => (if_neg fun both => nomatch both.1).symm⟩
  | true =>
    have low := inside named
    have small : q.tb < 64 := Nat.mod_lt _ (by decide)
    simp only [if_true, if_pos low, land_eq]
    refine ⟨_, rfl, fun cl m hm => ?_⟩
    refine (bufAt_setBuf s (q.core / 8) cl _ small hm).trans ?_
    simp only [true_and]

/-- The copy ends where it is over. -/
theorem concluded_spec (held : Holds s q) (linear : LinearCopy q n) : ∃ copies lastServed calendar,
    concluded s q = { s with copies, lastServed, calendar } ∧
    (q.over = true → copies = s.copies.filter (fun x => x.id != q.id)) ∧
    (¬q.over = true → copies = s.copies ∧ calendar = s.calendar ∧ lastServed = s.lastServed) := by
  obtain ⟨kind, -⟩ := linear
  unfold concluded
  rw [held.hostNext (by rw [kind]; decide), held.closeIfOver]
  split
  case isTrue done =>
    obtain ⟨lastServed, calendar, ended⟩ := endCopy_spec (s := s) (q := q) (by rw [kind]; decide)
    exact ⟨_, lastServed, calendar, ended, fun _ => rfl, fun not => absurd done not⟩
  case isFalse more => exact ⟨s.copies, s.lastServed, s.calendar, rfl, fun done => absurd done more, fun _ => ⟨rfl, rfl, rfl⟩⟩

end Sys2Proof.Machine
end

section
/-! CHUNK_LAND of a chunk whose source reads well (R259, R263, R264). -/
namespace Sys2Proof.Machine

variable {s : State} {q : Copy} {k n : Nat} {c : Chunk}

/-- The copy with chunk `k` landed. -/
def landedCopy (q : Copy) (k : Nat) (c : Chunk) : Copy := { q with chunks := q.chunks.set k { c with st := .landed } }

theorem landed_over (linear : LinearCopy q n) (there : q.chunks[k]? = some c) : (landedCopy q k c).over = true ↔ OthersOver q k := by
  obtain ⟨-, -, -, -, -, -, -, -, no_walk, -⟩ := linear
  exact over_set no_walk there rfl

theorem migration_none (none_there : s.migrations = []) (q : Copy) (c : Chunk) : onMigration s q c = false := by
  unfold onMigration
  rw [none_there]
  rfl

theorem hostWaits_linear (linear : LinearCopy q n) (k : Nat) : hostWaits q k = false := by
  obtain ⟨kind, -⟩ := linear
  unfold hostWaits
  rw [kind]
  rfl

/-- A chunk that arrives with no migration under way lands. -/
theorem arrive_linear (linear : LinearCopy q n) (none_there : s.migrations = []) (k : Nat) (c : Chunk) :
    arrive s q k c = landChunk s q k c := by
  have free := hostWaits_linear linear k
  obtain ⟨kind, -⟩ := linear
  unfold arrive
  rw [migration_none none_there, free, kind]
  rfl

/-- When a chunk that is due comes. -/
structure Due (s : State) (q : Copy) (c : Chunk) : Prop where
  waiting : c.st = .waiting
  issued : c.iss ≠ 2 ^ 64
  slot : (gangOf s q.gang).launch.lockstep = true → c.due ≤ s.cyc

/-- A chunk of a copy that runs, due and within its tile buffer, is tried. -/
theorem chunkLand_run (runs : RunsOn s q) (linear : LinearCopy q n) (there : q.chunks[k]? = some c) (due : Due s q c)
    (inside : q.tben = true → (bufAt s (q.core / 8) q.tb).base ≤ c.blk ∧
      c.blk - (bufAt s (q.core / 8) q.tb).base < (bufAt s (q.core / 8) q.tb).chunks) :
    exec (.chunkLand q.chan k) s = .next (match chunkFault s q c with
      | some e => failChunk (missSlot s q k) q k e.x.code e.va e.x.synd
      | none => arrive s q k c) := by
  have held := runs.holds
  obtain ⟨running, -, thawed, -⟩ := runs
  obtain ⟨kind, -, dsp, fof, -⟩ := linear
  have in_time : (copyLock s q && decide (s.cyc < c.due)) = false := by
    unfold copyLock
    cases lock : (gangOf s q.gang).launch.lockstep with
    | false => rfl
    | true => simpa using due.slot lock
  have fits : chunkOutside s q c = false := by
    have cluster : q.tbCluster = q.core / 8 := by
      unfold Copy.tbCluster
      rw [dsp]
      rfl
    unfold chunkOutside chunkMark
    rw [if_neg (by rw [kind]; decide), cluster]
    cases named : q.tben with
    | false => rfl
    | true =>
      obtain ⟨low, high⟩ := inside named
      simp only [if_true, if_pos low]
      exact decide_eq_false (by omega)
  have whole : fofCut s q c = none := by
    unfold fofCut
    rw [fof]
    rfl
  have found : runningOn s q.chan = some q := running
  refine congrArg Host.Outcome.next ?_
  simp only [found, there, due.waiting, thawed, in_time, fits, whole, held.find, due.issued, Option.getD_some, bne_self_eq_false,
    Bool.false_and, Bool.or_false, decide_false, Bool.false_eq_true, if_false] <;> rfl

end Sys2Proof.Machine
end

section
namespace Sys2Proof.Machine

variable {s : State} {q : Copy} {k n : Nat} {c : Chunk}

/-- What the writes of a landing leave: the block's bytes, the chunk's state, and the monitors' samples. -/
theorem moved_spec (held : Holds s q) (linear : LinearCopy q n) (inside : InBlocks q n c.blk) (clean : s.poisonWord = [])
    (v : PlainVa s (copyWho q) (fun a => q.src ≤ a ∧ a < q.src + n)) (there : q.chunks[k]? = some c)
    (on_time : c.late = true → (gangOf s q.gang).launch.lockstep = false) : ∃ mem caches writers monitors monBefore msgs,
    written s q k c = { s with mem, caches, writers, monitors, monBefore, msgs, copies := copiesWith s q (landedCopy q k c) } ∧
    ∀ a, sget 0 mem a = if 2 ^ 40 + q.core / 8 * 2 ^ 24 + q.dst + blockFrom q c.blk ≤ a ∧
        a < 2 ^ 40 + q.core / 8 * 2 ^ 24 + q.dst + blockTo q n c.blk
      then vbyte s (copyWho q) (q.src + (a - (2 ^ 40 + q.core / 8 * 2 ^ 24 + q.dst))) else sget 0 s.mem a := by
  obtain ⟨mem, caches, writers, moved, bytes⟩ := moveChunk_linear linear inside clean v
  have held' : Holds { s with mem, caches, writers } q := held
  have marked := held'.setChunk k (fun c => { c with st := .landed })
  rw [modify_eq_set there] at marked
  unfold written
  dsimp only
  rw [moved, marked]
  obtain ⟨t, t_eq⟩ : ∃ t, sampleEvent { s with mem, caches, writers, copies := copiesWith s q (landedCopy q k c) } q.core 2
    (s.cyc - c.iss) = t := ⟨_, rfl⟩
  have sampled : OnlySampled { s with mem, caches, writers, copies := copiesWith s q (landedCopy q k c) } t :=
    t_eq ▸ (sampleEvent_onlySampled _ _ _ _).1
  have same_gang : gangOf t q.gang = gangOf s q.gang := by
    rw [sampled]
    rfl
  refine ⟨mem, caches, writers, t.monitors, t.monBefore, t.msgs, Eq.trans ?_ sampled, bytes⟩
  refine Eq.trans ?_ t_eq
  refine ite_eq_right_iff.mpr fun late => ?_
  refine Eq.trans (congrArg (lateTrap · q) t_eq) (Eq.trans (lateTrap_elastic ?_) t_eq.symm)
  rw [same_gang]
  exact on_time late

/-- The bytes of a landing: the report over the block over what stood there. -/
theorem landed_bytes (held : Holds s q) (linear : LinearCopy q n) (inside : InBlocks q n c.blk) (clean : s.poisonWord = [])
    (v : PlainVa s (copyWho q) (fun a => q.src ≤ a ∧ a < q.src + n)) (there : q.chunks[k]? = some c)
    (on_time : c.late = true → (gangOf s q.gang).launch.lockstep = false)
    (fits : q.ren = true → q.dw 7 % 2 ^ 48 % 8 = 0 ∧ q.dw 7 % 2 ^ 48 + 8 ≤ 2 ^ 24)
    (low : q.tben = true → (bufAt s (q.core / 8) q.tb).base ≤ c.blk) :
    ∃ t, landChunk s q k c = t ∧
      t = { s with mem := t.mem, caches := t.caches, writers := t.writers, bufs := t.bufs, bufLandings := t.bufLandings, copies := t.copies
                   monitors := t.monitors, monBefore := t.monBefore, msgs := t.msgs, calendar := t.calendar
                   lastServed := t.lastServed } ∧
      t.bufLandings = (if q.tben then s.bufLandings.filter (fun l => l.cyc == s.cyc) ++
        [⟨s.cyc, q.core / 8, q.tb, c.blk - (bufAt s (q.core / 8) q.tb).base, q.tag⟩] else s.bufLandings) ∧
      (∀ a, (OthersOver q k ∧ q.ren = true ∧ q.lost = false) → 2 ^ 40 + q.core / 8 * 2 ^ 24 + q.dw 7 % 2 ^ 48 ≤ a →
        a < 2 ^ 40 + q.core / 8 * 2 ^ 24 + q.dw 7 % 2 ^ 48 + 8 →
        sget 0 t.mem a = byteOf (BitVec.ofNat 64 (reportWord q)) (a - (2 ^ 40 + q.core / 8 * 2 ^ 24 + q.dw 7 % 2 ^ 48))) ∧
      (∀ a, ¬((OthersOver q k ∧ q.ren = true ∧ q.lost = false) ∧ 2 ^ 40 + q.core / 8 * 2 ^ 24 + q.dw 7 % 2 ^ 48 ≤ a ∧
        a < 2 ^ 40 + q.core / 8 * 2 ^ 24 + q.dw 7 % 2 ^ 48 + 8) → sget 0 t.mem a =
        if 2 ^ 40 + q.core / 8 * 2 ^ 24 + q.dst + blockFrom q c.blk ≤ a ∧ a < 2 ^ 40 + q.core / 8 * 2 ^ 24 + q.dst + blockTo q n c.blk
        then vbyte s (copyWho q) (q.src + (a - (2 ^ 40 + q.core / 8 * 2 ^ 24 + q.dst))) else sget 0 s.mem a) ∧
      (∀ cl m, m < 64 → bufAt t cl m = if q.tben = true ∧ cl = q.core / 8 ∧ m = q.tb then { bufAt s (q.core / 8) q.tb with
          landed := (bufAt s (q.core / 8) q.tb).landed ||| BitVec.ofNat 1024 (2 ^ (c.blk - (bufAt s (q.core / 8) q.tb).base))
          ltag := if (bufAt s (q.core / 8) q.tb).landed = 0 then q.tag else (bufAt s (q.core / 8) q.tb).ltag
          mix := (bufAt s (q.core / 8) q.tb).mix ||
            (!decide ((bufAt s (q.core / 8) q.tb).landed = 0) && decide ((bufAt s (q.core / 8) q.tb).ltag ≠ q.tag)) }
        else bufAt s cl m) ∧
      (OthersOver q k → t.copies = s.copies.filter (fun x => x.id != q.id)) ∧
      (¬OthersOver q k → t.copies = copiesWith s q (landedCopy q k c) ∧ t.calendar = s.calendar ∧ t.lastServed = s.lastServed) := by
  have kind : (landedCopy q k c).kind ≠ 3 := by
    obtain ⟨kind, -⟩ := linear
    rw [show (landedCopy q k c).kind = q.kind from rfl, kind]
    decide
  have done := landed_over linear there
  have linear' : LinearCopy (landedCopy q k c) n := linear
  obtain ⟨mem, caches, writers, monitors, monBefore, msgs, moved, bytes⟩ := moved_spec held linear inside clean v there on_time
  have held₁ : Holds { s with mem, caches, writers, monitors, monBefore, msgs, copies := copiesWith s q (landedCopy q k c) }
    (landedCopy q k c) := held.replace rfl
  rw [landChunk_eq kind (by rw [moved]; exact held₁.find), moved]
  obtain ⟨mem₁, writers₁, report, word, silent⟩ := reported_spec
    (s := { s with mem, caches, writers, monitors, monBefore, msgs, copies := copiesWith s q (landedCopy q k c) })
    (q := landedCopy q k c) v.2.2.1 clean fits
  rw [report]
  obtain ⟨bufs, note, marks⟩ := noted_spec (c := c) (s := { s with
    mem := mem₁, caches, writers := writers₁, monitors, monBefore, msgs, copies := copiesWith s q (landedCopy q k c) }) linear' low
  rw [note]
  obtain ⟨copies, lastServed, calendar, ended, gone, kept⟩ := concluded_spec (s := { s with
    mem := mem₁, caches, writers := writers₁, monitors, monBefore, msgs, copies := copiesWith s q (landedCopy q k c), bufs
    bufLandings := if q.tben = true then s.bufLandings.filter (fun l => l.cyc == s.cyc) ++
      [⟨s.cyc, q.core / 8, q.tb, c.blk - (bufAt s (q.core / 8) q.tb).base, q.tag⟩] else s.bufLandings }) held₁ linear'
  refine ⟨_, ended, rfl, rfl, fun a reports low high => ?_, fun a elsewhere => ?_, marks, fun last => ?_,
    fun more => kept fun all => more (done.mp all)⟩
  · exact (word ⟨done.mpr reports.1, reports.2⟩ a).trans (if_pos ⟨low, high⟩)
  · refine Eq.trans ?_ (bytes a)
    by_cases rep : Reports (landedCopy q k c)
    · exact (word rep a).trans (if_neg fun here => elsewhere ⟨⟨done.mp rep.1, rep.2⟩, here⟩)
    · exact congrArg (sget 0 · a) (silent rep)
  · rw [show copies = _ from gone (done.mpr last)]
    exact copiesWith_filter rfl

end Sys2Proof.Machine
end

section
/-! A chunk whose source does not translate is parked or abandoned, with one record (R383, R384, R385). -/
namespace Sys2Proof.Machine

variable {s : State} {q : Copy} {k n : Nat} {c : Chunk}

/-! The codes of a translation that fails. -/

/-- An error has a code that R383 gives, or that of a poisoned table entry. -/
def OnlyListed {α : Type} (r : Except XErr α) : Prop := ∀ x, r = .error x → x.code ≤ 5 ∨ x.code = 0x100

theorem onlyListed_ite {α : Type} {p : Prop} [Decidable p] {a b : Except XErr α} (ha : OnlyListed a) (hb : OnlyListed b) :
    OnlyListed (if p then a else b) := by
  split
  · exact ha
  · exact hb

theorem onlyListed_ok {α : Type} (v : α) : OnlyListed (.ok v) := fun _ is_error => nomatch is_error

theorem onlyListed_error {α : Type} {code : Nat} {w : Word} (listed : code ≤ 5 ∨ code = 0x100) :
    OnlyListed (α := α) (.error ⟨code, w⟩) := fun _ same => Except.error.inj same ▸ listed

theorem walk_onlyListed (s : State) (part asid va : Nat) : OnlyListed (walk s part asid va) := by
  have poisoned : ∀ w : Word, OnlyListed (α := Word × Nat × Nat) (.error ⟨0x100, w⟩) := fun _ => onlyListed_error (.inr rfl)
  have absent : ∀ w : Word, OnlyListed (α := Word × Nat × Nat) (.error ⟨1, w⟩) := fun _ => onlyListed_error (.inl (by decide))
  have illegal : ∀ w : Word, OnlyListed (α := Word × Nat × Nat) (.error ⟨3, w⟩) := fun _ => onlyListed_error (.inl (by decide))
  unfold walk
  dsimp only
  refine onlyListed_ite (poisoned _) (onlyListed_ite (illegal _) ?root)
  refine onlyListed_ite (poisoned _) (onlyListed_ite (absent _) (onlyListed_ite (illegal _) ?first))
  refine onlyListed_ite (poisoned _) (onlyListed_ite (absent _) (onlyListed_ite (illegal _) (onlyListed_ite ?large ?second)))
  case large => exact onlyListed_ite (onlyListed_ok _) (illegal _)
  case second =>
    exact onlyListed_ite (illegal _) (onlyListed_ite (poisoned _) (onlyListed_ite (absent _) (onlyListed_ite (illegal _) (onlyListed_ok _))))

theorem leafOf_onlyListed (s : State) (part asid va : Nat) : OnlyListed (leafOf s part asid va) := by
  unfold leafOf
  refine onlyListed_ite (onlyListed_ok _) (onlyListed_ite (onlyListed_ok _) ?_)
  split
  · exact onlyListed_ok _
  case h_2 e failed => exact onlyListed_error (walk_onlyListed s part asid va e failed)

theorem homeDie_onlyListed (s : State) (part from_ va : Nat) : OnlyListed (homeDie s part from_ va) := by
  unfold homeDie
  split
  · exact onlyListed_error (.inl (by decide))
  · exact onlyListed_ite (onlyListed_ok _) (onlyListed_error (.inl (by decide)))

theorem translate_onlyListed (s : State) (part asid from_ va : Nat) (write : Bool) : OnlyListed (translate s part asid from_ va write) := by
  unfold translate
  split
  case h_1 e failed => exact onlyListed_error (homeDie_onlyListed s part from_ va e failed)
  · split
    case h_1 e failed => exact onlyListed_error (leafOf_onlyListed s part asid va e failed)
    · exact onlyListed_ite (onlyListed_error (.inl (by decide))) (onlyListed_ite (onlyListed_error (.inl (by decide)))
        (onlyListed_ite (onlyListed_error (.inl (by decide))) (onlyListed_ok _)))

/-! The slot missed, and the record. -/

theorem copiesWith_self (held : Holds s q) : copiesWith s q q = s.copies := by
  unfold copiesWith
  conv_rhs => rw [← List.map_id s.copies]
  refine List.map_congr_left fun x hx => ?_
  by_cases here : x.id = q.id
  · rw [if_pos (beq_iff_eq.mpr here), held.eq_of_id hx here]
    rfl
  · exact if_neg fun same => here (beq_iff_eq.mp same)

/-- Chunk `k` is late where it misses its slot, and else stays as it is. -/
theorem missSlot_spec (held : Holds s q) (kind : q.kind ≠ 6) (there : q.chunks[k]? = some c) : ∃ late,
    missSlot s q k = { s with copies := copiesWith s q { q with chunks := q.chunks.set k { c with late } } } ∧
    (MissesSlot s q c → late = true) ∧ (¬MissesSlot s q c → late = c.late) := by
  unfold missSlot
  rw [there]
  dsimp only
  rw [if_neg kind, held.setChunk, modify_eq_set there]
  have misses_iff : MissesSlot s q c ↔ ¬(!copyLock s q || c.late || c.slot == 2 ^ 64) = true := by
    unfold MissesSlot copyLock
    simp [and_assoc]
  split
  case isTrue in_time =>
    refine ⟨c.late, ?_, fun misses => absurd in_time (misses_iff.mp misses), fun _ => rfl⟩
    obtain ⟨inside, same⟩ := List.getElem?_eq_some_iff.mp there
    have same_chunks : q.chunks.set k c = q.chunks := by rw [← same, List.set_getElem_self]
    rw [same_chunks, show copiesWith s q { q with chunks := q.chunks } = _ from copiesWith_self held]
  case isFalse missed => exact ⟨true, rfl, fun _ => rfl, fun not => absurd (misses_iff.mpr missed) not⟩

/-- No record of a gang that has not ended is dropped. -/
theorem not_stopped (running : (gangOf s n).ending = false) :
    ((gangOf s (gangOf s n).id).stopped s.cyc && (gangOf s n).id != 0) = false := by
  unfold gangOf at running ⊢
  cases found : findGang s n with
  | none => exact Bool.and_false _
  | some g =>
    rw [found] at running
    simp only [Option.getD_some] at running ⊢
    rw [findGang_id found, found, Option.getD_some, Gang.stopped, running]
    rfl

/-- The record of a copy: `agent`, `cls` and `code` as given, and the copy's own fields. -/
def CopyRecord (q : Copy) (agent cls code a : Nat) (synd : Word) (r : Record) : Prop :=
  r.agent = agent ∧ r.cls = BitVec.ofNat 8 cls ∧ r.code = BitVec.ofNat 8 code ∧ r.addr = BitVec.ofNat 64 a ∧ r.synd = synd ∧
  r.hart = q.hart ∧ r.pc = q.pc ∧ r.tag = q.tag.toNat ∧ r.tidx = q.tidx ∧ r.chan = q.chan ∧ r.fin = false

theorem copyRecord_spec (running : (gangOf s q.gang).ending = false) (agent cls code a : Nat) (synd : Word) : ∃ r,
    copyRecord s q agent cls code a synd = { s with records := s.records ++ [r], fresh := s.fresh + 1
                                                    calendar := s.calendar ++ [(s.cyc + 2000, .faultRecordDelivery s.fresh)] } ∧
    CopyRecord q agent cls code a synd r := by
  have free := not_stopped running
  unfold copyRecord addRecord Record.about
  dsimp only
  rw [free, Bool.false_and, if_neg Bool.false_ne_true]
  exact ⟨_, rfl, rfl, rfl, rfl, rfl, rfl, rfl, rfl, rfl, rfl, rfl, rfl⟩

/-- The first fault of a copy leaves one record, and the copy notes its code and page. -/
theorem reportFault_spec (held : Holds s q) (running : (gangOf s q.gang).ending = false) (first : q.reported = []) {q₀ : Copy}
    (same : q₀.id = q.id) (code a : Nat) (synd : Word) : ∃ r page,
    reportFault s q₀ code a synd = { s with
      records := s.records ++ [r], fresh := s.fresh + 1, calendar := s.calendar ++ [(s.cyc + 2000, .faultRecordDelivery s.fresh)]
      copies := copiesWith s q { q with reported := [(code, page)] } } ∧
    (code ≠ 0x100 → CopyRecord q 2 0x10 code a synd r) ∧ (code = 0x100 → CopyRecord q 6 0x12 4 a synd r) := by
  unfold reportFault
  generalize page_eq : faultPage s q₀ a = page
  rw [same, held.find]
  dsimp only
  rw [first, held.modCopy, first]
  have running' : (gangOf { s with copies := copiesWith s q { q with reported := [(code, page)] } } q.gang).ending = false := running
  by_cases poisoned : code = 0x100
  · obtain ⟨r, stands, fields⟩ := copyRecord_spec running' 6 0x12 4 a synd
    exact ⟨r, page, (if_neg Bool.false_ne_true).trans ((if_pos poisoned).trans stands), fun other => absurd poisoned other, fun _ => fields⟩
  · obtain ⟨r, stands, fields⟩ := copyRecord_spec running' 2 0x10 code a synd
    exact ⟨r, page, (if_neg Bool.false_ne_true).trans ((if_neg poisoned).trans stands), fun _ => fields, fun same => absurd same poisoned⟩

end Sys2Proof.Machine
end

section
/-! What a chunk that fails leaves. -/
namespace Sys2Proof.Machine

variable {s : State} {q : Copy} {k n : Nat} {c : Chunk}

theorem set_modify_same {l : List Chunk} (c' : Chunk) (f : Chunk → Chunk) (inside : k < l.length) :
    (l.set k c').modify k f = l.set k (f c') := by
  rw [modify_eq_set (List.getElem?_set_self inside), List.set_set]

/-- Chunk `k` of the copy is parked (codes 0x01 to 0x03): its retry is planned (log 48). -/
theorem failChunk_parks {code : Nat} (parks : code ≤ 3) {u : State} {q' : Copy} {a : Nat} {synd : Word}
    (held : Holds u q') (same : q'.id = q.id) (reported : reportFault s q code a synd = u) :
    failChunk s q k code a synd = { u with
      copies := copiesWith u q' { q' with chunks := q'.chunks.modify k (fun c => { c with st := .parked code (a / 65536) }) }
      calendar := u.calendar ++ [(u.cyc + 2 ^ 20, .chunkRetry q.chan k)] } := by
  unfold failChunk
  dsimp only
  rw [reported, if_pos parks, ← same, held.setChunk]
  rfl

/-- Chunk `k` of the copy is abandoned (codes 0x04 and 0x05, a poisoned table entry): the copy loses bytes, and may end. -/
theorem failChunk_abandons {code : Nat} (abandons : ¬code ≤ 3) {u : State} {q' : Copy} {a : Nat} {synd : Word}
    (held : Holds u q') (same : q'.id = q.id) (linear : LinearCopy q' n) (reported : reportFault s q code a synd = u) :
    ∃ copies lastServed calendar, failChunk s q k code a synd = { u with copies, lastServed, calendar } ∧
      (({ q' with chunks := q'.chunks.modify k (fun c => { c with st := .abandoned }), lost := true } : Copy).over = true →
        copies = u.copies.filter (fun y => y.id != q'.id)) := by
  have left : Holds { u with copies := copiesWith u q' { q' with chunks := q'.chunks.modify k (fun c => { c with st := .abandoned }) } }
    { q' with chunks := q'.chunks.modify k (fun c => { c with st := .abandoned }) } := held.replace rfl
  have lost := held.replace (q' := { q' with chunks := q'.chunks.modify k (fun c => { c with st := .abandoned }), lost := true }) rfl
  have unfolded : failChunk s q k code a synd = concluded
      { u with copies := copiesWith u q' { q' with chunks := q'.chunks.modify k (fun c => { c with st := .abandoned }), lost := true } }
      { q' with chunks := q'.chunks.modify k (fun c => { c with st := .abandoned }), lost := true } := by
    unfold failChunk
    dsimp only
    rw [reported, if_neg abandons, ← same, held.setChunk, left.modCopy]
    rw [show copiesWith _ _ _ = _ from copiesWith_copiesWith (s := u) (q := q')
      (q' := { q' with chunks := q'.chunks.modify k (fun c => { c with st := .abandoned }) }) rfl _]
    rfl
  obtain ⟨copies, lastServed, calendar, ended, gone, -⟩ := concluded_spec lost linear
  refine ⟨copies, lastServed, calendar, unfolded.trans ended, fun done => (gone done).trans (copiesWith_filter rfl)⟩

/-- Every other chunk has landed. -/
def OthersLanded (q : Copy) (k : Nat) : Prop := ∀ (i : Nat) (y : Chunk), q.chunks[i]? = some y → i ≠ k → y.st = .landed

/-- What the failure of chunk `k` at byte `a` leaves (R383 to R385). -/
def ChunkFailed (s : State) (q : Copy) (k : Nat) (c : Chunk) (a : Nat) (x : XErr) (t : State) (r : Record) (page : Nat) : Prop :=
  t = { s with copies := t.copies, records := s.records ++ [r], fresh := s.fresh + 1, calendar := t.calendar
               lastServed := t.lastServed } ∧
  (x.code ≤ 5 → r.cls = 0x10 ∧ r.code.toNat = x.code ∧ r.agent = 2) ∧ (5 < x.code → r.cls = 0x12 ∧ r.code = 4 ∧ r.agent = 6) ∧
  r.addr = BitVec.ofNat 64 a ∧ r.synd = x.synd ∧ r.hart = q.hart ∧
  r.pc = q.pc ∧ r.tag = q.tag.toNat ∧ r.tidx = q.tidx ∧ r.chan = q.chan ∧ r.fin = false ∧
  (x.code ≤ 3 → ∃ late, t.copies = copiesWith s q { q with
      chunks := q.chunks.set k { c with st := .parked x.code (a / 65536), late := late }, reported := [(x.code, page)] } ∧
    t.lastServed = s.lastServed ∧
    t.calendar = s.calendar ++ [(s.cyc + 2000, .faultRecordDelivery s.fresh), (s.cyc + 2 ^ 20, .chunkRetry q.chan k)] ∧
    (MissesSlot s q c → late = true) ∧ (¬MissesSlot s q c → late = c.late)) ∧
  (3 < x.code → OthersLanded q k → t.copies = s.copies.filter (fun y => y.id != q.id))

theorem failChunk_failed (held : Holds s q) (running : (gangOf s q.gang).ending = false) (linear : LinearCopy q n)
    (there : q.chunks[k]? = some c) (first : q.reported = []) {x : XErr} (listed : x.code ≤ 5 ∨ x.code = 0x100) (a : Nat) :
    ∃ t r page, failChunk (missSlot s q k) q k x.code a x.synd = t ∧ ChunkFailed s q k c a x t r page := by
  have inside : k < q.chunks.length := (List.getElem?_eq_some_iff.mp there).1
  have kind : q.kind ≠ 6 := by
    obtain ⟨kind, -⟩ := linear
    rw [kind]
    decide
  obtain ⟨late, missed, is_late, not_late⟩ := missSlot_spec held kind there
  have held₁ : Holds { s with copies := copiesWith s q { q with chunks := q.chunks.set k { c with late } } }
    { q with chunks := q.chunks.set k { c with late } } := held.replace rfl
  obtain ⟨r, page, reported, other, poisoned⟩ := reportFault_spec (q₀ := q) held₁ running first rfl x.code a x.synd
  rw [show copiesWith _ _ _ = _ from copiesWith_copiesWith (s := s) (q := q)
    (q' := { q with chunks := q.chunks.set k { c with late } }) rfl _] at reported
  rw [missed]
  have held₂ : Holds { s with
      records := s.records ++ [r], fresh := s.fresh + 1, calendar := s.calendar ++ [(s.cyc + 2000, .faultRecordDelivery s.fresh)]
      copies := copiesWith s q { q with chunks := q.chunks.set k { c with late }, reported := [(x.code, page)] } }
    { q with chunks := q.chunks.set k { c with late }, reported := [(x.code, page)] } := held.replace rfl
  have linear₂ : LinearCopy { q with chunks := q.chunks.set k { c with late }, reported := [(x.code, page)] } n := linear
  have fields : ∃ agent cls code, CopyRecord q agent cls code a x.synd r := by
    by_cases bad : x.code = 0x100
    · exact ⟨_, _, _, poisoned bad⟩
    · exact ⟨_, _, _, other bad⟩
  obtain ⟨_, _, _, -, -, -, addr, synd, hart, pc, tag, tidx, chan, fin⟩ := fields
  refine ⟨_, r, page, rfl, ?_⟩
  have class_5 : x.code ≤ 5 → r.cls = 0x10 ∧ r.code.toNat = x.code ∧ r.agent = 2 := fun low => by
    obtain ⟨agent, cls, code, -⟩ := other (by omega)
    refine ⟨cls, ?_, agent⟩
    rw [code, BitVec.toNat_ofNat]
    exact Nat.mod_eq_of_lt (by omega)
  have class_6 : 5 < x.code → r.cls = 0x12 ∧ r.code = 4 ∧ r.agent = 6 := fun high => by
    obtain ⟨agent, cls, code, -⟩ := poisoned (by omega)
    exact ⟨cls, code, agent⟩
  by_cases parks : x.code ≤ 3
  · rw [failChunk_parks (q := q) (k := k) parks held₂ rfl reported]
    refine ⟨rfl, class_5, class_6, addr, synd, hart, pc, tag, tidx, chan, fin, fun _ => ⟨late, ?_, rfl, ?_, is_late, not_late⟩,
      fun high => absurd parks (by omega)⟩
    · refine (copiesWith_copiesWith (s := s) (q := q)
        (q' := { q with chunks := q.chunks.set k { c with late }, reported := [(x.code, page)] }) rfl _).trans ?_
      rw [set_modify_same _ _ inside]
    · exact List.append_assoc _ _ _
  · obtain ⟨copies, lastServed, calendar, ended, gone⟩ := failChunk_abandons (q := q) (k := k) parks held₂ rfl linear₂ reported
    rw [ended]
    refine ⟨rfl, class_5, class_6, addr, synd, hart, pc, tag, tidx, chan, fin, fun low => absurd low parks, fun _ others => ?_⟩
    obtain ⟨-, -, -, -, -, -, -, -, no_walk, -⟩ := linear
    refine (gone ?_).trans (copiesWith_filter rfl)
    rw [set_modify_same _ _ inside]
    exact (over_set no_walk there rfl).mpr fun i y at_i apart => .inl (others i y at_i apart)

end Sys2Proof.Machine
end

section
/-! The chunk cycle of the only open chunk of a BTE (R261), and the retry of a parked chunk (R384). -/
namespace Sys2Proof.Machine

variable {s : State} {q : Copy} {k n : Nat} {c : Chunk}

/-! Lists where one place counts. -/

theorem find_unique {α : Type} {l : List α} {p : α → Bool} {a : α} (there : a ∈ l) (good : p a = true)
    (only : ∀ x ∈ l, p x = true → x = a) : l.find? p = some a := by
  obtain ⟨x, found⟩ := Option.isSome_iff_exists.mp (List.find?_isSome.mpr ⟨a, there, good⟩)
  rw [found, only x (List.mem_of_find?_eq_some found) (List.find?_some found)]

theorem foldl_single {α β : Type} {f : β → α → β} {b : β} {a : α} : ∀ {l : List α}, l.Nodup → a ∈ l →
    (∀ (b : β), ∀ x ∈ l, x ≠ a → f b x = b) → l.foldl f b = f b a
  | [], _, there, _ => absurd there List.not_mem_nil
  | x :: l, distinct, there, idle => by
    obtain ⟨fresh, distinct⟩ := List.nodup_cons.mp distinct
    have still : ∀ (b : β) (l' : List α), (∀ y ∈ l', f b y = b) → l'.foldl f b = b := fun b l' h => by
      induction l' with
      | nil => rfl
      | cons y l' ih => rw [List.foldl_cons, h y List.mem_cons_self, ih fun z hz => h z (List.mem_cons_of_mem y hz)]
    rw [List.foldl_cons]
    rcases List.mem_cons.mp there with here | later
    · subst here
      exact still _ l fun y hy => idle _ y (List.mem_cons_of_mem a hy) fun same => fresh (same ▸ hy)
    · rw [idle b x List.mem_cons_self fun same => fresh (same ▸ later)]
      exact foldl_single distinct later fun b y hy => idle b y (List.mem_cons_of_mem x hy)

theorem filterMap_single {α β : Type} {f : α → Option β} {a : α} {b : β} (value : f a = some b) : ∀ {l : List α}, l.Nodup → a ∈ l →
    (∀ x ∈ l, x ≠ a → f x = none) → l.filterMap f = [b]
  | [], _, there, _ => absurd there List.not_mem_nil
  | x :: l, distinct, there, idle => by
    obtain ⟨fresh, distinct⟩ := List.nodup_cons.mp distinct
    rcases List.mem_cons.mp there with here | later
    · subst here
      rw [List.filterMap_cons, value, List.filterMap_eq_nil_iff.mpr fun y hy => idle y (List.mem_cons_of_mem a hy) fun same => fresh (same ▸ hy)]
    · rw [List.filterMap_cons, idle x List.mem_cons_self fun same => fresh (same ▸ later)]
      exact filterMap_single value distinct later fun y hy => idle y (List.mem_cons_of_mem x hy)

/-! What is open, and the cycle that it takes. -/

/-- The copy is the only one of its BTE. -/
def Alone (s : State) (q : Copy) : Prop := s.copies.filter (fun y => y.chan / 16 == q.chan / 16) = [q]

theorem Alone.eq (alone : Alone s q) {x : Copy} (hx : x ∈ s.copies) (same : x.chan / 16 = q.chan / 16) : x = q :=
  List.mem_singleton.mp (alone ▸ List.mem_filter.mpr ⟨hx, beq_iff_eq.mpr same⟩)

/-- The chunks that need a cycle, where one copy has one of them. -/
def oneOpen (ch id k : Nat) : List (List (Nat × Nat)) := (List.range 16).map (fun i => if i = ch then [(id, k)] else [])

theorem openChunks_one {lock : Bool} (alone : ∀ x ∈ s.copies, x.chan / 16 = q.chan / 16 → x = q) (there : q ∈ s.copies)
    (started : q.started = true) (thawed : q.frozen = false) (at_k : q.chunks[k]? = some c) (needs : c.open_ lock s.cyc = true)
    (others : ∀ (i : Nat) (y : Chunk), q.chunks[i]? = some y → i ≠ k → y.open_ lock s.cyc = false) :
    openChunks s (q.chan / 16) lock = oneOpen (q.chan % 16) q.id k := by
  have goes : q.goes = true := by
    unfold Copy.goes
    rw [started, thawed]
    rfl
  obtain ⟨inside, -⟩ := List.getElem?_eq_some_iff.mp at_k
  unfold openChunks oneOpen
  refine List.map_congr_left fun ch hch => ?_
  have small : ch < 16 := List.mem_range.mp hch
  by_cases mine : ch = q.chan % 16
  · have found : s.copies.find? (fun x => x.chan == q.chan / 16 * 16 + ch && x.goes) = some q := by
      refine find_unique there ?_ fun x hx this => alone x hx ?_
      · rw [goes, Bool.and_true, beq_iff_eq]
        omega
      · simp only [Bool.and_eq_true, beq_iff_eq] at this
        omega
    rw [found, if_pos mine]
    refine filterMap_single (a := k) ?_ List.nodup_range (List.mem_range.mpr inside) fun i hi apart => ?_
    · rw [at_k]
      exact if_pos needs
    · obtain ⟨y, at_i⟩ : ∃ y, q.chunks[i]? = some y := ⟨_, List.getElem?_eq_getElem (List.mem_range.mp hi)⟩
      rw [at_i]
      exact if_neg (by rw [others i y at_i apart]; decide)
  · have none_there : s.copies.find? (fun x => x.chan == q.chan / 16 * 16 + ch && x.goes) = none := by
      refine List.find?_eq_none.mpr fun x hx this => ?_
      simp only [Bool.and_eq_true, beq_iff_eq] at this
      have same := alone x hx (by omega)
      rw [same] at this
      omega
    rw [none_there, if_neg mine]

theorem oneOpen_getD {ch id : Nat} (small : ch < 16) (i : Nat) : (oneOpen ch id k).getD i [] = if i = ch then [(id, k)] else [] := by
  unfold oneOpen
  rw [List.getD_eq_getElem?_getD, List.getElem?_map]
  by_cases inside : i < 16
  · rw [List.getElem?_range inside]
    rfl
  · rw [List.getElem?_eq_none (by rw [List.length_range]; omega), if_neg (by omega)]
    rfl

theorem oneOpen_count {ch id : Nat} (small : ch < 16) : ((oneOpen ch id k).map List.length).sum = 1 := by
  have lengths : (oneOpen ch id k).map List.length = (List.range 16).map (fun i => if i = ch then 1 else 0) := by
    unfold oneOpen
    rw [List.map_map]
    exact List.map_congr_left fun i _ => by simp only [Function.comp_apply, apply_ite List.length]; rfl
  have counted : ∀ ch < 16, ((List.range 16).map (fun i => if i = ch then 1 else 0)).sum = 1 := by decide
  rw [lengths, counted ch small]

/-- One open chunk takes the next cycle. -/
theorem serve_one {ch id : Nat} (small : ch < 16) (t last : Nat) : serve 1 t last (oneOpen ch id k) = [(id, k, t)] := by
  obtain ⟨i, found⟩ := Option.isSome_iff_exists.mp (List.find?_isSome (xs := List.range 16)
    (p := fun i => !((oneOpen ch id k).getD ((last + 1 + i) % 16) []).isEmpty) |>.mpr
      ⟨(ch + 16 - (last + 1) % 16) % 16, List.mem_range.mpr (by omega), by
        rw [oneOpen_getD small, if_pos (by omega)]
        rfl⟩)
  have here := List.find?_some found
  rw [oneOpen_getD small] at here
  have mine : (last + 1 + i) % 16 = ch := by
    by_contra apart
    rw [if_neg apart] at here
    exact absurd here (by decide)
  unfold serve
  rw [found]
  dsimp only
  rw [mine, oneOpen_getD small, if_pos rfl]
  rfl

end Sys2Proof.Machine
end

section
namespace Sys2Proof.Machine

variable {s : State} {q : Copy} {k n : Nat} {c : Chunk}

/-! Fetching lines changes the caches only. -/

theorem noteLine_caches (s : State) (part : Nat) (x : Xlat) : ∃ caches, noteLine s part x = { s with caches } := by
  unfold noteLine
  dsimp only
  split
  · exact ⟨s.caches, rfl⟩
  · exact ⟨_, rfl⟩

theorem startWalk_caches (s : State) (u t reads : Nat) : ∃ caches, (startWalk s u t reads).1 = { s with caches } := ⟨_, rfl⟩

theorem fetchLine_caches (s : State) (part asid from_ va : Nat) (write : Bool) :
    ∃ caches, (fetchLine s part asid from_ va write).1 = { s with caches } := by
  unfold fetchLine
  split
  · split
    · exact ⟨s.caches, rfl⟩
    · exact startWalk_caches s _ _ _
  · dsimp only
    split
    · exact noteLine_caches s _ _
    · split
      · exact noteLine_caches s _ _
      · exact noteLine_caches _ _ _

theorem fetchLines_caches (s : State) (q : Copy) (lock : Bool) (c : Chunk) : ∃ caches, (fetchLines s q lock c).1 = { s with caches } := by
  unfold fetchLines
  dsimp only
  generalize (0, 0) = d
  induction chunkVas q c generalizing s d with
  | nil => exact ⟨s.caches, rfl⟩
  | cons v l ih =>
    obtain ⟨caches, first⟩ := fetchLine_caches s q.part q.asid q.die v.1 v.2
    rw [List.foldl_cons]
    dsimp only
    rw [first]
    exact ih { s with caches } _

/-! The latency of a chunk is positive (log 26). -/

theorem partLatency_pos (s : State) (q : Copy) (lock : Bool) (src dest : Spot4) : 0 < partLatency s q lock src dest := by
  unfold partLatency
  dsimp only
  split
  · omega
  · omega
  · split <;> omega
  · split
    · omega
    · split <;> omega

theorem le_foldl_max_of {α : Type} (f : α → Nat) (l : List α) (m : Nat) : m ≤ l.foldl (fun m a => max m (f a)) m := by
  induction l generalizing m with
  | nil => exact Nat.le_refl m
  | cons a l ih => exact Nat.le_trans (Nat.le_max_left m (f a)) (ih _)

theorem chunkSources_ne_nil (kind : q.kind ≠ 3) (c : Chunk) : chunkSources q c ≠ [] := by
  unfold chunkSources
  rw [if_neg kind]
  split
  · exact List.cons_ne_nil _ _
  · dsimp only
    split
    · exact List.cons_ne_nil _ _
    case isFalse some_part => exact fun none_there => some_part (List.isEmpty_iff.mpr none_there)

theorem chunkLatency_pos (s : State) (kind : q.kind ≠ 3) (lock : Bool) (c : Chunk) : 0 < chunkLatency s q lock c := by
  obtain ⟨a, l, some_source⟩ := List.exists_cons_of_ne_nil (chunkSources_ne_nil kind c)
  unfold chunkLatency
  rw [some_source, List.foldl_cons]
  exact Nat.lt_of_lt_of_le (Nat.lt_of_lt_of_le (partLatency_pos s q lock _ _) (Nat.le_max_right 0 _)) (le_foldl_max_of _ _ _)

/-! The chunk cycle. -/

/-- Chunk `k` is to land at `t`. -/
theorem Holds.landAt (held : Holds s q) {q₀ : Copy} (same : q₀.id = q.id) (k t : Nat) : landAt s q₀ k t = { s with
    copies := copiesWith s q { q with chunks := q.chunks.modify k (fun c => { c with due := t }) }
    calendar := s.calendar.filter (fun e => !isLand q₀.chan k e) ++ [(t, .chunkLand q₀.chan k)] } := by
  unfold Machine.landAt
  rw [same, held.setChunk]
  rfl

/-- No slot of an elastic copy is missed. -/
theorem missSlot_elastic (elastic : (gangOf s q.gang).launch.lockstep = false) (k : Nat) : missSlot s q k = s := by
  unfold missSlot copyLock
  rw [elastic]
  split <;> rfl

/-- A chunk without a cycle takes one: it is issued at `t` and lands later, and its landing stands in the calendar. -/
theorem planChunk_elastic (held : Holds s q) (elastic : (gangOf s q.gang).launch.lockstep = false) (kind : q.kind ≠ 3)
    (there : q.chunks[k]? = some c) (unissued : c.iss = 2 ^ 64) (t : Nat) : ∃ caches due slot calendar,
      planChunk false s (q.id, k, t) = { s with caches, calendar
                                                copies := copiesWith s q { q with chunks := q.chunks.set k { c with iss := t, due, slot } } } ∧
      t < due ∧ (due, .chunkLand q.chan k) ∈ calendar := by
  obtain ⟨caches, fetched⟩ := fetchLines_caches s q false c
  have later := chunkLatency_pos s kind false c
  obtain ⟨inside, -⟩ := List.getElem?_eq_some_iff.mp there
  unfold planChunk
  dsimp only
  rw [held.find]
  dsimp only
  rw [there]
  dsimp only
  rw [unissued, bne_self_eq_false, Bool.false_and, if_neg Bool.false_ne_true, fetched]
  have held₁ : Holds { s with caches } q := held
  rw [held₁.setChunk, modify_eq_set there]
  generalize slot_eq : (if c.slot = 2 ^ 64 then t + chunkLatency s q false c - q.lag else c.slot) = slot
  generalize due_eq : t + chunkLatency s q false c + (fetchLines s q false c).2 = due
  have held₂ : Holds { s with caches, copies := copiesWith { s with caches } q { q with chunks := q.chunks.set k { c with iss := t, slot } } }
    { q with chunks := q.chunks.set k { c with iss := t, slot } } := held.replace rfl
  have planned := held₂.landAt (q₀ := q) rfl k due
  rw [set_modify_same _ _ inside, show copiesWith _ _ _ = _ from copiesWith_copiesWith (s := { s with caches }) (q := q)
    (q' := { q with chunks := q.chunks.set k { c with iss := t, slot } }) rfl _] at planned
  rw [planned]
  refine ⟨caches, due, slot, s.calendar.filter (fun e => !isLand q.chan k e) ++ [(due, .chunkLand q.chan k)], ?_, by omega,
      List.mem_append_right _ (List.mem_singleton_self _)⟩
  have held₃ : Holds { s with
    caches, copies := copiesWith { s with caches } q { q with chunks := q.chunks.set k { c with iss := t, due, slot } }
    calendar := s.calendar.filter (fun e => !isLand q.chan k e) ++ [(due, .chunkLand q.chan k)] }
    { q with chunks := q.chunks.set k { c with iss := t, due, slot } } := held.replace rfl
  rw [held₃.find]
  dsimp only
  exact ite_eq_right_iff.mpr fun _ => missSlot_elastic (by exact elastic) k

/-- The only open chunk of a BTE takes its next cycle. -/
theorem planBte_one (held : Holds s q) (alone : ∀ x ∈ s.copies, x.chan / 16 = q.chan / 16 → x = q) (started : q.started = true)
    (thawed : q.frozen = false) (elastic : (gangOf s q.gang).launch.lockstep = false) (kind : q.kind ≠ 3)
    (there : q.chunks[k]? = some c) (waiting : c.st = .waiting) (unissued : c.iss = 2 ^ 64) (early : s.cyc < 2 ^ 64)
    (others : ∀ (i : Nat) (y : Chunk), q.chunks[i]? = some y → i ≠ k → y.st ≠ .waiting) : ∃ caches iss due slot calendar,
      planBte s (q.chan / 16) false = { s with
        caches, calendar, free := s.free + 1, copies := copiesWith s q { q with chunks := q.chunks.set k { c with iss, due, slot } } } ∧
      s.cyc ≤ iss ∧ iss < due ∧ (due, .chunkLand q.chan k) ∈ calendar := by
  have needs : c.open_ false s.cyc = true := by
    unfold Chunk.open_
    rw [waiting, unissued, if_neg Bool.false_ne_true, decide_eq_true (Nat.le_of_lt early)]
    rfl
  have closed : ∀ (i : Nat) (y : Chunk), q.chunks[i]? = some y → i ≠ k → y.open_ false s.cyc = false := fun i y at_i apart => by
    unfold Chunk.open_
    rw [beq_eq_false_iff_ne.mpr (others i y at_i apart), Bool.false_and]
  have small : q.chan % 16 < 16 := Nat.mod_lt _ (by decide)
  unfold planBte
  dsimp only
  rw [openChunks_one alone held.1 started thawed there needs closed, oneOpen_count small, serve_one small, List.foldl_cons, List.foldl_nil]
  generalize cycle_eq : (if (lastCycle s (q.chan / 16) false).2 = 0 then s.cyc else max s.cyc ((lastCycle s (q.chan / 16) false).2 + 4)) = iss
  obtain ⟨caches, due, slot, calendar, planned, later, lands⟩ := planChunk_elastic held elastic kind there unissued iss
  rw [planned]
  refine ⟨caches, iss, due, slot, calendar, rfl, ?_, later, lands⟩
  rw [← cycle_eq]
  split
  · exact Nat.le_refl _
  · exact Nat.le_max_left _ _

/-- A parked chunk of an elastic copy, alone in its BTE, waits for a new landing. -/
theorem retryChunk_spec (held : Holds s q) (alone : Alone s q) (started : q.started = true) (thawed : q.frozen = false)
    (elastic : (gangOf s q.gang).launch.lockstep = false) (kind : q.kind ≠ 3) (there : q.chunks[k]? = some c) {code page : Nat}
    (parked : c.st = .parked code page) (others : OthersLanded q k) (early : s.cyc < 2 ^ 64) : ∃ caches iss due slot calendar,
      retryChunk s q k = { s with caches, calendar, free := s.free + 1
                                  copies := copiesWith s q { q with chunks := q.chunks.set k { c with st := .waiting, iss, due, slot } } } ∧
      s.cyc ≤ iss ∧ iss < due ∧ (due, .chunkLand q.chan k) ∈ calendar := by
  obtain ⟨inside, -⟩ := List.getElem?_eq_some_iff.mp there
  have held₁ : Holds { s with copies := copiesWith s q { q with chunks := q.chunks.set k { c with st := .waiting, iss := 2 ^ 64, due := 2 ^ 64 } } }
    { q with chunks := q.chunks.set k { c with st := .waiting, iss := 2 ^ 64, due := 2 ^ 64 } } := held.replace rfl
  have only : ∀ x ∈ copiesWith s q { q with chunks := q.chunks.set k { c with st := .waiting, iss := 2 ^ 64, due := 2 ^ 64 } },
      x.chan / 16 = q.chan / 16 → x = { q with chunks := q.chunks.set k { c with st := .waiting, iss := 2 ^ 64, due := 2 ^ 64 } } := by
    intro x hx same
    obtain ⟨y, hy, mapped⟩ := List.mem_map.mp hx
    by_cases mine : y.id = q.id
    · exact (mapped.symm.trans (if_pos (beq_iff_eq.mpr mine)))
    · have kept : x = y := mapped.symm.trans (if_neg fun this => mine (beq_iff_eq.mp this))
      exact absurd (congrArg (fun z => z.id) (alone.eq hy (kept ▸ same))) mine
  obtain ⟨caches, iss, due, slot, calendar, planned, later, lands, listed⟩ := planBte_one held₁ only started thawed elastic kind
    (List.getElem?_set_self inside) rfl rfl early fun i y at_i apart => by
      rw [List.getElem?_set_ne (Ne.symm apart)] at at_i
      rw [others i y at_i apart]
      decide
  refine ⟨caches, iss, due, slot, calendar, ?_, later, lands, listed⟩
  unfold retryChunk copyLock
  rw [there]
  dsimp only
  rw [parked, elastic, held.setChunk, modify_eq_set there]
  dsimp only
  refine planned.trans ?_
  rw [List.set_set, show copiesWith _ _ _ = _ from copiesWith_copiesWith (s := s) (q := q)
    (q' := { q with chunks := q.chunks.set k { c with st := .waiting, iss := 2 ^ 64, due := 2 ^ 64 } }) rfl _]

end Sys2Proof.Machine
end

section
/-! TRANSLATION_WALK over the only chunk that waits (R383), and the obligation. -/
namespace Sys2Proof.Machine

variable {s : State} {q : Copy} {k n : Nat} {c : Chunk} {x : XErr}

/-- The one chunk that waits decides what a walk does: its source fails at `a`. -/
theorem translationWalk_one (only : s.copies.filter (fun y => y.asid == q.asid) = [q]) (started : q.started = true)
    (thawed : q.frozen = false) (fof : q.fof = false) (there : q.chunks[k]? = some c) (waiting : c.st = .waiting)
    (others : ∀ (i : Nat) (y : Chunk), q.chunks[i]? = some y → i ≠ k → y.st ≠ .waiting) {e : AccessErr} (fault : chunkFault s q c = some e)
    (listed : e.x.code ≤ 5 ∨ e.x.code = 0x100) (va : Nat) : exec (.translationWalk q.asid va) s =
      .next (if e.va / 65536 = va / 65536 then failChunk (missSlot s q k) q k e.x.code e.va e.x.synd else s) := by
  have goes : q.goes = true := by
    unfold Copy.goes
    rw [started, thawed]
    rfl
  have mine : s.copies.filter (fun y => y.asid == q.asid && y.goes) = [q] := by
    rw [show (fun y : Copy => y.asid == q.asid && y.goes) = fun y => y.goes && y.asid == q.asid from funext fun y => Bool.and_comm _ _,
      ← List.filter_filter, only, List.filter_cons_of_pos goes, List.filter_nil]
  obtain ⟨inside, -⟩ := List.getElem?_eq_some_iff.mp there
  have whole : fofCut s q c = none := by
    unfold fofCut
    rw [fof]
    rfl
  have code : (decide (e.x.code ≤ 5) || e.x.code == 0x100) = true := by
    rcases listed with low | poisoned
    · rw [decide_eq_true low, Bool.true_or]
    · rw [poisoned]
      rfl
  refine congrArg Host.Outcome.next ?_
  rw [mine, List.foldl_cons, List.foldl_nil]
  refine (foldl_single (a := k) List.nodup_range (List.mem_range.mpr inside) fun u i hi apart => ?_).trans ?_
  · rw [List.getElem?_eq_getElem (List.mem_range.mp hi)]
    have still := others i _ (List.getElem?_eq_getElem (List.mem_range.mp hi)) apart
    exact if_pos (bne_iff_ne.mpr still)
  · rw [there]
    dsimp only
    rw [waiting, bne_self_eq_false, if_neg Bool.false_ne_true, fault]
    dsimp only
    rw [code, Bool.and_true, whole]
    simp only [beq_iff_eq]

/-- Nothing keeps a chunk from reading a plain source. -/
theorem chunkFault_plain (linear : LinearCopy q n) (inside : InBlocks q n c.blk)
    (v : PlainVa s (copyWho q) (fun a => q.src ≤ a ∧ a < q.src + n)) : chunkFault s q c = none := by
  obtain ⟨proper, whole, -⟩ := block_bounds linear inside
  rw [chunkFault_linear linear inside]
  obtain ⟨-, -, -, -, -, -, -, -, -, -, -, src_in, -⟩ := linear
  obtain ⟨-, clean, -, mapped, -⟩ := v
  refine readFault_none (by omega) clean fun y low high => ?_
  obtain ⟨-, z, found, -⟩ := mapped y ⟨by omega, by omega⟩
  exact ⟨z, translate_read found⟩

/-- The first byte of the chunk's source does not translate. -/
theorem chunkFault_unmapped (linear : LinearCopy q n) (inside : InBlocks q n c.blk)
    (fails : translate s q.part q.asid (q.core / 96) (q.src + blockFrom q c.blk) false = .error x) :
    chunkFault s q c = some ⟨q.src + blockFrom q c.blk, x⟩ := by
  obtain ⟨proper, whole, -⟩ := block_bounds linear inside
  rw [chunkFault_linear linear inside]
  obtain ⟨-, -, -, -, -, -, -, -, -, -, -, src_in, -⟩ := linear
  exact readFault_some (by omega) (by omega) fails

/-- A retry of a copy that is no REPLAY. -/
theorem chunkRetry_run (found : runningOn s q.chan = some q) (kind : q.kind ≠ 8) (k : Nat) :
    exec (.chunkRetry q.chan k) s = .next (retryChunk s q k) := by
  refine congrArg Host.Outcome.next ?_
  rw [found]
  exact if_neg kind

end Sys2Proof.Machine

open Sys2Proof Sys2Proof.Machine

/-- Settles O44: a landing is its bytes, its report, its tile buffer and its copy's end, each described once; a chunk that fails
leaves `ChunkFailed`, and a retried chunk takes the next cycle of its BTE. -/
theorem chunksLandAndPark : Obligations.ChunksLandAndPark := by
  refine ⟨?lands, ?parks⟩
  case lands =>
    intro s q k n c runs linear there waiting issued due low high
    dsimp only
    intro plain clean straight below inside on_time
    obtain ⟨t, landed, rest⟩ := landed_bytes runs.holds linear ⟨low, high⟩ clean plain there on_time
        (fun _ => ⟨straight, below⟩) fun named => (inside named).1
    refine ⟨t, ?_, rest⟩
    rw [chunkLand_run runs linear there ⟨waiting, issued, due⟩ inside, chunkFault_plain linear ⟨low, high⟩ plain]
    dsimp only
    rw [arrive_linear linear plain.1, landed]
  case parks =>
    intro s q k n c x runs linear there untracked started low high
    refine ⟨fun waiting first fails => ?_, fun code page parked others alone early elastic => ?_⟩
    · have fault := chunkFault_unmapped linear ⟨low, high⟩ fails
      have listed := translate_onlyListed _ _ _ _ _ _ x fails
      obtain ⟨t, r, page, failed, what⟩ := failChunk_failed runs.holds runs.2.2.2 linear there first listed (q.src + blockFrom q c.blk)
      have walks : ∀ va, s.copies.filter (fun y => y.asid == q.asid) = [q] → OthersLanded q k → exec (.translationWalk q.asid va) s =
          .next (if (q.src + blockFrom q c.blk) / 65536 = va / 65536 then t else s) := fun va only others => by
        rw [← failed]
        obtain ⟨-, -, -, fof, -⟩ := linear
        exact translationWalk_one only started runs.2.2.1 fof there waiting
          (fun i y at_i apart => by rw [others i y at_i apart]; decide) fault listed va
      refine ⟨fun issued due => ⟨t, r, page, ?_, what⟩, fun only others => ⟨t, r, page, ?_, what⟩, fun only others va apart => ?_⟩
      · rw [chunkLand_run runs linear there ⟨waiting, issued, due⟩ (fun named => absurd named (by rw [untracked]; decide)), fault]
        exact congrArg Host.Outcome.next failed
      · obtain ⟨proper, whole, -⟩ := block_bounds linear ⟨low, high⟩
        obtain ⟨-, -, -, -, -, -, -, -, -, -, -, src_in, -⟩ := linear
        rw [walks _ only others, BitVec.toNat_ofNat, Nat.mod_eq_of_lt (by omega), if_pos rfl]
      · rw [walks va only others, if_neg (Ne.symm apart)]
    · obtain ⟨kind, -⟩ := linear
      obtain ⟨caches, iss, due, slot, calendar, retried, later, lands, listed⟩ := retryChunk_spec runs.holds alone started runs.2.2.1
        elastic (by rw [kind]; decide) there parked others early
      exact ⟨_, iss, due, slot, (chunkRetry_run runs.1 (by rw [kind]; decide) k).trans (congrArg Host.Outcome.next retried), rfl, later, lands,
        listed⟩

end

section
/-! The cells of an accumulator tile under a list of terms (R226, R231): each cell takes the terms of its row and column in turn. -/
namespace Sys2Proof.Machine

/-! One cell and one term. -/

theorem cellVal_mkCell (cf : Bool) (v : Int) : cellVal (mkCell cf v) = (v + 2 ^ 39) % 2 ^ 40 - 2 ^ 39 := by
  unfold cellVal mkCell
  rw [BitVec.setWidth_append, dif_pos (by decide), BitVec.setWidth_eq, BitVec.toInt_ofInt, Int.bmod_def]
  norm_num
  split <;> omega

theorem cellCf_mkCell (cf : Bool) (v : Int) : cellCf (mkCell cf v) = cf := by
  unfold cellCf mkCell
  rw [BitVec.getLsbD_append]
  simp

theorem cellVal_bounds (c : BitVec 41) : -2 ^ 39 ≤ cellVal c ∧ cellVal c < 2 ^ 39 :=
  ⟨BitVec.le_toInt _, BitVec.toInt_lt⟩

theorem mkCell_self (c : BitVec 41) : mkCell (cellCf c) (cellVal c) = c := by
  unfold mkCell cellCf cellVal
  rw [BitVec.ofInt_toInt]
  refine BitVec.eq_of_getLsbD_eq fun i hi => ?_
  rw [BitVec.getLsbD_append]
  by_cases low : i < 40
  · simp [low]
  · have top : i = 40 := by omega
    subst top
    simp

/-- An INT cell does not change with the term 0. -/
theorem addTerm_zero {mode : Nat} (wraps : mode ≠ 1) (c : BitVec 41) : addTerm mode c 0 = c := by
  obtain ⟨low, high⟩ := cellVal_bounds c
  unfold addTerm
  dsimp only
  rw [if_neg wraps, Int.add_zero, decide_eq_false (by omega), decide_eq_false (by omega), Bool.or_false, Bool.or_false, mkCell_self]

theorem addTerm_saturates (c : BitVec 41) (t : Int) :
    cellVal (addTerm 1 c t) = (if cellVal c + t < -2 ^ 31 then -2 ^ 31 else if 2 ^ 31 - 1 < cellVal c + t then 2 ^ 31 - 1 else cellVal c + t) ∧
    cellCf (addTerm 1 c t) = (cellCf c || decide ((if cellVal c + t < -2 ^ 31 then -2 ^ 31
      else if 2 ^ 31 - 1 < cellVal c + t then 2 ^ 31 - 1 else cellVal c + t) ≠ cellVal c + t)) := by
  have clamp : max (-(2 ^ 31)) (min (2 ^ 31 - 1) (cellVal c + t)) =
      if cellVal c + t < -2 ^ 31 then -2 ^ 31 else if 2 ^ 31 - 1 < cellVal c + t then 2 ^ 31 - 1 else cellVal c + t := by
    split
    · omega
    · split <;> omega
  unfold addTerm
  dsimp only
  rw [if_pos rfl, clamp, cellVal_mkCell, cellCf_mkCell]
  refine ⟨?_, ?_⟩
  · split
    · norm_num
    · split <;> omega
  · rw [bne, beq_eq_decide, ← decide_not]

theorem addTerm_wraps {mode : Nat} (wraps : mode ≠ 1) (c : BitVec 41) (t : Int) :
    cellVal (addTerm mode c t) = (cellVal c + t + 2 ^ 39) % 2 ^ 40 - 2 ^ 39 ∧
    cellCf (addTerm mode c t) = (cellCf c || decide (cellVal c + t < -2 ^ 39 ∨ 2 ^ 39 ≤ cellVal c + t)) := by
  unfold addTerm
  dsimp only
  rw [if_neg wraps, cellVal_mkCell, cellCf_mkCell, Bool.decide_or, Bool.or_assoc]
  exact ⟨rfl, rfl⟩

/-- A cell that takes terms in turn. -/
theorem accumulates_foldl (mode : Nat) (old : BitVec 41) (ts : List Int) : Accumulates mode old (ts.foldl (addTerm mode) old) ts := by
  refine ⟨fun k => cellVal ((ts.take k).foldl (addTerm mode) old), fun k => cellCf ((ts.take k).foldl (addTerm mode) old), rfl, rfl,
    by simp only [List.take_length], by simp only [List.take_length], fun k hk => ?_⟩
  have next : (ts.take (k + 1)).foldl (addTerm mode) old = addTerm mode ((ts.take k).foldl (addTerm mode) old) (ts.getD k 0) := by
    rw [List.take_add_one, List.getElem?_eq_getElem hk, List.foldl_append, List.getD_eq_getElem _ _ hk]
    rfl
  dsimp only
  rw [next]
  split
  case isTrue saturates =>
    subst saturates
    exact addTerm_saturates _ _
  case isFalse wraps => exact addTerm_wraps wraps _ _

/-! One term for each cell: the positions of a list of terms, at most one for a cell. -/

/-- The list gives cell (i, j) the term `f i j`, and no other; a cell that it leaves out has the term 0. -/
structure Spreads (ps : List (Nat × Nat × Int)) (f : Nat → Nat → Int) : Prop where
  inside : ∀ p ∈ ps, p.1 < 256 ∧ p.2.1 < 256 ∧ p.2.2 = f p.1 p.2.1
  distinct : (ps.map (fun p => (p.1, p.2.1))).Nodup
  missing : ∀ i j, i < 256 → j < 256 → (∀ p ∈ ps, (p.1, p.2.1) ≠ (i, j)) → f i j = 0

theorem cellKey_inj {core i j i' j' : Nat} (_ : i < 256) (hj : j < 256) (_ : i' < 256) (hj' : j' < 256) :
    cellKey core i j = cellKey core i' j' ↔ (i, j) = (i', j') := by
  unfold cellKey
  rw [Prod.mk.injEq]
  omega

theorem cellKey_core {core i j : Nat} (hi : i < 256) (hj : j < 256) : cellKey core i j / 65536 = core := by
  unfold cellKey
  omega

/-- The writes of a list of terms change the cells that it names, once each. -/
theorem sget_foldl_addTerm {mode core : Nat} (ps : List (Nat × Nat × Int)) (acc : Sparse (BitVec 41)) (k : Nat)
    (distinct : (ps.map (fun p => cellKey core p.1 p.2.1)).Nodup) :
    sget 0 (ps.foldl (fun a p => sset 0 a (cellKey core p.1 p.2.1) (addTerm mode (sget 0 a (cellKey core p.1 p.2.1)) p.2.2)) acc) k =
      match ps.find? (fun p => cellKey core p.1 p.2.1 == k) with
      | some p => addTerm mode (sget 0 acc k) p.2.2
      | none => sget 0 acc k := by
  induction ps generalizing acc with
  | nil => rfl
  | cons p ps ih =>
    obtain ⟨fresh, distinct⟩ := List.nodup_cons.mp distinct
    rw [List.foldl_cons, ih _ distinct, sget_sset, List.find?_cons]
    by_cases here : cellKey core p.1 p.2.1 = k
    · have gone : ps.find? (fun p => cellKey core p.1 p.2.1 == k) = none := List.find?_eq_none.mpr fun x hx same =>
        fresh (List.mem_map.mpr ⟨x, hx, (beq_iff_eq.mp same).trans here.symm⟩)
      rw [gone, beq_iff_eq.mpr here]
      dsimp only
      rw [if_pos here.symm, here]
    · rw [beq_eq_false_iff_ne.mpr here, if_neg (Ne.symm here)]

theorem sget_map_if {g : BitVec 41 → BitVec 41} (zero : g 0 = 0) (c : Nat → Bool) (m : Sparse (BitVec 41)) (k : Nat) :
    sget 0 (m.map (fun e => if c e.1 then (e.1, g e.2) else e)) k = if c k then g (sget 0 m k) else sget 0 m k := by
  have at_head : ∀ (e : Nat × BitVec 41) r, sget 0 (e :: r) k = if e.1 = k then e.2 else sget 0 r k := fun _ _ => rfl
  induction m with
  | nil =>
    show (0 : BitVec 41) = if c k then g 0 else 0
    rw [zero, ite_self]
  | cons e m ih =>
    have kept : (if c e.1 then (e.1, g e.2) else e).1 = e.1 := by split <;> rfl
    have value : (if c e.1 then (e.1, g e.2) else e).2 = if c e.1 then g e.2 else e.2 := by split <;> rfl
    rw [List.map_cons, at_head, at_head, kept, value, ih]
    by_cases here : e.1 = k
    · rw [if_pos here, if_pos here, here]
    · rw [if_neg here, if_neg here]

theorem addTerm_zero_cell (mode : Nat) : addTerm mode 0 0 = 0 := by
  by_cases saturates : mode = 1
  · subst saturates
    decide
  · exact addTerm_zero saturates 0

/-- Each cell of the tile takes its term. -/
theorem applyTerm_cell {ps : List (Nat × Nat × Int)} {f : Nat → Nat → Int} (spread : Spreads ps f) (mode core : Nat)
    (acc : Sparse (BitVec 41)) {i j : Nat} (hi : i < 256) (hj : j < 256) :
    sget 0 (applyTerm mode core acc ps) (cellKey core i j) = addTerm mode (sget 0 acc (cellKey core i j)) (f i j) := by
  obtain ⟨inside, distinct, missing⟩ := spread
  have keys : (ps.map (fun p => cellKey core p.1 p.2.1)).Nodup := by
    rw [show ps.map (fun p => cellKey core p.1 p.2.1) = (ps.map (fun p => (p.1, p.2.1))).map (fun x => cellKey core x.1 x.2) by
      rw [List.map_map]; rfl]
    refine List.Nodup.map_on (fun x hx y hy same => ?_) distinct
    obtain ⟨p, hp, rfl⟩ := List.mem_map.mp hx
    obtain ⟨r, hr, rfl⟩ := List.mem_map.mp hy
    obtain ⟨p1, p2, -⟩ := inside p hp
    obtain ⟨r1, r2, -⟩ := inside r hr
    exact (cellKey_inj p1 p2 r1 r2).mp same
  have named : ∀ p ∈ ps, (cellKey core p.1 p.2.1 == cellKey core i j) = true ↔ (p.1, p.2.1) = (i, j) := fun p hp => by
    obtain ⟨p1, p2, -⟩ := inside p hp
    rw [beq_iff_eq, cellKey_inj p1 p2 hi hj]
  unfold applyTerm
  dsimp only
  rw [sget_foldl_addTerm _ _ _ keys]
  cases found : ps.find? (fun p => cellKey core p.1 p.2.1 == cellKey core i j) with
  | some p =>
    have hp := List.mem_of_find?_eq_some found
    have keyed := List.find?_some found
    have here := (named p hp).mp keyed
    obtain ⟨-, -, value⟩ := inside p hp
    obtain ⟨rfl, rfl⟩ := Prod.mk.inj here
    dsimp only
    rw [value]
    congr 1
    split
    · refine (sget_map_if (g := fun v => addTerm mode v 0) (addTerm_zero_cell mode)
        (fun k => k / 65536 == core && !ps.any (fun p => cellKey core p.1 p.2.1 == k)) acc _).trans
        (if_neg ?_)
      have any : ps.any (fun r => cellKey core r.1 r.2.1 == cellKey core p.1 p.2.1) = true := List.any_eq_true.mpr ⟨p, hp, beq_self_eq_true _⟩
      rw [any, Bool.not_true, Bool.and_false]
      decide
    · rfl
  | none =>
    have absent : ∀ p ∈ ps, ¬(cellKey core p.1 p.2.1 == cellKey core i j) = true := List.find?_eq_none.mp found
    have zero : f i j = 0 := missing i j hi hj fun p hp same => absent p hp ((named p hp).mpr same)
    dsimp only
    rw [zero]
    split
    case isTrue saturates =>
      refine (sget_map_if (g := fun v => addTerm mode v 0) (addTerm_zero_cell mode)
          (fun k => k / 65536 == core && !ps.any (fun p => cellKey core p.1 p.2.1 == k)) acc _).trans
        (if_pos ?_)
      have none_there : ps.any (fun r => cellKey core r.1 r.2.1 == cellKey core i j) = false := List.any_eq_false.mpr absent
      rw [none_there, cellKey_core hi hj, beq_self_eq_true]
      rfl
    case isFalse wraps => exact (addTerm_zero wraps _).symm

/-- No cell of another core changes. -/
theorem applyTerm_other {ps : List (Nat × Nat × Int)} (inside : ∀ p ∈ ps, p.1 < 256 ∧ p.2.1 < 256) (mode core : Nat)
    (acc : Sparse (BitVec 41)) {k : Nat} (other : k / 65536 ≠ core) : sget 0 (applyTerm mode core acc ps) k = sget 0 acc k := by
  have writes : ∀ (ps : List (Nat × Nat × Int)) (m : Sparse (BitVec 41)), (∀ p ∈ ps, p.1 < 256 ∧ p.2.1 < 256) →
      sget 0 (ps.foldl (fun a p => sset 0 a (cellKey core p.1 p.2.1) (addTerm mode (sget 0 a (cellKey core p.1 p.2.1)) p.2.2)) m) k =
        sget 0 m k := by
    intro ps
    induction ps with
    | nil => exact fun _ _ => rfl
    | cons p ps ih =>
      intro m inside
      obtain ⟨p1, p2⟩ := inside p List.mem_cons_self
      rw [List.foldl_cons, ih _ fun x hx => inside x (List.mem_cons_of_mem p hx), sget_sset, if_neg]
      intro same
      exact other (same ▸ cellKey_core p1 p2)
  unfold applyTerm
  dsimp only
  rw [writes ps _ inside]
  split
  · refine (sget_map_if (g := fun v => addTerm mode v 0) (addTerm_zero_cell mode)
      (fun k => k / 65536 == core && !ps.any (fun p => cellKey core p.1 p.2.1 == k)) acc k).trans
      (if_neg ?_)
    rw [beq_eq_false_iff_ne.mpr other, Bool.false_and]
    decide
  · rfl

/-- A tile that takes lists of terms in turn: each cell takes its own. -/
theorem foldl_applyTerm {terms : List (List (Nat × Nat × Int))} {fs : List (Nat → Nat → Int)} (spread : List.Forall₂ Spreads terms fs)
    (mode core : Nat) (acc : Sparse (BitVec 41)) :
    (∀ i j, i < 256 → j < 256 → sget 0 (terms.foldl (applyTerm mode core) acc) (cellKey core i j) =
      (fs.map (fun f => f i j)).foldl (addTerm mode) (sget 0 acc (cellKey core i j))) ∧
    ∀ k, k / 65536 ≠ core → sget 0 (terms.foldl (applyTerm mode core) acc) k = sget 0 acc k := by
  induction spread generalizing acc with
  | nil => exact ⟨fun _ _ _ _ => rfl, fun _ _ => rfl⟩
  | cons first _ ih =>
    obtain ⟨cells, others⟩ := ih (applyTerm mode core acc _)
    refine ⟨fun i j hi hj => ?_, fun k other => ?_⟩
    · rw [List.foldl_cons, cells i j hi hj, applyTerm_cell first mode core acc hi hj]
      rfl
    · rw [List.foldl_cons, others k other]
      exact applyTerm_other (fun p hp => ⟨(first.inside p hp).1, (first.inside p hp).2.1⟩) mode core acc other

end Sys2Proof.Machine
end

section
/-! The matrix operations of a follow-on command, MOP, MOPS and MOPG, as each cell sees them (R226, R231, R241, R246). -/
namespace Sys2Proof.Machine

variable {s : State} {j : Job} {t : Nat}

/-! The values that a row feeds. -/

/-- The list gives position `i` the value `f i`; a position that it leaves out has the value 0. -/
structure Lists (l : List (Nat × Int)) (f : Nat → Int) : Prop where
  inside : ∀ p ∈ l, p.1 < 256 ∧ p.2 = f p.1
  distinct : (l.map Prod.fst).Nodup
  missing : ∀ i, i < 256 → (∀ p ∈ l, p.1 ≠ i) → f i = 0

theorem lists_filterMap (f : Nat → Int) {g : Nat → Option (Nat × Int)} (value : ∀ i, g i = if f i = 0 then none else some (i, f i)) :
    Lists ((List.range 256).filterMap g) f := by
  have named : ∀ i p, g i = some p → p = (i, f i) ∧ f i ≠ 0 := fun i p at_i => by
    rw [value i] at at_i
    by_cases zero : f i = 0
    · rw [if_pos zero] at at_i
      cases at_i
    · rw [if_neg zero] at at_i
      exact ⟨(Option.some.inj at_i).symm, zero⟩
  refine ⟨fun p hp => ?_, ?_, fun i hi absent => ?_⟩
  · obtain ⟨i, hi, at_i⟩ := List.mem_filterMap.mp hp
    obtain ⟨rfl, -⟩ := named i p at_i
    exact ⟨List.mem_range.mp hi, rfl⟩
  · rw [List.map_filterMap]
    refine List.Nodup.filterMap (fun i i' p at_i at_i' => ?_) List.nodup_range
    obtain ⟨x, hx, rfl⟩ := Option.map_eq_some_iff.mp at_i
    obtain ⟨y, hy, same⟩ := Option.map_eq_some_iff.mp at_i'
    obtain ⟨rfl, -⟩ := named i x hx
    obtain ⟨rfl, -⟩ := named i' y hy
    exact same.symm
  · by_contra some_value
    exact absent (i, f i) (List.mem_filterMap.mpr ⟨i, List.mem_range.mpr hi, (value i).trans (if_neg some_value)⟩) rfl

/-- What position `i` of a row feeds, through `f`. -/
def fedBy (s : State) (j : Job) (n w t row off : Nat) (f : Nat → Int) (i : Nat) : Int :=
  if feeds s j.pred t row (off + i) then f (elemBits s n w (elemOf s t row (off + i))) else 0

theorem feedRow_lists (n w row off : Nat) (f : Nat → Int) : Lists (feedRow s j n w t row off f) (fedBy s j n w t row off f) := by
  refine lists_filterMap _ fun i => ?_
  unfold fedBy
  dsimp only
  by_cases here : feeds s j.pred t row (off + i) = true
  · simp only [if_pos here]
  · simp only [if_neg here, if_true]

theorem feeds_plain (row g : Nat) : feeds s 0 t row g = true ↔
    g < s.h.csr.rlen ∧ elemOf s t row g < s.h.csr.vl ∧ predBit s 0 (elemOf s t row g) = true := by
  unfold feeds
  simp [and_assoc]

/-- An unpredicated row feeds what its descriptor reads. -/
theorem fedBy_plain (plain : j.pred = 0) (d : Desc) (n row off i : Nat) :
    fedBy s j n d.w t row off (fedInt d) i = fed Ctl.plain s d n t row (off + i) := by
  unfold fedBy fed
  rw [plain]
  exact if_congr (feeds_plain row (off + i)) rfl rfl

/-! The terms of an outer product, and those of structured sparsity. -/

theorem outer_spreads {a b : List (Nat × Int)} {f g : Nat → Int} (ha : Lists a f) (hb : Lists b g) :
    Spreads (outer a b) (fun i j => f i * g j) := by
  have named : ∀ p, p ∈ outer a b ↔ ∃ x ∈ a, ∃ y ∈ b, (x.1, y.1, x.2 * y.2) = p := fun p => by simp [outer]
  refine ⟨fun p hp => ?_, ?_, fun i k hi hk absent => ?_⟩
  · obtain ⟨x, hx, y, hy, rfl⟩ := (named p).mp hp
    obtain ⟨x1, x2⟩ := ha.inside x hx
    obtain ⟨y1, y2⟩ := hb.inside y hy
    exact ⟨x1, y1, by rw [x2, y2]⟩
  · have pairs : (outer a b).map (fun p => (p.1, p.2.1)) = (a.map Prod.fst) ×ˢ (b.map Prod.fst) := by
      unfold outer
      rw [List.map_flatten, List.map_map]
      simp [SProd.sprod, List.product, List.flatMap, Function.comp_def]
    rw [pairs]
    exact List.Nodup.product ha.distinct hb.distinct
  · by_cases left : ∃ x ∈ a, x.1 = i
    · obtain ⟨x, hx, rfl⟩ := left
      rw [hb.missing k hk fun y hy same => absent _ ((named _).mpr ⟨x, hx, y, hy, rfl⟩) (by rw [same]), mul_zero]
    · rw [ha.missing i hi fun x hx same => left ⟨x, hx, same⟩, zero_mul]

/-- For each value of one row, the row that its metadata picks. -/
theorem picked_spreads {b : List (Nat × Int)} {g : Nat → Int} {a : Nat → List (Nat × Int)} {f : Nat → Nat → Int} (hb : Lists b g)
    (ha : ∀ k, k < 256 → Lists (a k) (f k)) :
    Spreads ((b.map (fun y => (a y.1).map (fun x => (x.1, y.1, x.2 * y.2)))).flatten) (fun i k => f k i * g k) := by
  have named : ∀ p, p ∈ (b.map (fun y => (a y.1).map (fun x => (x.1, y.1, x.2 * y.2)))).flatten ↔
      ∃ y ∈ b, ∃ x ∈ a y.1, (x.1, y.1, x.2 * y.2) = p := fun p => by simp
  refine ⟨fun p hp => ?_, ?_, fun i k hi hk absent => ?_⟩
  · obtain ⟨y, hy, x, hx, rfl⟩ := (named p).mp hp
    obtain ⟨y1, y2⟩ := hb.inside y hy
    obtain ⟨x1, x2⟩ := (ha y.1 y1).inside x hx
    exact ⟨x1, y1, by rw [x2, y2]⟩
  · rw [List.map_flatten, List.map_map]
    refine List.nodup_flatten.mpr ⟨fun l hl => ?_, ?_⟩
    · obtain ⟨y, hy, rfl⟩ := List.mem_map.mp hl
      obtain ⟨y1, -⟩ := hb.inside y hy
      have mapped : List.map (fun p : Nat × Nat × Int => (p.1, p.2.1)) ((a y.1).map (fun x => (x.1, y.1, x.2 * y.2))) =
          ((a y.1).map Prod.fst).map (fun i => (i, y.1)) := by simp
      rw [Function.comp_apply, mapped]
      exact List.Nodup.map (fun _ _ same => (Prod.mk.inj same).1) (ha y.1 y1).distinct
    · rw [List.pairwise_map]
      refine List.Pairwise.imp_of_mem (fun {y y'} hy hy' apart p hp hp' => ?_) (List.pairwise_map.mp hb.distinct)
      simp only [Function.comp_apply, List.map_map, List.mem_map] at hp hp'
      obtain ⟨x, -, rfl⟩ := hp
      obtain ⟨x', -, same⟩ := hp'
      exact apart (Prod.mk.inj same).2.symm
  · by_cases left : ∃ y ∈ b, y.1 = k
    · obtain ⟨y, hy, rfl⟩ := left
      rw [(ha y.1 hk).missing i hi fun x hx same => absent _ ((named _).mpr ⟨y, hy, x, hx, rfl⟩) (by rw [same]), zero_mul]
    · rw [hb.missing k hk fun y hy same => left ⟨y, hy, same⟩, mul_zero]

/-! A follow-on job on a tile. -/

/-- The terms that a job of the array applies. -/
def jobTerms (s : State) (j : Job) (t : Nat) : List (List (Nat × Nat × Int)) :=
  match j.op with
  | 0 => mopTerms s j t
  | 1 => mopsTerms s j t
  | _ => mopgTerms s j t

/-- A job of INT or SAT32 with nothing poisoned applies its terms, and no more. -/
theorem runJob_plain (array : j.mode ≠ 2) (clean : s.poisonLane = []) (unarmed : s.armed = []) (pc : Word) :
    runJob s j t pc = ({ s with acc := (jobTerms s j t).foldl (applyTerm j.mode (s.h.core + t)) s.acc }, 0) := by
  have no_poison : metaPoison s j t = none := by
    unfold metaPoison
    split
    · rfl
    · exact if_pos (by rw [clean]; rfl)
  have no_record : metaRecord s j t pc = s := by
    unfold metaRecord
    rw [no_poison, ite_self]
  have no_rows : poisonedRows s j t = [] := if_pos (by rw [clean]; rfl)
  unfold runJob strikeAcc
  dsimp only
  rw [no_record, no_rows, if_neg array]
  exact congrArg (fun x => (x, (0 : FlagSet))) (if_pos (by rw [show State.armed _ = [] from unarmed]; rfl))

theorem feedA_lists (plain : j.pred = 0) (row off : Nat) :
    Lists (feedA s j t row off) (fun i => fed Ctl.plain s j.da j.va t row (off + i)) := by
  have row_lists := feedRow_lists (s := s) (j := j) (t := t) j.va j.da.w row off (fedInt j.da)
  simp only [funext (fedBy_plain (s := s) (t := t) plain j.da j.va row off)] at row_lists
  exact row_lists

theorem feedB_lists (plain : j.pred = 0) (row off : Nat) :
    Lists (feedB s j t row off) (fun i => fed Ctl.plain s j.db j.vb t row (off + i)) := by
  have row_lists := feedRow_lists (s := s) (j := j) (t := t) j.vb j.db.w row off (fedInt j.db)
  simp only [funext (fedBy_plain (s := s) (t := t) plain j.db j.vb row off)] at row_lists
  exact row_lists

/-- MOP: the products of one row each. -/
theorem mopTerms_spread (plain : j.pred = 0) (ra : j.ra = 0) (rb : j.rb = 0) : List.Forall₂ Spreads (mopTerms s j t)
    ((List.range j.k).map (fun k i c => fed Ctl.plain s j.da j.va t k i * fed Ctl.plain s j.db j.vb t k c)) := by
  unfold mopTerms
  rw [List.forall₂_map_left_iff, List.forall₂_map_right_iff, ra, rb]
  refine List.forall₂_same.mpr fun k _ => ?_
  have spread := outer_spreads (feedA_lists (s := s) (t := t) plain k 0) (feedB_lists (s := s) (t := t) plain k 0)
  simp only [Nat.zero_add] at spread ⊢
  exact spread

/-- The record that weighs column `c` in row `row`, 0 where none feeds. -/
def fedRecord (s : State) (n t row c : Nat) : Nat :=
  if c < s.h.csr.rlen ∧ elemOf s t row c < s.h.csr.vl then elemBits s n 32 (elemOf s t row c) else 0

theorem fedBy_record (plain : j.pred = 0) (n row k c : Nat) :
    fedBy s j n 32 t row 0 (fun rec => recordWeight rec k) c = recordWeight (fedRecord s n t row c) k := by
  have unpredicated : predBit s 0 (elemOf s t row c) = true := rfl
  have none_weighs : recordWeight 0 k = 0 := rfl
  unfold fedBy fedRecord
  rw [plain, Nat.zero_add]
  by_cases here : c < s.h.csr.rlen ∧ elemOf s t row c < s.h.csr.vl
  · rw [if_pos here, if_pos ((feeds_plain row c).mpr ⟨here.1, here.2, unpredicated⟩)]
  · rw [if_neg here, if_neg fun feeding => here ⟨((feeds_plain row c).mp feeding).1, ((feeds_plain row c).mp feeding).2.1⟩, none_weighs]

/-- MOPG: the products of one row each with the weights of a record's row. -/
theorem mopgTerms_spread (plain : j.pred = 0) (ra : j.ra = 0) (rb : j.rb = 0) : List.Forall₂ Spreads (mopgTerms s j t)
    ((List.range j.k).map (fun k i c => fed Ctl.plain s j.da j.va t k i * recordWeight (fedRecord s j.vb t (k / 16) c) (k % 16))) := by
  unfold mopgTerms
  rw [List.forall₂_map_left_iff, List.forall₂_map_right_iff, ra, rb]
  refine List.forall₂_same.mpr fun k _ => ?_
  have spread := outer_spreads (feedA_lists (s := s) (t := t) plain k 0)
    (feedRow_lists (s := s) (j := j) (t := t) j.vb 32 (k / 16) 0 (fun rec => recordWeight rec (k % 16)))
  simp only [Nat.zero_add, funext (fedBy_record (s := s) (t := t) plain j.vb (k / 16) (k % 16))] at spread ⊢
  exact spread

/-- The place in its group of four that the metadata gives to half `h` of a pair. -/
def pickOf (s : State) (j : Job) (t q c h : Nat) : Nat := if h = 0 then metaNibble s j t q c % 4 else metaNibble s j t q c / 4

/-- MOPS: for each group, the products of two rows of columns with the elements that the metadata picks. -/
theorem mopsTerms_spread (plain : j.pred = 0) (ra : j.ra = 0) (rb : j.rb = 0) (nibbles : ∀ q c, metaNibble s j t q c < 16) :
    List.Forall₂ Spreads (mopsTerms s j t) ((List.range (j.k / 4)).map (fun q => [0, 1].map (fun h i c =>
      fed Ctl.plain s j.da j.va t q (256 * pickOf s j t q c h + i) * fed Ctl.plain s j.db j.vb t q (256 * h + c)))).flatten := by
  unfold mopsTerms
  refine List.rel_flatten ?_
  rw [List.forall₂_map_left_iff, List.forall₂_map_right_iff, ra, rb]
  refine List.forall₂_same.mpr fun q _ => ?_
  rw [List.forall₂_map_left_iff, List.forall₂_map_right_iff]
  refine List.forall₂_same.mpr fun h _ => ?_
  simp only [Nat.zero_add]
  refine picked_spreads (a := fun c => ((List.range 4).map (fun x => feedA s j t q (256 * x))).getD (pickOf s j t q c h) [])
    (feedB_lists plain q (256 * h)) fun c _ => ?_
  have small : pickOf s j t q c h < 4 := by
    have := nibbles q c
    unfold pickOf
    split <;> omega
  have picked : ((List.range 4).map (fun x => feedA s j t q (256 * x))).getD (pickOf s j t q c h) [] =
      feedA s j t q (256 * pickOf s j t q c h) := by
    rw [List.getD_eq_getElem?_getD, List.getElem?_map, List.getElem?_range small]
    rfl
  rw [picked]
  exact feedA_lists plain q _

end Sys2Proof.Machine
end

section
/-! FOLLOW_ON_SWEEP: when a sweep of the hart in hand begins, and what it leaves (R121, R241). -/
namespace Sys2Proof.Machine

variable {s : State} {core : Nat} {x : Sweep}

/-- The sweep that the engine of the core takes next, handed over by the hart in hand. -/
structure NextOwn (s : State) (core : Nat) (x : Sweep) : Prop where
  next : s.sweeps.find? (fun y => y.core == core && !y.running) = some x
  gang : x.gang = s.h.gang
  hart : x.hart = s.h.idx

theorem NextOwn.core_eq (own : NextOwn s core x) : x.core = core := by
  have found := List.find?_some own.next
  simp only [Bool.and_eq_true, beq_iff_eq] at found
  exact found.1


theorem followJob_copyOf (s : State) (x : Sweep) : followJob (x.copyOf s) = x.job := rfl

/-- The engine is free and no ramp runs from this cy on. -/
def sweepFree (s : State) (core : Nat) (x : Sweep) : Nat :=
  ((rampAt s core).ahead (max (max s.cyc x.slot) (max (sget 0 s.engines core) s.h.units.matrix))).1

theorem NextOwn.sweepStart (own : NextOwn s core x) : sweepStart s x = sweepFree s core x := by
  unfold Machine.sweepStart engineFree
  rw [own.gang, own.hart, findHart_self, own.core_eq]
  rfl

theorem NextOwn.sweepBegins (own : NextOwn s core x) :
    sweepBegins s core = true ↔ sweepFree s core x ≤ s.cyc ∧ ∀ r ∈ sweepRows s x, rowAsleep s r s.cyc = false := by
  unfold Machine.sweepBegins nextSweep
  rw [own.next, Option.any_some, own.sweepStart, Bool.and_eq_true, decide_eq_true_iff, List.all_eq_true]
  simp only [Bool.not_eq_true']

/-- A sweep waits while its engine is busy. -/
theorem followOnSweep_waits (own : NextOwn s core x) (busy : s.cyc < sweepFree s core x) :
    exec (.followOnSweep core) s = .next { s with calendar := s.calendar ++ [(sweepFree s core x, .followOnSweep core)] } := by
  have next : nextSweep s core = some x := own.next
  refine congrArg Host.Outcome.next ?_
  rw [next]
  dsimp only
  rw [own.sweepStart, if_pos busy]
  rfl

theorem sget_foldl_sset_const (rows : List Nat) (m : Sparse Nat) (v r : Nat) :
    sget 0 (rows.foldl (fun m r => sset 0 m r v) m) r = if r ∈ rows then v else sget 0 m r := by
  induction rows generalizing m with
  | nil => rfl
  | cons a rows ih =>
    rw [List.foldl_cons, ih, sget_sset]
    by_cases later : r ∈ rows
    · rw [if_pos later, if_pos (List.mem_cons_of_mem a later)]
    · by_cases here : r = a
      · rw [if_neg later, if_pos here, if_pos (here ▸ List.mem_cons_self)]
      · rw [if_neg later, if_neg here, if_neg fun mem => (List.mem_cons.mp mem).elim here later]

/-- Rows that are used: awake, and noted. -/
theorem touchRows_spec (s : State) (rows : List Nat) (v : Nat) : ∃ touched drowsy, touchRows s rows v = { s with touched, drowsy } ∧
    ∀ r, sget 0 touched r = (if r ∈ rows then v else sget 0 s.touched r) ∧
      sget false drowsy r = (sget false s.drowsy r && decide (r ∉ rows)) := by
  refine ⟨_, _, rfl, fun r => ⟨sget_foldl_sset_const rows s.touched v r, ?_⟩⟩
  rw [sget_sdrop]
  by_cases here : r ∈ rows <;> simp [here]

/-- A sweep of drowsy rows wakes them first, for 40 cy. -/
theorem followOnSweep_wakes (own : NextOwn s core x) (free : sweepFree s core x ≤ s.cyc)
    (asleep : ¬∀ r ∈ sweepRows s x, rowAsleep s r s.cyc = false) : ∃ touched drowsy,
    exec (.followOnSweep core) s = .next { s with
      touched, drowsy, calendar := s.calendar ++ [(s.cyc + 40, .followOnSweep core)]
      sweeps := s.sweeps.map (fun y => if (y.core == core && y.copy == x.copy) = true then { y with slot := s.cyc + 40 } else y) } ∧
    ∀ r, sget 0 touched r = (if r ∈ sweepRows s x then s.cyc + 40 else sget 0 s.touched r) ∧
      sget false drowsy r = (sget false s.drowsy r && decide (r ∉ sweepRows s x)) := by
  obtain ⟨touched, drowsy, woken, rows⟩ := touchRows_spec s (sweepRows s x) (s.cyc + 40)
  refine ⟨touched, drowsy, congrArg Host.Outcome.next ?_, rows⟩
  have next : nextSweep s core = some x := own.next
  have not_yet : sweepBegins s core = false := by
    rw [← Bool.not_eq_true, own.sweepBegins]
    exact fun both => asleep both.2
  rw [next]
  dsimp only
  rw [own.sweepStart, if_neg (Nat.not_lt.mpr free), not_yet, Bool.not_false, if_pos rfl, woken]
  rfl

/-! The sweep itself. -/

/-- The hart as a sweep finds it: the captured grant, nothing in an exposed window. -/
def granted (s : State) (x : Sweep) : State := { s with h := { s.h with csr := x.csr, hot := [] } }

/-- The same with the operation's MODE in place. -/
def armedGrant (s : State) (x : Sweep) : State :=
  { s with h := { s.h with csr := { x.csr with mcfg := BitVec.ofNat 64 x.job.mode }, hot := [] } }

/-- The registers that the sweep reads are resident, and nothing is in an exposed window. -/
structure Settled (s : State) (x : Sweep) : Prop where
  windows : ∀ w ∈ s.h.exposed, w.upto < s.cyc
  resident : ∀ n ∈ [x.job.va, x.job.vb], (vreg s n).first.isSome = true
  metadata : x.job.op = 1 → (vreg s x.job.vm).first.isSome = true

theorem Settled.nothing_hot (settled : Settled s x) :
    absentRegs s ([x.job.va, x.job.vb] ++ if x.job.op = 1 then [x.job.vm] else []) ++ hotFrom s s.cyc = [] := by
  obtain ⟨windows, resident, metadata⟩ := settled
  have none_hot : hotFrom s s.cyc = [] := by
    unfold hotFrom
    rw [List.filter_eq_nil_iff.mpr fun w hw => by simpa using windows w hw]
    rfl
  have none_absent : absentRegs s ([x.job.va, x.job.vb] ++ if x.job.op = 1 then [x.job.vm] else []) = [] := by
    unfold absentRegs isResident
    rw [List.filter_eq_nil_iff.mpr fun n hn => ?_]
    · rfl
    · rcases List.mem_append.mp hn with operand | extra
      · simp [resident n operand]
      · by_cases structured : x.job.op = 1
        · rw [if_pos structured] at extra
          simp [List.mem_singleton.mp extra, metadata structured]
        · rw [if_neg structured] at extra
          cases extra
  rw [none_hot, none_absent]
  rfl

/-- A sweep over settled registers finds its metadata out of order, or applies its terms. -/
theorem sweepCore_settled (settled : Settled s x) (array : x.job.mode ≠ 2) (clean : s.poisonLane = []) (unarmed : s.armed = []) :
    sweepCore x x.job s = match (if x.job.op = 1 then metaFault (armedGrant s x) x.job x.tile else none) with
      | some f => (s, some f)
      | none => ({ s with acc := (jobTerms (armedGrant s x) x.job x.tile).foldl (applyTerm x.job.mode (s.h.core + x.tile)) s.acc }, none) := by
  have ran := runJob_plain (s := armedGrant s x) (t := x.tile) array clean unarmed x.pc
  unfold sweepCore
  dsimp only
  rw [settled.nothing_hot]
  change (match (if x.job.op = 1 then metaFault (armedGrant s x) x.job x.tile else none) with
    | some f => (s, some f)
    | none => ({ modH (runJob (armedGrant s x) x.job x.tile x.pc).1 (fun _ => s.h) with
        free := if true = true then (runJob (armedGrant s x) x.job x.tile x.pc).1.free
          else (runJob (armedGrant s x) x.job x.tile x.pc).1.free + 1 }, none)) = _
  rw [ran]
  rfl

/-- An occupancy of the array: its ramp is warm, and its end stands in the calendar. -/
theorem arrayOccupy_spec (s : State) (core t n : Nat) : ∃ ramps calendar, arrayOccupy s core t n = { s with ramps, calendar } ∧
    (∀ k, k ≠ core → sget Ramp.init ramps k = rampAt s k) ∧ (sget Ramp.init ramps core).st = .warm ∧
    (t + n, .arrayRampDown core) ∈ calendar ∧ ∀ e ∈ s.calendar, e ∈ calendar := by
  have others : ∀ r k, k ≠ core → sget Ramp.init (sset Ramp.init s.ramps core r) k = rampAt s k := fun r k other => by
    rw [sget_sset, if_neg other]
    rfl
  have own : ∀ r, sget Ramp.init (sset Ramp.init s.ramps core r) core = r := fun r => by rw [sget_sset, if_pos rfl]
  have kept : ∀ (l l' : List (Nat × Event)), ∀ e ∈ l, e ∈ l ++ l' := fun l l' e he => List.mem_append_left l' he
  unfold arrayOccupy
  dsimp only
  split
  · exact ⟨sset Ramp.init s.ramps core ⟨.warm, t + n - 1, (rampAt s core).holdTo, none⟩, s.calendar ++ [(t + n, .arrayRampDown core)], rfl,
      others _, congrArg Ramp.st (own _), List.mem_append_right _ (List.mem_singleton_self _), kept _ _⟩
  case h_2 h _ =>
    exact ⟨sset Ramp.init s.ramps core ⟨.warm, t + n - 1, (rampAt s core).upto + 32 + h, none⟩,
      s.calendar ++ [(t + n, .arrayRampDown core)] ++ [((rampAt s core).upto + 33 + h, .burstHoldEnd core)], rfl,
      others _, congrArg Ramp.st (own _), kept _ _ _ (List.mem_append_right _ (List.mem_singleton_self _)),
      fun e he => kept _ _ _ (kept _ _ e he)⟩

theorem occupancy_pos (array : x.job.mode ≠ 2) : 0 < x.job.occupancy := by
  unfold Job.occupancy
  dsimp only
  rw [if_neg array]
  split <;> omega

/-- A sweep that begins in its slot is not late. -/
theorem sweepLate_in_slot {u : State} (in_slot : (gangOf u x.gang).launch.lockstep = true → s.cyc ≤ x.slot) (now : u.cyc = s.cyc) :
    sweepLate x u = u := by
  have not_late : (copyLock u (x.copyOf u) && decide (x.slot < u.cyc)) = false := by
    unfold copyLock
    rw [now]
    cases lock : (gangOf u x.gang).launch.lockstep with
    | false => rw [show (gangOf u (x.copyOf u).gang).launch.lockstep = false from lock, Bool.false_and]
    | true =>
      rw [decide_eq_false (Nat.not_lt.mpr (in_slot lock)), Bool.and_false]
  unfold sweepLate
  dsimp only
  rw [not_late, if_neg Bool.false_ne_true]

/-- A sweep that begins, over settled registers and legal metadata: its terms, the engine, the ramp and the events that follow. -/
theorem followOnSweep_runs (own : NextOwn s core x) (free : sweepFree s core x ≤ s.cyc)
    (awake : ∀ r ∈ sweepRows s x, rowAsleep s r s.cyc = false) (in_slot : (gangOf s x.gang).launch.lockstep = true → s.cyc ≤ x.slot)
    (settled : Settled s x) (array : x.job.mode ≠ 2) (clean : s.poisonLane = []) (unarmed : s.armed = [])
    (legal : (if x.job.op = 1 then metaFault (armedGrant s x) x.job x.tile else none) = none) :
    ∃ t n, exec (.followOnSweep core) s = .next t ∧ 0 < n ∧
      t = { s with acc := t.acc, ramps := t.ramps, engines := t.engines, calendar := t.calendar, touched := t.touched, drowsy := t.drowsy
                   sweeps := s.sweeps.map (fun y => if (y.core == core && y.copy == x.copy) = true
                     then { y with running := true, ready := s.cyc + n + 3 } else y) } ∧
      (∀ k, sget 0 t.engines k = if k = core then s.cyc + n else sget 0 s.engines k) ∧
      (∀ k, k ≠ core → rampAt t k = rampAt s k) ∧ (rampAt t core).st = .warm ∧
      (s.cyc + n, .followOnSweep core) ∈ t.calendar ∧ (s.cyc + n, .arrayRampDown core) ∈ t.calendar ∧
      (s.cyc + n + 3, .sweepDone core) ∈ t.calendar ∧
      t.acc = (jobTerms (armedGrant s x) x.job x.tile).foldl (applyTerm x.job.mode (s.h.core + x.tile)) s.acc := by
  generalize acc_eq : (jobTerms (armedGrant s x) x.job x.tile).foldl (applyTerm x.job.mode (s.h.core + x.tile)) s.acc = acc
  have next : nextSweep s core = some x := own.next
  have begins : sweepBegins s core = true := own.sweepBegins.mpr ⟨free, awake⟩
  have swept : sweepCore x x.job s = ({ s with acc }, none) := by
    rw [sweepCore_settled settled array clean unarmed, legal]
    exact congrArg (fun acc => ({ s with acc }, (none : Option (Nat × Nat)))) acc_eq
  have pos := occupancy_pos (x := x) array
  obtain ⟨touched, drowsy, woken, -⟩ := touchRows_spec { s with acc } (sweepRows s x) (s.cyc + (rampFiller s core s.cyc + x.job.occupancy))
  generalize n_eq : rampFiller s core s.cyc + x.job.occupancy = n at woken
  obtain ⟨ramps, calendar, occupied, others, warm, ends, kept⟩ := arrayOccupy_spec { s with
    acc, touched, drowsy, engines := sset 0 s.engines core (s.cyc + n), calendar := s.calendar ++ [(s.cyc + n, .followOnSweep core)]
    sweeps := s.sweeps.map (fun y => if (y.core == core && y.copy == x.copy) = true
      then { y with running := true, ready := s.cyc + n + 3 } else y) } core s.cyc n
  obtain ⟨t, t_eq⟩ : ∃ t : State, t = { s with
    acc, touched, drowsy, engines := sset 0 s.engines core (s.cyc + n), ramps, calendar := calendar ++ [(s.cyc + n + 3, .sweepDone core)]
    sweeps := s.sweeps.map (fun y => if (y.core == core && y.copy == x.copy) = true
      then { y with running := true, ready := s.cyc + n + 3 } else y) } := ⟨_, rfl⟩
  have run : exec (.followOnSweep core) s = .next t := by
    refine congrArg Host.Outcome.next ?_
    rw [next]
    dsimp only
    rw [own.sweepStart, if_neg (Nat.not_lt.mpr free), begins, followJob_copyOf]
    rw [Bool.not_true, if_neg Bool.false_ne_true, own.gang, own.hart, findHart_self, takeHart_self, swept,
      show takeHart { s with acc } s.h.gang s.h.idx = { s with acc } from takeHart_self { s with acc }]
    dsimp only
    rw [show rampFiller { s with acc } core s.cyc = rampFiller s core s.cyc from rfl, n_eq,
      show sweepRows { s with acc } x = sweepRows s x from rfl, woken]
    refine Eq.trans (congrArg (fun u => sweepLate x (schedule u (s.cyc + n + 3) (.sweepDone core))) occupied) ?_
    subst t_eq
    exact sweepLate_in_slot (s := s) in_slot rfl
  subst t_eq
  refine ⟨_, n, run, by omega, rfl, fun k => sget_sset _ _ _ _ _, others, warm, ?_, List.mem_append_left _ ends,
    List.mem_append_right _ (List.mem_singleton_self _), rfl⟩
  exact List.mem_append_left _ (kept _ (List.mem_append_right _ (List.mem_singleton_self _)))

end Sys2Proof.Machine
end

section
/-! The sweeps of the follow-on operations: MOP, MOPS, and MOPG, and illegal metadata (R226, R231, R241). -/
namespace Sys2Proof.Machine

variable {s : State} {core : Nat} {x : Sweep}

/-- What a sweep that runs leaves: each cell of its tile takes `terms`. -/
def SweepRuns (s : State) (core : Nat) (x : Sweep) (terms : Nat → Nat → List Int) : Prop :=
  ∃ t n, exec (.followOnSweep core) s = .next t ∧ 0 < n ∧
    t = { s with acc := t.acc, ramps := t.ramps, engines := t.engines, calendar := t.calendar, touched := t.touched, drowsy := t.drowsy
                 sweeps := s.sweeps.map (fun y => if (y.core == core && y.copy == x.copy) = true
                   then { y with running := true, ready := s.cyc + n + 3 } else y) } ∧
    (∀ k, sget 0 t.engines k = if k = core then s.cyc + n else sget 0 s.engines k) ∧
    (∀ k, k ≠ core → rampAt t k = rampAt s k) ∧ (rampAt t core).st = .warm ∧
    (s.cyc + n, .followOnSweep core) ∈ t.calendar ∧ (s.cyc + n, .arrayRampDown core) ∈ t.calendar ∧
    (s.cyc + n + 3, .sweepDone core) ∈ t.calendar ∧
    (∀ i j, i < 256 → j < 256 → Accumulates x.job.mode (sget 0 s.acc (cellKey (s.h.core + x.tile) i j))
      (sget 0 t.acc (cellKey (s.h.core + x.tile) i j)) (terms i j)) ∧
    ∀ k, k / 2 ^ 16 ≠ s.h.core + x.tile → sget 0 t.acc k = sget 0 s.acc k

/-- A sweep may run: its engine is free, its rows awake, its slot not past, its registers settled and nothing poisoned. -/
structure MayRun (s : State) (core : Nat) (x : Sweep) : Prop where
  own : NextOwn s core x
  free : sweepFree s core x ≤ s.cyc
  awake : ∀ r ∈ sweepRows s x, rowAsleep s r s.cyc = false
  in_slot : (gangOf s x.gang).launch.lockstep = true → s.cyc ≤ x.slot
  settled : Settled s x
  clean : s.poisonLane = []
  unarmed : s.armed = []

theorem Sweep.job_array (x : Sweep) : x.job.mode ≠ 2 := by
  have := Nat.mod_lt (x.cmd.toNat / 2 ^ 56) (by decide : 2 ^ 1 > 0)
  exact fun same => by
    have mode : x.cmd.toNat / 2 ^ 56 % 2 ^ 1 = 2 := same
    omega

/-- A sweep with legal metadata gives each cell the terms that spread over the tile. -/
theorem MayRun.runs (may : MayRun s core x) (legal : (if x.job.op = 1 then metaFault (armedGrant s x) x.job x.tile else none) = none)
    {fs : List (Nat → Nat → Int)} (spread : List.Forall₂ Spreads (jobTerms (armedGrant s x) x.job x.tile) fs) :
    SweepRuns s core x (fun i c => fs.map (fun f => f i c)) := by
  obtain ⟨own, free, awake, in_slot, settled, clean, unarmed⟩ := may
  obtain ⟨t, n, run, pos, frame, engines, ramps, warm, follow, down, done, acc⟩ :=
    followOnSweep_runs own free awake in_slot settled x.job_array clean unarmed legal
  obtain ⟨cells, others⟩ := foldl_applyTerm spread x.job.mode (s.h.core + x.tile) s.acc
  refine ⟨t, n, run, pos, frame, engines, ramps, warm, follow, down, done, fun i c hi hc => ?_, fun k other => ?_⟩
  · rw [acc, cells i c hi hc]
    exact accumulates_foldl _ _ _
  · rw [acc]
    exact others k other

/-- MOP. -/
theorem MayRun.runs_mop (may : MayRun s core x) (op : x.job.op = 0) : SweepRuns s core x (fun i c => (List.range x.job.k).map (fun k =>
    fed Ctl.plain (granted s x) x.job.da x.job.va x.tile k i * fed Ctl.plain (granted s x) x.job.db x.job.vb x.tile k c)) := by
  have spread := mopTerms_spread (s := armedGrant s x) (j := x.job) (t := x.tile) rfl rfl rfl
  have terms : jobTerms (armedGrant s x) x.job x.tile = mopTerms (armedGrant s x) x.job x.tile := by simp only [jobTerms, op]
  have runs := may.runs (if_neg (by rw [op]; decide)) (terms ▸ spread)
  simp only [List.map_map] at runs
  exact runs

/-- MOPG. -/
theorem MayRun.runs_mopg (may : MayRun s core x) (op : x.job.op = 2) : SweepRuns s core x (fun i c => (List.range x.job.k).map (fun k =>
    fed Ctl.plain (granted s x) x.job.da x.job.va x.tile k i *
      recordWeight (fedRecord (granted s x) x.job.vb x.tile (k / 16) c) (k % 16))) := by
  have spread := mopgTerms_spread (s := armedGrant s x) (j := x.job) (t := x.tile) rfl rfl rfl
  have terms : jobTerms (armedGrant s x) x.job x.tile = mopgTerms (armedGrant s x) x.job x.tile := by simp only [jobTerms, op]
  have runs := may.runs (if_neg (by rw [op]; decide)) (terms ▸ spread)
  simp only [List.map_map] at runs
  exact runs

/-! Metadata. -/

/-- The metadata nibble of group `k` and column `c`, as the lanes hold it. -/
def nibbleAt (s : State) (x : Sweep) (p k c : Nat) : Nat :=
  bitsAt (granted s x) ⟨s.h.core + x.tile, physRow (granted s x) (s.h.core + x.tile) (x.job.rm + k / 64), 16 * (k % 64) + c / 16⟩ p 64 /
    2 ^ (4 * (c % 16)) % 2 ^ 4

theorem metaNibble_granted {p : Nat} (first : (vreg s x.job.vm).first = some p) (k c : Nat) :
    metaNibble (armedGrant s x) x.job x.tile k c = nibbleAt s x p k c := by
  have first : (vreg (armedGrant s x) x.job.vm).first = some p := first
  unfold metaNibble
  rw [show (armedGrant s x).h.hot.contains (.v x.job.vm) = false from rfl, if_neg Bool.false_ne_true, first]
  rfl

theorem firstSome_eq_some {α β : Type} {l : List α} {f : α → Option β} {b : β} (found : firstSome l f = some b) : ∃ a ∈ l, f a = some b := by
  induction l with
  | nil => exact nomatch found
  | cons a l ih =>
    unfold firstSome at found
    cases value : f a with
    | some b' =>
      rw [value] at found
      exact ⟨a, List.mem_cons_self, value.trans found⟩
    | none =>
      rw [value] at found
      obtain ⟨a', later, same⟩ := ih found
      exact ⟨a', List.mem_cons_of_mem a later, same⟩

theorem metaOk_iff (n : Nat) : metaOk n = true ↔ n % 4 < n / 4 := decide_eq_true_iff

/-- Metadata in order shows no fault. -/
theorem metaFault_none {g : State} {j : Job} {t : Nat}
    (legal : ∀ k c, k < j.k / 4 → c < 256 → metaNibble g j t k c % 4 < metaNibble g j t k c / 4) :
    metaFault g j t = none := by
  refine firstSome_eq_none fun k hk => ?_
  rw [List.find?_eq_none.mpr fun c hc => ?_]
  · rfl
  · rw [(metaOk_iff _).mpr (legal k c (List.mem_range.mp hk) (List.mem_range.mp hc))]
    decide

/-- A fault of the metadata names a pair that is out of order. -/
theorem metaFault_some {g : State} {j : Job} {t : Nat} {f : Nat × Nat} (fault : metaFault g j t = some f) :
    f.1 < j.k / 4 ∧ f.2 < 256 ∧ metaNibble g j t f.1 f.2 / 4 ≤ metaNibble g j t f.1 f.2 % 4 := by
  obtain ⟨k, hk, at_k⟩ := firstSome_eq_some fault
  obtain ⟨c, found, rfl⟩ := Option.map_eq_some_iff.mp at_k
  have wrong := List.find?_some found
  refine ⟨List.mem_range.mp hk, List.mem_range.mp (List.mem_of_find?_eq_some found), ?_⟩
  rw [Bool.not_eq_true', ← Bool.not_eq_true, metaOk_iff] at wrong
  exact Nat.not_lt.mp wrong

/-- MOPS. -/
theorem MayRun.runs_mops (may : MayRun s core x) (op : x.job.op = 1) {p : Nat} (first : (vreg s x.job.vm).first = some p)
    (legal : ∀ k c, k < x.job.k / 4 → c < 256 → nibbleAt s x p k c % 4 < nibbleAt s x p k c / 4) :
    SweepRuns s core x (fun i c => (List.range (x.job.k / 4)).flatMap (fun k =>
      [fed Ctl.plain (granted s x) x.job.da x.job.va x.tile k (256 * (nibbleAt s x p k c % 4) + i) *
          fed Ctl.plain (granted s x) x.job.db x.job.vb x.tile k c,
        fed Ctl.plain (granted s x) x.job.da x.job.va x.tile k (256 * (nibbleAt s x p k c / 4) + i) *
          fed Ctl.plain (granted s x) x.job.db x.job.vb x.tile k (256 + c)])) := by
  have spread := mopsTerms_spread (s := armedGrant s x) (j := x.job) (t := x.tile) rfl rfl rfl fun k c => by
    rw [metaNibble_granted first]
    exact Nat.mod_lt _ (by decide)
  have terms : jobTerms (armedGrant s x) x.job x.tile = mopsTerms (armedGrant s x) x.job x.tile := by simp only [jobTerms, op]
  have fine : metaFault (armedGrant s x) x.job x.tile = none := metaFault_none fun k c hk hc => by
    rw [metaNibble_granted first]
    exact legal k c hk hc
  have runs := may.runs ((if_pos op).trans fine) (terms ▸ spread)
  have order : ∀ i c, (((List.range (x.job.k / 4)).map (fun q => [0, 1].map (fun h i c =>
      fed Ctl.plain (armedGrant s x) x.job.da x.job.va x.tile q (256 * pickOf (armedGrant s x) x.job x.tile q c h + i) *
        fed Ctl.plain (armedGrant s x) x.job.db x.job.vb x.tile q (256 * h + c)))).flatten.map (fun f => f i c)) =
      (List.range (x.job.k / 4)).flatMap (fun k =>
        [fed Ctl.plain (granted s x) x.job.da x.job.va x.tile k (256 * (nibbleAt s x p k c % 4) + i) *
            fed Ctl.plain (granted s x) x.job.db x.job.vb x.tile k c,
          fed Ctl.plain (granted s x) x.job.da x.job.va x.tile k (256 * (nibbleAt s x p k c / 4) + i) *
            fed Ctl.plain (granted s x) x.job.db x.job.vb x.tile k (256 + c)]) := fun i c => by
    rw [List.map_flatten, List.map_map, List.flatMap_def]
    refine congrArg List.flatten (List.map_congr_left fun k _ => ?_)
    simp only [Function.comp_apply, List.map_cons, List.map_nil, pickOf, if_true, Nat.one_ne_zero, if_false, metaNibble_granted first,
      Nat.mul_zero, Nat.zero_add, Nat.mul_one]
    rfl
  simp only [order] at runs
  exact runs

/-- A sweep with illegal metadata leaves a record and is dropped. -/
theorem followOnSweep_faults (may : MayRun s core x) (op : x.job.op = 1) (live : (gangOf s x.gang).ending = false) {f : Nat × Nat}
    (fault : metaFault (armedGrant s x) x.job x.tile = some f) : ∃ z, exec (.followOnSweep core) s = .next { s with
      sweeps := s.sweeps.filter (fun y => !(y.core == core && y.copy == x.copy)), records := s.records ++ [z], fresh := s.fresh + 1
      calendar := s.calendar ++ [(s.cyc + 2000, .faultRecordDelivery s.fresh), (s.cyc, .followOnSweep core), (s.cyc, .arrayRampDown core)] } ∧
    z.cls = 0x10 ∧ z.code = 0x14 ∧ z.agent = 2 ∧ z.addr = BitVec.ofNat 64 (0x20000000 + 64 * x.tidx) ∧
    z.synd = BitVec.ofNat 64 (x.tile * 2 ^ 32 + f.1 * 2 ^ 16 + f.2) ∧ z.hart = x.hart ∧ z.pc = x.pc := by
  obtain ⟨own, free, awake, in_slot, settled, clean, unarmed⟩ := may
  have next : nextSweep s core = some x := own.next
  have begins : sweepBegins s core = true := own.sweepBegins.mpr ⟨free, awake⟩
  have swept : sweepCore x x.job s = (s, some f) := by
    rw [sweepCore_settled settled x.job_array clean unarmed, if_pos op, fault]
  obtain ⟨z, recorded, agent, cls, code, addr, synd, hart, pc, -⟩ := copyRecord_spec
    (s := { s with sweeps := s.sweeps.filter (fun y => !(y.core == core && y.copy == x.copy)) }) (q := x.copyOf s) live 2 0x10 0x14
    (0x20000000 + 64 * x.tidx) (BitVec.ofNat 64 (x.tile * 2 ^ 32 + f.1 * 65536 + f.2))
  refine ⟨z, congrArg Host.Outcome.next ?_, cls, code, agent, addr, synd, hart, pc⟩
  rw [next]
  dsimp only
  rw [own.sweepStart, if_neg (Nat.not_lt.mpr free), begins, followJob_copyOf]
  rw [Bool.not_true, if_neg Bool.false_ne_true, own.gang, own.hart, findHart_self, takeHart_self, swept]
  obtain ⟨k, c⟩ := f
  dsimp only
  refine Eq.trans (congrArg (fun u => schedule (schedule u u.cyc (.followOnSweep core)) (schedule u u.cyc (.followOnSweep core)).cyc
    (.arrayRampDown core)) recorded) ?_
  simp only [schedule, List.append_assoc, List.cons_append, List.nil_append]

end Sys2Proof.Machine
end

section
/-! SWEEP_DONE: the matrix-done bit of the sweep's register in its tile (R87, R197). -/
namespace Sys2Proof.Machine

variable {s : State} {core : Nat} {x : Sweep}

/-- The matrix-done bit of a register in a tile set for a hart; seen later in a tile of another die. -/
def sweptHart (s : State) (x : Sweep) (h : Hart) : Hart :=
  { h with landed := sset 0 h.landed (512 * x.vreg + x.tile) (sget 0 h.landed (512 * x.vreg + x.tile) ||| BitVec.ofNat 257 (2 ^ 256))
           landedAt := seenLater h x.tile (257 * (512 * x.vreg + x.tile) + 256) s.cyc h.landedAt }

theorem isHart_iff {g k : Nat} {h : Hart} : isHart g k h = true ↔ h.gang = g ∧ h.idx = k := by
  unfold isHart
  rw [Bool.and_eq_true, beq_iff_eq, beq_iff_eq]

/-- The hart found after a change that keeps every hart's name is the hart found before, changed. -/
theorem findHart_modHarts {g k : Nat} {f : Hart → Hart} (keeps : ∀ h, (f h).gang = h.gang ∧ (f h).idx = h.idx) :
    findHart (modHarts s (isHart g k) f) g k = (findHart s g k).map f := by
  have same : ∀ h, isHart g k (if isHart g k h then f h else h) = isHart g k h := fun h => by
    split
    · unfold isHart
      rw [(keeps h).1, (keeps h).2]
    · rfl
  unfold findHart allHarts modHarts
  dsimp only
  rw [show (if isHart g k s.h then f s.h else s.h) :: s.others.map (fun h => if isHart g k h then f h else h) =
    (s.h :: s.others).map (fun h => if isHart g k h then f h else h) from rfl, List.find?_map,
    show isHart g k ∘ (fun h => if isHart g k h then f h else h) = isHart g k from funext same]
  cases found : (s.h :: s.others).find? (isHart g k) with
  | none => rfl
  | some h => exact congrArg some (if_pos (List.find?_some found))

theorem sweepDone_run (found : s.sweeps.find? (fun y => y.core == core && y.running) = some x) : exec (.sweepDone core) s =
    .next (showLater (modHarts { s with sweeps := s.sweeps.filter (fun y => !(y.core == core && y.copy == x.copy)) }
      (isHart x.gang x.hart) (sweptHart s x)) x.gang x.hart x.tile) := by
  refine congrArg Host.Outcome.next ?_
  rw [found]
  rfl

theorem sweepDone_idle (idle : s.sweeps.find? (fun y => y.core == core && y.running) = none) : exec (.sweepDone core) s = .next s := by
  refine congrArg Host.Outcome.next ?_
  rw [idle]

/-- A change shown later: an event for a hart of another die, else nothing. -/
theorem showLater_spec (s : State) (g k t : Nat) : ∃ calendar, showLater s g k t = { s with calendar } ∧
    ∀ h, findHart s g k = some h → calendar = s.calendar ++ if tileHops h t = 0 then [] else [(s.cyc + 48 * h.span, .waitComplete g k)] := by
  unfold showLater
  split
  case h_1 h found =>
    by_cases near : tileHops h t = 0
    · refine ⟨s.calendar, by rw [if_pos near], fun h' same => ?_⟩
      obtain rfl := Option.some.inj (found.symm.trans same)
      rw [if_pos near, List.append_nil]
    · refine ⟨_, (if_neg near).trans rfl, fun h' same => ?_⟩
      obtain rfl := Option.some.inj (found.symm.trans same)
      rw [if_neg near]
      unfold seenDelay
      rw [if_neg near]
  case h_2 none_there => exact ⟨s.calendar, rfl, fun h same => absurd (none_there.symm.trans same) nofun⟩

/-- What a sweep's end leaves: the events, and the bit in its hart. -/
theorem sweepDone_spec (found : s.sweeps.find? (fun y => y.core == core && y.running) = some x) : ∃ t u,
    exec (.sweepDone core) s = .next t ∧
    u = { s with sweeps := s.sweeps.filter (fun y => !(y.core == core && y.copy == x.copy)), calendar := u.calendar } ∧
    (∀ h, findHart s x.gang x.hart = some h → u.calendar = s.calendar ++
      if tileHops h x.tile = 0 then [] else [(s.cyc + 48 * h.span, .waitComplete x.gang x.hart)]) ∧
    HartsChange u t (fun h => h.gang = x.gang ∧ h.idx = x.hart) (fun a b => b = sweptHart s x a) := by
  obtain ⟨calendar, shown, listed⟩ := showLater_spec
    (modHarts { s with sweeps := s.sweeps.filter (fun y => !(y.core == core && y.copy == x.copy)) } (isHart x.gang x.hart) (sweptHart s x))
    x.gang x.hart x.tile
  have changes := modHarts_changes { s with
    sweeps := s.sweeps.filter (fun y => !(y.core == core && y.copy == x.copy)), calendar } (isHart x.gang x.hart) (sweptHart s x)
  simp only [isHart_iff] at changes
  refine ⟨_, { s with sweeps := s.sweeps.filter (fun y => !(y.core == core && y.copy == x.copy)), calendar },
    (sweepDone_run found).trans (congrArg Host.Outcome.next shown), rfl, fun h at_h => ?_, changes⟩
  have found_later := findHart_modHarts (s := { s with sweeps := s.sweeps.filter (fun y => !(y.core == core && y.copy == x.copy)) })
    (g := x.gang) (k := x.hart) (f := sweptHart s x) fun h => ⟨rfl, rfl⟩
  have before : findHart { s with sweeps := s.sweeps.filter (fun y => !(y.core == core && y.copy == x.copy)) } x.gang x.hart = some h := at_h
  rw [before] at found_later
  exact listed (sweptHart s x h) found_later

end Sys2Proof.Machine
end

section
/-! Planning the chunk cycles of a BTE changes when chunks are issued and land, and nothing else of a copy (R261). -/
namespace Sys2Proof.Machine

variable {s t u : State} {q : Copy}

/-- The chunk at other times. -/
def Rescheduled (c d : Chunk) : Prop := d = { c with iss := d.iss, due := d.due, slot := d.slot, late := d.late }

/-- The copy with its chunks at other times. -/
def CopyReplanned (q r : Copy) : Prop := r = { q with chunks := r.chunks } ∧ List.Forall₂ Rescheduled q.chunks r.chunks

/-- The copies with their chunks at other times, the caches, and the calendar. -/
def Replanned (s t : State) : Prop :=
  t = { s with caches := t.caches, calendar := t.calendar, copies := t.copies } ∧ List.Forall₂ CopyReplanned s.copies t.copies

theorem Rescheduled.refl (c : Chunk) : Rescheduled c c := rfl

theorem Rescheduled.trans {c d e : Chunk} (first : Rescheduled c d) (second : Rescheduled d e) : Rescheduled c e := by
  unfold Rescheduled at first second ⊢
  rw [first] at second
  exact second

theorem forall₂_refl {α : Type} {R : α → α → Prop} (refl : ∀ a, R a a) (l : List α) : List.Forall₂ R l l :=
  List.forall₂_same.mpr fun a _ => refl a

theorem forall₂_trans {α : Type} {R : α → α → Prop} (trans : ∀ a b c, R a b → R b c → R a c) {l m n : List α}
    (first : List.Forall₂ R l m) (second : List.Forall₂ R m n) : List.Forall₂ R l n := by
  induction first generalizing n with
  | nil => exact second
  | cons head _ ih =>
    cases second with
    | cons head' tail' => exact .cons (trans _ _ _ head head') (ih tail')

theorem CopyReplanned.refl (q : Copy) : CopyReplanned q q := ⟨rfl, forall₂_refl Rescheduled.refl _⟩

theorem CopyReplanned.trans {q r p : Copy} (first : CopyReplanned q r) (second : CopyReplanned r p) : CopyReplanned q p := by
  obtain ⟨r_eq, chunks⟩ := first
  obtain ⟨p_eq, chunks'⟩ := second
  refine ⟨?_, forall₂_trans (R := Rescheduled) (fun _ _ _ => Rescheduled.trans) chunks chunks'⟩
  rw [r_eq] at p_eq
  exact p_eq

theorem Replanned.refl (s : State) : Replanned s s := ⟨rfl, forall₂_refl CopyReplanned.refl _⟩

theorem Replanned.trans (first : Replanned s t) (second : Replanned t u) : Replanned s u := by
  obtain ⟨t_eq, copies⟩ := first
  obtain ⟨u_eq, copies'⟩ := second
  refine ⟨?_, forall₂_trans (R := CopyReplanned) (fun _ _ _ => CopyReplanned.trans) copies copies'⟩
  rw [t_eq] at u_eq
  exact u_eq

/-- A copy changes its chunk `k` to other times. -/
theorem setChunk_replanned (s : State) (id k : Nat) {f : Chunk → Chunk} (times : ∀ c, Rescheduled c (f c)) :
    Replanned s (setChunk s id k f) := by
  refine ⟨rfl, ?_⟩
  refine List.forall₂_map_right_iff.mpr (List.forall₂_same.mpr fun x _ => ?_)
  split
  · refine ⟨rfl, List.forall₂_iff_get.mpr ⟨(List.length_modify _ _ _).symm, fun i hi hi' => ?_⟩⟩
    rw [List.get_eq_getElem, List.get_eq_getElem, List.getElem_modify]
    split
    · exact times _
    · exact .refl _
  · exact .refl x

/-- No copy is of the host link, whose slots give notice. -/
def NoHost (s : State) : Prop := ∀ y ∈ s.copies, y.kind ≠ 6

theorem Replanned.copy (planned : Replanned s t) {y : Copy} (hy : y ∈ t.copies) : ∃ x ∈ s.copies, CopyReplanned x y := by
  obtain ⟨-, copies⟩ := planned
  obtain ⟨i, hi, at_i⟩ := List.getElem_of_mem hy
  obtain ⟨len, each⟩ := List.forall₂_iff_get.mp copies
  have pair := each i (by omega) hi
  rw [show t.copies.get ⟨i, hi⟩ = y from at_i] at pair
  exact ⟨_, List.get_mem _ _, pair⟩

theorem NoHost.replanned (none_there : NoHost s) (planned : Replanned s t) : NoHost t := fun y hy => by
  obtain ⟨x, hx, same, -⟩ := planned.copy hy
  rw [same]
  exact none_there x hx

theorem missSlot_replanned (kind : q.kind ≠ 6) (k : Nat) : Replanned s (missSlot s q k) := by
  unfold missSlot
  split
  · dsimp only
    rw [if_neg kind]
    split
    · exact .refl s
    · exact setChunk_replanned s q.id k fun _ => rfl
  · exact .refl s

theorem landAt_replanned (s : State) (q : Copy) (k t : Nat) : Replanned s (landAt s q k t) :=
  (setChunk_replanned s q.id k (f := fun c => { c with due := t }) fun _ => rfl).trans ⟨rfl, forall₂_refl CopyReplanned.refl _⟩

theorem fetchLines_replanned (s : State) (q : Copy) (lock : Bool) (c : Chunk) : Replanned s (fetchLines s q lock c).1 := by
  obtain ⟨caches, fetched⟩ := fetchLines_caches s q lock c
  rw [fetched]
  exact ⟨rfl, forall₂_refl CopyReplanned.refl _⟩

theorem planChunk_replanned (none_there : NoHost s) (lock : Bool) (p : Nat × Nat × Nat) : Replanned s (planChunk lock s p) := by
  unfold planChunk
  split
  · exact .refl s
  split
  · exact .refl s
  case h_2 q found _ c at_k =>
  dsimp only
  generalize fetched_eq : (if c.iss != 2 ^ 64 && c.due != 2 ^ 64 then
    (s, c.due - c.iss - (p.2.2 + chunkLatency s q lock c - p.2.2)) else fetchLines s q lock c) = fetched
  have first : Replanned s fetched.1 := by
    rw [← fetched_eq]
    split
    · exact .refl s
    · exact fetchLines_replanned s q lock c
  have second := first.trans (setChunk_replanned fetched.1 q.id p.2.1 (f := fun d => { d with
    iss := p.2.2, slot := if d.slot = 2 ^ 64 then p.2.2 + chunkLatency s q lock c - q.lag else d.slot }) fun _ => rfl)
  have third := second.trans (landAt_replanned _ q p.2.1 (p.2.2 + chunkLatency s q lock c + fetched.2))
  split
  case h_1 r found' =>
    split
    · exact third.trans (missSlot_replanned (none_there.replanned third r (List.mem_of_find?_eq_some found')) p.2.1)
    · exact third
  case h_2 => exact third

/-- A round of chunk cycles replans copies. -/
theorem planBte_replanned (none_there : NoHost s) (bte : Nat) (lock : Bool) :
    ∃ t, Replanned s t ∧ planBte s bte lock = { t with free := s.free + 1 } := by
  have rounds : ∀ (l : List (Nat × Nat × Nat)) (s : State), NoHost s → Replanned s (l.foldl (planChunk lock) s) := by
    intro l
    induction l with
    | nil => exact fun s _ => .refl s
    | cons p l ih =>
      intro s none_there
      have first := planChunk_replanned none_there lock p
      exact first.trans (ih _ (none_there.replanned first))
  unfold planBte
  dsimp only
  have planned := rounds (serve ((openChunks s bte lock).map List.length).sum
    (if (lastCycle s bte lock).2 = 0 then s.cyc else max s.cyc ((lastCycle s bte lock).2 + 4)) (lastCycle s bte lock).1
    (openChunks s bte lock)) s none_there
  generalize List.foldl (planChunk lock) s _ = t at planned ⊢
  have free : t.free = s.free := by rw [planned.1]
  exact ⟨t, planned, by rw [free]⟩

end Sys2Proof.Machine
end

section
/-! The carriages of a KVWALK: their headers, their chunks, and the end of a walk (R268, R271, R290). -/
namespace Sys2Proof.Machine

variable {s : State} {w : Who} {q : Copy} {v : Walk}

/-! A header: bytes of one line, read by the walk and then field by field. -/

theorem PlainLine.va_eq {a : Nat} {x : Xlat} (line : PlainLine s w a x) : x.va = a := by
  obtain ⟨no_migration, -, found, unique, -⟩ := line
  have moved := translate_same_page (m := 0) rfl no_migration unique found
  exact congrArg Xlat.va (Except.ok.inj (found.symm.trans moved))

/-- Addresses of one block have one tag. -/
theorem PlainLine.tag_eq {a m : Nat} {x y : Xlat} (line : PlainLine s w a x) (near : PlainLine s w (a + m) y) (same : (a + m) / 512 = a / 512) :
    y.tag w.part = x.tag w.part := by
  have start := line.va_eq
  obtain ⟨no_migration, -, found, unique, -⟩ := line
  have moved := translate_same_page (m := m) (by omega) no_migration unique found
  obtain ⟨-, -, found', -⟩ := near
  obtain rfl := Except.ok.inj (found'.symm.trans moved)
  unfold Xlat.tag
  dsimp only
  rw [same, start]

/-- Plain bytes of one block stay plain once their line is noted. -/
theorem PlainVa.noted {a n : Nat} (v : PlainVa s w (fun x => a ≤ x ∧ x < a + n)) (fits : a % 512 + n ≤ 512) {x : Xlat}
    (line : PlainLine s w a x) : ∃ caches, noteLine s w.part x = { s with caches } ∧
      PlainVa { s with caches } w (fun x => a ≤ x ∧ x < a + n) ∧ ∀ b, vbyte { s with caches } w b = vbyte s w b := by
  obtain ⟨caches, noted, own, others⟩ := noteLine_spec line
  obtain ⟨plain, places⟩ := v.keep (t := { s with caches }) (fun _ h => h) rfl (fun _ _ => rfl) fun b y inside near tag stands => by
    obtain ⟨m, rfl⟩ := Nat.exists_eq_add_of_le inside.1
    rw [line.tag_eq near (by omega)]
    by_cases here : y.pa / 512 = x.pa / 512
    · exact own tag (here ▸ stands)
    · obtain ⟨-, -, -, -, tags⟩ := id near
      rw [← line.tag_eq near (by omega)]
      exact tags tag (others _ here ▸ stands)
  exact ⟨caches, noted, plain, fun b => congrArg (sget 0 s.mem) (places b)⟩

/-- What a copy reads within one plain line. -/
theorem spaceRead_line {a n cl : Nat} {x : Xlat} (line : PlainLine s (copyWho q) a x) (n_pos : 0 < n) (fits : a % 512 + n ≤ 512)
    (below : a + n ≤ 2 ^ 64) : spaceRead s q 1 cl a n = (noteLine s q.part x, (List.range n).map (fun k => vbyte s (copyWho q) (a + k))) := by
  have bytes := bytesAt_of_line line fits
  obtain ⟨no_migration, no_poison, found, -, tags⟩ := line
  have once : mappedTwice s q.part x = false := List.any_eq_false.mpr fun t ht => by
    have own := tags t ht
    simp [show x.tag q.part = x.tag (copyWho q).part from rfl, own]
  have found : translate s q.part q.asid q.die a false = .ok x := translate_read found
  unfold spaceRead
  rw [spaceCut_eq below, cut_one n_pos fits]
  simp only [List.foldl_cons, List.foldl_nil, spaceSpot_virtual, settle_still no_migration, found, lineBytes, once, Bool.false_eq_true, if_false,
    List.nil_append, bytes]

/-- A dword of a plain range. -/
theorem vget_plain {a : Nat} (v : PlainVa s w (fun x => a ≤ x ∧ x < a + 8)) : vget s w a = vnum s w a 8 := by
  obtain ⟨caches, read⟩ := vaRead_plain v false
  have small : a % 2 ^ 64 = a := Nat.mod_eq_of_lt (v.2.2.2.1 a ⟨le_rfl, by omega⟩).1
  unfold vget vaDword
  rw [small, read]
  dsimp only
  rw [BitVec.toNat_ofNat]
  exact Nat.mod_eq_of_lt (Nat.lt_of_lt_of_eq (vnum_lt s w a 8) (by norm_num))

/-- The header's fields, read after the header's line is noted, are those of memory. -/
theorem vget_noted {a i : Nat} {caches : _} (v : PlainVa s w (line a)) (noted : PlainVa { s with caches } w (line a))
    (same : ∀ b, vbyte { s with caches } w b = vbyte s w b) (hi : i + 8 ≤ 64) : vget { s with caches } w (a + i) = vget s w (a + i) := by
  rw [vget_plain (noted.sub fun x hx => ⟨by omega, by omega⟩), vget_plain (v.sub fun x hx => ⟨by omega, by omega⟩)]
  unfold vnum
  exact congrArg leNat (List.map_congr_left fun k _ => same _)

theorem carShape_noted {a : Nat} {caches : _} (v : PlainVa s w (line a)) (noted : PlainVa { s with caches } w (line a))
    (same : ∀ b, vbyte { s with caches } w b = vbyte s w b) : carShape { s with caches } w a = carShape s w a := by
  unfold carShape vgetField
  rw [vget_noted v noted same (by decide), vget_noted v noted same (by decide), vget_noted v noted same (by decide),
    vget_noted v noted same (by decide)]

end Sys2Proof.Machine
end

section
/-! KVWALK_CARRIAGE_START (R268, R271, R290). -/
namespace Sys2Proof.Machine

variable {s : State} {q : Copy} {v : Walk}

/-- The walk of a copy that goes. -/
structure Walks (s : State) (q : Copy) (v : Walk) : Prop where
  runs : RunsOn s q
  kind : q.kind = 7
  walk : q.walk = some v
  open_ : v.ended = false
  started : q.started = true

/-- The copy with its walk not parked. -/
def unparked (q : Copy) (v : Walk) : Copy := { q with walk := some { v with parked := false } }

/-- A walk whose buffer is free, and of which all but four carriages are consumed, goes on. -/
theorem Walks.run (walks : Walks s q v) (dsp : q.dsp = 0) (free : (bufAt s (q.core / 8) (q.carBuf v.j)).landed = 0)
    (consumed : ∀ i, i < v.j → i ∈ v.used ∨ v.j ≤ i + 4) :
    exec (.kvwalkCarriageStart q.chan) s = .next (startCarriage s (unparked q v) { v with parked := false }) := by
  obtain ⟨⟨running, -, thawed, -⟩, -, walk, open_, started⟩ := walks
  have found : runningOn s q.chan = some q := running
  have cluster : (unparked q v).tbCluster = q.core / 8 := if_neg (by rw [show (unparked q v).dsp = q.dsp from rfl, dsp]; decide)
  have low : v.j ≤ ((List.range v.j).find? (fun j => !v.used.contains j)).getD v.j + 4 := by
    cases first : (List.range v.j).find? (fun j => !v.used.contains j) with
    | none => exact Nat.le_add_right _ _
    | some i =>
      have unused := List.find?_some first
      rcases consumed i (List.mem_range.mp (List.mem_of_find?_eq_some first)) with used | near
      · simp [used] at unused
      · exact near
  have may : walkMay s (unparked q v) = true := by
    have goes : (unparked q v).goes = true := by
      unfold Copy.goes
      rw [show (unparked q v).started = q.started from rfl, show (unparked q v).frozen = q.frozen from rfl, started, thawed]
      rfl
    have here : (bufAt s (unparked q v).tbCluster ((unparked q v).carBuf v.j)).landed = 0 := by
      rw [cluster]
      exact free
    show ((unparked q v).goes && !v.ended && !false && decide (v.j ≤ ((List.range v.j).find? (fun j => !v.used.contains j)).getD v.j + 4) &&
      (bufAt s (unparked q v).tbCluster ((unparked q v).carBuf v.j)).landed == 0) = true
    rw [goes, open_, decide_eq_true low, beq_iff_eq.mpr here]
    rfl
  refine congrArg Host.Outcome.next ?_
  rw [found]
  dsimp only
  rw [walk]
  exact if_pos may

/-- The copy with its walk at an end. -/
def finishedWalk (q : Copy) (v : Walk) : Copy := { q with walk := some { v with ended := true }, lost := q.lost || false, units := v.j }

/-- The end of a walk all of whose chunks have landed, without a report, ends its copy. -/
theorem endWalk_spec (held : Holds s q) (walk : q.walk = some v) (kind : q.kind = 7) (silent : q.ren = false)
    (landed : ∀ c ∈ q.chunks, c.st = .landed) {q₀ : Copy} (same : q₀.id = q.id) : ∃ lastServed calendar,
    endWalk s q₀ false = { s with copies := s.copies.filter (fun x => x.id != q.id), lastServed, calendar } := by
  have held₁ : Holds { s with copies := copiesWith s q { q with walk := some { v with ended := true } } }
    { q with walk := some { v with ended := true } } := held.replace rfl
  have held₂ : Holds { s with copies := copiesWith s q (finishedWalk q v) }
    (finishedWalk q v) := held.replace rfl
  have ended : setWalk s q₀.id (fun w => { w with ended := true }) =
      { s with copies := copiesWith s q { q with walk := some { v with ended := true } } } := by
    unfold setWalk
    rw [same, held.modCopy, walk]
    rfl
  have counted : modCopy { s with copies := copiesWith s q { q with walk := some { v with ended := true } } } q₀.id
      (fun c => { c with lost := c.lost || false, units := (c.walk.map (fun w => w.j)).getD 0 }) =
      { s with copies := copiesWith s q (finishedWalk q v) } := by
    rw [same, held₁.modCopy, show copiesWith _ _ _ = _ from copiesWith_copiesWith (s := s) (q := q)
      (q' := { q with walk := some { v with ended := true } }) rfl _]
    rfl
  have over_now : (finishedWalk q v).over = true := by
    unfold Copy.over finishedWalk
    dsimp only
    rw [Bool.and_true, List.all_eq_true]
    intro c hc
    unfold Chunk.over
    rw [landed c hc]
    rfl
  have not_replay : q.kind ≠ 8 := by
    rw [kind]
    decide
  obtain ⟨lastServed, calendar, gone⟩ := endCopy_spec
    (s := { s with copies := copiesWith s q (finishedWalk q v) })
    (q := finishedWalk q v) not_replay
  have report : ∀ u : State, writeReport u (finishedWalk q v) = u :=
    fun u =>
    if_neg (show ¬(q.ren && !(q.lost || false)) = true by rw [silent, Bool.false_and]; decide)
  refine ⟨lastServed, calendar, ?_⟩
  unfold endWalk
  dsimp only
  rw [ended, counted, same, show findCopy _ q.id = some (finishedWalk q v) from held₂.find]
  dsimp only
  rw [over_now, if_pos rfl, report, gone]
  exact congrArg (fun copies => { s with copies, lastServed, calendar }) (copiesWith_filter (q' := finishedWalk q v) rfl)

/-- A walk at SUCC = 0 or its limit ends. -/
theorem startCarriage_ends (walks : Walks s q v) (silent : q.ren = false) (landed : ∀ c ∈ q.chunks, c.st = .landed)
    (over_ : v.va = 0 ∨ (q.dw 5 % 2 ^ 32 ≠ 0 ∧ q.dw 5 % 2 ^ 32 ≤ v.j)) : ∃ lastServed calendar,
    startCarriage s (unparked q v) { v with parked := false } =
      { s with copies := s.copies.filter (fun x => x.id != q.id), lastServed, calendar } := by
  obtain ⟨lastServed, calendar, ended⟩ := endWalk_spec walks.runs.holds walks.walk walks.kind silent landed (q₀ := unparked q v) rfl
  refine ⟨lastServed, calendar, ?_⟩
  unfold startCarriage
  dsimp only
  exact (if_pos over_).trans ended

/-! The next carriage. -/

/-- The chunks that a carriage needs. -/
def carriageNeed (q : Copy) (h : Shape) : Nat :=
  1 + (if q.dw 4 / 2 ^ 48 % 4 = 3 then 2 else 1) * (q.dw 4 / 2 ^ 32 % 2 ^ 16) * ceilDiv (64 * h.hd * h.z) 512

/-- The selection suits the carriage, and its chunks fit its buffer. -/
structure CarriageFits (s : State) (q : Copy) (h : Shape) (j : Nat) : Prop where
  shape : h.ok = true
  parts : q.dw 4 / 2 ^ 48 % 4 ≠ 0
  layer : q.dw 4 % 2 ^ 16 < h.lc
  heads : q.dw 4 / 2 ^ 16 % 2 ^ 16 + q.dw 4 / 2 ^ 32 % 2 ^ 16 ≤ h.hc
  room : carriageNeed q h ≤ (bufAt s q.tbCluster (q.carBuf j)).chunks

theorem carriageBad_none {h : Shape} {j : Nat} (fits : CarriageFits s q h j) : carriageBad s q h j = none := by
  obtain ⟨shape, parts, layer, heads, room⟩ := fits
  have layer_field : fieldOf (q.dw 4) 15 0 = q.dw 4 % 2 ^ 16 := by
    unfold fieldOf
    rw [pow_zero, Nat.div_one]
  have need : 1 + (1 + if fieldOf (q.dw 4) 49 48 = 3 then 1 else 0) * fieldOf (q.dw 4) 47 32 *
      ceilDiv (64 * h.hd * h.z) 512 = carriageNeed q h := by
    unfold carriageNeed
    rw [show fieldOf (q.dw 4) 49 48 = q.dw 4 / 2 ^ 48 % 4 from rfl, show fieldOf (q.dw 4) 47 32 = q.dw 4 / 2 ^ 32 % 2 ^ 16 from rfl]
    split <;> rfl
  have parts_some : (fieldOf (q.dw 4) 49 48 == 0) = false := beq_eq_false_iff_ne.mpr parts
  have suits : ¬(!h.ok || fieldOf (q.dw 4) 49 48 == 0 || decide (h.lc ≤ fieldOf (q.dw 4) 15 0) ||
      decide (h.hc < fieldOf (q.dw 4) 31 16 + fieldOf (q.dw 4) 47 32)) = true := by
    rw [shape, parts_some, layer_field, decide_eq_false (Nat.not_le.mpr layer),
      show decide (h.hc < fieldOf (q.dw 4) 31 16 + fieldOf (q.dw 4) 47 32) = false from
      decide_eq_false (Nat.not_lt.mpr heads)]
    decide
  unfold carriageBad
  dsimp only
  rw [if_neg suits, need, if_neg (Nat.not_lt.mpr room)]

theorem mem_blocks {α : Type} {c b : Nat} {f : Nat → Nat → α} {x : α} (there : x ∈ (List.range c).flatMap (fun i => (List.range b).map (f i))) :
    ∃ i k, i < c ∧ k < b ∧ f i k = x := by
  obtain ⟨i, hi, inner⟩ := List.mem_flatMap.mp there
  obtain ⟨k, hk, same⟩ := List.mem_map.mp inner
  exact ⟨i, k, List.mem_range.mp hi, List.mem_range.mp hk, same⟩

theorem block_index_lt {c b i k p n : Nat} (hi : i < c) (hk : k < b) (hp : p + 1 ≤ n) : 1 + (p * c + i) * b + k < 1 + n * c * b := by
  have row : (p * c + i + 1) * b ≤ n * c * b := Nat.mul_le_mul_right b (by
    calc p * c + i + 1 ≤ p * c + c := by omega
      _ = (p + 1) * c := by ring
      _ ≤ n * c := Nat.mul_le_mul_right c hp)
  have split : (p * c + i + 1) * b = (p * c + i) * b + b := by ring
  omega

/-- The chunks of a carriage: as many as it needs, each of its number, the header's first. -/
theorem carriageChunks_spec (s : State) (q : Copy) {h : Shape} (parts : q.dw 4 / 2 ^ 48 % 4 ≠ 0) (j va ntok : Nat) (hdr : List Byte) :
    ∃ body, carriageChunks s q h j va ntok hdr =
        { Chunk.new 0 with car := j, src := none, len := 512, data := hdr ++ List.replicate 448 0 } :: body ∧
      1 + body.length = carriageNeed q h ∧ ∀ c ∈ body, c.blk < carriageNeed q h ∧ c.car = j ∧ c.st = .waiting := by
  have four := Nat.mod_lt (q.dw 4 / 2 ^ 48) (by decide : 4 > 0)
  unfold carriageChunks carriageNeed
  dsimp only
  rw [show fieldOf (q.dw 4) 49 48 = q.dw 4 / 2 ^ 48 % 4 from rfl, show fieldOf (q.dw 4) 47 32 = q.dw 4 / 2 ^ 32 % 2 ^ 16 from rfl]
  generalize q.dw 4 / 2 ^ 48 % 4 = p at four parts
  generalize q.dw 4 / 2 ^ 32 % 2 ^ 16 = c
  generalize ceilDiv (64 * h.hd * h.z) 512 = b
  refine ⟨_, List.cons_append, ?_, fun x hx => ?_⟩
  · obtain rfl | rfl | rfl : p = 1 ∨ p = 2 ∨ p = 3 := by omega
    · simp
    · simp
    · simp
      ring
  · rcases List.mem_append.mp hx with key | value
    · split at key
      · cases key
      · obtain ⟨i, k, hi, hk, rfl⟩ := mem_blocks key
        exact ⟨block_index_lt hi hk (by split <;> omega), rfl, rfl⟩
    · split at value
      · cases value
      · obtain ⟨i, k, hi, hk, rfl⟩ := mem_blocks value
        exact ⟨block_index_lt hi hk (by split <;> omega), rfl, rfl⟩

end Sys2Proof.Machine
end

section
/-! A carriage that follows: its header read, its chunks started (R271, R290). -/
namespace Sys2Proof.Machine

variable {s t : State} {q : Copy} {v : Walk}

/-- A copy found by its number is found replanned. -/
theorem Replanned.find (planned : Replanned s t) {n : Nat} (found : findCopy s n = some q) :
    ∃ q', findCopy t n = some q' ∧ CopyReplanned q q' := by
  obtain ⟨-, copies⟩ := planned
  unfold findCopy at found ⊢
  generalize s.copies = l, t.copies = m at copies found ⊢
  induction copies with
  | nil => exact nomatch found
  | cons head _ ih =>
    have name := congrArg Copy.id head.1
    dsimp only at name
    rw [List.find?_cons] at found ⊢
    rw [name]
    split at found
    · obtain rfl := Option.some.inj found
      exact ⟨_, rfl, head⟩
    · exact ih found

/-- The header of a carriage, as the walk reads it. -/
theorem header_first (s : State) (w : Who) (a : Nat) : leNat (((List.range 64).map (fun k => vbyte s w (a + k))).take 8) = vnum s w a 8 := rfl

/-- The coach that a header names. -/
theorem header_coach (v : PlainVa s (copyWho q) (line a)) {caches : _} (noted : PlainVa { s with caches } (copyWho q) (line a))
    (same : ∀ b, vbyte { s with caches } (copyWho q) b = vbyte s (copyWho q) b) :
    vgetField { s with caches } (copyWho q) (a + 8) 31 16 = vnum s (copyWho q) (a + 8) 8 / 2 ^ 16 % 2 ^ 16 := by
  unfold vgetField
  rw [vget_noted v noted same (by decide), vget_plain (v.sub fun x hx => ⟨by omega, by omega⟩)]
  rfl

/-- The copy with one carriage more. -/
def withCarriage (q : Copy) (v : Walk) (more : List Chunk) (next coach : Nat) : Copy :=
  { q with chunks := q.chunks ++ more, walk := some ⟨v.j + 1, next, coach :: v.coaches, v.used, false, v.ended⟩ }

/-- The walk goes on: the next header read, and the chunks of this carriage waiting. -/
theorem startCarriage_goes (walks : Walks s q v) (no_host : NoHost s) (some_va : v.va ≠ 0) (straight : v.va % 64 = 0)
    (limit : q.dw 5 % 2 ^ 32 = 0 ∨ v.j + 1 < q.dw 5 % 2 ^ 32) (succ : vnum s (copyWho q) v.va 8 ≠ 0)
    (plain : PlainVa s (copyWho q) (line v.va)) (fits : CarriageFits s q (carShape s (copyWho q) v.va) v.j) :
    ∃ t more q', startCarriage s (unparked q v) { v with parked := false } = t ∧
      t = { s with copies := t.copies, calendar := t.calendar, caches := t.caches, free := s.free + 1 } ∧
      findCopy t q.id = some q' ∧
      CopyReplanned (withCarriage q v more (vnum s (copyWho q) v.va 8) (vnum s (copyWho q) (v.va + 8) 8 / 2 ^ 16 % 2 ^ 16)) q' ∧
      List.Forall₂ CopyReplanned (copiesWith s q (withCarriage q v more (vnum s (copyWho q) v.va 8)
        (vnum s (copyWho q) (v.va + 8) 8 / 2 ^ 16 % 2 ^ 16))) t.copies ∧
      ∃ u ntok, more = carriageChunks u (unparked q v) (carShape s (copyWho q) v.va) v.j v.va ntok
        ((List.range 64).map (fun k => vbyte s (copyWho q) (v.va + k))) := by
  have held := walks.runs.holds
  obtain ⟨x, header⟩ := plain.line (lo := v.va) ⟨le_rfl, by omega⟩
  obtain ⟨caches, noted_eq, noted, same⟩ := plain.noted (n := 64) (by omega) header
  obtain ⟨-, clean, -, mapped, -⟩ := id plain
  have below : v.va + 64 ≤ 2 ^ 64 := by
    have := (mapped (v.va + 63) ⟨by omega, by omega⟩).1
    omega
  have readable : readFault s (unparked q v) 1 0 v.va 64 = none := readFault_none below clean fun y low high => by
    obtain ⟨-, z, found, -⟩ := mapped y ⟨low, high⟩
    exact ⟨z, translate_read found⟩
  have read : spaceRead s (unparked q v) 1 0 v.va 64 = ({ s with caches }, (List.range 64).map (fun k => vbyte s (copyWho q) (v.va + k))) :=
    (spaceRead_line (q := unparked q v) header (by decide) (by omega) below).trans (congrArg (·, _) noted_eq)
  have shape : carShape { s with caches } (unparked q v).who v.va = carShape s (copyWho q) v.va := carShape_noted plain noted same
  have coach : vgetField { s with caches } (unparked q v).who (v.va + 8) 31 16 = vnum s (copyWho q) (v.va + 8) 8 / 2 ^ 16 % 2 ^ 16 :=
    header_coach plain noted same
  have suits : carriageBad { s with caches } (unparked q v) (carShape s (copyWho q) v.va) v.j = none :=
    carriageBad_none ⟨fits.shape, fits.parts, fits.layer, fits.heads, fits.room⟩
  generalize next_eq : vnum s (copyWho q) v.va 8 = next at succ ⊢
  generalize coach_eq : vnum s (copyWho q) (v.va + 8) 8 / 2 ^ 16 % 2 ^ 16 = id' at coach ⊢
  have first : leNat (((List.range 64).map (fun k => vbyte s (copyWho q) (v.va + k))).take 8) = next := (header_first s _ _).trans next_eq
  generalize more_eq : carriageChunks { s with caches } (unparked q v) (carShape s (copyWho q) v.va) v.j v.va
    (carNtok { s with caches } (unparked q v).who v.va) ((List.range 64).map (fun k => vbyte s (copyWho q) (v.va + k))) = more
  have goes_on : ¬(v.va = 0 ∨ q.dw 5 % 2 ^ 32 ≠ 0 ∧ q.dw 5 % 2 ^ 32 ≤ v.j) := by
    rintro (zero | ⟨some_limit, reached⟩)
    · exact some_va zero
    · omega
  have more_to_come : ¬(next = 0 ∨ q.dw 5 % 2 ^ 32 = v.j + 1) := by
    rintro (zero | reached)
    · exact succ zero
    · omega
  have held₀ : Holds { s with caches } q := held
  have added : modCopy { s with caches } q.id (fun c => { c with chunks := c.chunks ++ more }) =
      { s with caches, copies := copiesWith { s with caches } q { q with chunks := q.chunks ++ more } } := held₀.modCopy _
  have held₁ : Holds { s with caches, copies := copiesWith { s with caches } q { q with chunks := q.chunks ++ more } }
    { q with chunks := q.chunks ++ more } := held₀.replace rfl
  have walked : setWalk { s with caches, copies := copiesWith { s with caches } q { q with chunks := q.chunks ++ more } } q.id
      (fun w => { w with j := w.j + 1, va := next, coaches := id' :: w.coaches, parked := false }) =
      { s with caches, copies := copiesWith s q (withCarriage q v more next id') } := by
    unfold setWalk
    rw [show modCopy _ q.id _ = _ from held₁.modCopy _, show copiesWith _ _ _ = _ from copiesWith_copiesWith (s := { s with caches }) (q := q)
      (q' := { q with chunks := q.chunks ++ more }) rfl _, walks.walk]
    rfl
  have held₂ : Holds { s with caches, copies := copiesWith s q (withCarriage q v more next id') } (withCarriage q v more next id') :=
    held.replace rfl
  have no_host₂ : NoHost { s with caches, copies := copiesWith s q (withCarriage q v more next id') } := fun y hy => by
    obtain ⟨z, hz, rfl⟩ := List.mem_map.mp hy
    by_cases mine : (z.id == q.id) = true
    · rw [if_pos mine]
      exact no_host q held.1
    · rw [if_neg mine]
      exact no_host z hz
  obtain ⟨t, planned, plan⟩ := planBte_replanned no_host₂ q.bte (copyLock s q)
  obtain ⟨q', found, replanned⟩ := planned.find held₂.find
  refine ⟨{ t with free := s.free + 1 }, more, q', ?_, ?_, found, replanned, planned.2, { s with caches }, _, more_eq.symm⟩
  · unfold startCarriage
    dsimp only
    rw [if_neg (show ¬(v.va = 0 ∨ (unparked q v).dw 5 % 2 ^ 32 ≠ 0 ∧ (unparked q v).dw 5 % 2 ^ 32 ≤ v.j) from goes_on), readable]
    dsimp only
    rw [read]
    dsimp only
    rw [shape, suits]
    dsimp only
    rw [first, coach, more_eq, if_neg (show ¬(next = 0 ∨ (unparked q v).dw 5 % 2 ^ 32 = v.j + 1) from more_to_come),
      show modCopy { s with caches } (unparked q v).id _ = _ from added, show setWalk _ (unparked q v).id _ = _ from walked]
    exact plan
  · exact congrArg (fun u => { u with free := s.free + 1 }) planned.1

end Sys2Proof.Machine
end

section
/-! What the obligation says of sweeps and walks, in its own words. -/
namespace Sys2Proof.Machine

variable {s t : State} {core : Nat} {x : Sweep} {q : Copy} {v : Walk}

theorem HartsChange.mono {p : Hart → Prop} {f f' : Hart → Hart → Prop} (change : HartsChange s t p f) (imp : ∀ a b, f a b → f' a b) :
    HartsChange s t p f' := by
  obtain ⟨frame, len, each⟩ := change
  exact ⟨frame, len, fun j a b ha hb => ⟨fun h => imp a b ((each j a b ha hb).1 h), (each j a b ha hb).2⟩⟩

/-- The bit in the hart, and when a hart of another die sees it. -/
theorem sweptHart_spec (s : State) (x : Sweep) (a : Hart) :
    sweptHart s x a = { a with landed := (sweptHart s x a).landed, landedAt := (sweptHart s x a).landedAt } ∧
    (∀ i, sget 0 (sweptHart s x a).landed i = if i = 512 * x.vreg + x.tile
      then sget 0 a.landed (512 * x.vreg + x.tile) ||| BitVec.ofNat 257 (2 ^ 256) else sget 0 a.landed i) ∧
    ∀ i, sget 0 (sweptHart s x a).landedAt i =
      if i = 257 * (512 * x.vreg + x.tile) + 256 ∧ tileHops a x.tile ≠ 0 then s.cyc else sget 0 a.landedAt i := by
  refine ⟨rfl, fun i => sget_sset _ _ _ _ _, fun i => ?_⟩
  show sget 0 (seenLater a x.tile (257 * (512 * x.vreg + x.tile) + 256) s.cyc a.landedAt) i = _
  unfold seenLater
  by_cases near : tileHops a x.tile = 0
  · rw [if_pos near, if_neg fun both => both.2 near]
  · rw [if_neg near, sget_sset]
    exact if_congr (by simp [near]) rfl rfl

theorem firstSome_ne_none {α β : Type} {l : List α} {f : α → Option β} {a : α} (there : a ∈ l) (value : f a ≠ none) : firstSome l f ≠ none := by
  induction l with
  | nil => cases there
  | cons b l ih =>
    unfold firstSome
    cases at_b : f b with
    | some y => exact Option.some_ne_none y
    | none =>
      rcases List.mem_cons.mp there with here | later
      · exact absurd (here ▸ at_b) value
      · exact ih later

/-- Metadata out of order shows a fault. -/
theorem metaFault_ne_none {g : State} {j : Job} {t k c : Nat} (hk : k < j.k / 4) (hc : c < 256)
    (wrong : metaNibble g j t k c / 4 ≤ metaNibble g j t k c % 4) : metaFault g j t ≠ none := by
  refine firstSome_ne_none (List.mem_range.mpr hk) fun none_found => ?_
  have all := List.find?_eq_none.mp (Option.map_eq_none_iff.mp none_found) c (List.mem_range.mpr hc)
  rw [Bool.not_eq_true', ← Bool.not_eq_true, not_not, metaOk_iff] at all
  omega

theorem Sweep.job_op (x : Sweep) : x.cmd.toNat / 2 ^ 0 % 2 ^ 2 = x.job.op := by
  rw [pow_zero, Nat.div_one]
  rfl

theorem Sweep.job_k_dense {x : Sweep} (op : x.job.op ≠ 1) : x.job.k = x.cmd.toNat / 2 ^ 2 % 2 ^ 8 + 1 := if_neg op

theorem Sweep.job_k_sparse {x : Sweep} (op : x.job.op = 1) : x.job.k / 4 = x.cmd.toNat / 2 ^ 2 % 2 ^ 8 + 1 := by
  rw [show x.job.k = 4 * (x.cmd.toNat / 2 ^ 2 % 2 ^ 8 + 1) from if_pos op, Nat.mul_div_cancel_left _ (by decide)]

/-- What the walk's copy holds of a carriage that follows. -/
theorem carriage_spec {more : List Chunk} {next coach : Nat} {q' : Copy} {u : State} {h : Shape} {va ntok : Nat} {hdr : List Byte}
    (open_ : v.ended = false) (replanned : CopyReplanned (withCarriage q v more next coach) q')
    (parts : q.dw 4 / 2 ^ 48 % 4 ≠ 0) (more_eq : more = carriageChunks u (unparked q v) h v.j va ntok hdr) (full : hdr.length = 64) :
    q'.walk = some ⟨v.j + 1, next, coach :: v.coaches, v.used, false, false⟩ ∧
    q'.chunks.length = q.chunks.length + carriageNeed q h ∧
    ∀ (i : Nat) (c : Chunk), q'.chunks[q.chunks.length + i]? = some c → c.blk < carriageNeed q h ∧ c.car = v.j ∧ c.st = .waiting ∧
      (i = 0 → c.blk = 0 ∧ c.src = none ∧ c.data.take 64 = hdr) := by
  obtain ⟨same, chunks⟩ := replanned
  obtain ⟨body, carriage, count, each⟩ := carriageChunks_spec u (unparked q v) (h := h) parts v.j va ntok hdr
  rw [← more_eq] at carriage
  have need : carriageNeed (unparked q v) h = carriageNeed q h := rfl
  rw [need] at count each
  obtain ⟨len, pointwise⟩ := List.forall₂_iff_get.mp chunks
  have total : (withCarriage q v more next coach).chunks.length = q.chunks.length + carriageNeed q h := by
    show (q.chunks ++ more).length = _
    rw [List.length_append, carriage, List.length_cons, ← count]
    omega
  refine ⟨?_, len.symm.trans total, fun i c at_i => ?_⟩
  · rw [same]
    show some _ = some _
    rw [open_]
  · obtain ⟨inside, rfl⟩ := List.getElem?_eq_some_iff.mp at_i
    have pair : Rescheduled ((q.chunks ++ more)[q.chunks.length + i]'(by exact len ▸ inside)) q'.chunks[q.chunks.length + i] :=
      pointwise (q.chunks.length + i) (by exact len ▸ inside) inside
    obtain ⟨d, at_d, again⟩ : ∃ d, more[i]? = some d ∧ Rescheduled d q'.chunks[q.chunks.length + i] := by
      have at_d := List.getElem?_eq_getElem (l := q.chunks ++ more) (i := q.chunks.length + i) (len ▸ inside)
      rw [List.getElem?_append_right (Nat.le_add_right _ _), Nat.add_sub_cancel_left] at at_d
      exact ⟨_, at_d, pair⟩
    rw [again]
    rw [carriage] at at_d
    cases i with
    | zero =>
      obtain rfl := Option.some.inj at_d
      refine ⟨by show 0 < _; omega, rfl, rfl, fun _ => ⟨rfl, rfl, ?_⟩⟩
      show (hdr ++ List.replicate 448 0).take 64 = hdr
      rw [← full, List.take_left]
    | succ k =>
      obtain ⟨blk, car, st⟩ := each d (List.mem_of_getElem? at_d)
      exact ⟨blk, car, st, fun zero => nomatch zero⟩

end Sys2Proof.Machine

open Sys2Proof Sys2Proof.Machine

/-- Settles O46: the end of a sweep is `sweepDone_spec`; a sweep that waits, wakes rows, runs or is dropped is the `followOnSweep` lemma of
that name, with the cells' terms from the rows that feed them; a walk ends by `startCarriage_ends` and goes on by `startCarriage_goes`. -/
theorem sweepsAndWalks : Obligations.SweepsAndWalks := by
  intro s core q v
  dsimp only
  refine ⟨fun x found => ?_, fun idle => ?_, fun idle => ?_, fun x next gang hart => ?_, ?walks⟩
  · obtain ⟨t, u, run, frame, events, harts⟩ := sweepDone_spec found
    refine ⟨t, u, run, frame, events, harts.mono fun a b same => ?_⟩
    rw [same]
    exact sweptHart_spec s x a
  · exact sweepDone_idle (List.find?_eq_none.mpr fun x hx => by simp [idle x hx])
  · have none_next : nextSweep s core = none := List.find?_eq_none.mpr fun x hx both => by
      simp only [Bool.and_eq_true, beq_iff_eq, Bool.not_eq_true'] at both
      rw [idle x hx both.1] at both
      exact nomatch both.2
    refine congrArg Host.Outcome.next ?_
    rw [none_next]
  · have own : NextOwn s core x := ⟨next, gang, hart⟩
    refine ⟨followOnSweep_waits own, fun free asleep => ?_, fun free awake in_slot clean unarmed windows resident => ?_⟩
    · obtain ⟨touched, drowsy, run, rows⟩ := followOnSweep_wakes own free asleep
      exact ⟨_, run, rfl, rows⟩
    · have may : ∀ (_ : x.job.op = 1 → (vreg s x.job.vm).first.isSome = true), MayRun s core x := fun metadata =>
        ⟨own, free, awake, in_slot, ⟨windows, resident, metadata⟩, clean, unarmed⟩
      rw [x.job_op]
      refine ⟨fun op => ?_, fun op => ?_, fun p op first => ?_⟩
      · have runs := (may fun other => absurd (op.symm.trans other) (by decide)).runs_mop op
        rw [Sweep.job_k_dense (by rw [op]; decide)] at runs
        exact runs
      · have runs := (may fun other => absurd (op.symm.trans other) (by decide)).runs_mopg op
        rw [Sweep.job_k_dense (by rw [op]; decide)] at runs
        exact runs
      · have here : MayRun s core x := may fun _ => by rw [show (vreg s x.job.vm).first = some p from first]; rfl
        refine ⟨fun legal => ?_, fun wrong live => ?_⟩
        · have runs := here.runs_mops op first fun k c hk hc => legal k c (Sweep.job_k_sparse op ▸ hk) hc
          rw [Sweep.job_k_sparse op] at runs
          exact runs
        · obtain ⟨k, c, hk, hc, bad⟩ := wrong
          obtain ⟨f, fault⟩ := Option.ne_none_iff_exists'.mp (metaFault_ne_none (g := armedGrant s x) (j := x.job) (t := x.tile) (k := k) (c := c)
            (Sweep.job_k_sparse op ▸ hk) hc (by rw [metaNibble_granted first]; exact bad))
          obtain ⟨z, run, cls, code, agent, addr, synd, hart', pc⟩ := followOnSweep_faults here op live fault
          obtain ⟨f1, f2, out⟩ := metaFault_some fault
          rw [metaNibble_granted first] at out
          exact ⟨_, z, f.1, f.2, run, Sweep.job_k_sparse op ▸ f1, f2, out, rfl, cls, code, agent, addr, synd, hart', pc⟩
  case walks =>
    intro runs kind walk open_ started dsp no_host free landed consumed
    have walks : Walks s q v := ⟨runs, kind, walk, open_, started⟩
    have run := walks.run dsp free consumed
    refine ⟨fun over_ silent => ?_, fun some_va straight limit succ plain shape parts layer heads room => ?_⟩
    · obtain ⟨lastServed, calendar, ended⟩ := startCarriage_ends walks silent landed over_
      exact ⟨_, run.trans (congrArg Host.Outcome.next ended), rfl, rfl, rfl⟩
    · have cluster : q.tbCluster = q.core / 8 := if_neg (by rw [dsp]; decide)
      have fits : CarriageFits s q (carShape s (copyWho q) v.va) v.j := ⟨shape, parts, layer, heads, by rw [cluster]; exact room⟩
      obtain ⟨t, more, q', goes, frame, found, replanned, -, u, ntok, more_eq⟩ :=
        startCarriage_goes walks no_host some_va straight limit succ plain fits
      have held := carriage_spec open_ replanned parts more_eq (by simp)
      exact ⟨t, q', run.trans (congrArg Host.Outcome.next goes), frame, found, held⟩

end

section
/-! COPY_START of an elastic LINEAR copy, the first of its channel (R258, R411). -/
namespace Sys2Proof.Machine

variable {s : State} {q : Copy} {n : Nat}

/-- The template of a LINEAR copy from virtual space with nothing else asked. -/
structure LinearTemplate (q : Copy) : Prop where
  head : q.tmpl.headD 0 = 0x10
  tail : q.tmpl.drop 4 = [0, 0, 0, 0]
  length_field : (q.tmpl.getD 3 0).toNat < 2 ^ 32

theorem LinearTemplate.dw_0 (tmpl : LinearTemplate q) : q.dw 0 = 16 := by
  have head := tmpl.head
  unfold Copy.dw
  rw [show q.tmpl.getD 0 0 = q.tmpl.headD 0 by cases q.tmpl <;> rfl, head]
  rfl

theorem LinearTemplate.dw_tail (tmpl : LinearTemplate q) {k : Nat} (hk : k < 4) : q.dw (4 + k) = 0 := by
  have tail := congrArg (fun l => l.getD k 0) tmpl.tail
  have same : (q.tmpl.drop 4).getD k 0 = q.tmpl.getD (4 + k) 0 := by simp [List.getD_eq_getElem?_getD]
  unfold Copy.dw
  rw [← same, show (q.tmpl.drop 4).getD k 0 = _ from tail]
  obtain rfl | rfl | rfl | rfl : k = 0 ∨ k = 1 ∨ k = 2 ∨ k = 3 := by omega
  all_goals rfl

/-- A number below 2^32 has no bit of the upper half. -/
theorem low_half_and {v : Nat} (small : v < 2 ^ 32) : BitVec.ofNat 64 v &&& BitVec.ofNat 64 ((2 ^ 32 - 1) * 2 ^ 32) = 0 := by
  refine BitVec.eq_of_getLsbD_eq fun i hi => ?_
  rw [BitVec.getLsbD_and, BitVec.getLsbD_ofNat, BitVec.getLsbD_ofNat, Nat.testBit_mul_two_pow]
  by_cases low : i < 32
  · rw [decide_eq_false (by omega : ¬i ≥ 32)]
    simp
  · rw [Nat.testBit_lt_two_pow (Nat.lt_of_lt_of_le small (Nat.pow_le_pow_right (by decide) (by omega)))]
    simp

/-- Such a template breaks no rule of R411. -/
theorem templateFault_linear (tmpl : LinearTemplate q) (r : VReg) : templateFault q r = none := by
  have d0 := tmpl.dw_0
  have kind : q.kind = 0 := by unfold Copy.kind; rw [d0]; decide
  have ssp : q.ssp = 1 := by unfold Copy.ssp; rw [d0]; decide
  have dsp : q.dsp = 0 := by unfold Copy.dsp; rw [d0]; decide
  have tben : q.tben = false := by unfold Copy.tben; rw [d0]; decide
  have ren : q.ren = false := by unfold Copy.ren; rw [d0]; decide
  have fof : q.fof = false := by unfold Copy.fof; rw [d0]; decide
  have cvt : q.cvt = false := by unfold Copy.cvt; rw [d0]; decide
  have ldcv : q.ldcv = false := by unfold Copy.ldcv; rw [d0]; decide
  have follow : q.follow = false := by unfold Copy.follow; rw [d0]; decide
  have dsel : q.dsel = false := by unfold Copy.dsel; rw [d0]; decide
  have combo : comboBad q = false := by
    unfold comboBad spacesOk
    simp only [kind, ssp, dsp, tben, ren, fof, cvt, ldcv, follow, dsel]
    rfl
  have range : rangeAt q r = none := by
    unfold rangeAt
    simp only [kind, ren, ldcv]
    rfl
  have mask : reservedBits q = [0xffc003fffe00c000, 0, 0, 2 ^ 64 - 1 - (2 ^ 32 - 1), 2 ^ 64 - 1, 2 ^ 64 - 1, 2 ^ 64 - 1, 2 ^ 64 - 1] := by
    unfold reservedBits
    simp only [kind, ren, follow]
    rfl
  have whole : reservedAt q = none := firstSome_eq_none fun k hk => by
    have k_lt := List.mem_range.mp hk
    have sound : BitVec.ofNat 64 (q.dw k) &&& BitVec.ofNat 64 ((reservedBits q).getD k 0) = 0 := by
      rw [mask]
      obtain rfl | rfl | rfl | rfl | ⟨j, hj, rfl⟩ : k = 0 ∨ k = 1 ∨ k = 2 ∨ k = 3 ∨ ∃ j < 4, k = 4 + j := by
        by_cases low : k < 4
        · omega
        · exact .inr (.inr (.inr (.inr ⟨k - 4, by omega, by omega⟩)))
      · rw [d0]
        rfl
      · exact BitVec.and_zero
      · exact BitVec.and_zero
      · exact low_half_and tmpl.length_field
      · rw [tmpl.dw_tail hj]
        exact BitVec.zero_and
    exact if_pos sound
  unfold templateFault
  rw [kind, combo, whole, range, follow]
  rfl


/-! The chunks of a LINEAR copy. -/

theorem distinct_of_nodup {l : List Nat} : ∀ {seen : List Nat}, l.Nodup → (∀ a ∈ l, a ∉ seen) → distinct seen l = l := by
  induction l with
  | nil => exact fun _ _ => rfl
  | cons a l ih =>
    intro seen nodup fresh
    obtain ⟨apart, nodup⟩ := List.nodup_cons.mp nodup
    have unseen : ¬seen.contains a = true := fun has => fresh a List.mem_cons_self (List.contains_iff_mem.mp has)
    unfold distinct
    rw [if_neg unseen, ih nodup fun b hb => ?_]
    intro there
    rcases List.mem_cons.mp there with same | old
    · exact apart (same ▸ hb)
    · exact fresh b (List.mem_cons_of_mem a hb) old

theorem LinearCopy.chunk_count (linear : LinearCopy q n) : (chunksOf q).length = (q.dst + n - 1) / 512 - q.dst / 512 + 1 := by
  have pos := linear.size_pos
  have runs := linear.runs
  obtain ⟨kind, -, -, -, -, ldcv, -, -, -, -, dst_in, -⟩ := linear
  have blocks : ((runsOf q).flatMap ByteRun.blocks) =
      (List.range ((q.dst % 512 + n + 511) / 512)).map (fun i => (q.dst / 512 + i) % 2 ^ 55) := by
    rw [runs, List.flatMap_cons, List.flatMap_nil, List.append_nil]
    exact if_neg (by show ¬n = 0; omega)
  have apart : ((List.range ((q.dst % 512 + n + 511) / 512)).map (fun i => (q.dst / 512 + i) % 2 ^ 55)).Nodup := by
    refine List.Nodup.map_on (fun i hi j hj same => ?_) List.nodup_range
    have hi := List.mem_range.mp hi
    have hj := List.mem_range.mp hj
    omega
  unfold chunksOf blocksOf
  rw [ldcv, kind, blocks]
  simp only [Bool.false_eq_true, if_false, OfNat.zero_ne_ofNat, List.length_map, distinct_of_nodup apart fun _ _ => List.not_mem_nil,
    List.length_range]
  omega

theorem chunksOf_waiting (kind : q.kind ≠ 3) {c : Chunk} (hc : c ∈ chunksOf q) : c.st = .waiting := by
  unfold chunksOf at hc
  rw [if_neg kind] at hc
  split at hc
  · rw [List.mem_singleton.mp hc]
    rfl
  · obtain ⟨b, -, rfl⟩ := List.mem_map.mp hc
    rfl

/-! The start. -/

/-- The copy once it has begun. -/
def begunCopy (s : State) (q : Copy) : Copy :=
  { q with started := true, limit := fofLimit s q, lag := s.cyc - startCy (gangOf s q.gang).tstart q }

/-- The copy with the chunks that it starts with. -/
def startedCopy (s : State) (q : Copy) : Copy :=
  let q' := { begunCopy s q with indices := [] }
  { q' with chunks := chunksOf q', units := unitsOf q' }

theorem LinearCopy.started (linear : LinearCopy q n) (s : State) : ∃ limit lag, startedCopy s q =
    { q with started := true, limit, lag, indices := [], chunks := (startedCopy s q).chunks, units := (startedCopy s q).units } ∧
    (startedCopy s q).chunks.length = (q.dst + n - 1) / 512 - q.dst / 512 + 1 ∧ ∀ c ∈ (startedCopy s q).chunks, c.st = .waiting := by
  obtain ⟨kind, ssp, dsp, fof, cvt, ldcv, follow, limit, walk, size, dst_in, src_in, core⟩ := id linear
  have unlimited : fofLimit s q = none := by
    unfold fofLimit
    rw [fof]
    rfl
  have linear' : LinearCopy { q with
      started := true, limit := fofLimit s q, lag := s.cyc - startCy (gangOf s q.gang).tstart q, indices := [] } n :=
    ⟨kind, ssp, dsp, fof, cvt, ldcv, follow, unlimited, walk, size, dst_in, src_in, core⟩
  exact ⟨_, _, rfl, linear'.chunk_count, fun c hc => chunksOf_waiting (by show ¬q.kind = 3; rw [kind]; decide) hc⟩

/-- A copy that starts has its chunks planned. -/
theorem beginCopy_linear (held : Holds s q) (linear : LinearCopy q n) : beginCopy s q =
    planBte { s with copies := copiesWith s q (startedCopy s q) } q.bte (copyLock s q) := by
  obtain ⟨limit, lag, frame, count, -⟩ := linear.started s
  obtain ⟨kind, -⟩ := linear
  have started : modCopy s q.id (fun _ => { q with
      started := true, limit := fofLimit s q, lag := s.cyc - startCy (gangOf s q.gang).tstart q }) =
    { s with copies := copiesWith s q (begunCopy s q) } := held.modCopy _
  have held₁ : Holds { s with copies := copiesWith s q (begunCopy s q) } (begunCopy s q) := held.replace rfl
  have not_gather : ¬q.kind = 5 := by
    rw [kind]
    decide
  have some_chunk : (startedCopy s q).chunks.isEmpty = false := by
    rw [List.isEmpty_eq_false_iff_exists_mem]
    exact List.exists_mem_of_length_pos (by omega)
  unfold beginCopy
  dsimp only
  rw [started, if_neg (show ¬Copy.kind { q with
    started := true, limit := fofLimit s q, lag := s.cyc - startCy (gangOf s q.gang).tstart q } = 5 from not_gather)]
  dsimp only
  rw [show findCopy _ q.id = _ from held₁.find]
  dsimp only [Option.getD_some]
  refine (if_neg (show ¬(startedCopy s q).chunks.isEmpty = true by rw [some_chunk]; decide)).trans ?_
  refine congrArg (fun u => planBte u q.bte (copyLock s q)) ((held₁.modCopy (fun _ => startedCopy s q)).trans ?_)
  exact congrArg (fun copies => { s with copies }) (copiesWith_copiesWith (s := s) (q := q) (q' := begunCopy s q) rfl _)

/-- Nothing keeps the copy from starting: its gang runs, no write of its channel travels, and its start cy has come. -/
structure MayStart (s : State) (q : Copy) : Prop where
  gang : (gangOf s q.gang).st = .running
  quiet : (gangOf s q.gang).quiesced = false
  live : (gangOf s q.gang).ending = false
  hold : (gangOf s q.gang).hold = none
  settled : s.replicas = []
  due : startCy (gangOf s q.gang).tstart q ≤ s.cyc

theorem copyStart_run (first : s.copies.find? (fun x => x.chan == q.chan) = some q) (may : MayStart s q) (linear : LinearCopy q n)
    (tmpl : LinearTemplate q) (fresh : q.started = false) (chunks : q.chunks = []) (indices : q.indices = []) :
    exec (.copyStart q.chan) s = .next (beginCopy s q) := by
  obtain ⟨gang, quiet, live, hold, settled, due⟩ := may
  obtain ⟨kind, -, -, -, -, -, -, -, walk, -⟩ := linear
  have may : copiesMayStart s (gangOf s q.gang) q = true := by
    unfold copiesMayStart
    rw [gang, quiet, live, hold]
    rfl
  have idle : replayBusy s q = false := by
    unfold replayBusy
    rw [kind]
    rfl
  have none_pending : startPending s q = false := by
    unfold startPending channelPending ownPending
    rw [settled]
    rfl
  have whole : q.partly = false := by
    unfold Copy.partly
    rw [chunks, walk, indices]
    rfl
  refine congrArg Host.Outcome.next ?_
  rw [first]
  dsimp only
  rw [fresh, may, idle, none_pending, decide_eq_false (Nat.not_lt.mpr due), whole]
  rw [if_neg (by decide), if_neg Bool.false_ne_true, templateFault_linear tmpl]
  dsimp only
  rw [if_neg (by rw [kind]; decide), if_neg (by rw [kind]; decide)]

/-- COPY_START of an elastic LINEAR copy: its chunks wait, one for each block, planned by the BTE. -/
theorem copyStart_linear (held : Holds s q) (no_host : NoHost s) (first : s.copies.find? (fun x => x.chan == q.chan) = some q)
    (may : MayStart s q) (linear : LinearCopy q n) (tmpl : LinearTemplate q) (fresh : q.started = false) (chunks : q.chunks = [])
    (indices : q.indices = []) : ∃ t, exec (.copyStart q.chan) s = .next { t with free := s.free + 1 } ∧
      Replanned { s with copies := copiesWith s q (startedCopy s q) } t := by
  have no_host' : NoHost { s with copies := copiesWith s q (startedCopy s q) } := fun y hy => by
    obtain ⟨z, hz, rfl⟩ := List.mem_map.mp hy
    by_cases mine : (z.id == q.id) = true
    · rw [if_pos mine]
      exact no_host q held.1
    · rw [if_neg mine]
      exact no_host z hz
  obtain ⟨t, planned, plan⟩ := planBte_replanned no_host' q.bte (copyLock s q)
  refine ⟨t, ?_, planned⟩
  rw [copyStart_run first may linear tmpl fresh chunks indices, beginCopy_linear held linear, plan]

end Sys2Proof.Machine
end

section
/-! The only copy of the device: its events (R258, R259, R361, R384). -/
namespace Sys2Proof.Machine

variable {s t : State} {q : Copy} {n : Nat} {c : Chunk}

theorem holds_only (only : s.copies = [q]) : Holds s q := by
  unfold Holds
  rw [only]
  exact ⟨List.mem_singleton_self q, List.nodup_singleton _⟩

theorem runsOn_only (only : s.copies = [q]) (started : q.started = true) (thawed : q.frozen = false)
    (live : (gangOf s q.gang).ending = false) : RunsOn s q := by
  unfold RunsOn
  rw [only]
  exact ⟨by simp [started], List.nodup_singleton _, thawed, live⟩

theorem copiesWith_only (only : s.copies = [q]) (q' : Copy) : copiesWith s q q' = [q'] := by
  unfold copiesWith
  rw [only, List.map_singleton, if_pos (beq_self_eq_true q.id)]

theorem noHost_only (only : s.copies = [q]) (kind : q.kind ≠ 6) : NoHost s := fun y hy => by
  rw [only] at hy
  rw [List.mem_singleton.mp hy]
  exact kind

theorem othersLanded_only (one : q.chunks = [c]) : OthersLanded q 0 := fun i y at_i apart => by
  rw [one, List.getElem?_eq_none (by simp; omega)] at at_i
  cases at_i

theorem othersOver_only (one : q.chunks = [c]) : OthersOver q 0 := fun i y at_i apart => .inl (othersLanded_only one i y at_i apart)

theorem alone_only (only : s.copies = [q]) : Alone s q := by
  unfold Alone
  rw [only]
  exact List.filter_eq_self.mpr fun y hy => by rw [List.mem_singleton.mp hy, beq_self_eq_true]

/-- The only copy, replanned, is the only one. -/
theorem Replanned.only (planned : Replanned s t) (only : s.copies = [q]) : ∃ q', t.copies = [q'] ∧ CopyReplanned q q' := by
  obtain ⟨-, copies⟩ := planned
  rw [only] at copies
  generalize t.copies = l at copies
  cases copies with
  | cons head tail =>
    cases tail with
    | nil => exact ⟨_, rfl, head⟩

/-- Its start. -/
theorem copyStart_only (only : s.copies = [q]) (linear : LinearCopy q n) (may : MayStart s q) (tmpl : LinearTemplate q)
    (fresh : q.started = false) (chunks : q.chunks = []) (indices : q.indices = []) :
    ∃ t q', exec (.copyStart q.chan) s = .next t ∧ t.mem = s.mem ∧ t.copies = [q'] ∧ q'.id = q.id ∧ q'.started = true ∧
      q'.chunks.length = (q.dst + n - 1) / 512 - q.dst / 512 + 1 ∧ ∀ c ∈ q'.chunks, c.st = .waiting := by
  obtain ⟨limit, lag, -, count, waiting⟩ := linear.started s
  have kind : q.kind ≠ 6 := by
    obtain ⟨kind, -⟩ := linear
    rw [kind]
    decide
  obtain ⟨t, run, planned⟩ := copyStart_linear (holds_only only) (noHost_only only kind) (by rw [only]; simp) may linear tmpl fresh chunks indices
  obtain ⟨q', copies, same, again⟩ := planned.only (copiesWith_only only (startedCopy s q))
  have mem : t.mem = s.mem := by rw [planned.1]
  refine ⟨_, q', run, mem, copies, (congrArg Copy.id same).trans rfl, (congrArg Copy.started same).trans rfl, again.length_eq.symm.trans count,
    fun c hc => ?_⟩
  obtain ⟨i, hi, rfl⟩ := List.getElem_of_mem hc
  obtain ⟨len, each⟩ := List.forall₂_iff_get.mp again
  have inside : i < (startedCopy s q).chunks.length := len ▸ hi
  have state := congrArg Chunk.st (each i inside hi)
  exact state.trans (waiting ((startedCopy s q).chunks.get ⟨i, inside⟩) (List.get_mem _ _))

/-- The landing of its one chunk, of its one block. -/
theorem chunkLand_only (only : s.copies = [q]) (linear : LinearCopy q n) (runs : RunsOn s q) (one : q.chunks = [c])
    (elastic : (gangOf s q.gang).launch.lockstep = false) (waiting : c.st = .waiting) (issued : c.iss ≠ 2 ^ 64) (blk : c.blk = q.dst / 512)
    (last : (q.dst + n - 1) / 512 = q.dst / 512) (unmarked : q.tben = false) (silent : q.ren = false) (clean : s.poisonWord = [])
    (plain : PlainVa s (copyWho q) (fun a => q.src ≤ a ∧ a < q.src + n)) : ∃ t, exec (.chunkLand q.chan 0) s = .next t ∧ t.copies = [] ∧
      ∀ a, sget 0 t.mem a = if 2 ^ 40 + q.core / 8 * 2 ^ 24 + q.dst ≤ a ∧ a < 2 ^ 40 + q.core / 8 * 2 ^ 24 + q.dst + n
        then vbyte s (copyWho q) (q.src + (a - (2 ^ 40 + q.core / 8 * 2 ^ 24 + q.dst))) else sget 0 s.mem a := by
  have there : q.chunks[0]? = some c := by rw [one]; rfl
  have inside : InBlocks q n c.blk := ⟨by omega, by omega⟩
  have from_ : blockFrom q c.blk = 0 := by
    unfold blockFrom
    omega
  have to_ : blockTo q n c.blk = n := by
    unfold blockTo
    omega
  obtain ⟨t, landed, -, -, -, bytes, -, gone, -⟩ := landed_bytes runs.holds linear inside clean plain there (fun _ => elastic)
    (fun asked => absurd asked (by rw [silent]; decide)) (fun named => absurd named (by rw [unmarked]; decide))
  refine ⟨t, ?_, ?_, fun a => ?_⟩
  · rw [chunkLand_run runs linear there ⟨waiting, issued, fun lock => absurd lock (by rw [elastic]; decide)⟩
      (fun named => absurd named (by rw [unmarked]; decide)), chunkFault_plain linear inside plain]
    dsimp only
    rw [arrive_linear linear plain.1, landed]
  · rw [gone (othersOver_only one), only]
    simp
  · rw [bytes a fun report => absurd report.1.2.1 (by rw [silent]; decide), from_, to_, Nat.add_zero]

/-- The retry of its one chunk. -/
theorem chunkRetry_only (only : s.copies = [q]) (linear : LinearCopy q n) (runs : RunsOn s q) (started : q.started = true) (one : q.chunks = [c])
    (elastic : (gangOf s q.gang).launch.lockstep = false) (early : s.cyc < 2 ^ 64) {code page : Nat} (parked : c.st = .parked code page) :
    ∃ t c', exec (.chunkRetry q.chan 0) s = .next t ∧ t.mem = s.mem ∧ t.copies = [{ q with chunks := [c'] }] ∧ c'.st = .waiting ∧
      c'.blk = c.blk ∧ (c'.due, .chunkLand q.chan 0) ∈ t.calendar := by
  have there : q.chunks[0]? = some c := by rw [one]; rfl
  obtain ⟨kind, -⟩ := linear
  obtain ⟨caches, iss, due, slot, calendar, retried, -, -, listed⟩ := retryChunk_spec runs.holds (alone_only only) started runs.2.2.1 elastic
    (by rw [kind]; decide) there parked (othersLanded_only one) early
  refine ⟨_, { c with st := .waiting, iss, due, slot }, (chunkRetry_run runs.1 (by rw [kind]; decide) 0).trans
    (congrArg Host.Outcome.next retried), rfl, ?_, rfl, rfl, listed⟩
  dsimp only
  rw [copiesWith_only only, one]
  rfl

/-- The delay of its one chunk's landing. -/
theorem postpone_only (only : s.copies = [q]) (elastic : (gangOf s q.gang).launch.lockstep = false) (one : q.chunks = [c]) (t : Nat) :
    postpone s q 0 t = { s with copies := [{ q with chunks := [{ c with due := t }] }]
                                calendar := s.calendar.filter (fun e => !isLand q.chan 0 e) ++ [(t, .chunkLand q.chan 0)] } := by
  unfold postpone
  rw [missSlot_elastic elastic, (holds_only only).landAt rfl, copiesWith_only only, one]
  rfl

theorem transferRetry_only (only : s.copies = [q]) (runs : RunsOn s q) (one : q.chunks = [c])
    (elastic : (gangOf s q.gang).launch.lockstep = false) (waiting : c.st = .waiting) (planned : c.due ≠ 2 ^ 64) {delay : Nat}
    (some_delay : 0 < delay) : exec (.transferRetry q.chan 0 delay) s = .next { s with
      copies := [{ q with chunks := [{ c with due := c.due + delay }] }]
      calendar := s.calendar.filter (fun e => !isLand q.chan 0 e) ++ [(c.due + delay, .chunkLand q.chan 0)] } := by
  have there : q.chunks[0]? = some c := by rw [one]; rfl
  have found : runningOn s q.chan = some q := runs.1
  refine congrArg Host.Outcome.next ?_
  rw [found]
  dsimp only
  rw [there]
  dsimp only
  have awaits : (c.st != .waiting || decide (c.due = 2 ^ 64)) = false := by rw [waiting, decide_eq_false planned]; rfl
  rw [awaits, if_neg Bool.false_ne_true, if_neg (Nat.pos_iff_ne_zero.mp some_delay)]
  have elastic' : copyLock (postpone s q 0 (c.due + delay)) q = false := by
    rw [postpone_only only elastic one]
    exact elastic
  rw [elastic', if_neg Bool.false_ne_true, postpone_only only elastic one]

end Sys2Proof.Machine
end

section
/-! The events of copies, walks and sweeps complete (R87, R197, R241, R258, R259, R268, R290, R361, R384). -/
namespace Sys2Proof.Machine

variable {s : State} {q : Copy} {v : Walk} {x : Sweep}

/-- A held store to an idle channel makes its copy. -/
theorem apertureQueueAccept_idle {c : Ctl} {o : XI} {w : Wait} (idle : s.copies = []) (held : w.instr = .stq c o)
    (low : 0x20020000 ≤ (effAddr s o.xa c.imm 16).toNat) (high : (effAddr s o.xa c.imm 16).toNat < 0x20020400)
    (kind : (sget 0 s.templates (s.h.core / 8 * 2048 + (rx s o.xd).toNat % 256 * 8)).toNat % 16 ≠ 3) :
    ∃ t q, exec (.apertureQueueAccept s.h.gang s.h.idx) { s with h := { s.h with wait := some w } } = .next t ∧ t.mem = s.mem ∧
      t.copies = [q] ∧ q.chan = 64 * (s.h.core / 8) + ((effAddr s o.xa c.imm 16).toNat - 0x20020000) / 16 ∧ q.started = false ∧
      t.h.wait = none ∧ t.h.pc = pcAfter c s ∧ t.h.issued = true := by
  have room : ∀ chan, (s.copies.filter (fun q => q.chan == chan)).length < 5 := fun chan => by
    rw [idle]
    exact Nat.succ_pos 4
  have other : (copyOf s (64 * (s.h.core / 8) + ((effAddr s o.xa c.imm 16).toNat - 0x20020000) / 16) (rx s o.xd)
      (rx s (o.xd + 1))).kind ≠ 3 := by
    rw [kind_copyOf, List.range_succ_eq_map, List.map_cons, List.headD_cons, Nat.add_zero]
    exact kind
  obtain ⟨t, q, run, frame, captured, -⟩ := starts_of_run other (accept_run ⟨low, high⟩ other (.inl rfl) (room _) w held)
  obtain ⟨on_chan, -, -, -, -, -, -, -, -, -, -, -, -, -, -, fresh, -⟩ := captured
  refine ⟨t, q, run, ?_, ?_, on_chan, fresh, ?_, ?_, ?_⟩
  · rw [frame]
  · rw [frame, idle]
    rfl
  all_goals rw [frame]

/-- The end of the only sweep. -/
theorem sweepDone_only (only : s.sweeps = [x]) (running : x.running = true) : ∃ t, exec (.sweepDone x.core) s = .next t ∧ t.mem = s.mem ∧
    t.sweeps = [] ∧ ∀ h, findHart s x.gang x.hart = some h → ∃ h', findHart t x.gang x.hart = some h' ∧
      (sget 0 h'.landed (512 * x.vreg + x.tile)).getLsbD 256 = true := by
  have found : s.sweeps.find? (fun y => y.core == x.core && y.running) = some x := by simp [only, running]
  obtain ⟨calendar, shown, -⟩ := showLater_spec (modHarts { s with sweeps := s.sweeps.filter (fun y => !(y.core == x.core && y.copy == x.copy)) }
    (isHart x.gang x.hart) (sweptHart s x)) x.gang x.hart x.tile
  refine ⟨_, (sweepDone_run found).trans (congrArg Host.Outcome.next shown), rfl, ?_, fun h at_h => ⟨sweptHart s x h, ?_, ?_⟩⟩
  · show s.sweeps.filter _ = []
    simp [only]
  · refine (findHart_modHarts (f := sweptHart s x) fun _ => ⟨rfl, rfl⟩).trans ?_
    exact congrArg (Option.map (sweptHart s x)) at_h
  · rw [(sweptHart_spec s x h).2.1, if_pos rfl, BitVec.getLsbD_or]
    simp

/-- The run of the only sweep, an outer product. -/
theorem followOnSweep_only (only : s.sweeps = [x]) (may : MayRun s x.core x) (op : x.job.op = 0) : ∃ t r,
    exec (.followOnSweep x.core) s = .next t ∧ t.mem = s.mem ∧ t.sweeps = [{ x with running := true, ready := r }] ∧ s.cyc < r ∧
    (r, .sweepDone x.core) ∈ t.calendar := by
  obtain ⟨t, n, run, some_time, frame, -, -, -, -, -, ends, -⟩ := may.runs_mop op
  refine ⟨t, s.cyc + n + 3, run, by rw [frame], ?_, by omega, ends⟩
  rw [frame]
  simp [only]

theorem Copy.carBuf_zero (q : Copy) : q.carBuf 0 = q.dw 3 % 64 := by
  unfold Copy.carBuf
  rw [Nat.zero_mod, Nat.add_zero]

theorem carriageNeed_pos (q : Copy) (h : Shape) : 0 < carriageNeed q h := Nat.add_pos_left Nat.one_pos _

/-- The first carriage of the only copy. -/
theorem kvwalk_goes_only (only : s.copies = [q]) (walks : Walks s q v) (dsp : q.dsp = 0) (first : v.j = 0) (fresh : q.chunks = [])
    (unlimited : q.dw 5 = 0) (free : (bufAt s (q.core / 8) (q.dw 3 % 64)).landed = 0) (some_va : v.va ≠ 0) (straight : v.va % 64 = 0)
    (plain : PlainVa s (copyWho q) (line v.va)) (succ : vnum s (copyWho q) v.va 8 ≠ 0)
    (fits : CarriageFits s q (carShape s (copyWho q) v.va) v.j) :
    ∃ t q', exec (.kvwalkCarriageStart q.chan) s = .next t ∧ t.mem = s.mem ∧ t.copies = [q'] ∧
      q'.walk.map (fun u => u.j) = some 1 ∧ q'.walk.map (fun u => u.va) = some (vnum s (copyWho q) v.va 8) ∧ q'.chunks ≠ [] := by
  have kind : q.kind ≠ 6 := by rw [walks.kind]; decide
  have first_buf : q.carBuf v.j = q.dw 3 % 64 := by rw [first, Copy.carBuf_zero]
  obtain ⟨t, more, q₁, goes, frame, found, replanned, copies, u, ntok, more_eq⟩ :=
    startCarriage_goes walks (noHost_only only kind) some_va straight (.inl (by rw [unlimited]; rfl)) succ plain fits
  obtain ⟨walk, length, -⟩ := carriage_spec walks.open_ replanned fits.parts more_eq (by simp)
  have only' : t.copies = [q₁] := by
    rw [copiesWith_only only] at copies
    unfold findCopy at found
    generalize t.copies = l at copies found
    cases copies with
    | cons head tail =>
      cases tail with
      | nil =>
        rw [List.mem_singleton.mp (List.mem_of_find?_eq_some found)]
  refine ⟨t, q₁, (walks.run dsp (first_buf ▸ free) fun i hi => absurd hi (by omega)).trans (congrArg Host.Outcome.next goes),
    by rw [frame], only', by rw [walk, first]; rfl, by rw [walk]; rfl, fun none_there => ?_⟩
  rw [none_there, fresh] at length
  exact absurd length (Nat.ne_of_lt (Nat.add_pos_right _ (carriageNeed_pos q _)))

end Sys2Proof.Machine

open Sys2Proof Sys2Proof.Machine

/-- Settles O53: the only copy, sweep or walk of the device, event by event. -/
theorem copyEventsComplete : Obligations.CopyEventsComplete := by
  unfold Obligations.CopyEventsComplete
  refine ⟨fun s q n only thawed linear early => ?copies, fun c o s w idle held => ?stores, fun s x only => ⟨?done, ?runs⟩,
    fun s q v only runs kind walk open_ started dsp silent fresh first unlimited => ?walks⟩
  case copies =>
    intro g w base live elastic
    refine ⟨fun fresh chunks indices head tail length_field gang quiet hold settled due _ => ?_, fun c started one => ?_⟩
    · exact copyStart_only only linear ⟨gang, quiet, live, hold, settled, due⟩ ⟨head, tail, length_field⟩ fresh chunks indices
    · have runs := runsOn_only only started thawed live
      refine ⟨fun waiting issued blk last unmarked silent clean plain => ?_, fun code page parked => ?_,
          fun delay waiting planned some_delay => ?_⟩
      · exact chunkLand_only only linear runs one elastic waiting issued blk last unmarked silent clean plain
      · exact chunkRetry_only only linear runs started one elastic early parked
      · exact ⟨_, transferRetry_only only runs one elastic waiting planned some_delay, rfl, rfl,
          List.mem_append_right _ (List.mem_singleton_self _)⟩
  case stores =>
    dsimp only
    rw [← effAddr_pairs s o.xa c.imm]
    exact fun _ low high kind => apertureQueueAccept_idle idle held low high kind
  case done => exact sweepDone_only only
  case runs =>
    intro waits gang hart op free awake elastic clean unarmed windows resident
    have own : NextOwn s x.core x := ⟨by simp [only, waits], gang, hart⟩
    have dense : x.job.op = 0 := x.job_op.symm.trans (by rw [pow_zero, Nat.div_one]; exact op)
    refine followOnSweep_only only ⟨own, free, awake, fun lock => absurd lock (by rw [elastic]; decide),
      ⟨fun w hw => ?_, resident, fun sparse => absurd (dense.symm.trans sparse) (by decide)⟩, clean, unarmed⟩ dense
    rw [windows] at hw
    cases hw
  case walks =>
    intro w sh buf heads free
    have walks : Walks s q v := ⟨runs, kind, walk, open_, started⟩
    refine ⟨fun zero => ?_, fun some_va straight plain succ shape parts layer heads_fit room => ?_⟩
    · obtain ⟨lastServed, calendar, ended⟩ := startCarriage_ends walks silent (fun c hc => by rw [fresh] at hc; cases hc) (.inl zero)
      have first_buf : q.carBuf v.j = q.dw 3 % 64 := by rw [first, Copy.carBuf_zero]
      refine ⟨_, (walks.run dsp (first_buf ▸ free) fun i hi => absurd hi (by omega)).trans (congrArg Host.Outcome.next ended), rfl, ?_⟩
      show s.copies.filter _ = []
      simp [only]
    · have cluster : q.tbCluster = q.core / 8 := if_neg (by rw [dsp]; decide)
      have first_buf : q.carBuf v.j = q.dw 3 % 64 := by rw [first, Copy.carBuf_zero]
      exact kvwalk_goes_only only walks dsp first fresh unlimited free some_va straight plain succ
        ⟨shape, parts, layer, heads_fit, by rw [cluster, first_buf]; exact room⟩
end

section
/-! The only gang of the device: its placement (R315, R317). -/
namespace Sys2Proof.Machine

variable {s : State} {g : Gang} {c : Nat}

theorem findGang_only (only : s.gangs = [g]) (live : g.live) : findGang s g.id = some g := by
  unfold findGang
  rw [only]
  exact List.find?_cons_of_pos (by simp [live.1, live.2])

theorem modGang_only (only : s.gangs = [g]) (live : g.live) (f : Gang → Gang) : modGang s g.id f = { s with gangs := [f g] } := by
  unfold modGang
  rw [only]
  simp [live.1, live.2]

/-- With no gang that waits for another there is nothing to settle. -/
theorem settleDeps_settled (settled : ∀ g ∈ s.gangs, g.st ≠ .waiting) (n part : Nat) : settleDeps n s part = s := by
  induction n with
  | zero => rfl
  | succ n ih =>
    unfold settleDeps
    rw [List.filter_eq_nil_iff.mpr fun g hg => by simp [settled g hg]]
    exact ih

theorem queueOrder_only (only : s.gangs = [g]) (queued : g.st = .queued) (prio : g.launch.prio < 4) : queueOrder s g.part = [g.id] := by
  unfold queueOrder
  have mine : s.gangs.filter (fun x => x.part == g.part && x.st == .queued) = [g] := by simp [only, queued]
  rw [mine]
  have cases : g.launch.prio = 0 ∨ g.launch.prio = 1 ∨ g.launch.prio = 2 ∨ g.launch.prio = 3 := by omega
  rcases cases with h | h | h | h <;> simp [h]

theorem mem_partClusters {part : Nat} : c ∈ partClusters s part ↔ c < 48 ∧ partOfDie s (c / 12) = some part := by
  unfold partClusters dieOfCluster
  rw [List.mem_filter, List.mem_range, beq_iff_eq]

/-- A block starts at cluster `c` of the partition and needs no other cluster. -/
def fitsAt (s : State) (g : Gang) (c : Nat) : Bool :=
  partOfDie s (dieOfCluster c) == some g.part && (List.range (clustersNeeded g)).all (fun i => (partClusters s g.part).contains (c + i))

/-- Where the gang is the only one a block is free when its clusters are the partition's. -/
theorem blockFree_only (only : s.gangs = [g]) : BlockFree s g c ↔ c < 48 ∧ fitsAt s g c = true := by
  unfold BlockFree fitsAt
  rw [Bool.and_eq_true, beq_iff_eq, List.all_eq_true, and_assoc]
  refine and_congr Iff.rfl (and_congr Iff.rfl (forall_congr' fun i => ?_))
  rw [List.mem_range, List.contains_iff_mem, mem_partClusters, ← and_assoc]
  refine imp_congr Iff.rfl (and_iff_left fun x hx apart => ?_)
  rw [only, List.mem_singleton] at hx
  exact absurd (congrArg Gang.id hx) apart

theorem blocksFor_only (only : s.gangs = [g]) (elastic : g.launch.lockstep = false) (free : Gang → Bool) :
    blocksFor s g free = (List.range 48).filter (fitsAt s g) := by
  have none_other : s.gangs.filter (fun x => x.id != g.id && !x.ended) = [] := by simp [only]
  unfold blocksFor
  rw [none_other, elastic]
  simp only [Bool.not_false, Bool.true_or, Bool.true_and, List.all_nil, Bool.and_true]
  conv_lhs => rw [partClusters, List.filter_filter]
  refine congrArg (List.filter · _) (funext fun c => ?_)
  exact Bool.and_comm _ _

/-- The least number of which `p` holds is the first of those below `n`. -/
theorem filter_range_least {p : Nat → Bool} {n : Nat} (inside : c < n) (holds : p c = true) (least : ∀ b, b < c → p b = false) :
    ∃ l, (List.range n).filter p = c :: l := by
  obtain ⟨m, rfl⟩ : ∃ m, n = c + (m + 1) := ⟨n - c - 1, by omega⟩
  rw [List.range_add, List.filter_append, List.filter_eq_nil_iff.mpr fun b hb => by simp [least b (List.mem_range.mp hb)], List.nil_append,
    List.range_succ_eq_map, List.map_cons, Nat.add_zero, List.filter_cons_of_pos holds]
  exact ⟨_, rfl⟩

/-- The pass places the only gang, an elastic one, on the least free block. -/
theorem placementPass_only (only : s.gangs = [g]) (queued : g.st = .queued) (unclaimed : g.claim = none) (elastic : g.launch.lockstep = false)
    (prio : g.launch.prio < 4) (part : g.part < 4) (due : (partAt s g.part).passDue = true) (free : BlockFree s g c)
    (least : ∀ b, b < c → ¬BlockFree s g b) : ∃ parts, exec (.placementPass g.part) s = .next { s with
      parts, calendar := s.calendar ++ [(s.cyc, .prologue g.id)]
      gangs := [{ g with st := .placed, base := 8 * c, clusters := clustersNeeded g, claim := none }] } := by
  have live : g.live := by
    unfold Gang.live
    rw [queued]
    decide
  obtain ⟨parts, passed, -⟩ := modPart_spec (s := s) part (fun p => { p with passDue := false })
  have only' : State.gangs { s with parts } = [g] := only
  obtain ⟨inside, fits⟩ := (blockFree_only only).mp free
  obtain ⟨rest, blocks⟩ := filter_range_least inside fits fun b below =>
    Bool.eq_false_iff.mpr fun fits_b => least b below ((blockFree_only only).mpr ⟨Nat.lt_trans below inside, fits_b⟩)
  have first : blocksFor { s with parts } g (fun _ => false) = c :: rest := (blocksFor_only only' elastic _).trans blocks
  have placed : tryPlace ({ s with parts }, false, false) g.id = (placeGang { s with parts } g c, false, false) := by
    unfold tryPlace
    dsimp only
    rw [findGang_only only' live]
    dsimp only
    rw [unclaimed, first]
    rfl
  have pass : execPlacementPass g.part s = .next (placeGang { s with parts } g c) := by
    unfold execPlacementPass
    rw [settleDeps_settled fun x hx => by rw [only, List.mem_singleton] at hx; rw [hx, queued]; decide]
    dsimp only
    rw [if_pos due, queueOrder_only only queued prio, passed, List.foldl_cons, List.foldl_nil, placed]
  refine ⟨parts, pass.trans (congrArg Host.Outcome.next ?_)⟩
  unfold placeGang
  rw [modGang_only only' live]
  rfl

end Sys2Proof.Machine
end

section
/-! The only gang of the device: its prologue and its start (R320). -/
namespace Sys2Proof.Machine

variable {s : State} {g : Gang}

/-- A declaration changes the registers and the mark. -/
theorem declare_frame (h : Hart) (n v : Nat) : ∃ regs slotEnd, declare h n v = { h with regs, slotEnd } := by
  have set_frame : ∀ (h : Hart) (r : VReg), ∃ regs, setVreg h n r = { h with regs } := fun h r => by
    unfold setVreg
    split
    · exact ⟨_, rfl⟩
    · exact ⟨h.regs, rfl⟩
  unfold declare
  dsimp only
  split
  · obtain ⟨regs, same⟩ := set_frame h { VReg.ofEntry v with
      slot := (vregAt h n).slot, slotSize := (vregAt h n).slotSize, lastRef := (vregAt h n).lastRef }
    exact ⟨regs, h.slotEnd, same⟩
  · obtain ⟨regs, same⟩ := set_frame h { VReg.ofEntry v with
      slot := roundUp h.slotEnd 512, slotSize := slotBytes h.slots (VReg.ofEntry v), lastRef := (vregAt h n).lastRef }
    rw [same]
    exact ⟨regs, _, rfl⟩

theorem declareAll_frame (h : Hart) (map : List (BitVec 32)) : ∃ regs slotEnd, declareAll h map = { h with regs, slotEnd } := by
  unfold declareAll
  generalize List.range 64 = l
  induction l generalizing h with
  | nil => exact ⟨h.regs, h.slotEnd, rfl⟩
  | cons n l ih =>
    obtain ⟨regs, slotEnd, one⟩ := declare_frame h n (map.getD n 0).toNat
    obtain ⟨regs', slotEnd', rest⟩ := ih (declare h n (map.getD n 0).toNat)
    refine ⟨regs', slotEnd', rest.trans ?_⟩
    rw [one]

theorem foldl_bufs {α : Type} {f : State → α → State} (each : ∀ s x, ∃ bufs, f s x = { s with bufs }) (l : List α) (s : State) :
    ∃ bufs, l.foldl f s = { s with bufs } := by
  induction l generalizing s with
  | nil => exact ⟨s.bufs, rfl⟩
  | cons x l ih =>
    obtain ⟨bufs, one⟩ := each s x
    obtain ⟨bufs', rest⟩ := ih (f s x)
    refine ⟨bufs', rest.trans ?_⟩
    rw [one]

/-- Without templates the load of the clusters sets their tile buffers. -/
theorem loadClusters_frame (none_there : g.launch.templates = []) (s : State) : ∃ bufs, loadClusters s g = { s with bufs } := by
  unfold loadClusters
  rw [none_there]
  exact foldl_bufs (fun s i => foldl_bufs (fun s n => ⟨_, rfl⟩) _ s) _ s

/-- With no error armed the zeroing of the clusters strikes none. -/
theorem zeroClusters_frame (unarmed : s.armed = []) (g : Gang) : (zeroClusters s g).gangs = s.gangs ∧ (zeroClusters s g).others = s.others ∧
    (zeroClusters s g).calendar = s.calendar ∧ (zeroClusters s g).cyc = s.cyc := by
  unfold zeroClusters strikeClusters
  dsimp only
  rw [unarmed]
  exact ⟨rfl, rfl, rfl, rfl⟩

/-- What a launch makes of hart `k`, ready at `t` (R320). -/
def firstHart (g : Gang) (t k : Nat) : Hart :=
  { launchHart g k with next := t, restart := ⟨(launchHart g k).x, (launchHart g k).csr, [], t⟩ }

theorem firstHart_spec (g : Gang) (t k : Nat) : (firstHart g t k).gang = g.id ∧ (firstHart g t k).idx = k ∧
    (firstHart g t k).core = g.base + k * g.launch.tph ∧ (firstHart g t k).pc = g.launch.img + BitVec.ofNat 64 g.launch.entry ∧
    (firstHart g t k).next = t := by
  unfold firstHart launchHart
  dsimp only
  obtain ⟨regs, slotEnd, frame⟩ := declareAll_frame { Hart.none with
    gang := g.id, idx := k, core := g.base + k * g.launch.tph, slots := g.launch.tph, pc := g.launch.img + BitVec.ofNat 64 g.launch.entry
    x := Vector.ofFn (fun i => if i.val = 0 then 0 else g.launch.xinit.getD i.val 0)
    csr := { Csrs.init with fold := g.launch.foldh, tchk := g.launch.tchk, tvec := g.launch.tvec,
                            rpc := g.launch.img + BitVec.ofNat 64 g.launch.entry } } g.launch.regmap
  rw [frame]
  exact ⟨rfl, rfl, rfl, rfl, rfl⟩

/-- The prologue of the only gang, a fresh elastic one. -/
theorem prologue_only (only : s.gangs = [g]) (placed : g.st = .placed) (fresh : g.saved = none) (elastic : g.launch.lockstep = false)
    (unarmed : s.armed = []) (none_there : g.launch.templates = []) : ∃ t, exec (.prologue g.id) s = .next t ∧
    t.gangs = [{ g with tstart := (s.cyc / 64 + 1) * 64 }] ∧ t.calendar = s.calendar ++ [((s.cyc / 64 + 1) * 64, .gangStart g.id)] ∧
    t.others = s.others ++ (List.range g.launch.nhart).map (firstHart g ((s.cyc / 64 + 1) * 64)) := by
  have live : g.live := by
    unfold Gang.live
    rw [placed]
    decide
  obtain ⟨gangs, others, calendar, cyc⟩ := zeroClusters_frame unarmed g
  obtain ⟨bufs, loaded⟩ := loadClusters_frame none_there (zeroClusters s g)
  have only' : ∀ others, State.gangs { zeroClusters s g with bufs, others } = [g] := fun _ => gangs.trans only
  have period : gangPeriod g = 64 := by
    unfold gangPeriod
    rw [elastic]
  have run : exec (.prologue g.id) s = .next (freshPrologue s g) := by
    refine congrArg Host.Outcome.next ?_
    rw [findGang_only only live]
    dsimp only
    rw [placed, fresh]
    rfl
  refine ⟨_, run, ?_⟩
  unfold freshPrologue
  dsimp only
  rw [loaded, period, elastic, if_neg Bool.false_ne_true, modGang_only (only' _) live]
  unfold nextMultiple schedule
  dsimp only
  rw [calendar, others, cyc]
  exact ⟨rfl, rfl, rfl⟩

/-- The start of the only gang where no copy waits. -/
theorem gangStart_only (only : s.gangs = [g]) (placed : g.st = .placed) (no_copy : s.copies = []) : exec (.gangStart g.id) s =
    .next (modHarts { s with gangs := [{ g with st := .running }] } (fun h => h.gang == g.id && h.exit.isNone)
      (fun h => { h with run := .running })) := by
  have live : g.live := by
    unfold Gang.live
    rw [placed]
    decide
  have none_there : ∀ gangs h others, gangChannels { s with gangs, h, others } g.id = [] := fun _ _ _ => by
    unfold gangChannels
    dsimp only
    rw [no_copy]
    rfl
  refine congrArg Host.Outcome.next ?_
  rw [findGang_only only live]
  dsimp only
  rw [placed, if_neg (by decide), modGang_only only live]
  unfold modHarts
  dsimp only
  rw [none_there]
  rfl

end Sys2Proof.Machine
end

section
/-! The only chunk of the only copy: its translation (R383), and the events of the scheduler (R97, R317, R320). -/
namespace Sys2Proof.Machine

variable {s : State} {q : Copy} {n : Nat} {c : Chunk}

theorem modHarts_all (s : State) (p : Hart → Bool) (f : Hart → Hart) :
    (modHarts s p f).h :: (modHarts s p f).others = (s.h :: s.others).map (fun h => if p h then f h else h) := rfl

/-- The first address that the first chunk of a copy reads is the copy's source. -/
theorem chunkVas_first (linear : LinearCopy q n) (inside : InBlocks q n c.blk) (blk : c.blk = q.dst / 512) : ∃ rest,
    chunkVas q c = (q.src, false) :: rest := by
  obtain ⟨proper, whole, -⟩ := block_bounds linear inside
  have from_ : blockFrom q c.blk = 0 := by
    unfold blockFrom
    omega
  have piece := linear.piece inside
  obtain ⟨kind, ssp, dsp, -, -, ldcv, -, -, -, -, -, src_in, -⟩ := linear
  unfold chunkVas
  rw [ldcv, if_neg Bool.false_ne_true, if_neg (by rw [kind]; decide), if_neg (by rw [kind]; decide), piece]
  rw [List.flatMap_cons]
  dsimp only
  rw [if_pos ssp, spaceCut_eq (by omega), cut_cons (by omega), from_]
  exact ⟨_, rfl⟩

/-- A chunk whose pages are all mapped is delayed by the walk of the first. -/
theorem translationWalk_delays (only : s.copies = [q]) (started : q.started = true) (thawed : q.frozen = false)
    (elastic : (gangOf s q.gang).launch.lockstep = false) (linear : LinearCopy q n) (one : q.chunks = [c]) (waiting : c.st = .waiting)
    (inside : InBlocks q n c.blk) (clean : s.poisonHbm = [])
    (mapped : ∀ a, q.src ≤ a → a < q.src + n → ∃ x, translate s q.part q.asid (q.core / 96) a false = .ok x) (planned : c.due ≠ 2 ^ 64)
    (blk : c.blk = q.dst / 512) (due : walkDue s q (q.src, false) = true) : exec (.translationWalk q.asid q.src) s = .next { s with
      copies := [{ q with chunks := [{ c with due := c.due + 260 * walkReads s q.part q.asid q.src }] }]
      calendar := s.calendar.filter (fun e => !isLand q.chan 0 e) ++
        [(c.due + 260 * walkReads s q.part q.asid q.src, .chunkLand q.chan 0)] } := by
  have mine : s.copies.filter (fun y => y.asid == q.asid && y.goes) = [q] := by simp [only, Copy.goes, started, thawed]
  have no_fault : chunkFault s q c = none := by
    obtain ⟨proper, whole, -⟩ := block_bounds linear inside
    rw [chunkFault_linear linear inside]
    obtain ⟨-, -, -, -, -, -, -, -, -, -, -, src_in, -⟩ := linear
    exact readFault_none (by omega) clean fun y low high => mapped y (by omega) (by omega)
  obtain ⟨rest, first⟩ := chunkVas_first linear inside blk
  have walks : (c.due != 2 ^ 64 && (chunkVas q c).any (fun v => v.1 / 65536 == q.src / 65536 && walkDue s q v)) = true := by
    rw [first, List.any_cons, due, beq_self_eq_true, bne_iff_ne.mpr planned]
    rfl
  refine congrArg Host.Outcome.next ?_
  rw [mine, List.foldl_cons, List.foldl_nil, one]
  show (List.range 1).foldl _ s = _
  rw [List.range_one, List.foldl_cons, List.foldl_nil]
  show (if (c.st != .waiting) = true then s else _) = _
  rw [if_neg (by rw [waiting]; decide), no_fault]
  exact (if_pos walks).trans (postpone_only only elastic one _)

/-- A chunk whose first page is not mapped is parked, and its copy writes a record. -/
theorem translationWalk_parks (only : s.copies = [q]) (runs : RunsOn s q) (started : q.started = true)
    (elastic : (gangOf s q.gang).launch.lockstep = false) (linear : LinearCopy q n) (first : q.reported = []) (one : q.chunks = [c])
    (waiting : c.st = .waiting) (inside : InBlocks q n c.blk) {x : XErr}
    (fails : translate s q.part q.asid (q.core / 96) (q.src + blockFrom q c.blk) false = .error x) (low : x.code ≤ 3) :
    ∃ t q' r, exec (.translationWalk q.asid (q.src + blockFrom q c.blk)) s = .next t ∧ t.mem = s.mem ∧ t.copies = [q'] ∧
      q'.chunks = [{ c with st := .parked x.code ((q.src + blockFrom q c.blk) / 65536) }] ∧
      t.records = s.records ++ [r] ∧ r.cls = 0x10 ∧ r.code.toNat = x.code ∧ r.addr = BitVec.ofNat 64 (q.src + blockFrom q c.blk) := by
  have there : q.chunks[0]? = some c := by rw [one]; rfl
  have mine : s.copies.filter (fun y => y.asid == q.asid) = [q] := by simp [only]
  have listed : x.code ≤ 5 ∨ x.code = 0x100 := .inl (by omega)
  obtain ⟨t, r, page, failed, frame, class_, -, addr, -, -, -, -, -, -, -, parks, -⟩ :=
    failChunk_failed runs.holds runs.2.2.2 linear there first listed (q.src + blockFrom q c.blk)
  obtain ⟨late, copies, -, -, -, on_time⟩ := parks low
  obtain ⟨cls, code, -⟩ := class_ (by omega)
  have run := translationWalk_one mine started runs.2.2.1 linear.2.2.2.1 there waiting
    (fun i y at_i apart => by rw [othersLanded_only one i y at_i apart]; decide) (chunkFault_unmapped linear inside fails) listed
    (q.src + blockFrom q c.blk)
  rw [if_pos rfl] at run
  rw [copiesWith_only only, one, on_time fun misses => Bool.false_ne_true (elastic.symm.trans misses.1)] at copies
  exact ⟨t, _, r, run.trans (congrArg Host.Outcome.next failed), by rw [frame], copies, rfl, by rw [frame], cls, code, addr⟩

end Sys2Proof.Machine

open Sys2Proof Sys2Proof.Machine

/-- Settles O50: the only gang, and the only chunk of the only copy. -/
theorem schedulerEventsComplete : Obligations.SchedulerEventsComplete := by
  refine ⟨fun s g c only queued unclaimed elastic prio part due _ free least => ?_,
    fun s g only placed fresh elastic unarmed none_there => ?_, fun s g only placed no_copy => ?_,
    fun s q n c only started thawed live elastic linear _ first one waiting low high =>
      ⟨fun clean mapped planned blk due => ?_, fun x fails _ small => ?_⟩⟩
  · obtain ⟨parts, run⟩ := placementPass_only only queued unclaimed elastic prio part due free least
    exact ⟨_, run, rfl, rfl, rfl, rfl⟩
  · obtain ⟨t, run, gangs, calendar, others⟩ := prologue_only only placed fresh elastic unarmed none_there
    refine ⟨t, run, gangs, calendar, _, others, by rw [List.length_map, List.length_range], fun k h at_k => ?_⟩
    obtain ⟨inside, rfl⟩ := List.getElem?_eq_some_iff.mp at_k
    rw [List.getElem_map, List.getElem_range]
    exact firstHart_spec g _ k
  · refine ⟨_, gangStart_only only placed no_copy, rfl, rfl, (modHarts_all _ _ _).trans ?_⟩
    exact List.map_congr_left fun h _ => by simp
  · exact ⟨_, translationWalk_delays only started thawed elastic linear one waiting ⟨low, high⟩ clean mapped planned blk due, rfl, rfl,
      List.mem_append_right _ (List.mem_singleton_self _)⟩
  · exact translationWalk_parks only (runsOn_only only started thawed live) started elastic linear first one waiting ⟨low, high⟩ fails small
end

section
/-! Boot, attestation, and the commands of the translation units (R99, R329, R333, R334). -/
namespace Sys2Proof.Machine

variable {s : State} {vf : Nat} {cmd arg : Word}

theorem firmwareBoot_good {image key sig : List Byte} (sound : s.bootFailed = false) (fused : digest key = s.fuseKey)
    (signed : hssAccepts image key sig = true) :
    exec (.firmwareBoot image key sig) s = .next { s with bootOk := true, measures := measure s.measures (digest image) } := by
  refine congrArg Host.Outcome.next ?_
  rw [if_neg (by rw [sound]; decide)]
  exact if_pos (by rw [fused, signed, beq_self_eq_true]; rfl)

theorem attestationReport_counts (nonce : BitVec 256) (below : s.attCount < 2 ^ 40) : ∃ r, exec (.attestationReport nonce) s =
    .next { s with attCount := s.attCount + 1, hostData := s.hostData ++ [r] } :=
  ⟨_, congrArg Host.Outcome.next (if_neg (Nat.not_le.mpr below))⟩

/-! The end of a command. -/

theorem foldl_calendar {α : Type} {f : State → α → State} (each : ∀ s x, ∃ calendar, f s x = { s with calendar }) (l : List α) (s : State) :
    ∃ calendar, l.foldl f s = { s with calendar } := by
  induction l generalizing s with
  | nil => exact ⟨s.calendar, rfl⟩
  | cons x l ih =>
    obtain ⟨calendar, one⟩ := each s x
    obtain ⟨calendar', rest⟩ := ih (f s x)
    refine ⟨calendar', rest.trans ?_⟩
    rw [one]

/-- Without a copy only the bins are tried again. -/
theorem retryParked_quiet (no_copy : s.copies = []) (part asid : Nat) : ∃ bins calendar, retryParked s part asid = { s with bins, calendar } := by
  unfold retryParked
  rw [show s.copies.filter _ = [] by rw [no_copy]; rfl, List.foldl_nil]
  generalize s.bins.map _ = bins
  refine ⟨bins, foldl_calendar (fun s d => ?_) (List.range 4) { s with bins }⟩
  by_cases due : s.bins.any (fun p => p.die == d && p.slot.isSome) = true
  · exact ⟨_, if_pos due⟩
  · exact ⟨s.calendar, if_neg due⟩

/-- The status that a command leaves: done, and none under way. -/
def CommandOver (t : State) (vf : Nat) : Prop := (partAt t vf).xcmd = 1 ∧ (partAt t vf).xrun = none

theorem commandDone_over (own : vf < 4) (no_copy : s.copies = []) (asid : Nat) : ∃ parts bins calendar,
    commandDone s vf asid 1 = { s with parts, bins, calendar } ∧ CommandOver { s with parts, bins, calendar } vf := by
  obtain ⟨parts, marked, read⟩ := modPart_spec (s := s) own (fun p => { p with xcmd := BitVec.ofNat 64 1, xrun := none })
  obtain ⟨bins, calendar, retried⟩ := retryParked_quiet (s := { s with parts }) no_copy vf asid
  have mine := (read vf own).trans (if_pos rfl)
  refine ⟨parts, bins, calendar, ?_, congrArg Part.xcmd mine, congrArg Part.xrun mine⟩
  unfold commandDone
  rw [marked]
  exact (if_pos rfl).trans retried

theorem noteArg_spec (own : vf < 4) (arg : Word) : ∃ parts, noteArg s vf arg = { s with parts } ∧
    (partAt { s with parts } vf).rpt = (partAt s vf).rpt := by
  obtain ⟨parts, noted, read⟩ := modPart_spec (s := s) own (fun p => { p with xarg := arg &&& 0x0000ffffffffffff })
  refine ⟨parts, noted, ?_⟩
  rw [read vf own, if_pos rfl]

theorem walk_parts {parts : _} (root : (partAt { s with parts } vf).rpt = (partAt s vf).rpt) (asid va : Nat) :
    walk { s with parts } vf asid va = walk s vf asid va := by
  unfold walk
  rw [root]
  rfl

theorem leafOf_parts {parts : _} (root : (partAt { s with parts } vf).rpt = (partAt s vf).rpt) (asid va : Nat) :
    leafOf { s with parts } vf asid va = leafOf s vf asid va := by
  unfold leafOf
  rw [walk_parts root]

/-- A virtual function that takes the command: it is on, has no command under way, and no copy can be parked. -/
structure TakesCommand (s : State) (vf : Nat) : Prop where
  own : vf < 4
  booted : s.bootOk = true
  die : ∃ d, d < 4 ∧ partOfDie s d = some vf
  idle : (partAt s vf).xrun = none
  no_copy : s.copies = []

theorem TakesCommand.not_refused (takes : TakesCommand s vf) (cmd arg : Word) : refusesCommand s vf cmd arg = false := by
  have on : vfOn s vf = true := (vfOn_iff s vf).mpr ⟨takes.booted, takes.die⟩
  unfold refusesCommand
  rw [on, takes.idle]
  rfl

/-! LOCK and UNLOCK. -/

/-- The frame of a leaf stands in the unit that its bits 47:36 name. -/
theorem unitOf_pteAddr (e : Word) : unitOf (pteAddr e) = e.toNat / 2 ^ 36 % 2 ^ 12 := by
  unfold unitOf pteAddr
  omega

theorem lock_enters (takes : TakesCommand s vf) {leaf : Word} {at' lv : Nat} (walked : walk s vf (cmdAsid arg) (cmdVa cmd) = .ok (leaf, at', lv))
    (free : sget 0 s.locked (lockKey vf (cmdAsid arg) lv (cmdVa cmd)) = 0)
    (room : (s.locked.filter (fun e => e.2.toNat / 2 ^ 36 % 2 ^ 12 == leaf.toNat / 2 ^ 36 % 2 ^ 12)).length < 4096) :
    ∃ t, exec (.lock vf cmd arg) s = .next t ∧ CommandOver t vf ∧ t.mem = s.mem ∧
      t.locked = sset 0 s.locked (lockKey vf (cmdAsid arg) lv (cmdVa cmd)) leaf := by
  have room' : ¬4096 ≤ lockedIn s leaf := by
    unfold lockedIn
    simp only [unitOf_pteAddr]
    exact Nat.not_le.mpr room
  have entered : lockPage s vf cmd arg = ({ s with locked := sset 0 s.locked (lockKey vf (cmdAsid arg) lv (cmdVa cmd)) leaf }, 1) := by
    unfold lockPage
    dsimp only
    rw [walked]
    exact (if_neg (not_not.mpr free)).trans (if_neg room')
  generalize sset 0 s.locked (lockKey vf (cmdAsid arg) lv (cmdVa cmd)) leaf = locked at entered ⊢
  obtain ⟨parts, noted, -⟩ := noteArg_spec (s := { s with locked }) takes.own arg
  obtain ⟨parts', bins, calendar, over_, status⟩ := commandDone_over (s := { s with locked, parts }) takes.own takes.no_copy (cmdAsid arg)
  refine ⟨_, congrArg Host.Outcome.next ?_, status, rfl, rfl⟩
  rw [takes.not_refused, if_neg Bool.false_ne_true, entered]
  dsimp only
  rw [noted, over_]

theorem unlock_clears (takes : TakesCommand s vf) (cmd arg : Word) : ∃ t, exec (.unlock vf cmd arg) s = .next t ∧ CommandOver t vf ∧
    t.mem = s.mem ∧ t.locked =
      sset 0 (sset 0 s.locked (lockKey vf (cmdAsid arg) 1 (cmdVa cmd)) 0) (lockKey vf (cmdAsid arg) 2 (cmdVa cmd)) 0 := by
  obtain ⟨parts, noted, -⟩ := noteArg_spec (s := unlockPage s vf cmd arg) takes.own arg
  obtain ⟨parts', bins, calendar, over_, status⟩ := commandDone_over (s := { unlockPage s vf cmd arg with parts }) takes.own takes.no_copy
    (cmdAsid arg)
  refine ⟨_, congrArg Host.Outcome.next ?_, status, rfl, rfl⟩
  rw [takes.not_refused, if_neg Bool.false_ne_true, noted, over_]

end Sys2Proof.Machine
end

section
/-! PAGE_INVALIDATE, MIGRATE and the chunks of a migration (R99, R102, R329). -/
namespace Sys2Proof.Machine

variable {s : State} {vf : Nat} {cmd arg : Word}

theorem strikeHbm_unarmed (unarmed : s.armed = []) (pa n : Nat) : strikeHbm pa n s = s := by
  unfold strikeHbm
  rw [unarmed]
  rfl

/-- Bytes stored where no sector is poisoned and no error armed. -/
theorem putHbm_clean (clean : s.poisonHbm = []) (unarmed : s.armed = []) (pa : Nat) (bs : List Byte) :
    putHbm s pa bs = { s with mem := putBytes s.mem pa bs } := by
  unfold putHbm
  dsimp only
  rw [if_pos (by rw [clean]; rfl), strikeHbm_unarmed]
  exact unarmed

/-- No tag of the page is left among the sets that an invalidation cleans. -/
theorem dropPage_drops (s : State) (part asid va : Nat) : ∀ e ∈ (dropPage s part asid va).caches.sets ++ (dropPage s part asid va).caches.tlb,
    ∀ x ∈ e.2, tagInPage part asid va x = false := by
  have cleaned : ∀ (m : Sparse (List Nat)) (e : Nat × List Nat),
      e ∈ (m.map (fun e => (e.1, e.2.filter (fun t => !tagInPage part asid va t)))).filter (fun e => !e.2.isEmpty) →
      ∀ x ∈ e.2, tagInPage part asid va x = false := fun m e he x hx => by
    obtain ⟨e', -, rfl⟩ := List.mem_map.mp (List.mem_filter.mp he).1
    simpa using (List.mem_filter.mp hx).2
  intro e he
  rcases List.mem_append.mp he with in_sets | in_buffer
  · exact cleaned _ e in_sets
  · exact cleaned _ e in_buffer

theorem walksOver_none (none_there : s.caches.walks = []) (part asid va : Nat) : walksOver s part asid va = s.cyc := by
  unfold walksOver
  rw [none_there]
  rfl

theorem pageInvalidate_drops (takes : TakesCommand s vf) (still : s.migrations = []) (no_walk : s.caches.walks = [])
    (free : ∀ lv, lv = 1 ∨ lv = 2 → sget 0 s.locked (lockKey vf (cmdAsid arg) lv (cmdVa cmd)) = 0)
    (settled : ∀ leaf lv, leafOf s vf (cmdAsid arg) (cmdVa cmd) = .ok (leaf, lv) → leaf.getLsbD 62 = false) :
    ∃ t, exec (.pageInvalidate vf cmd arg) s = .next t ∧ CommandOver t vf ∧ t.mem = s.mem ∧ t.locked = s.locked ∧
      t.caches = (dropPage s vf (cmdAsid arg) (cmdVa cmd)).caches := by
  obtain ⟨parts, noted, root⟩ := noteArg_spec (s := s) takes.own arg
  have unpinned : pinned { s with parts } vf (cmdAsid arg) (cmdVa cmd) = false := by
    unfold pinned
    rw [show sget 0 (State.locked _) _ = 0 from free 2 (.inr rfl), show sget 0 (State.locked _) _ = 0 from free 1 (.inl rfl)]
    rfl
  have no_migration : migrationOf { s with parts } vf (cmdAsid arg) (cmdVa cmd) = none := by
    unfold migrationOf
    rw [show State.migrations _ = [] from still]
    rfl
  have no_mig : migLeaf { s with parts } vf (cmdAsid arg) (cmdVa cmd) = false := by
    unfold migLeaf
    rw [leafOf_parts root]
    split
    · exact settled _ _ ‹_›
    · rfl
  have over_now : walksOver (dropPage { s with parts } vf (cmdAsid arg) (cmdVa cmd)) vf (cmdAsid arg) (cmdVa cmd) = s.cyc :=
    walksOver_none (s := dropPage { s with parts } vf (cmdAsid arg) (cmdVa cmd)) no_walk vf (cmdAsid arg) (cmdVa cmd)
  obtain ⟨parts', bins, calendar, over_, status⟩ := commandDone_over (s := dropPage { s with parts } vf (cmdAsid arg) (cmdVa cmd))
    takes.own takes.no_copy (cmdAsid arg)
  refine ⟨_, congrArg Host.Outcome.next ?_, status, rfl, rfl, rfl⟩
  rw [takes.not_refused, if_neg Bool.false_ne_true, noted]
  dsimp only
  rw [unpinned, no_migration, no_mig, if_neg (by decide), over_now, over_]
  exact if_neg (Nat.lt_irrefl _)

/-- The migration that MIGRATE starts of a page of 64 KiB. -/
def startedMigration (s : State) (vf asid va frame : Nat) (leaf : Word) (at' : Nat) : Migration :=
  { n := s.fresh, part := vf, asid, va := va / pageSize 2 * pageSize 2, leafAt := at', oldPa := pteAddr leaf / pageSize 2 * pageSize 2
    newPa := frame, m := 0, chunks := pageSize 2 / 512, locked := pinned s vf asid va }

theorem migrate_starts (takes : TakesCommand s vf) {leaf : Word} {at' : Nat}
    (walked : walk s vf (cmdAsid arg) (cmdVa cmd) = .ok (leaf, at', 2)) (settled : leaf.getLsbD 62 = false) (single : leaf.getLsbD 61 = false)
    (still : s.migrations = []) (clean : s.poisonHbm = []) (unarmed : s.armed = []) (inside : cmdFrame arg + 2 ^ 16 ≤ 2 ^ 39) :
    ∃ t, exec (.migrate vf cmd arg) s = .next t ∧ CommandOver t vf ∧
      t.migrations = [startedMigration s vf (cmdAsid arg) (cmdVa cmd) (cmdFrame arg) leaf at'] ∧
      t.mem = putBytes s.mem at' (toBytes 8 (leaf ||| 0x4000000000000000).toNat) := by
  obtain ⟨parts, noted, root⟩ := noteArg_spec (s := s) takes.own arg
  obtain ⟨u, u_eq⟩ : ∃ u, u = noteArg s vf arg := ⟨_, rfl⟩
  have fits : ¬hbmBytes < cmdFrame arg + pageSize 2 := Nat.not_lt.mpr inside
  have frame : u = { s with parts } := u_eq.trans noted
  have walked' : walk u vf (cmdAsid arg) (cmdVa cmd) = .ok (leaf, at', 2) := by rw [frame, walk_parts root, walked]
  have still' : u.migrations = [] := by rw [frame, still]
  have stored : putHbm u at' (toBytes 8 (leaf ||| 0x4000000000000000).toNat) =
      { u with mem := putBytes u.mem at' (toBytes 8 (leaf ||| 0x4000000000000000).toNat) } :=
    putHbm_clean (by rw [frame, clean]) (by rw [frame, unarmed]) _ _
  have begun : startedMigration u vf (cmdAsid arg) (cmdVa cmd) (cmdFrame arg) leaf at' =
      startedMigration s vf (cmdAsid arg) (cmdVa cmd) (cmdFrame arg) leaf at' := by
    rw [frame]
    rfl
  obtain ⟨parts', bins, calendar, over_, status⟩ := commandDone_over (s := { u with
    mem := putBytes u.mem at' (toBytes 8 (leaf ||| 0x4000000000000000).toNat)
    migrations := [startedMigration u vf (cmdAsid arg) (cmdVa cmd) (cmdFrame arg) leaf at'], fresh := u.fresh + 1
    calendar := u.calendar ++ [(u.cyc + 1, .migrationChunkCopy u.fresh)] }) takes.own (by rw [frame]; exact takes.no_copy) (cmdAsid arg)
  refine ⟨_, congrArg Host.Outcome.next ?_, status, congrArg (fun m => [m]) begun, by rw [frame]⟩
  rw [takes.not_refused, if_neg Bool.false_ne_true, ← u_eq]
  dsimp only
  rw [walked']
  dsimp only
  refine (if_neg ?not_refused).trans ?accepted
  case not_refused => simp [still', show pteMig leaf = false from settled, fits]
  case accepted =>
    rw [stored, show pteRepl leaf = false from single, if_neg Bool.false_ne_true, still']
    exact over_

/-- One chunk of the only migration, not the last. -/
theorem migrationChunkCopy_moves {m : Migration} (only : s.migrations = [m]) (more : m.m + 1 < m.chunks) (clean : s.poisonHbm = [])
    (unarmed : s.armed = []) : ∃ t, exec (.migrationChunkCopy m.n) s = .next t ∧ t.migrations = [{ m with m := m.m + 1 }] ∧ t.h = s.h ∧
    t.gangs = s.gangs ∧ t.mem = putBytes s.mem (m.newPa + 512 * m.m) (bytesAt s.mem (m.oldPa + 512 * m.m) 512) := by
  have found : s.migrations.find? (fun x => x.n == m.n) = some m := by simp [only]
  have sound : hbmPoisoned s (m.oldPa + 512 * m.m) 512 = false := by simp [hbmPoisoned, clean]
  have moved : exec (.migrationChunkCopy m.n) s = .next (schedule (copyMigrating s m) (s.cyc + 1) (.migrationChunkCopy m.n)) := by
    refine congrArg Host.Outcome.next ?_
    rw [found]
    dsimp only
    rw [if_neg (by omega), sound, if_neg Bool.false_ne_true, if_neg (by omega), copyMigrating_cyc]
  refine ⟨_, moved, ?_⟩
  unfold schedule copyMigrating
  dsimp only
  rw [strikeHbm_unarmed (by exact unarmed), only]
  simp

end Sys2Proof.Machine

open Sys2Proof Sys2Proof.Machine

/-- Settles O51: each command by what it leaves, its status 1 with none under way. -/
theorem bootAndTranslationCommandsComplete : Obligations.BootAndTranslationCommandsComplete := by
  refine ⟨fun s image key sig sound fused signed => ⟨_, firmwareBoot_good sound fused signed, rfl⟩, fun s nonce below => ?_,
    fun s vf cmd arg own booted die idle no_copy => ?_, fun s m only more clean unarmed => ?_⟩
  · obtain ⟨r, run⟩ := attestationReport_counts nonce below
    exact ⟨_, r, run, rfl⟩
  · intro va asid frame key done
    have takes : TakesCommand s vf := ⟨own, booted, die, idle, no_copy⟩
    refine ⟨fun leaf at' lv walked free room => ?_, ?_, fun still no_walk free₁ free₂ settled => ?_,
      fun leaf at' walked settled single still clean unarmed inside => ?_⟩
    · obtain ⟨t, run, status, mem, locked⟩ := lock_enters takes walked free room
      exact ⟨t, run, status, mem, fun k => (congrArg (sget 0 · k) locked).trans (sget_sset _ _ _ _ _)⟩
    · obtain ⟨t, run, status, mem, locked⟩ := unlock_clears takes cmd arg
      refine ⟨t, run, status, mem, fun k => ?_⟩
      rw [show t.locked = sset 0 (sset 0 s.locked (key 1) 0) (key 2) 0 from locked, sget_sset, sget_sset]
      by_cases second : k = key 2
      · rw [if_pos second, if_pos (.inr second)]
      · rw [if_neg second]
        exact if_congr (by simp [second, key]) rfl rfl
    · obtain ⟨t, run, status, mem, locked, caches⟩ := pageInvalidate_drops takes still no_walk
        (fun lv which => by rcases which with rfl | rfl; exacts [free₁, free₂]) settled
      exact ⟨t, run, status, mem, locked, caches ▸ dropPage_drops s vf asid va⟩
    · obtain ⟨t, run, status, migrations, mem⟩ := migrate_starts takes walked settled single still clean unarmed inside
      have bytes : ∀ a, sget 0 t.mem a = if at' ≤ a ∧ a < at' + 8 then byteOf (leaf ||| 0x4000000000000000) (a - at') else sget 0 s.mem a :=
        fun a => by rw [mem, sget_putDword]
      refine ⟨t, _, run, status, migrations, rfl, rfl, rfl, ?_, rfl, rfl, rfl, fun k hk => ?_, fun a apart => ?_⟩
      · show va / 2 ^ 16 * 2 ^ 16 = va
        exact Nat.div_mul_cancel (Nat.dvd_mul_left _ _)
      · rw [bytes, if_pos (by omega), Nat.add_sub_cancel_left, byteOf_getLsbD _ _ (Nat.mod_lt _ (by decide)), Nat.div_add_mod]
      · rw [bytes, if_neg (by omega)]
  · obtain ⟨t, run, migrations, h, gangs, mem⟩ := migrationChunkCopy_moves only more clean unarmed
    refine ⟨t, run, migrations, h, gangs, fun a => ?_⟩
    rw [mem, sget_putBytes, show (bytesAt s.mem (m.oldPa + 512 * m.m) 512).length = 512 by simp [bytesAt]]
    split
    · rw [getD_bytesAt _ _ (by omega)]
    · rfl
end
